-- ==== Sys2Proof/Word.lean ====
section
/-! DEFINITION. The words of the part: bytes, register words, received samples; and tables of a fixed number of
like things (outlets, inlets, slots ...), which carry their own length. -/

namespace Sys2Proof

/-- One byte of shared memory. -/
abbrev Byte := BitVec 8

/-- A register of the window, or a 32-bit field of a record (section 1.9). -/
abbrev Word := BitVec 32

/-- An audio sample as a trunk carries it: signed 24 bits (spec/00_scope.md 6.3). -/
abbrev Sample := BitVec 24

/-- A table of `n` entries, numbered from 0 (spec/00_scope.md 6.2). -/
structure Tab (n : Nat) (α : Type) where
  list : List α
  len : list.length = n
deriving DecidableEq, Repr

def Tab.replicate (n : Nat) {α : Type} (a : α) : Tab n α :=
  ⟨List.replicate n a, List.length_replicate⟩

def Tab.get {n : Nat} {α : Type} (t : Tab n α) (i : Fin n) : α :=
  t.list[i.val]'(by rw [t.len]; exact i.isLt)

def Tab.set {n : Nat} {α : Type} (t : Tab n α) (i : Fin n) (a : α) : Tab n α :=
  ⟨t.list.set i.val a, by rw [List.length_set]; exact t.len⟩

def Tab.modify {n : Nat} {α : Type} (t : Tab n α) (i : Fin n) (f : α → α) : Tab n α :=
  t.set i (f (t.get i))

def Tab.map {n : Nat} {α β : Type} (f : α → β) (t : Tab n α) : Tab n β :=
  ⟨t.list.map f, by rw [List.length_map]; exact t.len⟩

/-- The numbers `0 .. n-1` in rising order. -/
def allFin (n : Nat) : List (Fin n) := List.finRange n

/-- The table whose entry `i` is `f i`. -/
def Tab.ofFn {n : Nat} {α : Type} (f : Fin n → α) : Tab n α :=
  ⟨(allFin n).map f, by simp [allFin]⟩

/-- The numbers of the entries that satisfy `p`, in rising order. -/
def Tab.indices {n : Nat} {α : Type} (t : Tab n α) (p : α → Bool) : List (Fin n) :=
  (allFin n).filter fun i => p (t.get i)

end Sys2Proof
end

