-- ==== Sys2Proof/Syntax.lean ====
section
/-! DEFINITION. The commands of the part: one constructor of `Instr` for each row of spec/opcode_table.json, with
what the outside world supplies to that step. The table gives no fields (log entries 4, 5 and 21). -/

namespace Sys2Proof

/-- The six work lists, in the order of the STAT and NUDGE bits (section 1.9). -/
inductive ListId where
  | setup | program | call | alarm | cue | note
deriving DecidableEq, Repr

/-- An ability block: the far end's answer to an offer (R168). -/
structure AbilityBlock where
  training : Byte
  served : Byte
  present : Byte
  overrideLines : Bool
  supervision : Bool
  changeover : Bool
deriving DecidableEq, Repr

/-- What a control block says of one outlet slot: loop reading and amplifier-fault flag (R170). -/
structure LoopReport where
  reading : BitVec 10
  fault : Bool
deriving DecidableEq, Repr

/-- A station report (R113): presence flag, hook state, key field. -/
structure StationReport where
  present : Bool
  offHook : Bool
  key : Option (Fin 16)
deriving DecidableEq, Repr

/-- An inbound control block (R170): the group number, eight loop reports, eight station reports, two echoes. An
echo is none or the pair (faulted slot, spare slot). -/
structure ControlBlock where
  group : Fin 8
  loops : List LoopReport
  stations : List StationReport
  echoes : List (Option (Fin 64 × Fin 64))
deriving DecidableEq, Repr

/-- The commands. A `List Byte` operand is the data that a transfer on the memory port delivers. -/
inductive Instr where
  /-- Power is applied (R19). -/
  | powerOn
  /-- 1 is written to CTRL.RESET (R187). -/
  | softReset
  /-- RUN = 1 is written (R2, R3). -/
  | runStart
  /-- RUN = 0 is written (R2, R4). -/
  | runStop
  /-- A write to ROOTADR, STAT, CAUSE or an offset above 0x18 (R1). -/
  | registerWrite (offset : Nat) (value : Word)
  /-- A write to NUDGE (R9). -/
  | nudge (value : Word)
  /-- A write to BEAT (R184). -/
  | beat (value : Word)
  /-- A write to CMASK (R183). -/
  | cmaskWrite (value : Word)
  /-- A read of CAUSE (R183). -/
  | causeRead
  /-- The root block read completes with these 64 bytes (R3). -/
  | rootBlockRead (data : List Byte)
  /-- A list's scan timer expires (R9). -/
  | scanTimerExpiry (l : ListId)
  /-- A list's record read completes with these 64 bytes (R10, R11). -/
  | recordRead (l : ListId) (data : List Byte)
  /-- A list's link read completes with this link (R13). -/
  | linkRead (l : ListId) (link : Word)
  /-- A list's block read completes with these bytes (R11). -/
  | blockRead (l : ListId) (data : List Byte)
  /-- A list's TAKEN write completes (R8). -/
  | takenWrite (l : ListId)
  /-- A return write of a record of a list completes (R8). -/
  | returnWrite (l : ListId)
  | defineOutlet
  | defineInlet
  | defineStation
  | definePattern
  | defineAlarm
  | calibrate
  | releaseChangeover
  | snapshot
  /-- One snapshot piece is written (R16, R31). -/
  | snapshotPiece
  | startProgram
  | stopProgram
  | setProgramGain
  | openCall
  | addParty
  | dropParty
  | closeCall
  | raiseAlarm
  | silenceAlarm
  | resetAlarm
  | cue
  | go
  | holdShow
  | resumeShow
  | clearShow
  | bindSource
  | noteSpace
  /-- A note write completes (R182). -/
  | noteWrite
  /-- A mix period starts; `audio` is what the trunk slots receive in it, by inlet number (R26, R61). -/
  | mixPeriodStart (audio : List (List Sample))
  | answerTimerExpiry (k : Fin 4)
  | abilityBlock (k : Fin 4) (b : AbilityBlock)
  | syncHoldExpiry (k : Fin 4)
  | inboundControlBlock (k : Fin 4) (b : ControlBlock)
  | changeoverPendingExpiry (x : Fin 8)
  | changeoverReleaseExpiry (x : Fin 8)
  | holdTimerExpiry (n : Fin 64)
  | ringTimerExpiry (c : Fin 16) (p : Fin 8)
  | gatherTimerExpiry (p : Fin 64)
  | durationTimerExpiry (p : Fin 64)
  | duckHoldExpiry (o : Fin 256)
  | ambientWindowComplete
  /-- A fragment read completes with these 32 bytes (R96). -/
  | fragmentRead (c : Fin 16) (data : List Byte)
  /-- A fetch burst completes with these bytes (R97). -/
  | fetchBurst (c : Fin 16) (data : List Byte)
  | fragmentWriteBack (c : Fin 16)
  /-- A fragment read of a return walk completes with these 32 bytes (R107). -/
  | returnWalkRead (c : Fin 16) (data : List Byte)
  | toneSegmentEnd (v : Fin 8)
  | acceptedClosure (line : Fin 4)
  | acceptedOpening (line : Fin 4)
  | fadeComplete
  | followTimerExpiry
  | beatCounterExpiry
  /-- A 1 ms sample of a contact line, closed or open (R149). -/
  | contactLineSample (line : Fin 4) (closed : Bool)
deriving DecidableEq, Repr

end Sys2Proof
end

