-- ==== Sys2Proof/Config.lean ====
section
/-! DEFINITION. What the spec leaves open and an implementation fixes: constants with no body, so that nothing can
be proved of their values. -/

namespace Sys2Proof

/-- DESIGN CHOICE (log entry 16, safe). The value of a snapshot field for which the spec states none: the source
kind and the source number of a PAGE or alarm program, the source number of a stream (section 1.9). The model draws
the `n`-th such value and goes on to `n + 1`. -/
opaque Config.freeValue : Nat → BitVec 16

end Sys2Proof
end

