-- ==== Sys2Proof/Machine/State.lean ====
section
/-! DEFINITION. The state of the part, block by block (spec/00_scope.md section 3), as plain data; the state after
power-on; and the reasons a step can stop. Every field is listed with its rule in INVENTORY.md. -/

namespace Sys2Proof

def ListId.idx : ListId → Fin 6
  | .setup => 0 | .program => 1 | .call => 2 | .alarm => 3 | .cue => 4 | .note => 5

def ListId.all : List ListId := [.setup, .program, .call, .alarm, .cue, .note]

end Sys2Proof

namespace Sys2Proof.Machine

/-! ### Part state and the List Engine -/

inductive PartState where
  | halted | running | fallback
deriving DecidableEq, Repr

/-- What the part keeps of a record it has taken: its address, and the kind, tag and clamp mark that its return
write repeats (R8, R16). -/
structure RecRef where
  addr : Nat
  kind : Nat
  tag : Nat
  mark : Bool
deriving DecidableEq, Repr

/-- A return write that is due: result fields as (offset in the record, bytes), then the final status (R8). -/
structure Return where
  record : RecRef
  status : Nat
  results : List (Nat × List Byte)
deriving DecidableEq, Repr

/-- A record in a walker's hand, as read (R10). -/
structure Hand where
  addr : Nat
  bytes : List Byte
deriving DecidableEq, Repr

/-- What a walk has outstanding (R10 to R13). `blockRead` holds the blocks read so far and the (address, size) of
those still to read. -/
inductive Stage where
  | quiet
  | recordRead
  | linkRead
  | blockRead (h : Hand) (got : List (List Byte)) (left : List (Nat × Nat))
  | handOver (h : Hand) (blocks : List (List Byte))
  | takenWrite (h : Hand) (mark : Bool)
  | returnWrite (h : Hand) (r : Return) (thenError : Bool)
deriving DecidableEq, Repr

inductive WalkerState where
  | idle | tail | stalled | error | stopped
deriving DecidableEq, Repr

/-- One list's walker (section 1.4). `scan` is the scan timer in ms: none when stopped, 0 when its expiry is due. -/
structure Walker where
  state : WalkerState := .stopped
  cursor : Nat := 0
  scan : Option Nat := none
  again : Bool := false
  stage : Stage := .quiet
  ending : Bool := false
  stale : Bool := false
deriving DecidableEq, Repr

/-- The root block copy (R3). -/
structure RootCopy where
  base : Nat := 0
  limit : Nat := 0
  scan : Nat := 0
  beatWindow : Nat := 0
  ambientWindow : Nat := 0
  micEnabled : Bool := false
  autoResume : Bool := false
deriving DecidableEq, Repr

/-- The root block read outstanding: the address it was requested at (R3), and whether it is marked for discard (R2). -/
structure RootRead where
  addr : Nat
  discard : Bool
deriving DecidableEq, Repr

/-- The SNAPSHOT being served (R16). -/
structure Snap where
  record : RecRef
  table : Nat
  next : Nat
  left : Nat
  buffer : Nat
  written : Nat
  ready : Bool
deriving DecidableEq, Repr

structure ListEngine where
  walkers : Tab 6 Walker := Tab.replicate 6 {}
  errors : Tab 6 Bool := Tab.replicate 6 false
  root : RootCopy := {}
  rootRead : Option RootRead := none
  returns : Tab 6 (List Return) := Tab.replicate 6 []
  snap : Option Snap := none
deriving DecidableEq, Repr

/-- One write on the memory port: the object's address and its pieces, (offset, bytes), in the order they are
written. -/
structure PortWrite where
  addr : Nat
  pieces : List (Nat × List Byte)
deriving DecidableEq, Repr

/-- A playback channel's transfer (R100). -/
inductive Xfer where
  | fragmentRead (addr : Nat)
  | burst (addr : Nat) (samples : Nat)
  | writeBack (w : PortWrite)
  | walkRead (addr : Nat)
deriving DecidableEq, Repr

/-- What a grant of the memory port carries (R18). -/
inductive Transfer where
  | rootRead (addr : Nat)
  | recordRead (l : ListId)
  | linkRead (l : ListId)
  | blockRead (l : ListId)
  | takenWrite (l : ListId) (w : PortWrite)
  | returnWrite (l : ListId) (w : PortWrite)
  | pendingReturn (l : ListId) (w : PortWrite)
  | noteWrite (w : PortWrite)
  | snapPiece (table entry addr : Nat)
  | channel (c : Fin 16) (x : Xfer)
deriving DecidableEq, Repr

/-- The grant in progress; a discarded one ends with no effect on the part (R19, R106, R109). -/
structure Grant where
  transfer : Transfer
  discard : Bool
deriving DecidableEq, Repr

structure Port where
  grant : Option Grant := none
  written : Option PortWrite := none
deriving DecidableEq, Repr

structure Regs where
  run : Bool := false
  rootadr : Word := 0
  cause : Byte := 0
  cmask : Byte := 0
  readData : Word := 0
deriving DecidableEq, Repr

/-! ### Outlets, inlets, stations -/

inductive OutletKind where
  | undefined | cabinLoop | publicSpace | crewArea | theatre | station | spare
deriving DecidableEq, Repr

/-- An outlet entry with its power-on values (R20). -/
structure Outlet where
  kind : OutletKind := .undefined
  area : Fin 16 := 0
  trim : Nat := 4096
  rampStep : Nat := 64
  duckDepth : Nat := 1024
  duckHold : Nat := 500
  overrideThreshold : Nat := 10
  alarmFloor : Nat := 4096
  compEnable : Bool := false
  smoothing : Nat := 4
  margin : Nat := 0
  slope : Nat := 0
  cap : Nat := 0
  senseInlet : Option (Fin 256) := none
  loopLow : Nat := 0
  loopHigh : Nat := 0
  confirm : Nat := 3
  autoChangeover : Bool := false
deriving DecidableEq, Repr

inductive InletKind where
  | undefined | consoleMic | stationMic | senseMic | line | contactMic
deriving DecidableEq, Repr

inductive StationState where
  | undefined | idle | ringing | inCall | lost
deriving DecidableEq, Repr

/-- A station entry with its power-on values (R28). `holdTimer` is none when stopped, 0 when its expiry is due. -/
structure Station where
  binding : Option (Fin 256 × Fin 256) := none
  holdValue : Nat := 300
  state : StationState := .undefined
  offHook : Bool := false
  holdTimer : Option Nat := none
  call : Option (Fin 16) := none
deriving DecidableEq, Repr

/-! ### Claims and programs -/

/-- The owner of a claim (R51). -/
inductive Owner where
  | program (p : Fin 64)
  | party (c : Fin 16) (i : Fin 8)
deriving DecidableEq, Repr

inductive ClaimState where
  | holding | undertone | waiting | locked
deriving DecidableEq, Repr

structure Claim where
  owner : Owner
  priority : Nat
  arrival : Nat
  duckable : Bool
  allowsUndertone : Bool
  state : ClaimState
deriving DecidableEq, Repr

structure ClaimUnit where
  stack : Tab 256 (List Claim) := Tab.replicate 256 []
  floors : Tab 16 Nat := Tab.replicate 16 0
  lines : Tab 256 Bool := Tab.replicate 256 false
  arrivals : Nat := 0
deriving DecidableEq, Repr

inductive ProgState where
  | free | gathering | chiming | playing | held | ending
deriving DecidableEq, Repr

inductive ProgKind where
  | announce | background | theatre | page | alarm | contactMic
deriving DecidableEq, Repr

/-- The source a program carries (R33). A stream's channel is the channel owned by the slot. -/
inductive Source where
  | silent
  | inlet (i : Fin 256)
  | stream
  | bus (b : Fin 8)
  | pageMix (c : Fin 16)
  | alarmSound
deriving DecidableEq, Repr

inductive Policy where
  | now | all | ifFree
deriving DecidableEq, Repr

inductive StopMode where
  | unset | fade | finish
deriving DecidableEq, Repr

/-- A program slot (R33). Timers: none when stopped, 0 when the expiry is due. -/
structure Program where
  state : ProgState := .free
  kind : ProgKind := .announce
  source : Source := .silent
  priority : Nat := 0
  targets : List (Fin 256) := []
  policy : Policy := .now
  gatherTimeout : Nat := 0
  gatherTimer : Option Nat := none
  chime : Option (Fin 12) := none
  chimeSkipped : Bool := false
  gain : Nat := 0
  duckable : Bool := false
  allowsUndertone : Bool := false
  holdThreshold : Nat := 0
  maxDuration : Nat := 0
  durationTimer : Option Nat := none
  durationStarted : Bool := false
  arrival : Nat := 0
  admitted : Nat := 0
  held : Nat := 0
  stopMode : StopMode := .unset
  record : Option RecRef := none
  reservation : Option (Fin 16) := none
deriving DecidableEq, Repr

/-! ### Mixer and Ambient Unit -/

/-- A claim as the Mixer knows it: owner and arrival number (R63). -/
abbrev ClaimId := Owner × Nat

structure MixEntry where
  fg : Option ClaimId := none
  gc : Nat := 0
  ug : Option ClaimId := none
  uc : Nat := 0
  /-- Duck-hold timer: remaining steps and the claim it was started for. -/
  duck : Option (Nat × ClaimId) := none
  clips : Nat := 0
deriving DecidableEq, Repr

/-- A pending ambient capture; `begun` when a window has begun since the hand-over (R91). -/
structure AmbientCapture where
  record : RecRef
  begun : Bool
deriving DecidableEq, Repr

structure AmbientEntry where
  sum : Nat := 0
  gated : Bool := false
  unheard : Bool := false
  void : Bool := false
  level : Nat := 0
  baseline : Nat := 0
  factor : Nat := 4096
  gatedCount : Nat := 0
  capture : Option AmbientCapture := none
deriving DecidableEq, Repr

structure Ambient where
  window : Nat := 100
  length : Nat := 100
  position : Nat := 0
  outlets : Tab 256 AmbientEntry := Tab.replicate 256 {}
deriving DecidableEq, Repr

/-! ### Playback Unit -/

/-- A stream descriptor (section 1.9) after R95 has settled its prime level. -/
structure StreamDesc where
  first : Nat := 0
  pcm24 : Bool := false
  swapped : Bool := false
  repeats : Bool := false
  count : Nat := 0
  prime : Nat := 0
deriving DecidableEq, Repr

inductive ChanOwner where
  | program (p : Fin 64)
  | source (x : Fin 16)
deriving DecidableEq, Repr

inductive ChanState where
  | free | priming | ready | playing | starved | paused | draining | ended
deriving DecidableEq, Repr

/-- A fragment the channel has taken (R96). -/
structure Fragment where
  addr : Nat
  flags : Byte
  count : Nat
  buffer : Nat
  more : Bool
  link : Nat
  fetched : Nat
deriving DecidableEq, Repr

inductive Current where
  | empty
  | toRead (addr : Nat)
  | waiting (addr : Nat)
  | taken (f : Fragment)
deriving DecidableEq, Repr

/-- A return walk (R107): the next fragment address to read, or the fragment just read that is to be written back;
and how many fragments it has met. -/
structure ReturnWalk where
  next : Option Nat
  back : Option Fragment
  count : Nat
deriving DecidableEq, Repr

structure Channel where
  state : ChanState := .free
  owner : Option ChanOwner := none
  run : Bool := false
  resumeTo : ChanState := .playing
  desc : StreamDesc := {}
  passes : Nat := 0
  cur : Current := .empty
  returned : Bool := false
  place : Nat := 0
  reached : Nat := 0
  chainComplete : Bool := false
  fetchEnded : Bool := false
  fifo : List Int := []
  reread : Bool := false
  walk : Option ReturnWalk := none
deriving DecidableEq, Repr

/-! ### Intercom Unit -/

inductive CallState where
  | free | ringing | active | clearing
deriving DecidableEq, Repr

inductive PartyState where
  | ringing | connected | busy | left | lost | noAnswer
deriving DecidableEq, Repr

structure Party where
  station : Fin 64
  ring : Bool
  talk : Nat
  listen : Nat
  state : PartyState
  outletLost : Bool
  ringTimer : Option Nat
  arrival : Nat
  /-- The outlet at which the party's claim is placed, or none. -/
  claim : Option (Fin 256)
deriving DecidableEq, Repr

inductive PageState where
  | reserved | running | ended
deriving DecidableEq, Repr

structure Page where
  slot : Fin 64
  targets : List (Fin 256)
  policy : Nat
  gain : Nat
  state : PageState
deriving DecidableEq, Repr

structure Call where
  state : CallState := .free
  priority : Nat := 0
  ringTimeout : Nat := 0
  anchor : Nat := 0
  parties : List Party := []
  arrival : Nat := 0
  page : Option Page := none
  everActive : Bool := false
  record : Option RecRef := none
  final : List Byte := []
deriving DecidableEq, Repr

/-! ### Tone Pool, Alarm Unit, Contact Inputs -/

structure Segment where
  duration : Nat
  freq : Nat
  level : Nat
deriving DecidableEq, Repr

/-- A pattern definition (R132). `next` is the pattern a CONTINUE names; none is a STOP. -/
structure PatternDef where
  segments : List Segment := []
  cycles : Nat := 0
  next : Option (Fin 12) := none
deriving DecidableEq, Repr

structure Pattern where
  stored : Option PatternDef := none
  pendingCopy : Option PatternDef := none
  owing : List (Fin 8) := []
deriving DecidableEq, Repr

inductive AlarmKind where
  | muster | fire | security | crewAlert
deriving DecidableEq, Repr

inductive VoiceUser where
  | nobody
  | alarm (k : AlarmKind)
  | ring
  | chime (p : Fin 64)
deriving DecidableEq, Repr

/-- A voice is silent, or starts at the next period start (keeping its count of cycles or not), or sounds. -/
inductive VoiceMode where
  | silent
  | starting (keepCount : Bool)
  | sounding
deriving DecidableEq, Repr

structure Voice where
  user : VoiceUser := .nobody
  mode : VoiceMode := .silent
  pattern : Fin 12 := 0
  copy : PatternDef := {}
  segment : Nat := 0
  left : Nat := 0
  cycles : Nat := 0
  phase : Nat := 0
  inc : Nat := 0
deriving DecidableEq, Repr

structure TonePool where
  patterns : Tab 12 Pattern := Tab.replicate 12 {}
  voices : Tab 8 Voice := Tab.replicate 8 {}
deriving DecidableEq, Repr

inductive AreaState where
  | quiet | sounding | silenced
deriving DecidableEq, Repr

structure AlarmDef where
  pattern : Fin 12
  toneCycles : Nat
  stream : Option StreamDesc
deriving DecidableEq, Repr

inductive AlarmPhase where
  | unset | tone | voice
deriving DecidableEq, Repr

structure AlarmStatus where
  phase : AlarmPhase := .unset
  count : Nat := 0
  lastArrival : Nat := 0
deriving DecidableEq, Repr

structure AlarmUnit where
  table : Tab 4 (Tab 16 AreaState) := Tab.replicate 4 (Tab.replicate 16 .quiet)
  defs : Tab 4 (Option AlarmDef) := Tab.replicate 4 none
  kinds : Tab 4 AlarmStatus := Tab.replicate 4 {}
deriving DecidableEq, Repr

/-- A contact filter (R149). -/
structure Contact where
  closed : Bool := false
  count : Nat := 0
deriving DecidableEq, Repr

/-! ### Show Controller -/

inductive ShowState where
  | idle | ready | waiting | fading | held
deriving DecidableEq, Repr

inductive TrackAction where
  | start (x : Fin 16) (d : StreamDesc)
  | stop (x : Fin 16)
deriving DecidableEq, Repr

/-- A queued cue; `scene` is its scene block: 128 crosspoints, source-major, then 8 masters (section 1.9). -/
structure Cue where
  record : RecRef
  scene : List Nat
  fade : Nat
  auto : Bool
  delay : Nat
  tracks : List TrackAction
deriving DecidableEq, Repr

/-- A scene bank: 128 crosspoint gains, source-major, then 8 master gains (R153). -/
abbrev Bank := Tab 136 Nat

structure HoldRecord where
  byHost : Bool
  heldFrom : ShowState
  autoResume : Bool
  outlets : List (Fin 64 × List (Fin 256))
deriving DecidableEq, Repr

inductive Binding where
  | unbound
  | line (i : Fin 256)
  | playback
deriving DecidableEq, Repr

structure Theatre where
  state : ShowState := .idle
  queue : List Cue := []
  live : Bank := Tab.replicate 136 0
  next : Option Bank := none
  pos : Nat := 0
  len : Nat := 0
  fresh : Bool := false
  stepped : Bool := false
  follow : Option Nat := none
  hold : Option HoldRecord := none
  bindings : Tab 16 Binding := Tab.replicate 16 .unbound
deriving DecidableEq, Repr

/-! ### Trunks, supervision, changeover -/

inductive LinkState where
  | down | training | up
deriving DecidableEq, Repr

structure Trunk where
  link : LinkState := .down
  training : Byte := 0
  answer : Option Nat := none
  sync : Option Nat := none
  served : Nat := 0
  present : Nat := 0
  overrideLines : Bool := false
  supervision : Bool := false
  changeover : Bool := false
deriving DecidableEq, Repr

inductive LoopState where
  | unsupervised | normal | suspect | faultOpen | faultShort | unserved
deriving DecidableEq, Repr

inductive Side where
  | within | high | low
deriving DecidableEq, Repr

structure LoopCapture where
  record : RecRef
  count : Nat
  sum : Nat
deriving DecidableEq, Repr

structure Loop where
  baseline : Nat := 0
  baselineSet : Bool := false
  state : LoopState := .unserved
  streak : Option (Side × Nat) := none
  last : Nat := 0
  ampFault : Bool := false
  capture : Option LoopCapture := none
deriving DecidableEq, Repr

inductive SlotState where
  | free | pending | active | releasing
deriving DecidableEq, Repr

structure Changeover where
  state : SlotState := .free
  faulted : Fin 256 := 0
  spare : Fin 256 := 0
  timer : Option Nat := none
deriving DecidableEq, Repr

/-- What a trunk sent in the last period (R168, R171): an offer, or the audio of 64 slots (an empty block for a slot
that carries nothing), 64 override lines and two command fields. -/
inductive Outbound where
  | offer (trunk : Fin 4) (training : Byte) (outletSlots inletSlots : Nat) (audio : List (List Int))
  | transfer (audio : List (List Int)) (lines : List Bool) (commands : List (Option (Nat × Nat)))
deriving DecidableEq, Repr

/-! ### Note Unit, Beat Monitor -/

inductive NoteKind where
  | alarmState | contact | loopFault | ampFault | changeover | trunk | station | stationKey | streamStarved
  | showState | fallback
deriving DecidableEq, Repr

structure Note where
  kind : NoteKind
  code : Nat
  subject : Nat
  detail : Nat
  time : Word
deriving DecidableEq, Repr

/-- The held NOTE_SPACE record: its TAKEN write is not done; it is ready; its note write is in progress. -/
inductive SpacePhase where
  | taking | ready | writing
deriving DecidableEq, Repr

structure NoteUnit where
  queue : List Note := []
  lost : Nat := 0
  held : Option (RecRef × SpacePhase) := none
deriving DecidableEq, Repr

structure Beat where
  counter : Nat := 0
  sub : Nat := 0
deriving DecidableEq, Repr

/-! ### The state -/

structure State where
  regs : Regs := {}
  part : PartState := .halted
  lists : ListEngine := {}
  port : Port := {}
  outlets : Tab 256 Outlet := Tab.replicate 256 {}
  inlets : Tab 256 InletKind := Tab.replicate 256 .undefined
  stations : Tab 64 Station := Tab.replicate 64 {}
  programs : Tab 64 Program := Tab.replicate 64 {}
  claims : ClaimUnit := {}
  mixer : Tab 256 MixEntry := Tab.replicate 256 {}
  ambient : Ambient := {}
  channels : Tab 16 Channel := Tab.replicate 16 {}
  calls : Tab 16 Call := Tab.replicate 16 {}
  tones : TonePool := {}
  alarms : AlarmUnit := {}
  contacts : Tab 4 Contact := Tab.replicate 4 {}
  theatre : Theatre := {}
  trunks : Tab 4 Trunk := Tab.replicate 4 {}
  loops : Tab 256 Loop := Tab.replicate 256 {}
  changeovers : Tab 8 Changeover := Tab.replicate 8 {}
  notes : NoteUnit := {}
  beat : Beat := {}
  time : Word := 0
  outbound : Tab 4 (Option Outbound) := Tab.replicate 4 none
  freeCount : Nat := 0
  pending : List Instr := []
deriving DecidableEq, Repr

/-- The state after power-on (R19, R20, R26, R28, R33, R60, R63, R82, R94, R117, R132, R135, R139, R140, R149, R153,
R167, R172, R177, R181, R183, R184), with an empty queue of commands. -/
def State.reset : State := {}

/-- No command stops the part: the spec answers every error with a status, a list in ERROR, a CAUSE bit or a note. So
there is no fault, and nobody raises one (safe). -/
inductive Fault
deriving DecidableEq, Repr

/-- `notModelled` is raised by an arm of `exec` whose command has no meaning yet: by none (safe). -/
inductive Refusal where
  | notModelled (mnemonic : String)
deriving DecidableEq, Repr

end Sys2Proof.Machine
end

