-- ==== Sys2Proof/Machine/Flags.lean ====
section
/-! DEFINITION. Status bits: CAUSE and the INT line (R183), STAT (R6), and the reads of the register window (R1). -/

namespace Sys2Proof.Machine

/-- The bits of CAUSE, by position (section 1.9). -/
inductive CauseBit where
  | returned | note | noteWait | alarm | fault | fallback | listError | contact
deriving DecidableEq, Repr

def CauseBit.pos : CauseBit → Nat
  | .returned => 0 | .note => 1 | .noteWait => 2 | .alarm => 3
  | .fault => 4 | .fallback => 5 | .listError => 6 | .contact => 7

/-- A cause bit is set (R183). -/
def State.setCause (b : CauseBit) (s : State) : State :=
  { s with regs := { s.regs with cause := s.regs.cause ||| BitVec.twoPow 8 b.pos } }

def State.causeHas (b : CauseBit) (s : State) : Bool := s.regs.cause.getLsbD b.pos

/-- INT is asserted while a CAUSE bit is 1 whose CMASK bit is also 1 (R183). -/
def State.intLine (s : State) : Bool := s.regs.cause &&& s.regs.cmask != 0

def PartState.code : PartState → Nat
  | .halted => 0 | .running => 1 | .fallback => 2

def AlarmKind.idx : AlarmKind → Fin 4
  | .muster => 0 | .fire => 1 | .security => 2 | .crewAlert => 3

def AlarmKind.all : List AlarmKind := [.muster, .fire, .security, .crewAlert]

/-- The STAT alarm flag: some kind is SOUNDING in some area (R6, R140). -/
def State.alarmFlag (s : State) : Bool :=
  s.alarms.table.list.any fun row => row.list.any fun a => a == .sounding

/-- Bits, least significant first, as a number. -/
def bitsValue : List Bool → Nat
  | [] => 0
  | b :: bs => (if b then 1 else 0) + 2 * bitsValue bs

/-- The STAT register (R6, section 1.9). -/
def State.stat (s : State) : Word :=
  BitVec.ofNat 32
    (s.part.code
      + 4 * bitsValue s.lists.errors.list
      + 256 * bitsValue (s.trunks.list.map fun k => k.link == .up)
      + 4096 * (if s.alarmFlag then 1 else 0)
      + 65536 * s.notes.queue.length)

/-- The Beat Monitor runs while the part is RUNNING with a beat window other than 0 (R184). -/
def State.beatRunning (s : State) : Bool := s.part == .running && s.lists.root.beatWindow != 0

/-- What a read of a register returns (R1, R184); for CAUSE the clearing is CAUSE_READ's (R183). An offset below 0x18 that
names no register reads 0 like those above (log entry 18). -/
def State.readRegister (s : State) (offset : Nat) : Word :=
  if offset = 0x00 then (if s.regs.run then 1 else 0)
  else if offset = 0x04 then s.stat
  else if offset = 0x08 then s.regs.rootadr
  else if offset = 0x10 then (if s.beatRunning then BitVec.ofNat 32 s.beat.counter else 0)
  else if offset = 0x14 then s.regs.cause.setWidth 32
  else if offset = 0x18 then s.regs.cmask.setWidth 32
  else 0

end Sys2Proof.Machine
end

