-- ==== Sys2Proof/Machine/Ops.lean ====
section
/-! DEFINITION. Operations every block uses: bytes and fields of shared memory (section 1.9), the arithmetic of
spec/00_scope.md 6.3, the shared window (R7), updates of one entry of a table, notes (R181) and returns (R8, R17). -/

namespace Sys2Proof.Machine

/-! ### Bytes: multi-byte fields are little-endian (section 1.9) -/

/-- The byte at offset `i`; one the transfer did not deliver counts as 0 (log entry 6). -/
def byteAt (d : List Byte) (i : Nat) : Nat := (d.getD i 0).toNat

def halfAt (d : List Byte) (i : Nat) : Nat := byteAt d i + 256 * byteAt d (i + 1)

def wordAt (d : List Byte) (i : Nat) : Nat := halfAt d i + 65536 * halfAt d (i + 2)

def bytes1 (n : Nat) : List Byte := [BitVec.ofNat 8 n]

def bytes2 (n : Nat) : List Byte := [BitVec.ofNat 8 n, BitVec.ofNat 8 (n / 256)]

def bytes4 (n : Nat) : List Byte := bytes2 n ++ bytes2 (n / 65536)

/-- Bit `i` of a number. -/
def bitOf (n i : Nat) : Bool := n / 2 ^ i % 2 == 1

/-- A two's complement number of `bits` bits. -/
def signed (bits n : Nat) : Int := if n < 2 ^ (bits - 1) then (n : Int) else (n : Int) - 2 ^ bits

/-- A number below `n` as an object's number. -/
def toFin? (n i : Nat) : Option (Fin n) := if h : i < n then some ⟨i, h⟩ else none

/-! ### Arithmetic (spec/00_scope.md 6.3) -/

def sat24 (x : Int) : Int := max (-8388608) (min 8388607 x)

/-- trunc(a / b): rounded toward zero. -/
def trunc (a b : Int) : Int := Int.tdiv a b

def clampNat (x lo hi : Nat) : Nat := max lo (min hi x)

/-- The value clamped, and whether the clamp changed it (R16). -/
def clampMark (x lo hi : Nat) : Nat × Bool := (clampNat x lo hi, x != clampNat x lo hi)

/-! ### The shared window (R7) -/

/-- An address passes when it is aligned and the whole object lies inside the window. -/
def State.inWindow (s : State) (addr size align : Nat) : Bool :=
  addr % align == 0 && (s.lists.root.base ≤ addr : Bool) && (addr + size ≤ s.lists.root.limit : Bool)

/-! ### Updates of one entry -/

def State.walker (s : State) (l : ListId) : Walker := s.lists.walkers.get l.idx

def State.modWalker (l : ListId) (f : Walker → Walker) (s : State) : State :=
  { s with lists := { s.lists with walkers := s.lists.walkers.modify l.idx f } }

def State.setStage (l : ListId) (g : Stage) (s : State) : State := s.modWalker l fun w => { w with stage := g }

def State.modProgram (p : Fin 64) (f : Program → Program) (s : State) : State :=
  { s with programs := s.programs.modify p f }

def State.modChannel (c : Fin 16) (f : Channel → Channel) (s : State) : State :=
  { s with channels := s.channels.modify c f }

def State.modStation (n : Fin 64) (f : Station → Station) (s : State) : State :=
  { s with stations := s.stations.modify n f }

def State.modCall (c : Fin 16) (f : Call → Call) (s : State) : State :=
  { s with calls := s.calls.modify c f }

def State.modVoice (v : Fin 8) (f : Voice → Voice) (s : State) : State :=
  { s with tones := { s.tones with voices := s.tones.voices.modify v f } }

def State.modPattern (p : Fin 12) (f : Pattern → Pattern) (s : State) : State :=
  { s with tones := { s.tones with patterns := s.tones.patterns.modify p f } }

def State.modAlarm (k : AlarmKind) (f : AlarmStatus → AlarmStatus) (s : State) : State :=
  { s with alarms := { s.alarms with kinds := s.alarms.kinds.modify k.idx f } }

def State.modTrunk (k : Fin 4) (f : Trunk → Trunk) (s : State) : State :=
  { s with trunks := s.trunks.modify k f }

def State.modLoop (o : Fin 256) (f : Loop → Loop) (s : State) : State :=
  { s with loops := s.loops.modify o f }

def State.modChangeover (x : Fin 8) (f : Changeover → Changeover) (s : State) : State :=
  { s with changeovers := s.changeovers.modify x f }

def State.modAmbient (o : Fin 256) (f : AmbientEntry → AmbientEntry) (s : State) : State :=
  { s with ambient := { s.ambient with outlets := s.ambient.outlets.modify o f } }

def State.setStack (o : Fin 256) (cs : List Claim) (s : State) : State :=
  { s with claims := { s.claims with stack := s.claims.stack.set o cs } }

def State.setLine (o : Fin 256) (b : Bool) (s : State) : State :=
  { s with claims := { s.claims with lines := s.claims.lines.set o b } }

def State.setFloor (a : Fin 16) (n : Nat) (s : State) : State :=
  { s with claims := { s.claims with floors := s.claims.floors.set a n } }

def State.modTheatre (f : Theatre → Theatre) (s : State) : State := { s with theatre := f s.theatre }

/-- The act `f` made for each of a list of objects, in order. -/
def State.forAll {α : Type} (xs : List α) (f : α → State → State) (s : State) : State :=
  xs.foldl (fun s x => f x s) s

/-! ### Trunk slots (spec/00_scope.md 6.2, R21) -/

def trunkOf (o : Fin 256) : Fin 4 := ⟨o.val / 64, by omega⟩

def slotOf (o : Fin 256) : Fin 64 := ⟨o.val % 64, by omega⟩

def outletAt (k : Fin 4) (x : Fin 64) : Fin 256 := ⟨64 * k.val + x.val, by omega⟩

/-! ### Notes (R181, R183) -/

/-- A note is handed to the Note Unit: stamped and appended, or discarded with the lost count raised. -/
def State.emitNote (kind : NoteKind) (code subject detail : Nat) (s : State) : State :=
  if s.notes.queue.length < 32 then
    let note : Note := { kind, code, subject, detail, time := s.time }
    let s' := { s with notes := { s.notes with queue := s.notes.queue ++ [note] } }
    if s.notes.held.isNone then s'.setCause .noteWait else s'
  else
    { s with notes := { s.notes with lost := min 65535 (s.notes.lost + 1) } }

/-! ### Status codes and returns (R8, R16, R17) -/

def stTaken : Nat := 0x01
def stDone : Nat := 0x02
def stComplete : Nat := 0x03
def stStopped : Nat := 0x04
def stTimedOut : Nat := 0x05
def stSeized : Nat := 0x06
def stAbandoned : Nat := 0x07
def stCleared : Nat := 0x08
def stBadKind : Nat := 0x10
def stBadField : Nat := 0x11
def stBadSlot : Nat := 0x12
def stSlotBusy : Nat := 0x13
def stInUse : Nat := 0x14
def stNoTarget : Nat := 0x15
def stNoCue : Nat := 0x16
def stNotActive : Nat := 0x17

/-- A status code with the clamp mark (bit 7): DONE with the mark is ADJUSTED (R16). -/
def marked (code : Nat) (mark : Bool) : Nat := if mark then code + 0x80 else code

/-- The first word of a header: owner and kind, status, tag (section 1.9). -/
def headerWord (part : Bool) (kind status tag : Nat) : List Byte :=
  bytes1 ((if part then 0x80 else 0) + kind) ++ bytes1 status ++ bytes2 tag

/-- A return write: the result fields, then the header's first word with owner HOST, last (R8). -/
def Return.write (r : Return) : PortWrite :=
  { addr := r.record.addr
    pieces := r.results ++ [(0, headerWord false r.record.kind r.status r.record.tag)] }

def Hand.kind (h : Hand) : Nat := byteAt h.bytes 0 % 128

def Hand.tag (h : Hand) : Nat := halfAt h.bytes 2

def Hand.link (h : Hand) : Nat := wordAt h.bytes 4

/-- What the part keeps of the record in hand. -/
def Hand.ref (h : Hand) (mark : Bool) : RecRef := { addr := h.addr, kind := h.kind, tag := h.tag, mark }

/-- A TAKEN write: status TAKEN, the owner left PART (R8). -/
def Hand.takenWrite (h : Hand) (mark : Bool) : PortWrite :=
  { addr := h.addr, pieces := [(0, headerWord true h.kind (marked stTaken mark) h.tag)] }

/-- The TAKEN write of the record at `addr` has been granted (R17). -/
def State.takenGranted (s : State) (l : ListId) (addr : Nat) : Bool :=
  match s.port.grant with
  | some ⟨.takenWrite l' w, false⟩ => l' == l && w.addr == addr
  | _ => false

/-- A lasting record of list `l` is returned (R17): its TAKEN write, while it waits, is withdrawn and the return
write made in its place; otherwise the return joins the list's queue. A call that is CLEARING asks for its return only
when it becomes FREE, so its TAKEN write can still be granted until then (R119, R128; log entry 38). -/
def State.requestReturn (l : ListId) (r : Return) (s : State) : State :=
  let queued := { s with lists := { s.lists with returns := s.lists.returns.modify l.idx fun q => q ++ [r] } }
  match (s.walker l).stage with
  | .takenWrite h _ =>
    if h.addr == r.record.addr && !s.takenGranted l h.addr then s.setStage l (.returnWrite h r false) else queued
  | _ => queued

/-- The walker's own return write of the record in hand (R11 step 6). -/
def State.reply (l : ListId) (h : Hand) (code : Nat) (mark : Bool) (results : List (Nat × List Byte)) (s : State) :
    State :=
  s.setStage l (.returnWrite h { record := h.ref mark, status := marked code mark, results } false)

/-- Lasting work: the TAKEN write of the record in hand is requested (R11 step 6). -/
def State.take (l : ListId) (h : Hand) (mark : Bool) (s : State) : State := s.setStage l (.takenWrite h mark)

end Sys2Proof.Machine
end

