-- ==== Sys2Proof/Machine/Operands.lean ====
section
/-! DEFINITION. The layouts of section 1.9: the fields of every record body and block, read from the bytes of the
record in hand. Codes are kept as numbers here; the owning block checks them. -/

namespace Sys2Proof.Machine

/-! ### Kinds and lists (section 1.4) -/

/-- The kind codes a list accepts. -/
def kindsOf : ListId → List Nat
  | .setup => [0x01, 0x02, 0x03, 0x04, 0x05, 0x06, 0x07, 0x08]
  | .program => [0x10, 0x11, 0x12]
  | .call => [0x20, 0x21, 0x22, 0x23]
  | .alarm => [0x30, 0x31, 0x32]
  | .cue => [0x40, 0x41, 0x42, 0x43, 0x44, 0x45]
  | .note => [0x50]

/-- A block pointer of a record: address, size of the object, and whether the take reads it. -/
structure Pointer where
  addr : Nat
  size : Nat
  read : Bool
deriving DecidableEq, Repr

/-- The block pointers that the kind of the record in hand uses, in the order they stand in the body (R11). -/
def Hand.pointers (h : Hand) : List Pointer :=
  let at4 (i size : Nat) : Pointer := { addr := wordAt h.bytes i, size, read := true }
  if h.kind = 0x04 then [at4 16 128]
  else if h.kind = 0x08 then [{ addr := wordAt h.bytes 16, size := wordAt h.bytes 20, read := false }]
  else if h.kind = 0x10 then [at4 16 32]
  else if h.kind = 0x20 then (if bitOf (byteAt h.bytes 13) 0 then [at4 16 32] else []) ++ [at4 20 64]
  else if h.kind = 0x40 then [at4 8 288] ++ (if byteAt h.bytes 15 > 0 then [at4 20 64] else [])
  else []

/-! ### Stream descriptors (R95) -/

structure RawDesc where
  first : Nat
  format : Nat
  order : Nat
  mode : Nat
  count : Nat
  prime : Nat
deriving DecidableEq, Repr

def rawDescAt (d : List Byte) (i : Nat) : RawDesc :=
  { first := wordAt d i, format := byteAt d (i + 4), order := byteAt d (i + 5), mode := byteAt d (i + 6)
    count := halfAt d (i + 8), prime := halfAt d (i + 10) }

/-- The codes are defined and the first fragment address passes the window test (R36, R139, R156). -/
def State.descOk (s : State) (r : RawDesc) : Bool :=
  (r.format ≤ 1 : Bool) && (r.order ≤ 1 : Bool) && (r.mode ≤ 1 : Bool) && s.inWindow r.first 32 32

/-- The prime level settled, and whether a change sets the clamp mark (R95). -/
def settlePrime (n : Nat) : Nat × Bool :=
  if n = 0 then (1024, false)
  else if n < 256 then (256, true)
  else if n > 4096 then (4096, true)
  else (n / 256 * 256, n % 256 != 0)

def RawDesc.settle (r : RawDesc) : StreamDesc × Bool :=
  ({ first := r.first, pcm24 := r.format == 1, swapped := r.order == 1, repeats := r.mode == 1, count := r.count
     prime := (settlePrime r.prime).1 }, (settlePrime r.prime).2)

/-! ### Blocks -/

/-- The outlets of an outlet set, rising: bit (o mod 8) of byte (o / 8) is outlet o. -/
def outletSet (d : List Byte) : List (Fin 256) := (allFin 256).filter fun o => bitOf (byteAt d (o.val / 8)) (o.val % 8)

structure RawSegment where
  duration : Nat
  freq : Nat
  level : Nat
deriving DecidableEq, Repr

def rawSegments (d : List Byte) (n : Nat) : List RawSegment :=
  (List.range n).map fun i => { duration := halfAt d (8 * i), freq := halfAt d (8 * i + 2), level := halfAt d (8 * i + 4) }

structure RawParty where
  station : Nat
  ring : Bool
  talk : Nat
  listen : Nat
deriving DecidableEq, Repr

def rawParties (d : List Byte) (n : Nat) : List RawParty :=
  (List.range n).map fun i =>
    { station := byteAt d (8 * i), ring := bitOf (byteAt d (8 * i + 1)) 0, talk := halfAt d (8 * i + 2)
      listen := halfAt d (8 * i + 4) }

structure RawTrack where
  source : Nat
  action : Nat
  desc : RawDesc
deriving DecidableEq, Repr

def rawTracks (d : List Byte) (n : Nat) : List RawTrack :=
  (List.range n).map fun i => { source := byteAt d (16 * i), action := byteAt d (16 * i + 1), desc := rawDescAt d (16 * i + 4) }

/-- The 136 gains of a scene block: 128 crosspoints, source-major, then 8 masters. -/
def sceneGains (d : List Byte) : List Nat := (List.range 136).map fun i => halfAt d (2 * i)

/-! ### SETUP records -/

structure OutletRec where
  outlet : Nat
  kind : Nat
  area : Nat
  trim : Nat
  rampStep : Nat
  duckDepth : Nat
  duckHold : Nat
  overrideThreshold : Nat
  flags : Nat
  smoothing : Nat
  confirm : Nat
  alarmFloor : Nat
  sense : Nat
  margin : Nat
  slope : Nat
  cap : Nat
  loopLow : Nat
  loopHigh : Nat
deriving DecidableEq, Repr

def outletRec (d : List Byte) : OutletRec :=
  { outlet := halfAt d 8, kind := byteAt d 10, area := byteAt d 11, trim := halfAt d 12, rampStep := halfAt d 14
    duckDepth := halfAt d 16, duckHold := halfAt d 18, overrideThreshold := byteAt d 20, flags := byteAt d 21
    smoothing := byteAt d 22, confirm := byteAt d 23, alarmFloor := halfAt d 24, sense := halfAt d 26
    margin := wordAt d 28, slope := byteAt d 32, cap := halfAt d 34, loopLow := halfAt d 36, loopHigh := halfAt d 38 }

def outletKindOf : Nat → Option OutletKind
  | 0 => some .undefined | 1 => some .cabinLoop | 2 => some .publicSpace | 3 => some .crewArea | 4 => some .theatre
  | 5 => some .station | 6 => some .spare | _ => none

def inletKindOf : Nat → Option InletKind
  | 0 => some .undefined | 1 => some .consoleMic | 2 => some .stationMic | 3 => some .senseMic | 4 => some .line
  | 5 => some .contactMic | _ => none

structure StationRec where
  station : Nat
  inlet : Nat
  outlet : Nat
  hold : Nat
deriving DecidableEq, Repr

def stationRec (d : List Byte) : StationRec :=
  { station := byteAt d 8, inlet := halfAt d 10, outlet := halfAt d 12, hold := halfAt d 14 }

structure PatternRec where
  pattern : Nat
  segments : Nat
  cycles : Nat
  action : Nat
  next : Nat
deriving DecidableEq, Repr

def patternRec (d : List Byte) : PatternRec :=
  { pattern := byteAt d 8, segments := byteAt d 9, cycles := halfAt d 10, action := byteAt d 12, next := byteAt d 13 }

structure AlarmRec where
  kind : Nat
  pattern : Nat
  toneCycles : Nat
  voice : Bool
  desc : RawDesc
deriving DecidableEq, Repr

def alarmRec (d : List Byte) : AlarmRec :=
  { kind := byteAt d 8, pattern := byteAt d 9, toneCycles := byteAt d 10, voice := bitOf (byteAt d 11) 0
    desc := rawDescAt d 12 }

structure CalibrateRec where
  outlet : Nat
  target : Nat
  method : Nat
  value : Nat
deriving DecidableEq, Repr

def calibrateRec (d : List Byte) : CalibrateRec :=
  { outlet := halfAt d 8, target := byteAt d 10, method := byteAt d 11, value := wordAt d 12 }

structure SnapshotRec where
  table : Nat
  first : Nat
  count : Nat
  buffer : Nat
  length : Nat
deriving DecidableEq, Repr

def snapshotRec (d : List Byte) : SnapshotRec :=
  { table := byteAt d 8, first := halfAt d 10, count := halfAt d 12, buffer := wordAt d 16, length := wordAt d 20 }

/-! ### PROGRAM records -/

structure StartRec where
  slot : Nat
  kind : Nat
  priority : Nat
  policy : Nat
  sourceKind : Nat
  chime : Nat
  source : Nat
  gain : Nat
  gatherTimeout : Nat
  maxDuration : Nat
  duckable : Bool
  allowsUndertone : Bool
  holdThreshold : Nat
  desc : RawDesc
deriving DecidableEq, Repr

def startRec (d : List Byte) : StartRec :=
  { slot := byteAt d 8, kind := byteAt d 9, priority := byteAt d 10, policy := byteAt d 11, sourceKind := byteAt d 12
    chime := byteAt d 13, source := halfAt d 14, gain := halfAt d 20, gatherTimeout := halfAt d 22
    maxDuration := wordAt d 24, duckable := bitOf (byteAt d 28) 0, allowsUndertone := bitOf (byteAt d 28) 1
    holdThreshold := byteAt d 29, desc := rawDescAt d 32 }

def policyOf : Nat → Option Policy
  | 0 => some .now | 1 => some .all | 2 => some .ifFree | _ => none

def hostKindOf : Nat → Option ProgKind
  | 0 => some .announce | 1 => some .background | 2 => some .theatre | _ => none

/-! ### CALL records -/

structure OpenRec where
  call : Nat
  priority : Nat
  ringTimeout : Nat
  anchor : Nat
  count : Nat
  page : Bool
  pagePolicy : Nat
  pageSlot : Nat
  pageGain : Nat
deriving DecidableEq, Repr

def openRec (d : List Byte) : OpenRec :=
  { call := byteAt d 8, priority := byteAt d 9, ringTimeout := byteAt d 10, anchor := byteAt d 11, count := byteAt d 12
    page := bitOf (byteAt d 13) 0, pagePolicy := byteAt d 14, pageSlot := byteAt d 15, pageGain := halfAt d 24 }

structure AddRec where
  call : Nat
  station : Nat
  ring : Bool
  talk : Nat
  listen : Nat
deriving DecidableEq, Repr

def addRec (d : List Byte) : AddRec :=
  { call := byteAt d 8, station := byteAt d 9, ring := bitOf (byteAt d 10) 0, talk := halfAt d 12, listen := halfAt d 14 }

/-! ### ALARM records -/

def alarmKindOf : Nat → Option AlarmKind
  | 0 => some .muster | 1 => some .fire | 2 => some .security | 3 => some .crewAlert | _ => none

/-- The areas of an area set, rising. -/
def areaSet (n : Nat) : List (Fin 16) := (allFin 16).filter fun a => bitOf n a.val

/-! ### CUE records -/

structure CueRec where
  fade : Nat
  follow : Nat
  tracks : Nat
  delay : Nat
deriving DecidableEq, Repr

def cueRec (d : List Byte) : CueRec :=
  { fade := halfAt d 12, follow := byteAt d 14, tracks := byteAt d 15, delay := wordAt d 16 }

structure BindRec where
  source : Nat
  binding : Nat
  inlet : Nat
deriving DecidableEq, Repr

def bindRec (d : List Byte) : BindRec := { source := byteAt d 8, binding := byteAt d 9, inlet := halfAt d 10 }

/-! ### The root block (R3) -/

/-- The root block's settings, clamped as R3 step 2 states. -/
def rootCopy (d : List Byte) : RootCopy :=
  { base := wordAt d 24, limit := wordAt d 28, scan := clampNat (byteAt d 32) 1 100, beatWindow := byteAt d 33
    ambientWindow := clampNat (halfAt d 34) 10 1000, micEnabled := bitOf (byteAt d 36) 0, autoResume := bitOf (byteAt d 36) 1 }

/-- The initial cursor of a list (section 1.9). -/
def rootCursor (d : List Byte) (l : ListId) : Nat := wordAt d (4 * l.idx.val)

/-! ### Snapshot codes (section 1.9) -/

def OutletKind.code : OutletKind → Nat
  | .undefined => 0 | .cabinLoop => 1 | .publicSpace => 2 | .crewArea => 3 | .theatre => 4 | .station => 5 | .spare => 6

def LoopState.code : LoopState → Nat
  | .unsupervised => 0 | .normal => 1 | .suspect => 2 | .faultOpen => 3 | .faultShort => 4 | .unserved => 5

def StationState.code : StationState → Nat
  | .idle => 0 | .ringing => 1 | .inCall => 2 | .lost => 3 | .undefined => 4

def ProgKind.code : ProgKind → Nat
  | .announce => 0 | .background => 1 | .theatre => 2 | .page => 3 | .alarm => 4 | .contactMic => 5

def ProgState.code : ProgState → Nat
  | .free => 0 | .gathering => 1 | .chiming => 2 | .playing => 3 | .held => 4 | .ending => 5

def LinkState.code : LinkState → Nat
  | .down => 0 | .training => 1 | .up => 2

/-- The owner code of a claim: the slot, or 0x100 + 8 x call slot + party index. -/
def Owner.code : Owner → Nat
  | .program p => p.val
  | .party c i => 0x100 + 8 * c.val + i.val

def ChanOwner.code : ChanOwner → Nat
  | .program p => p.val
  | .source x => 0x200 + x.val

/-- The codes of the controller states in notes (R153). -/
def ShowState.code : ShowState → Nat
  | .idle => 0 | .ready => 1 | .waiting => 2 | .fading => 3 | .held => 4

/-- The codes of note kinds (section 1.9). -/
def NoteKind.code : NoteKind → Nat
  | .alarmState => 1 | .contact => 2 | .loopFault => 3 | .ampFault => 4 | .changeover => 5 | .trunk => 6
  | .station => 7 | .stationKey => 8 | .streamStarved => 9 | .showState => 10 | .fallback => 11

end Sys2Proof.Machine
end

