-- ==== Sys2Proof/Machine/Playback.lean ====
section
/-! DEFINITION. The Playback Unit (chapter 6): binding, signals, fragment chains, priming, samples, release and the
return of fragments. -/

namespace Sys2Proof.Machine

/-- The FIFO holds at most 4096 samples (R94). -/
def fifoSize : Nat := 4096

/-- The channel's owner is an alarm program, slots 60 to 63 (R94). -/
def Channel.ownedByAlarm (ch : Channel) : Bool :=
  match ch.owner with
  | some (.program p) => (60 ≤ p.val : Bool)
  | _ => false

/-- The channel an owner holds. -/
def State.channelOf (s : State) (w : ChanOwner) : Option (Fin 16) :=
  (allFin 16).find? fun c => (s.channels.get c).owner == some w

/-- The lowest-numbered FREE channel (R99). -/
def State.freeChannel (s : State) : Option (Fin 16) :=
  (allFin 16).find? fun c => (s.channels.get c).state == .free

/-- The owner code a note of the channel carries (R110). -/
def Channel.ownerCode (ch : Channel) : Nat :=
  match ch.owner with
  | some w => w.code
  | none => 0xFFFF

/-! ### Prime condition and owner signals (R101) -/

def Channel.primed (ch : Channel) : Bool :=
  (ch.desc.prime ≤ ch.fifo.length : Bool) || (fifoSize < ch.fifo.length + 256 : Bool) || ch.fetchEnded

/-- The state a channel that gives samples enters: DRAINING once fetch has ended. -/
def Channel.onward (ch : Channel) : ChanState := if ch.fetchEnded then .draining else .playing

/-- The prime condition is tested (R101). -/
def Channel.primeTest (ch : Channel) : Channel :=
  match ch.state with
  | .priming => if ch.primed then { ch with state := if ch.run then ch.onward else .ready } else ch
  | .starved => if ch.primed then { ch with state := ch.onward } else ch
  | .playing => if ch.fetchEnded then { ch with state := .draining } else ch
  | .paused =>
    if ch.fetchEnded && (ch.resumeTo == .playing || ch.resumeTo == .starved) then { ch with resumeTo := .draining }
    else ch
  | .free | .ready | .draining | .ended => ch

def Channel.signalRun (ch : Channel) : Channel :=
  match ch.state with
  | .priming => { ch with run := true }
  | .ready => { ch with run := true, state := ch.onward }
  | .playing | .starved | .draining => { ch with run := true }
  | .paused | .free | .ended => ch

def Channel.signalPause (ch : Channel) : Channel :=
  match ch.state with
  | .priming | .ready => { ch with run := false }
  | .playing | .starved | .draining => { ch with run := false, state := .paused, resumeTo := ch.state }
  | .paused | .free | .ended => ch

def Channel.signalResume (ch : Channel) : Channel :=
  match ch.state with
  | .priming => { ch with run := true }
  | .ready => { ch with run := true, state := ch.onward }
  | .paused => ({ ch with run := true, state := ch.resumeTo } : Channel).primeTest
  | .playing | .starved | .draining | .free | .ended => ch

/-- A finish signal: the pass being fetched becomes the last (R103). -/
def Channel.signalFinish (ch : Channel) : Channel :=
  if ch.desc.repeats && !ch.fetchEnded then { ch with passes := 1 } else ch

/-! ### Chains (R96 to R98) -/

/-- A chain fault: fetch ends, and a note of code 2 names the address (R98, R110). -/
def State.chainFault (c : Fin 16) (addr : Nat) (s : State) : State :=
  (s.modChannel c fun ch => ({ ch with fetchEnded := true } : Channel).primeTest).emitNote .streamStarved 2 c.val addr

/-- An address becomes the next to be read, or is a chain fault when it fails the window test (R96). -/
def State.toRead (c : Fin 16) (addr : Nat) (s : State) : State :=
  if s.inWindow addr 32 32 then s.modChannel c fun ch => { ch with cur := .toRead addr } else s.chainFault c addr

/-- A pass ends at a fragment whose MORE flag is clear (R98). -/
def State.passEnd (c : Fin 16) (s : State) : State :=
  let s := s.modChannel c fun ch => { ch with chainComplete := true }
  let ch := s.channels.get c
  if ch.passes = 1 then s.modChannel c fun ch => ({ ch with fetchEnded := true } : Channel).primeTest
  else (s.modChannel c fun ch => { ch with passes := ch.passes - 1, place := 0 }).toRead c ch.desc.first

/-- The channel moves on from a fully fetched fragment (R97). -/
def State.fragmentDone (c : Fin 16) (f : Fragment) (s : State) : State :=
  if f.more then s.toRead c f.link else s.passEnd c

def StreamDesc.sampleBytes (d : StreamDesc) : Nat := if d.pcm24 then 4 else 2

/-- Fragments are written back at full fetch in SINGLE mode, for an owner that is not an alarm (R97). -/
def Channel.returnsEach (ch : Channel) : Bool := !ch.desc.repeats && !ch.ownedByAlarm

/-- A fragment record's fields (section 1.9). -/
def fragmentOf (addr : Nat) (d : List Byte) : Fragment :=
  { addr, flags := d.getD 0 0, count := halfAt d 2, buffer := wordAt d 4, more := bitOf (byteAt d 0) 0, link := wordAt d 8
    fetched := 0 }

def Fragment.ownedByPart (f : Fragment) : Bool := f.flags.getLsbD 7

/-- A fragment is valid: a count, a buffer inside the window, and a link where MORE is set (R96). -/
def State.fragmentValid (s : State) (size : Nat) (f : Fragment) : Bool :=
  f.count != 0 && s.inWindow f.buffer (f.count * size) 4 && (!f.more || f.link != 0)

/-- The write-back of a fragment: owner HOST, the other flag bits as read (R96). -/
def Fragment.writeBack (f : Fragment) : PortWrite :=
  { addr := f.addr, pieces := [(0, [f.flags &&& 0x7F#8])] }

/-- A fragment read has delivered `d` (R96). One that finds HOST asks to be made again at the next period start; a period
start that fell while it was in progress asks for nothing more (log entry 37). -/
def State.fragmentArrives (c : Fin 16) (addr : Nat) (d : List Byte) (s : State) : State :=
  let f := fragmentOf addr d
  let ch := s.channels.get c
  if !f.ownedByPart then s.modChannel c fun ch => { ch with cur := .waiting addr, reread := false }
  else if s.fragmentValid ch.desc.sampleBytes f then
    s.modChannel c fun ch =>
      ({ ch with
          cur := .taken f, returned := false, place := ch.place + 1
          reached := if ch.chainComplete then ch.reached else max ch.reached (ch.place + 1) } : Channel).primeTest
  else s.chainFault c addr

/-- One sample of a buffer, converted to the 24-bit range (R97). -/
def sampleOf (desc : StreamDesc) (d : List Byte) (k : Nat) : Int :=
  if desc.pcm24 then
    let i := 4 * k
    if desc.swapped then signed 24 (byteAt d (i + 1) + 256 * byteAt d i + 65536 * byteAt d (i + 3))
    else signed 24 (byteAt d i + 256 * byteAt d (i + 1) + 65536 * byteAt d (i + 2))
  else
    let i := 2 * k
    if desc.swapped then signed 16 (byteAt d (i + 1) + 256 * byteAt d i) * 256
    else signed 16 (byteAt d i + 256 * byteAt d (i + 1)) * 256

/-- A burst of `n` samples has delivered `d` (R97). -/
def State.burstArrives (c : Fin 16) (n : Nat) (d : List Byte) (s : State) : State :=
  let ch := s.channels.get c
  match ch.cur with
  | .taken f =>
    let f' := { f with fetched := f.fetched + n }
    let s := s.modChannel c fun ch =>
      { ch with fifo := ch.fifo ++ (List.range n).map (sampleOf ch.desc d), cur := .taken f' }
    let s := if f'.fetched = f'.count && !ch.returnsEach then s.fragmentDone c f' else s
    s.modChannel c Channel.primeTest
  | _ => s

/-- The write-back of a fully fetched fragment in SINGLE mode has completed (R97). -/
def State.fragmentReturned (c : Fin 16) (s : State) : State :=
  match (s.channels.get c).cur with
  | .taken f => ((s.modChannel c fun ch => { ch with returned := true }).fragmentDone c f).modChannel c Channel.primeTest
  | _ => s

/-! ### Binding (R99) -/

def passesFor (w : ChanOwner) (d : StreamDesc) : Nat :=
  match w with
  | .program p => if 60 ≤ p.val || !d.repeats then 1 else d.count
  | .source _ => if d.repeats then d.count else 1

/-- Channel `c` is bound to an owner and a descriptor and enters PRIMING (R99). -/
def State.bindTo (c : Fin 16) (w : ChanOwner) (d : StreamDesc) (s : State) : State :=
  (s.modChannel c fun _ =>
    { state := .priming, owner := some w, desc := d, passes := passesFor w d : Channel }).toRead c d.first

/-- A bind request: the lowest-numbered FREE channel, or none (R99). -/
def State.bind (w : ChanOwner) (d : StreamDesc) (s : State) : Option (Fin 16) × State :=
  match s.freeChannel with
  | some c => (some c, s.bindTo c w d)
  | none => (none, s)

/-- A signal to the channel an owner holds; an owner with none signals nobody. -/
def State.signalOwner (w : ChanOwner) (f : Channel → Channel) (s : State) : State :=
  match s.channelOf w with
  | some c => s.modChannel c f
  | none => s

/-! ### Release and the return of fragments (R106, R107) -/

/-- A channel in ENDED has a fragment to write back or to read (R107). -/
def Channel.returnDue (ch : Channel) : Bool :=
  match ch.walk with
  | some w => w.next.isSome || w.back.isSome
  | none =>
    match ch.cur with
    | .taken _ => !ch.returned
    | _ => false

/-- A transfer of the channel is in progress and its result counts. -/
def State.channelBusy (s : State) (c : Fin 16) : Bool :=
  match s.port.grant with
  | some ⟨.channel c' _, false⟩ => c' == c
  | _ => false

/-- An ENDED channel with nothing left to do becomes FREE (R107). -/
def State.freeIfDone (c : Fin 16) (s : State) : State :=
  let ch := s.channels.get c
  if ch.state == .ended && !ch.returnDue && !s.channelBusy c then s.modChannel c fun _ => {} else s

/-- The return walk a channel makes in ENDED: none in SINGLE mode for an owner that is not an alarm; otherwise from
the first fragment, or nothing when no fragment was taken (R107). -/
def State.returnPlan (s : State) (ch : Channel) : Option ReturnWalk :=
  if ch.returnsEach then none
  else if (ch.chainComplete || ch.reached != 0) && s.inWindow ch.desc.first 32 32 then
    some { next := some ch.desc.first, back := none, count := 0 }
  else some { next := none, back := none, count := 0 }

/-- The channel enters ENDED: no owner, an empty FIFO, and its write-backs due (R105, R106). -/
def State.enterEnded (c : Fin 16) (s : State) : State :=
  (s.modChannel c fun ch =>
    { ch with state := .ended, owner := none, run := false, fifo := [], walk := s.returnPlan ch }).freeIfDone c

def Xfer.isWriteBack (x : Xfer) : Bool :=
  match x with
  | .writeBack _ => true
  | .fragmentRead _ | .burst _ _ | .walkRead _ => false

/-- The result of the channel's transfer in progress will be discarded; a write-back in progress is a write-back done
and keeps its result (log entry 26). -/
def State.discardTransfer (c : Fin 16) (keepWriteBack : Bool) (s : State) : State :=
  match s.port.grant with
  | some ⟨.channel c' x, _⟩ =>
    if c' == c && !(keepWriteBack && x.isWriteBack) then
      { s with port := { s.port with grant := some ⟨.channel c' x, true⟩ } }
    else s
  | _ => s

/-- An owner releases its channel (R106). -/
def State.releaseChannel (w : ChanOwner) (s : State) : State :=
  match s.channelOf w with
  | some c =>
    let st := (s.channels.get c).state
    if st == .ended || st == .free then s else (s.discardTransfer c true).enterEnded c
  | none => s

/-- After a fragment of the return walk has been met: the walk goes on at its link or ends (R107). -/
def State.walkOn (c : Fin 16) (f : Fragment) (s : State) : State :=
  let ch := s.channels.get c
  match ch.walk with
  | some w =>
    let count := w.count + 1
    let stop := !f.more || !s.inWindow f.link 32 32 || (!ch.chainComplete && count == ch.reached)
    (s.modChannel c fun ch =>
      { ch with walk := some { next := if stop then none else some f.link, back := none, count } }).freeIfDone c
  | none => s

/-- A fragment read of a return walk has delivered `d` (R107). -/
def State.walkArrives (c : Fin 16) (addr : Nat) (d : List Byte) (s : State) : State :=
  let f := fragmentOf addr d
  if f.ownedByPart then
    s.modChannel c fun ch =>
      { ch with walk := ch.walk.map fun w => { w with next := none, back := some f } }
  else s.walkOn c f

/-- A write-back has completed: of the return walk, of an ENDED SINGLE stream, or of a fragment of a stream still
fetching (R97, R107). -/
def State.writeBackDone (c : Fin 16) (s : State) : State :=
  let ch := s.channels.get c
  if ch.state == .ended then
    match ch.walk with
    | some w =>
      match w.back with
      | some f => s.walkOn c f
      | none => s
    | none => (s.modChannel c fun ch => { ch with returned := true }).freeIfDone c
  else s.fragmentReturned c

/-- An alarm channel reloads for the next voice phase (R108). -/
def State.reloadAlarm (c : Fin 16) (s : State) : State :=
  (s.modChannel c fun ch =>
    { ch with run := false, fetchEnded := false, passes := 1, state := .priming, place := 0 }).toRead c
      (s.channels.get c).desc.first

/-- Addresses still to be read are tested again against a new window (R7, R96); what was accepted before is not: a taken
fragment's buffer and write-back, snapshot pieces, blocks left to read, held records (log entry 19). -/
def State.recheckWindow (s : State) : State :=
  s.forAll (allFin 16) fun c s =>
    let ch := s.channels.get c
    match ch.state with
    | .free => s
    | .ended =>
      match ch.walk with
      | some w =>
        match w.next with
        | some a =>
          if s.inWindow a 32 32 then s
          else (s.modChannel c fun ch => { ch with walk := some { w with next := none } }).freeIfDone c
        | none => s
      | none => s
    | _ =>
      match ch.cur with
      | .toRead a | .waiting a => if ch.fetchEnded || s.inWindow a 32 32 then s else s.chainFault c a
      | _ => s

/-! ### Transfers (R100) -/

/-- The first transfer that is due for the channel. -/
def Channel.due (ch : Channel) : Option Xfer :=
  match ch.state with
  | .free => none
  | .ended =>
    match ch.walk with
    | some w =>
      match w.back with
      | some f => some (.writeBack f.writeBack)
      | none => w.next.map .walkRead
    | none =>
      match ch.cur with
      | .taken f => if ch.returned then none else some (.writeBack f.writeBack)
      | _ => none
  | _ =>
    match ch.cur with
    | .empty => none
    | .toRead a => if ch.fetchEnded then none else some (.fragmentRead a)
    | .waiting a => if ch.fetchEnded || !ch.reread then none else some (.fragmentRead a)
    | .taken f =>
      if f.fetched < f.count then
        if ch.fetchEnded || fifoSize < ch.fifo.length + 256 then none
        else some (.burst (f.buffer + f.fetched * ch.desc.sampleBytes) (min 256 (f.count - f.fetched)))
      else if ch.returnsEach && !ch.returned then some (.writeBack f.writeBack)
      else none

/-! ### Samples at a period start (R102) -/

/-- What happens to a channel at a period start. -/
inductive ChanEvent where
  | none | starves | completes
deriving DecidableEq, Repr

def padTo48 (xs : List Int) : List Int := (xs ++ List.replicate 48 0).take 48

/-- The 48 samples a channel gives, the channel after, and the event. -/
def Channel.give (ch : Channel) : List Int × Channel × ChanEvent :=
  let rest := { ch with fifo := ch.fifo.drop 48 }
  match ch.state with
  | .playing =>
    if 48 ≤ ch.fifo.length then (ch.fifo.take 48, rest, .none)
    else (padTo48 ch.fifo, { rest with state := .starved }, .starves)
  | .draining => (padTo48 ch.fifo, rest, if rest.fifo.isEmpty then .completes else .none)
  | _ => (List.replicate 48 0, ch, .none)

end Sys2Proof.Machine
end

