-- ==== Sys2Proof/Machine/Tones.lean ====
section
/-! DEFINITION. The Tone Pool (chapter 8, R132 to R138) and the waveform of a voice (R79, R80). -/

namespace Sys2Proof.Machine

/-! ### Waveform (R79, R80) -/

/-- The phase increment of a frequency (R79). -/
def phaseInc (freq : Nat) : Nat := (freq * 65536 + 24000) / 48000

/-- The raw triangle of a phase (R80). -/
def rawTone (p : Nat) : Int := ((if p < 32768 then (p : Int) else 65535 - p) - 16384) * 512

def toneSample (p level : Nat) : Int := sat24 (trunc (rawTone p * level) 4096)

/-- `n` samples from phase `p`, and the phase after them. -/
def toneBlock (level inc : Nat) : Nat → Nat → List Int × Nat
  | 0, p => ([], p)
  | n + 1, p =>
    let rest := toneBlock level inc n ((p + inc) % 65536)
    (toneSample p level :: rest.1, rest.2)

/-! ### Patterns (R132, R134) -/

def State.patternDef (s : State) (p : Fin 12) : PatternDef := ((s.tones.patterns.get p).stored).getD {}

def State.patternDefined (s : State) (p : Fin 12) : Bool := (s.tones.patterns.get p).stored.isSome

/-- An empty owing set lets the pending copy replace the stored definition (R134). -/
def Pattern.settle (q : Pattern) : Pattern :=
  match q.owing, q.pendingCopy with
  | [], some d => { q with stored := some d, pendingCopy := none }
  | _, _ => q

/-- A voice leaves the owing set of the pattern it sounds (R134). -/
def State.leaveOwing (v : Fin 8) (s : State) : State :=
  let p := (s.tones.voices.get v).pattern
  if (s.tones.patterns.get p).owing.contains v then
    s.modPattern p fun q => ({ q with owing := q.owing.filter (· != v) } : Pattern).settle
  else s

/-- The voices in a cycle of a pattern (R134). -/
def State.voicesInCycle (s : State) (p : Fin 12) : List (Fin 8) :=
  s.tones.voices.indices fun x => x.mode == .sounding && x.pattern == p

/-- A definition is accepted: stored, or kept as the pending copy while a voice is in a cycle (R134). -/
def State.definePattern (p : Fin 12) (d : PatternDef) (s : State) : State :=
  s.modPattern p fun q =>
    if q.pendingCopy.isSome then { q with pendingCopy := some d }
    else
      match s.voicesInCycle p with
      | [] => { q with stored := some d }
      | vs => { q with pendingCopy := some d, owing := vs }

/-! ### Voices (R135 to R138) -/

/-- The voice a user holds. -/
def State.voiceOf (s : State) (u : VoiceUser) : Option (Fin 8) :=
  (allFin 8).find? fun v => (s.tones.voices.get v).user == u

/-- The lowest-numbered free voice (R137). -/
def State.freeVoice (s : State) : Option (Fin 8) := s.voiceOf .nobody

/-- A voice passes to a user and starts a pattern at the next period start (R135). -/
def State.giveVoice (v : Fin 8) (u : VoiceUser) (p : Fin 12) (s : State) : State :=
  (s.leaveOwing v).modVoice v fun _ => { user := u, mode := .starting false, pattern := p }

/-- A user releases its voice (R138). -/
def State.releaseVoice (u : VoiceUser) (s : State) : State :=
  match s.voiceOf u with
  | some v => (s.leaveOwing v).modVoice v fun _ => {}
  | none => s

/-- The voice begins segment `i` of its copy (R79, R135); a copy without it leaves the voice silent. -/
def Voice.beginSegment (x : Voice) (i : Nat) : Voice :=
  match x.copy.segments[i]? with
  | some g => { x with mode := .sounding, segment := i, left := 10 * g.duration, phase := 0, inc := phaseInc g.freq }
  | none => { x with mode := .silent, segment := i, left := 0, phase := 0, inc := 0 }

/-- The voice begins a cycle of a pattern with a fresh copy of its stored definition (R134, R135). -/
def State.beginCycle (v : Fin 8) (p : Fin 12) (cycles : Nat) (s : State) : State :=
  let d := s.patternDef p
  s.modVoice v fun x => ({ x with pattern := p, copy := d, cycles } : Voice).beginSegment 0

/-- At a period start a voice that was given starts its pattern (R135, R147). -/
def State.startVoice (v : Fin 8) (s : State) : State :=
  let x := s.tones.voices.get v
  match x.mode with
  | .starting keep => s.beginCycle v x.pattern (if keep then x.cycles else 0)
  | _ => s

/-- The block a voice produces in a period, and the voice after it (R79, R135). -/
def Voice.give (x : Voice) : List Int × Voice :=
  match x.mode with
  | .sounding =>
    match x.copy.segments[x.segment]? with
    | some g =>
      let after := { x with left := x.left - 1 }
      if g.freq = 0 then (List.replicate 48 0, after)
      else
        let b := toneBlock g.level x.inc 48 x.phase
        (b.1, { after with phase := b.2 })
    | none => (List.replicate 48 0, x)
  | _ => (List.replicate 48 0, x)

/-- The ring voice is asked for: not while one is held, and not while pattern 11 is undefined (R122). -/
def State.askRing (s : State) : State :=
  if (s.voiceOf .ring).isSome || !s.patternDefined 11 then s
  else
    match s.freeVoice with
    | some v => s.giveVoice v .ring 11
    | none => s

/-- The ring voice is released when no party of any call is RINGING (R122). -/
def State.releaseRing (s : State) : State :=
  if s.calls.list.any fun c => c.parties.any fun p => p.state == .ringing then s else s.releaseVoice .ring

end Sys2Proof.Machine
end

