-- ==== Sys2Proof/Machine/Claims.lean ====
section
/-! DEFINITION. The Claim Unit (chapter 3, R35, R51 to R59): stack order, naming, and the reports that follow each
renaming: held counts and the gather test (R40, R57), override lines (R58), displacement and the show's hold and
resume (R59, R161 to R163). -/

namespace Sys2Proof.Machine

/-! ### Stack order and naming (R51 to R53) -/

/-- Slots 60 to 63 are the alarm programs (R33). -/
def Owner.isAlarm : Owner → Bool
  | .program p => (60 ≤ p.val : Bool)
  | .party _ _ => false

/-- Stack order: priority, then arrival number, then owner code (R51). -/
def Claim.before (c d : Claim) : Bool :=
  if c.priority ≠ d.priority then d.priority < c.priority
  else if c.arrival ≠ d.arrival then c.arrival < d.arrival
  else c.owner.code < d.owner.code

/-- A claim inserted at its place in stack order. -/
def insertClaim (c : Claim) : List Claim → List Claim
  | [] => [c]
  | d :: ds => if c.before d then c :: d :: ds else d :: insertClaim c ds

/-- A claim is eligible when the lock floor is not above its priority, or its owner is an alarm program (R52). -/
def Claim.eligible (floor : Nat) (c : Claim) : Bool := (floor ≤ c.priority : Bool) || c.owner.isAlarm

/-- The states of the claims after the holder: `seek` while an undertone may still be named (R53). -/
def nameRest (floor : Nat) : Bool → List Claim → List Claim
  | _, [] => []
  | seek, c :: cs =>
    if !c.eligible floor then { c with state := .locked } :: nameRest floor seek cs
    else if seek && c.duckable then { c with state := .undertone } :: nameRest floor false cs
    else { c with state := .waiting } :: nameRest floor seek cs

/-- Holder and undertone of a stack under a lock floor (R53). -/
def nameStack (floor : Nat) : List Claim → List Claim
  | [] => []
  | c :: cs =>
    if c.eligible floor then { c with state := .holding } :: nameRest floor c.allowsUndertone cs
    else { c with state := .locked } :: nameStack floor cs

def holderIn (cs : List Claim) : Option Claim := cs.find? fun c => c.state == .holding

def undertoneIn (cs : List Claim) : Option Claim := cs.find? fun c => c.state == .undertone

def State.stack (s : State) (o : Fin 256) : List Claim := s.claims.stack.get o

def State.holder (s : State) (o : Fin 256) : Option Claim := holderIn (s.stack o)

def State.undertone (s : State) (o : Fin 256) : Option Claim := undertoneIn (s.stack o)

def State.lockFloor (s : State) (o : Fin 256) : Nat := s.claims.floors.get (s.outlets.get o).area

def hasOwner (w : Owner) (cs : List Claim) : Bool := cs.any fun c => c.owner == w

/-- A program's claim holds at an outlet. -/
def State.holdsAt (s : State) (p : Fin 64) (o : Fin 256) : Bool :=
  match s.holder o with
  | some c => c.owner == .program p
  | none => false

/-! ### Arrival numbers (R35) -/

/-- Every arrival number that a renumbering ranks. -/
def State.arrivalsInUse (s : State) : List Nat :=
  (s.claims.stack.list.flatMap fun cs => cs.map (·.arrival))
    ++ ((s.programs.list.filter fun p => p.state != .free).map (·.arrival))
    ++ ((s.calls.list.filter fun c => c.state != .free).flatMap fun c => c.arrival :: c.parties.map (·.arrival))
    ++ (s.mixer.list.flatMap fun m =>
        (m.fg.toList ++ m.ug.toList ++ (m.duck.map (·.2)).toList).map (·.2))
    ++ (s.alarms.kinds.list.map (·.lastArrival))

/-- The rank of a number among distinct numbers. -/
def rankIn (ns : List Nat) (n : Nat) : Nat := (ns.filter (· < n)).length

def MixEntry.renumber (f : Nat → Nat) (m : MixEntry) : MixEntry :=
  { m with
      fg := m.fg.map fun x => (x.1, f x.2)
      ug := m.ug.map fun x => (x.1, f x.2)
      duck := m.duck.map fun x => (x.1, x.2.1, f x.2.2) }

/-- The renumbering of R35: ranks in ascending order, and the count goes on from the first value not given. -/
def State.renumber (s : State) : State :=
  let ns := s.arrivalsInUse.eraseDups
  let f := rankIn ns
  { s with
      claims := { s.claims with
        stack := s.claims.stack.map fun cs => cs.map fun c => { c with arrival := f c.arrival }
        arrivals := ns.length }
      programs := s.programs.map fun p => { p with arrival := f p.arrival }
      calls := s.calls.map fun c =>
        { c with arrival := f c.arrival, parties := c.parties.map fun p => { p with arrival := f p.arrival } }
      mixer := s.mixer.map (MixEntry.renumber f)
      alarms := { s.alarms with kinds := s.alarms.kinds.map fun a => { a with lastArrival := f a.lastArrival } } }

/-- A number is issued: the count's present value, and the count steps by 1 (R35). -/
def State.issueArrival (s : State) : Nat × State :=
  let s := if s.claims.arrivals = 4294967295 then s.renumber else s
  (s.claims.arrivals, { s with claims := { s.claims with arrivals := s.claims.arrivals + 1 } })

/-! ### The chime step and PLAYING (R40 to R43, R47) -/

/-- The duration timer starts at the first entry to PLAYING (R47). -/
def Program.startDuration (p : Program) : Program :=
  if p.durationStarted then p
  else { p with durationStarted := true, durationTimer := if p.maxDuration = 0 then none else some p.maxDuration }

/-- A program reaches PLAYING, or HELD while the show is held (R42, R43). -/
def State.enterPlaying (p : Fin 64) (s : State) : State :=
  let pr := s.programs.get p
  if pr.kind == .theatre && s.theatre.state == .held then
    s.modProgram p fun pr => { pr with state := .held, gatherTimer := none }
  else
    let s := s.modProgram p fun pr => ({ pr with state := .playing, gatherTimer := none } : Program).startDuration
    if pr.source == .stream then s.signalOwner (.program p) Channel.signalRun else s

/-- The chime step (R41). -/
def State.chimeStep (p : Fin 64) (s : State) : State :=
  match (s.programs.get p).chime with
  | none => s.enterPlaying p
  | some q =>
    match s.freeVoice with
    | some v => (s.giveVoice v (.chime p) q).modProgram p fun pr => { pr with state := .chiming, gatherTimer := none }
    | none => (s.modProgram p fun pr => { pr with chimeSkipped := true }).enterPlaying p

/-- A CHIMING program that loses its voice skips the rest of its chime (R41, R137). -/
def State.chimeLost (p : Fin 64) (s : State) : State :=
  (s.modProgram p fun pr => { pr with chimeSkipped := true }).enterPlaying p

/-- The test of a GATHERING program at a change of its counts (R40). -/
def State.gatherTest (p : Fin 64) (s : State) : State :=
  let pr := s.programs.get p
  if pr.state == .gathering && pr.held == pr.admitted && pr.held != 0 then s.chimeStep p else s

/-! ### The show: hold and resume (R161 to R163) -/

def State.showPrograms (s : State) : List (Fin 64) :=
  s.programs.indices fun p => p.kind == .theatre && p.state != .free

/-- Entry to HELD: t and the follow timer stop, channels pause, SHOW programs in PLAYING are held (R161). -/
def State.enterHeld (r : HoldRecord) (s : State) : State :=
  let s := s.modTheatre fun t => { t with state := .held, hold := some r }
  let s := s.forAll (allFin 16) fun x s => s.signalOwner (.source x) Channel.signalPause
  s.forAll s.showPrograms fun p s =>
    s.modProgram p fun pr => if pr.state == .playing then { pr with state := .held } else pr

/-- A displacement of program `p` at outlet `o` is reported (R59, R161). -/
def State.displaced (p : Fin 64) (o : Fin 256) (s : State) : State :=
  if s.theatre.state == .held then s
  else
    let from_ := s.theatre.state
    let sets := s.showPrograms.map fun q =>
      (q, (allFin 256).filter fun x => s.holdsAt q x || (q == p && x == o))
    (s.enterHeld { byHost := false, heldFrom := from_, autoResume := s.lists.root.autoResume, outlets := sets }).emitNote
      .showState 1 p.val (o.val + 65536 * from_.code)

/-- HELD SHOW programs enter PLAYING again (R43, R163, R164). -/
def State.unholdPrograms (s : State) : State :=
  s.forAll s.showPrograms fun p s =>
    s.modProgram p fun pr =>
      if pr.state == .held then ({ pr with state := .playing } : Program).startDuration else pr

/-- The show resumes; `subject` is 0 by the resume test and 1 by RESUME_SHOW (R163, R165). A fade whose first period has
not begun plays t = 0 first (R158; log entry 39). -/
def State.resumeShow (subject : Nat) (s : State) : State :=
  match s.theatre.hold with
  | some r =>
    let s := s.modTheatre fun t => { t with state := r.heldFrom, hold := none }
    let s := s.forAll (allFin 16) fun x s => s.signalOwner (.source x) Channel.signalResume
    s.unholdPrograms.emitNote .showState 2 subject r.heldFrom.code
  | none => s

/-- The resume test (R162). -/
def State.resumeTest (s : State) : State :=
  match s.theatre.hold with
  | some r =>
    if s.theatre.state == .held && !r.byHost && r.autoResume
        && r.outlets.all (fun x => x.2.all fun o => s.holdsAt x.1 o) then s.resumeShow 0
    else s
  | none => s

/-- A SHOW program that becomes FREE leaves the hold set, and the resume test is made (R162). -/
def State.leaveHoldSet (p : Fin 64) (s : State) : State :=
  match s.theatre.hold with
  | some r =>
    if r.outlets.any fun x => x.1 == p then
      (s.modTheatre fun t =>
        { t with hold := some { r with outlets := r.outlets.filter fun x => x.1 != p } }).resumeTest
    else s
  | none => s

/-! ### Renaming (R54, R57 to R59) -/

/-- The override line of an outlet is evaluated (R58). -/
def State.evalLine (o : Fin 256) (s : State) : State :=
  let out := s.outlets.get o
  s.setLine o <|
    out.kind == .cabinLoop &&
      match s.holder o with
      | some c => out.overrideThreshold ≤ c.priority
      | none => false

/-- A holder's program counts one outlet more or fewer (R57). -/
def State.countHeld (c : Option Claim) (f : Nat → Nat) (s : State) : State :=
  match c with
  | some { owner := .program p, .. } => s.modProgram p fun pr => { pr with held := f pr.held }
  | _ => s

def State.gatherTestOf (c : Option Claim) (s : State) : State :=
  match c with
  | some { owner := .program p, .. } => s.gatherTest p
  | _ => s

/-- The claim's owner is a SHOW program. -/
def State.isShow (s : State) (c : Option Claim) : Bool :=
  match c with
  | some { owner := .program p, .. } => (s.programs.get p).kind == .theatre && (s.programs.get p).state != .free
  | _ => false

/-- A displacement, when the claim that stopped holding is a SHOW program's and the new holder reaches its show hold
threshold (R59). -/
def State.reportDisplaced (o : Fin 256) (old new : Option Claim) (s : State) : State :=
  match old, new with
  | some { owner := .program p, .. }, some c =>
    let pr := s.programs.get p
    if pr.kind == .theatre && (pr.holdThreshold ≤ c.priority : Bool)
        && (pr.state == .gathering || pr.state == .chiming || pr.state == .playing) then s.displaced p o
    else s
  | _, _ => s

/-- The outlet's stack becomes `cs` and is named again, with the reports of R54 in their order. -/
def State.restack (o : Fin 256) (cs : List Claim) (s : State) : State :=
  let old := s.holder o
  let named := nameStack (s.lockFloor o) cs
  let new := holderIn named
  let s := s.setStack o named
  if old.map (·.owner) = new.map (·.owner) then s.evalLine o
  else
    let s := (s.countHeld old (· - 1)).countHeld new (· + 1)
    let s := (s.gatherTestOf old).gatherTestOf new
    let s := (s.evalLine o).reportDisplaced o old new
    if s.isShow old || s.isShow new then s.resumeTest else s

/-- The outlet is named again with its claims unchanged: a change of its area's lock floor (R54). -/
def State.rename (o : Fin 256) (s : State) : State := s.restack o (s.stack o)

/-- An owner's claim is removed at an outlet; without one nothing happens (R56). -/
def State.removeClaim (w : Owner) (o : Fin 256) (s : State) : State :=
  if hasOwner w (s.stack o) then s.restack o ((s.stack o).filter fun c => c.owner != w) else s

/-- An owner's claims are removed at every outlet, in rising outlet number (R56). -/
def State.removeAll (w : Owner) (s : State) : State := s.forAll (allFin 256) (State.removeClaim w)

end Sys2Proof.Machine
end

