-- ==== Sys2Proof/Machine/Placing.lean ====
section
/-! DEFINITION. The end of a program (R44), the placement of claims with admission and eviction (R55, R57), and the
start of a program in its slot (R38 to R40), which host programs and pages share (R49). -/

namespace Sys2Proof.Machine

/-! ### The end of a program (R44) -/

/-- The result fields of a START_PROGRAM record and its return (R44, section 1.9). -/
def Program.ended (pr : Program) (r : RecRef) (code : Nat) (time : Word) : Return :=
  { record := r, status := marked code r.mark
    results := [(44, bytes1 (if pr.chimeSkipped then 1 else 0)), (46, bytes2 pr.admitted), (48, bytes4 time.toNat)] }

/-- The end of a PAGE program is reported to its call, unless the call is clearing (R128, R130). -/
def State.reportPageEnd (p : Fin 64) (src : Source) (s : State) : State :=
  match src with
  | .pageMix c =>
    let call := s.calls.get c
    if call.state == .ringing || call.state == .active then
      s.modCall c fun call =>
        { call with page := call.page.map fun g => if g.slot == p then { g with state := .ended } else g }
    else s
  | _ => s

/-- A program ends with a status (R44): its claims are removed, its chime voice and its channel released, its slot
made FREE, and its return requested or its end reported to its call. A FREE slot has no program to end. -/
def State.endProgram (p : Fin 64) (code : Nat) (s : State) : State :=
  if (s.programs.get p).state == .free then s
  else
    let s := s.removeAll (.program p)
    let s := s.releaseVoice (.chime p)
    let s := s.releaseChannel (.program p)
    let pr := s.programs.get p
    let s := s.modProgram p fun pr => { reservation := pr.reservation }
    let s := s.leaveHoldSet p
    match pr.record with
    | some r => s.requestReturn .program (pr.ended r code s.time)
    | none => s.reportPageEnd p pr.source

/-! ### Eviction and admission (R55, R57) -/

/-- The owner of an evicted claim is told (R57). -/
def State.evicted (w : Owner) (s : State) : State :=
  match w with
  | .program p =>
    if p.val < 59 then
      let s := s.modProgram p fun pr => { pr with admitted := pr.admitted - 1 }
      let pr := s.programs.get p
      if pr.admitted = 0 then s.endProgram p (if pr.state == .ending then stStopped else stNoTarget)
      else s.gatherTest p
    else s
  | .party c i =>
    s.modCall c fun call =>
      { call with parties := call.parties.modify i.val fun q => { q with outletLost := true, claim := none } }

/-- An outlet takes claims when it is defined and not SPARE (R21, R51). -/
def OutletKind.takesClaims : OutletKind → Bool
  | .undefined | .spare => false
  | .cabinLoop | .publicSpace | .crewArea | .theatre | .station => true

/-- A claim is placed at an outlet: admitted, or not (R21, R51, R55). -/
def State.place (c : Claim) (o : Fin 256) (s : State) : Bool × State :=
  let cs := s.stack o
  if !(s.outlets.get o).kind.takesClaims || hasOwner c.owner cs then (false, s)
  else if cs.length < 8 then (true, s.restack o (insertClaim c cs))
  else
    match cs.getLast? with
    | some last =>
      if last.priority < c.priority then
        (true, (s.restack o (insertClaim c cs.dropLast)).evicted last.owner)
      else (false, s)
    | none => (false, s)

/-- The claim would hold at once: it is eligible and no eligible claim comes before it (R39). -/
def State.wouldHold (s : State) (c : Claim) (o : Fin 256) : Bool :=
  let floor := s.lockFloor o
  c.eligible floor && (s.stack o).all fun d => !d.eligible floor || c.before d

/-- A claim is placed at each of a list of outlets, in order, where `test` lets it; the count of admissions. -/
def State.placeAll (c : Claim) (test : State → Fin 256 → Bool) (os : List (Fin 256)) (s : State) : Nat × State :=
  os.foldl (fun acc o =>
    if test acc.2 o then
      let r := acc.2.place c o
      (acc.1 + (if r.1 then 1 else 0), r.2)
    else acc) (0, s)

/-! ### The start of a program (R38 to R40) -/

/-- The claim a program places. -/
def Program.claim (pr : Program) (p : Fin 64) : Claim :=
  { owner := .program p, priority := pr.priority, arrival := pr.arrival, duckable := pr.duckable
    allowsUndertone := pr.allowsUndertone, state := .waiting }

/-- The gather timer of a GATHERING program expires (R40). -/
def State.gatherExpired (p : Fin 64) (s : State) : State :=
  let pr := s.programs.get p
  if pr.state == .gathering then
    let s := s.modProgram p fun pr => { pr with gatherTimer := none }
    if pr.held = 0 then s.endProgram p stNoTarget else s.chimeStep p
  else s

/-- Step 6 of R38: GATHERING with its test and its timer (R40), or the chime step. -/
def State.afterPlacing (p : Fin 64) (s : State) : State :=
  let pr := s.programs.get p
  match pr.policy with
  | .all =>
    let s := (s.modProgram p fun pr => { pr with gatherTimer := some pr.gatherTimeout }).gatherTest p
    if pr.gatherTimeout = 0 then s.gatherExpired p else s
  | .now | .ifFree => s.chimeStep p

/-- Steps 3 to 6 of R38 for a slot that has its values: the claims are placed, the counts looked at, a stream is
bound, and the program goes on. Until step 6 the slot stands as GATHERING with an admitted count of 0, so that no
test of R40 is met in between. -/
def State.launch (p : Fin 64) (desc : Option StreamDesc) (s : State) : State :=
  let pr := s.programs.get p
  let c := pr.claim p
  let test : State → Fin 256 → Bool := fun s o => pr.policy != .ifFree || s.wouldHold c o
  let placed := s.placeAll c test pr.targets
  let s := placed.2.modProgram p fun pr => { pr with admitted := placed.1 }
  if placed.1 = 0 then s.endProgram p stNoTarget
  else
    let s := match desc with
      | some d => (s.bind (.program p) d).2
      | none => s
    s.afterPlacing p

end Sys2Proof.Machine
end

