-- ==== Sys2Proof/Machine/Port.lean ====
section
/-! DEFINITION. The Memory Port Arbiter (R18, R19): who waits, who is granted next, and how a grant ends. -/

namespace Sys2Proof.Machine

/-- The priority that ranks a channel for the arbiter and for seizure (R94). -/
def State.ownerPriority (s : State) (ch : Channel) : Nat :=
  if ch.state = .ended then 0
  else
    match ch.owner with
    | none => 0
    | some (.program p) => (s.programs.get p).priority
    | some (.source _) =>
      let shows := s.programs.list.filter fun p => p.kind == .theatre && p.state != .free
      if shows.isEmpty then 2 else shows.foldl (fun m p => max m p.priority) 0

/-! ### Waiting requests -/

/-- What a list's walker waits for. -/
def State.walkerRequest (s : State) (l : ListId) : Option Transfer :=
  match (s.walker l).stage with
  | .quiet | .handOver _ _ => none
  | .recordRead => some (.recordRead l)
  | .linkRead => some (.linkRead l)
  | .blockRead _ _ _ => some (.blockRead l)
  | .takenWrite h mark => some (.takenWrite l (h.takenWrite mark))
  | .returnWrite _ r _ => some (.returnWrite l r.write)

/-- A list's oldest pending return (R18). -/
def State.returnRequest (s : State) (l : ListId) : Option Transfer :=
  match s.lists.returns.get l.idx with
  | [] => none
  | r :: _ => some (.pendingReturn l r.write)

def State.channelRequest (s : State) (c : Fin 16) : Option Transfer := ((s.channels.get c).due).map (.channel c)

/-- The note of 32 bytes with the lost count, at body offset 8 of a NOTE_SPACE record, and the header's first word
(R182, section 1.9). -/
def noteWriteOf (r : RecRef) (n : Note) (lost : Nat) : PortWrite :=
  { addr := r.addr
    pieces :=
      [(8, bytes1 n.kind.code ++ bytes1 n.code ++ bytes2 n.subject ++ bytes4 n.time.toNat ++ bytes2 lost),
       (20, bytes4 n.detail),
       (0, headerWord false r.kind stDone r.tag)] }

/-- A note write waits while a record is ready and the queue is not empty (R182). -/
def State.noteRequest (s : State) : Option Transfer :=
  match s.notes.held, s.notes.queue with
  | some (r, .ready), n :: _ => some (.noteWrite (noteWriteOf r n s.notes.lost))
  | _, _ => none

/-- The next snapshot piece, after the TAKEN write of its record (R16). -/
def State.snapRequest (s : State) : Option Transfer :=
  match s.lists.snap with
  | some x => if x.ready && x.left != 0 then some (.snapPiece x.table x.next (x.buffer + x.written)) else none
  | none => none

def State.rootRequest (s : State) : Option Transfer := s.lists.rootRead.map fun r => .rootRead r.addr

/-- The channels that wait in class 1 (R18): alarm owners, program 60 first, then by channel number. -/
def State.alarmFetches (s : State) : List (Option Transfer) :=
  [60, 61, 62, 63].flatMap fun p : Fin 64 =>
    (allFin 16).map fun c => if (s.channels.get c).owner == some (.program p) then s.channelRequest c else none

/-- The channel that stands first in class 3: the highest owner priority, then the lowest number (R18). -/
def State.plainFetch (s : State) : Option Transfer :=
  let waiting := (allFin 16).filter fun c => !(s.channels.get c).ownedByAlarm && (s.channelRequest c).isSome
  let first := waiting.foldl (fun (best : Option (Fin 16)) c =>
    match best with
    | none => some c
    | some b => if s.ownerPriority (s.channels.get b) < s.ownerPriority (s.channels.get c) then some c else best) none
  match first with
  | some c => s.channelRequest c
  | none => none

/-- The waiting request that stands first, in the order of R18. -/
def State.firstRequest (s : State) : Option Transfer :=
  (s.alarmFetches
    ++ [s.walkerRequest .alarm, s.returnRequest .alarm, s.rootRequest]
    ++ [s.plainFetch]
    ++ [s.walkerRequest .call, s.returnRequest .call, s.walkerRequest .program, s.returnRequest .program,
        s.walkerRequest .cue, s.returnRequest .cue, s.walkerRequest .setup, s.returnRequest .setup,
        s.walkerRequest .note, s.returnRequest .note]
    ++ [s.noteRequest, s.snapRequest]).findSome? id

/-! ### Grants -/

/-- What a grant does to the block it serves: a pending return leaves its queue, a note write takes the head note and
clears the lost count (R182), a re-read of a waiting fragment is no longer due (R96). -/
def State.onGrant (t : Transfer) (s : State) : State :=
  match t with
  | .pendingReturn l _ =>
    { s with lists := { s.lists with returns := s.lists.returns.modify l.idx List.tail } }
  | .noteWrite _ =>
    { s with notes := { s.notes with
        queue := s.notes.queue.tail, lost := 0, held := s.notes.held.map fun h => (h.1, .writing) } }
  | .channel c _ => s.modChannel c fun ch => { ch with reread := false }
  | .rootRead _ | .recordRead _ | .linkRead _ | .blockRead _ | .takenWrite _ _ | .returnWrite _ _ | .snapPiece _ _ _ => s

/-- With the port idle, the request that stands first is granted (R18). -/
def State.arbitrate (s : State) : State :=
  match s.port.grant with
  | some _ => s
  | none =>
    match s.firstRequest with
    | none => s
    | some t => { s.onGrant t with port := { s.port with grant := some { transfer := t, discard := false } } }

/-- The bytes a transfer writes to shared memory. -/
def Transfer.write? : Transfer → Option PortWrite
  | .takenWrite _ w | .returnWrite _ w | .pendingReturn _ w | .noteWrite w => some w
  | .channel _ (.writeBack w) => some w
  | .channel _ (.fragmentRead _) | .channel _ (.burst _ _) | .channel _ (.walkRead _)
  | .rootRead _ | .recordRead _ | .linkRead _ | .blockRead _ | .snapPiece _ _ _ => none

/-- The grant in progress ends: its bytes have been written, and the port is idle. -/
def State.endGrant (t : Transfer) (s : State) : State :=
  { s with port := { grant := none, written := (t.write?).orElse fun _ => s.port.written } }

/-- The completion of the grant in progress, when it is one that `mine` accepts: it ends, it has its effect `f`
unless its result is discarded (R19), and the next request is granted. Any other completion is not due (log entry 3). -/
def State.complete (mine : Transfer → Bool) (f : Transfer → State → State) (s : State) : State :=
  match s.port.grant with
  | some g =>
    if mine g.transfer then
      let s := s.endGrant g.transfer
      (if g.discard then s else f g.transfer s).arbitrate
    else s
  | none => s

/-- The hand-over of the record of kind `kind` that list `l`'s walker has in hand (R11 step 5); with no such record in
hand the hand-over is not due (log entries 3 and 4). -/
def State.handOver (l : ListId) (kind : Nat) (f : Hand → List (List Byte) → State → State) (s : State) : State :=
  match (s.walker l).stage with
  | .handOver h blocks => if h.kind = kind then (f h blocks s).arbitrate else s
  | _ => s

end Sys2Proof.Machine
end

