-- ==== Sys2Proof/Machine/Alarms.lean ====
section
/-! DEFINITION. The Alarm Unit, the Contact Inputs and the records of the Tone Pool (chapter 8): voice taking (R137),
seizure (R109), the acts on the area table (R141 to R144), alarm programs and their phases (R145 to R148), cycle ends
(R136), contacts and the contact microphone (R149 to R151). -/

namespace Sys2Proof.Machine

/-! ### The area table (R140) -/

def AlarmKind.slot : AlarmKind → Fin 64
  | .muster => 60 | .fire => 61 | .security => 62 | .crewAlert => 63

def AlarmKind.priority : AlarmKind → Nat
  | .muster => 15 | .fire => 14 | .security => 13 | .crewAlert => 12

/-- The outlet kinds a kind sounds on (R140). -/
def AlarmKind.audience (k : AlarmKind) (o : OutletKind) : Bool :=
  match k with
  | .muster | .fire => o.takesClaims
  | .security | .crewAlert => o == .crewArea || o == .station

def State.areaState (s : State) (k : AlarmKind) (a : Fin 16) : AreaState := (s.alarms.table.get k.idx).get a

def State.setAreas (k : AlarmKind) (x : AreaState) (as : List (Fin 16)) (s : State) : State :=
  { s with alarms := { s.alarms with
      table := s.alarms.table.modify k.idx fun row => as.foldl (fun row a => row.set a x) row } }

/-- The outlets at which a kind should hold a claim (R140). -/
def State.alarmTargets (s : State) (k : AlarmKind) : List (Fin 256) :=
  s.outlets.indices fun o => k.audience o.kind && s.areaState k o.area == .sounding

/-- The lock floor of an area: 10 while any kind is SILENCED there (R52). -/
def State.floorFor (s : State) (a : Fin 16) : Nat :=
  if AlarmKind.all.any fun k => s.areaState k a == .silenced then 10 else 0

/-- The area set of a note: bits 15:0 (R144). -/
def areaBits (as : List (Fin 16)) : Nat := as.foldl (fun n a => n + 2 ^ a.val) 0

/-- The causes of an ALARM_STATE note (R144). -/
inductive AlarmCause where
  | record | contact | patternEnd
deriving DecidableEq, Repr

def AlarmCause.code : AlarmCause → Nat
  | .record => 0 | .contact => 1 | .patternEnd => 2

def AreaState.code : AreaState → Nat
  | .quiet => 0 | .sounding => 1 | .silenced => 2

/-- The note of an act that changed entries, and ALARM in CAUSE (R144). -/
def State.alarmNote (k : AlarmKind) (x : AreaState) (as : List (Fin 16)) (cause : AlarmCause) (s : State) : State :=
  (s.emitNote .alarmState x.code k.idx.val (areaBits as + 65536 * cause.code)).setCause .alarm

/-! ### Taking a voice (R137) and seizing a channel (R109) -/

/-- The chime voice an alarm takes: its program has the lowest priority, and among equals the voice is the
highest-numbered (R137). -/
def State.chimeVictim (s : State) : Option (Fin 8 × Fin 64) :=
  (allFin 8).foldl (fun (best : Option (Fin 8 × Fin 64)) v =>
    match (s.tones.voices.get v).user with
    | .chime p =>
      match best with
      | none => some (v, p)
      | some b => if (s.programs.get p).priority ≤ (s.programs.get b.2).priority then some (v, p) else best
    | _ => best) none

/-- An alarm kind's request for a voice (R137). -/
def State.alarmVoice (k : AlarmKind) (pat : Fin 12) (s : State) : State :=
  match s.freeVoice with
  | some v => s.giveVoice v (.alarm k) pat
  | none =>
    match s.chimeVictim with
    | some (v, p) => (s.giveVoice v (.alarm k) pat).chimeLost p
    | none =>
      match s.voiceOf .ring with
      | some v => s.giveVoice v (.alarm k) pat
      | none => s

/-- The channels an alarm may seize (R109). -/
def State.seizable (s : State) (c : Fin 16) : Bool :=
  let ch := s.channels.get c
  ch.owner.isSome && !ch.ownedByAlarm && ch.state != .free && ch.state != .ended && s.ownerPriority ch < 12

/-- The victim: the lowest owner priority, and among equals the highest-numbered channel (R109). -/
def State.seizureVictim (s : State) : Option (Fin 16) :=
  ((allFin 16).filter s.seizable).foldl (fun (best : Option (Fin 16)) c =>
    match best with
    | none => some c
    | some b => if s.ownerPriority (s.channels.get c) ≤ s.ownerPriority (s.channels.get b) then some c else best) none

/-- An alarm kind's request for a playback channel, with seizure when none is FREE (R99, R109). -/
def State.alarmBind (k : AlarmKind) (d : StreamDesc) (s : State) : State :=
  let w := ChanOwner.program k.slot
  match s.freeChannel with
  | some c => s.bindTo c w d
  | none =>
    match s.seizureVictim with
    | none => s
    | some c =>
      let former := (s.channels.get c).owner
      let s := (s.discardTransfer c false).bindTo c w d
      match former with
      | some (.program p) => s.endProgram p stSeized
      | some (.source x) => s.emitNote .streamStarved 3 c.val (ChanOwner.code (.source x))
      | none => s

/-! ### Alarm programs (R145) -/

/-- A kind with a voice phase: a stream, and a count of tone cycles other than 0 (R139). -/
def AlarmDef.voiceStream (d : AlarmDef) : Option StreamDesc := if d.toneCycles = 0 then none else d.stream

def State.alarmDef (s : State) (k : AlarmKind) : Option AlarmDef := s.alarms.defs.get k.idx

/-- The alarm program takes the number its kind's claims were given (R33, R35), and leaves FREE when its kind's target
set has become non-empty (R145), with the gain of R65. -/
def State.alarmStart (k : AlarmKind) (arrival : Nat) (s : State) : State :=
  if (s.programs.get k.slot).state != .free then s.modProgram k.slot fun pr => { pr with arrival }
  else if (s.alarmTargets k).isEmpty then s
  else
    let s := s.modProgram k.slot fun pr =>
      { pr with state := .playing, kind := .alarm, source := .alarmSound, priority := k.priority, gain := 4096, arrival }
    match s.alarmDef k with
    | none => s
    | some d =>
      let s := (s.alarmVoice k d.pattern).modAlarm k fun a => { a with phase := .tone, count := 0 }
      match d.voiceStream with
      | some st => if s.part == .fallback then s else s.alarmBind k st
      | none => s

/-- The alarm program becomes FREE when its kind's target set has become empty (R145). -/
def State.alarmStop (k : AlarmKind) (s : State) : State :=
  if (s.programs.get k.slot).state == .free || !(s.alarmTargets k).isEmpty then s
  else
    let s := (s.releaseVoice (.alarm k)).releaseChannel (.program k.slot)
    (s.modAlarm k fun a => { a with phase := .unset, count := 0 }).modProgram k.slot fun _ => {}

/-- The claim an alarm program places (R34, R140). -/
def AlarmKind.claim (k : AlarmKind) (arrival : Nat) : Claim :=
  { owner := .program k.slot, priority := k.priority, arrival, duckable := false, allowsUndertone := false
    state := .waiting }

/-- An alarm claim is placed, and its program counts the outlet when it was admitted (R33). Claims removed meanwhile are
not taken off the count, since R57 lowers only the counts of host and PAGE programs (log entry 41). -/
def State.placeAlarm (k : AlarmKind) (arrival : Nat) (o : Fin 256) (s : State) : Bool × State :=
  let r := s.place (k.claim arrival) o
  (r.1, if r.1 then r.2.modProgram k.slot fun pr => { pr with admitted := pr.admitted + 1 } else r.2)

/-! ### Raise, silence, reset (R141 to R144) -/

/-- The outlets of a list of areas, rising. -/
def State.outletsIn (s : State) (as : List (Fin 16)) : List (Fin 256) := s.outlets.indices fun o => as.contains o.area

/-- The floors of areas are set to what the table asks. -/
def State.settleFloors (as : List (Fin 16)) (s : State) : State :=
  s.forAll as fun a s => s.setFloor a (s.floorFor a)

/-- A raise of a kind in areas (R141). Each outlet of a changed area is named once, with its claim and its area's new
floor together (R52). -/
def State.raise (k : AlarmKind) (areas : List (Fin 16)) (cause : AlarmCause) (s : State) : State :=
  let changed := areas.filter fun a => s.areaState k a != .sounding
  if changed.isEmpty then s
  else
    let issued := if changed.any fun a => s.areaState k a == .quiet then s.issueArrival
      else ((s.alarms.kinds.get k.idx).lastArrival, s)
    let n := issued.1
    let s := (issued.2.modAlarm k fun a => { a with lastArrival := n }).setAreas k .sounding changed
    let moved := changed.filter fun a => s.claims.floors.get a != s.floorFor a
    let s := s.settleFloors changed
    let s := s.forAll (s.outletsIn changed) fun o s =>
      let out := s.outlets.get o
      let r := if k.audience out.kind then s.placeAlarm k n o else (false, s)
      if !r.1 && moved.contains out.area then r.2.rename o else r.2
    (s.alarmStart k n).alarmNote k .sounding changed cause

/-- The kind's claims are removed from the outlets of areas, and each is named once, with its area's new floor. -/
def State.withdraw (k : AlarmKind) (areas : List (Fin 16)) (s : State) : State :=
  s.forAll (s.outletsIn areas) fun o s => s.restack o ((s.stack o).filter fun c => c.owner != .program k.slot)

/-- A silence of a kind in areas (R142). -/
def State.silence (k : AlarmKind) (areas : List (Fin 16)) (cause : AlarmCause) (s : State) : State :=
  let changed := areas.filter fun a => s.areaState k a == .sounding
  if changed.isEmpty then s
  else
    ((((s.setAreas k .silenced changed).settleFloors changed).withdraw k changed).alarmStop k).alarmNote k .silenced
      changed cause

/-- A reset of a kind in areas (R143); the end of a CREW_ALERT pattern is one too (R148). -/
def State.quieten (k : AlarmKind) (areas : List (Fin 16)) (cause : AlarmCause) (s : State) : State :=
  let changed := areas.filter fun a => s.areaState k a != .quiet
  if changed.isEmpty then s
  else
    ((((s.setAreas k .quiet changed).settleFloors changed).withdraw k changed).alarmStop k).alarmNote k .quiet changed
      cause

/-- The fields of a RAISE_ALARM, SILENCE_ALARM or RESET_ALARM record: its kind, if the code is defined, and its
areas. -/
def Hand.alarmKind (h : Hand) : Option AlarmKind := alarmKindOf (byteAt h.bytes 8)

def Hand.areas (h : Hand) : List (Fin 16) := areaSet (halfAt h.bytes 10)

/-- RAISE_ALARM: a kind code above 3, or an undefined kind, gives BAD_FIELD (R141). -/
def State.raiseRecord (h : Hand) (s : State) : State :=
  match h.alarmKind with
  | none => s.reply .alarm h stBadField false []
  | some k =>
    if (s.alarmDef k).isNone then s.reply .alarm h stBadField false []
    else (s.raise k h.areas .record).reply .alarm h stDone false []

def State.silenceRecord (h : Hand) (s : State) : State :=
  match h.alarmKind with
  | none => s.reply .alarm h stBadField false []
  | some k => (s.silence k h.areas .record).reply .alarm h stDone false []

def State.resetRecord (h : Hand) (s : State) : State :=
  match h.alarmKind with
  | none => s.reply .alarm h stBadField false []
  | some k => (s.quieten k h.areas .record).reply .alarm h stDone false []

/-! ### The contact microphone (R151) -/

/-- The CONTACT_MIC inlet, if there is one: at most one is (R27). -/
def State.contactMic (s : State) : Option (Fin 256) := (allFin 256).find? fun i => s.inlets.get i == .contactMic

def State.micEnabled (s : State) : Bool :=
  s.part == .fallback || (s.part == .running && s.lists.root.micEnabled)

/-- The outlets that program 59 claims (R50, R151). -/
def OutletKind.hearsMic : OutletKind → Bool
  | .cabinLoop | .publicSpace | .crewArea | .theatre => true
  | .undefined | .station | .spare => false

def micSlot : Fin 64 := 59

/-- The claim of program 59 (R34, R151). -/
def micClaim (arrival : Nat) : Claim :=
  { owner := .program micSlot, priority := 11, arrival, duckable := false, allowsUndertone := false, state := .waiting }

/-- Program 59 starts when slot 59 is FREE, MIC_CONTACT is accepted CLOSED, the microphone is enabled and some inlet
is CONTACT_MIC (R151). -/
def State.startMic (s : State) : State :=
  match s.contactMic with
  | some i =>
    if (s.programs.get micSlot).state == .free && (s.contacts.get 3).closed && s.micEnabled then
      let issued := s.issueArrival
      let s := issued.2
      let os := s.outlets.indices fun o => o.kind.hearsMic
      let s := s.modProgram micSlot fun pr =>
        { pr with state := .playing, kind := .contactMic, source := .inlet i, priority := 11, gain := 4096
                  arrival := issued.1, targets := os }
      let placed := s.placeAll (micClaim issued.1) (fun _ _ => true) os
      placed.2.modProgram micSlot fun pr => { pr with admitted := placed.1 }
    else s
  | none => s

/-- Program 59 ends: its claims are removed and the slot becomes FREE (R151). -/
def State.stopMic (s : State) : State :=
  if (s.programs.get micSlot).state == .free then s
  else (s.removeAll (.program micSlot)).modProgram micSlot fun _ => {}

/-! ### Contacts (R149, R150) -/

def allAreas : List (Fin 16) := allFin 16

/-- What an accepted closure of a line does (R150). -/
def State.closureEffect (line : Fin 4) (s : State) : State :=
  match line with
  | 0 => s.raise .muster allAreas .contact
  | 1 => s.raise .fire allAreas .contact
  | 2 => s.forAll AlarmKind.all fun k s => s.silence k allAreas .contact
  | 3 => s.startMic

/-- A closure is accepted: the filter changes, CONTACT is set, the CONTACT note made, and the line acts (R149, R150). -/
def State.acceptClosure (line : Fin 4) (s : State) : State :=
  let s := { s with contacts := s.contacts.set line { closed := true, count := 0 } }
  ((s.setCause .contact).emitNote .contact 1 line.val 0).closureEffect line

/-- An opening is accepted: only MIC_CONTACT's has an effect beyond the filter (R150, R151). -/
def State.acceptOpening (line : Fin 4) (s : State) : State :=
  let s := { s with contacts := s.contacts.set line { closed := false, count := 0 } }
  if line = 3 then s.stopMic else s

/-- The filter length P (R149). -/
def filterLength : Nat := 20

/-- A sample of a line (R149): one that equals the accepted level clears the count; one that differs adds 1, and the
twentieth is the accepted closure or opening. -/
def State.sampleContact (line : Fin 4) (closed : Bool) (s : State) : State :=
  let x := s.contacts.get line
  if x.closed = closed then { s with contacts := s.contacts.set line { x with count := 0 } }
  else if x.count + 1 < filterLength then { s with contacts := s.contacts.set line { x with count := x.count + 1 } }
  else if closed then s.acceptClosure line
  else s.acceptOpening line

/-! ### Segment and cycle ends (R135, R136, R146, R148) -/

/-- The VOICE phase begins: the tone stops sounding and is kept, the channel is given run (R146). -/
def State.beginVoicePhase (k : AlarmKind) (v : Fin 8) (s : State) : State :=
  ((s.leaveOwing v).modVoice v fun x => { x with mode := .silent }).modAlarm k (fun a => { a with phase := .voice })
    |>.signalOwner (.program k.slot) Channel.signalRun

/-- The test for the voice point after a cycle of an alarm kind in TONE (R146). -/
def State.voicePoint (k : AlarmKind) (v : Fin 8) (s : State) : State :=
  match (s.alarmDef k).bind AlarmDef.voiceStream with
  | none => s
  | some st =>
    let n := ((s.alarmDef k).map (·.toneCycles)).getD 0
    if (s.alarms.kinds.get k.idx).count < n then s
    else
      let s := s.modAlarm k fun a => { a with count := 0 }
      match s.channelOf (.program k.slot) with
      | some c => if (s.channels.get c).state == .ready then s.beginVoicePhase k v else s
      | none => if s.part == .fallback then s else s.alarmBind k st

/-- CREW_ALERT's pattern has ended (R148). -/
def State.crewAlertEnds (s : State) : State := s.quieten .crewAlert allAreas .patternEnd

/-- What follows the end of a cycle of an alarm kind's voice, with `done` cycles completed (R136). -/
def State.alarmCycle (k : AlarmKind) (v : Fin 8) (copy : PatternDef) (p : Fin 12) (done : Nat) (s : State) : State :=
  let counted := s.modAlarm k fun a => { a with count := a.count + 1 }
  if copy.cycles = 0 || done < copy.cycles then (counted.beginCycle v p done).voicePoint k v
  else
    match copy.next.filter s.patternDefined with
    | some q => (counted.beginCycle v q 0).voicePoint k v
    | none =>
      if k = .crewAlert then s.crewAlertEnds
      else
        let own := ((s.alarmDef k).map (·.pattern)).getD p
        (counted.beginCycle v own 0).voicePoint k v

/-- The end of a cycle (R136). -/
def State.cycleEnd (v : Fin 8) (s : State) : State :=
  let s := s.leaveOwing v
  let x := s.tones.voices.get v
  let done := x.cycles + 1
  match x.user with
  | .nobody => s
  | .ring => s.beginCycle v 11 done
  | .chime p =>
    if done < max 1 x.copy.cycles then s.beginCycle v x.pattern done
    else (s.modVoice v fun _ => {}).enterPlaying p
  | .alarm k => s.alarmCycle k v x.copy x.pattern done

/-- A voice has produced the last period of its segment: the next segment begins, or the cycle ends (R135). -/
def State.segmentEnd (v : Fin 8) (s : State) : State :=
  let x := s.tones.voices.get v
  if x.mode == .sounding && x.left == 0 then
    if x.segment + 1 < x.copy.segments.length then s.modVoice v fun x => x.beginSegment (x.segment + 1)
    else s.cycleEnd v
  else s

/-- A VOICE phase ends and the tone returns at the next period start, with the count of cycles kept (R147). -/
def State.endVoicePhase (k : AlarmKind) (s : State) : State :=
  if (s.alarms.kinds.get k.idx).phase == .voice then
    let s := s.modAlarm k fun a => { a with phase := .tone }
    match s.voiceOf (.alarm k) with
    | some v => s.modVoice v fun x => { x with mode := .starting true }
    | none => s
  else s

/-! ### DEFINE_PATTERN and DEFINE_ALARM (R133, R139) -/

/-- The segments of a pattern, clamped, and whether a clamp changed one (R133). -/
def clampSegment (g : RawSegment) : Segment × Bool :=
  let d := clampMark g.duration 1 1000
  let f := if g.freq = 0 then (0, false) else clampMark g.freq 200 4000
  ({ duration := d.1, freq := f.1, level := g.level }, d.2 || f.2)

def State.definePatternRecord (h : Hand) (blocks : List (List Byte)) (s : State) : State :=
  let r := patternRec h.bytes
  match toFin? 12 r.pattern with
  | none => s.reply .setup h stBadField false []
  | some p =>
    if r.segments < 1 || 16 < r.segments || 1 < r.action || (r.action = 1 && 12 ≤ r.next) then
      s.reply .setup h stBadField false []
    else
      let gs := (rawSegments (blocks.headD []) r.segments).map clampSegment
      let d : PatternDef :=
        { segments := gs.map (·.1), cycles := r.cycles, next := if r.action = 1 then toFin? 12 r.next else none }
      (s.definePattern p d).reply .setup h stDone (gs.any (·.2)) []

/-- DEFINE_ALARM, checked in the order of R139. The prime level of a descriptor that the clear voice flag leaves unused
sets no clamp mark (log entry 42). -/
def State.defineAlarmRecord (h : Hand) (s : State) : State :=
  let r := alarmRec h.bytes
  match alarmKindOf r.kind, toFin? 12 r.pattern with
  | some k, some p =>
    if !s.patternDefined p || (r.voice && !s.descOk r.desc) then s.reply .setup h stBadField false []
    else if (s.programs.get k.slot).state != .free then s.reply .setup h stInUse false []
    else
      let d := r.desc.settle
      let s := { s with alarms := { s.alarms with
        defs := s.alarms.defs.set k.idx
          (some { pattern := p, toneCycles := r.toneCycles, stream := if r.voice then some d.1 else none }) } }
      s.reply .setup h stDone (r.voice && d.2) []
  | _, _ => s.reply .setup h stBadField false []

/-! ### Meanings -/

/-- DEFINE_PATTERN (R133, R134). -/
def execDefinePattern (s : State) : Host.Outcome State Fault Refusal :=
  .next (s.handOver .setup 0x04 fun h bs s => s.definePatternRecord h bs)

/-- DEFINE_ALARM (R139). -/
def execDefineAlarm (s : State) : Host.Outcome State Fault Refusal :=
  .next (s.handOver .setup 0x05 fun h _ s => s.defineAlarmRecord h)

/-- RAISE_ALARM (R141). -/
def execRaiseAlarm (s : State) : Host.Outcome State Fault Refusal :=
  .next (s.handOver .alarm 0x30 fun h _ s => s.raiseRecord h)

/-- SILENCE_ALARM (R142). -/
def execSilenceAlarm (s : State) : Host.Outcome State Fault Refusal :=
  .next (s.handOver .alarm 0x31 fun h _ s => s.silenceRecord h)

/-- RESET_ALARM (R143). -/
def execResetAlarm (s : State) : Host.Outcome State Fault Refusal :=
  .next (s.handOver .alarm 0x32 fun h _ s => s.resetRecord h)

/-- CONTACT_LINE_SAMPLE (R149). -/
def execContactLineSample (line : Fin 4) (closed : Bool) (s : State) : Host.Outcome State Fault Refusal :=
  .next (s.sampleContact line closed).arbitrate

/-- ACCEPTED_CLOSURE (R149, R150): the twentieth closed sample of a line that stands OPEN. -/
def execAcceptedClosure (line : Fin 4) (s : State) : Host.Outcome State Fault Refusal :=
  let x := s.contacts.get line
  .next (if !x.closed && x.count + 1 == filterLength then (s.acceptClosure line).arbitrate else s)

/-- ACCEPTED_OPENING (R149, R151): the twentieth open sample of a line that stands CLOSED. -/
def execAcceptedOpening (line : Fin 4) (s : State) : Host.Outcome State Fault Refusal :=
  let x := s.contacts.get line
  .next (if x.closed && x.count + 1 == filterLength then (s.acceptOpening line).arbitrate else s)

/-- TONE_SEGMENT_END (R135, R136). -/
def execToneSegmentEnd (v : Fin 8) (s : State) : Host.Outcome State Fault Refusal := .next (s.segmentEnd v).arbitrate

end Sys2Proof.Machine
end

