-- ==== Sys2Proof/Machine/Ambient.lean ====
section
/-! DEFINITION. The Ambient Unit (chapter 5): the compensation factor (R88), captures (R91), the completion of a
window (R84 to R87), and what a redefined outlet does to it (R92). -/

namespace Sys2Proof.Machine

/-- The compensation factor of an outlet from its L, B and settings (R88). -/
def compensation (out : Outlet) (level baseline : Nat) : Nat :=
  if !out.compEnable || out.senseInlet.isNone then 4096
  else
    let e : Int := (level : Int) - baseline - out.margin
    4096 + (max 0 (min (out.cap : Int) (trunc (e * out.slope) 256))).toNat

/-- C is recomputed (R88). -/
def State.recomputeC (o : Fin 256) (s : State) : State :=
  s.modAmbient o fun a => { a with factor := compensation (s.outlets.get o) a.level a.baseline }

/-- B is set, and C recomputed (R88, R90, R91). -/
def State.setBaseline (o : Fin 256) (b : Nat) (s : State) : State :=
  (s.modAmbient o fun a => { a with baseline := b }).recomputeC o

/-- The result field of a CALIBRATE record (section 1.9). -/
def baselineResult (b : Nat) : List (Nat × List Byte) := [(16, bytes4 b)]

/-- A pending ambient capture completes: B takes L, and its record is returned DONE with it (R91, R92). -/
def State.completeCapture (o : Fin 256) (s : State) : State :=
  let a := s.ambient.outlets.get o
  match a.capture with
  | none => s
  | some cap =>
    ((s.modAmbient o fun a => { a with capture := none }).setBaseline o a.level).requestReturn .setup
      { record := cap.record, status := marked stDone cap.record.mark, results := baselineResult a.level }

/-- The window level of R84. -/
def windowLevel (sum length : Nat) : Nat := sum / (48 * length)

/-- The smoothed level after a window of level `x` (R87). -/
def smooth (level x alpha : Nat) : Nat := ((level : Int) + trunc (((x : Int) - level) * alpha) 16).toNat

/-- The completed window is judged at one outlet, and its sum and marks are cleared (R84 to R87, R91). -/
def State.windowAt (o : Fin 256) (s : State) : State :=
  let a := s.ambient.outlets.get o
  let out := s.outlets.get o
  let judged :=
    if out.senseInlet.isNone then s
    else if a.gated then s.modAmbient o fun a => { a with gatedCount := min 65535 (a.gatedCount + 1) }
    else if a.unheard || a.void then s
    else
      let s := (s.modAmbient o fun a =>
        { a with level := smooth a.level (windowLevel a.sum s.ambient.length) out.smoothing }).recomputeC o
      if a.capture.any (·.begun) then s.completeCapture o else s
  judged.modAmbient o fun a => { a with sum := 0, gated := false, unheard := false, void := false }

/-- The window in progress has had its last period and completes (R84), at the outlets in rising number: the spec names
no order for the captures that return then (log entry 36). -/
def State.windowComplete (s : State) : State :=
  if s.ambient.position = s.ambient.length then
    let s := s.forAll (allFin 256) State.windowAt
    { s with ambient := { s.ambient with position := 0 } }
  else s

/-- What an applied DEFINE_OUTLET record does, when the outlet named `old` as its sense inlet (R92). A window is in
progress once a period of it has begun. -/
def State.ambientRedefined (o : Fin 256) (old : Option (Fin 256)) (s : State) : State :=
  let new := (s.outlets.get o).senseInlet
  let s :=
    if old = new then s
    else if new.isSome then
      s.modAmbient o fun a => { a with void := a.void || s.ambient.position != 0 }
    else
      (s.modAmbient o fun a => { a with sum := 0, gated := false, unheard := false, void := false }).completeCapture o
  s.recomputeC o

/-- CALIBRATE with target ambient, by value (R90) or by capture (R91). -/
def State.calibrateAmbient (o : Fin 256) (h : Hand) (s : State) : State :=
  let r := calibrateRec h.bytes
  if r.method = 0 then
    let v := clampMark r.value 0 8388608
    (s.setBaseline o v.1).reply .setup h stDone v.2 (baselineResult v.1)
  else if (s.outlets.get o).senseInlet.isNone then s.reply .setup h stBadField false []
  else (s.modAmbient o fun a => { a with capture := some { record := h.ref false, begun := false } }).take .setup h false

/-- A new window begins with this period: its length is W, and the captures that wait may take it (R83, R91). -/
def State.beginWindow (s : State) : State :=
  if s.ambient.position = 0 then
    { s with ambient := { s.ambient with
        length := s.ambient.window
        outlets := s.ambient.outlets.map fun a => { a with capture := a.capture.map fun c => { c with begun := true } } } }
  else s

/-- AMBIENT_WINDOW_COMPLETE (R84 to R87, R91). -/
def execAmbientWindowComplete (s : State) : Host.Outcome State Fault Refusal := .next s.windowComplete.arbitrate

end Sys2Proof.Machine
end

