-- ==== Sys2Proof/Machine/Intercom.lean ====
section
/-! DEFINITION. The Intercom Unit (chapter 7): joining and leaving of parties, the examination of a call, clearing,
pages (R49, R130), stations and their reports, the CALL records, and DEFINE_STATION (R29, R30). -/

namespace Sys2Proof.Machine

/-! ### Parties -/

def State.modParty (c : Fin 16) (i : Fin 8) (f : Party → Party) (s : State) : State :=
  s.modCall c fun call => { call with parties := call.parties.modify i.val f }

/-- A RINGING or CONNECTED party. -/
def Party.live (p : Party) : Bool := p.state == .ringing || p.state == .connected

/-- The call slot a note or a snapshot shows for a station: 255 for none (R116, R32). -/
def callCode (c : Option (Fin 16)) : Nat :=
  match c with
  | some c => c.val
  | none => 255

/-- The RINGING or CONNECTED party of a call that a station is. -/
def State.partyOf (s : State) (c : Fin 16) (n : Fin 64) : Option (Fin 8) :=
  (allFin 8).find? fun i =>
    match (s.calls.get c).parties[i.val]? with
    | some p => p.live && p.station == n
    | none => false

/-- The claim of a party (R121). -/
def partyClaim (c : Fin 16) (i : Fin 8) (priority arrival : Nat) : Claim :=
  { owner := .party c i, priority, arrival, duckable := false, allowsUndertone := true, state := .waiting }

/-- A party's claim is placed at its station's outlet; a refusal sets the outlet-lost flag (R121). -/
def State.placeParty (c : Fin 16) (i : Fin 8) (n : Fin 64) (arrival : Nat) (s : State) : State :=
  match (s.stations.get n).binding with
  | none => s
  | some b =>
    let r := s.place (partyClaim c i (s.calls.get c).priority arrival) b.2
    r.2.modParty c i fun p => if r.1 then { p with claim := some b.2 } else { p with outletLost := true }

/-- What a station's party becomes when it joins (R119 step 3). -/
def Station.joinsAs (x : Station) (ring : Bool) : PartyState :=
  match x.state with
  | .idle => if !ring || x.offHook then .connected else .ringing
  | .undefined | .ringing | .inCall | .lost => .busy

/-- A party joins a call at the next free index (R119 step 3). -/
def State.joinParty (c : Fin 16) (n : Fin 64) (ring : Bool) (talk listen arrival : Nat) (s : State) : State :=
  let call := s.calls.get c
  let as_ := (s.stations.get n).joinsAs ring
  match toFin? 8 call.parties.length with
  | none => s
  | some i =>
    let s := s.modCall c fun call =>
      { call with parties := call.parties ++
          [{ station := n, ring, talk, listen, state := as_, outletLost := false
             ringTimer := if as_ == .ringing then some (1000 * call.ringTimeout) else none, arrival, claim := none }] }
    if as_ == .busy then s
    else
      (s.modStation n fun x =>
        { x with state := if as_ == .ringing then .ringing else .inCall, call := some c }).placeParty c i n arrival

/-- A party leaves its call in a state with no claim (R121): its ring timer stops and its claim is removed. -/
def State.endParty (c : Fin 16) (i : Fin 8) (st : PartyState) (s : State) : State :=
  match (s.calls.get c).parties[i.val]? with
  | none => s
  | some p =>
    let s := s.modParty c i fun p => { p with state := st, ringTimer := none, claim := none }
    match p.claim with
    | some o => s.removeClaim (.party c i) o
    | none => s

/-- A station is in no call any more: IDLE, with current call none. -/
def State.idleStation (n : Fin 64) (s : State) : State :=
  s.modStation n fun x => { x with state := .idle, call := none }

/-! ### Pages, clearing, and the examination of a call (R125, R128, R130) -/

/-- The page starts in its reserved slot as a PAGE program (R49, R130). -/
def State.startPage (c : Fin 16) (s : State) : State :=
  let call := s.calls.get c
  match call.page with
  | some g =>
    if g.state != .reserved then s
    else
      let issued := s.issueArrival
      let s := issued.2.modCall c fun call => { call with page := some { g with state := .running } }
      let s := s.modProgram g.slot fun pr =>
        { state := .gathering, kind := .page, source := .pageMix c, priority := call.priority
          targets := g.targets.filter fun o => (s.outlets.get o).kind.takesClaims
          policy := (policyOf g.policy).getD .now, gain := g.gain, allowsUndertone := true, arrival := issued.1
          reservation := pr.reservation }
      s.launch g.slot none
  | none => s

/-- The code of a final party state, with the outlet-lost flag in bit 7 (R128). -/
def Party.finalByte (p : Party) : Byte :=
  let code : Nat := match p.state with
    | .ringing => 1 | .connected => 2 | .busy => 3 | .left => 4 | .lost => 5 | .noAnswer => 6
  BitVec.ofNat 8 (code + if p.outletLost then 128 else 0)

/-- A RINGING or CONNECTED party becomes LEFT and its station IDLE; its claim stands until step 3 (R128 step 2). -/
def State.clearParty (c : Fin 16) (i : Fin 8) (s : State) : State :=
  match (s.calls.get c).parties[i.val]? with
  | some p =>
    if p.live then
      (s.modParty c i fun p => { p with state := .left, ringTimer := none }).idleStation p.station
    else s
  | none => s

/-- A party's claim is removed (R128 step 3). -/
def State.unclaimParty (c : Fin 16) (i : Fin 8) (s : State) : State :=
  match ((s.calls.get c).parties[i.val]?).bind (·.claim) with
  | some o => (s.modParty c i fun p => { p with claim := none }).removeClaim (.party c i) o
  | none => s

/-- A call enters CLEARING (R128). -/
def State.enterClearing (c : Fin 16) (s : State) : State :=
  let s := s.modCall c fun call => { call with state := .clearing, final := call.parties.map Party.finalByte }
  let s := s.forAll (allFin 8) (State.clearParty c)
  let s := s.forAll (allFin 8) (State.unclaimParty c)
  let s := match (s.calls.get c).page with
    | some g => if g.state == PageState.running then s.endProgram g.slot stStopped else s
    | none => s
  s.releaseRing

/-- The call becomes FREE: the reservation is cleared and the record's return requested (R128). -/
def State.freeCall (c : Fin 16) (s : State) : State :=
  let call := s.calls.get c
  let s := match call.page with
    | some g => s.modProgram g.slot fun pr => { pr with reservation := none }
    | none => s
  let s := s.modCall c fun _ => {}
  match call.record with
  | some r =>
    s.requestReturn .call
      { record := r, status := marked stCleared r.mark
        results := [(28, (call.final ++ List.replicate 8 0).take 8)] }
  | none => s

/-- The anchor is BUSY, LEFT or LOST (R125). -/
def Call.anchorGone (call : Call) : Bool :=
  match call.parties[call.anchor]? with
  | some p => p.state == .busy || p.state == .left || p.state == .lost
  | none => false

/-- A call's state is examined (R125). -/
def State.examine (c : Fin 16) (s : State) : State :=
  let call := s.calls.get c
  match call.state with
  | .free | .clearing => s
  | .ringing | .active =>
    if call.anchorGone || (call.parties.filter Party.live).length < 2 then s.enterClearing c
    else if 2 ≤ (call.parties.filter fun p => p.state == .connected).length then
      let s := s.modCall c fun call => { call with state := .active, everActive := true }
      if call.everActive then s else s.startPage c
    else s.modCall c fun call => { call with state := .ringing }

/-! ### Stations (R113 to R116) -/

/-- A present station becomes LOST, and with it its party (R114). DESIGN CHOICE: where the loss ends the last ringing, the
release test of the ring voice (R122) is made after the claim's removal and before the examination of the call, the
place that R123 and R126 give it; R114 names no place for it (log entry 48). -/
def State.stationLost (n : Fin 64) (s : State) : State :=
  let x := s.stations.get n
  match x.state with
  | .undefined | .lost => s
  | .idle | .ringing | .inCall =>
    let s := s.modStation n fun x => { x with state := .lost, holdTimer := none, call := none }
    match x.call with
    | some c =>
      match s.partyOf c n with
      | some i => ((s.endParty c i .lost).releaseRing).examine c
      | none => s
    | none => s

/-- The hold timer stands at 0 and its expiry is taken (R114). -/
def State.holdExpired (n : Fin 64) (s : State) : State :=
  let x := s.stations.get n
  if x.holdTimer == some 0 then (s.stationLost n).emitNote .station 3 n.val (callCode x.call) else s

/-- A RINGING party answers (R123). -/
def State.answer (n : Fin 64) (s : State) : State :=
  match (s.stations.get n).call with
  | some c =>
    match s.partyOf c n with
    | some i =>
      let s := s.modParty c i fun p => { p with state := .connected, ringTimer := none }
      let s := s.modStation n fun x => { x with state := .inCall }
      s.releaseRing.examine c
    | none => s
  | none => s

/-- A CONNECTED party hangs up (R124). -/
def State.hangUp (n : Fin 64) (s : State) : State :=
  match (s.stations.get n).call with
  | some c =>
    match s.partyOf c n with
    | some i => ((s.endParty c i .left).idleStation n).examine c
    | none => s
  | none => s

/-- A hook change is stored, acts by the station's state, and makes its note (R115). -/
def State.hookChange (n : Fin 64) (off : Bool) (s : State) : State :=
  let x := s.stations.get n
  let s := s.modStation n fun x => { x with offHook := off }
  let s := match x.state with
    | .ringing => if off then s.answer n else s
    | .inCall => if off then s else s.hangUp n
    | .undefined | .idle | .lost => s
  s.emitNote .station (if off then 1 else 2) n.val (callCode x.call)

/-- A presence report: the hold timer is loaded, and a LOST station becomes IDLE (R113 step 1). -/
def State.presence (n : Fin 64) (s : State) : State :=
  let x := s.stations.get n
  match x.state with
  | .undefined => s
  | .lost =>
    (s.modStation n fun x => { x with state := .idle, holdTimer := some x.holdValue }).emitNote .station 4 n.val 255
  | .idle | .ringing | .inCall => s.modStation n fun x => { x with holdTimer := some x.holdValue }

/-- A station report (R113): presence, then the hook, then the key. -/
def State.stationReport (n : Fin 64) (r : StationReport) (s : State) : State :=
  if !r.present then s
  else
    let s := s.presence n
    let s := if r.offHook != (s.stations.get n).offHook then s.hookChange n r.offHook else s
    match r.key with
    | some k => s.emitNote .stationKey k.val n.val (callCode (s.stations.get n).call)
    | none => s

/-- The defined station whose inlet is `i` (R113). -/
def State.stationAt (s : State) (i : Fin 256) : Option (Fin 64) :=
  (allFin 64).find? fun n =>
    match (s.stations.get n).binding with
    | some b => b.1 == i
    | none => false

/-- A ring timer stands at 0 and its expiry is taken (R123). -/
def State.ringExpired (c : Fin 16) (i : Fin 8) (s : State) : State :=
  match (s.calls.get c).parties[i.val]? with
  | some p =>
    if p.state == .ringing && p.ringTimer == some 0 then
      (((s.endParty c i .noAnswer).idleStation p.station).releaseRing).examine c
    else s
  | none => s

/-! ### CALL records -/

/-- The first count entries of a party block, when every station is defined (R118 check 4). -/
def State.partiesOf (s : State) (rs : List RawParty) : Option (List (Fin 64 × RawParty)) :=
  rs.mapM fun r =>
    (toFin? 64 r.station).bind fun n => if (s.stations.get n).binding.isSome then some (n, r) else none

/-- An accepted OPEN_CALL is opened (R119). -/
def State.openCall (c : Fin 16) (h : Hand) (page : Option Page) (ps : List (Fin 64 × RawParty)) (s : State) : State :=
  let r := openRec h.bytes
  let pri := clampMark r.priority 6 9
  let rt := clampMark r.ringTimeout 1 120
  let mark := pri.2 || rt.2
  let issued := (s.take .call h mark).issueArrival
  let s := issued.2.modCall c fun _ =>
    { state := .ringing, priority := pri.1, ringTimeout := rt.1, anchor := r.anchor, arrival := issued.1, page
      record := some (h.ref mark) }
  let s := match page with
    | some g => s.modProgram g.slot fun pr => { pr with reservation := some c }
    | none => s
  let s := s.forAll ps fun x s => s.joinParty c x.1 x.2.ring x.2.talk x.2.listen issued.1
  let s := if (s.calls.get c).parties.any fun p => p.state == .ringing then s.askRing else s
  let s := s.examine c
  if (s.calls.get c).state == .clearing then s.freeCall c else s

/-- The page an OPEN_CALL record asks for: none without the flag; the set is the first block read. -/
def OpenRec.pageOf (r : OpenRec) (blocks : List (List Byte)) (slot : Fin 64) : Option Page :=
  if r.page then
    some { slot, targets := outletSet (blocks.headD []), policy := r.pagePolicy, gain := r.pageGain, state := .reserved }
  else none

/-- An OPEN_CALL record is checked in the order of R118 and opened. -/
def State.openRecord (h : Hand) (blocks : List (List Byte)) (s : State) : State :=
  let r := openRec h.bytes
  let refuse (code : Nat) := s.reply .call h code false []
  let raw := rawParties (blocks.getLastD []) r.count
  match toFin? 16 r.call with
  | none => refuse stBadField
  | some c =>
    if r.count < 2 || 8 < r.count || r.count ≤ r.anchor then refuse stBadField
    else
      match s.partiesOf raw with
      | none => refuse stBadField
      | some ps =>
        if (raw[r.anchor]?).any (·.ring) then refuse stBadField
        else
          match toFin? 64 (if r.page then r.pageSlot else 0) with
          | none => refuse stBadSlot
          | some p =>
            let pr := s.programs.get p
            if r.page && (59 ≤ p.val : Bool) then refuse stBadSlot
            else if (s.calls.get c).state != .free then refuse stSlotBusy
            else if r.page && (pr.state != .free || pr.reservation.isSome) then refuse stSlotBusy
            else s.openCall c h (r.pageOf blocks p) ps

/-- ADD_PARTY (R120). -/
def State.addRecord (h : Hand) (s : State) : State :=
  let r := addRec h.bytes
  let refuse (code : Nat) := s.reply .call h code false [(16, bytes1 255)]
  match toFin? 16 r.call, toFin? 64 r.station with
  | some c, some n =>
    let call := s.calls.get c
    if (s.stations.get n).binding.isNone then refuse stBadField
    else if call.state == .free || call.state == .clearing then refuse stNotActive
    else if 8 ≤ call.parties.length then refuse stBadField
    else
      let index := call.parties.length
      let issued := s.issueArrival
      let s := issued.2.joinParty c n r.ring r.talk r.listen issued.1
      let s := if (((s.calls.get c).parties[index]?).any fun p => p.state == .ringing) then s.askRing else s
      (s.examine c).reply .call h stDone false [(16, bytes1 index)]
  | _, _ => refuse stBadField

/-- DROP_PARTY (R126). -/
def State.dropRecord (h : Hand) (s : State) : State :=
  let refuse (code : Nat) := s.reply .call h code false []
  match toFin? 16 (byteAt h.bytes 8) with
  | none => refuse stBadField
  | some c =>
    let call := s.calls.get c
    if call.state == .free then refuse stNotActive
    else
      match call.parties[byteAt h.bytes 9]?, toFin? 8 (byteAt h.bytes 9) with
      | some p, some i =>
        if call.state == .clearing || !p.live then refuse stNotActive
        else ((((s.endParty c i .left).idleStation p.station).releaseRing).examine c).reply .call h stDone false []
      | _, _ => refuse stBadField

/-- CLOSE_CALL (R127). -/
def State.closeRecord (h : Hand) (s : State) : State :=
  let refuse (code : Nat) := s.reply .call h code false []
  match toFin? 16 (byteAt h.bytes 8) with
  | none => refuse stBadField
  | some c =>
    let st := (s.calls.get c).state
    if st == .free || st == .clearing then refuse stNotActive
    else (s.enterClearing c).reply .call h stDone false []

/-! ### DEFINE_STATION (R29, R30) -/

/-- The inlet or the outlet is bound to another defined station (R29 check 5). -/
def State.boundElsewhere (s : State) (n : Fin 64) (i o : Fin 256) : Bool :=
  (allFin 64).any fun m =>
    m != n &&
      match (s.stations.get m).binding with
      | some b => b.1 == i || b.2 == o
      | none => false

def Station.inUse (x : Station) : Bool := x.state == .ringing || x.state == .inCall

/-- The "binds" column of R30. A station bound while LOST has its hook ON, as R113 says (log entry 35). -/
def Station.bind (x : Station) (b : Fin 256 × Fin 256) (hold : Nat) : Station :=
  match x.state with
  | .undefined => { binding := some b, holdValue := hold, state := .lost }
  | .idle => { x with binding := some b, holdValue := hold, holdTimer := some hold }
  | .lost => { x with binding := some b, holdValue := hold, offHook := false, holdTimer := none }
  | .ringing | .inCall => { x with holdValue := hold }

/-- The "undefines" column of R30; the hold value is left as it is (log entry 29). -/
def Station.undefine (x : Station) : Station :=
  match x.state with
  | .undefined => x
  | .idle | .lost | .ringing | .inCall =>
    { x with binding := none, state := .undefined, offHook := false, holdTimer := none }

/-- DEFINE_STATION, checked in the order of R29 and applied as R30 states. -/
def State.defineStationRecord (h : Hand) (s : State) : State :=
  let r := stationRec h.bytes
  let hold := clampMark r.hold 50 2000
  let refuse (code : Nat) := s.reply .setup h code false []
  match toFin? 64 r.station with
  | none => refuse stBadField
  | some n =>
    let x := s.stations.get n
    if r.inlet = 0xFFFF then
      if x.inUse then refuse stInUse
      else (s.modStation n Station.undefine).reply .setup h stDone hold.2 []
    else
      match toFin? 256 r.inlet, toFin? 256 r.outlet with
      | some i, some o =>
        if s.inlets.get i != .stationMic || (s.outlets.get o).kind != .station || trunkOf i != trunkOf o then
          refuse stBadField
        else if s.boundElsewhere n i o || (x.inUse && x.binding != some (i, o)) then refuse stInUse
        else (s.modStation n fun x => x.bind (i, o) hold.1).reply .setup h stDone hold.2 []
      | _, _ => refuse stBadField

/-! ### Meanings -/

/-- DEFINE_STATION (R29, R30). -/
def execDefineStation (s : State) : Host.Outcome State Fault Refusal :=
  .next (s.handOver .setup 0x03 fun h _ s => s.defineStationRecord h)

/-- OPEN_CALL (R118, R119). -/
def execOpenCall (s : State) : Host.Outcome State Fault Refusal :=
  .next (s.handOver .call 0x20 fun h bs s => s.openRecord h bs)

/-- ADD_PARTY (R120). -/
def execAddParty (s : State) : Host.Outcome State Fault Refusal :=
  .next (s.handOver .call 0x21 fun h _ s => s.addRecord h)

/-- DROP_PARTY (R126). -/
def execDropParty (s : State) : Host.Outcome State Fault Refusal :=
  .next (s.handOver .call 0x22 fun h _ s => s.dropRecord h)

/-- CLOSE_CALL (R127). -/
def execCloseCall (s : State) : Host.Outcome State Fault Refusal :=
  .next (s.handOver .call 0x23 fun h _ s => s.closeRecord h)

/-- HOLD_TIMER_EXPIRY (R114). -/
def execHoldTimerExpiry (n : Fin 64) (s : State) : Host.Outcome State Fault Refusal :=
  .next (s.holdExpired n).arbitrate

/-- RING_TIMER_EXPIRY (R123). -/
def execRingTimerExpiry (c : Fin 16) (p : Fin 8) (s : State) : Host.Outcome State Fault Refusal :=
  .next (s.ringExpired c p).arbitrate

end Sys2Proof.Machine
end

