-- ==== Sys2Proof/Machine/Theatre.lean ====
section
/-! DEFINITION. The Show Controller (chapter 9): cues, fades and follow timing, GO, hold, resume and clearing, and
BIND_SOURCE. A displacement and the resume test are in Claims.lean, beside the renaming that reports them. -/

namespace Sys2Proof.Machine

/-! ### Starting a cue (R157) -/

/-- The cue's scene applied over LIVE; an entry of 65,535 keeps the LIVE value (R155). -/
def sceneOver (live : Bank) (scene : List Nat) : Bank :=
  Tab.ofFn fun i =>
    let g := scene.getD i.val 65535
    if g = 65535 then live.get i else g

/-- A track action is performed (R157). -/
def State.trackAction (a : TrackAction) (s : State) : State :=
  match a with
  | .stop x => s.releaseChannel (.source x)
  | .start x d =>
    if s.theatre.bindings.get x == .playback then
      let r := (s.releaseChannel (.source x)).bind (.source x) d
      match r.1 with
      | some c => r.2.modChannel c Channel.signalRun
      | none => r.2.emitNote .showState 4 x.val 1
    else s.emitNote .showState 4 x.val 2

/-- The head cue is begun: NEXT, the track actions, then T_f, t, the follow timer and FADING (R157). -/
def State.beginCue (cue : Cue) (s : State) : State :=
  let s := s.modTheatre fun t => { t with next := some (sceneOver t.live cue.scene) }
  let s := s.forAll cue.tracks State.trackAction
  s.modTheatre fun t => { t with state := .fading, len := cue.fade, pos := 0, follow := none, fresh := true }

/-- The state a head cue leads to (R156, R158): IDLE without one, READY for MANUAL, WAITING with the follow timer
loaded for AUTO. An AUTO head with delay 0 is started at once by the caller. -/
def Theatre.settleHead (t : Theatre) : Theatre :=
  match t.queue with
  | [] => { t with state := .idle, follow := none }
  | cue :: _ =>
    if cue.auto then { t with state := .waiting, follow := some cue.delay } else { t with state := .ready, follow := none }

/-- The head is an AUTO cue with delay 0, which starts at once (R156, R158). -/
def Theatre.headAtOnce (t : Theatre) : Bool :=
  match t.queue with
  | [] => false
  | cue :: _ => cue.auto && cue.delay == 0

/-- A cue's return (R158, R164). -/
def Cue.done (cue : Cue) (code : Nat) : Return :=
  { record := cue.record, status := marked code cue.record.mark, results := [] }

/-- The fade completes: LIVE takes NEXT, the head is returned DONE, and the next cue becomes the head (R158). With no fade
in progress t and T_f stand at 0 (log entry 39). -/
def State.finishFade (s : State) : State :=
  let head := s.theatre.queue.head?
  let s := s.modTheatre fun t =>
    ({ t with live := t.next.getD t.live, next := none, pos := 0, len := 0, fresh := false
              queue := t.queue.tail } : Theatre).settleHead
  match head with
  | some cue => s.requestReturn .cue (cue.done stDone)
  | none => s

/-- The head cue starts; with a fade of 0 it completes at once, and an AUTO head with delay 0 after it starts in turn
(R157, R158). `n` bounds the chain by the length of the queue. -/
def State.startChain : Nat → State → State
  | 0, s => s
  | n + 1, s =>
    match s.theatre.queue with
    | [] => s
    | cue :: _ =>
      let s := s.beginCue cue
      if cue.fade = 0 then
        let s := s.finishFade
        if s.theatre.headAtOnce then State.startChain n s else s
      else s

def State.startHead (s : State) : State := s.startChain s.theatre.queue.length

/-- A fade completes and an AUTO head with delay 0 starts at once (R158). -/
def State.completeFade (s : State) : State :=
  let s := s.finishFade
  if s.theatre.headAtOnce then s.startHead else s

/-! ### The show at a period start (R158, R159) -/

/-- The fade position reaches T_f at the coming period start. -/
def Theatre.fadeDue (t : Theatre) : Bool :=
  t.state == .fading && !t.fresh && !t.stepped && (t.len ≤ t.pos + 1 : Bool)

/-- The follow timer reaches 0, or stands at 0, at the coming period start. -/
def Theatre.followDue (t : Theatre) : Bool := t.state == .waiting && !t.stepped && t.follow.any (· ≤ 1)

/-- The show's step at a period start, unless its event there has been taken already. The period is then the first of a
cue that has started. -/
def State.showStep (s : State) : State :=
  let t := s.theatre
  let s :=
    if t.stepped then s
    else if t.fadeDue then s.completeFade
    else if t.followDue then s.startHead
    else if t.state == .fading && !t.fresh then s.modTheatre fun t => { t with pos := t.pos + 1 }
    else if t.state == .waiting then s.modTheatre fun t => { t with follow := t.follow.map (· - 1) }
    else s
  s.modTheatre fun t => { t with stepped := false, fresh := false }

/-- The fade completes by its own command, ahead of the period start (R158). -/
def State.fadeTaken (s : State) : State :=
  if s.theatre.fadeDue then s.completeFade.modTheatre fun t => { t with stepped := true } else s

/-- The follow timer expires by its own command, ahead of the period start (R159). -/
def State.followTaken (s : State) : State :=
  if s.theatre.followDue then s.startHead.modTheatre fun t => { t with stepped := true } else s

/-! ### Clearing the show (R164) -/

/-- The show is cleared; `subject` is 0 by CLEAR_SHOW and 1 by FALLBACK. -/
def State.clearShow (subject : Nat) (s : State) : State :=
  let t := s.theatre
  let s := s.forAll t.queue fun cue s => s.requestReturn .cue (cue.done stStopped)
  let s := s.modTheatre fun t =>
    { t with queue := [], next := none, pos := 0, len := 0, fresh := false, follow := none }
  let s := s.forAll (allFin 16) fun x s => s.releaseChannel (.source x)
  let s := s.modTheatre fun t => { t with state := .idle, hold := none }
  let s := if t.state == .held then s.unholdPrograms else s
  s.emitNote .showState 3 subject t.queue.length

/-! ### CUE records -/

/-- A track action, when checks 3 to 5 of R156 pass; and whether its prime level was changed. -/
def State.trackOf (s : State) (r : RawTrack) : Option (TrackAction × Bool) :=
  match toFin? 16 r.source with
  | none => none
  | some x =>
    match r.action with
    | 0 =>
      if s.descOk r.desc && s.theatre.bindings.get x == .playback then
        some (.start x r.desc.settle.1, r.desc.settle.2)
      else none
    | 1 => some (.stop x, false)
    | _ => none

/-- The effect of a cue appended to the queue (R156). -/
def State.cueQueued (cue : Cue) (s : State) : State :=
  let t := s.theatre
  let s := s.modTheatre fun t => { t with queue := t.queue ++ [cue] }
  match t.state with
  | .idle =>
    let s := s.modTheatre Theatre.settleHead
    if s.theatre.headAtOnce then s.startHead else s
  | .held =>
    match t.hold with
    | some r =>
      if r.heldFrom == .idle then
        s.modTheatre fun t =>
          if cue.auto then { t with hold := some { r with heldFrom := .waiting }, follow := some cue.delay }
          else { t with hold := some { r with heldFrom := .ready } }
      else s
    | none => s
  | .ready | .waiting | .fading => s

/-- A CUE record is checked in the order of R156, clamped, and queued. -/
def State.cueRecord (h : Hand) (blocks : List (List Byte)) (s : State) : State :=
  let r := cueRec h.bytes
  let refuse := s.reply .cue h stBadField false []
  if 4 < r.tracks || 1 < r.follow then refuse
  else
    match (rawTracks (blocks.getD 1 []) r.tracks).mapM s.trackOf with
    | none => refuse
    | some ts =>
      let fade := clampMark r.fade 0 60000
      let delay := clampMark r.delay 0 600000
      let mark := fade.2 || delay.2 || ts.any (·.2)
      let cue : Cue :=
        { record := h.ref mark, scene := sceneGains (blocks.headD []), fade := fade.1, auto := r.follow == 1
          delay := delay.1, tracks := ts.map (·.1) }
      (s.take .cue h mark).cueQueued cue

/-! ### GO, HOLD_SHOW, RESUME_SHOW, CLEAR_SHOW, BIND_SOURCE -/

/-- GO (R160). DESIGN CHOICE: in FADING the new head is started once, as R160 starts it: an AUTO head with delay 0 is not
started a first time by the completion, so the cue after its chain waits (log entry 45). -/
def State.goRecord (h : Hand) (s : State) : State :=
  match s.theatre.state with
  | .idle => s.reply .cue h stNoCue false []
  | .ready | .waiting => s.startHead.reply .cue h stDone false []
  | .fading => s.finishFade.startHead.reply .cue h stDone false []
  | .held => s.reply .cue h stNotActive false []

/-- The note of a hold by HOLD_SHOW (R165). -/
def State.hostHoldNote (heldFrom : ShowState) (s : State) : State :=
  s.emitNote .showState 1 0xFFFF (0xFFFF + 65536 * heldFrom.code)

/-- HOLD_SHOW (R161). -/
def State.holdShow (s : State) : State :=
  match s.theatre.state with
  | .held =>
    match s.theatre.hold with
    | some r =>
      if r.byHost then s
      else (s.modTheatre fun t => { t with hold := some { r with byHost := true } }).hostHoldNote r.heldFrom
    | none => s
  | .idle | .ready | .waiting | .fading =>
    (s.enterHeld { byHost := true, heldFrom := s.theatre.state, autoResume := false, outlets := [] }).hostHoldNote
      s.theatre.state

/-- RESUME_SHOW (R162). -/
def State.resumeRecord (h : Hand) (s : State) : State :=
  if s.theatre.state == .held then (s.resumeShow 1).reply .cue h stDone false []
  else s.reply .cue h stNotActive false []

/-- The binding a BIND_SOURCE record asks for (R154 checks 2 and 3). -/
def State.bindingOf (s : State) (r : BindRec) : Option Binding :=
  match r.binding with
  | 0 => some .unbound
  | 1 => (toFin? 256 r.inlet).bind fun i => if s.inlets.get i == .line then some (.line i) else none
  | 2 => some .playback
  | _ => none

/-- BIND_SOURCE (R154). -/
def State.bindRecord (h : Hand) (s : State) : State :=
  let r := bindRec h.bytes
  match toFin? 16 r.source, s.bindingOf r with
  | some x, some b =>
    if s.theatre.bindings.get x = b then s.reply .cue h stDone false []
    else
      ((s.releaseChannel (.source x)).modTheatre fun t => { t with bindings := t.bindings.set x b }).reply .cue h stDone
        false []
  | _, _ => s.reply .cue h stBadField false []

/-! ### Meanings -/

/-- CUE (R156). -/
def execCue (s : State) : Host.Outcome State Fault Refusal :=
  .next (s.handOver .cue 0x40 fun h bs s => s.cueRecord h bs)

/-- GO (R160). -/
def execGo (s : State) : Host.Outcome State Fault Refusal := .next (s.handOver .cue 0x41 fun h _ s => s.goRecord h)

/-- HOLD_SHOW (R161). -/
def execHoldShow (s : State) : Host.Outcome State Fault Refusal :=
  .next (s.handOver .cue 0x42 fun h _ s => s.holdShow.reply .cue h stDone false [])

/-- RESUME_SHOW (R162). -/
def execResumeShow (s : State) : Host.Outcome State Fault Refusal :=
  .next (s.handOver .cue 0x43 fun h _ s => s.resumeRecord h)

/-- CLEAR_SHOW (R164). -/
def execClearShow (s : State) : Host.Outcome State Fault Refusal :=
  .next (s.handOver .cue 0x44 fun h _ s => (s.clearShow 0).reply .cue h stDone false [])

/-- BIND_SOURCE (R154). -/
def execBindSource (s : State) : Host.Outcome State Fault Refusal :=
  .next (s.handOver .cue 0x45 fun h _ s => s.bindRecord h)

/-- FADE_COMPLETE (R158). -/
def execFadeComplete (s : State) : Host.Outcome State Fault Refusal := .next s.fadeTaken.arbitrate

/-- FOLLOW_TIMER_EXPIRY (R159). -/
def execFollowTimerExpiry (s : State) : Host.Outcome State Fault Refusal := .next s.followTaken.arbitrate

end Sys2Proof.Machine
end

