-- ==== Sys2Proof/Machine/Lists.lean ====
section
/-! DEFINITION. The List Engine (chapter 1: walks, takes, link handling, errors, the root block), the Beat Monitor and
FALLBACK (R184 to R186), and the Note Unit's record (R182). -/

namespace Sys2Proof.Machine

/-! ### Walks (R9) -/

/-- A walk of a list that is not walking starts: a link read in TAIL, a record read in IDLE and STALLED (R10, R13). -/
def State.startWalk (l : ListId) (s : State) : State :=
  match (s.walker l).state with
  | .tail => s.setStage l .linkRead
  | .idle | .stalled => s.setStage l .recordRead
  | .error | .stopped => s

/-- A walk request (R9): ignored in ERROR, HALTED and FALLBACK; it sets the walk-again mark of a list that is walking. -/
def State.requestWalk (l : ListId) (s : State) : State :=
  let w := s.walker l
  if s.part != .running || w.state == .error || w.state == .stopped then s
  else if w.stage == .quiet then s.startWalk l
  else s.modWalker l fun w => { w with again := true }

/-- A walker's state is changed, except that a stopped list stays STOPPED (R4) and a walk of an earlier entry to RUNNING
changes nothing (log entry 10). -/
def Walker.settle (w : Walker) (st : WalkerState) : Walker :=
  if w.state = .stopped || w.stale then w else { w with state := st }

/-- A walk ends; with the walk-again mark set another begins at once (R9). -/
def State.endWalk (l : ListId) (s : State) : State :=
  let again := (s.walker l).again
  let s := s.modWalker l fun w => { w with stage := .quiet, again := false, ending := false, stale := false }
  if again then s.requestWalk l else s

/-- A walk ends in a state. -/
def State.endWalkIn (l : ListId) (st : WalkerState) (s : State) : State :=
  (s.modWalker l fun w => w.settle st).endWalk l

/-- A list enters ERROR (R15); a stopped list keeps STOPPED (log entry 11). -/
def State.listError (l : ListId) (s : State) : State :=
  let s := { s with lists := { s.lists with errors := s.lists.errors.set l.idx true } }
  (s.modWalker l fun w =>
    { w with state := if w.state = .stopped then .stopped else .error, scan := none, again := false }).setCause .listError

/-- The walk in progress meets a list fault: the list enters ERROR and the walk ends. A walk of an earlier entry to
RUNNING ends without it (log entry 10). -/
def State.walkFault (l : ListId) (s : State) : State :=
  if (s.walker l).stale then s.endWalk l else (s.listError l).endWalk l

/-- A new cursor address: the walk goes on there, unless it is to end (R4, R12). -/
def State.followLink (l : ListId) (link : Nat) (s : State) : State :=
  let s := s.modWalker l fun w => ({ w with cursor := link } : Walker).settle .idle
  if (s.walker l).ending then s.endWalk l else s.setStage l .recordRead

/-- Link handling (R12) for the record at `addr` with link field `link`. -/
def State.handleLink (l : ListId) (addr link : Nat) (s : State) : State :=
  if (s.walker l).stale then s.endWalk l
  else if link = 0 then s.endWalkIn l .tail
  else if link = addr || !s.inWindow link 64 64 then s.walkFault l
  else s.followLink l link

/-! ### Taking a record (R10, R11, R14) -/

/-- The addressed block has no room for the record (R14). -/
def State.noRoom (h : Hand) (s : State) : Bool :=
  if h.kind = 0x40 then (16 ≤ s.theatre.queue.length : Bool)
  else if h.kind = 0x50 then s.notes.held.isSome
  else if h.kind = 0x08 then s.lists.snap.isSome
  else if h.kind = 0x06 && (calibrateRec h.bytes).method == 1 then
    match toFin? 256 (calibrateRec h.bytes).outlet with
    | some o =>
      if (calibrateRec h.bytes).target = 0 then (s.ambient.outlets.get o).capture.isSome
      else if (calibrateRec h.bytes).target = 1 then (s.loops.get o).capture.isSome
      else false
    | none => false
  else false

/-- The record in hand is taken: kind test, room test, pointer test, then the block reads or the hand-over (R11). -/
def State.takeRecord (l : ListId) (h : Hand) (s : State) : State :=
  let idle := s.modWalker l fun w => w.settle .idle
  if !(kindsOf l).contains h.kind then idle.reply l h stBadKind false []
  else if s.noRoom h then s.endWalkIn l .stalled
  else if h.pointers.any fun p => !s.inWindow p.addr p.size 32 then
    idle.setStage l
      (.returnWrite h { record := h.ref false, status := stBadField, results := [] } true)
  else
    match (h.pointers.filter (·.read)).map fun p => (p.addr, p.size) with
    | [] => idle.setStage l (.handOver h [])
    | blocks => idle.setStage l (.blockRead h [] blocks)

/-- A record read has delivered `d` (R10). -/
def State.recordArrives (l : ListId) (d : List Byte) (s : State) : State :=
  let w := s.walker l
  if w.ending || w.stale then s.endWalk l
  else
    let h : Hand := { addr := w.cursor, bytes := d }
    if !bitOf (byteAt d 0) 7 then s.endWalkIn l .idle
    else if byteAt d 1 % 128 = stTaken then s.endWalkIn l .idle
    else s.takeRecord l h

/-- A link read has delivered `link` (R13). -/
def State.linkArrives (l : ListId) (link : Nat) (s : State) : State :=
  let w := s.walker l
  if w.ending || w.stale then s.endWalk l else s.handleLink l w.cursor link

/-- A block read has delivered `d` (R11 steps 4 and 5). -/
def State.blockArrives (l : ListId) (d : List Byte) (s : State) : State :=
  match (s.walker l).stage with
  | .blockRead h got left =>
    match left.tail with
    | [] => s.setStage l (.handOver h (got ++ [d]))
    | more => s.setStage l (.blockRead h (got ++ [d]) more)
  | _ => s

/-- The record of a TAKEN write is ready to be filled: a NOTE_SPACE (R182) or a SNAPSHOT (R16). -/
def State.takenReady (l : ListId) (h : Hand) (s : State) : State :=
  match l with
  | .note =>
    { s with notes := { s.notes with held := s.notes.held.map fun x => (x.1, .ready) } }
  | .setup =>
    { s with lists := { s.lists with
        snap := s.lists.snap.map fun x => if x.record.addr = h.addr then { x with ready := true } else x } }
  | .program | .call | .alarm | .cue => s

/-- A TAKEN write has completed (R8, R12). -/
def State.takenDone (l : ListId) (s : State) : State :=
  match (s.walker l).stage with
  | .takenWrite h _ => (s.takenReady l h).handleLink l h.addr h.link
  | _ => s

/-- The CAUSE bit of a return: NOTE on the NOTE list, RETURNED on every other (R8). -/
def returnCause : ListId → CauseBit
  | .note => .note
  | .setup | .program | .call | .alarm | .cue => .returned

/-- The walker's own return write has completed (R8, R11, R12). -/
def State.returnDone (l : ListId) (s : State) : State :=
  let s := s.setCause (returnCause l)
  match (s.walker l).stage with
  | .returnWrite h _ thenError => if thenError then s.walkFault l else s.handleLink l h.addr h.link
  | _ => s

/-! ### Starting and stopping (R2 to R5, R184 to R186) -/

/-- The root block read that RUN = 1 in HALTED leaves outstanding: one requested at the address in ROOTADR, or the one
already outstanding, at its own address, with a discard mark cleared (R2, R3). -/
def State.wantedRoot (s : State) : RootRead :=
  match s.lists.rootRead with
  | some r => { r with discard := false }
  | none => { addr := s.regs.rootadr.toNat, discard := false }

/-- RUN = 1 is written (R2, R3). -/
def State.runStart (s : State) : State :=
  let s := { s with regs := { s.regs with run := true } }
  match s.part with
  | .halted => { s with lists := { s.lists with rootRead := some s.wantedRoot } }
  | .running | .fallback => s

/-- A list's walk ends with what it has in hand, and its marks and requests are dropped (R4, R5). -/
def Walker.wind (w : Walker) : Walker := { w with scan := none, again := false, ending := w.stage != .quiet }

/-- Every walker is wound down. -/
def State.windAll (f : Walker → Walker) (s : State) : State :=
  { s with lists := { s.lists with walkers := s.lists.walkers.map fun w => f w.wind } }

/-- The part becomes HALTED from RUNNING or FALLBACK (R4). -/
def State.halt (s : State) : State :=
  let s := s.windAll fun w => { w with state := .stopped }
  { s with part := .halted, beat := {} }

/-- RUN = 0 is written (R2, R4, R186). The exit from FALLBACK sets no CAUSE bit of its own; its note can set NOTE_WAIT
(R183; log entry 44). -/
def State.runStop (s : State) : State :=
  let s := { s with regs := { s.regs with run := false } }
  match s.part with
  | .halted => { s with lists := { s.lists with rootRead := s.lists.rootRead.map fun r => { r with discard := true } } }
  | .running => s.halt
  | .fallback => s.halt.emitNote .fallback 0 0 1

/-- The counter and sub-count are loaded from the window (R184). -/
def State.loadBeat (s : State) : State :=
  { s with beat :=
      if s.lists.root.beatWindow = 0 then {} else { counter := s.lists.root.beatWindow, sub := 100 } }

/-- A list's cursor is loaded at entry to RUNNING, and its walk requested (R3 steps 4 and 5). A walk still in progress
is of the entry before (log entry 10). -/
def State.loadList (d : List Byte) (l : ListId) (s : State) : State :=
  let a := rootCursor d l
  let s := s.modWalker l fun w =>
    { w with cursor := a, state := .idle, stale := w.stage != .quiet, ending := false, again := false, scan := none }
  if a = 0 || !s.inWindow a 64 64 then s.listError l
  else (s.modWalker l fun w => { w with scan := some s.lists.root.scan }).requestWalk l

/-- Every list enters ERROR with its cursor kept, when the window is empty (R3 step 3). -/
def State.failList (l : ListId) (s : State) : State :=
  (s.modWalker l fun w => { w with state := .idle, stale := w.stage != .quiet, ending := false, scan := none }).listError l

/-- Entry to RUNNING with the root block `d` (R3). -/
def State.enterRunning (d : List Byte) (s : State) : State :=
  let root := rootCopy d
  let s := { s with
    part := .running
    lists := { s.lists with root, errors := Tab.replicate 6 false }
    ambient := { s.ambient with window := root.ambientWindow } }
  let s := s.recheckWindow
  let s := if root.base < root.limit then s.forAll ListId.all (State.loadList d) else s.forAll ListId.all State.failList
  s.loadBeat.startMic

/-- The root block read has delivered `d`: used, or discarded when it was marked (R2, R3). -/
def State.rootArrives (d : List Byte) (s : State) : State :=
  let used := s.lists.rootRead.any fun r => !r.discard
  let s := { s with lists := { s.lists with rootRead := none } }
  if used then s.enterRunning d else s

/-- A scan timer stands at 0 and its expiry is taken (R9). -/
def State.scanExpired (l : ListId) (s : State) : State :=
  if s.part == .running && (s.walker l).scan == some 0 then
    (s.modWalker l fun w => { w with scan := some s.lists.root.scan }).requestWalk l
  else s

/-- A write to NUDGE (R9); ignored unless RUNNING (R4, R5). -/
def State.nudge (v : Word) (s : State) : State :=
  s.forAll ListId.all fun l s => if v.getLsbD l.idx.val then s.requestWalk l else s

/-- A list gets a walk at once and a fresh scan timer, when it is not in ERROR (R5). -/
def State.resumeList (l : ListId) (s : State) : State :=
  if (s.walker l).state == .error then s
  else (s.modWalker l fun w => { w with scan := some s.lists.root.scan }).requestWalk l

/-- A BEAT write (R184, R186). The exit from FALLBACK sets no CAUSE bit of its own; its note can set NOTE_WAIT (R183; log
entry 44). -/
def State.beatWrite (s : State) : State :=
  match s.part with
  | .halted => s
  | .running => if s.lists.root.beatWindow = 0 then s else s.loadBeat
  | .fallback =>
    let s := ({ s with part := .running } : State).loadBeat
    (s.forAll ListId.all State.resumeList).emitNote .fallback 0 0 0

/-- A BACKGROUND or SHOW program not FREE, which FALLBACK ends (R185). -/
def Program.sheds (pr : Program) : Bool := pr.state != .free && (pr.kind == .background || pr.kind == .theatre)

/-- The programs FALLBACK ends, in rising slot number, and how many (R185 step 3). -/
def State.shed (s : State) : Nat × State :=
  (allFin 64).foldl (fun acc p =>
    if (acc.2.programs.get p).sheds then (acc.1 + 1, acc.2.endProgram p stAbandoned) else acc) (0, s)

/-- Entry to FALLBACK (R185). The show is cleared before the programs are ended: R185 leaves the order open, and after
the clear no end of a program can resume the show (log entry 12). A record in hand goes on with its take after the event
(log entry 43). -/
def State.enterFallback (s : State) : State :=
  let s := { s with part := .fallback, beat := {} }
  let s := (s.windAll id).clearShow 1
  let ended := s.shed
  (ended.2.startMic.setCause .fallback).emitNote .fallback 1 0 ended.1

/-- The beat counter stands at 0 while the Beat Monitor runs, and its expiry is taken (R184, R185). -/
def State.beatExpired (s : State) : State := if s.beatRunning && s.beat.counter == 0 then s.enterFallback else s

/-! ### NOTE_SPACE and NOTE_WRITE (R182) -/

def State.noteSpace (h : Hand) (s : State) : State :=
  ({ s with notes := { s.notes with held := some (h.ref false, .taking) } } : State).take .note h false

def State.noteDone (s : State) : State :=
  let s := ({ s with notes := { s.notes with held := none } } : State).setCause .note
  if s.notes.queue.isEmpty then s else s.setCause .noteWait

/-! ### Which transfer a completion answers -/

def Transfer.isRootRead (t : Transfer) : Bool :=
  match t with
  | .rootRead _ => true
  | _ => false

def Transfer.isRecordRead (l : ListId) (t : Transfer) : Bool := t == .recordRead l

def Transfer.isLinkRead (l : ListId) (t : Transfer) : Bool := t == .linkRead l

def Transfer.isBlockRead (l : ListId) (t : Transfer) : Bool := t == .blockRead l

def Transfer.isTakenWrite (l : ListId) (t : Transfer) : Bool :=
  match t with
  | .takenWrite l' _ => l' == l
  | _ => false

def Transfer.isReturnWrite (l : ListId) (t : Transfer) : Bool :=
  match t with
  | .returnWrite l' _ | .pendingReturn l' _ => l' == l
  | _ => false

def Transfer.isNoteWrite (t : Transfer) : Bool :=
  match t with
  | .noteWrite _ => true
  | _ => false

/-- A return write has completed: the walker's own, or a pending return, which only sets its CAUSE bit (R8, R17). -/
def State.returnCompletes (l : ListId) (t : Transfer) (s : State) : State :=
  match t with
  | .returnWrite _ _ => s.returnDone l
  | _ => s.setCause (returnCause l)

/-! ### Meanings -/

/-- RUN_START (R2, R3). -/
def execRunStart (s : State) : Host.Outcome State Fault Refusal := .next s.runStart.arbitrate

/-- RUN_STOP (R2, R4, R186). -/
def execRunStop (s : State) : Host.Outcome State Fault Refusal := .next s.runStop.arbitrate

/-- NUDGE (R9). -/
def execNudge (value : Word) (s : State) : Host.Outcome State Fault Refusal := .next (s.nudge value).arbitrate

/-- BEAT (R184): any value is a beat. -/
def execBeat (_value : Word) (s : State) : Host.Outcome State Fault Refusal := .next s.beatWrite.arbitrate

/-- ROOT_BLOCK_READ (R3). -/
def execRootBlockRead (data : List Byte) (s : State) : Host.Outcome State Fault Refusal :=
  .next (s.complete Transfer.isRootRead fun _ s => s.rootArrives data)

/-- SCAN_TIMER_EXPIRY (R9). -/
def execScanTimerExpiry (l : ListId) (s : State) : Host.Outcome State Fault Refusal := .next (s.scanExpired l).arbitrate

/-- RECORD_READ (R10, R11, R14). -/
def execRecordRead (l : ListId) (data : List Byte) (s : State) : Host.Outcome State Fault Refusal :=
  .next (s.complete (Transfer.isRecordRead l) fun _ s => s.recordArrives l data)

/-- LINK_READ (R13). -/
def execLinkRead (l : ListId) (link : Word) (s : State) : Host.Outcome State Fault Refusal :=
  .next (s.complete (Transfer.isLinkRead l) fun _ s => s.linkArrives l link.toNat)

/-- BLOCK_READ (R11). -/
def execBlockRead (l : ListId) (data : List Byte) (s : State) : Host.Outcome State Fault Refusal :=
  .next (s.complete (Transfer.isBlockRead l) fun _ s => s.blockArrives l data)

/-- TAKEN_WRITE (R8, R12). -/
def execTakenWrite (l : ListId) (s : State) : Host.Outcome State Fault Refusal :=
  .next (s.complete (Transfer.isTakenWrite l) fun _ s => s.takenDone l)

/-- RETURN_WRITE (R8, R12, R17). -/
def execReturnWrite (l : ListId) (s : State) : Host.Outcome State Fault Refusal :=
  .next (s.complete (Transfer.isReturnWrite l) (State.returnCompletes l))

/-- BEAT_COUNTER_EXPIRY (R185). -/
def execBeatCounterExpiry (s : State) : Host.Outcome State Fault Refusal := .next s.beatExpired.arbitrate

/-- NOTE_SPACE (R182). -/
def execNoteSpace (s : State) : Host.Outcome State Fault Refusal :=
  .next (s.handOver .note 0x50 fun h _ s => s.noteSpace h)

/-- NOTE_WRITE (R182). -/
def execNoteWrite (s : State) : Host.Outcome State Fault Refusal :=
  .next (s.complete Transfer.isNoteWrite fun _ s => s.noteDone)

end Sys2Proof.Machine
end

