-- ==== Sys2Proof/Machine/Trunks.lean ====
section
/-! DEFINITION. The Trunk Ports, the Supervision Unit and the Changeover Slots (chapter 10). -/

namespace Sys2Proof.Machine

/-! ### Loop states (R172) -/

/-- An outlet is UNSERVED while its trunk is not UP or its slot is at or above the served count (R171). -/
def State.unserved (s : State) (o : Fin 256) : Bool :=
  let k := s.trunks.get (trunkOf o)
  k.link != .up || (k.served ≤ (slotOf o).val : Bool)

/-- An outlet is watched while it is defined, not SPARE, and its baseline is set (R172). -/
def State.watched (s : State) (o : Fin 256) : Bool :=
  (s.outlets.get o).kind.takesClaims && (s.loops.get o).baselineSet

/-- A loop enters UNSERVED or UNSUPERVISED: the streak is emptied and the amplifier-fault state cleared; a loop
already in that state does not enter it (R172). -/
def Loop.leaveService (x : Loop) (st : LoopState) : Loop :=
  if x.state = st then x else { x with state := st, streak := none, ampFault := false }

def Loop.judgedState (st : LoopState) : Bool :=
  match st with
  | .normal | .suspect | .faultOpen | .faultShort => true
  | .unsupervised | .unserved => false

/-- The loop state is set (R172). -/
def State.setLoopState (o : Fin 256) (s : State) : State :=
  s.modLoop o fun x =>
    if s.unserved o then x.leaveService .unserved
    else if !s.watched o || !(s.trunks.get (trunkOf o)).supervision then x.leaveService .unsupervised
    else if Loop.judgedState x.state then x
    else { x with state := .normal, streak := none }

/-- A loop baseline is set (R175). -/
def State.setLoopBaseline (o : Fin 256) (b : Nat) (s : State) : State :=
  (s.modLoop o fun x => { x with baseline := b, baselineSet := true, streak := none }).setLoopState o

/-! ### Loop readings (R173, R175) -/

/-- The side of a reading: high, low or in. -/
def sideOf (out : Outlet) (baseline reading : Nat) : Side :=
  if baseline + out.loopHigh < reading then .high
  else if reading + out.loopLow < baseline then .low
  else .within

/-- The streak after a reading of a side: extended, or begun again with count 1. -/
def Loop.streakWith (x : Loop) (side : Side) : Nat :=
  match x.streak with
  | some (sd, n) => if sd = side then min 15 (n + 1) else 1
  | none => 1

/-- What a judged reading leads to: the new state, and the streak kept or emptied (R173). -/
def Loop.judge (x : Loop) (side : Side) (confirm : Nat) : LoopState × Option (Side × Nat) :=
  let n := x.streakWith side
  let kept := some (side, n)
  let confirmed : Bool := confirm ≤ n
  match x.state, side with
  | .normal, .within => (.normal, none)
  | .normal, .high => if confirmed then (.faultOpen, none) else (.suspect, kept)
  | .normal, .low => if confirmed then (.faultShort, none) else (.suspect, kept)
  | .suspect, .within => (.normal, none)
  | .suspect, .high => if confirmed then (.faultOpen, none) else (.suspect, kept)
  | .suspect, .low => if confirmed then (.faultShort, none) else (.suspect, kept)
  | .faultOpen, .within => if confirmed then (.normal, none) else (.faultOpen, kept)
  | .faultOpen, .high => (.faultOpen, none)
  | .faultOpen, .low => if confirmed then (.faultShort, none) else (.faultOpen, kept)
  | .faultShort, .within => if confirmed then (.normal, none) else (.faultShort, kept)
  | .faultShort, .high => if confirmed then (.faultOpen, none) else (.faultShort, kept)
  | .faultShort, .low => (.faultShort, none)
  | .unsupervised, _ => (.unsupervised, x.streak)
  | .unserved, _ => (.unserved, x.streak)

/-- The CAUSE bit and note of a change of loop state by a reading (R173, R180). -/
def State.loopNote (o : Fin 256) (old new : LoopState) (reading : Nat) (s : State) : State :=
  if old = new then s
  else
    match new with
    | .faultOpen => (s.setCause .fault).emitNote .loopFault 1 o.val reading
    | .faultShort => (s.setCause .fault).emitNote .loopFault 2 o.val reading
    | .normal =>
      match old with
      | .faultOpen | .faultShort => s.emitNote .loopFault 0 o.val reading
      | .normal | .suspect | .unsupervised | .unserved => s
    | .suspect | .unsupervised | .unserved => s

/-- A reading adds to a pending loop capture, and the eighth completes it (R175). -/
def State.captureReading (o : Fin 256) (reading : Nat) (s : State) : State :=
  match (s.loops.get o).capture with
  | none => s
  | some cap =>
    let sum := cap.sum + reading
    if cap.count + 1 < 8 then
      s.modLoop o fun x => { x with capture := some { cap with count := cap.count + 1, sum } }
    else
      ((s.modLoop o fun x => { x with capture := none }).setLoopBaseline o (sum / 8)).requestReturn .setup
        { record := cap.record, status := marked stDone cap.record.mark, results := [(16, bytes4 (sum / 8))] }

/-- A loop reading is stored, added to a capture, and judged (R173). -/
def State.loopReading (o : Fin 256) (reading : Nat) (s : State) : State :=
  let s := (s.modLoop o fun x => { x with last := reading }).captureReading o reading
  let x := s.loops.get o
  let out := s.outlets.get o
  let j := x.judge (sideOf out x.baseline reading) out.confirm
  (s.modLoop o fun x => { x with state := j.1, streak := j.2 }).loopNote o x.state j.1 reading

/-! ### Changeover (R177 to R179) -/

/-- The slots of a trunk. -/
def slotsOf (k : Fin 4) : List (Fin 8) := [⟨2 * k.val, by omega⟩, ⟨2 * k.val + 1, by omega⟩]

def trunkOfSlot (x : Fin 8) : Fin 4 := ⟨x.val / 2, by omega⟩

/-- The slot, not free, in which an outlet stands as faulted outlet or spare. -/
def State.changeoverOf (s : State) (o : Fin 256) : Option (Fin 8) :=
  (allFin 8).find? fun x =>
    let c := s.changeovers.get x
    c.state != .free && (c.faulted == o || c.spare == o)

def changeoverCode (x : Option (Fin 8)) : Nat :=
  match x with
  | some x => x.val
  | none => 0xFF

/-- An available spare (R177). -/
def State.availableSpare (s : State) (k : Fin 4) : Option (Fin 256) :=
  (allFin 256).find? fun o =>
    trunkOf o == k && (s.outlets.get o).kind == .spare && !s.unserved o && (s.changeoverOf o).isNone
      && !(s.loops.get o).ampFault

/-- The detail of a CHANGEOVER note about a slot (R180). -/
def Changeover.detail (c : Changeover) (x : Fin 8) (reason : Nat) : Nat :=
  x.val + 256 * c.spare.val + 16777216 * reason

/-- No changeover is made (R177). -/
def State.changeoverRefused (o : Fin 256) (reason : Nat) (s : State) : State :=
  (s.setCause .fault).emitNote .changeover 3 o.val (0xFF + 256 * 0xFFFF + 16777216 * reason)

/-- A rise at an outlet attempts a changeover (R177). DESIGN CHOICE: where several reasons hold, the note of code 3 gives the
first in the order no ability (1), no free slot (2), no available spare (3), so with neither a free slot nor a spare it gives
reason 2 (log entry 47). -/
def State.attemptChangeover (o : Fin 256) (s : State) : State :=
  let out := s.outlets.get o
  let k := trunkOf o
  if out.kind == .spare || !out.autoChangeover || (s.changeoverOf o).isSome then s
  else if !(s.trunks.get k).changeover then s.changeoverRefused o 1
  else
    match (slotsOf k).find? fun x => (s.changeovers.get x).state == .free with
    | none => s.changeoverRefused o 2
    | some x =>
      match s.availableSpare k with
      | none => s.changeoverRefused o 3
      | some spare => s.modChangeover x fun _ => { state := .pending, faulted := o, spare, timer := some 100 }

/-- A slot becomes free. -/
def State.freeSlot (x : Fin 8) (s : State) : State := s.modChangeover x fun _ => {}

/-- A PENDING slot becomes FAILED and then free (R178). -/
def State.failChangeover (x : Fin 8) (reason : Nat) (s : State) : State :=
  let c := s.changeovers.get x
  ((s.freeSlot x).setCause .fault).emitNote .changeover 2 c.faulted.val (c.detail x reason)

/-- An echo of a slot (R178, R179). -/
def State.changeoverEcho (x : Fin 8) (e : Option (Fin 64 × Fin 64)) (s : State) : State :=
  let c := s.changeovers.get x
  match c.state with
  | .pending =>
    if e = some (slotOf c.faulted, slotOf c.spare) then
      (s.modChangeover x fun c => { c with state := .active, timer := none }).emitNote .changeover 1 c.faulted.val
        (c.detail x 0)
    else s
  | .releasing =>
    if e = none then (s.freeSlot x).emitNote .changeover 4 c.faulted.val (c.detail x 0) else s
  | .free | .active => s

/-- The timer of a PENDING slot stands at 0 and its expiry is taken (R178). -/
def State.pendingExpired (x : Fin 8) (s : State) : State :=
  let c := s.changeovers.get x
  if c.state == .pending && c.timer == some 0 then s.failChangeover x 1 else s

/-- The timer of a RELEASING slot stands at 0 and its expiry is taken (R179). -/
def State.releaseExpired (x : Fin 8) (s : State) : State :=
  let c := s.changeovers.get x
  if c.state == .releasing && c.timer == some 0 then
    ((s.freeSlot x).setCause .fault).emitNote .changeover 5 c.faulted.val (c.detail x 0)
  else s

/-- A slot's trunk leaves UP (R178, R179). -/
def State.changeoverTrunkDown (x : Fin 8) (s : State) : State :=
  match (s.changeovers.get x).state with
  | .pending => s.failChangeover x 2
  | .releasing => s.freeSlot x
  | .free | .active => s

/-- RELEASE_CHANGEOVER (R179). -/
def State.releaseRecord (h : Hand) (s : State) : State :=
  match toFin? 8 (byteAt h.bytes 8) with
  | none => s.reply .setup h stBadField false []
  | some x =>
    if (s.changeovers.get x).state == .active then
      (s.modChangeover x fun c => { c with state := .releasing, timer := some 100 }).reply .setup h stDone false []
    else s.reply .setup h stBadField false []

/-! ### Amplifier-fault flags (R174) -/

def State.ampFlag (o : Fin 256) (flag : Bool) (s : State) : State :=
  if (s.outlets.get o).kind == .undefined || (s.loops.get o).ampFault == flag then s
  else
    let s := s.modLoop o fun x => { x with ampFault := flag }
    let detail := changeoverCode (s.changeoverOf o)
    if flag then ((s.setCause .fault).emitNote .ampFault 1 o.val detail).attemptChangeover o
    else s.emitNote .ampFault 0 o.val detail

/-! ### Link states (R167 to R169) -/

/-- Entry to TRAINING, and each restart of training (R168). -/
def State.enterTraining (k : Fin 4) (s : State) : State :=
  s.modTrunk k fun t => { t with link := .training, training := t.training + 1, answer := some 50 }

/-- The answer timer stands at 0 and its expiry is taken (R168). -/
def State.answerExpired (k : Fin 4) (s : State) : State :=
  let t := s.trunks.get k
  if t.link == .training && t.answer == some 0 then s.enterTraining k else s

/-- The outlets of a trunk, rising. -/
def outletsOf (k : Fin 4) : List (Fin 256) := (allFin 64).map (outletAt k)

/-- The ability flags of a trunk (section 1.9, R180). -/
def Trunk.abilities (t : Trunk) : Nat := bitsValue [t.overrideLines, t.supervision, t.changeover]

/-- Entry to UP with the abilities of a block (R169). -/
def State.enterUp (k : Fin 4) (b : AbilityBlock) (s : State) : State :=
  let s := s.modTrunk k fun t =>
    { t with
        link := .up, answer := none, sync := some 4, served := min 64 b.served.toNat, present := min 64 b.present.toNat
        overrideLines := b.overrideLines, supervision := b.supervision, changeover := b.changeover }
  let s := s.forAll (outletsOf k) State.setLoopState
  let t := s.trunks.get k
  s.emitNote .trunk 1 k.val (t.served + 256 * t.present + 65536 * t.abilities)

/-- An ability block arrives (R168). -/
def State.abilityArrives (k : Fin 4) (b : AbilityBlock) (s : State) : State :=
  let t := s.trunks.get k
  if t.link == .training && b.training == t.training then s.enterUp k b else s

/-- The stations on a trunk, by their inlets (R114). They become LOST in rising number: R114 names no order (log entry
36). -/
def State.stationsOn (s : State) (k : Fin 4) : List (Fin 64) :=
  s.stations.indices fun x => x.binding.any fun b => trunkOf b.1 == k

/-- The trunk leaves UP (R169). -/
def State.leaveUp (k : Fin 4) (s : State) : State :=
  let s := s.modTrunk k fun t => { link := .down, training := t.training }
  let s := s.forAll (s.stationsOn k) State.stationLost
  let s := s.forAll (outletsOf k) fun o s =>
    (s.modLoop o fun x =>
      { x with capture := x.capture.map fun c => { c with count := 0, sum := 0 } }).setLoopState o
  let s := s.forAll (slotsOf k) State.changeoverTrunkDown
  (s.emitNote .trunk 0 k.val 0).setCause .fault

/-- The sync hold stands at 0 and its expiry is taken (R169). -/
def State.syncExpired (k : Fin 4) (s : State) : State :=
  let t := s.trunks.get k
  if t.link == .up && t.sync == some 0 then s.leaveUp k else s

/-! ### Inbound control blocks (R170) -/

/-- The eight slots of a group. -/
def slotIn (g i : Fin 8) : Fin 64 := ⟨8 * g.val + i.val, by omega⟩

/-- The loop reports go to the Supervision Unit, of served slots, with the supervision ability. -/
def State.loopReports (k : Fin 4) (b : ControlBlock) (s : State) : State :=
  s.forAll (allFin 8) fun i s =>
    match b.loops[i.val]? with
    | some r =>
      let x := slotIn b.group i
      let t := s.trunks.get k
      if t.supervision && (x.val < t.served : Bool) then
        (s.loopReading (outletAt k x) r.reading.toNat).ampFlag (outletAt k x) r.fault
      else s
    | none => s

/-- The station reports go to the Intercom Unit, of present slots. -/
def State.stationReports (k : Fin 4) (b : ControlBlock) (s : State) : State :=
  s.forAll (allFin 8) fun i s =>
    match b.stations[i.val]? with
    | some r =>
      let x := slotIn b.group i
      if x.val < (s.trunks.get k).present then
        match s.stationAt (outletAt k x) with
        | some n => s.stationReport n r
        | none => s
      else s
    | none => s

/-- The echoes go to the Changeover Slots, the lower slot's first (log entry 46). -/
def State.echoes (k : Fin 4) (b : ControlBlock) (s : State) : State :=
  s.forAll ((slotsOf k).zip b.echoes) fun x s => s.changeoverEcho x.1 x.2

/-- An inbound control block reloads the sync hold before its parts are handed on; it is ignored unless the trunk is UP
(R168 to R170). DESIGN CHOICE: all its loop readings and flags act first, then its station reports, then its echoes, so a
slot that an echo of the block frees is not free yet for a rise of the same block (log entry 46). -/
def State.inbound (k : Fin 4) (b : ControlBlock) (s : State) : State :=
  if (s.trunks.get k).link == .up then
    ((((s.modTrunk k fun t => { t with sync := some 4 }).loopReports k b).stationReports k b).echoes k b)
  else s

/-! ### CALIBRATE with target loop (R175) -/

def State.calibrateLoop (o : Fin 256) (h : Hand) (s : State) : State :=
  let r := calibrateRec h.bytes
  if r.method = 0 then
    let v := clampMark r.value 0 1023
    (s.setLoopBaseline o v.1).reply .setup h stDone v.2 [(16, bytes4 v.1)]
  else
    (s.modLoop o fun x => { x with capture := some { record := h.ref false, count := 0, sum := 0 } }).take .setup h false

/-- What an applied DEFINE_OUTLET record does to the Supervision Unit (R172, R176). -/
def State.loopRedefined (o : Fin 256) (old : Outlet) (s : State) : State :=
  let new := s.outlets.get o
  let s :=
    if old.loopLow != new.loopLow || old.loopHigh != new.loopHigh || old.confirm != new.confirm then
      s.modLoop o fun x => { x with streak := none }
    else s
  s.setLoopState o

/-! ### Meanings -/

/-- ANSWER_TIMER_EXPIRY (R168). -/
def execAnswerTimerExpiry (k : Fin 4) (s : State) : Host.Outcome State Fault Refusal := .next (s.answerExpired k)

/-- ABILITY_BLOCK (R168, R169). -/
def execAbilityBlock (k : Fin 4) (b : AbilityBlock) (s : State) : Host.Outcome State Fault Refusal :=
  .next (s.abilityArrives k b).arbitrate

/-- SYNC_HOLD_EXPIRY (R169). -/
def execSyncHoldExpiry (k : Fin 4) (s : State) : Host.Outcome State Fault Refusal := .next (s.syncExpired k).arbitrate

/-- INBOUND_CONTROL_BLOCK (R170). -/
def execInboundControlBlock (k : Fin 4) (b : ControlBlock) (s : State) : Host.Outcome State Fault Refusal :=
  .next (s.inbound k b).arbitrate

/-- CHANGEOVER_PENDING_EXPIRY (R178). -/
def execChangeoverPendingExpiry (x : Fin 8) (s : State) : Host.Outcome State Fault Refusal :=
  .next (s.pendingExpired x).arbitrate

/-- CHANGEOVER_RELEASE_EXPIRY (R179). -/
def execChangeoverReleaseExpiry (x : Fin 8) (s : State) : Host.Outcome State Fault Refusal :=
  .next (s.releaseExpired x).arbitrate

/-- RELEASE_CHANGEOVER (R179). -/
def execReleaseChangeover (s : State) : Host.Outcome State Fault Refusal :=
  .next (s.handOver .setup 0x07 fun h _ s => s.releaseRecord h)

end Sys2Proof.Machine
end

