-- ==== Sys2Proof/Machine/Tables.lean ====
section
/-! DEFINITION. The Outlet Table and the Inlet Table (chapter 2): DEFINE_OUTLET (R22 to R25), DEFINE_INLET (R27), and
CALIBRATE, which goes to the Ambient Unit or the Supervision Unit (R89). -/

namespace Sys2Proof.Machine

/-! ### DEFINE_OUTLET -/

/-- The sense inlet field: none, or a SENSE_MIC inlet (R22 checks 4 and 5). -/
def State.senseOf (s : State) (n : Nat) : Option (Option (Fin 256)) :=
  if n = 0xFFFF then some none
  else (toFin? 256 n).bind fun i => if s.inlets.get i == .senseMic then some (some i) else none

/-- The outlet is bound to a defined station. -/
def State.stationOutlet (s : State) (o : Fin 256) : Bool := s.stations.list.any fun x => x.binding.any fun b => b.2 == o

/-- The present use refuses a change of kind or area (R23). -/
def State.outletInUse (s : State) (o : Fin 256) (kind : OutletKind) : Bool :=
  !(s.stack o).isEmpty
    || s.changeovers.list.any (fun c =>
        (c.state == .pending || c.state == .active) && (c.faulted == o || c.spare == o))
    || (s.stationOutlet o && kind != .station)

/-- The entry a record asks for, with every numeric field clamped, and the clamp mark (R24). -/
def OutletRec.entry (r : OutletRec) (kind : OutletKind) (area : Fin 16) (sense : Option (Fin 256)) : Outlet × Bool :=
  let ramp := clampMark r.rampStep 0 4095
  let depth := clampMark r.duckDepth 0 4096
  let hold := clampMark r.duckHold 0 10000
  let thr := clampMark r.overrideThreshold 8 15
  let smo := clampMark r.smoothing 1 16
  let mar := clampMark r.margin 0 8388607
  let cap := clampMark r.cap 0 4095
  let low := clampMark r.loopLow 0 1023
  let high := clampMark r.loopHigh 0 1023
  let con := clampMark r.confirm 1 15
  ({ kind, area, trim := r.trim, rampStep := ramp.1, duckDepth := depth.1, duckHold := hold.1
     overrideThreshold := thr.1, alarmFloor := r.alarmFloor, compEnable := bitOf r.flags 0, smoothing := smo.1
     margin := mar.1, slope := r.slope, cap := cap.1, senseInlet := sense, loopLow := low.1, loopHigh := high.1
     confirm := con.1, autoChangeover := bitOf r.flags 1 },
   ramp.2 || depth.2 || hold.2 || thr.2 || smo.2 || mar.2 || cap.2 || low.2 || high.2 || con.2)

/-- The report of a new kind or area to the Alarm Unit: a kind SOUNDING in the area places its claim, and its program
leaves FREE when its target set has become non-empty (R25, R145). -/
def State.reportToAlarms (o : Fin 256) (s : State) : State :=
  s.forAll AlarmKind.all fun k s =>
    let out := s.outlets.get o
    if s.areaState k out.area == .sounding && k.audience out.kind then
      let n := (s.alarms.kinds.get k.idx).lastArrival
      (s.placeAlarm k n o).2.alarmStart k n
    else s

/-- The report to the contact microphone program (R25). -/
def State.reportToMic (o : Fin 256) (s : State) : State :=
  let pr := s.programs.get micSlot
  if pr.state == .free then s
  else
    let s := s.modProgram micSlot fun pr => { pr with targets := s.outlets.indices fun x => x.kind.hearsMic }
    if (s.outlets.get o).kind.hearsMic then
      let r := s.place (micClaim pr.arrival) o
      if r.1 then r.2.modProgram micSlot fun pr => { pr with admitted := pr.admitted + 1 } else r.2
    else s

/-- An accepted record is applied: the entry, the override line (R58), the Ambient Unit (R92), the Supervision Unit
(R176), and the reports of R25. -/
def State.applyOutlet (o : Fin 256) (new : Outlet) (s : State) : State :=
  let old := s.outlets.get o
  let s := { s with outlets := s.outlets.set o new }
  let s := ((s.evalLine o).ambientRedefined o old.senseInlet).loopRedefined o old
  if old.kind = new.kind && old.area = new.area then s else (s.reportToAlarms o).reportToMic o

/-- DEFINE_OUTLET, checked in the order of R22 and R23 and applied as R24 states. -/
def State.defineOutletRecord (h : Hand) (s : State) : State :=
  let r := outletRec h.bytes
  let refuse (code : Nat) := s.reply .setup h code false []
  match toFin? 256 r.outlet, outletKindOf r.kind, toFin? 16 r.area, s.senseOf r.sense with
  | some o, some kind, some area, some sense =>
    let old := s.outlets.get o
    if (kind != old.kind || area != old.area) && s.outletInUse o kind then refuse stInUse
    else
      let e := r.entry kind area sense
      (s.applyOutlet o e.1).reply .setup h stDone e.2 []
  | _, _, _, _ => refuse stBadField

/-! ### DEFINE_INLET -/

/-- The inlet's present use refuses a change to `kind` (R27). -/
def State.inletInUse (s : State) (i : Fin 256) (kind : InletKind) : Bool :=
  s.programs.list.any (fun p => p.state != .free && p.source == .inlet i)
    || s.theatre.bindings.list.any (fun b => b == .line i)
    || s.outlets.list.any (fun o => o.senseInlet == some i)
    || s.stations.list.any (fun x => x.binding.any fun b => b.1 == i)
    || (kind == .contactMic && (allFin 256).any fun j => j != i && s.inlets.get j == .contactMic)

/-- DEFINE_INLET (R27). -/
def State.defineInletRecord (h : Hand) (s : State) : State :=
  match toFin? 256 (halfAt h.bytes 8), inletKindOf (byteAt h.bytes 10) with
  | some i, some kind =>
    if s.inlets.get i = kind then s.reply .setup h stDone false []
    else if s.inletInUse i kind then s.reply .setup h stInUse false []
    else ({ s with inlets := s.inlets.set i kind } : State).reply .setup h stDone false []
  | _, _ => s.reply .setup h stBadField false []

/-! ### CALIBRATE -/

/-- CALIBRATE, checked in the order of R89. -/
def State.calibrateRecord (h : Hand) (s : State) : State :=
  let r := calibrateRec h.bytes
  match toFin? 256 r.outlet with
  | none => s.reply .setup h stBadField false []
  | some o =>
    if 1 < r.target || 1 < r.method then s.reply .setup h stBadField false []
    else if r.target = 0 then s.calibrateAmbient o h
    else s.calibrateLoop o h

/-! ### Meanings -/

/-- DEFINE_OUTLET (R22 to R25). -/
def execDefineOutlet (s : State) : Host.Outcome State Fault Refusal :=
  .next (s.handOver .setup 0x01 fun h _ s => s.defineOutletRecord h)

/-- DEFINE_INLET (R27). -/
def execDefineInlet (s : State) : Host.Outcome State Fault Refusal :=
  .next (s.handOver .setup 0x02 fun h _ s => s.defineInletRecord h)

/-- CALIBRATE (R89 to R91, R175). -/
def execCalibrate (s : State) : Host.Outcome State Fault Refusal :=
  .next (s.handOver .setup 0x06 fun h _ s => s.calibrateRecord h)

end Sys2Proof.Machine
end

