-- ==== Sys2Proof/Machine/Mixer.lean ====
section
/-! DEFINITION. The Mixer (chapter 4): program gains, target and current gains, duck hold, outlet samples and clip
counts, call mixes, and the show buses under the crossfade. -/

namespace Sys2Proof.Machine

/-! ### What is latched of a claim (R61, R65) -/

/-- A latched claim: its identity, its program gain, and what its targets depend on. -/
structure Latch where
  id : ClaimId
  gain : Nat
  ending : Bool
  alarm : Bool
  speech : Bool
deriving DecidableEq, Repr

/-- ANNOUNCE, PAGE and alarm programs take the compensation factor (R66). -/
def ProgKind.compensated : ProgKind → Bool
  | .announce | .page | .alarm => true
  | .background | .theatre | .contactMic => false

/-- A claim as the Mixer latches it, with the G_p of R65. -/
def State.latch (s : State) (c : Claim) : Latch :=
  match c.owner with
  | .program p =>
    let pr := s.programs.get p
    { id := (c.owner, c.arrival), gain := if 59 ≤ p.val then 4096 else pr.gain, ending := pr.state == .ending
      alarm := 60 ≤ p.val, speech := pr.kind.compensated }
  | .party k i =>
    { id := (c.owner, c.arrival), gain := (((s.calls.get k).parties[i.val]?).map (·.listen)).getD 0, ending := false
      alarm := false, speech := false }

/-! ### Targets (R66, R67) -/

/-- trunc(G_p × T / 4096). -/
def baseGain (out : Outlet) (g : Nat) : Nat := g * out.trim / 4096

/-- The ducked target: of an undertone, and of a holder during duck hold. -/
def duckedTarget (out : Outlet) (g : Nat) : Nat := min 65535 (baseGain out g * out.duckDepth / 4096)

/-- The foreground target gain of a holder; `held` while its duck-hold timer runs (R66). -/
def foregroundTarget (out : Outlet) (factor : Nat) (held : Bool) (h : Latch) : Nat :=
  if h.ending then 0
  else if held then duckedTarget out h.gain
  else
    let base := baseGain out h.gain
    let g := if out.compEnable && h.speech then min 65535 (base * factor / 4096) else min 65535 base
    if h.alarm then max g out.alarmFloor else g

/-- The undertone target gain (R67). -/
def undertoneTarget (out : Outlet) (u : Latch) : Nat := if u.ending then 0 else duckedTarget out u.gain

/-! ### Current gains (R68 to R72) -/

/-- A current gain steps toward its target with ramp step S (R68). -/
def stepGain (step cur target : Nat) : Nat :=
  if step = 0 then target
  else if cur ≤ target then (if target - cur ≤ step then target else cur + step)
  else if cur - target ≤ step then target
  else cur - step

/-- The duck-hold timer after its step at a period start (R71). -/
def stepDuck (d : Option (Nat × ClaimId)) : Option (Nat × ClaimId) :=
  match d with
  | some (n, id) => if n ≤ 1 then none else some (n - 1, id)
  | none => none

/-- The timer of a claim that becomes holder from undertone (R71). -/
def startDuck (out : Outlet) (h : Latch) : Option (Nat × ClaimId) :=
  if out.duckHold = 0 || h.ending then none else some (out.duckHold, h.id)

/-- The foreground of an outlet after a period start: claim, G_c and duck-hold timer (R66, R68, R69, R71, R72). -/
def foregroundStep (out : Outlet) (factor : Nat) (holder : Option Latch) (m : MixEntry) :
    Option ClaimId × Nat × Option (Nat × ClaimId) :=
  match holder with
  | none => (none, 0, none)
  | some h =>
    let go (start : Nat) (duck : Option (Nat × ClaimId)) :=
      (some h.id, stepGain out.rampStep start (foregroundTarget out factor duck.isSome h), duck)
    if m.fg = some h.id then go m.gc ((stepDuck m.duck).filter fun d => d.2 == h.id)
    else if m.ug = some h.id then go m.uc (startDuck out h)
    else if h.alarm then go (foregroundTarget out factor false h) none
    else go 0 none

/-- The undertone of an outlet after a period start: claim and U_c (R67, R68, R70). -/
def undertoneStep (out : Outlet) (under : Option Latch) (m : MixEntry) : Option ClaimId × Nat :=
  match under with
  | none => (none, 0)
  | some u =>
    let start := if m.ug = some u.id then m.uc else if m.fg = some u.id then m.gc else 0
    (some u.id, stepGain out.rampStep start (undertoneTarget out u))

/-- An outlet's mixer entry after the gains of a period start; the clip count follows with the samples. -/
def mixStep (out : Outlet) (factor : Nat) (holder under : Option Latch) (m : MixEntry) : MixEntry :=
  let f := foregroundStep out factor holder m
  let u := undertoneStep out under m
  { fg := f.1, gc := f.2.1, ug := u.1, uc := u.2, duck := f.2.2, clips := m.clips }

/-! ### Samples (R74 to R77) -/

/-- A block of 48 samples of 0. -/
def silence48 : List Int := List.replicate 48 0

/-- The weighted sums of blocks, sample by sample, formed exactly. -/
def weighted (xs : List (List Int × Nat)) : List Int :=
  (List.range 48).map fun k => (xs.map fun x => x.1.getD k 0 * (x.2 : Int)).sum

/-- trunc(sum / 4096). -/
def scaled (xs : List (List Int × Nat)) : List Int := (weighted xs).map fun x => trunc x 4096

/-- sat24(trunc(sum / 4096)): call mixes (R76) and show buses (R77). -/
def mixed (xs : List (List Int × Nat)) : List Int := (scaled xs).map sat24

/-- The count of samples outside the sample range (R75). -/
def clipped (xs : List Int) : Nat := (xs.filter fun x => sat24 x != x).length

/-- What every source gives in a period. -/
structure Sounds where
  inlets : Tab 256 (List Int)
  channels : Tab 16 (List Int)
  voices : Tab 8 (List Int)
  buses : Tab 8 (List Int)
deriving DecidableEq, Repr

/-- An inlet carries what its trunk slot receives: its kind is defined, its trunk UP, its slot present (R26). -/
def State.heard (s : State) (i : Fin 256) : Bool :=
  let k := s.trunks.get (trunkOf i)
  k.link == .up && ((slotOf i).val < k.present : Bool)

/-- The 48 samples an inlet delivers (R26). -/
def State.inletBlock (s : State) (audio : List (List Sample)) (i : Fin 256) : List Int :=
  if s.inlets.get i != .undefined && s.heard i then padTo48 ((audio.getD i.val []).map (·.toInt)) else silence48

/-- The block of the voice a user holds. -/
def State.voiceBlock (s : State) (voices : Tab 8 (List Int)) (u : VoiceUser) : List Int :=
  match s.voiceOf u with
  | some v => voices.get v
  | none => silence48

/-- The block of the channel an owner holds. -/
def State.channelBlock (s : State) (channels : Tab 16 (List Int)) (w : ChanOwner) : List Int :=
  match s.channelOf w with
  | some c => channels.get c
  | none => silence48

/-- A party's talk input with its talk gain (R76). -/
def State.talk (s : State) (inlets : Tab 256 (List Int)) (p : Party) : List Int × Nat :=
  match (s.stations.get p.station).binding with
  | some b => (inlets.get b.1, p.talk)
  | none => (silence48, p.talk)

/-- The talk inputs of a call's CONNECTED parties, other than one (R76). -/
def State.talkers (s : State) (inlets : Tab 256 (List Int)) (c : Fin 16) (skip : Option (Fin 8)) :
    List (List Int × Nat) :=
  (allFin 8).filterMap fun i =>
    match (s.calls.get c).parties[i.val]? with
    | some p => if p.state == .connected && skip != some i then some (s.talk inlets p) else none
    | none => none

/-- A gain of the show in a period: LIVE, or interpolated between LIVE and NEXT (R78, R155). -/
def Theatre.gain (t : Theatre) (i : Fin 136) : Nat :=
  let live := t.live.get i
  let fading := t.state == .fading || (t.state == .held && t.hold.any fun r => r.heldFrom == .fading)
  match t.next with
  | some n => if fading then ((live : Int) + trunc (((n.get i : Int) - live) * t.pos) t.len).toNat else live
  | none => live

/-- The block a show source gives (R154). -/
def State.sourceBlock (s : State) (inlets : Tab 256 (List Int)) (channels : Tab 16 (List Int)) (x : Fin 16) : List Int :=
  match s.theatre.bindings.get x with
  | .unbound => silence48
  | .line i => inlets.get i
  | .playback => s.channelBlock channels (.source x)

/-- The crosspoint of source `x` to bus `k`, and the master of bus `k`, in a bank (section 1.9). -/
def crosspoint (x : Fin 16) (k : Fin 8) : Fin 136 := ⟨8 * x.val + k.val, by omega⟩

def masterGain (k : Fin 8) : Fin 136 := ⟨128 + k.val, by omega⟩

/-- A show bus: the crosspoints, then the master (R77). -/
def busBlock (t : Theatre) (sources : Tab 16 (List Int)) (k : Fin 8) : List Int :=
  let pre := mixed ((allFin 16).map fun x => (sources.get x, t.gain (crosspoint x k)))
  mixed [(pre, t.gain (masterGain k))]

/-- All sources of a period. -/
def State.sounds (s : State) (audio : List (List Sample)) (channels : Tab 16 (List Int)) (voices : Tab 8 (List Int)) :
    Sounds :=
  let inlets := Tab.ofFn (s.inletBlock audio)
  let sources := Tab.ofFn (s.sourceBlock inlets channels)
  { inlets, channels, voices, buses := Tab.ofFn (busBlock s.theatre sources) }

/-- The source an alarm program presents: its tone in TONE, its voice channel in VOICE (R64). -/
def State.alarmBlock (s : State) (x : Sounds) (p : Fin 64) : List Int :=
  match AlarmKind.all.find? fun k => k.slot == p with
  | none => silence48
  | some k =>
    match (s.alarms.kinds.get k.idx).phase with
    | .unset => silence48
    | .tone => s.voiceBlock x.voices (.alarm k)
    | .voice => s.channelBlock x.channels (.program p)

/-- The source a program presents (R42, R64). -/
def State.programBlock (s : State) (x : Sounds) (p : Fin 64) : List Int :=
  let pr := s.programs.get p
  match pr.state with
  | .free | .gathering => silence48
  | .chiming => s.voiceBlock x.voices (.chime p)
  | .playing | .held | .ending =>
    match pr.source with
    | .silent => silence48
    | .inlet i => x.inlets.get i
    | .stream => s.channelBlock x.channels (.program p)
    | .bus b => x.buses.get b
    | .pageMix c => mixed (s.talkers x.inlets c none)
    | .alarmSound => s.alarmBlock x p

/-- The source a call party presents: the ring, or its call mix (R64). -/
def State.partyBlock (s : State) (x : Sounds) (c : Fin 16) (i : Fin 8) : List Int :=
  match (s.calls.get c).parties[i.val]? with
  | none => silence48
  | some p =>
    match p.state with
    | .ringing => s.voiceBlock x.voices .ring
    | .connected => mixed (s.talkers x.inlets c (some i))
    | .busy | .left | .lost | .noAnswer => silence48

/-- The source sample block of a claim (R64). -/
def State.claimBlock (s : State) (x : Sounds) (c : Option Claim) : List Int :=
  match c with
  | none => silence48
  | some c =>
    match c.owner with
    | .program p => s.programBlock x p
    | .party k i => s.partyBlock x k i

/-- An outlet's quotients of a period before sat24 (R74); an outlet with no holder and no undertone gives 0. -/
def State.outletQuotients (s : State) (x : Sounds) (m : MixEntry) (o : Fin 256) : List Int :=
  match s.holder o, s.undertone o with
  | none, none => silence48
  | h, u => scaled [(s.claimBlock x h, m.gc), (s.claimBlock x u, m.uc)]

/-- An outlet's mixer entry and its samples for a period (R66 to R75). -/
def State.mixOutlet (s : State) (x : Sounds) (o : Fin 256) : MixEntry × List Int :=
  let m := mixStep (s.outlets.get o) (s.ambient.outlets.get o).factor ((s.holder o).map s.latch)
    ((s.undertone o).map s.latch) (s.mixer.get o)
  let q := s.outletQuotients x m o
  ({ m with clips := min 65535 (m.clips + clipped q) }, q.map sat24)

/-! ### Faded programs (R73) -/

/-- An ENDING program whose gain is 0 at every outlet where it is latched. -/
def State.faded (s : State) (p : Fin 64) : Bool :=
  let pr := s.programs.get p
  let id : ClaimId := (.program p, pr.arrival)
  pr.state == .ending
    && s.mixer.list.all fun m => (m.fg != some id || m.gc == 0) && (m.ug != some id || m.uc == 0)

/-! ### Meanings -/

/-- DUCK_HOLD_EXPIRY (R71): the timer reaches 0 at the coming period start and stops. -/
def State.duckExpired (o : Fin 256) (s : State) : State :=
  match (s.mixer.get o).duck with
  | some (n, _) => if n ≤ 1 then { s with mixer := s.mixer.modify o fun m => { m with duck := none } } else s
  | none => s

def execDuckHoldExpiry (o : Fin 256) (s : State) : Host.Outcome State Fault Refusal := .next (s.duckExpired o)

end Sys2Proof.Machine
end

