-- ==== Sys2Proof/Machine/Programs.lean ====
section
/-! DEFINITION. The records and timers of the Program Table (chapter 3): START_PROGRAM (R36 to R38), STOP_PROGRAM
(R45), SET_PROGRAM_GAIN (R48), the gather and duration timers (R40, R47), and the completion of a stream (R44). -/

namespace Sys2Proof.Machine

/-! ### START_PROGRAM -/

/-- The source of a record, when checks 5 and 6 of R36 pass. -/
def State.sourceOf (s : State) (r : StartRec) (kind : ProgKind) : Option Source :=
  match r.sourceKind with
  | 0 =>
    if kind == .theatre then none
    else (toFin? 256 r.source).bind fun i =>
      if s.inlets.get i == .consoleMic || s.inlets.get i == .line then some (.inlet i) else none
  | 1 => if kind == .theatre || !s.descOk r.desc then none else some .stream
  | 2 => if kind == .theatre then (toFin? 8 r.source).map .bus else none
  | _ => none

/-- The chime of a record, when check 7 of R36 passes; 0xFF is none. -/
def State.chimeOf (s : State) (n : Nat) : Option (Option (Fin 12)) :=
  if n = 0xFF then some none
  else (toFin? 12 n).bind fun q => if s.patternDefined q then some (some q) else none

/-- The priority band of a host kind (R34). -/
def ProgKind.band : ProgKind → Nat × Nat
  | .background => (0, 1)
  | .theatre => (2, 5)
  | .announce | .page | .alarm | .contactMic => (4, 11)

/-- The numeric fields of a START_PROGRAM record after the clamps of R37, and the clamp mark. -/
structure StartClamps where
  priority : Nat
  gatherTimeout : Nat
  maxDuration : Nat
  holdThreshold : Nat
  desc : StreamDesc
  mark : Bool
deriving DecidableEq, Repr

def StartRec.clamps (r : StartRec) (kind : ProgKind) (policy : Policy) : StartClamps :=
  let pri := clampMark r.priority kind.band.1 kind.band.2
  let gat := if policy == .all then clampMark r.gatherTimeout 0 30000 else (r.gatherTimeout, false)
  let dur := if r.maxDuration = 0 then (0, false) else clampMark r.maxDuration 100 3600000
  let thr := if kind == .theatre then clampMark r.holdThreshold 8 15 else (r.holdThreshold, false)
  let d := r.desc.settle
  { priority := pri.1, gatherTimeout := gat.1, maxDuration := dur.1, holdThreshold := thr.1, desc := d.1
    mark := pri.2 || gat.2 || dur.2 || thr.2 || (r.sourceKind == 1 && d.2) }

/-- An accepted record is started (R38). The TAKEN write stands requested from the first, so that an end within the
take finds it and replaces it (R17). -/
def State.startHost (p : Fin 64) (h : Hand) (set : List (Fin 256)) (kind : ProgKind) (policy : Policy) (src : Source)
    (chime : Option (Fin 12)) (s : State) : State :=
  let r := startRec h.bytes
  let k := r.clamps kind policy
  let issued := (s.take .program h k.mark).issueArrival
  let s := issued.2.modProgram p fun _ =>
    { state := .gathering, kind, source := src, priority := k.priority
      targets := set.filter fun o => (s.outlets.get o).kind.takesClaims
      policy, gatherTimeout := k.gatherTimeout, chime, gain := r.gain, duckable := r.duckable
      allowsUndertone := r.allowsUndertone, holdThreshold := k.holdThreshold, maxDuration := k.maxDuration
      arrival := issued.1, record := some (h.ref k.mark) }
  s.launch p (if src == .stream then some k.desc else none)

/-- A START_PROGRAM record is checked in the order of R36 and started. -/
def State.startRecord (h : Hand) (blocks : List (List Byte)) (s : State) : State :=
  let r := startRec h.bytes
  let refuse (code : Nat) := s.reply .program h code false []
  match toFin? 64 r.slot with
  | none => refuse stBadSlot
  | some p =>
    if 59 ≤ p.val then refuse stBadSlot
    else
      match hostKindOf r.kind, policyOf r.policy with
      | some kind, some policy =>
        match s.sourceOf r kind, s.chimeOf r.chime with
        | some src, some chime =>
          let pr := s.programs.get p
          if pr.state != .free || pr.reservation.isSome then refuse stSlotBusy
          else if src == .stream && s.freeChannel.isNone then refuse stSlotBusy
          else s.startHost p h (outletSet (blocks.headD [])) kind policy src chime
        | _, _ => refuse stBadField
      | _, _ => refuse stBadField

/-! ### STOP_PROGRAM and SET_PROGRAM_GAIN -/

/-- A program enters ENDING: its duration timer is stopped (R46, R47). -/
def State.enterEnding (p : Fin 64) (s : State) : State :=
  s.modProgram p fun pr => { pr with state := .ending, stopMode := .fade, durationTimer := none }

/-- A stop acts by the program's state and the mode, 0 CUT, 1 FADE, 2 FINISH (R45). -/
def State.stopProgram (p : Fin 64) (mode : Nat) (s : State) : State :=
  let pr := s.programs.get p
  match pr.state with
  | .free => s
  | .gathering | .chiming => s.endProgram p stStopped
  | .playing =>
    if mode = 0 then s.endProgram p stStopped
    else if mode = 2 && pr.source == .stream then
      (s.modProgram p fun pr => { pr with stopMode := .finish }).signalOwner (.program p) Channel.signalFinish
    else s.enterEnding p
  | .held => if mode = 0 then s.endProgram p stStopped else s.enterEnding p
  | .ending => if mode = 0 then s.endProgram p stStopped else s

/-- The host slot a PROGRAM record names at offset 8; 59 and above are BAD_SLOT (R45, R48). -/
def Hand.hostSlot (h : Hand) : Option (Fin 64) :=
  (toFin? 64 (byteAt h.bytes 8)).filter fun p => (p.val < 59 : Bool)

def State.stopRecord (h : Hand) (s : State) : State :=
  let mode := byteAt h.bytes 9
  match h.hostSlot with
  | none => s.reply .program h stBadSlot false []
  | some p =>
    if 2 < mode then s.reply .program h stBadField false []
    else if (s.programs.get p).state == .free then s.reply .program h stNotActive false []
    else (s.stopProgram p mode).reply .program h stDone false []

def State.gainRecord (h : Hand) (s : State) : State :=
  match h.hostSlot with
  | none => s.reply .program h stBadSlot false []
  | some p =>
    if (s.programs.get p).state == .free then s.reply .program h stNotActive false []
    else (s.modProgram p fun pr => { pr with gain := halfAt h.bytes 10 }).reply .program h stDone false []

/-! ### Ends by a timer and by the stream -/

/-- A program's stream completes: COMPLETE with no stop asked, STOPPED after one (R44, R45, R105). -/
def State.streamComplete (p : Fin 64) (s : State) : State :=
  s.endProgram p (if (s.programs.get p).stopMode == .unset then stComplete else stStopped)

/-- The duration timer expires while the program is PLAYING (R47). -/
def State.durationExpired (p : Fin 64) (s : State) : State :=
  let pr := s.programs.get p
  if pr.state == .playing && pr.durationTimer == some 0 then s.endProgram p stTimedOut else s

/-- The gather timer of a GATHERING program stands at 0 and its expiry is taken (R40). -/
def State.gatherDue (p : Fin 64) (s : State) : State :=
  if (s.programs.get p).gatherTimer == some 0 then s.gatherExpired p else s

/-! ### Meanings -/

/-- START_PROGRAM (R36 to R39). -/
def execStartProgram (s : State) : Host.Outcome State Fault Refusal :=
  .next (s.handOver .program 0x10 fun h bs s => s.startRecord h bs)

/-- STOP_PROGRAM (R45). -/
def execStopProgram (s : State) : Host.Outcome State Fault Refusal :=
  .next (s.handOver .program 0x11 fun h _ s => s.stopRecord h)

/-- SET_PROGRAM_GAIN (R48). -/
def execSetProgramGain (s : State) : Host.Outcome State Fault Refusal :=
  .next (s.handOver .program 0x12 fun h _ s => s.gainRecord h)

/-- GATHER_TIMER_EXPIRY (R40). -/
def execGatherTimerExpiry (p : Fin 64) (s : State) : Host.Outcome State Fault Refusal :=
  .next (s.gatherDue p).arbitrate

/-- DURATION_TIMER_EXPIRY (R47). -/
def execDurationTimerExpiry (p : Fin 64) (s : State) : Host.Outcome State Fault Refusal :=
  .next (s.durationExpired p).arbitrate

end Sys2Proof.Machine
end

