-- ==== Sys2Proof/Machine/Period.lean ====
section
/-! DEFINITION. The mix period (R61): everything that happens at a period start, in the order of log entry 15. -/

namespace Sys2Proof.Machine

/-! ### Expiries that stand due (log entry 1) -/

/-- The ring timers of a call. -/
def State.ringsExpired (c : Fin 16) (s : State) : State := s.forAll (allFin 8) (State.ringExpired c)

/-- Every expiry that stands due and that no command has taken, each kind in rising number (log entries 1, 15, 36). -/
def State.settleDue (s : State) : State :=
  let s := s.forAll (allFin 8) State.segmentEnd
  let s := s.windowComplete
  let s := s.forAll (allFin 4) State.syncExpired
  let s := s.forAll (allFin 4) State.answerExpired
  let s := (s.forAll (allFin 8) State.pendingExpired).forAll (allFin 8) State.releaseExpired
  let s := s.forAll (allFin 64) State.holdExpired
  let s := s.forAll (allFin 16) State.ringsExpired
  let s := (s.forAll (allFin 64) State.gatherDue).forAll (allFin 64) State.durationExpired
  let s := s.beatExpired
  s.forAll ListId.all State.scanExpired

/-! ### Timers (log entry 14) -/

/-- A running timer counts down by 1. -/
def tick (t : Option Nat) : Option Nat := t.map (· - 1)

/-- A duration timer counts while its program is PLAYING (R47). -/
def Program.tick (pr : Program) : Program :=
  { pr with
      gatherTimer := Machine.tick pr.gatherTimer
      durationTimer := if pr.state = .playing then Machine.tick pr.durationTimer else pr.durationTimer }

/-- The sub-count and the beat counter (R184). -/
def Beat.tick (b : Beat) : Beat :=
  if 1 < b.sub then { b with sub := b.sub - 1 } else { counter := b.counter - 1, sub := 100 }

/-- The ms count and every timer that counts in ms or in mix periods step. A scan timer counts in RUNNING (R9), the
beat counter while it runs (R184). -/
def State.stepTimers (s : State) : State :=
  { s with
      time := s.time + 1
      lists := if s.part = .running then
          { s.lists with walkers := s.lists.walkers.map fun w => { w with scan := tick w.scan } }
        else s.lists
      trunks := s.trunks.map fun t => { t with answer := tick t.answer, sync := tick t.sync }
      changeovers := s.changeovers.map fun c => { c with timer := tick c.timer }
      stations := s.stations.map fun x => { x with holdTimer := tick x.holdTimer }
      calls := s.calls.map fun c => { c with parties := c.parties.map fun p => { p with ringTimer := tick p.ringTimer } }
      programs := s.programs.map Program.tick
      beat := if s.beatRunning then s.beat.tick else s.beat }

/-- A DOWN trunk enters TRAINING (R167). -/
def State.trainTrunk (k : Fin 4) (s : State) : State :=
  if (s.trunks.get k).link == .down then s.enterTraining k else s

/-- A call in CLEARING becomes FREE (R128). -/
def State.freeCleared (c : Fin 16) (s : State) : State :=
  if (s.calls.get c).state == .clearing then s.freeCall c else s

/-! ### Channel events (R102, R104, R105, R108, R147) -/

/-- The alarm kind a channel is owned by. -/
def alarmOwner (w : Option ChanOwner) : Option AlarmKind := AlarmKind.all.find? fun k => w == some (.program k.slot)

/-- A channel enters STARVED: its note, and for an alarm the end of its VOICE phase and its release (R102, R147). -/
def State.channelStarves (c : Fin 16) (s : State) : State :=
  let ch := s.channels.get c
  let s := s.emitNote .streamStarved 1 c.val ch.ownerCode
  match alarmOwner ch.owner with
  | some k => (s.releaseChannel (.program k.slot)).endVoicePhase k
  | none => s

/-- A channel's stream is complete (R105). -/
def State.channelCompletes (c : Fin 16) (s : State) : State :=
  let ch := s.channels.get c
  match alarmOwner ch.owner with
  | some k => (s.reloadAlarm c).endVoicePhase k
  | none =>
    match ch.owner with
    | some (.program p) => (s.enterEnded c).streamComplete p
    | some (.source _) => s.enterEnded c
    | none => s

/-- The event of a channel at this period start, while the channel stands as the period start left it. -/
def State.channelEvent (gave : Tab 16 ChanEvent) (c : Fin 16) (s : State) : State :=
  match gave.get c with
  | .none => s
  | .starves => if (s.channels.get c).state == .starved then s.channelStarves c else s
  | .completes => if (s.channels.get c).state == .draining then s.channelCompletes c else s

/-- A channel that waits for a fragment asks to read it again (R96). -/
def Channel.askAgain (ch : Channel) : Channel :=
  match ch.cur with
  | .waiting _ => { ch with reread := true }
  | .empty | .toRead _ | .taken _ => ch

/-! ### The Ambient Unit's period (R84 to R86) -/

/-- What a period adds to a measuring outlet's window. -/
def State.ambientPeriod (s : State) (x : Sounds) (o : Fin 256) : AmbientEntry :=
  let a := s.ambient.outlets.get o
  match (s.outlets.get o).senseInlet with
  | none => a
  | some i =>
    let m := s.mixer.get o
    { a with
        sum := a.sum + ((x.inlets.get i).map Int.natAbs).sum
        unheard := a.unheard || !s.heard i
        gated := a.gated || (m.fg.isSome && m.gc != 0) }

/-- The period is added to every outlet's window. -/
def State.ambientStep (x : Sounds) (s : State) : State :=
  { s with ambient := { s.ambient with
      outlets := Tab.ofFn (s.ambientPeriod x), position := s.ambient.position + 1 } }

/-! ### Outbound transfers (R168, R171) -/

/-- The ACTIVE changeover in which an outlet stands. -/
def State.activeChangeover (s : State) (o : Fin 256) : Option Changeover :=
  s.changeovers.list.find? fun c => c.state == .active && (c.faulted == o || c.spare == o)

/-- The samples a served slot carries (R171). -/
def State.slotAudio (s : State) (blocks : Tab 256 (List Int)) (o : Fin 256) : List Int :=
  match s.activeChangeover o with
  | some c => if c.faulted = o then silence48 else blocks.get c.faulted
  | none => blocks.get o

/-- The override line a slot carries (R171). -/
def State.slotLine (s : State) (o : Fin 256) : Bool :=
  match s.activeChangeover o with
  | some c => if c.faulted = o then false else s.claims.lines.get c.faulted
  | none => s.claims.lines.get o

/-- The command field of a changeover slot: SWITCH with two outlet slots, or idle (R171, R177 to R179). -/
def Changeover.command (c : Changeover) : Option (Nat × Nat) :=
  match c.state with
  | .pending | .active => some ((slotOf c.faulted).val, (slotOf c.spare).val)
  | .free | .releasing => none

/-- What a trunk sends in this period. -/
def State.outboundOf (s : State) (blocks : Tab 256 (List Int)) (k : Fin 4) : Option Outbound :=
  let t := s.trunks.get k
  match t.link with
  | .down => none
  | .training => some (.offer k t.training 64 64 (List.replicate 64 silence48))
  | .up =>
    some (.transfer
      ((allFin 64).map fun x => if x.val < t.served then s.slotAudio blocks (outletAt k x) else [])
      ((allFin 64).map fun x => t.overrideLines && s.slotLine (outletAt k x))
      ((slotsOf k).map fun x => (s.changeovers.get x).command))

/-! ### The period start (R61) -/

/-- What comes before the Mixer latches: expiries due, timers, trunks, calls, the show, and the voices that start. -/
def State.beforeLatch (s : State) : State :=
  let s := s.settleDue.stepTimers
  let s := s.forAll (allFin 4) State.trainTrunk
  let s := s.forAll (allFin 16) State.freeCleared
  let s := s.showStep
  s.forAll (allFin 8) State.startVoice

/-- What follows from the computed period: the channels' events, in rising channel number (log entry 36), re-reads, and
the programs that have faded. -/
def State.afterMix (gave : Tab 16 ChanEvent) (faded : List (Fin 64)) (s : State) : State :=
  let s := s.forAll (allFin 16) (State.channelEvent gave)
  let s := { s with channels := s.channels.map Channel.askAgain }
  s.forAll faded fun p s => if (s.programs.get p).state == .ending then s.endProgram p stStopped else s

/-- The mix period from the latch on: everything is computed from the state `s` as latched (R61). -/
def State.mixPeriod (audio : List (List Sample)) (s : State) : State :=
  let chans := s.channels.map Channel.give
  let voices := s.tones.voices.map Voice.give
  let x := s.sounds audio (chans.map Prod.fst) (voices.map Prod.fst)
  let mix := Tab.ofFn (s.mixOutlet x)
  let out := Tab.ofFn (s.outboundOf (mix.map Prod.snd))
  let s := { s with
    channels := chans.map fun g : List Int × Channel × ChanEvent => g.2.1
    tones := { s.tones with voices := voices.map Prod.snd }
    mixer := mix.map Prod.fst
    outbound := out }
  let s := s.beginWindow.ambientStep x
  s.afterMix (chans.map fun g : List Int × Channel × ChanEvent => g.2.2) ((allFin 64).filter s.faded)

/-- MIX_PERIOD_START (R61). -/
def execMixPeriodStart (audio : List (List Sample)) (s : State) : Host.Outcome State Fault Refusal :=
  .next (s.beforeLatch.mixPeriod audio).arbitrate

end Sys2Proof.Machine
end

