-- ==== Sys2Proof/Machine/Snapshots.lean ====
section
/-! DEFINITION. SNAPSHOT and its pieces (R16, R31, R32, R33, R167, section 1.9). -/

namespace Sys2Proof.Machine

/-- The number of entries of a snapshot table. -/
def snapSize (table : Nat) : Nat :=
  match table with
  | 0 => 256 | 1 => 64 | 2 => 64 | 3 => 4 | _ => 0

/-- SNAPSHOT, checked as R16 states. -/
def State.snapshotRecord (h : Hand) (s : State) : State :=
  let r := snapshotRec h.bytes
  if 3 < r.table || r.count < 1 || snapSize r.table < r.first + r.count || r.length < 32 * r.count then
    s.reply .setup h stBadField false []
  else
    ({ s with lists := { s.lists with
        snap := some
          { record := h.ref false, table := r.table, next := r.first, left := r.count, buffer := r.buffer, written := 0
            ready := false } } } : State).take .setup h false

/-! ### Entries (section 1.9) -/

/-- An outlet's entry (R31). -/
def State.outletEntry (s : State) (o : Fin 256) : List Byte :=
  let out := s.outlets.get o
  let m := s.mixer.get o
  let a := s.ambient.outlets.get o
  let x := s.loops.get o
  let holder := s.holder o
  bytes2 o.val ++ bytes1 out.kind.code ++ bytes1 out.area.val
    ++ bytes2 ((holder.map fun c => c.owner.code).getD 0xFFFF) ++ bytes1 ((holder.map (·.priority)).getD 0)
    ++ bytes1 (s.stack o).length ++ bytes2 m.gc ++ bytes2 m.uc ++ bytes2 a.factor ++ bytes1 x.state.code
    ++ bytes1 (changeoverCode (s.changeoverOf o)) ++ bytes4 a.level ++ bytes4 a.baseline ++ bytes2 m.clips
    ++ bytes2 a.gatedCount ++ bytes2 x.last ++ bytes2 x.baseline

/-- A station's entry (R32). -/
def State.stationEntry (s : State) (n : Fin 64) : List Byte :=
  let x := s.stations.get n
  bytes1 n.val ++ bytes1 x.state.code ++ bytes1 (if x.offHook then 1 else 0) ++ bytes1 (callCode x.call)
    ++ bytes2 ((x.binding.map fun b => b.1.val).getD 0xFFFF) ++ bytes2 ((x.binding.map fun b => b.2.val).getD 0xFFFF)
    ++ bytes2 (x.holdTimer.getD 0)

/-- A free value, and the state after it is drawn (log entry 16). -/
def State.drawFree (s : State) : Nat × State :=
  ((Config.freeValue s.freeCount).toNat, { s with freeCount := s.freeCount + 1 })

/-- The source kind and source number of a program's entry: section 1.9 names codes for an inlet, a stream and a show
bus; what it does not state is a free value (log entry 16). -/
def State.sourceCodes (src : Source) (s : State) : Nat × Nat × State :=
  match src with
  | .inlet i => (0, i.val, s)
  | .bus b => (2, b.val, s)
  | .stream => (1, s.drawFree.1, s.drawFree.2)
  | .silent | .pageMix _ | .alarmSound =>
    let k := s.drawFree
    (k.1, k.2.drawFree.1, k.2.drawFree.2)

/-- A program's entry; a FREE slot shows its number, the state, channel 0xFF and 0 elsewhere (R33). -/
def State.programEntry (s : State) (p : Fin 64) : List Byte × State :=
  let pr := s.programs.get p
  if pr.state == .free then
    (bytes1 p.val ++ List.replicate 11 0 ++ bytes1 0xFF ++ List.replicate 7 0, s)
  else
    let src := s.sourceCodes pr.source
    (bytes1 p.val ++ bytes1 pr.kind.code ++ bytes1 pr.state.code ++ bytes1 pr.priority ++ bytes4 pr.arrival
      ++ bytes2 pr.held ++ bytes2 pr.gain ++ bytes1 (((s.channelOf (.program p)).map (·.val)).getD 0xFF)
      ++ bytes1 src.1 ++ bytes2 src.2.1 ++ bytes4 ((pr.record.map (·.addr)).getD 0), src.2.2)

/-- A trunk's entry (R167). -/
def State.trunkEntry (s : State) (k : Fin 4) : List Byte :=
  let t := s.trunks.get k
  bytes1 k.val ++ bytes1 t.link.code ++ bytes1 t.served ++ bytes1 t.present ++ bytes1 t.abilities

/-- The bytes of an entry, and the state once the piece is written: an outlet's clip count is cleared (R31). -/
def State.pieceOf (table entry : Nat) (s : State) : List Byte × State :=
  match table with
  | 0 =>
    match toFin? 256 entry with
    | some o => (s.outletEntry o, { s with mixer := s.mixer.modify o fun m => { m with clips := 0 } })
    | none => ([], s)
  | 1 => (((toFin? 64 entry).map s.stationEntry).getD [], s)
  | 2 =>
    match toFin? 64 entry with
    | some p => s.programEntry p
    | none => ([], s)
  | _ => (((toFin? 4 entry).map s.trunkEntry).getD [], s)

/-- The snapshot goes on to its next piece, or is returned DONE with the bytes written (R16). It is served until its last
piece is written, and not until its return write is made (R14; log entry 40). -/
def State.snapNext (s : State) : State :=
  match s.lists.snap with
  | none => s
  | some x =>
    let x' := { x with next := x.next + 1, left := x.left - 1, written := x.written + 32 }
    if x'.left = 0 then
      ({ s with lists := { s.lists with snap := none } } : State).requestReturn .setup
        { record := x.record, status := marked stDone x.record.mark, results := [(24, bytes4 x'.written)] }
    else { s with lists := { s.lists with snap := some x' } }

/-- The piece in progress is written, with the values its entry holds then (R16, R31; log entry 9). A piece in progress
at a soft reset is written too, and the snapshot stops (R19). -/
def State.snapPiece (s : State) : State :=
  match s.port.grant with
  | some ⟨.snapPiece table entry addr, discard⟩ =>
    let p := s.pieceOf table entry
    let s := { p.2 with port := { grant := none, written := some { addr, pieces := [(0, p.1)] } } }
    (if discard then s else s.snapNext).arbitrate
  | _ => s

/-! ### Meanings -/

/-- SNAPSHOT (R16). -/
def execSnapshot (s : State) : Host.Outcome State Fault Refusal :=
  .next (s.handOver .setup 0x08 fun h _ s => s.snapshotRecord h)

/-- SNAPSHOT_PIECE (R16, R31). -/
def execSnapshotPiece (s : State) : Host.Outcome State Fault Refusal := .next s.snapPiece

end Sys2Proof.Machine
end

