-- ==== Sys2Proof/Machine/Streams.lean ====
section
/-! DEFINITION. The transfers of the playback channels as they complete (R96, R97, R107). -/

namespace Sys2Proof.Machine

def Transfer.isFragmentRead (c : Fin 16) (t : Transfer) : Bool :=
  match t with
  | .channel c' (.fragmentRead _) => c' == c
  | _ => false

def Transfer.isBurst (c : Fin 16) (t : Transfer) : Bool :=
  match t with
  | .channel c' (.burst _ _) => c' == c
  | _ => false

def Transfer.isWriteBack (c : Fin 16) (t : Transfer) : Bool :=
  match t with
  | .channel c' (.writeBack _) => c' == c
  | _ => false

def Transfer.isWalkRead (c : Fin 16) (t : Transfer) : Bool :=
  match t with
  | .channel c' (.walkRead _) => c' == c
  | _ => false

/-- The data of a channel's transfer reaches the channel. -/
def State.channelData (c : Fin 16) (d : List Byte) (t : Transfer) (s : State) : State :=
  match t with
  | .channel _ (.fragmentRead a) => s.fragmentArrives c a d
  | .channel _ (.burst _ n) => s.burstArrives c n d
  | .channel _ (.walkRead a) => s.walkArrives c a d
  | .channel _ (.writeBack _) => s.writeBackDone c
  | _ => s

/-- A completion for channel `c`. A discarded one has no effect but that an ENDED channel with nothing left becomes FREE
(R106, R107). -/
def State.channelCompletion (c : Fin 16) (mine : Transfer → Bool) (d : List Byte) (s : State) : State :=
  match s.port.grant with
  | some g =>
    if mine g.transfer then
      let s := s.endGrant g.transfer
      (if g.discard then s.freeIfDone c else s.channelData c d g.transfer).arbitrate
    else s
  | none => s

/-- FRAGMENT_READ (R96). -/
def execFragmentRead (c : Fin 16) (data : List Byte) (s : State) : Host.Outcome State Fault Refusal :=
  .next (s.channelCompletion c (Transfer.isFragmentRead c) data)

/-- FETCH_BURST (R97). -/
def execFetchBurst (c : Fin 16) (data : List Byte) (s : State) : Host.Outcome State Fault Refusal :=
  .next (s.channelCompletion c (Transfer.isBurst c) data)

/-- FRAGMENT_WRITE_BACK (R97, R107). -/
def execFragmentWriteBack (c : Fin 16) (s : State) : Host.Outcome State Fault Refusal :=
  .next (s.channelCompletion c (Transfer.isWriteBack c) [])

/-- RETURN_WALK_READ (R107). -/
def execReturnWalkRead (c : Fin 16) (data : List Byte) (s : State) : Host.Outcome State Fault Refusal :=
  .next (s.channelCompletion c (Transfer.isWalkRead c) data)

end Sys2Proof.Machine
end

