-- ==== Sys2Proof/Machine/Window.lean ====
section
/-! DEFINITION. The register window (R1), power-on (R19) and soft reset (R187), CMASK and CAUSE (R183). -/

namespace Sys2Proof.Machine

/-! ### Soft reset, block by block (R187) -/

/-- The grant in progress completes its transfer with no effect on the part (R19). -/
def Port.reset (p : Port) : Port :=
  { p with grant := p.grant.map fun g => { g with discard := true } }

/-- A station in RINGING or IN_CALL becomes IDLE with current call none; the rest is kept (R131). -/
def Station.reset (x : Station) : Station := if x.inUse then { x with state := .idle, call := none } else x

/-- The Mixer keeps only its clip counts (R63). -/
def MixEntry.reset (m : MixEntry) : MixEntry := { clips := m.clips }

/-- The Ambient Unit drops its captures and keeps the rest (R93). -/
def Ambient.reset (a : Ambient) : Ambient :=
  { a with outlets := a.outlets.map fun e => { e with capture := none } }

/-- Every voice is freed, and every pending copy applied (R134, R152). -/
def TonePool.reset (t : TonePool) : TonePool :=
  { patterns := t.patterns.map fun q => ({ q with owing := [] } : Pattern).settle }

/-- The table is QUIET and no kind has a phase; definitions and recent arrival numbers are kept (R140, R152). -/
def AlarmUnit.reset (a : AlarmUnit) : AlarmUnit :=
  { defs := a.defs, kinds := a.kinds.map fun k => { lastArrival := k.lastArrival } }

/-- The Show Controller keeps LIVE and its bindings (R166). -/
def Theatre.reset (t : Theatre) : Theatre := { live := t.live, bindings := t.bindings }

/-- The Supervision Unit drops its captures and keeps the rest (R172). -/
def Loop.reset (x : Loop) : Loop := { x with capture := none }

/-- Every block takes its soft-reset values (R1, R19, R20, R26, R28, R33, R60, R63, R93, R111, R131, R132, R152, R166,
R167, R172, R177, R181, R183, R184). -/
def State.softReset (s : State) : State :=
  { regs := { s.regs with run := false, cause := 0 }
    part := .halted
    lists := {}
    port := s.port.reset
    outlets := s.outlets
    inlets := s.inlets
    stations := s.stations.map Station.reset
    programs := Tab.replicate 64 {}
    claims := {}
    mixer := s.mixer.map MixEntry.reset
    ambient := s.ambient.reset
    channels := Tab.replicate 16 {}
    calls := Tab.replicate 16 {}
    tones := s.tones.reset
    alarms := s.alarms.reset
    contacts := Tab.replicate 4 {}
    theatre := s.theatre.reset
    trunks := s.trunks
    loops := s.loops.map Loop.reset
    changeovers := s.changeovers
    notes := {}
    beat := {}
    time := s.time
    outbound := s.outbound
    freeCount := s.freeCount
    pending := s.pending }

/-- Power is applied (R19): every block takes its power-on values. The model's own count of free values and queue of
commands go on (log entries 2, 23). -/
def State.powerOn (s : State) : State := { State.reset with freeCount := s.freeCount, pending := s.pending }

/-! ### Register writes (R1, R2, R3) -/

def State.setRoot (value : Word) (s : State) : State :=
  { s with regs := { s.regs with rootadr := value &&& 0xFFFFFFC0 } }

def State.setMask (value : Word) (s : State) : State :=
  { s with regs := { s.regs with cmask := value.setWidth 8 } }

/-- A write to CTRL: RESET first, then RUN (R2). -/
def State.ctrlWrite (value : Word) (s : State) : State :=
  if value.getLsbD 1 then s.softReset.arbitrate
  else if value.getLsbD 0 then s.runStart.arbitrate
  else s.runStop.arbitrate

/-- A write of a register by its offset. The rows of CTRL, NUDGE, BEAT and CMASK carry those writes; here they act alike
(log entry 17). A write to STAT, to CAUSE, or above 0x18 is ignored (R1). DESIGN CHOICE: so is one below 0x18 that names
no register (log entry 18). -/
def State.registerWrite (offset : Nat) (value : Word) (s : State) : State :=
  if offset = 0x00 then s.ctrlWrite value
  else if offset = 0x08 then s.setRoot value
  else if offset = 0x0C then (s.nudge value).arbitrate
  else if offset = 0x10 then s.beatWrite.arbitrate
  else if offset = 0x18 then s.setMask value
  else s

/-- A read of CAUSE: the bits are returned and cleared (R183). -/
def State.readCause (s : State) : State :=
  { s with regs := { s.regs with readData := s.regs.cause.setWidth 32, cause := 0 } }

/-! ### Meanings -/

/-- POWER_ON (R19). -/
def execPowerOn (s : State) : Host.Outcome State Fault Refusal := .next s.powerOn

/-- SOFT_RESET (R187). -/
def execSoftReset (s : State) : Host.Outcome State Fault Refusal := .next s.softReset.arbitrate

/-- REGISTER_WRITE (R1, R3). -/
def execRegisterWrite (offset : Nat) (value : Word) (s : State) : Host.Outcome State Fault Refusal :=
  .next (s.registerWrite offset value)

/-- CMASK_WRITE (R183). -/
def execCmaskWrite (value : Word) (s : State) : Host.Outcome State Fault Refusal := .next (s.setMask value)

/-- CAUSE_READ (R183). -/
def execCauseRead (s : State) : Host.Outcome State Fault Refusal := .next s.readCause

end Sys2Proof.Machine
end

