-- ==== Sys2Proof/Machine/Dispatch.lean ====
section
/-! DEFINITION. One arm per command: each a direct call of its meaning. -/

namespace Sys2Proof.Machine

/-- A command's effect on everything but the queue. -/
def exec (i : Instr) (s : State) : Host.Outcome State Fault Refusal :=
  match i with
  | .powerOn => Sys2Proof.Machine.execPowerOn s
  | .softReset => Sys2Proof.Machine.execSoftReset s
  | .runStart => Sys2Proof.Machine.execRunStart s
  | .runStop => Sys2Proof.Machine.execRunStop s
  | .registerWrite offset value => Sys2Proof.Machine.execRegisterWrite offset value s
  | .nudge value => Sys2Proof.Machine.execNudge value s
  | .beat value => Sys2Proof.Machine.execBeat value s
  | .cmaskWrite value => Sys2Proof.Machine.execCmaskWrite value s
  | .causeRead => Sys2Proof.Machine.execCauseRead s
  | .rootBlockRead data => Sys2Proof.Machine.execRootBlockRead data s
  | .scanTimerExpiry l => Sys2Proof.Machine.execScanTimerExpiry l s
  | .recordRead l data => Sys2Proof.Machine.execRecordRead l data s
  | .linkRead l link => Sys2Proof.Machine.execLinkRead l link s
  | .blockRead l data => Sys2Proof.Machine.execBlockRead l data s
  | .takenWrite l => Sys2Proof.Machine.execTakenWrite l s
  | .returnWrite l => Sys2Proof.Machine.execReturnWrite l s
  | .defineOutlet => Sys2Proof.Machine.execDefineOutlet s
  | .defineInlet => Sys2Proof.Machine.execDefineInlet s
  | .defineStation => Sys2Proof.Machine.execDefineStation s
  | .definePattern => Sys2Proof.Machine.execDefinePattern s
  | .defineAlarm => Sys2Proof.Machine.execDefineAlarm s
  | .calibrate => Sys2Proof.Machine.execCalibrate s
  | .releaseChangeover => Sys2Proof.Machine.execReleaseChangeover s
  | .snapshot => Sys2Proof.Machine.execSnapshot s
  | .snapshotPiece => Sys2Proof.Machine.execSnapshotPiece s
  | .startProgram => Sys2Proof.Machine.execStartProgram s
  | .stopProgram => Sys2Proof.Machine.execStopProgram s
  | .setProgramGain => Sys2Proof.Machine.execSetProgramGain s
  | .openCall => Sys2Proof.Machine.execOpenCall s
  | .addParty => Sys2Proof.Machine.execAddParty s
  | .dropParty => Sys2Proof.Machine.execDropParty s
  | .closeCall => Sys2Proof.Machine.execCloseCall s
  | .raiseAlarm => Sys2Proof.Machine.execRaiseAlarm s
  | .silenceAlarm => Sys2Proof.Machine.execSilenceAlarm s
  | .resetAlarm => Sys2Proof.Machine.execResetAlarm s
  | .cue => Sys2Proof.Machine.execCue s
  | .go => Sys2Proof.Machine.execGo s
  | .holdShow => Sys2Proof.Machine.execHoldShow s
  | .resumeShow => Sys2Proof.Machine.execResumeShow s
  | .clearShow => Sys2Proof.Machine.execClearShow s
  | .bindSource => Sys2Proof.Machine.execBindSource s
  | .noteSpace => Sys2Proof.Machine.execNoteSpace s
  | .noteWrite => Sys2Proof.Machine.execNoteWrite s
  | .mixPeriodStart audio => Sys2Proof.Machine.execMixPeriodStart audio s
  | .answerTimerExpiry k => Sys2Proof.Machine.execAnswerTimerExpiry k s
  | .abilityBlock k b => Sys2Proof.Machine.execAbilityBlock k b s
  | .syncHoldExpiry k => Sys2Proof.Machine.execSyncHoldExpiry k s
  | .inboundControlBlock k b => Sys2Proof.Machine.execInboundControlBlock k b s
  | .changeoverPendingExpiry x => Sys2Proof.Machine.execChangeoverPendingExpiry x s
  | .changeoverReleaseExpiry x => Sys2Proof.Machine.execChangeoverReleaseExpiry x s
  | .holdTimerExpiry n => Sys2Proof.Machine.execHoldTimerExpiry n s
  | .ringTimerExpiry c p => Sys2Proof.Machine.execRingTimerExpiry c p s
  | .gatherTimerExpiry p => Sys2Proof.Machine.execGatherTimerExpiry p s
  | .durationTimerExpiry p => Sys2Proof.Machine.execDurationTimerExpiry p s
  | .duckHoldExpiry o => Sys2Proof.Machine.execDuckHoldExpiry o s
  | .ambientWindowComplete => Sys2Proof.Machine.execAmbientWindowComplete s
  | .fragmentRead c data => Sys2Proof.Machine.execFragmentRead c data s
  | .fetchBurst c data => Sys2Proof.Machine.execFetchBurst c data s
  | .fragmentWriteBack c => Sys2Proof.Machine.execFragmentWriteBack c s
  | .returnWalkRead c data => Sys2Proof.Machine.execReturnWalkRead c data s
  | .toneSegmentEnd v => Sys2Proof.Machine.execToneSegmentEnd v s
  | .acceptedClosure line => Sys2Proof.Machine.execAcceptedClosure line s
  | .acceptedOpening line => Sys2Proof.Machine.execAcceptedOpening line s
  | .fadeComplete => Sys2Proof.Machine.execFadeComplete s
  | .followTimerExpiry => Sys2Proof.Machine.execFollowTimerExpiry s
  | .beatCounterExpiry => Sys2Proof.Machine.execBeatCounterExpiry s
  | .contactLineSample line closed => Sys2Proof.Machine.execContactLineSample line closed s

end Sys2Proof.Machine
end

