-- ==== Sys2Proof/Safety.lean ====
section
/-! DEFINITION. What claims about every reachable state rest on: the bounds that the spec states of the part's own
buffers, registers and counts, as one invariant. -/

namespace Sys2Proof.Machine

/-- The pending-note queue holds 0..32 notes and the lost count lies in 0..65,535 (R181). -/
def NoteUnit.bounded (n : NoteUnit) : Prop := n.queue.length ≤ 32 ∧ n.lost ≤ 65535

/-- The low six bits of ROOTADR read 0 (R3, section 1.9). -/
def Regs.aligned (r : Regs) : Prop := r.rootadr &&& 0x3F = 0

/-- An outlet holds at most 8 claims (R51). -/
def State.stacksBounded (s : State) : Prop := ∀ o, (s.stack o).length ≤ 8

/-- The clip counts lie in 0..65,535 (R75). -/
def State.clipsBounded (s : State) : Prop := ∀ o, (s.mixer.get o).clips ≤ 65535

/-- The gated-window counts lie in 0..65,535 (R85). -/
def Ambient.gatedBounded (a : Ambient) : Prop := ∀ o, (a.outlets.get o).gatedCount ≤ 65535

/-! ### Frames -/

/-- What a record of the PROGRAM, CALL, ALARM or CUE list never changes, whatever it sets in motion: the registers but
CAUSE, the part state, the List Engine's settings, the last write on the port, every table of settings, the Ambient
Unit, the trunks, loops and changeovers, the contacts, the alarm definitions, the clocks and the queue of commands. -/
structure Untouched (s t : State) : Prop where
  run : t.regs.run = s.regs.run
  rootadr : t.regs.rootadr = s.regs.rootadr
  cmask : t.regs.cmask = s.regs.cmask
  readData : t.regs.readData = s.regs.readData
  part : t.part = s.part
  root : t.lists.root = s.lists.root
  errors : t.lists.errors = s.lists.errors
  rootRead : t.lists.rootRead = s.lists.rootRead
  snap : t.lists.snap = s.lists.snap
  written : t.port.written = s.port.written
  outlets : t.outlets = s.outlets
  inlets : t.inlets = s.inlets
  ambient : t.ambient = s.ambient
  contacts : t.contacts = s.contacts
  trunks : t.trunks = s.trunks
  loops : t.loops = s.loops
  changeovers : t.changeovers = s.changeovers
  bindings : t.theatre.bindings = s.theatre.bindings
  defs : t.alarms.defs = s.alarms.defs
  beat : t.beat = s.beat
  time : t.time = s.time
  outbound : t.outbound = s.outbound
  freeCount : t.freeCount = s.freeCount
  pending : t.pending = s.pending

/-- Program `p` has ended with a status (R44): its slot is FREE with its reservation kept, it has no claim in any stack,
and while a grant holds the port its record's return waits with that status. -/
structure ProgramEnded (s t : State) (p : Fin 64) (code : Nat) : Prop extends Untouched s t where
  free : (t.programs.get p).state = .free
  reservation : (t.programs.get p).reservation = (s.programs.get p).reservation
  unclaimed : ∀ o, hasOwner (.program p) (t.stack o) = false
  returned : ∀ r, (s.programs.get p).record = some r → s.port.grant ≠ none →
    ∃ x : Return, x.record = r ∧ x.status = marked code r.mark ∧
      (x ∈ t.lists.returns.get ListId.program.idx ∨ ∃ h, (t.walker .program).stage = .returnWrite h x false)

/-- The alarm program of a kind has become FREE (R145): its kind has no phase and no alternation count, the voice it held
is released (R138) and in the owing set of its pattern no more (R134), and so is the channel it held (R106). -/
structure AlarmFreed (s t : State) (k : AlarmKind) : Prop where
  free : (t.programs.get k.slot).state = .free
  phase : (t.alarms.kinds.get k.idx).phase = .unset
  count : (t.alarms.kinds.get k.idx).count = 0
  voice : ∀ v, (s.tones.voices.get v).user = .alarm k → (∀ w, (s.tones.voices.get w).user = .alarm k → w = v) →
    (t.tones.voices.get v).user = .nobody ∧ (t.tones.voices.get v).mode = .silent ∧
      v ∉ (t.tones.patterns.get (s.tones.voices.get v).pattern).owing
  channel : ∀ c, s.channelOf (.program k.slot) = some c → (s.channels.get c).state ≠ .free →
    (s.channels.get c).state ≠ .ended →
      (t.channels.get c).owner = none ∧ (t.channels.get c).fifo = [] ∧
        ((t.channels.get c).state = .ended ∨ (t.channels.get c).state = .free)

/-! ### Acts on the area table -/

/-- An act that takes a kind's entries in `areas`, which are not in that state, to a state (R141 to R144): no other entry
changes; the floor of each of those areas is 10 where some kind is SILENCED and 0 elsewhere, and the other floors stand; the
notes queued before stand, and the last of those that the act adds is its ALARM_STATE note, or one note was lost at a full
queue; ALARM is set. `cause` is 0 for a record, 1 for a contact and 2 for a pattern end. -/
structure AlarmAct (s t : State) (k : AlarmKind) (next : AreaState) (areas : List (Fin 16)) (cause : Nat) : Prop
    extends Untouched s t where
  stations : t.stations = s.stations
  entries : ∀ k' a, t.areaState k' a = if k' = k ∧ a ∈ areas then next else s.areaState k' a
  floors : ∀ a, t.claims.floors.get a =
    if a ∉ areas then s.claims.floors.get a
    else if AlarmKind.all.any fun k' => t.areaState k' a == .silenced then 10 else 0
  noted : ∃ more, t.notes.queue = s.notes.queue ++ more ∧
    (more.getLast? = some
      { kind := .alarmState, subject := k.idx.val, time := s.time
        code := if next = .quiet then 0 else if next = .sounding then 1 else 2
        detail := (areas.map fun a => 2 ^ a.val).sum + 65536 * cause } ∨ (32 ≤ t.notes.queue.length ∧ 0 < t.notes.lost))
  flagged : t.causeHas .alarm = true

/-- A raise that makes a kind SOUNDING in `areas` (R141): one arrival number is issued where an area was QUIET (R35), and
the kind keeps its last one where none was; the kind's claims, with that number, stand at the audience outlets of those
areas that had room for them, and at no others than before. With an audience outlet in a SOUNDING area the kind's program
is not FREE and has that number; one that leaves FREE is PLAYING, and of a defined kind its phase is TONE and it has asked
for a voice and a channel; an undefined kind has no phase and asks for neither (R145). -/
structure AlarmRaised (s t : State) (k : AlarmKind) (areas : List (Fin 16)) (cause : Nat) : Prop
    extends AlarmAct s t k .sounding areas cause where
  issued : (∃ a ∈ areas, s.areaState k a = .quiet) →
    (t.alarms.kinds.get k.idx).lastArrival = s.issueArrival.1 ∧ t.claims.arrivals = s.issueArrival.1 + 1 ∧
      (s.claims.arrivals ≠ 4294967295 → (t.alarms.kinds.get k.idx).lastArrival = s.claims.arrivals)
  kept : (∀ a ∈ areas, s.areaState k a ≠ .quiet) →
    (t.alarms.kinds.get k.idx).lastArrival = (s.alarms.kinds.get k.idx).lastArrival ∧
      t.claims.arrivals = s.claims.arrivals
  others : (∀ a ∈ areas, s.areaState k a ≠ .quiet) ∨ s.claims.arrivals ≠ 4294967295 →
    ∀ k', k' ≠ k → t.alarms.kinds.get k'.idx = s.alarms.kinds.get k'.idx
  placed : ∀ o, k.audience (s.outlets.get o).kind = true → (s.outlets.get o).area ∈ areas →
    ((s.stack o).length < 8 ∨ ((s.stack o).length = 8 ∧
      ∃ last, (s.stack o).getLast? = some last ∧ last.priority < k.priority)) →
    hasOwner (.program k.slot) (t.stack o) = true
  claims : ∀ o, k.audience (s.outlets.get o).kind = true → (s.outlets.get o).area ∈ areas →
    hasOwner (.program k.slot) (s.stack o) = false → ∀ c ∈ t.stack o, c.owner = .program k.slot →
      c.arrival = (t.alarms.kinds.get k.idx).lastArrival ∧ c.priority = k.priority ∧ c.duckable = false ∧
        c.allowsUndertone = false
  elsewhere : ∀ o, k.audience (s.outlets.get o).kind = false ∨ (s.outlets.get o).area ∉ areas →
    hasOwner (.program k.slot) (t.stack o) = hasOwner (.program k.slot) (s.stack o)
  program : (∃ o, k.audience (s.outlets.get o).kind = true ∧ t.areaState k (s.outlets.get o).area = .sounding) →
    (t.programs.get k.slot).state ≠ .free ∧
    (t.programs.get k.slot).arrival = (t.alarms.kinds.get k.idx).lastArrival ∧
    ((s.programs.get k.slot).state = .free →
      (t.programs.get k.slot).state = .playing ∧ (t.programs.get k.slot).kind = .alarm ∧
      (t.programs.get k.slot).source = .alarmSound ∧ (t.programs.get k.slot).priority = k.priority ∧
      ∀ d, s.alarmDef k = some d →
        (t.alarms.kinds.get k.idx).phase = .tone ∧ (t.alarms.kinds.get k.idx).count = 0 ∧
        ((∃ v, ∀ k', (s.tones.voices.get v).user ≠ .alarm k') → ∃ v, (t.tones.voices.get v).user = .alarm k) ∧
        (∀ st, d.toneCycles ≠ 0 → d.stream = some st → s.part ≠ .fallback →
          (∃ c, (s.channels.get c).state = .free) → ∃ c, (t.channels.get c).owner = some (.program k.slot)))
  undefined : s.alarmDef k = none →
    (t.alarms.kinds.get k.idx).phase = (s.alarms.kinds.get k.idx).phase ∧
    (∀ v, (t.tones.voices.get v).user = .alarm k → (s.tones.voices.get v).user = .alarm k) ∧
    ∀ c, (t.channels.get c).owner = some (.program k.slot) → (s.channels.get c).owner = some (.program k.slot)

/-- An act that takes a kind out of SOUNDING in `areas`: a silence, a reset or a pattern's end (R142, R143, R148). Its
claims are gone from the outlets of those areas, and the stacks of all other outlets stand; no number is issued, and the
other kinds stand. With no target left the kind's program is FREE, and gives back what it held; with one left it goes on. -/
structure AlarmCleared (s t : State) (k : AlarmKind) (next : AreaState) (areas : List (Fin 16)) (cause : Nat) : Prop
    extends AlarmAct s t k next areas cause where
  unclaimed : ∀ o, (s.outlets.get o).area ∈ areas → hasOwner (.program k.slot) (t.stack o) = false
  elsewhere : ∀ o, (s.outlets.get o).area ∉ areas → t.stack o = s.stack o
  number : t.claims.arrivals = s.claims.arrivals ∧
    (t.alarms.kinds.get k.idx).lastArrival = (s.alarms.kinds.get k.idx).lastArrival ∧
    ∀ k', k' ≠ k → t.alarms.kinds.get k'.idx = s.alarms.kinds.get k'.idx
  freed : t.alarmTargets k = [] →
    (t.programs.get k.slot).state = .free ∧ ((s.programs.get k.slot).state ≠ .free → AlarmFreed s t k)
  standing : t.alarmTargets k ≠ [] → (s.programs.get k.slot).state ≠ .free →
    (t.programs.get k.slot).state ≠ .free ∧
      (t.alarms.kinds.get k.idx).phase = (s.alarms.kinds.get k.idx).phase

/-! ### A walk's ends -/

/-- A walk ends and leaves the list in `st`, but for a STOPPED list (R4) and for a walk of an earlier entry to RUNNING (log
entry 10), whose state stands. The walk's marks are dropped; with the walk-again mark set another walk begins at once, where
the part is RUNNING and the list is neither in ERROR nor STOPPED (R9). -/
def Walker.ended (part : PartState) (st : WalkerState) (w : Walker) : Walker :=
  let now := if w.state = .stopped ∨ w.stale = true then w.state else st
  { w with
    state := now, again := false, ending := false, stale := false
    stage :=
      if w.again = false ∨ part ≠ .running ∨ now = .error ∨ now = .stopped then .quiet
      else if now = .tail then .linkRead
      else .recordRead }

/-- A walk goes on in IDLE; a STOPPED list keeps its state (R4). -/
def Walker.goesOn (stage : Stage) (w : Walker) : Walker :=
  { w with state := if w.state = .stopped then .stopped else .idle, stage }

/-- A walk ends at a list fault: the list is in ERROR, with its error flag and LIST_ERROR set (R15); a list STOPPED
meanwhile keeps its state (log entry 11). -/
def State.walkFaulted (l : ListId) (t : State) : State :=
  (State.modWalker l (fun w =>
      { w with
        state := if w.state = .stopped then .stopped else .error
        scan := none, again := false, stage := .quiet, ending := false, stale := false })
    { t with lists := { t.lists with errors := t.lists.errors.set l.idx true } }).setCause .listError

/-! ### The show's two turns -/

/-- A cue's scene over the LIVE bank: an entry of 65,535 keeps the LIVE gain (R155). -/
def Cue.over (cue : Cue) (live : Bank) : Bank :=
  Tab.ofFn fun i => if cue.scene.getD i.val 65535 = 65535 then live.get i else cue.scene.getD i.val 65535

/-- The show as the start of a cue with a fade leaves it (R157). -/
def Theatre.begun (t : Theatre) (cue : Cue) : Theatre :=
  { t with next := some (cue.over t.live), state := .fading, len := cue.fade, pos := 0, follow := none, fresh := true }

/-- An AUTO head with delay 0, which a completion starts at once (R158). -/
def atOnce (queue : List Cue) : Prop := ∃ cue, queue.head? = some cue ∧ cue.auto = true ∧ cue.delay = 0

/-- The show as a completion to `bank` leaves it, with `rest` in the queue and no head that starts at once (R158). -/
def Theatre.completed (t : Theatre) (bank : Bank) (rest : List Cue) : Theatre :=
  { t with
      live := bank, next := none, pos := 0, len := 0, fresh := false, queue := rest
      state := match rest with
        | [] => .idle
        | cue :: _ => if cue.auto then .waiting else .ready
      follow := match rest with
        | [] => none
        | cue :: _ => if cue.auto then some cue.delay else none }

/-- A track action as R157's table has it performed: a source bound for playback gives up the channel it has and takes the
lowest FREE one with run given, or is refused with a note; a source bound otherwise is skipped with a note; a stopped source
gives up its channel. The stream's first address lies in the shared window. -/
def State.performed (s : State) (a : TrackAction) : State :=
  match a with
  | .stop x => s.releaseChannel (.source x)
  | .start x d =>
    if s.theatre.bindings.get x = .playback then
      let u := s.releaseChannel (.source x)
      match u.freeChannel with
      | some c => u.modChannel c fun _ =>
          { state := .priming, owner := some (.source x), run := true, desc := d
            passes := if d.repeats then d.count else 1, cur := .toRead d.first }
      | none => u.emitNote .showState 4 x.val 1
    else s.emitNote .showState 4 x.val 2

/-- The state after a cue's track actions, in their order (R157). -/
def State.tracked (s : State) (cue : Cue) : State := cue.tracks.foldl State.performed s

/-- The streams that a cue's track actions start have their first address in the shared window. -/
def State.opens (s : State) (cue : Cue) : Prop :=
  ∀ x d, TrackAction.start x d ∈ cue.tracks → s.inWindow d.first 32 32 = true

/-- A return waits in list `l`'s queue or is the walker's own (R17). -/
def State.returns (t : State) (l : ListId) (r : Return) : Prop :=
  r ∈ t.lists.returns.get l.idx ∨ ∃ h, (t.walker l).stage = .returnWrite h r false

/-- The last note made is this one, or it was lost at a full queue (R181). -/
def State.noted (t : State) (n : Note) : Prop :=
  t.notes.queue.getLast? = some n ∨ (32 ≤ t.notes.queue.length ∧ 0 < t.notes.lost)

/-- The last notes made are these, or one of them was lost at a full queue (R181). -/
def State.notedAll (t : State) (ns : List Note) : Prop :=
  (∃ older, t.notes.queue = older ++ ns) ∨ (32 ≤ t.notes.queue.length ∧ 0 < t.notes.lost)

/-! ### A period start with nothing due -/

/-- No timer but a scan or changeover timer stands at its end, no tone segment is over, no call is CLEARING and no stream
is in its last period. At the coming period start only the show, the ambient window, a scan or changeover timer, an ENDING
program and a channel that starves can then have an event. -/
structure State.Calm (s : State) : Prop where
  segments : ∀ v, (s.tones.voices.get v).mode = .sounding → (s.tones.voices.get v).left ≠ 0
  links : ∀ k, (s.trunks.get k).link = .up → (s.trunks.get k).sync ≠ some 0
  holds : ∀ n, (s.stations.get n).holdTimer ≠ some 0
  rings : ∀ c, ∀ q ∈ (s.calls.get c).parties, q.ringTimer ≠ some 0
  gathers : ∀ p, (s.programs.get p).gatherTimer ≠ some 0
  durations : ∀ p, (s.programs.get p).durationTimer ≠ some 0
  beat : s.beatRunning = true → s.beat.counter ≠ 0
  clearing : ∀ c, (s.calls.get c).state ≠ .clearing
  streams : ∀ c, (s.channels.get c).state = .draining → 48 < (s.channels.get c).fifo.length

/-! ### The invariant -/

/-- A claim fits its owner: a SHOW program's has a priority of at most 5 (R34), and a host or PAGE program that has one is
not FREE (R44). -/
def Claim.fits (programs : Tab 64 Program) (c : Claim) : Prop :=
  ∀ p, c.owner = .program p →
    ((programs.get p).kind = .theatre → c.priority ≤ 5) ∧ (p.val < 59 → (programs.get p).state ≠ .free)

/-- No claim that stands after a SHOW program's can displace the show: a SHOW program stands in a host slot at a priority of
at most 5 with a show hold threshold of at least 8 (R34, R37), every claim fits its owner, a stack is in order of priority
(R51), and no claim but its first holds, an alarm's apart (R52, R53). -/
structure Yielding (programs : Tab 64 Program) (stack : Tab 256 (List Claim)) : Prop where
  settings : ∀ p, (programs.get p).kind = .theatre →
    p.val < 59 ∧ (programs.get p).priority ≤ 5 ∧ 8 ≤ (programs.get p).holdThreshold
  owners : ∀ o, ∀ c ∈ stack.get o, c.fits programs
  order : ∀ o, (stack.get o).Pairwise fun c d => d.priority ≤ c.priority
  heads : ∀ o, ∀ c ∈ (stack.get o).tail, c.state = .holding → c.owner.isAlarm = true

def State.ShowsYield (s : State) : Prop := Yielding s.programs s.claims.stack

/-- What every step keeps. -/
structure State.Bounded (s : State) : Prop where
  notes : s.notes.bounded
  root : s.regs.aligned
  depths : s.stacksBounded
  clips : s.clipsBounded
  gated : s.ambient.gatedBounded
  shows : s.ShowsYield

end Sys2Proof.Machine
end

