-- ==== Sys2Proof/Certificates/Slice0/Obligations.lean ====
section
/-! DEFINITION. The statements for the provers. A record's statement speaks of the moment its walker hands it over: the
walker's stage is `.handOver h blocks`, with `h` the record in hand (log entry 4). Each conclusion `exec c s = .next …`
gives the whole next state: what it does not name is as it was, up to the grant that `arbitrate` makes
(`ArbitrationFrame`, log entry 7). -/

open Sys2Proof Sys2Proof.Machine

/-! ### The queue, reset, and what every step keeps -/

/-- A step takes the command at the front of the queue and is that command's effect on the state with the queue's rest;
on an empty queue the part idles (the model's queue, DESIGN CHOICE: log entry 2). -/
def Obligations.StepRunsFrontCommand : Prop :=
  (∀ (s : State) (c : Instr) (cs : List Instr), s.pending = c :: cs → step s = exec c { s with pending := cs }) ∧
  ∀ s : State, s.pending = [] → step s = .next s

/-- Every command answers a next state, since the spec answers an error with a status, a CAUSE bit or a note; and no
command changes the queue of commands.
The queue is the model's (log entry 2), and a command whose event is not due leaves the state as it is (log entry 3). -/
def Obligations.EveryCommandAnswers : Prop :=
  ∀ (c : Instr) (s : State), ∃ t, exec c s = .next t ∧ t.pending = s.pending

/-- The bounds of `State.Bounded` hold after power-on: no pending notes, ROOTADR at 0, empty stacks, clip and gated counts
of 0, and no SHOW program. -/
def Obligations.ResetBounded : Prop := State.reset.Bounded

/-- Every step keeps the bounds: at most 32 pending notes and 65,535 lost, an aligned root block address, at most 8
claims a stack, clip and gated-window counts of at most 65,535; and what lets the show yield to high claims alone
(`ShowsYield`): a SHOW program stands in a host slot at a priority of at most 5 with a show hold threshold of at least
8, no claim of a SHOW program is above 5, no FREE slot 0..58 owns a claim, every stack is in order of priority, and no
claim but the first of a stack holds, an alarm's apart. -/
def Obligations.StepKeepsBounded : Prop :=
  ∀ s t : State, s.Bounded → step s = .next t → t.Bounded

/-- Power-on values of the registers, the List Engine and its port, the outlet, inlet, station and program tables, the Mixer,
the Ambient Unit, the channels, calls, patterns, voices, alarms, contacts, the show, the trunks, loops and changeovers, and
the ms count (R1, R19, R20, R26, R28, R33, R63, R82, R94, R117, R132, R135, R139, R140, R149, R153, R167, R172, R177); and
POWER_ON brings the whole state after power-on about. The Claim Unit stands in `ClaimUnitReset`.
That an offset below 0x18 that names no register reads 0 (log entry 18), and that the model's own queue and count of free
values go on (log entries 2 and 23), are the model's choices. -/
def Obligations.PowerOnValues : Prop :=
  (∀ offset, State.reset.readRegister offset = 0) ∧ State.reset.part = .halted ∧ State.reset.intLine = false ∧
  (∀ l, (State.reset.walker l).state = .stopped ∧ (State.reset.walker l).cursor = 0 ∧
    (State.reset.walker l).again = false ∧ (State.reset.walker l).stage = .quiet) ∧
  State.reset.port.grant = none ∧ State.reset.lists.root = {} ∧
  (∀ o, State.reset.outlets.get o =
    { kind := .undefined, area := 0, trim := 4096, rampStep := 64, duckDepth := 1024, duckHold := 500
      overrideThreshold := 10, alarmFloor := 4096, compEnable := false, smoothing := 4, margin := 0, slope := 0, cap := 0
      senseInlet := none, loopLow := 0, loopHigh := 0, confirm := 3, autoChangeover := false }) ∧
  (∀ i, State.reset.inlets.get i = .undefined) ∧
  (∀ n, (State.reset.stations.get n).state = .undefined ∧ (State.reset.stations.get n).holdValue = 300) ∧
  (∀ p, (State.reset.programs.get p).state = .free) ∧
  (∀ o, State.reset.mixer.get o = { fg := none, gc := 0, ug := none, uc := 0, duck := none, clips := 0 }) ∧
  State.reset.ambient.window = 100 ∧
  (∀ o, (State.reset.ambient.outlets.get o).factor = 4096 ∧ (State.reset.ambient.outlets.get o).level = 0 ∧
    (State.reset.ambient.outlets.get o).baseline = 0) ∧
  (∀ c, (State.reset.channels.get c).state = .free) ∧ (∀ c, (State.reset.calls.get c).state = .free) ∧
  (∀ v, (State.reset.tones.voices.get v).user = .nobody) ∧ (∀ p, State.reset.patternDefined p = false) ∧
  (∀ k a, State.reset.areaState k a = .quiet) ∧ (∀ k, State.reset.alarmDef k = none) ∧
  (∀ line, (State.reset.contacts.get line).closed = false ∧ (State.reset.contacts.get line).count = 0) ∧
  State.reset.theatre.state = .idle ∧ (∀ i, State.reset.theatre.live.get i = 0) ∧
  (∀ x, State.reset.theatre.bindings.get x = .unbound) ∧
  (∀ k, (State.reset.trunks.get k).link = .down) ∧ (∀ o, (State.reset.loops.get o).state = .unserved) ∧
  (∀ x, (State.reset.changeovers.get x).state = .free) ∧ State.reset.time = 0 ∧
  ∀ s : State, exec .powerOn s = .next { State.reset with freeCount := s.freeCount, pending := s.pending }

/-- SOFT_RESET halts the part, empties the lists with their error flags, the programs with their reservations, the calls,
channels, voices, notes and the show's queue, makes every area QUIET with no alarm phase, applies every pending pattern
copy, and keeps the tables of settings, the trunks, the changeovers, LIVE, and the Ambient and Supervision Units but for
their captures.
A transfer in progress completes without effect on the part (log entry 8), and every item that a FREE program, call, channel
or voice or a stopped Beat Monitor does not hold stands at zero or none (log entry 24): the model's choices. -/
def Obligations.SoftReset : Prop :=
  ∀ s : State, ∃ t, exec .softReset s = .next t ∧
    t.regs = { s.regs with run := false, cause := 0 } ∧ t.part = .halted ∧
    (∀ l, t.walker l = {}) ∧ (∀ l : ListId, t.lists.errors.get l.idx = false) ∧
    (∀ l : ListId, t.lists.returns.get l.idx = []) ∧ t.lists.rootRead = none ∧ t.lists.snap = none ∧
    t.lists.root = {} ∧ t.port.grant = s.port.grant.map (fun g => { g with discard := true }) ∧
    (∀ p, t.programs.get p = {} ∧ (t.programs.get p).state = .free ∧ (t.programs.get p).reservation = none) ∧
    (∀ c, t.calls.get c = {} ∧ (t.calls.get c).state = .free) ∧
    (∀ c, t.channels.get c = {} ∧ (t.channels.get c).state = .free) ∧ (∀ v, t.tones.voices.get v = {}) ∧
    (∀ p, t.tones.patterns.get p = { stored := ((s.tones.patterns.get p).pendingCopy).or (s.tones.patterns.get p).stored }) ∧
    (∀ k a, t.areaState k a = .quiet) ∧ t.alarms.defs = s.alarms.defs ∧
    (∀ k : AlarmKind, t.alarms.kinds.get k.idx =
      { phase := .unset, count := 0, lastArrival := (s.alarms.kinds.get k.idx).lastArrival }) ∧
    t.ambient.window = s.ambient.window ∧ t.ambient.length = s.ambient.length ∧ t.ambient.position = s.ambient.position ∧
    (∀ o, t.ambient.outlets.get o = { s.ambient.outlets.get o with capture := none }) ∧ (∀ line, t.contacts.get line = {}) ∧
    t.notes = {} ∧ t.beat = {} ∧
    t.theatre = { live := s.theatre.live, bindings := s.theatre.bindings } ∧
    (∀ n, t.stations.get n =
      if (s.stations.get n).state = .ringing ∨ (s.stations.get n).state = .inCall then
        { s.stations.get n with state := .idle, call := none } else s.stations.get n) ∧
    (∀ o, t.mixer.get o = { clips := (s.mixer.get o).clips }) ∧
    (∀ o, t.loops.get o = { s.loops.get o with capture := none }) ∧
    t.outlets = s.outlets ∧ t.inlets = s.inlets ∧ t.trunks = s.trunks ∧ t.changeovers = s.changeovers ∧
    t.time = s.time ∧ t.pending = s.pending

/-- Rule R60: the Claim Unit after power-on and after a soft reset, with no report made and no holder anywhere. -/
def Obligations.ClaimUnitReset : Prop :=
  (∀ o, State.reset.stack o = []) ∧ (∀ a, State.reset.claims.floors.get a = 0) ∧
  (∀ o, State.reset.claims.lines.get o = false) ∧ State.reset.claims.arrivals = 0 ∧
  ∀ s : State, ∃ t, exec .softReset s = .next t ∧ t.claims = State.reset.claims ∧ t.notes.queue = [] ∧
    ∀ o, t.holder o = none ∧ t.undertone o = none

/-- Arbitration leaves a grant in progress; with the port idle it grants the request that stands first, which takes the
head note or the head return with it where it carries one, and it changes nothing else. The request that stands first is
an alarm channel's, by slot and number; else the first of the other classes in their order; among other channels it is
the one of highest owner priority and then of lowest number. A program's channel has its program's priority, a show
source's the highest priority of the SHOW programs that are not FREE, or 2 with none of them, and one in ENDED or with
no owner 0. That all requests of one step stand together before the grant is the model's reading, log entry 7. -/
def Obligations.ArbitrationFrame : Prop :=
  (∀ s : State, Untouched s s.arbitrate ∧ s.arbitrate.regs = s.regs ∧ s.arbitrate.stations = s.stations ∧
    s.arbitrate.programs = s.programs ∧ s.arbitrate.claims = s.claims ∧ s.arbitrate.mixer = s.mixer ∧
    s.arbitrate.calls = s.calls ∧ s.arbitrate.tones = s.tones ∧ s.arbitrate.alarms = s.alarms ∧
    s.arbitrate.theatre = s.theatre ∧ s.arbitrate.lists.walkers = s.lists.walkers ∧
    (∀ c, { s.arbitrate.channels.get c with reread := false } = { s.channels.get c with reread := false }) ∧
    (∀ g, s.port.grant = some g → s.arbitrate = s) ∧
    (s.port.grant = none → s.firstRequest = none → s.arbitrate = s) ∧
    ∀ x, s.port.grant = none → s.firstRequest = some x →
      s.arbitrate.port = { s.port with grant := some { transfer := x, discard := false } } ∧
      (∀ w, x = .noteWrite w → s.arbitrate.notes.queue = s.notes.queue.tail ∧ s.arbitrate.notes.lost = 0) ∧
      ((∀ w, x ≠ .noteWrite w) → s.arbitrate.notes = s.notes) ∧
      (∀ l w, x = .pendingReturn l w → s.arbitrate.lists.returns.get l.idx = (s.lists.returns.get l.idx).tail) ∧
      ((∀ l w, x ≠ .pendingReturn l w) → s.arbitrate.lists = s.lists)) ∧
  ∀ s : State,
    let alarmOf (c : Fin 16) (p : Fin 64) : Prop := 60 ≤ p.val ∧ (s.channels.get c).owner = some (.program p)
    let plain (c : Fin 16) : Prop := (s.channels.get c).ownedByAlarm = false ∧ s.channelRequest c ≠ none
    (∀ c p x, alarmOf c p → s.channelRequest c = some x →
      (∀ c' p', alarmOf c' p' → s.channelRequest c' ≠ none → p < p' ∨ (p = p' ∧ c ≤ c')) → s.firstRequest = some x) ∧
    ((∀ c p, alarmOf c p → s.channelRequest c = none) → s.firstRequest =
      ((s.walkerRequest .alarm).or <| (s.returnRequest .alarm).or <| s.rootRequest.or <| s.plainFetch.or <|
        (s.walkerRequest .call).or <| (s.returnRequest .call).or <| (s.walkerRequest .program).or <|
        (s.returnRequest .program).or <| (s.walkerRequest .cue).or <| (s.returnRequest .cue).or <|
        (s.walkerRequest .setup).or <| (s.returnRequest .setup).or <| (s.walkerRequest .note).or <|
        (s.returnRequest .note).or <| s.noteRequest.or s.snapRequest)) ∧
    (∀ c, plain c → (∀ c', plain c' →
        s.ownerPriority (s.channels.get c') < s.ownerPriority (s.channels.get c) ∨
        (s.ownerPriority (s.channels.get c') = s.ownerPriority (s.channels.get c) ∧ c ≤ c')) →
      s.plainFetch = s.channelRequest c) ∧
    ((∀ c, ¬ plain c) → s.plainFetch = none) ∧
    ∀ ch : Channel,
      let runs (p : Fin 64) : Prop := (s.programs.get p).kind = .theatre ∧ (s.programs.get p).state ≠ .free
      (ch.state = .ended ∨ ch.owner = none → s.ownerPriority ch = 0) ∧
      (ch.state ≠ .ended → (∀ p, ch.owner = some (.program p) → s.ownerPriority ch = (s.programs.get p).priority) ∧
        ∀ x, ch.owner = some (.source x) →
          ((∀ p, ¬ runs p) → s.ownerPriority ch = 2) ∧
          ∀ p, runs p → (∀ q, runs q → (s.programs.get q).priority ≤ (s.programs.get p).priority) →
            s.ownerPriority ch = (s.programs.get p).priority)

/-! ### The register window (chapter 1, chapter 11) -/

/-- The register window. A read of STAT shows part state, error flags, trunk UP flags, alarm flag and pending-note count; a
read of CTRL shows RUN in bit 0, of ROOTADR and of CMASK what each holds, of BEAT the counter, or 0 while the Beat Monitor
is stopped; an offset that names no register reads 0, and NUDGE reads 0. A write to ROOTADR keeps all but the six low bits,
a write to CMASK its eight bits; a write to STAT, to CAUSE or above 0x18 is ignored, and so is one at an offset below 0x18
that names no register. A REGISTER_WRITE to CTRL, NUDGE, BEAT or CMASK is that register's own command. A read of CAUSE
returns the bits and clears them; a set bit stands beside those already set; INT is asserted while some bit is 1 in both
CAUSE and CMASK. A ROOTADR write goes through REGISTER_WRITE, and the other registers' rows are met there too (log entry
17); the reads and writes of unnamed offsets below 0x18, and `readData` as what CAUSE_READ returned, are the model's choices
(log entry 18). -/
def Obligations.RegisterWindow : Prop :=
  (∀ s : State, s.notes.queue.length ≤ 32 →
    s.readRegister 0x04 = s.stat ∧ s.stat.toNat % 4 = s.part.code ∧
    (∀ l : ListId, s.stat.getLsbD (2 + l.idx.val) = s.lists.errors.get l.idx) ∧
    (∀ k : Fin 4, s.stat.getLsbD (8 + k.val) = ((s.trunks.get k).link == .up)) ∧
    s.stat.getLsbD 12 = s.alarmFlag ∧ (s.alarmFlag = true ↔ ∃ k a, s.areaState k a = .sounding) ∧
    s.stat.toNat / 8192 % 8 = 0 ∧ s.stat.toNat / 65536 = s.notes.queue.length) ∧
  (∀ s : State,
    let monitored : Prop := s.part = .running ∧ s.lists.root.beatWindow ≠ 0
    s.readRegister 0x00 = (if s.regs.run then 1 else 0) ∧ s.readRegister 0x08 = s.regs.rootadr ∧
    (monitored → s.readRegister 0x10 = BitVec.ofNat 32 s.beat.counter) ∧ (¬ monitored → s.readRegister 0x10 = 0) ∧
    s.readRegister 0x14 = s.regs.cause.setWidth 32 ∧ s.readRegister 0x18 = s.regs.cmask.setWidth 32) ∧
  (∀ (s : State) (offset : Nat), offset ∉ [0x00, 0x04, 0x08, 0x10, 0x14, 0x18] → s.readRegister offset = 0) ∧
  (∀ (s : State) (value : Word),
    exec (.registerWrite 0x08 value) s =
      .next { s with regs := { s.regs with rootadr := value &&& 0xFFFFFFC0#32 } } ∧
    exec (.cmaskWrite value) s = .next { s with regs := { s.regs with cmask := value.setWidth 8 } } ∧
    (∀ offset, offset = 0x04 ∨ offset = 0x14 ∨ 0x18 < offset → exec (.registerWrite offset value) s = .next s) ∧
    (∀ offset, offset < 0x18 → offset ∉ [0x00, 0x04, 0x08, 0x0C, 0x10, 0x14] →
      exec (.registerWrite offset value) s = .next s) ∧
    exec (.registerWrite 0x00 value) s =
      (if value.getLsbD 1 then exec .softReset s else if value.getLsbD 0 then exec .runStart s else exec .runStop s) ∧
    exec (.registerWrite 0x0C value) s = exec (.nudge value) s ∧
    exec (.registerWrite 0x10 value) s = exec (.beat value) s ∧
    exec (.registerWrite 0x18 value) s = exec (.cmaskWrite value) s) ∧
  ∀ s : State,
    exec .causeRead s = .next { s with regs := { s.regs with readData := s.regs.cause.setWidth 32, cause := 0 } } ∧
    (∀ b c : CauseBit, (s.setCause b).causeHas c = true ↔ c = b ∨ s.causeHas c = true) ∧
    (s.intLine = true ↔ ∃ i < 8, s.regs.cause.getLsbD i = true ∧ s.regs.cmask.getLsbD i = true)

/-- RUN_START and RUN_STOP by part state: entry to RUNNING begins in HALTED with a root block read requested at the address
in ROOTADR, or with an outstanding one's discard mark cleared; a stop marks an outstanding root block read, makes RUNNING
and FALLBACK HALTED with every list STOPPED, and leaving FALLBACK makes its note; elsewhere only RUN is written. With
nothing else waiting in its class or before, that read is granted at that address.
That the note of leaving FALLBACK may set NOTE_WAIT is the model's reading: log entry 44. -/
def Obligations.RunWrites : Prop :=
  (∀ s : State,
    let halted : State :=
      { s with
        regs := { s.regs with run := false }
        part := .halted
        beat := {}
        lists := { s.lists with walkers := s.lists.walkers.map fun w =>
          { w with state := .stopped, scan := none, again := false, ending := w.stage != .quiet } } }
    (s.part = .halted → s.lists.rootRead = none → exec .runStart s =
      .next (State.arbitrate
        { s with
          regs := { s.regs with run := true }
          lists := { s.lists with rootRead := some { addr := s.regs.rootadr.toNat, discard := false } } })) ∧
    (∀ r, s.part = .halted → s.lists.rootRead = some r → exec .runStart s =
      .next (State.arbitrate
        { s with
          regs := { s.regs with run := true }
          lists := { s.lists with rootRead := some { addr := r.addr, discard := false } } })) ∧
    (s.part ≠ .halted → exec .runStart s = .next (State.arbitrate { s with regs := { s.regs with run := true } })) ∧
    (s.part = .halted → exec .runStop s =
      .next (State.arbitrate
        { s with
          regs := { s.regs with run := false }
          lists := { s.lists with rootRead := s.lists.rootRead.map fun r => { r with discard := true } } })) ∧
    (s.part = .running → exec .runStop s = .next halted.arbitrate) ∧
    (s.part = .fallback → exec .runStop s = .next (halted.emitNote .fallback 0 0 1).arbitrate)) ∧
  ∀ (s : State) (r : RootRead), s.port.grant = none → s.lists.rootRead = some r →
    (∀ c, (s.channels.get c).ownedByAlarm = false) → s.walkerRequest .alarm = none → s.returnRequest .alarm = none →
      s.arbitrate.port.grant = some ⟨.rootRead r.addr, false⟩

/-- A walk request, by NUDGE of the lists whose bits are set or by an expiry of a scan timer: it starts a walk, with a link
read in TAIL and a record read in IDLE and STALLED; it marks a list that is walking; and it is ignored in ERROR, when
STOPPED, and out of RUNNING. An expiry also starts its timer again. MIX_PERIOD_START counts every scan timer down by 1 in
RUNNING, from the scan interval where its expiry still stands, and no scan timer out of RUNNING.
That an expiry waits for its command, or for the period start at the latest, and does nothing when not due (log entries 1
and 3), that the ms steps come at the mix period starts (log entry 14), and that the expiries come ahead of them (log entry
15), are the model's choices. -/
def Obligations.WalkRequests : Prop :=
  ∀ s : State,
    let asked (w : Walker) : Walker :=
      if s.part ≠ .running ∨ w.state = .error ∨ w.state = .stopped then w
      else if w.stage ≠ .quiet then { w with again := true }
      else if w.state = .tail then { w with stage := .linkRead }
      else { w with stage := .recordRead }
    (∀ value : Word, exec (.nudge value) s =
      .next (State.arbitrate { s with lists := { s.lists with
        walkers := Tab.ofFn fun i =>
          if value.getLsbD i.val then asked (s.lists.walkers.get i) else s.lists.walkers.get i } })) ∧
    ∀ l : ListId,
      let w := s.walker l
      (s.part = .running → w.scan = some 0 → exec (.scanTimerExpiry l) s =
        .next (s.modWalker l fun w => asked { w with scan := some s.lists.root.scan }).arbitrate) ∧
      (s.part ≠ .running ∨ w.scan ≠ some 0 → exec (.scanTimerExpiry l) s = .next s.arbitrate) ∧
      ∀ audio : List (List Sample), ∃ t, exec (.mixPeriodStart audio) s = .next t ∧
        (s.part ≠ .running → (t.walker l).scan = w.scan) ∧
        (s.part = .running → s.lists.root.beatWindow = 0 ∨ s.beat.counter ≠ 0 → w.state ≠ .error ∨ w.scan = none →
          (t.walker l).scan =
            if w.scan = some 0 then some (s.lists.root.scan - 1) else w.scan.map (· - 1))

/-- BEAT by part state, whatever value is written: the counter and sub-count are reloaded; in FALLBACK the part returns to
RUNNING, every list not in ERROR has its scan timer started and a walk requested at once, and the FALLBACK note is
made, which may set NOTE_WAIT: the model's reading, log entry 44. -/
def Obligations.BeatWrite : Prop :=
  ∀ (s : State) (value : Word),
    let loaded : Beat :=
      if s.lists.root.beatWindow = 0 then {} else { counter := s.lists.root.beatWindow, sub := 100 }
    let resumed (w : Walker) : Walker :=
      if w.state = .error then w
      else if w.state = .stopped then { w with scan := some s.lists.root.scan }
      else if w.stage ≠ .quiet then { w with scan := some s.lists.root.scan, again := true }
      else { w with scan := some s.lists.root.scan, stage := if w.state = .tail then .linkRead else .recordRead }
    (s.part = .halted → exec (.beat value) s = .next s.arbitrate) ∧
    (s.part = .running → s.lists.root.beatWindow = 0 → exec (.beat value) s = .next s.arbitrate) ∧
    (s.part = .running → s.lists.root.beatWindow ≠ 0 →
      exec (.beat value) s = .next (State.arbitrate { s with beat := loaded })) ∧
    (s.part = .fallback → exec (.beat value) s =
      .next (State.emitNote .fallback 0 0 0
        { s with part := .running, beat := loaded
                 lists := { s.lists with walkers := s.lists.walkers.map resumed } }).arbitrate)

/-! ### The work lists (chapter 1) -/

/-- ROOT_BLOCK_READ: a read marked for discard changes nothing; otherwise the part enters RUNNING with the copy of the
root block, each list with a good cursor is IDLE with its scan timer started and its walk requested at once, and every
other list is in ERROR with its flag, and LIST_ERROR in CAUSE. The walk requested is a record read; where a walk from
before the entry is still in progress it stands in the walk-again mark, and that walk is marked stale (log entry 10).
With the block's contact microphone flag set, MIC_CONTACT accepted CLOSED, slot 59 FREE and some CONTACT_MIC inlet,
program 59 starts at priority 11 and claims the outlets that hear it; otherwise no program and no claim changes. The
root block is the command's operand: log entry 5. -/
def Obligations.RootBlockRead : Prop :=
  ∀ (s : State) (d : List Byte) (a : Nat) (r : RootRead), s.port.grant = some ⟨.rootRead a, false⟩ →
    s.lists.rootRead = some r →
    (r.discard = true → exec (.rootBlockRead d) s =
      .next (State.arbitrate { s.endGrant (.rootRead a) with lists := { s.lists with rootRead := none } })) ∧
    (r.discard = false → ∃ t, exec (.rootBlockRead d) s = .next t ∧
      t.part = .running ∧ t.lists.root = rootCopy d ∧ t.lists.rootRead = none ∧
      t.beat = (if (rootCopy d).beatWindow = 0 then {} else { counter := (rootCopy d).beatWindow, sub := 100 }) ∧
      t.ambient = { s.ambient with window := (rootCopy d).ambientWindow } ∧
      (∀ l : ListId,
        let root := rootCopy d
        let a := rootCursor d l
        let good : Bool :=
          a != 0 && a % 64 == 0 && (root.base < root.limit && root.base ≤ a && a + 64 ≤ root.limit : Bool)
        (t.walker l).cursor = (if root.base < root.limit then a else (s.walker l).cursor) ∧
        (t.walker l).state = (if good then .idle else .error) ∧
        (t.walker l).scan = (if good then some root.scan else none) ∧
        t.lists.errors.get l.idx = !good ∧
        (good = false → t.causeHas .listError = true) ∧
        ((s.walker l).stage = .quiet → (t.walker l).stage = (if good then .recordRead else .quiet) ∧
          (t.walker l).again = false ∧ (t.walker l).stale = false) ∧
        ((s.walker l).stage ≠ .quiet → (t.walker l).stage = (s.walker l).stage ∧ (t.walker l).again = good ∧
          (t.walker l).stale = true) ∧
        (t.walker l).ending = false) ∧
      t.regs.rootadr = s.regs.rootadr ∧ t.outlets = s.outlets ∧ t.inlets = s.inlets ∧ t.trunks = s.trunks ∧
      t.loops = s.loops ∧ t.time = s.time ∧
      let opens : Prop := (rootCopy d).micEnabled = true ∧ (s.contacts.get 3).closed = true ∧
        (s.programs.get 59).state = .free ∧ ∃ i, s.inlets.get i = .contactMic
      (opens → (t.programs.get 59).state = .playing ∧ (t.programs.get 59).priority = 11 ∧
        (∃ i, s.inlets.get i = .contactMic ∧ (t.programs.get 59).source = .inlet i) ∧
        ∀ o, (s.outlets.get o).kind ∈ [.cabinLoop, .publicSpace, .crewArea, .theatre] →
          ((s.stack o).length < 8 ∨ ((s.stack o).length = 8 ∧
            ∃ last, (s.stack o).getLast? = some last ∧ last.priority < 11)) →
            hasOwner (.program 59) (t.stack o) = true) ∧
      (¬ opens → t.programs = s.programs ∧ t.claims = s.claims))

/-- RECORD_READ: a walk that is to end, or one of an earlier entry to RUNNING (log entry 10), ends with the list as it
stands. Of any other: the owner and status test, the kind test, the room test, the pointer test, and then the block
reads or the hand-over. A STOPPED list keeps its state, and a walk that ends with its walk-again mark set is followed at
once by another where the list still walks. There is no room for a CUE while 16 cues are queued, for a NOTE_SPACE while
one is held, for a SNAPSHOT while one is served, and for a CALIBRATE by capture while its outlet has a capture of its
target pending; every other record has room.
That a capture record whose outlet or target is out of range has room is the model's reading: log entry 32. -/
def Obligations.RecordRead : Prop :=
  (∀ (s : State) (h : Hand),
    let r := calibrateRec h.bytes
    (h.kind = 0x40 → (s.noRoom h = true ↔ 16 ≤ s.theatre.queue.length)) ∧
    (h.kind = 0x50 → (s.noRoom h = true ↔ s.notes.held ≠ none)) ∧
    (h.kind = 0x08 → (s.noRoom h = true ↔ s.lists.snap ≠ none)) ∧
    (∀ o : Fin 256, h.kind = 0x06 → r.method = 1 → r.outlet = o.val →
      (r.target = 0 → (s.noRoom h = true ↔ (s.ambient.outlets.get o).capture ≠ none)) ∧
      (r.target = 1 → (s.noRoom h = true ↔ (s.loops.get o).capture ≠ none))) ∧
    (h.kind = 0x06 → r.method ≠ 1 ∨ 256 ≤ r.outlet ∨ 1 < r.target → s.noRoom h = false) ∧
    (h.kind ∉ [0x40, 0x50, 0x08, 0x06] → s.noRoom h = false)) ∧
  ∀ (s : State) (l : ListId) (d : List Byte),
    let w := s.walker l
    let h : Hand := { addr := w.cursor, bytes := d }
    let base := s.endGrant (.recordRead l)
    s.port.grant = some ⟨.recordRead l, false⟩ →
      (w.ending = true ∨ w.stale = true → exec (.recordRead l d) s =
        .next (base.modWalker l (Walker.ended s.part w.state)).arbitrate) ∧
      (w.ending = false → w.stale = false → bitOf (byteAt d 0) 7 = false ∨ byteAt d 1 % 128 = 0x01 →
        exec (.recordRead l d) s = .next (base.modWalker l (Walker.ended s.part .idle)).arbitrate) ∧
      (w.ending = false → w.stale = false → bitOf (byteAt d 0) 7 = true → byteAt d 1 % 128 ≠ 0x01 →
        (h.kind ∉ kindsOf l → exec (.recordRead l d) s =
          .next (base.modWalker l (Walker.goesOn
            (.returnWrite h { record := h.ref false, status := 0x10, results := [] } false))).arbitrate) ∧
        (h.kind ∈ kindsOf l → s.noRoom h = true → exec (.recordRead l d) s =
          .next (base.modWalker l (Walker.ended s.part .stalled)).arbitrate) ∧
        (h.kind ∈ kindsOf l → s.noRoom h = false → (∃ p ∈ h.pointers, s.inWindow p.addr p.size 32 = false) →
          exec (.recordRead l d) s =
            .next (base.modWalker l (Walker.goesOn
              (.returnWrite h { record := h.ref false, status := 0x11, results := [] } true))).arbitrate) ∧
        (h.kind ∈ kindsOf l → s.noRoom h = false → (∀ p ∈ h.pointers, s.inWindow p.addr p.size 32 = true) →
          exec (.recordRead l d) s =
            .next (base.modWalker l (Walker.goesOn
              (if (h.pointers.filter (·.read)).isEmpty then .handOver h []
               else .blockRead h [] ((h.pointers.filter (·.read)).map fun p => (p.addr, p.size))))).arbitrate))

/-- LINK_READ: a walk that is to end, or one of an earlier entry to RUNNING (log entry 10), ends with the list as it
stands. Of any other, 0 ends the walk in TAIL; the record's own address, or one that fails the window test, is a link
fault, and the list is in ERROR; any other becomes the cursor and the walk goes on in IDLE. A STOPPED list keeps its
state, at a link fault too (log entry 11), and a walk that ends with its walk-again mark set is followed at once by
another where the list still walks. BLOCK_READ: the next block is asked for, and after the last one the record is handed
over. -/
def Obligations.LinkAndBlockReads : Prop :=
  (∀ (s : State) (l : ListId) (link : Word),
    let w := s.walker l
    let base := s.endGrant (.linkRead l)
    s.port.grant = some ⟨.linkRead l, false⟩ →
      (w.ending = true ∨ w.stale = true → exec (.linkRead l link) s =
        .next (base.modWalker l (Walker.ended s.part w.state)).arbitrate) ∧
      (w.ending = false → w.stale = false →
        (link = 0 → exec (.linkRead l link) s =
          .next (base.modWalker l (Walker.ended s.part .tail)).arbitrate) ∧
        (link ≠ 0 → (link.toNat = w.cursor ∨ s.inWindow link.toNat 64 64 = false) → exec (.linkRead l link) s =
          .next (base.walkFaulted l).arbitrate) ∧
        (link ≠ 0 → link.toNat ≠ w.cursor → s.inWindow link.toNat 64 64 = true → exec (.linkRead l link) s =
          .next (base.modWalker l fun w =>
            Walker.goesOn .recordRead { w with cursor := link.toNat }).arbitrate))) ∧
  ∀ (s : State) (l : ListId) (d : List Byte) (h : Hand) (got : List (List Byte)) (x : Nat × Nat) (left : List (Nat × Nat)),
    s.port.grant = some ⟨.blockRead l, false⟩ → (s.walker l).stage = .blockRead h got (x :: left) →
      exec (.blockRead l d) s = .next ((s.endGrant (.blockRead l)).setStage l
        (if left.isEmpty then .handOver h (got ++ [d]) else .blockRead h (got ++ [d]) left)).arbitrate

/-- TAKEN_WRITE and RETURN_WRITE of the record in the walker's hand, and what follows: a return sets RETURNED, or NOTE
on the NOTE list; a TAKEN write makes a held NOTE_SPACE record or the SNAPSHOT ready. Then the link is handled: 0 ends
the walk in TAIL; the record's own address, or one that fails the window test, is a link fault and the list is in ERROR;
any other becomes the cursor, where the walk goes on unless it is to end. The return of a bad pointer puts the list in
ERROR whatever its link. A STOPPED list keeps its state, at a list fault too (log entry 11); a walk of an earlier entry
to RUNNING ends without its link handled (log entry 10); and a walk that ends with its walk-again mark set is followed
at once by another where the list still walks. A pending return only sets its CAUSE bit. What is written: by a TAKEN
write the header's first word with owner PART, the kind and the tag as read and status TAKEN with the clamp mark; by a
return write of either sort the result fields and then, last, the header's first word with owner HOST, the kind and the
tag as read and the final status. The bytes of a completed write stand in `port.written`: the model's choice, log entry
5. -/
def Obligations.TakenAndReturnWrites : Prop :=
  (∀ (s : State) (l : ListId) (h : Hand),
    let header (owner kind status tag : Nat) : List Byte :=
      [BitVec.ofNat 8 (owner + kind), BitVec.ofNat 8 status, BitVec.ofNat 8 tag, BitVec.ofNat 8 (tag / 256)]
    let returned (r : Return) : PortWrite :=
      { addr := r.record.addr, pieces := r.results ++ [(0, header 0 r.record.kind r.status r.record.tag)] }
    (∀ m, h.ref m = { addr := h.addr, kind := byteAt h.bytes 0 % 128, tag := halfAt h.bytes 2, mark := m }) ∧
    (∀ m, (s.walker l).stage = .takenWrite h m → s.walkerRequest l = some (.takenWrite l
      { addr := h.addr
        pieces := [(0, header 128 (byteAt h.bytes 0 % 128) (if m then 0x81 else 0x01) (halfAt h.bytes 2))] })) ∧
    (∀ r bad, (s.walker l).stage = .returnWrite h r bad → s.walkerRequest l = some (.returnWrite l (returned r))) ∧
    (∀ r rest, s.lists.returns.get l.idx = r :: rest → s.returnRequest l = some (.pendingReturn l (returned r))) ∧
    ∀ (w : PortWrite) (discard : Bool),
      (s.port.grant = some ⟨.takenWrite l w, discard⟩ →
        ∃ t, exec (.takenWrite l) s = .next t ∧ t.port.written = some w) ∧
      (s.port.grant = some ⟨.returnWrite l w, discard⟩ ∨ s.port.grant = some ⟨.pendingReturn l w, discard⟩ →
        ∃ t, exec (.returnWrite l) s = .next t ∧ t.port.written = some w)) ∧
  ∀ (s : State) (l : ListId) (w : PortWrite) (h : Hand),
    let cause : CauseBit := if l = .note then .note else .returned
    let ended (st : WalkerState) (base : State) : State := base.modWalker l (Walker.ended s.part st)
    let fault (base : State) : State :=
      if (s.walker l).stale then ended (s.walker l).state base else base.walkFaulted l
    let linked (base : State) : State :=
      if (s.walker l).stale then ended (s.walker l).state base
      else if h.link = 0 then ended .tail base
      else if h.link = h.addr ∨ s.inWindow h.link 64 64 = false then base.walkFaulted l
      else if (s.walker l).ending then ended .idle (base.modWalker l fun x => { x with cursor := h.link })
      else base.modWalker l fun x => Walker.goesOn .recordRead { x with cursor := h.link }
    (s.port.grant = some ⟨.pendingReturn l w, false⟩ → exec (.returnWrite l) s =
      .next ((s.endGrant (.pendingReturn l w)).setCause cause).arbitrate) ∧
    (∀ r, s.port.grant = some ⟨.returnWrite l w, false⟩ → (s.walker l).stage = .returnWrite h r false →
      exec (.returnWrite l) s = .next (linked ((s.endGrant (.returnWrite l w)).setCause cause)).arbitrate) ∧
    (∀ r, s.port.grant = some ⟨.returnWrite l w, false⟩ → (s.walker l).stage = .returnWrite h r true →
      exec (.returnWrite l) s = .next (fault ((s.endGrant (.returnWrite l w)).setCause cause)).arbitrate) ∧
    (∀ m, s.port.grant = some ⟨.takenWrite l w, false⟩ → (s.walker l).stage = .takenWrite h m →
      let base := s.endGrant (.takenWrite l w)
      (l ≠ .note → l ≠ .setup → exec (.takenWrite l) s = .next (linked base).arbitrate) ∧
      (l = .note → exec (.takenWrite l) s = .next (linked { base with
        notes := { s.notes with held := s.notes.held.map fun x => (x.1, .ready) } }).arbitrate) ∧
      (l = .setup → exec (.takenWrite l) s = .next (linked { base with lists := { base.lists with
        snap := s.lists.snap.map fun x =>
          if x.record.addr = h.addr then { x with ready := true } else x } }).arbitrate))

/-! ### SETUP records: outlets, inlets, stations, snapshots (chapter 2) -/

/-- Rule R22: a DEFINE_OUTLET record that fails a structural check is refused BAD_FIELD and changes nothing. -/
def Obligations.DefineOutletStructure : Prop :=
  ∀ (s : State) (h : Hand) (b : List (List Byte)),
    let r := outletRec h.bytes
    (s.walker .setup).stage = .handOver h b → h.kind = 0x01 →
    (256 ≤ r.outlet ∨ 6 < r.kind ∨ 16 ≤ r.area ∨ (r.sense ≠ 0xFFFF ∧ 256 ≤ r.sense) ∨
      ∃ i : Fin 256, r.sense = i.val ∧ s.inlets.get i ≠ .senseMic) →
      exec .defineOutlet s = .next (s.reply .setup h 0x11 false []).arbitrate

/-- DEFINE_OUTLET of a record that passes the structural checks: IN_USE where a change of kind or area meets a claim in the
stack, a PENDING or ACTIVE changeover, or a station that would lose its STATION outlet; otherwise the entry takes the
record's values, each clamped to its range, and the record is returned DONE or ADJUSTED; with kind and area unchanged no
program, claim or alarm is touched. With either changed, every alarm kind SOUNDING in the new area whose audience has the new
kind, and a program 59 not FREE where the new kind hears it, has its claim there with its own last number, and no other
alarm kind has one. The Ambient Unit recomputes C; a sense inlet newly named makes a window in progress void, and one no
longer named clears the sum and marks and completes a capture with B at L. The Supervision Unit empties the streak at a
change of a delta or of N and sets the loop state again. The override line is that of the new entry under the outlet's holder.
That a window is in progress from its first period (log entry 34), and the order in which the change reaches the blocks (log entry 33), are the model's choices. -/
def Obligations.DefineOutlet : Prop :=
  ∀ (s : State) (h : Hand) (b : List (List Byte)) (o : Fin 256) (kind : OutletKind) (area : Fin 16)
    (sense : Option (Fin 256)),
    let r := outletRec h.bytes
    let old := s.outlets.get o
    let new : Outlet :=
      { kind, area, trim := r.trim, rampStep := min 4095 r.rampStep, duckDepth := min 4096 r.duckDepth
        duckHold := min 10000 r.duckHold, overrideThreshold := max 8 (min 15 r.overrideThreshold)
        alarmFloor := r.alarmFloor, compEnable := bitOf r.flags 0, smoothing := max 1 (min 16 r.smoothing)
        margin := min 8388607 r.margin, slope := r.slope, cap := min 4095 r.cap, senseInlet := sense
        loopLow := min 1023 r.loopLow, loopHigh := min 1023 r.loopHigh, confirm := max 1 (min 15 r.confirm)
        autoChangeover := bitOf r.flags 1 }
    let mark : Bool := decide (4095 < r.rampStep ∨ 4096 < r.duckDepth ∨ 10000 < r.duckHold ∨ r.overrideThreshold < 8 ∨
      15 < r.overrideThreshold ∨ r.smoothing < 1 ∨ 16 < r.smoothing ∨ 8388607 < r.margin ∨ 4095 < r.cap ∨
      1023 < r.loopLow ∨ 1023 < r.loopHigh ∨ r.confirm < 1 ∨ 15 < r.confirm)
    let inUse : Prop := s.stack o ≠ [] ∨
      (∃ x, ((s.changeovers.get x).state = .pending ∨ (s.changeovers.get x).state = .active) ∧
        ((s.changeovers.get x).faulted = o ∨ (s.changeovers.get x).spare = o)) ∨
      (kind ≠ .station ∧ ∃ n i, (s.stations.get n).binding = some (i, o))
    (s.walker .setup).stage = .handOver h b → h.kind = 0x01 → r.outlet = o.val → outletKindOf r.kind = some kind →
    r.area = area.val →
    ((r.sense = 0xFFFF ∧ sense = none) ∨ ∃ i : Fin 256, r.sense = i.val ∧ sense = some i ∧ s.inlets.get i = .senseMic) →
      ((kind ≠ old.kind ∨ area ≠ old.area) → inUse →
        exec .defineOutlet s = .next (s.reply .setup h 0x14 false []).arbitrate) ∧
      ((kind = old.kind ∧ area = old.area) ∨ ¬ inUse →
        ∃ t, exec .defineOutlet s = .next t ∧ t.outlets = s.outlets.set o new ∧
          (t.walker .setup).stage =
            .returnWrite h { record := h.ref mark, status := if mark then 0x82 else 0x02, results := [] } false ∧
          (kind = old.kind → area = old.area →
            (∀ q, q ≠ o → t.claims.lines.get q = s.claims.lines.get q) ∧
            t.programs = s.programs ∧ t.claims.stack = s.claims.stack ∧ t.alarms = s.alarms ∧ t.calls = s.calls) ∧
          ((kind ≠ old.kind ∨ area ≠ old.area) →
            let placed (p : Fin 64) (priority arrival : Nat) : Prop :=
              ∃ c ∈ t.stack o, c.owner = .program p ∧ c.priority = priority ∧ c.arrival = arrival
            let sounds (k : AlarmKind) : Prop := s.areaState k area = .sounding ∧
              (if k = .muster ∨ k = .fire then kind ≠ .undefined ∧ kind ≠ .spare else kind = .crewArea ∨ kind = .station)
            let hears : Prop := (s.programs.get 59).state ≠ .free ∧ kind ∈ [.cabinLoop, .publicSpace, .crewArea, .theatre]
            (∀ k, sounds k → placed k.slot k.priority (s.alarms.kinds.get k.idx).lastArrival ∧
              (t.programs.get k.slot).state ≠ .free) ∧
            (∀ k, ¬ sounds k → hasOwner (.program k.slot) (t.stack o) = false) ∧
            ((∀ c, (s.channels.get c).owner ≠ some (.program 59)) →
              (hears → placed 59 11 (s.programs.get 59).arrival) ∧
              (¬ hears → hasOwner (.program 59) (t.stack o) = false))) ∧
          (t.claims.lines.get o = true ↔
            kind = .cabinLoop ∧ ∃ c, t.holder o = some c ∧ new.overrideThreshold ≤ c.priority) ∧
          (let a := s.ambient.outlets.get o
           let e := t.ambient.outlets.get o
           t.ambient.window = s.ambient.window ∧ t.ambient.length = s.ambient.length ∧
           t.ambient.position = s.ambient.position ∧
           (∀ q, q ≠ o → t.ambient.outlets.get q = s.ambient.outlets.get q) ∧
           (sense = old.senseInlet → e = { a with factor := compensation new a.level a.baseline }) ∧
           (sense ≠ old.senseInlet → sense ≠ none → e = { a with
             factor := compensation new a.level a.baseline
             void := if s.ambient.position = 0 then a.void else true }) ∧
           (sense = none → old.senseInlet ≠ none →
             e = { a with
               sum := 0, gated := false, unheard := false, void := false, factor := 4096, capture := none
               baseline := if a.capture = none then a.baseline else a.level } ∧
             ∀ cap, a.capture = some cap → s.port.grant ≠ none → t.returns .setup
               { record := cap.record, status := marked 0x02 cap.record.mark, results := [(16, bytes4 a.level)] })) ∧
          (let x := s.loops.get o
           let k := s.trunks.get (trunkOf o)
           let served : Prop := k.link = .up ∧ (slotOf o).val < k.served
           let watched : Prop := kind ≠ .undefined ∧ kind ≠ .spare ∧ x.baselineSet = true ∧ k.supervision = true
           let state : LoopState :=
             if ¬ served then .unserved else if ¬ watched then .unsupervised
             else if x.state = .unserved ∨ x.state = .unsupervised then .normal else x.state
           let changed : Prop := new.loopLow ≠ old.loopLow ∨ new.loopHigh ≠ old.loopHigh ∨ new.confirm ≠ old.confirm
           t.loops.get o = { x with
             state, streak := if changed ∨ state ≠ x.state then none else x.streak
             ampFault := if state ≠ x.state ∧ (state = .unserved ∨ state = .unsupervised) then false else x.ampFault } ∧
           ∀ q, q ≠ o → t.loops.get q = s.loops.get q) ∧
          t.inlets = s.inlets ∧ t.stations = s.stations ∧ t.trunks = s.trunks ∧ t.changeovers = s.changeovers ∧
          t.contacts = s.contacts ∧ t.theatre.bindings = s.theatre.bindings ∧ t.time = s.time ∧
          t.regs.rootadr = s.regs.rootadr ∧ t.part = s.part)

/-- DEFINE_INLET: BAD_FIELD for an inlet or a kind out of range, DONE for the present kind, IN_USE where a program, a show
source, an outlet's sense inlet or a station names the inlet, or another inlet is CONTACT_MIC already; otherwise the entry
takes the new kind. -/
def Obligations.DefineInlet : Prop :=
  ∀ (s : State) (h : Hand) (b : List (List Byte)),
    let n := halfAt h.bytes 8
    let k := byteAt h.bytes 10
    (s.walker .setup).stage = .handOver h b → h.kind = 0x02 →
      (256 ≤ n ∨ 5 < k → exec .defineInlet s = .next (s.reply .setup h 0x11 false []).arbitrate) ∧
      ∀ (i : Fin 256) (kind : InletKind), n = i.val → inletKindOf k = some kind →
        let inUse : Prop := (∃ p, (s.programs.get p).state ≠ .free ∧ (s.programs.get p).source = .inlet i) ∨
          (∃ x, s.theatre.bindings.get x = .line i) ∨ (∃ o, (s.outlets.get o).senseInlet = some i) ∨
          (∃ n o, (s.stations.get n).binding = some (i, o)) ∨
          (kind = .contactMic ∧ ∃ j, j ≠ i ∧ s.inlets.get j = .contactMic)
        (s.inlets.get i = kind → exec .defineInlet s = .next (s.reply .setup h 0x02 false []).arbitrate) ∧
        (s.inlets.get i ≠ kind → inUse →
          exec .defineInlet s = .next (s.reply .setup h 0x14 false []).arbitrate) ∧
        (s.inlets.get i ≠ kind → ¬ inUse → exec .defineInlet s =
          .next (State.reply .setup h 0x02 false [] { s with inlets := s.inlets.set i kind }).arbitrate)

/-- DEFINE_STATION: a station number of 64 or above is refused. Else, by the station's state: binding makes an UNDEFINED
station LOST, reloads an IDLE station's hold timer, and in a call only replaces the hold value; undefining empties the
entry; a station in a call is neither undefined nor bound anew; an inlet and an outlet on different trunks, of the wrong
kind, or bound to another station, are refused. Undefining keeps the hold value (log entry 29), and binding a LOST
station sets its hook ON (log entry 35): the model's readings. -/
def Obligations.DefineStation : Prop :=
  (∀ (s : State) (h : Hand) (b : List (List Byte)), (s.walker .setup).stage = .handOver h b → h.kind = 0x03 →
    64 ≤ (stationRec h.bytes).station → exec .defineStation s = .next (s.reply .setup h 0x11 false []).arbitrate) ∧
  ∀ (s : State) (h : Hand) (b : List (List Byte)) (n : Fin 64),
    let r := stationRec h.bytes
    let x := s.stations.get n
    let hold := max 50 (min 2000 r.hold)
    let mark : Bool := decide (r.hold < 50 ∨ 2000 < r.hold)
    (s.walker .setup).stage = .handOver h b → h.kind = 0x03 → r.station = n.val →
      (r.inlet = 0xFFFF →
        (x.state = .ringing ∨ x.state = .inCall →
          exec .defineStation s = .next (s.reply .setup h 0x14 false []).arbitrate) ∧
        (x.state = .undefined → exec .defineStation s = .next (s.reply .setup h 0x02 mark []).arbitrate) ∧
        (x.state = .idle ∨ x.state = .lost → exec .defineStation s =
          .next ((s.modStation n fun x => { x with
            binding := none, state := .undefined, offHook := false, holdTimer := none }).reply .setup h 0x02 mark
              []).arbitrate)) ∧
      (r.inlet ≠ 0xFFFF → 256 ≤ r.inlet ∨ 256 ≤ r.outlet →
        exec .defineStation s = .next (s.reply .setup h 0x11 false []).arbitrate) ∧
      ∀ i o : Fin 256, r.inlet = i.val → r.outlet = o.val →
        let elsewhere : Prop := ∃ m j q, m ≠ n ∧ (s.stations.get m).binding = some (j, q) ∧ (j = i ∨ q = o)
        (s.inlets.get i ≠ .stationMic ∨ (s.outlets.get o).kind ≠ .station ∨ trunkOf i ≠ trunkOf o →
          exec .defineStation s = .next (s.reply .setup h 0x11 false []).arbitrate) ∧
        (s.inlets.get i = .stationMic → (s.outlets.get o).kind = .station → trunkOf i = trunkOf o →
          (elsewhere ∨ ((x.state = .ringing ∨ x.state = .inCall) ∧ x.binding ≠ some (i, o)) →
            exec .defineStation s = .next (s.reply .setup h 0x14 false []).arbitrate) ∧
          (¬ elsewhere → x.state = .undefined → exec .defineStation s =
            .next ((s.modStation n fun _ =>
              { binding := some (i, o), holdValue := hold, state := .lost, offHook := false, holdTimer := none
                call := none }).reply .setup h 0x02 mark []).arbitrate) ∧
          (¬ elsewhere → x.state = .idle → exec .defineStation s =
            .next ((s.modStation n fun x => { x with
              binding := some (i, o), holdValue := hold, holdTimer := some hold }).reply .setup h 0x02 mark
                []).arbitrate) ∧
          (¬ elsewhere → x.state = .lost → exec .defineStation s =
            .next ((s.modStation n fun x => { x with
              binding := some (i, o), holdValue := hold, offHook := false, holdTimer := none }).reply .setup h 0x02 mark
                []).arbitrate) ∧
          (¬ elsewhere → (x.state = .ringing ∨ x.state = .inCall) → x.binding = some (i, o) → exec .defineStation s =
            .next ((s.modStation n fun x => { x with holdValue := hold }).reply .setup h 0x02 mark []).arbitrate))

/-- SNAPSHOT: a table, range or length that does not fit is refused BAD_FIELD; otherwise the record is taken and its first
piece waits for the TAKEN write. -/
def Obligations.Snapshot : Prop :=
  ∀ (s : State) (h : Hand) (b : List (List Byte)),
    let r := snapshotRec h.bytes
    let size : Nat := if r.table = 0 then 256 else if r.table = 3 then 4 else 64
    let fits := r.table ≤ 3 ∧ 1 ≤ r.count ∧ r.first + r.count ≤ size ∧ 32 * r.count ≤ r.length
    (s.walker .setup).stage = .handOver h b → h.kind = 0x08 →
      (¬ fits → exec .snapshot s = .next (s.reply .setup h 0x11 false []).arbitrate) ∧
      (fits → exec .snapshot s =
        .next (State.take .setup h false { s with lists := { s.lists with
          snap := some
            { record := h.ref false, table := r.table, next := r.first, left := r.count, buffer := r.buffer
              written := 0, ready := false } } }).arbitrate)

/-- SNAPSHOT_PIECE: the entry of an outlet, a station, a program or a trunk is written at the buffer, in the layout and with
the codes of section 1.9; an outlet's clip count is cleared; and the snapshot goes on to its next entry, or after the last
is returned DONE with the bytes written.
The piece holds the values at its completion and stands in `port.written` (log entries 5 and 9); the source codes that
section 1.9 does not state are free values, counted by `freeCount` (log entry 16); and the SNAPSHOT is served until its last
piece is written (log entry 40): the model's choices. -/
def Obligations.SnapshotPiece : Prop :=
  (∀ (s : State) (table entry addr : Nat), s.port.grant = some ⟨.snapPiece table entry addr, false⟩ →
    let wrote (e : List Byte) (u : State) : State :=
      { u with port := { grant := none, written := some { addr, pieces := [(0, e)] } } }
    let goOn (u : State) : State :=
      match s.lists.snap with
      | none => u
      | some x =>
        if x.left ≤ 1 then
          State.requestReturn .setup
            { record := x.record, status := marked 0x02 x.record.mark, results := [(24, bytes4 (x.written + 32))] }
            { u with lists := { u.lists with snap := none } }
        else
          { u with lists := { u.lists with
            snap := some { x with next := x.next + 1, left := x.left - 1, written := x.written + 32 } } }
    (∀ o : Fin 256, table = 0 → entry = o.val → exec .snapshotPiece s = .next (goOn (wrote (s.outletEntry o)
      { s with mixer := s.mixer.modify o fun m => { m with clips := 0 } })).arbitrate) ∧
    (∀ n : Fin 64, table = 1 → entry = n.val →
      exec .snapshotPiece s = .next (goOn (wrote (s.stationEntry n) s)).arbitrate) ∧
    (∀ p : Fin 64, table = 2 → entry = p.val → exec .snapshotPiece s =
      .next (goOn (wrote (s.programEntry p).1 { s with freeCount := (s.programEntry p).2.freeCount })).arbitrate) ∧
    (∀ k : Fin 4, table = 3 → entry = k.val →
      exec .snapshotPiece s = .next (goOn (wrote (s.trunkEntry k) s)).arbitrate)) ∧
  (∀ (s : State) (o : Fin 256),
    let e := s.outletEntry o
    let m := s.mixer.get o
    let a := s.ambient.outlets.get o
    let x := s.loops.get o
    e.length = 32 ∧ halfAt e 0 = o.val ∧ byteAt e 2 = (s.outlets.get o).kind.code ∧ byteAt e 3 = (s.outlets.get o).area.val ∧
    (∀ c, s.holder o = some c → byteAt e 6 = c.priority % 256 ∧ (∀ p, c.owner = .program p → halfAt e 4 = p.val) ∧
      ∀ k i, c.owner = .party k i → halfAt e 4 = 0x100 + 8 * k.val + i.val) ∧
    (s.holder o = none → halfAt e 4 = 0xFFFF ∧ byteAt e 6 = 0) ∧ byteAt e 7 = (s.stack o).length % 256 ∧
    halfAt e 8 = m.gc % 65536 ∧ halfAt e 10 = m.uc % 65536 ∧ halfAt e 12 = a.factor % 65536 ∧
    byteAt e 14 = x.state.code ∧ byteAt e 15 = (match s.changeoverOf o with | some y => y.val | none => 0xFF) ∧
    wordAt e 16 = a.level % 4294967296 ∧ wordAt e 20 = a.baseline % 4294967296 ∧ halfAt e 24 = m.clips % 65536 ∧
    halfAt e 26 = a.gatedCount % 65536 ∧ halfAt e 28 = x.last % 65536 ∧ halfAt e 30 = x.baseline % 65536) ∧
  (∀ (s : State) (n : Fin 64),
    let e := s.stationEntry n
    let x := s.stations.get n
    byteAt e 0 = n.val ∧ byteAt e 1 = x.state.code ∧ byteAt e 2 = (if x.offHook then 1 else 0) ∧
    byteAt e 3 = (match x.call with | some c => c.val | none => 0xFF) ∧
    (∀ i o, x.binding = some (i, o) → halfAt e 4 = i.val ∧ halfAt e 6 = o.val) ∧
    (x.binding = none → halfAt e 4 = 0xFFFF ∧ halfAt e 6 = 0xFFFF) ∧ halfAt e 8 = x.holdTimer.getD 0 % 65536) ∧
  (∀ (s : State) (p : Fin 64),
    let e := (s.programEntry p).1
    let pr := s.programs.get p
    (pr.state = .free → e = [BitVec.ofNat 8 p.val, 0, 0, 0, 0, 0, 0, 0, 0, 0, 0, 0, 0xFF, 0, 0, 0, 0, 0, 0, 0] ∧
      (s.programEntry p).2 = s) ∧
    (pr.state ≠ .free → byteAt e 0 = p.val ∧ byteAt e 1 = pr.kind.code ∧ byteAt e 2 = pr.state.code ∧
      byteAt e 3 = pr.priority % 256 ∧ wordAt e 4 = pr.arrival % 4294967296 ∧ halfAt e 8 = pr.held % 65536 ∧
      halfAt e 10 = pr.gain % 65536 ∧
      byteAt e 12 = (match s.channelOf (.program p) with | some c => c.val | none => 0xFF) ∧
      wordAt e 16 = (match pr.record with | some r => r.addr % 4294967296 | none => 0) ∧
      (∀ i, pr.source = .inlet i → byteAt e 13 = 0 ∧ halfAt e 14 = i.val ∧ (s.programEntry p).2 = s) ∧
      (∀ k, pr.source = .bus k → byteAt e 13 = 2 ∧ halfAt e 14 = k.val ∧ (s.programEntry p).2 = s) ∧
      (pr.source = .stream → byteAt e 13 = 1))) ∧
  (∀ (s : State) (k : Fin 4),
    let e := s.trunkEntry k
    let t := s.trunks.get k
    byteAt e 0 = k.val ∧ byteAt e 1 = t.link.code ∧ byteAt e 2 = t.served % 256 ∧ byteAt e 3 = t.present % 256 ∧
    byteAt e 4 = (if t.overrideLines then 1 else 0) + (if t.supervision then 2 else 0) + (if t.changeover then 4 else 0)) ∧
  [OutletKind.undefined, .cabinLoop, .publicSpace, .crewArea, .theatre, .station, .spare].map OutletKind.code =
    [0, 1, 2, 3, 4, 5, 6] ∧
  [LoopState.unsupervised, .normal, .suspect, .faultOpen, .faultShort, .unserved].map LoopState.code = [0, 1, 2, 3, 4, 5] ∧
  [StationState.idle, .ringing, .inCall, .lost, .undefined].map StationState.code = [0, 1, 2, 3, 4] ∧
  [ProgKind.announce, .background, .theatre, .page, .alarm, .contactMic].map ProgKind.code = [0, 1, 2, 3, 4, 5] ∧
  [ProgState.free, .gathering, .chiming, .playing, .held, .ending].map ProgState.code = [0, 1, 2, 3, 4, 5] ∧
  [LinkState.down, .training, .up].map LinkState.code = [0, 1, 2]

/-! ### SETUP records: patterns, alarms, calibration, changeover (chapters 5, 8, 10) -/

/-- DEFINE_PATTERN: BAD_FIELD where a check of the record fails; otherwise the clamped definition is stored, or becomes the
pending copy while voices are in a cycle of the pattern, which then owe a cycle end to it. -/
def Obligations.DefinePattern : Prop :=
  ∀ (s : State) (h : Hand) (block : List Byte),
    let r := patternRec h.bytes
    let raw := rawSegments block r.segments
    let clamp (g : RawSegment) : Segment :=
      { duration := clampNat g.duration 1 1000, freq := if g.freq = 0 then 0 else clampNat g.freq 200 4000
        level := g.level }
    let mark : Bool := raw.any fun g =>
      g.duration == 0 || decide (1000 < g.duration) || decide (0 < g.freq ∧ g.freq < 200) || decide (4000 < g.freq)
    let d : PatternDef :=
      { segments := raw.map clamp, cycles := r.cycles, next := if r.action = 1 then toFin? 12 r.next else none }
    (s.walker .setup).stage = .handOver h [block] → h.kind = 0x04 →
      (12 ≤ r.pattern ∨ r.segments < 1 ∨ 16 < r.segments ∨ 1 < r.action ∨ (r.action = 1 ∧ 12 ≤ r.next) →
        exec .definePattern s = .next (s.reply .setup h 0x11 false []).arbitrate) ∧
      ∀ p : Fin 12, r.pattern = p.val → 1 ≤ r.segments → r.segments ≤ 16 → r.action ≤ 1 →
        (r.action = 1 → r.next < 12) →
          let q := s.tones.patterns.get p
          let after : Pattern :=
            if q.pendingCopy.isSome then { q with pendingCopy := some d }
            else if s.voicesInCycle p = [] then { q with stored := some d }
            else { q with pendingCopy := some d, owing := s.voicesInCycle p }
          exec .definePattern s =
            .next (State.reply .setup h 0x02 mark [] (s.modPattern p fun _ => after)).arbitrate

/-- DEFINE_ALARM: BAD_FIELD for an undefined pattern or a bad voice stream, IN_USE while the kind's program is not FREE,
and otherwise the definition takes the record's values with the prime level settled to a multiple of 256 in 256..4096.
That the prime level of an unused descriptor sets no clamp mark is the model's reading: log entry 42. -/
def Obligations.DefineAlarm : Prop :=
  (∀ (s : State) (h : Hand) (b : List (List Byte)),
    let r := alarmRec h.bytes
    (s.walker .setup).stage = .handOver h b → h.kind = 0x05 →
      (4 ≤ r.kind ∨ 12 ≤ r.pattern ∨ (∃ p : Fin 12, r.pattern = p.val ∧ (s.tones.patterns.get p).stored = none) ∨
        (r.voice = true ∧ (1 < r.desc.format ∨ 1 < r.desc.order ∨ 1 < r.desc.mode ∨
          s.inWindow r.desc.first 32 32 = false)) →
        exec .defineAlarm s = .next (s.reply .setup h 0x11 false []).arbitrate) ∧
      ∀ (k : AlarmKind) (p : Fin 12), r.kind = k.idx.val → r.pattern = p.val →
        (s.tones.patterns.get p).stored ≠ none →
        (r.voice = true → r.desc.format ≤ 1 ∧ r.desc.order ≤ 1 ∧ r.desc.mode ≤ 1 ∧
          s.inWindow r.desc.first 32 32 = true) →
          ((s.programs.get k.slot).state ≠ .free →
            exec .defineAlarm s = .next (s.reply .setup h 0x14 false []).arbitrate) ∧
          ((s.programs.get k.slot).state = .free → exec .defineAlarm s =
            .next (State.reply .setup h 0x02 (r.voice && (settlePrime r.desc.prime).2) []
              { s with alarms := { s.alarms with
                  defs := s.alarms.defs.set k.idx
                    (some { pattern := p, toneCycles := r.toneCycles
                            stream := if r.voice then
                                some { first := r.desc.first, pcm24 := r.desc.format == 1, swapped := r.desc.order == 1
                                       repeats := r.desc.mode == 1, count := r.desc.count
                                       prime := (settlePrime r.desc.prime).1 }
                              else none }) } }).arbitrate)) ∧
  ∀ n : Nat, 256 ≤ (settlePrime n).1 ∧ (settlePrime n).1 ≤ 4096 ∧ (settlePrime n).1 % 256 = 0 ∧
    (n = 0 → settlePrime n = (1024, false)) ∧ (n ≠ 0 → ((settlePrime n).2 = true ↔ (settlePrime n).1 ≠ n))

/-- CALIBRATE: by value, B takes the clamped value and C is recomputed, or B_loop takes it, the streak is emptied and the
loop state set; by capture, the record is taken and the capture waits; an ambient capture without a sense inlet is refused
BAD_FIELD, like an outlet, a target or a method out of range. -/
def Obligations.Calibrate : Prop :=
  ∀ (s : State) (h : Hand) (b : List (List Byte)),
    let r := calibrateRec h.bytes
    (s.walker .setup).stage = .handOver h b → h.kind = 0x06 →
      (256 ≤ r.outlet ∨ 1 < r.target ∨ 1 < r.method →
        exec .calibrate s = .next (s.reply .setup h 0x11 false []).arbitrate) ∧
      ∀ o : Fin 256, r.outlet = o.val →
        (r.target = 0 → r.method = 0 →
          let v := min 8388608 r.value
          exec .calibrate s = .next (State.reply .setup h 0x02 (decide (8388608 < r.value)) [(16, bytes4 v)]
            (s.modAmbient o fun a =>
              { a with baseline := v, factor := compensation (s.outlets.get o) a.level v })).arbitrate) ∧
        (r.target = 0 → r.method = 1 → (s.outlets.get o).senseInlet = none →
          exec .calibrate s = .next (s.reply .setup h 0x11 false []).arbitrate) ∧
        (r.target = 0 → r.method = 1 → (s.outlets.get o).senseInlet ≠ none → exec .calibrate s =
          .next (State.take .setup h false (s.modAmbient o fun a =>
            { a with capture := some { record := h.ref false, begun := false } })).arbitrate) ∧
        (r.target = 1 → r.method = 1 → exec .calibrate s =
          .next (State.take .setup h false (s.modLoop o fun x =>
            { x with capture := some { record := h.ref false, count := 0, sum := 0 } })).arbitrate) ∧
        (r.target = 1 → r.method = 0 →
          let v := min 1023 r.value
          let x := s.loops.get o
          let judged := x.state = .normal ∨ x.state = .suspect ∨ x.state = .faultOpen ∨ x.state = .faultShort
          ∃ y : Loop, exec .calibrate s = .next (State.reply .setup h 0x02 (decide (1023 < r.value)) [(16, bytes4 v)]
              (s.modLoop o fun _ => y)).arbitrate ∧
            y.baseline = v ∧ y.baselineSet = true ∧ y.streak = none ∧ y.last = x.last ∧ y.capture = x.capture ∧
            (s.unserved o = true → y.state = .unserved) ∧
            (s.unserved o = false →
              ((s.outlets.get o).kind = .undefined ∨ (s.outlets.get o).kind = .spare ∨
                (s.trunks.get (trunkOf o)).supervision = false → y.state = .unsupervised) ∧
              ((s.outlets.get o).kind ≠ .undefined → (s.outlets.get o).kind ≠ .spare →
                (s.trunks.get (trunkOf o)).supervision = true →
                  (judged → y.state = x.state ∧ y.ampFault = x.ampFault) ∧ (¬ judged → y.state = .normal))))

/-- RELEASE_CHANGEOVER and the two changeover timers: an ACTIVE slot enters RELEASING with its timer loaded with 100; a
PENDING or RELEASING slot whose timer stands at 0 becomes free with FAULT and its note; a timer not at 0 does nothing. Of
the two echoes of a control block, one that names a PENDING slot's pair makes it ACTIVE, one of none frees a RELEASING slot,
each with its note, and any other changes nothing. MIX_PERIOD_START counts every changeover timer down by 1, and frees a
PENDING or RELEASING slot whose timer stands at 0 or whose trunk leaves UP there.
An expiry that is not due does nothing, and one not yet taken is taken by the period start, ahead of its count (log entries
1, 3 and 15), the echo of the lower slot acts first (log entry 46), and a freed slot has every item it does not hold at its
reset value (log entry 24): the model's choices. -/
def Obligations.Changeovers : Prop :=
  (∀ (s : State) (h : Hand) (b : List (List Byte)),
    let n := byteAt h.bytes 8
    (s.walker .setup).stage = .handOver h b → h.kind = 0x07 →
      (8 ≤ n ∨ (∃ x : Fin 8, n = x.val ∧ (s.changeovers.get x).state ≠ .active) →
        exec .releaseChangeover s = .next (s.reply .setup h 0x11 false []).arbitrate) ∧
      ∀ x : Fin 8, n = x.val → (s.changeovers.get x).state = .active → exec .releaseChangeover s =
        .next ((s.modChangeover x fun c => { c with state := .releasing, timer := some 100 }).reply .setup h 0x02 false
          []).arbitrate) ∧
  (∀ (s : State) (k : Fin 4) (b : ControlBlock) (e f : Option (Fin 64 × Fin 64)),
    let echoed (x : Fin 8) (y : Option (Fin 64 × Fin 64)) (u : State) : State :=
      let c := s.changeovers.get x
      if c.state = .pending ∧ y = some (slotOf c.faulted, slotOf c.spare) then
        (u.modChangeover x fun c => { c with state := .active, timer := none }).emitNote .changeover 1 c.faulted.val
          (x.val + 256 * c.spare.val)
      else if c.state = .releasing ∧ y = none then
        (u.modChangeover x fun _ => {}).emitNote .changeover 4 c.faulted.val (x.val + 256 * c.spare.val)
      else u
    (s.trunks.get k).link = .up → (s.trunks.get k).served ≤ 8 * b.group.val → (s.trunks.get k).present ≤ 8 * b.group.val →
    b.echoes = [e, f] → exec (.inboundControlBlock k b) s =
      .next (echoed ⟨2 * k.val + 1, by omega⟩ f (echoed ⟨2 * k.val, by omega⟩ e
        (s.modTrunk k fun t => { t with sync := some 4 }))).arbitrate) ∧
  (∀ (s : State) (audio : List (List Sample)), ∃ t, exec (.mixPeriodStart audio) s = .next t ∧ ∀ x : Fin 8,
    let c := s.changeovers.get x
    let k := s.trunks.get ⟨x.val / 2, by omega⟩
    t.changeovers.get x =
      if (c.state = .pending ∨ c.state = .releasing) ∧ (c.timer = some 0 ∨ (k.link = .up ∧ k.sync = some 0)) then {}
      else { c with timer := c.timer.map (· - 1) }) ∧
  ∀ (s : State) (x : Fin 8),
    let c := s.changeovers.get x
    let freed := (s.modChangeover x fun _ => {}).setCause .fault
    (c.state = .pending → c.timer = some 0 → exec (.changeoverPendingExpiry x) s =
      .next (freed.emitNote .changeover 2 c.faulted.val (x.val + 256 * c.spare.val + 16777216)).arbitrate) ∧
    (c.state = .releasing → c.timer = some 0 → exec (.changeoverReleaseExpiry x) s =
      .next (freed.emitNote .changeover 5 c.faulted.val (x.val + 256 * c.spare.val)).arbitrate) ∧
    (c.state ≠ .pending ∨ c.timer ≠ some 0 → exec (.changeoverPendingExpiry x) s = .next s.arbitrate) ∧
    (c.state ≠ .releasing ∨ c.timer ≠ some 0 → exec (.changeoverReleaseExpiry x) s = .next s.arbitrate)

/-! ### Programs and claims (chapter 3) -/

/-- START_PROGRAM, policy NOW, an inlet source, no chime. With no outlet of the set defined it is returned NO_TARGET and the
slot stays FREE; with one outlet that takes claims and has no claim, the program is PLAYING there at once. -/
def Obligations.StartProgram : Prop :=
  ∀ (s : State) (h : Hand) (set : List Byte) (p : Fin 64) (i : Fin 256) (kind : ProgKind),
    let r := startRec h.bytes
    let k := r.clamps kind .now
    let new : Program :=
      { state := .playing, kind, source := .inlet i, priority := k.priority, policy := .now
        gatherTimeout := r.gatherTimeout, gain := r.gain, duckable := r.duckable, allowsUndertone := r.allowsUndertone
        holdThreshold := k.holdThreshold, maxDuration := k.maxDuration
        durationTimer := if k.maxDuration = 0 then none else some k.maxDuration, durationStarted := true
        arrival := s.claims.arrivals, record := some (h.ref k.mark) }
    (s.walker .program).stage = .handOver h [set] → h.kind = 0x10 → r.slot = p.val → p.val < 59 →
    (r.kind = 0 ∧ kind = .announce ∨ r.kind = 1 ∧ kind = .background) → r.policy = 0 → r.sourceKind = 0 →
    r.source = i.val → (s.inlets.get i = .consoleMic ∨ s.inlets.get i = .line) → r.chime = 0xFF →
    (s.programs.get p).state = .free → (s.programs.get p).reservation = none → s.claims.arrivals < 4294967295 →
      k.priority = (if kind = .announce then max 4 (min 11 r.priority) else min 1 r.priority) ∧
      k.maxDuration = (if r.maxDuration = 0 then 0 else max 100 (min 3600000 r.maxDuration)) ∧
      ((∀ o ∈ outletSet set, (s.outlets.get o).kind = .undefined ∨ (s.outlets.get o).kind = .spare) →
        (∀ o, hasOwner (.program p) (s.stack o) = false) → s.takenGranted .program h.addr = false →
        ∃ t, exec .startProgram s = .next t ∧ Untouched s t ∧ (t.programs.get p).state = .free ∧
          (t.walker .program).stage = .returnWrite h
            { record := h.ref k.mark, status := marked 0x15 k.mark
              results := [(44, [0]), (46, [0, 0]), (48, bytes4 s.time.toNat)] } false ∧
          ∀ o, t.stack o = s.stack o) ∧
      ∀ o, (outletSet set).filter (fun x => (s.outlets.get x).kind.takesClaims) = [o] → s.stack o = [] →
        let holds : Bool := s.lockFloor o ≤ k.priority
        let c : Claim :=
          { owner := .program p, priority := k.priority, arrival := s.claims.arrivals, duckable := r.duckable
            allowsUndertone := r.allowsUndertone, state := if holds then .holding else .locked }
        ∃ t, exec .startProgram s = .next t ∧ Untouched s t ∧
          t.programs = s.programs.set p { new with targets := [o], admitted := 1, held := if holds then 1 else 0 } ∧
          t.claims.stack = s.claims.stack.set o [c] ∧ t.claims.arrivals = s.claims.arrivals + 1 ∧
          t.claims.floors = s.claims.floors ∧
          t.claims.lines = s.claims.lines.set o (holds && (s.outlets.get o).kind == .cabinLoop &&
            decide ((s.outlets.get o).overrideThreshold ≤ k.priority)) ∧
          (t.walker .program).stage = .takenWrite h k.mark ∧ t.stations = s.stations ∧ t.calls = s.calls ∧
          t.tones = s.tones ∧ t.alarms = s.alarms ∧ t.mixer = s.mixer ∧ t.theatre = s.theatre

/-- START_PROGRAM accepted, for every host kind, source, policy and chime, with several targets and claims standing at them,
where no stack is full and no holder is displaced: the claim joins the stack of every target outlet (with IF_FREE only
where it holds at once), the slot takes the record's clamped values with the admitted and held counts, a stream binds the
lowest FREE channel, and the program is GATHERING (ALL, while it does not hold everywhere and has time left), or CHIMING
with the lowest free voice, or PLAYING, which skips its chime where no voice is free; with no claim placed it is returned
NO_TARGET. -/
def Obligations.StartPlacement : Prop :=
  ∀ (s : State) (h : Hand) (set : List Byte) (p : Fin 64) (kind : ProgKind) (policy : Policy) (src : Source)
    (chime : Option (Fin 12)),
    let r := startRec h.bytes
    let k := r.clamps kind policy
    let c : Claim :=
      { owner := .program p, priority := k.priority, arrival := s.claims.arrivals, duckable := r.duckable
        allowsUndertone := r.allowsUndertone, state := .waiting }
    let targets := (outletSet set).filter fun o => (s.outlets.get o).kind.takesClaims
    let placed := targets.filter fun o => policy != .ifFree ||
      (c.eligible (s.lockFloor o) && (s.stack o).all fun d => !d.eligible (s.lockFloor o) || c.before d)
    let named (o : Fin 256) : List Claim := nameStack (s.lockFloor o) (insertClaim c (s.stack o))
    let holds (o : Fin 256) : Bool := (holderIn (named o)).any fun d => d.owner == .program p
    let held := placed.filter holds
    (s.walker .program).stage = .handOver h [set] → h.kind = 0x10 → r.slot = p.val → p.val < 59 →
    hostKindOf r.kind = some kind → policyOf r.policy = some policy →
    ((r.sourceKind = 0 ∧ kind ≠ .theatre ∧
        ∃ i : Fin 256, r.source = i.val ∧ src = .inlet i ∧ (s.inlets.get i = .consoleMic ∨ s.inlets.get i = .line)) ∨
      (r.sourceKind = 1 ∧ kind ≠ .theatre ∧ src = .stream ∧ s.descOk r.desc = true ∧ s.freeChannel ≠ none) ∨
      (r.sourceKind = 2 ∧ kind = .theatre ∧ ∃ b : Fin 8, r.source = b.val ∧ src = .bus b)) →
    ((r.chime = 0xFF ∧ chime = none) ∨
      ∃ q : Fin 12, r.chime = q.val ∧ chime = some q ∧ (s.tones.patterns.get q).stored ≠ none) →
    (s.programs.get p).state = .free → (s.programs.get p).reservation = none → s.claims.arrivals < 4294967295 →
    (∀ o, hasOwner (.program p) (s.stack o) = false) → s.takenGranted .program h.addr = false →
      (placed = [] → ∃ t, exec .startProgram s = .next t ∧ Untouched s t ∧ (t.programs.get p).state = .free ∧
        (t.walker .program).stage = .returnWrite h
          { record := h.ref k.mark, status := marked 0x15 k.mark
            results := [(44, [0]), (46, [0, 0]), (48, bytes4 s.time.toNat)] } false ∧ ∀ o, t.stack o = s.stack o) ∧
      (placed ≠ [] → s.theatre.state ≠ .held → (∀ o ∈ placed, (s.stack o).length < 8) →
        (∀ o ∈ placed, (holderIn (named o)).map (·.owner) = (s.holder o).map (·.owner) ∨
          (s.holder o = none ∧ holds o = true)) →
        ¬ (policy = .all ∧ k.gatherTimeout = 0 ∧ held = []) →
          let waits : Prop := policy = .all ∧ held ≠ placed ∧ k.gatherTimeout ≠ 0
          let sounds : Prop := ¬ waits ∧ ∃ q v, chime = some q ∧ s.freeVoice = some v
          ∃ t, exec .startProgram s = .next t ∧ Untouched s t ∧ (t.walker .program).stage = .takenWrite h k.mark ∧
            (∀ o, t.stack o = if o ∈ placed then named o else s.stack o) ∧ t.claims.floors = s.claims.floors ∧
            t.claims.arrivals = s.claims.arrivals + 1 ∧ (∀ o ∉ placed, t.claims.lines.get o = s.claims.lines.get o) ∧
            (∀ q, q ≠ p → t.programs.get q = s.programs.get q) ∧
            t.programs.get p =
              { state := if waits then .gathering else if sounds then .chiming else .playing
                kind, source := src, priority := k.priority, targets, policy, gatherTimeout := k.gatherTimeout
                gatherTimer := if waits then some k.gatherTimeout else none, chime
                chimeSkipped := decide (¬ waits ∧ ¬ sounds ∧ chime ≠ none), gain := r.gain, duckable := r.duckable
                allowsUndertone := r.allowsUndertone, holdThreshold := k.holdThreshold, maxDuration := k.maxDuration
                durationTimer := if waits ∨ sounds ∨ k.maxDuration = 0 then none else some k.maxDuration
                durationStarted := decide (¬ waits ∧ ¬ sounds), arrival := s.claims.arrivals, admitted := placed.length
                held := held.length, record := some (h.ref k.mark) } ∧
            (∀ q v, ¬ waits → chime = some q → s.freeVoice = some v →
              t.tones.voices.get v = { user := .chime p, mode := .starting false, pattern := q }) ∧
            (∀ x, src = .stream → s.freeChannel = some x → (∀ y, (s.channels.get y).owner ≠ some (.program p)) →
              { t.channels.get x with reread := false } =
                { state := .priming, owner := some (.program p), run := decide (¬ waits ∧ ¬ sounds), desc := k.desc
                  passes := if k.desc.repeats then k.desc.count else 1, cur := .toRead k.desc.first }) ∧
            t.stations = s.stations ∧ t.calls = s.calls ∧ t.alarms = s.alarms ∧ t.mixer = s.mixer ∧ t.theatre = s.theatre)

/-- START_PROGRAM refused, with no other effect: a slot of 59 or above BAD_SLOT; a bad code, source or chime BAD_FIELD; a
slot not FREE or reserved, and a stream with no FREE channel, SLOT_BUSY. -/
def Obligations.StartProgramRefusals : Prop :=
  ∀ (s : State) (h : Hand) (b : List (List Byte)),
    let r := startRec h.bytes
    let badInlet := r.sourceKind = 0 ∧ (r.kind = 2 ∨ 256 ≤ r.source ∨
      ∃ i : Fin 256, r.source = i.val ∧ s.inlets.get i ≠ .consoleMic ∧ s.inlets.get i ≠ .line)
    let badStream := r.sourceKind = 1 ∧ (r.kind = 2 ∨ 1 < r.desc.format ∨ 1 < r.desc.order ∨ 1 < r.desc.mode ∨
      s.inWindow r.desc.first 32 32 = false)
    let badBus := r.sourceKind = 2 ∧ (r.kind ≠ 2 ∨ 8 ≤ r.source)
    let badChime := r.chime ≠ 0xFF ∧ (12 ≤ r.chime ∨
      ∃ q : Fin 12, r.chime = q.val ∧ (s.tones.patterns.get q).stored = none)
    let bad := 2 < r.kind ∨ 2 < r.policy ∨ 2 < r.sourceKind ∨ badInlet ∨ badStream ∨ badBus ∨ badChime
    (s.walker .program).stage = .handOver h b → h.kind = 0x10 →
      (59 ≤ r.slot → exec .startProgram s = .next (s.reply .program h 0x12 false []).arbitrate) ∧
      (r.slot < 59 → bad → exec .startProgram s = .next (s.reply .program h 0x11 false []).arbitrate) ∧
      ∀ p : Fin 64, r.slot = p.val → p.val < 59 → ¬ bad →
        ((s.programs.get p).state ≠ .free ∨ (s.programs.get p).reservation ≠ none ∨
          (r.sourceKind = 1 ∧ ∀ c, (s.channels.get c).state ≠ .free)) →
          exec .startProgram s = .next (s.reply .program h 0x13 false []).arbitrate

/-- STOP_PROGRAM by state and mode, and SET_PROGRAM_GAIN: refused BAD_SLOT, BAD_FIELD or NOT_ACTIVE; to ENDING with the
duration timer stopped; a finishing stream; no change in ENDING; the program ended STOPPED; the gain replaced. At a period
start an ENDING program whose claim's gain is 0 wherever the Mixer has it, as foreground or undertone, ends STOPPED; with a
gain above 0 somewhere, and nothing else due, it goes on.
What is due at a period start is taken ahead of it: the model's choice, log entries 1 and 15. That a program in ENDING holds stop mode FADE whichever mode and state it came from is the model's choice: log
entry 30. -/
def Obligations.StopAndGain : Prop :=
  (∀ (s : State) (audio : List (List Sample)) (p : Fin 64),
    let pr := s.programs.get p
    p.val < 59 → pr.state = .ending →
    (∀ c g, (s.calls.get c).page = some g → g.slot = p → g.state ≠ .reserved) →
    (∀ v, (s.tones.voices.get v).user ≠ .chime p) →
      ∃ t, exec (.mixPeriodStart audio) s = .next t ∧
        let gainOf (o : Fin 256) (a g : Nat) : Prop :=
          ((t.mixer.get o).fg = some (.program p, a) ∧ (t.mixer.get o).gc = g) ∨
            ((t.mixer.get o).ug = some (.program p, a) ∧ (t.mixer.get o).uc = g)
        let faded : Prop := ∀ o a g, gainOf o a g → g = 0
        let quiet : Prop := s.Calm ∧ ∀ q, q ≠ p → (s.programs.get q).state ≠ .ending
        (faded → (t.programs.get p).state = .free ∧ ∀ o, hasOwner (.program p) (t.stack o) = false) ∧
        (∀ r, faded → quiet → pr.record = some r → s.port.grant ≠ none →
          ∃ x : Return, x.record = r ∧ x.status = marked 0x04 r.mark ∧ t.returns .program x) ∧
        (∀ o g, quiet → gainOf o pr.arrival g → 0 < g →
          (t.programs.get p).state = .ending ∧ (t.programs.get p).record = pr.record)) ∧
  (∀ (s : State) (h : Hand) (b : List (List Byte)),
    let slot := byteAt h.bytes 8
    let mode := byteAt h.bytes 9
    (s.walker .program).stage = .handOver h b → h.kind = 0x11 →
      (59 ≤ slot → exec .stopProgram s = .next (s.reply .program h 0x12 false []).arbitrate) ∧
      (slot < 59 → 2 < mode → exec .stopProgram s = .next (s.reply .program h 0x11 false []).arbitrate) ∧
      ∀ p : Fin 64, slot = p.val → slot < 59 → mode ≤ 2 →
        let pr := s.programs.get p
        (pr.state = .free → exec .stopProgram s = .next (s.reply .program h 0x17 false []).arbitrate) ∧
        ((pr.state = .playing ∧ (mode = 1 ∨ (mode = 2 ∧ pr.source ≠ .stream))) ∨ (pr.state = .held ∧ mode ≠ 0) →
          exec .stopProgram s = .next (State.reply .program h 0x02 false [] (s.modProgram p fun pr =>
            { pr with state := .ending, stopMode := .fade, durationTimer := none })).arbitrate) ∧
        (pr.state = .playing → mode = 2 → pr.source = .stream → ∀ c, s.channelOf (.program p) = some c →
          exec .stopProgram s = .next (State.reply .program h 0x02 false []
            ((s.modProgram p fun pr => { pr with stopMode := .finish }).modChannel c fun ch =>
              if ch.desc.repeats = true ∧ ch.fetchEnded = false then { ch with passes := 1 } else ch)).arbitrate) ∧
        (pr.state = .ending → mode ≠ 0 → exec .stopProgram s = .next (s.reply .program h 0x02 false []).arbitrate) ∧
        (pr.state = .gathering ∨ pr.state = .chiming ∨ (pr.state ≠ .free ∧ mode = 0) →
          ∃ t, exec .stopProgram s = .next t ∧ ProgramEnded s t p 0x04 ∧ t.stations = s.stations ∧
            (t.walker .program).stage =
              .returnWrite h { record := h.ref false, status := 0x02, results := [] } false)) ∧
  ∀ (s : State) (h : Hand) (b : List (List Byte)),
    let slot := byteAt h.bytes 8
    (s.walker .program).stage = .handOver h b → h.kind = 0x12 →
      (59 ≤ slot → exec .setProgramGain s = .next (s.reply .program h 0x12 false []).arbitrate) ∧
      ∀ p : Fin 64, slot = p.val → slot < 59 →
        ((s.programs.get p).state = .free →
          exec .setProgramGain s = .next (s.reply .program h 0x17 false []).arbitrate) ∧
        ((s.programs.get p).state ≠ .free → exec .setProgramGain s =
          .next (State.reply .program h 0x02 false []
            (s.modProgram p fun pr => { pr with gain := halfAt h.bytes 10 })).arbitrate)

/-- The gather and duration timers at their expiry: a GATHERING program that holds nothing ends NO_TARGET, one that holds
goes on to PLAYING, a PLAYING one ends TIMED_OUT; a timer that is not due does nothing. At a period start with nothing due
and no program ENDING, MIX_PERIOD_START counts every gather timer down by 1, and the duration timer of every program that is
PLAYING and of no other, and no program changes in anything else.
A timer not due (log entries 1 and 3), and that the ms steps come at the mix period starts (log entry 14), are the model's
choices. -/
def Obligations.ProgramTimers : Prop :=
  (∀ (s : State) (audio : List (List Sample)), s.Calm → (∀ p, (s.programs.get p).state ≠ .ending) →
    ∃ t, exec (.mixPeriodStart audio) s = .next t ∧ ∀ p,
      let pr := s.programs.get p
      t.programs.get p = { pr with
        gatherTimer := pr.gatherTimer.map (· - 1)
        durationTimer := if pr.state = .playing then pr.durationTimer.map (· - 1) else pr.durationTimer }) ∧
  ∀ (s : State) (p : Fin 64),
    let pr := s.programs.get p
    (pr.gatherTimer ≠ some 0 ∨ pr.state ≠ .gathering →
      exec (.gatherTimerExpiry p) s = .next s.arbitrate) ∧
    (pr.state = .gathering → pr.gatherTimer = some 0 → pr.held = 0 →
      ∃ t, exec (.gatherTimerExpiry p) s = .next t ∧ ProgramEnded s t p 0x15) ∧
    (pr.state = .gathering → pr.gatherTimer = some 0 → pr.held ≠ 0 → pr.chime = none → pr.kind ≠ .theatre →
      pr.source ≠ .stream → pr.durationStarted = false → exec (.gatherTimerExpiry p) s =
        .next (s.modProgram p fun pr =>
          { pr with state := .playing, gatherTimer := none, durationStarted := true
                    durationTimer := if pr.maxDuration = 0 then none else some pr.maxDuration }).arbitrate) ∧
    (pr.state = .playing → pr.durationTimer = some 0 →
      ∃ t, exec (.durationTimerExpiry p) s = .next t ∧ ProgramEnded s t p 0x05) ∧
    (pr.state ≠ .playing ∨ pr.durationTimer ≠ some 0 → exec (.durationTimerExpiry p) s = .next s.arbitrate)

/-- Naming a stack: the same claims in the same order; the holder is the first eligible claim; the undertone, only under
a holder that allows it, is the first eligible duckable claim after it; a claim is LOCKED exactly when not eligible. A
renaming that takes an outlet from a GATHERING, CHIMING or PLAYING SHOW program for a claim at or above its show hold
threshold holds a show that is not held, with its hold set, its note, its playing SHOW programs HELD and its channels paused;
no other renaming holds it. While the show is held, a change of where SHOW programs hold makes the resume test, and so does
the end of a program of the hold set: met, the show and its HELD programs go on; not met, the show stays as it is. -/
def Obligations.StackNaming : Prop :=
  (∀ (floor : Nat) (cs : List Claim),
    let named := nameStack floor cs
    (named.map fun c => { c with state := .waiting }) = (cs.map fun c => { c with state := .waiting }) ∧
    holderIn named = (cs.find? (·.eligible floor)).map (fun c => { c with state := .holding }) ∧
    (∀ c ∈ named, c.state = .locked ↔ c.eligible floor = false) ∧
    (named.filter fun c => c.state == .holding).length ≤ 1 ∧
    ∀ (pre rest : List Claim) (c : Claim), cs = pre ++ c :: rest → (∀ d ∈ pre, d.eligible floor = false) →
      c.eligible floor = true →
        undertoneIn named =
          if c.allowsUndertone then
            (rest.find? fun d => d.eligible floor && d.duckable).map (fun d => { d with state := .undertone })
          else none) ∧
  (∀ (s : State) (o : Fin 256) (cs : List Claim),
    let t := s.restack o cs
    let new := holderIn (nameStack (s.lockFloor o) cs)
    let displaces (p : Fin 64) (d : Claim) : Prop :=
      (s.holder o).map (·.owner) = some (.program p) ∧ new = some d ∧ d.owner ≠ .program p ∧
      (s.programs.get p).kind = .theatre ∧ (s.programs.get p).holdThreshold ≤ d.priority ∧
      ((s.programs.get p).state = .gathering ∨ (s.programs.get p).state = .chiming ∨ (s.programs.get p).state = .playing)
    let show_ (c : Option Claim) : Prop := ∃ p, c.map (·.owner) = some (.program p) ∧
      (s.programs.get p).kind = .theatre ∧ (s.programs.get p).state ≠ .free
    (∀ p d, s.theatre.state ≠ .held → displaces p d →
      (∃ r : HoldRecord, t.theatre = { s.theatre with state := .held, hold := some r } ∧ r.byHost = false ∧
        r.heldFrom = s.theatre.state ∧ r.autoResume = s.lists.root.autoResume ∧
        (∀ q os, (q, os) ∈ r.outlets →
          (s.programs.get q).kind = .theatre ∧ (s.programs.get q).state ≠ .free ∧
          ∀ x, x ∈ os ↔ (if x = o then q = p ∨ d.owner = .program q else s.holdsAt q x = true)) ∧
        ∀ q, (s.programs.get q).kind = .theatre → (s.programs.get q).state ≠ .free → ∃ os, (q, os) ∈ r.outlets) ∧
      (∀ q, (s.programs.get q).kind = .theatre → (s.programs.get q).state = .playing →
        (t.programs.get q).state = .held) ∧
      (∀ x c, s.channelOf (.source x) = some c → t.channels.get c = (s.channels.get c).signalPause) ∧
      t.noted { kind := .showState, code := 1, subject := p.val, detail := o.val + 65536 * s.theatre.state.code
                time := s.time }) ∧
    (s.theatre.state ≠ .held → (∀ p d, ¬ displaces p d) → t.theatre = s.theatre) ∧
    ∀ r, s.theatre.state = .held → s.theatre.hold = some r →
      let met : Prop := (s.holder o).map (·.owner) ≠ new.map (·.owner) ∧ (show_ (s.holder o) ∨ show_ new) ∧
        r.byHost = false ∧ r.autoResume = true ∧ ∀ x ∈ r.outlets, ∀ y ∈ x.2, t.holdsAt x.1 y = true
      (¬ met → t.theatre = s.theatre) ∧
      (met → t.theatre = { s.theatre with state := r.heldFrom, hold := none } ∧
        (∀ q, (s.programs.get q).kind = .theatre → (s.programs.get q).state = .held →
          (t.programs.get q).state = .playing) ∧
        (∀ x c, s.channelOf (.source x) = some c → t.channels.get c = (s.channels.get c).signalResume) ∧
        t.noted { kind := .showState, code := 2, subject := 0, detail := r.heldFrom.code, time := s.time })) ∧
  ∀ (s : State) (p : Fin 64) (code : Nat) (r : HoldRecord) (os : List (Fin 256)),
    let left := r.outlets.filter fun x => x.1 != p
    let met : Prop := r.byHost = false ∧ r.autoResume = true ∧ ∀ x ∈ left, ∀ y ∈ x.2, s.holdsAt x.1 y = true
    (s.programs.get p).state ≠ .free → (∀ o, hasOwner (.program p) (s.stack o) = false) → s.theatre.state = .held →
    s.theatre.hold = some r → (p, os) ∈ r.outlets →
      (met → (s.endProgram p code).theatre = { s.theatre with state := r.heldFrom, hold := none }) ∧
      (¬ met → (s.endProgram p code).theatre = { s.theatre with hold := some { r with outlets := left } })

/-- Placing a claim at an outlet that takes claims and has none of its owner: admitted at its place below 8 claims; at 8,
admitted with the eviction of a last claim of lower priority, and refused otherwise. An evicted party has its outlet-lost
flag set; an evicted host or PAGE program counts one outlet fewer, and one that has none left ends NO_TARGET, or STOPPED
from ENDING; slot 59 stays PLAYING. Removing an owner's claim. A program's held count follows every renaming. An owner's code is its
program number, or 0x100 + 8c + i for party i of call c. An arrival number is the count's value, and the count steps by 1;
at the count's end the numbers in use are first given the values from 0 on in their own order, wherever one is kept, and
the count goes on from the first value not given. -/
def Obligations.ClaimPlacement : Prop :=
  (∀ s : State, s.claims.arrivals ≠ 4294967295 → s.issueArrival =
    (s.claims.arrivals, { s with claims := { s.claims with arrivals := s.claims.arrivals + 1 } })) ∧
  (∀ s : State, s.claims.arrivals = 4294967295 →
    let kept (m : MixEntry) : List Nat :=
      (m.fg.toList ++ m.ug.toList ++ (m.duck.map (·.2)).toList).map (·.2)
    let used (a : Nat) : Prop := (∃ o, ∃ c ∈ s.stack o, c.arrival = a) ∨
      (∃ p, (s.programs.get p).state ≠ .free ∧ (s.programs.get p).arrival = a) ∨
      (∃ c, (s.calls.get c).state ≠ .free ∧
        ((s.calls.get c).arrival = a ∨ ∃ q ∈ (s.calls.get c).parties, q.arrival = a)) ∨
      (∃ o, a ∈ kept (s.mixer.get o)) ∨ ∃ k : AlarmKind, (s.alarms.kinds.get k.idx).lastArrival = a
    let t := s.issueArrival.2
    ∃ f : Nat → Nat,
      (∀ a b, used a → used b → (a < b ↔ f a < f b)) ∧
      (∀ n, n < s.issueArrival.1 ↔ ∃ a, used a ∧ f a = n) ∧ t.claims.arrivals = s.issueArrival.1 + 1 ∧
      (∀ o, t.stack o = (s.stack o).map fun c => { c with arrival := f c.arrival }) ∧
      (∀ p, (s.programs.get p).state ≠ .free →
        t.programs.get p = { s.programs.get p with arrival := f (s.programs.get p).arrival }) ∧
      (∀ c, (s.calls.get c).state ≠ .free → t.calls.get c = { s.calls.get c with
        arrival := f (s.calls.get c).arrival
        parties := (s.calls.get c).parties.map fun q => { q with arrival := f q.arrival } }) ∧
      (∀ o, t.mixer.get o = { s.mixer.get o with
        fg := (s.mixer.get o).fg.map fun x => (x.1, f x.2)
        ug := (s.mixer.get o).ug.map fun x => (x.1, f x.2)
        duck := (s.mixer.get o).duck.map fun x => (x.1, x.2.1, f x.2.2) }) ∧
      (∀ k : AlarmKind, t.alarms.kinds.get k.idx = { s.alarms.kinds.get k.idx with
        lastArrival := f (s.alarms.kinds.get k.idx).lastArrival }) ∧
      (∀ o, t.holder o = (s.holder o).map fun c => { c with arrival := f c.arrival }) ∧
      t.claims.floors = s.claims.floors ∧ t.claims.lines = s.claims.lines ∧ t.theatre = s.theatre) ∧
  (∀ (s : State) (c : Claim) (o : Fin 256),
    let cs := s.stack o
    ((s.outlets.get o).kind = .undefined ∨ (s.outlets.get o).kind = .spare ∨ hasOwner c.owner cs = true →
      s.place c o = (false, s)) ∧
    ((s.outlets.get o).kind ≠ .undefined → (s.outlets.get o).kind ≠ .spare → hasOwner c.owner cs = false →
      (cs.length < 8 → (s.place c o).1 = true ∧
        ∀ o', (s.place c o).2.stack o' = if o' = o then nameStack (s.lockFloor o) (insertClaim c cs) else s.stack o') ∧
      ∀ (front : List Claim) (last : Claim), cs = front ++ [last] → 8 ≤ cs.length →
        (c.priority ≤ last.priority → s.place c o = (false, s)) ∧
        (last.priority < c.priority → hasOwner last.owner front = false → (s.place c o).1 = true ∧
          (s.place c o).2.stack o = nameStack (s.lockFloor o) (insertClaim c front)))) ∧
  (∀ (s : State) (c : Claim) (o : Fin 256) (front : List Claim) (last : Claim),
    let t := (s.place c o).2
    s.stack o = front ++ [last] → 8 ≤ (s.stack o).length → (s.outlets.get o).kind ≠ .undefined →
    (s.outlets.get o).kind ≠ .spare → hasOwner c.owner (s.stack o) = false → last.priority < c.priority →
      (∀ k i, last.owner = .party k i → t.calls = s.calls.modify k fun call =>
        { call with parties := call.parties.modify i.val fun q => { q with outletLost := true, claim := none } }) ∧
      ∀ p, last.owner = .program p →
        let pr := s.programs.get p
        (p.val < 59 → 2 ≤ pr.admitted → (t.programs.get p).admitted = pr.admitted - 1 ∧ t.calls = s.calls) ∧
        (p.val < 59 → pr.admitted ≤ 1 → pr.state ≠ .free →
          ProgramEnded s t p (if pr.state = .ending then 0x04 else 0x15)) ∧
        (59 ≤ p.val → pr.state = .playing → pr.kind ≠ .theatre →
          (t.programs.get p).state = .playing ∧ (t.programs.get p).admitted = pr.admitted)) ∧
  (∀ (s : State) (o : Fin 256) (cs : List Claim) (p : Fin 64),
    let held : Nat := (s.programs.get p).held
    let before : Prop := (s.holder o).map (·.owner) = some (.program p)
    let after : Prop := (holderIn (nameStack (s.lockFloor o) cs)).map (·.owner) = some (.program p)
    (before → ¬ after → ((s.restack o cs).programs.get p).held = held - 1) ∧
    (¬ before → after → ((s.restack o cs).programs.get p).held = held + 1) ∧
    ((before ↔ after) → ((s.restack o cs).programs.get p).held = held)) ∧
  (∀ (c : Claim) (pre post : List Claim), (∀ d ∈ pre, c.before d = false) → (∀ d ∈ post.head?, c.before d = true) →
    insertClaim c (pre ++ post) = pre ++ c :: post) ∧
  (∀ c d : Claim, c.before d = true ↔ d.priority < c.priority ∨ (c.priority = d.priority ∧
    (c.arrival < d.arrival ∨ (c.arrival = d.arrival ∧ c.owner.code < d.owner.code)))) ∧
  (∀ p : Fin 64, (Owner.program p).code = p.val) ∧
  (∀ (k : Fin 16) (i : Fin 8), (Owner.party k i).code = 0x100 + 8 * k.val + i.val) ∧
  ∀ (s : State) (w : Owner) (o : Fin 256),
    (hasOwner w (s.stack o) = false → s.removeClaim w o = s) ∧
    (hasOwner w (s.stack o) = true → ∀ o', (s.removeClaim w o).stack o' =
      if o' = o then nameStack (s.lockFloor o) ((s.stack o).filter fun c => c.owner != w) else s.stack o')

/-! ### Mixing and the Ambient Unit (chapters 4, 5) -/

/-- The foreground target gain: 0 for an ENDING holder; the held target during duck hold; otherwise the base gain,
compensated for ANNOUNCE, PAGE and alarm holders where the outlet enables it, and raised to the floor for an alarm. What is
latched of a claim: its owner and number, the program gain of its owner (4096 for slots 59 to 63, the listen gain for a
party), whether its program is ENDING, an alarm's, and of a kind that is compensated. -/
def Obligations.ForegroundTarget : Prop :=
  (∀ (s : State) (c : Claim),
    (∀ p, c.owner = .program p →
      let pr := s.programs.get p
      (s.latch c).id = (.program p, c.arrival) ∧ (s.latch c).gain = (if p.val < 59 then pr.gain else 4096) ∧
      ((s.latch c).ending = true ↔ pr.state = .ending) ∧ ((s.latch c).alarm = true ↔ 60 ≤ p.val) ∧
      ((s.latch c).speech = true ↔ pr.kind = .announce ∨ pr.kind = .page ∨ pr.kind = .alarm)) ∧
    ∀ k i q, c.owner = .party k i → (s.calls.get k).parties[i.val]? = some q →
      s.latch c = { id := (.party k i, c.arrival), gain := q.listen, ending := false, alarm := false, speech := false }) ∧
  ∀ (out : Outlet) (factor : Nat) (h : Latch),
    let base := h.gain * out.trim / 4096
    (∀ held, h.ending = true → foregroundTarget out factor held h = 0) ∧
    (h.ending = false → foregroundTarget out factor true h = min 65535 (base * out.duckDepth / 4096)) ∧
    (h.ending = false → h.alarm = false → (out.compEnable = false ∨ h.speech = false) →
      foregroundTarget out factor false h = min 65535 base) ∧
    (h.ending = false → h.alarm = false → out.compEnable = true → h.speech = true →
      foregroundTarget out factor false h = min 65535 (base * factor / 4096)) ∧
    (h.ending = false → h.alarm = true → (out.compEnable = false ∨ h.speech = false) →
      foregroundTarget out factor false h = max (min 65535 base) out.alarmFloor) ∧
    (h.ending = false → h.alarm = true → out.compEnable = true → h.speech = true →
      foregroundTarget out factor false h = max (min 65535 (base * factor / 4096)) out.alarmFloor) ∧
    (∀ held, out.alarmFloor ≤ 65535 → foregroundTarget out factor held h ≤ 65535)

/-- Rule R67: the undertone target gain and its bounds. -/
def Obligations.UndertoneTarget : Prop :=
  (∀ (out : Outlet) (factor : Nat) (holder : Option Latch) (m : MixEntry),
    (mixStep out factor holder none m).uc = 0 ∧
    ∀ u : Latch, (mixStep out factor holder (some u) m).uc = stepGain out.rampStep
      (if m.ug = some u.id then m.uc else if m.fg = some u.id then m.gc else 0) (undertoneTarget out u)) ∧
  ∀ (out : Outlet) (u : Latch),
    let base := u.gain * out.trim / 4096
    (u.ending = true → undertoneTarget out u = 0) ∧
    (u.ending = false → undertoneTarget out u = min 65535 (base * out.duckDepth / 4096)) ∧
    (∀ factor, out.duckDepth ≤ 4096 → out.compEnable = false → u.alarm = false →
      undertoneTarget out u ≤ foregroundTarget out factor false u) ∧
    (out.duckDepth ≤ 4096 → undertoneTarget out u ≤ min 65535 base) ∧
    (out.duckDepth = 0 → undertoneTarget out u = 0) ∧
    (out.duckDepth = 4096 → u.ending = false → undertoneTarget out u = min 65535 base)

/-- A current gain's step with ramp step S: at once with S = 0, onto a target within S, and otherwise by S toward it; it
never passes its target. A foreground starts from its own current gain, from U_c where its claim was the undertone, at its
target for an alarm, and otherwise from 0; an undertone from its own U_c, from G_c where its claim was the foreground, and
otherwise from 0; without a claim each is 0. A holder that becomes ENDING while its duck hold runs steps toward 0, and the
timer runs on. -/
def Obligations.GainSteps : Prop :=
  (∀ step cur target : Nat,
    (step = 0 → stepGain step cur target = target) ∧
    (target ≤ cur + step → cur ≤ target + step → stepGain step cur target = target) ∧
    (step ≠ 0 → cur + step < target → stepGain step cur target = cur + step) ∧
    (step ≠ 0 → target + step < cur → stepGain step cur target = cur - step) ∧
    min cur target ≤ stepGain step cur target ∧ stepGain step cur target ≤ max cur target) ∧
  ∀ (out : Outlet) (factor : Nat) (h : Latch) (under : Option Latch) (m : MixEntry),
    let t := foregroundTarget out factor false h
    let n := mixStep out factor (some h) under m
    n.fg = some h.id ∧ n.clips = m.clips ∧
    (∀ (holder : Option Latch) (u : Latch),
      let n' := mixStep out factor holder (some u) m
      n'.ug = some u.id ∧
      (m.ug = some u.id → n'.uc = stepGain out.rampStep m.uc (undertoneTarget out u)) ∧
      (m.ug ≠ some u.id → m.fg = some u.id → n'.uc = stepGain out.rampStep m.gc (undertoneTarget out u)) ∧
      (m.ug ≠ some u.id → m.fg ≠ some u.id → n'.uc = stepGain out.rampStep 0 (undertoneTarget out u)) ∧
      (mixStep out factor holder none m).ug = none ∧ (mixStep out factor holder none m).uc = 0) ∧
    (mixStep out factor none under m).fg = none ∧ (mixStep out factor none under m).gc = 0 ∧
    (mixStep out factor none under m).duck = none ∧
    (m.fg = some h.id → m.duck = none → n.gc = stepGain out.rampStep m.gc t ∧ n.duck = none) ∧
    (∀ left, m.fg = some h.id → m.duck = some (left, h.id) → h.ending = false → 1 < left →
      n.gc = stepGain out.rampStep m.gc (min 65535 (h.gain * out.trim / 4096 * out.duckDepth / 4096)) ∧
      n.duck = some (left - 1, h.id)) ∧
    (∀ left, m.fg = some h.id → m.duck = some (left, h.id) → h.ending = true → 1 < left →
      n.gc = stepGain out.rampStep m.gc 0 ∧ n.duck = some (left - 1, h.id)) ∧
    (∀ left, m.fg = some h.id → m.duck = some (left, h.id) → left ≤ 1 →
      n.gc = stepGain out.rampStep m.gc t ∧ n.duck = none) ∧
    (m.fg ≠ some h.id → m.ug = some h.id → h.ending = false → out.duckHold ≠ 0 →
      n.gc = stepGain out.rampStep m.uc (min 65535 (h.gain * out.trim / 4096 * out.duckDepth / 4096)) ∧
      n.duck = some (out.duckHold, h.id)) ∧
    (m.fg ≠ some h.id → m.ug = some h.id → (h.ending = true ∨ out.duckHold = 0) →
      n.gc = stepGain out.rampStep m.uc t ∧ n.duck = none) ∧
    (m.fg ≠ some h.id → m.ug ≠ some h.id → h.alarm = true → n.gc = t ∧ n.duck = none) ∧
    (m.fg ≠ some h.id → m.ug ≠ some h.id → h.alarm = false → n.gc = stepGain out.rampStep 0 t ∧ n.duck = none)

/-- Rule R75: an outlet's clip count grows by the samples of the period outside the sample range, saturates at 65,535, is
cleared by a snapshot piece, is 0 at power-on and is kept by a soft reset; no other mix adds to it. -/
def Obligations.ClipCount : Prop :=
  (∀ (s : State) (audio : List (List Sample)), ∃ t, exec (.mixPeriodStart audio) s = .next t ∧
    let l := s.beforeLatch
    let x := l.sounds audio ((l.channels.map Channel.give).map Prod.fst) ((l.tones.voices.map Voice.give).map Prod.fst)
    ∀ o, (t.mixer.get o).clips = min 65535 ((s.mixer.get o).clips +
      ((l.outletQuotients x (t.mixer.get o) o).filter fun q => decide (q < -8388608 ∨ 8388607 < q)).length)) ∧
  (∀ (s : State) (o : Fin 256) (addr : Nat), s.port.grant = some ⟨.snapPiece 0 o.val addr, false⟩ →
    ∃ t, exec .snapshotPiece s = .next t ∧ (t.mixer.get o).clips = 0) ∧
  (∀ o, (State.reset.mixer.get o).clips = 0) ∧
  ∀ s : State, ∃ t, exec .softReset s = .next t ∧ ∀ o, (t.mixer.get o).clips = (s.mixer.get o).clips

/-- MIX_PERIOD_START: from the state latched, every outlet's gains step, its samples are the 41-bit products divided by 4096
and saturated (of a holder, or of a holder and an undertone), an inlet that is undefined, on a trunk not UP or beyond the
present count gives 0, each trunk sends what it should, the ms count steps by 1, and no table of settings changes. A
GATHERING program gives 0, a CHIMING one the voice of its chime, a PLAYING or ENDING one its inlet or its channel, as the
contact microphone's program does its inlet; an alarm program its kind's voice in TONE, its channel in VOICE, and 0 without
a phase. A CONNECTED party hears the weighted talk inputs of the other CONNECTED parties, the page mix is of all of them; a
show bus is of the sixteen sources at their crosspoint gains and then its master gain; each gain of the show is its LIVE
value, or lies between LIVE and NEXT by the fade's position. A DOWN trunk enters TRAINING; a TRAINING trunk sends its offer
with samples of 0; an UP trunk sends what the Mixer computed for each slot below the served count, with an ACTIVE
changeover's faulted slot giving 0 and a deasserted line and its spare the faulted outlet's samples and line, every line
deasserted without the override ability, and a SWITCH for each PENDING or ACTIVE changeover slot. That an expiry not yet
taken is taken first (log entry 1), that the ms count steps at the mix period start (14), the order of the period's acts
(15), the operand that the trunks deliver (21) and the output kept of what they send (22) are the model's. -/
def Obligations.MixPeriod : Prop :=
  (∀ (s : State) (audio : List (List Sample)), ∃ t, exec (.mixPeriodStart audio) s = .next t ∧
    let l := s.beforeLatch
    let chans := l.channels.map Channel.give
    let voices := l.tones.voices.map Voice.give
    let x := l.sounds audio (chans.map Prod.fst) (voices.map Prod.fst)
    (∀ o, (t.mixer.get o) = (l.mixOutlet x o).1 ∧
      (t.mixer.get o).gc = (mixStep (s.outlets.get o) (l.ambient.outlets.get o).factor ((l.holder o).map l.latch)
        ((l.undertone o).map l.latch) (l.mixer.get o)).gc ∧
      (l.mixOutlet x o).2.length = 48 ∧
      (∀ y ∈ (l.mixOutlet x o).2, -8388608 ≤ y ∧ y ≤ 8388607) ∧
      (l.holder o = none → l.undertone o = none → ∀ y ∈ (l.mixOutlet x o).2, y = 0) ∧
      ∀ (k : Fin 48) (c : Claim), l.holder o = some c → l.undertone o = none →
        (l.mixOutlet x o).2[k.val]? =
          some (sat24 (((l.claimBlock x (some c)).getD k.val 0 * ((t.mixer.get o).gc : Int)).tdiv 4096))) ∧
    (∀ (o : Fin 256) (k : Fin 48) (c u : Claim), l.holder o = some c → l.undertone o = some u →
      (l.mixOutlet x o).2[k.val]? =
        some (sat24 (((l.claimBlock x (some c)).getD k.val 0 * ((t.mixer.get o).gc : Int)
          + (l.claimBlock x (some u)).getD k.val 0 * ((t.mixer.get o).uc : Int)).tdiv 4096))) ∧
    (∀ k, t.outbound.get k = l.outboundOf ((Tab.ofFn (l.mixOutlet x)).map Prod.snd) k) ∧
    (∀ k,
      let u := s.trunks.get k
      let v := t.trunks.get k
      let counted : Trunk := { u with answer := u.answer.map (· - 1), sync := u.sync.map (· - 1) }
      (u.link = .down → v = { counted with link := .training, training := u.training + 1, answer := some 50 }) ∧
      (u.link = .training → u.answer = some 0 → v = { counted with training := u.training + 1, answer := some 49 }) ∧
      (u.link = .training → u.answer ≠ some 0 → v = counted) ∧
      (u.link = .up → u.sync = some 0 → v = { link := .training, training := u.training + 1, answer := some 50 }) ∧
      (u.link = .up → u.sync ≠ some 0 → v = counted) ∧
      (v.link = .training → t.outbound.get k =
        some (.offer k v.training 64 64 (List.replicate 64 (List.replicate 48 0)))) ∧
      (v.link = .up → ∃ samples lines commands, t.outbound.get k = some (.transfer samples lines commands) ∧
        samples.length = 64 ∧ lines.length = 64 ∧ commands.length = 2 ∧
        (∀ j : Fin 2,
          let c := t.changeovers.get ⟨2 * k.val + j.val, by omega⟩
          commands[j.val]? = some (if c.state = .pending ∨ c.state = .active then
            some (c.faulted.val % 64, c.spare.val % 64) else none)) ∧
        ∀ y : Fin 64,
          let o : Fin 256 := ⟨64 * k.val + y.val, by omega⟩
          let sent (block : List Int) (line : Bool) : Prop :=
            samples[y.val]? = some (if y.val < v.served then block else []) ∧ lines[y.val]? = some (v.overrideLines && line)
          let stands (z : Fin 8) : Prop := (t.changeovers.get z).state = .active ∧
            ((t.changeovers.get z).faulted = o ∨ (t.changeovers.get z).spare = o)
          ((∀ z, ¬ stands z) → sent (l.mixOutlet x o).2 (l.claims.lines.get o)) ∧
          ∀ z, stands z → (∀ z', stands z' → z' = z) →
            ((t.changeovers.get z).faulted = o → sent (List.replicate 48 0) false) ∧
            ((t.changeovers.get z).faulted ≠ o →
              sent (l.mixOutlet x (t.changeovers.get z).faulted).2 (l.claims.lines.get (t.changeovers.get z).faulted)))) ∧
    (∀ i, (s.inlets.get i = .undefined ∨ (l.trunks.get (trunkOf i)).link ≠ .up ∨
      (l.trunks.get (trunkOf i)).present ≤ (slotOf i).val) → ∀ y ∈ x.inlets.get i, y = 0) ∧
    t.time = s.time + 1 ∧ t.outlets = s.outlets ∧ t.inlets = s.inlets ∧ t.contacts = s.contacts ∧
    t.theatre.bindings = s.theatre.bindings ∧ t.alarms.defs = s.alarms.defs ∧ t.lists.root = s.lists.root ∧
    t.regs.rootadr = s.regs.rootadr ∧ t.regs.cmask = s.regs.cmask ∧ t.regs.run = s.regs.run) ∧
  (∀ (s : State) (x : Sounds) (c : Fin 16) (d : Claim) (k : Fin 48),
    let call := s.calls.get c
    let input (j : Fin 8) : Int :=
      match call.parties[j.val]? with
      | none => 0
      | some p =>
        if p.state = .connected then
          match (s.stations.get p.station).binding with
          | some b => (x.inlets.get b.1).getD k.val 0 * (p.talk : Int)
          | none => 0
        else 0
    (∀ (i : Fin 8) (p : Party), d.owner = .party c i → call.parties[i.val]? = some p →
      (p.state = .connected → (s.claimBlock x (some d))[k.val]? =
        some (sat24 (Int.tdiv ((allFin 8).map fun j => if j = i then 0 else input j).sum 4096))) ∧
      (p.state = .ringing → s.claimBlock x (some d) =
        match s.voiceOf .ring with | some v => x.voices.get v | none => List.replicate 48 0) ∧
      (p.state ≠ .connected → p.state ≠ .ringing → (s.claimBlock x (some d))[k.val]? = some 0)) ∧
    ∀ p : Fin 64, d.owner = .program p →
      let pr := s.programs.get p
      let block := s.claimBlock x (some d)
      let silence : List Int := List.replicate 48 0
      let voice (u : VoiceUser) : List Int := match s.voiceOf u with | some v => x.voices.get v | none => silence
      let channel : List Int := match s.channelOf (.program p) with | some c => x.channels.get c | none => silence
      (pr.state = .gathering → block = silence) ∧ (pr.state = .chiming → block = voice (.chime p)) ∧
      (pr.state = .playing ∨ pr.state = .ending →
        (∀ i, pr.source = .inlet i → block = x.inlets.get i) ∧ (pr.source = .stream → block = channel)) ∧
      (∀ q : AlarmKind, p = q.slot → pr.state = .playing → pr.source = .alarmSound →
        ((s.alarms.kinds.get q.idx).phase = .tone → block = voice (.alarm q)) ∧
        ((s.alarms.kinds.get q.idx).phase = .voice → block = channel) ∧
        ((s.alarms.kinds.get q.idx).phase = .unset → block = silence)) ∧
      (pr.state = .playing ∨ pr.state = .held ∨ pr.state = .ending →
        (pr.source = .pageMix c → block[k.val]? = some (sat24 (Int.tdiv ((allFin 8).map input).sum 4096))) ∧
        ∀ b, pr.source = .bus b → block = x.buses.get b)) ∧
  (∀ (s : State) (audio : List (List Sample)) (chans : Tab 16 (List Int)) (voices : Tab 8 (List Int)) (b : Fin 8)
    (k : Fin 48),
    let x := s.sounds audio chans voices
    let source (y : Fin 16) : Int :=
      match s.theatre.bindings.get y with
      | .unbound => 0
      | .line i => (x.inlets.get i).getD k.val 0
      | .playback => match s.channelOf (.source y) with | some c => (chans.get c).getD k.val 0 | none => 0
    let pre := sat24 (Int.tdiv ((allFin 16).map fun y =>
      source y * (s.theatre.gain ⟨8 * y.val + b.val, by omega⟩ : Int)).sum 4096)
    (x.buses.get b)[k.val]? = some (sat24 (Int.tdiv (pre * (s.theatre.gain ⟨128 + b.val, by omega⟩ : Int)) 4096))) ∧
  ∀ (t : Theatre) (i : Fin 136),
    let fading : Prop := t.state = .fading ∨ (t.state = .held ∧ ∃ r, t.hold = some r ∧ r.heldFrom = .fading)
    let live := t.live.get i
    (¬ fading ∨ t.next = none → t.gain i = live) ∧
    ∀ bank, fading → t.next = some bank → t.pos ≤ t.len →
      (t.gain i : Int) = live + Int.tdiv (((bank.get i : Int) - live) * t.pos) t.len ∧
      min live (bank.get i) ≤ t.gain i ∧ t.gain i ≤ max live (bank.get i) ∧ (t.pos = 0 → t.gain i = live) ∧
      (t.pos = t.len → t.len ≠ 0 → t.gain i = bank.get i)

/-- The duck-hold timer that reaches 0 at the coming period start stops, and nothing else changes.
That this event has a command of its own, just ahead of the period start, and that the command does nothing when the timer
is not due, are the model's choices: log entries 13 and 3. -/
def Obligations.DuckHoldExpiry : Prop :=
  ∀ (s : State) (o : Fin 256),
    (∀ left id, (s.mixer.get o).duck = some (left, id) → left ≤ 1 → exec (.duckHoldExpiry o) s =
      .next { s with mixer := s.mixer.modify o fun m => { m with duck := none } }) ∧
    ((∀ left id, (s.mixer.get o).duck = some (left, id) → 1 < left) → exec (.duckHoldExpiry o) s = .next s)

/-- The compensation factor C: unity when disabled or without a sense inlet; otherwise 4096 plus the term trunc(E K / 256)
clamped to 0..Cmax; C never falls below 4096 nor passes 4096 + Cmax. -/
def Obligations.Compensation : Prop :=
  ∀ (out : Outlet) (level baseline : Nat),
    let e : Int := (level : Int) - baseline - out.margin
    let c := compensation out level baseline
    (out.compEnable = false ∨ out.senseInlet = none → c = 4096) ∧
    (out.compEnable = true → out.senseInlet ≠ none →
      (e ≤ 0 → c = 4096) ∧
      (0 ≤ e → (c : Int) = 4096 + min (out.cap : Int) (e * out.slope / 256))) ∧
    4096 ≤ c ∧ c ≤ 4096 + out.cap

/-- AMBIENT_WINDOW_COMPLETE: not before the window's last period. At each outlet with a sense inlet a gated window counts, a
measured one smooths L by its level, and C follows; sums and marks are cleared. A capture that waits for this window takes B
from the new L of a measured one and is returned DONE with it; a gated, unheard or void window leaves L, B, C and the capture.
MIX_PERIOD_START adds the magnitudes of the period's 48 samples of the sense inlet to its outlet's sum, sets the unheard mark
where the inlet's trunk is not UP or its slot beyond the present count, and the gated mark where a holder's gain is above 0;
an outlet without a sense inlet keeps its sum and marks. The first period of a window begins them anew, takes W as the
window's length and lets the captures that wait take it.
A window not at its end is left alone, and one at its end is completed by the next period start at the latest (log entries 1,
3, 15 and 34); the period's samples are the operand's, and those it does not give are 0 (log entries 6 and 21): the model's
choices. -/
def Obligations.AmbientWindow : Prop :=
  (∀ (s : State) (audio : List (List Sample)), ∃ t, exec (.mixPeriodStart audio) s = .next t ∧
    let ended : Prop := s.ambient.position = s.ambient.length
    let first : Prop := ended ∨ s.ambient.position = 0
    t.ambient.window = s.ambient.window ∧ t.ambient.length = (if first then s.ambient.window else s.ambient.length) ∧
    t.ambient.position = (if ended then 1 else s.ambient.position + 1) ∧ ∀ o,
      let a := s.ambient.outlets.get o
      let b := t.ambient.outlets.get o
      let m := t.mixer.get o
      (¬ ended → b.level = a.level ∧ b.baseline = a.baseline ∧ b.factor = a.factor ∧ b.gatedCount = a.gatedCount ∧
        b.void = a.void ∧ b.capture = a.capture.map fun y => { y with begun := if first then true else y.begun }) ∧
      (ended → b.void = false) ∧
      ((s.outlets.get o).senseInlet = none → b.sum = (if ended then 0 else a.sum) ∧
        b.gated = (if ended then false else a.gated) ∧ b.unheard = (if ended then false else a.unheard)) ∧
      ∀ i, (s.outlets.get o).senseInlet = some i →
        let heard : Prop := (t.trunks.get (trunkOf i)).link = .up ∧ (slotOf i).val < (t.trunks.get (trunkOf i)).present
        let samples : List Int := (audio.getD i.val []).map (·.toInt)
        let delivered : List Int := if s.inlets.get i ≠ .undefined ∧ heard then
          (samples ++ List.replicate 48 0).take 48 else List.replicate 48 0
        b.sum = (if ended then 0 else a.sum) + (delivered.map Int.natAbs).sum ∧
        (b.unheard = true ↔ (¬ ended ∧ a.unheard = true) ∨ ¬ heard) ∧
        (b.gated = true ↔ (¬ ended ∧ a.gated = true) ∨ (m.fg ≠ none ∧ 0 < m.gc))) ∧
  ∀ s : State,
    (s.ambient.position ≠ s.ambient.length → exec .ambientWindowComplete s = .next s.arbitrate) ∧
    (s.ambient.position = s.ambient.length → ∃ t, exec .ambientWindowComplete s = .next t ∧
      t.ambient.position = 0 ∧ t.ambient.length = s.ambient.length ∧ t.ambient.window = s.ambient.window ∧
      t.outlets = s.outlets ∧ t.mixer = s.mixer ∧ t.claims = s.claims ∧ t.programs = s.programs ∧ t.time = s.time ∧
      ∀ o,
        let a := s.ambient.outlets.get o
        let b := t.ambient.outlets.get o
        let out := s.outlets.get o
        let x := a.sum / (48 * s.ambient.length)
        let captured := a.capture.any (·.begun)
        b.sum = 0 ∧ b.gated = false ∧ b.unheard = false ∧ b.void = false ∧
        (out.senseInlet = none → b.level = a.level ∧ b.baseline = a.baseline ∧ b.factor = a.factor ∧
          b.gatedCount = a.gatedCount ∧ b.capture = a.capture) ∧
        (out.senseInlet ≠ none → a.gated = true → b.gatedCount = min 65535 (a.gatedCount + 1) ∧ b.level = a.level ∧
          b.baseline = a.baseline ∧ b.factor = a.factor ∧ b.capture = a.capture) ∧
        (out.senseInlet ≠ none → a.gated = false → (a.unheard = true ∨ a.void = true) →
          b.gatedCount = a.gatedCount ∧ b.level = a.level ∧ b.baseline = a.baseline ∧ b.factor = a.factor ∧
          b.capture = a.capture) ∧
        (out.senseInlet ≠ none → a.gated = false → a.unheard = false → a.void = false →
          b.level = ((a.level : Int) + Int.tdiv (((x : Int) - a.level) * out.smoothing) 16).toNat ∧
          b.gatedCount = a.gatedCount ∧ b.factor = compensation out b.level b.baseline ∧
          b.baseline = (if captured then b.level else a.baseline) ∧
          b.capture = (if captured then none else a.capture) ∧
          ∀ cap, a.capture = some cap → cap.begun = true → s.port.grant ≠ none → t.returns .setup
            { record := cap.record, status := marked 0x02 cap.record.mark, results := [(16, bytes4 b.level)] }))

/-! ### Playback and tones (chapters 6, 8) -/

/-- FRAGMENT_READ, FETCH_BURST, FRAGMENT_WRITE_BACK and RETURN_WALK_READ: a fragment with owner HOST is waited for, a valid
one is taken, an invalid one is a chain fault; a burst's samples join the FIFO in order; a fully fetched SINGLE fragment is
returned; after a fragment the channel moves to its link, or a pass ends: the last one ends the fetch, another begins at the
first fragment; a link outside the window is a chain fault; a return walk writes back a fragment it finds owned by the part,
passes over one with owner HOST, and frees the channel at its end. The request that stands for a channel: in ENDED a
write-back, or the next read of its return walk; else the write-back of a fully fetched SINGLE fragment not yet returned,
the read of an address to be read or of a waiting fragment to be read again, or a burst of the next samples, at most 256 of
them, from where the last one ended, with room for 256 in the FIFO; otherwise none. A write-back writes one byte, the flags
as read with owner HOST, and no other transfer of a channel writes. What a transfer reads is the command's operand (log
entries 5 and 6), a read that finds HOST clears a re-read asked for meanwhile (log entry 37), and a freed channel has every
item it does not hold at zero or none (log entry 24): the model's choices. -/
def Obligations.StreamTransfers : Prop :=
  ∀ (s : State) (c : Fin 16) (d : List Byte),
    let ch := s.channels.get c
    let size : Nat := if ch.desc.pcm24 then 4 else 2
    let movesOn (f : Fragment) (pre : Channel → Channel) (base : State) : State :=
      let toward (a : Nat) (g : Channel → Channel) : State :=
        if s.inWindow a 32 32 then
          base.modChannel c fun x => ({ g (pre x) with cur := .toRead a } : Channel).primeTest
        else
          (base.modChannel c fun x => ({ g (pre x) with fetchEnded := true } : Channel).primeTest).emitNote .streamStarved 2
            c.val a
      if f.more then toward f.link id
      else if ch.passes = 1 then
        base.modChannel c fun x => ({ pre x with chainComplete := true, fetchEnded := true } : Channel).primeTest
      else toward ch.desc.first fun x => { x with chainComplete := true, passes := x.passes - 1, place := 0 }
    let walks (f : Fragment) (w : ReturnWalk) (base : State) : State :=
      if f.more = false ∨ s.inWindow f.link 32 32 = false ∨ (ch.chainComplete = false ∧ w.count + 1 = ch.reached) then
        base.modChannel c fun _ => {}
      else base.modChannel c fun x =>
        { x with walk := some { next := some f.link, back := none, count := w.count + 1 } }
    let asks (x : Xfer) : Prop := s.channelRequest c = some (.channel c x)
    let silent : Prop := s.channelRequest c = none
    let back (f : Fragment) : Xfer := .writeBack { addr := f.addr, pieces := [(0, [f.flags &&& 0x7F#8])] }
    let single : Prop := ch.desc.repeats = false ∧ ch.ownedByAlarm = false
    let writes (i : Instr) (w : Option PortWrite) : Prop := ∃ t, exec i s = .next t ∧ t.port.written = w
    (ch.state = .free → silent) ∧
    (ch.state = .ended →
      (ch.walk = none → (∀ f, ch.cur = .taken f → ch.returned = false → asks (back f)) ∧
        ((∀ f, ch.cur ≠ .taken f) ∨ ch.returned = true → silent)) ∧
      ∀ w, ch.walk = some w → (∀ f, w.back = some f → asks (back f)) ∧
        (∀ a, w.back = none → w.next = some a → asks (.walkRead a)) ∧ (w.back = none → w.next = none → silent)) ∧
    (ch.state ≠ .free → ch.state ≠ .ended →
      (ch.cur = .empty → silent) ∧
      (∀ a, ch.cur = .toRead a → (ch.fetchEnded = false → asks (.fragmentRead a)) ∧ (ch.fetchEnded = true → silent)) ∧
      (∀ a, ch.cur = .waiting a → (ch.fetchEnded = false → ch.reread = true → asks (.fragmentRead a)) ∧
        (ch.fetchEnded = true ∨ ch.reread = false → silent)) ∧
      ∀ f, ch.cur = .taken f →
        (f.fetched < f.count →
          (ch.fetchEnded = false → ch.fifo.length + 256 ≤ 4096 →
            asks (.burst (f.buffer + f.fetched * size) (min 256 (f.count - f.fetched)))) ∧
          (ch.fetchEnded = true ∨ 4096 < ch.fifo.length + 256 → silent)) ∧
        (f.count ≤ f.fetched → (single → ch.returned = false → asks (back f)) ∧
          (¬ single ∨ ch.returned = true → silent))) ∧
    (∀ x discard, s.port.grant = some ⟨.channel c x, discard⟩ →
      match x with
      | .writeBack w => writes (.fragmentWriteBack c) (some w)
      | .fragmentRead _ => writes (.fragmentRead c d) s.port.written
      | .burst _ _ => writes (.fetchBurst c d) s.port.written
      | .walkRead _ => writes (.returnWalkRead c d) s.port.written) ∧
    (∀ a : Nat, s.port.grant = some ⟨.channel c (.fragmentRead a), false⟩ →
      let f : Fragment :=
        { addr := a, flags := d.getD 0 0, count := halfAt d 2, buffer := wordAt d 4, more := bitOf (byteAt d 0) 0
          link := wordAt d 8, fetched := 0 }
      let valid := f.count ≠ 0 ∧ s.inWindow f.buffer (f.count * size) 4 = true ∧ (f.more = true → f.link ≠ 0)
      let ended := s.endGrant (.channel c (.fragmentRead a))
      (bitOf (byteAt d 0) 7 = false → exec (.fragmentRead c d) s =
        .next (ended.modChannel c fun ch => { ch with cur := .waiting a, reread := false }).arbitrate) ∧
      (bitOf (byteAt d 0) 7 = true → valid → exec (.fragmentRead c d) s =
        .next (ended.modChannel c fun ch => ({ ch with
          cur := .taken f, returned := false, place := ch.place + 1
          reached := if ch.chainComplete then ch.reached else max ch.reached (ch.place + 1) } :
            Channel).primeTest).arbitrate) ∧
      (bitOf (byteAt d 0) 7 = true → ¬ valid → exec (.fragmentRead c d) s =
        .next ((ended.modChannel c fun ch => ({ ch with fetchEnded := true } : Channel).primeTest).emitNote
          .streamStarved 2 c.val a).arbitrate)) ∧
    (∀ (a n : Nat) (f : Fragment), s.port.grant = some ⟨.channel c (.burst a n), false⟩ → ch.cur = .taken f →
      f.fetched + n < f.count → exec (.fetchBurst c d) s =
        .next ((s.endGrant (.channel c (.burst a n))).modChannel c fun ch => ({ ch with
          fifo := ch.fifo ++ (List.range n).map (sampleOf ch.desc d)
          cur := .taken { f with fetched := f.fetched + n } } : Channel).primeTest).arbitrate) ∧
    (∀ (a n : Nat) (f : Fragment), s.port.grant = some ⟨.channel c (.burst a n), false⟩ → ch.cur = .taken f →
      f.fetched + n = f.count →
        let base := s.endGrant (.channel c (.burst a n))
        let filled (x : Channel) : Channel :=
          { x with fifo := ch.fifo ++ (List.range n).map (sampleOf ch.desc d), cur := .taken { f with fetched := f.count } }
        (ch.desc.repeats = false → ch.ownedByAlarm = false →
          exec (.fetchBurst c d) s = .next (base.modChannel c fun x => (filled x).primeTest).arbitrate) ∧
        (ch.desc.repeats = true ∨ ch.ownedByAlarm = true →
          exec (.fetchBurst c d) s = .next (movesOn { f with fetched := f.count } filled base).arbitrate)) ∧
    (∀ (w : PortWrite) (f : Fragment), s.port.grant = some ⟨.channel c (.writeBack w), false⟩ → ch.state ≠ .ended →
      ch.cur = .taken f → exec (.fragmentWriteBack c) s =
        .next (movesOn f (fun x => { x with returned := true }) (s.endGrant (.channel c (.writeBack w)))).arbitrate) ∧
    (∀ (w : PortWrite), s.port.grant = some ⟨.channel c (.writeBack w), false⟩ → ch.state = .ended →
      let base := s.endGrant (.channel c (.writeBack w))
      (ch.walk = none → exec (.fragmentWriteBack c) s = .next (base.modChannel c fun _ => {}).arbitrate) ∧
      (∀ x f, ch.walk = some x → x.back = some f → exec (.fragmentWriteBack c) s = .next (walks f x base).arbitrate)) ∧
    (∀ (a : Nat) (w : ReturnWalk), s.port.grant = some ⟨.channel c (.walkRead a), false⟩ → ch.state = .ended →
      ch.walk = some w → bitOf (byteAt d 0) 7 = false → exec (.returnWalkRead c d) s =
        .next (walks (fragmentOf a d) w (s.endGrant (.channel c (.walkRead a)))).arbitrate) ∧
    (∀ (a : Nat) (w : ReturnWalk), s.port.grant = some ⟨.channel c (.walkRead a), false⟩ → ch.walk = some w →
      bitOf (byteAt d 0) 7 = true → exec (.returnWalkRead c d) s =
        .next ((s.endGrant (.channel c (.walkRead a))).modChannel c fun ch =>
          { ch with walk := some { w with next := none, back := some (fragmentOf a d) } }).arbitrate) ∧
    (∀ k : Nat, ∀ desc : StreamDesc,
      (desc.pcm24 = false → desc.swapped = false →
        sampleOf desc d k = (BitVec.ofNat 16 (byteAt d (2 * k) + 256 * byteAt d (2 * k + 1))).toInt * 256) ∧
      (desc.pcm24 = false → desc.swapped = true →
        sampleOf desc d k = (BitVec.ofNat 16 (byteAt d (2 * k + 1) + 256 * byteAt d (2 * k))).toInt * 256) ∧
      (desc.pcm24 = true → desc.swapped = false → sampleOf desc d k = (BitVec.ofNat 24
        (byteAt d (4 * k) + 256 * byteAt d (4 * k + 1) + 65536 * byteAt d (4 * k + 2))).toInt) ∧
      (desc.pcm24 = true → desc.swapped = true → sampleOf desc d k = (BitVec.ofNat 24
        (byteAt d (4 * k + 1) + 256 * byteAt d (4 * k) + 65536 * byteAt d (4 * k + 3))).toInt))

/-- The prime condition and its test in every state, the three owner signals by channel state, and what a channel gives in a
period: 48 samples while it has them, padding and STARVED when it has not, and the end of a DRAINING stream. At a period
start with nothing else due and no cue about to start or end, a channel that no alarm owns gives its samples, and one that
waits for a fragment asks to read it again. A starving channel makes its note; a host program whose stream is complete ends
COMPLETE, or STOPPED after a stop. At the end of an
alarm's stream its channel reloads and primes again; where its channel starves, it is released after the note; and either
ends a VOICE phase: the phase is TONE and the kind's voice starts its pattern again with its count of cycles kept.
The order of the period's acts is the model's: log entry 15. -/
def Obligations.ChannelSignals : Prop :=
  (∀ (s : State) (audio : List (List Sample)), s.Calm → (∀ p, (s.programs.get p).state ≠ .ending) →
    s.theatre.state ≠ .fading → s.theatre.state ≠ .waiting → s.port.grant ≠ none →
      ∃ t, exec (.mixPeriodStart audio) s = .next t ∧ ∀ c : Fin 16,
        let ch := s.channels.get c
        (∀ k : AlarmKind, ch.owner ≠ some (.program k.slot)) → t.channels.get c = { ch.give.2.1 with
          reread := match ch.cur with | .waiting _ => true | _ => ch.reread }) ∧
  (∀ (s : State) (gave : Tab 16 ChanEvent) (c : Fin 16) (p : Fin 64),
    let ch := s.channels.get c
    let t := s.channelEvent gave c
    p.val < 60 → ch.owner = some (.program p) →
      (gave.get c = .starves → ch.state = .starved → t = s.emitNote .streamStarved 1 c.val p.val) ∧
      (gave.get c = .completes → ch.state = .draining → (s.programs.get p).state ≠ .free →
        ProgramEnded s t p (if (s.programs.get p).stopMode = .unset then 0x03 else 0x04))) ∧
  (∀ (s : State) (gave : Tab 16 ChanEvent) (c : Fin 16) (k : AlarmKind),
    let ch := s.channels.get c
    let phaseOver (u : State) : State :=
      if (s.alarms.kinds.get k.idx).phase = .voice then
        let u := u.modAlarm k fun a => { a with phase := .tone }
        match s.voiceOf (.alarm k) with
        | some v => u.modVoice v fun x => { x with mode := .starting true }
        | none => u
      else u
    ch.owner = some (.program k.slot) →
      (gave.get c = .completes → ch.state = .draining → s.inWindow ch.desc.first 32 32 = true →
        s.channelEvent gave c = phaseOver (s.modChannel c fun x =>
          { x with run := false, fetchEnded := false, passes := 1, state := .priming, place := 0
                   cur := .toRead x.desc.first })) ∧
      (gave.get c = .starves → ch.state = .starved → s.channelEvent gave c =
        phaseOver ((s.emitNote .streamStarved 1 c.val k.slot.val).releaseChannel (.program k.slot)))) ∧
  ∀ ch : Channel,
    let onward : ChanState := if ch.fetchEnded then .draining else .playing
    (ch.primed = true ↔ ch.desc.prime ≤ ch.fifo.length ∨ 3840 < ch.fifo.length ∨ ch.fetchEnded = true) ∧
    (ch.state = .priming → ch.signalRun = { ch with run := true } ∧ ch.signalPause = { ch with run := false } ∧
      ch.signalResume = { ch with run := true } ∧
      (ch.primed = true → ch.primeTest = { ch with state := if ch.run then onward else .ready }) ∧
      (ch.primed = false → ch.primeTest = ch)) ∧
    (ch.state = .starved → (ch.primed = true → ch.primeTest = { ch with state := onward }) ∧
      (ch.primed = false → ch.primeTest = ch)) ∧
    (ch.state = .playing → ch.primeTest = { ch with state := onward }) ∧
    (ch.state = .ready ∨ ch.state = .draining ∨ ch.state = .free ∨ ch.state = .ended → ch.primeTest = ch) ∧
    (ch.state = .paused → ch.fetchEnded = false ∨ (ch.resumeTo ≠ .playing ∧ ch.resumeTo ≠ .starved) →
      ch.primeTest = ch) ∧
    (ch.state = .ready → ch.signalRun = { ch with run := true, state := onward } ∧
      ch.signalPause = { ch with run := false } ∧ ch.signalResume = { ch with run := true, state := onward }) ∧
    (ch.state = .playing ∨ ch.state = .starved ∨ ch.state = .draining → ch.signalRun = { ch with run := true } ∧
      ch.signalPause = { ch with run := false, state := .paused, resumeTo := ch.state } ∧ ch.signalResume = ch) ∧
    (ch.state = .paused → ch.signalRun = ch ∧ ch.signalPause = ch ∧
      (ch.resumeTo = .playing → ch.fetchEnded = false →
        ch.signalResume = { ch with run := true, state := .playing }) ∧
      (ch.resumeTo = .starved → ch.primed = true →
        ch.signalResume = { ch with run := true, state := onward }) ∧
      (ch.resumeTo = .starved → ch.primed = false → ch.signalResume = { ch with run := true, state := .starved }) ∧
      (ch.resumeTo = .draining ∨ (ch.resumeTo = .playing ∧ ch.fetchEnded = true) →
        ch.signalResume = { ch with run := true, state := .draining }) ∧
      (ch.fetchEnded = true → ch.resumeTo = .playing ∨ ch.resumeTo = .starved →
        ch.primeTest = { ch with resumeTo := .draining })) ∧
    (ch.state = .free ∨ ch.state = .ended → ch.signalRun = ch ∧ ch.signalPause = ch ∧ ch.signalResume = ch) ∧
    (ch.state = .playing → 48 ≤ ch.fifo.length →
      ch.give = (ch.fifo.take 48, { ch with fifo := ch.fifo.drop 48 }, .none)) ∧
    (ch.state = .playing → ch.fifo.length < 48 →
      ch.give = (ch.fifo ++ List.replicate (48 - ch.fifo.length) 0, { ch with fifo := [], state := .starved }, .starves)) ∧
    (ch.state = .draining → ch.fifo.length ≤ 48 →
      ch.give = (ch.fifo ++ List.replicate (48 - ch.fifo.length) 0, { ch with fifo := [] }, .completes)) ∧
    (ch.state = .draining → 48 < ch.fifo.length →
      ch.give = (ch.fifo.take 48, { ch with fifo := ch.fifo.drop 48 }, .none)) ∧
    (ch.state ≠ .playing → ch.state ≠ .draining → ch.give = (List.replicate 48 0, ch, .none))

/-- TONE_SEGMENT_END: the next segment begins with its increment and phase 0; at a cycle end the voice pays what it owes to
a pending copy first. Then the ring begins pattern 11 again; a chime that has sounded its cycles frees its voice and its
program is PLAYING; an alarm voice counts the cycle and begins the next one: of the same pattern, of the one it CONTINUEs
to, or of its kind's own; CREW_ALERT's end makes it QUIET everywhere, with all that a reset of the areas that are not QUIET
does (`AlarmCleared`), an ALARM_STATE note of code 0 with those areas and cause pattern end among it, and its program FREE,
its voice and its channel given back (`AlarmFreed`). At the count of its tone cycles a kind with a READY voice channel
enters VOICE, and one without a channel asks for one. A voice with periods left is not touched. At a period start with
nothing else due a sounding voice plays one period of its segment, and one that was given begins its pattern's first segment
there. The cycle count and end action are the sounded copy's (log entry 20); an end that is not due does nothing (log entry
3); the order of the period's acts is log entry 15's; a freed voice has every item it does not hold at zero or none (log
entry 24); that CREW_ALERT's note comes after the claims and the program have changed is log entry 12's. -/
def Obligations.ToneSegmentEnd : Prop :=
  ∀ (s : State) (v : Fin 8),
    let x := s.tones.voices.get v
    let due := x.mode = .sounding ∧ x.left = 0
    let paid : State :=
      if v ∈ (s.tones.patterns.get x.pattern).owing then s.modPattern x.pattern fun q =>
        match q.owing.filter (· != v), q.pendingCopy with
        | [], some d => { stored := some d }
        | left, _ => { q with owing := left }
      else s
    let starts (p : Fin 12) (d : PatternDef) (g : Segment) : Prop :=
      (paid.tones.patterns.get p).stored = some d ∧ d.segments.head? = some g
    let begun (p : Fin 12) (d : PatternDef) (g : Segment) (n : Nat) (u : State) : State :=
      u.modVoice v fun x => { x with
        pattern := p, copy := d, cycles := n, segment := 0, left := 10 * g.duration, phase := 0, inc := phaseInc g.freq }
    (∀ audio : List (List Sample), s.Calm → (∀ p, (s.programs.get p).state ≠ .ending) →
      (∀ k : AlarmKind, x.user = .alarm k → (s.alarms.kinds.get k.idx).phase ≠ .voice) →
        ∃ t, exec (.mixPeriodStart audio) s = .next t ∧
          (∀ g, x.mode = .sounding → x.copy.segments[x.segment]? = some g → t.tones.voices.get v = { x with
            left := x.left - 1, phase := if g.freq = 0 then x.phase else (x.phase + 48 * x.inc) % 65536 }) ∧
          ∀ keep d g, x.mode = .starting keep → (s.tones.patterns.get x.pattern).stored = some d →
            d.segments.head? = some g → t.tones.voices.get v = { x with
              mode := .sounding, copy := d, cycles := if keep then x.cycles else 0, segment := 0
              left := 10 * g.duration - 1, inc := phaseInc g.freq
              phase := if g.freq = 0 then 0 else 48 * phaseInc g.freq % 65536 }) ∧
    (¬ due → exec (.toneSegmentEnd v) s = .next s.arbitrate) ∧
    (∀ g : Segment, due → x.copy.segments[x.segment + 1]? = some g → exec (.toneSegmentEnd v) s =
      .next (s.modVoice v fun x => { x with
        segment := x.segment + 1, left := 10 * g.duration, phase := 0, inc := phaseInc g.freq }).arbitrate) ∧
    (due → x.copy.segments.length ≤ x.segment + 1 →
      (∀ (d : PatternDef) (g : Segment), x.user = .ring → starts 11 d g →
        exec (.toneSegmentEnd v) s = .next (begun 11 d g (x.cycles + 1) paid).arbitrate) ∧
      (∀ p : Fin 64, x.user = .chime p → x.copy.cycles ≤ x.cycles + 1 → (s.programs.get p).kind ≠ .theatre →
        (s.programs.get p).source ≠ .stream → (s.programs.get p).durationStarted = false →
          exec (.toneSegmentEnd v) s = .next (State.arbitrate
            ((paid.modVoice v fun _ => {}).modProgram p fun pr =>
              { pr with state := .playing, gatherTimer := none, durationStarted := true
                        durationTimer := if pr.maxDuration = 0 then none else some pr.maxDuration }))) ∧
      (∀ (p : Fin 64) (d : PatternDef) (g : Segment), x.user = .chime p → x.cycles + 1 < x.copy.cycles →
        starts x.pattern d g →
          exec (.toneSegmentEnd v) s = .next (begun x.pattern d g (x.cycles + 1) paid).arbitrate) ∧
      ∀ k : AlarmKind, x.user = .alarm k →
        let again : Prop := x.copy.cycles = 0 ∨ x.cycles + 1 < x.copy.cycles
        let stops : Prop := ∀ q, x.copy.next = some q → (paid.tones.patterns.get q).stored = none
        (∀ (p : Fin 12) (n : Nat) (d : PatternDef) (g : Segment), starts p d g →
          (again ∧ p = x.pattern ∧ n = x.cycles + 1) ∨ (¬ again ∧ x.copy.next = some p ∧ n = 0) ∨
            (¬ again ∧ stops ∧ k ≠ .crewAlert ∧ p = ((s.alarmDef k).map (·.pattern)).getD x.pattern ∧ n = 0) →
            let base := begun p d g n (paid.modAlarm k fun a => { a with count := a.count + 1 })
            let zeroed := base.modAlarm k fun a => { a with count := 0 }
            ((∀ a, s.alarmDef k = some a → a.toneCycles = 0 ∨ a.stream = none) →
              exec (.toneSegmentEnd v) s = .next base.arbitrate) ∧
            ∀ a st, s.alarmDef k = some a → a.toneCycles ≠ 0 → a.stream = some st →
              let full : Prop := a.toneCycles ≤ (s.alarms.kinds.get k.idx).count + 1
              (¬ full → exec (.toneSegmentEnd v) s = .next base.arbitrate) ∧
              (∀ c, full → s.channelOf (.program k.slot) = some c → (s.channels.get c).state ≠ .ready →
                exec (.toneSegmentEnd v) s = .next zeroed.arbitrate) ∧
              (∀ c, full → s.channelOf (.program k.slot) = some c → (s.channels.get c).state = .ready →
                v ∉ (paid.tones.patterns.get p).owing → exec (.toneSegmentEnd v) s =
                  .next (((zeroed.modVoice v fun x => { x with mode := .silent }).modAlarm k
                    fun a => { a with phase := .voice }).modChannel c fun ch =>
                      { ch with run := true, state := if ch.fetchEnded then .draining else .playing }).arbitrate) ∧
              (full → s.channelOf (.program k.slot) = none → s.part = .fallback →
                exec (.toneSegmentEnd v) s = .next zeroed.arbitrate) ∧
              (∀ c, full → s.channelOf (.program k.slot) = none → s.part ≠ .fallback → s.freeChannel = some c →
                s.inWindow st.first 32 32 = true → exec (.toneSegmentEnd v) s =
                  .next (zeroed.modChannel c fun _ =>
                    { state := .priming, owner := some (.program k.slot), desc := st, passes := 1
                      cur := .toRead st.first }).arbitrate)) ∧
        (k = .crewAlert → ¬ again → stops →
          let changed := (allFin 16).filter fun a => s.areaState .crewAlert a != .quiet
          (changed = [] → exec (.toneSegmentEnd v) s = .next paid.arbitrate) ∧
          (changed ≠ [] → ∃ u, exec (.toneSegmentEnd v) s = .next u.arbitrate ∧
            AlarmCleared paid u .crewAlert .quiet changed 2 ∧ (∀ a, u.areaState .crewAlert a = .quiet) ∧
            (u.programs.get 63).state = .free ∧ ((s.programs.get 63).state ≠ .free → AlarmFreed s u .crewAlert))))

/-- A voice's wave: the increment of a frequency, the triangle and its range, every level's sample with its truncation and
saturation, and the block of a period, whose sample k is at phase p + k inc modulo 65,536; a segment of frequency 0 gives 0 with its phase kept. -/
def Obligations.ToneWave : Prop :=
  (phaseInc 200 = 273 ∧ phaseInc 1000 = 1365 ∧ phaseInc 4000 = 5461) ∧
  (∀ freq, 48000 * phaseInc freq ≤ 65536 * freq + 24000 ∧ 65536 * freq + 24000 < 48000 * (phaseInc freq + 1)) ∧
  (∀ p : Nat, p < 65536 → -8388608 ≤ rawTone p ∧ rawTone p ≤ 8388096 ∧
    (p < 32768 → rawTone p = ((p : Int) - 16384) * 512) ∧ (32768 ≤ p → rawTone p = (49151 - (p : Int)) * 512)) ∧
  (∀ p level : Nat,
    toneSample p level = max (-8388608) (min 8388607 (Int.tdiv (rawTone p * (level : Int)) 4096)) ∧
    -8388608 ≤ toneSample p level ∧ toneSample p level ≤ 8388607 ∧ toneSample p 0 = 0 ∧
    (p < 65536 → toneSample p 4096 = rawTone p)) ∧
  ∀ (x : Voice) (g : Segment), x.mode = .sounding → x.copy.segments[x.segment]? = some g →
    (g.freq = 0 → x.give = (List.replicate 48 0, { x with left := x.left - 1 })) ∧
    (g.freq ≠ 0 → x.phase < 65536 → x.give.1.length = 48 ∧
      (∀ k < 48, x.give.1[k]? = some (toneSample ((x.phase + k * x.inc) % 65536) g.level)) ∧
      x.give.2 = { x with left := x.left - 1, phase := (x.phase + 48 * x.inc) % 65536 })

/-! ### Calls and stations (chapter 7) -/

/-- OPEN_CALL of two present stations without a page: the first joins CONNECTED; the second joins CONNECTED without the ring
flag, and the call is ACTIVE; with it and on the hook it is RINGING, its ring timer loaded, and the ring is asked for.
OPEN_CALL of two to eight different stations, with or without a page: a station that is not IDLE gives a BUSY party, every
other joins CONNECTED or RINGING with its claim placed or its outlet-lost flag set; the call is ACTIVE with two CONNECTED;
the page is RESERVED, and starts at once in an ACTIVE call. -/
def Obligations.OpenCall : Prop :=
  (∀ (s : State) (h : Hand) (block : List Byte) (c : Fin 16) (n m : Fin 64) (i j o q : Fin 256),
    let r := openRec h.bytes
    let ps := rawParties block 2
    let priority := max 6 (min 9 r.priority)
    let timeout := max 1 (min 120 r.ringTimeout)
    let mark : Bool := decide (priority ≠ r.priority ∨ timeout ≠ r.ringTimeout)
    let seat (x : Fin 8) (y : Fin 256) : List Claim := nameStack (s.lockFloor y)
      [{ owner := .party c x, priority, arrival := s.claims.arrivals, duckable := false, allowsUndertone := true
         state := .waiting }]
    (s.walker .call).stage = .handOver h [block] → h.kind = 0x20 → r.call = c.val → r.count = 2 → r.anchor = 0 →
    r.page = false → (∀ a b, ps = [a, b] → a.station = n.val ∧ b.station = m.val ∧ a.ring = false) → n ≠ m → o ≠ q →
    (s.stations.get n).binding = some (i, o) → (s.stations.get m).binding = some (j, q) →
    (s.stations.get n).state = .idle → (s.stations.get m).state = .idle → (s.calls.get c).state = .free →
    (s.outlets.get o).kind = .station → (s.outlets.get q).kind = .station → s.stack o = [] → s.stack q = [] →
    s.claims.arrivals < 4294967295 →
      ∃ t a b, ps = [a, b] ∧ exec .openCall s = .next t ∧ Untouched s t ∧
        (t.walker .call).stage = .takenWrite h mark ∧ t.claims.arrivals = s.claims.arrivals + 1 ∧
        t.stack o = seat 0 o ∧ t.stack q = seat 1 q ∧ (∀ x, x ≠ o → x ≠ q → t.stack x = s.stack x) ∧
        (∀ d, d ≠ c → t.calls.get d = s.calls.get d) ∧
        (t.calls.get c).priority = priority ∧ (t.calls.get c).record = some (h.ref mark) ∧
        (t.calls.get c).parties.map (·.station) = [n, m] ∧ (t.calls.get c).parties.map (·.claim) = [some o, some q] ∧
        (t.calls.get c).parties.map (·.talk) = [a.talk, b.talk] ∧
        (t.calls.get c).parties.map (·.listen) = [a.listen, b.listen] ∧
        (t.stations.get n).state = .inCall ∧ (t.stations.get n).call = some c ∧ (t.stations.get m).call = some c ∧
        (∀ x, x ≠ n → x ≠ m → t.stations.get x = s.stations.get x) ∧
        (b.ring = false ∨ (s.stations.get m).offHook = true → (t.calls.get c).state = .active ∧
          (t.calls.get c).parties.map (·.state) = [.connected, .connected] ∧ (t.stations.get m).state = .inCall) ∧
        (b.ring = true → (s.stations.get m).offHook = false → (t.calls.get c).state = .ringing ∧
          (t.calls.get c).parties.map (·.state) = [.connected, .ringing] ∧
          (t.calls.get c).parties.map (·.ringTimer) = [none, some (1000 * timeout)] ∧
          (t.stations.get m).state = .ringing ∧
          ∀ v, s.voiceOf .ring = none → s.patternDefined 11 = true → s.freeVoice = some v →
            (t.tones.voices.get v).user = .ring ∧ (t.tones.voices.get v).pattern = 11)) ∧
  ∀ (s : State) (h : Hand) (blocks : List (List Byte)) (c : Fin 16) (ns : List (Fin 64)) (slot : Fin 64),
    let r := openRec h.bytes
    let raw := rawParties (blocks.getLastD []) r.count
    let timeout := max 1 (min 120 r.ringTimeout)
    let mark : Bool := decide (r.priority < 6 ∨ 9 < r.priority ∨ r.ringTimeout < 1 ∨ 120 < r.ringTimeout)
    let joins (x : RawParty × Fin 64) : PartyState :=
      if (s.stations.get x.2).state ≠ .idle then .busy
      else if x.1.ring = true ∧ (s.stations.get x.2).offHook = false then .ringing
      else .connected
    let parties := raw.zip ns
    let page : Page :=
      { slot, targets := outletSet (blocks.headD []), policy := r.pagePolicy, gain := r.pageGain, state := .reserved }
    let active : Prop := 2 ≤ (parties.filter fun x => joins x == .connected).length
    (s.walker .call).stage = .handOver h blocks → h.kind = 0x20 → r.call = c.val → 2 ≤ r.count → r.count ≤ 8 →
    r.anchor < r.count → raw.map (·.station) = ns.map (·.val) → ns.Nodup → (∀ n ∈ ns, (s.stations.get n).binding ≠ none) →
    (∀ x, raw[r.anchor]? = some x → x.ring = false) → (∀ n, ns[r.anchor]? = some n → (s.stations.get n).state = .idle) →
    2 ≤ (ns.filter fun n => (s.stations.get n).state == .idle).length → (s.calls.get c).state = .free →
    (r.page = true → r.pageSlot = slot.val ∧ slot.val < 59 ∧ (s.programs.get slot).state = .free ∧
      (s.programs.get slot).reservation = none) → s.claims.arrivals < 4294967294 →
      ∃ t, exec .openCall s = .next t ∧ Untouched s t ∧ (t.walker .call).stage = .takenWrite h mark ∧
        (∀ d, d ≠ c → (t.calls.get d).state = (s.calls.get d).state) ∧
        (t.calls.get c).state = (if active then .active else .ringing) ∧
        (t.calls.get c).priority = max 6 (min 9 r.priority) ∧ (t.calls.get c).record = some (h.ref mark) ∧
        (t.calls.get c).parties.map (·.station) = ns ∧ (t.calls.get c).parties.map (·.state) = parties.map joins ∧
        (t.calls.get c).parties.map (·.talk) = raw.map (·.talk) ∧
        (t.calls.get c).parties.map (·.listen) = raw.map (·.listen) ∧
        (t.calls.get c).parties.map (·.ringTimer) =
          parties.map (fun x => if joins x = .ringing then some (1000 * timeout) else none) ∧
        (∀ (i : Fin 8) (q : Party) (b : Fin 256 × Fin 256), (t.calls.get c).parties[i.val]? = some q →
          (s.stations.get q.station).binding = some b → q.state ≠ .busy →
            (q.claim = some b.2 ∧ hasOwner (.party c i) (t.stack b.2) = true) ∨ (q.claim = none ∧ q.outletLost = true)) ∧
        (∀ x ∈ parties, t.stations.get x.2 =
          if joins x = .busy then s.stations.get x.2
          else { s.stations.get x.2 with state := if joins x = .ringing then .ringing else .inCall, call := some c }) ∧
        (∀ n ∉ ns, t.stations.get n = s.stations.get n) ∧
        (r.page = false → (t.calls.get c).page = none) ∧
        (r.page = true → (t.programs.get slot).reservation = some c ∧
          (¬ active → (t.calls.get c).page = some page) ∧
          (active → ∃ g, (t.calls.get c).page = some g ∧ g.slot = slot ∧ g.targets = page.targets ∧
            (g.state = .running ∨ (g.state = .ended ∧ (t.programs.get slot).state = .free))))

/-- OPEN_CALL refused, with no other effect: BAD_FIELD for a bad slot, count, anchor or station, or an anchor with its ring
flag; BAD_SLOT for a page slot of 59 or above; SLOT_BUSY for a call or a page slot in use. Accepted with an anchor that is
not IDLE, the call clears within the take: no TAKEN write, the record returned CLEARED with the final party states, and
no station left in it. Of the causes of such a clearing it speaks of the anchor's alone, not of fewer than two live parties.
That the freed call has every item it does not hold at zero or none is the model's choice, log entry 24. -/
def Obligations.OpenCallChecks : Prop :=
  ∀ (s : State) (h : Hand) (blocks : List (List Byte)),
    let r := openRec h.bytes
    let raw := rawParties (blocks.getLastD []) r.count
    let refused (code : Nat) := exec .openCall s = .next (s.reply .call h code false []).arbitrate
    let mark : Bool := decide (r.priority < 6 ∨ 9 < r.priority ∨ r.ringTimeout < 1 ∨ 120 < r.ringTimeout)
    let bad : Prop := 16 ≤ r.call ∨ r.count < 2 ∨ 8 < r.count ∨ r.count ≤ r.anchor ∨
      (∃ x ∈ raw, 64 ≤ x.station ∨ ∃ n : Fin 64, x.station = n.val ∧ (s.stations.get n).binding = none) ∨
      (∃ x, raw[r.anchor]? = some x ∧ x.ring = true)
    (s.walker .call).stage = .handOver h blocks → h.kind = 0x20 →
      (bad → refused 0x11) ∧ (¬ bad → r.page = true → 59 ≤ r.pageSlot → refused 0x12) ∧
      ∀ c : Fin 16, r.call = c.val → ¬ bad → (r.page = true → r.pageSlot < 59) →
        let pageBusy : Prop := r.page = true ∧ ∃ p : Fin 64, r.pageSlot = p.val ∧
          ((s.programs.get p).state ≠ .free ∨ (s.programs.get p).reservation ≠ none)
        ((s.calls.get c).state ≠ .free ∨ pageBusy → refused 0x13) ∧
        (∀ (x : RawParty) (n : Fin 64), (s.calls.get c).state = .free → ¬ pageBusy → raw[r.anchor]? = some x →
          x.station = n.val → (s.stations.get n).state ≠ .idle → s.takenGranted .call h.addr = false →
          s.claims.arrivals < 4294967295 →
            ∃ (t : State) (final : List Byte), exec .openCall s = .next t ∧ Untouched s t ∧ t.calls.get c = {} ∧
              (t.walker .call).stage = .returnWrite h
                { record := h.ref mark, status := marked 0x08 mark, results := [(28, final)] } false ∧
              final.length = 8 ∧ byteAt final r.anchor % 128 = 3 ∧
              (∀ m, (s.stations.get m).state = .idle → (t.stations.get m).state = .idle) ∧
              (∀ m, (s.stations.get m).state ≠ .idle → t.stations.get m = s.stations.get m) ∧
              ∀ p : Fin 64, r.page = true → r.pageSlot = p.val → (t.programs.get p).reservation = none)

/-- ADD_PARTY, DROP_PARTY and CLOSE_CALL: refused BAD_FIELD or NOT_ACTIVE; a party added to an ACTIVE call joins BUSY or
CONNECTED at the next index; a party dropped from an ACTIVE call that goes on is LEFT, without a claim, and its station
IDLE; a closed call is CLEARING with every party's final state kept and no party RINGING or CONNECTED. MIX_PERIOD_START
makes every CLEARING call FREE, clears its page slot's reservation, and asks for the return of its OPEN_CALL record with
CLEARED and the final party states kept at its entry to CLEARING, in eight bytes. It leaves out a party that joins RINGING,
and what an added or a dropped party does to a call that is not ACTIVE or does not stay ACTIVE.
That the freed call has every item it does not hold at zero or none is the model's choice, log entry 24. -/
def Obligations.CallRecords : Prop :=
  (∀ (s : State) (audio : List (List Sample)) (c : Fin 16),
    let call := s.calls.get c
    call.state = .clearing → ∃ t, exec (.mixPeriodStart audio) s = .next t ∧ t.calls.get c = {} ∧
      (∀ g, call.page = some g → (t.programs.get g.slot).reservation = none) ∧
      ∀ r, call.record = some r → s.port.grant ≠ none → t.returns .call
        { record := r, status := marked 0x08 r.mark
          results := [(28, (call.final ++ List.replicate 8 0).take 8)] }) ∧
  (∀ (s : State) (h : Hand) (b : List (List Byte)),
    let r := addRec h.bytes
    let refused (code : Nat) :=
      exec .addParty s = .next (s.reply .call h code false [(16, [0xFF])]).arbitrate
    (s.walker .call).stage = .handOver h b → h.kind = 0x21 →
      (16 ≤ r.call ∨ 64 ≤ r.station → refused 0x11) ∧
      ∀ (c : Fin 16) (n : Fin 64), r.call = c.val → r.station = n.val →
        let call := s.calls.get c
        let x := s.stations.get n
        let index := call.parties.length
        let party : Party :=
          { station := n, ring := r.ring, talk := r.talk, listen := r.listen, state := .busy, outletLost := false
            ringTimer := none, arrival := s.claims.arrivals, claim := none }
        (x.binding = none → refused 0x11) ∧
        (x.binding ≠ none → (call.state = .free ∨ call.state = .clearing) → refused 0x17) ∧
        (x.binding ≠ none → call.state ≠ .free → call.state ≠ .clearing → 8 ≤ index → refused 0x11) ∧
        (∀ i o, x.binding = some (i, o) → call.state = .active → call.everActive = true → index < 8 →
          call.anchor < index → call.anchorGone = false → 2 ≤ (call.parties.filter (·.state == .connected)).length →
          s.claims.arrivals < 4294967295 →
            (x.state ≠ .idle → ∃ t, exec .addParty s = .next t ∧ Untouched s t ∧
              (t.walker .call).stage = .returnWrite h
                { record := h.ref false, status := 0x02, results := [(16, [BitVec.ofNat 8 index])] } false ∧
              t.calls = s.calls.set c { call with parties := call.parties ++ [party] } ∧
              t.claims = { s.claims with arrivals := s.claims.arrivals + 1 } ∧ t.stations = s.stations ∧
              t.programs = s.programs) ∧
            (x.state = .idle → (r.ring = false ∨ x.offHook = true) → (s.outlets.get o).kind = .station →
              hasOwner (.party c ⟨index % 8, Nat.mod_lt _ (by decide)⟩) (s.stack o) = false → (s.stack o).length < 8 →
                ∃ t, exec .addParty s = .next t ∧ Untouched s t ∧
                  (t.walker .call).stage = .returnWrite h
                    { record := h.ref false, status := 0x02, results := [(16, [BitVec.ofNat 8 index])] } false ∧
                  t.calls = s.calls.set c { call with
                    parties := call.parties ++ [{ party with state := .connected, claim := some o }] } ∧
                  t.stations = s.stations.set n { x with state := .inCall, call := some c } ∧
                  (∀ y, y ≠ o → t.stack y = s.stack y) ∧
                  t.stack o = nameStack (s.lockFloor o) (insertClaim
                    { owner := .party c ⟨index % 8, Nat.mod_lt _ (by decide)⟩, priority := call.priority
                      arrival := s.claims.arrivals, duckable := false, allowsUndertone := true, state := .waiting }
                    (s.stack o))))) ∧
  (∀ (s : State) (h : Hand) (b : List (List Byte)),
    let slot := byteAt h.bytes 8
    let index := byteAt h.bytes 9
    let refused (code : Nat) := exec .dropParty s = .next (s.reply .call h code false []).arbitrate
    (s.walker .call).stage = .handOver h b → h.kind = 0x22 → (16 ≤ slot → refused 0x11) ∧ ∀ c : Fin 16, slot = c.val →
      let call := s.calls.get c
      (call.state = .free → refused 0x17) ∧
      (call.state ≠ .free → call.parties.length ≤ index → refused 0x11) ∧
      ∀ (i : Fin 8) (p : Party), index = i.val → call.parties[i.val]? = some p →
        (call.state = .clearing ∨ (call.state ≠ .free ∧ p.state ≠ .ringing ∧ p.state ≠ .connected) → refused 0x17) ∧
        (call.state = .active → call.everActive = true → p.state = .connected → call.anchor ≠ index →
          call.anchorGone = false → 3 ≤ (call.parties.filter (·.state == .connected)).length →
            ∃ t, exec .dropParty s = .next t ∧ Untouched s t ∧
              (t.walker .call).stage =
                .returnWrite h { record := h.ref false, status := 0x02, results := [] } false ∧
              t.calls = s.calls.set c { call with
                parties := call.parties.set i.val { p with state := .left, ringTimer := none, claim := none } } ∧
              t.stations = s.stations.set p.station { s.stations.get p.station with state := .idle, call := none } ∧
              (∀ o, p.claim = some o → hasOwner (.party c i) (t.stack o) = false) ∧
              ∀ o, p.claim ≠ some o → t.stack o = s.stack o)) ∧
  ∀ (s : State) (h : Hand) (b : List (List Byte)),
    let slot := byteAt h.bytes 8
    let refused (code : Nat) := exec .closeCall s = .next (s.reply .call h code false []).arbitrate
    (s.walker .call).stage = .handOver h b → h.kind = 0x23 →
      (16 ≤ slot → refused 0x11) ∧
      ∀ c : Fin 16, slot = c.val →
        let call := s.calls.get c
        (call.state = .free ∨ call.state = .clearing → refused 0x17) ∧
        (call.state ≠ .free → call.state ≠ .clearing → call.parties.length ≤ 8 → ∃ t, exec .closeCall s = .next t ∧
          Untouched s t ∧
          (t.walker .call).stage = .returnWrite h { record := h.ref false, status := 0x02, results := [] } false ∧
          (t.calls.get c).state = .clearing ∧ (t.calls.get c).final = call.parties.map Party.finalByte ∧
          (t.calls.get c).record = call.record ∧
          (call.page = none → ∀ d, d ≠ c → t.calls.get d = s.calls.get d) ∧
          (∀ p ∈ (t.calls.get c).parties, p.state ≠ .ringing ∧ p.state ≠ .connected ∧ p.claim = none) ∧
          ∀ p ∈ call.parties, p.live = true →
            (t.stations.get p.station).state = .idle ∧ (t.stations.get p.station).call = none)

/-- The hold and ring timers at their expiry: the station is LOST with its note, the RINGING party is NO_ANSWER and its
station IDLE; a timer that is not due does nothing. MIX_PERIOD_START counts every hold timer down by 1, in every part state,
but where its expiry stands or its station's trunk leaves UP, and there it stops; and, with no such loss and no expiry due,
every ring timer.
A timer not due, an expiry not yet taken that the period start takes ahead of its counts (log entries 1, 3 and 15), that
the ms steps come at the mix period starts (log entry 14), and that a loss's note comes after its acts (log entry 12), are
the model's choices. -/
def Obligations.StationTimers : Prop :=
  (∀ (s : State) (audio : List (List Sample)), ∃ t, exec (.mixPeriodStart audio) s = .next t ∧
    (∀ n : Fin 64,
      let x := s.stations.get n
      let drops : Prop := ∃ i o, x.binding = some (i, o) ∧ (s.trunks.get (trunkOf i)).link = .up ∧
        (s.trunks.get (trunkOf i)).sync = some 0
      (¬ drops → x.holdTimer ≠ some 0 → (t.stations.get n).holdTimer = x.holdTimer.map (· - 1)) ∧
      (drops ∨ x.holdTimer = some 0 → x.state ≠ .undefined → x.state ≠ .lost → (t.stations.get n).holdTimer = none)) ∧
    ((∀ k, (s.trunks.get k).link = .up → (s.trunks.get k).sync ≠ some 0) →
      (∀ n, (s.stations.get n).holdTimer ≠ some 0) → (∀ c, ∀ q ∈ (s.calls.get c).parties, q.ringTimer ≠ some 0) →
      (s.beatRunning = true → s.beat.counter ≠ 0) → ∀ c, (s.calls.get c).state ≠ .clearing →
        (t.calls.get c).state = (s.calls.get c).state ∧
        (t.calls.get c).parties =
          (s.calls.get c).parties.map fun q => { q with ringTimer := q.ringTimer.map (· - 1) })) ∧
  (∀ (s : State) (n : Fin 64),
    let x := s.stations.get n
    (x.holdTimer ≠ some 0 → exec (.holdTimerExpiry n) s = .next s.arbitrate) ∧
    (x.holdTimer = some 0 → x.state = .idle → x.call = none → exec (.holdTimerExpiry n) s =
      .next ((s.modStation n fun x => { x with state := .lost, holdTimer := none }).emitNote .station 3 n.val
        255).arbitrate) ∧
    (∀ c, x.holdTimer = some 0 → (x.state = .ringing ∨ x.state = .inCall) → x.call = some c →
      (∀ (j : Fin 8) (q : Party), (s.calls.get c).parties[j.val]? = some q → q.live = true → q.station = n →
        s.partyOf c n = some j) →
      ∃ t, exec (.holdTimerExpiry n) s = .next t ∧ Untouched s t ∧ (t.stations.get n).state = .lost ∧
        (t.stations.get n).call = none ∧ (t.stations.get n).holdTimer = none ∧
        (t.stations.get n).offHook = x.offHook ∧ (t.stations.get n).binding = x.binding ∧
        (s.port.grant ≠ none →
          t.noted { kind := .station, code := 3, subject := n.val, detail := c.val, time := s.time }) ∧
        ∀ i, s.partyOf c n = some i → ∀ p, (t.calls.get c).parties[i.val]? = some p →
          p.state = .lost ∧ p.ringTimer = none ∧ p.claim = none)) ∧
  ∀ (s : State) (c : Fin 16) (i : Fin 8) (p : Party),
    let call := s.calls.get c
    call.parties[i.val]? = some p →
      (p.state ≠ .ringing ∨ p.ringTimer ≠ some 0 → exec (.ringTimerExpiry c i) s = .next s.arbitrate) ∧
      (p.state = .ringing → p.ringTimer = some 0 → call.state = .active → call.everActive = true →
        call.anchor ≠ i.val → call.anchorGone = false → 2 ≤ (call.parties.filter (·.state == .connected)).length →
          ∃ t, exec (.ringTimerExpiry c i) s = .next t ∧ Untouched s t ∧
            t.calls = s.calls.set c { call with
              parties := call.parties.set i.val { p with state := .noAnswer, ringTimer := none, claim := none } } ∧
            t.stations = s.stations.set p.station { s.stations.get p.station with state := .idle, call := none } ∧
            (∀ o, p.claim = some o → hasOwner (.party c i) (t.stack o) = false) ∧
            ∀ o, p.claim ≠ some o → t.stack o = s.stack o)

/-- INBOUND_CONTROL_BLOCK with one present inlet slot: its report goes to the station bound to that inlet, or to nobody. A
report without presence changes nothing; presence reloads the hold timer and brings a LOST station back to IDLE with its
note; then a changed hook is stored and noted, and answers a RINGING party or hangs up a CONNECTED one; then a key is
noted. The hook note shows the call the station was in before the change, the key note the one it is in after it.
The order of the reports of one block is the model's: log entry 28. -/
def Obligations.StationReports : Prop :=
  ∀ (s : State) (k : Fin 4) (b : ControlBlock) (r : StationReport),
    let t := s.trunks.get k
    let g := b.group
    let i := outletAt k ⟨8 * g.val, by omega⟩
    let base := s.modTrunk k fun t => { t with sync := some 4 }
    let code (c : Option (Fin 16)) : Nat := match c with | some c => c.val | none => 255
    t.link = .up → t.served ≤ 8 * g.val → 8 * g.val < t.present → t.present ≤ 8 * g.val + 1 → b.stations[0]? = some r →
    (∀ y : Fin 8, y.val / 2 = k.val → (s.changeovers.get y).state = .free ∨ (s.changeovers.get y).state = .active) →
      (r.present = false ∨ (∀ n o, (s.stations.get n).binding ≠ some (i, o)) →
        exec (.inboundControlBlock k b) s = .next base.arbitrate) ∧
      ∀ (n : Fin 64) (o : Fin 256), r.present = true → (s.stations.get n).binding = some (i, o) →
        (∀ m q, m < n → (s.stations.get m).binding ≠ some (i, q)) →
          let x := s.stations.get n
          let hooked (u : State) : State :=
            if r.offHook = x.offHook then u
            else (u.modStation n fun y => { y with offHook := r.offHook }).emitNote .station (if r.offHook then 1 else 2)
              n.val (code x.call)
          let keyed (u : State) : State :=
            match r.key with
            | some y => u.emitNote .stationKey y.val n.val (code x.call)
            | none => u
          (x.state = .idle ∨ (x.state = .ringing ∧ (r.offHook = false ∨ x.offHook = true)) ∨
              (x.state = .inCall ∧ (r.offHook = true ∨ x.offHook = false)) →
            exec (.inboundControlBlock k b) s = .next (keyed (hooked (base.modStation n fun y =>
              { y with holdTimer := some x.holdValue }))).arbitrate) ∧
          (x.state = .lost → exec (.inboundControlBlock k b) s =
            .next (keyed (hooked ((base.modStation n fun y =>
              { y with state := .idle, holdTimer := some x.holdValue }).emitNote .station 4 n.val 255))).arbitrate) ∧
          ∀ (c : Fin 16) (j : Fin 8) (p : Party), x.call = some c → s.partyOf c n = some j →
            (s.calls.get c).parties[j.val]? = some p → (s.calls.get c).state = .active →
            (s.calls.get c).everActive = true → (s.calls.get c).anchorGone = false →
              let call := s.calls.get c
              (x.state = .ringing → x.offHook = false → r.offHook = true → p.state = .ringing →
                2 ≤ (call.parties.filter (·.state == .connected)).length →
                ∃ u, exec (.inboundControlBlock k b) s = .next u ∧
                  u.calls = s.calls.set c { call with
                    parties := call.parties.set j.val { p with state := .connected, ringTimer := none } } ∧
                  u.stations = s.stations.set n { x with
                    state := .inCall, offHook := true, holdTimer := some x.holdValue } ∧
                  (s.port.grant ≠ none → u.notes = (keyed (s.emitNote .station 1 n.val c.val)).notes) ∧
                  u.claims = s.claims ∧ u.programs = s.programs) ∧
              (x.state = .inCall → x.offHook = true → r.offHook = false → p.state = .connected → call.anchor ≠ j.val →
                3 ≤ (call.parties.filter (·.state == .connected)).length →
                ∃ u, exec (.inboundControlBlock k b) s = .next u ∧
                  u.calls = s.calls.set c { call with
                    parties := call.parties.set j.val { p with state := .left, ringTimer := none, claim := none } } ∧
                  u.stations = s.stations.set n { x with
                    state := .idle, call := none, offHook := false, holdTimer := some x.holdValue } ∧
                  (s.port.grant ≠ none → u.notedAll
                    ({ kind := .station, code := 2, subject := n.val, detail := c.val, time := s.time } ::
                      r.key.toList.map fun y =>
                        { kind := .stationKey, code := y.val, subject := n.val, detail := 255, time := s.time })) ∧
                  (∀ o, p.claim = some o → hasOwner (.party c j) (u.stack o) = false) ∧
                  ∀ o, p.claim ≠ some o → u.stack o = s.stack o)

/-! ### Alarms and contacts (chapter 8) -/

/-- RAISE_ALARM, SILENCE_ALARM and RESET_ALARM: BAD_FIELD for a bad kind; no effect where no entry changes; otherwise a
raise, a silence or a reset of the areas whose entry changes (`AlarmRaised`, `AlarmCleared`): the entries, the lock floors,
the claims, the kind's arrival number and its program follow, ALARM is set in CAUSE and an ALARM_STATE note of those areas
with cause record is queued last (or one is lost at a full queue); and the record is returned DONE. A raise that takes an
area from QUIET issues one arrival number, and one of SILENCED areas alone keeps the kind's last; its claims, at the
audience outlets of those areas whose stack had room or a last claim of lower priority, and its program have that number. A
program that leaves FREE has phase TONE and a voice, and a channel for its voice phase outside FALLBACK. With no target left
a program becomes FREE, and gives back its voice and its channel. The voice an alarm asks for: the lowest free one; else the
chime's of the lowest priority and then highest number, whose program skips its chime and plays; else the ring's. The
channel it asks for: the lowest FREE one; else it seizes the host's or show source's of the lowest owner priority below 12
and then highest number, whose transfer is discarded and whose program ends SEIZED or whose source is noted. That the note
comes after the claims and the program have changed is the model's order: log entry 12. -/
def Obligations.AlarmRecords : Prop :=
  (∀ (s : State) (k : AlarmKind) (pattern : Fin 12) (v : Fin 8),
    let t := s.alarmVoice k pattern
    let user (w : Fin 8) : VoiceUser := (s.tones.voices.get w).user
    let taken : Prop :=
      t.tones.voices = s.tones.voices.set v { user := .alarm k, mode := .starting false, pattern := pattern }
    let noChime : Prop := ∀ w q, user w ≠ .chime q
    (user v = .nobody → (∀ w < v, user w ≠ .nobody) → taken ∧ t.programs = s.programs) ∧
    ((∀ w, user w ≠ .nobody) →
      (∀ p, user v = .chime p →
        (∀ w q, user w = .chime q → (s.programs.get p).priority < (s.programs.get q).priority ∨
          ((s.programs.get p).priority = (s.programs.get q).priority ∧ w ≤ v)) →
        taken ∧ (t.programs.get p).chimeSkipped = true ∧
        (t.programs.get p).state =
          (if (s.programs.get p).kind = .theatre ∧ s.theatre.state = .held then .held else .playing) ∧
        ∀ q, q ≠ p → t.programs.get q = s.programs.get q) ∧
      (noChime → user v = .ring → (∀ w < v, user w ≠ .ring) → taken ∧ t.programs = s.programs) ∧
      (noChime → (∀ w, user w ≠ .ring) → t = s))) ∧
  (∀ (s : State) (k : AlarmKind) (d : StreamDesc) (c : Fin 16),
    let t := s.alarmBind k d
    let ch := s.channels.get c
    let priority (e : Fin 16) : Nat := s.ownerPriority (s.channels.get e)
    let candidate (e : Fin 16) : Prop := (s.channels.get e).owner ≠ none ∧
      (∀ p : Fin 64, (s.channels.get e).owner = some (.program p) → p.val < 60) ∧
      (s.channels.get e).state ≠ .free ∧ (s.channels.get e).state ≠ .ended ∧ priority e < 12
    let bound : Channel :=
      { state := .priming, owner := some (.program k.slot), desc := d, passes := 1, cur := .toRead d.first }
    s.inWindow d.first 32 32 = true →
      (ch.state = .free → (∀ e < c, (s.channels.get e).state ≠ .free) → t = s.modChannel c fun _ => bound) ∧
      ((∀ e, (s.channels.get e).state ≠ .free) →
        ((∀ e, ¬ candidate e) → t = s) ∧
        (candidate c → (∀ e, candidate e → priority c < priority e ∨ (priority c = priority e ∧ e ≤ c)) →
          (∀ x g, s.port.grant = some ⟨.channel c x, g⟩ → t.port.grant = some ⟨.channel c x, true⟩) ∧
          (∀ p, ch.owner = some (.program p) → (s.programs.get p).state ≠ .free →
            (s.programs.get k.slot).state ≠ .gathering → ProgramEnded s t p 0x06 ∧ t.channels.get c = bound) ∧
          ∀ x, ch.owner = some (.source x) → t.channels.get c = bound ∧
            (∀ e, e ≠ c → t.channels.get e = s.channels.get e) ∧ t.programs = s.programs ∧ t.theatre = s.theatre ∧
            t.noted { kind := .streamStarved, code := 3, subject := c.val, detail := 0x200 + x.val, time := s.time }))) ∧
  ∀ (s : State) (h : Hand) (b : List (List Byte)),
    let code := byteAt h.bytes 8
    let areas := (allFin 16).filter fun a => bitOf (halfAt h.bytes 10) a.val
    let done : Stage := .returnWrite h { record := h.ref false, status := 0x02, results := [] } false
    (s.walker .alarm).stage = .handOver h b →
      (h.kind = 0x30 → 4 ≤ code → exec .raiseAlarm s = .next (s.reply .alarm h 0x11 false []).arbitrate) ∧
      (h.kind = 0x31 → 4 ≤ code → exec .silenceAlarm s = .next (s.reply .alarm h 0x11 false []).arbitrate) ∧
      (h.kind = 0x32 → 4 ≤ code → exec .resetAlarm s = .next (s.reply .alarm h 0x11 false []).arbitrate) ∧
      ∀ k : AlarmKind, code = k.idx.val →
        let answers (c : Instr) (u : State) : Prop :=
          exec c s = .next (u.reply .alarm h 0x02 false []).arbitrate ∧
            ((u.reply .alarm h 0x02 false []).arbitrate.walker .alarm).stage = done
        (h.kind = 0x30 →
          (s.alarmDef k = none → exec .raiseAlarm s = .next (s.reply .alarm h 0x11 false []).arbitrate) ∧
          (s.alarmDef k ≠ none → (∀ a ∈ areas, s.areaState k a = .sounding) → answers .raiseAlarm s) ∧
          (s.alarmDef k ≠ none → (∃ a ∈ areas, s.areaState k a ≠ .sounding) → ∃ u, answers .raiseAlarm u ∧
            AlarmRaised s u k (areas.filter fun a => s.areaState k a != .sounding) 0)) ∧
        (h.kind = 0x31 →
          ((∀ a ∈ areas, s.areaState k a ≠ .sounding) → answers .silenceAlarm s) ∧
          ((∃ a ∈ areas, s.areaState k a = .sounding) → ∃ u, answers .silenceAlarm u ∧
            AlarmCleared s u k .silenced (areas.filter fun a => s.areaState k a == .sounding) 0)) ∧
        (h.kind = 0x32 →
          ((∀ a ∈ areas, s.areaState k a = .quiet) → answers .resetAlarm s) ∧
          ((∃ a ∈ areas, s.areaState k a ≠ .quiet) → ∃ u, answers .resetAlarm u ∧
            AlarmCleared s u k .quiet (areas.filter fun a => s.areaState k a != .quiet) 0))

/-- A contact sample, and an accepted closure and opening: twenty differing samples in a row change the accepted level; an
accepted closure sets CONTACT in CAUSE and makes its CONTACT note before any other (lost at a full queue). MUSTER_CONTACT
and FIRE_CONTACT raise their kind in all areas where it does not sound, defined or not, with all that a raise does
(`AlarmRaised`), ALARM and an ALARM_STATE note of those areas with cause contact after the CONTACT note among it;
SILENCE_CONTACT silences every sounding kind where it sounds, from MUSTER to CREW_ALERT, with all that a silence does
(`AlarmCleared`); where no entry changes there is nothing more. MIC_CONTACT starts program 59 on the CONTACT_MIC inlet where
it may, an opening of MIC_CONTACT ends it, and any other opening only changes the filter. An acceptance that is not due does
nothing: the model's choice, log entries 3 and 27. That an ALARM_STATE note comes after the claims and the program have
changed is the model's order: log entry 12. -/
def Obligations.Contacts : Prop :=
  ∀ (s : State) (line : Fin 4),
    let x := s.contacts.get line
    let taken : State := State.emitNote .contact 1 line.val 0
      (State.setCause .contact { s with contacts := s.contacts.set line { closed := true, count := 0 } })
    let raises (k : AlarmKind) (t : State) : Prop :=
      ((∀ a, s.areaState k a = .sounding) → t = taken.arbitrate) ∧
      ((∃ a, s.areaState k a ≠ .sounding) → ∃ u, t = u.arbitrate ∧
        AlarmRaised taken u k ((allFin 16).filter fun a => s.areaState k a != .sounding) 1)
    let silences (k : AlarmKind) (u v : State) : Prop :=
      ((∀ a, u.areaState k a ≠ .sounding) → v = u) ∧
      ((∃ a, u.areaState k a = .sounding) →
        AlarmCleared u v k .silenced ((allFin 16).filter fun a => u.areaState k a == .sounding) 1)
    (∀ closed, closed = x.closed → exec (.contactLineSample line closed) s =
      .next (State.arbitrate { s with contacts := s.contacts.set line { x with count := 0 } })) ∧
    (∀ closed, closed ≠ x.closed → x.count < 19 → exec (.contactLineSample line closed) s =
      .next (State.arbitrate { s with contacts := s.contacts.set line { x with count := x.count + 1 } })) ∧
    (x.closed = false → x.count = 19 →
      exec (.contactLineSample line true) s = exec (.acceptedClosure line) s ∧
      ∃ t, exec (.acceptedClosure line) s = .next t ∧
        t.contacts = s.contacts.set line { closed := true, count := 0 } ∧ t.causeHas .contact = true ∧
        t.outlets = s.outlets ∧ t.inlets = s.inlets ∧ t.alarms.defs = s.alarms.defs ∧ t.stations = s.stations ∧
        t.trunks = s.trunks ∧ t.time = s.time ∧ t.part = s.part ∧
        (s.port.grant ≠ none →
          (s.notes.queue.length < 32 → t.notes.queue[s.notes.queue.length]? = some
            { kind := .contact, code := 1, subject := line.val, detail := 0, time := s.time }) ∧
          (32 ≤ s.notes.queue.length → t.notes.queue = s.notes.queue ∧ 0 < t.notes.lost)) ∧
        (line = 0 → (∀ a, t.areaState .muster a = .sounding) ∧ raises .muster t) ∧
        (line = 1 → (∀ a, t.areaState .fire a = .sounding) ∧ raises .fire t) ∧
        (line = 2 → (∀ k a, t.areaState k a = if s.areaState k a = .sounding then .silenced else s.areaState k a) ∧
          ∃ u1 u2 u3 u4, silences .muster taken u1 ∧ silences .fire u1 u2 ∧ silences .security u2 u3 ∧
            silences .crewAlert u3 u4 ∧ t = u4.arbitrate) ∧
        (line = 3 → t.alarms.table = s.alarms.table ∧
          (s.micEnabled = false ∨ s.contactMic = none ∨ (s.programs.get 59).state ≠ .free → t = taken.arbitrate) ∧
          ∀ i, s.micEnabled = true → s.contactMic = some i → (s.programs.get 59).state = .free →
            (t.programs.get 59).state = .playing ∧ (t.programs.get 59).priority = 11 ∧
            (t.programs.get 59).kind = .contactMic ∧ (t.programs.get 59).source = .inlet i)) ∧
    (x.closed = true → x.count = 19 → exec (.contactLineSample line false) s = exec (.acceptedOpening line) s ∧
      (line ≠ 3 → exec (.acceptedOpening line) s =
        .next (State.arbitrate { s with contacts := s.contacts.set line { closed := false, count := 0 } })) ∧
      (line = 3 → ∃ t, exec (.acceptedOpening line) s = .next t ∧ (t.programs.get 59).state = .free ∧
        t.contacts = s.contacts.set line { closed := false, count := 0 } ∧
        ((s.programs.get 59).state ≠ .free → ∀ o, hasOwner (.program 59) (t.stack o) = false) ∧
        t.alarms = s.alarms ∧ t.outlets = s.outlets ∧ t.stations = s.stations)) ∧
    (x.count ≠ 19 → exec (.acceptedClosure line) s = .next s ∧ exec (.acceptedOpening line) s = .next s)

/-! ### The show (chapter 9) -/

/-- CUE, GO and BIND_SOURCE: a bad cue or a bad track action is refused; a cue joins the queue with its actions, and the
first one makes the show READY, or WAITING, or starts at once, or, in a show held from IDLE, the state it is held from; GO
starts the head (NEXT from LIVE and the scene, the track actions in order, T_f from the fade), or is refused; with a fade of 0
the cue completes at once; in FADING the fade completes and the new head starts. A track action starts a stream on its
source, with the channel it had released first, or releases the channel; a released channel has no owner and no samples. A
source takes its binding.
That a GO in FADING starts an AUTO head with delay 0 once only (log entry 45), and that T_f stands at 0 after a fade has
completed (log entry 39), are the model's choices. -/
def Obligations.CueRecords : Prop :=
  (∀ (s : State) (h : Hand) (blocks : List (List Byte)),
    let r := cueRec h.bytes
    let raw := rawTracks (blocks.getD 1 []) r.tracks
    let good (x : RawTrack) : Prop := ∃ y : Fin 16, x.source = y.val ∧ (x.action = 1 ∨ (x.action = 0 ∧
      x.desc.format ≤ 1 ∧ x.desc.order ≤ 1 ∧ x.desc.mode ≤ 1 ∧ s.inWindow x.desc.first 32 32 = true ∧
      s.theatre.bindings.get y = .playback))
    let prime (n : Nat) : Nat := if n = 0 then 1024 else max 256 (min 4096 (n / 256 * 256))
    let action (x : RawTrack) : TrackAction :=
      let y : Fin 16 := ⟨x.source % 16, by omega⟩
      if x.action = 0 then .start y
        { first := x.desc.first, pcm24 := x.desc.format == 1, swapped := x.desc.order == 1, repeats := x.desc.mode == 1
          count := x.desc.count, prime := prime x.desc.prime }
      else .stop y
    let scene := (List.range 136).map fun i => halfAt (blocks.headD []) (2 * i)
    let mark : Bool := decide (60000 < r.fade ∨ 600000 < r.delay) ||
      raw.any fun x => x.action == 0 && x.desc.prime != 0 && prime x.desc.prime != x.desc.prime
    let cue : Machine.Cue :=
      { record := h.ref mark, scene, fade := min 60000 r.fade, auto := r.follow == 1, delay := min 600000 r.delay
        tracks := raw.map action }
    let queued (t : Theatre) : Theatre := { t with queue := t.queue ++ [cue] }
    (s.walker .cue).stage = .handOver h blocks → h.kind = 0x40 →
      (4 < r.tracks ∨ 1 < r.follow ∨ (∃ x ∈ raw, ¬ good x) →
        exec .cue s = .next (s.reply .cue h 0x11 false []).arbitrate) ∧
      (r.tracks ≤ 4 → (∀ x ∈ raw, good x) →
        (r.follow = 0 → s.theatre.state = .idle → s.theatre.queue = [] → exec .cue s =
          .next ((s.take .cue h mark).modTheatre fun t => { queued t with state := .ready, follow := none }).arbitrate) ∧
        (r.follow = 1 → r.delay ≠ 0 → s.theatre.state = .idle → s.theatre.queue = [] → exec .cue s =
          .next ((s.take .cue h mark).modTheatre fun t =>
            { queued t with state := .waiting, follow := some (min 600000 r.delay) }).arbitrate) ∧
        (r.follow = 1 → r.delay = 0 → r.tracks = 0 → r.fade ≠ 0 → s.theatre.state = .idle → s.theatre.queue = [] →
          exec .cue s = .next ((s.take .cue h mark).modTheatre fun t => (queued t).begun cue).arbitrate) ∧
        (r.follow = 1 → r.delay = 0 → r.tracks = 0 → r.fade = 0 → s.theatre.state = .idle → s.theatre.queue = [] →
          s.takenGranted .cue h.addr = false → exec .cue s =
            .next ((s.setStage .cue (.returnWrite h { record := h.ref mark, status := marked 0x02 mark, results := [] }
              false)).modTheatre fun t => t.completed (cue.over t.live) []).arbitrate) ∧
        (r.follow ≤ 1 → s.theatre.state = .ready ∨ s.theatre.state = .waiting ∨ s.theatre.state = .fading →
          exec .cue s = .next ((s.take .cue h mark).modTheatre queued).arbitrate) ∧
        ∀ x, s.theatre.state = .held → s.theatre.hold = some x →
          (r.follow = 0 → x.heldFrom = .idle → exec .cue s = .next ((s.take .cue h mark).modTheatre fun t =>
            { queued t with hold := some { x with heldFrom := .ready } }).arbitrate) ∧
          (r.follow = 1 → x.heldFrom = .idle → exec .cue s = .next ((s.take .cue h mark).modTheatre fun t =>
            { queued t with
                hold := some { x with heldFrom := .waiting }, follow := some (min 600000 r.delay) }).arbitrate) ∧
          (r.follow ≤ 1 → x.heldFrom ≠ .idle →
            exec .cue s = .next ((s.take .cue h mark).modTheatre queued).arbitrate))) ∧
  (∀ (s : State) (h : Hand) (b : List (List Byte)),
    let returned (cue : Machine.Cue) (u : State) : State :=
      { u with lists := { u.lists with returns := u.lists.returns.modify ListId.cue.idx fun q =>
          q ++ [{ record := cue.record, status := marked 0x02 cue.record.mark, results := [] }] } }
    let answers (u : State) : Prop := exec .go s = .next (u.reply .cue h 0x02 false []).arbitrate
    (s.walker .cue).stage = .handOver h b → h.kind = 0x41 →
      (s.theatre.state = .idle → exec .go s = .next (s.reply .cue h 0x16 false []).arbitrate) ∧
      (s.theatre.state = .held → exec .go s = .next (s.reply .cue h 0x17 false []).arbitrate) ∧
      (∀ (cue : Machine.Cue) (rest : List Machine.Cue), s.theatre.queue = cue :: rest →
        (s.theatre.state = .ready ∨ s.theatre.state = .waiting) →
          (cue.fade ≠ 0 → s.opens cue → answers ((s.tracked cue).modTheatre fun t => t.begun cue)) ∧
          (cue.fade = 0 → cue.tracks = [] → ¬ atOnce rest →
            answers (returned cue (s.modTheatre fun t => t.completed (cue.over t.live) rest)))) ∧
      ∀ (cue : Machine.Cue) (rest : List Machine.Cue) (bank : Bank), s.theatre.queue = cue :: rest →
        s.theatre.state = .fading → s.theatre.next = some bank →
          (rest = [] → answers (returned cue (s.modTheatre fun t => t.completed bank []))) ∧
          ∀ (head : Machine.Cue) (after : List Machine.Cue), rest = head :: after → head.tracks = [] →
            (head.fade ≠ 0 → answers (returned cue (s.modTheatre fun t => (t.completed bank rest).begun head))) ∧
            (head.fade = 0 → ¬ atOnce after → answers (returned head (returned cue
              (s.modTheatre fun t => t.completed (head.over bank) after))))) ∧
  (∀ (s : State) (w : ChanOwner),
    let t := s.releaseChannel w
    (s.channelOf w = none → t = s) ∧
    ∀ c, s.channelOf w = some c → (s.channels.get c).state ≠ .free → (s.channels.get c).state ≠ .ended →
      (t.channels.get c).owner = none ∧ (t.channels.get c).fifo = [] ∧
      ((t.channels.get c).state = .ended ∨ (t.channels.get c).state = .free) ∧
      (∀ e, e ≠ c → t.channels.get e = s.channels.get e) ∧
      (∀ x, s.port.grant = some ⟨.channel c x, false⟩ → (∀ y, x ≠ .writeBack y) →
        t.port.grant = some ⟨.channel c x, true⟩) ∧
      ((∀ x g, s.port.grant ≠ some ⟨.channel c x, g⟩) → { t with channels := s.channels } = s)) ∧
  ∀ (s : State) (h : Hand) (b : List (List Byte)),
    let r := bindRec h.bytes
    let refused := exec .bindSource s = .next (s.reply .cue h 0x11 false []).arbitrate
    let takes (x : Fin 16) (y : Machine.Binding) : Prop :=
      (s.theatre.bindings.get x = y → exec .bindSource s = .next (s.reply .cue h 0x02 false []).arbitrate) ∧
      (s.theatre.bindings.get x ≠ y → s.channelOf (.source x) = none → exec .bindSource s =
        .next ((s.modTheatre fun t => { t with bindings := t.bindings.set x y }).reply .cue h 0x02 false []).arbitrate)
    (s.walker .cue).stage = .handOver h b → h.kind = 0x45 →
      (16 ≤ r.source ∨ 2 < r.binding ∨ (r.binding = 1 ∧ (256 ≤ r.inlet ∨
        ∃ i : Fin 256, r.inlet = i.val ∧ s.inlets.get i ≠ .line)) → refused) ∧
      ∀ x : Fin 16, r.source = x.val → (r.binding = 0 → takes x .unbound) ∧ (r.binding = 2 → takes x .playback) ∧
        ∀ i : Fin 256, r.binding = 1 → r.inlet = i.val → s.inlets.get i = .line → takes x (.line i)

/-- HOLD_SHOW, RESUME_SHOW and CLEAR_SHOW: the show is held from its state, with every playing SHOW program HELD and every
show source's channel paused; it returns to that state, with every HELD program PLAYING and the channels resumed; or it is
cleared, with LIVE kept, the sources' channels released, the queue returned STOPPED and, where it was held, every HELD
program PLAYING. No other program changes. Each makes its SHOW_STATE note. SHOW programs present a bus and have no channel of their own.
That a hold by HOLD_SHOW records its auto-resume flag as clear (log entry 30), and that a resumed fade keeps whether it has
begun and a cleared one leaves T_f at 0 (log entry 39), are the model's choices. -/
def Obligations.ShowHold : Prop :=
  ∀ (s : State) (h : Hand) (b : List (List Byte)),
    let st := s.theatre.state
    let done : Stage := .returnWrite h { record := h.ref false, status := 0x02, results := [] } false
    let signalled (f : Channel → Channel) (t : State) : Prop := ∀ c,
      { t.channels.get c with reread := false } =
        { (if ∃ x, s.channelOf (.source x) = some c then f (s.channels.get c) else s.channels.get c) with reread := false }
    let noted (code subject detail : Nat) (t : State) : Prop :=
      s.port.grant ≠ none → t.notes = (s.emitNote .showState code subject detail).notes
    (s.walker .cue).stage = .handOver h b →
      (h.kind = 0x42 → st ≠ .held → ∃ t, exec .holdShow s = .next t ∧ Untouched s t ∧ (t.walker .cue).stage = done ∧
        t.theatre = { s.theatre with
          state := .held, hold := some { byHost := true, heldFrom := st, autoResume := false, outlets := [] } } ∧
        signalled Channel.signalPause t ∧ noted 1 0xFFFF (0xFFFF + 65536 * st.code) t ∧
        t.claims = s.claims ∧ t.mixer = s.mixer ∧ t.stations = s.stations ∧ t.calls = s.calls ∧
        ∀ p, t.programs.get p =
          if (s.programs.get p).kind = .theatre ∧ (s.programs.get p).state = .playing then
            { s.programs.get p with state := .held }
          else s.programs.get p) ∧
      (∀ r, h.kind = 0x42 → st = .held → s.theatre.hold = some r →
        (r.byHost = true → exec .holdShow s = .next (s.reply .cue h 0x02 false []).arbitrate) ∧
        (r.byHost = false → exec .holdShow s = .next (State.reply .cue h 0x02 false []
          ((s.modTheatre fun t => { t with hold := some { r with byHost := true } }).emitNote .showState 1 0xFFFF
            (0xFFFF + 65536 * r.heldFrom.code))).arbitrate)) ∧
      (h.kind = 0x43 → st ≠ .held → exec .resumeShow s = .next (s.reply .cue h 0x17 false []).arbitrate) ∧
      (∀ r, h.kind = 0x43 → st = .held → s.theatre.hold = some r →
        ∃ t, exec .resumeShow s = .next t ∧ Untouched s t ∧ (t.walker .cue).stage = done ∧
          t.theatre = { s.theatre with state := r.heldFrom, hold := none } ∧ t.claims = s.claims ∧
          signalled Channel.signalResume t ∧ noted 2 1 r.heldFrom.code t ∧
          ∀ p, t.programs.get p =
            if (s.programs.get p).kind = .theatre ∧ (s.programs.get p).state = .held then
              ({ s.programs.get p with state := .playing } : Program).startDuration
            else s.programs.get p) ∧
      (h.kind = 0x44 → ∃ t, exec .clearShow s = .next t ∧ Untouched s t ∧ (t.walker .cue).stage = done ∧
        t.theatre = { s.theatre with
          state := .idle, queue := [], next := none, pos := 0, len := 0, fresh := false, follow := none, hold := none } ∧
        noted 3 0 s.theatre.queue.length t ∧
        (∀ c, (∀ x, s.channelOf (.source x) ≠ some c) →
          { t.channels.get c with reread := false } = { s.channels.get c with reread := false }) ∧
        (∀ x c, s.channelOf (.source x) = some c → (s.channels.get c).state ≠ .free → (s.channels.get c).state ≠ .ended →
          (t.channels.get c).owner = none ∧ (t.channels.get c).fifo = [] ∧
          ((t.channels.get c).state = .ended ∨ (t.channels.get c).state = .free)) ∧
        t.claims = s.claims ∧
        (∀ p, t.programs.get p =
          if st = .held ∧ (s.programs.get p).kind = .theatre ∧ (s.programs.get p).state = .held then
            ({ s.programs.get p with state := .playing } : Program).startDuration
          else s.programs.get p) ∧
        (s.port.grant ≠ none → t.lists.returns.get ListId.cue.idx = s.lists.returns.get ListId.cue.idx ++
          s.theatre.queue.map fun cue => { record := cue.record, status := marked 0x04 cue.record.mark, results := [] }))

/-- FADE_COMPLETE and FOLLOW_TIMER_EXPIRY, when the fade position or the follow timer has its last step to make: LIVE takes
NEXT, the head is returned DONE, and the next cue leads on: none to IDLE, MANUAL to READY, AUTO with a delay to WAITING,
AUTO without one starts at once; or the head cue starts, and with a fade of 0 completes; when it has not, nothing happens. A
cue that starts has its track actions performed, in their order. At a period start with nothing else due MIX_PERIOD_START
steps the fade position by 1 while FADING, but at a fade's first period, and the follow timer while WAITING, and no other
field of the show; at the last step the fade completes or the head starts there, and the channels that its track actions
leave give the period's samples. An event already taken by its command is not taken again. These events just ahead of the
period start (log entries 3 and 13), the order of the period's acts (log entry 15), and T_f at 0 after a fade (log entry
39), are the model's choices. -/
def Obligations.FadeAndFollow : Prop :=
  ∀ s : State,
    let t := s.theatre
    let fadeEnds := t.state = .fading ∧ t.fresh = false ∧ t.stepped = false ∧ t.len ≤ t.pos + 1
    let followEnds := t.state = .waiting ∧ t.stepped = false ∧ ∃ d, t.follow = some d ∧ d ≤ 1
    let leads (base : State) (v : Theatre) (u : State) : Prop := Untouched s u ∧
      { u with lists := s.lists } = { base with theatre := { v with stepped := true } } ∧
      ∀ l, l ≠ .cue → u.walker l = s.walker l ∧ u.lists.returns.get l.idx = s.lists.returns.get l.idx
    let done (cue : Machine.Cue) (u : State) : Prop :=
      u.returns .cue { record := cue.record, status := marked 0x02 cue.record.mark, results := [] }
    (∀ audio : List (List Sample), s.Calm → (∀ p, (s.programs.get p).state ≠ .ending) →
      ∃ u, exec (.mixPeriodStart audio) s = .next u ∧
        let becomes (v : Theatre) : Prop := u.theatre = { v with fresh := false, stepped := false }
        let plays (base : State) : Prop := ∀ c : Fin 16,
          let ch := base.channels.get c
          (∀ k : AlarmKind, ch.owner ≠ some (.program k.slot)) → u.channels.get c = { ch.give.2.1 with
            reread := match ch.cur with | .waiting _ => true | _ => ch.reread }
        ((t.state ≠ .fading ∧ t.state ≠ .waiting) ∨ t.stepped = true ∨ (t.state = .fading ∧ t.fresh = true) →
          becomes t) ∧
        (t.state = .fading → t.fresh = false → t.stepped = false → t.pos + 1 < t.len →
          becomes { t with pos := t.pos + 1 }) ∧
        (∀ d, t.state = .waiting → t.stepped = false → t.follow = some d → 1 < d →
          becomes { t with follow := some (d - 1) }) ∧
        (∀ cue rest bank, fadeEnds → t.queue = cue :: rest → t.next = some bank →
          (¬ atOnce rest → becomes (t.completed bank rest) ∧ (s.port.grant ≠ none → done cue u ∧ plays s)) ∧
          ∀ head after, rest = head :: after → atOnce rest → s.opens head →
            (head.fade ≠ 0 → becomes ((t.completed bank rest).begun head) ∧
              (s.port.grant ≠ none → done cue u ∧ plays (s.tracked head))) ∧
            (head.fade = 0 → ¬ atOnce after → becomes (t.completed (head.over bank) after) ∧
              (s.port.grant ≠ none → done cue u ∧ done head u ∧ plays (s.tracked head)))) ∧
        (∀ cue rest, followEnds → t.queue = cue :: rest → s.opens cue →
          (cue.fade ≠ 0 → becomes (t.begun cue) ∧ (s.port.grant ≠ none → plays (s.tracked cue))) ∧
          (cue.fade = 0 → ¬ atOnce rest → becomes (t.completed (cue.over t.live) rest) ∧
            (s.port.grant ≠ none → done cue u ∧ plays (s.tracked cue))))) ∧
    (¬ fadeEnds → exec .fadeComplete s = .next s.arbitrate) ∧
    (¬ followEnds → exec .followTimerExpiry s = .next s.arbitrate) ∧
    (∀ cue rest bank, fadeEnds → t.queue = cue :: rest → t.next = some bank → s.port.grant ≠ none →
      (¬ atOnce rest → ∃ u, exec .fadeComplete s = .next u ∧ leads s (t.completed bank rest) u ∧ done cue u) ∧
      ∀ head after, rest = head :: after → atOnce rest → s.opens head →
        (head.fade ≠ 0 → ∃ u, exec .fadeComplete s = .next u ∧
          leads (s.tracked head) ((t.completed bank rest).begun head) u ∧ done cue u) ∧
        (head.fade = 0 → ¬ atOnce after → ∃ u, exec .fadeComplete s = .next u ∧
          leads (s.tracked head) (t.completed (head.over bank) after) u ∧ done cue u ∧ done head u)) ∧
    (∀ cue rest, followEnds → t.queue = cue :: rest → s.opens cue →
      (cue.fade ≠ 0 → exec .followTimerExpiry s =
        .next ((s.tracked cue).modTheatre fun t => { t.begun cue with stepped := true }).arbitrate) ∧
      (cue.fade = 0 → ¬ atOnce rest → s.port.grant ≠ none → ∃ u, exec .followTimerExpiry s = .next u ∧
        leads (s.tracked cue) (t.completed (cue.over t.live) rest) u ∧ done cue u))

/-! ### Trunks and supervision (chapter 10) -/

/-- The answer timer restarts training; a matching ability block brings the trunk UP with its counts limited to 64, its
loops that are watched and served NORMAL where they were not judged before, and the TRUNK note of code 1 with the counts and
flags; the sync hold's expiry brings it DOWN, with its present stations LOST and their parties out of their calls, its loops
UNSERVED with the count and sum of their captures back at 0, its pending and releasing changeovers free, FAULT, and last of
all the FAILED notes of its PENDING slots, the lower slot's first, and its TRUNK note of code 0 (or one note lost at a full
queue). An expiry or a block that is not due does nothing (log entries 1 and 3); the stations go in rising number (log entry
36); and a freed changeover slot has every item it does not hold at its reset value (log entry 24). -/
def Obligations.TrunkLinks : Prop :=
  ∀ (s : State) (k : Fin 4),
    let t := s.trunks.get k
    (t.link = .training → t.answer = some 0 → exec (.answerTimerExpiry k) s =
      .next (s.modTrunk k fun t => { t with training := t.training + 1, answer := some 50 })) ∧
    (t.link ≠ .training ∨ t.answer ≠ some 0 → exec (.answerTimerExpiry k) s = .next s) ∧
    (∀ b : AbilityBlock, t.link ≠ .training ∨ b.training ≠ t.training →
      exec (.abilityBlock k b) s = .next s.arbitrate) ∧
    (∀ b : AbilityBlock, t.link = .training → b.training = t.training → ∃ u, exec (.abilityBlock k b) s = .next u ∧
      u.trunks = s.trunks.set k { t with
        link := .up, answer := none, sync := some 4, served := min 64 b.served.toNat, present := min 64 b.present.toNat
        overrideLines := b.overrideLines, supervision := b.supervision, changeover := b.changeover } ∧
      u.claims = s.claims ∧ u.stations = s.stations ∧ u.outlets = s.outlets ∧ u.changeovers = s.changeovers ∧
      (∀ o, trunkOf o = k →
        let x := s.loops.get o
        let enters (st : LoopState) : Loop :=
          if x.state = st then x else { x with state := st, streak := none, ampFault := false }
        let watched : Prop := (s.outlets.get o).kind ≠ .undefined ∧ (s.outlets.get o).kind ≠ .spare ∧
          x.baselineSet = true ∧ b.supervision = true
        (min 64 b.served.toNat ≤ (slotOf o).val → u.loops.get o = enters .unserved) ∧
        ((slotOf o).val < min 64 b.served.toNat → ¬ watched → u.loops.get o = enters .unsupervised) ∧
        ((slotOf o).val < min 64 b.served.toNat → watched → u.loops.get o =
          if x.state = .unserved ∨ x.state = .unsupervised then { x with state := .normal, streak := none } else x)) ∧
      (s.port.grant ≠ none → u.notes = (s.emitNote .trunk 1 k.val (min 64 b.served.toNat +
        256 * min 64 b.present.toNat + 65536 * ((if b.overrideLines then 1 else 0) + (if b.supervision then 2 else 0) +
          (if b.changeover then 4 else 0)))).notes) ∧
      (∀ o, trunkOf o ≠ k → u.loops.get o = s.loops.get o)) ∧
    (t.link ≠ .up ∨ t.sync ≠ some 0 → exec (.syncHoldExpiry k) s = .next s.arbitrate) ∧
    (t.link = .up → t.sync = some 0 → ∃ u, exec (.syncHoldExpiry k) s = .next u ∧
      u.trunks = s.trunks.set k { link := .down, training := t.training } ∧ u.causeHas .fault = true ∧
      u.outlets = s.outlets ∧ u.inlets = s.inlets ∧ u.time = s.time ∧
      (s.port.grant ≠ none →
        let failed (x : Fin 8) : List Note :=
          if (s.changeovers.get x).state = .pending then
            [{ kind := .changeover, code := 2, subject := (s.changeovers.get x).faulted.val, time := s.time
               detail := x.val + 256 * (s.changeovers.get x).spare.val + 16777216 * 2 }]
          else []
        u.notedAll (failed ⟨2 * k.val, by omega⟩ ++ failed ⟨2 * k.val + 1, by omega⟩ ++
          [{ kind := .trunk, code := 0, subject := k.val, detail := 0, time := s.time }])) ∧
      (∀ n i o, (s.stations.get n).binding = some (i, o) → trunkOf i = k →
        (s.stations.get n).state ≠ .undefined → (s.stations.get n).state ≠ .lost →
        let party (c : Fin 16) (j : Fin 8) : Prop :=
          ∃ p, (s.calls.get c).parties[j.val]? = some p ∧ p.live = true ∧ p.station = n
        ((∀ c j, ¬ party c j) → (s.stations.get n).call = none → u.stations.get n =
          { s.stations.get n with state := .lost, holdTimer := none, call := none }) ∧
        (∀ c j, (s.stations.get n).call = some c → (∀ d m, party d m ↔ d = c ∧ m = j) →
          (u.stations.get n).state = .lost ∧ (u.stations.get n).call = none ∧ (u.stations.get n).holdTimer = none ∧
          (u.stations.get n).offHook = (s.stations.get n).offHook ∧
          ∀ q, (u.calls.get c).parties[j.val]? = some q →
            (q.state = .lost ∨ q.state = .left) ∧ q.ringTimer = none ∧ q.claim = none)) ∧
      (∀ n, (∀ i o, (s.stations.get n).binding = some (i, o) → trunkOf i ≠ k) →
        (∀ (c : Fin 16), ∀ p ∈ (s.calls.get c).parties, p.live = true → p.station ≠ n) →
        u.stations.get n = s.stations.get n) ∧
      (∀ o, trunkOf o = k →
        let x := s.loops.get o
        let reset : Loop := { x with capture := x.capture.map fun c => { c with count := 0, sum := 0 } }
        (u.loops.get o).state = .unserved ∧ u.loops.get o =
          if x.state = .unserved then reset else { reset with state := .unserved, streak := none, ampFault := false }) ∧
      (∀ o, trunkOf o ≠ k → u.loops.get o = s.loops.get o) ∧
      (∀ x : Fin 8, x.val / 2 = k.val → u.changeovers.get x =
        if (s.changeovers.get x).state = .pending ∨ (s.changeovers.get x).state = .releasing then {}
        else s.changeovers.get x) ∧
      (∀ x : Fin 8, x.val / 2 ≠ k.val → u.changeovers.get x = s.changeovers.get x))

/-- INBOUND_CONTROL_BLOCK: ignored unless the trunk is UP; it reloads the sync hold, and where only the first slot of its
group is served, that slot's loop takes its reading and its amplifier-fault flag. A pending capture adds the reading, and
with its eighth sets the loop baseline to their mean and returns its record with it. A judged reading moves the loop as
the table of R173 states. The notes, where the queue has room: LOOP_FAULT with the reading at a fault confirmed (1 open, 2
short) or cleared (0); then AMP_FAULT with the outlet's changeover slot at a rise (1, with FAULT in CAUSE) or a fall (0) of
the flag, and nothing after a fall. A flag as stored, or of an UNDEFINED outlet, changes nothing.
The order of the reports of one block is the model's: log entry 28. -/
def Obligations.LoopReadings : Prop :=
  (∀ (s : State) (k : Fin 4) (b : ControlBlock), (s.trunks.get k).link ≠ .up →
    exec (.inboundControlBlock k b) s = .next s.arbitrate) ∧
  (∀ (s : State) (k : Fin 4) (b : ControlBlock) (r : LoopReport),
    let t := s.trunks.get k
    let g := b.group
    let o := outletAt k ⟨8 * g.val, by omega⟩
    let x := s.loops.get o
    let out := s.outlets.get o
    let side : Side :=
      if x.baseline + out.loopHigh < r.reading.toNat then .high
      else if r.reading.toNat + out.loopLow < x.baseline then .low
      else .within
    let j := x.judge side out.confirm
    t.link = .up → b.loops[0]? = some r → t.served ≤ 8 * g.val + 1 → t.present ≤ 8 * g.val →
    (∀ y : Fin 8, y.val / 2 = k.val → (s.changeovers.get y).state = .free ∨ (s.changeovers.get y).state = .active) →
      ∃ u, exec (.inboundControlBlock k b) s = .next u ∧ u.trunks = s.trunks.set k { t with sync := some 4 } ∧
      u.stations = s.stations ∧
      u.outlets = s.outlets ∧ u.claims = s.claims ∧ u.time = s.time ∧
      (∀ o', o' ≠ o → u.loops.get o' = s.loops.get o') ∧
      (t.supervision = false ∨ t.served ≤ 8 * g.val → u.loops = s.loops ∧ u.changeovers = s.changeovers) ∧
      (t.supervision = true → 8 * g.val < t.served → x.capture = none → out.kind ≠ .undefined →
        u.loops.get o = { x with
          last := r.reading.toNat, state := j.1, streak := j.2, ampFault := r.fault } ∧
        (j.1 ≠ x.state → j.1 = .faultOpen ∨ j.1 = .faultShort → u.causeHas .fault = true)) ∧
      (t.supervision = true → 8 * g.val < t.served → s.port.grant ≠ none → s.notes.queue.length ≤ 30 →
        (∀ cap, x.capture = some cap → cap.count < 7 ∨ (out.kind ≠ .undefined ∧ out.kind ≠ .spare)) →
        let note (kind : NoteKind) (code detail : Nat) : Note :=
          { kind, code, subject := o.val, detail, time := s.time }
        let y := u.loops.get o
        let wasFault : Prop := x.state = .faultOpen ∨ x.state = .faultShort
        let loopNotes : List Note :=
          if y.state = x.state then []
          else if y.state = .faultOpen then [note .loopFault 1 r.reading.toNat]
          else if y.state = .faultShort then [note .loopFault 2 r.reading.toNat]
          else if y.state = .normal ∧ wasFault then [note .loopFault 0 r.reading.toNat]
          else []
        let standing (z : Fin 8) : Prop := (s.changeovers.get z).state ≠ .free ∧
          ((s.changeovers.get z).faulted = o ∨ (s.changeovers.get z).spare = o)
        let queued (rest : List Note) : Prop := u.notes.queue = s.notes.queue ++ loopNotes ++ rest
        (out.kind = .undefined ∨ r.fault = x.ampFault → queued [] ∧ y.ampFault = x.ampFault) ∧
        ∀ slot : Nat, (∀ z, ¬ standing z) ∧ slot = 0xFF ∨ (∃ z, standing z ∧ (∀ w, standing w → w = z) ∧ slot = z.val) →
          out.kind ≠ .undefined →
            (r.fault = false → x.ampFault = true → y.ampFault = false ∧ queued [note .ampFault 0 slot] ∧
              u.changeovers = s.changeovers) ∧
            (r.fault = true → x.ampFault = false → y.ampFault = true ∧ u.causeHas .fault = true ∧
              ∃ rest, queued (note .ampFault 1 slot :: rest))) ∧
      (∀ cap, t.supervision = true → 8 * g.val < t.served → x.capture = some cap → out.kind ≠ .undefined →
        let mean := (cap.sum + r.reading.toNat) / 8
        (cap.count < 7 → u.loops.get o = { x with
          last := r.reading.toNat, state := j.1, streak := j.2, ampFault := r.fault
          capture := some { cap with count := cap.count + 1, sum := cap.sum + r.reading.toNat } }) ∧
        (7 ≤ cap.count → (u.loops.get o).last = r.reading.toNat ∧ (u.loops.get o).baseline = mean ∧
          (u.loops.get o).baselineSet = true ∧ (u.loops.get o).capture = none ∧
          (s.port.grant ≠ none →
            let ret : Return :=
              { record := cap.record, status := marked 0x02 cap.record.mark, results := [(16, bytes4 mean)] }
            ret ∈ u.lists.returns.get ListId.setup.idx ∨
              ∃ h, (u.walker .setup).stage = .returnWrite h ret false)))) ∧
  ∀ (x : Loop) (n : Nat) (side : Side), 1 ≤ n →
    let count : Nat := match x.streak with | some (sd, m) => if sd = side then min 15 (m + 1) else 1 | none => 1
    let faulted := if side = .high then LoopState.faultOpen else LoopState.faultShort
    (x.state = .normal ∨ x.state = .suspect →
      (side = .within → x.judge side n = (.normal, none)) ∧
      (side ≠ .within → n ≤ count → x.judge side n = (faulted, none)) ∧
      (side ≠ .within → count < n → x.judge side n = (.suspect, some (side, count)))) ∧
    (x.state = .faultOpen ∨ x.state = .faultShort →
      (side = .within → n ≤ count → x.judge side n = (.normal, none)) ∧
      (side ≠ .within → x.state = faulted → x.judge side n = (faulted, none)) ∧
      (side ≠ .within → x.state ≠ faulted → n ≤ count → x.judge side n = (faulted, none)) ∧
      (side = .within ∨ x.state ≠ faulted → count < n → x.judge side n = (x.state, some (side, count)))) ∧
    (x.state = .unsupervised ∨ x.state = .unserved → x.judge side n = (x.state, x.streak))

/-- A rise of an amplifier-fault flag, reported by a control block that serves one slot: FAULT is set, and at an outlet that
is no SPARE, has policy AUTO and stands in no changeover slot a changeover is attempted. It takes the trunk's lowest free
slot and lowest available spare and is PENDING with its timer at 100; without the ability (reason 1), a free slot (2) or
an available spare (3) none is made, and a CHANGEOVER note of code 3 gives the reason.
That the reading of the slot is handed on before its flag is the model's order: log entry 28. That the note gives the first
reason of 1, 2 and 3 where several hold, such as 2 with neither a free slot nor a spare, is the model's choice: log entry
47. -/
def Obligations.ChangeoverStart : Prop :=
  ∀ (s : State) (k : Fin 4) (b : ControlBlock) (r : LoopReport),
    let t := s.trunks.get k
    let g := b.group
    let o := outletAt k ⟨8 * g.val, by omega⟩
    let out := s.outlets.get o
    let standing (q : Fin 256) : Prop := ∃ y, (s.changeovers.get y).state ≠ .free ∧
      ((s.changeovers.get y).faulted = q ∨ (s.changeovers.get y).spare = q)
    let available (q : Fin 256) : Prop := trunkOf q = k ∧ (s.outlets.get q).kind = .spare ∧ (slotOf q).val < t.served ∧
      ¬ standing q ∧ (s.loops.get q).ampFault = false
    let free (y : Fin 8) : Prop := y.val / 2 = k.val ∧ (s.changeovers.get y).state = .free
    t.link = .up → t.supervision = true → 8 * g.val < t.served → t.served ≤ 8 * g.val + 1 → t.present ≤ 8 * g.val →
    b.loops[0]? = some r → r.fault = true → out.kind ≠ .undefined → (s.loops.get o).ampFault = false →
    (∀ y : Fin 8, y.val / 2 = k.val → (s.changeovers.get y).state = .free ∨ (s.changeovers.get y).state = .active) →
    (∀ e ∈ b.echoes, e = none) →
      ∃ u, exec (.inboundControlBlock k b) s = .next u ∧ (u.loops.get o).ampFault = true ∧ u.causeHas .fault = true ∧
        let refused (reason : Nat) : Prop := u.changeovers = s.changeovers ∧ (s.port.grant ≠ none →
          u.notes.queue.getLast? = some { kind := .changeover, code := 3, subject := o.val, time := s.time
                                          detail := 0xFF + 256 * 0xFFFF + 16777216 * reason } ∨
          (32 ≤ u.notes.queue.length ∧ 0 < u.notes.lost))
        (out.kind = .spare ∨ out.autoChangeover = false ∨ standing o → u.changeovers = s.changeovers) ∧
        (out.kind ≠ .spare → out.autoChangeover = true → ¬ standing o →
          (t.changeover = false → refused 1) ∧
          (t.changeover = true → (∀ y, ¬ free y) → refused 2) ∧
          (∀ y, t.changeover = true → free y → (∀ q, ¬ available q) → refused 3) ∧
          ∀ y q, t.changeover = true → free y → (∀ z < y, ¬ free z) → available q → (∀ z < q, ¬ available z) →
            u.changeovers = s.changeovers.set y { state := .pending, faulted := o, spare := q, timer := some 100 })

/-! ### Notes and FALLBACK (chapter 11) -/

/-- A note joins the queue stamped with the ms count, or is lost at 32; NOTE_SPACE holds its record; a note write takes the
head note with the lost count at its grant, and at its end sets NOTE and holds no record. It writes the note's kind, code,
subject, time, lost-before count and detail at body offset 8, and the header with owner HOST and status DONE last.
That what a completed write stored stands in `port.written` is the model's choice: log entry 5. -/
def Obligations.NoteRecords : Prop :=
  (∀ (s : State) (k : NoteKind) (code subject detail : Nat),
    (s.notes.queue.length < 32 → (s.emitNote k code subject detail).notes =
      { s.notes with queue := s.notes.queue ++ [{ kind := k, code, subject, detail, time := s.time }] } ∧
      (s.notes.held = none → (s.emitNote k code subject detail).causeHas .noteWait = true)) ∧
    (32 ≤ s.notes.queue.length → s.emitNote k code subject detail =
      { s with notes := { s.notes with lost := min 65535 (s.notes.lost + 1) } })) ∧
  (∀ (s : State) (h : Hand) (b : List (List Byte)), (s.walker .note).stage = .handOver h b → h.kind = 0x50 →
    exec .noteSpace s = .next (State.take .note h false
      { s with notes := { s.notes with held := some (h.ref false, .taking) } }).arbitrate) ∧
  (∀ (s : State) (r : RecRef) (n : Note) (rest : List Note), s.port.grant = none → s.notes.held = some (r, .ready) →
    s.notes.queue = n :: rest → s.firstRequest = s.noteRequest →
      s.arbitrate.notes = { queue := rest, lost := 0, held := some (r, .writing) } ∧
      s.arbitrate.port.grant = some ⟨.noteWrite (noteWriteOf r n s.notes.lost), false⟩ ∧
      (noteWriteOf r n s.notes.lost).addr = r.addr ∧
      (noteWriteOf r n s.notes.lost).pieces.getLast? = some (0, headerWord false r.kind 0x02 r.tag)) ∧
  (∀ (r : RecRef) (n : Note) (lost : Nat),
    let kind : Nat := match n.kind with
      | .alarmState => 1 | .contact => 2 | .loopFault => 3 | .ampFault => 4 | .changeover => 5 | .trunk => 6
      | .station => 7 | .stationKey => 8 | .streamStarved => 9 | .showState => 10 | .fallback => 11
    let byte (x i : Nat) : Byte := BitVec.ofNat 8 (x / 256 ^ i)
    let time := n.time.toNat
    noteWriteOf r n lost =
      { addr := r.addr
        pieces :=
          [(8, [byte kind 0, byte n.code 0, byte n.subject 0, byte n.subject 1, byte time 0, byte time 1, byte time 2,
                byte time 3, byte lost 0, byte lost 1]),
           (8 + 12, [byte n.detail 0, byte n.detail 1, byte n.detail 2, byte n.detail 3]),
           (0, [byte r.kind 0, 0x02, byte r.tag 0, byte r.tag 1])] }) ∧
  ∀ (s : State) (w : PortWrite), s.port.grant = some ⟨.noteWrite w, false⟩ → exec .noteWrite s =
    .next (State.arbitrate
      { s with
        port := { grant := none, written := some w }
        notes := { s.notes with held := none }
        regs := { s.regs with cause := s.regs.cause ||| 0x02 |||
          (if s.notes.queue = [] then 0 else 0x04) } })

/-- BEAT_COUNTER_EXPIRY: with the counter at 0 the part enters FALLBACK: lists stop walking with their state and cursor
kept, the show is cleared and IDLE, BACKGROUND and SHOW programs end, FALLBACK is set, and the FALLBACK note with the
count of programs ended is queued, or lost at a full queue; otherwise nothing happens. The record of each program ended
is returned ABANDONED, that of each queued cue STOPPED, and the SHOW_STATE note of code 3 has subject 1. With slot 59
FREE, program 59 starts where MIC_CONTACT is accepted CLOSED and some inlet is CONTACT_MIC, and claims the outlets that
hear it; else it stays FREE. At a period start the running sub-count steps down by 1; at its end it is 100 again and the
counter steps down by 1; a stopped one does not count. That the show stays IDLE without a hold record while the programs
end is said of every state with `ShowsYield`, the invariant every step keeps (`StepKeepsBounded`); a claim at or above
the hold threshold, such as an alarm's, may stand over a SHOW program's.
That an expiry not due does nothing and one not taken is taken by the period start (log entries 1, 3 and 15), the order
of the acts of the entry (log entry 12), and that a record in hand goes on with its take after the event (log entry 43),
are the model's choices. -/
def Obligations.BeatExpiry : Prop :=
  ∀ s : State,
    (s.part ≠ .running ∨ s.lists.root.beatWindow = 0 ∨ s.beat.counter ≠ 0 →
      exec .beatCounterExpiry s = .next s.arbitrate) ∧
    (∀ audio : List (List Sample), ∃ t, exec (.mixPeriodStart audio) s = .next t ∧
      let runs : Prop := s.part = .running ∧ s.lists.root.beatWindow ≠ 0
      (¬ runs → t.part = s.part ∧ t.beat = s.beat) ∧ (runs → s.beat.counter = 0 → t.part = .fallback ∧ t.beat = {}) ∧
      (runs → s.beat.counter ≠ 0 → t.part = .running ∧
        (1 < s.beat.sub → t.beat = { counter := s.beat.counter, sub := s.beat.sub - 1 }) ∧
        (s.beat.sub ≤ 1 → t.beat = { counter := s.beat.counter - 1, sub := 100 }))) ∧
    (s.part = .running → s.lists.root.beatWindow ≠ 0 → s.beat.counter = 0 →
      ∃ t, exec .beatCounterExpiry s = .next t ∧ t.part = .fallback ∧ t.beat = {} ∧ t.causeHas .fallback = true ∧
        (∀ l, (t.walker l).scan = none ∧ (t.walker l).again = false ∧ (t.walker l).state = (s.walker l).state ∧
          (t.walker l).cursor = (s.walker l).cursor) ∧
        t.theatre.queue = [] ∧ t.theatre.live = s.theatre.live ∧ t.theatre.next = none ∧
        (s.ShowsYield → t.theatre.state = .idle ∧ t.theatre.hold = none) ∧
        (s.port.grant ≠ none →
          t.notes.queue.getLast? = some { kind := .fallback, code := 1, subject := 0, time := s.time
                                          detail := ((allFin 64).filter fun p => (s.programs.get p).state != .free &&
                                            ((s.programs.get p).kind == .background ||
                                              (s.programs.get p).kind == .theatre)).length } ∨
          (32 ≤ t.notes.queue.length ∧ 0 < t.notes.lost)) ∧
        (s.port.grant ≠ none →
          (∀ cue ∈ s.theatre.queue,
            t.returns .cue { record := cue.record, status := marked 0x04 cue.record.mark, results := [] }) ∧
          (∀ p r, (s.programs.get p).state ≠ .free → (s.programs.get p).record = some r →
            (s.programs.get p).kind = .background ∨ (s.programs.get p).kind = .theatre →
              ∃ x : Return, x.record = r ∧ x.status = marked 0x07 r.mark ∧ t.returns .program x) ∧
          (s.notes.queue.length < 32 → t.notes.queue[s.notes.queue.length]? = some
            { kind := .showState, code := 3, subject := 1, detail := s.theatre.queue.length, time := s.time })) ∧
        (∀ p, (t.programs.get p).state ≠ .free →
          (t.programs.get p).kind ≠ .background ∧ (t.programs.get p).kind ≠ .theatre) ∧
        ((s.programs.get 59).state = .free →
          let opens : Prop := (s.contacts.get 3).closed = true ∧ ∃ i, s.inlets.get i = .contactMic
          (¬ opens → (t.programs.get 59).state = .free) ∧
          (opens → (t.programs.get 59).state = .playing ∧ (t.programs.get 59).priority = 11 ∧
            (∃ i, s.inlets.get i = .contactMic ∧ (t.programs.get 59).source = .inlet i) ∧
            ∀ o, (s.outlets.get o).kind ∈ [.cabinLoop, .publicSpace, .crewArea, .theatre] →
              ((s.stack o).length < 8 ∨ ((s.stack o).length = 8 ∧
                ∃ last, (s.stack o).getLast? = some last ∧ last.priority < 11)) →
                hasOwner (.program 59) (t.stack o) = true)) ∧
        t.outlets = s.outlets ∧ t.inlets = s.inlets ∧ t.stations = s.stations ∧ t.alarms.table = s.alarms.table ∧
        t.trunks = s.trunks ∧ t.loops = s.loops ∧ t.changeovers = s.changeovers ∧ t.regs.run = s.regs.run ∧
        t.time = s.time)
end

