-- ==== Sys2Proof/Laws/Tables.lean ====
section
/-! SUPPORT. Reading a table back after a write to it: the entry written, and every other entry. -/

namespace Sys2Proof

variable {n : Nat} {α β : Type}

theorem Tab.ext_get {t u : Tab n α} (h : ∀ i, t.get i = u.get i) : t = u := by
  cases t with | mk l hl =>
  cases u with | mk m hm =>
  have : l = m := by
    apply List.ext_getElem (hl.trans hm.symm)
    intro i h1 h2
    exact h ⟨i, hl ▸ h1⟩
  subst this; rfl

@[simp] theorem Tab.get_set_self (t : Tab n α) (i : Fin n) (a : α) : (t.set i a).get i = a := by
  simp [Tab.get, Tab.set]

theorem Tab.get_set_ne (t : Tab n α) {i j : Fin n} (h : j ≠ i) (a : α) : (t.set i a).get j = t.get j := by
  have : i.val ≠ j.val := fun e => h (Fin.ext e.symm)
  simp [Tab.get, Tab.set, this]

theorem Tab.get_set (t : Tab n α) (i j : Fin n) (a : α) : (t.set i a).get j = if j = i then a else t.get j := by
  split
  · next h => subst h; simp
  · next h => exact t.get_set_ne h a

@[simp] theorem Tab.get_modify_self (t : Tab n α) (i : Fin n) (f : α → α) : (t.modify i f).get i = f (t.get i) := by
  simp [Tab.modify]

theorem Tab.get_modify_ne (t : Tab n α) {i j : Fin n} (h : j ≠ i) (f : α → α) : (t.modify i f).get j = t.get j := by
  simp [Tab.modify, Tab.get_set_ne _ h]

theorem Tab.get_modify (t : Tab n α) (i j : Fin n) (f : α → α) :
    (t.modify i f).get j = if j = i then f (t.get j) else t.get j := by
  split
  · next h => subst h; simp
  · next h => exact t.get_modify_ne h f

theorem Tab.set_set (t : Tab n α) (i : Fin n) (a b : α) : (t.set i a).set i b = t.set i b := by
  simp [Tab.set]

theorem Tab.modify_modify (t : Tab n α) (i : Fin n) (f g : α → α) : (t.modify i f).modify i g = t.modify i (g ∘ f) := by
  simp [Tab.modify, Tab.set_set]

theorem Tab.modify_congr (t : Tab n α) (i : Fin n) {f g : α → α} (h : f (t.get i) = g (t.get i)) :
    t.modify i f = t.modify i g := by
  simp [Tab.modify, h]

@[simp] theorem Tab.get_map (t : Tab n α) (f : α → β) (i : Fin n) : (t.map f).get i = f (t.get i) := by
  simp [Tab.get, Tab.map]

@[simp] theorem Tab.get_replicate (a : α) (i : Fin n) : (Tab.replicate n a).get i = a := by
  simp [Tab.get, Tab.replicate]

@[simp] theorem Tab.get_ofFn (f : Fin n → α) (i : Fin n) : (Tab.ofFn f).get i = f i := by
  simp [Tab.get, Tab.ofFn, allFin]

@[simp] theorem Tab.mem_indices (t : Tab n α) (p : α → Bool) (i : Fin n) : i ∈ t.indices p ↔ p (t.get i) = true := by
  simp [Tab.indices, allFin]

theorem Tab.get_mem (t : Tab n α) (i : Fin n) : t.get i ∈ t.list := List.getElem_mem _

end Sys2Proof
end

