-- ==== Sys2Proof/Laws/Ops.lean ====
section
/-! SUPPORT. The shared operations of the memory port and of the walkers, case by case: what `arbitrate` leaves alone and
what it grants, and when a hand-over or a completion has its effect. -/

namespace Sys2Proof.Machine

/-! ### Arbitration: a grant in progress stands; otherwise the first waiting request is granted, or nothing happens -/

theorem State.arbitrate_busy {s : State} {g : Grant} (h : s.port.grant = some g) : s.arbitrate = s := by
  unfold State.arbitrate; rw [h]

theorem State.arbitrate_idle {s : State} (h : s.firstRequest = none) : s.arbitrate = s := by
  unfold State.arbitrate; rw [h]; split <;> rfl

theorem State.arbitrate_grant {s : State} {t : Transfer} (h : s.port.grant = none) (k : s.firstRequest = some t) :
    s.arbitrate = { s.onGrant t with port := { s.port with grant := some { transfer := t, discard := false } } } := by
  unfold State.arbitrate; rw [h, k]

theorem State.arbitrate_cases (s : State) :
    s.arbitrate = s ∨
      ∃ t, s.port.grant = none ∧ s.firstRequest = some t ∧
        s.arbitrate = { s.onGrant t with port := { s.port with grant := some { transfer := t, discard := false } } } := by
  unfold State.arbitrate
  split
  · exact Or.inl rfl
  · next h =>
    split
    · exact Or.inl rfl
    · next t k => exact Or.inr ⟨t, h, k, rfl⟩

@[simp] theorem State.onGrant_regs (s : State) (t : Transfer) : (s.onGrant t).regs = s.regs := by
  unfold State.onGrant; split <;> rfl

@[simp] theorem State.onGrant_part (s : State) (t : Transfer) : (s.onGrant t).part = s.part := by
  unfold State.onGrant; split <;> rfl

@[simp] theorem State.onGrant_outlets (s : State) (t : Transfer) : (s.onGrant t).outlets = s.outlets := by
  unfold State.onGrant; split <;> rfl

@[simp] theorem State.onGrant_inlets (s : State) (t : Transfer) : (s.onGrant t).inlets = s.inlets := by
  unfold State.onGrant; split <;> rfl

@[simp] theorem State.onGrant_stations (s : State) (t : Transfer) : (s.onGrant t).stations = s.stations := by
  unfold State.onGrant; split <;> rfl

@[simp] theorem State.onGrant_programs (s : State) (t : Transfer) : (s.onGrant t).programs = s.programs := by
  unfold State.onGrant; split <;> rfl

@[simp] theorem State.onGrant_claims (s : State) (t : Transfer) : (s.onGrant t).claims = s.claims := by
  unfold State.onGrant; split <;> rfl

@[simp] theorem State.onGrant_mixer (s : State) (t : Transfer) : (s.onGrant t).mixer = s.mixer := by
  unfold State.onGrant; split <;> rfl

@[simp] theorem State.onGrant_ambient (s : State) (t : Transfer) : (s.onGrant t).ambient = s.ambient := by
  unfold State.onGrant; split <;> rfl

@[simp] theorem State.onGrant_calls (s : State) (t : Transfer) : (s.onGrant t).calls = s.calls := by
  unfold State.onGrant; split <;> rfl

@[simp] theorem State.onGrant_tones (s : State) (t : Transfer) : (s.onGrant t).tones = s.tones := by
  unfold State.onGrant; split <;> rfl

@[simp] theorem State.onGrant_alarms (s : State) (t : Transfer) : (s.onGrant t).alarms = s.alarms := by
  unfold State.onGrant; split <;> rfl

@[simp] theorem State.onGrant_contacts (s : State) (t : Transfer) : (s.onGrant t).contacts = s.contacts := by
  unfold State.onGrant; split <;> rfl

@[simp] theorem State.onGrant_theatre (s : State) (t : Transfer) : (s.onGrant t).theatre = s.theatre := by
  unfold State.onGrant; split <;> rfl

@[simp] theorem State.onGrant_trunks (s : State) (t : Transfer) : (s.onGrant t).trunks = s.trunks := by
  unfold State.onGrant; split <;> rfl

@[simp] theorem State.onGrant_loops (s : State) (t : Transfer) : (s.onGrant t).loops = s.loops := by
  unfold State.onGrant; split <;> rfl

@[simp] theorem State.onGrant_changeovers (s : State) (t : Transfer) : (s.onGrant t).changeovers = s.changeovers := by
  unfold State.onGrant; split <;> rfl

@[simp] theorem State.onGrant_beat (s : State) (t : Transfer) : (s.onGrant t).beat = s.beat := by
  unfold State.onGrant; split <;> rfl

@[simp] theorem State.onGrant_time (s : State) (t : Transfer) : (s.onGrant t).time = s.time := by
  unfold State.onGrant; split <;> rfl

@[simp] theorem State.onGrant_outbound (s : State) (t : Transfer) : (s.onGrant t).outbound = s.outbound := by
  unfold State.onGrant; split <;> rfl

@[simp] theorem State.onGrant_freeCount (s : State) (t : Transfer) : (s.onGrant t).freeCount = s.freeCount := by
  unfold State.onGrant; split <;> rfl

@[simp] theorem State.onGrant_pending (s : State) (t : Transfer) : (s.onGrant t).pending = s.pending := by
  unfold State.onGrant; split <;> rfl

@[simp] theorem State.arbitrate_regs (s : State) : s.arbitrate.regs = s.regs := by
  unfold State.arbitrate; split <;> [rfl; (split <;> simp)]

@[simp] theorem State.arbitrate_part (s : State) : s.arbitrate.part = s.part := by
  unfold State.arbitrate; split <;> [rfl; (split <;> simp)]

@[simp] theorem State.arbitrate_outlets (s : State) : s.arbitrate.outlets = s.outlets := by
  unfold State.arbitrate; split <;> [rfl; (split <;> simp)]

@[simp] theorem State.arbitrate_inlets (s : State) : s.arbitrate.inlets = s.inlets := by
  unfold State.arbitrate; split <;> [rfl; (split <;> simp)]

@[simp] theorem State.arbitrate_stations (s : State) : s.arbitrate.stations = s.stations := by
  unfold State.arbitrate; split <;> [rfl; (split <;> simp)]

@[simp] theorem State.arbitrate_programs (s : State) : s.arbitrate.programs = s.programs := by
  unfold State.arbitrate; split <;> [rfl; (split <;> simp)]

@[simp] theorem State.arbitrate_claims (s : State) : s.arbitrate.claims = s.claims := by
  unfold State.arbitrate; split <;> [rfl; (split <;> simp)]

@[simp] theorem State.arbitrate_mixer (s : State) : s.arbitrate.mixer = s.mixer := by
  unfold State.arbitrate; split <;> [rfl; (split <;> simp)]

@[simp] theorem State.arbitrate_ambient (s : State) : s.arbitrate.ambient = s.ambient := by
  unfold State.arbitrate; split <;> [rfl; (split <;> simp)]

@[simp] theorem State.arbitrate_calls (s : State) : s.arbitrate.calls = s.calls := by
  unfold State.arbitrate; split <;> [rfl; (split <;> simp)]

@[simp] theorem State.arbitrate_tones (s : State) : s.arbitrate.tones = s.tones := by
  unfold State.arbitrate; split <;> [rfl; (split <;> simp)]

@[simp] theorem State.arbitrate_alarms (s : State) : s.arbitrate.alarms = s.alarms := by
  unfold State.arbitrate; split <;> [rfl; (split <;> simp)]

@[simp] theorem State.arbitrate_contacts (s : State) : s.arbitrate.contacts = s.contacts := by
  unfold State.arbitrate; split <;> [rfl; (split <;> simp)]

@[simp] theorem State.arbitrate_theatre (s : State) : s.arbitrate.theatre = s.theatre := by
  unfold State.arbitrate; split <;> [rfl; (split <;> simp)]

@[simp] theorem State.arbitrate_trunks (s : State) : s.arbitrate.trunks = s.trunks := by
  unfold State.arbitrate; split <;> [rfl; (split <;> simp)]

@[simp] theorem State.arbitrate_loops (s : State) : s.arbitrate.loops = s.loops := by
  unfold State.arbitrate; split <;> [rfl; (split <;> simp)]

@[simp] theorem State.arbitrate_changeovers (s : State) : s.arbitrate.changeovers = s.changeovers := by
  unfold State.arbitrate; split <;> [rfl; (split <;> simp)]

@[simp] theorem State.arbitrate_beat (s : State) : s.arbitrate.beat = s.beat := by
  unfold State.arbitrate; split <;> [rfl; (split <;> simp)]

@[simp] theorem State.arbitrate_time (s : State) : s.arbitrate.time = s.time := by
  unfold State.arbitrate; split <;> [rfl; (split <;> simp)]

@[simp] theorem State.arbitrate_outbound (s : State) : s.arbitrate.outbound = s.outbound := by
  unfold State.arbitrate; split <;> [rfl; (split <;> simp)]

@[simp] theorem State.arbitrate_freeCount (s : State) : s.arbitrate.freeCount = s.freeCount := by
  unfold State.arbitrate; split <;> [rfl; (split <;> simp)]

@[simp] theorem State.arbitrate_pending (s : State) : s.arbitrate.pending = s.pending := by
  unfold State.arbitrate; split <;> [rfl; (split <;> simp)]

@[simp] theorem State.arbitrate_written (s : State) : s.arbitrate.port.written = s.port.written := by
  unfold State.arbitrate; split <;> [rfl; (split <;> rfl)]

/-! ### Hand-overs and completions -/

theorem State.handOver_of {s : State} {l : ListId} {h : Hand} {b : List (List Byte)} {kind : Nat}
    (f : Hand → List (List Byte) → State → State) (g : (s.walker l).stage = .handOver h b) (k : h.kind = kind) :
    s.handOver l kind f = (f h b s).arbitrate := by
  unfold State.handOver; rw [g]; simp [k]

/-- A hand-over changes nothing unless the walker has a record of that kind in hand. -/
theorem State.handOver_cases (s : State) (l : ListId) (kind : Nat) (f : Hand → List (List Byte) → State → State) :
    s.handOver l kind f = s ∨
      ∃ h b, (s.walker l).stage = .handOver h b ∧ h.kind = kind ∧ s.handOver l kind f = (f h b s).arbitrate := by
  unfold State.handOver
  split
  · next h b g =>
    split
    · next k => exact Or.inr ⟨h, b, g, k, rfl⟩
    · exact Or.inl rfl
  · exact Or.inl rfl

theorem State.complete_of {s : State} {mine : Transfer → Bool} {t : Transfer} (f : Transfer → State → State)
    (g : s.port.grant = some ⟨t, false⟩) (k : mine t = true) : s.complete mine f = (f t (s.endGrant t)).arbitrate := by
  unfold State.complete; rw [g]; simp [k]

/-- A completion of another transfer, or with no grant in progress, changes nothing; a discarded one only ends it. -/
theorem State.complete_cases (s : State) (mine : Transfer → Bool) (f : Transfer → State → State) :
    s.complete mine f = s ∨
      ∃ g, s.port.grant = some g ∧ mine g.transfer = true ∧
        s.complete mine f =
          (if g.discard then s.endGrant g.transfer else f g.transfer (s.endGrant g.transfer)).arbitrate := by
  unfold State.complete
  split
  · next g e =>
    split
    · next k => exact Or.inr ⟨g, e, k, rfl⟩
    · exact Or.inl rfl
  · exact Or.inl rfl

/-! ### Walkers: reading one back, and two changes of one -/

theorem ListId.idx_inj {a b : ListId} (h : a.idx = b.idx) : a = b := by
  cases a <;> cases b <;> simp [ListId.idx] at h ⊢

theorem State.walker_modWalker (s : State) (l m : ListId) (f : Walker → Walker) :
    (s.modWalker l f).walker m = if m = l then f (s.walker m) else s.walker m := by
  unfold State.walker State.modWalker
  by_cases h : m = l
  · simp [h]
  · simp only [h, if_false]
    exact Tab.get_modify_ne _ (fun e => h (ListId.idx_inj e)) f

theorem State.modWalker_modWalker (s : State) (l : ListId) (f g : Walker → Walker) :
    (s.modWalker l f).modWalker l g = s.modWalker l (g ∘ f) := by
  unfold State.modWalker; simp only [Tab.modify_modify]

theorem State.modWalker_setStage (s : State) (l : ListId) (f : Walker → Walker) (g : Stage) :
    (s.modWalker l f).setStage l g = s.modWalker l fun w => { f w with stage := g } :=
  State.modWalker_modWalker s l f _

theorem State.modWalker_congr (s : State) (l : ListId) {f g : Walker → Walker} (h : f (s.walker l) = g (s.walker l)) :
    s.modWalker l f = s.modWalker l g := by
  unfold State.modWalker; rw [Tab.modify_congr _ _ h]

@[simp] theorem State.onGrant_walkers (s : State) (t : Transfer) : (s.onGrant t).lists.walkers = s.lists.walkers := by
  unfold State.onGrant; split <;> rfl

@[simp] theorem State.arbitrate_walkers (s : State) : s.arbitrate.lists.walkers = s.lists.walkers := by
  unfold State.arbitrate; split <;> [rfl; (split <;> simp)]

@[simp] theorem State.walker_arbitrate (s : State) (l : ListId) : s.arbitrate.walker l = s.walker l := by
  unfold State.walker; rw [State.arbitrate_walkers]

/-! ### Replies: the walker of the list waits with its return write, or with its TAKEN write -/

@[simp] theorem State.reply_stage (s : State) (l : ListId) (h : Hand) (code : Nat) (mark : Bool)
    (results : List (Nat × List Byte)) :
    ((s.reply l h code mark results).walker l).stage =
      .returnWrite h { record := h.ref mark, status := marked code mark, results } false := by
  simp [State.reply, State.setStage, State.modWalker, State.walker]

@[simp] theorem State.take_stage (s : State) (l : ListId) (h : Hand) (mark : Bool) :
    ((s.take l h mark).walker l).stage = .takenWrite h mark := by
  simp [State.take, State.setStage, State.modWalker, State.walker]

/-! ### Naming a stack changes states only -/

/-- A claim without its state. -/
def Claim.plain (c : Claim) : Claim := { c with state := .waiting }

theorem nameRest_plain (floor : Nat) (seek : Bool) (cs : List Claim) :
    (nameRest floor seek cs).map Claim.plain = cs.map Claim.plain := by
  induction cs generalizing seek with
  | nil => rfl
  | cons c cs ih => unfold nameRest; split <;> [skip; split] <;> simp [ih, Claim.plain]

theorem nameStack_plain (floor : Nat) (cs : List Claim) :
    (nameStack floor cs).map Claim.plain = cs.map Claim.plain := by
  induction cs with
  | nil => rfl
  | cons c cs ih => unfold nameStack; split <;> simp [ih, nameRest_plain, Claim.plain]

/-! ### Numbers of objects, and clamps -/

theorem toFin?_none {n i : Nat} (h : n ≤ i) : toFin? n i = none := by
  unfold toFin?; rw [dif_neg (Nat.not_lt.mpr h)]

@[simp] theorem toFin?_val {n : Nat} (i : Fin n) : toFin? n i.val = some i := by
  unfold toFin?; rw [dif_pos i.isLt]

/-- A clamp answers a value in its range, and sets the mark exactly when it changes the value. -/
theorem clampMark_spec {x lo hi : Nat} (h : lo ≤ hi) :
    lo ≤ (clampMark x lo hi).1 ∧ (clampMark x lo hi).1 ≤ hi ∧
      ((clampMark x lo hi).2 = true ↔ x < lo ∨ hi < x) ∧
      (lo ≤ x → x ≤ hi → clampMark x lo hi = (x, false)) := by
  simp only [clampMark, clampNat, bne_iff_ne, Prod.mk.injEq, bne_eq_false_iff_eq]
  omega

end Sys2Proof.Machine
end

