-- ==== Sys2Proof/Laws/State.lean ====
section
/-! SUPPORT. What every update of one entry leaves of every field of the state: one lemma a field an update, true by
unfolding, so that no later proof unfolds a record update. -/

namespace Sys2Proof.Machine

variable (s : State)

@[simp] theorem State.modWalker_regs (l : ListId) (f : Walker → Walker) : (s.modWalker l f).regs = s.regs := rfl
@[simp] theorem State.modWalker_part (l : ListId) (f : Walker → Walker) : (s.modWalker l f).part = s.part := rfl
@[simp] theorem State.modWalker_lists (l : ListId) (f : Walker → Walker) : (s.modWalker l f).lists = { s.lists with walkers := s.lists.walkers.modify l.idx f } := rfl
@[simp] theorem State.modWalker_port (l : ListId) (f : Walker → Walker) : (s.modWalker l f).port = s.port := rfl
@[simp] theorem State.modWalker_outlets (l : ListId) (f : Walker → Walker) : (s.modWalker l f).outlets = s.outlets := rfl
@[simp] theorem State.modWalker_inlets (l : ListId) (f : Walker → Walker) : (s.modWalker l f).inlets = s.inlets := rfl
@[simp] theorem State.modWalker_stations (l : ListId) (f : Walker → Walker) : (s.modWalker l f).stations = s.stations := rfl
@[simp] theorem State.modWalker_programs (l : ListId) (f : Walker → Walker) : (s.modWalker l f).programs = s.programs := rfl
@[simp] theorem State.modWalker_claims (l : ListId) (f : Walker → Walker) : (s.modWalker l f).claims = s.claims := rfl
@[simp] theorem State.modWalker_mixer (l : ListId) (f : Walker → Walker) : (s.modWalker l f).mixer = s.mixer := rfl
@[simp] theorem State.modWalker_ambient (l : ListId) (f : Walker → Walker) : (s.modWalker l f).ambient = s.ambient := rfl
@[simp] theorem State.modWalker_channels (l : ListId) (f : Walker → Walker) : (s.modWalker l f).channels = s.channels := rfl
@[simp] theorem State.modWalker_calls (l : ListId) (f : Walker → Walker) : (s.modWalker l f).calls = s.calls := rfl
@[simp] theorem State.modWalker_tones (l : ListId) (f : Walker → Walker) : (s.modWalker l f).tones = s.tones := rfl
@[simp] theorem State.modWalker_alarms (l : ListId) (f : Walker → Walker) : (s.modWalker l f).alarms = s.alarms := rfl
@[simp] theorem State.modWalker_contacts (l : ListId) (f : Walker → Walker) : (s.modWalker l f).contacts = s.contacts := rfl
@[simp] theorem State.modWalker_theatre (l : ListId) (f : Walker → Walker) : (s.modWalker l f).theatre = s.theatre := rfl
@[simp] theorem State.modWalker_trunks (l : ListId) (f : Walker → Walker) : (s.modWalker l f).trunks = s.trunks := rfl
@[simp] theorem State.modWalker_loops (l : ListId) (f : Walker → Walker) : (s.modWalker l f).loops = s.loops := rfl
@[simp] theorem State.modWalker_changeovers (l : ListId) (f : Walker → Walker) : (s.modWalker l f).changeovers = s.changeovers := rfl
@[simp] theorem State.modWalker_notes (l : ListId) (f : Walker → Walker) : (s.modWalker l f).notes = s.notes := rfl
@[simp] theorem State.modWalker_beat (l : ListId) (f : Walker → Walker) : (s.modWalker l f).beat = s.beat := rfl
@[simp] theorem State.modWalker_time (l : ListId) (f : Walker → Walker) : (s.modWalker l f).time = s.time := rfl
@[simp] theorem State.modWalker_outbound (l : ListId) (f : Walker → Walker) : (s.modWalker l f).outbound = s.outbound := rfl
@[simp] theorem State.modWalker_freeCount (l : ListId) (f : Walker → Walker) : (s.modWalker l f).freeCount = s.freeCount := rfl
@[simp] theorem State.modWalker_pending (l : ListId) (f : Walker → Walker) : (s.modWalker l f).pending = s.pending := rfl

@[simp] theorem State.setStage_regs (l : ListId) (g : Stage) : (s.setStage l g).regs = s.regs := rfl
@[simp] theorem State.setStage_part (l : ListId) (g : Stage) : (s.setStage l g).part = s.part := rfl
@[simp] theorem State.setStage_lists (l : ListId) (g : Stage) : (s.setStage l g).lists = { s.lists with walkers := s.lists.walkers.modify l.idx fun w => { w with stage := g } } := rfl
@[simp] theorem State.setStage_port (l : ListId) (g : Stage) : (s.setStage l g).port = s.port := rfl
@[simp] theorem State.setStage_outlets (l : ListId) (g : Stage) : (s.setStage l g).outlets = s.outlets := rfl
@[simp] theorem State.setStage_inlets (l : ListId) (g : Stage) : (s.setStage l g).inlets = s.inlets := rfl
@[simp] theorem State.setStage_stations (l : ListId) (g : Stage) : (s.setStage l g).stations = s.stations := rfl
@[simp] theorem State.setStage_programs (l : ListId) (g : Stage) : (s.setStage l g).programs = s.programs := rfl
@[simp] theorem State.setStage_claims (l : ListId) (g : Stage) : (s.setStage l g).claims = s.claims := rfl
@[simp] theorem State.setStage_mixer (l : ListId) (g : Stage) : (s.setStage l g).mixer = s.mixer := rfl
@[simp] theorem State.setStage_ambient (l : ListId) (g : Stage) : (s.setStage l g).ambient = s.ambient := rfl
@[simp] theorem State.setStage_channels (l : ListId) (g : Stage) : (s.setStage l g).channels = s.channels := rfl
@[simp] theorem State.setStage_calls (l : ListId) (g : Stage) : (s.setStage l g).calls = s.calls := rfl
@[simp] theorem State.setStage_tones (l : ListId) (g : Stage) : (s.setStage l g).tones = s.tones := rfl
@[simp] theorem State.setStage_alarms (l : ListId) (g : Stage) : (s.setStage l g).alarms = s.alarms := rfl
@[simp] theorem State.setStage_contacts (l : ListId) (g : Stage) : (s.setStage l g).contacts = s.contacts := rfl
@[simp] theorem State.setStage_theatre (l : ListId) (g : Stage) : (s.setStage l g).theatre = s.theatre := rfl
@[simp] theorem State.setStage_trunks (l : ListId) (g : Stage) : (s.setStage l g).trunks = s.trunks := rfl
@[simp] theorem State.setStage_loops (l : ListId) (g : Stage) : (s.setStage l g).loops = s.loops := rfl
@[simp] theorem State.setStage_changeovers (l : ListId) (g : Stage) : (s.setStage l g).changeovers = s.changeovers := rfl
@[simp] theorem State.setStage_notes (l : ListId) (g : Stage) : (s.setStage l g).notes = s.notes := rfl
@[simp] theorem State.setStage_beat (l : ListId) (g : Stage) : (s.setStage l g).beat = s.beat := rfl
@[simp] theorem State.setStage_time (l : ListId) (g : Stage) : (s.setStage l g).time = s.time := rfl
@[simp] theorem State.setStage_outbound (l : ListId) (g : Stage) : (s.setStage l g).outbound = s.outbound := rfl
@[simp] theorem State.setStage_freeCount (l : ListId) (g : Stage) : (s.setStage l g).freeCount = s.freeCount := rfl
@[simp] theorem State.setStage_pending (l : ListId) (g : Stage) : (s.setStage l g).pending = s.pending := rfl

@[simp] theorem State.modProgram_regs (p : Fin 64) (f : Program → Program) : (s.modProgram p f).regs = s.regs := rfl
@[simp] theorem State.modProgram_part (p : Fin 64) (f : Program → Program) : (s.modProgram p f).part = s.part := rfl
@[simp] theorem State.modProgram_lists (p : Fin 64) (f : Program → Program) : (s.modProgram p f).lists = s.lists := rfl
@[simp] theorem State.modProgram_port (p : Fin 64) (f : Program → Program) : (s.modProgram p f).port = s.port := rfl
@[simp] theorem State.modProgram_outlets (p : Fin 64) (f : Program → Program) : (s.modProgram p f).outlets = s.outlets := rfl
@[simp] theorem State.modProgram_inlets (p : Fin 64) (f : Program → Program) : (s.modProgram p f).inlets = s.inlets := rfl
@[simp] theorem State.modProgram_stations (p : Fin 64) (f : Program → Program) : (s.modProgram p f).stations = s.stations := rfl
@[simp] theorem State.modProgram_programs (p : Fin 64) (f : Program → Program) : (s.modProgram p f).programs = s.programs.modify p f := rfl
@[simp] theorem State.modProgram_claims (p : Fin 64) (f : Program → Program) : (s.modProgram p f).claims = s.claims := rfl
@[simp] theorem State.modProgram_mixer (p : Fin 64) (f : Program → Program) : (s.modProgram p f).mixer = s.mixer := rfl
@[simp] theorem State.modProgram_ambient (p : Fin 64) (f : Program → Program) : (s.modProgram p f).ambient = s.ambient := rfl
@[simp] theorem State.modProgram_channels (p : Fin 64) (f : Program → Program) : (s.modProgram p f).channels = s.channels := rfl
@[simp] theorem State.modProgram_calls (p : Fin 64) (f : Program → Program) : (s.modProgram p f).calls = s.calls := rfl
@[simp] theorem State.modProgram_tones (p : Fin 64) (f : Program → Program) : (s.modProgram p f).tones = s.tones := rfl
@[simp] theorem State.modProgram_alarms (p : Fin 64) (f : Program → Program) : (s.modProgram p f).alarms = s.alarms := rfl
@[simp] theorem State.modProgram_contacts (p : Fin 64) (f : Program → Program) : (s.modProgram p f).contacts = s.contacts := rfl
@[simp] theorem State.modProgram_theatre (p : Fin 64) (f : Program → Program) : (s.modProgram p f).theatre = s.theatre := rfl
@[simp] theorem State.modProgram_trunks (p : Fin 64) (f : Program → Program) : (s.modProgram p f).trunks = s.trunks := rfl
@[simp] theorem State.modProgram_loops (p : Fin 64) (f : Program → Program) : (s.modProgram p f).loops = s.loops := rfl
@[simp] theorem State.modProgram_changeovers (p : Fin 64) (f : Program → Program) : (s.modProgram p f).changeovers = s.changeovers := rfl
@[simp] theorem State.modProgram_notes (p : Fin 64) (f : Program → Program) : (s.modProgram p f).notes = s.notes := rfl
@[simp] theorem State.modProgram_beat (p : Fin 64) (f : Program → Program) : (s.modProgram p f).beat = s.beat := rfl
@[simp] theorem State.modProgram_time (p : Fin 64) (f : Program → Program) : (s.modProgram p f).time = s.time := rfl
@[simp] theorem State.modProgram_outbound (p : Fin 64) (f : Program → Program) : (s.modProgram p f).outbound = s.outbound := rfl
@[simp] theorem State.modProgram_freeCount (p : Fin 64) (f : Program → Program) : (s.modProgram p f).freeCount = s.freeCount := rfl
@[simp] theorem State.modProgram_pending (p : Fin 64) (f : Program → Program) : (s.modProgram p f).pending = s.pending := rfl

@[simp] theorem State.modChannel_regs (c : Fin 16) (f : Channel → Channel) : (s.modChannel c f).regs = s.regs := rfl
@[simp] theorem State.modChannel_part (c : Fin 16) (f : Channel → Channel) : (s.modChannel c f).part = s.part := rfl
@[simp] theorem State.modChannel_lists (c : Fin 16) (f : Channel → Channel) : (s.modChannel c f).lists = s.lists := rfl
@[simp] theorem State.modChannel_port (c : Fin 16) (f : Channel → Channel) : (s.modChannel c f).port = s.port := rfl
@[simp] theorem State.modChannel_outlets (c : Fin 16) (f : Channel → Channel) : (s.modChannel c f).outlets = s.outlets := rfl
@[simp] theorem State.modChannel_inlets (c : Fin 16) (f : Channel → Channel) : (s.modChannel c f).inlets = s.inlets := rfl
@[simp] theorem State.modChannel_stations (c : Fin 16) (f : Channel → Channel) : (s.modChannel c f).stations = s.stations := rfl
@[simp] theorem State.modChannel_programs (c : Fin 16) (f : Channel → Channel) : (s.modChannel c f).programs = s.programs := rfl
@[simp] theorem State.modChannel_claims (c : Fin 16) (f : Channel → Channel) : (s.modChannel c f).claims = s.claims := rfl
@[simp] theorem State.modChannel_mixer (c : Fin 16) (f : Channel → Channel) : (s.modChannel c f).mixer = s.mixer := rfl
@[simp] theorem State.modChannel_ambient (c : Fin 16) (f : Channel → Channel) : (s.modChannel c f).ambient = s.ambient := rfl
@[simp] theorem State.modChannel_channels (c : Fin 16) (f : Channel → Channel) : (s.modChannel c f).channels = s.channels.modify c f := rfl
@[simp] theorem State.modChannel_calls (c : Fin 16) (f : Channel → Channel) : (s.modChannel c f).calls = s.calls := rfl
@[simp] theorem State.modChannel_tones (c : Fin 16) (f : Channel → Channel) : (s.modChannel c f).tones = s.tones := rfl
@[simp] theorem State.modChannel_alarms (c : Fin 16) (f : Channel → Channel) : (s.modChannel c f).alarms = s.alarms := rfl
@[simp] theorem State.modChannel_contacts (c : Fin 16) (f : Channel → Channel) : (s.modChannel c f).contacts = s.contacts := rfl
@[simp] theorem State.modChannel_theatre (c : Fin 16) (f : Channel → Channel) : (s.modChannel c f).theatre = s.theatre := rfl
@[simp] theorem State.modChannel_trunks (c : Fin 16) (f : Channel → Channel) : (s.modChannel c f).trunks = s.trunks := rfl
@[simp] theorem State.modChannel_loops (c : Fin 16) (f : Channel → Channel) : (s.modChannel c f).loops = s.loops := rfl
@[simp] theorem State.modChannel_changeovers (c : Fin 16) (f : Channel → Channel) : (s.modChannel c f).changeovers = s.changeovers := rfl
@[simp] theorem State.modChannel_notes (c : Fin 16) (f : Channel → Channel) : (s.modChannel c f).notes = s.notes := rfl
@[simp] theorem State.modChannel_beat (c : Fin 16) (f : Channel → Channel) : (s.modChannel c f).beat = s.beat := rfl
@[simp] theorem State.modChannel_time (c : Fin 16) (f : Channel → Channel) : (s.modChannel c f).time = s.time := rfl
@[simp] theorem State.modChannel_outbound (c : Fin 16) (f : Channel → Channel) : (s.modChannel c f).outbound = s.outbound := rfl
@[simp] theorem State.modChannel_freeCount (c : Fin 16) (f : Channel → Channel) : (s.modChannel c f).freeCount = s.freeCount := rfl
@[simp] theorem State.modChannel_pending (c : Fin 16) (f : Channel → Channel) : (s.modChannel c f).pending = s.pending := rfl

@[simp] theorem State.modStation_regs (n : Fin 64) (f : Station → Station) : (s.modStation n f).regs = s.regs := rfl
@[simp] theorem State.modStation_part (n : Fin 64) (f : Station → Station) : (s.modStation n f).part = s.part := rfl
@[simp] theorem State.modStation_lists (n : Fin 64) (f : Station → Station) : (s.modStation n f).lists = s.lists := rfl
@[simp] theorem State.modStation_port (n : Fin 64) (f : Station → Station) : (s.modStation n f).port = s.port := rfl
@[simp] theorem State.modStation_outlets (n : Fin 64) (f : Station → Station) : (s.modStation n f).outlets = s.outlets := rfl
@[simp] theorem State.modStation_inlets (n : Fin 64) (f : Station → Station) : (s.modStation n f).inlets = s.inlets := rfl
@[simp] theorem State.modStation_stations (n : Fin 64) (f : Station → Station) : (s.modStation n f).stations = s.stations.modify n f := rfl
@[simp] theorem State.modStation_programs (n : Fin 64) (f : Station → Station) : (s.modStation n f).programs = s.programs := rfl
@[simp] theorem State.modStation_claims (n : Fin 64) (f : Station → Station) : (s.modStation n f).claims = s.claims := rfl
@[simp] theorem State.modStation_mixer (n : Fin 64) (f : Station → Station) : (s.modStation n f).mixer = s.mixer := rfl
@[simp] theorem State.modStation_ambient (n : Fin 64) (f : Station → Station) : (s.modStation n f).ambient = s.ambient := rfl
@[simp] theorem State.modStation_channels (n : Fin 64) (f : Station → Station) : (s.modStation n f).channels = s.channels := rfl
@[simp] theorem State.modStation_calls (n : Fin 64) (f : Station → Station) : (s.modStation n f).calls = s.calls := rfl
@[simp] theorem State.modStation_tones (n : Fin 64) (f : Station → Station) : (s.modStation n f).tones = s.tones := rfl
@[simp] theorem State.modStation_alarms (n : Fin 64) (f : Station → Station) : (s.modStation n f).alarms = s.alarms := rfl
@[simp] theorem State.modStation_contacts (n : Fin 64) (f : Station → Station) : (s.modStation n f).contacts = s.contacts := rfl
@[simp] theorem State.modStation_theatre (n : Fin 64) (f : Station → Station) : (s.modStation n f).theatre = s.theatre := rfl
@[simp] theorem State.modStation_trunks (n : Fin 64) (f : Station → Station) : (s.modStation n f).trunks = s.trunks := rfl
@[simp] theorem State.modStation_loops (n : Fin 64) (f : Station → Station) : (s.modStation n f).loops = s.loops := rfl
@[simp] theorem State.modStation_changeovers (n : Fin 64) (f : Station → Station) : (s.modStation n f).changeovers = s.changeovers := rfl
@[simp] theorem State.modStation_notes (n : Fin 64) (f : Station → Station) : (s.modStation n f).notes = s.notes := rfl
@[simp] theorem State.modStation_beat (n : Fin 64) (f : Station → Station) : (s.modStation n f).beat = s.beat := rfl
@[simp] theorem State.modStation_time (n : Fin 64) (f : Station → Station) : (s.modStation n f).time = s.time := rfl
@[simp] theorem State.modStation_outbound (n : Fin 64) (f : Station → Station) : (s.modStation n f).outbound = s.outbound := rfl
@[simp] theorem State.modStation_freeCount (n : Fin 64) (f : Station → Station) : (s.modStation n f).freeCount = s.freeCount := rfl
@[simp] theorem State.modStation_pending (n : Fin 64) (f : Station → Station) : (s.modStation n f).pending = s.pending := rfl

@[simp] theorem State.modCall_regs (c : Fin 16) (f : Call → Call) : (s.modCall c f).regs = s.regs := rfl
@[simp] theorem State.modCall_part (c : Fin 16) (f : Call → Call) : (s.modCall c f).part = s.part := rfl
@[simp] theorem State.modCall_lists (c : Fin 16) (f : Call → Call) : (s.modCall c f).lists = s.lists := rfl
@[simp] theorem State.modCall_port (c : Fin 16) (f : Call → Call) : (s.modCall c f).port = s.port := rfl
@[simp] theorem State.modCall_outlets (c : Fin 16) (f : Call → Call) : (s.modCall c f).outlets = s.outlets := rfl
@[simp] theorem State.modCall_inlets (c : Fin 16) (f : Call → Call) : (s.modCall c f).inlets = s.inlets := rfl
@[simp] theorem State.modCall_stations (c : Fin 16) (f : Call → Call) : (s.modCall c f).stations = s.stations := rfl
@[simp] theorem State.modCall_programs (c : Fin 16) (f : Call → Call) : (s.modCall c f).programs = s.programs := rfl
@[simp] theorem State.modCall_claims (c : Fin 16) (f : Call → Call) : (s.modCall c f).claims = s.claims := rfl
@[simp] theorem State.modCall_mixer (c : Fin 16) (f : Call → Call) : (s.modCall c f).mixer = s.mixer := rfl
@[simp] theorem State.modCall_ambient (c : Fin 16) (f : Call → Call) : (s.modCall c f).ambient = s.ambient := rfl
@[simp] theorem State.modCall_channels (c : Fin 16) (f : Call → Call) : (s.modCall c f).channels = s.channels := rfl
@[simp] theorem State.modCall_calls (c : Fin 16) (f : Call → Call) : (s.modCall c f).calls = s.calls.modify c f := rfl
@[simp] theorem State.modCall_tones (c : Fin 16) (f : Call → Call) : (s.modCall c f).tones = s.tones := rfl
@[simp] theorem State.modCall_alarms (c : Fin 16) (f : Call → Call) : (s.modCall c f).alarms = s.alarms := rfl
@[simp] theorem State.modCall_contacts (c : Fin 16) (f : Call → Call) : (s.modCall c f).contacts = s.contacts := rfl
@[simp] theorem State.modCall_theatre (c : Fin 16) (f : Call → Call) : (s.modCall c f).theatre = s.theatre := rfl
@[simp] theorem State.modCall_trunks (c : Fin 16) (f : Call → Call) : (s.modCall c f).trunks = s.trunks := rfl
@[simp] theorem State.modCall_loops (c : Fin 16) (f : Call → Call) : (s.modCall c f).loops = s.loops := rfl
@[simp] theorem State.modCall_changeovers (c : Fin 16) (f : Call → Call) : (s.modCall c f).changeovers = s.changeovers := rfl
@[simp] theorem State.modCall_notes (c : Fin 16) (f : Call → Call) : (s.modCall c f).notes = s.notes := rfl
@[simp] theorem State.modCall_beat (c : Fin 16) (f : Call → Call) : (s.modCall c f).beat = s.beat := rfl
@[simp] theorem State.modCall_time (c : Fin 16) (f : Call → Call) : (s.modCall c f).time = s.time := rfl
@[simp] theorem State.modCall_outbound (c : Fin 16) (f : Call → Call) : (s.modCall c f).outbound = s.outbound := rfl
@[simp] theorem State.modCall_freeCount (c : Fin 16) (f : Call → Call) : (s.modCall c f).freeCount = s.freeCount := rfl
@[simp] theorem State.modCall_pending (c : Fin 16) (f : Call → Call) : (s.modCall c f).pending = s.pending := rfl

@[simp] theorem State.modVoice_regs (v : Fin 8) (f : Voice → Voice) : (s.modVoice v f).regs = s.regs := rfl
@[simp] theorem State.modVoice_part (v : Fin 8) (f : Voice → Voice) : (s.modVoice v f).part = s.part := rfl
@[simp] theorem State.modVoice_lists (v : Fin 8) (f : Voice → Voice) : (s.modVoice v f).lists = s.lists := rfl
@[simp] theorem State.modVoice_port (v : Fin 8) (f : Voice → Voice) : (s.modVoice v f).port = s.port := rfl
@[simp] theorem State.modVoice_outlets (v : Fin 8) (f : Voice → Voice) : (s.modVoice v f).outlets = s.outlets := rfl
@[simp] theorem State.modVoice_inlets (v : Fin 8) (f : Voice → Voice) : (s.modVoice v f).inlets = s.inlets := rfl
@[simp] theorem State.modVoice_stations (v : Fin 8) (f : Voice → Voice) : (s.modVoice v f).stations = s.stations := rfl
@[simp] theorem State.modVoice_programs (v : Fin 8) (f : Voice → Voice) : (s.modVoice v f).programs = s.programs := rfl
@[simp] theorem State.modVoice_claims (v : Fin 8) (f : Voice → Voice) : (s.modVoice v f).claims = s.claims := rfl
@[simp] theorem State.modVoice_mixer (v : Fin 8) (f : Voice → Voice) : (s.modVoice v f).mixer = s.mixer := rfl
@[simp] theorem State.modVoice_ambient (v : Fin 8) (f : Voice → Voice) : (s.modVoice v f).ambient = s.ambient := rfl
@[simp] theorem State.modVoice_channels (v : Fin 8) (f : Voice → Voice) : (s.modVoice v f).channels = s.channels := rfl
@[simp] theorem State.modVoice_calls (v : Fin 8) (f : Voice → Voice) : (s.modVoice v f).calls = s.calls := rfl
@[simp] theorem State.modVoice_tones (v : Fin 8) (f : Voice → Voice) : (s.modVoice v f).tones = { s.tones with voices := s.tones.voices.modify v f } := rfl
@[simp] theorem State.modVoice_alarms (v : Fin 8) (f : Voice → Voice) : (s.modVoice v f).alarms = s.alarms := rfl
@[simp] theorem State.modVoice_contacts (v : Fin 8) (f : Voice → Voice) : (s.modVoice v f).contacts = s.contacts := rfl
@[simp] theorem State.modVoice_theatre (v : Fin 8) (f : Voice → Voice) : (s.modVoice v f).theatre = s.theatre := rfl
@[simp] theorem State.modVoice_trunks (v : Fin 8) (f : Voice → Voice) : (s.modVoice v f).trunks = s.trunks := rfl
@[simp] theorem State.modVoice_loops (v : Fin 8) (f : Voice → Voice) : (s.modVoice v f).loops = s.loops := rfl
@[simp] theorem State.modVoice_changeovers (v : Fin 8) (f : Voice → Voice) : (s.modVoice v f).changeovers = s.changeovers := rfl
@[simp] theorem State.modVoice_notes (v : Fin 8) (f : Voice → Voice) : (s.modVoice v f).notes = s.notes := rfl
@[simp] theorem State.modVoice_beat (v : Fin 8) (f : Voice → Voice) : (s.modVoice v f).beat = s.beat := rfl
@[simp] theorem State.modVoice_time (v : Fin 8) (f : Voice → Voice) : (s.modVoice v f).time = s.time := rfl
@[simp] theorem State.modVoice_outbound (v : Fin 8) (f : Voice → Voice) : (s.modVoice v f).outbound = s.outbound := rfl
@[simp] theorem State.modVoice_freeCount (v : Fin 8) (f : Voice → Voice) : (s.modVoice v f).freeCount = s.freeCount := rfl
@[simp] theorem State.modVoice_pending (v : Fin 8) (f : Voice → Voice) : (s.modVoice v f).pending = s.pending := rfl

@[simp] theorem State.modPattern_regs (p : Fin 12) (f : Pattern → Pattern) : (s.modPattern p f).regs = s.regs := rfl
@[simp] theorem State.modPattern_part (p : Fin 12) (f : Pattern → Pattern) : (s.modPattern p f).part = s.part := rfl
@[simp] theorem State.modPattern_lists (p : Fin 12) (f : Pattern → Pattern) : (s.modPattern p f).lists = s.lists := rfl
@[simp] theorem State.modPattern_port (p : Fin 12) (f : Pattern → Pattern) : (s.modPattern p f).port = s.port := rfl
@[simp] theorem State.modPattern_outlets (p : Fin 12) (f : Pattern → Pattern) : (s.modPattern p f).outlets = s.outlets := rfl
@[simp] theorem State.modPattern_inlets (p : Fin 12) (f : Pattern → Pattern) : (s.modPattern p f).inlets = s.inlets := rfl
@[simp] theorem State.modPattern_stations (p : Fin 12) (f : Pattern → Pattern) : (s.modPattern p f).stations = s.stations := rfl
@[simp] theorem State.modPattern_programs (p : Fin 12) (f : Pattern → Pattern) : (s.modPattern p f).programs = s.programs := rfl
@[simp] theorem State.modPattern_claims (p : Fin 12) (f : Pattern → Pattern) : (s.modPattern p f).claims = s.claims := rfl
@[simp] theorem State.modPattern_mixer (p : Fin 12) (f : Pattern → Pattern) : (s.modPattern p f).mixer = s.mixer := rfl
@[simp] theorem State.modPattern_ambient (p : Fin 12) (f : Pattern → Pattern) : (s.modPattern p f).ambient = s.ambient := rfl
@[simp] theorem State.modPattern_channels (p : Fin 12) (f : Pattern → Pattern) : (s.modPattern p f).channels = s.channels := rfl
@[simp] theorem State.modPattern_calls (p : Fin 12) (f : Pattern → Pattern) : (s.modPattern p f).calls = s.calls := rfl
@[simp] theorem State.modPattern_tones (p : Fin 12) (f : Pattern → Pattern) : (s.modPattern p f).tones = { s.tones with patterns := s.tones.patterns.modify p f } := rfl
@[simp] theorem State.modPattern_alarms (p : Fin 12) (f : Pattern → Pattern) : (s.modPattern p f).alarms = s.alarms := rfl
@[simp] theorem State.modPattern_contacts (p : Fin 12) (f : Pattern → Pattern) : (s.modPattern p f).contacts = s.contacts := rfl
@[simp] theorem State.modPattern_theatre (p : Fin 12) (f : Pattern → Pattern) : (s.modPattern p f).theatre = s.theatre := rfl
@[simp] theorem State.modPattern_trunks (p : Fin 12) (f : Pattern → Pattern) : (s.modPattern p f).trunks = s.trunks := rfl
@[simp] theorem State.modPattern_loops (p : Fin 12) (f : Pattern → Pattern) : (s.modPattern p f).loops = s.loops := rfl
@[simp] theorem State.modPattern_changeovers (p : Fin 12) (f : Pattern → Pattern) : (s.modPattern p f).changeovers = s.changeovers := rfl
@[simp] theorem State.modPattern_notes (p : Fin 12) (f : Pattern → Pattern) : (s.modPattern p f).notes = s.notes := rfl
@[simp] theorem State.modPattern_beat (p : Fin 12) (f : Pattern → Pattern) : (s.modPattern p f).beat = s.beat := rfl
@[simp] theorem State.modPattern_time (p : Fin 12) (f : Pattern → Pattern) : (s.modPattern p f).time = s.time := rfl
@[simp] theorem State.modPattern_outbound (p : Fin 12) (f : Pattern → Pattern) : (s.modPattern p f).outbound = s.outbound := rfl
@[simp] theorem State.modPattern_freeCount (p : Fin 12) (f : Pattern → Pattern) : (s.modPattern p f).freeCount = s.freeCount := rfl
@[simp] theorem State.modPattern_pending (p : Fin 12) (f : Pattern → Pattern) : (s.modPattern p f).pending = s.pending := rfl

@[simp] theorem State.modAlarm_regs (k : AlarmKind) (f : AlarmStatus → AlarmStatus) : (s.modAlarm k f).regs = s.regs := rfl
@[simp] theorem State.modAlarm_part (k : AlarmKind) (f : AlarmStatus → AlarmStatus) : (s.modAlarm k f).part = s.part := rfl
@[simp] theorem State.modAlarm_lists (k : AlarmKind) (f : AlarmStatus → AlarmStatus) : (s.modAlarm k f).lists = s.lists := rfl
@[simp] theorem State.modAlarm_port (k : AlarmKind) (f : AlarmStatus → AlarmStatus) : (s.modAlarm k f).port = s.port := rfl
@[simp] theorem State.modAlarm_outlets (k : AlarmKind) (f : AlarmStatus → AlarmStatus) : (s.modAlarm k f).outlets = s.outlets := rfl
@[simp] theorem State.modAlarm_inlets (k : AlarmKind) (f : AlarmStatus → AlarmStatus) : (s.modAlarm k f).inlets = s.inlets := rfl
@[simp] theorem State.modAlarm_stations (k : AlarmKind) (f : AlarmStatus → AlarmStatus) : (s.modAlarm k f).stations = s.stations := rfl
@[simp] theorem State.modAlarm_programs (k : AlarmKind) (f : AlarmStatus → AlarmStatus) : (s.modAlarm k f).programs = s.programs := rfl
@[simp] theorem State.modAlarm_claims (k : AlarmKind) (f : AlarmStatus → AlarmStatus) : (s.modAlarm k f).claims = s.claims := rfl
@[simp] theorem State.modAlarm_mixer (k : AlarmKind) (f : AlarmStatus → AlarmStatus) : (s.modAlarm k f).mixer = s.mixer := rfl
@[simp] theorem State.modAlarm_ambient (k : AlarmKind) (f : AlarmStatus → AlarmStatus) : (s.modAlarm k f).ambient = s.ambient := rfl
@[simp] theorem State.modAlarm_channels (k : AlarmKind) (f : AlarmStatus → AlarmStatus) : (s.modAlarm k f).channels = s.channels := rfl
@[simp] theorem State.modAlarm_calls (k : AlarmKind) (f : AlarmStatus → AlarmStatus) : (s.modAlarm k f).calls = s.calls := rfl
@[simp] theorem State.modAlarm_tones (k : AlarmKind) (f : AlarmStatus → AlarmStatus) : (s.modAlarm k f).tones = s.tones := rfl
@[simp] theorem State.modAlarm_alarms (k : AlarmKind) (f : AlarmStatus → AlarmStatus) : (s.modAlarm k f).alarms = { s.alarms with kinds := s.alarms.kinds.modify k.idx f } := rfl
@[simp] theorem State.modAlarm_contacts (k : AlarmKind) (f : AlarmStatus → AlarmStatus) : (s.modAlarm k f).contacts = s.contacts := rfl
@[simp] theorem State.modAlarm_theatre (k : AlarmKind) (f : AlarmStatus → AlarmStatus) : (s.modAlarm k f).theatre = s.theatre := rfl
@[simp] theorem State.modAlarm_trunks (k : AlarmKind) (f : AlarmStatus → AlarmStatus) : (s.modAlarm k f).trunks = s.trunks := rfl
@[simp] theorem State.modAlarm_loops (k : AlarmKind) (f : AlarmStatus → AlarmStatus) : (s.modAlarm k f).loops = s.loops := rfl
@[simp] theorem State.modAlarm_changeovers (k : AlarmKind) (f : AlarmStatus → AlarmStatus) : (s.modAlarm k f).changeovers = s.changeovers := rfl
@[simp] theorem State.modAlarm_notes (k : AlarmKind) (f : AlarmStatus → AlarmStatus) : (s.modAlarm k f).notes = s.notes := rfl
@[simp] theorem State.modAlarm_beat (k : AlarmKind) (f : AlarmStatus → AlarmStatus) : (s.modAlarm k f).beat = s.beat := rfl
@[simp] theorem State.modAlarm_time (k : AlarmKind) (f : AlarmStatus → AlarmStatus) : (s.modAlarm k f).time = s.time := rfl
@[simp] theorem State.modAlarm_outbound (k : AlarmKind) (f : AlarmStatus → AlarmStatus) : (s.modAlarm k f).outbound = s.outbound := rfl
@[simp] theorem State.modAlarm_freeCount (k : AlarmKind) (f : AlarmStatus → AlarmStatus) : (s.modAlarm k f).freeCount = s.freeCount := rfl
@[simp] theorem State.modAlarm_pending (k : AlarmKind) (f : AlarmStatus → AlarmStatus) : (s.modAlarm k f).pending = s.pending := rfl

@[simp] theorem State.modTrunk_regs (k : Fin 4) (f : Trunk → Trunk) : (s.modTrunk k f).regs = s.regs := rfl
@[simp] theorem State.modTrunk_part (k : Fin 4) (f : Trunk → Trunk) : (s.modTrunk k f).part = s.part := rfl
@[simp] theorem State.modTrunk_lists (k : Fin 4) (f : Trunk → Trunk) : (s.modTrunk k f).lists = s.lists := rfl
@[simp] theorem State.modTrunk_port (k : Fin 4) (f : Trunk → Trunk) : (s.modTrunk k f).port = s.port := rfl
@[simp] theorem State.modTrunk_outlets (k : Fin 4) (f : Trunk → Trunk) : (s.modTrunk k f).outlets = s.outlets := rfl
@[simp] theorem State.modTrunk_inlets (k : Fin 4) (f : Trunk → Trunk) : (s.modTrunk k f).inlets = s.inlets := rfl
@[simp] theorem State.modTrunk_stations (k : Fin 4) (f : Trunk → Trunk) : (s.modTrunk k f).stations = s.stations := rfl
@[simp] theorem State.modTrunk_programs (k : Fin 4) (f : Trunk → Trunk) : (s.modTrunk k f).programs = s.programs := rfl
@[simp] theorem State.modTrunk_claims (k : Fin 4) (f : Trunk → Trunk) : (s.modTrunk k f).claims = s.claims := rfl
@[simp] theorem State.modTrunk_mixer (k : Fin 4) (f : Trunk → Trunk) : (s.modTrunk k f).mixer = s.mixer := rfl
@[simp] theorem State.modTrunk_ambient (k : Fin 4) (f : Trunk → Trunk) : (s.modTrunk k f).ambient = s.ambient := rfl
@[simp] theorem State.modTrunk_channels (k : Fin 4) (f : Trunk → Trunk) : (s.modTrunk k f).channels = s.channels := rfl
@[simp] theorem State.modTrunk_calls (k : Fin 4) (f : Trunk → Trunk) : (s.modTrunk k f).calls = s.calls := rfl
@[simp] theorem State.modTrunk_tones (k : Fin 4) (f : Trunk → Trunk) : (s.modTrunk k f).tones = s.tones := rfl
@[simp] theorem State.modTrunk_alarms (k : Fin 4) (f : Trunk → Trunk) : (s.modTrunk k f).alarms = s.alarms := rfl
@[simp] theorem State.modTrunk_contacts (k : Fin 4) (f : Trunk → Trunk) : (s.modTrunk k f).contacts = s.contacts := rfl
@[simp] theorem State.modTrunk_theatre (k : Fin 4) (f : Trunk → Trunk) : (s.modTrunk k f).theatre = s.theatre := rfl
@[simp] theorem State.modTrunk_trunks (k : Fin 4) (f : Trunk → Trunk) : (s.modTrunk k f).trunks = s.trunks.modify k f := rfl
@[simp] theorem State.modTrunk_loops (k : Fin 4) (f : Trunk → Trunk) : (s.modTrunk k f).loops = s.loops := rfl
@[simp] theorem State.modTrunk_changeovers (k : Fin 4) (f : Trunk → Trunk) : (s.modTrunk k f).changeovers = s.changeovers := rfl
@[simp] theorem State.modTrunk_notes (k : Fin 4) (f : Trunk → Trunk) : (s.modTrunk k f).notes = s.notes := rfl
@[simp] theorem State.modTrunk_beat (k : Fin 4) (f : Trunk → Trunk) : (s.modTrunk k f).beat = s.beat := rfl
@[simp] theorem State.modTrunk_time (k : Fin 4) (f : Trunk → Trunk) : (s.modTrunk k f).time = s.time := rfl
@[simp] theorem State.modTrunk_outbound (k : Fin 4) (f : Trunk → Trunk) : (s.modTrunk k f).outbound = s.outbound := rfl
@[simp] theorem State.modTrunk_freeCount (k : Fin 4) (f : Trunk → Trunk) : (s.modTrunk k f).freeCount = s.freeCount := rfl
@[simp] theorem State.modTrunk_pending (k : Fin 4) (f : Trunk → Trunk) : (s.modTrunk k f).pending = s.pending := rfl

@[simp] theorem State.modLoop_regs (o : Fin 256) (f : Loop → Loop) : (s.modLoop o f).regs = s.regs := rfl
@[simp] theorem State.modLoop_part (o : Fin 256) (f : Loop → Loop) : (s.modLoop o f).part = s.part := rfl
@[simp] theorem State.modLoop_lists (o : Fin 256) (f : Loop → Loop) : (s.modLoop o f).lists = s.lists := rfl
@[simp] theorem State.modLoop_port (o : Fin 256) (f : Loop → Loop) : (s.modLoop o f).port = s.port := rfl
@[simp] theorem State.modLoop_outlets (o : Fin 256) (f : Loop → Loop) : (s.modLoop o f).outlets = s.outlets := rfl
@[simp] theorem State.modLoop_inlets (o : Fin 256) (f : Loop → Loop) : (s.modLoop o f).inlets = s.inlets := rfl
@[simp] theorem State.modLoop_stations (o : Fin 256) (f : Loop → Loop) : (s.modLoop o f).stations = s.stations := rfl
@[simp] theorem State.modLoop_programs (o : Fin 256) (f : Loop → Loop) : (s.modLoop o f).programs = s.programs := rfl
@[simp] theorem State.modLoop_claims (o : Fin 256) (f : Loop → Loop) : (s.modLoop o f).claims = s.claims := rfl
@[simp] theorem State.modLoop_mixer (o : Fin 256) (f : Loop → Loop) : (s.modLoop o f).mixer = s.mixer := rfl
@[simp] theorem State.modLoop_ambient (o : Fin 256) (f : Loop → Loop) : (s.modLoop o f).ambient = s.ambient := rfl
@[simp] theorem State.modLoop_channels (o : Fin 256) (f : Loop → Loop) : (s.modLoop o f).channels = s.channels := rfl
@[simp] theorem State.modLoop_calls (o : Fin 256) (f : Loop → Loop) : (s.modLoop o f).calls = s.calls := rfl
@[simp] theorem State.modLoop_tones (o : Fin 256) (f : Loop → Loop) : (s.modLoop o f).tones = s.tones := rfl
@[simp] theorem State.modLoop_alarms (o : Fin 256) (f : Loop → Loop) : (s.modLoop o f).alarms = s.alarms := rfl
@[simp] theorem State.modLoop_contacts (o : Fin 256) (f : Loop → Loop) : (s.modLoop o f).contacts = s.contacts := rfl
@[simp] theorem State.modLoop_theatre (o : Fin 256) (f : Loop → Loop) : (s.modLoop o f).theatre = s.theatre := rfl
@[simp] theorem State.modLoop_trunks (o : Fin 256) (f : Loop → Loop) : (s.modLoop o f).trunks = s.trunks := rfl
@[simp] theorem State.modLoop_loops (o : Fin 256) (f : Loop → Loop) : (s.modLoop o f).loops = s.loops.modify o f := rfl
@[simp] theorem State.modLoop_changeovers (o : Fin 256) (f : Loop → Loop) : (s.modLoop o f).changeovers = s.changeovers := rfl
@[simp] theorem State.modLoop_notes (o : Fin 256) (f : Loop → Loop) : (s.modLoop o f).notes = s.notes := rfl
@[simp] theorem State.modLoop_beat (o : Fin 256) (f : Loop → Loop) : (s.modLoop o f).beat = s.beat := rfl
@[simp] theorem State.modLoop_time (o : Fin 256) (f : Loop → Loop) : (s.modLoop o f).time = s.time := rfl
@[simp] theorem State.modLoop_outbound (o : Fin 256) (f : Loop → Loop) : (s.modLoop o f).outbound = s.outbound := rfl
@[simp] theorem State.modLoop_freeCount (o : Fin 256) (f : Loop → Loop) : (s.modLoop o f).freeCount = s.freeCount := rfl
@[simp] theorem State.modLoop_pending (o : Fin 256) (f : Loop → Loop) : (s.modLoop o f).pending = s.pending := rfl

@[simp] theorem State.modChangeover_regs (x : Fin 8) (f : Changeover → Changeover) : (s.modChangeover x f).regs = s.regs := rfl
@[simp] theorem State.modChangeover_part (x : Fin 8) (f : Changeover → Changeover) : (s.modChangeover x f).part = s.part := rfl
@[simp] theorem State.modChangeover_lists (x : Fin 8) (f : Changeover → Changeover) : (s.modChangeover x f).lists = s.lists := rfl
@[simp] theorem State.modChangeover_port (x : Fin 8) (f : Changeover → Changeover) : (s.modChangeover x f).port = s.port := rfl
@[simp] theorem State.modChangeover_outlets (x : Fin 8) (f : Changeover → Changeover) : (s.modChangeover x f).outlets = s.outlets := rfl
@[simp] theorem State.modChangeover_inlets (x : Fin 8) (f : Changeover → Changeover) : (s.modChangeover x f).inlets = s.inlets := rfl
@[simp] theorem State.modChangeover_stations (x : Fin 8) (f : Changeover → Changeover) : (s.modChangeover x f).stations = s.stations := rfl
@[simp] theorem State.modChangeover_programs (x : Fin 8) (f : Changeover → Changeover) : (s.modChangeover x f).programs = s.programs := rfl
@[simp] theorem State.modChangeover_claims (x : Fin 8) (f : Changeover → Changeover) : (s.modChangeover x f).claims = s.claims := rfl
@[simp] theorem State.modChangeover_mixer (x : Fin 8) (f : Changeover → Changeover) : (s.modChangeover x f).mixer = s.mixer := rfl
@[simp] theorem State.modChangeover_ambient (x : Fin 8) (f : Changeover → Changeover) : (s.modChangeover x f).ambient = s.ambient := rfl
@[simp] theorem State.modChangeover_channels (x : Fin 8) (f : Changeover → Changeover) : (s.modChangeover x f).channels = s.channels := rfl
@[simp] theorem State.modChangeover_calls (x : Fin 8) (f : Changeover → Changeover) : (s.modChangeover x f).calls = s.calls := rfl
@[simp] theorem State.modChangeover_tones (x : Fin 8) (f : Changeover → Changeover) : (s.modChangeover x f).tones = s.tones := rfl
@[simp] theorem State.modChangeover_alarms (x : Fin 8) (f : Changeover → Changeover) : (s.modChangeover x f).alarms = s.alarms := rfl
@[simp] theorem State.modChangeover_contacts (x : Fin 8) (f : Changeover → Changeover) : (s.modChangeover x f).contacts = s.contacts := rfl
@[simp] theorem State.modChangeover_theatre (x : Fin 8) (f : Changeover → Changeover) : (s.modChangeover x f).theatre = s.theatre := rfl
@[simp] theorem State.modChangeover_trunks (x : Fin 8) (f : Changeover → Changeover) : (s.modChangeover x f).trunks = s.trunks := rfl
@[simp] theorem State.modChangeover_loops (x : Fin 8) (f : Changeover → Changeover) : (s.modChangeover x f).loops = s.loops := rfl
@[simp] theorem State.modChangeover_changeovers (x : Fin 8) (f : Changeover → Changeover) : (s.modChangeover x f).changeovers = s.changeovers.modify x f := rfl
@[simp] theorem State.modChangeover_notes (x : Fin 8) (f : Changeover → Changeover) : (s.modChangeover x f).notes = s.notes := rfl
@[simp] theorem State.modChangeover_beat (x : Fin 8) (f : Changeover → Changeover) : (s.modChangeover x f).beat = s.beat := rfl
@[simp] theorem State.modChangeover_time (x : Fin 8) (f : Changeover → Changeover) : (s.modChangeover x f).time = s.time := rfl
@[simp] theorem State.modChangeover_outbound (x : Fin 8) (f : Changeover → Changeover) : (s.modChangeover x f).outbound = s.outbound := rfl
@[simp] theorem State.modChangeover_freeCount (x : Fin 8) (f : Changeover → Changeover) : (s.modChangeover x f).freeCount = s.freeCount := rfl
@[simp] theorem State.modChangeover_pending (x : Fin 8) (f : Changeover → Changeover) : (s.modChangeover x f).pending = s.pending := rfl

@[simp] theorem State.modAmbient_regs (o : Fin 256) (f : AmbientEntry → AmbientEntry) : (s.modAmbient o f).regs = s.regs := rfl
@[simp] theorem State.modAmbient_part (o : Fin 256) (f : AmbientEntry → AmbientEntry) : (s.modAmbient o f).part = s.part := rfl
@[simp] theorem State.modAmbient_lists (o : Fin 256) (f : AmbientEntry → AmbientEntry) : (s.modAmbient o f).lists = s.lists := rfl
@[simp] theorem State.modAmbient_port (o : Fin 256) (f : AmbientEntry → AmbientEntry) : (s.modAmbient o f).port = s.port := rfl
@[simp] theorem State.modAmbient_outlets (o : Fin 256) (f : AmbientEntry → AmbientEntry) : (s.modAmbient o f).outlets = s.outlets := rfl
@[simp] theorem State.modAmbient_inlets (o : Fin 256) (f : AmbientEntry → AmbientEntry) : (s.modAmbient o f).inlets = s.inlets := rfl
@[simp] theorem State.modAmbient_stations (o : Fin 256) (f : AmbientEntry → AmbientEntry) : (s.modAmbient o f).stations = s.stations := rfl
@[simp] theorem State.modAmbient_programs (o : Fin 256) (f : AmbientEntry → AmbientEntry) : (s.modAmbient o f).programs = s.programs := rfl
@[simp] theorem State.modAmbient_claims (o : Fin 256) (f : AmbientEntry → AmbientEntry) : (s.modAmbient o f).claims = s.claims := rfl
@[simp] theorem State.modAmbient_mixer (o : Fin 256) (f : AmbientEntry → AmbientEntry) : (s.modAmbient o f).mixer = s.mixer := rfl
@[simp] theorem State.modAmbient_ambient (o : Fin 256) (f : AmbientEntry → AmbientEntry) : (s.modAmbient o f).ambient = { s.ambient with outlets := s.ambient.outlets.modify o f } := rfl
@[simp] theorem State.modAmbient_channels (o : Fin 256) (f : AmbientEntry → AmbientEntry) : (s.modAmbient o f).channels = s.channels := rfl
@[simp] theorem State.modAmbient_calls (o : Fin 256) (f : AmbientEntry → AmbientEntry) : (s.modAmbient o f).calls = s.calls := rfl
@[simp] theorem State.modAmbient_tones (o : Fin 256) (f : AmbientEntry → AmbientEntry) : (s.modAmbient o f).tones = s.tones := rfl
@[simp] theorem State.modAmbient_alarms (o : Fin 256) (f : AmbientEntry → AmbientEntry) : (s.modAmbient o f).alarms = s.alarms := rfl
@[simp] theorem State.modAmbient_contacts (o : Fin 256) (f : AmbientEntry → AmbientEntry) : (s.modAmbient o f).contacts = s.contacts := rfl
@[simp] theorem State.modAmbient_theatre (o : Fin 256) (f : AmbientEntry → AmbientEntry) : (s.modAmbient o f).theatre = s.theatre := rfl
@[simp] theorem State.modAmbient_trunks (o : Fin 256) (f : AmbientEntry → AmbientEntry) : (s.modAmbient o f).trunks = s.trunks := rfl
@[simp] theorem State.modAmbient_loops (o : Fin 256) (f : AmbientEntry → AmbientEntry) : (s.modAmbient o f).loops = s.loops := rfl
@[simp] theorem State.modAmbient_changeovers (o : Fin 256) (f : AmbientEntry → AmbientEntry) : (s.modAmbient o f).changeovers = s.changeovers := rfl
@[simp] theorem State.modAmbient_notes (o : Fin 256) (f : AmbientEntry → AmbientEntry) : (s.modAmbient o f).notes = s.notes := rfl
@[simp] theorem State.modAmbient_beat (o : Fin 256) (f : AmbientEntry → AmbientEntry) : (s.modAmbient o f).beat = s.beat := rfl
@[simp] theorem State.modAmbient_time (o : Fin 256) (f : AmbientEntry → AmbientEntry) : (s.modAmbient o f).time = s.time := rfl
@[simp] theorem State.modAmbient_outbound (o : Fin 256) (f : AmbientEntry → AmbientEntry) : (s.modAmbient o f).outbound = s.outbound := rfl
@[simp] theorem State.modAmbient_freeCount (o : Fin 256) (f : AmbientEntry → AmbientEntry) : (s.modAmbient o f).freeCount = s.freeCount := rfl
@[simp] theorem State.modAmbient_pending (o : Fin 256) (f : AmbientEntry → AmbientEntry) : (s.modAmbient o f).pending = s.pending := rfl

@[simp] theorem State.setStack_regs (o : Fin 256) (cs : List Claim) : (s.setStack o cs).regs = s.regs := rfl
@[simp] theorem State.setStack_part (o : Fin 256) (cs : List Claim) : (s.setStack o cs).part = s.part := rfl
@[simp] theorem State.setStack_lists (o : Fin 256) (cs : List Claim) : (s.setStack o cs).lists = s.lists := rfl
@[simp] theorem State.setStack_port (o : Fin 256) (cs : List Claim) : (s.setStack o cs).port = s.port := rfl
@[simp] theorem State.setStack_outlets (o : Fin 256) (cs : List Claim) : (s.setStack o cs).outlets = s.outlets := rfl
@[simp] theorem State.setStack_inlets (o : Fin 256) (cs : List Claim) : (s.setStack o cs).inlets = s.inlets := rfl
@[simp] theorem State.setStack_stations (o : Fin 256) (cs : List Claim) : (s.setStack o cs).stations = s.stations := rfl
@[simp] theorem State.setStack_programs (o : Fin 256) (cs : List Claim) : (s.setStack o cs).programs = s.programs := rfl
@[simp] theorem State.setStack_claims (o : Fin 256) (cs : List Claim) : (s.setStack o cs).claims = { s.claims with stack := s.claims.stack.set o cs } := rfl
@[simp] theorem State.setStack_mixer (o : Fin 256) (cs : List Claim) : (s.setStack o cs).mixer = s.mixer := rfl
@[simp] theorem State.setStack_ambient (o : Fin 256) (cs : List Claim) : (s.setStack o cs).ambient = s.ambient := rfl
@[simp] theorem State.setStack_channels (o : Fin 256) (cs : List Claim) : (s.setStack o cs).channels = s.channels := rfl
@[simp] theorem State.setStack_calls (o : Fin 256) (cs : List Claim) : (s.setStack o cs).calls = s.calls := rfl
@[simp] theorem State.setStack_tones (o : Fin 256) (cs : List Claim) : (s.setStack o cs).tones = s.tones := rfl
@[simp] theorem State.setStack_alarms (o : Fin 256) (cs : List Claim) : (s.setStack o cs).alarms = s.alarms := rfl
@[simp] theorem State.setStack_contacts (o : Fin 256) (cs : List Claim) : (s.setStack o cs).contacts = s.contacts := rfl
@[simp] theorem State.setStack_theatre (o : Fin 256) (cs : List Claim) : (s.setStack o cs).theatre = s.theatre := rfl
@[simp] theorem State.setStack_trunks (o : Fin 256) (cs : List Claim) : (s.setStack o cs).trunks = s.trunks := rfl
@[simp] theorem State.setStack_loops (o : Fin 256) (cs : List Claim) : (s.setStack o cs).loops = s.loops := rfl
@[simp] theorem State.setStack_changeovers (o : Fin 256) (cs : List Claim) : (s.setStack o cs).changeovers = s.changeovers := rfl
@[simp] theorem State.setStack_notes (o : Fin 256) (cs : List Claim) : (s.setStack o cs).notes = s.notes := rfl
@[simp] theorem State.setStack_beat (o : Fin 256) (cs : List Claim) : (s.setStack o cs).beat = s.beat := rfl
@[simp] theorem State.setStack_time (o : Fin 256) (cs : List Claim) : (s.setStack o cs).time = s.time := rfl
@[simp] theorem State.setStack_outbound (o : Fin 256) (cs : List Claim) : (s.setStack o cs).outbound = s.outbound := rfl
@[simp] theorem State.setStack_freeCount (o : Fin 256) (cs : List Claim) : (s.setStack o cs).freeCount = s.freeCount := rfl
@[simp] theorem State.setStack_pending (o : Fin 256) (cs : List Claim) : (s.setStack o cs).pending = s.pending := rfl

@[simp] theorem State.setLine_regs (o : Fin 256) (b : Bool) : (s.setLine o b).regs = s.regs := rfl
@[simp] theorem State.setLine_part (o : Fin 256) (b : Bool) : (s.setLine o b).part = s.part := rfl
@[simp] theorem State.setLine_lists (o : Fin 256) (b : Bool) : (s.setLine o b).lists = s.lists := rfl
@[simp] theorem State.setLine_port (o : Fin 256) (b : Bool) : (s.setLine o b).port = s.port := rfl
@[simp] theorem State.setLine_outlets (o : Fin 256) (b : Bool) : (s.setLine o b).outlets = s.outlets := rfl
@[simp] theorem State.setLine_inlets (o : Fin 256) (b : Bool) : (s.setLine o b).inlets = s.inlets := rfl
@[simp] theorem State.setLine_stations (o : Fin 256) (b : Bool) : (s.setLine o b).stations = s.stations := rfl
@[simp] theorem State.setLine_programs (o : Fin 256) (b : Bool) : (s.setLine o b).programs = s.programs := rfl
@[simp] theorem State.setLine_claims (o : Fin 256) (b : Bool) : (s.setLine o b).claims = { s.claims with lines := s.claims.lines.set o b } := rfl
@[simp] theorem State.setLine_mixer (o : Fin 256) (b : Bool) : (s.setLine o b).mixer = s.mixer := rfl
@[simp] theorem State.setLine_ambient (o : Fin 256) (b : Bool) : (s.setLine o b).ambient = s.ambient := rfl
@[simp] theorem State.setLine_channels (o : Fin 256) (b : Bool) : (s.setLine o b).channels = s.channels := rfl
@[simp] theorem State.setLine_calls (o : Fin 256) (b : Bool) : (s.setLine o b).calls = s.calls := rfl
@[simp] theorem State.setLine_tones (o : Fin 256) (b : Bool) : (s.setLine o b).tones = s.tones := rfl
@[simp] theorem State.setLine_alarms (o : Fin 256) (b : Bool) : (s.setLine o b).alarms = s.alarms := rfl
@[simp] theorem State.setLine_contacts (o : Fin 256) (b : Bool) : (s.setLine o b).contacts = s.contacts := rfl
@[simp] theorem State.setLine_theatre (o : Fin 256) (b : Bool) : (s.setLine o b).theatre = s.theatre := rfl
@[simp] theorem State.setLine_trunks (o : Fin 256) (b : Bool) : (s.setLine o b).trunks = s.trunks := rfl
@[simp] theorem State.setLine_loops (o : Fin 256) (b : Bool) : (s.setLine o b).loops = s.loops := rfl
@[simp] theorem State.setLine_changeovers (o : Fin 256) (b : Bool) : (s.setLine o b).changeovers = s.changeovers := rfl
@[simp] theorem State.setLine_notes (o : Fin 256) (b : Bool) : (s.setLine o b).notes = s.notes := rfl
@[simp] theorem State.setLine_beat (o : Fin 256) (b : Bool) : (s.setLine o b).beat = s.beat := rfl
@[simp] theorem State.setLine_time (o : Fin 256) (b : Bool) : (s.setLine o b).time = s.time := rfl
@[simp] theorem State.setLine_outbound (o : Fin 256) (b : Bool) : (s.setLine o b).outbound = s.outbound := rfl
@[simp] theorem State.setLine_freeCount (o : Fin 256) (b : Bool) : (s.setLine o b).freeCount = s.freeCount := rfl
@[simp] theorem State.setLine_pending (o : Fin 256) (b : Bool) : (s.setLine o b).pending = s.pending := rfl

@[simp] theorem State.setFloor_regs (a : Fin 16) (n : Nat) : (s.setFloor a n).regs = s.regs := rfl
@[simp] theorem State.setFloor_part (a : Fin 16) (n : Nat) : (s.setFloor a n).part = s.part := rfl
@[simp] theorem State.setFloor_lists (a : Fin 16) (n : Nat) : (s.setFloor a n).lists = s.lists := rfl
@[simp] theorem State.setFloor_port (a : Fin 16) (n : Nat) : (s.setFloor a n).port = s.port := rfl
@[simp] theorem State.setFloor_outlets (a : Fin 16) (n : Nat) : (s.setFloor a n).outlets = s.outlets := rfl
@[simp] theorem State.setFloor_inlets (a : Fin 16) (n : Nat) : (s.setFloor a n).inlets = s.inlets := rfl
@[simp] theorem State.setFloor_stations (a : Fin 16) (n : Nat) : (s.setFloor a n).stations = s.stations := rfl
@[simp] theorem State.setFloor_programs (a : Fin 16) (n : Nat) : (s.setFloor a n).programs = s.programs := rfl
@[simp] theorem State.setFloor_claims (a : Fin 16) (n : Nat) : (s.setFloor a n).claims = { s.claims with floors := s.claims.floors.set a n } := rfl
@[simp] theorem State.setFloor_mixer (a : Fin 16) (n : Nat) : (s.setFloor a n).mixer = s.mixer := rfl
@[simp] theorem State.setFloor_ambient (a : Fin 16) (n : Nat) : (s.setFloor a n).ambient = s.ambient := rfl
@[simp] theorem State.setFloor_channels (a : Fin 16) (n : Nat) : (s.setFloor a n).channels = s.channels := rfl
@[simp] theorem State.setFloor_calls (a : Fin 16) (n : Nat) : (s.setFloor a n).calls = s.calls := rfl
@[simp] theorem State.setFloor_tones (a : Fin 16) (n : Nat) : (s.setFloor a n).tones = s.tones := rfl
@[simp] theorem State.setFloor_alarms (a : Fin 16) (n : Nat) : (s.setFloor a n).alarms = s.alarms := rfl
@[simp] theorem State.setFloor_contacts (a : Fin 16) (n : Nat) : (s.setFloor a n).contacts = s.contacts := rfl
@[simp] theorem State.setFloor_theatre (a : Fin 16) (n : Nat) : (s.setFloor a n).theatre = s.theatre := rfl
@[simp] theorem State.setFloor_trunks (a : Fin 16) (n : Nat) : (s.setFloor a n).trunks = s.trunks := rfl
@[simp] theorem State.setFloor_loops (a : Fin 16) (n : Nat) : (s.setFloor a n).loops = s.loops := rfl
@[simp] theorem State.setFloor_changeovers (a : Fin 16) (n : Nat) : (s.setFloor a n).changeovers = s.changeovers := rfl
@[simp] theorem State.setFloor_notes (a : Fin 16) (n : Nat) : (s.setFloor a n).notes = s.notes := rfl
@[simp] theorem State.setFloor_beat (a : Fin 16) (n : Nat) : (s.setFloor a n).beat = s.beat := rfl
@[simp] theorem State.setFloor_time (a : Fin 16) (n : Nat) : (s.setFloor a n).time = s.time := rfl
@[simp] theorem State.setFloor_outbound (a : Fin 16) (n : Nat) : (s.setFloor a n).outbound = s.outbound := rfl
@[simp] theorem State.setFloor_freeCount (a : Fin 16) (n : Nat) : (s.setFloor a n).freeCount = s.freeCount := rfl
@[simp] theorem State.setFloor_pending (a : Fin 16) (n : Nat) : (s.setFloor a n).pending = s.pending := rfl

@[simp] theorem State.modTheatre_regs (f : Theatre → Theatre) : (s.modTheatre f).regs = s.regs := rfl
@[simp] theorem State.modTheatre_part (f : Theatre → Theatre) : (s.modTheatre f).part = s.part := rfl
@[simp] theorem State.modTheatre_lists (f : Theatre → Theatre) : (s.modTheatre f).lists = s.lists := rfl
@[simp] theorem State.modTheatre_port (f : Theatre → Theatre) : (s.modTheatre f).port = s.port := rfl
@[simp] theorem State.modTheatre_outlets (f : Theatre → Theatre) : (s.modTheatre f).outlets = s.outlets := rfl
@[simp] theorem State.modTheatre_inlets (f : Theatre → Theatre) : (s.modTheatre f).inlets = s.inlets := rfl
@[simp] theorem State.modTheatre_stations (f : Theatre → Theatre) : (s.modTheatre f).stations = s.stations := rfl
@[simp] theorem State.modTheatre_programs (f : Theatre → Theatre) : (s.modTheatre f).programs = s.programs := rfl
@[simp] theorem State.modTheatre_claims (f : Theatre → Theatre) : (s.modTheatre f).claims = s.claims := rfl
@[simp] theorem State.modTheatre_mixer (f : Theatre → Theatre) : (s.modTheatre f).mixer = s.mixer := rfl
@[simp] theorem State.modTheatre_ambient (f : Theatre → Theatre) : (s.modTheatre f).ambient = s.ambient := rfl
@[simp] theorem State.modTheatre_channels (f : Theatre → Theatre) : (s.modTheatre f).channels = s.channels := rfl
@[simp] theorem State.modTheatre_calls (f : Theatre → Theatre) : (s.modTheatre f).calls = s.calls := rfl
@[simp] theorem State.modTheatre_tones (f : Theatre → Theatre) : (s.modTheatre f).tones = s.tones := rfl
@[simp] theorem State.modTheatre_alarms (f : Theatre → Theatre) : (s.modTheatre f).alarms = s.alarms := rfl
@[simp] theorem State.modTheatre_contacts (f : Theatre → Theatre) : (s.modTheatre f).contacts = s.contacts := rfl
@[simp] theorem State.modTheatre_theatre (f : Theatre → Theatre) : (s.modTheatre f).theatre = f s.theatre := rfl
@[simp] theorem State.modTheatre_trunks (f : Theatre → Theatre) : (s.modTheatre f).trunks = s.trunks := rfl
@[simp] theorem State.modTheatre_loops (f : Theatre → Theatre) : (s.modTheatre f).loops = s.loops := rfl
@[simp] theorem State.modTheatre_changeovers (f : Theatre → Theatre) : (s.modTheatre f).changeovers = s.changeovers := rfl
@[simp] theorem State.modTheatre_notes (f : Theatre → Theatre) : (s.modTheatre f).notes = s.notes := rfl
@[simp] theorem State.modTheatre_beat (f : Theatre → Theatre) : (s.modTheatre f).beat = s.beat := rfl
@[simp] theorem State.modTheatre_time (f : Theatre → Theatre) : (s.modTheatre f).time = s.time := rfl
@[simp] theorem State.modTheatre_outbound (f : Theatre → Theatre) : (s.modTheatre f).outbound = s.outbound := rfl
@[simp] theorem State.modTheatre_freeCount (f : Theatre → Theatre) : (s.modTheatre f).freeCount = s.freeCount := rfl
@[simp] theorem State.modTheatre_pending (f : Theatre → Theatre) : (s.modTheatre f).pending = s.pending := rfl

@[simp] theorem State.setCause_regs (b : CauseBit) : (s.setCause b).regs = { s.regs with cause := s.regs.cause ||| BitVec.twoPow 8 b.pos } := rfl
@[simp] theorem State.setCause_part (b : CauseBit) : (s.setCause b).part = s.part := rfl
@[simp] theorem State.setCause_lists (b : CauseBit) : (s.setCause b).lists = s.lists := rfl
@[simp] theorem State.setCause_port (b : CauseBit) : (s.setCause b).port = s.port := rfl
@[simp] theorem State.setCause_outlets (b : CauseBit) : (s.setCause b).outlets = s.outlets := rfl
@[simp] theorem State.setCause_inlets (b : CauseBit) : (s.setCause b).inlets = s.inlets := rfl
@[simp] theorem State.setCause_stations (b : CauseBit) : (s.setCause b).stations = s.stations := rfl
@[simp] theorem State.setCause_programs (b : CauseBit) : (s.setCause b).programs = s.programs := rfl
@[simp] theorem State.setCause_claims (b : CauseBit) : (s.setCause b).claims = s.claims := rfl
@[simp] theorem State.setCause_mixer (b : CauseBit) : (s.setCause b).mixer = s.mixer := rfl
@[simp] theorem State.setCause_ambient (b : CauseBit) : (s.setCause b).ambient = s.ambient := rfl
@[simp] theorem State.setCause_channels (b : CauseBit) : (s.setCause b).channels = s.channels := rfl
@[simp] theorem State.setCause_calls (b : CauseBit) : (s.setCause b).calls = s.calls := rfl
@[simp] theorem State.setCause_tones (b : CauseBit) : (s.setCause b).tones = s.tones := rfl
@[simp] theorem State.setCause_alarms (b : CauseBit) : (s.setCause b).alarms = s.alarms := rfl
@[simp] theorem State.setCause_contacts (b : CauseBit) : (s.setCause b).contacts = s.contacts := rfl
@[simp] theorem State.setCause_theatre (b : CauseBit) : (s.setCause b).theatre = s.theatre := rfl
@[simp] theorem State.setCause_trunks (b : CauseBit) : (s.setCause b).trunks = s.trunks := rfl
@[simp] theorem State.setCause_loops (b : CauseBit) : (s.setCause b).loops = s.loops := rfl
@[simp] theorem State.setCause_changeovers (b : CauseBit) : (s.setCause b).changeovers = s.changeovers := rfl
@[simp] theorem State.setCause_notes (b : CauseBit) : (s.setCause b).notes = s.notes := rfl
@[simp] theorem State.setCause_beat (b : CauseBit) : (s.setCause b).beat = s.beat := rfl
@[simp] theorem State.setCause_time (b : CauseBit) : (s.setCause b).time = s.time := rfl
@[simp] theorem State.setCause_outbound (b : CauseBit) : (s.setCause b).outbound = s.outbound := rfl
@[simp] theorem State.setCause_freeCount (b : CauseBit) : (s.setCause b).freeCount = s.freeCount := rfl
@[simp] theorem State.setCause_pending (b : CauseBit) : (s.setCause b).pending = s.pending := rfl

/-! ### Notes (R181) -/

@[simp] theorem State.emitNote_part (k : NoteKind) (c n d : Nat) : (s.emitNote k c n d).part = s.part := by
  unfold State.emitNote State.setCause; dsimp only; split <;> [split <;> rfl; rfl]
@[simp] theorem State.emitNote_lists (k : NoteKind) (c n d : Nat) : (s.emitNote k c n d).lists = s.lists := by
  unfold State.emitNote State.setCause; dsimp only; split <;> [split <;> rfl; rfl]
@[simp] theorem State.emitNote_port (k : NoteKind) (c n d : Nat) : (s.emitNote k c n d).port = s.port := by
  unfold State.emitNote State.setCause; dsimp only; split <;> [split <;> rfl; rfl]
@[simp] theorem State.emitNote_outlets (k : NoteKind) (c n d : Nat) : (s.emitNote k c n d).outlets = s.outlets := by
  unfold State.emitNote State.setCause; dsimp only; split <;> [split <;> rfl; rfl]
@[simp] theorem State.emitNote_inlets (k : NoteKind) (c n d : Nat) : (s.emitNote k c n d).inlets = s.inlets := by
  unfold State.emitNote State.setCause; dsimp only; split <;> [split <;> rfl; rfl]
@[simp] theorem State.emitNote_stations (k : NoteKind) (c n d : Nat) : (s.emitNote k c n d).stations = s.stations := by
  unfold State.emitNote State.setCause; dsimp only; split <;> [split <;> rfl; rfl]
@[simp] theorem State.emitNote_programs (k : NoteKind) (c n d : Nat) : (s.emitNote k c n d).programs = s.programs := by
  unfold State.emitNote State.setCause; dsimp only; split <;> [split <;> rfl; rfl]
@[simp] theorem State.emitNote_claims (k : NoteKind) (c n d : Nat) : (s.emitNote k c n d).claims = s.claims := by
  unfold State.emitNote State.setCause; dsimp only; split <;> [split <;> rfl; rfl]
@[simp] theorem State.emitNote_mixer (k : NoteKind) (c n d : Nat) : (s.emitNote k c n d).mixer = s.mixer := by
  unfold State.emitNote State.setCause; dsimp only; split <;> [split <;> rfl; rfl]
@[simp] theorem State.emitNote_ambient (k : NoteKind) (c n d : Nat) : (s.emitNote k c n d).ambient = s.ambient := by
  unfold State.emitNote State.setCause; dsimp only; split <;> [split <;> rfl; rfl]
@[simp] theorem State.emitNote_channels (k : NoteKind) (c n d : Nat) : (s.emitNote k c n d).channels = s.channels := by
  unfold State.emitNote State.setCause; dsimp only; split <;> [split <;> rfl; rfl]
@[simp] theorem State.emitNote_calls (k : NoteKind) (c n d : Nat) : (s.emitNote k c n d).calls = s.calls := by
  unfold State.emitNote State.setCause; dsimp only; split <;> [split <;> rfl; rfl]
@[simp] theorem State.emitNote_tones (k : NoteKind) (c n d : Nat) : (s.emitNote k c n d).tones = s.tones := by
  unfold State.emitNote State.setCause; dsimp only; split <;> [split <;> rfl; rfl]
@[simp] theorem State.emitNote_alarms (k : NoteKind) (c n d : Nat) : (s.emitNote k c n d).alarms = s.alarms := by
  unfold State.emitNote State.setCause; dsimp only; split <;> [split <;> rfl; rfl]
@[simp] theorem State.emitNote_contacts (k : NoteKind) (c n d : Nat) : (s.emitNote k c n d).contacts = s.contacts := by
  unfold State.emitNote State.setCause; dsimp only; split <;> [split <;> rfl; rfl]
@[simp] theorem State.emitNote_theatre (k : NoteKind) (c n d : Nat) : (s.emitNote k c n d).theatre = s.theatre := by
  unfold State.emitNote State.setCause; dsimp only; split <;> [split <;> rfl; rfl]
@[simp] theorem State.emitNote_trunks (k : NoteKind) (c n d : Nat) : (s.emitNote k c n d).trunks = s.trunks := by
  unfold State.emitNote State.setCause; dsimp only; split <;> [split <;> rfl; rfl]
@[simp] theorem State.emitNote_loops (k : NoteKind) (c n d : Nat) : (s.emitNote k c n d).loops = s.loops := by
  unfold State.emitNote State.setCause; dsimp only; split <;> [split <;> rfl; rfl]
@[simp] theorem State.emitNote_changeovers (k : NoteKind) (c n d : Nat) : (s.emitNote k c n d).changeovers = s.changeovers := by
  unfold State.emitNote State.setCause; dsimp only; split <;> [split <;> rfl; rfl]
@[simp] theorem State.emitNote_beat (k : NoteKind) (c n d : Nat) : (s.emitNote k c n d).beat = s.beat := by
  unfold State.emitNote State.setCause; dsimp only; split <;> [split <;> rfl; rfl]
@[simp] theorem State.emitNote_time (k : NoteKind) (c n d : Nat) : (s.emitNote k c n d).time = s.time := by
  unfold State.emitNote State.setCause; dsimp only; split <;> [split <;> rfl; rfl]
@[simp] theorem State.emitNote_outbound (k : NoteKind) (c n d : Nat) : (s.emitNote k c n d).outbound = s.outbound := by
  unfold State.emitNote State.setCause; dsimp only; split <;> [split <;> rfl; rfl]
@[simp] theorem State.emitNote_freeCount (k : NoteKind) (c n d : Nat) : (s.emitNote k c n d).freeCount = s.freeCount := by
  unfold State.emitNote State.setCause; dsimp only; split <;> [split <;> rfl; rfl]
@[simp] theorem State.emitNote_pending (k : NoteKind) (c n d : Nat) : (s.emitNote k c n d).pending = s.pending := by
  unfold State.emitNote State.setCause; dsimp only; split <;> [split <;> rfl; rfl]

end Sys2Proof.Machine
end

