-- ==== Sys2Proof/Laws/Stacks.lean ====
section
/-! SUPPORT. What a renaming does to the claim stacks: the stack named is replaced, every other one is as it was. -/

namespace Sys2Proof.Machine

/-- An act that leaves every claim stack as it is. -/
structure Seats (s t : State) : Prop where
  stack : t.claims.stack = s.claims.stack

theorem Seats.refl (s : State) : Seats s s := ⟨rfl⟩

theorem State.modProgram_seats {s0 s : State} (h : Seats s0 s) (p : Fin 64) (f : Program → Program) :
    Seats s0 (s.modProgram p f) :=
  ⟨h.stack⟩

theorem State.modChannel_seats {s0 s : State} (h : Seats s0 s) (c : Fin 16) (f : Channel → Channel) :
    Seats s0 (s.modChannel c f) :=
  ⟨h.stack⟩

theorem State.modVoice_seats {s0 s : State} (h : Seats s0 s) (v : Fin 8) (f : Voice → Voice) :
    Seats s0 (s.modVoice v f) :=
  ⟨h.stack⟩

theorem State.modPattern_seats {s0 s : State} (h : Seats s0 s) (p : Fin 12) (f : Pattern → Pattern) :
    Seats s0 (s.modPattern p f) :=
  ⟨h.stack⟩

theorem State.modTheatre_seats {s0 s : State} (h : Seats s0 s) (f : Theatre → Theatre) : Seats s0 (s.modTheatre f) :=
  ⟨h.stack⟩

theorem State.setLine_seats {s0 s : State} (h : Seats s0 s) (o : Fin 256) (b : Bool) : Seats s0 (s.setLine o b) :=
  ⟨h.stack⟩

theorem State.setCause_seats {s0 s : State} (h : Seats s0 s) (b : CauseBit) : Seats s0 (s.setCause b) :=
  ⟨h.stack⟩

theorem State.emitNote_seats {s0 s : State} (h : Seats s0 s) (k : NoteKind) (c n d : Nat) :
    Seats s0 (s.emitNote k c n d) := by
  unfold State.emitNote
  dsimp only
  split
  · split <;> exact ⟨h.stack⟩
  · exact ⟨h.stack⟩

theorem State.forAll_seats {α : Type} {s0 s : State} (h : Seats s0 s) (xs : List α) (f : α → State → State)
    (k : ∀ x s, Seats s0 s → Seats s0 (f x s)) : Seats s0 (s.forAll xs f) := by
  unfold State.forAll
  induction xs generalizing s with
  | nil => exact h
  | cons x xs ih => exact ih (k x s h)

theorem State.signalOwner_seats {s0 s : State} (h : Seats s0 s) (w : ChanOwner) (f : Channel → Channel) :
    Seats s0 (s.signalOwner w f) := by
  unfold State.signalOwner
  repeat' first | with_reducible assumption | with_reducible refine State.modChannel_seats ?_ _ _ | split

theorem State.leaveOwing_seats {s0 s : State} (h : Seats s0 s) (v : Fin 8) : Seats s0 (s.leaveOwing v) := by
  unfold State.leaveOwing
  repeat' first
    | with_reducible assumption | with_reducible refine State.modPattern_seats ?_ _ _ | split | intro _
    | dsimp only

theorem State.giveVoice_seats {s0 s : State} (h : Seats s0 s) (v : Fin 8) (u : VoiceUser) (p : Fin 12) :
    Seats s0 (s.giveVoice v u p) := by
  unfold State.giveVoice
  repeat' first
    | with_reducible assumption | with_reducible refine State.leaveOwing_seats ?_ _
    | with_reducible refine State.modVoice_seats ?_ _ _

theorem State.enterPlaying_seats {s0 s : State} (h : Seats s0 s) (p : Fin 64) : Seats s0 (s.enterPlaying p) := by
  unfold State.enterPlaying
  repeat' first
    | with_reducible assumption | with_reducible refine State.modProgram_seats ?_ _ _
    | with_reducible refine State.signalOwner_seats ?_ _ _ | split | intro _ | dsimp only

theorem State.chimeStep_seats {s0 s : State} (h : Seats s0 s) (p : Fin 64) : Seats s0 (s.chimeStep p) := by
  unfold State.chimeStep
  repeat' first
    | with_reducible assumption | with_reducible refine State.enterPlaying_seats ?_ _
    | with_reducible refine State.giveVoice_seats ?_ _ _ _ | with_reducible refine State.modProgram_seats ?_ _ _
    | split

theorem State.gatherTest_seats {s0 s : State} (h : Seats s0 s) (p : Fin 64) : Seats s0 (s.gatherTest p) := by
  unfold State.gatherTest
  repeat' first
    | with_reducible assumption | with_reducible refine State.chimeStep_seats ?_ _ | split | intro _ | dsimp only

theorem State.enterHeld_seats {s0 s : State} (h : Seats s0 s) (r : HoldRecord) : Seats s0 (s.enterHeld r) := by
  unfold State.enterHeld
  repeat' first
    | with_reducible assumption | with_reducible refine State.modProgram_seats ?_ _ _
    | with_reducible refine State.modTheatre_seats ?_ _ | with_reducible refine State.signalOwner_seats ?_ _ _
    | (with_reducible refine State.forAll_seats ?_ _ _ ?_) | split | intro _

theorem State.displaced_seats {s0 s : State} (h : Seats s0 s) (p : Fin 64) (o : Fin 256) :
    Seats s0 (s.displaced p o) := by
  unfold State.displaced
  repeat' first
    | with_reducible assumption | with_reducible refine State.emitNote_seats ?_ _ _ _ _
    | with_reducible refine State.enterHeld_seats ?_ _ | split

theorem State.unholdPrograms_seats {s0 s : State} (h : Seats s0 s) : Seats s0 (s.unholdPrograms) := by
  unfold State.unholdPrograms
  repeat' first
    | with_reducible assumption | with_reducible refine State.modProgram_seats ?_ _ _
    | (with_reducible refine State.forAll_seats ?_ _ _ ?_) | split | intro _

theorem State.resumeShow_seats {s0 s : State} (h : Seats s0 s) (subject : Nat) : Seats s0 (s.resumeShow subject) := by
  unfold State.resumeShow
  repeat' first
    | with_reducible assumption | with_reducible refine State.emitNote_seats ?_ _ _ _ _
    | with_reducible refine State.modTheatre_seats ?_ _ | with_reducible refine State.signalOwner_seats ?_ _ _
    | with_reducible refine State.unholdPrograms_seats ?_ | (with_reducible refine State.forAll_seats ?_ _ _ ?_)
    | split | intro _

theorem State.resumeTest_seats {s0 s : State} (h : Seats s0 s) : Seats s0 (s.resumeTest) := by
  unfold State.resumeTest
  repeat' first | with_reducible assumption | with_reducible refine State.resumeShow_seats ?_ _ | split

theorem State.evalLine_seats {s0 s : State} (h : Seats s0 s) (o : Fin 256) : Seats s0 (s.evalLine o) := by
  unfold State.evalLine
  repeat' first | with_reducible assumption | with_reducible refine State.setLine_seats ?_ _ _

theorem State.countHeld_seats {s0 s : State} (h : Seats s0 s) (c : Option Claim) (f : Nat → Nat) :
    Seats s0 (s.countHeld c f) := by
  unfold State.countHeld
  repeat' first | with_reducible assumption | with_reducible refine State.modProgram_seats ?_ _ _ | split

theorem State.gatherTestOf_seats {s0 s : State} (h : Seats s0 s) (c : Option Claim) : Seats s0 (s.gatherTestOf c) := by
  unfold State.gatherTestOf
  repeat' first | with_reducible assumption | with_reducible refine State.gatherTest_seats ?_ _ | split

theorem State.reportDisplaced_seats {s0 s : State} (h : Seats s0 s) (o : Fin 256) (old : Option Claim)
    (new : Option Claim) :
    Seats s0 (s.reportDisplaced o old new) := by
  unfold State.reportDisplaced
  repeat' first
    | with_reducible assumption | with_reducible refine State.displaced_seats ?_ _ _ | split | intro _ | dsimp only

/-- A renaming replaces one stack, by its claims named again, and leaves every other. -/
theorem State.restack_stack (s : State) (o : Fin 256) (cs : List Claim) (o' : Fin 256) :
    (s.restack o cs).stack o' = if o' = o then nameStack (s.lockFloor o) cs else s.stack o' := by
  have key : Seats (s.setStack o (nameStack (s.lockFloor o) cs)) (s.restack o cs) := by
    unfold State.restack
    dsimp only
    split
    · exact State.evalLine_seats (Seats.refl _) _
    · split
      · exact State.resumeTest_seats (State.reportDisplaced_seats (State.evalLine_seats (State.gatherTestOf_seats
          (State.gatherTestOf_seats (State.countHeld_seats (State.countHeld_seats (Seats.refl _) _ _) _ _) _) _) _) _ _ _)
      · exact State.reportDisplaced_seats (State.evalLine_seats (State.gatherTestOf_seats
          (State.gatherTestOf_seats (State.countHeld_seats (State.countHeld_seats (Seats.refl _) _ _) _ _) _) _) _) _ _ _
  unfold State.stack at *
  rw [key.stack, State.setStack_claims]
  simp only [Tab.get_set]

theorem State.rename_stack (s : State) (o o' : Fin 256) :
    (s.rename o).stack o' = if o' = o then nameStack (s.lockFloor o) (s.stack o) else s.stack o' :=
  s.restack_stack o _ o'

/-- An owner has no claim at an outlet once its claim there is removed, and the other outlets' stacks stand. -/
theorem State.removeClaim_stack_ne (s : State) (w : Owner) {o o' : Fin 256} (h : o' ≠ o) :
    (s.removeClaim w o).stack o' = s.stack o' := by
  unfold State.removeClaim
  split
  · rw [State.restack_stack]; simp [h]
  · rfl

theorem hasOwner_map {f : Claim → Claim} (k : ∀ c, (f c).owner = c.owner) (w : Owner) (cs : List Claim) :
    hasOwner w (cs.map f) = hasOwner w cs := by
  unfold hasOwner
  induction cs with
  | nil => rfl
  | cons c cs ih => simp [k, ih]

theorem hasOwner_nameStack (w : Owner) (floor : Nat) (cs : List Claim) :
    hasOwner w (nameStack floor cs) = hasOwner w cs := by
  have k : ∀ c : Claim, c.plain.owner = c.owner := fun _ => rfl
  rw [← hasOwner_map k, nameStack_plain, hasOwner_map k]

theorem State.removeClaim_gone (s : State) (w : Owner) (o : Fin 256) :
    hasOwner w ((s.removeClaim w o).stack o) = false := by
  unfold State.removeClaim
  split
  · rw [State.restack_stack, if_pos rfl, hasOwner_nameStack]
    simp [hasOwner]
  · next h => simpa using h

/-- After the claims of an owner are removed at every outlet, it has none anywhere. -/
theorem State.removeAll_gone (s : State) (w : Owner) (o : Fin 256) : hasOwner w ((s.removeAll w).stack o) = false := by
  have go : ∀ (os : List (Fin 256)) (s : State), (o ∈ os ∨ hasOwner w (s.stack o) = false) →
      hasOwner w ((os.foldl (fun s x => s.removeClaim w x) s).stack o) = false := by
    intro os
    induction os with
    | nil => intro s h; simpa using h
    | cons x xs ih =>
      intro s h
      refine ih _ ?_
      by_cases e : o = x
      · subst e; exact Or.inr (State.removeClaim_gone s w o)
      · rcases h with h | h
        · rcases List.mem_cons.mp h with h | h
          · exact absurd h e
          · exact Or.inl h
        · right; rw [State.removeClaim_stack_ne s w e]; exact h
  exact go _ s (Or.inl (List.mem_finRange o))

end Sys2Proof.Machine
end

