-- ==== Sys2Proof/Laws/Steady.lean ====
section
/-! SUPPORT. What a renaming and the release of a voice or a channel leave of the programs' records and settings, of the
calls and of the lists; and what the end of a program is made of, and leaves of the other programs. -/

namespace Sys2Proof.Machine

/-- A program stands as it was: its kind, priority and show hold threshold, and that it is not FREE. -/
structure Program.Stands (x y : Program) : Prop where
  kind : y.kind = x.kind
  priority : y.priority = x.priority
  threshold : y.holdThreshold = x.holdThreshold
  busy : y.state = .free → x.state = .free

theorem Program.Stands.refl (x : Program) : x.Stands x := ⟨rfl, rfl, rfl, id⟩

theorem Program.Stands.trans {x y z : Program} (h : x.Stands y) (k : y.Stands z) : x.Stands z :=
  ⟨k.kind.trans h.kind, k.priority.trans h.priority, k.threshold.trans h.threshold, fun e => h.busy (k.busy e)⟩

/-- A program that enters PLAYING stands as it was. -/
theorem Program.Stands.playing (x : Program) (t : Option Nat) :
    x.Stands ({ x with state := .playing, gatherTimer := t } : Program).startDuration := by
  unfold Program.startDuration; split <;> exact ⟨rfl, rfl, rfl, nofun⟩

/-- An act that keeps every program's record and reservation and lets it stand, and keeps every call and every list. -/
structure Steady (s t : State) : Prop where
  records : ∀ p, (t.programs.get p).record = (s.programs.get p).record ∧
    (t.programs.get p).reservation = (s.programs.get p).reservation
  stands : ∀ p, (s.programs.get p).Stands (t.programs.get p)
  calls : t.calls = s.calls
  lists : t.lists = s.lists

theorem Steady.refl (s : State) : Steady s s := ⟨fun _ => ⟨rfl, rfl⟩, fun _ => Program.Stands.refl _, rfl, rfl⟩

theorem Program.startDuration_record (x : Program) :
    x.startDuration.record = x.record ∧ x.startDuration.reservation = x.reservation := by
  unfold Program.startDuration; split <;> exact ⟨rfl, rfl⟩

theorem State.modProgram_steady {s0 s : State} (h : Steady s0 s) (p : Fin 64) (f : Program → Program)
    (k : ∀ x, (f x).record = x.record ∧ (f x).reservation = x.reservation) (j : ∀ x : Program, x.Stands (f x)) :
    Steady s0 (s.modProgram p f) := by
  refine { h with records := fun q => ?_, stands := fun q => ?_ } <;> rw [State.modProgram_programs, Tab.get_modify]
  · split
    · exact ⟨(k _).1.trans (h.records q).1, (k _).2.trans (h.records q).2⟩
    · exact h.records q
  · split
    · exact (h.stands q).trans (j _)
    · exact h.stands q

theorem State.modChannel_steady {s0 s : State} (h : Steady s0 s) (c : Fin 16) (f : Channel → Channel) :
    Steady s0 (s.modChannel c f) :=
  { h with }

theorem State.modVoice_steady {s0 s : State} (h : Steady s0 s) (v : Fin 8) (f : Voice → Voice) :
    Steady s0 (s.modVoice v f) :=
  { h with }

theorem State.modPattern_steady {s0 s : State} (h : Steady s0 s) (p : Fin 12) (f : Pattern → Pattern) :
    Steady s0 (s.modPattern p f) :=
  { h with }

theorem State.modTheatre_steady {s0 s : State} (h : Steady s0 s) (f : Theatre → Theatre) : Steady s0 (s.modTheatre f) :=
  { h with }

theorem State.setLine_steady {s0 s : State} (h : Steady s0 s) (o : Fin 256) (b : Bool) : Steady s0 (s.setLine o b) :=
  { h with }

theorem State.setCause_steady {s0 s : State} (h : Steady s0 s) (b : CauseBit) : Steady s0 (s.setCause b) :=
  { h with }

theorem State.emitNote_steady {s0 s : State} (h : Steady s0 s) (k : NoteKind) (c n d : Nat) :
    Steady s0 (s.emitNote k c n d) := by
  unfold State.emitNote
  dsimp only
  split
  · split <;> exact { h with }
  · exact { h with }

theorem State.forAll_steady {α : Type} {s0 s : State} (h : Steady s0 s) (xs : List α) (f : α → State → State)
    (k : ∀ x s, Steady s0 s → Steady s0 (f x s)) : Steady s0 (s.forAll xs f) := by
  unfold State.forAll
  induction xs generalizing s with
  | nil => exact h
  | cons x xs ih => exact ih (k x s h)

theorem State.signalOwner_steady {s0 s : State} (h : Steady s0 s) (w : ChanOwner) (f : Channel → Channel) :
    Steady s0 (s.signalOwner w f) := by
  unfold State.signalOwner
  repeat' first | with_reducible assumption | with_reducible refine State.modChannel_steady ?_ _ _ | split

theorem State.leaveOwing_steady {s0 s : State} (h : Steady s0 s) (v : Fin 8) : Steady s0 (s.leaveOwing v) := by
  unfold State.leaveOwing
  repeat' first
    | with_reducible assumption | with_reducible refine State.modPattern_steady ?_ _ _ | split | intro _
    | dsimp only

theorem State.giveVoice_steady {s0 s : State} (h : Steady s0 s) (v : Fin 8) (u : VoiceUser) (p : Fin 12) :
    Steady s0 (s.giveVoice v u p) := by
  unfold State.giveVoice
  repeat' first
    | with_reducible assumption | with_reducible refine State.leaveOwing_steady ?_ _
    | with_reducible refine State.modVoice_steady ?_ _ _

theorem State.enterPlaying_steady {s0 s : State} (h : Steady s0 s) (p : Fin 64) : Steady s0 (s.enterPlaying p) := by
  unfold State.enterPlaying
  repeat' first
    | with_reducible assumption | with_reducible refine State.modProgram_steady ?_ _ _ ?_ ?_ | exact ⟨rfl, rfl⟩
    | exact fun _ => ⟨rfl, rfl, rfl, id⟩ | exact fun _ => ⟨rfl, rfl, rfl, nofun⟩ | exact ⟨rfl, rfl, rfl, id⟩
    | exact ⟨rfl, rfl, rfl, nofun⟩ | exact Program.Stands.playing _ _
    | exact fun _ => ⟨rfl, rfl⟩ | exact Program.startDuration_record _
    | with_reducible refine State.signalOwner_steady ?_ _ _ | split | intro _ | dsimp only

theorem State.chimeStep_steady {s0 s : State} (h : Steady s0 s) (p : Fin 64) : Steady s0 (s.chimeStep p) := by
  unfold State.chimeStep
  repeat' first
    | with_reducible assumption | with_reducible refine State.enterPlaying_steady ?_ _
    | with_reducible refine State.giveVoice_steady ?_ _ _ _
    | with_reducible refine State.modProgram_steady ?_ _ _ ?_ ?_ | exact ⟨rfl, rfl⟩
    | exact fun _ => ⟨rfl, rfl, rfl, id⟩ | exact fun _ => ⟨rfl, rfl, rfl, nofun⟩ | exact ⟨rfl, rfl, rfl, id⟩
    | exact ⟨rfl, rfl, rfl, nofun⟩ | exact Program.Stands.playing _ _ | exact fun _ => ⟨rfl, rfl⟩
    | exact Program.startDuration_record _
    | split

theorem State.gatherTest_steady {s0 s : State} (h : Steady s0 s) (p : Fin 64) : Steady s0 (s.gatherTest p) := by
  unfold State.gatherTest
  repeat' first
    | with_reducible assumption | with_reducible refine State.chimeStep_steady ?_ _ | split | intro _ | dsimp only

theorem State.enterHeld_steady {s0 s : State} (h : Steady s0 s) (r : HoldRecord) : Steady s0 (s.enterHeld r) := by
  unfold State.enterHeld
  repeat' first
    | with_reducible assumption | with_reducible refine State.modProgram_steady ?_ _ _ ?_ ?_ | exact ⟨rfl, rfl⟩
    | exact fun _ => ⟨rfl, rfl, rfl, id⟩ | exact fun _ => ⟨rfl, rfl, rfl, nofun⟩ | exact ⟨rfl, rfl, rfl, id⟩
    | exact ⟨rfl, rfl, rfl, nofun⟩ | exact Program.Stands.playing _ _
    | exact fun _ => ⟨rfl, rfl⟩ | exact Program.startDuration_record _
    | with_reducible refine State.modTheatre_steady ?_ _ | with_reducible refine State.signalOwner_steady ?_ _ _
    | (with_reducible refine State.forAll_steady ?_ _ _ ?_) | split | intro _

theorem State.displaced_steady {s0 s : State} (h : Steady s0 s) (p : Fin 64) (o : Fin 256) :
    Steady s0 (s.displaced p o) := by
  unfold State.displaced
  repeat' first
    | with_reducible assumption | with_reducible refine State.emitNote_steady ?_ _ _ _ _
    | with_reducible refine State.enterHeld_steady ?_ _ | split

theorem State.unholdPrograms_steady {s0 s : State} (h : Steady s0 s) : Steady s0 (s.unholdPrograms) := by
  unfold State.unholdPrograms
  repeat' first
    | with_reducible assumption | with_reducible refine State.modProgram_steady ?_ _ _ ?_ ?_ | exact ⟨rfl, rfl⟩
    | exact fun _ => ⟨rfl, rfl, rfl, id⟩ | exact fun _ => ⟨rfl, rfl, rfl, nofun⟩ | exact ⟨rfl, rfl, rfl, id⟩
    | exact ⟨rfl, rfl, rfl, nofun⟩ | exact Program.Stands.playing _ _
    | exact fun _ => ⟨rfl, rfl⟩ | exact Program.startDuration_record _
    | (with_reducible refine State.forAll_steady ?_ _ _ ?_) | split | intro _

theorem State.resumeShow_steady {s0 s : State} (h : Steady s0 s) (subject : Nat) :
    Steady s0 (s.resumeShow subject) := by
  unfold State.resumeShow
  repeat' first
    | with_reducible assumption | with_reducible refine State.emitNote_steady ?_ _ _ _ _
    | with_reducible refine State.modTheatre_steady ?_ _ | with_reducible refine State.signalOwner_steady ?_ _ _
    | with_reducible refine State.unholdPrograms_steady ?_ | (with_reducible refine State.forAll_steady ?_ _ _ ?_)
    | split | intro _

theorem State.resumeTest_steady {s0 s : State} (h : Steady s0 s) : Steady s0 (s.resumeTest) := by
  unfold State.resumeTest
  repeat' first | with_reducible assumption | with_reducible refine State.resumeShow_steady ?_ _ | split

theorem State.evalLine_steady {s0 s : State} (h : Steady s0 s) (o : Fin 256) : Steady s0 (s.evalLine o) := by
  unfold State.evalLine
  repeat' first | with_reducible assumption | with_reducible refine State.setLine_steady ?_ _ _

theorem State.countHeld_steady {s0 s : State} (h : Steady s0 s) (c : Option Claim) (f : Nat → Nat) :
    Steady s0 (s.countHeld c f) := by
  unfold State.countHeld
  repeat' first
    | with_reducible assumption | with_reducible refine State.modProgram_steady ?_ _ _ ?_ ?_ | exact ⟨rfl, rfl⟩
    | exact fun _ => ⟨rfl, rfl, rfl, id⟩ | exact fun _ => ⟨rfl, rfl, rfl, nofun⟩ | exact ⟨rfl, rfl, rfl, id⟩
    | exact ⟨rfl, rfl, rfl, nofun⟩ | exact Program.Stands.playing _ _
    | exact fun _ => ⟨rfl, rfl⟩ | exact Program.startDuration_record _ | split

theorem State.gatherTestOf_steady {s0 s : State} (h : Steady s0 s) (c : Option Claim) :
    Steady s0 (s.gatherTestOf c) := by
  unfold State.gatherTestOf
  repeat' first | with_reducible assumption | with_reducible refine State.gatherTest_steady ?_ _ | split

theorem State.reportDisplaced_steady {s0 s : State} (h : Steady s0 s) (o : Fin 256) (old : Option Claim)
    (new : Option Claim) :
    Steady s0 (s.reportDisplaced o old new) := by
  unfold State.reportDisplaced
  repeat' first
    | with_reducible assumption | with_reducible refine State.displaced_steady ?_ _ _ | split | intro _ | dsimp only

theorem State.setStack_steady {s0 s : State} (h : Steady s0 s) (o : Fin 256) (cs : List Claim) :
    Steady s0 (s.setStack o cs) :=
  { h with }

theorem State.restack_steady {s0 s : State} (h : Steady s0 s) (o : Fin 256) (cs : List Claim) :
    Steady s0 (s.restack o cs) := by
  unfold State.restack
  repeat' first
    | with_reducible assumption | with_reducible refine State.setStack_steady ?_ _ _
    | with_reducible refine State.evalLine_steady ?_ _ | with_reducible refine State.resumeTest_steady ?_
    | with_reducible refine State.reportDisplaced_steady ?_ _ _ _ | with_reducible refine State.gatherTestOf_steady ?_ _
    | with_reducible refine State.countHeld_steady ?_ _ _ | split | intro _ | dsimp only

theorem State.removeClaim_steady {s0 s : State} (h : Steady s0 s) (w : Owner) (o : Fin 256) :
    Steady s0 (s.removeClaim w o) := by
  unfold State.removeClaim
  split
  · exact State.restack_steady h _ _
  · exact h

theorem State.removeAll_steady {s0 s : State} (h : Steady s0 s) (w : Owner) : Steady s0 (s.removeAll w) :=
  State.forAll_steady h _ _ fun o _ k => State.removeClaim_steady k w o

theorem State.releaseVoice_steady {s0 s : State} (h : Steady s0 s) (u : VoiceUser) : Steady s0 (s.releaseVoice u) := by
  unfold State.releaseVoice
  split
  · exact State.modVoice_steady (State.leaveOwing_steady h _) _ _
  · exact h

theorem State.freeIfDone_steady {s0 s : State} (h : Steady s0 s) (c : Fin 16) : Steady s0 (s.freeIfDone c) := by
  unfold State.freeIfDone
  dsimp only
  split
  · exact State.modChannel_steady h _ _
  · exact h

theorem State.discardTransfer_steady {s0 s : State} (h : Steady s0 s) (c : Fin 16) (k : Bool) :
    Steady s0 (s.discardTransfer c k) := by
  unfold State.discardTransfer
  split
  · split
    · exact { h with }
    · exact h
  · exact h

theorem State.releaseChannel_steady {s0 s : State} (h : Steady s0 s) (w : ChanOwner) :
    Steady s0 (s.releaseChannel w) := by
  unfold State.releaseChannel
  split
  · dsimp only
    split
    · exact h
    · exact State.freeIfDone_steady (State.modChannel_steady (State.discardTransfer_steady h _ _) _ _) _
  · exact h

theorem State.leaveHoldSet_steady {s0 s : State} (h : Steady s0 s) (p : Fin 64) : Steady s0 (s.leaveHoldSet p) := by
  unfold State.leaveHoldSet
  split
  · split
    · exact State.resumeTest_steady (State.modTheatre_steady h _)
    · exact h
  · exact h

/-! ### The end of a program -/

theorem State.releaseVoice_seats {s0 s : State} (h : Seats s0 s) (u : VoiceUser) : Seats s0 (s.releaseVoice u) := by
  unfold State.releaseVoice
  split
  · exact State.modVoice_seats (State.leaveOwing_seats h _) _ _
  · exact h

theorem State.releaseChannel_seats {s0 s : State} (h : Seats s0 s) (w : ChanOwner) : Seats s0 (s.releaseChannel w) := by
  have f : ∀ {s : State} (c : Fin 16), Seats s0 s → Seats s0 (s.freeIfDone c) := by
    intro s c h
    unfold State.freeIfDone
    dsimp only
    split
    · exact State.modChannel_seats h _ _
    · exact h
  have d : ∀ (c : Fin 16), Seats s0 (s.discardTransfer c true) := by
    intro c
    unfold State.discardTransfer
    split
    · split
      · exact { h with }
      · exact h
    · exact h
  unfold State.releaseChannel
  split
  · dsimp only
    split
    · exact h
    · exact f _ (State.modChannel_seats (d _) _ _)
  · exact h

theorem State.leaveHoldSet_seats {s0 s : State} (h : Seats s0 s) (p : Fin 64) : Seats s0 (s.leaveHoldSet p) := by
  unfold State.leaveHoldSet
  split
  · split
    · exact State.resumeTest_seats (State.modTheatre_seats h _)
    · exact h
  · exact h

/-- A FREE slot stays FREE when the show resumes. -/
theorem State.leaveHoldSet_free {s : State} {p : Fin 64} (h : (s.programs.get p).state = .free) (q : Fin 64) :
    ((s.leaveHoldSet q).programs.get p).state = .free := by
  have step : ∀ (s : State) (q : Fin 64), (s.programs.get p).state = .free →
      ((s.modProgram q fun pr =>
        if pr.state == .held then ({ pr with state := .playing } : Program).startDuration else pr).programs.get p).state
        = .free := by
    intro s q h
    rw [State.modProgram_programs, Tab.get_modify]
    split
    · simp [h]
    · exact h
  have unhold : ∀ s : State, (s.programs.get p).state = .free → (s.unholdPrograms.programs.get p).state = .free := by
    intro s h
    unfold State.unholdPrograms State.forAll
    generalize s.showPrograms = qs
    induction qs generalizing s with
    | nil => exact h
    | cons q qs ih => exact ih _ (step s q h)
  have signal : ∀ (s : State) w f, (s.signalOwner w f).programs = s.programs := by
    intro s w f; unfold State.signalOwner; split <;> rfl
  have all : ∀ (xs : List (Fin 16)) (s : State) f,
      (s.forAll xs fun x s => s.signalOwner (.source x) f).programs = s.programs := by
    intro xs
    induction xs with
    | nil => intro s f; rfl
    | cons x xs ih => intro s f; exact (ih (s.signalOwner (.source x) f) f).trans (signal _ _ _)
  have note : ∀ (s : State) k c n d, (s.emitNote k c n d).programs = s.programs := by
    intro s k c n d
    unfold State.emitNote
    dsimp only
    split
    · split <;> rfl
    · rfl
  unfold State.leaveHoldSet
  split
  · split
    · unfold State.resumeTest
      split
      · split
        · unfold State.resumeShow
          split
          · rw [note]
            apply unhold
            rw [all]
            exact h
          · exact h
        · exact h
      · exact h
    · exact h
  · exact h

/-- A return that is requested waits in the list's queue or at the walker. -/
theorem State.requestReturn_waits (s : State) (l : ListId) (r : Return) :
    r ∈ (s.requestReturn l r).lists.returns.get l.idx ∨
      ∃ h, ((s.requestReturn l r).walker l).stage = .returnWrite h r false := by
  unfold State.requestReturn
  dsimp only
  split
  · split
    · right
      exact ⟨_, by unfold State.setStage; rw [State.walker_modWalker, if_pos rfl]⟩
    · left; simp
  · left; simp

theorem State.requestReturn_rest (s : State) (l : ListId) (r : Return) :
    (s.requestReturn l r).programs = s.programs ∧ (s.requestReturn l r).claims = s.claims := by
  unfold State.requestReturn
  dsimp only
  split
  · split <;> exact ⟨rfl, rfl⟩
  · exact ⟨rfl, rfl⟩

theorem State.reportPageEnd_rest (s : State) (p : Fin 64) (src : Source) :
    (s.reportPageEnd p src).programs = s.programs ∧ (s.reportPageEnd p src).claims = s.claims := by
  unfold State.reportPageEnd
  split
  · dsimp only; split <;> exact ⟨rfl, rfl⟩
  · exact ⟨rfl, rfl⟩

/-- The end of a program, in two parts: what it lets go of, and then its slot and its return. -/
theorem State.endProgram_eq {s : State} {p : Fin 64} (h : (s.programs.get p).state ≠ .free) (code : Nat) :
    ∃ a b : State, a = ((s.removeAll (.program p)).releaseVoice (.chime p)).releaseChannel (.program p) ∧
      b = (a.modProgram p fun pr => { reservation := pr.reservation }).leaveHoldSet p ∧
      s.endProgram p code =
        match (a.programs.get p).record with
        | some r => b.requestReturn .program ((a.programs.get p).ended r code b.time)
        | none => b.reportPageEnd p (a.programs.get p).source := by
  refine ⟨_, _, rfl, rfl, ?_⟩
  unfold State.endProgram
  rw [if_neg (by simpa using h)]
  -- In one text with its callee the rewriting closes the goal; as a module of its own it does not.
  all_goals
    dsimp only
    generalize State.releaseChannel _ _ = a
    generalize a.modProgram p _ = c
    generalize c.leaveHoldSet p = b
    cases (a.programs.get p).record <;> rfl

/-! ### The other programs -/

/-- The end of a program lets every other one stand. -/
theorem State.endProgram_stands (s : State) {p q : Fin 64} (code : Nat) (h : p ≠ q) :
    (s.programs.get p).Stands ((s.endProgram q code).programs.get p) := by
  by_cases f : (s.programs.get q).state = .free
  · unfold State.endProgram
    rw [if_pos (by simp [f])]
    exact Program.Stands.refl _
  · obtain ⟨a, b, ha, hb, e⟩ := State.endProgram_eq f code
    have sa : Steady s a := ha ▸
      State.releaseChannel_steady (State.releaseVoice_steady (State.removeAll_steady (Steady.refl s) _) _) _
    have sb : (a.programs.get p).Stands (b.programs.get p) := by
      have x := (State.leaveHoldSet_steady (Steady.refl (a.modProgram q fun pr => { reservation := pr.reservation }))
        q).stands p
      rw [hb]
      rwa [State.modProgram_programs, Tab.get_modify_ne _ h] at x
    have fin : (s.endProgram q code).programs = b.programs := by
      rw [e]; split
      · exact (State.requestReturn_rest _ _ _).1
      · exact (State.reportPageEnd_rest _ _ _).1
    rw [fin]
    exact (sa.stands p).trans sb

/-- What the owner of an evicted claim is told lets every other program stand. -/
theorem State.evicted_stands (s : State) {w : Owner} {p : Fin 64} (h : w ≠ .program p) :
    (s.programs.get p).Stands ((s.evicted w).programs.get p) := by
  unfold State.evicted
  split
  · next q =>
    have hq : p ≠ q := fun e => h (e ▸ rfl)
    split
    · have base : (s.programs.get p).Stands
          ((s.modProgram q fun pr => { pr with admitted := pr.admitted - 1 }).programs.get p) := by
        rw [State.modProgram_programs, Tab.get_modify_ne _ hq]
        exact Program.Stands.refl _
      dsimp only
      split
      · exact base.trans (State.endProgram_stands _ _ hq)
      · exact base.trans ((State.gatherTest_steady (Steady.refl _) q).stands p)
    · exact Program.Stands.refl _
  · exact Program.Stands.refl _

/-- The placement of a program's claim lets that program stand. -/
theorem State.place_stands (s : State) {c : Claim} (o : Fin 256) {p : Fin 64} (h : c.owner = .program p) :
    (s.programs.get p).Stands ((s.place c o).2.programs.get p) := by
  unfold State.place
  dsimp only
  split
  · exact Program.Stands.refl _
  · next g =>
    split
    · exact (State.restack_steady (Steady.refl s) _ _).stands p
    · split
      · next last e =>
        split
        · refine ((State.restack_steady (Steady.refl s) _ _).stands p).trans (State.evicted_stands _ fun k => g ?_)
          have m := List.mem_of_getLast? e
          simp only [Bool.or_eq_true, hasOwner, List.any_eq_true]
          exact Or.inr ⟨last, m, by simp [k, h]⟩
        · exact Program.Stands.refl _
      · exact Program.Stands.refl _

end Sys2Proof.Machine
end

