-- ==== Sys2Proof/Laws/Shows.lean ====
section
/-! SUPPORT. The invariant `State.ShowsYield` under what a claim stack and a program slot go through: naming, insertion,
removal, and a change of one program. -/

namespace Sys2Proof.Machine

/-- A stack in order of priority. -/
abbrev Ranked (cs : List Claim) : Prop := cs.Pairwise fun c d => d.priority ≤ c.priority

/-- Naming changes no claim but its state. -/
theorem nameStack_mem {floor : Nat} {cs : List Claim} {c : Claim} (h : c ∈ nameStack floor cs) :
    ∃ d ∈ cs, d.owner = c.owner ∧ d.priority = c.priority := by
  have m : c.plain ∈ cs.map Claim.plain := by
    rw [← nameStack_plain floor cs]; exact List.mem_map_of_mem h
  obtain ⟨d, hd, e⟩ := List.mem_map.mp m
  have e' := congrArg (fun x : Claim => (x.owner, x.priority)) e
  exact ⟨d, hd, congrArg Prod.fst e', congrArg Prod.snd e'⟩

theorem nameStack_ranked {floor : Nat} {cs : List Claim} (h : Ranked cs) : Ranked (nameStack floor cs) := by
  have k : ∀ xs : List Claim, Ranked (xs.map Claim.plain) ↔ Ranked xs := fun xs => List.pairwise_map
  rw [← k, nameStack_plain, k]
  exact h

/-- No claim after the first eligible one holds. -/
theorem nameRest_state {floor : Nat} {seek : Bool} {cs : List Claim} {c : Claim} (h : c ∈ nameRest floor seek cs) :
    c.state ≠ .holding := by
  induction cs generalizing seek with
  | nil => simp [nameRest] at h
  | cons d ds ih =>
    unfold nameRest at h
    split at h <;> [skip; split at h] <;> rcases List.mem_cons.mp h with h | h <;> first | exact ih h | (subst h; nofun)

/-- A claim that holds is eligible. -/
theorem nameStack_eligible {floor : Nat} {cs : List Claim} {c : Claim} (h : c ∈ nameStack floor cs)
    (k : c.state = .holding) : floor ≤ c.priority ∨ c.owner.isAlarm = true := by
  induction cs with
  | nil => simp [nameStack] at h
  | cons d ds ih =>
    unfold nameStack at h
    split at h
    · next e =>
      rcases List.mem_cons.mp h with h | h
      · subst h; simpa [Claim.eligible] using e
      · exact absurd k (nameRest_state h)
    · rcases List.mem_cons.mp h with h | h
      · subst h; cases k
      · exact ih h

/-- In a ranked stack no claim but the first holds, an alarm's apart. -/
theorem nameStack_heads {floor : Nat} {cs : List Claim} (r : Ranked cs) :
    ∀ c ∈ (nameStack floor cs).tail, c.state = .holding → c.owner.isAlarm = true := by
  intro c h k
  cases cs with
  | nil => simp [nameStack] at h
  | cons d ds =>
    unfold nameStack at h
    split at h
    · exact absurd k (nameRest_state h)
    · next e =>
      rcases nameStack_eligible h k with p | p
      · obtain ⟨x, hx, _, ep⟩ := nameStack_mem h
        have := (List.pairwise_cons.mp r).1 x hx
        simp [Claim.eligible] at e
        omega
      · exact p

theorem insertClaim_mem {c x : Claim} {cs : List Claim} (h : x ∈ insertClaim c cs) : x = c ∨ x ∈ cs := by
  induction cs with
  | nil => simpa [insertClaim] using h
  | cons d ds ih =>
    unfold insertClaim at h
    split at h
    · simpa using h
    · rcases List.mem_cons.mp h with h | h
      · exact Or.inr (by simp [h])
      · rcases ih h with h | h
        · exact Or.inl h
        · exact Or.inr (List.mem_cons_of_mem _ h)

theorem insertClaim_ranked {c : Claim} {cs : List Claim} (h : Ranked cs) : Ranked (insertClaim c cs) := by
  induction cs with
  | nil => simp [insertClaim, Ranked]
  | cons d ds ih =>
    have hd := List.pairwise_cons.mp h
    unfold insertClaim
    split
    · next b =>
      have p : d.priority ≤ c.priority := by
        unfold Claim.before at b
        split at b
        · simp at b; omega
        · omega
      refine List.pairwise_cons.mpr ⟨fun x hx => ?_, h⟩
      rcases List.mem_cons.mp hx with hx | hx
      · rw [hx]; exact p
      · exact (hd.1 x hx).trans p
    · next b =>
      have p : c.priority ≤ d.priority := by
        unfold Claim.before at b
        split at b
        · simp at b; omega
        · omega
      refine List.pairwise_cons.mpr ⟨fun x hx => ?_, ih hd.2⟩
      rcases insertClaim_mem hx with hx | hx
      · rw [hx]; exact p
      · exact hd.1 x hx

/-! ### Claims and their owners -/

theorem Claim.fits_stands {s t : State} {c : Claim} (h : c.fits s.programs)
    (k : ∀ p, c.owner = .program p → (s.programs.get p).Stands (t.programs.get p)) : c.fits t.programs :=
  fun p e => ⟨fun x => (h p e).1 ((k p e).kind ▸ x), fun x y => (h p e).2 x ((k p e).busy y)⟩

/-- A claim fits another's owner where it has that owner and that priority. -/
theorem Claim.fits_same {s : State} {c d : Claim} (h : d.fits s.programs) (e : d.owner = c.owner)
    (k : d.priority = c.priority) : c.fits s.programs :=
  fun p x => k ▸ h p (e.trans x)

/-- A party's claim fits. -/
theorem Claim.fits_party {s : State} {c : Claim} {k : Fin 16} {i : Fin 8} (h : c.owner = .party k i) : c.fits s.programs :=
  fun p e => by rw [h] at e; cases e

/-- The claim of an alarm or of the contact microphone fits. -/
theorem Claim.fits_high {s : State} (y : s.ShowsYield) {c : Claim} {p : Fin 64} (h : c.owner = .program p)
    (k : 59 ≤ p.val) : c.fits s.programs := by
  intro q e
  have : q = p := by rw [h] at e; cases e; rfl
  subst this
  exact ⟨fun x => absurd (y.settings _ x).1 (by omega), fun x => absurd x (by omega)⟩

/-- The claim a program that is not FREE places fits. -/
theorem Claim.fits_claim {s : State} (y : s.ShowsYield) {p : Fin 64} (h : (s.programs.get p).state ≠ .free) :
    ((s.programs.get p).claim p).fits s.programs := by
  intro q e
  have : p = q := by cases e; rfl
  subst this
  exact ⟨fun x => (y.settings _ x).2.1, fun _ => h⟩

/-! ### The invariant -/

/-- With no claim and no program, as reset leaves them. -/
theorem Yielding.empty : Yielding (Tab.replicate 64 {}) (Tab.replicate 256 []) := by
  constructor <;> simp

/-- A period's step of the timers is nothing to the invariant. -/
theorem Yielding.tick {programs : Tab 64 Program} {stack : Tab 256 (List Claim)} (y : Yielding programs stack) :
    Yielding (programs.map Program.tick) stack := by
  refine ⟨fun p x => ?_, fun o c m p e => ?_, y.order, y.heads⟩
  · rw [Tab.get_map] at *
    exact y.settings p x
  · rw [Tab.get_map]
    exact y.owners o c m p e

theorem State.ShowsYield.same {s t : State} (y : s.ShowsYield) (p : t.programs = s.programs)
    (c : t.claims.stack = s.claims.stack) : t.ShowsYield := by
  unfold State.ShowsYield
  rw [p, c]
  exact y

/-- A stack is replaced by one whose claims fit, in order, with no holder but its first and alarms. -/
theorem State.ShowsYield.setStack {s : State} (y : s.ShowsYield) (o : Fin 256) {cs : List Claim} (r : Ranked cs)
    (f : ∀ c ∈ cs, c.fits s.programs) (h : ∀ c ∈ cs.tail, c.state = .holding → c.owner.isAlarm = true) :
    (s.setStack o cs).ShowsYield := by
  have st : ∀ x, (s.setStack o cs).claims.stack.get x = if x = o then cs else s.stack x := fun x => by
    simp only [State.stack, State.setStack_claims, Tab.get_set]
  refine ⟨y.settings, fun x c m => ?_, fun x => ?_, fun x c m k => ?_⟩
  · rw [st] at m; split at m
    · exact f c m
    · exact y.owners x c m
  · rw [st]; split
    · exact r
    · exact y.order x
  · rw [st] at m; split at m
    · exact h c m k
    · exact y.heads x c m k

/-- One program changes: it becomes no SHOW program it was not, and is not made FREE while it has a claim. -/
theorem State.ShowsYield.modProgram {s : State} (y : s.ShowsYield) (p : Fin 64) (f : Program → Program)
    (k : (f (s.programs.get p)).kind = .theatre → (s.programs.get p).kind = .theatre ∧
      (f (s.programs.get p)).priority = (s.programs.get p).priority ∧
      (f (s.programs.get p)).holdThreshold = (s.programs.get p).holdThreshold)
    (j : p.val < 59 → (f (s.programs.get p)).state = .free → (s.programs.get p).state = .free ∨
      ∀ o, hasOwner (.program p) (s.stack o) = false) : (s.modProgram p f).ShowsYield := by
  have pr : ∀ q, (s.modProgram p f).programs.get q = if q = p then f (s.programs.get q) else s.programs.get q :=
    fun q => by rw [State.modProgram_programs, Tab.get_modify]
  refine ⟨fun q x => ?_, fun o c m q e => ?_, y.order, y.heads⟩
  · rw [pr] at *
    split
    · next h =>
      subst h
      rw [if_pos rfl] at x
      have z := k x
      rw [z.2.1, z.2.2]
      exact y.settings q z.1
    · next h =>
      rw [if_neg h] at x
      exact y.settings q x
  · rw [pr]
    have z := y.owners o c m q e
    split
    · next h =>
      subst h
      refine ⟨fun x => z.1 (k x).1, fun x g => ?_⟩
      rcases j x g with g | g
      · exact z.2 x g
      · have := g o
        simp only [hasOwner, List.any_eq_false] at this
        exact this c m (by simp [e])
    · exact z

/-- A SHOW program starts in a FREE host slot. -/
theorem State.ShowsYield.start {s : State} (y : s.ShowsYield) {p : Fin 64} (x : Program) (b : p.val < 59)
    (h : (s.programs.get p).state = .free) (k : x.kind = .theatre → x.priority ≤ 5 ∧ 8 ≤ x.holdThreshold) :
    (s.modProgram p fun _ => x).ShowsYield := by
  have pr : ∀ q, (s.modProgram p fun _ => x).programs.get q = if q = p then x else s.programs.get q :=
    fun q => by rw [State.modProgram_programs, Tab.get_modify]
  refine ⟨fun q g => ?_, fun o c m q e => ?_, y.order, y.heads⟩
  · rw [pr] at *
    split
    · next h => subst h; rw [if_pos rfl] at g; exact ⟨b, k g⟩
    · next h => rw [if_neg h] at g; exact y.settings q g
  · rw [pr]
    have z := y.owners o c m q e
    split
    · next g => subst g; exact absurd h (z.2 b)
    · exact z

end Sys2Proof.Machine
end

