-- ==== Sys2Proof/Laws/Frames.lean ====
section
/-! SUPPORT. What the internal acts of the blocks leave alone: a playback, tone, claim, program, call or show act changes
no table, no trunk, no timer, no register but CAUSE, and no bound of the Note Unit; its notes join the queue behind those
that wait, and it keeps `State.ShowsYield`. One lemma an act, in the form that composes: from `Quiet s0 s` to `Quiet s0` of
the state after the act. -/

namespace Sys2Proof.Machine

/-- Notes are only added behind those that wait, none at a full queue, and a note lost stays counted. -/
structure NoteUnit.Grown (a b : NoteUnit) : Prop where
  queue : ∃ more, b.queue = a.queue ++ more
  full : 32 ≤ a.queue.length → b.queue = a.queue
  lost : 0 < a.lost → 0 < b.lost

theorem NoteUnit.Grown.refl (a : NoteUnit) : a.Grown a := ⟨⟨[], by simp⟩, fun _ => rfl, id⟩

theorem NoteUnit.Grown.trans {a b c : NoteUnit} (h : a.Grown b) (k : b.Grown c) : a.Grown c := by
  obtain ⟨x, hx⟩ := h.queue
  obtain ⟨y, hy⟩ := k.queue
  refine ⟨⟨x ++ y, by rw [hy, hx, List.append_assoc]⟩, fun f => ?_, fun l => k.lost (h.lost l)⟩
  have e := h.full f
  rw [k.full (by rw [e]; exact f), e]

/-- What every internal act leaves alone; CAUSE bits are only set, and a grant is at most marked for discard. -/
structure Acts (s t : State) : Prop extends Untouched s t where
  held : t.notes.held = s.notes.held
  granted : t.port.grant.map (·.transfer) = s.port.grant.map (·.transfer)
  walkers : ∀ l, { t.walker l with stage := .quiet } = { s.walker l with stage := .quiet }
  causes : ∀ b, s.causeHas b = true → t.causeHas b = true
  bounded : s.notes.bounded → t.notes.bounded
  depths : s.stacksBounded → t.stacksBounded
  gains : ∀ o, (t.mixer.get o).gc = (s.mixer.get o).gc ∧ (t.mixer.get o).uc = (s.mixer.get o).uc ∧
    (t.mixer.get o).clips = (s.mixer.get o).clips
  noted : s.notes.Grown t.notes
  yields : s.ShowsYield → t.ShowsYield

/-- An act that changes no station, no entry of the area table and no lock floor either. -/
structure Quiet (s t : State) : Prop extends Acts s t where
  stations : t.stations = s.stations
  table : t.alarms.table = s.alarms.table
  floors : t.claims.floors = s.claims.floors

theorem Untouched.refl (s : State) : Untouched s s := by constructor <;> rfl

theorem Untouched.trans {a b c : State} (h : Untouched a b) (k : Untouched b c) : Untouched a c :=
  { run := k.run.trans h.run, rootadr := k.rootadr.trans h.rootadr, cmask := k.cmask.trans h.cmask
    readData := k.readData.trans h.readData, part := k.part.trans h.part, root := k.root.trans h.root
    errors := k.errors.trans h.errors, rootRead := k.rootRead.trans h.rootRead, snap := k.snap.trans h.snap
    written := k.written.trans h.written, outlets := k.outlets.trans h.outlets, inlets := k.inlets.trans h.inlets
    ambient := k.ambient.trans h.ambient, contacts := k.contacts.trans h.contacts, trunks := k.trunks.trans h.trunks
    loops := k.loops.trans h.loops, changeovers := k.changeovers.trans h.changeovers
    bindings := k.bindings.trans h.bindings, defs := k.defs.trans h.defs, beat := k.beat.trans h.beat
    time := k.time.trans h.time, outbound := k.outbound.trans h.outbound, freeCount := k.freeCount.trans h.freeCount
    pending := k.pending.trans h.pending }

theorem Acts.refl (s : State) : Acts s s :=
  { Untouched.refl s with
    held := rfl, granted := rfl, walkers := fun _ => rfl, causes := fun _ x => x, bounded := id, depths := id
    gains := fun _ => ⟨rfl, rfl, rfl⟩, noted := NoteUnit.Grown.refl _, yields := id }

theorem Quiet.refl (s : State) : Quiet s s := ⟨Acts.refl s, rfl, rfl, rfl⟩

theorem Acts.trans {a b c : State} (h : Acts a b) (k : Acts b c) : Acts a c :=
  { h.toUntouched.trans k.toUntouched with
    held := k.held.trans h.held
    granted := k.granted.trans h.granted
    walkers := fun l => (k.walkers l).trans (h.walkers l)
    causes := fun b x => k.causes b (h.causes b x)
    bounded := fun x => k.bounded (h.bounded x)
    depths := fun x => k.depths (h.depths x)
    gains := fun o => ⟨(k.gains o).1.trans (h.gains o).1, (k.gains o).2.1.trans (h.gains o).2.1,
      (k.gains o).2.2.trans (h.gains o).2.2⟩
    noted := h.noted.trans k.noted
    yields := fun x => k.yields (h.yields x) }

theorem Quiet.trans {a b c : State} (h : Quiet a b) (k : Quiet b c) : Quiet a c :=
  ⟨h.toActs.trans k.toActs, k.stations.trans h.stations, k.table.trans h.table, k.floors.trans h.floors⟩

/-- One program changes: it becomes no SHOW program it was not, and is not made FREE while it has a claim. -/
theorem State.modProgram_quiet {s0 s : State} (h : Quiet s0 s) (p : Fin 64) (f : Program → Program)
    (k : s0.ShowsYield → s.ShowsYield → (s.modProgram p f).ShowsYield) : Quiet s0 (s.modProgram p f) :=
  { h with yields := fun x => k x (h.yields x) }

/-- A change of one program that lets it stand. -/
theorem State.modProgram_stands {s0 s : State} (h : Quiet s0 s) (p : Fin 64) (f : Program → Program)
    (k : ∀ x : Program, x.Stands (f x)) : Quiet s0 (s.modProgram p f) :=
  State.modProgram_quiet h p f fun _ y => y.modProgram p f
    (fun e => ⟨(k _).kind ▸ e, (k _).priority, (k _).threshold⟩) fun _ e => Or.inl ((k _).busy e)

theorem State.modChannel_quiet {s0 s : State} (h : Quiet s0 s) (c : Fin 16) (f : Channel → Channel) :
    Quiet s0 (s.modChannel c f) :=
  { h with }

theorem State.modCall_quiet {s0 s : State} (h : Quiet s0 s) (c : Fin 16) (f : Call → Call) :
    Quiet s0 (s.modCall c f) :=
  { h with }

theorem State.modVoice_quiet {s0 s : State} (h : Quiet s0 s) (v : Fin 8) (f : Voice → Voice) :
    Quiet s0 (s.modVoice v f) :=
  { h with }

theorem State.modPattern_quiet {s0 s : State} (h : Quiet s0 s) (p : Fin 12) (f : Pattern → Pattern) :
    Quiet s0 (s.modPattern p f) :=
  { h with }

theorem State.modAlarm_quiet {s0 s : State} (h : Quiet s0 s) (k : AlarmKind) (f : AlarmStatus → AlarmStatus) :
    Quiet s0 (s.modAlarm k f) :=
  { h with }

theorem State.setLine_quiet {s0 s : State} (h : Quiet s0 s) (o : Fin 256) (b : Bool) : Quiet s0 (s.setLine o b) :=
  { h with }

/-- A change of an alarm program or of the contact microphone's: it becomes no SHOW program. -/
theorem State.modProgram_high {s0 s : State} (h : Quiet s0 s) (p : Fin 64) (f : Program → Program) (b : 59 ≤ p.val)
    (k : ∀ x : Program, (f x).kind = .theatre → x.kind = .theatre) : Quiet s0 (s.modProgram p f) :=
  State.modProgram_quiet h p f fun _ y => y.modProgram p f
    (fun e => absurd (y.settings p (k _ e)).1 (by omega)) fun x => absurd x (by omega)

theorem micSlot_high : 59 ≤ micSlot.val := Nat.le_refl 59

theorem AlarmKind.slot_high (k : AlarmKind) : 59 ≤ k.slot.val := by cases k <;> decide

/-- A stack is replaced by one no longer than a claim stack may be, whose claims fit, in order, and named. -/
theorem State.setStack_quiet {s0 s : State} (h : Quiet s0 s) (o : Fin 256) (cs : List Claim)
    (k : s.stacksBounded → cs.length ≤ 8) (y : s0.ShowsYield → s.ShowsYield → (s.setStack o cs).ShowsYield) :
    Quiet s0 (s.setStack o cs) := by
  refine { h with depths := ?_, yields := fun x => y x (h.yields x) }
  intro x o'
  have y := h.depths x
  simp only [State.stack, State.setStack_claims, Tab.get_set]
  split
  · exact k y
  · exact y o'

theorem nameRest_length (floor : Nat) (seek : Bool) (cs : List Claim) : (nameRest floor seek cs).length = cs.length := by
  induction cs generalizing seek with
  | nil => rfl
  | cons c cs ih => unfold nameRest; split <;> [skip; split] <;> simp [ih]

theorem nameStack_length (floor : Nat) (cs : List Claim) : (nameStack floor cs).length = cs.length := by
  induction cs with
  | nil => rfl
  | cons c cs ih => unfold nameStack; split <;> simp [ih, nameRest_length]

theorem insertClaim_length (c : Claim) (cs : List Claim) : (insertClaim c cs).length = cs.length + 1 := by
  induction cs with
  | nil => rfl
  | cons d ds ih => unfold insertClaim; split <;> simp [ih]

theorem Theatre.settleHead_bindings (t : Theatre) : t.settleHead.bindings = t.bindings := by
  unfold Theatre.settleHead
  split
  · rfl
  · split <;> rfl

/-- An act on the show that keeps the bindings. -/
theorem State.modTheatre_quiet {s0 s : State} (h : Quiet s0 s) (f : Theatre → Theatre)
    (k : ∀ t, (f t).bindings = t.bindings) : Quiet s0 (s.modTheatre f) :=
  { h with bindings := (k _).trans h.bindings }

theorem State.setStage_quiet {s0 s : State} (h : Quiet s0 s) (l : ListId) (g : Stage) :
    Quiet s0 (s.setStage l g) := by
  refine { h with walkers := ?_ }
  intro m
  refine Eq.trans ?_ (h.walkers m)
  by_cases e : m.idx = l.idx
  · simp [State.walker, e]
  · simp [State.walker, Tab.get_modify_ne _ e]

theorem State.setCause_quiet {s0 s : State} (h : Quiet s0 s) (b : CauseBit) : Quiet s0 (s.setCause b) := by
  refine { h with causes := ?_ }
  intro c k
  have := h.causes c k
  simp only [State.causeHas, State.setCause_regs, BitVec.getLsbD_or, Bool.or_eq_true] at *
  exact Or.inl this

theorem State.emitNote_quiet {s0 s : State} (h : Quiet s0 s) (k : NoteKind) (c n d : Nat) :
    Quiet s0 (s.emitNote k c n d) := by
  unfold State.emitNote
  dsimp only
  split
  · next hl =>
    have base : Quiet s0 { s with notes := { s.notes with
        queue := s.notes.queue ++ [{ kind := k, code := c, subject := n, detail := d, time := s.time }] } } := by
      refine { h with bounded := ?_, noted := h.noted.trans ⟨⟨_, rfl⟩, fun f => absurd hl (by omega), id⟩ }
      intro x
      have := (h.bounded x).2
      simp only [NoteUnit.bounded, List.length_append, List.length_cons, List.length_nil] at *
      omega
    split
    · exact State.setCause_quiet base .noteWait
    · exact base
  · refine { h with
      bounded := ?_, noted := h.noted.trans ⟨⟨[], by simp⟩, fun _ => rfl, fun _ => by dsimp only; omega⟩ }
    intro x
    have := (h.bounded x).1
    simp only [NoteUnit.bounded] at *
    omega

theorem State.requestReturn_quiet {s0 s : State} (h : Quiet s0 s) (l : ListId) (r : Return) :
    Quiet s0 (s.requestReturn l r) := by
  have base : Quiet s0
      { s with lists := { s.lists with returns := s.lists.returns.modify l.idx fun q => q ++ [r] } } :=
    { h with }
  unfold State.requestReturn
  dsimp only
  split
  · split
    · exact State.setStage_quiet h _ _
    · exact base
  · exact base

theorem State.reply_quiet {s0 s : State} (h : Quiet s0 s) (l : ListId) (x : Hand) (code : Nat) (mark : Bool)
    (results : List (Nat × List Byte)) : Quiet s0 (s.reply l x code mark results) := State.setStage_quiet h _ _

theorem State.take_quiet {s0 s : State} (h : Quiet s0 s) (l : ListId) (x : Hand) (mark : Bool) :
    Quiet s0 (s.take l x mark) := State.setStage_quiet h _ _

theorem State.forAll_quiet {α : Type} {s0 s : State} (h : Quiet s0 s) (xs : List α) (f : α → State → State)
    (k : ∀ x s, Quiet s0 s → Quiet s0 (f x s)) : Quiet s0 (s.forAll xs f) := by
  unfold State.forAll
  induction xs generalizing s with
  | nil => exact h
  | cons x xs ih => exact ih (k x s h)

theorem State.forAll_acts {α : Type} {s0 s : State} (h : Acts s0 s) (xs : List α) (f : α → State → State)
    (k : ∀ x s, Acts s0 s → Acts s0 (f x s)) : Acts s0 (s.forAll xs f) := by
  unfold State.forAll
  induction xs generalizing s with
  | nil => exact h
  | cons x xs ih => exact ih (k x s h)

theorem State.chainFault_quiet {s0 s : State} (h : Quiet s0 s) (c : Fin 16) (addr : Nat) :
    Quiet s0 (s.chainFault c addr) := by
  unfold State.chainFault
  repeat' first
    | with_reducible assumption | with_reducible refine State.emitNote_quiet ?_ _ _ _ _
    | with_reducible refine State.modChannel_quiet ?_ _ _

theorem State.toRead_quiet {s0 s : State} (h : Quiet s0 s) (c : Fin 16) (addr : Nat) :
    Quiet s0 (s.toRead c addr) := by
  unfold State.toRead
  repeat' first
    | with_reducible assumption | with_reducible refine State.chainFault_quiet ?_ _ _
    | with_reducible refine State.modChannel_quiet ?_ _ _ | split

theorem State.passEnd_quiet {s0 s : State} (h : Quiet s0 s) (c : Fin 16) : Quiet s0 (s.passEnd c) := by
  unfold State.passEnd
  repeat' first
    | with_reducible assumption | with_reducible refine State.modChannel_quiet ?_ _ _
    | with_reducible refine State.toRead_quiet ?_ _ _ | split | intro _ | dsimp only

theorem State.fragmentDone_quiet {s0 s : State} (h : Quiet s0 s) (c : Fin 16) (f : Fragment) :
    Quiet s0 (s.fragmentDone c f) := by
  unfold State.fragmentDone
  repeat' first
    | with_reducible assumption | with_reducible refine State.passEnd_quiet ?_ _
    | with_reducible refine State.toRead_quiet ?_ _ _ | split

theorem State.fragmentArrives_quiet {s0 s : State} (h : Quiet s0 s) (c : Fin 16) (addr : Nat) (d : List Byte) :
    Quiet s0 (s.fragmentArrives c addr d) := by
  unfold State.fragmentArrives
  repeat' first
    | with_reducible assumption | with_reducible refine State.chainFault_quiet ?_ _ _
    | with_reducible refine State.modChannel_quiet ?_ _ _ | split | intro _ | dsimp only

theorem State.burstArrives_quiet {s0 s : State} (h : Quiet s0 s) (c : Fin 16) (n : Nat) (d : List Byte) :
    Quiet s0 (s.burstArrives c n d) := by
  unfold State.burstArrives
  repeat' first
    | with_reducible assumption | with_reducible refine State.fragmentDone_quiet ?_ _ _
    | with_reducible refine State.modChannel_quiet ?_ _ _ | split | intro _ | dsimp only

theorem State.fragmentReturned_quiet {s0 s : State} (h : Quiet s0 s) (c : Fin 16) :
    Quiet s0 (s.fragmentReturned c) := by
  unfold State.fragmentReturned
  repeat' first
    | with_reducible assumption | with_reducible refine State.fragmentDone_quiet ?_ _ _
    | with_reducible refine State.modChannel_quiet ?_ _ _ | split

theorem State.bindTo_quiet {s0 s : State} (h : Quiet s0 s) (c : Fin 16) (w : ChanOwner) (d : StreamDesc) :
    Quiet s0 (s.bindTo c w d) := by
  unfold State.bindTo
  repeat' first
    | with_reducible assumption | with_reducible refine State.modChannel_quiet ?_ _ _
    | with_reducible refine State.toRead_quiet ?_ _ _

theorem State.bind_quiet {s0 s : State} (h : Quiet s0 s) (w : ChanOwner) (d : StreamDesc) :
    Quiet s0 (s.bind w d).2 := by
  unfold State.bind
  split
  · exact State.bindTo_quiet h _ _ _
  · exact h

theorem State.signalOwner_quiet {s0 s : State} (h : Quiet s0 s) (w : ChanOwner) (f : Channel → Channel) :
    Quiet s0 (s.signalOwner w f) := by
  unfold State.signalOwner
  repeat' first | with_reducible assumption | with_reducible refine State.modChannel_quiet ?_ _ _ | split

theorem State.freeIfDone_quiet {s0 s : State} (h : Quiet s0 s) (c : Fin 16) : Quiet s0 (s.freeIfDone c) := by
  unfold State.freeIfDone
  repeat' first
    | with_reducible assumption | with_reducible refine State.modChannel_quiet ?_ _ _ | split | intro _
    | dsimp only

theorem State.enterEnded_quiet {s0 s : State} (h : Quiet s0 s) (c : Fin 16) : Quiet s0 (s.enterEnded c) := by
  unfold State.enterEnded
  repeat' first
    | with_reducible assumption | with_reducible refine State.freeIfDone_quiet ?_ _
    | with_reducible refine State.modChannel_quiet ?_ _ _

theorem State.discardTransfer_quiet {s0 s : State} (h : Quiet s0 s) (c : Fin 16) (k : Bool) :
    Quiet s0 (s.discardTransfer c k) := by
  unfold State.discardTransfer
  split
  · next c' x d e =>
    split
    · refine { h with granted := ?_ }
      exact Eq.trans (by simp [e]) h.granted
    · exact h
  · exact h

theorem State.releaseChannel_quiet {s0 s : State} (h : Quiet s0 s) (w : ChanOwner) :
    Quiet s0 (s.releaseChannel w) := by
  unfold State.releaseChannel
  repeat' first
    | with_reducible assumption | with_reducible refine State.discardTransfer_quiet ?_ _ _
    | with_reducible refine State.enterEnded_quiet ?_ _ | split | intro _ | dsimp only

theorem State.walkOn_quiet {s0 s : State} (h : Quiet s0 s) (c : Fin 16) (f : Fragment) : Quiet s0 (s.walkOn c f) := by
  unfold State.walkOn
  repeat' first
    | with_reducible assumption | with_reducible refine State.freeIfDone_quiet ?_ _
    | with_reducible refine State.modChannel_quiet ?_ _ _ | split | intro _ | dsimp only

theorem State.walkArrives_quiet {s0 s : State} (h : Quiet s0 s) (c : Fin 16) (addr : Nat) (d : List Byte) :
    Quiet s0 (s.walkArrives c addr d) := by
  unfold State.walkArrives
  repeat' first
    | with_reducible assumption | with_reducible refine State.modChannel_quiet ?_ _ _
    | with_reducible refine State.walkOn_quiet ?_ _ _ | split | intro _ | dsimp only

theorem State.writeBackDone_quiet {s0 s : State} (h : Quiet s0 s) (c : Fin 16) : Quiet s0 (s.writeBackDone c) := by
  unfold State.writeBackDone
  repeat' first
    | with_reducible assumption | with_reducible refine State.fragmentReturned_quiet ?_ _
    | with_reducible refine State.freeIfDone_quiet ?_ _ | with_reducible refine State.modChannel_quiet ?_ _ _
    | with_reducible refine State.walkOn_quiet ?_ _ _ | split | intro _ | dsimp only

theorem State.reloadAlarm_quiet {s0 s : State} (h : Quiet s0 s) (c : Fin 16) : Quiet s0 (s.reloadAlarm c) := by
  unfold State.reloadAlarm
  repeat' first
    | with_reducible assumption | with_reducible refine State.modChannel_quiet ?_ _ _
    | with_reducible refine State.toRead_quiet ?_ _ _

theorem State.recheckWindow_quiet {s0 s : State} (h : Quiet s0 s) : Quiet s0 (s.recheckWindow) := by
  unfold State.recheckWindow
  repeat' first
    | with_reducible assumption | with_reducible refine State.chainFault_quiet ?_ _ _
    | with_reducible refine State.freeIfDone_quiet ?_ _ | with_reducible refine State.modChannel_quiet ?_ _ _
    | with_reducible refine State.toRead_quiet ?_ _ _ | (with_reducible refine State.forAll_quiet ?_ _ _ ?_)
    | split | intro _ | dsimp only

theorem State.leaveOwing_quiet {s0 s : State} (h : Quiet s0 s) (v : Fin 8) : Quiet s0 (s.leaveOwing v) := by
  unfold State.leaveOwing
  repeat' first
    | with_reducible assumption | with_reducible refine State.modPattern_quiet ?_ _ _ | split | intro _
    | dsimp only

theorem State.definePattern_quiet {s0 s : State} (h : Quiet s0 s) (p : Fin 12) (d : PatternDef) :
    Quiet s0 (s.definePattern p d) := by
  unfold State.definePattern
  repeat' first | with_reducible assumption | with_reducible refine State.modPattern_quiet ?_ _ _

theorem State.giveVoice_quiet {s0 s : State} (h : Quiet s0 s) (v : Fin 8) (u : VoiceUser) (p : Fin 12) :
    Quiet s0 (s.giveVoice v u p) := by
  unfold State.giveVoice
  repeat' first
    | with_reducible assumption | with_reducible refine State.leaveOwing_quiet ?_ _
    | with_reducible refine State.modVoice_quiet ?_ _ _

theorem State.releaseVoice_quiet {s0 s : State} (h : Quiet s0 s) (u : VoiceUser) : Quiet s0 (s.releaseVoice u) := by
  unfold State.releaseVoice
  repeat' first
    | with_reducible assumption | with_reducible refine State.leaveOwing_quiet ?_ _
    | with_reducible refine State.modVoice_quiet ?_ _ _ | split

theorem State.beginCycle_quiet {s0 s : State} (h : Quiet s0 s) (v : Fin 8) (p : Fin 12) (cycles : Nat) :
    Quiet s0 (s.beginCycle v p cycles) := by
  unfold State.beginCycle
  repeat' first | with_reducible assumption | with_reducible refine State.modVoice_quiet ?_ _ _

theorem State.startVoice_quiet {s0 s : State} (h : Quiet s0 s) (v : Fin 8) : Quiet s0 (s.startVoice v) := by
  unfold State.startVoice
  repeat' first
    | with_reducible assumption | with_reducible refine State.beginCycle_quiet ?_ _ _ _ | split | intro _
    | dsimp only

theorem State.askRing_quiet {s0 s : State} (h : Quiet s0 s) : Quiet s0 (s.askRing) := by
  unfold State.askRing
  repeat' first | with_reducible assumption | with_reducible refine State.giveVoice_quiet ?_ _ _ _ | split

theorem State.releaseRing_quiet {s0 s : State} (h : Quiet s0 s) : Quiet s0 (s.releaseRing) := by
  unfold State.releaseRing
  repeat' first | with_reducible assumption | with_reducible refine State.releaseVoice_quiet ?_ _ | split

theorem State.renumber_yields {s : State} (y : s.ShowsYield) : s.renumber.ShowsYield := by
  have pr : ∀ p, (s.renumber.programs.get p).kind = (s.programs.get p).kind ∧
      (s.renumber.programs.get p).priority = (s.programs.get p).priority ∧
      (s.renumber.programs.get p).holdThreshold = (s.programs.get p).holdThreshold ∧
      (s.renumber.programs.get p).state = (s.programs.get p).state := fun p => by simp [State.renumber]
  have st : ∀ o, ∃ f : Claim → Claim, (∀ c, (f c).owner = c.owner ∧ (f c).priority = c.priority ∧ (f c).state = c.state) ∧
      s.renumber.claims.stack.get o = (s.stack o).map f := fun o =>
    ⟨fun c => { c with arrival := rankIn s.arrivalsInUse.eraseDups c.arrival }, fun _ => ⟨rfl, rfl, rfl⟩,
      by simp [State.renumber, State.stack]⟩
  refine ⟨fun p k => ?_, fun o c m p e => ?_, fun o => ?_, fun o c m k => ?_⟩
  · obtain ⟨a, b, c, _⟩ := pr p
    rw [b, c]; exact y.settings p (a ▸ k)
  · obtain ⟨f, hf, e'⟩ := st o
    rw [e'] at m
    obtain ⟨d, hd, rfl⟩ := List.mem_map.mp m
    obtain ⟨a, _, _, g⟩ := pr p
    have z := y.owners o d hd p ((hf d).1 ▸ e)
    rw [a, g, (hf d).2.1]
    exact z
  · obtain ⟨f, hf, e'⟩ := st o
    rw [e', List.pairwise_map]
    exact (y.order o).imp fun h => by rw [(hf _).2.1, (hf _).2.1]; exact h
  · obtain ⟨f, hf, e'⟩ := st o
    rw [e', ← List.map_tail] at m
    obtain ⟨d, hd, rfl⟩ := List.mem_map.mp m
    rw [(hf d).1]
    exact y.heads o d hd ((hf d).2.2 ▸ k)

theorem State.renumber_quiet {s0 s : State} (h : Quiet s0 s) : Quiet s0 s.renumber := by
  refine { h with depths := ?_, gains := ?_, yields := fun x => State.renumber_yields (h.yields x) }
  · intro x o
    simpa [State.renumber, State.stack] using h.depths x o
  · intro o
    simpa [State.renumber, MixEntry.renumber] using h.gains o

theorem State.issueArrival_quiet {s0 s : State} (h : Quiet s0 s) : Quiet s0 s.issueArrival.2 := by
  unfold State.issueArrival
  dsimp only
  split
  · have h := State.renumber_quiet h
    exact { h with }
  · exact { h with }

theorem State.enterPlaying_quiet {s0 s : State} (h : Quiet s0 s) (p : Fin 64) : Quiet s0 (s.enterPlaying p) := by
  unfold State.enterPlaying
  repeat' first
    | with_reducible assumption | with_reducible refine State.modProgram_stands ?_ _ _ ?_
    | exact fun _ => ⟨rfl, rfl, rfl, nofun⟩ | exact Program.Stands.playing _ _
    | with_reducible refine State.signalOwner_quiet ?_ _ _ | split | intro _ | dsimp only

theorem State.chimeStep_quiet {s0 s : State} (h : Quiet s0 s) (p : Fin 64) : Quiet s0 (s.chimeStep p) := by
  unfold State.chimeStep
  repeat' first
    | with_reducible assumption | with_reducible refine State.enterPlaying_quiet ?_ _
    | with_reducible refine State.giveVoice_quiet ?_ _ _ _ | with_reducible refine State.modProgram_stands ?_ _ _ ?_
    | exact fun _ => ⟨rfl, rfl, rfl, id⟩
    | exact fun _ => ⟨rfl, rfl, rfl, nofun⟩
    | split

theorem State.chimeLost_quiet {s0 s : State} (h : Quiet s0 s) (p : Fin 64) : Quiet s0 (s.chimeLost p) := by
  unfold State.chimeLost
  repeat' first
    | with_reducible assumption | with_reducible refine State.enterPlaying_quiet ?_ _
    | with_reducible refine State.modProgram_stands ?_ _ _ ?_
    | exact fun _ => ⟨rfl, rfl, rfl, id⟩

theorem State.gatherTest_quiet {s0 s : State} (h : Quiet s0 s) (p : Fin 64) : Quiet s0 (s.gatherTest p) := by
  unfold State.gatherTest
  repeat' first
    | with_reducible assumption | with_reducible refine State.chimeStep_quiet ?_ _ | split | intro _ | dsimp only

theorem State.enterHeld_quiet {s0 s : State} (h : Quiet s0 s) (r : HoldRecord) : Quiet s0 (s.enterHeld r) := by
  unfold State.enterHeld
  repeat' first
    | with_reducible assumption | with_reducible refine State.modProgram_stands ?_ _ _ ?_
    | exact ⟨rfl, rfl, rfl, id⟩ | exact ⟨rfl, rfl, rfl, nofun⟩
    | (with_reducible refine State.modTheatre_quiet ?_ _ ?_) | with_reducible refine State.signalOwner_quiet ?_ _ _
    | (with_reducible refine State.forAll_quiet ?_ _ _ ?_) | split | intro _ | dsimp only

theorem State.displaced_quiet {s0 s : State} (h : Quiet s0 s) (p : Fin 64) (o : Fin 256) :
    Quiet s0 (s.displaced p o) := by
  unfold State.displaced
  repeat' first
    | with_reducible assumption | with_reducible refine State.emitNote_quiet ?_ _ _ _ _
    | with_reducible refine State.enterHeld_quiet ?_ _ | split

theorem State.unholdPrograms_quiet {s0 s : State} (h : Quiet s0 s) : Quiet s0 (s.unholdPrograms) := by
  unfold State.unholdPrograms
  repeat' first
    | with_reducible assumption | with_reducible refine State.modProgram_stands ?_ _ _ ?_
    | exact Program.Stands.playing _ _
    | exact Program.Stands.refl _
    | (with_reducible refine State.forAll_quiet ?_ _ _ ?_) | split | intro _

theorem State.resumeShow_quiet {s0 s : State} (h : Quiet s0 s) (subject : Nat) : Quiet s0 (s.resumeShow subject) := by
  unfold State.resumeShow
  repeat' first
    | with_reducible assumption | with_reducible refine State.emitNote_quiet ?_ _ _ _ _
    | (with_reducible refine State.modTheatre_quiet ?_ _ ?_) | with_reducible refine State.signalOwner_quiet ?_ _ _
    | with_reducible refine State.unholdPrograms_quiet ?_ | (with_reducible refine State.forAll_quiet ?_ _ _ ?_)
    | split | intro _ | dsimp only

theorem State.resumeTest_quiet {s0 s : State} (h : Quiet s0 s) : Quiet s0 (s.resumeTest) := by
  unfold State.resumeTest
  repeat' first | with_reducible assumption | with_reducible refine State.resumeShow_quiet ?_ _ | split

theorem State.leaveHoldSet_quiet {s0 s : State} (h : Quiet s0 s) (p : Fin 64) : Quiet s0 (s.leaveHoldSet p) := by
  unfold State.leaveHoldSet
  repeat' first
    | with_reducible assumption | (with_reducible refine State.modTheatre_quiet ?_ _ ?_)
    | with_reducible refine State.resumeTest_quiet ?_ | split | intro _ | dsimp only

theorem State.evalLine_quiet {s0 s : State} (h : Quiet s0 s) (o : Fin 256) : Quiet s0 (s.evalLine o) := by
  unfold State.evalLine
  repeat' first | with_reducible assumption | with_reducible refine State.setLine_quiet ?_ _ _

theorem State.countHeld_quiet {s0 s : State} (h : Quiet s0 s) (c : Option Claim) (f : Nat → Nat) :
    Quiet s0 (s.countHeld c f) := by
  unfold State.countHeld
  repeat' first
    | with_reducible assumption | with_reducible refine State.modProgram_stands ?_ _ _ ?_
    | exact fun _ => ⟨rfl, rfl, rfl, id⟩ | split

theorem State.gatherTestOf_quiet {s0 s : State} (h : Quiet s0 s) (c : Option Claim) :
    Quiet s0 (s.gatherTestOf c) := by
  unfold State.gatherTestOf
  repeat' first | with_reducible assumption | with_reducible refine State.gatherTest_quiet ?_ _ | split

theorem State.reportDisplaced_quiet {s0 s : State} (h : Quiet s0 s) (o : Fin 256) (old : Option Claim)
    (new : Option Claim) :
    Quiet s0 (s.reportDisplaced o old new) := by
  unfold State.reportDisplaced
  repeat' first
    | with_reducible assumption | with_reducible refine State.displaced_quiet ?_ _ _ | split | intro _ | dsimp only

theorem State.restack_quiet {s0 s : State} (h : Quiet s0 s) (o : Fin 256) (cs : List Claim)
    (k : s.stacksBounded → cs.length ≤ 8) (y : s0.ShowsYield → s.ShowsYield → Ranked cs ∧ ∀ c ∈ cs, c.fits s.programs) :
    Quiet s0 (s.restack o cs) := by
  unfold State.restack
  dsimp only
  have base := State.setStack_quiet h o (nameStack (s.lockFloor o) cs) (fun x => by rw [nameStack_length]; exact k x)
    fun x z => z.setStack o (nameStack_ranked (y x z).1)
      (fun c m => let ⟨d, hd, e, p⟩ := nameStack_mem m; Claim.fits_same ((y x z).2 d hd) e p)
      (nameStack_heads (y x z).1)
  split
  · exact State.evalLine_quiet base _
  · have more := State.reportDisplaced_quiet (State.evalLine_quiet (State.gatherTestOf_quiet (State.gatherTestOf_quiet
      (State.countHeld_quiet (State.countHeld_quiet base (s.holder o) (· - 1))
        (holderIn (nameStack (s.lockFloor o) cs)) (· + 1)) (s.holder o)) (holderIn (nameStack (s.lockFloor o) cs))) o) o
      (s.holder o) (holderIn (nameStack (s.lockFloor o) cs))
    split
    · exact State.resumeTest_quiet more
    · exact more

theorem State.rename_quiet {s0 s : State} (h : Quiet s0 s) (o : Fin 256) : Quiet s0 (s.rename o) :=
  State.restack_quiet h o _ (fun x => x o) fun _ y => ⟨y.order o, y.owners o⟩

/-- Some of a stack's claims, in their order, fit and are in order of priority. -/
theorem State.ShowsYield.sublist {s : State} (y : s.ShowsYield) (o : Fin 256) {cs : List Claim}
    (h : cs.Sublist (s.stack o)) : Ranked cs ∧ ∀ c ∈ cs, c.fits s.programs :=
  ⟨(y.order o).sublist h, fun c m => y.owners o c (h.subset m)⟩

theorem State.removeClaim_quiet {s0 s : State} (h : Quiet s0 s) (w : Owner) (o : Fin 256) :
    Quiet s0 (s.removeClaim w o) := by
  unfold State.removeClaim
  split
  · exact State.restack_quiet h o _ (fun x => (List.length_filter_le _ _).trans (x o))
      fun _ y => y.sublist o List.filter_sublist
  · exact h

theorem State.removeAll_quiet {s0 s : State} (h : Quiet s0 s) (w : Owner) : Quiet s0 (s.removeAll w) := by
  unfold State.removeAll
  repeat' first
    | with_reducible assumption | with_reducible refine State.removeClaim_quiet ?_ _ _
    | (with_reducible refine State.forAll_quiet ?_ _ _ ?_) | split | intro _

theorem State.reportPageEnd_quiet {s0 s : State} (h : Quiet s0 s) (p : Fin 64) (src : Source) :
    Quiet s0 (s.reportPageEnd p src) := by
  unfold State.reportPageEnd
  repeat' first
    | with_reducible assumption | with_reducible refine State.modCall_quiet ?_ _ _ | split | intro _ | dsimp only

theorem State.endProgram_quiet {s0 s : State} (h : Quiet s0 s) (p : Fin 64) (code : Nat) :
    Quiet s0 (s.endProgram p code) := by
  by_cases g : (s.programs.get p).state = .free
  · unfold State.endProgram
    rw [if_pos (by simp [g])]
    exact h
  · obtain ⟨a, b, ha, hb, e⟩ := State.endProgram_eq g code
    have qa : Quiet s0 a := ha ▸
      State.releaseChannel_quiet (State.releaseVoice_quiet (State.removeAll_quiet h _) _) _
    have gone : ∀ o, hasOwner (.program p) (a.stack o) = false := fun o => by
      have x : Seats (s.removeAll (.program p)) a := ha ▸
        State.releaseChannel_seats (State.releaseVoice_seats (Seats.refl _) _) _
      unfold State.stack
      rw [x.stack]
      exact State.removeAll_gone s _ o
    have qb : Quiet s0 b := hb ▸ State.leaveHoldSet_quiet (State.modProgram_quiet qa p _ fun _ y =>
      y.modProgram p _ (fun (k : ProgKind.announce = .theatre) => nomatch k) fun _ _ => Or.inr gone) p
    rw [e]
    split
    · exact State.requestReturn_quiet qb _ _
    · exact State.reportPageEnd_quiet qb _ _

theorem State.evicted_quiet {s0 s : State} (h : Quiet s0 s) (w : Owner) : Quiet s0 (s.evicted w) := by
  unfold State.evicted
  repeat' first
    | with_reducible assumption | with_reducible refine State.endProgram_quiet ?_ _ _
    | with_reducible refine State.gatherTest_quiet ?_ _ | with_reducible refine State.modCall_quiet ?_ _ _
    | with_reducible refine State.modProgram_stands ?_ _ _ ?_
    | exact fun _ => ⟨rfl, rfl, rfl, id⟩ | split | intro _ | dsimp only

theorem State.place_quiet {s0 s : State} (h : Quiet s0 s) (c : Claim) (o : Fin 256)
    (f : s0.ShowsYield → s.ShowsYield → c.fits s.programs) : Quiet s0 (s.place c o).2 := by
  have put : ∀ (z : s0.ShowsYield) (y : s.ShowsYield) {cs : List Claim}, cs.Sublist (s.stack o) →
      Ranked (insertClaim c cs) ∧ ∀ x ∈ insertClaim c cs, x.fits s.programs := fun z y cs m =>
    ⟨insertClaim_ranked (y.sublist o m).1,
      fun x hx => (insertClaim_mem hx).elim (fun e => e ▸ f z y) ((y.sublist o m).2 x)⟩
  unfold State.place
  dsimp only
  split
  · exact h
  · split
    · next hl =>
      exact State.restack_quiet h o _ (fun _ => by rw [insertClaim_length]; omega)
        fun z y => put z y (List.Sublist.refl _)
    · split
      · split
        · refine State.evicted_quiet (State.restack_quiet h o _ (fun x => ?_) fun z y => put z y (List.dropLast_sublist _)) _
          have := x o
          rw [insertClaim_length, List.length_dropLast]
          omega
        · exact h
      · exact h

/-- A claim's placements let its owner stand. -/
theorem State.placeAll_quiet {s0 s : State} (h : Quiet s0 s) (c : Claim) (test : State → Fin 256 → Bool)
    (os : List (Fin 256)) (f : s0.ShowsYield → s.ShowsYield → c.fits s.programs) :
    Quiet s0 (s.placeAll c test os).2 ∧
      ∀ p, c.owner = .program p → (s.programs.get p).Stands ((s.placeAll c test os).2.programs.get p) := by
  have go : ∀ (os : List (Fin 256)) (acc : Nat × State), Quiet s0 acc.2 →
      (∀ p, c.owner = .program p → (s.programs.get p).Stands (acc.2.programs.get p)) →
      let t := os.foldl (fun acc o =>
        if test acc.2 o then
          let r := acc.2.place c o
          (acc.1 + (if r.1 then 1 else 0), r.2)
        else acc) acc
      Quiet s0 t.2 ∧ ∀ p, c.owner = .program p → (s.programs.get p).Stands (t.2.programs.get p) := by
    intro os
    induction os with
    | nil => exact fun acc k j => ⟨k, j⟩
    | cons o os ih =>
      intro acc k j
      refine ih _ ?_ ?_ <;> dsimp only <;> split
      · exact State.place_quiet k c o fun z _ => Claim.fits_stands (f z (h.yields z)) j
      · exact k
      · exact fun p e => (j p e).trans (State.place_stands _ o e)
      · exact j
  exact go os (0, s) h fun p _ => Program.Stands.refl _

theorem State.gatherExpired_quiet {s0 s : State} (h : Quiet s0 s) (p : Fin 64) : Quiet s0 (s.gatherExpired p) := by
  unfold State.gatherExpired
  repeat' first
    | with_reducible assumption | with_reducible refine State.chimeStep_quiet ?_ _
    | with_reducible refine State.endProgram_quiet ?_ _ _ | with_reducible refine State.modProgram_stands ?_ _ _ ?_
    | exact fun _ => ⟨rfl, rfl, rfl, id⟩
    | split | intro _ | dsimp only

theorem State.afterPlacing_quiet {s0 s : State} (h : Quiet s0 s) (p : Fin 64) : Quiet s0 (s.afterPlacing p) := by
  unfold State.afterPlacing
  repeat' first
    | with_reducible assumption | with_reducible refine State.chimeStep_quiet ?_ _
    | with_reducible refine State.gatherExpired_quiet ?_ _ | with_reducible refine State.gatherTest_quiet ?_ _
    | with_reducible refine State.modProgram_stands ?_ _ _ ?_
    | exact fun _ => ⟨rfl, rfl, rfl, id⟩ | split | intro _ | dsimp only

/-- A program that stands in its slot is launched. -/
theorem State.launch_quiet {s0 s : State} (h : Quiet s0 s) (p : Fin 64) (desc : Option StreamDesc)
    (k : (s.programs.get p).state ≠ .free) : Quiet s0 (s.launch p desc) := by
  unfold State.launch
  dsimp only
  repeat' first
    | with_reducible refine (State.placeAll_quiet h _ _ _ fun _ y => Claim.fits_claim y k).1
    | with_reducible refine State.afterPlacing_quiet ?_ _
    | with_reducible refine State.bind_quiet ?_ _ _ | with_reducible refine State.endProgram_quiet ?_ _ _
    | with_reducible refine State.modProgram_stands ?_ _ _ ?_
    | exact fun _ => ⟨rfl, rfl, rfl, id⟩ | split

theorem State.trackAction_quiet {s0 s : State} (h : Quiet s0 s) (a : TrackAction) : Quiet s0 (s.trackAction a) := by
  unfold State.trackAction
  repeat' first
    | with_reducible assumption | with_reducible refine State.bind_quiet ?_ _ _
    | with_reducible refine State.emitNote_quiet ?_ _ _ _ _ | with_reducible refine State.modChannel_quiet ?_ _ _
    | with_reducible refine State.releaseChannel_quiet ?_ _ | split | intro _ | dsimp only

theorem State.beginCue_quiet {s0 s : State} (h : Quiet s0 s) (cue : Cue) : Quiet s0 (s.beginCue cue) := by
  unfold State.beginCue
  repeat' first
    | with_reducible assumption | (with_reducible refine State.modTheatre_quiet ?_ _ ?_)
    | with_reducible refine State.trackAction_quiet ?_ _ | (with_reducible refine State.forAll_quiet ?_ _ _ ?_)
    | split | intro _ | dsimp only

theorem State.finishFade_quiet {s0 s : State} (h : Quiet s0 s) : Quiet s0 s.finishFade := by
  unfold State.finishFade
  have base := State.modTheatre_quiet h (fun t =>
    ({ t with live := t.next.getD t.live, next := none, pos := 0, len := 0, fresh := false
              queue := t.queue.tail } : Theatre).settleHead) (fun t => by rw [Theatre.settleHead_bindings])
  dsimp only
  split
  · exact State.requestReturn_quiet base _ _
  · exact base

theorem State.startChain_quiet {s0 s : State} (h : Quiet s0 s) (n : Nat) : Quiet s0 (State.startChain n s) := by
  induction n generalizing s with
  | zero => exact h
  | succ n ih =>
    unfold State.startChain
    split
    · exact h
    · dsimp only
      split
      · split
        · exact ih (State.finishFade_quiet (State.beginCue_quiet h _))
        · exact State.finishFade_quiet (State.beginCue_quiet h _)
      · exact State.beginCue_quiet h _

theorem State.startHead_quiet {s0 s : State} (h : Quiet s0 s) : Quiet s0 (s.startHead) := by
  unfold State.startHead
  repeat' first | with_reducible assumption | with_reducible refine State.startChain_quiet ?_ _

theorem State.completeFade_quiet {s0 s : State} (h : Quiet s0 s) : Quiet s0 (s.completeFade) := by
  unfold State.completeFade
  repeat' first
    | with_reducible assumption | with_reducible refine State.finishFade_quiet ?_
    | with_reducible refine State.startHead_quiet ?_ | split | intro _ | dsimp only

theorem State.showStep_quiet {s0 s : State} (h : Quiet s0 s) : Quiet s0 (s.showStep) := by
  unfold State.showStep
  repeat' first
    | with_reducible assumption | with_reducible refine State.completeFade_quiet ?_
    | (with_reducible refine State.modTheatre_quiet ?_ _ ?_) | with_reducible refine State.startHead_quiet ?_
    | split | intro _ | dsimp only

theorem State.fadeTaken_quiet {s0 s : State} (h : Quiet s0 s) : Quiet s0 (s.fadeTaken) := by
  unfold State.fadeTaken
  repeat' first
    | with_reducible assumption | with_reducible refine State.completeFade_quiet ?_
    | (with_reducible refine State.modTheatre_quiet ?_ _ ?_) | split | intro _ | dsimp only

theorem State.followTaken_quiet {s0 s : State} (h : Quiet s0 s) : Quiet s0 (s.followTaken) := by
  unfold State.followTaken
  repeat' first
    | with_reducible assumption | (with_reducible refine State.modTheatre_quiet ?_ _ ?_)
    | with_reducible refine State.startHead_quiet ?_ | split | intro _ | dsimp only

theorem State.clearShow_quiet {s0 s : State} (h : Quiet s0 s) (subject : Nat) : Quiet s0 (s.clearShow subject) := by
  unfold State.clearShow
  repeat' first
    | with_reducible assumption | with_reducible refine State.emitNote_quiet ?_ _ _ _ _
    | (with_reducible refine State.modTheatre_quiet ?_ _ ?_)
    | with_reducible refine State.releaseChannel_quiet ?_ _
    | with_reducible refine State.requestReturn_quiet ?_ _ _ | with_reducible refine State.unholdPrograms_quiet ?_
    | (with_reducible refine State.forAll_quiet ?_ _ _ ?_) | split | intro _ | dsimp only

theorem State.cueQueued_quiet {s0 s : State} (h : Quiet s0 s) (cue : Cue) : Quiet s0 (s.cueQueued cue) := by
  unfold State.cueQueued
  repeat' first
    | with_reducible assumption | (with_reducible refine State.modTheatre_quiet ?_ _ ?_)
    | with_reducible refine State.startHead_quiet ?_ | split | intro _ | dsimp only | rfl
    | exact Theatre.settleHead_bindings _

theorem State.cueRecord_quiet {s0 s : State} (h : Quiet s0 s) (h : Hand) (blocks : List (List Byte)) :
    Quiet s0 (s.cueRecord h blocks) := by
  unfold State.cueRecord
  repeat' first
    | with_reducible assumption | with_reducible refine State.cueQueued_quiet ?_ _
    | with_reducible refine State.reply_quiet ?_ _ _ _ _ _ | with_reducible refine State.take_quiet ?_ _ _ _
    | split | intro _ | dsimp only

theorem State.goRecord_quiet {s0 s : State} (h : Quiet s0 s) (h : Hand) : Quiet s0 (s.goRecord h) := by
  unfold State.goRecord
  repeat' first
    | with_reducible assumption | with_reducible refine State.finishFade_quiet ?_
    | with_reducible refine State.reply_quiet ?_ _ _ _ _ _ | with_reducible refine State.startHead_quiet ?_ | split

theorem State.hostHoldNote_quiet {s0 s : State} (h : Quiet s0 s) (heldFrom : ShowState) :
    Quiet s0 (s.hostHoldNote heldFrom) := by
  unfold State.hostHoldNote
  repeat' first | with_reducible assumption | with_reducible refine State.emitNote_quiet ?_ _ _ _ _

theorem State.holdShow_quiet {s0 s : State} (h : Quiet s0 s) : Quiet s0 (s.holdShow) := by
  unfold State.holdShow
  repeat' first
    | with_reducible assumption | with_reducible refine State.enterHeld_quiet ?_ _
    | with_reducible refine State.hostHoldNote_quiet ?_ _ | (with_reducible refine State.modTheatre_quiet ?_ _ ?_)
    | split | intro _ | dsimp only

theorem State.resumeRecord_quiet {s0 s : State} (h : Quiet s0 s) (h : Hand) : Quiet s0 (s.resumeRecord h) := by
  unfold State.resumeRecord
  repeat' first
    | with_reducible assumption | with_reducible refine State.reply_quiet ?_ _ _ _ _ _
    | with_reducible refine State.resumeShow_quiet ?_ _ | split

theorem State.alarmNote_quiet {s0 s : State} (h : Quiet s0 s) (k : AlarmKind) (x : AreaState) (as : List
    (Fin 16)) (cause : AlarmCause) :
    Quiet s0 (s.alarmNote k x as cause) := by
  unfold State.alarmNote
  repeat' first
    | with_reducible assumption | with_reducible refine State.emitNote_quiet ?_ _ _ _ _
    | with_reducible refine State.setCause_quiet ?_ _

theorem State.alarmVoice_quiet {s0 s : State} (h : Quiet s0 s) (k : AlarmKind) (pat : Fin 12) :
    Quiet s0 (s.alarmVoice k pat) := by
  unfold State.alarmVoice
  repeat' first
    | with_reducible assumption | with_reducible refine State.chimeLost_quiet ?_ _
    | with_reducible refine State.giveVoice_quiet ?_ _ _ _ | split

theorem State.alarmBind_quiet {s0 s : State} (h : Quiet s0 s) (k : AlarmKind) (d : StreamDesc) :
    Quiet s0 (s.alarmBind k d) := by
  unfold State.alarmBind
  repeat' first
    | with_reducible assumption | with_reducible refine State.bindTo_quiet ?_ _ _ _
    | with_reducible refine State.discardTransfer_quiet ?_ _ _
    | with_reducible refine State.emitNote_quiet ?_ _ _ _ _ | with_reducible refine State.endProgram_quiet ?_ _ _
    | split | intro _ | dsimp only

theorem State.alarmStart_quiet {s0 s : State} (h : Quiet s0 s) (k : AlarmKind) (arrival : Nat) :
    Quiet s0 (s.alarmStart k arrival) := by
  unfold State.alarmStart
  repeat' first
    | with_reducible assumption | with_reducible refine State.alarmBind_quiet ?_ _ _
    | with_reducible refine State.alarmVoice_quiet ?_ _ _ | with_reducible refine State.modAlarm_quiet ?_ _ _
    | with_reducible refine State.modProgram_high ?_ _ _ (AlarmKind.slot_high k) ?_ | exact fun _ => id
    | exact fun _ => nofun | split | intro _ | dsimp only

theorem State.alarmStop_quiet {s0 s : State} (h : Quiet s0 s) (k : AlarmKind) : Quiet s0 (s.alarmStop k) := by
  unfold State.alarmStop
  repeat' first
    | with_reducible assumption | with_reducible refine State.modAlarm_quiet ?_ _ _
    | with_reducible refine State.modProgram_high ?_ _ _ (AlarmKind.slot_high k) ?_ | exact fun _ => nofun
    | with_reducible refine State.releaseChannel_quiet ?_ _ | with_reducible refine State.releaseVoice_quiet ?_ _
    | split

theorem State.placeAlarm_quiet {s0 s : State} (h : Quiet s0 s) (k : AlarmKind) (arrival : Nat) (o : Fin 256) :
    Quiet s0 ((s.placeAlarm k arrival o).2) := by
  unfold State.placeAlarm
  have placed := State.place_quiet h (k.claim arrival) o fun _ y => Claim.fits_high y rfl (AlarmKind.slot_high k)
  repeat' first
    | exact placed | with_reducible refine State.modProgram_high ?_ _ _ (AlarmKind.slot_high k) ?_ | exact fun _ => id
    | split | dsimp only

theorem State.startMic_quiet {s0 s : State} (h : Quiet s0 s) : Quiet s0 (s.startMic) := by
  unfold State.startMic
  repeat' first
    | with_reducible assumption | with_reducible refine State.issueArrival_quiet ?_
    | with_reducible refine State.modProgram_high ?_ _ _ micSlot_high ?_
    | with_reducible refine (State.placeAll_quiet ?_ _ _ _ fun _ y => Claim.fits_high y rfl micSlot_high).1
    | exact fun _ => id | exact fun _ => nofun | split

theorem State.stopMic_quiet {s0 s : State} (h : Quiet s0 s) : Quiet s0 (s.stopMic) := by
  unfold State.stopMic
  repeat' first
    | with_reducible assumption | with_reducible refine State.modProgram_high ?_ _ _ micSlot_high ?_
    | exact fun _ => nofun | with_reducible refine State.removeAll_quiet ?_ _ | split

theorem State.beginVoicePhase_quiet {s0 s : State} (h : Quiet s0 s) (k : AlarmKind) (v : Fin 8) :
    Quiet s0 (s.beginVoicePhase k v) := by
  unfold State.beginVoicePhase
  repeat' first
    | with_reducible assumption | with_reducible refine State.leaveOwing_quiet ?_ _
    | with_reducible refine State.modAlarm_quiet ?_ _ _ | with_reducible refine State.modVoice_quiet ?_ _ _
    | with_reducible refine State.signalOwner_quiet ?_ _ _

theorem State.voicePoint_quiet {s0 s : State} (h : Quiet s0 s) (k : AlarmKind) (v : Fin 8) :
    Quiet s0 (s.voicePoint k v) := by
  unfold State.voicePoint
  repeat' first
    | with_reducible assumption | with_reducible refine State.alarmBind_quiet ?_ _ _
    | with_reducible refine State.beginVoicePhase_quiet ?_ _ _ | with_reducible refine State.bind_quiet ?_ _ _
    | with_reducible refine State.modAlarm_quiet ?_ _ _ | split | intro _ | dsimp only

theorem State.endVoicePhase_quiet {s0 s : State} (h : Quiet s0 s) (k : AlarmKind) : Quiet s0 (s.endVoicePhase k) := by
  unfold State.endVoicePhase
  repeat' first
    | with_reducible assumption | with_reducible refine State.modAlarm_quiet ?_ _ _
    | with_reducible refine State.modVoice_quiet ?_ _ _ | split | intro _ | dsimp only

end Sys2Proof.Machine
end

