-- ==== Sys2Proof/Laws/Acts.lean ====
section
/-! SUPPORT. What the acts of the Program Table, the Alarm Unit and the Intercom Unit leave alone, in the form of
Laws/Frames.lean; these may also change stations and the area table. -/

namespace Sys2Proof.Machine

theorem State.modStation_acts {s0 s : State} (h : Acts s0 s) (n : Fin 64) (f : Station → Station) :
    Acts s0 (s.modStation n f) :=
  { h with }

theorem State.setAreas_acts {s0 s : State} (h : Acts s0 s) (k : AlarmKind) (x : AreaState) (as : List (Fin 16)) :
    Acts s0 (s.setAreas k x as) :=
  { h with }

theorem State.setCause_acts {s0 s : State} (h : Acts s0 s) (b : CauseBit) :
    Acts s0 (s.setCause b) :=
  h.trans (State.setCause_quiet (Quiet.refl s) b).toActs

theorem State.modProgram_acts {s0 s : State} (h : Acts s0 s) (p : Fin 64) (f : Program → Program)
    (k : ∀ x : Program, x.Stands (f x)) : Acts s0 (s.modProgram p f) :=
  h.trans (State.modProgram_stands (Quiet.refl s) p f k).toActs

theorem State.modCall_acts {s0 s : State} (h : Acts s0 s) (c : Fin 16) (f : Call → Call) :
    Acts s0 (s.modCall c f) :=
  h.trans (State.modCall_quiet (Quiet.refl s) c f).toActs

theorem State.modVoice_acts {s0 s : State} (h : Acts s0 s) (v : Fin 8) (f : Voice → Voice) :
    Acts s0 (s.modVoice v f) :=
  h.trans (State.modVoice_quiet (Quiet.refl s) v f).toActs

theorem State.modAlarm_acts {s0 s : State} (h : Acts s0 s) (k : AlarmKind) (f : AlarmStatus → AlarmStatus) :
    Acts s0 (s.modAlarm k f) :=
  h.trans (State.modAlarm_quiet (Quiet.refl s) k f).toActs

theorem State.setFloor_acts {s0 s : State} (h : Acts s0 s) (a : Fin 16) (n : Nat) :
    Acts s0 (s.setFloor a n) :=
  { h with }

theorem State.emitNote_acts {s0 s : State} (h : Acts s0 s)
    (kind : NoteKind) (code : Nat) (subject : Nat) (detail : Nat) :
    Acts s0 (s.emitNote kind code subject detail) :=
  h.trans (State.emitNote_quiet (Quiet.refl s) kind code subject detail).toActs

theorem State.requestReturn_acts {s0 s : State} (h : Acts s0 s) (l : ListId) (r : Return) :
    Acts s0 (s.requestReturn l r) :=
  h.trans (State.requestReturn_quiet (Quiet.refl s) l r).toActs

theorem State.reply_acts {s0 s : State} (h : Acts s0 s)
    (l : ListId) (hd : Hand) (code : Nat) (mark : Bool) (results : List (Nat × List Byte)) :
    Acts s0 (s.reply l hd code mark results) :=
  h.trans (State.reply_quiet (Quiet.refl s) l hd code mark results).toActs

theorem State.take_acts {s0 s : State} (h : Acts s0 s) (l : ListId) (hd : Hand) (mark : Bool) :
    Acts s0 (s.take l hd mark) :=
  h.trans (State.take_quiet (Quiet.refl s) l hd mark).toActs

theorem State.bindTo_acts {s0 s : State} (h : Acts s0 s) (c : Fin 16) (w : ChanOwner) (d : StreamDesc) :
    Acts s0 (s.bindTo c w d) :=
  h.trans (State.bindTo_quiet (Quiet.refl s) c w d).toActs

theorem State.bind_acts {s0 s : State} (h : Acts s0 s) (w : ChanOwner) (d : StreamDesc) :
    Acts s0 ((s.bind w d).2) :=
  h.trans (State.bind_quiet (Quiet.refl s) w d).toActs

theorem State.signalOwner_acts {s0 s : State} (h : Acts s0 s) (w : ChanOwner) (f : Channel → Channel) :
    Acts s0 (s.signalOwner w f) :=
  h.trans (State.signalOwner_quiet (Quiet.refl s) w f).toActs

theorem State.discardTransfer_acts {s0 s : State} (h : Acts s0 s) (c : Fin 16) (keepWriteBack : Bool) :
    Acts s0 (s.discardTransfer c keepWriteBack) :=
  h.trans (State.discardTransfer_quiet (Quiet.refl s) c keepWriteBack).toActs

theorem State.releaseChannel_acts {s0 s : State} (h : Acts s0 s) (w : ChanOwner) :
    Acts s0 (s.releaseChannel w) :=
  h.trans (State.releaseChannel_quiet (Quiet.refl s) w).toActs

theorem State.leaveOwing_acts {s0 s : State} (h : Acts s0 s) (v : Fin 8) :
    Acts s0 (s.leaveOwing v) :=
  h.trans (State.leaveOwing_quiet (Quiet.refl s) v).toActs

theorem State.definePattern_acts {s0 s : State} (h : Acts s0 s) (p : Fin 12) (d : PatternDef) :
    Acts s0 (s.definePattern p d) :=
  h.trans (State.definePattern_quiet (Quiet.refl s) p d).toActs

theorem State.giveVoice_acts {s0 s : State} (h : Acts s0 s) (v : Fin 8) (u : VoiceUser) (p : Fin 12) :
    Acts s0 (s.giveVoice v u p) :=
  h.trans (State.giveVoice_quiet (Quiet.refl s) v u p).toActs

theorem State.releaseVoice_acts {s0 s : State} (h : Acts s0 s) (u : VoiceUser) :
    Acts s0 (s.releaseVoice u) :=
  h.trans (State.releaseVoice_quiet (Quiet.refl s) u).toActs

theorem State.beginCycle_acts {s0 s : State} (h : Acts s0 s) (v : Fin 8) (p : Fin 12) (cycles : Nat) :
    Acts s0 (s.beginCycle v p cycles) :=
  h.trans (State.beginCycle_quiet (Quiet.refl s) v p cycles).toActs

theorem State.askRing_acts {s0 s : State} (h : Acts s0 s) :
    Acts s0 (s.askRing) :=
  h.trans (State.askRing_quiet (Quiet.refl s)).toActs

theorem State.releaseRing_acts {s0 s : State} (h : Acts s0 s) :
    Acts s0 (s.releaseRing) :=
  h.trans (State.releaseRing_quiet (Quiet.refl s)).toActs

theorem State.issueArrival_acts {s0 s : State} (h : Acts s0 s) :
    Acts s0 ((s.issueArrival).2) :=
  h.trans (State.issueArrival_quiet (Quiet.refl s)).toActs

theorem State.enterPlaying_acts {s0 s : State} (h : Acts s0 s) (p : Fin 64) :
    Acts s0 (s.enterPlaying p) :=
  h.trans (State.enterPlaying_quiet (Quiet.refl s) p).toActs

theorem State.chimeLost_acts {s0 s : State} (h : Acts s0 s) (p : Fin 64) :
    Acts s0 (s.chimeLost p) :=
  h.trans (State.chimeLost_quiet (Quiet.refl s) p).toActs

theorem State.removeClaim_acts {s0 s : State} (h : Acts s0 s) (w : Owner) (o : Fin 256) :
    Acts s0 (s.removeClaim w o) :=
  h.trans (State.removeClaim_quiet (Quiet.refl s) w o).toActs

theorem State.removeAll_acts {s0 s : State} (h : Acts s0 s) (w : Owner) :
    Acts s0 (s.removeAll w) :=
  h.trans (State.removeAll_quiet (Quiet.refl s) w).toActs

theorem State.endProgram_acts {s0 s : State} (h : Acts s0 s) (p : Fin 64) (code : Nat) :
    Acts s0 (s.endProgram p code) :=
  h.trans (State.endProgram_quiet (Quiet.refl s) p code).toActs

theorem State.place_acts {s0 s : State} (h : Acts s0 s) (c : Claim) (o : Fin 256)
    (f : s.ShowsYield → c.fits s.programs) : Acts s0 ((s.place c o).2) :=
  h.trans (State.place_quiet (Quiet.refl s) c o fun _ => f).toActs

theorem State.gatherExpired_acts {s0 s : State} (h : Acts s0 s) (p : Fin 64) :
    Acts s0 (s.gatherExpired p) :=
  h.trans (State.gatherExpired_quiet (Quiet.refl s) p).toActs

theorem State.launch_acts {s0 s : State} (h : Acts s0 s) (p : Fin 64) (desc : Option StreamDesc)
    (k : (s.programs.get p).state ≠ .free) : Acts s0 (s.launch p desc) :=
  h.trans (State.launch_quiet (Quiet.refl s) p desc k).toActs

/-- A stack is renamed with claims no more than it had. -/
theorem State.restack_acts {s0 s : State} (h : Acts s0 s) (o : Fin 256) (p : Claim → Bool) :
    Acts s0 (s.restack o ((s.stack o).filter p)) :=
  h.trans (State.restack_quiet (Quiet.refl s) o _ (fun x => (List.length_filter_le _ _).trans (x o)) fun _ y =>
    y.sublist o List.filter_sublist).toActs

theorem State.rename_acts {s0 s : State} (h : Acts s0 s) (o : Fin 256) : Acts s0 (s.rename o) :=
  h.trans (State.rename_quiet (Quiet.refl s) o).toActs

theorem State.startHost_acts {s0 s : State} (h : Acts s0 s) (p : Fin 64) (hd : Hand) (set : List (Fin 256))
    (kind : ProgKind) (policy : Policy) (src : Source) (chime : Option (Fin 12)) (b : p.val < 59)
    (k : (s.programs.get p).state = .free) : Acts s0 (s.startHost p hd set kind policy src chime) := by
  unfold State.startHost
  dsimp only
  refine State.launch_acts (h.trans ?_) _ _ (by simp)
  have issued : Quiet s (s.take .program hd ((startRec hd.bytes).clamps kind policy).mark).issueArrival.2 :=
    State.issueArrival_quiet (State.take_quiet (Quiet.refl s) _ _ _)
  have free : ((s.take .program hd ((startRec hd.bytes).clamps kind policy).mark).issueArrival.2.programs.get p).state =
      .free := by
    unfold State.issueArrival State.renumber
    split <;> simpa [State.take] using k
  refine (State.modProgram_quiet issued p _ fun _ y => y.start _ b free fun e => ?_).toActs
  have e : kind = .theatre := e
  subst e
  simp only [StartRec.clamps, ProgKind.band, clampMark, clampNat, beq_self_eq_true, if_true]
  omega

theorem State.startRecord_acts {s0 s : State} (h : Acts s0 s) (hd : Hand) (blocks : List (List Byte)) :
    Acts s0 (s.startRecord hd blocks) := by
  unfold State.startRecord
  repeat' first
    | with_reducible assumption | with_reducible refine State.reply_acts ?_ _ _ _ _ _
    | (with_reducible refine State.startHost_acts ?_ _ _ _ _ _ _ _ ?_ ?_) | omega
    | (simp only [Bool.or_eq_true, bne_iff_ne, ne_eq, not_or, not_not] at *; tauto) | split | intro _ | dsimp only

theorem State.enterEnding_acts {s0 s : State} (h : Acts s0 s) (p : Fin 64) : Acts s0 (s.enterEnding p) := by
  unfold State.enterEnding
  repeat' first
    | with_reducible assumption | with_reducible refine State.modProgram_acts ?_ _ _ ?_
    | exact fun _ => ⟨rfl, rfl, rfl, id⟩ | exact fun _ => ⟨rfl, rfl, rfl, nofun⟩

theorem State.stopProgram_acts {s0 s : State} (h : Acts s0 s) (p : Fin 64) (mode : Nat) :
    Acts s0 (s.stopProgram p mode) := by
  unfold State.stopProgram
  repeat' first
    | with_reducible assumption | with_reducible refine State.endProgram_acts ?_ _ _
    | with_reducible refine State.enterEnding_acts ?_ _ | with_reducible refine State.modProgram_acts ?_ _ _ ?_
    | exact fun _ => ⟨rfl, rfl, rfl, id⟩ | exact fun _ => ⟨rfl, rfl, rfl, nofun⟩
    | with_reducible refine State.signalOwner_acts ?_ _ _ | split | intro _ | dsimp only

theorem State.stopRecord_acts {s0 s : State} (h : Acts s0 s) (hd : Hand) : Acts s0 (s.stopRecord hd) := by
  unfold State.stopRecord
  repeat' first
    | with_reducible assumption | with_reducible refine State.reply_acts ?_ _ _ _ _ _
    | with_reducible refine State.stopProgram_acts ?_ _ _ | split | intro _ | dsimp only

theorem State.gainRecord_acts {s0 s : State} (h : Acts s0 s) (hd : Hand) : Acts s0 (s.gainRecord hd) := by
  unfold State.gainRecord
  repeat' first
    | with_reducible assumption | with_reducible refine State.modProgram_acts ?_ _ _ ?_
    | exact fun _ => ⟨rfl, rfl, rfl, id⟩ | exact fun _ => ⟨rfl, rfl, rfl, nofun⟩
    | with_reducible refine State.reply_acts ?_ _ _ _ _ _ | split

theorem State.streamComplete_acts {s0 s : State} (h : Acts s0 s) (p : Fin 64) : Acts s0 (s.streamComplete p) := by
  unfold State.streamComplete
  repeat' first | with_reducible assumption | with_reducible refine State.endProgram_acts ?_ _ _

theorem State.durationExpired_acts {s0 s : State} (h : Acts s0 s) (p : Fin 64) : Acts s0 (s.durationExpired p) := by
  unfold State.durationExpired
  repeat' first
    | with_reducible assumption | with_reducible refine State.endProgram_acts ?_ _ _ | split | intro _ | dsimp only

theorem State.gatherDue_acts {s0 s : State} (h : Acts s0 s) (p : Fin 64) : Acts s0 (s.gatherDue p) := by
  unfold State.gatherDue
  repeat' first | with_reducible assumption | with_reducible refine State.gatherExpired_acts ?_ _ | split

theorem State.alarmNote_acts {s0 s : State} (h : Acts s0 s) (k : AlarmKind) (x : AreaState) (as : List
    (Fin 16)) (cause : AlarmCause) :
    Acts s0 (s.alarmNote k x as cause) :=
  h.trans (State.alarmNote_quiet (Quiet.refl s) k x as cause).toActs

theorem State.alarmVoice_acts {s0 s : State} (h : Acts s0 s) (k : AlarmKind) (pat : Fin 12) :
    Acts s0 (s.alarmVoice k pat) :=
  h.trans (State.alarmVoice_quiet (Quiet.refl s) k pat).toActs

theorem State.alarmBind_acts {s0 s : State} (h : Acts s0 s) (k : AlarmKind) (d : StreamDesc) :
    Acts s0 (s.alarmBind k d) :=
  h.trans (State.alarmBind_quiet (Quiet.refl s) k d).toActs

theorem State.alarmStart_acts {s0 s : State} (h : Acts s0 s) (k : AlarmKind) (arrival : Nat) :
    Acts s0 (s.alarmStart k arrival) :=
  h.trans (State.alarmStart_quiet (Quiet.refl s) k arrival).toActs

theorem State.alarmStop_acts {s0 s : State} (h : Acts s0 s) (k : AlarmKind) : Acts s0 (s.alarmStop k) :=
  h.trans (State.alarmStop_quiet (Quiet.refl s) k).toActs

theorem State.placeAlarm_acts {s0 s : State} (h : Acts s0 s) (k : AlarmKind) (arrival : Nat) (o : Fin 256) :
    Acts s0 ((s.placeAlarm k arrival o).2) :=
  h.trans (State.placeAlarm_quiet (Quiet.refl s) k arrival o).toActs

theorem State.settleFloors_acts {s0 s : State} (h : Acts s0 s) (as : List (Fin 16)) :
    Acts s0 (s.settleFloors as) := by
  unfold State.settleFloors
  repeat' first
    | with_reducible assumption | with_reducible refine State.setFloor_acts ?_ _ _
    | (with_reducible refine State.forAll_acts ?_ _ _ ?_) | split | intro _

theorem State.raise_acts {s0 s : State} (h : Acts s0 s) (k : AlarmKind) (areas : List (Fin 16))
    (cause : AlarmCause) :
    Acts s0 (s.raise k areas cause) := by
  unfold State.raise
  repeat' first
    | with_reducible assumption | with_reducible refine State.alarmNote_acts ?_ _ _ _ _
    | with_reducible refine State.alarmStart_acts ?_ _ _ | with_reducible refine State.issueArrival_acts ?_
    | with_reducible refine State.modAlarm_acts ?_ _ _ | with_reducible refine State.placeAlarm_acts ?_ _ _ _
    | with_reducible refine State.rename_acts ?_ _ | with_reducible refine State.setAreas_acts ?_ _ _ _
    | with_reducible refine State.settleFloors_acts ?_ _ | (with_reducible refine State.forAll_acts ?_ _ _ ?_)
    | split | intro _ | dsimp only

theorem State.withdraw_acts {s0 s : State} (h : Acts s0 s) (k : AlarmKind) (areas : List (Fin 16)) :
    Acts s0 (s.withdraw k areas) := by
  unfold State.withdraw
  repeat' first
    | with_reducible assumption | with_reducible refine State.restack_acts ?_ _ _
    | (with_reducible refine State.forAll_acts ?_ _ _ ?_) | split | intro _

theorem State.silence_acts {s0 s : State} (h : Acts s0 s) (k : AlarmKind) (areas : List (Fin 16))
    (cause : AlarmCause) :
    Acts s0 (s.silence k areas cause) := by
  unfold State.silence
  repeat' first
    | with_reducible assumption | with_reducible refine State.alarmNote_acts ?_ _ _ _ _
    | with_reducible refine State.alarmStop_acts ?_ _ | with_reducible refine State.setAreas_acts ?_ _ _ _
    | with_reducible refine State.settleFloors_acts ?_ _ | with_reducible refine State.withdraw_acts ?_ _ _ | split
    | intro _ | dsimp only

theorem State.quieten_acts {s0 s : State} (h : Acts s0 s) (k : AlarmKind) (areas : List (Fin 16))
    (cause : AlarmCause) :
    Acts s0 (s.quieten k areas cause) := by
  unfold State.quieten
  repeat' first
    | with_reducible assumption | with_reducible refine State.alarmNote_acts ?_ _ _ _ _
    | with_reducible refine State.alarmStop_acts ?_ _ | with_reducible refine State.setAreas_acts ?_ _ _ _
    | with_reducible refine State.settleFloors_acts ?_ _ | with_reducible refine State.withdraw_acts ?_ _ _ | split
    | intro _ | dsimp only

theorem State.raiseRecord_acts {s0 s : State} (h : Acts s0 s) (hd : Hand) : Acts s0 (s.raiseRecord hd) := by
  unfold State.raiseRecord
  repeat' first
    | with_reducible assumption | with_reducible refine State.raise_acts ?_ _ _ _
    | with_reducible refine State.reply_acts ?_ _ _ _ _ _ | split

theorem State.silenceRecord_acts {s0 s : State} (h : Acts s0 s) (hd : Hand) : Acts s0 (s.silenceRecord hd) := by
  unfold State.silenceRecord
  repeat' first
    | with_reducible assumption | with_reducible refine State.reply_acts ?_ _ _ _ _ _
    | with_reducible refine State.silence_acts ?_ _ _ _ | split

theorem State.resetRecord_acts {s0 s : State} (h : Acts s0 s) (hd : Hand) : Acts s0 (s.resetRecord hd) := by
  unfold State.resetRecord
  repeat' first
    | with_reducible assumption | with_reducible refine State.quieten_acts ?_ _ _ _
    | with_reducible refine State.reply_acts ?_ _ _ _ _ _ | split

theorem State.startMic_acts {s0 s : State} (h : Acts s0 s) : Acts s0 (s.startMic) :=
  h.trans (State.startMic_quiet (Quiet.refl s)).toActs

theorem State.stopMic_acts {s0 s : State} (h : Acts s0 s) : Acts s0 (s.stopMic) :=
  h.trans (State.stopMic_quiet (Quiet.refl s)).toActs

theorem State.closureEffect_acts {s0 s : State} (h : Acts s0 s) (line : Fin 4) : Acts s0 (s.closureEffect line) := by
  unfold State.closureEffect
  repeat' first
    | with_reducible assumption | with_reducible refine State.raise_acts ?_ _ _ _
    | with_reducible refine State.silence_acts ?_ _ _ _ | with_reducible refine State.startMic_acts ?_
    | (with_reducible refine State.forAll_acts ?_ _ _ ?_) | split | intro _

theorem State.beginVoicePhase_acts {s0 s : State} (h : Acts s0 s) (k : AlarmKind) (v : Fin 8) :
    Acts s0 (s.beginVoicePhase k v) :=
  h.trans (State.beginVoicePhase_quiet (Quiet.refl s) k v).toActs

theorem State.voicePoint_acts {s0 s : State} (h : Acts s0 s) (k : AlarmKind) (v : Fin 8) :
    Acts s0 (s.voicePoint k v) :=
  h.trans (State.voicePoint_quiet (Quiet.refl s) k v).toActs

theorem State.crewAlertEnds_acts {s0 s : State} (h : Acts s0 s) : Acts s0 (s.crewAlertEnds) := by
  unfold State.crewAlertEnds
  repeat' first | with_reducible assumption | with_reducible refine State.quieten_acts ?_ _ _ _

theorem State.alarmCycle_acts {s0 s : State} (h : Acts s0 s) (k : AlarmKind) (v : Fin 8) (copy : PatternDef)
    (p : Fin 12) (done : Nat) :
    Acts s0 (s.alarmCycle k v copy p done) := by
  unfold State.alarmCycle
  repeat' first
    | with_reducible assumption | with_reducible refine State.beginCycle_acts ?_ _ _ _
    | with_reducible refine State.crewAlertEnds_acts ?_ | with_reducible refine State.modAlarm_acts ?_ _ _
    | with_reducible refine State.voicePoint_acts ?_ _ _ | split

theorem State.cycleEnd_acts {s0 s : State} (h : Acts s0 s) (v : Fin 8) : Acts s0 (s.cycleEnd v) := by
  unfold State.cycleEnd
  repeat' first
    | with_reducible assumption | with_reducible refine State.alarmCycle_acts ?_ _ _ _ _ _
    | with_reducible refine State.beginCycle_acts ?_ _ _ _ | with_reducible refine State.enterPlaying_acts ?_ _
    | with_reducible refine State.leaveOwing_acts ?_ _ | with_reducible refine State.modVoice_acts ?_ _ _ | split
    | intro _ | dsimp only

theorem State.segmentEnd_acts {s0 s : State} (h : Acts s0 s) (v : Fin 8) : Acts s0 (s.segmentEnd v) := by
  unfold State.segmentEnd
  repeat' first
    | with_reducible assumption | with_reducible refine State.cycleEnd_acts ?_ _
    | with_reducible refine State.modVoice_acts ?_ _ _ | split | intro _ | dsimp only

theorem State.endVoicePhase_acts {s0 s : State} (h : Acts s0 s) (k : AlarmKind) : Acts s0 (s.endVoicePhase k) :=
  h.trans (State.endVoicePhase_quiet (Quiet.refl s) k).toActs

theorem State.definePatternRecord_acts {s0 s : State} (h : Acts s0 s) (hd : Hand) (blocks : List (List Byte)) :
    Acts s0 (s.definePatternRecord hd blocks) := by
  unfold State.definePatternRecord
  repeat' first
    | with_reducible assumption | with_reducible refine State.definePattern_acts ?_ _ _
    | with_reducible refine State.reply_acts ?_ _ _ _ _ _ | split | intro _ | dsimp only

theorem State.modParty_acts {s0 s : State} (h : Acts s0 s) (c : Fin 16) (i : Fin 8) (f : Party → Party) :
    Acts s0 (s.modParty c i f) := by
  unfold State.modParty
  repeat' first | with_reducible assumption | with_reducible refine State.modCall_acts ?_ _ _

theorem State.placeParty_acts {s0 s : State} (h : Acts s0 s) (c : Fin 16) (i : Fin 8) (n : Fin 64) (arrival : Nat) :
    Acts s0 (s.placeParty c i n arrival) := by
  unfold State.placeParty
  repeat' first
    | with_reducible assumption | with_reducible refine State.modParty_acts ?_ _ _ _
    | with_reducible refine State.place_acts ?_ _ _ ?_ | exact fun _ => Claim.fits_party rfl | split

theorem State.joinParty_acts {s0 s : State} (h : Acts s0 s) (c : Fin 16) (n : Fin 64) (ring : Bool)
    (talk : Nat) (listen : Nat) (arrival : Nat) :
    Acts s0 (s.joinParty c n ring talk listen arrival) := by
  unfold State.joinParty
  repeat' first
    | with_reducible assumption | with_reducible refine State.modCall_acts ?_ _ _
    | with_reducible refine State.modStation_acts ?_ _ _ | with_reducible refine State.placeParty_acts ?_ _ _ _ _
    | split | intro _ | dsimp only

theorem State.endParty_acts {s0 s : State} (h : Acts s0 s) (c : Fin 16) (i : Fin 8) (st : PartyState) :
    Acts s0 (s.endParty c i st) := by
  unfold State.endParty
  repeat' first
    | with_reducible assumption | with_reducible refine State.modParty_acts ?_ _ _ _
    | with_reducible refine State.removeClaim_acts ?_ _ _ | split

theorem State.idleStation_acts {s0 s : State} (h : Acts s0 s) (n : Fin 64) : Acts s0 (s.idleStation n) := by
  unfold State.idleStation
  repeat' first | with_reducible assumption | with_reducible refine State.modStation_acts ?_ _ _

theorem State.startPage_acts {s0 s : State} (h : Acts s0 s) (c : Fin 16) : Acts s0 (s.startPage c) := by
  unfold State.startPage
  dsimp only
  split
  · split
    · exact h
    · refine State.launch_acts (h.trans ?_) _ _ (by simp)
      exact (State.modProgram_quiet (State.modCall_quiet (State.issueArrival_quiet (Quiet.refl s)) _ _) _ _ fun _ y =>
        y.modProgram _ _ (fun (k : ProgKind.page = .theatre) => nomatch k)
          fun _ (k : ProgState.gathering = .free) => nomatch k).toActs
  · exact h

theorem State.clearParty_acts {s0 s : State} (h : Acts s0 s) (c : Fin 16) (i : Fin 8) :
    Acts s0 (s.clearParty c i) := by
  unfold State.clearParty
  repeat' first
    | with_reducible assumption | with_reducible refine State.idleStation_acts ?_ _
    | with_reducible refine State.modParty_acts ?_ _ _ _ | split

theorem State.unclaimParty_acts {s0 s : State} (h : Acts s0 s) (c : Fin 16) (i : Fin 8) :
    Acts s0 (s.unclaimParty c i) := by
  unfold State.unclaimParty
  repeat' first
    | with_reducible assumption | with_reducible refine State.bind_acts ?_ _ _
    | with_reducible refine State.modParty_acts ?_ _ _ _ | with_reducible refine State.removeClaim_acts ?_ _ _
    | split

theorem State.enterClearing_acts {s0 s : State} (h : Acts s0 s) (c : Fin 16) : Acts s0 (s.enterClearing c) := by
  unfold State.enterClearing
  repeat' first
    | with_reducible assumption | with_reducible refine State.clearParty_acts ?_ _ _
    | with_reducible refine State.endProgram_acts ?_ _ _ | with_reducible refine State.modCall_acts ?_ _ _
    | with_reducible refine State.releaseRing_acts ?_ | with_reducible refine State.unclaimParty_acts ?_ _ _
    | (with_reducible refine State.forAll_acts ?_ _ _ ?_) | split | intro _

theorem State.freeCall_acts {s0 s : State} (h : Acts s0 s) (c : Fin 16) : Acts s0 (s.freeCall c) := by
  unfold State.freeCall
  repeat' first
    | with_reducible assumption | with_reducible refine State.modCall_acts ?_ _ _
    | with_reducible refine State.modProgram_acts ?_ _ _ ?_
    | exact fun _ => ⟨rfl, rfl, rfl, id⟩ | exact fun _ => ⟨rfl, rfl, rfl, nofun⟩
    | with_reducible refine State.requestReturn_acts ?_ _ _
    | with_reducible refine State.take_acts ?_ _ _ _ | split | intro _ | dsimp only

theorem State.examine_acts {s0 s : State} (h : Acts s0 s) (c : Fin 16) : Acts s0 (s.examine c) := by
  unfold State.examine
  repeat' first
    | with_reducible assumption | with_reducible refine State.enterClearing_acts ?_ _
    | with_reducible refine State.modCall_acts ?_ _ _ | with_reducible refine State.startPage_acts ?_ _ | split
    | intro _ | dsimp only

theorem State.stationLost_acts {s0 s : State} (h : Acts s0 s) (n : Fin 64) : Acts s0 (s.stationLost n) := by
  unfold State.stationLost
  repeat' first
    | with_reducible assumption | with_reducible refine State.endParty_acts ?_ _ _ _
    | with_reducible refine State.examine_acts ?_ _ | with_reducible refine State.modStation_acts ?_ _ _
    | with_reducible refine State.releaseRing_acts ?_ | split | intro _ | dsimp only

theorem State.holdExpired_acts {s0 s : State} (h : Acts s0 s) (n : Fin 64) : Acts s0 (s.holdExpired n) := by
  unfold State.holdExpired
  repeat' first
    | with_reducible assumption | with_reducible refine State.emitNote_acts ?_ _ _ _ _
    | with_reducible refine State.stationLost_acts ?_ _ | split | intro _ | dsimp only

theorem State.answer_acts {s0 s : State} (h : Acts s0 s) (n : Fin 64) : Acts s0 (s.answer n) := by
  unfold State.answer
  repeat' first
    | with_reducible assumption | with_reducible refine State.examine_acts ?_ _
    | with_reducible refine State.modParty_acts ?_ _ _ _ | with_reducible refine State.modStation_acts ?_ _ _
    | with_reducible refine State.releaseRing_acts ?_ | split

theorem State.hangUp_acts {s0 s : State} (h : Acts s0 s) (n : Fin 64) : Acts s0 (s.hangUp n) := by
  unfold State.hangUp
  repeat' first
    | with_reducible assumption | with_reducible refine State.endParty_acts ?_ _ _ _
    | with_reducible refine State.examine_acts ?_ _ | with_reducible refine State.idleStation_acts ?_ _ | split

theorem State.hookChange_acts {s0 s : State} (h : Acts s0 s) (n : Fin 64) (off : Bool) :
    Acts s0 (s.hookChange n off) := by
  unfold State.hookChange
  repeat' first
    | with_reducible assumption | with_reducible refine State.answer_acts ?_ _
    | with_reducible refine State.emitNote_acts ?_ _ _ _ _ | with_reducible refine State.hangUp_acts ?_ _
    | with_reducible refine State.modStation_acts ?_ _ _ | split

theorem State.presence_acts {s0 s : State} (h : Acts s0 s) (n : Fin 64) : Acts s0 (s.presence n) := by
  unfold State.presence
  repeat' first
    | with_reducible assumption | with_reducible refine State.emitNote_acts ?_ _ _ _ _
    | with_reducible refine State.modStation_acts ?_ _ _ | split | intro _ | dsimp only

theorem State.stationReport_acts {s0 s : State} (h : Acts s0 s) (n : Fin 64) (r : StationReport) :
    Acts s0 (s.stationReport n r) := by
  unfold State.stationReport
  repeat' first
    | with_reducible assumption | with_reducible refine State.emitNote_acts ?_ _ _ _ _
    | with_reducible refine State.hookChange_acts ?_ _ _ | with_reducible refine State.presence_acts ?_ _ | split
    | intro _ | dsimp only

theorem State.ringExpired_acts {s0 s : State} (h : Acts s0 s) (c : Fin 16) (i : Fin 8) :
    Acts s0 (s.ringExpired c i) := by
  unfold State.ringExpired
  repeat' first
    | with_reducible assumption | with_reducible refine State.endParty_acts ?_ _ _ _
    | with_reducible refine State.examine_acts ?_ _ | with_reducible refine State.idleStation_acts ?_ _
    | with_reducible refine State.releaseRing_acts ?_ | split

theorem State.openCall_acts {s0 s : State} (h : Acts s0 s) (c : Fin 16) (hd : Hand) (page : Option Page)
    (ps : List (Fin 64 × RawParty)) :
    Acts s0 (s.openCall c hd page ps) := by
  unfold State.openCall
  repeat' first
    | with_reducible assumption | with_reducible refine State.askRing_acts ?_
    | with_reducible refine State.examine_acts ?_ _ | with_reducible refine State.freeCall_acts ?_ _
    | with_reducible refine State.issueArrival_acts ?_ | with_reducible refine State.joinParty_acts ?_ _ _ _ _ _ _
    | with_reducible refine State.modCall_acts ?_ _ _ | with_reducible refine State.modProgram_acts ?_ _ _ ?_
    | exact fun _ => ⟨rfl, rfl, rfl, id⟩ | exact fun _ => ⟨rfl, rfl, rfl, nofun⟩
    | with_reducible refine State.take_acts ?_ _ _ _ | (with_reducible refine State.forAll_acts ?_ _ _ ?_) | split
    | intro _ | dsimp only

theorem State.openRecord_acts {s0 s : State} (h : Acts s0 s) (hd : Hand) (blocks : List (List Byte)) :
    Acts s0 (s.openRecord hd blocks) := by
  unfold State.openRecord
  repeat' first
    | with_reducible assumption | with_reducible refine State.openCall_acts ?_ _ _ _ _
    | with_reducible refine State.reply_acts ?_ _ _ _ _ _ | split | intro _ | dsimp only

theorem State.addRecord_acts {s0 s : State} (h : Acts s0 s) (hd : Hand) : Acts s0 (s.addRecord hd) := by
  unfold State.addRecord
  repeat' first
    | with_reducible assumption | with_reducible refine State.askRing_acts ?_
    | with_reducible refine State.examine_acts ?_ _ | with_reducible refine State.issueArrival_acts ?_
    | with_reducible refine State.joinParty_acts ?_ _ _ _ _ _ _
    | with_reducible refine State.reply_acts ?_ _ _ _ _ _ | split | intro _ | dsimp only

theorem State.dropRecord_acts {s0 s : State} (h : Acts s0 s) (hd : Hand) : Acts s0 (s.dropRecord hd) := by
  unfold State.dropRecord
  repeat' first
    | with_reducible assumption | with_reducible refine State.endParty_acts ?_ _ _ _
    | with_reducible refine State.examine_acts ?_ _ | with_reducible refine State.idleStation_acts ?_ _
    | with_reducible refine State.releaseRing_acts ?_ | with_reducible refine State.reply_acts ?_ _ _ _ _ _ | split
    | intro _ | dsimp only

theorem State.closeRecord_acts {s0 s : State} (h : Acts s0 s) (hd : Hand) : Acts s0 (s.closeRecord hd) := by
  unfold State.closeRecord
  repeat' first
    | with_reducible assumption | with_reducible refine State.enterClearing_acts ?_ _
    | with_reducible refine State.reply_acts ?_ _ _ _ _ _ | split | intro _ | dsimp only

theorem State.defineStationRecord_acts {s0 s : State} (h : Acts s0 s) (hd : Hand) :
    Acts s0 (s.defineStationRecord hd) := by
  unfold State.defineStationRecord
  repeat' first
    | with_reducible assumption | with_reducible refine State.bind_acts ?_ _ _
    | with_reducible refine State.modStation_acts ?_ _ _ | with_reducible refine State.reply_acts ?_ _ _ _ _ _
    | split | intro _ | dsimp only

end Sys2Proof.Machine
end

