-- ==== Sys2Proof/Laws/Ends.lean ====
section
/-! SUPPORT. What the end of a program leaves. -/

namespace Sys2Proof.Machine

/-- The end of a program that is not FREE (R44). -/
theorem State.endProgram_ended {s : State} {p : Fin 64} (h : (s.programs.get p).state ≠ .free) (code : Nat) :
    ProgramEnded s (s.endProgram p code) p code := by
  have q := (State.endProgram_quiet (Quiet.refl s) p code).toUntouched
  obtain ⟨a, b, ha, hb, e⟩ := State.endProgram_eq h code
  have sa : Steady s a := ha ▸
    State.releaseChannel_steady (State.releaseVoice_steady (State.removeAll_steady (Steady.refl s) _) _) _
  have bf : (b.programs.get p).state = .free := hb ▸ State.leaveHoldSet_free (by simp) p
  have br : (b.programs.get p).reservation = (s.programs.get p).reservation := by
    have x := (State.leaveHoldSet_steady (Steady.refl (a.modProgram p fun pr => { reservation := pr.reservation }))
      p).records p
    rw [hb, x.2, State.modProgram_programs, Tab.get_modify_self]
    exact (sa.records p).2
  have bu : ∀ o, hasOwner (.program p) (b.stack o) = false := by
    intro o
    have x : Seats (s.removeAll (.program p)) a := ha ▸
      State.releaseChannel_seats (State.releaseVoice_seats (Seats.refl _) _) _
    have y : Seats (s.removeAll (.program p)) b := hb ▸
      State.leaveHoldSet_seats (State.modProgram_seats x _ _) p
    unfold State.stack
    rw [y.stack]
    exact State.removeAll_gone s _ o
  clear ha hb
  have fin : (s.endProgram p code).programs = b.programs ∧ (s.endProgram p code).claims = b.claims := by
    rw [e]; split
    · exact State.requestReturn_rest _ _ _
    · exact State.reportPageEnd_rest _ _ _
  refine { q with free := by rw [fin.1]; exact bf, reservation := by rw [fin.1]; exact br, unclaimed := ?_, returned := ?_ }
  · intro o; unfold State.stack; rw [fin.2]; exact bu o
  · intro r k _
    rw [e, (sa.records p).1, k]
    exact ⟨(a.programs.get p).ended r code b.time, rfl, rfl, State.requestReturn_waits _ _ _⟩

end Sys2Proof.Machine
end

