-- ==== Sys2Proof/Laws/Areas.lean ====
section
/-! SUPPORT. The area table and the lock floors: what setting areas and settling floors write, and that an alarm's other
acts leave both alone. -/

namespace Sys2Proof.Machine

theorem AlarmKind.idx_inj {a b : AlarmKind} (h : a.idx = b.idx) : a = b := by
  cases a <;> cases b <;> simp [AlarmKind.idx] at h ⊢

theorem Tab.get_foldl_set {n : Nat} {α : Type} (x : α) (is : List (Fin n)) (t : Tab n α) (j : Fin n) :
    (is.foldl (fun t i => t.set i x) t).get j = if j ∈ is then x else t.get j := by
  induction is generalizing t with
  | nil => simp
  | cons i is ih =>
    rw [List.foldl_cons, ih, Tab.get_set]
    by_cases h : j = i <;> by_cases k : j ∈ is <;> simp [h, k]

theorem State.setAreas_areaState (s : State) (k : AlarmKind) (x : AreaState) (as : List (Fin 16)) (k' : AlarmKind)
    (a : Fin 16) :
    (s.setAreas k x as).areaState k' a = if k' = k ∧ a ∈ as then x else s.areaState k' a := by
  unfold State.areaState State.setAreas
  dsimp only
  by_cases h : k' = k
  · subst h; rw [Tab.get_modify_self, Tab.get_foldl_set]; simp
  · rw [Tab.get_modify_ne _ (fun e => h (AlarmKind.idx_inj e))]; simp [h]

/-- Settling the floors of areas writes what the table asks there, and nothing else. -/
theorem State.settleFloors_eq (s : State) (as : List (Fin 16)) :
    s.settleFloors as = { s with claims := { s.claims with
      floors := as.foldl (fun f a => f.set a (s.floorFor a)) s.claims.floors } } := by
  unfold State.settleFloors State.forAll
  have go : ∀ (as : List (Fin 16)) (f : Tab 16 Nat),
      as.foldl (fun (x : State) a => x.setFloor a (x.floorFor a)) { s with claims := { s.claims with floors := f } } =
        { s with claims := { s.claims with floors := as.foldl (fun f a => f.set a (s.floorFor a)) f } } := by
    intro as
    induction as with
    | nil => intro f; rfl
    | cons a as ih => intro f; exact ih _
  exact go as s.claims.floors

theorem State.settleFloors_floor (s : State) (as : List (Fin 16)) (a : Fin 16) :
    (s.settleFloors as).claims.floors.get a = if a ∈ as then s.floorFor a else s.claims.floors.get a := by
  rw [State.settleFloors_eq]
  have go : ∀ (as : List (Fin 16)) (f : Tab 16 Nat),
      (as.foldl (fun f a => f.set a (s.floorFor a)) f).get a = if a ∈ as then s.floorFor a else f.get a := by
    intro as
    induction as with
    | nil => intro f; simp
    | cons b as ih =>
      intro f
      rw [List.foldl_cons, ih, Tab.get_set]
      by_cases h : a = b <;> by_cases k : a ∈ as <;> simp [h, k]
  exact go as _

/-- The floor the table asks for depends on the table only. -/
theorem State.floorFor_congr {s t : State} (h : t.alarms.table = s.alarms.table) (a : Fin 16) :
    t.floorFor a = s.floorFor a := by
  unfold State.floorFor State.areaState; rw [h]

theorem State.areaState_congr {s t : State} (h : t.alarms.table = s.alarms.table) (k : AlarmKind) (a : Fin 16) :
    t.areaState k a = s.areaState k a := by
  unfold State.areaState; rw [h]

/-- The placements of a raise are internal acts. -/
theorem State.placements_quiet {s0 s : State} (h : Quiet s0 s) (k : AlarmKind) (n : Nat) (moved : List (Fin 16))
    (os : List (Fin 256)) :
    Quiet s0 (s.forAll os fun o s =>
      let out := s.outlets.get o
      let r := if k.audience out.kind then s.placeAlarm k n o else (false, s)
      if !r.1 && moved.contains out.area then r.2.rename o else r.2) := by
  refine State.forAll_quiet h _ _ fun o s h => ?_
  dsimp only
  have r : Quiet s0 (if k.audience (s.outlets.get o).kind then s.placeAlarm k n o else (false, s)).2 := by
    split
    · exact State.placeAlarm_quiet h _ _ _
    · exact h
  generalize (if k.audience (s.outlets.get o).kind then s.placeAlarm k n o else (false, s)) = z at r ⊢
  split
  · exact State.rename_quiet r _
  · exact r

/-- A raise changes the table and the floors of the areas that became SOUNDING, and no other entry of either. -/
theorem State.raise_areas (s : State) (k : AlarmKind) (areas : List (Fin 16)) (cause : AlarmCause) :
    (∀ k' a, (s.raise k areas cause).areaState k' a = if k' = k ∧ a ∈ areas then .sounding else s.areaState k' a) ∧
    ∀ a, (s.raise k areas cause).claims.floors.get a =
      if a ∈ areas ∧ s.areaState k a ≠ .sounding then (s.raise k areas cause).floorFor a else s.claims.floors.get a := by
  unfold State.raise
  dsimp only
  generalize hc : areas.filter (fun a => s.areaState k a != .sounding) = changed
  have mem : ∀ a, a ∈ changed ↔ a ∈ areas ∧ s.areaState k a ≠ .sounding := by
    intro a; rw [← hc]; simp
  split
  · next e =>
    have e : changed = [] := by simpa using e
    have none : ∀ a ∈ areas, s.areaState k a = .sounding := by
      intro a h; by_contra n
      have := (mem a).mpr ⟨h, n⟩; rw [e] at this; simp at this
    refine ⟨fun k' a => ?_, fun a => ?_⟩
    · split
      · next h => rw [h.1]; exact none a h.2
      · rfl
    · rw [if_neg]; rintro ⟨h, n⟩; exact n (none a h)
  · generalize hi : (if changed.any fun a => s.areaState k a == .quiet then s.issueArrival
      else ((s.alarms.kinds.get k.idx).lastArrival, s)) = issued
    have qi : Quiet s issued.2 := by
      rw [← hi]; split
      · exact State.issueArrival_quiet (Quiet.refl s)
      · exact Quiet.refl s
    generalize hs1 : (issued.2.modAlarm k fun a => { a with lastArrival := issued.1 }).setAreas k .sounding changed = s1
    have t1 : ∀ k' a, s1.areaState k' a = if k' = k ∧ a ∈ changed then .sounding else s.areaState k' a := by
      intro k' a
      rw [← hs1, State.setAreas_areaState]
      split
      · rfl
      · exact State.areaState_congr qi.table k' a
    have f1 : s1.claims.floors = s.claims.floors := by rw [← hs1]; exact qi.floors
    have tail : ∀ (moved : List (Fin 16)) (os : List (Fin 256)) (s0 s : State), Quiet s0 s →
        Quiet s0 ((State.alarmStart k issued.1 (s.forAll os fun o s =>
          let out := s.outlets.get o
          let r := if k.audience out.kind then s.placeAlarm k issued.1 o else (false, s)
          if !r.1 && moved.contains out.area then r.2.rename o else r.2)).alarmNote k .sounding changed cause) :=
      fun moved os s0 s h =>
        State.alarmNote_quiet (State.alarmStart_quiet (State.placements_quiet h k issued.1 moved os) _ _) _ _ _ _
    generalize ht : (State.alarmNote k .sounding changed cause _) = t
    have q : Quiet (s1.settleFloors changed) t := by rw [← ht]; exact tail _ _ _ _ (Quiet.refl _)
    have tb : t.alarms.table = s1.alarms.table := by rw [q.table, State.settleFloors_eq]
    refine ⟨fun k' a => ?_, fun a => ?_⟩
    · rw [State.areaState_congr tb, t1]
      by_cases h : k' = k
      · subst h
        by_cases m : a ∈ areas
        · by_cases x : s.areaState k' a = .sounding
          · simp [m, x]
          · simp [m, (mem a).mpr ⟨m, x⟩]
        · have : a ∉ changed := fun h => m ((mem a).mp h).1
          simp [m, this]
      · simp [h]
    · rw [q.floors, State.settleFloors_floor, f1, State.floorFor_congr tb]
      simp only [mem]

/-- Withdrawing a kind from areas leaves it no claim at their outlets. -/
theorem State.withdraw_gone (s : State) (k : AlarmKind) (areas : List (Fin 16)) (o : Fin 256)
    (h : (s.outlets.get o).area ∈ areas) : hasOwner (.program k.slot) ((s.withdraw k areas).stack o) = false := by
  have m : o ∈ s.outletsIn areas := by
    unfold State.outletsIn; simpa using h
  unfold State.withdraw State.forAll
  generalize s.outletsIn areas = os at m
  have go : ∀ (os : List (Fin 256)) (s : State), (o ∈ os ∨ hasOwner (.program k.slot) (s.stack o) = false) →
      hasOwner (.program k.slot) ((os.foldl (fun s o =>
        s.restack o ((s.stack o).filter fun c => c.owner != .program k.slot)) s).stack o) = false := by
    intro os
    induction os with
    | nil => intro s h; simpa using h
    | cons x xs ih =>
      intro s h
      refine ih _ ?_
      rw [State.restack_stack]
      by_cases e : o = x
      · right; rw [if_pos e, hasOwner_nameStack]; simp [hasOwner]
      · rw [if_neg e]
        rcases h with h | h
        · rcases List.mem_cons.mp h with h | h
          · exact absurd h e
          · exact Or.inl h
        · exact Or.inr h
  exact go os s (Or.inl m)

theorem State.withdraw_quiet {s0 s : State} (h : Quiet s0 s) (k : AlarmKind) (areas : List (Fin 16)) :
    Quiet s0 (s.withdraw k areas) := by
  unfold State.withdraw
  exact State.forAll_quiet h _ _ fun o s h => State.restack_quiet h _ _
    (fun x => (List.length_filter_le _ _).trans (x o)) fun _ y => y.sublist o List.filter_sublist

/-! ### A silence and a reset -/

theorem State.alarmStop_free (s : State) (k : AlarmKind) (h : s.alarmTargets k = []) :
    ((s.alarmStop k).programs.get k.slot).state = .free := by
  unfold State.alarmStop
  split
  · next e => simpa [h] using e
  · simp [State.modProgram]

theorem State.alarmTargets_congr {s t : State} (h : t.alarms.table = s.alarms.table) (o : t.outlets = s.outlets)
    (k : AlarmKind) : t.alarmTargets k = s.alarmTargets k := by
  unfold State.alarmTargets State.areaState; rw [h, o]

theorem State.alarmNote_rest (s : State) (k : AlarmKind) (x : AreaState) (as : List (Fin 16)) (c : AlarmCause) :
    (State.alarmNote k x as c s).programs = s.programs ∧ (State.alarmNote k x as c s).claims = s.claims ∧
      (State.alarmNote k x as c s).alarms = s.alarms ∧ (State.alarmNote k x as c s).outlets = s.outlets ∧
      (State.alarmNote k x as c s).causeHas .alarm = true := by
  unfold State.alarmNote State.emitNote
  dsimp only
  refine ⟨?_, ?_, ?_, ?_, ?_⟩
  · split <;> [split; skip] <;> rfl
  · split <;> [split; skip] <;> rfl
  · split <;> [split; skip] <;> rfl
  · split <;> [split; skip] <;> rfl
  · simp [State.causeHas, State.setCause, CauseBit.pos]

/-- What a silence (`x` SILENCED) and a reset (`x` QUIET) leave, given the areas they change. -/
theorem State.withdrawal_areas (s : State) (k : AlarmKind) (x : AreaState) (changed : List (Fin 16))
    (cause : AlarmCause) :
    let t := ((((s.setAreas k x changed).settleFloors changed).withdraw k changed).alarmStop k).alarmNote k x changed
      cause
    (∀ k' a, t.areaState k' a = if k' = k ∧ a ∈ changed then x else s.areaState k' a) ∧
    (∀ a ∈ changed, t.claims.floors.get a = t.floorFor a) ∧
    (t.alarmTargets k = [] → (t.programs.get k.slot).state = .free) ∧ t.causeHas .alarm = true ∧
    ∀ o, (s.outlets.get o).area ∈ changed → hasOwner (.program k.slot) (t.stack o) = false := by
  intro t
  have q : Quiet ((s.setAreas k x changed).settleFloors changed) t :=
    State.alarmNote_quiet (State.alarmStop_quiet (State.withdraw_quiet (Quiet.refl _) _ _) _) _ _ _ _
  have tb : t.alarms.table = (s.setAreas k x changed).alarms.table := by rw [q.table, State.settleFloors_eq]
  have n := State.alarmNote_rest ((((s.setAreas k x changed).settleFloors changed).withdraw k changed).alarmStop k) k x
    changed cause
  refine ⟨fun k' a => ?_, fun a h => ?_, fun h => ?_, n.2.2.2.2, fun o h => ?_⟩
  · rw [State.areaState_congr tb, State.setAreas_areaState]
  · rw [q.floors, State.settleFloors_floor, if_pos h, State.floorFor_congr tb]
  · change ((State.alarmNote k x changed cause _).programs.get k.slot).state = _
    rw [n.1]
    apply State.alarmStop_free
    have e := State.alarmTargets_congr (t := t) (by rw [← n.2.2.1]) (by rw [← n.2.2.2.1]) k
    have q2 := State.alarmStop_quiet
      (Quiet.refl (((s.setAreas k x changed).settleFloors changed).withdraw k changed)) k
    rw [← State.alarmTargets_congr q2.table q2.outlets, ← e]
    exact h
  · change hasOwner _ ((State.alarmNote k x changed cause _).claims.stack.get o) = _
    have st : ∀ s : State, (s.alarmStop k).claims.stack = s.claims.stack := by
      intro s
      unfold State.alarmStop
      split
      · rfl
      · exact (State.releaseChannel_seats (State.releaseVoice_seats (Seats.refl s) _) _).stack
    rw [n.2.1, st]
    refine State.withdraw_gone _ k changed o ?_
    rw [State.settleFloors_eq]
    exact h

end Sys2Proof.Machine
end

