-- ==== Sys2Proof/Laws/Held.lean ====
section
/-! SUPPORT. What renamings leave of the voices and channels that someone holds, and what an alarm program that becomes FREE
gives back. -/

namespace Sys2Proof.Machine

/-! ### Voices and channels in use -/

/-- An act that leaves every voice that is held, gives none to an alarm, and leaves every channel's owner and a program's
channel in use. -/
structure Holds (s t : State) : Prop where
  voices : ∀ v, (s.tones.voices.get v).user ≠ .nobody → t.tones.voices.get v = s.tones.voices.get v
  alarms : ∀ v k, (t.tones.voices.get v).user = .alarm k → (s.tones.voices.get v).user = .alarm k
  owners : ∀ c, (t.channels.get c).owner = (s.channels.get c).owner
  uses : ∀ c p, (s.channels.get c).owner = some (.program p) →
    ((t.channels.get c).state = .free → (s.channels.get c).state = .free) ∧
    ((t.channels.get c).state = .ended → (s.channels.get c).state = .ended)

theorem Holds.refl (s : State) : Holds s s := ⟨fun _ _ => rfl, fun _ _ => id, fun _ => rfl, fun _ _ _ => ⟨id, id⟩⟩

/-- Voices and channels stand. -/
theorem Holds.same {s0 s t : State} (h : Holds s0 s) (v : t.tones.voices = s.tones.voices) (c : t.channels = s.channels) :
    Holds s0 t := by
  refine ⟨?_, ?_, ?_, ?_⟩
  · rw [v]; exact h.voices
  · rw [v]; exact h.alarms
  · rw [c]; exact h.owners
  · rw [c]; exact h.uses

theorem State.modProgram_holds {s0 s : State} (h : Holds s0 s) (p : Fin 64) (f : Program → Program) :
    Holds s0 (s.modProgram p f) :=
  h.same rfl rfl

theorem State.modTheatre_holds {s0 s : State} (h : Holds s0 s) (f : Theatre → Theatre) : Holds s0 (s.modTheatre f) :=
  h.same rfl rfl

theorem State.evalLine_holds {s0 s : State} (h : Holds s0 s) (o : Fin 256) : Holds s0 (s.evalLine o) :=
  h.same (by unfold State.evalLine; rw [State.setLine_tones]) (by unfold State.evalLine; rw [State.setLine_channels])

theorem State.setStack_holds {s0 s : State} (h : Holds s0 s) (o : Fin 256) (cs : List Claim) :
    Holds s0 (s.setStack o cs) :=
  h.same rfl rfl

theorem State.channelOf_owner {s : State} {w : ChanOwner} {c : Fin 16} (h : s.channelOf w = some c) :
    (s.channels.get c).owner = some w := by
  simpa using List.find?_some h

/-- The channel an owner holds follows from the channels' owners. -/
theorem State.channelOf_congr {s t : State} (h : ∀ c, (t.channels.get c).owner = (s.channels.get c).owner)
    (w : ChanOwner) : t.channelOf w = s.channelOf w := by
  unfold State.channelOf; simp only [h]

theorem State.voiceOf_user {s : State} {u : VoiceUser} {v : Fin 8} (h : s.voiceOf u = some v) :
    (s.tones.voices.get v).user = u := by
  simpa using List.find?_some h

/-- A user's only voice is the one it is found at. -/
theorem State.voiceOf_only {s : State} {u : VoiceUser} {v : Fin 8} (h : (s.tones.voices.get v).user = u)
    (k : ∀ w, (s.tones.voices.get w).user = u → w = v) : s.voiceOf u = some v := by
  cases e : s.voiceOf u with
  | some w => rw [k w (State.voiceOf_user e)]
  | none =>
    have := List.find?_eq_none.mp e v (List.mem_finRange v)
    simp [h] at this

theorem State.forAll_holds {α : Type} {s0 s : State} (h : Holds s0 s) (xs : List α) (f : α → State → State)
    (k : ∀ x s, Holds s0 s → Holds s0 (f x s)) : Holds s0 (s.forAll xs f) := by
  unfold State.forAll
  induction xs generalizing s with
  | nil => exact h
  | cons x xs ih => exact ih (k x s h)

/-- A signal that keeps the owner, given by a show source or one that neither frees nor ends a channel. -/
theorem State.signalOwner_holds {s0 s : State} (h : Holds s0 s) (w : ChanOwner) {f : Channel → Channel}
    (o : ∀ ch, (f ch).owner = ch.owner)
    (k : ∀ p, w = .program p → ∀ ch, ((f ch).state = .free → ch.state = .free) ∧ ((f ch).state = .ended → ch.state = .ended)) :
    Holds s0 (s.signalOwner w f) := by
  unfold State.signalOwner
  split
  · next c e =>
    refine ⟨h.voices, h.alarms, fun d => ?_, fun d p g => ?_⟩ <;> rw [State.modChannel_channels, Tab.get_modify] <;> split
    · rw [o]; exact h.owners d
    · exact h.owners d
    · next m =>
      subst m
      have w' : w = .program p := by
        have := State.channelOf_owner e
        rw [h.owners, g] at this
        exact (Option.some.inj this).symm
      exact ⟨fun x => (h.uses d p g).1 ((k p w' _).1 x), fun x => (h.uses d p g).2 ((k p w' _).2 x)⟩
    · exact h.uses d p g
  · exact h

theorem Channel.signalRun_owner (ch : Channel) : ch.signalRun.owner = ch.owner := by
  unfold Channel.signalRun; split <;> rfl

theorem Channel.signalPause_owner (ch : Channel) : ch.signalPause.owner = ch.owner := by
  unfold Channel.signalPause; split <;> rfl

theorem Channel.primeTest_owner (ch : Channel) : ch.primeTest.owner = ch.owner := by
  unfold Channel.primeTest; split <;> (try split) <;> rfl

theorem Channel.signalResume_owner (ch : Channel) : ch.signalResume.owner = ch.owner := by
  unfold Channel.signalResume; split <;> first | rfl | exact Channel.primeTest_owner _

theorem Channel.signalRun_uses (ch : Channel) :
    (ch.signalRun.state = .free → ch.state = .free) ∧ (ch.signalRun.state = .ended → ch.state = .ended) := by
  unfold Channel.signalRun Channel.onward
  split <;> (try split) <;> simp_all

theorem State.leaveOwing_holds {s0 s : State} (h : Holds s0 s) (v : Fin 8) : Holds s0 (s.leaveOwing v) := by
  unfold State.leaveOwing
  dsimp only
  split
  · exact h.same rfl rfl
  · exact h

/-- A free voice that is given away was held by nobody before. -/
theorem State.giveFree_holds {s0 s : State} (h : Holds s0 s) {v : Fin 8} (e : s.freeVoice = some v) {u : VoiceUser}
    (p : Fin 12) (k : ∀ a, u ≠ .alarm a) : Holds s0 (s.giveVoice v u p) := by
  have x := State.leaveOwing_holds h v
  unfold State.giveVoice
  refine ⟨fun w g => ?_, fun w a g => ?_, x.owners, x.uses⟩
  · have ne : w ≠ v := by
      rintro rfl
      have := State.voiceOf_user e
      rw [h.voices w g] at this
      exact g this
    rw [State.modVoice_tones]
    dsimp only
    rw [Tab.get_modify_ne _ ne]
    exact x.voices w g
  · rw [State.modVoice_tones] at g
    dsimp only at g
    rw [Tab.get_modify] at g
    split at g
    · exact absurd g (k a)
    · exact x.alarms w a g

theorem State.enterPlaying_holds {s0 s : State} (h : Holds s0 s) (p : Fin 64) : Holds s0 (s.enterPlaying p) := by
  unfold State.enterPlaying
  dsimp only
  split
  · exact State.modProgram_holds h _ _
  · split
    · exact State.signalOwner_holds (State.modProgram_holds h _ _) _ Channel.signalRun_owner fun _ _ =>
        Channel.signalRun_uses
    · exact State.modProgram_holds h _ _

theorem State.chimeStep_holds {s0 s : State} (h : Holds s0 s) (p : Fin 64) : Holds s0 (s.chimeStep p) := by
  unfold State.chimeStep
  split
  · exact State.enterPlaying_holds h p
  · split
    · next e => exact State.modProgram_holds (State.giveFree_holds h e (u := .chime p) _ nofun) _ _
    · exact State.enterPlaying_holds (State.modProgram_holds h _ _) p

theorem State.gatherTestOf_holds {s0 s : State} (h : Holds s0 s) (c : Option Claim) : Holds s0 (s.gatherTestOf c) := by
  unfold State.gatherTestOf State.gatherTest
  dsimp only
  split
  · split
    · exact State.chimeStep_holds h _
    · exact h
  · exact h

theorem State.countHeld_holds {s0 s : State} (h : Holds s0 s) (c : Option Claim) (f : Nat → Nat) :
    Holds s0 (s.countHeld c f) := by
  unfold State.countHeld
  split
  · exact State.modProgram_holds h _ _
  · exact h

theorem State.emitNote_holds {s0 s : State} (h : Holds s0 s) (k : NoteKind) (c n d : Nat) :
    Holds s0 (s.emitNote k c n d) :=
  h.same (by rw [State.emitNote_tones]) (State.emitNote_channels ..)

theorem State.reportDisplaced_holds {s0 s : State} (h : Holds s0 s) (o : Fin 256) (old new : Option Claim) :
    Holds s0 (s.reportDisplaced o old new) := by
  unfold State.reportDisplaced
  split
  · dsimp only
    split
    · unfold State.displaced
      split
      · exact h
      · refine State.emitNote_holds ?_ _ _ _ _
        unfold State.enterHeld
        refine State.forAll_holds (State.forAll_holds (State.modTheatre_holds h _) _ _ fun x s y => ?_) _ _ fun x s y =>
          State.modProgram_holds y _ _
        exact State.signalOwner_holds y _ Channel.signalPause_owner nofun
    · exact h
  · exact h

theorem State.resumeTest_holds {s0 s : State} (h : Holds s0 s) : Holds s0 s.resumeTest := by
  unfold State.resumeTest State.resumeShow
  split
  · split
    · split
      · refine State.emitNote_holds ?_ _ _ _ _
        unfold State.unholdPrograms
        refine State.forAll_holds (State.forAll_holds (State.modTheatre_holds h _) _ _ fun x s y => ?_) _ _ fun x s y =>
          State.modProgram_holds y _ _
        exact State.signalOwner_holds y _ Channel.signalResume_owner nofun
      · exact h
    · exact h
  · exact h

/-- A renaming takes no voice and no channel from the one that holds it. -/
theorem State.restack_holds {s0 s : State} (h : Holds s0 s) (o : Fin 256) (cs : List Claim) :
    Holds s0 (s.restack o cs) := by
  unfold State.restack
  repeat' first
    | with_reducible assumption | with_reducible refine State.setStack_holds ?_ _ _
    | with_reducible refine State.evalLine_holds ?_ _ | with_reducible refine State.resumeTest_holds ?_
    | with_reducible refine State.reportDisplaced_holds ?_ _ _ _ | with_reducible refine State.gatherTestOf_holds ?_ _
    | with_reducible refine State.countHeld_holds ?_ _ _ | split | intro _ | dsimp only

/-- A withdrawal takes no voice and no channel, and frees no program. -/
theorem State.withdraw_holds (s : State) (k : AlarmKind) (areas : List (Fin 16)) : Holds s (s.withdraw k areas) :=
  State.forAll_holds (Holds.refl s) _ _ fun _ _ h => State.restack_holds h _ _

theorem State.withdraw_steady (s : State) (k : AlarmKind) (areas : List (Fin 16)) : Steady s (s.withdraw k areas) :=
  State.forAll_steady (Steady.refl s) _ _ fun _ _ h => State.restack_steady h _ _

/-! ### An alarm program that becomes FREE -/

theorem Pattern.settle_owing (q : Pattern) : q.settle.owing = q.owing := by
  unfold Pattern.settle; split <;> simp_all

/-- A voice that has left the owing set of its pattern is not in it. -/
theorem State.leaveOwing_left (s : State) (v : Fin 8) :
    v ∉ ((s.leaveOwing v).tones.patterns.get (s.tones.voices.get v).pattern).owing := by
  unfold State.leaveOwing
  dsimp only
  split
  · rw [State.modPattern_tones]
    simp [Pattern.settle_owing]
  · next h => simpa using h

/-- A channel that its owner releases has no owner and no samples, and has ended or is FREE (R106). -/
theorem State.releaseChannel_given {s : State} {w : ChanOwner} {c : Fin 16} (h : s.channelOf w = some c)
    (f : (s.channels.get c).state ≠ .free) (e : (s.channels.get c).state ≠ .ended) :
    let ch := (s.releaseChannel w).channels.get c
    ch.owner = none ∧ ch.fifo = [] ∧ (ch.state = .ended ∨ ch.state = .free) := by
  unfold State.releaseChannel
  simp only [h]
  rw [if_neg (by simp [f, e])]
  unfold State.enterEnded State.freeIfDone
  dsimp only
  split <;> simp

/-- An alarm program that is not FREE, with its target set empty, becomes FREE and gives back what it held (R145). -/
theorem State.alarmStop_freed {s : State} {k : AlarmKind} (f : (s.programs.get k.slot).state ≠ .free)
    (e : s.alarmTargets k = []) : AlarmFreed s (s.alarmStop k) k := by
  unfold State.alarmStop
  rw [if_neg (by simp [f, e])]
  have rel : ∀ (s : State) w, (s.releaseChannel w).tones = s.tones := by
    intro s w
    unfold State.releaseChannel State.enterEnded State.freeIfDone State.discardTransfer
    dsimp only
    repeat' split
    all_goals rfl
  have voice : ∀ s : State, (s.releaseVoice (.alarm k)).channels = s.channels := by
    intro s
    unfold State.releaseVoice State.leaveOwing
    dsimp only
    repeat' split
    all_goals rfl
  refine ⟨by simp, by simp, by simp, fun v u only => ?_, fun c g a b => ?_⟩
  · simp only [State.modProgram_tones, State.modAlarm_tones, rel]
    unfold State.releaseVoice
    simp only [State.voiceOf_only u only]
    have left := State.leaveOwing_left s v
    refine ⟨by simp, by simp, ?_⟩
    simpa using left
  · simp only [State.modProgram_channels, State.modAlarm_channels]
    have same : (s.releaseVoice (.alarm k)).channelOf (.program k.slot) = some c :=
      (State.channelOf_congr (fun d => by rw [voice]) _).trans g
    exact State.releaseChannel_given same (by rw [voice]; exact a) (by rw [voice]; exact b)

/-- What an alarm program held before an act that takes nothing held, and gives back after it. -/
theorem AlarmFreed.before {s0 s t : State} {k : AlarmKind} (h : AlarmFreed s t k) (o : Holds s0 s) : AlarmFreed s0 t k := by
  refine ⟨h.free, h.phase, h.count, fun v u only => ?_, fun c g a b => ?_⟩
  · have held := o.voices v (by rw [u]; nofun)
    have := h.voice v (by rw [held]; exact u) fun w x => only w (o.alarms w k x)
    rwa [held] at this
  · have own := State.channelOf_owner g
    exact h.channel c ((State.channelOf_congr o.owners _).trans g) (fun x => a ((o.uses c _ own).1 x))
      fun x => b ((o.uses c _ own).2 x)

/-- A silence (`x` SILENCED) and a reset (`x` QUIET) leave the floors of other areas, and free a program with no target left
that was not FREE. -/
theorem State.withdrawal_freed (s : State) (k : AlarmKind) (x : AreaState) (changed : List (Fin 16)) (cause : AlarmCause) :
    let t := ((((s.setAreas k x changed).settleFloors changed).withdraw k changed).alarmStop k).alarmNote k x changed cause
    (∀ a, a ∉ changed → t.claims.floors.get a = s.claims.floors.get a) ∧
    ((s.programs.get k.slot).state ≠ .free → t.alarmTargets k = [] → AlarmFreed s t k) := by
  intro t
  have q : Quiet ((s.setAreas k x changed).settleFloors changed) t :=
    State.alarmNote_quiet (State.alarmStop_quiet (State.withdraw_quiet (Quiet.refl _) _ _) _) _ _ _ _
  refine ⟨fun a h => ?_, fun f e => ?_⟩
  · rw [q.floors, State.settleFloors_floor, if_neg h]; rfl
  · let u := ((s.setAreas k x changed).settleFloors changed).withdraw k changed
    have n := State.alarmNote_rest (u.alarmStop k) k x changed cause
    have q2 := State.alarmStop_quiet (Quiet.refl u) k
    have eu : u.alarmTargets k = [] := by
      rw [← State.alarmTargets_congr q2.table q2.outlets, ← State.alarmTargets_congr (t := t) (by rw [← n.2.2.1])
        (by rw [← n.2.2.2.1]) k]
      exact e
    have base : ((s.setAreas k x changed).settleFloors changed).programs = s.programs := by
      rw [State.settleFloors_eq]; rfl
    have busy : (u.programs.get k.slot).state ≠ .free := fun z => by
      have := (State.withdraw_steady ((s.setAreas k x changed).settleFloors changed) k changed).stands k.slot |>.busy z
      rw [base] at this
      exact f this
    have held : Holds s u := by
      refine State.forAll_holds ?_ _ _ fun _ _ h => State.restack_holds h _ _
      refine (Holds.refl s).same ?_ ?_ <;> rw [State.settleFloors_eq] <;> rfl
    have freed := (State.alarmStop_freed busy eu).before held
    have rest : t.tones = (u.alarmStop k).tones ∧ t.channels = (u.alarmStop k).channels := by
      unfold t State.alarmNote
      exact ⟨State.emitNote_tones .., State.emitNote_channels ..⟩
    refine ⟨by rw [n.1]; exact freed.free, by rw [n.2.2.1]; exact freed.phase, by rw [n.2.2.1]; exact freed.count, ?_, ?_⟩
    · rw [rest.1]; exact freed.voice
    · rw [rest.2]; exact freed.channel

end Sys2Proof.Machine
end

