-- ==== Sys2Proof/Laws/Aside.lean ====
section
/-! SUPPORT. What the acts of other blocks leave of an alarm kind: of its own program, of the voices and channels that alarms
may take, of the arrival numbers and of the claims. One lemma an act, in the form that composes. -/

namespace Sys2Proof.Machine

/-! ### Acts beside an alarm program -/

/-- What an act keeps of a program in a slot: its record, that it is FREE, that it is not, and that an alarm's PLAYS. -/
structure Program.Keeps (x y : Program) : Prop where
  free : x.state = .free → y.state = .free
  busy : y.state = .free → x.state = .free
  plays : x.kind = .alarm → x.state = .playing → y.state = .playing
  kind : y.kind = x.kind
  source : y.source = x.source
  priority : y.priority = x.priority
  arrival : y.arrival = x.arrival

theorem Program.Keeps.refl (x : Program) : x.Keeps x := ⟨id, id, fun _ h => h, rfl, rfl, rfl, rfl⟩

theorem Program.Keeps.trans {x y z : Program} (h : x.Keeps y) (k : y.Keeps z) : x.Keeps z :=
  ⟨fun e => k.free (h.free e), fun e => h.busy (k.busy e), fun e f => k.plays (h.kind.trans e) (h.plays e f),
    k.kind.trans h.kind, k.source.trans h.source, k.priority.trans h.priority, k.arrival.trans h.arrival⟩

/-- The claims of a stack that an owner has, but for their states. -/
def ownClaims (w : Owner) (cs : List Claim) : List Claim := (cs.map Claim.plain).filter fun c => c.owner == w

theorem ownClaims_nameStack (w : Owner) (floor : Nat) (cs : List Claim) :
    ownClaims w (nameStack floor cs) = ownClaims w cs := by
  unfold ownClaims; rw [nameStack_plain]

theorem hasOwner_ownClaims (w : Owner) (cs : List Claim) : hasOwner w cs = !(ownClaims w cs).isEmpty := by
  unfold hasOwner ownClaims
  rw [Bool.eq_iff_iff]
  simp [Claim.plain]

/-- An act seen from the alarm program in slot `g`: it keeps the Alarm Unit's state, the count of arrival numbers, that
program and the voices that alarms hold; it adds no claim, and takes none of that program's. -/
structure Beside (g : Fin 64) (s t : State) : Prop where
  alarms : t.alarms = s.alarms
  arrivals : t.claims.arrivals = s.claims.arrivals
  slot : (s.programs.get g).Keeps (t.programs.get g)
  held : ∀ v k, (s.tones.voices.get v).user = .alarm k → (t.tones.voices.get v).user = .alarm k
  fewer : ∀ o, ((t.stack o).map Claim.plain).Sublist ((s.stack o).map Claim.plain)
  own : ∀ o, ownClaims (.program g) (t.stack o) = ownClaims (.program g) (s.stack o)

/-- An act of other blocks: besides, it gives no alarm a voice and that program no channel, and takes no FREE channel. -/
structure Aside (g : Fin 64) (s t : State) : Prop extends Beside g s t where
  voices : ∀ v k, (t.tones.voices.get v).user = .alarm k → (s.tones.voices.get v).user = .alarm k
  owners : ∀ c, (t.channels.get c).owner = some (.program g) → (s.channels.get c).owner = some (.program g)
  spare : ∀ c, (s.channels.get c).state = .free → (t.channels.get c).state = .free

theorem Beside.refl (g : Fin 64) (s : State) : Beside g s s :=
  ⟨rfl, rfl, Program.Keeps.refl _, fun _ _ => id, fun _ => List.Sublist.refl _, fun _ => rfl⟩

theorem Aside.refl (g : Fin 64) (s : State) : Aside g s s := ⟨Beside.refl g s, fun _ _ => id, fun _ => id, fun _ => id⟩

theorem Beside.trans {g : Fin 64} {a b c : State} (h : Beside g a b) (k : Beside g b c) : Beside g a c :=
  ⟨k.alarms.trans h.alarms, k.arrivals.trans h.arrivals, h.slot.trans k.slot, fun v x e => k.held v x (h.held v x e),
    fun o => (k.fewer o).trans (h.fewer o), fun o => (k.own o).trans (h.own o)⟩

theorem Aside.trans {g : Fin 64} {a b c : State} (h : Aside g a b) (k : Aside g b c) : Aside g a c :=
  ⟨h.toBeside.trans k.toBeside, fun v x e => h.voices v x (k.voices v x e), fun x e => h.owners x (k.owners x e),
    fun x e => k.spare x (h.spare x e)⟩

variable {g : Fin 64} {s0 s : State}

theorem State.modProgram_aside (h : Aside g s0 s) (p : Fin 64) (f : Program → Program)
    (k : p = g → (s.programs.get g).Keeps (f (s.programs.get g))) : Aside g s0 (s.modProgram p f) := by
  refine { h with slot := ?_ }
  rw [State.modProgram_programs, Tab.get_modify]
  split
  · next e => subst e; exact h.slot.trans (k rfl)
  · exact h.slot

theorem State.modTheatre_aside (h : Aside g s0 s) (f : Theatre → Theatre) : Aside g s0 (s.modTheatre f) :=
  { h with }

theorem State.modCall_aside (h : Aside g s0 s) (c : Fin 16) (f : Call → Call) : Aside g s0 (s.modCall c f) :=
  { h with }

theorem State.modPattern_aside (h : Aside g s0 s) (p : Fin 12) (f : Pattern → Pattern) : Aside g s0 (s.modPattern p f) :=
  { h with }

theorem State.modVoice_aside (h : Aside g s0 s) (v : Fin 8) (f : Voice → Voice)
    (k : ∀ a, (f (s.tones.voices.get v)).user = .alarm a ↔ (s.tones.voices.get v).user = .alarm a) :
    Aside g s0 (s.modVoice v f) := by
  have e : ∀ w a, ((s.modVoice v f).tones.voices.get w).user = .alarm a ↔ (s.tones.voices.get w).user = .alarm a := by
    intro w a
    rw [State.modVoice_tones]
    dsimp only
    rw [Tab.get_modify]
    split
    · next m => rw [m]; exact k a
    · rfl
  exact { h with held := fun w a x => (e w a).mpr (h.held w a x), voices := fun w a x => h.voices w a ((e w a).mp x) }

theorem State.modChannel_aside (h : Aside g s0 s) (c : Fin 16) (f : Channel → Channel)
    (k : (f (s.channels.get c)).owner = some (.program g) → (s.channels.get c).owner = some (.program g))
    (j : (s.channels.get c).state = .free → (f (s.channels.get c)).state = .free) : Aside g s0 (s.modChannel c f) := by
  refine { h with owners := fun d e => h.owners d ?_, spare := fun d e => ?_ }
  · rw [State.modChannel_channels, Tab.get_modify] at e
    split at e
    · next m => rw [m] at e ⊢; exact k e
    · exact e
  · rw [State.modChannel_channels, Tab.get_modify]
    split
    · next m => rw [m] at e ⊢; exact j (h.spare c e)
    · exact h.spare d e

theorem State.setLine_aside (h : Aside g s0 s) (o : Fin 256) (b : Bool) : Aside g s0 (s.setLine o b) :=
  { h with }

theorem State.setStack_aside (h : Aside g s0 s) (o : Fin 256) (cs : List Claim)
    (k : (cs.map Claim.plain).Sublist ((s.stack o).map Claim.plain))
    (j : ownClaims (.program g) cs = ownClaims (.program g) (s.stack o)) : Aside g s0 (s.setStack o cs) := by
  have e : ∀ x, (s.setStack o cs).stack x = if x = o then cs else s.stack x := by
    intro x; unfold State.stack; rw [State.setStack_claims]; simp only [Tab.get_set]
  refine { h with fewer := fun x => ?_, own := fun x => ?_ } <;> rw [e] <;> split
  · next m => rw [m]; exact k.trans (h.fewer o)
  · exact h.fewer x
  · next m => rw [m]; exact j.trans (h.own o)
  · exact h.own x

theorem State.emitNote_aside (h : Aside g s0 s) (x : NoteKind) (c n d : Nat) : Aside g s0 (s.emitNote x c n d) := by
  refine ⟨⟨?_, ?_, ?_, ?_, ?_, ?_⟩, ?_, ?_, ?_⟩ <;>
    simp only [State.stack, State.emitNote_alarms, State.emitNote_claims, State.emitNote_programs, State.emitNote_tones,
      State.emitNote_channels]
  exacts [h.alarms, h.arrivals, h.slot, h.held, h.fewer, h.own, h.voices, h.owners, h.spare]

theorem State.forAll_aside {α : Type} (h : Aside g s0 s) (xs : List α) (f : α → State → State)
    (k : ∀ x ∈ xs, ∀ s, Aside g s0 s → Aside g s0 (f x s)) : Aside g s0 (s.forAll xs f) := by
  unfold State.forAll
  induction xs generalizing s with
  | nil => exact h
  | cons x xs ih =>
    exact ih (k x (List.mem_cons_self ..) s h) fun y m => k y (List.mem_cons_of_mem _ m)

theorem State.signalOwner_aside (h : Aside g s0 s) (w : ChanOwner) {f : Channel → Channel}
    (o : ∀ ch, (f ch).owner = ch.owner) (k : ∀ ch, ch.state = .free → (f ch).state = .free) :
    Aside g s0 (s.signalOwner w f) := by
  unfold State.signalOwner
  split
  · exact State.modChannel_aside h _ _ (by rw [o]; exact id) (k _)
  · exact h

theorem State.leaveOwing_voices (s : State) (v : Fin 8) : (s.leaveOwing v).tones.voices = s.tones.voices := by
  unfold State.leaveOwing; dsimp only; split <;> rfl

theorem State.leaveOwing_programs (s : State) (v : Fin 8) : (s.leaveOwing v).programs = s.programs := by
  unfold State.leaveOwing; dsimp only; split <;> rfl

theorem State.leaveOwing_aside (h : Aside g s0 s) (v : Fin 8) : Aside g s0 (s.leaveOwing v) := by
  unfold State.leaveOwing
  dsimp only
  split
  · exact State.modPattern_aside h _ _
  · exact h

/-- A voice that no alarm holds is given to a user that is none. -/
theorem State.giveVoice_aside (h : Aside g s0 s) {v : Fin 8} {u : VoiceUser} (p : Fin 12)
    (j : ∀ a, (s.tones.voices.get v).user ≠ .alarm a) (k : ∀ a, u ≠ .alarm a) : Aside g s0 (s.giveVoice v u p) :=
  State.modVoice_aside (State.leaveOwing_aside h v) v _ fun a => by
    rw [State.leaveOwing_voices]; exact ⟨fun e => absurd e (k a), fun e => absurd e (j a)⟩

theorem State.releaseVoice_aside (h : Aside g s0 s) {u : VoiceUser} (k : ∀ a, u ≠ .alarm a) :
    Aside g s0 (s.releaseVoice u) := by
  unfold State.releaseVoice
  split
  · next v e =>
    refine State.modVoice_aside (State.leaveOwing_aside h _) _ _ fun a => ?_
    rw [State.leaveOwing_voices, State.voiceOf_user e]
    exact ⟨nofun, fun e => absurd e (k a)⟩
  · exact h

/-- A program that enters PLAYING, or HELD with the show: any but a FREE one in the slot. -/
theorem State.enterPlaying_aside (h : Aside g s0 s) (p : Fin 64) (k : p = g → (s.programs.get g).state ≠ .free) :
    Aside g s0 (s.enterPlaying p) := by
  unfold State.enterPlaying
  dsimp only
  split
  · next e =>
    refine State.modProgram_aside h _ _ fun m => ?_
    have n := k m
    subst m
    exact ⟨fun x => absurd x n, nofun, fun x _ => (by simp [x] at e), rfl, rfl, rfl, rfl⟩
  · have base : Aside g s0 (s.modProgram p fun pr =>
        ({ pr with state := .playing, gatherTimer := none } : Program).startDuration) := by
      refine State.modProgram_aside h _ _ fun m => ?_
      have n := k m
      unfold Program.startDuration
      split <;> exact ⟨fun x => absurd x n, nofun, fun _ _ => rfl, rfl, rfl, rfl, rfl⟩
    split
    · exact State.signalOwner_aside base _ Channel.signalRun_owner fun ch x => by simp [Channel.signalRun, x]
    · exact base

theorem State.chimeStep_aside (h : Aside g s0 s) (p : Fin 64) (k : p = g → (s.programs.get g).state = .gathering) :
    Aside g s0 (s.chimeStep p) := by
  unfold State.chimeStep
  split
  · exact State.enterPlaying_aside h p fun m => by rw [k m]; nofun
  · split
    · next e =>
      refine State.modProgram_aside (State.giveVoice_aside h (u := .chime p) _
        (by rw [State.voiceOf_user e]; nofun) nofun) _ _ fun m => ?_
      have n := k m
      rw [show (State.giveVoice _ _ _ s).programs = s.programs from State.leaveOwing_programs s _]
      exact ⟨fun x => by simp [n] at x, nofun, fun _ x => by simp [n] at x, rfl, rfl, rfl, rfl⟩
    · refine State.enterPlaying_aside (State.modProgram_aside h _ _ fun _ => ⟨id, id, fun _ x => x, rfl, rfl, rfl, rfl⟩) p
        fun m => ?_
      subst m
      rw [State.modProgram_programs, Tab.get_modify_self]
      simp [k rfl]

theorem State.gatherTest_aside (h : Aside g s0 s) (p : Fin 64) : Aside g s0 (s.gatherTest p) := by
  unfold State.gatherTest
  dsimp only
  split
  · next e => exact State.chimeStep_aside h p fun m => by subst m; simp at e; exact e.1.1
  · exact h

theorem State.gatherTestOf_aside (h : Aside g s0 s) (c : Option Claim) : Aside g s0 (s.gatherTestOf c) := by
  unfold State.gatherTestOf
  split
  · exact State.gatherTest_aside h _
  · exact h

theorem State.countHeld_aside (h : Aside g s0 s) (c : Option Claim) (f : Nat → Nat) : Aside g s0 (s.countHeld c f) := by
  unfold State.countHeld
  split
  · exact State.modProgram_aside h _ _ fun _ => ⟨id, id, fun _ x => x, rfl, rfl, rfl, rfl⟩
  · exact h

/-- The SHOW programs change, and an alarm's program is none. -/
theorem State.forShow_aside (h : Aside g s0 s) (f : Program → Program)
    (k : ∀ x : Program, x.kind = .theatre → x.Keeps (f x)) :
    Aside g s0 (s.forAll s.showPrograms fun p s => s.modProgram p f) := by
  by_cases e : (s0.programs.get g).kind = .theatre
  · exact State.forAll_aside h _ _ fun p _ t x => State.modProgram_aside x p f fun _ => k _ (x.slot.kind.trans e)
  · refine State.forAll_aside h _ _ fun p m t x => State.modProgram_aside x p f fun y => ?_
    subst y
    have t := (List.mem_filter.mp m).2
    simp only [Bool.and_eq_true, beq_iff_eq] at t
    exact absurd (h.slot.kind.symm.trans t.1) e

theorem State.enterHeld_aside (h : Aside g s0 s) (r : HoldRecord) : Aside g s0 (s.enterHeld r) := by
  unfold State.enterHeld
  refine State.forShow_aside (State.forAll_aside (State.modTheatre_aside h _) _ _ fun x _ t y =>
    State.signalOwner_aside y _ Channel.signalPause_owner fun ch x => by simp [Channel.signalPause, x]) _ fun x e => ?_
  split
  · next y => exact ⟨fun z => by simp [z] at y, nofun, fun z => by simp [e] at z, rfl, rfl, rfl, rfl⟩
  · exact Program.Keeps.refl _

theorem State.displaced_aside (h : Aside g s0 s) (p : Fin 64) (o : Fin 256) : Aside g s0 (s.displaced p o) := by
  unfold State.displaced
  split
  · exact h
  · exact State.emitNote_aside (State.enterHeld_aside h _) _ _ _ _

theorem State.reportDisplaced_aside (h : Aside g s0 s) (o : Fin 256) (old new : Option Claim) :
    Aside g s0 (s.reportDisplaced o old new) := by
  unfold State.reportDisplaced
  split
  · dsimp only
    split
    · exact State.displaced_aside h _ _
    · exact h
  · exact h

theorem State.resumeTest_aside (h : Aside g s0 s) : Aside g s0 s.resumeTest := by
  unfold State.resumeTest State.resumeShow State.unholdPrograms
  split
  · split
    · split
      · refine State.emitNote_aside (State.forShow_aside (State.forAll_aside (State.modTheatre_aside h _) _ _
          fun x _ t y => State.signalOwner_aside y _ Channel.signalResume_owner fun ch x => by
            simp [Channel.signalResume, x]) _ fun x e => ?_) _ _ _ _
        split
        · next y =>
          unfold Program.startDuration
          split <;> exact ⟨fun z => by simp [z] at y, nofun, fun z => by simp [e] at z, rfl, rfl, rfl, rfl⟩
        · exact Program.Keeps.refl _
      · exact h
    · exact h
  · exact h

theorem State.evalLine_aside (h : Aside g s0 s) (o : Fin 256) : Aside g s0 (s.evalLine o) := by
  unfold State.evalLine; exact State.setLine_aside h _ _

/-- What follows the naming of a stack: the reports of R54. -/
theorem State.restack_reports (o : Fin 256) (cs : List Claim) :
    Aside g (s.setStack o (nameStack (s.lockFloor o) cs)) (s.restack o cs) := by
  unfold State.restack
  dsimp only
  have base := State.reportDisplaced_aside (State.evalLine_aside (State.gatherTestOf_aside (State.gatherTestOf_aside
    (State.countHeld_aside (State.countHeld_aside (Aside.refl g (s.setStack o (nameStack (s.lockFloor o) cs)))
      (s.holder o) (· - 1)) (holderIn (nameStack (s.lockFloor o) cs)) (· + 1)) (s.holder o))
      (holderIn (nameStack (s.lockFloor o) cs))) o) o (s.holder o) (holderIn (nameStack (s.lockFloor o) cs))
  split
  · exact State.evalLine_aside (Aside.refl _ _) _
  · split
    · exact State.resumeTest_aside base
    · exact base

/-- Some of a stack's claims, the program's own among them, are named again. -/
theorem State.restack_aside (h : Aside g s0 s) (o : Fin 256) (cs : List Claim) (k : cs.Sublist (s.stack o))
    (j : ownClaims (.program g) cs = ownClaims (.program g) (s.stack o)) : Aside g s0 (s.restack o cs) :=
  (State.setStack_aside h o (nameStack (s.lockFloor o) cs) (by rw [nameStack_plain]; exact k.map _)
    (by rw [ownClaims_nameStack]; exact j)).trans (State.restack_reports o cs)

theorem State.rename_aside (h : Aside g s0 s) (o : Fin 256) : Aside g s0 (s.rename o) :=
  State.restack_aside h o _ (List.Sublist.refl _) rfl

theorem State.removeAll_aside (h : Aside g s0 s) {w : Owner} (k : w ≠ .program g) : Aside g s0 (s.removeAll w) := by
  unfold State.removeAll
  refine State.forAll_aside h _ _ fun o _ t x => ?_
  unfold State.removeClaim
  split
  · refine State.restack_aside x o _ List.filter_sublist ?_
    unfold ownClaims
    induction t.stack o with
    | nil => rfl
    | cons c cs ih =>
      by_cases e : c.owner = w
      · rw [List.filter_cons_of_neg (by simp [e]), List.map_cons, List.filter_cons_of_neg (by simp [e, Claim.plain, k])]
        exact ih
      · rw [List.filter_cons_of_pos (by simp [e]), List.map_cons, List.map_cons, List.filter_cons, List.filter_cons, ih]
  · exact x

theorem State.freeIfDone_aside (h : Aside g s0 s) (c : Fin 16) : Aside g s0 (s.freeIfDone c) := by
  unfold State.freeIfDone
  dsimp only
  split
  · exact State.modChannel_aside h _ _ nofun fun _ => rfl
  · exact h

theorem State.discardTransfer_aside (h : Aside g s0 s) (c : Fin 16) (b : Bool) : Aside g s0 (s.discardTransfer c b) := by
  unfold State.discardTransfer
  split
  · split
    · exact { h with }
    · exact h
  · exact h

theorem State.releaseChannel_aside (h : Aside g s0 s) (w : ChanOwner) : Aside g s0 (s.releaseChannel w) := by
  unfold State.releaseChannel State.enterEnded
  split
  · next c _ =>
    dsimp only
    split
    · exact h
    · next e =>
      have same : (s.discardTransfer c true).channels = s.channels := by
        unfold State.discardTransfer; split <;> [split; skip] <;> rfl
      exact State.freeIfDone_aside (State.modChannel_aside (State.discardTransfer_aside h _ _) _ _ (fun x => by simp at x)
        fun x => by rw [same] at x; simp [x] at e) _
  · exact h

theorem State.leaveHoldSet_aside (h : Aside g s0 s) (p : Fin 64) : Aside g s0 (s.leaveHoldSet p) := by
  unfold State.leaveHoldSet
  split
  · split
    · exact State.resumeTest_aside (State.modTheatre_aside h _)
    · exact h
  · exact h

theorem State.requestReturn_aside (h : Aside g s0 s) (l : ListId) (r : Return) : Aside g s0 (s.requestReturn l r) := by
  have base : ∀ x : ListEngine, Aside g s0 { s with lists := x } := fun _ =>
    { h with }
  unfold State.requestReturn
  dsimp only
  split
  · split
    · unfold State.setStage; exact base _
    · exact base _
  · exact base _

/-- Another program ends. -/
theorem State.endProgram_aside (h : Aside g s0 s) {p : Fin 64} (k : p ≠ g) (code : Nat) :
    Aside g s0 (s.endProgram p code) := by
  unfold State.endProgram
  split
  · exact h
  · have base := State.leaveHoldSet_aside (State.modProgram_aside (State.releaseChannel_aside (State.releaseVoice_aside
      (State.removeAll_aside h (w := .program p) fun e => k (Owner.program.inj e)) (u := .chime p) nofun) (.program p)) p
      (fun pr => { reservation := pr.reservation }) fun m => absurd m k) p
    dsimp only
    split
    · exact State.requestReturn_aside base _ _
    · unfold State.reportPageEnd
      split
      · dsimp only
        split
        · exact State.modCall_aside base _ _
        · exact base
      · exact base

theorem State.evicted_aside (h : Aside g s0 s) (b : 59 ≤ g.val) (w : Owner) : Aside g s0 (s.evicted w) := by
  unfold State.evicted
  split
  · split
    · next p e =>
      have n : p ≠ g := fun m => by subst m; omega
      have base := State.modProgram_aside h p (fun pr => { pr with admitted := pr.admitted - 1 }) fun m => absurd m n
      dsimp only
      split
      · exact State.endProgram_aside base n _
      · exact State.gatherTest_aside base _
    · exact h
  · exact State.modCall_aside h _ _

end Sys2Proof.Machine
end

