-- ==== Sys2Proof/Laws/AlarmActs.lean ====
section
/-! SUPPORT. What the acts on the area table do, in the terms of `AlarmRaised` and `AlarmCleared`: a raise in the areas
where a kind does not sound, and a silence or a reset in those it changes (`State.raise_spec`, `State.silence_spec`,
`State.quieten_spec`). -/

namespace Sys2Proof.Machine

variable {g : Fin 64} {s0 s : State}

/-! ### The requests of an alarm program -/

theorem State.chimeLost_aside (h : Aside g s0 s) (p : Fin 64) (k : p = g → (s.programs.get g).state ≠ .free) :
    Aside g s0 (s.chimeLost p) := by
  unfold State.chimeLost
  refine State.enterPlaying_aside (State.modProgram_aside h _ _ fun _ => ⟨id, id, fun _ x => x, rfl, rfl, rfl, rfl⟩) p
    fun m => ?_
  subst m
  rw [State.modProgram_programs, Tab.get_modify_self]
  exact k rfl

/-- A voice that no alarm holds is given to one, which holds it then. -/
theorem State.giveVoice_beside (s : State) {v : Fin 8} (k : AlarmKind) (p : Fin 12)
    (j : ∀ a, (s.tones.voices.get v).user ≠ .alarm a) :
    Beside g s (s.giveVoice v (.alarm k) p) ∧ ((s.giveVoice v (.alarm k) p).tones.voices.get v).user = .alarm k := by
  have e : ∀ w, (s.giveVoice v (.alarm k) p).tones.voices.get w =
      if w = v then { user := .alarm k, mode := .starting false, pattern := p } else s.tones.voices.get w := by
    intro w
    unfold State.giveVoice
    rw [State.modVoice_tones]
    dsimp only
    rw [Tab.get_modify, State.leaveOwing_voices]
  refine ⟨{ (State.leaveOwing_aside (Aside.refl g s) v).toBeside with held := fun w a x => ?_ }, by rw [e, if_pos rfl]⟩
  rw [e]
  split
  · next m => rw [m] at x; exact absurd x (j a)
  · exact x

/-- The chime voice to be taken is one, and there is none only where no voice is a chime's (R137). -/
theorem State.chimeVictim_spec (s : State) :
    (∀ b, s.chimeVictim = some b → (s.tones.voices.get b.1).user = .chime b.2) ∧
    (s.chimeVictim = none → ∀ v p, (s.tones.voices.get v).user ≠ .chime p) := by
  unfold State.chimeVictim
  generalize hf : (fun (best : Option (Fin 8 × Fin 64)) (v : Fin 8) =>
    match (s.tones.voices.get v).user with
    | .chime p =>
      match best with
      | none => some (v, p)
      | some b => if (s.programs.get p).priority ≤ (s.programs.get b.2).priority then some (v, p) else best
    | _ => best) = f
  have chime : ∀ best v p, (s.tones.voices.get v).user = .chime p →
      f best v = some (v, p) ∨ (f best v = best ∧ best ≠ none) := by
    intro best v p u
    rw [← hf]
    cases best with
    | none => simp [u]
    | some b => simp only [u]; split <;> simp
  have other : ∀ best v, (∀ p, (s.tones.voices.get v).user ≠ .chime p) → f best v = best := by
    intro best v u
    rw [← hf]
    cases e : (s.tones.voices.get v).user <;> simp
  have go : ∀ (vs : List (Fin 8)) (best : Option (Fin 8 × Fin 64)),
      (∀ b, best = some b → (s.tones.voices.get b.1).user = .chime b.2) →
      (∀ b, vs.foldl f best = some b → (s.tones.voices.get b.1).user = .chime b.2) ∧
      (vs.foldl f best = none → best = none ∧ ∀ v ∈ vs, ∀ p, (s.tones.voices.get v).user ≠ .chime p) := by
    intro vs
    induction vs with
    | nil => exact fun best k => ⟨k, fun e => ⟨e, nofun⟩⟩
    | cons v vs ih =>
      intro best k
      rw [List.foldl_cons]
      by_cases u : ∃ p, (s.tones.voices.get v).user = .chime p
      · obtain ⟨p, u⟩ := u
        rcases chime best v p u with e | ⟨e, n⟩ <;> rw [e]
        · have x := ih (some (v, p)) fun b m => by cases m; exact u
          exact ⟨x.1, fun m => absurd (x.2 m).1 nofun⟩
        · exact ⟨(ih best k).1, fun m => absurd ((ih best k).2 m).1 n⟩
      · have u : ∀ p, (s.tones.voices.get v).user ≠ .chime p := fun p m => u ⟨p, m⟩
        rw [other best v u]
        refine ⟨(ih best k).1, fun m => ⟨((ih best k).2 m).1, fun w h => ?_⟩⟩
        rcases List.mem_cons.mp h with h | h
        · rw [h]; exact u
        · exact ((ih best k).2 m).2 w h
  have x := go (allFin 8) none nofun
  exact ⟨x.1, fun m v => (x.2 m).2 v (List.mem_finRange v)⟩

/-- A kind's request for a voice, whose program is not FREE: it is given one where some voice is no alarm's (R137). -/
theorem State.alarmVoice_beside (s : State) (k : AlarmKind) (p : Fin 12) (n : (s.programs.get g).state ≠ .free) :
    Beside g s (s.alarmVoice k p) ∧
    ((∃ v, ∀ a, (s.tones.voices.get v).user ≠ .alarm a) → ∃ v, ((s.alarmVoice k p).tones.voices.get v).user = .alarm k) ∧
    ∀ c, (s.channels.get c).state = .free → ((s.alarmVoice k p).channels.get c).state = .free := by
  have give : ∀ v, (∀ a, (s.tones.voices.get v).user ≠ .alarm a) → Beside g s (s.giveVoice v (.alarm k) p) ∧
      ((s.giveVoice v (.alarm k) p).tones.voices.get v).user = .alarm k := fun v j => State.giveVoice_beside s k p j
  have chan : ∀ v, (s.giveVoice v (.alarm k) p).channels = s.channels := fun v => by
    unfold State.giveVoice State.leaveOwing; dsimp only; split <;> rfl
  unfold State.alarmVoice
  split
  · next v e =>
    have x := give v (by rw [State.voiceOf_user e]; nofun)
    exact ⟨x.1, fun _ => ⟨v, x.2⟩, fun c e => by rw [chan]; exact e⟩
  · next noFree =>
    split
    · next v q e =>
      have x := give v (by rw [(State.chimeVictim_spec s).1 _ e]; nofun)
      have y := State.chimeLost_aside (Aside.refl g (s.giveVoice v (.alarm k) p)) q fun _ f => n (x.1.slot.busy f)
      exact ⟨x.1.trans y.toBeside, fun _ => ⟨v, y.held v k x.2⟩, fun c e => y.spare c (by rw [chan]; exact e)⟩
    · next noChime =>
      split
      · next v e =>
        have x := give v (by rw [State.voiceOf_user e]; nofun)
        exact ⟨x.1, fun _ => ⟨v, x.2⟩, fun c e => by rw [chan]; exact e⟩
      · next noRing =>
        refine ⟨Beside.refl g s, fun ⟨v, j⟩ => ?_, fun _ => id⟩
        exfalso
        cases u : (s.tones.voices.get v).user with
        | nobody =>
          have := List.find?_eq_none.mp noFree v (List.mem_finRange v)
          simp [u] at this
        | ring =>
          have := List.find?_eq_none.mp noRing v (List.mem_finRange v)
          simp [u] at this
        | alarm a => exact j a u
        | chime q =>
          exact (State.chimeVictim_spec s).2 noChime v q u

theorem State.toRead_channels (s : State) (c : Fin 16) (a : Nat) (d : Fin 16) :
    ((s.toRead c a).channels.get d).owner = (s.channels.get d).owner := by
  unfold State.toRead State.chainFault
  split <;> simp only [State.emitNote_channels, State.modChannel_channels, Tab.get_modify] <;> split
  · next m => rw [m]
  · rfl
  · next m => rw [m, Channel.primeTest_owner]
  · rfl

theorem State.bindTo_beside (s : State) (c : Fin 16) (w : ChanOwner) (d : StreamDesc) :
    Beside g s (s.bindTo c w d) ∧ ((s.bindTo c w d).channels.get c).owner = some w := by
  refine ⟨?_, ?_⟩
  · unfold State.bindTo State.toRead State.chainFault
    have base : Beside g s (s.modChannel c fun _ =>
        { state := .priming, owner := some w, desc := d, passes := passesFor w d : Channel }) := { Beside.refl g s with }
    split
    · exact { base with }
    · have fault : Beside g s (State.modChannel c (fun ch => ({ ch with fetchEnded := true } : Channel).primeTest)
          (s.modChannel c fun _ => { state := .priming, owner := some w, desc := d, passes := passesFor w d : Channel })) :=
        { base with }
      exact fault.trans (State.emitNote_aside (Aside.refl g _) _ _ _ _).toBeside
  · unfold State.bindTo
    rw [State.toRead_channels, State.modChannel_channels, Tab.get_modify_self]

theorem State.seizureVictim_seizable {s : State} {c : Fin 16} (h : s.seizureVictim = some c) : s.seizable c = true := by
  unfold State.seizureVictim at h
  generalize hf : (fun (best : Option (Fin 16)) (c : Fin 16) =>
    match best with
    | none => some c
    | some b => if s.ownerPriority (s.channels.get c) ≤ s.ownerPriority (s.channels.get b) then some c else best) = f at h
  have one : ∀ best c, f best c = some c ∨ f best c = best := by
    intro best c
    rw [← hf]
    cases best with
    | none => exact Or.inl rfl
    | some b => dsimp only; split <;> simp
  have go : ∀ (cs : List (Fin 16)) (best : Option (Fin 16)), (∀ c ∈ cs, s.seizable c = true) →
      (∀ c, best = some c → s.seizable c = true) → ∀ c, cs.foldl f best = some c → s.seizable c = true := by
    intro cs
    induction cs with
    | nil => exact fun best _ k c e => k c e
    | cons x xs ih =>
      intro best h k c e
      refine ih (f best x) (fun c m => h c (List.mem_cons_of_mem _ m)) (fun c m => ?_) c e
      rcases one best x with y | y <;> rw [y] at m
      · cases m; exact h x (List.mem_cons_self ..)
      · exact k c m
  exact go _ none (fun c m => (List.mem_filter.mp m).2) (fun _ e => by cases e) c h

/-- A kind's request for a channel takes a FREE one, if there is any (R99, R109). -/
theorem State.alarmBind_beside (s : State) (k : AlarmKind) (d : StreamDesc) :
    Beside k.slot s (s.alarmBind k d) ∧
    ((∃ c, (s.channels.get c).state = .free) → ∃ c, ((s.alarmBind k d).channels.get c).owner = some (.program k.slot)) := by
  unfold State.alarmBind
  dsimp only
  split
  · next c _ =>
    have x := State.bindTo_beside (g := k.slot) s c (.program k.slot) d
    exact ⟨x.1, fun _ => ⟨c, x.2⟩⟩
  · next noFree =>
    have busy : ¬ ∃ c, (s.channels.get c).state = .free := by
      rintro ⟨c, e⟩
      have := List.find?_eq_none.mp noFree c (List.mem_finRange c)
      simp [e] at this
    refine ⟨?_, fun h => absurd h busy⟩
    split
    · exact Beside.refl _ s
    · next c victim =>
      have base : Beside k.slot s ((s.discardTransfer c false).bindTo c (.program k.slot) d) :=
        (State.discardTransfer_aside (Aside.refl _ s) c false).toBeside.trans (State.bindTo_beside _ c _ d).1
      split
      · next p owner =>
        have seizable := State.seizureVictim_seizable victim
        have ne : p ≠ k.slot := by
          rintro rfl
          unfold State.seizable Channel.ownedByAlarm at seizable
          dsimp only at seizable
          rw [owner] at seizable
          cases k <;> simp [AlarmKind.slot] at seizable
        exact base.trans (State.endProgram_aside (Aside.refl _ _) ne _).toBeside
      · exact base.trans (State.emitNote_aside (Aside.refl _ _) _ _ _ _).toBeside
      · exact base

/-! ### The placements of a raise -/

theorem AlarmKind.slot_mic (k : AlarmKind) : 59 ≤ k.slot.val := by cases k <;> decide

theorem AlarmKind.audience_takes {k : AlarmKind} {o : OutletKind} (h : k.audience o = true) : o.takesClaims = true := by
  cases k <;> cases o <;> simp_all [AlarmKind.audience, OutletKind.takesClaims]

theorem Claim.plain_owner (c : Claim) : c.plain.owner = c.owner := rfl

theorem ownClaims_of_not {w : Owner} {cs : List Claim} (h : hasOwner w cs = false) : ownClaims w cs = [] := by
  rw [hasOwner_ownClaims] at h; simpa using h

theorem insertClaim_perm (c : Claim) (cs : List Claim) : (insertClaim c cs).Perm (c :: cs) := by
  induction cs with
  | nil => exact List.Perm.refl _
  | cons d ds ih =>
    unfold insertClaim
    split
    · exact List.Perm.refl _
    · exact (ih.cons d).trans (List.Perm.swap c d ds)

/-- A claim put among claims of which its owner has none is its owner's only one. -/
theorem ownClaims_insert {w : Owner} {c : Claim} {cs : List Claim} (e : c.owner = w) (h : hasOwner w cs = false) :
    ownClaims w (insertClaim c cs) = [c.plain] := by
  have p : (ownClaims w (insertClaim c cs)).Perm (ownClaims w (c :: cs)) :=
    ((insertClaim_perm c cs).map _).filter _
  have q : ownClaims w (c :: cs) = c.plain :: ownClaims w cs := by
    unfold ownClaims
    rw [List.map_cons, List.filter_cons_of_pos (by simp [Claim.plain_owner, e])]
  rw [q, ownClaims_of_not h] at p
  exact List.perm_singleton.mp p

theorem hasOwner_sublist {w : Owner} {cs ds : List Claim} (s : cs.Sublist ds) (h : hasOwner w ds = false) :
    hasOwner w cs = false := by
  unfold hasOwner at *
  simp only [List.any_eq_false] at *
  exact fun c m => h c (s.subset m)

/-- A claim of a kind has room in a stack: a place, or a last claim of lower priority (R51, R55). -/
def AlarmKind.room (k : AlarmKind) (cs : List Claim) : Prop :=
  cs.length < 8 ∨ (cs.length = 8 ∧ ∃ last, cs.getLast? = some last ∧ last.priority < k.priority)

/-- The placement of a kind's claim at an outlet: it is refused, or it is put into the stack where the kind had none. -/
theorem State.placeAlarm_spec (s : State) (k : AlarmKind) (n : Nat) (o : Fin 256)
    (e : k.audience (s.outlets.get o).kind = true) :
    (s.placeAlarm k n o = (false, s) ∧ (k.room (s.stack o) → hasOwner (.program k.slot) (s.stack o) = true)) ∨
    ((s.placeAlarm k n o).1 = true ∧ hasOwner (.program k.slot) (s.stack o) = false ∧
      ∃ cs, ownClaims (.program k.slot) cs = [(k.claim n).plain] ∧
        Aside k.slot (s.setStack o cs) (s.placeAlarm k n o).2) := by
  have takes := AlarmKind.audience_takes e
  have counted : ∀ t, Aside k.slot t (t.modProgram k.slot fun pr => { pr with admitted := pr.admitted + 1 }) := fun t =>
    State.modProgram_aside (Aside.refl _ t) _ _ fun _ => ⟨id, id, fun _ x => x, rfl, rfl, rfl, rfl⟩
  have named : ∀ cs, hasOwner (.program k.slot) cs = false →
      ownClaims (.program k.slot) (nameStack (s.lockFloor o) (insertClaim (k.claim n) cs)) = [(k.claim n).plain] :=
    fun cs h => by rw [ownClaims_nameStack]; exact ownClaims_insert rfl h
  unfold State.placeAlarm State.place
  dsimp only
  by_cases own : hasOwner (.program k.slot) (s.stack o) = true
  · left
    rw [if_pos (by simp only [AlarmKind.claim, own, Bool.or_true])]
    exact ⟨by simp, fun _ => own⟩
  · have own : hasOwner (.program k.slot) (s.stack o) = false := by simpa using own
    rw [if_neg (by simp [AlarmKind.claim, own, takes])]
    by_cases short : (s.stack o).length < 8
    · right
      rw [if_pos short]
      exact ⟨rfl, own, _, named _ own, (State.restack_reports o _).trans (counted _)⟩
    · rw [if_neg short]
      cases last : (s.stack o).getLast? with
      | none =>
        left
        refine ⟨by simp, fun r => ?_⟩
        rcases r with r | ⟨-, l, r, -⟩
        · exact absurd r short
        · rw [last] at r; cases r
      | some l =>
        dsimp only
        by_cases low : l.priority < (k.claim n).priority
        · right
          simp only [if_pos low]
          have own' := hasOwner_sublist (List.dropLast_sublist (s.stack o)) own
          exact ⟨trivial, own, _, named _ own',
            ((State.restack_reports o _).trans (State.evicted_aside (Aside.refl _ _) k.slot_mic l.owner)).trans (counted _)⟩
        · left
          simp only [if_neg low]
          refine ⟨by simp, fun r => ?_⟩
          rcases r with r | ⟨-, l', r, r'⟩
          · exact absurd r short
          · rw [last] at r; cases r; exact absurd r' low

/-- What the placements of a raise leave after the outlets of `xs`, the acts `m` named again among them. -/
structure Raising (k : AlarmKind) (n : Nat) (b s : State) (done : List (Fin 256)) : Prop where
  alarms : s.alarms = b.alarms
  outlets : s.outlets = b.outlets
  arrivals : s.claims.arrivals = b.claims.arrivals
  slot : (b.programs.get k.slot).Keeps (s.programs.get k.slot)
  held : ∀ v a, (b.tones.voices.get v).user = .alarm a → (s.tones.voices.get v).user = .alarm a
  voices : ∀ v a, (s.tones.voices.get v).user = .alarm a → (b.tones.voices.get v).user = .alarm a
  owners : ∀ c, (s.channels.get c).owner = some (.program k.slot) → (b.channels.get c).owner = some (.program k.slot)
  spare : ∀ c, (b.channels.get c).state = .free → (s.channels.get c).state = .free
  fewer : ∀ o ∉ done, ((s.stack o).map Claim.plain).Sublist ((b.stack o).map Claim.plain)
  own : ∀ o, (o ∉ done ∨ k.audience (b.outlets.get o).kind = false ∨ hasOwner (.program k.slot) (b.stack o) = true) →
    ownClaims (.program k.slot) (s.stack o) = ownClaims (.program k.slot) (b.stack o)
  placed : ∀ o ∈ done, hasOwner (.program k.slot) (b.stack o) = false →
    ownClaims (.program k.slot) (s.stack o) = [] ∨ ownClaims (.program k.slot) (s.stack o) = [(k.claim n).plain]
  room : ∀ o ∈ done, k.audience (b.outlets.get o).kind = true → k.room (b.stack o) →
    ownClaims (.program k.slot) (s.stack o) ≠ []

theorem Raising.aside {k : AlarmKind} {n : Nat} {b s t : State} {done : List (Fin 256)} (h : Raising k n b s done)
    (a : Aside k.slot s t) (o : t.outlets = s.outlets) : Raising k n b t done :=
  ⟨a.alarms.trans h.alarms, o.trans h.outlets, a.arrivals.trans h.arrivals, h.slot.trans a.slot,
    fun v x e => a.held v x (h.held v x e), fun v x e => h.voices v x (a.voices v x e),
    fun c e => h.owners c (a.owners c e), fun c e => a.spare c (h.spare c e),
    fun x m => (a.fewer x).trans (h.fewer x m), fun x m => (a.own x).trans (h.own x m),
    fun x m e => by rw [a.own x]; exact h.placed x m e, fun x m e r => by rw [a.own x]; exact h.room x m e r⟩

/-- A stack from which claims may have gone has room where it had. -/
theorem AlarmKind.room_fewer {k : AlarmKind} {cs ds : List Claim} (s : (cs.map Claim.plain).Sublist (ds.map Claim.plain))
    (r : k.room ds) : k.room cs := by
  have l := s.length_le
  simp only [List.length_map] at l
  rcases r with r | ⟨e, last, m, p⟩
  · exact Or.inl (by omega)
  · by_cases h : cs.length < 8
    · exact Or.inl h
    · have eq : cs.map Claim.plain = ds.map Claim.plain := s.eq_of_length (by simp; omega)
      have q : (cs.map Claim.plain).getLast? = some last.plain := by rw [eq, List.getLast?_map, m]; rfl
      rw [List.getLast?_map] at q
      obtain ⟨x, hx, y⟩ := Option.map_eq_some_iff.mp q
      refine Or.inr ⟨by omega, x, hx, ?_⟩
      have : x.plain.priority = last.plain.priority := by rw [y]
      have : x.priority = last.priority := this
      omega

theorem State.setStack_stack (s : State) (o : Fin 256) (cs : List Claim) (x : Fin 256) :
    (s.setStack o cs).stack x = if x = o then cs else s.stack x := by
  unfold State.stack; rw [State.setStack_claims]; simp only [Tab.get_set]

/-- One outlet of a raise: it is named once, with the kind's claim where it is admitted. -/
theorem Raising.step {k : AlarmKind} {n : Nat} {b s : State} {done : List (Fin 256)} (h : Raising k n b s done)
    (o : Fin 256) (new : o ∉ done) (moved : List (Fin 16)) :
    let out := s.outlets.get o
    let r := if k.audience out.kind then s.placeAlarm k n o else (false, s)
    Raising k n b (if !r.1 && moved.contains out.area then r.2.rename o else r.2) (o :: done) := by
  dsimp only
  have mine := h.own o (Or.inl new)
  -- an outlet where no claim is put
  have without : (k.audience (b.outlets.get o).kind = true → k.room (b.stack o) →
      ownClaims (.program k.slot) (s.stack o) ≠ []) → Raising k n b s (o :: done) := fun room =>
    { h with
      fewer := fun x m => h.fewer x fun y => m (List.mem_cons_of_mem _ y)
      own := fun x m => h.own x (m.imp_left fun y z => y (List.mem_cons_of_mem _ z))
      placed := fun x m e => by
        rcases List.mem_cons.mp m with y | y
        · subst y; left; rw [mine]; exact ownClaims_of_not e
        · exact h.placed x y e
      room := fun x m e r => by
        rcases List.mem_cons.mp m with y | y
        · subst y; exact room e r
        · exact h.room x y e r }
  have named : ∀ {t : State}, Raising k n b t (o :: done) → ∀ c : Bool,
      Raising k n b (if c then t.rename o else t) (o :: done) := fun {t} x c => by
    cases c
    · exact x
    · exact x.aside (State.rename_aside (Aside.refl _ _) o) (State.rename_quiet (Quiet.refl t) o).outlets
  by_cases aud : k.audience (s.outlets.get o).kind = true
  · rw [if_pos aud]
    rcases State.placeAlarm_spec s k n o aud with ⟨e, full⟩ | ⟨e, none, cs, own, acts⟩
    · rw [e]
      refine named (without fun _ r => ?_) _
      have := full (AlarmKind.room_fewer (h.fewer o new) r)
      rw [hasOwner_ownClaims] at this
      simpa using this
    · have set : Raising k n b (s.setStack o cs) (o :: done) :=
        { alarms := h.alarms, outlets := h.outlets, arrivals := h.arrivals, slot := h.slot, held := h.held
          voices := h.voices, owners := h.owners, spare := h.spare
          fewer := fun x m => by
            rw [State.setStack_stack, if_neg fun y : x = o => m (y ▸ List.mem_cons_self ..)]
            exact h.fewer x fun y => m (List.mem_cons_of_mem _ y)
          own := fun x m => by
            rw [State.setStack_stack]
            split
            · next y =>
              subst y
              rcases m with m | m | m
              · exact absurd (List.mem_cons_self ..) m
              · rw [← h.outlets, aud] at m; cases m
              · rw [hasOwner_ownClaims, ← mine, ownClaims_of_not none] at m; cases m
            · exact h.own x (m.imp_left fun y z => y (List.mem_cons_of_mem _ z))
          placed := fun x m e => by
            rw [State.setStack_stack]
            split
            · right; exact own
            · next y => exact h.placed x ((List.mem_cons.mp m).resolve_left y) e
          room := fun x m e r => by
            rw [State.setStack_stack]
            split
            · rw [own]; nofun
            · next y => exact h.room x ((List.mem_cons.mp m).resolve_left y) e r }
      rw [e]
      exact set.aside acts (State.placeAlarm_quiet (Quiet.refl s) k n o).outlets
  · rw [if_neg aud]
    exact named (without fun e => absurd (h.outlets ▸ e) aud) _

/-- The placements of a raise, outlet by outlet. -/
theorem Raising.loop {k : AlarmKind} {n : Nat} {b s : State} {done : List (Fin 256)} (h : Raising k n b s done)
    (os : List (Fin 256)) (d : os.Nodup) (new : ∀ o ∈ os, o ∉ done) (moved : List (Fin 16)) :
    ∃ all, (∀ o, o ∈ all ↔ o ∈ os ∨ o ∈ done) ∧
      Raising k n b (s.forAll os fun o s =>
        let out := s.outlets.get o
        let r := if k.audience out.kind then s.placeAlarm k n o else (false, s)
        if !r.1 && moved.contains out.area then r.2.rename o else r.2) all := by
  induction os generalizing s done with
  | nil => exact ⟨done, by simp, h⟩
  | cons o os ih =>
    obtain ⟨out, d⟩ := List.nodup_cons.mp d
    obtain ⟨all, mem, x⟩ := ih (h.step o (new o (List.mem_cons_self ..)) moved) d fun y m z => by
      rcases List.mem_cons.mp z with z | z
      · exact out (z ▸ m)
      · exact new y (List.mem_cons_of_mem _ m) z
    exact ⟨all, fun y => by rw [mem]; simp only [List.mem_cons]; tauto, x⟩

/-! ### A raise -/

/-- What the requests of an alarm program leave. -/
structure Started (k : AlarmKind) (n : Nat) (s t : State) : Prop where
  claims : t.claims.arrivals = s.claims.arrivals
  number : ∀ k' : AlarmKind, (t.alarms.kinds.get k'.idx).lastArrival = (s.alarms.kinds.get k'.idx).lastArrival
  others : ∀ k' : AlarmKind, k' ≠ k → t.alarms.kinds.get k'.idx = s.alarms.kinds.get k'.idx
  own : ∀ o, ownClaims (.program k.slot) (t.stack o) = ownClaims (.program k.slot) (s.stack o)
  program : s.alarmTargets k ≠ [] → (t.programs.get k.slot).state ≠ .free ∧ (t.programs.get k.slot).arrival = n ∧
    ((s.programs.get k.slot).state = .free →
      (t.programs.get k.slot).state = .playing ∧ (t.programs.get k.slot).kind = .alarm ∧
      (t.programs.get k.slot).source = .alarmSound ∧ (t.programs.get k.slot).priority = k.priority ∧
      ∀ d, s.alarmDef k = some d →
        (t.alarms.kinds.get k.idx).phase = .tone ∧ (t.alarms.kinds.get k.idx).count = 0 ∧
        ((∃ v, ∀ k', (s.tones.voices.get v).user ≠ .alarm k') → ∃ v, (t.tones.voices.get v).user = .alarm k) ∧
        (∀ st, d.toneCycles ≠ 0 → d.stream = some st → s.part ≠ .fallback →
          (∃ c, (s.channels.get c).state = .free) → ∃ c, (t.channels.get c).owner = some (.program k.slot)))
  undefined : s.alarmDef k = none → (t.alarms.kinds.get k.idx).phase = (s.alarms.kinds.get k.idx).phase ∧
    t.tones = s.tones ∧ t.channels = s.channels

theorem State.alarmStart_started (k : AlarmKind) (n : Nat) (s : State) : Started k n s (s.alarmStart k n) := by
  unfold State.alarmStart
  split
  · next busy =>
    have busy : (s.programs.get k.slot).state ≠ .free := by simpa using busy
    exact ⟨rfl, fun _ => rfl, fun _ _ => rfl, fun _ => rfl, fun _ => ⟨by simpa using busy, by simp, fun e => absurd e busy⟩,
      fun _ => ⟨rfl, rfl, rfl⟩⟩
  · split
    · next e => exact ⟨rfl, fun _ => rfl, fun _ _ => rfl, fun _ => rfl, fun x => absurd (by simpa using e) x,
        fun _ => ⟨rfl, rfl, rfl⟩⟩
    · dsimp only
      generalize hb : (s.modProgram k.slot fun pr : Program =>
        { pr with state := .playing, kind := .alarm, source := .alarmSound, priority := k.priority, gain := 4096
                  arrival := n }) = b
      have slot : (b.programs.get k.slot).state = .playing ∧ (b.programs.get k.slot).kind = .alarm ∧
          (b.programs.get k.slot).source = .alarmSound ∧ (b.programs.get k.slot).priority = k.priority ∧
          (b.programs.get k.slot).arrival = n := by rw [← hb]; simp
      have defs : b.alarmDef k = s.alarmDef k := by rw [← hb]; rfl
      have al : b.alarms = s.alarms := by rw [← hb]; rfl
      have cl : b.claims = s.claims := by rw [← hb]; rfl
      have tn : b.tones = s.tones := by rw [← hb]; rfl
      have ch : b.channels = s.channels := by rw [← hb]; rfl
      have pt : b.part = s.part := by rw [← hb]; rfl
      rw [defs]
      cases d : s.alarmDef k with
      | none =>
        dsimp only
        refine ⟨by rw [cl], fun _ => by rw [al], fun _ _ => by rw [al], fun o => by unfold State.stack; rw [cl],
          fun _ => ⟨by rw [slot.1]; nofun, slot.2.2.2.2, fun _ => ⟨slot.1, slot.2.1, slot.2.2.1, slot.2.2.2.1, ?_⟩⟩,
          fun _ => ⟨by rw [al], tn, ch⟩⟩
        intro x e; rw [d] at e; cases e
      | some df =>
        dsimp only
        have busy : (b.programs.get k.slot).state ≠ .free := by rw [slot.1]; nofun
        obtain ⟨bv, hv, free⟩ := State.alarmVoice_beside (g := k.slot) b k df.pattern busy
        have part : (b.alarmVoice k df.pattern).part = s.part :=
          (State.alarmVoice_quiet (Quiet.refl b) k df.pattern).part.trans pt
        generalize b.alarmVoice k df.pattern = v at bv hv free part
        generalize hm : (v.modAlarm k fun a => { a with phase := .tone, count := 0 }) = m
        -- everything that follows the phase
        have last : ∀ t, Beside k.slot m t →
            (∀ st, df.toneCycles ≠ 0 → df.stream = some st → s.part ≠ .fallback →
              (∃ c, (s.channels.get c).state = .free) → ∃ c, (t.channels.get c).owner = some (.program k.slot)) →
            Started k n s t := by
          intro t bt bound
          have keep := bv.slot.trans (show Program.Keeps _ _ from (by rw [← hm] at bt; exact bt.slot))
          have pl := keep.plays slot.2.1 slot.1
          have kinds : t.alarms.kinds = s.alarms.kinds.modify k.idx fun a => { a with phase := .tone, count := 0 } := by
            rw [bt.alarms, ← hm, ← al, ← bv.alarms]; rfl
          refine ⟨?_, fun k' => ?_, fun k' ne => ?_, fun o => ?_, fun _ => ⟨by rw [pl]; nofun, ?_, fun _ =>
            ⟨pl, keep.kind.trans slot.2.1, keep.source.trans slot.2.2.1, keep.priority.trans slot.2.2.2.1, ?_⟩⟩, ?_⟩
          · rw [bt.arrivals, ← hm, ← cl, ← bv.arrivals]; rfl
          · rw [kinds, Tab.get_modify]; split
            · next e => rw [e]
            · rfl
          · rw [kinds, Tab.get_modify_ne _ fun e => ne (AlarmKind.idx_inj e)]
          · have y := bt.own o
            have z := bv.own o
            rw [← hm] at y
            exact y.trans (z.trans (by unfold State.stack; rw [cl]))
          · exact keep.arrival.trans slot.2.2.2.2
          · intro d' e
            rw [d] at e; cases e
            refine ⟨by rw [kinds, Tab.get_modify_self], by rw [kinds, Tab.get_modify_self], fun x => ?_, bound⟩
            obtain ⟨w, hw⟩ := hv (by rw [tn]; exact x)
            exact ⟨w, bt.held w k (by rw [← hm]; exact hw)⟩
          · intro e; rw [d] at e; cases e
        have sameChannels : (∃ c, (s.channels.get c).state = .free) → ∃ c, (m.channels.get c).state = .free := fun ⟨c, e⟩ =>
          ⟨c, by rw [← hm]; exact free c (by rw [ch]; exact e)⟩
        cases vs : df.voiceStream with
        | none =>
          refine last m (Beside.refl _ _) fun st z y => ?_
          unfold AlarmDef.voiceStream at vs
          rw [if_neg z, y] at vs; cases vs
        | some st =>
          dsimp only
          split
          · next e => exact last m (Beside.refl _ _) fun _ _ _ x => (x (by rw [← part]; rw [← hm] at e; simpa using e)).elim
          · obtain ⟨x, y⟩ := State.alarmBind_beside m k st
            exact last _ x fun _ _ _ _ z => y (sameChannels z)

/-! ### Acts on the area table -/

theorem State.alarmNote_quiet_rest (s : State) (k : AlarmKind) (x : AreaState) (as : List (Fin 16)) (c : AlarmCause) :
    (State.alarmNote k x as c s).tones = s.tones ∧ (State.alarmNote k x as c s).channels = s.channels := by
  unfold State.alarmNote
  exact ⟨State.emitNote_tones .., State.emitNote_channels ..⟩

/-- The note of an act is the last that the act adds, or was lost at a full queue (R144, R182). -/
theorem State.alarmNote_noted {s u : State} (h : s.notes.Grown u.notes) (t : u.time = s.time) (k : AlarmKind)
    (x : AreaState) (as : List (Fin 16)) (c : AlarmCause) :
    ∃ more, (State.alarmNote k x as c u).notes.queue = s.notes.queue ++ more ∧
      (more.getLast? = some
        { kind := .alarmState, subject := k.idx.val, time := s.time
          code := if x = .quiet then 0 else if x = .sounding then 1 else 2
          detail := (as.map fun a => 2 ^ a.val).sum + 65536 * c.code } ∨
        (32 ≤ (State.alarmNote k x as c u).notes.queue.length ∧ 0 < (State.alarmNote k x as c u).notes.lost)) := by
  obtain ⟨more, e⟩ := h.queue
  have code : x.code = if x = .quiet then 0 else if x = .sounding then 1 else 2 := by cases x <;> rfl
  have bits : areaBits as = (as.map fun a => 2 ^ a.val).sum := by
    rw [List.sum_eq_foldl, List.foldl_map]; rfl
  unfold State.alarmNote State.emitNote
  dsimp only
  by_cases room : u.notes.queue.length < 32
  · rw [if_pos room]
    refine ⟨more ++ [{ kind := .alarmState, subject := k.idx.val, time := s.time, code := x.code
                       detail := areaBits as + 65536 * c.code }], ?_, Or.inl ?_⟩
    · rw [← List.append_assoc, ← e, ← t]
      split <;> rfl
    · rw [List.getLast?_concat, code, bits]
  · rw [if_neg room]
    exact ⟨more, e, Or.inr ⟨by dsimp only [State.setCause]; omega, by dsimp only [State.setCause]; omega⟩⟩

/-- What an act has done to the table, the floors and the notes, once they are settled and other blocks have acted. -/
theorem State.act_quiet {s b u : State} {k : AlarmKind} {x : AreaState} {changed : List (Fin 16)} {c : AlarmCause}
    (q : Quiet s b) (h : Quiet ((b.setAreas k x changed).settleFloors changed) u) :
    AlarmAct s (u.alarmNote k x changed c) k x changed c.code := by
  have base : Acts s ((b.setAreas k x changed).settleFloors changed) :=
    State.settleFloors_acts (State.setAreas_acts q.toActs _ _ _) _
  have acts := base.trans h.toActs
  have last := State.alarmNote_quiet (Quiet.refl u) k x changed c
  have rest := State.alarmNote_rest u k x changed c
  have tb : u.alarms.table = (b.setAreas k x changed).alarms.table := by rw [h.table, State.settleFloors_eq]
  refine { (acts.trans last.toActs).toUntouched with
    stations := ?_, entries := fun k' a => ?_, floors := fun a => ?_, noted := ?_, flagged := rest.2.2.2.2 }
  · rw [last.stations, h.stations, State.settleFloors_eq, ← q.stations]; rfl
  · rw [State.areaState_congr last.table, State.areaState_congr tb, State.setAreas_areaState, State.areaState_congr q.table]
  · have fl : (u.alarmNote k x changed c).claims.floors.get a =
        if a ∈ changed then (b.setAreas k x changed).floorFor a else s.claims.floors.get a := by
      rw [rest.2.1, h.floors, State.settleFloors_floor, ← q.floors]; rfl
    rw [fl]
    by_cases m : a ∈ changed
    · rw [if_pos m, if_neg (by simpa using m), ← State.floorFor_congr (tb ▸ last.table)]
      rfl
    · rw [if_neg m, if_pos m]
  · exact State.alarmNote_noted acts.noted acts.time k x changed c

/-- What issuing an arrival number leaves: with a renumbering, everything but the numbers (R35). -/
structure Issued (s t : State) : Prop where
  stack : ∀ o, ∃ f : Nat → Nat, t.stack o = (s.stack o).map fun c => { c with arrival := f c.arrival }
  slot : ∀ p, (t.programs.get p).state = (s.programs.get p).state
  tones : t.tones = s.tones
  channels : t.channels = s.channels
  phase : ∀ k, (t.alarms.kinds.get k).phase = (s.alarms.kinds.get k).phase

theorem Issued.refl (s : State) : Issued s s := ⟨fun _ => ⟨id, by simp⟩, fun _ => rfl, rfl, rfl, fun _ => rfl⟩

theorem State.issueArrival_issued (s : State) : Issued s s.issueArrival.2 ∧
    s.issueArrival.2.claims.arrivals = s.issueArrival.1 + 1 ∧
    (s.claims.arrivals ≠ 4294967295 → s.issueArrival.1 = s.claims.arrivals ∧ s.issueArrival.2.alarms = s.alarms) := by
  refine ⟨?_, rfl, fun h => ?_⟩
  · unfold State.issueArrival
    dsimp only
    split
    · exact ⟨fun o => ⟨rankIn s.arrivalsInUse.eraseDups, by simp [State.stack, State.renumber]⟩,
        fun p => by simp [State.renumber], rfl, rfl, fun k => by simp [State.renumber]⟩
    · exact ⟨fun _ => ⟨id, by simp [State.stack]⟩, fun _ => rfl, rfl, rfl, fun _ => rfl⟩
  · unfold State.issueArrival
    rw [if_neg h]
    exact ⟨rfl, rfl⟩

theorem Issued.hasOwner {s t : State} (h : Issued s t) (w : Owner) (o : Fin 256) :
    hasOwner w (t.stack o) = hasOwner w (s.stack o) := by
  obtain ⟨f, e⟩ := h.stack o
  rw [e]; exact hasOwner_map (f := fun c => { c with arrival := f c.arrival }) (fun _ => rfl) w _

theorem Issued.room {s t : State} (h : Issued s t) (k : AlarmKind) (o : Fin 256) (r : k.room (s.stack o)) :
    k.room (t.stack o) := by
  obtain ⟨f, e⟩ := h.stack o
  unfold AlarmKind.room
  rw [e, List.length_map, List.getLast?_map]
  rcases r with r | ⟨l, last, m, p⟩
  · exact Or.inl r
  · exact Or.inr ⟨l, { last with arrival := f last.arrival }, by rw [m]; rfl, p⟩

theorem Raising.start (k : AlarmKind) (n : Nat) (b : State) : Raising k n b b [] :=
  { alarms := rfl, outlets := rfl, arrivals := rfl, slot := Program.Keeps.refl _, held := fun _ _ => id
    voices := fun _ _ => id, owners := fun _ => id, spare := fun _ => id, fewer := fun _ _ => List.Sublist.refl _
    own := fun _ _ => rfl, placed := nofun, room := nofun }

/-- A raise is one of the areas whose entry changes; with none, nothing. -/
theorem State.raise_raised (s : State) (k : AlarmKind) (areas : List (Fin 16)) (cause : AlarmCause)
    (e : areas.filter (fun a => s.areaState k a != .sounding) ≠ []) :
    AlarmRaised s (s.raise k areas cause) k (areas.filter fun a => s.areaState k a != .sounding) cause.code := by
  unfold State.raise
  dsimp only
  generalize areas.filter (fun a => s.areaState k a != .sounding) = changed at e ⊢
  rw [if_neg (by simpa using e)]
  generalize hi : (if changed.any fun a => s.areaState k a == .quiet then s.issueArrival
    else ((s.alarms.kinds.get k.idx).lastArrival, s)) = issued
  have qi : Quiet s issued.2 := by
    rw [← hi]; split
    · exact State.issueArrival_quiet (Quiet.refl s)
    · exact Quiet.refl s
  have ii : Issued s issued.2 := by
    rw [← hi]; split
    · exact (State.issueArrival_issued s).1
    · exact Issued.refl s
  have fresh : (∃ a ∈ changed, s.areaState k a = .quiet) → issued = s.issueArrival := fun h => by
    rw [← hi, if_pos (by simpa using h)]
  have same : (∀ a ∈ changed, s.areaState k a ≠ .quiet) →
      issued = ((s.alarms.kinds.get k.idx).lastArrival, s) := fun h => by
    rw [← hi, if_neg (by simpa using h)]
  generalize hb : (issued.2.modAlarm k fun a => { a with lastArrival := issued.1 }) = b
  have qb : Quiet s b := by rw [← hb]; exact State.modAlarm_quiet qi _ _
  generalize hf : (b.setAreas k .sounding changed).settleFloors changed = f
  have fk : f.alarms.kinds = issued.2.alarms.kinds.modify k.idx fun a => { a with lastArrival := issued.1 } := by
    rw [← hf, State.settleFloors_eq, ← hb]; rfl
  have fd : f.alarms.defs = s.alarms.defs := by rw [← hf, State.settleFloors_eq, ← qb.defs]; rfl
  have fs : f.claims.stack = issued.2.claims.stack := by rw [← hf, State.settleFloors_eq, ← hb]; rfl
  have fa : f.claims.arrivals = issued.2.claims.arrivals := by rw [← hf, State.settleFloors_eq, ← hb]; rfl
  have fo : f.outlets = s.outlets := by rw [← hf, State.settleFloors_eq, ← qb.outlets]; rfl
  have fp : f.programs = issued.2.programs := by rw [← hf, State.settleFloors_eq, ← hb]; rfl
  have ft : f.tones = s.tones := by rw [← ii.tones, ← hf, State.settleFloors_eq, ← hb]; rfl
  have fc : f.channels = s.channels := by rw [← ii.channels, ← hf, State.settleFloors_eq, ← hb]; rfl
  have fpt : f.part = s.part := by rw [← hf, State.settleFloors_eq, ← qb.part]; rfl
  have fowner : ∀ w o, hasOwner w (f.stack o) = hasOwner w (s.stack o) := fun w o => by
    rw [← ii.hasOwner]; unfold State.stack; rw [fs]
  obtain ⟨all, mem, raising⟩ := Raising.loop (Raising.start k issued.1 f) (f.outletsIn changed)
    ((List.nodup_finRange _).filter _) nofun (changed.filter fun a =>
      (b.setAreas k .sounding changed).claims.floors.get a != (b.setAreas k .sounding changed).floorFor a)
  have inAll : ∀ o, o ∈ all ↔ (s.outlets.get o).area ∈ changed := fun o => by
    rw [mem]; unfold State.outletsIn; simp [fo]
  generalize hv : f.forAll (f.outletsIn changed) _ = v at raising ⊢
  have started := State.alarmStart_started k issued.1 v
  have vq : Quiet f v := by rw [← hv]; exact State.placements_quiet (Quiet.refl f) k issued.1 _ _
  have quiet := State.alarmStart_quiet vq k issued.1
  have act := State.act_quiet (c := cause) qb (hf ▸ quiet)
  generalize hw : v.alarmStart k issued.1 = w at started quiet act ⊢
  have rest := State.alarmNote_rest w k .sounding changed cause
  have rest' := State.alarmNote_quiet_rest w k .sounding changed cause
  have own : ∀ o, ownClaims (.program k.slot) ((w.alarmNote k .sounding changed cause).stack o) =
      ownClaims (.program k.slot) (v.stack o) := fun o => by
    rw [← started.own]; unfold State.stack; rw [rest.2.1]
  have last : ((w.alarmNote k .sounding changed cause).alarms.kinds.get k.idx).lastArrival = issued.1 := by
    rw [rest.2.2.1, started.number, raising.alarms, fk, Tab.get_modify_self]
  have arrivals : (w.alarmNote k .sounding changed cause).claims.arrivals = issued.2.claims.arrivals := by
    rw [rest.2.1, started.claims, raising.arrivals, fa]
  refine { act with
    issued := fun h => ?_, kept := fun h => ?_, others := fun h k' ne => ?_, placed := fun o aud m r => ?_
    claims := fun o aud m no c mc own' => ?_, elsewhere := fun o h => ?_, program := fun h => ?_, undefined := fun h => ?_ }
  · have i := State.issueArrival_issued s
    rw [last, arrivals, fresh h]
    exact ⟨rfl, i.2.1, fun x => (i.2.2 x).1⟩
  · rw [last, arrivals, same h]; exact ⟨rfl, rfl⟩
  · have kinds : issued.2.alarms.kinds = s.alarms.kinds := by
      by_cases x : ∃ a ∈ changed, s.areaState k a = .quiet
      · rcases h with h | h
        · obtain ⟨a, m, q⟩ := x; exact absurd q (h a m)
        · rw [fresh x, ((State.issueArrival_issued s).2.2 h).2]
      · rw [same fun a m q => x ⟨a, m, q⟩]
    rw [rest.2.2.1, started.others k' ne, raising.alarms, fk, Tab.get_modify_ne _ fun e => ne (AlarmKind.idx_inj e), kinds]
  · have room : k.room (f.stack o) := by
      have := ii.room k o r
      unfold State.stack at *; rw [fs]; exact this
    have := raising.room o ((inAll o).mpr m) (by rw [fo]; exact aud) room
    rw [hasOwner_ownClaims, own]
    simpa using this
  · have := raising.placed o ((inAll o).mpr m) (by rw [fowner]; exact no)
    rw [← own] at this
    have mine : c.plain ∈ ownClaims (.program k.slot) ((w.alarmNote k .sounding changed cause).stack o) :=
      List.mem_filter.mpr ⟨List.mem_map_of_mem mc, by simpa [Claim.plain] using own'⟩
    rcases this with z | z <;> rw [z] at mine
    · cases mine
    · have z := List.mem_singleton.mp mine
      have a : c.plain.arrival = (k.claim issued.1).plain.arrival := by rw [z]
      have b : c.plain.priority = (k.claim issued.1).plain.priority := by rw [z]
      have d : c.plain.duckable = (k.claim issued.1).plain.duckable := by rw [z]
      have g : c.plain.allowsUndertone = (k.claim issued.1).plain.allowsUndertone := by rw [z]
      exact ⟨by rw [last]; exact a, b, d, g⟩
  · rw [hasOwner_ownClaims, own, raising.own o, ← hasOwner_ownClaims, fowner]
    rcases h with h | h
    · right; left; rw [fo]; exact h
    · left; rw [inAll]; exact h
  · have targets : v.alarmTargets k ≠ [] := by
      obtain ⟨o, aud, x⟩ := h
      refine List.ne_nil_of_mem (a := o) ?_
      unfold State.alarmTargets
      rw [Tab.mem_indices, raising.outlets, fo, aud, Bool.true_and, beq_iff_eq]
      have tw : w.alarms.table = v.alarms.table := by rw [← hw]; exact (State.alarmStart_quiet (Quiet.refl v) _ _).table
      rw [State.areaState_congr (s := v) (by rw [rest.2.2.1, tw])] at x
      exact x
    obtain ⟨busy, number, start⟩ := started.program targets
    rw [rest.1, last]
    refine ⟨busy, number, fun fr => ?_⟩
    obtain ⟨a, b, c, d, go⟩ := start (raising.slot.free (by rw [fp, ii.slot]; exact fr))
    refine ⟨a, b, c, d, fun df hd => ?_⟩
    obtain ⟨p, q, r, z⟩ := go df (by unfold State.alarmDef at *; rw [raising.alarms, fd]; exact hd)
    rw [rest.2.2.1, rest'.1, rest'.2]
    exact ⟨p, q, fun ⟨x, y⟩ => r ⟨x, fun k' m => y k' (ft ▸ raising.voices x k' m)⟩,
      fun st x y pt ⟨ch, cf⟩ => z st x y (by rw [vq.part, fpt]; exact pt) ⟨ch, raising.spare ch (by rw [fc]; exact cf)⟩⟩
  · obtain ⟨p, q, r⟩ := started.undefined (by unfold State.alarmDef at *; rw [raising.alarms, fd]; exact h)
    rw [rest.2.2.1, rest'.1, rest'.2, q, r]
    refine ⟨?_, fun x m => ft ▸ raising.voices x k m, fun c m => fc ▸ raising.owners c m⟩
    rw [p, raising.alarms, fk, Tab.get_modify_self]
    exact ii.phase k.idx

/-! ### A silence and a reset -/

/-- A withdrawal leaves the stacks of the outlets of other areas. -/
theorem State.withdraw_elsewhere (s : State) (k : AlarmKind) (areas : List (Fin 16)) (o : Fin 256)
    (h : (s.outlets.get o).area ∉ areas) : (s.withdraw k areas).stack o = s.stack o := by
  have out : o ∉ s.outletsIn areas := by unfold State.outletsIn; simpa using h
  clear h
  unfold State.withdraw State.forAll
  generalize s.outletsIn areas = os at out
  induction os generalizing s with
  | nil => rfl
  | cons x xs ih =>
    have out := not_or.mp (mt List.mem_cons.mpr out)
    rw [List.foldl_cons]
    exact (ih _ out.2).trans (by rw [State.restack_stack, if_neg out.1])

/-- What the withdrawal of a kind's claims leaves of the alarms and of the numbers. -/
theorem State.withdraw_numbers (s : State) (k : AlarmKind) (areas : List (Fin 16)) :
    (s.withdraw k areas).alarms = s.alarms ∧ (s.withdraw k areas).claims.arrivals = s.claims.arrivals := by
  unfold State.withdraw State.forAll
  generalize s.outletsIn areas = os
  induction os generalizing s with
  | nil => exact ⟨rfl, rfl⟩
  | cons x xs ih =>
    have r := State.restack_reports (g := k.slot) (s := s) x ((s.stack x).filter fun c => c.owner != .program k.slot)
    exact ⟨(ih _).1.trans r.alarms, (ih _).2.trans r.arrivals⟩

theorem State.alarmStop_standing (s : State) (k : AlarmKind) :
    (s.alarmStop k).claims = s.claims ∧
    (∀ k', ((s.alarmStop k).alarms.kinds.get k').lastArrival = (s.alarms.kinds.get k').lastArrival) ∧
    (∀ k' : AlarmKind, k' ≠ k → (s.alarmStop k).alarms.kinds.get k'.idx = s.alarms.kinds.get k'.idx) ∧
    (s.alarmTargets k ≠ [] → s.alarmStop k = s) := by
  unfold State.alarmStop
  split
  · exact ⟨rfl, fun _ => rfl, fun _ _ => rfl, fun _ => rfl⟩
  · next h =>
    have r : ∀ s : State, (s.releaseVoice (.alarm k)).claims = s.claims ∧
        (s.releaseVoice (.alarm k)).alarms = s.alarms := by
      intro s; unfold State.releaseVoice State.leaveOwing; dsimp only; repeat' split
      all_goals exact ⟨rfl, rfl⟩
    have c : ∀ (s : State) w, (s.releaseChannel w).claims = s.claims ∧ (s.releaseChannel w).alarms = s.alarms := by
      intro s w
      unfold State.releaseChannel State.enterEnded State.freeIfDone State.discardTransfer; dsimp only; repeat' split
      all_goals exact ⟨rfl, rfl⟩
    have kinds : ((((s.releaseVoice (.alarm k)).releaseChannel (.program k.slot)).modAlarm k fun a =>
        { a with phase := .unset, count := 0 }).modProgram k.slot fun _ => {}).alarms.kinds =
        s.alarms.kinds.modify k.idx fun a => { a with phase := .unset, count := 0 } := by
      rw [← (r s).2, ← (c (s.releaseVoice (.alarm k)) (.program k.slot)).2]; rfl
    refine ⟨((c _ _).1.trans (r s).1 :), fun k' => ?_, fun k' ne => ?_, fun t => ?_⟩
    · rw [kinds, Tab.get_modify]
      split
      · next e => rw [e]
      · rfl
    · rw [kinds, Tab.get_modify_ne _ fun e => ne (AlarmKind.idx_inj e)]
    · simp [t] at h

/-- A silence of a kind in the areas where it sounds, and a reset in those where it is not QUIET. -/
theorem State.withdrawal_cleared (s : State) (k : AlarmKind) (x : AreaState) (changed : List (Fin 16))
    (cause : AlarmCause) :
    AlarmCleared s (((((s.setAreas k x changed).settleFloors changed).withdraw k changed).alarmStop k).alarmNote k x changed
      cause) k x changed cause.code := by
  have areas := State.withdrawal_areas s k x changed cause
  have freed := State.withdrawal_freed s k x changed cause
  have act := State.act_quiet (c := cause) (k := k) (x := x) (changed := changed) (Quiet.refl s)
    (State.alarmStop_quiet (State.withdraw_quiet (Quiet.refl _) k changed) k)
  have base : ((s.setAreas k x changed).settleFloors changed).claims.stack = s.claims.stack ∧
      ((s.setAreas k x changed).settleFloors changed).alarms.kinds = s.alarms.kinds ∧
      ((s.setAreas k x changed).settleFloors changed).claims.arrivals = s.claims.arrivals ∧
      ((s.setAreas k x changed).settleFloors changed).outlets = s.outlets ∧
      ((s.setAreas k x changed).settleFloors changed).programs = s.programs := by
    rw [State.settleFloors_eq]; exact ⟨rfl, rfl, rfl, rfl, rfl⟩
  dsimp only at areas freed
  generalize hb : (s.setAreas k x changed).settleFloors changed = b at *
  have num := State.withdraw_numbers b k changed
  have stop := State.alarmStop_standing (b.withdraw k changed) k
  have rest := State.alarmNote_rest ((b.withdraw k changed).alarmStop k) k x changed cause
  refine { act with
    unclaimed := areas.2.2.2.2, elsewhere := fun o h => ?_, number := ⟨?_, ?_, fun k' ne => ?_⟩
    freed := fun h => ⟨areas.2.2.1 h, fun f => freed.2 f h⟩, standing := fun h f => ?_ }
  · have := State.withdraw_elsewhere b k changed o (by rw [base.2.2.2.1]; exact h)
    unfold State.stack at *
    rw [rest.2.1, stop.1, this, base.1]
  · rw [rest.2.1, stop.1, num.2, base.2.2.1]
  · rw [rest.2.2.1, stop.2.1, num.1, base.2.1]
  · rw [rest.2.2.1, stop.2.2.1 k' ne, num.1, base.2.1]
  · have targets : (b.withdraw k changed).alarmTargets k ≠ [] := fun z => h (by
      have q := State.alarmNote_quiet (State.alarmStop_quiet (Quiet.refl (b.withdraw k changed)) k) k x changed cause
      rw [← z]; exact State.alarmTargets_congr q.table q.outlets k)
    rw [rest.1, rest.2.2.1, stop.2.2.2 targets, num.1, base.2.1]
    refine ⟨fun z => f ?_, rfl⟩
    have := (State.withdraw_steady b k changed).stands k.slot |>.busy z
    rw [← base.2.2.2.2]; exact this

/-! ### Raise, silence, reset -/

/-- All that a raise does (R141): nothing, where the kind sounds in every area asked for. -/
theorem State.raise_spec (s : State) (k : AlarmKind) (areas : List (Fin 16)) (cause : AlarmCause) :
    let changed := areas.filter fun a => s.areaState k a != .sounding
    (changed = [] → s.raise k areas cause = s) ∧
      (changed ≠ [] → AlarmRaised s (s.raise k areas cause) k changed cause.code) := by
  refine ⟨fun h => ?_, State.raise_raised s k areas cause⟩
  unfold State.raise
  exact if_pos (List.isEmpty_iff.mpr h)

/-- All that a silence does (R142): nothing, where the kind sounds in no area asked for. -/
theorem State.silence_spec (s : State) (k : AlarmKind) (areas : List (Fin 16)) (cause : AlarmCause) :
    let changed := areas.filter fun a => s.areaState k a == .sounding
    (changed = [] → s.silence k areas cause = s) ∧
      (changed ≠ [] → AlarmCleared s (s.silence k areas cause) k .silenced changed cause.code) := by
  unfold State.silence
  refine ⟨fun h => if_pos (List.isEmpty_iff.mpr h), fun h => ?_⟩
  rw [if_neg (mt List.isEmpty_iff.mp h)]
  exact State.withdrawal_cleared s k .silenced _ cause

/-- All that a reset does (R143): nothing, where the kind is QUIET in every area asked for. -/
theorem State.quieten_spec (s : State) (k : AlarmKind) (areas : List (Fin 16)) (cause : AlarmCause) :
    let changed := areas.filter fun a => s.areaState k a != .quiet
    (changed = [] → s.quieten k areas cause = s) ∧
      (changed ≠ [] → AlarmCleared s (s.quieten k areas cause) k .quiet changed cause.code) := by
  unfold State.quieten
  refine ⟨fun h => if_pos (List.isEmpty_iff.mpr h), fun h => ?_⟩
  rw [if_neg (mt List.isEmpty_iff.mp h)]
  exact State.withdrawal_cleared s k .quiet _ cause

end Sys2Proof.Machine
end

