-- ==== Sys2Proof/Laws/Keeps.lean ====
section
/-! SUPPORT. What every act of the part keeps: the queue of commands, and the bounds of `State.Bounded`. One lemma an
act, in the form of Laws/Frames.lean. -/

namespace Sys2Proof.Machine

/-- The queue of commands is kept, and so are the bounds. -/
structure Keeps (s t : State) : Prop where
  pending : t.pending = s.pending
  bounded : s.Bounded → t.Bounded

theorem Keeps.refl (s : State) : Keeps s s := ⟨rfl, id⟩

theorem Keeps.trans {a b c : State} (h : Keeps a b) (k : Keeps b c) : Keeps a c :=
  ⟨k.pending.trans h.pending, fun x => k.bounded (h.bounded x)⟩

theorem Acts.keeps {s t : State} (h : Acts s t) : Keeps s t :=
  ⟨h.pending, fun x =>
    { notes := h.bounded x.notes
      root := by have := x.root; unfold Regs.aligned at *; rw [h.rootadr]; exact this
      depths := h.depths x.depths
      clips := fun o => by rw [(h.gains o).2.2]; exact x.clips o
      gated := by have := x.gated; rw [h.ambient]; exact this
      shows := h.yields x.shows }⟩

/-- An act that changes nothing the bounds look at. -/
theorem Keeps.same {s0 s : State} {regs : Regs} {part : PartState} {lists : ListEngine} {port : Port}
    {outlets : Tab 256 Outlet} {inlets : Tab 256 InletKind} {stations : Tab 64 Station}
    {floors : Tab 16 Nat} {lines : Tab 256 Bool} {arrivals window len pos : Nat} {channels : Tab 16 Channel}
    {calls : Tab 16 Call} {tones : TonePool} {alarms : AlarmUnit} {contacts : Tab 4 Contact} {theatre : Theatre}
    {trunks : Tab 4 Trunk} {loops : Tab 256 Loop} {changeovers : Tab 8 Changeover} {held : Option (RecRef × SpacePhase)}
    {beat : Beat} {time : Word} {outbound : Tab 4 (Option Outbound)} {freeCount : Nat} (h : Keeps s0 s)
    (k : regs.rootadr = s.regs.rootadr) :
    Keeps s0
      { regs, part, lists, port, outlets, inlets, stations, programs := s.programs,
        claims := ⟨s.claims.stack, floors, lines, arrivals⟩, mixer := s.mixer, ambient := ⟨window, len, pos, s.ambient.outlets⟩, channels, calls, tones, alarms, contacts,
        theatre, trunks, loops, changeovers, notes := ⟨s.notes.queue, s.notes.lost, held⟩, beat, time, outbound,
        freeCount, pending := s.pending } :=
  ⟨h.pending, fun x =>
    have y := h.bounded x
    ⟨y.notes, by have := y.root; unfold Regs.aligned at *; rw [k]; exact this, y.depths, y.clips, y.gated,
      y.shows⟩⟩

theorem State.forAll_keeps {α : Type} {s0 s : State} (h : Keeps s0 s) (xs : List α) (f : α → State → State)
    (k : ∀ x s, Keeps s0 s → Keeps s0 (f x s)) : Keeps s0 (s.forAll xs f) := by
  unfold State.forAll
  induction xs generalizing s with
  | nil => exact h
  | cons x xs ih => exact ih (k x s h)

theorem State.modAmbient_keeps {s0 s : State} (h : Keeps s0 s) (o : Fin 256) (f : AmbientEntry → AmbientEntry)
    (k : ∀ a, a.gatedCount ≤ 65535 → (f a).gatedCount ≤ 65535) : Keeps s0 (s.modAmbient o f) :=
  ⟨h.pending, fun x =>
    have y := h.bounded x
    { notes := y.notes, root := y.root, depths := y.depths, clips := y.clips
      gated := fun o' => by
        have z := y.gated o'
        simp only [State.modAmbient_ambient, Tab.get_modify]
        split
        · exact k _ z
        · exact z
      shows := y.shows }⟩

theorem State.modTrunk_keeps {s0 s : State} (h : Keeps s0 s) (k : Fin 4) (f : Trunk → Trunk) :
    Keeps s0 (s.modTrunk k f) :=
  h.same rfl

theorem State.modLoop_keeps {s0 s : State} (h : Keeps s0 s) (o : Fin 256) (f : Loop → Loop) :
    Keeps s0 (s.modLoop o f) :=
  h.same rfl

theorem State.modChangeover_keeps {s0 s : State} (h : Keeps s0 s) (x : Fin 8) (f : Changeover → Changeover) :
    Keeps s0 (s.modChangeover x f) :=
  h.same rfl

theorem State.modWalker_keeps {s0 s : State} (h : Keeps s0 s) (l : ListId) (f : Walker → Walker) :
    Keeps s0 (s.modWalker l f) :=
  h.same rfl

theorem State.modTheatre_keeps {s0 s : State} (h : Keeps s0 s) (f : Theatre → Theatre) : Keeps s0 (s.modTheatre f) :=
  h.same rfl

theorem State.modStation_keeps {s0 s : State} (h : Keeps s0 s) (n : Fin 64) (f : Station → Station) :
    Keeps s0 (s.modStation n f) :=
  h.same rfl

theorem State.askRing_keeps {s0 s : State} (h : Keeps s0 s) :
    Keeps s0 (s.askRing) :=
  h.trans (State.askRing_quiet (Quiet.refl s)).toActs.keeps

theorem State.beginCue_keeps {s0 s : State} (h : Keeps s0 s) (cue : Cue) :
    Keeps s0 (s.beginCue cue) :=
  h.trans (State.beginCue_quiet (Quiet.refl s) cue).toActs.keeps

theorem State.beginCycle_keeps {s0 s : State} (h : Keeps s0 s) (v : Fin 8) (p : Fin 12) (cycles : Nat) :
    Keeps s0 (s.beginCycle v p cycles) :=
  h.trans (State.beginCycle_quiet (Quiet.refl s) v p cycles).toActs.keeps

theorem State.bind_keeps {s0 s : State} (h : Keeps s0 s) (w : ChanOwner) (d : StreamDesc) :
    Keeps s0 ((s.bind w d).2) :=
  h.trans (State.bind_quiet (Quiet.refl s) w d).toActs.keeps

theorem State.bindTo_keeps {s0 s : State} (h : Keeps s0 s) (c : Fin 16) (w : ChanOwner) (d : StreamDesc) :
    Keeps s0 (s.bindTo c w d) :=
  h.trans (State.bindTo_quiet (Quiet.refl s) c w d).toActs.keeps

theorem State.burstArrives_keeps {s0 s : State} (h : Keeps s0 s) (c : Fin 16) (n : Nat) (d : List Byte) :
    Keeps s0 (s.burstArrives c n d) :=
  h.trans (State.burstArrives_quiet (Quiet.refl s) c n d).toActs.keeps

theorem State.chimeLost_keeps {s0 s : State} (h : Keeps s0 s) (p : Fin 64) :
    Keeps s0 (s.chimeLost p) :=
  h.trans (State.chimeLost_quiet (Quiet.refl s) p).toActs.keeps

theorem State.clearShow_keeps {s0 s : State} (h : Keeps s0 s) (subject : Nat) :
    Keeps s0 (s.clearShow subject) :=
  h.trans (State.clearShow_quiet (Quiet.refl s) subject).toActs.keeps

theorem State.completeFade_keeps {s0 s : State} (h : Keeps s0 s) :
    Keeps s0 (s.completeFade) :=
  h.trans (State.completeFade_quiet (Quiet.refl s)).toActs.keeps

theorem State.cueQueued_keeps {s0 s : State} (h : Keeps s0 s) (cue : Cue) :
    Keeps s0 (s.cueQueued cue) :=
  h.trans (State.cueQueued_quiet (Quiet.refl s) cue).toActs.keeps

theorem State.cueRecord_keeps {s0 s : State} (h : Keeps s0 s) (hd : Hand) (blocks : List (List Byte)) :
    Keeps s0 (s.cueRecord hd blocks) :=
  h.trans (State.cueRecord_quiet (Quiet.refl s) hd blocks).toActs.keeps

theorem State.definePattern_keeps {s0 s : State} (h : Keeps s0 s) (p : Fin 12) (d : PatternDef) :
    Keeps s0 (s.definePattern p d) :=
  h.trans (State.definePattern_quiet (Quiet.refl s) p d).toActs.keeps

theorem State.discardTransfer_keeps {s0 s : State} (h : Keeps s0 s) (c : Fin 16) (keepWriteBack : Bool) :
    Keeps s0 (s.discardTransfer c keepWriteBack) :=
  h.trans (State.discardTransfer_quiet (Quiet.refl s) c keepWriteBack).toActs.keeps

theorem State.emitNote_keeps {s0 s : State} (h : Keeps s0 s)
    (kind : NoteKind) (code : Nat) (subject : Nat) (detail : Nat) :
    Keeps s0 (s.emitNote kind code subject detail) :=
  h.trans (State.emitNote_quiet (Quiet.refl s) kind code subject detail).toActs.keeps

theorem State.endProgram_keeps {s0 s : State} (h : Keeps s0 s) (p : Fin 64) (code : Nat) :
    Keeps s0 (s.endProgram p code) :=
  h.trans (State.endProgram_quiet (Quiet.refl s) p code).toActs.keeps

theorem State.enterEnded_keeps {s0 s : State} (h : Keeps s0 s) (c : Fin 16) :
    Keeps s0 (s.enterEnded c) :=
  h.trans (State.enterEnded_quiet (Quiet.refl s) c).toActs.keeps

theorem State.enterHeld_keeps {s0 s : State} (h : Keeps s0 s) (r : HoldRecord) :
    Keeps s0 (s.enterHeld r) :=
  h.trans (State.enterHeld_quiet (Quiet.refl s) r).toActs.keeps

theorem State.enterPlaying_keeps {s0 s : State} (h : Keeps s0 s) (p : Fin 64) :
    Keeps s0 (s.enterPlaying p) :=
  h.trans (State.enterPlaying_quiet (Quiet.refl s) p).toActs.keeps

theorem State.evalLine_keeps {s0 s : State} (h : Keeps s0 s) (o : Fin 256) :
    Keeps s0 (s.evalLine o) :=
  h.trans (State.evalLine_quiet (Quiet.refl s) o).toActs.keeps

theorem State.fadeTaken_keeps {s0 s : State} (h : Keeps s0 s) :
    Keeps s0 (s.fadeTaken) :=
  h.trans (State.fadeTaken_quiet (Quiet.refl s)).toActs.keeps

theorem State.finishFade_keeps {s0 s : State} (h : Keeps s0 s) :
    Keeps s0 (s.finishFade) :=
  h.trans (State.finishFade_quiet (Quiet.refl s)).toActs.keeps

theorem State.followTaken_keeps {s0 s : State} (h : Keeps s0 s) :
    Keeps s0 (s.followTaken) :=
  h.trans (State.followTaken_quiet (Quiet.refl s)).toActs.keeps

theorem State.fragmentArrives_keeps {s0 s : State} (h : Keeps s0 s) (c : Fin 16) (addr : Nat) (d : List Byte) :
    Keeps s0 (s.fragmentArrives c addr d) :=
  h.trans (State.fragmentArrives_quiet (Quiet.refl s) c addr d).toActs.keeps

theorem State.freeIfDone_keeps {s0 s : State} (h : Keeps s0 s) (c : Fin 16) :
    Keeps s0 (s.freeIfDone c) :=
  h.trans (State.freeIfDone_quiet (Quiet.refl s) c).toActs.keeps

theorem State.gatherExpired_keeps {s0 s : State} (h : Keeps s0 s) (p : Fin 64) :
    Keeps s0 (s.gatherExpired p) :=
  h.trans (State.gatherExpired_quiet (Quiet.refl s) p).toActs.keeps

theorem State.giveVoice_keeps {s0 s : State} (h : Keeps s0 s) (v : Fin 8) (u : VoiceUser) (p : Fin 12) :
    Keeps s0 (s.giveVoice v u p) :=
  h.trans (State.giveVoice_quiet (Quiet.refl s) v u p).toActs.keeps

theorem State.goRecord_keeps {s0 s : State} (h : Keeps s0 s) (hd : Hand) :
    Keeps s0 (s.goRecord hd) :=
  h.trans (State.goRecord_quiet (Quiet.refl s) hd).toActs.keeps

theorem State.holdShow_keeps {s0 s : State} (h : Keeps s0 s) :
    Keeps s0 (s.holdShow) :=
  h.trans (State.holdShow_quiet (Quiet.refl s)).toActs.keeps

theorem State.hostHoldNote_keeps {s0 s : State} (h : Keeps s0 s) (heldFrom : ShowState) :
    Keeps s0 (s.hostHoldNote heldFrom) :=
  h.trans (State.hostHoldNote_quiet (Quiet.refl s) heldFrom).toActs.keeps

theorem State.issueArrival_keeps {s0 s : State} (h : Keeps s0 s) :
    Keeps s0 ((s.issueArrival).2) :=
  h.trans (State.issueArrival_quiet (Quiet.refl s)).toActs.keeps

theorem State.leaveOwing_keeps {s0 s : State} (h : Keeps s0 s) (v : Fin 8) :
    Keeps s0 (s.leaveOwing v) :=
  h.trans (State.leaveOwing_quiet (Quiet.refl s) v).toActs.keeps

theorem State.modAlarm_keeps {s0 s : State} (h : Keeps s0 s) (k : AlarmKind) (f : AlarmStatus → AlarmStatus) :
    Keeps s0 (s.modAlarm k f) :=
  h.trans (State.modAlarm_quiet (Quiet.refl s) k f).toActs.keeps

theorem State.modCall_keeps {s0 s : State} (h : Keeps s0 s) (c : Fin 16) (f : Call → Call) :
    Keeps s0 (s.modCall c f) :=
  h.trans (State.modCall_quiet (Quiet.refl s) c f).toActs.keeps

theorem State.modChannel_keeps {s0 s : State} (h : Keeps s0 s) (c : Fin 16) (f : Channel → Channel) :
    Keeps s0 (s.modChannel c f) :=
  h.trans (State.modChannel_quiet (Quiet.refl s) c f).toActs.keeps

theorem State.modVoice_keeps {s0 s : State} (h : Keeps s0 s) (v : Fin 8) (f : Voice → Voice) :
    Keeps s0 (s.modVoice v f) :=
  h.trans (State.modVoice_quiet (Quiet.refl s) v f).toActs.keeps

theorem State.recheckWindow_keeps {s0 s : State} (h : Keeps s0 s) :
    Keeps s0 (s.recheckWindow) :=
  h.trans (State.recheckWindow_quiet (Quiet.refl s)).toActs.keeps

theorem State.releaseChannel_keeps {s0 s : State} (h : Keeps s0 s) (w : ChanOwner) :
    Keeps s0 (s.releaseChannel w) :=
  h.trans (State.releaseChannel_quiet (Quiet.refl s) w).toActs.keeps

theorem State.releaseRing_keeps {s0 s : State} (h : Keeps s0 s) :
    Keeps s0 (s.releaseRing) :=
  h.trans (State.releaseRing_quiet (Quiet.refl s)).toActs.keeps

theorem State.releaseVoice_keeps {s0 s : State} (h : Keeps s0 s) (u : VoiceUser) :
    Keeps s0 (s.releaseVoice u) :=
  h.trans (State.releaseVoice_quiet (Quiet.refl s) u).toActs.keeps

theorem State.reloadAlarm_keeps {s0 s : State} (h : Keeps s0 s) (c : Fin 16) :
    Keeps s0 (s.reloadAlarm c) :=
  h.trans (State.reloadAlarm_quiet (Quiet.refl s) c).toActs.keeps

theorem State.removeAll_keeps {s0 s : State} (h : Keeps s0 s) (w : Owner) :
    Keeps s0 (s.removeAll w) :=
  h.trans (State.removeAll_quiet (Quiet.refl s) w).toActs.keeps

theorem State.removeClaim_keeps {s0 s : State} (h : Keeps s0 s) (w : Owner) (o : Fin 256) :
    Keeps s0 (s.removeClaim w o) :=
  h.trans (State.removeClaim_quiet (Quiet.refl s) w o).toActs.keeps

theorem State.reply_keeps {s0 s : State} (h : Keeps s0 s)
    (l : ListId) (hd : Hand) (code : Nat) (mark : Bool) (results : List (Nat × List Byte)) :
    Keeps s0 (s.reply l hd code mark results) :=
  h.trans (State.reply_quiet (Quiet.refl s) l hd code mark results).toActs.keeps

theorem State.requestReturn_keeps {s0 s : State} (h : Keeps s0 s) (l : ListId) (r : Return) :
    Keeps s0 (s.requestReturn l r) :=
  h.trans (State.requestReturn_quiet (Quiet.refl s) l r).toActs.keeps

theorem State.resumeRecord_keeps {s0 s : State} (h : Keeps s0 s) (hd : Hand) :
    Keeps s0 (s.resumeRecord hd) :=
  h.trans (State.resumeRecord_quiet (Quiet.refl s) hd).toActs.keeps

theorem State.resumeShow_keeps {s0 s : State} (h : Keeps s0 s) (subject : Nat) :
    Keeps s0 (s.resumeShow subject) :=
  h.trans (State.resumeShow_quiet (Quiet.refl s) subject).toActs.keeps

theorem State.setCause_keeps {s0 s : State} (h : Keeps s0 s) (b : CauseBit) :
    Keeps s0 (s.setCause b) :=
  h.trans (State.setCause_quiet (Quiet.refl s) b).toActs.keeps

theorem State.setFloor_keeps {s0 s : State} (h : Keeps s0 s) (a : Fin 16) (n : Nat) :
    Keeps s0 (s.setFloor a n) :=
  h.trans (State.setFloor_acts (Acts.refl s) a n).keeps

theorem State.setStage_keeps {s0 s : State} (h : Keeps s0 s) (l : ListId) (g : Stage) :
    Keeps s0 (s.setStage l g) :=
  h.trans (State.setStage_quiet (Quiet.refl s) l g).toActs.keeps

theorem State.showStep_keeps {s0 s : State} (h : Keeps s0 s) :
    Keeps s0 (s.showStep) :=
  h.trans (State.showStep_quiet (Quiet.refl s)).toActs.keeps

theorem State.signalOwner_keeps {s0 s : State} (h : Keeps s0 s) (w : ChanOwner) (f : Channel → Channel) :
    Keeps s0 (s.signalOwner w f) :=
  h.trans (State.signalOwner_quiet (Quiet.refl s) w f).toActs.keeps

theorem State.startHead_keeps {s0 s : State} (h : Keeps s0 s) :
    Keeps s0 (s.startHead) :=
  h.trans (State.startHead_quiet (Quiet.refl s)).toActs.keeps

theorem State.startVoice_keeps {s0 s : State} (h : Keeps s0 s) (v : Fin 8) :
    Keeps s0 (s.startVoice v) :=
  h.trans (State.startVoice_quiet (Quiet.refl s) v).toActs.keeps

theorem State.take_keeps {s0 s : State} (h : Keeps s0 s) (l : ListId) (hd : Hand) (mark : Bool) :
    Keeps s0 (s.take l hd mark) :=
  h.trans (State.take_quiet (Quiet.refl s) l hd mark).toActs.keeps

theorem State.toRead_keeps {s0 s : State} (h : Keeps s0 s) (c : Fin 16) (addr : Nat) :
    Keeps s0 (s.toRead c addr) :=
  h.trans (State.toRead_quiet (Quiet.refl s) c addr).toActs.keeps

theorem State.trackAction_keeps {s0 s : State} (h : Keeps s0 s) (a : TrackAction) :
    Keeps s0 (s.trackAction a) :=
  h.trans (State.trackAction_quiet (Quiet.refl s) a).toActs.keeps

theorem State.unholdPrograms_keeps {s0 s : State} (h : Keeps s0 s) :
    Keeps s0 (s.unholdPrograms) :=
  h.trans (State.unholdPrograms_quiet (Quiet.refl s)).toActs.keeps

theorem State.walkArrives_keeps {s0 s : State} (h : Keeps s0 s) (c : Fin 16) (addr : Nat) (d : List Byte) :
    Keeps s0 (s.walkArrives c addr d) :=
  h.trans (State.walkArrives_quiet (Quiet.refl s) c addr d).toActs.keeps

theorem State.writeBackDone_keeps {s0 s : State} (h : Keeps s0 s) (c : Fin 16) :
    Keeps s0 (s.writeBackDone c) :=
  h.trans (State.writeBackDone_quiet (Quiet.refl s) c).toActs.keeps

theorem State.addRecord_keeps {s0 s : State} (h : Keeps s0 s) (hd : Hand) :
    Keeps s0 (s.addRecord hd) :=
  h.trans (State.addRecord_acts (Acts.refl s) hd).keeps

theorem State.alarmBind_keeps {s0 s : State} (h : Keeps s0 s) (k : AlarmKind) (d : StreamDesc) :
    Keeps s0 (s.alarmBind k d) :=
  h.trans (State.alarmBind_acts (Acts.refl s) k d).keeps

theorem State.alarmCycle_keeps {s0 s : State} (h : Keeps s0 s)
    (k : AlarmKind) (v : Fin 8) (copy : PatternDef) (p : Fin 12) (done : Nat) :
    Keeps s0 (s.alarmCycle k v copy p done) :=
  h.trans (State.alarmCycle_acts (Acts.refl s) k v copy p done).keeps

theorem State.alarmNote_keeps {s0 s : State} (h : Keeps s0 s)
    (k : AlarmKind) (x : AreaState) (as : List (Fin 16)) (cause : AlarmCause) :
    Keeps s0 (s.alarmNote k x as cause) :=
  h.trans (State.alarmNote_acts (Acts.refl s) k x as cause).keeps

theorem State.alarmStart_keeps {s0 s : State} (h : Keeps s0 s) (k : AlarmKind) (arrival : Nat) :
    Keeps s0 (s.alarmStart k arrival) :=
  h.trans (State.alarmStart_acts (Acts.refl s) k arrival).keeps

theorem State.alarmStop_keeps {s0 s : State} (h : Keeps s0 s) (k : AlarmKind) :
    Keeps s0 (s.alarmStop k) :=
  h.trans (State.alarmStop_acts (Acts.refl s) k).keeps

theorem State.alarmVoice_keeps {s0 s : State} (h : Keeps s0 s) (k : AlarmKind) (pat : Fin 12) :
    Keeps s0 (s.alarmVoice k pat) :=
  h.trans (State.alarmVoice_acts (Acts.refl s) k pat).keeps

theorem State.answer_keeps {s0 s : State} (h : Keeps s0 s) (n : Fin 64) :
    Keeps s0 (s.answer n) :=
  h.trans (State.answer_acts (Acts.refl s) n).keeps

theorem State.beginVoicePhase_keeps {s0 s : State} (h : Keeps s0 s) (k : AlarmKind) (v : Fin 8) :
    Keeps s0 (s.beginVoicePhase k v) :=
  h.trans (State.beginVoicePhase_acts (Acts.refl s) k v).keeps

theorem State.clearParty_keeps {s0 s : State} (h : Keeps s0 s) (c : Fin 16) (i : Fin 8) :
    Keeps s0 (s.clearParty c i) :=
  h.trans (State.clearParty_acts (Acts.refl s) c i).keeps

theorem State.closeRecord_keeps {s0 s : State} (h : Keeps s0 s) (hd : Hand) :
    Keeps s0 (s.closeRecord hd) :=
  h.trans (State.closeRecord_acts (Acts.refl s) hd).keeps

theorem State.closureEffect_keeps {s0 s : State} (h : Keeps s0 s) (line : Fin 4) :
    Keeps s0 (s.closureEffect line) :=
  h.trans (State.closureEffect_acts (Acts.refl s) line).keeps

theorem State.crewAlertEnds_keeps {s0 s : State} (h : Keeps s0 s) :
    Keeps s0 (s.crewAlertEnds) :=
  h.trans (State.crewAlertEnds_acts (Acts.refl s)).keeps

theorem State.cycleEnd_keeps {s0 s : State} (h : Keeps s0 s) (v : Fin 8) :
    Keeps s0 (s.cycleEnd v) :=
  h.trans (State.cycleEnd_acts (Acts.refl s) v).keeps

theorem State.definePatternRecord_keeps {s0 s : State} (h : Keeps s0 s) (hd : Hand) (blocks : List (List Byte)) :
    Keeps s0 (s.definePatternRecord hd blocks) :=
  h.trans (State.definePatternRecord_acts (Acts.refl s) hd blocks).keeps

theorem State.defineStationRecord_keeps {s0 s : State} (h : Keeps s0 s) (hd : Hand) :
    Keeps s0 (s.defineStationRecord hd) :=
  h.trans (State.defineStationRecord_acts (Acts.refl s) hd).keeps

theorem State.dropRecord_keeps {s0 s : State} (h : Keeps s0 s) (hd : Hand) :
    Keeps s0 (s.dropRecord hd) :=
  h.trans (State.dropRecord_acts (Acts.refl s) hd).keeps

theorem State.durationExpired_keeps {s0 s : State} (h : Keeps s0 s) (p : Fin 64) :
    Keeps s0 (s.durationExpired p) :=
  h.trans (State.durationExpired_acts (Acts.refl s) p).keeps

theorem State.endParty_keeps {s0 s : State} (h : Keeps s0 s) (c : Fin 16) (i : Fin 8) (st : PartyState) :
    Keeps s0 (s.endParty c i st) :=
  h.trans (State.endParty_acts (Acts.refl s) c i st).keeps

theorem State.endVoicePhase_keeps {s0 s : State} (h : Keeps s0 s) (k : AlarmKind) :
    Keeps s0 (s.endVoicePhase k) :=
  h.trans (State.endVoicePhase_acts (Acts.refl s) k).keeps

theorem State.enterClearing_keeps {s0 s : State} (h : Keeps s0 s) (c : Fin 16) :
    Keeps s0 (s.enterClearing c) :=
  h.trans (State.enterClearing_acts (Acts.refl s) c).keeps

theorem State.enterEnding_keeps {s0 s : State} (h : Keeps s0 s) (p : Fin 64) :
    Keeps s0 (s.enterEnding p) :=
  h.trans (State.enterEnding_acts (Acts.refl s) p).keeps

theorem State.examine_keeps {s0 s : State} (h : Keeps s0 s) (c : Fin 16) :
    Keeps s0 (s.examine c) :=
  h.trans (State.examine_acts (Acts.refl s) c).keeps

theorem State.freeCall_keeps {s0 s : State} (h : Keeps s0 s) (c : Fin 16) :
    Keeps s0 (s.freeCall c) :=
  h.trans (State.freeCall_acts (Acts.refl s) c).keeps

theorem State.gainRecord_keeps {s0 s : State} (h : Keeps s0 s) (hd : Hand) :
    Keeps s0 (s.gainRecord hd) :=
  h.trans (State.gainRecord_acts (Acts.refl s) hd).keeps

theorem State.gatherDue_keeps {s0 s : State} (h : Keeps s0 s) (p : Fin 64) :
    Keeps s0 (s.gatherDue p) :=
  h.trans (State.gatherDue_acts (Acts.refl s) p).keeps

theorem State.hangUp_keeps {s0 s : State} (h : Keeps s0 s) (n : Fin 64) :
    Keeps s0 (s.hangUp n) :=
  h.trans (State.hangUp_acts (Acts.refl s) n).keeps

theorem State.holdExpired_keeps {s0 s : State} (h : Keeps s0 s) (n : Fin 64) :
    Keeps s0 (s.holdExpired n) :=
  h.trans (State.holdExpired_acts (Acts.refl s) n).keeps

theorem State.hookChange_keeps {s0 s : State} (h : Keeps s0 s) (n : Fin 64) (off : Bool) :
    Keeps s0 (s.hookChange n off) :=
  h.trans (State.hookChange_acts (Acts.refl s) n off).keeps

theorem State.idleStation_keeps {s0 s : State} (h : Keeps s0 s) (n : Fin 64) :
    Keeps s0 (s.idleStation n) :=
  h.trans (State.idleStation_acts (Acts.refl s) n).keeps

theorem State.joinParty_keeps {s0 s : State} (h : Keeps s0 s)
    (c : Fin 16) (n : Fin 64) (ring : Bool) (talk : Nat) (listen : Nat) (arrival : Nat) :
    Keeps s0 (s.joinParty c n ring talk listen arrival) :=
  h.trans (State.joinParty_acts (Acts.refl s) c n ring talk listen arrival).keeps

theorem State.modParty_keeps {s0 s : State} (h : Keeps s0 s) (c : Fin 16) (i : Fin 8) (f : Party → Party) :
    Keeps s0 (s.modParty c i f) :=
  h.trans (State.modParty_acts (Acts.refl s) c i f).keeps

theorem State.openCall_keeps {s0 s : State} (h : Keeps s0 s)
    (c : Fin 16) (hd : Hand) (page : Option Page) (ps : List (Fin 64 × RawParty)) :
    Keeps s0 (s.openCall c hd page ps) :=
  h.trans (State.openCall_acts (Acts.refl s) c hd page ps).keeps

theorem State.openRecord_keeps {s0 s : State} (h : Keeps s0 s) (hd : Hand) (blocks : List (List Byte)) :
    Keeps s0 (s.openRecord hd blocks) :=
  h.trans (State.openRecord_acts (Acts.refl s) hd blocks).keeps

theorem State.placeAlarm_keeps {s0 s : State} (h : Keeps s0 s) (k : AlarmKind) (arrival : Nat) (o : Fin 256) :
    Keeps s0 ((s.placeAlarm k arrival o).2) :=
  h.trans (State.placeAlarm_acts (Acts.refl s) k arrival o).keeps

theorem State.placeParty_keeps {s0 s : State} (h : Keeps s0 s) (c : Fin 16) (i : Fin 8) (n : Fin 64) (arrival : Nat) :
    Keeps s0 (s.placeParty c i n arrival) :=
  h.trans (State.placeParty_acts (Acts.refl s) c i n arrival).keeps

theorem State.presence_keeps {s0 s : State} (h : Keeps s0 s) (n : Fin 64) :
    Keeps s0 (s.presence n) :=
  h.trans (State.presence_acts (Acts.refl s) n).keeps

theorem State.quieten_keeps {s0 s : State} (h : Keeps s0 s)
    (k : AlarmKind) (areas : List (Fin 16)) (cause : AlarmCause) :
    Keeps s0 (s.quieten k areas cause) :=
  h.trans (State.quieten_acts (Acts.refl s) k areas cause).keeps

theorem State.raise_keeps {s0 s : State} (h : Keeps s0 s)
    (k : AlarmKind) (areas : List (Fin 16)) (cause : AlarmCause) :
    Keeps s0 (s.raise k areas cause) :=
  h.trans (State.raise_acts (Acts.refl s) k areas cause).keeps

theorem State.raiseRecord_keeps {s0 s : State} (h : Keeps s0 s) (hd : Hand) :
    Keeps s0 (s.raiseRecord hd) :=
  h.trans (State.raiseRecord_acts (Acts.refl s) hd).keeps

theorem State.resetRecord_keeps {s0 s : State} (h : Keeps s0 s) (hd : Hand) :
    Keeps s0 (s.resetRecord hd) :=
  h.trans (State.resetRecord_acts (Acts.refl s) hd).keeps

theorem State.ringExpired_keeps {s0 s : State} (h : Keeps s0 s) (c : Fin 16) (i : Fin 8) :
    Keeps s0 (s.ringExpired c i) :=
  h.trans (State.ringExpired_acts (Acts.refl s) c i).keeps

theorem State.segmentEnd_keeps {s0 s : State} (h : Keeps s0 s) (v : Fin 8) :
    Keeps s0 (s.segmentEnd v) :=
  h.trans (State.segmentEnd_acts (Acts.refl s) v).keeps

theorem State.setAreas_keeps {s0 s : State} (h : Keeps s0 s) (k : AlarmKind) (x : AreaState) (as : List (Fin 16)) :
    Keeps s0 (s.setAreas k x as) :=
  h.trans (State.setAreas_acts (Acts.refl s) k x as).keeps

theorem State.settleFloors_keeps {s0 s : State} (h : Keeps s0 s) (as : List (Fin 16)) :
    Keeps s0 (s.settleFloors as) :=
  h.trans (State.settleFloors_acts (Acts.refl s) as).keeps

theorem State.silence_keeps {s0 s : State} (h : Keeps s0 s)
    (k : AlarmKind) (areas : List (Fin 16)) (cause : AlarmCause) :
    Keeps s0 (s.silence k areas cause) :=
  h.trans (State.silence_acts (Acts.refl s) k areas cause).keeps

theorem State.silenceRecord_keeps {s0 s : State} (h : Keeps s0 s) (hd : Hand) :
    Keeps s0 (s.silenceRecord hd) :=
  h.trans (State.silenceRecord_acts (Acts.refl s) hd).keeps

theorem State.startMic_keeps {s0 s : State} (h : Keeps s0 s) :
    Keeps s0 (s.startMic) :=
  h.trans (State.startMic_acts (Acts.refl s)).keeps

theorem State.startPage_keeps {s0 s : State} (h : Keeps s0 s) (c : Fin 16) :
    Keeps s0 (s.startPage c) :=
  h.trans (State.startPage_acts (Acts.refl s) c).keeps

theorem State.startRecord_keeps {s0 s : State} (h : Keeps s0 s) (hd : Hand) (blocks : List (List Byte)) :
    Keeps s0 (s.startRecord hd blocks) :=
  h.trans (State.startRecord_acts (Acts.refl s) hd blocks).keeps

theorem State.stationLost_keeps {s0 s : State} (h : Keeps s0 s) (n : Fin 64) :
    Keeps s0 (s.stationLost n) :=
  h.trans (State.stationLost_acts (Acts.refl s) n).keeps

theorem State.stationReport_keeps {s0 s : State} (h : Keeps s0 s) (n : Fin 64) (r : StationReport) :
    Keeps s0 (s.stationReport n r) :=
  h.trans (State.stationReport_acts (Acts.refl s) n r).keeps

theorem State.stopMic_keeps {s0 s : State} (h : Keeps s0 s) :
    Keeps s0 (s.stopMic) :=
  h.trans (State.stopMic_acts (Acts.refl s)).keeps

theorem State.stopProgram_keeps {s0 s : State} (h : Keeps s0 s) (p : Fin 64) (mode : Nat) :
    Keeps s0 (s.stopProgram p mode) :=
  h.trans (State.stopProgram_acts (Acts.refl s) p mode).keeps

theorem State.stopRecord_keeps {s0 s : State} (h : Keeps s0 s) (hd : Hand) :
    Keeps s0 (s.stopRecord hd) :=
  h.trans (State.stopRecord_acts (Acts.refl s) hd).keeps

theorem State.streamComplete_keeps {s0 s : State} (h : Keeps s0 s) (p : Fin 64) :
    Keeps s0 (s.streamComplete p) :=
  h.trans (State.streamComplete_acts (Acts.refl s) p).keeps

theorem State.unclaimParty_keeps {s0 s : State} (h : Keeps s0 s) (c : Fin 16) (i : Fin 8) :
    Keeps s0 (s.unclaimParty c i) :=
  h.trans (State.unclaimParty_acts (Acts.refl s) c i).keeps

theorem State.voicePoint_keeps {s0 s : State} (h : Keeps s0 s) (k : AlarmKind) (v : Fin 8) :
    Keeps s0 (s.voicePoint k v) :=
  h.trans (State.voicePoint_acts (Acts.refl s) k v).keeps

theorem State.withdraw_keeps {s0 s : State} (h : Keeps s0 s) (k : AlarmKind) (areas : List (Fin 16)) :
    Keeps s0 (s.withdraw k areas) :=
  h.trans (State.withdraw_acts (Acts.refl s) k areas).keeps

theorem State.onGrant_keeps {s0 s : State} (h : Keeps s0 s) (t : Transfer) : Keeps s0 (s.onGrant t) := by
  unfold State.onGrant
  split
  · exact h.same rfl
  · refine ⟨h.pending, fun x => ?_⟩
    have y := h.bounded x
    refine ⟨⟨?_, Nat.zero_le _⟩, y.root, y.depths, y.clips, y.gated, y.shows⟩
    have := y.notes.1
    simp only [List.length_tail]
    omega
  · exact State.modChannel_keeps h _ _
  all_goals exact h

theorem State.arbitrate_keeps {s0 s : State} (h : Keeps s0 s) : Keeps s0 s.arbitrate := by
  unfold State.arbitrate
  split
  · exact h
  · split
    · exact h
    · exact (State.onGrant_keeps h _).same rfl

theorem State.endGrant_keeps {s0 s : State} (h : Keeps s0 s) (t : Transfer) : Keeps s0 (s.endGrant t) := by
  unfold State.endGrant
  repeat' first
    | with_reducible assumption | split | intro _ | dsimp only
    | (fail_if_no_progress with_reducible refine Keeps.same ?_ rfl)

theorem State.complete_keeps {s0 s : State} (h : Keeps s0 s) (mine : Transfer → Bool) (f : Transfer → State → State)
    (k : ∀ t s, Keeps s0 s → Keeps s0 (f t s)) : Keeps s0 (s.complete mine f) := by
  unfold State.complete
  split
  · split
    · refine State.arbitrate_keeps ?_
      have := State.endGrant_keeps h
      split
      · exact this _
      · exact k _ _ (this _)
    · exact h
  · exact h

theorem State.handOver_keeps {s0 s : State} (h : Keeps s0 s) (l : ListId) (kind : Nat)
    (f : Hand → List (List Byte) → State → State) (k : ∀ x b s, Keeps s0 s → Keeps s0 (f x b s)) :
    Keeps s0 (s.handOver l kind f) := by
  unfold State.handOver
  split
  · split
    · exact State.arbitrate_keeps (k _ _ _ h)
    · exact h
  · exact h

theorem State.recomputeC_keeps {s0 s : State} (h : Keeps s0 s) (o : Fin 256) : Keeps s0 (s.recomputeC o) := by
  unfold State.recomputeC
  repeat' first
    | with_reducible assumption | (with_reducible refine State.modAmbient_keeps ?_ _ _ ?_) | split | intro _

theorem State.setBaseline_keeps {s0 s : State} (h : Keeps s0 s) (o : Fin 256) (b : Nat) :
    Keeps s0 (s.setBaseline o b) := by
  unfold State.setBaseline
  repeat' first
    | with_reducible assumption | (with_reducible refine State.modAmbient_keeps ?_ _ _ ?_)
    | with_reducible refine State.recomputeC_keeps ?_ _ | split | intro _

theorem State.completeCapture_keeps {s0 s : State} (h : Keeps s0 s) (o : Fin 256) :
    Keeps s0 (s.completeCapture o) := by
  unfold State.completeCapture
  repeat' first
    | with_reducible assumption | (with_reducible refine State.modAmbient_keeps ?_ _ _ ?_)
    | with_reducible refine State.requestReturn_keeps ?_ _ _ | with_reducible refine State.setBaseline_keeps ?_ _ _
    | split | intro _ | dsimp only

theorem State.windowAt_keeps {s0 s : State} (h : Keeps s0 s) (o : Fin 256) : Keeps s0 (s.windowAt o) := by
  unfold State.windowAt
  dsimp only
  refine State.modAmbient_keeps ?_ _ _ fun a x => x
  split
  · exact h
  · split
    · exact State.modAmbient_keeps h _ _ fun a x => Nat.min_le_left _ _
    · split
      · exact h
      · have base := State.recomputeC_keeps (State.modAmbient_keeps h o (fun a =>
          { a with level := smooth a.level (windowLevel (s.ambient.outlets.get o).sum s.ambient.length) (s.outlets.get o).smoothing }) fun a x => x) o
        split
        · exact State.completeCapture_keeps base o
        · exact base

theorem State.windowComplete_keeps {s0 s : State} (h : Keeps s0 s) : Keeps s0 (s.windowComplete) := by
  unfold State.windowComplete
  repeat' first
    | with_reducible assumption | with_reducible refine State.windowAt_keeps ?_ _
    | (with_reducible refine State.forAll_keeps ?_ _ _ ?_) | split | intro _ | dsimp only
    | (fail_if_no_progress with_reducible refine Keeps.same ?_ rfl)

theorem State.ambientRedefined_keeps {s0 s : State} (h : Keeps s0 s) (o : Fin 256) (old : Option (Fin 256)) :
    Keeps s0 (s.ambientRedefined o old) := by
  unfold State.ambientRedefined
  repeat' first
    | with_reducible assumption | with_reducible refine State.completeCapture_keeps ?_ _
    | (with_reducible refine State.modAmbient_keeps ?_ _ _ ?_) | with_reducible refine State.recomputeC_keeps ?_ _
    | split | intro _

theorem State.calibrateAmbient_keeps {s0 s : State} (h : Keeps s0 s) (o : Fin 256) (hd : Hand) :
    Keeps s0 (s.calibrateAmbient o hd) := by
  unfold State.calibrateAmbient
  repeat' first
    | with_reducible assumption | (with_reducible refine State.modAmbient_keeps ?_ _ _ ?_)
    | with_reducible refine State.reply_keeps ?_ _ _ _ _ _ | with_reducible refine State.setBaseline_keeps ?_ _ _
    | with_reducible refine State.take_keeps ?_ _ _ _ | split | intro _ | dsimp only

theorem State.beginWindow_keeps {s0 s : State} (h : Keeps s0 s) : Keeps s0 s.beginWindow := by
  unfold State.beginWindow
  split
  · refine ⟨h.pending, fun x => ?_⟩
    have y := h.bounded x
    refine ⟨y.notes, y.root, y.depths, y.clips, fun o => ?_, y.shows⟩
    simpa using y.gated o
  · exact h

theorem State.bindRecord_keeps {s0 s : State} (h : Keeps s0 s) (hd : Hand) : Keeps s0 (s.bindRecord hd) := by
  unfold State.bindRecord
  repeat' first
    | with_reducible assumption | with_reducible refine State.modTheatre_keeps ?_ _
    | with_reducible refine State.releaseChannel_keeps ?_ _ | with_reducible refine State.reply_keeps ?_ _ _ _ _ _
    | split | intro _ | dsimp only

theorem State.acceptClosure_keeps {s0 s : State} (h : Keeps s0 s) (line : Fin 4) :
    Keeps s0 (s.acceptClosure line) := by
  unfold State.acceptClosure
  repeat' first
    | with_reducible assumption | with_reducible refine State.closureEffect_keeps ?_ _
    | with_reducible refine State.emitNote_keeps ?_ _ _ _ _ | with_reducible refine State.setCause_keeps ?_ _
    | split | intro _ | dsimp only | (fail_if_no_progress with_reducible refine Keeps.same ?_ rfl)

theorem State.acceptOpening_keeps {s0 s : State} (h : Keeps s0 s) (line : Fin 4) :
    Keeps s0 (s.acceptOpening line) := by
  unfold State.acceptOpening
  repeat' first
    | with_reducible assumption | with_reducible refine State.stopMic_keeps ?_ | split | intro _ | dsimp only
    | (fail_if_no_progress with_reducible refine Keeps.same ?_ rfl)

theorem State.sampleContact_keeps {s0 s : State} (h : Keeps s0 s) (line : Fin 4) (closed : Bool) :
    Keeps s0 (s.sampleContact line closed) := by
  unfold State.sampleContact
  repeat' first
    | with_reducible assumption | with_reducible refine State.acceptClosure_keeps ?_ _
    | with_reducible refine State.acceptOpening_keeps ?_ _ | split | intro _ | dsimp only
    | (fail_if_no_progress with_reducible refine Keeps.same ?_ rfl)

theorem State.defineAlarmRecord_keeps {s0 s : State} (h : Keeps s0 s) (hd : Hand) :
    Keeps s0 (s.defineAlarmRecord hd) := by
  unfold State.defineAlarmRecord
  repeat' first
    | with_reducible assumption | with_reducible refine State.reply_keeps ?_ _ _ _ _ _ | split | intro _
    | dsimp only | (fail_if_no_progress with_reducible refine Keeps.same ?_ rfl)

theorem State.setLoopState_keeps {s0 s : State} (h : Keeps s0 s) (o : Fin 256) : Keeps s0 (s.setLoopState o) := by
  unfold State.setLoopState
  repeat' first | with_reducible assumption | with_reducible refine State.modLoop_keeps ?_ _ _

theorem State.setLoopBaseline_keeps {s0 s : State} (h : Keeps s0 s) (o : Fin 256) (b : Nat) :
    Keeps s0 (s.setLoopBaseline o b) := by
  unfold State.setLoopBaseline
  repeat' first
    | with_reducible assumption | with_reducible refine State.modLoop_keeps ?_ _ _
    | with_reducible refine State.setLoopState_keeps ?_ _

theorem State.loopNote_keeps {s0 s : State} (h : Keeps s0 s) (o : Fin 256) (old : LoopState) (new : LoopState)
    (reading : Nat) :
    Keeps s0 (s.loopNote o old new reading) := by
  unfold State.loopNote
  repeat' first
    | with_reducible assumption | with_reducible refine State.emitNote_keeps ?_ _ _ _ _
    | with_reducible refine State.setCause_keeps ?_ _ | split

theorem State.captureReading_keeps {s0 s : State} (h : Keeps s0 s) (o : Fin 256) (reading : Nat) :
    Keeps s0 (s.captureReading o reading) := by
  unfold State.captureReading
  repeat' first
    | with_reducible assumption | with_reducible refine State.modLoop_keeps ?_ _ _
    | with_reducible refine State.requestReturn_keeps ?_ _ _
    | with_reducible refine State.setLoopBaseline_keeps ?_ _ _ | split

theorem State.loopReading_keeps {s0 s : State} (h : Keeps s0 s) (o : Fin 256) (reading : Nat) :
    Keeps s0 (s.loopReading o reading) := by
  unfold State.loopReading
  repeat' first
    | with_reducible assumption | with_reducible refine State.captureReading_keeps ?_ _ _
    | with_reducible refine State.loopNote_keeps ?_ _ _ _ _ | with_reducible refine State.modLoop_keeps ?_ _ _

theorem State.changeoverRefused_keeps {s0 s : State} (h : Keeps s0 s) (o : Fin 256) (reason : Nat) :
    Keeps s0 (s.changeoverRefused o reason) := by
  unfold State.changeoverRefused
  repeat' first
    | with_reducible assumption | with_reducible refine State.emitNote_keeps ?_ _ _ _ _
    | with_reducible refine State.setCause_keeps ?_ _

theorem State.attemptChangeover_keeps {s0 s : State} (h : Keeps s0 s) (o : Fin 256) :
    Keeps s0 (s.attemptChangeover o) := by
  unfold State.attemptChangeover
  repeat' first
    | with_reducible assumption | with_reducible refine State.changeoverRefused_keeps ?_ _ _
    | with_reducible refine State.modChangeover_keeps ?_ _ _ | split | intro _ | dsimp only

theorem State.freeSlot_keeps {s0 s : State} (h : Keeps s0 s) (x : Fin 8) : Keeps s0 (s.freeSlot x) := by
  unfold State.freeSlot
  repeat' first | with_reducible assumption | with_reducible refine State.modChangeover_keeps ?_ _ _

theorem State.failChangeover_keeps {s0 s : State} (h : Keeps s0 s) (x : Fin 8) (reason : Nat) :
    Keeps s0 (s.failChangeover x reason) := by
  unfold State.failChangeover
  repeat' first
    | with_reducible assumption | with_reducible refine State.emitNote_keeps ?_ _ _ _ _
    | with_reducible refine State.freeSlot_keeps ?_ _ | with_reducible refine State.setCause_keeps ?_ _

theorem State.changeoverEcho_keeps {s0 s : State} (h : Keeps s0 s) (x : Fin 8) (e : Option (Fin 64 × Fin 64)) :
    Keeps s0 (s.changeoverEcho x e) := by
  unfold State.changeoverEcho
  repeat' first
    | with_reducible assumption | with_reducible refine State.emitNote_keeps ?_ _ _ _ _
    | with_reducible refine State.freeSlot_keeps ?_ _ | with_reducible refine State.modChangeover_keeps ?_ _ _
    | split | intro _ | dsimp only

theorem State.pendingExpired_keeps {s0 s : State} (h : Keeps s0 s) (x : Fin 8) : Keeps s0 (s.pendingExpired x) := by
  unfold State.pendingExpired
  repeat' first
    | with_reducible assumption | with_reducible refine State.failChangeover_keeps ?_ _ _ | split | intro _
    | dsimp only

theorem State.releaseExpired_keeps {s0 s : State} (h : Keeps s0 s) (x : Fin 8) : Keeps s0 (s.releaseExpired x) := by
  unfold State.releaseExpired
  repeat' first
    | with_reducible assumption | with_reducible refine State.emitNote_keeps ?_ _ _ _ _
    | with_reducible refine State.freeSlot_keeps ?_ _ | with_reducible refine State.setCause_keeps ?_ _ | split
    | intro _ | dsimp only

theorem State.changeoverTrunkDown_keeps {s0 s : State} (h : Keeps s0 s) (x : Fin 8) :
    Keeps s0 (s.changeoverTrunkDown x) := by
  unfold State.changeoverTrunkDown
  repeat' first
    | with_reducible assumption | with_reducible refine State.failChangeover_keeps ?_ _ _
    | with_reducible refine State.freeSlot_keeps ?_ _ | split

theorem State.releaseRecord_keeps {s0 s : State} (h : Keeps s0 s) (hd : Hand) : Keeps s0 (s.releaseRecord hd) := by
  unfold State.releaseRecord
  repeat' first
    | with_reducible assumption | with_reducible refine State.modChangeover_keeps ?_ _ _
    | with_reducible refine State.reply_keeps ?_ _ _ _ _ _ | split

theorem State.ampFlag_keeps {s0 s : State} (h : Keeps s0 s) (o : Fin 256) (flag : Bool) :
    Keeps s0 (s.ampFlag o flag) := by
  unfold State.ampFlag
  repeat' first
    | with_reducible assumption | with_reducible refine State.attemptChangeover_keeps ?_ _
    | with_reducible refine State.emitNote_keeps ?_ _ _ _ _ | with_reducible refine State.modLoop_keeps ?_ _ _
    | with_reducible refine State.setCause_keeps ?_ _ | split

theorem State.enterTraining_keeps {s0 s : State} (h : Keeps s0 s) (k : Fin 4) : Keeps s0 (s.enterTraining k) := by
  unfold State.enterTraining
  repeat' first | with_reducible assumption | with_reducible refine State.modTrunk_keeps ?_ _ _

theorem State.answerExpired_keeps {s0 s : State} (h : Keeps s0 s) (k : Fin 4) : Keeps s0 (s.answerExpired k) := by
  unfold State.answerExpired
  repeat' first
    | with_reducible assumption | with_reducible refine State.answer_keeps ?_ _
    | with_reducible refine State.enterTraining_keeps ?_ _ | split | intro _ | dsimp only

theorem State.enterUp_keeps {s0 s : State} (h : Keeps s0 s) (k : Fin 4) (b : AbilityBlock) :
    Keeps s0 (s.enterUp k b) := by
  unfold State.enterUp
  repeat' first
    | with_reducible assumption | with_reducible refine State.emitNote_keeps ?_ _ _ _ _
    | with_reducible refine State.modTrunk_keeps ?_ _ _ | with_reducible refine State.setLoopState_keeps ?_ _
    | (with_reducible refine State.forAll_keeps ?_ _ _ ?_) | split | intro _

theorem State.abilityArrives_keeps {s0 s : State} (h : Keeps s0 s) (k : Fin 4) (b : AbilityBlock) :
    Keeps s0 (s.abilityArrives k b) := by
  unfold State.abilityArrives
  repeat' first
    | with_reducible assumption | with_reducible refine State.enterUp_keeps ?_ _ _ | split | intro _ | dsimp only

theorem State.leaveUp_keeps {s0 s : State} (h : Keeps s0 s) (k : Fin 4) : Keeps s0 (s.leaveUp k) := by
  unfold State.leaveUp
  repeat' first
    | with_reducible assumption | with_reducible refine State.changeoverTrunkDown_keeps ?_ _
    | with_reducible refine State.emitNote_keeps ?_ _ _ _ _ | with_reducible refine State.modLoop_keeps ?_ _ _
    | with_reducible refine State.modTrunk_keeps ?_ _ _ | with_reducible refine State.setCause_keeps ?_ _
    | with_reducible refine State.setLoopState_keeps ?_ _ | with_reducible refine State.stationLost_keeps ?_ _
    | (with_reducible refine State.forAll_keeps ?_ _ _ ?_) | split | intro _

theorem State.syncExpired_keeps {s0 s : State} (h : Keeps s0 s) (k : Fin 4) : Keeps s0 (s.syncExpired k) := by
  unfold State.syncExpired
  repeat' first
    | with_reducible assumption | with_reducible refine State.leaveUp_keeps ?_ _ | split | intro _ | dsimp only

theorem State.loopReports_keeps {s0 s : State} (h : Keeps s0 s) (k : Fin 4) (b : ControlBlock) :
    Keeps s0 (s.loopReports k b) := by
  unfold State.loopReports
  repeat' first
    | with_reducible assumption | with_reducible refine State.ampFlag_keeps ?_ _ _
    | with_reducible refine State.loopReading_keeps ?_ _ _ | (with_reducible refine State.forAll_keeps ?_ _ _ ?_)
    | split | intro _ | dsimp only

theorem State.stationReports_keeps {s0 s : State} (h : Keeps s0 s) (k : Fin 4) (b : ControlBlock) :
    Keeps s0 (s.stationReports k b) := by
  unfold State.stationReports
  repeat' first
    | with_reducible assumption | with_reducible refine State.stationReport_keeps ?_ _ _
    | (with_reducible refine State.forAll_keeps ?_ _ _ ?_) | split | intro _ | dsimp only

theorem State.echoes_keeps {s0 s : State} (h : Keeps s0 s) (k : Fin 4) (b : ControlBlock) :
    Keeps s0 (s.echoes k b) := by
  unfold State.echoes
  repeat' first
    | with_reducible assumption | with_reducible refine State.changeoverEcho_keeps ?_ _ _
    | (with_reducible refine State.forAll_keeps ?_ _ _ ?_) | split | intro _

theorem State.inbound_keeps {s0 s : State} (h : Keeps s0 s) (k : Fin 4) (b : ControlBlock) :
    Keeps s0 (s.inbound k b) := by
  unfold State.inbound
  repeat' first
    | with_reducible assumption | with_reducible refine State.echoes_keeps ?_ _ _
    | with_reducible refine State.loopReports_keeps ?_ _ _ | with_reducible refine State.modTrunk_keeps ?_ _ _
    | with_reducible refine State.stationReports_keeps ?_ _ _ | split

theorem State.calibrateLoop_keeps {s0 s : State} (h : Keeps s0 s) (o : Fin 256) (hd : Hand) :
    Keeps s0 (s.calibrateLoop o hd) := by
  unfold State.calibrateLoop
  repeat' first
    | with_reducible assumption | with_reducible refine State.modLoop_keeps ?_ _ _
    | with_reducible refine State.reply_keeps ?_ _ _ _ _ _
    | with_reducible refine State.setLoopBaseline_keeps ?_ _ _ | with_reducible refine State.take_keeps ?_ _ _ _
    | split | intro _ | dsimp only

theorem State.loopRedefined_keeps {s0 s : State} (h : Keeps s0 s) (o : Fin 256) (old : Outlet) :
    Keeps s0 (s.loopRedefined o old) := by
  unfold State.loopRedefined
  repeat' first
    | with_reducible assumption | with_reducible refine State.modLoop_keeps ?_ _ _
    | with_reducible refine State.setLoopState_keeps ?_ _ | split

theorem State.reportToAlarms_keeps {s0 s : State} (h : Keeps s0 s) (o : Fin 256) : Keeps s0 (s.reportToAlarms o) := by
  unfold State.reportToAlarms
  repeat' first
    | with_reducible assumption | with_reducible refine State.alarmStart_keeps ?_ _ _
    | with_reducible refine State.placeAlarm_keeps ?_ _ _ _ | (with_reducible refine State.forAll_keeps ?_ _ _ ?_)
    | split | intro _ | dsimp only

theorem State.reportToMic_keeps {s0 s : State} (h : Keeps s0 s) (o : Fin 256) : Keeps s0 (s.reportToMic o) := by
  refine h.trans (Quiet.toActs ?_).keeps
  unfold State.reportToMic
  have q := Quiet.refl s
  repeat' first
    | with_reducible assumption | with_reducible refine State.modProgram_high ?_ _ _ micSlot_high ?_
    | with_reducible refine State.place_quiet ?_ _ _ fun _ y => Claim.fits_high y rfl micSlot_high
    | exact fun _ => id | split | intro _ | dsimp only

theorem State.applyOutlet_keeps {s0 s : State} (h : Keeps s0 s) (o : Fin 256) (new : Outlet) :
    Keeps s0 (s.applyOutlet o new) := by
  unfold State.applyOutlet
  repeat' first
    | with_reducible assumption | with_reducible refine State.ambientRedefined_keeps ?_ _ _
    | with_reducible refine State.evalLine_keeps ?_ _ | with_reducible refine State.loopRedefined_keeps ?_ _ _
    | with_reducible refine State.reportToAlarms_keeps ?_ _ | with_reducible refine State.reportToMic_keeps ?_ _
    | split | intro _ | dsimp only | (fail_if_no_progress with_reducible refine Keeps.same ?_ rfl)

theorem State.defineOutletRecord_keeps {s0 s : State} (h : Keeps s0 s) (hd : Hand) :
    Keeps s0 (s.defineOutletRecord hd) := by
  unfold State.defineOutletRecord
  repeat' first
    | with_reducible assumption | with_reducible refine State.applyOutlet_keeps ?_ _ _
    | with_reducible refine State.reply_keeps ?_ _ _ _ _ _ | split | intro _ | dsimp only

theorem State.defineInletRecord_keeps {s0 s : State} (h : Keeps s0 s) (hd : Hand) :
    Keeps s0 (s.defineInletRecord hd) := by
  unfold State.defineInletRecord
  repeat' first
    | with_reducible assumption | with_reducible refine State.reply_keeps ?_ _ _ _ _ _ | split | intro _
    | dsimp only | (fail_if_no_progress with_reducible refine Keeps.same ?_ rfl)

theorem State.calibrateRecord_keeps {s0 s : State} (h : Keeps s0 s) (hd : Hand) :
    Keeps s0 (s.calibrateRecord hd) := by
  unfold State.calibrateRecord
  repeat' first
    | with_reducible assumption | with_reducible refine State.calibrateAmbient_keeps ?_ _ _
    | with_reducible refine State.calibrateLoop_keeps ?_ _ _ | with_reducible refine State.reply_keeps ?_ _ _ _ _ _
    | split | intro _ | dsimp only

theorem State.startWalk_keeps {s0 s : State} (h : Keeps s0 s) (l : ListId) : Keeps s0 (s.startWalk l) := by
  unfold State.startWalk
  repeat' first | with_reducible assumption | with_reducible refine State.setStage_keeps ?_ _ _ | split

theorem State.requestWalk_keeps {s0 s : State} (h : Keeps s0 s) (l : ListId) : Keeps s0 (s.requestWalk l) := by
  unfold State.requestWalk
  repeat' first
    | with_reducible assumption | with_reducible refine State.modWalker_keeps ?_ _ _
    | with_reducible refine State.startWalk_keeps ?_ _ | split | intro _ | dsimp only

theorem State.endWalk_keeps {s0 s : State} (h : Keeps s0 s) (l : ListId) : Keeps s0 (s.endWalk l) := by
  unfold State.endWalk
  repeat' first
    | with_reducible assumption | with_reducible refine State.modWalker_keeps ?_ _ _
    | with_reducible refine State.requestWalk_keeps ?_ _ | split | intro _ | dsimp only

theorem State.endWalkIn_keeps {s0 s : State} (h : Keeps s0 s) (l : ListId) (st : WalkerState) :
    Keeps s0 (s.endWalkIn l st) := by
  unfold State.endWalkIn
  repeat' first
    | with_reducible assumption | with_reducible refine State.endWalk_keeps ?_ _
    | with_reducible refine State.modWalker_keeps ?_ _ _

theorem State.listError_keeps {s0 s : State} (h : Keeps s0 s) (l : ListId) : Keeps s0 (s.listError l) := by
  unfold State.listError
  repeat' first
    | with_reducible assumption | with_reducible refine State.modWalker_keeps ?_ _ _
    | with_reducible refine State.setCause_keeps ?_ _ | split | intro _ | dsimp only
    | (fail_if_no_progress with_reducible refine Keeps.same ?_ rfl)

theorem State.walkFault_keeps {s0 s : State} (h : Keeps s0 s) (l : ListId) : Keeps s0 (s.walkFault l) := by
  unfold State.walkFault
  repeat' first
    | with_reducible assumption | with_reducible refine State.endWalk_keeps ?_ _
    | with_reducible refine State.listError_keeps ?_ _ | split

theorem State.followLink_keeps {s0 s : State} (h : Keeps s0 s) (l : ListId) (link : Nat) :
    Keeps s0 (s.followLink l link) := by
  unfold State.followLink
  repeat' first
    | with_reducible assumption | with_reducible refine State.endWalk_keeps ?_ _
    | with_reducible refine State.modWalker_keeps ?_ _ _ | with_reducible refine State.setStage_keeps ?_ _ _
    | split | intro _ | dsimp only

theorem State.handleLink_keeps {s0 s : State} (h : Keeps s0 s) (l : ListId) (addr : Nat) (link : Nat) :
    Keeps s0 (s.handleLink l addr link) := by
  unfold State.handleLink
  repeat' first
    | with_reducible assumption | with_reducible refine State.endWalk_keeps ?_ _
    | with_reducible refine State.endWalkIn_keeps ?_ _ _ | with_reducible refine State.followLink_keeps ?_ _ _
    | with_reducible refine State.walkFault_keeps ?_ _ | split

theorem State.takeRecord_keeps {s0 s : State} (h : Keeps s0 s) (l : ListId) (hd : Hand) :
    Keeps s0 (s.takeRecord l hd) := by
  unfold State.takeRecord
  repeat' first
    | with_reducible assumption | with_reducible refine State.endWalkIn_keeps ?_ _ _
    | (with_reducible refine State.handOver_keeps ?_ _ _ _ ?_) | with_reducible refine State.modWalker_keeps ?_ _ _
    | with_reducible refine State.reply_keeps ?_ _ _ _ _ _ | with_reducible refine State.setStage_keeps ?_ _ _
    | split

theorem State.recordArrives_keeps {s0 s : State} (h : Keeps s0 s) (l : ListId) (d : List Byte) :
    Keeps s0 (s.recordArrives l d) := by
  unfold State.recordArrives
  repeat' first
    | with_reducible assumption | with_reducible refine State.endWalk_keeps ?_ _
    | with_reducible refine State.endWalkIn_keeps ?_ _ _ | with_reducible refine State.takeRecord_keeps ?_ _ _
    | split | intro _ | dsimp only

theorem State.linkArrives_keeps {s0 s : State} (h : Keeps s0 s) (l : ListId) (link : Nat) :
    Keeps s0 (s.linkArrives l link) := by
  unfold State.linkArrives
  repeat' first
    | with_reducible assumption | with_reducible refine State.endWalk_keeps ?_ _
    | with_reducible refine State.handleLink_keeps ?_ _ _ _ | split | intro _ | dsimp only

theorem State.blockArrives_keeps {s0 s : State} (h : Keeps s0 s) (l : ListId) (d : List Byte) :
    Keeps s0 (s.blockArrives l d) := by
  unfold State.blockArrives
  repeat' first
    | with_reducible assumption | (with_reducible refine State.handOver_keeps ?_ _ _ _ ?_)
    | with_reducible refine State.setStage_keeps ?_ _ _ | split

theorem State.takenReady_keeps {s0 s : State} (h : Keeps s0 s) (l : ListId) (hd : Hand) :
    Keeps s0 (s.takenReady l hd) := by
  unfold State.takenReady
  split
  · exact ⟨h.pending, fun x => have y := h.bounded x; ⟨y.notes, y.root, y.depths, y.clips, y.gated, y.shows⟩⟩
  · exact h.same rfl
  all_goals exact h

theorem State.takenDone_keeps {s0 s : State} (h : Keeps s0 s) (l : ListId) : Keeps s0 (s.takenDone l) := by
  unfold State.takenDone
  repeat' first
    | with_reducible assumption | with_reducible refine State.handleLink_keeps ?_ _ _ _
    | with_reducible refine State.takenReady_keeps ?_ _ _ | split

theorem State.returnDone_keeps {s0 s : State} (h : Keeps s0 s) (l : ListId) : Keeps s0 (s.returnDone l) := by
  unfold State.returnDone
  repeat' first
    | with_reducible assumption | with_reducible refine State.handleLink_keeps ?_ _ _ _
    | with_reducible refine State.setCause_keeps ?_ _ | with_reducible refine State.walkFault_keeps ?_ _ | split
    | intro _ | dsimp only

theorem State.runStart_keeps {s0 s : State} (h : Keeps s0 s) : Keeps s0 (s.runStart) := by
  unfold State.runStart
  repeat' first
    | with_reducible assumption | split | intro _ | dsimp only
    | (fail_if_no_progress with_reducible refine Keeps.same ?_ rfl)

theorem State.windAll_keeps {s0 s : State} (h : Keeps s0 s) (f : Walker → Walker) : Keeps s0 (s.windAll f) := by
  unfold State.windAll
  repeat' first
    | with_reducible assumption | split | intro _ | dsimp only
    | (fail_if_no_progress with_reducible refine Keeps.same ?_ rfl)

theorem State.halt_keeps {s0 s : State} (h : Keeps s0 s) : Keeps s0 (s.halt) := by
  unfold State.halt
  repeat' first
    | with_reducible assumption | with_reducible refine State.windAll_keeps ?_ _ | split | intro _ | dsimp only
    | (fail_if_no_progress with_reducible refine Keeps.same ?_ rfl)

theorem State.runStop_keeps {s0 s : State} (h : Keeps s0 s) : Keeps s0 (s.runStop) := by
  unfold State.runStop
  repeat' first
    | with_reducible assumption | with_reducible refine State.emitNote_keeps ?_ _ _ _ _
    | with_reducible refine State.halt_keeps ?_ | split | intro _ | dsimp only
    | (fail_if_no_progress with_reducible refine Keeps.same ?_ rfl)

theorem State.loadBeat_keeps {s0 s : State} (h : Keeps s0 s) : Keeps s0 (s.loadBeat) := by
  unfold State.loadBeat
  repeat' first
    | with_reducible assumption | split | intro _ | dsimp only
    | (fail_if_no_progress with_reducible refine Keeps.same ?_ rfl)

theorem State.loadList_keeps {s0 s : State} (h : Keeps s0 s) (d : List Byte) (l : ListId) :
    Keeps s0 (s.loadList d l) := by
  unfold State.loadList
  repeat' first
    | with_reducible assumption | with_reducible refine State.listError_keeps ?_ _
    | with_reducible refine State.modWalker_keeps ?_ _ _ | with_reducible refine State.requestWalk_keeps ?_ _
    | split | intro _ | dsimp only

theorem State.failList_keeps {s0 s : State} (h : Keeps s0 s) (l : ListId) : Keeps s0 (s.failList l) := by
  unfold State.failList
  repeat' first
    | with_reducible assumption | with_reducible refine State.listError_keeps ?_ _
    | with_reducible refine State.modWalker_keeps ?_ _ _

theorem State.enterRunning_keeps {s0 s : State} (h : Keeps s0 s) (d : List Byte) : Keeps s0 (s.enterRunning d) := by
  unfold State.enterRunning
  repeat' first
    | with_reducible assumption | with_reducible refine State.failList_keeps ?_ _
    | with_reducible refine State.loadBeat_keeps ?_ | with_reducible refine State.loadList_keeps ?_ _ _
    | with_reducible refine State.recheckWindow_keeps ?_ | with_reducible refine State.startMic_keeps ?_
    | (with_reducible refine State.forAll_keeps ?_ _ _ ?_) | split | intro _ | dsimp only
    | (fail_if_no_progress with_reducible refine Keeps.same ?_ rfl)

theorem State.rootArrives_keeps {s0 s : State} (h : Keeps s0 s) (d : List Byte) : Keeps s0 (s.rootArrives d) := by
  unfold State.rootArrives
  repeat' first
    | with_reducible assumption | with_reducible refine State.enterRunning_keeps ?_ _ | split | intro _
    | dsimp only | (fail_if_no_progress with_reducible refine Keeps.same ?_ rfl)

theorem State.scanExpired_keeps {s0 s : State} (h : Keeps s0 s) (l : ListId) : Keeps s0 (s.scanExpired l) := by
  unfold State.scanExpired
  repeat' first
    | with_reducible assumption | with_reducible refine State.modWalker_keeps ?_ _ _
    | with_reducible refine State.requestWalk_keeps ?_ _ | split

theorem State.nudge_keeps {s0 s : State} (h : Keeps s0 s) (v : Word) : Keeps s0 (s.nudge v) := by
  unfold State.nudge
  repeat' first
    | with_reducible assumption | with_reducible refine State.requestWalk_keeps ?_ _
    | (with_reducible refine State.forAll_keeps ?_ _ _ ?_) | split | intro _

theorem State.resumeList_keeps {s0 s : State} (h : Keeps s0 s) (l : ListId) : Keeps s0 (s.resumeList l) := by
  unfold State.resumeList
  repeat' first
    | with_reducible assumption | with_reducible refine State.modWalker_keeps ?_ _ _
    | with_reducible refine State.requestWalk_keeps ?_ _ | split

theorem State.beatWrite_keeps {s0 s : State} (h : Keeps s0 s) : Keeps s0 (s.beatWrite) := by
  unfold State.beatWrite
  repeat' first
    | with_reducible assumption | with_reducible refine State.emitNote_keeps ?_ _ _ _ _
    | with_reducible refine State.loadBeat_keeps ?_ | with_reducible refine State.resumeList_keeps ?_ _
    | (with_reducible refine State.forAll_keeps ?_ _ _ ?_) | split | intro _ | dsimp only
    | (fail_if_no_progress with_reducible refine Keeps.same ?_ rfl)

theorem State.shed_keeps {s0 s : State} (h : Keeps s0 s) : Keeps s0 s.shed.2 := by
  have go : ∀ (ps : List (Fin 64)) (acc : Nat × State), Keeps s0 acc.2 →
      Keeps s0 (ps.foldl (fun acc p =>
        if (acc.2.programs.get p).sheds then (acc.1 + 1, acc.2.endProgram p stAbandoned) else acc) acc).2 := by
    intro ps
    induction ps with
    | nil => exact fun acc h => h
    | cons p ps ih =>
      intro acc h
      refine ih _ ?_
      dsimp only
      split
      · show Keeps s0 (acc.2.endProgram p stAbandoned)
        exact State.endProgram_keeps h p stAbandoned
      · exact h
  exact go _ (0, s) h

theorem State.enterFallback_keeps {s0 s : State} (h : Keeps s0 s) : Keeps s0 (s.enterFallback) := by
  unfold State.enterFallback
  repeat' first
    | with_reducible assumption | with_reducible refine State.clearShow_keeps ?_ _
    | with_reducible refine State.emitNote_keeps ?_ _ _ _ _ | with_reducible refine State.setCause_keeps ?_ _
    | with_reducible refine State.shed_keeps ?_ | with_reducible refine State.startMic_keeps ?_
    | with_reducible refine State.windAll_keeps ?_ _ | split | intro _ | dsimp only
    | (fail_if_no_progress with_reducible refine Keeps.same ?_ rfl)

theorem State.beatExpired_keeps {s0 s : State} (h : Keeps s0 s) : Keeps s0 (s.beatExpired) := by
  unfold State.beatExpired
  repeat' first | with_reducible assumption | with_reducible refine State.enterFallback_keeps ?_ | split

theorem State.noteSpace_keeps {s0 s : State} (h : Keeps s0 s) (hd : Hand) : Keeps s0 (s.noteSpace hd) := by
  unfold State.noteSpace
  with_reducible refine State.take_keeps ?_ _ _ _
  exact ⟨h.pending, fun x => have y := h.bounded x; ⟨y.notes, y.root, y.depths, y.clips, y.gated, y.shows⟩⟩

theorem State.noteDone_keeps {s0 s : State} (h : Keeps s0 s) : Keeps s0 s.noteDone := by
  unfold State.noteDone
  have base : Keeps s0 { s with notes := { s.notes with held := none } } :=
    ⟨h.pending, fun x => have y := h.bounded x; ⟨y.notes, y.root, y.depths, y.clips, y.gated, y.shows⟩⟩
  dsimp only
  split
  · exact State.setCause_keeps base _
  · exact State.setCause_keeps (State.setCause_keeps base _) _

theorem State.returnCompletes_keeps {s0 s : State} (h : Keeps s0 s) (l : ListId) (t : Transfer) :
    Keeps s0 (s.returnCompletes l t) := by
  unfold State.returnCompletes
  repeat' first
    | with_reducible assumption | with_reducible refine State.returnDone_keeps ?_ _
    | with_reducible refine State.setCause_keeps ?_ _ | split

theorem State.duckExpired_keeps {s0 s : State} (h : Keeps s0 s) (o : Fin 256) : Keeps s0 (s.duckExpired o) := by
  unfold State.duckExpired
  split
  · split
    · refine ⟨h.pending, fun b => ?_⟩
      have y := h.bounded b
      refine ⟨y.notes, y.root, y.depths, fun o' => ?_, y.gated, y.shows⟩
      have z := y.clips o'
      simp only [Tab.get_modify]
      split <;> exact z
    · exact h
  · exact h

theorem State.ringsExpired_keeps {s0 s : State} (h : Keeps s0 s) (c : Fin 16) : Keeps s0 (s.ringsExpired c) := by
  unfold State.ringsExpired
  repeat' first
    | with_reducible assumption | with_reducible refine State.ringExpired_keeps ?_ _ _
    | (with_reducible refine State.forAll_keeps ?_ _ _ ?_) | split | intro _

theorem State.settleDue_keeps {s0 s : State} (h : Keeps s0 s) : Keeps s0 (s.settleDue) := by
  unfold State.settleDue
  repeat' first
    | with_reducible assumption | with_reducible refine State.answerExpired_keeps ?_ _
    | with_reducible refine State.beatExpired_keeps ?_ | with_reducible refine State.durationExpired_keeps ?_ _
    | with_reducible refine State.gatherDue_keeps ?_ _ | with_reducible refine State.holdExpired_keeps ?_ _
    | with_reducible refine State.pendingExpired_keeps ?_ _ | with_reducible refine State.releaseExpired_keeps ?_ _
    | with_reducible refine State.ringsExpired_keeps ?_ _ | with_reducible refine State.scanExpired_keeps ?_ _
    | with_reducible refine State.segmentEnd_keeps ?_ _ | with_reducible refine State.syncExpired_keeps ?_ _
    | with_reducible refine State.windowComplete_keeps ?_ | (with_reducible refine State.forAll_keeps ?_ _ _ ?_)
    | split | intro _

theorem State.stepTimers_keeps {s0 s : State} (h : Keeps s0 s) : Keeps s0 (s.stepTimers) := by
  unfold State.stepTimers
  split <;> split <;> exact ⟨h.pending, fun x => have y := h.bounded x
    ⟨y.notes, y.root, y.depths, y.clips, y.gated, y.shows.tick⟩⟩

theorem State.trainTrunk_keeps {s0 s : State} (h : Keeps s0 s) (k : Fin 4) : Keeps s0 (s.trainTrunk k) := by
  unfold State.trainTrunk
  repeat' first | with_reducible assumption | with_reducible refine State.enterTraining_keeps ?_ _ | split

theorem State.freeCleared_keeps {s0 s : State} (h : Keeps s0 s) (c : Fin 16) : Keeps s0 (s.freeCleared c) := by
  unfold State.freeCleared
  repeat' first | with_reducible assumption | with_reducible refine State.freeCall_keeps ?_ _ | split

theorem State.channelStarves_keeps {s0 s : State} (h : Keeps s0 s) (c : Fin 16) : Keeps s0 (s.channelStarves c) := by
  unfold State.channelStarves
  repeat' first
    | with_reducible assumption | with_reducible refine State.emitNote_keeps ?_ _ _ _ _
    | with_reducible refine State.endVoicePhase_keeps ?_ _ | with_reducible refine State.releaseChannel_keeps ?_ _
    | split | intro _ | dsimp only

theorem State.channelCompletes_keeps {s0 s : State} (h : Keeps s0 s) (c : Fin 16) :
    Keeps s0 (s.channelCompletes c) := by
  unfold State.channelCompletes
  repeat' first
    | with_reducible assumption | with_reducible refine State.endVoicePhase_keeps ?_ _
    | with_reducible refine State.enterEnded_keeps ?_ _ | with_reducible refine State.reloadAlarm_keeps ?_ _
    | with_reducible refine State.streamComplete_keeps ?_ _ | split | intro _ | dsimp only

theorem State.channelEvent_keeps {s0 s : State} (h : Keeps s0 s) (gave : Tab 16 ChanEvent) (c : Fin 16) :
    Keeps s0 (s.channelEvent gave c) := by
  unfold State.channelEvent
  repeat' first
    | with_reducible assumption | with_reducible refine State.channelCompletes_keeps ?_ _
    | with_reducible refine State.channelStarves_keeps ?_ _ | split

theorem State.ambientStep_keeps {s0 s : State} (h : Keeps s0 s) (x : Sounds) : Keeps s0 (s.ambientStep x) := by
  refine ⟨h.pending, fun b => ?_⟩
  have y := h.bounded b
  refine ⟨y.notes, y.root, y.depths, y.clips, fun o => ?_, y.shows⟩
  have z := y.gated o
  simp only [State.ambientStep, Tab.get_ofFn, State.ambientPeriod]
  split <;> exact z

theorem State.beforeLatch_keeps {s0 s : State} (h : Keeps s0 s) : Keeps s0 (s.beforeLatch) := by
  unfold State.beforeLatch
  repeat' first
    | with_reducible assumption | with_reducible refine State.freeCleared_keeps ?_ _
    | with_reducible refine State.settleDue_keeps ?_ | with_reducible refine State.showStep_keeps ?_
    | with_reducible refine State.startVoice_keeps ?_ _ | with_reducible refine State.stepTimers_keeps ?_
    | with_reducible refine State.trainTrunk_keeps ?_ _ | (with_reducible refine State.forAll_keeps ?_ _ _ ?_)
    | split | intro _

theorem State.afterMix_keeps {s0 s : State} (h : Keeps s0 s) (gave : Tab 16 ChanEvent) (faded : List (Fin 64)) :
    Keeps s0 (s.afterMix gave faded) := by
  unfold State.afterMix
  repeat' first
    | with_reducible assumption | with_reducible refine State.channelEvent_keeps ?_ _ _
    | with_reducible refine State.endProgram_keeps ?_ _ _ | (with_reducible refine State.forAll_keeps ?_ _ _ ?_)
    | split | intro _ | dsimp only | (fail_if_no_progress with_reducible refine Keeps.same ?_ rfl)

theorem State.mixPeriod_keeps {s0 s : State} (h : Keeps s0 s) (audio : List (List Sample)) :
    Keeps s0 (s.mixPeriod audio) := by
  unfold State.mixPeriod
  dsimp only
  with_reducible refine State.afterMix_keeps (State.ambientStep_keeps (State.beginWindow_keeps ?_) _) _ _
  refine ⟨h.pending, fun b => ?_⟩
  have y := h.bounded b
  refine ⟨y.notes, y.root, y.depths, fun o => ?_, y.gated, y.shows⟩
  simp only [Tab.get_map, Tab.get_ofFn, State.mixOutlet]
  exact Nat.min_le_left _ _

theorem State.snapshotRecord_keeps {s0 s : State} (h : Keeps s0 s) (hd : Hand) : Keeps s0 (s.snapshotRecord hd) := by
  unfold State.snapshotRecord
  repeat' first
    | with_reducible assumption | with_reducible refine State.reply_keeps ?_ _ _ _ _ _
    | with_reducible refine State.take_keeps ?_ _ _ _ | split | intro _ | dsimp only
    | (fail_if_no_progress with_reducible refine Keeps.same ?_ rfl)

theorem State.drawFree_keeps {s0 s : State} (h : Keeps s0 s) : Keeps s0 ((s.drawFree).2) := by
  unfold State.drawFree
  repeat' first
    | with_reducible assumption | split | intro _ | dsimp only
    | (fail_if_no_progress with_reducible refine Keeps.same ?_ rfl)

theorem State.sourceCodes_keeps {s0 s : State} (h : Keeps s0 s) (src : Source) :
    Keeps s0 ((s.sourceCodes src).2.2) := by
  unfold State.sourceCodes
  repeat' first | with_reducible assumption | with_reducible refine State.drawFree_keeps ?_ | split

theorem State.programEntry_keeps {s0 s : State} (h : Keeps s0 s) (p : Fin 64) : Keeps s0 ((s.programEntry p).2) := by
  unfold State.programEntry
  repeat' first
    | with_reducible assumption | with_reducible refine State.sourceCodes_keeps ?_ _ | split | intro _ | dsimp only

theorem State.pieceOf_keeps {s0 s : State} (h : Keeps s0 s) (table entry : Nat) :
    Keeps s0 (s.pieceOf table entry).2 := by
  unfold State.pieceOf
  split
  · split
    · refine ⟨h.pending, fun b => ?_⟩
      have y := h.bounded b
      refine ⟨y.notes, y.root, y.depths, fun o => ?_, y.gated, y.shows⟩
      have z := y.clips o
      simp only [Tab.get_modify]
      split
      · exact Nat.zero_le _
      · exact z
    · exact h
  · exact h
  · split
    · exact State.programEntry_keeps h _
    · exact h
  · exact h

theorem State.snapNext_keeps {s0 s : State} (h : Keeps s0 s) : Keeps s0 (s.snapNext) := by
  unfold State.snapNext
  repeat' first
    | with_reducible assumption | with_reducible refine State.requestReturn_keeps ?_ _ _ | split | intro _
    | dsimp only | (fail_if_no_progress with_reducible refine Keeps.same ?_ rfl)

theorem State.snapPiece_keeps {s0 s : State} (h : Keeps s0 s) : Keeps s0 (s.snapPiece) := by
  unfold State.snapPiece
  repeat' first
    | with_reducible assumption | with_reducible refine State.arbitrate_keeps ?_
    | with_reducible refine State.pieceOf_keeps ?_ _ _ | with_reducible refine State.snapNext_keeps ?_ | split
    | intro _ | dsimp only | (fail_if_no_progress with_reducible refine Keeps.same ?_ rfl)

theorem State.channelData_keeps {s0 s : State} (h : Keeps s0 s) (c : Fin 16) (d : List Byte) (t : Transfer) :
    Keeps s0 (s.channelData c d t) := by
  unfold State.channelData
  repeat' first
    | with_reducible assumption | with_reducible refine State.burstArrives_keeps ?_ _ _ _
    | with_reducible refine State.fragmentArrives_keeps ?_ _ _ _
    | with_reducible refine State.walkArrives_keeps ?_ _ _ _ | with_reducible refine State.writeBackDone_keeps ?_ _
    | split

theorem State.channelCompletion_keeps {s0 s : State} (h : Keeps s0 s) (c : Fin 16) (mine : Transfer → Bool)
    (d : List Byte) :
    Keeps s0 (s.channelCompletion c mine d) := by
  unfold State.channelCompletion
  repeat' first
    | with_reducible assumption | with_reducible refine State.arbitrate_keeps ?_
    | with_reducible refine State.channelData_keeps ?_ _ _ _ | with_reducible refine State.endGrant_keeps ?_ _
    | with_reducible refine State.freeIfDone_keeps ?_ _ | split

theorem State.softReset_keeps {s0 s : State} (h : Keeps s0 s) : Keeps s0 s.softReset := by
  refine ⟨h.pending, fun b => ?_⟩
  have y := h.bounded b
  refine ⟨⟨Nat.zero_le _, Nat.zero_le _⟩, y.root, fun o => ?_, fun o => ?_, fun o => ?_, Yielding.empty⟩
  · simp [State.softReset, State.stack]
  · simpa [State.softReset, MixEntry.reset] using y.clips o
  · simpa [State.softReset, Ambient.reset] using y.gated o

theorem State.powerOn_keeps {s0 s : State} (h : Keeps s0 s) : Keeps s0 s.powerOn := by
  refine ⟨h.pending, fun _ => ⟨⟨Nat.zero_le _, Nat.zero_le _⟩, show (0 : Word) &&& 0x3F = 0 by decide, fun o => ?_,
    fun o => ?_, fun o => ?_, Yielding.empty⟩⟩
  · simp [State.powerOn, State.reset, State.stack]
  · simp [State.powerOn, State.reset]
  · simp [State.powerOn, State.reset]

theorem State.setRoot_keeps {s0 s : State} (h : Keeps s0 s) (value : Word) : Keeps s0 (s.setRoot value) := by
  refine ⟨h.pending, fun b => ?_⟩
  have y := h.bounded b
  refine ⟨y.notes, ?_, y.depths, y.clips, y.gated, y.shows⟩
  simp only [Regs.aligned, State.setRoot, BitVec.and_assoc]
  exact BitVec.and_zero

theorem State.setMask_keeps {s0 s : State} (h : Keeps s0 s) (value : Word) : Keeps s0 (s.setMask value) := by
  unfold State.setMask
  repeat' first
    | with_reducible assumption | split | intro _ | dsimp only
    | (fail_if_no_progress with_reducible refine Keeps.same ?_ rfl)

theorem State.ctrlWrite_keeps {s0 s : State} (h : Keeps s0 s) (value : Word) : Keeps s0 (s.ctrlWrite value) := by
  unfold State.ctrlWrite
  repeat' first
    | with_reducible assumption | with_reducible refine State.arbitrate_keeps ?_
    | with_reducible refine State.runStart_keeps ?_ | with_reducible refine State.runStop_keeps ?_
    | with_reducible refine State.softReset_keeps ?_ | split

theorem State.registerWrite_keeps {s0 s : State} (h : Keeps s0 s) (offset : Nat) (value : Word) :
    Keeps s0 (s.registerWrite offset value) := by
  unfold State.registerWrite
  repeat' first
    | with_reducible assumption | with_reducible refine State.arbitrate_keeps ?_
    | with_reducible refine State.beatWrite_keeps ?_ | with_reducible refine State.ctrlWrite_keeps ?_ _
    | with_reducible refine State.nudge_keeps ?_ _ | with_reducible refine State.setMask_keeps ?_ _
    | with_reducible refine State.setRoot_keeps ?_ _ | split

theorem State.readCause_keeps {s0 s : State} (h : Keeps s0 s) : Keeps s0 (s.readCause) := by
  unfold State.readCause
  repeat' first
    | with_reducible assumption | split | intro _ | dsimp only
    | (fail_if_no_progress with_reducible refine Keeps.same ?_ rfl)

end Sys2Proof.Machine
end

