-- ==== Sys2Proof/Laws/Walks.lean ====
section
/-! SUPPORT. What a walk's end, a list fault and a followed link do to the walker, each as one update (R4, R9, R12, R15). -/

namespace Sys2Proof.Machine

/-- A walk's end, as one update of the walker. -/
theorem State.endWalk_eq (s : State) (l : ListId) :
    s.endWalk l = s.modWalker l (Walker.ended s.part (s.walker l).state) := by
  unfold State.endWalk
  by_cases ha : (s.walker l).again = true
  · simp only [ha, if_true]
    unfold State.requestWalk State.startWalk State.setStage
    have hp : ∀ f, (s.modWalker l f).part = s.part := fun _ => rfl
    simp only [hp, State.walker_modWalker, if_true, State.modWalker_modWalker]
    cases hs : (s.walker l).state <;> by_cases hr : s.part = .running <;> simp [hr] <;>
      exact State.modWalker_congr s l (by simp [Walker.ended, ha, hs, hr])
  · rw [if_neg ha]
    refine State.modWalker_congr s l ?_
    simp [Walker.ended, ha]

/-- A walk's end in a list state, as one update of the walker. -/
theorem State.endWalkIn_eq (s : State) (l : ListId) (st : WalkerState) :
    s.endWalkIn l st = s.modWalker l (Walker.ended s.part st) := by
  unfold State.endWalkIn
  rw [State.endWalk_eq, State.modWalker_modWalker, State.walker_modWalker, if_pos rfl]
  refine State.modWalker_congr s l ?_
  show Walker.ended s.part _ _ = _
  unfold Walker.settle Walker.ended
  by_cases h : (s.walker l).state = .stopped ∨ (s.walker l).stale = true
  · simp [h]
  · simp [h]

/-- A list fault of a walk of this entry to RUNNING, as one update of the walker, the flags and CAUSE. -/
theorem State.walkFault_eq (s : State) (l : ListId) (h : (s.walker l).stale = false) :
    s.walkFault l = s.walkFaulted l := by
  unfold State.walkFault
  rw [if_neg (by simp [h]), State.endWalk_eq]
  let t : State := { s with lists := { s.lists with errors := s.lists.errors.set l.idx true } }
  let f : Walker → Walker := fun w =>
    { w with state := if w.state = .stopped then .stopped else .error, scan := none, again := false }
  have he : (s.listError l) = (t.modWalker l f).setCause .listError := rfl
  have hw : ((s.listError l)).walker l = f (s.walker l) := by
    rw [he]; exact (State.walker_modWalker t l l f).trans (if_pos rfl)
  have hm : ∀ g : Walker → Walker, (s.listError l).modWalker l g = (t.modWalker l (g ∘ f)).setCause .listError := by
    intro g
    rw [he, ← State.modWalker_modWalker]
    rfl
  rw [hm, hw]
  unfold State.walkFaulted
  refine congrArg (fun u : State => u.setCause .listError) (State.modWalker_congr t l ?_)
  have key : ∀ w : Walker, Walker.ended s.part (f w).state (f w) =
      { f w with stage := .quiet, ending := false, stale := false } :=
    fun w => by simp [Walker.ended, f]
  exact key (s.walker l)

/-- A record whose walk is of this entry to RUNNING goes on in IDLE, as one update of the walker. -/
theorem State.settle_setStage_eq (s : State) (l : ListId) (g : Stage) (h : (s.walker l).stale = false) :
    (s.modWalker l fun w => w.settle .idle).setStage l g = s.modWalker l (Walker.goesOn g) := by
  rw [State.modWalker_setStage]
  refine State.modWalker_congr s l ?_
  by_cases hs : (s.walker l).state = .stopped <;> simp [Walker.goesOn, Walker.settle, h, hs]

/-- A followed link, as one update of the walker: the cursor moves, and the walk goes on in IDLE unless it is to end. -/
theorem State.followLink_eq (s : State) (l : ListId) (link : Nat) (h : (s.walker l).stale = false) :
    s.followLink l link =
      if (s.walker l).ending then
        (s.modWalker l fun x => { x with cursor := link }).modWalker l (Walker.ended s.part .idle)
      else s.modWalker l fun x => Walker.goesOn .recordRead { x with cursor := link } := by
  unfold State.followLink
  simp only [State.walker_modWalker, if_true]
  have e : (Walker.settle { s.walker l with cursor := link } .idle).ending = (s.walker l).ending := by
    unfold Walker.settle; split <;> rfl
  rw [e]
  split
  · rw [State.endWalk_eq, State.modWalker_modWalker, State.modWalker_modWalker, State.walker_modWalker, if_pos rfl]
    refine State.modWalker_congr s l ?_
    show Walker.ended s.part _ _ = Walker.ended _ _ _
    by_cases hs : (s.walker l).state = .stopped <;> simp [Walker.ended, Walker.settle, h, hs]
  · unfold State.setStage
    rw [State.modWalker_modWalker]
    refine State.modWalker_congr s l ?_
    by_cases hs : (s.walker l).state = .stopped <;> simp [Walker.goesOn, Walker.settle, Function.comp, h, hs]

end Sys2Proof.Machine
end

