-- ==== Sys2Proof/WellFormed.lean ====
section
/-! DEFINITION. The checks on a command's operands: a transfer delivers exactly the bytes of its object (section
1.9), a period's audio has 48 samples for each of 256 inlets (R26), a control block has eight reports of each kind
and two echoes (R170). A command that fails a check is still run: a missing byte or sample counts as 0 (log entry 6). -/

namespace Sys2Proof

/-- The sizes of the blocks a record may point to (section 1.9): outlet set, party or track block, segment block,
scene block. -/
def blockSizes : List Nat := [32, 64, 128, 288]

/-- The offsets a REGISTER_WRITE may name (R1): STAT, ROOTADR, CAUSE, or one above 0x18. -/
def plainWriteOffset (offset : Nat) : Bool :=
  offset == 0x04 || offset == 0x08 || offset == 0x14 || (0x18 < offset : Bool)

/-- A burst delivers 1 to 256 samples of 2 or 4 bytes (R97). -/
def burstLength (n : Nat) : Bool :=
  (0 < n : Bool) && n % 2 == 0 && (n ≤ 1024 : Bool)

def ControlBlock.wf (b : ControlBlock) : Bool :=
  b.loops.length == 8 && b.stations.length == 8 && b.echoes.length == 2

/-- The operands of a command are of the form its step delivers. -/
def Instr.wf : Instr → Bool
  | .rootBlockRead data => data.length == 64
  | .recordRead _ data => data.length == 64
  | .blockRead _ data => blockSizes.contains data.length
  | .fragmentRead _ data => data.length == 32
  | .returnWalkRead _ data => data.length == 32
  | .fetchBurst _ data => burstLength data.length
  | .mixPeriodStart audio => audio.length == 256 && audio.all fun x => x.length == 48
  | .inboundControlBlock _ b => b.wf
  | .registerWrite offset _ => plainWriteOffset offset
  | .powerOn | .softReset | .runStart | .runStop | .nudge _ | .beat _ | .cmaskWrite _ | .causeRead
  | .scanTimerExpiry _ | .linkRead _ _ | .takenWrite _ | .returnWrite _
  | .defineOutlet | .defineInlet | .defineStation | .definePattern | .defineAlarm | .calibrate
  | .releaseChangeover | .snapshot | .snapshotPiece | .startProgram | .stopProgram | .setProgramGain
  | .openCall | .addParty | .dropParty | .closeCall | .raiseAlarm | .silenceAlarm | .resetAlarm
  | .cue | .go | .holdShow | .resumeShow | .clearShow | .bindSource | .noteSpace | .noteWrite
  | .answerTimerExpiry _ | .abilityBlock _ _ | .syncHoldExpiry _
  | .changeoverPendingExpiry _ | .changeoverReleaseExpiry _ | .holdTimerExpiry _ | .ringTimerExpiry _ _
  | .gatherTimerExpiry _ | .durationTimerExpiry _ | .duckHoldExpiry _ | .ambientWindowComplete
  | .fragmentWriteBack _ | .toneSegmentEnd _ | .acceptedClosure _ | .acceptedOpening _
  | .fadeComplete | .followTimerExpiry | .beatCounterExpiry | .contactLineSample _ _ => true

end Sys2Proof
end

