-- ==== Sys2Proof/Tests/Slice0.lean ====
section
/-! SUPPORT. The writer's own tests: an ill-formed operand for each check; a few steps whose expected values the spec
states; and for each statement with hypotheses a state and operands that meet them, clause by clause. -/

namespace Sys2Proof.Tests

-- The witnesses are many closed evaluations: one at a time, so that they do not all hold a thread at once.
set_option Elab.async false

open Sys2Proof.Machine

/-! ### Helpers -/

/-- A record of 64 bytes: bytes by offset, the rest 0. -/
def record (fields : List (Nat × Nat)) : List Byte :=
  (List.range 64).map fun i => BitVec.ofNat 8 (((fields.find? fun f => f.1 == i).map (·.2)).getD 0)

/-- The record in hand, read at address 64. -/
def hand (fields : List (Nat × Nat)) : Hand := { addr := 64, bytes := record fields }

/-- A state in which list `l` hands over a record with its blocks. -/
def given (l : ListId) (fields : List (Nat × Nat)) (blocks : List (List Byte)) (s : State) : State :=
  s.setStage l (.handOver (hand fields) blocks)

/-- The record that `given` hands over is of a kind. -/
def Hands (l : ListId) (fields : List (Nat × Nat)) (blocks : List (List Byte)) (s : State) (kind : Nat) : Prop :=
  ((given l fields blocks s).walker l).stage = .handOver (hand fields) blocks ∧ (hand fields).kind = kind

theorem given_hands {l : ListId} {fields : List (Nat × Nat)} {blocks : List (List Byte)} {s : State} {kind : Nat}
    (h : (hand fields).kind = kind) : Hands l fields blocks s kind :=
  ⟨by unfold given State.setStage; rw [State.walker_modWalker, if_pos rfl], h⟩

/-- The next state of a command, or the state itself. -/
def after (c : Instr) (s : State) : State :=
  match exec c s with
  | .next t => t
  | .fault _ => s
  | .refused _ => s

/-- A transfer is granted. -/
def granted (t : Transfer) (s : State) : State := { s with port := { s.port with grant := some ⟨t, false⟩ } }

/-- RUNNING, with a window of 0..4095, a scan time of 10 ms and a beat window of 5; every list IDLE at address 64. -/
def running : State :=
  { State.reset with
    part := .running
    lists := { State.reset.lists with
      root := { base := 0, limit := 4096, scan := 10, beatWindow := 5 }
      walkers := Tab.replicate 6 { state := .idle, cursor := 64, scan := some 10 } } }

/-- Outlet 3 a CABIN_LOOP, inlet 5 a LINE, inlet 6 a SENSE_MIC, inlet 7 a STATION_MIC, outlet 4 a STATION outlet. -/
def site : State :=
  { State.reset with
    outlets := (State.reset.outlets.modify 3 fun o => { o with kind := .cabinLoop }).modify 4 fun o =>
      { o with kind := .station }
    inlets := ((State.reset.inlets.set 5 .line).set 6 .senseMic).set 7 .stationMic }

/-- Program slot `p` holds this program. -/
def withProgram (p : Fin 64) (pr : Program) (s : State) : State := s.modProgram p fun _ => pr

/-- A claim of program `p`. -/
def claimOf (p : Fin 64) (priority arrival : Nat) (duckable under : Bool) : Claim :=
  { owner := .program p, priority, arrival, duckable, allowsUndertone := under, state := .waiting }

/-! ### Ill-formed operands are recognised -/

theorem test_illFormed_rootBlockRead : Instr.wf (.rootBlockRead (List.replicate 63 0)) = false := by decide

theorem test_illFormed_recordRead : Instr.wf (.recordRead .setup (List.replicate 65 0)) = false := by decide

theorem test_illFormed_blockRead : Instr.wf (.blockRead .setup (List.replicate 33 0)) = false := by decide

theorem test_illFormed_fragmentRead : Instr.wf (.fragmentRead 0 (List.replicate 31 0)) = false := by decide

theorem test_illFormed_returnWalkRead : Instr.wf (.returnWalkRead 0 []) = false := by decide

theorem test_illFormed_fetchBurst : Instr.wf (.fetchBurst 0 [0, 0, 0]) = false := by decide

theorem test_illFormed_fetchBurst_empty : Instr.wf (.fetchBurst 0 []) = false := by decide

theorem test_illFormed_mixPeriodStart : Instr.wf (.mixPeriodStart []) = false := by decide

theorem test_illFormed_controlBlock :
    Instr.wf (.inboundControlBlock 0 { group := 0, loops := [], stations := [], echoes := [none, none] }) = false := by
  decide

theorem test_illFormed_registerWrite : Instr.wf (.registerWrite 0x0C 1) = false := by decide

theorem test_wellFormed_recordRead : Instr.wf (.recordRead .cue (List.replicate 64 0)) = true := by decide

/-! ### Values the spec states -/

/-- R79: the increments at 200 Hz, 1,000 Hz and 4,000 Hz. -/
theorem test_increments : phaseInc 200 = 273 ∧ phaseInc 1000 = 1365 ∧ phaseInc 4000 = 5461 := by decide

/-- R74: the division truncates toward zero. -/
theorem test_truncation : trunc (-313256836) 100 = -3132568 := by decide

/-- R87: L of 100 and x of 110 with alpha 1 leaves L at 100. -/
theorem test_smoothing : smooth 100 110 1 = 100 := by decide

/-- R37: a maximum duration of 1..99 becomes 100; a priority of 12 for an ANNOUNCE becomes 11. -/
theorem test_startClamps :
    let k := (startRec (record [(10, 12), (24, 99)])).clamps .announce .now
    k.maxDuration = 100 ∧ k.priority = 11 ∧ k.mark = true := by decide +kernel

/-- R95: a prime level of 0 is 1,024 with no mark; 300 is rounded down to 256 with the mark. -/
theorem test_prime : settlePrime 0 = (1024, false) ∧ settlePrime 300 = (256, true) := by decide

/-- R173: with N of 1, a single high reading takes NORMAL to FAULT_OPEN. -/
theorem test_singleReading : Loop.judge { state := .normal } .high 1 = (.faultOpen, none) := by decide

/-- R33: the piece of a FREE slot shows its number, state FREE, channel 0xFF and 0 elsewhere. -/
theorem test_freeSlotPiece :
    (State.reset.programEntry 7).1 = [7, 0, 0, 0, 0, 0, 0, 0, 0, 0, 0, 0, 0xFF, 0, 0, 0, 0, 0, 0, 0] := by
  decide +kernel

/-- R1: an undefined offset reads 0; STAT of the part in RUNNING reads 1. -/
theorem test_registers : running.readRegister 0x1C = 0 ∧ running.readRegister 0x04 = 1 := by decide +kernel

/-- R38: an ANNOUNCE with policy NOW plays at once and holds its empty outlet. -/
theorem test_startProgram :
    let t := after .startProgram (given .program [(0, 0x90), (8, 7), (10, 4), (13, 0xFF), (14, 5)] [[8]] site)
    (t.programs.get 7).state = .playing ∧ t.holdsAt 7 3 = true := by decide +kernel

/-- R47: the duration timer's expiry ends the program and frees its outlet. -/
theorem test_durationTimerExpiry :
    let s := after .startProgram (given .program [(0, 0x90), (8, 7), (10, 4), (13, 0xFF), (14, 5)] [[8]] site)
    let t := after (.durationTimerExpiry 7) (s.modProgram 7 fun pr => { pr with durationTimer := some 0 })
    (t.programs.get 7).state = .free ∧ t.stack 3 = [] := by decide +kernel

/-- R53: a BACKGROUND below an ANNOUNCE that allows it is the undertone; alone it is the holder. -/
theorem test_naming :
    (nameStack 0 [claimOf 1 6 0 false true, claimOf 2 1 1 true false]).map (·.state) = [.holding, .undertone] ∧
    (nameStack 0 [claimOf 2 1 1 true false]).map (·.state) = [.holding] ∧
    (nameStack 10 [claimOf 1 6 0 false true, claimOf 2 1 1 true false]).map (·.state) = [.locked, .locked] := by
  decide

/-- R149, R150: the twentieth closed sample of MUSTER_CONTACT raises MUSTER everywhere. -/
theorem test_closure :
    let s : State := { State.reset with contacts := State.reset.contacts.set 0 { closed := false, count := 19 } }
    let t := after (.contactLineSample 0 true) s
    (t.contacts.get 0).closed = true ∧ t.areaState .muster 15 = .sounding ∧ t.notes.queue.length = 2 := by
  decide +kernel

/-- R168: an ability block that answers an earlier offer is ignored; a matching one brings the trunk UP. -/
theorem test_abilityBlock :
    let s := State.reset.modTrunk 0 fun t => { t with link := .training, training := 2, answer := some 50 }
    let b : AbilityBlock := { training := 2, served := 70, present := 8, overrideLines := true, supervision := true
                              changeover := false }
    ((after (.abilityBlock 0 { b with training := 1 }) s).trunks.get 0).link = .training ∧
    ((after (.abilityBlock 0 b) s).trunks.get 0).served = 64 := by decide +kernel

/-- R160: GO with no cue is refused NO_CUE. -/
theorem test_go_idle :
    ((after .go (given .cue [(0, 0xC1)] [] .reset)).walker .cue).stage =
      .returnWrite (hand [(0, 0xC1)])
        { record := { addr := 64, kind := 0x41, tag := 0, mark := false }, status := 0x16, results := [] } false := by
  decide +kernel

/-- R71: with H of 2 the held target applies for two periods, and the timer is gone at the third. -/
theorem test_duckHold :
    startDuck { duckHold := 2 } { id := (.program 1, 0), gain := 4096, ending := false, alarm := false, speech := false }
      = some (2, .program 1, 0) ∧
    stepDuck (some (2, .program 1, 0)) = some (1, .program 1, 0) ∧ stepDuck (some (1, .program 1, 0)) = none := by
  decide

/-! ### Witnesses: for each statement with hypotheses, states and operands that meet them, clause by clause -/

/-- The record that list `l` hands over from state `s` is of the kind, and `P` holds of it and of that state. -/
abbrev Met (l : ListId) (kind : Nat) (fields : List (Nat × Nat)) (blocks : List (List Byte)) (s : State)
    (P : Hand → State → Prop) : Prop :=
  ((given l fields blocks s).walker l).stage = .handOver (hand fields) blocks ∧ (hand fields).kind = kind ∧
    P (hand fields) (given l fields blocks s)

/-- A note of the DOWN of trunk 0. -/
def aNote : Note := { kind := .trunk, code := 1, subject := 0, detail := 0, time := 0 }

/-- 32 notes pending and 65,535 lost: both counts at their bounds. -/
def brim : State := { State.reset with notes := { queue := List.replicate 32 aNote, lost := 65535 } }

theorem witness_StepRunsFrontCommand :
    ({ State.reset with pending := [.causeRead, .go] } : State).pending = .causeRead :: [.go] ∧
    State.reset.pending = [] := by decide

theorem test_cmaskWrite_keepsQueue :
    exec (.cmaskWrite 0xFFFFFFFF) { brim with pending := [.go] } =
      .next { brim with regs := { brim.regs with cmask := 0xFF }, pending := [.go] } := rfl

theorem witness_StepKeepsBounded :
    ({ brim with pending := [.cmaskWrite 0xFFFFFFFF] } : State).Bounded ∧
    step { brim with pending := [.cmaskWrite 0xFFFFFFFF] } =
      .next { brim with regs := { brim.regs with cmask := 0xFF } } := by
  refine ⟨⟨⟨(by decide : brim.notes.queue.length ≤ 32), (by decide : brim.notes.lost ≤ 65535)⟩,
    (by decide : (0 : Word) &&& 0x3F = 0), fun o => ?_, fun o => ?_, fun o => ?_, Yielding.empty⟩, rfl⟩
  · change ((Tab.replicate 256 ([] : List Claim)).get o).length ≤ 8
    simp
  · change ((Tab.replicate 256 ({} : MixEntry)).get o).clips ≤ 65535
    simp
  · change ((Tab.replicate 256 ({} : AmbientEntry)).get o).gatedCount ≤ 65535
    simp

/-- A NOTE_SPACE record that is ready for a note, at address 256. -/
def spaceReady : State :=
  { State.reset with notes := { queue := [aNote], lost := 2, held := some (⟨256, 0x50, 9, false⟩, .ready) } }

/-- A STOPPED return that waits on the PROGRAM list. -/
def returnWaits : State :=
  { State.reset with
    lists := { State.reset.lists with
      returns := State.reset.lists.returns.set ListId.program.idx [⟨⟨128, 0x10, 0, false⟩, 0x04, []⟩] } }

theorem witness_ArbitrationFrame :
    (granted (.rootRead 64) .reset).port.grant = some ⟨.rootRead 64, false⟩ ∧
    State.reset.port.grant = none ∧ State.reset.firstRequest = none ∧
    spaceReady.port.grant = none ∧
    spaceReady.firstRequest = some (.noteWrite (noteWriteOf ⟨256, 0x50, 9, false⟩ aNote 2)) ∧
    returnWaits.port.grant = none ∧
    returnWaits.firstRequest = some (.pendingReturn .program ⟨128, [(0, headerWord false 0x10 0x04 0)]⟩) := by
  decide +kernel

/-- A channel with a fragment still to read asks for it. -/
def asking (a : Nat) : Channel := { state := .priming, cur := .toRead a }

/-- Channels 14 and 15 wait, for programs 63 and 60, of the alarm kinds. -/
def alarmFetches : State :=
  (State.reset.modChannel 14 fun _ => { asking 64 with owner := some (.program 63) }).modChannel 15 fun _ =>
    { asking 96 with owner := some (.program 60) }

/-- Channels 14 and 15 wait, for show sources of one priority. -/
def plainFetches : State :=
  (State.reset.modChannel 14 fun _ => { asking 64 with owner := some (.source 1) }).modChannel 15 fun _ =>
    { asking 96 with owner := some (.source 0) }

theorem witness_ArbitrationFrame_class :
    (let s := alarmFetches
     60 ≤ (60 : Fin 64).val ∧ (s.channels.get 15).owner = some (.program 60) ∧
       s.channelRequest 15 = some (.channel 15 (.fragmentRead 96)) ∧
       ∀ (c : Fin 16) (p : Fin 64), 60 ≤ p.val → (s.channels.get c).owner = some (.program p) →
         s.channelRequest c ≠ none → 60 < p ∨ (60 = p ∧ 15 ≤ c)) ∧
    (let s := plainFetches
     (∀ (c : Fin 16) (p : Fin 64), 60 ≤ p.val → (s.channels.get c).owner = some (.program p) →
       s.channelRequest c = none) ∧
     (s.channels.get 14).ownedByAlarm = false ∧ s.channelRequest 14 ≠ none ∧
       ∀ c, (s.channels.get c).ownedByAlarm = false ∧ s.channelRequest c ≠ none →
         s.ownerPriority (s.channels.get c) < s.ownerPriority (s.channels.get 14) ∨
         (s.ownerPriority (s.channels.get c) = s.ownerPriority (s.channels.get 14) ∧ 14 ≤ c)) ∧
    ∀ c, ¬ ((State.reset.channels.get c).ownedByAlarm = false ∧ State.reset.channelRequest c ≠ none) := by
  refine ⟨⟨?_, ?_, ?_, ?_⟩, ⟨?_, ?_, ?_, ?_⟩, ?_⟩ <;> decide +kernel

theorem witness_ArbitrationFrame_priority :
    let shows := withProgram 3 { state := .held, kind := .theatre, priority := 5 } site
    let fetches (w : ChanOwner) (st : ChanState) : Channel := { asking 64 with owner := some w, state := st }
    let runs (s : State) (p : Fin 64) : Prop := (s.programs.get p).kind = .theatre ∧ (s.programs.get p).state ≠ .free
    (fetches (.program 3) .ended).state = .ended ∧ (asking 64).owner = none ∧ (asking 64).state ≠ .ended ∧
    (fetches (.program 3) .playing).owner = some (.program 3) ∧ (fetches (.source 15) .playing).owner = some (.source 15) ∧
    (∀ p, ¬ runs site p) ∧ runs shows 3 ∧
    ∀ q, runs shows q → (shows.programs.get q).priority ≤ (shows.programs.get 3).priority := by
  refine ⟨?_, ?_, ?_, ?_, ?_, ?_, ?_, ?_⟩ <;> decide +kernel

theorem witness_RegisterWindow :
    brim.notes.queue.length = 32 ∧ brim.notes.queue.length ≤ 32 ∧
    (∀ offset ∈ [0x02, 0x0C, 0x10 + 1, 0x1C], offset ∉ [0x00, 0x04, 0x08, 0x10, 0x14, 0x18]) ∧
    (∀ offset ∈ [0x04, 0x14, 0x19, 0x1C], offset = 0x04 ∨ offset = 0x14 ∨ 0x18 < offset) ∧
    (∀ offset ∈ [0x01, 0x02, 0x17], offset < 0x18 ∧ offset ∉ [0x00, 0x04, 0x08, 0x0C, 0x10, 0x14]) ∧
    (2#32).getLsbD 1 = true ∧ (1#32).getLsbD 1 = false ∧ (1#32).getLsbD 0 = true ∧ (0#32).getLsbD 0 = false := by decide

theorem witness_RegisterWindow_beat :
    (running.part = .running ∧ running.lists.root.beatWindow ≠ 0) ∧
    ¬ (State.reset.part = .running ∧ State.reset.lists.root.beatWindow ≠ 0) := by decide

/-- R184: BEAT reads the counter while the Beat Monitor runs and 0 while it is stopped, whatever the counter holds. -/
theorem test_beatRead :
    let s : State := { running with beat := { counter := 4, sub := 7 } }
    s.readRegister 0x10 = 4 ∧ ({ s with part := .halted } : State).readRegister 0x10 = 0 := by decide

/-- HALTED with a root block read of address 64 that waits, marked for discard or not. -/
def rootWaits (discard : Bool) : State :=
  { State.reset with lists := { State.reset.lists with rootRead := some ⟨64, discard⟩ } }

theorem witness_RunWrites :
    State.reset.part = .halted ∧ State.reset.lists.rootRead = none ∧ (rootWaits true).part = .halted ∧
    (rootWaits true).lists.rootRead = some ⟨64, true⟩ ∧ running.part = .running ∧ running.part ≠ .halted ∧
    ({ running with part := .fallback } : State).part = .fallback ∧ (rootWaits false).port.grant = none ∧
    (rootWaits false).lists.rootRead = some ⟨64, false⟩ ∧
    (∀ c, ((rootWaits false).channels.get c).ownedByAlarm = false) ∧ (rootWaits false).walkerRequest .alarm = none ∧
    (rootWaits false).returnRequest .alarm = none := by decide +kernel

/-- `running` with a walker of the ALARM list changed. -/
def walking (f : Walker → Walker) : State := running.modWalker .alarm f

theorem witness_WalkRequests :
    State.reset.part ≠ .running ∧ ((walking fun w => { w with state := .error }).walker .alarm).state = .error ∧
    running.part = .running ∧ (running.walker .alarm).stage = .quiet ∧ (running.walker .alarm).state = .idle ∧
    ((walking fun w => { w with state := .stalled }).walker .alarm).state = .stalled ∧
    ((walking fun w => { w with state := .tail }).walker .alarm).state = .tail ∧
    ((walking fun w => { w with stage := .recordRead }).walker .alarm).stage ≠ .quiet ∧
    ((walking fun w => { w with stage := .recordRead }).walker .alarm).state = .idle ∧
    ((walking fun w => { w with scan := some 0 }).walker .alarm).scan = some 0 ∧
    ((walking fun w => { w with scan := some 0 }).walker .alarm).stage = .quiet ∧
    ((walking fun w => { w with scan := some 0 }).walker .alarm).state = .idle ∧
    (running.walker .alarm).scan ≠ some 0 := by decide +kernel

theorem witness_BeatWrite :
    State.reset.part = .halted ∧ running.part = .running ∧ running.lists.root.beatWindow ≠ 0 ∧
    ({ State.reset with part := .running } : State).lists.root.beatWindow = 0 ∧
    ({ running with part := .fallback } : State).part = .fallback ∧
    (∀ l, (({ running with part := .fallback } : State).walker l).state ≠ .error) := by
  refine ⟨by decide, by decide, by decide, by decide, by decide, ?_⟩
  intro l
  cases l <;> decide +kernel

theorem witness_RootBlockRead :
    let s (mark : Bool) := granted (.rootRead 64) (rootWaits mark)
    (s true).port.grant = some ⟨.rootRead 64, false⟩ ∧ (s true).lists.rootRead = some ⟨64, true⟩ ∧
    (s false).port.grant = some ⟨.rootRead 64, false⟩ ∧ (s false).lists.rootRead = some ⟨64, false⟩ := by decide

/-- A root block of the window 0..4095 with the ALARM list at 64 and the CUE list at 65, in the middle of the CUE list's
record read. -/
def rootBlock : List Byte := record [(12, 64), (16, 65), (29, 16), (32, 10)]

theorem witness_RootBlockRead_walks :
    let s := granted (.rootRead 64) (((rootWaits false).setStage .cue .recordRead).setStage .alarm .recordRead)
    let good (l : ListId) : Bool := rootCursor rootBlock l != 0 && rootCursor rootBlock l % 64 == 0 &&
      (0 < (rootCopy rootBlock).limit && rootCursor rootBlock l + 64 ≤ (rootCopy rootBlock).limit : Bool)
    s.port.grant = some ⟨.rootRead 64, false⟩ ∧ s.lists.rootRead = some ⟨64, false⟩ ∧
    (rootCopy rootBlock).base < (rootCopy rootBlock).limit ∧ good .alarm = true ∧ good .cue = false ∧ good .note = false ∧
    (s.walker .note).stage = .quiet ∧ (s.walker .cue).stage ≠ .quiet ∧ (s.walker .alarm).stage ≠ .quiet ∧
    ((granted (.rootRead 64) (rootWaits false)).walker .alarm).stage = .quiet := by decide +kernel

/-- R3: at entry to RUNNING the walk of a list with a good cursor is requested at once, and the others set LIST_ERROR. -/
theorem test_rootWalks :
    let t := after (.rootBlockRead rootBlock) (granted (.rootRead 64) (rootWaits false))
    (t.walker .alarm).stage = .recordRead ∧ (t.walker .cue).stage = .quiet ∧ t.causeHas .listError = true := by
  decide +kernel

/-- R3: the root block is read at the address that ROOTADR held at the RUN write, whatever is written there since. -/
theorem test_rootReadAddress :
    let s := granted (.snapPiece 0 0 0) { State.reset with regs := { State.reset.regs with rootadr := 64 } }
    let t := after (.registerWrite 0x08 0x80) (after .runStart s)
    t.regs.rootadr = 0x80 ∧ t.rootRequest = some (.rootRead 64) := by decide +kernel

/-- The ALARM list's record read is granted. -/
def readingRecord : State := granted (.recordRead .alarm) (walking fun w => { w with stage := .recordRead })

/-- The SETUP list's record read is granted while this SNAPSHOT, if any, is being served. -/
def readingSetup (snap : Option Snap) : State :=
  granted (.recordRead .setup)
    (({ running with lists := { running.lists with snap } } : State).modWalker .setup fun w => { w with stage := .recordRead })

theorem witness_RecordRead :
    (let w := readingRecord.walker .alarm
     readingRecord.port.grant = some ⟨.recordRead .alarm, false⟩ ∧ w.ending = false ∧ w.stale = false) ∧
    (∀ ending ∈ [true, false], ∀ again ∈ [true, false], ∀ state ∈ [WalkerState.idle, .stopped],
      let s := readingRecord.modWalker .alarm fun w => { w with state, again, ending, stale := !ending }
      s.port.grant = some ⟨.recordRead .alarm, false⟩ ∧
        ((s.walker .alarm).ending = true ∨ (s.walker .alarm).stale = true)) ∧
    bitOf (byteAt (record []) 0) 7 = false ∧ byteAt (record [(0, 0xB0), (1, 0x81)]) 1 % 128 = 0x01 ∧
    bitOf (byteAt (record [(0, 0xB0)]) 0) 7 = true ∧ byteAt (record [(0, 0xB0)]) 1 % 128 ≠ 0x01 ∧
    (hand [(0, 0xB3)]).kind ∉ kindsOf .alarm ∧ (hand [(0, 0xB0)]).kind ∈ kindsOf .alarm ∧
    readingRecord.noRoom (hand [(0, 0xB0)]) = false ∧
    (∀ p ∈ (hand [(0, 0xB0)]).pointers, readingRecord.inWindow p.addr p.size 32 = true) ∧
    (readingSetup (some ⟨⟨128, 0x08, 0, false⟩, 0, 0, 1, 0, 0, true⟩)).noRoom (hand [(0, 0x88)]) = true ∧
    (readingSetup none).noRoom (hand [(0, 0x84), (16, 0x21)]) = false ∧
    (∃ p ∈ (hand [(0, 0x84), (16, 0x21)]).pointers, (readingSetup none).inWindow p.addr p.size 32 = false) ∧
    (∀ p ∈ (hand [(0, 0x84), (16, 0x20)]).pointers, (readingSetup none).inWindow p.addr p.size 32 = true) := by
  decide +kernel

theorem witness_LinkAndBlockReads :
    (let s := granted (.linkRead .alarm) (walking fun w => { w with state := .tail, stage := .linkRead })
     let w := s.walker .alarm
     s.port.grant = some ⟨.linkRead .alarm, false⟩ ∧ w.ending = false ∧ w.stale = false ∧ (64 : Word) ≠ 0 ∧ (64 : Word).toNat = w.cursor ∧ s.inWindow (4033 : Word).toNat 64 64 = false ∧
     (4032 : Word).toNat ≠ w.cursor ∧ s.inWindow (4032 : Word).toNat 64 64 = true) ∧
    (∀ ending ∈ [true, false],
      let s := granted (.linkRead .alarm) (walking fun w => { w with state := .tail, stage := .linkRead, ending, stale := !ending })
      s.port.grant = some ⟨.linkRead .alarm, false⟩ ∧
        ((s.walker .alarm).ending = true ∨ (s.walker .alarm).stale = true)) ∧
    (let stage : Stage := .blockRead (hand [(0, 0xC0)]) [] [(128, 288), (448, 64)]
     let s := granted (.blockRead .cue) (running.setStage .cue stage)
     s.port.grant = some ⟨.blockRead .cue, false⟩ ∧ (s.walker .cue).stage = stage) := by decide +kernel

/-- R9: a walk that ends with its walk-again mark set is followed at once by another; in TAIL by a link read. -/
theorem test_walkAgain :
    let t := after (.recordRead .alarm (record [])) (readingRecord.modWalker .alarm fun w => { w with again := true })
    let u := after (.linkRead .alarm 0)
      (granted (.linkRead .alarm) (walking fun w => { w with state := .tail, stage := .linkRead, again := true }))
    (t.walker .alarm).stage = .recordRead ∧ (t.walker .alarm).again = false ∧ (u.walker .alarm).stage = .linkRead := by
  decide +kernel

/-- R4: a walk met by a stop ends there, and its list stays STOPPED. -/
theorem test_walkEnding :
    let t := after (.recordRead .alarm (record [(0, 0xB0)])) (State.runStop readingRecord)
    (t.walker .alarm).stage = .quiet ∧ (t.walker .alarm).state = .stopped := by decide +kernel

theorem witness_TakenAndReturnWrites :
    let w : PortWrite := ⟨64, []⟩
    let h (link : Nat) := hand [(0, 0x90), (4, link % 256), (5, link / 256)]
    let r : Return := ⟨(h 0).ref false, 0x02, []⟩
    let s (l : ListId) (x : Transfer) (g : Stage) := granted x (running.setStage l g)
    (granted (.pendingReturn .program w) running).port.grant = some ⟨.pendingReturn .program w, false⟩ ∧
    (∀ bad ∈ [true, false], let t := s .program (.returnWrite .program w) (.returnWrite (h 0) r bad)
     t.port.grant = some ⟨.returnWrite .program w, false⟩ ∧
       (t.walker .program).stage = .returnWrite (h 0) r bad) ∧
    (∀ bad ∈ [true, false], ∀ stale ∈ [true, false],
     let t := (s .program (.returnWrite .program w) (.returnWrite (h 0) r bad)).modWalker .program fun x =>
       { x with state := .stopped, ending := true, stale }
     t.port.grant = some ⟨.returnWrite .program w, false⟩ ∧ (t.walker .program).stage = .returnWrite (h 0) r bad ∧
       (t.walker .program).stale = stale) ∧
    (∀ l ∈ [ListId.program, .setup, .note], let t := s l (.takenWrite l w) (.takenWrite (h 128) false)
     t.port.grant = some ⟨.takenWrite l w, false⟩ ∧ (t.walker l).stage = .takenWrite (h 128) false) ∧
    (h 0).link = 0 ∧ (h 64).link = (h 64).addr ∧ running.inWindow (h 65).link 64 64 = false ∧ (h 65).link ≠ 0 ∧
    (h 128).link ≠ 0 ∧ (h 128).link ≠ (h 128).addr ∧ running.inWindow (h 128).link 64 64 = true := by
  decide +kernel

/-- R8: a TAKEN write leaves the owner PART; a return write puts the results first and the header's first word last. -/
theorem test_writtenBytes :
    let h := hand [(0, 0x90), (2, 0x34), (3, 0x12)]
    let r : Return := ⟨h.ref true, 0x82, [(16, [7])]⟩
    (running.setStage .program (.takenWrite h true)).walkerRequest .program =
      some (.takenWrite .program ⟨64, [(0, [0x90, 0x81, 0x34, 0x12])]⟩) ∧
    (running.setStage .program (.returnWrite h r false)).walkerRequest .program =
      some (.returnWrite .program ⟨64, [(16, [7]), (0, [0x10, 0x82, 0x34, 0x12])]⟩) ∧
    returnWaits.returnRequest .program = some (.pendingReturn .program ⟨128, [(0, [0x10, 0x04, 0, 0])]⟩) := by
  decide +kernel

theorem witness_DefineOutletStructure :
    let none' := [(0, 0x81), (26, 0xFF), (27, 0xFF)]
    Met .setup 1 ((9, 1) :: none') [] site (fun h _ => 256 ≤ (outletRec h.bytes).outlet) ∧
    Met .setup 1 ((10, 7) :: none') [] site (fun h _ => 6 < (outletRec h.bytes).kind) ∧
    Met .setup 1 ((11, 16) :: none') [] site (fun h _ => 16 ≤ (outletRec h.bytes).area) ∧
    Met .setup 1 [(0, 0x81), (27, 1)] [] site
      (fun h _ => (outletRec h.bytes).sense ≠ 0xFFFF ∧ 256 ≤ (outletRec h.bytes).sense) ∧
    Met .setup 1 [(0, 0x81), (26, 5)] [] site
      (fun h s => (outletRec h.bytes).sense = (5 : Fin 256).val ∧ s.inlets.get 5 ≠ .senseMic) := by decide +kernel

/-- `site` with these claims at outlet 3. -/
def claimed (cs : List Claim) : State := site.setStack 3 cs

theorem witness_DefineOutlet :
    let f (kind : Nat) := [(0, 0x81), (8, 3), (10, kind), (26, 6)]
    let inUse (s : State) (kind : OutletKind) : Prop := s.stack 3 ≠ [] ∨
      (∃ x, ((s.changeovers.get x).state = .pending ∨ (s.changeovers.get x).state = .active) ∧
        ((s.changeovers.get x).faulted = 3 ∨ (s.changeovers.get x).spare = 3)) ∨
      (kind ≠ .station ∧ ∃ n, (s.stations.get n).binding.map (·.2) = some 3)
    let reads (h : Hand) (s : State) (kind : OutletKind) : Prop :=
      (outletRec h.bytes).outlet = (3 : Fin 256).val ∧ outletKindOf (outletRec h.bytes).kind = some kind ∧
      (outletRec h.bytes).area = (0 : Fin 16).val ∧ (outletRec h.bytes).sense = (6 : Fin 256).val ∧
      s.inlets.get 6 = .senseMic
    let active := site.modChangeover 7 fun _ => { state := .active, faulted := 9, spare := 3, timer := none }
    let named := site.modStation 63 fun x => { x with binding := some (7, 3) }
    Met .setup 1 (f 2) [] (claimed [claimOf 1 4 0 false true]) (fun h s => reads h s .publicSpace ∧
      OutletKind.publicSpace ≠ (s.outlets.get 3).kind ∧ s.stack 3 ≠ []) ∧
    Met .setup 1 (f 2) [] active (fun h s => reads h s .publicSpace ∧ OutletKind.publicSpace ≠ (s.outlets.get 3).kind ∧
      (s.changeovers.get 7).state = .active ∧ (s.changeovers.get 7).spare = 3) ∧
    Met .setup 1 (f 2) [] named (fun h s => reads h s .publicSpace ∧ OutletKind.publicSpace ≠ (s.outlets.get 3).kind ∧
      OutletKind.publicSpace ≠ .station ∧ (s.stations.get 63).binding = some (7, 3)) ∧
    Met .setup 1 (f 2) [] site (fun h s => reads h s .publicSpace ∧ ¬ inUse s .publicSpace) ∧
    Met .setup 1 (f 1) [] (claimed [claimOf 1 4 0 false true]) (fun h s => reads h s .cabinLoop ∧
      OutletKind.cabinLoop = (s.outlets.get 3).kind ∧ (0 : Fin 16) = (s.outlets.get 3).area) ∧
    (outletRec (record [(26, 0xFF), (27, 0xFF)])).sense = 0xFFFF := by
  refine ⟨⟨?_, ?_, ?_⟩, ⟨?_, ?_, ?_⟩, ⟨?_, ?_, ?_⟩, ⟨?_, ?_, ?_, ?_⟩, ⟨?_, ?_, ?_⟩, ?_⟩ <;> decide +kernel

theorem witness_DefineInlet :
    let f (inlet kind : Nat) := [(0, 0x82), (8, inlet), (10, kind)]
    let s := site.modProgram 0 fun p => { p with state := .playing, source := .inlet 5 }
    Met .setup 2 [(0, 0x82), (9, 1)] [] site (fun h _ => 256 ≤ halfAt h.bytes 8) ∧
    Met .setup 2 (f 5 6) [] site (fun h _ => 5 < byteAt h.bytes 10) ∧
    Met .setup 2 (f 255 5) [] s (fun h s => halfAt h.bytes 8 = (255 : Fin 256).val ∧
      inletKindOf (byteAt h.bytes 10) = some .contactMic ∧ s.inlets.get 255 ≠ .contactMic ∧
        ¬ ((∃ p, (s.programs.get p).state ≠ .free ∧ (s.programs.get p).source = .inlet 255) ∨
          (∃ x, s.theatre.bindings.get x = .line 255) ∨ (∃ o, (s.outlets.get o).senseInlet = some 255) ∨
          (∃ n, (s.stations.get n).binding.map (·.1) = some 255) ∨
          (InletKind.contactMic = .contactMic ∧ ∃ j, j ≠ 255 ∧ s.inlets.get j = .contactMic))) ∧
    Met .setup 2 (f 5 1) [] s (fun h s =>
      halfAt h.bytes 8 = (5 : Fin 256).val ∧ inletKindOf (byteAt h.bytes 10) = some .consoleMic ∧
        s.inlets.get 5 ≠ .consoleMic ∧ ∃ p, (s.programs.get p).state ≠ .free ∧ (s.programs.get p).source = .inlet 5) ∧
    Met .setup 2 (f 5 4) [] site (fun h s =>
      halfAt h.bytes 8 = (5 : Fin 256).val ∧ inletKindOf (byteAt h.bytes 10) = some .line ∧ s.inlets.get 5 = .line) := by
  refine ⟨?_, ?_, ⟨?_, ?_, ?_⟩, ?_, ?_⟩ <;> decide +kernel

/-- `site` with station 63 bound to inlet 7 and outlet 4, in a state. -/
def stationed (x : StationState) : State := site.modStation 63 fun y => { y with binding := some (7, 4), state := x }

theorem witness_DefineStation_number :
    ∀ n ∈ [64, 255], Met .setup 3 [(0, 0x83), (8, n), (10, 0xFF), (11, 0xFF)] [] site (fun h _ =>
      64 ≤ (stationRec h.bytes).station) := by decide +kernel

theorem witness_DefineStation :
    let off := [(0, 0x83), (8, 63), (10, 0xFF), (11, 0xFF)]
    let on (inlet outlet : Nat) := [(0, 0x83), (8, 63), (10, inlet), (12, outlet)]
    let fits (h : Hand) (s : State) : Prop :=
      (stationRec h.bytes).inlet = (7 : Fin 256).val ∧ (stationRec h.bytes).outlet = (4 : Fin 256).val ∧
        s.inlets.get 7 = .stationMic ∧ (s.outlets.get 4).kind = .station ∧ trunkOf 7 = trunkOf 4
    let elsewhere (s : State) : Prop :=
      ∃ m, m ≠ 63 ∧ ((s.stations.get m).binding.map (·.1) = some 7 ∨ (s.stations.get m).binding.map (·.2) = some 4)
    (∀ x ∈ [StationState.ringing, .inCall, .idle, .lost, .undefined], Met .setup 3 off [] (stationed x) (fun h s =>
      (stationRec h.bytes).station = (63 : Fin 64).val ∧ (stationRec h.bytes).inlet = 0xFFFF ∧
        (s.stations.get 63).state = x)) ∧
    Met .setup 3 (on 5 4) [] site (fun h s => (stationRec h.bytes).inlet = (5 : Fin 256).val ∧
      (stationRec h.bytes).outlet = (4 : Fin 256).val ∧ s.inlets.get 5 ≠ .stationMic) ∧
    Met .setup 3 (on 7 3) [] site (fun h s => (stationRec h.bytes).inlet = (7 : Fin 256).val ∧
      (stationRec h.bytes).outlet = (3 : Fin 256).val ∧ (s.outlets.get 3).kind ≠ .station) ∧
    Met .setup 3 (on 7 64) [] site (fun h _ => (stationRec h.bytes).inlet = (7 : Fin 256).val ∧
      (stationRec h.bytes).outlet = (64 : Fin 256).val ∧ trunkOf 7 ≠ trunkOf 64) ∧
    Met .setup 3 ((11, 1) :: on 0 4) [] site (fun h _ => (stationRec h.bytes).inlet ≠ 0xFFFF ∧
      256 ≤ (stationRec h.bytes).inlet) ∧
    Met .setup 3 (on 7 4) [] (site.modStation 62 fun y => { y with binding := some (7, 9), state := .lost }) (fun h s =>
      fits h s ∧ (62 : Fin 64) ≠ 63 ∧ (s.stations.get 62).binding = some (7, 9)) ∧
    (∀ x ∈ [StationState.undefined, .idle, .lost, .ringing, .inCall], Met .setup 3 (on 7 4) [] (stationed x) (fun h s =>
      fits h s ∧ ¬ elsewhere s ∧ (s.stations.get 63).state = x ∧ (s.stations.get 63).binding = some (7, 4))) ∧
    Met .setup 3 (on 7 4) [] ((stationed .inCall).modStation 63 fun y => { y with binding := some (7, 9) }) (fun h s =>
      fits h s ∧ (s.stations.get 63).state = .inCall ∧ (s.stations.get 63).binding ≠ some (7, 4)) := by
  refine ⟨?_, ?_, ?_, ?_, ?_, ?_, ?_, ?_⟩ <;> decide +kernel

/-- R113, R30: a station bound anew while LOST has its hook ON, so that a first report of OFF is noted. -/
theorem test_boundLost :
    let s := (stationed .lost).modStation 63 fun y => { y with offHook := true }
    let t := after .defineStation (given .setup [(0, 0x83), (8, 63), (10, 7), (12, 4)] [] s)
    (t.stations.get 63).state = .lost ∧ (t.stations.get 63).offHook = false := by decide +kernel

/-- R65, R33: the program of an alarm has G_p 4096, and the number of the most recent raise while it plays. -/
theorem test_alarmProgram :
    let s := { (site.modProgram 60 fun _ => {}) with
      alarms := { site.alarms with defs := site.alarms.defs.set 0 (some { pattern := 0, toneCycles := 0, stream := none }) }
      outlets := site.outlets.modify 4 fun o => { o with area := 1 } }
    let raise (areas : Nat) (s : State) := after .raiseAlarm (given .alarm [(0, 0xB0), (10, areas)] [] s)
    let t := raise 1 s
    let u := raise 2 t
    (t.programs.get 60).gain = 4096 ∧ (t.programs.get 60).arrival = 0 ∧ (u.programs.get 60).arrival = 1 := by
  decide +kernel

theorem witness_Snapshot :
    let f (table first count length : Nat) := [(0, 0x88), (8, table), (10, first), (12, count), (20, length)]
    let fits (r : SnapshotRec) : Prop :=
      let size : Nat := if r.table = 0 then 256 else if r.table = 3 then 4 else 64
      r.table ≤ 3 ∧ 1 ≤ r.count ∧ r.first + r.count ≤ size ∧ 32 * r.count ≤ r.length
    Met .setup 8 (f 3 0 4 128) [] .reset (fun h _ => fits (snapshotRec h.bytes)) ∧
    Met .setup 8 (f 0 255 1 32) [] .reset (fun h _ => fits (snapshotRec h.bytes)) ∧
    Met .setup 8 (f 4 0 1 32) [] .reset (fun h _ => ¬ fits (snapshotRec h.bytes)) ∧
    Met .setup 8 (f 0 0 0 32) [] .reset (fun h _ => ¬ fits (snapshotRec h.bytes)) ∧
    Met .setup 8 (f 1 60 5 255) [] .reset (fun h _ => ¬ fits (snapshotRec h.bytes)) ∧
    Met .setup 8 (f 3 0 4 127) [] .reset (fun h _ => ¬ fits (snapshotRec h.bytes)) := by decide +kernel

theorem witness_SnapshotPiece :
    let snap (left : Nat) : Snap := ⟨⟨128, 0x08, 0, false⟩, 0, 255, left, 32, 0, true⟩
    let s (left : Nat) : State := { site with lists := { site.lists with snap := some (snap left) } }
    let shown (x : Source) := withProgram 63 { state := .playing, source := x, record := some ⟨64, 0x10, 0, false⟩ } site
    (granted (.snapPiece 0 255 32) site).port.grant = some ⟨.snapPiece 0 (255 : Fin 256).val 32, false⟩ ∧
    (granted (.snapPiece 1 63 32) site).port.grant = some ⟨.snapPiece 1 (63 : Fin 64).val 32, false⟩ ∧
    (granted (.snapPiece 2 63 32) site).port.grant = some ⟨.snapPiece 2 (63 : Fin 64).val 32, false⟩ ∧
    (granted (.snapPiece 3 3 32) site).port.grant = some ⟨.snapPiece 3 (3 : Fin 4).val 32, false⟩ ∧
    site.lists.snap = none ∧ (s 1).lists.snap = some (snap 1) ∧ (snap 1).left ≤ 1 ∧ (s 2).lists.snap = some (snap 2) ∧
    ¬ (snap 2).left ≤ 1 ∧
    (claimed [{ claimOf 1 4 0 false true with state := .holding }]).holder 3 =
      some { claimOf 1 4 0 false true with state := .holding } ∧ site.holder 3 = none ∧
    (site.stations.get 63).binding = none ∧ ((stationed .idle).stations.get 63).binding = some (7, 4) ∧
    (site.programs.get 63).state = .free ∧ ((shown .silent).programs.get 63).state ≠ .free ∧
    ((shown (.inlet 5)).programs.get 63).source = .inlet 5 ∧ ((shown (.bus 7)).programs.get 63).source = .bus 7 ∧
    ((shown .stream).programs.get 63).source = .stream := by
  refine ⟨?_, ?_, ?_, ?_, ?_, ?_, ?_, ?_, ?_, ?_, ?_, ?_, ?_, ?_, ?_, ?_, ?_, ?_⟩ <;> decide +kernel

theorem witness_SnapshotPiece_owner :
    ∀ w ∈ [Owner.program 63, .party 15 7],
      (claimed [{ claimOf 1 4 0 false true with owner := w, state := .holding }]).holder 3 =
        some { claimOf 1 4 0 false true with owner := w, state := .holding } := by decide +kernel

/-- Section 1.9: the owner codes of program 63 and of party 7 of call 15. -/
theorem test_ownerCodes : (Owner.program 63).code = 63 ∧ (Owner.party 15 7).code = 0x17F := by decide

/-- Pattern `p` holds a definition of one segment of 10 ms at 1,000 Hz, played for two cycles. -/
def tuned (p : Fin 12) (s : State) : State :=
  s.modPattern p fun q => { q with stored := some { segments := [⟨10, 1000, 4096⟩], cycles := 2 } }

/-- Voice 7 sounds pattern 11 for a user, in the given segment, with no period of the segment left. -/
def sounding (u : VoiceUser) (cycles : Nat) (s : State) : State :=
  s.modVoice 7 fun _ =>
    { user := u, mode := .sounding, pattern := 11, copy := { segments := [⟨10, 1000, 4096⟩], cycles := 2 }
      cycles, left := 0, inc := 1365 }

theorem witness_DefinePattern :
    let f (p segments action next : Nat) := [(0, 0x84), (8, p), (9, segments), (12, action), (13, next)]
    Met .setup 4 (f 12 1 0 0) [[]] .reset (fun h _ => 12 ≤ (patternRec h.bytes).pattern) ∧
    Met .setup 4 (f 0 0 0 0) [[]] .reset (fun h _ => (patternRec h.bytes).segments < 1) ∧
    Met .setup 4 (f 0 17 0 0) [[]] .reset (fun h _ => 16 < (patternRec h.bytes).segments) ∧
    Met .setup 4 (f 0 1 2 0) [[]] .reset (fun h _ => 1 < (patternRec h.bytes).action) ∧
    Met .setup 4 (f 0 1 1 12) [[]] .reset
      (fun h _ => (patternRec h.bytes).action = 1 ∧ 12 ≤ (patternRec h.bytes).next) ∧
    (∀ s ∈ [tuned 11 .reset, sounding .ring 0 (tuned 11 .reset),
        State.reset.modPattern 11 fun q => { q with pendingCopy := some {} }],
      Met .setup 4 (f 11 16 1 11) [[]] s (fun h _ =>
        (patternRec h.bytes).pattern = (11 : Fin 12).val ∧ 1 ≤ (patternRec h.bytes).segments ∧
          (patternRec h.bytes).segments ≤ 16 ∧ (patternRec h.bytes).action ≤ 1 ∧ (patternRec h.bytes).next < 12)) := by
  decide +kernel

theorem witness_DefineAlarm :
    let f (kind p voice first format : Nat) :=
      [(0, 0x85), (8, kind), (9, p), (11, voice), (12, first), (16, format)]
    let fine (h : Hand) (s : State) : Prop :=
      (alarmRec h.bytes).kind = (3 : Fin 4).val ∧ (alarmRec h.bytes).pattern = (11 : Fin 12).val ∧
      (s.tones.patterns.get 11).stored ≠ none ∧ (alarmRec h.bytes).voice = true ∧ (alarmRec h.bytes).desc.format ≤ 1 ∧
      (alarmRec h.bytes).desc.order ≤ 1 ∧ (alarmRec h.bytes).desc.mode ≤ 1 ∧
      s.inWindow (alarmRec h.bytes).desc.first 32 32 = true
    Met .setup 5 (f 4 11 0 0 0) [] (tuned 11 running) (fun h _ => 4 ≤ (alarmRec h.bytes).kind) ∧
    Met .setup 5 (f 0 12 0 0 0) [] (tuned 11 running) (fun h _ => 12 ≤ (alarmRec h.bytes).pattern) ∧
    Met .setup 5 (f 0 10 0 0 0) [] (tuned 11 running) (fun h s =>
      (alarmRec h.bytes).pattern = (10 : Fin 12).val ∧ (s.tones.patterns.get 10).stored = none) ∧
    Met .setup 5 (f 0 11 1 32 2) [] (tuned 11 running) (fun h _ =>
      (alarmRec h.bytes).voice = true ∧ 1 < (alarmRec h.bytes).desc.format) ∧
    Met .setup 5 (f 0 11 1 33 0) [] (tuned 11 running) (fun h s =>
      (alarmRec h.bytes).voice = true ∧ s.inWindow (alarmRec h.bytes).desc.first 32 32 = false) ∧
    Met .setup 5 (f 3 11 1 32 1) [] ((tuned 11 running).modProgram 63 fun p => { p with state := .playing }) (fun h s =>
      fine h s ∧ (s.programs.get AlarmKind.crewAlert.slot).state ≠ .free) ∧
    Met .setup 5 (f 3 11 1 32 1) [] (tuned 11 running) (fun h s =>
      fine h s ∧ (s.programs.get AlarmKind.crewAlert.slot).state = .free) := by
  refine ⟨?_, ?_, ?_, ?_, ?_, ⟨?_, ?_, ?_⟩, ⟨?_, ?_, ?_⟩⟩ <;> decide +kernel

/-- Trunk 0 is UP, serves 64 outlet slots and has the supervision ability. -/
def supervised (s : State) : State :=
  s.modTrunk 0 fun t => { t with link := .up, sync := some 4, served := 64, present := 0, supervision := true }

theorem witness_Calibrate :
    let f (outlet target method : Nat) := [(0, 0x86), (8, outlet), (10, target), (11, method), (12, 0xFF), (13, 3)]
    let sensed : State := { site with outlets := site.outlets.modify 3 fun o => { o with senseInlet := some 6 } }
    Met .setup 6 [(0, 0x86), (9, 1)] [] site (fun h _ => 256 ≤ (calibrateRec h.bytes).outlet) ∧
    Met .setup 6 (f 3 2 0) [] site (fun h _ => 1 < (calibrateRec h.bytes).target) ∧
    Met .setup 6 (f 3 0 2) [] site (fun h _ => 1 < (calibrateRec h.bytes).method) ∧
    Met .setup 6 (f 3 0 0) [] site (fun h _ => (calibrateRec h.bytes).outlet = (3 : Fin 256).val ∧
      (calibrateRec h.bytes).target = 0 ∧ (calibrateRec h.bytes).method = 0) ∧
    Met .setup 6 (f 3 0 1) [] site (fun h s => (calibrateRec h.bytes).target = 0 ∧ (calibrateRec h.bytes).method = 1 ∧
      (s.outlets.get 3).senseInlet = none) ∧
    Met .setup 6 (f 3 0 1) [] sensed (fun h s => (calibrateRec h.bytes).target = 0 ∧
      (calibrateRec h.bytes).method = 1 ∧ (s.outlets.get 3).senseInlet ≠ none) ∧
    Met .setup 6 (f 3 1 1) [] site (fun h _ => (calibrateRec h.bytes).target = 1 ∧ (calibrateRec h.bytes).method = 1) ∧
    Met .setup 6 (f 3 1 0) [] site (fun h s => (calibrateRec h.bytes).target = 1 ∧ (calibrateRec h.bytes).method = 0 ∧
      s.unserved 3 = true) ∧
    (supervised .reset).unserved 3 = false ∧ ((supervised .reset).outlets.get 3).kind = .undefined ∧
    (supervised site).unserved 3 = false ∧ ((supervised site).outlets.get 3).kind ≠ .undefined ∧
    ((supervised site).outlets.get 3).kind ≠ .spare ∧ ((supervised site).trunks.get (trunkOf 3)).supervision = true ∧
    ((supervised site).loops.get 3).state = .unserved ∧
    (((supervised site).modLoop 3 fun x => { x with state := .suspect }).loops.get 3).state = .suspect := by
  decide +kernel

/-- Changeover slot 7 in a state, with its timer. -/
def changing (x : SlotState) (timer : Option Nat) : State :=
  State.reset.modChangeover 7 fun _ => { state := x, faulted := 193, spare := 200, timer }

theorem witness_Changeovers :
    let b (e f : Option (Fin 64 × Fin 64)) : ControlBlock := { group := 7, loops := [], stations := [], echoes := [e, f] }
    let up (s : State) : State := s.modTrunk 3 fun t => { t with link := .up, served := 56, present := 56 }
    Met .setup 7 [(0, 0x87), (8, 8)] [] .reset (fun h _ => 8 ≤ byteAt h.bytes 8) ∧
    Met .setup 7 [(0, 0x87), (8, 7)] [] .reset (fun h s =>
      byteAt h.bytes 8 = (7 : Fin 8).val ∧ (s.changeovers.get 7).state ≠ .active) ∧
    Met .setup 7 [(0, 0x87), (8, 7)] [] (changing .active none) (fun h s =>
      byteAt h.bytes 8 = (7 : Fin 8).val ∧ (s.changeovers.get 7).state = .active) ∧
    (∀ s ∈ [up (changing .pending (some 5)), up (changing .releasing (some 5)), up (changing .active none)],
      (s.trunks.get 3).link = .up ∧ (s.trunks.get 3).served ≤ 8 * (b none none).group.val ∧
        (s.trunks.get 3).present ≤ 8 * (b none none).group.val) ∧
    (b none (some (1, 8))).echoes = [none, some (1, 8)] ∧ (⟨2 * (3 : Fin 4).val + 1, by decide⟩ : Fin 8) = 7 ∧
    (let c := (up (changing .pending (some 5))).changeovers.get 7
     c.state = .pending ∧ (slotOf c.faulted, slotOf c.spare) = (1, 8)) ∧
    ((up (changing .releasing (some 5))).changeovers.get 7).state = .releasing ∧
    (((changing .pending (some 0)).changeovers.get 7).state = .pending ∧
      ((changing .pending (some 0)).changeovers.get 7).timer = some 0) ∧
    (((changing .releasing (some 0)).changeovers.get 7).state = .releasing ∧
      ((changing .releasing (some 0)).changeovers.get 7).timer = some 0) ∧
    ((changing .pending (some 1)).changeovers.get 7).timer ≠ some 0 ∧
    ((changing .releasing (some 1)).changeovers.get 7).timer ≠ some 0 := by
  refine ⟨?_, ?_, ?_, ?_, ?_, ?_, ?_, ?_, ?_, ?_, ?_, ?_⟩ <;> decide +kernel

/-- START_PROGRAM of slot 58: an ANNOUNCE from inlet 5, no chime. -/
def startFields : List (Nat × Nat) := [(0, 0x90), (8, 58), (10, 4), (13, 0xFF), (14, 5)]

theorem witness_StartProgram :
    let common (h : Hand) (s : State) : Prop :=
      (startRec h.bytes).slot = (58 : Fin 64).val ∧ (58 : Fin 64).val < 59 ∧ (startRec h.bytes).kind = 0 ∧
      (startRec h.bytes).policy = 0 ∧ (startRec h.bytes).sourceKind = 0 ∧ (startRec h.bytes).source = (5 : Fin 256).val ∧
      s.inlets.get 5 = .line ∧ (startRec h.bytes).chime = 0xFF ∧ (s.programs.get 58).state = .free ∧
      (s.programs.get 58).reservation = none ∧ s.claims.arrivals < 4294967295
    Met .program 0x10 startFields [[4]] site (fun h s => common h s ∧
      (∀ o ∈ outletSet [4], (s.outlets.get o).kind = .undefined ∨ (s.outlets.get o).kind = .spare) ∧
      (∀ o, hasOwner (.program 58) (s.stack o) = false) ∧ s.takenGranted .program h.addr = false) ∧
    Met .program 0x10 ((9, 1) :: startFields) [[12]] site (fun h s => (startRec h.bytes).kind = 1 ∧
      (outletSet [12]).filter (fun x => (s.outlets.get x).kind.takesClaims) = [3] ∧ s.stack 3 = []) := by
  refine ⟨⟨?_, ?_, ?_⟩, ?_⟩ <;> decide +kernel

theorem witness_StartPlacement :
    let f (xs : List (Nat × Nat)) := xs ++ startFields
    let s := tuned 11 { (claimed [claimOf 1 4 0 false true]) with lists := running.lists }
    let free (h : Hand) (s : State) : Prop := (startRec h.bytes).slot = (58 : Fin 64).val ∧ (58 : Fin 64).val < 59 ∧
      (s.programs.get 58).state = .free ∧ (s.programs.get 58).reservation = none ∧ s.claims.arrivals < 4294967295 ∧
      (∀ o, hasOwner (.program 58) (s.stack o) = false) ∧ s.takenGranted .program h.addr = false
    let one (h : Hand) (s : State) (kind : ProgKind) (policy : Policy) (o : Fin 256) : Claim × List Claim :=
      let k := (startRec h.bytes).clamps kind policy
      let c : Claim :=
        { owner := .program 58, priority := k.priority, arrival := s.claims.arrivals
          duckable := (startRec h.bytes).duckable, allowsUndertone := (startRec h.bytes).allowsUndertone, state := .waiting }
      (c, nameStack (s.lockFloor o) (insertClaim c (s.stack o)))
    let calm (h : Hand) (s : State) (kind : ProgKind) (policy : Policy) (placed : List (Fin 256)) : Prop :=
      s.theatre.state ≠ .held ∧ (∀ o ∈ placed, (s.stack o).length < 8) ∧
      (∀ o ∈ placed, (holderIn (one h s kind policy o).2).map (·.owner) = (s.holder o).map (·.owner) ∨
        (s.holder o = none ∧ (holderIn (one h s kind policy o).2).any (fun d => d.owner == .program 58) = true))
    let targets (s : State) (set : List Byte) := (outletSet set).filter fun o => (s.outlets.get o).kind.takesClaims
    -- NOW, ANNOUNCE, a chime and a free voice, outlets 3 and 4, of which 3 has a claim of its priority
    Met .program 0x10 (f [(13, 11)]) [[0x18]] s (fun h s => free h s ∧ hostKindOf (startRec h.bytes).kind = some .announce ∧
      policyOf (startRec h.bytes).policy = some .now ∧ (startRec h.bytes).sourceKind = 0 ∧
      (startRec h.bytes).source = (5 : Fin 256).val ∧ s.inlets.get 5 = .line ∧
      (startRec h.bytes).chime = (11 : Fin 12).val ∧ (s.tones.patterns.get 11).stored ≠ none ∧
      targets s [0x18] = [3, 4] ∧ s.stack 3 ≠ [] ∧ calm h (s.setStack 3 (nameStack 0 (s.stack 3))) .announce .now [3, 4] ∧
      s.freeVoice = some 0) ∧
    -- ALL with time to gather, a stream: it holds at 4 and waits at 3
    Met .program 0x10 (f [(11, 1), (12, 1), (22, 5), (32, 64)]) [[0x18]] (s.setStack 3 (nameStack 0 (s.stack 3)))
      (fun h s => free h s ∧ policyOf (startRec h.bytes).policy = some .all ∧ (startRec h.bytes).sourceKind = 1 ∧
        s.descOk (startRec h.bytes).desc = true ∧ s.freeChannel = some 0 ∧ (startRec h.bytes).chime = 0xFF ∧
        ((startRec h.bytes).clamps .announce .all).gatherTimeout = 5 ∧ calm h s .announce .all [3, 4] ∧
        [3, 4].filter (fun o => (holderIn (one h s .announce .all o).2).any fun d => d.owner == .program 58) = [4]) ∧
    -- IF_FREE, which places no claim where it would not hold, and none at all
    Met .program 0x10 (f [(11, 2)]) [[8]] (s.setStack 3 (nameStack 0 (s.stack 3))) (fun h s => free h s ∧
      policyOf (startRec h.bytes).policy = some .ifFree ∧ targets s [8] = [3] ∧
      let c := (one h s .announce .ifFree 3).1
      c.eligible (s.lockFloor 3) = true ∧ ((s.stack 3).all fun d => !d.eligible (s.lockFloor 3) || c.before d) = false) ∧
    -- a SHOW program of a bus, with no other claim anywhere
    Met .program 0x10 [(0, 0x90), (8, 58), (9, 2), (12, 2), (13, 0xFF), (14, 7)] [[8]] site (fun h s => free h s ∧
      hostKindOf (startRec h.bytes).kind = some .theatre ∧ (startRec h.bytes).sourceKind = 2 ∧
      (startRec h.bytes).source = (7 : Fin 8).val ∧ targets s [8] = [3] ∧ calm h s .theatre .now [3]) := by
  refine ⟨⟨?_, ?_, ?_⟩, ⟨?_, ?_, ?_⟩, ⟨?_, ?_, ?_⟩, ⟨?_, ?_, ?_⟩⟩ <;> decide +kernel

/-- `site` with a window and with no FREE channel. -/
def allBusy : State := { site with lists := running.lists, channels := Tab.replicate 16 { state := .ready } }

theorem witness_StartProgramRefusals :
    let f (xs : List (Nat × Nat)) := xs ++ startFields
    Met .program 0x10 (f [(8, 59)]) [] site (fun h _ => 59 ≤ (startRec h.bytes).slot) ∧
    Met .program 0x10 (f [(9, 3)]) [] site (fun h _ => (startRec h.bytes).slot < 59 ∧ 2 < (startRec h.bytes).kind) ∧
    Met .program 0x10 (f [(11, 3)]) [] site (fun h _ => 2 < (startRec h.bytes).policy) ∧
    Met .program 0x10 (f [(12, 3)]) [] site (fun h _ => 2 < (startRec h.bytes).sourceKind) ∧
    Met .program 0x10 (f [(14, 6)]) [] site (fun h s => (startRec h.bytes).sourceKind = 0 ∧
      (startRec h.bytes).source = (6 : Fin 256).val ∧ s.inlets.get 6 ≠ .consoleMic ∧ s.inlets.get 6 ≠ .line) ∧
    Met .program 0x10 (f [(12, 1), (32, 1)]) [] site (fun h s => (startRec h.bytes).sourceKind = 1 ∧
      s.inWindow (startRec h.bytes).desc.first 32 32 = false) ∧
    Met .program 0x10 (f [(12, 2)]) [] site (fun h _ => (startRec h.bytes).sourceKind = 2 ∧ (startRec h.bytes).kind ≠ 2) ∧
    Met .program 0x10 (f [(13, 12)]) [] site (fun h _ => (startRec h.bytes).chime ≠ 0xFF ∧ 12 ≤ (startRec h.bytes).chime) ∧
    Met .program 0x10 (f [(13, 11)]) [] site (fun h s => (startRec h.bytes).chime = (11 : Fin 12).val ∧
      (s.tones.patterns.get 11).stored = none) ∧
    (∀ s ∈ [site.modProgram 58 fun p => { p with state := .playing },
        site.modProgram 58 fun p => { p with reservation := some 15 }],
      Met .program 0x10 startFields [] s (fun h s => (startRec h.bytes).slot = (58 : Fin 64).val ∧
        (startRec h.bytes).kind ≤ 2 ∧ (startRec h.bytes).policy ≤ 2 ∧ (startRec h.bytes).sourceKind = 0 ∧
        (startRec h.bytes).kind ≠ 2 ∧ (startRec h.bytes).source = (5 : Fin 256).val ∧ s.inlets.get 5 = .line ∧
        (startRec h.bytes).chime = 0xFF ∧
        ((s.programs.get 58).state ≠ .free ∨ (s.programs.get 58).reservation ≠ none))) ∧
    Met .program 0x10 (f [(12, 1)]) [] allBusy (fun h s =>
      (startRec h.bytes).slot = (58 : Fin 64).val ∧ (startRec h.bytes).sourceKind = 1 ∧ (startRec h.bytes).kind ≤ 1 ∧
        (startRec h.bytes).policy ≤ 2 ∧ (startRec h.bytes).desc.format ≤ 1 ∧ (startRec h.bytes).desc.order ≤ 1 ∧
        (startRec h.bytes).desc.mode ≤ 1 ∧ s.inWindow (startRec h.bytes).desc.first 32 32 = true ∧
        (startRec h.bytes).chime = 0xFF ∧ ∀ c, (s.channels.get c).state ≠ .free) := by
  refine ⟨?_, ?_, ?_, ?_, ?_, ?_, ?_, ?_, ?_, ?_, ?_⟩ <;> decide +kernel

/-- Program 58 in a state, from a stream on channel 15 or from inlet 5. -/
def inState (x : ProgState) (stream : Bool) : State :=
  { withProgram 58 { state := x, source := if stream then .stream else .inlet 5 } site with
    channels := site.channels.modify 15 fun c => { c with owner := if stream then some (.program 58) else none } }

theorem witness_StopAndGain :
    let f (kind slot mode : Nat) := [(0, kind), (8, slot), (9, mode)]
    Met .program 0x11 (f 0x91 59 0) [] site (fun h _ => 59 ≤ byteAt h.bytes 8) ∧
    Met .program 0x11 (f 0x91 58 3) [] site (fun h _ => byteAt h.bytes 8 < 59 ∧ 2 < byteAt h.bytes 9) ∧
    Met .program 0x11 (f 0x91 58 2) [] site (fun h s => byteAt h.bytes 8 = (58 : Fin 64).val ∧ byteAt h.bytes 9 ≤ 2 ∧
      (s.programs.get 58).state = .free) ∧
    Met .program 0x11 (f 0x91 58 1) [] (inState .playing true) (fun h s =>
      (s.programs.get 58).state = .playing ∧ byteAt h.bytes 9 = 1) ∧
    Met .program 0x11 (f 0x91 58 2) [] (inState .playing false) (fun h s =>
      (s.programs.get 58).state = .playing ∧ byteAt h.bytes 9 = 2 ∧ (s.programs.get 58).source ≠ .stream) ∧
    Met .program 0x11 (f 0x91 58 2) [] (inState .held false) (fun h s =>
      (s.programs.get 58).state = .held ∧ byteAt h.bytes 9 ≠ 0) ∧
    Met .program 0x11 (f 0x91 58 2) [] (inState .playing true) (fun h s => (s.programs.get 58).state = .playing ∧
      byteAt h.bytes 9 = 2 ∧ (s.programs.get 58).source = .stream ∧ s.channelOf (.program 58) = some 15) ∧
    Met .program 0x11 (f 0x91 58 1) [] (inState .ending false) (fun h s => (s.programs.get 58).state = .ending ∧
      byteAt h.bytes 9 ≠ 0) ∧
    (∀ x ∈ [ProgState.gathering, .chiming], Met .program 0x11 (f 0x91 58 2) [] (inState x false) (fun _ s =>
      (s.programs.get 58).state = x)) ∧
    Met .program 0x11 (f 0x91 58 0) [] (inState .playing false) (fun h s => (s.programs.get 58).state ≠ .free ∧
      byteAt h.bytes 9 = 0) ∧
    Met .program 0x12 (f 0x92 59 0) [] site (fun h _ => 59 ≤ byteAt h.bytes 8) ∧
    Met .program 0x12 (f 0x92 58 0) [] site (fun h s => byteAt h.bytes 8 = (58 : Fin 64).val ∧ byteAt h.bytes 8 < 59 ∧
      (s.programs.get 58).state = .free) ∧
    Met .program 0x12 (f 0x92 58 0) [] (inState .held false) (fun _ s => (s.programs.get 58).state ≠ .free) := by
  decide +kernel

theorem witness_ProgramTimers :
    let gathering (held : Nat) : Program := { state := .gathering, gatherTimer := some 0, held }
    let s (held : Nat) := withProgram 63 (gathering held) site
    let playing (t : Nat) := withProgram 63 { state := .playing, durationTimer := some t } site
    (site.programs.get 63).gatherTimer ≠ some 0 ∧
    ((s 0).programs.get 63).state = .gathering ∧ ((s 0).programs.get 63).gatherTimer = some 0 ∧
    ((s 0).programs.get 63).held = 0 ∧
    (let pr := (s 1).programs.get 63
     pr.state = .gathering ∧ pr.gatherTimer = some 0 ∧ pr.held ≠ 0 ∧ pr.chime = none ∧ pr.kind ≠ .theatre ∧
       pr.source ≠ .stream ∧ pr.durationStarted = false) ∧
    ((playing 0).programs.get 63).state = .playing ∧ ((playing 0).programs.get 63).durationTimer = some 0 ∧
    ((playing 1).programs.get 63).durationTimer ≠ some 0 := by decide +kernel

theorem witness_StackNaming :
    let pre := [claimOf 1 9 0 false true]
    let c : Claim := { claimOf 60 9 1 false true with priority := 9 }
    (∀ d ∈ pre, d.eligible 10 = false) ∧ c.eligible 10 = true ∧
    (∀ d ∈ ([] : List Claim), d.eligible 10 = false) ∧ (claimOf 1 10 0 false true).eligible 10 = true := by decide

theorem witness_ClaimPlacement :
    let seven := (List.range 7).map fun i => claimOf ⟨i % 64, Nat.mod_lt _ (by decide)⟩ 6 i false true
    let last := claimOf 20 4 9 false true
    let eight := seven ++ [last]
    let of (w : Owner) : State := claimed (seven ++ [{ last with owner := w }])
    let counted (p : Fin 64) (x : ProgState) (n : Nat) : State := withProgram p { state := x, admitted := n } (of (.program p))
    (State.reset.outlets.get 3).kind = .undefined ∧
    hasOwner (.program 20) ((claimed eight).stack 3) = true ∧
    ((claimed seven).outlets.get 3).kind ≠ .undefined ∧ ((claimed seven).outlets.get 3).kind ≠ .spare ∧
    hasOwner (claimOf 30 5 10 false true).owner ((claimed seven).stack 3) = false ∧
    ((claimed seven).stack 3).length < 8 ∧
    (claimed eight).stack 3 = seven ++ [last] ∧ 8 ≤ ((claimed eight).stack 3).length ∧
    (claimOf 30 4 10 false true).priority ≤ last.priority ∧
    last.priority < (claimOf 30 5 10 false true).priority ∧ hasOwner last.owner seven = false ∧
    (∀ d ∈ seven, (claimOf 30 5 10 false true).before d = false) ∧
    (∀ d ∈ [last].head?, (claimOf 30 5 10 false true).before d = true) ∧
    hasOwner (.program 31) ((claimed eight).stack 3) = false ∧
    (∀ w ∈ [Owner.party 15 7, .program 58, .program 59],
      (of w).stack 3 = seven ++ [{ last with owner := w }] ∧ 8 ≤ ((of w).stack 3).length ∧
        hasOwner (.program 30) ((of w).stack 3) = false) ∧
    (58 : Fin 64).val < 59 ∧ ((counted 58 .playing 2).programs.get 58).admitted = 2 ∧
    (∀ x ∈ [ProgState.ending, .playing], ((counted 58 x 1).programs.get 58).admitted ≤ 1 ∧
      ((counted 58 x 1).programs.get 58).state = x) ∧
    ((counted 59 .playing 1).programs.get 59).state = .playing ∧
    ((counted 59 .playing 1).programs.get 59).kind ≠ .theatre ∧
    (let s := claimed [{ claimOf 1 4 0 false true with state := .holding }]
     (s.holder 3).map (·.owner) = some (.program 1) ∧
       (holderIn (nameStack (s.lockFloor 3) [])).map (·.owner) ≠ some (.program 1) ∧
       (site.holder 3).map (·.owner) ≠ some (.program 1) ∧
       (holderIn (nameStack (site.lockFloor 3) [claimOf 1 4 0 false true])).map (·.owner) = some (.program 1)) := by
  refine ⟨?_, ?_, ?_, ?_, ?_, ?_, ?_, ?_, ?_, ?_, ?_, ?_, ?_, ?_, ?_, ?_, ?_, ?_, ?_, ?_, ?_⟩ <;> decide +kernel

theorem witness_ForegroundTarget :
    let out (enable : Bool) : Outlet := { compEnable := enable }
    let latch (ending alarm speech : Bool) : Latch := { id := (.program 60, 0), gain := 65535, ending, alarm, speech }
    (latch true false false).ending = true ∧ (latch false false true).ending = false ∧
    (latch false false true).alarm = false ∧ (out false).compEnable = false ∧ (latch false false false).speech = false ∧
    (out true).compEnable = true ∧ (latch false true true).alarm = true ∧ (latch false true true).speech = true ∧
    (out true).alarmFloor ≤ 65535 := by decide

theorem witness_UndertoneTarget :
    let out (depth : Nat) : Outlet := { duckDepth := depth }
    let latch (ending : Bool) : Latch := { id := (.program 1, 0), gain := 65535, ending, alarm := false, speech := false }
    (latch true).ending = true ∧ (latch false).ending = false ∧ (out 4096).duckDepth ≤ 4096 ∧
    (out 4096).compEnable = false ∧ (latch false).alarm = false ∧ (out 0).duckDepth = 0 ∧ (out 4096).duckDepth = 4096 := by
  decide

theorem witness_GainSteps :
    let h (alarm : Bool) : Latch := { id := (.program 1, 7), gain := 4096, ending := false, alarm, speech := true }
    let m (fg ug : Option ClaimId) (duck : Option (Nat × ClaimId)) : MixEntry := { fg, ug, duck }
    (0 : Nat) = 0 ∧ 100 ≤ 36 + 64 ∧ 36 ≤ 100 + 64 ∧ (64 : Nat) ≠ 0 ∧ 35 + 64 < 100 ∧ 100 + 64 < 165 ∧
    (m (some (h false).id) none none).fg = some (h false).id ∧ (m (some (h false).id) none none).duck = none ∧
    (m (some (h false).id) none none).ug ≠ some (h false).id ∧ (m none none none).fg ≠ some (h false).id ∧
    (m (some (h false).id) none (some (2, (h false).id))).duck = some (2, (h false).id) ∧ 1 < 2 ∧
    (m (some (h false).id) none (some (1, (h false).id))).duck = some (1, (h false).id) ∧ 1 ≤ 1 ∧
    (h false).ending = false ∧ (m none (some (h false).id) none).fg ≠ some (h false).id ∧
    (m none (some (h false).id) none).ug = some (h false).id ∧ ({} : Outlet).duckHold ≠ 0 ∧
    ({ duckHold := 0 } : Outlet).duckHold = 0 ∧ (m none none none).ug ≠ some (h false).id ∧ (h true).alarm = true ∧
    (h false).alarm = false := by decide

theorem witness_ClipCount :
    (granted (.snapPiece 0 255 64) site).port.grant = some ⟨.snapPiece 0 (255 : Fin 256).val 64, false⟩ := by decide

theorem witness_MixPeriod :
    let one := claimed [{ claimOf 1 4 0 false true with state := .holding }]
    let two := claimed [{ claimOf 1 4 0 false true with state := .holding },
      { claimOf 2 1 1 true false with state := .undertone }]
    let up := site.modTrunk 0 fun t => { t with link := .up, sync := some 4, present := 5 }
    (one.beforeLatch.holder 3).isSome = true ∧ one.beforeLatch.undertone 3 = none ∧ one.beforeLatch.holder 4 = none ∧
    one.beforeLatch.undertone 4 = none ∧ (two.beforeLatch.holder 3).isSome = true ∧
    (two.beforeLatch.undertone 3).isSome = true ∧ site.inlets.get 9 = .undefined ∧
    (site.beforeLatch.trunks.get (trunkOf 5)).link ≠ .up ∧
    (up.beforeLatch.trunks.get (trunkOf 5)).present ≤ (slotOf 5).val := by
  refine ⟨?_, ?_, ?_, ?_, ?_, ?_, ?_, ?_, ?_⟩ <;> decide +kernel

/-- Outlet 255 with its duck-hold timer at `left`. -/
def ducking (left : Nat) : State :=
  { State.reset with mixer := State.reset.mixer.modify 255 fun m => { m with duck := some (left, .program 1, 0) } }

theorem witness_DuckHoldExpiry :
    ((ducking 1).mixer.get 255).duck = some (1, .program 1, 0) ∧ 1 ≤ 1 ∧ ((ducking 2).mixer.get 255).duck =
      some (2, .program 1, 0) ∧ 1 < 2 ∧ (State.reset.mixer.get 255).duck = none := by decide +kernel

theorem witness_Compensation :
    let out : Outlet := { compEnable := true, senseInlet := some 6, margin := 10, slope := 16, cap := 4096 }
    ({} : Outlet).compEnable = false ∧ ({} : Outlet).senseInlet = none ∧ out.compEnable = true ∧ out.senseInlet ≠ none ∧
    ((110 : Nat) : Int) - (100 : Nat) - out.margin ≤ 0 ∧ 0 ≤ ((110 : Nat) : Int) - (100 : Nat) - out.margin := by decide

/-- The last period of a window has been heard; outlet 255 has sense inlet 6 and these marks. -/
def windowOver (gated unheard void : Bool) : State :=
  { State.reset with
    outlets := State.reset.outlets.modify 255 fun o => { o with senseInlet := some 6 }
    ambient := { State.reset.ambient with
      position := 100
      outlets := State.reset.ambient.outlets.modify 255 fun a => { a with sum := 4800, gated, unheard, void } } }

theorem witness_AmbientWindow :
    State.reset.ambient.position ≠ State.reset.ambient.length ∧
    (windowOver true true true).ambient.position = (windowOver true true true).ambient.length ∧
    ((windowOver true true true).outlets.get 254).senseInlet = none ∧
    ((windowOver true true true).outlets.get 255).senseInlet ≠ none ∧
    ((windowOver true true true).ambient.outlets.get 255).gated = true ∧
    ((windowOver false true false).ambient.outlets.get 255).gated = false ∧
    ((windowOver false true false).ambient.outlets.get 255).unheard = true ∧
    ((windowOver false false true).ambient.outlets.get 255).void = true ∧
    ((windowOver false false false).ambient.outlets.get 255).unheard = false ∧
    ((windowOver false false false).ambient.outlets.get 255).void = false := by decide +kernel

/-- A fragment of 480 samples at address 32, with a link to 64. -/
def aFragment : Fragment := { addr := 32, flags := 0x81, count := 480, buffer := 128, more := true, link := 64, fetched := 0 }

/-- Channel 15 is PRIMING, with its transfer granted. -/
def fetching (x : Xfer) (f : Channel → Channel) : State :=
  granted (.channel 15 x) (running.modChannel 15 fun c => f { c with state := .priming })

theorem witness_StreamTransfers :
    let s (x : Xfer) (f : Channel → Channel) := fetching x f
    let good : List Byte := [0x81, 0, 2, 0, 0xFC, 0x0F, 0, 0, 64, 0, 0, 0]
    let bad : List Byte := [0x81, 0, 3, 0, 0xFC, 0x0F, 0, 0, 64, 0, 0, 0]
    let ended (x : Xfer) (w : Option ReturnWalk) : State :=
      granted (.channel 15 x) (running.modChannel 15 fun c => { c with state := .ended, walk := w })
    let last : Fragment := { aFragment with fetched := 256 }
    (s (.fragmentRead 32) id).port.grant = some ⟨.channel 15 (.fragmentRead 32), false⟩ ∧
    bitOf (byteAt [0x01] 0) 7 = false ∧ bitOf (byteAt good 0) 7 = true ∧ halfAt good 2 ≠ 0 ∧
    (s (.fragmentRead 32) id).inWindow (wordAt good 4) (halfAt good 2 * 2) 4 = true ∧
    wordAt good 8 ≠ 0 ∧
    bitOf (byteAt bad 0) 7 = true ∧
    (s (.fragmentRead 32) id).inWindow (wordAt bad 4) (halfAt bad 2 * 2) 4 = false ∧
    (let t := s (.burst 128 256) fun c => { c with cur := .taken aFragment }
     t.port.grant = some ⟨.channel 15 (.burst 128 256), false⟩ ∧ (t.channels.get 15).cur = .taken aFragment ∧
       aFragment.fetched + 256 < aFragment.count) ∧
    (∀ repeats ∈ [true, false],
      let t := s (.burst 640 224) fun c => { c with cur := .taken last, desc := { c.desc with repeats } }
      t.port.grant = some ⟨.channel 15 (.burst 640 224), false⟩ ∧ (t.channels.get 15).cur = .taken last ∧
        last.fetched + 224 = last.count ∧ (t.channels.get 15).desc.repeats = repeats ∧
        (t.channels.get 15).ownedByAlarm = false) ∧
    (let t := s (.writeBack ⟨32, []⟩) fun c => { c with cur := .taken aFragment }
     t.port.grant = some ⟨.channel 15 (.writeBack ⟨32, []⟩), false⟩ ∧ (t.channels.get 15).state ≠ .ended ∧
       (t.channels.get 15).cur = .taken aFragment ∧ aFragment.more = true ∧ t.inWindow aFragment.link 32 32 = true ∧
       t.inWindow ({ aFragment with link := 4065 } : Fragment).link 32 32 = false) ∧
    ((s (.writeBack ⟨32, []⟩) fun c => { c with cur := .taken { aFragment with more := false }, passes := 1 }).channels.get
      15).passes = 1 ∧
    (let t := ended (.writeBack ⟨32, []⟩) none
     t.port.grant = some ⟨.channel 15 (.writeBack ⟨32, []⟩), false⟩ ∧ (t.channels.get 15).state = .ended ∧
       (t.channels.get 15).walk = none) ∧
    ((ended (.writeBack ⟨32, []⟩) (some ⟨none, some aFragment, 0⟩)).channels.get 15).walk = some ⟨none, some aFragment, 0⟩ ∧
    (let t := ended (.walkRead 64) (some ⟨some 64, none, 1⟩)
     t.port.grant = some ⟨.channel 15 (.walkRead 64), false⟩ ∧ (t.channels.get 15).state = .ended ∧
       (t.channels.get 15).walk = some ⟨some 64, none, 1⟩) ∧
    ({} : StreamDesc).pcm24 = false ∧ ({} : StreamDesc).swapped = false ∧
    ({ swapped := true } : StreamDesc).swapped = true ∧
    ({ pcm24 := true, swapped := true } : StreamDesc).pcm24 = true := by
  refine ⟨?_, ?_, ?_, ?_, ?_, ?_, ?_, ?_, ?_, ?_, ?_, ?_, ?_, ?_, ?_, ?_, ?_, ?_, ?_⟩ <;> decide +kernel

/-- What a channel's request rests on: nothing in FREE; in ENDED a fragment not yet returned or the return walk; else the
current fragment, around the marks of 256 samples and of a FIFO with room for 256. -/
theorem witness_StreamTransfers_requests :
    let ch (x : ChanState) (cur : Current) : Channel := { state := x, cur }
    let walks (next : Option Nat) (back : Option Fragment) : Channel := { state := .ended, walk := some ⟨next, back, 1⟩ }
    let taken (fetched room : Nat) : Channel :=
      { state := .playing, cur := .taken { aFragment with fetched }, fifo := List.replicate (4096 - room) 0 }
    let single (c : Channel) : Prop := c.desc.repeats = false ∧ c.ownedByAlarm = false
    (ch .free .empty).state = .free ∧
    (ch .ended .empty).walk = none ∧ (ch .ended (.taken aFragment)).returned = false ∧
    ({ ch .ended (.taken aFragment) with returned := true } : Channel).returned = true ∧
    (walks none (some aFragment)).walk = some ⟨none, some aFragment, 1⟩ ∧ (walks (some 64) none).state = .ended ∧
    (walks none none).state = .ended ∧
    (∀ cur ∈ [Current.empty, .toRead 64, .waiting 64], (ch .priming cur).state ≠ .free ∧ (ch .priming cur).state ≠ .ended ∧
      (ch .priming cur).cur = cur ∧ (ch .priming cur).fetchEnded = false ∧ (ch .priming cur).reread = false ∧
      ({ ch .priming cur with reread := true } : Channel).reread = true ∧
      ({ ch .priming cur with fetchEnded := true } : Channel).fetchEnded = true) ∧
    (∀ fetched ∈ [0, 223, 224, 479], fetched < aFragment.count ∧ (taken fetched 256).fetchEnded = false ∧
      (taken fetched 256).fifo.length + 256 ≤ 4096 ∧ 4096 < (taken fetched 255).fifo.length + 256) ∧
    (min 256 (aFragment.count - 223), min 256 (aFragment.count - 224), min 256 (aFragment.count - 479)) = (256, 256, 1) ∧
    aFragment.count ≤ 480 ∧ single (taken 480 256) ∧ (taken 480 256).returned = false ∧
    ¬ single { taken 480 256 with owner := some (.program 60) } ∧
    ¬ single { taken 480 256 with desc := { repeats := true } } ∧
    ∀ x ∈ [Xfer.writeBack ⟨32, []⟩, .fragmentRead 32, .burst 128 256, .walkRead 64], ∀ discard ∈ [false, true],
      ({ fetching x id with port := { grant := some ⟨.channel 15 x, discard⟩ } } : State).port.grant =
        some ⟨.channel 15 x, discard⟩ := by
  refine ⟨?_, ?_, ?_, ?_, ?_, ?_, ?_, ?_, ?_, ?_, ?_, ?_, ?_, ?_, ?_, ?_⟩ <;> decide +kernel

theorem witness_ChannelSignals :
    let ch (state : ChanState) (n : Nat) : Channel := { state, fifo := List.replicate n 0, desc := { prime := 256 } }
    (∀ x ∈ [ChanState.priming, .ready, .playing, .starved, .draining, .paused, .free, .ended],
      (ch x 0).state = x) ∧
    (ch .priming 256).primed = true ∧ (ch .priming 255).primed = false ∧ (ch .paused 256).resumeTo = .playing ∧
    (ch .paused 256).fetchEnded = false ∧ ({ ch .paused 256 with resumeTo := .starved } : Channel).primed = true ∧
    ({ ch .paused 255 with resumeTo := .starved } : Channel).primed = false ∧
    ({ ch .paused 0 with fetchEnded := true } : Channel).fetchEnded = true ∧ 48 ≤ (ch .playing 48).fifo.length ∧
    (ch .playing 47).fifo.length < 48 ∧ (ch .draining 48).fifo.length ≤ 48 := by decide +kernel

/-- `sounding`, with program 63 an ANNOUNCE that chimes from inlet 5. -/
def chiming (cycles : Nat) : State :=
  withProgram 63 { state := .chiming, source := .inlet 5, chime := some 11 } (sounding (.chime 63) cycles (tuned 11 .reset))

theorem witness_ToneSegmentEnd :
    let due (x : Voice) : Prop := x.mode = .sounding ∧ x.left = 0
    let longer : State := State.reset.modVoice 7 fun _ =>
      { user := .ring, mode := .sounding, pattern := 11
        copy := { segments := [⟨10, 1000, 4096⟩, ⟨20, 0, 0⟩], cycles := 1 }, left := 0 }
    let alarm (k : AlarmKind) (cycles toneCycles : Nat) (stream : Option StreamDesc) : State :=
      let s := sounding (.alarm k) cycles (tuned 11 running)
      { s with alarms := { s.alarms with defs := s.alarms.defs.set k.idx (some { pattern := 11, toneCycles, stream }) } }
    let owned (x : ChanState) (s : State) : State :=
      s.modChannel 15 fun c => { c with state := x, owner := some (.program 60) }
    let owing : State := (sounding .ring 0 (tuned 11 .reset)).modPattern 11 fun q =>
      { q with pendingCopy := some { segments := [⟨30, 500, 4096⟩], cycles := 0 }, owing := [7] }
    ¬ due (State.reset.tones.voices.get 7) ∧
    due (longer.tones.voices.get 7) ∧ (longer.tones.voices.get 7).copy.segments[0 + 1]? = some ⟨20, 0, 0⟩ ∧
    (let s := sounding .ring 0 (tuned 11 .reset)
     let x := s.tones.voices.get 7
     7 ∉ (s.tones.patterns.get x.pattern).owing ∧ due x ∧ x.copy.segments.length ≤ x.segment + 1 ∧ x.user = .ring ∧
       (s.tones.patterns.get 11).stored = some { segments := [⟨10, 1000, 4096⟩], cycles := 2 }) ∧
    (let x := owing.tones.voices.get 7
     7 ∈ (owing.tones.patterns.get x.pattern).owing ∧ due x ∧ x.user = .ring ∧
       (owing.tones.patterns.get 11).pendingCopy = some { segments := [⟨30, 500, 4096⟩], cycles := 0 }) ∧
    (let s := chiming 1
     let x := s.tones.voices.get 7
     due x ∧ x.user = .chime 63 ∧ x.copy.cycles ≤ x.cycles + 1 ∧ (s.programs.get 63).kind ≠ .theatre ∧
       (s.programs.get 63).source ≠ .stream ∧ (s.programs.get 63).durationStarted = false) ∧
    (let s := chiming 0
     let x := s.tones.voices.get 7
     due x ∧ x.user = .chime 63 ∧ x.cycles + 1 < x.copy.cycles ∧
       (s.tones.patterns.get x.pattern).stored = some { segments := [⟨10, 1000, 4096⟩], cycles := 2 }) ∧
    (∀ s ∈ [alarm .muster 0 0 none, alarm .muster 0 2 (some { first := 64 }), alarm .muster 0 1 (some { first := 64 }),
        owned .ready (alarm .muster 0 1 (some { first := 64 })), owned .priming (alarm .muster 0 1 (some { first := 64 })),
        { alarm .muster 0 1 (some { first := 64 }) with part := .fallback }],
      let x := s.tones.voices.get 7
      due x ∧ x.user = .alarm .muster ∧ x.copy.segments.length ≤ x.segment + 1 ∧ x.cycles + 1 < x.copy.cycles ∧
        (s.tones.patterns.get 11).stored = some { segments := [⟨10, 1000, 4096⟩], cycles := 2 } ∧
        7 ∉ (s.tones.patterns.get 11).owing ∧ (s.alarms.kinds.get 0).count = 0) ∧
    (alarm .muster 0 1 (some { first := 64 })).freeChannel = some 0 ∧
    (alarm .muster 0 1 (some { first := 64 })).channelOf (.program 60) = none ∧
    (alarm .muster 0 1 (some { first := 64 })).inWindow 64 32 32 = true ∧
    (owned .ready (alarm .muster 0 1 (some { first := 64 }))).channelOf (.program 60) = some 15 ∧
    (let x := (alarm .crewAlert 1 0 none).tones.voices.get 7
     due x ∧ x.user = .alarm .crewAlert ∧ ¬ (x.copy.cycles = 0 ∨ x.cycles + 1 < x.copy.cycles) ∧ x.copy.next = none) ∧
    (let s := withProgram 63 { state := .playing } ((alarm .crewAlert 1 0 none).setAreas .crewAlert .sounding [15])
     let x := s.tones.voices.get 7
     s.areaState .crewAlert 15 ≠ .quiet ∧ (s.programs.get 63).state ≠ .free ∧ x.mode = .sounding ∧ x.left = 0 ∧
       x.copy.segments.length ≤ x.segment + 1 ∧ x.user = .alarm .crewAlert ∧
       ∀ w, (s.tones.voices.get w).user = .alarm .crewAlert → w = 7) := by
  refine ⟨?_, ?_, ?_, ?_, ?_, ?_, ?_, ?_, ?_, ?_, ?_, ?_, ?_, ?_⟩ <;> decide +kernel

theorem witness_ToneWave :
    let x := (sounding .ring 0 .reset).tones.voices.get 7
    let rest : Voice := { x with copy := { segments := [⟨10, 0, 4096⟩], cycles := 2 } }
    (32767 : Nat) < 32768 ∧ (32768 : Nat) < 65536 ∧ x.mode = .sounding ∧
    x.copy.segments[x.segment]? = some ⟨10, 1000, 4096⟩ ∧ x.phase < 65536 ∧
    rest.copy.segments[rest.segment]? = some ⟨10, 0, 4096⟩ := by decide +kernel

/-- Stations 1, 2 and 3 at inlets 20 to 22 and outlets 10 to 12, IDLE on the hook. -/
def stations : State :=
  { State.reset with
    outlets := ((State.reset.outlets.modify 10 fun o => { o with kind := .station }).modify 11 fun o =>
      { o with kind := .station }).modify 12 fun o => { o with kind := .station }
    stations := ((State.reset.stations.modify 1 fun x => { x with binding := some (20, 10), state := .idle }).modify 2
      fun x => { x with binding := some (21, 11), state := .idle }).modify 3 fun x =>
      { x with binding := some (22, 12), state := .idle } }

/-- OPEN_CALL of call 15 with two parties, at the highest priority of a call. -/
def openFields : List (Nat × Nat) := [(0, 0xA0), (8, 15), (9, 9), (10, 120), (12, 2)]

/-- The party block: stations 1 and 2, and the second's ring flag. -/
def twoParties (ring : Byte) : List Byte := [1, 0, 0, 16, 0, 16, 0, 0, 2, ring, 0, 16, 0, 16, 0, 0]

theorem witness_OpenCall :
    (∀ ring ∈ [(0 : Byte), 1], Met .call 0x20 openFields [twoParties ring] (tuned 11 stations) (fun h s =>
      (openRec h.bytes).call = (15 : Fin 16).val ∧ (openRec h.bytes).count = 2 ∧ (openRec h.bytes).anchor = 0 ∧
        (openRec h.bytes).page = false ∧
        rawParties (twoParties ring) 2 = [⟨(1 : Fin 64).val, false, 4096, 4096⟩, ⟨(2 : Fin 64).val, ring == 1, 4096, 4096⟩] ∧
        (s.stations.get 1).binding = some (20, 10) ∧ (s.stations.get 2).binding = some (21, 11) ∧
        (s.stations.get 1).state = .idle ∧ (s.stations.get 2).state = .idle ∧ (s.calls.get 15).state = .free ∧
        (s.outlets.get 10).kind = .station ∧ (s.outlets.get 11).kind = .station ∧ s.stack 10 = [] ∧ s.stack 11 = [] ∧
        s.claims.arrivals < 4294967295 ∧ (s.stations.get 2).offHook = false ∧ s.voiceOf .ring = none ∧
        s.patternDefined 11 = true ∧ s.freeVoice = some 0)) := by decide +kernel

/-- OPEN_CALL of call 15 with three parties and a page on slot 58. -/
def pageFields : List (Nat × Nat) := [(0, 0xA0), (8, 15), (9, 9), (10, 120), (11, 2), (12, 3), (13, 1), (15, 58)]

/-- The party block: stations 3, 1 and 2; the first two have their ring flags. -/
def threeParties : List Byte := [3, 1, 0, 16, 0, 16, 0, 0, 1, 1, 0, 16, 0, 16, 0, 0, 2, 0, 0, 16, 0, 16, 0, 0]

theorem witness_OpenCall_several :
    let ps : List RawParty := [⟨3, true, 4096, 4096⟩, ⟨1, true, 4096, 4096⟩, ⟨2, false, 4096, 4096⟩]
    let off (s : State) := s.modStation 1 fun x => { x with offHook := true }
    let lost (s : State) := s.modStation 3 fun x => { x with state := .lost }
    ∀ s ∈ [stations, off stations, lost stations],
      Met .call 0x20 pageFields [[8], threeParties] s (fun h s =>
        (openRec h.bytes).call = (15 : Fin 16).val ∧ (openRec h.bytes).count = 3 ∧ (openRec h.bytes).anchor = 2 ∧
        rawParties (([[8], threeParties] : List (List Byte)).getLastD []) 3 = ps ∧
        ps.map (·.station) = ([3, 1, 2] : List (Fin 64)).map (·.val) ∧ ([3, 1, 2] : List (Fin 64)).Nodup ∧
        (∀ n ∈ ([3, 1, 2] : List (Fin 64)), (s.stations.get n).binding ≠ none) ∧
        (∀ x, ps[2]? = some x → x.ring = false) ∧ (s.stations.get 2).state = .idle ∧
        2 ≤ (([3, 1, 2] : List (Fin 64)).filter fun n => (s.stations.get n).state == .idle).length ∧
        (s.calls.get 15).state = .free ∧ (openRec h.bytes).page = true ∧
        (openRec h.bytes).pageSlot = (58 : Fin 64).val ∧ (s.programs.get 58).state = .free ∧
        (s.programs.get 58).reservation = none ∧ s.claims.arrivals < 4294967294) := by
  intro ps off lost s hs
  fin_cases hs <;> refine ⟨?_, ?_, ?_, ?_, ?_, ?_, ?_, ?_, ?_, ?_, ?_, ?_, ?_, ?_, ?_, ?_, ?_, ?_⟩ <;> decide +kernel

/-- The party at a station and its outlet. -/
def party (n : Fin 64) (state : PartyState) (claim : Option (Fin 256)) : Party :=
  { station := n, ring := true, talk := 4096, listen := 4096, state, outletLost := false
    ringTimer := if state = .ringing then some 0 else none, arrival := 0, claim }

/-- Call 15, ACTIVE, with these parties; their stations are in the call. -/
def calling (ps : List Party) : State :=
  let s : State := { stations with
    calls := stations.calls.set 15
      { state := .active, priority := 9, ringTimeout := 120, parties := ps, everActive := true } }
  s.forAll ps fun p => State.modStation p.station fun x =>
    if p.live then { x with state := if p.state = .ringing then .ringing else .inCall, call := some 15 } else x

theorem witness_OpenCallChecks :
    let f (xs : List (Nat × Nat)) := xs ++ pageFields
    let raw : List RawParty := [⟨3, true, 4096, 4096⟩, ⟨1, true, 4096, 4096⟩, ⟨2, false, 4096, 4096⟩]
    Met .call 0x20 (f [(8, 16)]) [[8], threeParties] stations (fun h _ => 16 ≤ (openRec h.bytes).call) ∧
    Met .call 0x20 (f [(12, 1)]) [[8], threeParties] stations (fun h _ => (openRec h.bytes).count < 2) ∧
    Met .call 0x20 (f [(12, 9)]) [[8], threeParties] stations (fun h _ => 8 < (openRec h.bytes).count) ∧
    Met .call 0x20 (f [(11, 3)]) [[8], threeParties] stations
      (fun h _ => (openRec h.bytes).count ≤ (openRec h.bytes).anchor) ∧
    Met .call 0x20 pageFields [[8], 64 :: threeParties.tail] stations (fun h _ =>
      ∃ x ∈ rawParties (([[8], 64 :: threeParties.tail] : List (List Byte)).getLastD []) (openRec h.bytes).count,
        64 ≤ x.station) ∧
    (stations.stations.get 63).binding = none ∧
    Met .call 0x20 (f [(11, 1)]) [[8], threeParties] stations (fun h _ => (openRec h.bytes).anchor = 1 ∧
      raw[1]? = some ⟨1, true, 4096, 4096⟩) ∧
    Met .call 0x20 (f [(15, 59)]) [[8], threeParties] stations (fun h _ => (openRec h.bytes).page = true ∧
      59 ≤ (openRec h.bytes).pageSlot) ∧
    (∀ s ∈ [calling [], stations.modProgram 58 fun p => { p with state := .playing },
        stations.modProgram 58 fun p => { p with reservation := some 14 },
        stations.modStation 2 fun x => { x with state := .lost }],
      Met .call 0x20 pageFields [[8], threeParties] s (fun h s => (openRec h.bytes).call = (15 : Fin 16).val ∧
        ¬ (16 ≤ (openRec h.bytes).call ∨ (openRec h.bytes).count < 2 ∨ 8 < (openRec h.bytes).count ∨
          (openRec h.bytes).count ≤ (openRec h.bytes).anchor ∨
          (∃ x ∈ rawParties threeParties (openRec h.bytes).count, 64 ≤ x.station ∨
            ∃ n : Fin 64, x.station = n.val ∧ (s.stations.get n).binding = none) ∨
          ((rawParties threeParties (openRec h.bytes).count)[(openRec h.bytes).anchor]?.any (·.ring)) = true) ∧
        (openRec h.bytes).pageSlot = (58 : Fin 64).val ∧
        ((s.calls.get 15).state ≠ .free ∨ (s.programs.get 58).state ≠ .free ∨
          (s.programs.get 58).reservation ≠ none ∨
          ((rawParties threeParties 3)[2]? = some ⟨(2 : Fin 64).val, false, 4096, 4096⟩ ∧
            (s.stations.get 2).state ≠ .idle ∧ s.takenGranted .call h.addr = false ∧ s.claims.arrivals < 4294967295)))) := by
  refine ⟨?_, ?_, ?_, ?_, ?_, ?_, ?_, ?_, ?_⟩ <;> decide +kernel

theorem witness_CallRecords :
    let f (kind call : Nat) := [(0, kind), (8, call), (9, 3), (10, 0)]
    let two := [party 1 .connected (some 10), party 2 .connected (some 11)]
    let three := [party 1 .connected (some 10), party 2 .connected (some 11), party 3 .connected (some 12)]
    let full := two ++ List.replicate 6 (party 3 .busy none)
    Met .call 0x21 (f 0xA1 16) [] stations (fun h _ => 16 ≤ (addRec h.bytes).call) ∧
    Met .call 0x21 [(0, 0xA1), (9, 64)] [] stations (fun h _ => 64 ≤ (addRec h.bytes).station) ∧
    Met .call 0x21 [(0, 0xA1), (8, 15), (9, 63)] [] stations (fun h s =>
      (addRec h.bytes).station = (63 : Fin 64).val ∧ (s.stations.get 63).binding = none) ∧
    Met .call 0x21 (f 0xA1 15) [] stations (fun h s => (addRec h.bytes).call = (15 : Fin 16).val ∧
      (addRec h.bytes).station = (3 : Fin 64).val ∧ (s.stations.get 3).binding ≠ none ∧ (s.calls.get 15).state = .free) ∧
    Met .call 0x21 (f 0xA1 15) [] (calling full) (fun _ s => (s.stations.get 3).binding ≠ none ∧
      (s.calls.get 15).state = .active ∧ 8 ≤ (s.calls.get 15).parties.length) ∧
    (∀ x ∈ [StationState.idle, .lost], Met .call 0x21 (f 0xA1 15) []
      ((calling two).modStation 3 fun y => { y with state := x }) (fun h s =>
        (s.stations.get 3).binding = some (22, 12) ∧ (s.calls.get 15).state = .active ∧
          (s.calls.get 15).everActive = true ∧ (s.calls.get 15).parties.length < 8 ∧
          (s.calls.get 15).anchor < (s.calls.get 15).parties.length ∧ (s.calls.get 15).anchorGone = false ∧
          2 ≤ ((s.calls.get 15).parties.filter (·.state == .connected)).length ∧ s.claims.arrivals < 4294967295 ∧
          (s.stations.get 3).state = x ∧ (addRec h.bytes).ring = false ∧ (s.outlets.get 12).kind = .station ∧
          hasOwner (.party 15 2) (s.stack 12) = false ∧ (s.stack 12).length < 8)) ∧
    Met .call 0x22 [(0, 0xA2), (8, 16)] [] stations (fun h _ => 16 ≤ byteAt h.bytes 8) ∧
    Met .call 0x22 [(0, 0xA2), (8, 15)] [] stations (fun h s => byteAt h.bytes 8 = (15 : Fin 16).val ∧
      (s.calls.get 15).state = .free) ∧
    Met .call 0x22 [(0, 0xA2), (8, 15), (9, 3)] [] (calling three) (fun h s => (s.calls.get 15).state ≠ .free ∧
      (s.calls.get 15).parties.length ≤ byteAt h.bytes 9) ∧
    Met .call 0x22 [(0, 0xA2), (8, 15), (9, 7)] [] (calling full) (fun h s => byteAt h.bytes 9 = (7 : Fin 8).val ∧
      (s.calls.get 15).parties[7]? = some (party 3 .busy none) ∧ (s.calls.get 15).state ≠ .free) ∧
    Met .call 0x22 [(0, 0xA2), (8, 15), (9, 2)] [] (calling three) (fun h s => byteAt h.bytes 9 = (2 : Fin 8).val ∧
      (s.calls.get 15).parties[2]? = some (party 3 .connected (some 12)) ∧ (s.calls.get 15).state = .active ∧
        (s.calls.get 15).everActive = true ∧ (s.calls.get 15).anchor ≠ byteAt h.bytes 9 ∧
        (s.calls.get 15).anchorGone = false ∧
        3 ≤ ((s.calls.get 15).parties.filter (·.state == .connected)).length) ∧
    Met .call 0x23 [(0, 0xA3), (8, 16)] [] stations (fun h _ => 16 ≤ byteAt h.bytes 8) ∧
    Met .call 0x23 [(0, 0xA3), (8, 15)] [] stations (fun _ s => (s.calls.get 15).state = .free) ∧
    Met .call 0x23 [(0, 0xA3), (8, 15)] [] (calling full) (fun h s => byteAt h.bytes 8 = (15 : Fin 16).val ∧
      (s.calls.get 15).state ≠ .free ∧ (s.calls.get 15).state ≠ .clearing ∧ (s.calls.get 15).parties.length ≤ 8 ∧
      (s.calls.get 15).page = none ∧ (party 1 .connected (some 10)).live = true) := by
  refine ⟨?_, ?_, ?_, ?_, ?_, ?_, ?_, ?_, ?_, ?_, ?_, ?_, ?_, ?_⟩ <;> decide +kernel

theorem witness_StationTimers :
    let three := [party 1 .connected (some 10), party 2 .connected (some 11), party 3 .ringing (some 12)]
    let held (s : State) := s.modStation 3 fun x => { x with holdTimer := some 0 }
    (stations.stations.get 3).holdTimer ≠ some 0 ∧
    (((held stations).stations.get 3).holdTimer = some 0 ∧ ((held stations).stations.get 3).state = .idle ∧
      ((held stations).stations.get 3).call = none) ∧
    (((held (calling three)).stations.get 3).holdTimer = some 0 ∧
      ((held (calling three)).stations.get 3).state = .ringing ∧
      ((held (calling three)).stations.get 3).call = some 15 ∧
      ((held (calling three)).calls.get 15).parties = three ∧
      (∀ j : Fin 8, ∀ q ∈ three[j.val]?, q.live = true → q.station = 3 →
        (held (calling three)).partyOf 15 3 = some j) ∧
      (held (calling three)).partyOf 15 3 = some 2) ∧
    three[(1 : Fin 8).val]? = some (party 2 .connected (some 11)) ∧ (party 2 .connected (some 11)).state ≠ .ringing ∧
    (let call := (calling three).calls.get 15
     call.parties[(2 : Fin 8).val]? = some (party 3 .ringing (some 12)) ∧
       (party 3 .ringing (some 12)).ringTimer = some 0 ∧ call.state = .active ∧ call.everActive = true ∧
       call.anchor ≠ (2 : Fin 8).val ∧ call.anchorGone = false ∧
       2 ≤ (call.parties.filter (·.state == .connected)).length) := by decide +kernel

theorem witness_StationTimers_note :
    let s := granted (.snapPiece 0 0 0) (calling [party 1 .connected (some 10), party 2 .connected (some 11),
      party 3 .ringing (some 12)])
    ∀ n ∈ [(1 : Fin 64), 3], let t := s.modStation n fun x => { x with holdTimer := some 0 }
      (t.stations.get n).holdTimer = some 0 ∧ (t.stations.get n).call = some 15 ∧ t.port.grant ≠ none ∧
        ((t.stations.get n).state = .ringing ∨ (t.stations.get n).state = .inCall) := by decide +kernel

/-- R114: the note of a loss shows the call that the station was in. -/
theorem test_lossNote :
    let s := granted (.snapPiece 0 0 0) ((calling [party 1 .connected (some 10), party 2 .connected (some 11),
      party 3 .ringing (some 12)]).modStation 3 fun x => { x with holdTimer := some 0 })
    ((after (.holdTimerExpiry 3) s).notes.queue.map fun n => (n.kind, n.code, n.subject, n.detail)) = [(.station, 3, 3, 15)] := by
  decide +kernel

theorem witness_StationReports :
    let r (off : Bool) : StationReport := ⟨true, off, some 15⟩
    let b (x : StationReport) : ControlBlock :=
      { group := 2, loops := [], stations := x :: List.replicate 7 ⟨false, false, none⟩, echoes := [none, none] }
    -- group 2 begins at slot 16: station 1 is bound to inlet 16 here
    let here (s : State) : State := (s.modTrunk 0 fun t => { t with link := .up, served := 16, present := 17 }).modStation 1
      fun x => { x with binding := some (16, 10) }
    let at' (x : StationState) (off : Bool) (s : State) := (here s).modStation 1 fun y => { y with state := x, offHook := off }
    let three := [party 2 .connected (some 11), party 3 .connected (some 12), party 1 .connected (some 10)]
    let rung := [party 2 .connected (some 11), party 3 .connected (some 12), party 1 .ringing (some 10)]
    (let t := (here stations).trunks.get 0
     t.link = .up ∧ t.served ≤ 8 * (b (r true)).group.val ∧ 8 * (b (r true)).group.val < t.present ∧
       t.present ≤ 8 * (b (r true)).group.val + 1) ∧
    (b (r true)).stations[0]? = some (r true) ∧
    (∀ y : Fin 8, ((here stations).changeovers.get y).state = .free) ∧ outletAt 0 ⟨16, by decide⟩ = 16 ∧
    ((here stations).stations.get 1).binding = some (16, 10) ∧
    (∀ m < (1 : Fin 64), ((here stations).stations.get m).binding.map (·.1) ≠ some 16) ∧
    (∀ m, (stations.stations.get m).binding.map (·.1) ≠ some 16) ∧
    (∀ x ∈ [StationState.idle, .lost], ((at' x false stations).stations.get 1).state = x) ∧
    (∀ v ∈ [(rung, StationState.ringing, false, PartyState.ringing), (three, .inCall, true, .connected)],
      let s := at' v.2.1 v.2.2.1 (calling v.1)
      (s.stations.get 1).state = v.2.1 ∧ (s.stations.get 1).call = some 15 ∧ s.partyOf 15 1 = some 2 ∧
        (s.calls.get 15).parties[2]? = some (party 1 v.2.2.2 (some 10)) ∧ (s.calls.get 15).state = .active ∧
        (s.calls.get 15).everActive = true ∧ (s.calls.get 15).anchorGone = false ∧
        (s.stations.get 1).offHook = v.2.2.1 ∧ (s.calls.get 15).anchor ≠ (2 : Fin 8).val) ∧
    2 ≤ (rung.filter (·.state == .connected)).length ∧ 3 ≤ (three.filter (·.state == .connected)).length := by
  refine ⟨?_, ?_, ?_, ?_, ?_, ?_, ?_, ?_, ?_, ?_, ?_⟩ <;> decide +kernel

/-- R115, R116: a station that hangs up and presses a key: its hook note shows the call it left, its key note none. -/
theorem test_hangUpNotes :
    let s := granted (.snapPiece 0 0 0) (((calling [party 2 .connected (some 11), party 3 .connected (some 12),
      party 1 .connected (some 10)]).modTrunk 0 fun t => { t with link := .up, served := 0, present := 1 }).modStation 1 fun x =>
        { x with binding := some (0, 10), offHook := true })
    let b : ControlBlock := { group := 0, loops := [], stations := [⟨true, false, some 15⟩], echoes := [none, none] }
    s.port.grant ≠ none ∧
    ((after (.inboundControlBlock 0 b) s).notes.queue.map fun n => (n.kind, n.code, n.subject, n.detail)) =
      [(.station, 2, 1, 15), (.stationKey, 15, 1, 255)] := by decide +kernel

/-- MUSTER, with or without a definition, in a state in area 15. -/
def mustered (x : AreaState) (defined : Bool) : State :=
  let s := site.setAreas .muster x [15]
  { s with alarms := { s.alarms with
      defs := if defined then s.alarms.defs.set 0 (some { pattern := 0, toneCycles := 0, stream := none }) else s.alarms.defs } }

theorem witness_AlarmRecords :
    let f (kind code : Nat) := [(0, kind), (8, code), (11, 0x80)]
    let areas (h : Hand) := (allFin 16).filter fun a => bitOf (halfAt h.bytes 10) a.val
    let muster (h : Hand) : Prop := byteAt h.bytes 8 = AlarmKind.muster.idx.val ∧ areas h = [15]
    let busy (s : State) : State := granted (.snapPiece 0 0 0)
      { s with outlets := s.outlets.modify 3 fun o => { o with area := 15 } }
    let seven := (List.range 7).map fun i => claimOf ⟨i % 64, Nat.mod_lt _ (by decide)⟩ 6 i false true
    let last := claimOf 20 4 9 false true
    (∀ kind ∈ [0x30, 0x31, 0x32], Met .alarm kind (f (0x80 + kind) 4) [] site (fun h _ => 4 ≤ byteAt h.bytes 8)) ∧
    Met .alarm 0x30 (f 0xB0 0) [] (mustered .quiet false) (fun h s => muster h ∧ s.alarmDef .muster = none) ∧
    Met .alarm 0x30 (f 0xB0 0) [] (mustered .sounding true) (fun h s => muster h ∧ s.alarmDef .muster ≠ none ∧
      ∀ a ∈ areas h, s.areaState .muster a = .sounding) ∧
    Met .alarm 0x30 (f 0xB0 0) [] (busy (mustered .silenced true)) (fun h s => muster h ∧ s.alarmDef .muster ≠ none ∧
      (∃ a ∈ areas h, s.areaState .muster a ≠ .sounding) ∧ s.port.grant ≠ none ∧
      AlarmKind.muster.audience (s.outlets.get 3).kind = true ∧ (s.outlets.get 3).area ∈ areas h ∧
      (s.stack 3).length < 8 ∧ s.areaState .muster (s.outlets.get 3).area ≠ .sounding) ∧
    (let s := (mustered .quiet true).setStack 3 (seven ++ [last])
     (s.stack 3).length = 8 ∧ (s.stack 3).getLast? = some last ∧ last.priority < AlarmKind.muster.priority) ∧
    Met .alarm 0x31 (f 0xB1 0) [] (mustered .silenced true) (fun h s => ∀ a ∈ areas h, s.areaState .muster a ≠ .sounding) ∧
    Met .alarm 0x31 (f 0xB1 0) [] (busy (mustered .sounding true)) (fun h s => (∃ a ∈ areas h,
      s.areaState .muster a = .sounding) ∧ (s.outlets.get 3).area ∈ areas h ∧
      s.areaState .muster (s.outlets.get 3).area = .sounding ∧ s.port.grant ≠ none) ∧
    Met .alarm 0x32 (f 0xB2 0) [] (mustered .quiet true) (fun h s => ∀ a ∈ areas h, s.areaState .muster a = .quiet) ∧
    Met .alarm 0x32 (f 0xB2 0) [] (busy (mustered .silenced true)) (fun h s => (∃ a ∈ areas h,
      s.areaState .muster a ≠ .quiet) ∧ (s.outlets.get 3).area ∈ areas h ∧
      s.areaState .muster (s.outlets.get 3).area ≠ .quiet ∧ s.port.grant ≠ none) := by
  refine ⟨?_, ⟨?_, ?_, ?_⟩, ⟨?_, ?_, ?_⟩, ⟨?_, ?_, ?_⟩, ?_, ?_, ⟨?_, ?_, ?_⟩, ?_, ⟨?_, ?_, ?_⟩⟩ <;> decide +kernel

/-- MUSTER in a state in area 15, PLAYING there on outlet 3, with voice 7 and channel 15; a grant is in progress. -/
def alarming (x : AreaState) : State :=
  let s := withProgram 60 { state := .playing, kind := .alarm, priority := 13 } (granted (.snapPiece 0 0 0) (mustered x true))
  (({ s with outlets := s.outlets.modify 3 fun o => { o with area := 15 } }.modVoice 7 fun _ =>
    { user := .alarm .muster, mode := .sounding, pattern := 0 }).modChannel 15 fun _ =>
      { state := .playing, owner := some (.program 60), fifo := [1, 2] }).modPattern 0 fun q => { q with owing := [7] }

theorem witness_AlarmRecords_freed :
    let f (kind : Nat) := [(0, 0x80 + kind), (8, 0), (11, 0x80)]
    let areas (h : Hand) := (allFin 16).filter fun a => bitOf (halfAt h.bytes 10) a.val
    let held (s : State) : Prop := (s.programs.get 60).state ≠ .free ∧ (s.tones.voices.get 7).user = .alarm .muster ∧
      (∀ w, (s.tones.voices.get w).user = .alarm .muster → w = 7) ∧ s.channelOf (.program 60) = some 15 ∧
      (s.channels.get 15).state ≠ .free ∧ (s.channels.get 15).state ≠ .ended
    Met .alarm 0x31 (f 0x31) [] (alarming .sounding) (fun h s => areas h = [15] ∧ s.areaState .muster 15 = .sounding ∧
      held s ∧ (after .silenceAlarm s).alarmTargets .muster = []) ∧
    Met .alarm 0x32 (f 0x32) [] (alarming .silenced) (fun h s => areas h = [15] ∧ s.areaState .muster 15 = .silenced ∧
      held s ∧ (after .resetAlarm s).alarmTargets .muster = []) ∧
    (14 : Fin 16) ∉ [(15 : Fin 16)] := by
  refine ⟨⟨?_, ?_, ?_, ?_, ?_, ?_⟩, ⟨?_, ?_, ?_, ?_, ?_, ?_⟩, ?_⟩ <;> decide +kernel

/-- R145: silenced in its last area, MUSTER's program is FREE, voice 7 is free and owes nothing, and channel 15 is given up. -/
theorem test_alarmFreed :
    let t := after .silenceAlarm (given .alarm [(0, 0xB1), (8, 0), (11, 0x80)] [] (alarming .sounding))
    (t.programs.get 60).state = .free ∧ (t.tones.voices.get 7).user = .nobody ∧ (t.tones.patterns.get 0).owing = [] ∧
    (t.channels.get 15).owner = none ∧ (t.channels.get 15).fifo = [] ∧ t.claims.floors.get 15 = 10 := by decide +kernel

/-- The filter of a contact line. -/
def contact (line : Fin 4) (closed : Bool) (count : Nat) : State :=
  { running with
    contacts := running.contacts.set line { closed, count }
    lists := { running.lists with root := { running.lists.root with micEnabled := true } }
    inlets := running.inlets.set 9 .contactMic }

theorem witness_Contacts :
    (∀ line : Fin 4, ((contact line false 19).contacts.get line).closed = false ∧
      ((contact line false 19).contacts.get line).count = 19) ∧
    (∀ line : Fin 4, ((contact line true 19).contacts.get line).closed = true ∧
      ((contact line true 19).contacts.get line).count = 19) ∧
    true ≠ ((contact 3 false 18).contacts.get 3).closed ∧ ((contact 3 false 18).contacts.get 3).count < 19 ∧
    ((contact 3 false 18).contacts.get 3).count ≠ 19 ∧ (contact 3 false 19).micEnabled = true ∧
    (contact 3 false 19).contactMic ≠ none ∧ ((contact 3 false 19).programs.get 59).state = .free ∧
    (((contact 3 true 19).modProgram 59 fun p => { p with state := .playing }).programs.get 59).state ≠ .free := by
  decide +kernel

theorem witness_Contacts_note :
    ∀ n ∈ [0, 31, 32], let s : State := { granted (.snapPiece 0 0 0) (contact 3 false 19) with
        notes := { queue := List.replicate n aNote } }
      s.port.grant ≠ none ∧ (s.contacts.get 3).closed = false ∧ (s.contacts.get 3).count = 19 ∧
        (if n < 32 then s.notes.queue.length < 32 else 32 ≤ s.notes.queue.length) := by decide +kernel

/-- R150: an accepted closure of MIC_CONTACT makes its CONTACT note. -/
theorem test_contactNote :
    let s := granted (.snapPiece 0 0 0) (contact 3 false 19)
    ((after (.acceptedClosure 3) s).notes.queue.map fun n => (n.kind, n.code, n.subject, n.detail)) = [(.contact, 1, 3, 0)] := by
  decide +kernel

/-- A queued cue with a fade of 100 ms; its scene leaves LIVE as it is. -/
def aCue : Machine.Cue :=
  { record := ⟨128, 0x40, 0, false⟩, scene := List.replicate 136 65535, fade := 100, auto := false, delay := 0, tracks := [] }

/-- The show in a state with these cues. -/
def showing (x : ShowState) (queue : List Machine.Cue) : State :=
  site.modTheatre fun t => { t with state := x, queue }

theorem witness_CueRecords :
    let f (follow tracks delay : Nat) := [(0, 0xC0), (14, follow), (15, tracks), (16, delay)]
    let bind (x binding inlet high : Nat) := [(0, 0xC5), (8, x), (9, binding), (10, inlet), (11, high)]
    Met .cue 0x40 (f 0 5 0) [[]] (showing .idle []) (fun h _ => 4 < (cueRec h.bytes).tracks) ∧
    Met .cue 0x40 (f 2 0 0) [[]] (showing .idle []) (fun h _ => 1 < (cueRec h.bytes).follow) ∧
    Met .cue 0x40 (f 0 0 0) [[]] (showing .idle []) (fun h s => (cueRec h.bytes).tracks = 0 ∧
      (cueRec h.bytes).follow = 0 ∧ s.theatre.state = .idle ∧ s.theatre.queue = []) ∧
    Met .cue 0x40 (f 1 0 1) [[]] (showing .idle []) (fun h s => (cueRec h.bytes).tracks = 0 ∧
      (cueRec h.bytes).follow = 1 ∧ (cueRec h.bytes).delay ≠ 0 ∧ s.theatre.state = .idle ∧ s.theatre.queue = []) ∧
    (∀ x ∈ [ShowState.ready, .waiting, .fading], Met .cue 0x40 (f 1 0 0) [[]] (showing x [aCue]) (fun h s =>
      (cueRec h.bytes).tracks = 0 ∧ (cueRec h.bytes).follow ≤ 1 ∧ s.theatre.state = x)) ∧
    Met .cue 0x41 [(0, 0xC1)] [] (showing .idle []) (fun _ s => s.theatre.state = .idle) ∧
    Met .cue 0x41 [(0, 0xC1)] [] (showing .held []) (fun _ s => s.theatre.state = .held) ∧
    (∀ x ∈ [ShowState.ready, .waiting], Met .cue 0x41 [(0, 0xC1)] [] (showing x [aCue]) (fun _ s =>
      s.theatre.state = x ∧ s.theatre.queue = aCue :: [] ∧ aCue.tracks = [] ∧ aCue.fade ≠ 0)) ∧
    Met .cue 0x45 (bind 16 0 0 0) [] site (fun h _ => 16 ≤ (bindRec h.bytes).source) ∧
    Met .cue 0x45 (bind 15 3 0 0) [] site (fun h _ => 2 < (bindRec h.bytes).binding) ∧
    Met .cue 0x45 (bind 15 1 0 1) [] site (fun h _ => (bindRec h.bytes).binding = 1 ∧ 256 ≤ (bindRec h.bytes).inlet) ∧
    Met .cue 0x45 (bind 15 1 6 0) [] site (fun h s => (bindRec h.bytes).binding = 1 ∧
      (bindRec h.bytes).inlet = (6 : Fin 256).val ∧ s.inlets.get 6 ≠ .line) ∧
    (∀ y ∈ [Machine.Binding.playback, .unbound], Met .cue 0x45 (bind 15 2 0 0) []
      (site.modTheatre fun t => { t with bindings := t.bindings.set 15 y }) (fun h s =>
        (bindRec h.bytes).source = (15 : Fin 16).val ∧ (bindRec h.bytes).binding = 2 ∧
          s.theatre.bindings.get 15 = y ∧ s.channelOf (.source 15) = none)) ∧
    Met .cue 0x45 (bind 15 1 5 0) [] site (fun h s => (bindRec h.bytes).inlet = (5 : Fin 256).val ∧
      s.inlets.get 5 = .line ∧ s.theatre.bindings.get 15 ≠ .line 5 ∧ s.channelOf (.source 15) = none) := by
  refine ⟨?_, ?_, ?_, ?_, ?_, ?_, ?_, ?_, ?_, ?_, ?_, ?_, ?_, ?_⟩ <;> decide +kernel

theorem witness_ShowHold :
    let held (byHost : Bool) : State := (showing .held [aCue]).modTheatre fun t =>
      { t with hold := some { byHost, heldFrom := .fading, autoResume := !byHost, outlets := [] } }
    let playing (x : ProgState) (s : State) := withProgram 63 { state := x, kind := .theatre, source := .bus 7 } s
    let tracked (x : ChanState) (s : State) : State := granted (.snapPiece 0 0 0)
      (s.modChannel 15 fun c => { c with state := x, owner := some (.source 1) })
    Met .cue 0x42 [(0, 0xC2)] [] (tracked .playing (playing .playing (showing .idle []))) (fun _ s =>
      s.theatre.state ≠ .held ∧ (s.programs.get 63).kind = .theatre ∧ (s.programs.get 63).state = .playing ∧
      s.channelOf (.source 1) = some 15 ∧ s.port.grant ≠ none) ∧
    (∀ b ∈ [true, false], Met .cue 0x42 [(0, 0xC2)] [] (held b) (fun _ s => s.theatre.state = .held ∧
      s.theatre.hold = some { byHost := b, heldFrom := .fading, autoResume := !b, outlets := [] })) ∧
    Met .cue 0x43 [(0, 0xC3)] [] (showing .ready [aCue]) (fun _ s => s.theatre.state ≠ .held) ∧
    Met .cue 0x43 [(0, 0xC3)] [] (tracked .paused (playing .held (held true))) (fun _ s => s.theatre.state = .held ∧
      (s.programs.get 63).kind = .theatre ∧ (s.programs.get 63).state = .held ∧ s.channelOf (.source 1) = some 15 ∧
      s.port.grant ≠ none) ∧
    Met .cue 0x44 [(0, 0xC4)] [] (playing .held (held true)) (fun _ s => s.theatre.state = .held ∧
      (s.programs.get 63).kind = .theatre ∧ (s.programs.get 63).state = .held) ∧
    Met .cue 0x44 [(0, 0xC4)] [] (tracked .playing (showing .fading [aCue, aCue])) (fun _ s => s.port.grant ≠ none ∧
      s.channelOf (.source 1) = some 15 ∧ (s.channels.get 15).state ≠ .free ∧ (s.channels.get 15).state ≠ .ended ∧
      ∀ x, s.channelOf (.source x) ≠ some 14) := by
  refine ⟨?_, ?_, ?_, ?_, ?_, ?_⟩ <;> decide +kernel

theorem witness_RecordRead_room :
    let capture (outlet target method : Nat) := hand [(0, 0x86), (8, outlet), (10, target), (11, method)]
    let pending : State := (site.modAmbient 255 fun a =>
      { a with capture := some { record := ⟨64, 0x06, 0, false⟩, begun := false } }).modLoop 255 fun x =>
        { x with capture := some { record := ⟨64, 0x06, 0, false⟩, count := 7, sum := 0 } }
    let served : State := { site with
      lists := { site.lists with snap := some ⟨⟨128, 0x08, 0, false⟩, 0, 0, 1, 0, 0, true⟩ } }
    (hand [(0, 0xC0)]).kind = 0x40 ∧ 16 ≤ (showing .ready (List.replicate 16 aCue)).theatre.queue.length ∧
    ¬ 16 ≤ (showing .ready (List.replicate 15 aCue)).theatre.queue.length ∧
    (hand [(0, 0xD0)]).kind = 0x50 ∧ spaceReady.notes.held ≠ none ∧ site.notes.held = none ∧
    (hand [(0, 0x88)]).kind = 0x08 ∧ served.lists.snap ≠ none ∧ site.lists.snap = none ∧
    (∀ target ∈ [0, 1], (capture 255 target 1).kind = 0x06 ∧
      (calibrateRec (capture 255 target 1).bytes).method = 1 ∧
      (calibrateRec (capture 255 target 1).bytes).outlet = (255 : Fin 256).val ∧
      (calibrateRec (capture 255 target 1).bytes).target = target) ∧
    (pending.ambient.outlets.get 255).capture ≠ none ∧ (pending.loops.get 255).capture ≠ none ∧
    (site.ambient.outlets.get 255).capture = none ∧ (site.loops.get 255).capture = none ∧
    (calibrateRec (capture 255 0 0).bytes).method ≠ 1 ∧ 1 < (calibrateRec (capture 255 2 1).bytes).target ∧
    256 ≤ (calibrateRec (hand [(0, 0x86), (9, 1)]).bytes).outlet ∧
    (hand [(0, 0x90)]).kind ∉ [0x40, 0x50, 0x08, 0x06] := by
  refine ⟨?_, ?_, ?_, ?_, ?_, ?_, ?_, ?_, ?_, ?_, ?_, ?_, ?_, ?_, ?_, ?_, ?_, ?_⟩ <;> decide +kernel

theorem witness_MixPeriod_sources :
    let s := withProgram 58 { state := .playing, kind := .page, source := .pageMix 15 } (calling
      [party 1 .connected (some 10), party 2 .connected (some 11), party 3 .ringing (some 12), party 4 .busy none])
    let bank : Tab 136 Nat := Tab.replicate 136 4096
    let fading (pos : Nat) : Theatre := { state := .fading, next := some bank, pos, len := 100 }
    let frozen : Theatre :=
      { fading 3 with
        state := .held, hold := some { byHost := true, heldFrom := .fading, autoResume := false, outlets := [] } }
    (claimOf 58 4 0 false true).owner = .program 58 ∧ (s.programs.get 58).state = .playing ∧
    (s.programs.get 58).source = .pageMix 15 ∧
    ((withProgram 58 { state := .held, source := .bus 7 } s).programs.get 58).source = .bus 7 ∧
    (s.calls.get 15).parties[(1 : Fin 8).val]? = some (party 2 .connected (some 11)) ∧
    (s.calls.get 15).parties[(2 : Fin 8).val]? = some (party 3 .ringing (some 12)) ∧
    (s.calls.get 15).parties[(3 : Fin 8).val]? = some (party 4 .busy none) ∧
    State.reset.theatre.state ≠ .fading ∧ State.reset.theatre.state ≠ .held ∧
    (∀ pos ∈ [0, 50, 100], (fading pos).state = .fading ∧ (fading pos).next = some bank ∧
      (fading pos).pos ≤ (fading pos).len ∧ (fading pos).len ≠ 0) ∧
    frozen.state = .held ∧
    frozen.hold = some { byHost := true, heldFrom := .fading, autoResume := false, outlets := [] } := by
  refine ⟨?_, ?_, ?_, ?_, ?_, ?_, ?_, ?_, ?_, ?_, ?_, ?_⟩ <;> decide +kernel

/-- Section 4.12: the worked crossfade of source 0's crosspoint to bus 0, and the bus at t = 1000. -/
theorem test_crossfade :
    let bank (g : Nat) : Tab 136 Nat := (((Tab.replicate 136 0).set 0 g).set 8 4096).set 128 3277
    let t (pos : Nat) : Theatre := { state := .fading, live := bank 4096, next := some (bank 1024), pos, len := 2000 }
    let sources : Tab 16 (List Int) := ((Tab.replicate 16 []).set 0 [2000000]).set 1 [-500000]
    [0, 1, 1000, 1999, 2000].map (fun pos => (t pos).gain 0) = [4096, 4095, 2560, 1026, 1024] ∧
    (busBlock (t 1000) sources 0).head? = some 600036 := by
  refine ⟨?_, ?_⟩ <;> decide +kernel

theorem witness_FadeAndFollow :
    let fading (pos : Nat) : State := granted (.rootRead 64) ((showing .fading [aCue]).modTheatre fun t =>
      { t with next := some (Tab.replicate 136 4096), pos, len := 100 })
    let waiting (d : Nat) : State := (showing .waiting [aCue]).modTheatre fun t => { t with follow := some d }
    let fadeEnds (t : Theatre) := t.state = .fading ∧ t.fresh = false ∧ t.stepped = false ∧ t.len ≤ t.pos + 1
    ¬ fadeEnds (fading 98).theatre ∧ fadeEnds (fading 99).theatre ∧ (fading 99).theatre.queue = [aCue] ∧
    (fading 99).theatre.next = some (Tab.replicate 136 4096) ∧ (fading 99).port.grant ≠ none ∧
    (waiting 1).theatre.state = .waiting ∧ (waiting 1).theatre.stepped = false ∧ (waiting 1).theatre.follow = some 1 ∧
    (waiting 1).theatre.queue = aCue :: [] ∧ aCue.tracks = [] ∧ aCue.fade ≠ 0 ∧ State.reset.theatre.state ≠ .waiting := by
  decide +kernel

/-- Trunk 3 in a link state, training number 255, with its timers. -/
def linked (x : LinkState) (answer sync : Option Nat) : State :=
  site.modTrunk 3 fun t => { t with link := x, training := 255, answer, sync, served := 64, present := 64, supervision := true }

theorem witness_TrunkLinks :
    let b : AbilityBlock := { training := 255, served := 255, present := 65, overrideLines := true, supervision := false
                              changeover := true }
    let seated (s : State) : State := granted (.snapPiece 0 0 0) (((calling [party 1 .connected (some 10),
      party 2 .connected (some 11)]).modTrunk 0 fun t => { t with link := .up, sync := some 0 }).modStation 63 fun x =>
        { x with binding := s.stations.get 63 |>.binding })
    (((linked .training (some 0) none).trunks.get 3).link = .training ∧
      ((linked .training (some 0) none).trunks.get 3).answer = some 0) ∧
    ((linked .training (some 1) none).trunks.get 3).answer ≠ some 0 ∧
    b.training = ((linked .training (some 1) none).trunks.get 3).training ∧
    ({ b with training := 254 } : AbilityBlock).training ≠ ((linked .training (some 1) none).trunks.get 3).training ∧
    (((linked .up none (some 0)).trunks.get 3).link = .up ∧ ((linked .up none (some 0)).trunks.get 3).sync = some 0) ∧
    ((linked .up none (some 1)).trunks.get 3).sync ≠ some 0 ∧ trunkOf 255 = 3 ∧ trunkOf 191 ≠ 3 ∧
    min 64 ({ b with served := 63 } : AbilityBlock).served.toNat ≤ (slotOf 255).val ∧
    (slotOf 255).val < min 64 b.served.toNat ∧ b.supervision = false ∧ (6 : Fin 8).val / 2 = (3 : Fin 4).val ∧
    (5 : Fin 8).val / 2 ≠ (3 : Fin 4).val ∧
    (let s := seated (stationed .lost)
     (s.trunks.get 0).link = .up ∧ (s.trunks.get 0).sync = some 0 ∧ s.port.grant ≠ none ∧ trunkOf 22 = 0 ∧
       (s.stations.get 3).binding = some (22, 12) ∧ (s.stations.get 3).state = .idle ∧ (s.stations.get 3).call = none ∧
       (∀ c : Fin 16, ∀ j : Fin 8, ∀ p ∈ (s.calls.get c).parties[j.val]?, ¬ (p.live = true ∧ p.station = 3)) ∧
       (s.stations.get 2).binding = some (21, 11) ∧ (s.stations.get 2).state = .inCall ∧
       (s.stations.get 2).call = some 15 ∧
       (∀ d : Fin 16, ∀ m : Fin 8, ((s.calls.get d).parties[m.val]?.any fun p => p.live && p.station == 2) = true ↔
         d = 15 ∧ m = 1)) ∧
    (((linked .up none (some 0)).stations.get 5).binding = none) := by
  refine ⟨?_, ?_, ?_, ?_, ?_, ?_, ?_, ?_, ?_, ?_, ?_, ?_, ?_, ?_, ?_⟩ <;> decide +kernel

/-- Trunk 3 in TRAINING with outlet 255 a cabin loop whose baseline is set, its loop in a state; or UP at the end of its sync
hold with changeover slots 6 and 7 in a state. -/
def trained (x : LoopState) : State :=
  granted (.snapPiece 0 0 0) (((linked .training (some 1) none).modLoop 255 fun y =>
    { y with state := x, baselineSet := true }) |> fun s => { s with outlets := s.outlets.modify 255 fun o => { o with kind := .cabinLoop } })

def dropping (x : SlotState) : State :=
  granted (.snapPiece 0 0 0) (((linked .up none (some 0)).modChangeover 6 fun _ =>
    { state := x, faulted := 193, spare := 200, timer := some 5 }).modChangeover 7 fun _ =>
      { state := x, faulted := 194, spare := 201, timer := some 5 })

theorem witness_TrunkLinks_notes :
    (∀ x ∈ [LoopState.unserved, .unsupervised, .faultOpen], let s := trained x
      (s.trunks.get 3).link = .training ∧ s.port.grant ≠ none ∧ trunkOf 255 = 3 ∧
        (s.outlets.get 255).kind ≠ .undefined ∧ (s.outlets.get 255).kind ≠ .spare ∧
        (s.loops.get 255).baselineSet = true ∧ (s.loops.get 255).state = x) ∧
    ∀ x ∈ [SlotState.pending, .releasing, .active], let s := dropping x
      (s.trunks.get 3).link = .up ∧ (s.trunks.get 3).sync = some 0 ∧ s.port.grant ≠ none ∧
        (s.changeovers.get 6).state = x ∧ (s.changeovers.get 7).state = x := by decide +kernel

/-- `dropping`, with the loop of outlet 255 in a state and its capture under way. -/
def capturing (x : LoopState) : State :=
  (dropping .pending).modLoop 255 fun y =>
    { y with state := x, streak := some (.high, 2), ampFault := true, capture := some ⟨⟨128, 0x06, 9, false⟩, 7, 700⟩ }

theorem witness_TrunkLinks_captures :
    ∀ x ∈ [LoopState.unserved, .normal], ((capturing x).trunks.get 3).link = .up ∧
      ((capturing x).trunks.get 3).sync = some 0 ∧ trunkOf 255 = 3 ∧ ((capturing x).loops.get 255).state = x ∧
      ((capturing x).loops.get 255).capture = some ⟨⟨128, 0x06, 9, false⟩, 7, 700⟩ := by decide +kernel

/-- R175: a trunk that leaves UP sets the count and the sum of its loops' captures back to 0. -/
theorem test_captureReset :
    [LoopState.unserved, .normal].map (fun x => (after (.syncHoldExpiry 3) (capturing x)).loops.get 255 |>.capture) =
      List.replicate 2 (some ⟨⟨128, 0x06, 9, false⟩, 0, 0⟩) := by decide +kernel

/-- R168, R172: at entry to UP a watched and served loop is NORMAL, and the TRUNK note shows the counts and flags. -/
theorem test_entryToUp :
    let b : AbilityBlock := { training := 255, served := 255, present := 65, overrideLines := true, supervision := true
                              changeover := false }
    let t := after (.abilityBlock 3 b) (trained .unserved)
    (t.loops.get 255).state = .normal ∧ (t.notes.queue.map fun n => (n.kind, n.code, n.subject, n.detail)) =
      [(.trunk, 1, 3, 64 + 256 * 64 + 65536 * 3)] := by decide +kernel

/-- R169, R180: a trunk that leaves UP fails its PENDING slots before its own note. -/
theorem test_leavingUp :
    ((after (.syncHoldExpiry 3) (dropping .pending)).notes.queue.map fun n => (n.kind, n.code, n.subject)) =
      [(.changeover, 2, 193), (.changeover, 2, 194), (.trunk, 0, 3)] := by decide +kernel

theorem witness_LoopReadings :
    let r : LoopReport := ⟨1023, true⟩
    let b : ControlBlock := { group := 7, loops := r :: List.replicate 7 ⟨0, false⟩, stations := [], echoes := [none, none] }
    let s (served : Nat) : State := (linked .up none (some 1)).modTrunk 3 fun t => { t with served, present := 56 }
    let area (s : State) : State := { s with outlets := s.outlets.modify 248 fun o => { o with kind := .crewArea } }
    let capturing (n : Nat) : State := granted (.snapPiece 0 0 0) ((area (s 57)).modLoop 248 fun x =>
      { x with capture := some { record := ⟨64, 0x06, 0, false⟩, count := n, sum := 1023 * n } })
    (site.trunks.get 3).link ≠ .up ∧
    (∀ served ∈ [56, 57], ((s served).trunks.get 3).link = .up ∧ b.loops[0]? = some r ∧
      ((s served).trunks.get 3).served ≤ 8 * b.group.val + 1 ∧ ((s served).trunks.get 3).present ≤ 8 * b.group.val ∧
      ∀ y : Fin 8, y.val / 2 = (3 : Fin 4).val →
        ((s served).changeovers.get y).state = .free ∨ ((s served).changeovers.get y).state = .active) ∧
    ((s 56).trunks.get 3).served ≤ 8 * b.group.val ∧
    (let t := area (s 57)
     (t.trunks.get 3).supervision = true ∧ 8 * b.group.val < (t.trunks.get 3).served ∧
       (t.loops.get 248).capture = none ∧ (t.outlets.get 248).kind ≠ .undefined) ∧
    (∀ n ∈ [6, 7], ((capturing n).loops.get 248).capture =
      some { record := ⟨64, 0x06, 0, false⟩, count := n, sum := 1023 * n } ∧ (capturing n).port.grant ≠ none ∧
      ((capturing n).outlets.get 248).kind ≠ .undefined ∧ ((capturing n).trunks.get 3).supervision = true) ∧
    (let x (state : LoopState) (streak : Option (Side × Nat)) : Loop := { state, streak }
     (x .suspect (some (.high, 2))).state = .suspect ∧ min 15 (2 + 1) = 3 ∧ 3 ≤ 3 ∧ 3 < 4 ∧
       (x .faultOpen none).state = (if Side.high = .high then LoopState.faultOpen else .faultShort) ∧
       (x .faultOpen none).state ≠ (if Side.low = .high then LoopState.faultOpen else .faultShort) ∧
       (x .unserved none).state = .unserved) := by
  refine ⟨?_, ?_, ?_, ?_, ?_, ?_⟩ <;> decide +kernel

theorem witness_ChangeoverStart :
    let r : LoopReport := ⟨500, true⟩
    let b : ControlBlock := { group := 1, loops := r :: List.replicate 7 ⟨0, false⟩, stations := [], echoes := [none, none] }
    -- outlet 8 with its amplifier in order, outlet 7 a SPARE
    let base (policy able : Bool) : State :=
      let s := site.modTrunk 0 fun t =>
        { t with link := .up, sync := some 4, served := 9, present := 8, supervision := true, changeover := able }
      granted (.snapPiece 0 0 0) { s with
        outlets := (s.outlets.modify 7 fun o => { o with kind := .spare }).modify 8 fun o =>
          { o with kind := .cabinLoop, autoChangeover := policy } }
    let full : State := (base true true).forAll [(0 : Fin 8), 1] fun x => State.modChangeover x fun _ =>
      { state := .active, faulted := 1, spare := 2, timer := none }
    let away : State := { base true true with outlets := (base true true).outlets.modify 7 fun o => { o with kind := .cabinLoop } }
    let stood : State := (base true true).modChangeover 1 fun _ => { state := .active, faulted := 8, spare := 2, timer := none }
    (∀ s ∈ [base true true, base true false, base false true, full, away, stood],
      (s.trunks.get 0).link = .up ∧ (s.trunks.get 0).supervision = true ∧ 8 * b.group.val < (s.trunks.get 0).served ∧
        (s.trunks.get 0).served ≤ 8 * b.group.val + 1 ∧ (s.trunks.get 0).present ≤ 8 * b.group.val ∧
        (s.outlets.get 8).kind ≠ .undefined ∧ (s.outlets.get 8).kind ≠ .spare ∧ (s.loops.get 8).ampFault = false ∧
        (∀ y : Fin 8, (s.changeovers.get y).state = .free ∨ (s.changeovers.get y).state = .active) ∧
        s.port.grant ≠ none) ∧
    b.loops[0]? = some r ∧ r.fault = true ∧ b.echoes = [none, none] ∧ outletAt 0 ⟨8, by decide⟩ = 8 ∧
    ((base false true).outlets.get 8).autoChangeover = false ∧ ((base true false).trunks.get 0).changeover = false ∧
    (∀ y : Fin 8, ¬ (y.val / 2 = 0 ∧ (full.changeovers.get y).state = .free)) ∧
    (∀ q : Fin 256, ¬ (trunkOf q = 0 ∧ (away.outlets.get q).kind = .spare)) ∧
    ((stood.changeovers.get 1).state ≠ .free ∧ (stood.changeovers.get 1).faulted = 8) ∧
    (let s := base true true
     ((0 : Fin 8).val / 2 = 0 ∧ (s.changeovers.get 0).state = .free) ∧ trunkOf 7 = 0 ∧ (s.outlets.get 7).kind = .spare ∧
       (slotOf 7).val < (s.trunks.get 0).served ∧ (∀ y, (s.changeovers.get y).state = .free) ∧
       (s.loops.get 7).ampFault = false ∧ ∀ z < (7 : Fin 256), (s.outlets.get z).kind ≠ .spare) := by
  refine ⟨?_, ?_, ?_, ?_, ?_, ?_, ?_, ?_, ?_, ?_, ?_⟩ <;> decide +kernel

theorem witness_NoteRecords :
    ({ brim with notes := { brim.notes with queue := List.replicate 31 aNote } } : State).notes.queue.length < 32 ∧
    32 ≤ brim.notes.queue.length ∧ brim.notes.held = none ∧
    Met .note 0x50 [(0, 0xD0)] [] brim (fun _ _ => True) ∧
    spaceReady.port.grant = none ∧ spaceReady.notes.held = some (⟨256, 0x50, 9, false⟩, .ready) ∧
    spaceReady.notes.queue = aNote :: [] ∧ spaceReady.firstRequest = spaceReady.noteRequest ∧
    (granted (.noteWrite ⟨256, []⟩) spaceReady).port.grant = some ⟨.noteWrite ⟨256, []⟩, false⟩ := by decide +kernel

/-- The beat counter at 0 while the show is held: the FIRE alarm stands over a SHOW program's claim at outlet 3. -/
def alarmOverShow : State :=
  let fire : Claim := { owner := .program AlarmKind.fire.slot, priority := 14, arrival := 1, duckable := false, allowsUndertone := true, state := .holding }
  granted (.snapPiece 0 0 0) (withProgram 1 { state := .held, kind := .theatre, priority := 4, holdThreshold := 8 }
    { claimed [fire, claimOf 1 4 0 false true] with
      part := .running, lists := running.lists
      theatre := { State.reset.theatre with
        state := .held, hold := some { byHost := false, heldFrom := .idle, autoResume := true, outlets := [(1, [3])] } } })

theorem witness_BeatExpiry :
    State.reset.part ≠ .running ∧ ({ running with beat := { counter := 1 } } : State).beat.counter ≠ 0 ∧
    alarmOverShow.part = .running ∧ alarmOverShow.lists.root.beatWindow ≠ 0 ∧ alarmOverShow.beat.counter = 0 ∧
    alarmOverShow.port.grant ≠ none ∧ alarmOverShow.ShowsYield ∧
    (∃ d ∈ alarmOverShow.stack 3, (alarmOverShow.programs.get 1).holdThreshold ≤ d.priority) ∧
    hasOwner (.program 1) (alarmOverShow.stack 3) = true := by
  refine ⟨?_, ?_, ?_, ?_, ?_, ?_, ⟨?_, ?_, ?_, ?_⟩, ?_, ?_⟩ <;> first | decide +kernel | (unfold Claim.fits; decide +kernel)

/-- R164, R185: with an alarm over a show outlet the entry to FALLBACK leaves the show IDLE with no hold record. -/
theorem test_fallbackShow :
    let t := after .beatCounterExpiry alarmOverShow
    t.part = .fallback ∧ t.theatre.state = .idle ∧ t.theatre.hold = none ∧ (t.programs.get 1).state = .free := by
  decide +kernel

/-- MIC_CONTACT stands CLOSED or not, inlet 9 is CONTACT_MIC, and outlet 3 has eight claims, the last at priority 10. -/
def micWaits (closed : Bool) (s : State) : State :=
  ({ s with
      contacts := s.contacts.set 3 { closed, count := 0 }
      inlets := s.inlets.set 9 .contactMic
      outlets := site.outlets } : State).setStack 3
    ((List.range 8).map fun i => claimOf ⟨i % 64, Nat.mod_lt _ (by decide)⟩ 10 i false true)

theorem witness_RootBlockRead_mic :
    let s (closed : Bool) := granted (.rootRead 64) (micWaits closed (rootWaits false))
    (rootCopy (record [(36, 1)])).micEnabled = true ∧ ((s true).contacts.get 3).closed = true ∧
    ((s true).programs.get 59).state = .free ∧ (s true).inlets.get 9 = .contactMic ∧
    ((s true).outlets.get 3).kind = .cabinLoop ∧ ((s true).stack 3).length = 8 ∧
    ((s true).stack 3).getLast? = some (claimOf 7 10 7 false true) ∧ 10 < 11 ∧ ((s true).stack 4).length < 8 ∧
    (s true).port.grant = some ⟨.rootRead 64, false⟩ ∧ (s true).lists.rootRead = some ⟨64, false⟩ ∧
    ((s false).contacts.get 3).closed = false := by
  refine ⟨?_, ?_, ?_, ?_, ?_, ?_, ?_, ?_, ?_, ?_, ?_, ?_⟩ <;> decide +kernel

theorem witness_BeatExpiry_mic :
    let s (closed : Bool) : State := { micWaits closed running with beat := { counter := 0, sub := 100 } }
    (s true).part = .running ∧ (s true).lists.root.beatWindow ≠ 0 ∧ (s true).beat.counter = 0 ∧
    ((s true).programs.get 59).state = .free ∧ ((s true).contacts.get 3).closed = true ∧
    (s true).inlets.get 9 = .contactMic ∧ ((s true).outlets.get 3).kind = .cabinLoop ∧ ((s true).stack 3).length = 8 ∧
    ((s true).stack 3).getLast? = some (claimOf 7 10 7 false true) ∧ ((s false).contacts.get 3).closed = false := by
  refine ⟨?_, ?_, ?_, ?_, ?_, ?_, ?_, ?_, ?_, ?_⟩ <;> decide +kernel

/-- MUSTER and SECURITY sound in area 0, and program 59 plays or not. -/
def alarmed (mic : ProgState) : State :=
  withProgram 59 { state := mic, kind := .contactMic, source := .inlet 9, priority := 11, arrival := 5 }
    ((site.setAreas .muster .sounding [0]).setAreas .security .sounding [0])

theorem witness_DefineOutlet_reports :
    let f := [(0, 0x81), (8, 3), (10, 3), (26, 0xFF), (27, 0xFF)]
    ∀ mic ∈ [ProgState.playing, .free], Met .setup 1 f [] (alarmed mic) (fun h s =>
      (outletRec h.bytes).outlet = (3 : Fin 256).val ∧ outletKindOf (outletRec h.bytes).kind = some .crewArea ∧
      (outletRec h.bytes).area = (0 : Fin 16).val ∧ (outletRec h.bytes).sense = 0xFFFF ∧
      OutletKind.crewArea ≠ (s.outlets.get 3).kind ∧ s.stack 3 = [] ∧
      (∀ x, (s.changeovers.get x).state = .free) ∧ (∀ n, (s.stations.get n).binding = none) ∧
      s.areaState .muster 0 = .sounding ∧ s.areaState .security 0 = .sounding ∧ s.areaState .fire 0 ≠ .sounding ∧
      (s.programs.get 59).state = mic ∧ ∀ c, (s.channels.get c).owner ≠ some (.program 59)) := by
  decide +kernel

/-- R25: the outlet that becomes CREW_AREA has the two kinds' claims and the microphone's, and no other. -/
theorem test_outletReports :
    let t := after .defineOutlet (given .setup [(0, 0x81), (8, 3), (10, 3), (26, 0xFF), (27, 0xFF)] [] (alarmed .playing))
    (t.stack 3).map (fun c => (c.owner, c.priority)) =
      [(.program 60, 15), (.program 62, 13), (.program 59, 11)] := by decide +kernel

/-- A SHOW program in slot 1 with show hold threshold 15 holds outlet 3 from under a MUSTER claim, or waits below it. -/
def showAt (x : ShowState) (pr : ProgState) (above : Bool) : State :=
  let own := claimOf 1 4 0 false true
  withProgram 1 { state := pr, kind := .theatre, source := .bus 7, priority := 4, holdThreshold := 15 }
    ((showing x [aCue]).setStack 3 (nameStack 0 (if above then [claimOf 60 15 1 false false, own] else [own])))

/-- A show held by a displacement, with this hold set. -/
def preempted (outlets : List (Fin 64 × List (Fin 256))) (above : Bool) : State :=
  (showAt .held .held above).modTheatre fun t =>
    { t with hold := some { byHost := false, heldFrom := .fading, autoResume := true, outlets } }

theorem witness_StackNaming_show :
    let new (priority : Nat) := [claimOf 60 priority 1 false false, claimOf 1 4 0 false true]
    let left : State := { preempted [(2, [3])] true with claims := State.reset.claims }
    (∀ x ∈ [ProgState.gathering, .chiming, .playing],
      let s := showAt .fading x false
      s.theatre.state ≠ .held ∧ (s.holder 3).map (·.owner) = some (.program 1) ∧
      (holderIn (nameStack (s.lockFloor 3) (new 15))).map (fun d => (d.owner, d.priority)) = some (.program 60, 15) ∧
      (s.programs.get 1).kind = .theatre ∧ (s.programs.get 1).holdThreshold ≤ 15 ∧ (s.programs.get 1).state = x ∧
      ¬ (s.programs.get 1).holdThreshold ≤ 14) ∧
    (let s := preempted [(1, [3])] true
     s.theatre.state = .held ∧ (s.programs.get 1).state = .held ∧
       (s.holder 3).map (·.owner) ≠ (holderIn (nameStack (s.lockFloor 3) [claimOf 1 4 0 false true])).map (·.owner) ∧
       (holderIn (nameStack (s.lockFloor 3) [claimOf 1 4 0 false true])).map (·.owner) = some (.program 1) ∧
       (s.restack 3 [claimOf 1 4 0 false true]).holdsAt 1 3 = true) ∧
    (let s := preempted [(1, [3, 4])] true
     s.theatre.state = .held ∧ (s.restack 3 [claimOf 1 4 0 false true]).holdsAt 1 4 = false) ∧
    (left.programs.get 1).state ≠ .free ∧ (∀ o, hasOwner (.program 1) (left.stack o) = false) ∧
    left.theatre.state = .held ∧ left.holdsAt 2 3 = false ∧
    (preempted [(1, [3])] true).theatre.hold =
      some { byHost := false, heldFrom := .fading, autoResume := true, outlets := [(1, [3])] } := by
  refine ⟨?_, ?_, ?_, ?_, ?_, ?_, ?_, ?_⟩ <;> decide +kernel

/-- Section 9.9: MUSTER raised in the show's area holds it from FADING, with the outlet in the hold set and the note. -/
theorem test_displacement :
    let t := (showAt .fading .playing false).restack 3 [claimOf 60 15 1 false false, claimOf 1 4 0 false true]
    t.theatre.state = .held ∧ (t.theatre.hold.map (·.outlets)) = some [(1, [3])] ∧ (t.programs.get 1).state = .held ∧
    t.notes.queue.map (fun n => (n.code, n.subject, n.detail)) = [(1, 1, 3 + 65536 * 3)] := by decide +kernel

theorem witness_ClaimPlacement_arrivals :
    let full : State := { site with claims := { site.claims with arrivals := 4294967295 } }
    full.claims.arrivals = 4294967295 ∧ site.claims.arrivals ≠ 4294967295 := by decide +kernel

theorem witness_Latch :
    (claimOf 58 4 0 false true).owner = .program 58 ∧ (58 : Fin 64).val < 59 ∧ ¬ (59 : Fin 64).val < 59 ∧
    (calling [party 1 .connected (some 10)]).calls.list.length = 16 ∧
    ((calling [party 1 .connected (some 10)]).calls.get 15).parties[(0 : Fin 8).val]? =
      some (party 1 .connected (some 10)) ∧
    (let h : Latch := { id := (.program 1, 7), gain := 4096, ending := true, alarm := false, speech := true }
     let m : MixEntry := { fg := some h.id, duck := some (2, h.id) }
     m.fg = some h.id ∧ m.duck = some (2, h.id) ∧ h.ending = true ∧ 1 < 2) := by decide +kernel

/-- Trunk 3 UP with 63 slots served, and slot 6's changeover from outlet 192 to the spare 254 ACTIVE. -/
def switched : State :=
  (site.modTrunk 3 fun t =>
    { t with link := .up, sync := some 4, served := 63, overrideLines := true }).modChangeover 6 fun _ =>
      { state := .active, faulted := 192, spare := 254, timer := none }

theorem witness_MixPeriod_trunks :
    let of (x : LinkState) (answer sync : Option Nat) : Trunk := { link := x, training := 255, answer, sync }
    (State.reset.trunks.get 0).link = .down ∧
    (of .training (some 0) none).link = .training ∧ (of .training (some 0) none).answer = some 0 ∧
    (of .training (some 1) none).answer ≠ some 0 ∧ (of .up none (some 0)).link = .up ∧
    (of .up none (some 0)).sync = some 0 ∧ (of .up none (some 1)).sync ≠ some 0 ∧
    ((after (.mixPeriodStart []) switched).trunks.get 3).link = .up ∧
    ((after (.mixPeriodStart []) switched).trunks.get 2).link = .training ∧
    (let c := (after (.mixPeriodStart []) switched).changeovers.get 6
     c.state = .active ∧ c.faulted = outletAt 3 0 ∧ c.spare = outletAt 3 62 ∧ c.faulted ≠ outletAt 3 62 ∧
       ((after (.mixPeriodStart []) switched).changeovers.get 7).state ≠ .active) := by
  refine ⟨?_, ?_, ?_, ?_, ?_, ?_, ?_, ?_, ?_, ?_⟩ <;> decide +kernel

theorem witness_AmbientWindow_capture :
    let cap : AmbientCapture := { record := ⟨64, 0x06, 0, true⟩, begun := true }
    let s := granted (.rootRead 64)
      ((windowOver false false false).modAmbient 255 fun a => { a with capture := some cap })
    s.ambient.position = s.ambient.length ∧ (s.outlets.get 255).senseInlet ≠ none ∧
    (s.ambient.outlets.get 255).gated = false ∧ (s.ambient.outlets.get 255).unheard = false ∧
    (s.ambient.outlets.get 255).void = false ∧ (s.ambient.outlets.get 255).capture = some cap ∧ cap.begun = true ∧
    s.port.grant ≠ none := by decide +kernel

/-- Channel 15 carries MUSTER's voice stream from address 4064, in a state, and MUSTER is in its VOICE phase with voice 7. -/
def voicing (x : ChanState) : State :=
  (((running.modChannel 15 fun c => { c with state := x, owner := some (.program 60), desc := { first := 4064 } }).modAlarm
    .muster fun a => { a with phase := .voice }).modVoice 7 fun v => { v with user := .alarm .muster })

theorem witness_ChannelSignals_ends :
    let gave (e : ChanEvent) : Tab 16 ChanEvent := (Tab.replicate 16 .none).set 15 e
    let ch (state : ChanState) (n : Nat) : Channel := { state, fifo := List.replicate n 0, desc := { prime := 256 } }
    (∀ x ∈ [ChanState.draining, .starved], ((voicing x).channels.get 15).state = x ∧
      ((voicing x).channels.get 15).owner = some (.program AlarmKind.muster.slot)) ∧
    (gave .completes).get 15 = .completes ∧ (gave .starves).get 15 = .starves ∧
    (voicing .draining).inWindow ((voicing .draining).channels.get 15).desc.first 32 32 = true ∧
    ((voicing .draining).alarms.kinds.get AlarmKind.muster.idx).phase = .voice ∧
    (voicing .draining).voiceOf (.alarm .muster) = some 7 ∧
    (ch .starved 256).primed = true ∧ (ch .starved 255).primed = false ∧ (ch .starved 255).state = .starved ∧
    (ch .paused 0).fetchEnded = false ∧ ({ ch .paused 0 with resumeTo := .draining } : Channel).resumeTo = .draining ∧
    ({ ch .paused 0 with fetchEnded := true } : Channel).resumeTo = .playing ∧ 48 < (ch .draining 49).fifo.length := by
  refine ⟨?_, ?_, ?_, ?_, ?_, ?_, ?_, ?_, ?_, ?_, ?_, ?_, ?_⟩ <;> decide +kernel

/-- R108 and R147: MUSTER's channel primes again, and its tone starts again at the next period start. -/
theorem test_voicePhaseEnds :
    let t := (voicing .draining).channelEvent ((Tab.replicate 16 .none).set 15 .completes) 15
    (t.channels.get 15).state = .priming ∧ (t.channels.get 15).cur = .toRead 4064 ∧
    (t.alarms.kinds.get 0).phase = .tone ∧ (t.tones.voices.get 7).mode = .starting true := by decide +kernel

/-- Voices 0 to 5 and 7 of one user, voice 6 of another. -/
def voicesOf (u w : VoiceUser) : State :=
  { site with tones := { site.tones with voices := (Tab.replicate 8 { user := u : Voice }).set 6 { user := w } } }

/-- Every channel PLAYING: 0 to 14 of one owner, 15 of another; programs 1 and 2 at priorities 11 and 12. -/
def channelsOf (o w : ChanOwner) : State :=
  withProgram 1 { state := .playing, priority := 11 } (withProgram 2 { state := .playing, priority := 12 }
    { granted (.channel 15 (.burst 64 4)) running with
      channels := (Tab.replicate 16 { state := .playing, owner := some o : Channel }).set 15
        { state := .playing, owner := some w } })

theorem witness_AlarmRecords_takes :
    let user (s : State) (v : Fin 8) := (s.tones.voices.get v).user
    (user site 0 = .nobody ∧ ∀ w < (0 : Fin 8), user site w ≠ .nobody) ∧
    (let s := voicesOf (.alarm .fire) (.chime 1)
     (∀ w, user s w ≠ .nobody) ∧ user s 6 = .chime 1) ∧
    (let s := voicesOf (.alarm .fire) .ring
     (∀ w, user s w ≠ .nobody) ∧ (∀ w ∈ [VoiceUser.alarm .fire, .ring], ∀ q, w ≠ .chime q) ∧ user s 6 = .ring ∧
       ∀ w < (6 : Fin 8), user s w ≠ .ring) ∧
    (let s := voicesOf (.alarm .fire) (.alarm .security)
     (∀ w, user s w ≠ .nobody) ∧ ∀ w, user s w ≠ .ring) ∧
    ((running.channels.get 0).state = .free ∧ running.inWindow 4064 32 32 = true) ∧
    (let s := channelsOf (.program 2) (.program 1)
     (∀ e, (s.channels.get e).state ≠ .free ∧ (s.channels.get e).state ≠ .ended) ∧
       (s.channels.get 15).owner = some (.program 1) ∧ s.ownerPriority (s.channels.get 15) < 12 ∧
       ¬ s.ownerPriority (s.channels.get 14) < 12 ∧ s.port.grant = some ⟨.channel 15 (.burst 64 4), false⟩ ∧
       (s.programs.get 1).state ≠ .free ∧ (s.programs.get AlarmKind.muster.slot).state ≠ .gathering) ∧
    (let s := channelsOf (.program 2) (.source 15)
     (s.channels.get 15).owner = some (.source 15) ∧ s.ownerPriority (s.channels.get 15) < 12) ∧
    (let s := channelsOf (.program 2) (.program 2)
     ∀ e, ¬ s.ownerPriority (s.channels.get e) < 12) ∧
    ((mustered .quiet true).programs.get AlarmKind.muster.slot).state = .free := by
  refine ⟨?_, ?_, ⟨?_, by simp, ?_⟩, ?_, ?_, ?_, ?_, ?_, ?_⟩ <;> decide +kernel

/-- A track block: start a stream from address 4064 (bytes 4 to 7) on source 15, with these codes. -/
def track (source action format order mode high : Nat) : List Byte :=
  [source, action, 0, 0, 0xE0, high, 0, 0].map (BitVec.ofNat 8) ++ [format, order, mode, 0, 0, 0, 0, 0].map (BitVec.ofNat 8)

/-- `showing`, with every source bound for playback and a shared window. -/
def stage (x : ShowState) (queue : List Machine.Cue) : State :=
  { showing x queue with
    lists := running.lists, theatre := { (showing x queue).theatre with bindings := Tab.replicate 16 .playback } }

/-- A cue with this fade, AUTO with this delay or MANUAL. -/
def cueOf (fade : Nat) (auto : Option Nat) : Machine.Cue := { aCue with fade, auto := auto.isSome, delay := auto.getD 0 }

/-- A CUE record with one track action, in the block `b`, is handed over to an IDLE show, and the action satisfies `P`. -/
abbrev OneTrack (b : List Byte) (P : State → RawTrack → Prop) : Prop :=
  Met .cue 0x40 [(0, 0xC0), (15, 1)] [[], b] (stage .idle []) (fun h s =>
    rawTracks b (cueRec h.bytes).tracks ≠ [] ∧ ∀ x ∈ rawTracks b (cueRec h.bytes).tracks, P s x)

theorem witness_CueRecords_tracks :
    let f (fade follow tracks delay : Nat) := [(0, 0xC0), (12, fade), (14, follow), (15, tracks), (16, delay)]
    OneTrack (track 16 0 0 0 0 0x0F) (fun _ x => x.source = 16) ∧ OneTrack (track 15 2 0 0 0 0x0F) (fun _ x => x.action = 2) ∧
    OneTrack (track 15 0 2 0 0 0x0F) (fun _ x => x.desc.format = 2) ∧ OneTrack (track 15 0 0 2 0 0x0F) (fun _ x => x.desc.order = 2) ∧
    OneTrack (track 15 0 0 0 2 0x0F) (fun _ x => x.desc.mode = 2) ∧
    OneTrack (track 15 0 0 0 0 0x10) (fun s x => x.action = 0 ∧ s.inWindow x.desc.first 32 32 = false) ∧
    OneTrack (track 15 0 1 1 1 0x0F) (fun s x => x.source = (15 : Fin 16).val ∧ x.action = 0 ∧ x.desc.format ≤ 1 ∧
      x.desc.order ≤ 1 ∧ x.desc.mode ≤ 1 ∧ s.inWindow x.desc.first 32 32 = true ∧ s.theatre.bindings.get 15 = .playback) ∧
    OneTrack (track 15 1 0 0 0 0x0F) (fun _ x => x.source = (15 : Fin 16).val ∧ x.action = 1) ∧
    site.theatre.bindings.get 15 ≠ .playback ∧
    (∀ fade ∈ [0, 1], Met .cue 0x40 (f fade 1 0 0) [[]] (showing .idle []) (fun h s => (cueRec h.bytes).follow = 1 ∧
      (cueRec h.bytes).delay = 0 ∧ (cueRec h.bytes).tracks = 0 ∧ (cueRec h.bytes).fade = fade ∧
      s.theatre.state = .idle ∧ s.theatre.queue = [] ∧ s.takenGranted .cue h.addr = false)) ∧
    (∀ x ∈ [ShowState.idle, .ready, .waiting, .fading], ∀ follow ∈ [0, 1],
      let hold : HoldRecord := { byHost := true, heldFrom := x, autoResume := false, outlets := [] }
      Met .cue 0x40 (f 0 follow 0 5) [[]] ((showing .held []).modTheatre fun t => { t with hold := some hold })
        (fun h s => (cueRec h.bytes).tracks = 0 ∧ (cueRec h.bytes).follow = follow ∧ s.theatre.state = .held ∧
          s.theatre.hold = some hold)) ∧
    (let start : TrackAction := .start 15 { first := 4064 }
     Met .cue 0x41 [(0, 0xC1)] [] (stage .ready [{ aCue with tracks := [start, .stop 14] }]) (fun _ s =>
       s.theatre.state = .ready ∧ aCue.fade ≠ 0 ∧ start ∈ [start, .stop 14] ∧ s.inWindow 4064 32 32 = true)) ∧
    (∀ rest ∈ [[], [aCue], [cueOf 0 (some 1)]], Met .cue 0x41 [(0, 0xC1)] [] (showing .ready (cueOf 0 none :: rest))
      (fun _ s => s.theatre.queue = cueOf 0 none :: rest ∧ (cueOf 0 none).fade = 0 ∧ (cueOf 0 none).tracks = [] ∧
        ∀ cue, rest.head? = some cue → cue.auto = false ∨ cue.delay ≠ 0)) ∧
    (∀ rest ∈ [[], [aCue], [cueOf 0 (some 0)], [cueOf 0 none, cueOf 0 (some 1)]],
      Met .cue 0x41 [(0, 0xC1)] [] ((showing .fading (aCue :: rest)).modTheatre fun t =>
        { t with next := some (Tab.replicate 136 4096) }) (fun _ s => s.theatre.state = .fading ∧
          s.theatre.queue = aCue :: rest ∧ s.theatre.next = some (Tab.replicate 136 4096))) ∧
    aCue.tracks = [] ∧ (cueOf 0 (some 0)).fade = 0 ∧
    (let s := channelsOf (.source 14) (.source 15)
     s.channelOf (.source 15) = some 15 ∧ (s.channels.get 15).state ≠ .free ∧ (s.channels.get 15).state ≠ .ended ∧
       s.port.grant = some ⟨.channel 15 (.burst 64 4), false⟩ ∧ s.channelOf (.source 13) = none) ∧
    (let s : State := { channelsOf (.source 14) (.source 15) with port := running.port }
     s.channelOf (.source 15) = some 15 ∧ s.port.grant = none) := by
  refine ⟨?_, ?_, ?_, ?_, ?_, ?_, ?_, ?_, ?_, ?_, ?_, ?_, ?_, ?_, ?_⟩ <;> decide +kernel

/-- R156 and R157: the clip's cue starts at once, its stream's channel is 0, and the fade of 100 has its NEXT bank. -/
theorem test_cueStartsStream :
    let t := after .cue (given .cue [(0, 0xC0), (12, 100), (14, 1), (15, 1)] [[], track 15 0 0 0 0 0x0F] (stage .idle []))
    t.theatre.state = .fading ∧ t.theatre.len = 100 ∧ (t.channels.get 0).owner = some (.source 15) ∧
    (t.channels.get 0).state = .priming ∧ (t.channels.get 0).cur = .toRead 4064 := by decide +kernel

theorem witness_FadeAndFollow_next :
    let fading (rest : List Machine.Cue) : State := granted (.rootRead 64)
      ((showing .fading (aCue :: rest)).modTheatre fun t =>
        { t with next := some (Tab.replicate 136 4096), pos := 99, len := 100 })
    let waiting (rest : List Machine.Cue) : State := granted (.rootRead 64)
      ((showing .waiting (cueOf 0 (some 7) :: rest)).modTheatre fun t => { t with follow := some 0 })
    let quiet (rest : List Machine.Cue) := ∀ cue, rest.head? = some cue → cue.auto = false ∨ cue.delay ≠ 0
    (∀ rest ∈ [[], [aCue], [cueOf 0 (some 1)], [cueOf 1 (some 0)], [cueOf 0 (some 0)], [cueOf 0 (some 0), aCue]],
      (fading rest).theatre.queue = aCue :: rest ∧ (fading rest).theatre.state = .fading ∧
      (fading rest).theatre.fresh = false ∧ (fading rest).theatre.stepped = false ∧
      (fading rest).theatre.len ≤ (fading rest).theatre.pos + 1 ∧
      (fading rest).theatre.next = some (Tab.replicate 136 4096) ∧ (fading rest).port.grant ≠ none) ∧
    (∀ rest ∈ [[], [aCue], [cueOf 0 (some 1)]], quiet rest) ∧
    (∀ fade ∈ [0, 1], [cueOf fade (some 0), aCue].head? = some (cueOf fade (some 0)) ∧
      (cueOf fade (some 0)).auto = true ∧ (cueOf fade (some 0)).delay = 0 ∧ (cueOf fade (some 0)).tracks = [] ∧
      (cueOf fade (some 0)).fade = fade) ∧ quiet [aCue] ∧
    (∀ rest ∈ [[], [aCue]], (waiting rest).theatre.state = .waiting ∧ (waiting rest).theatre.stepped = false ∧
      (waiting rest).theatre.follow = some 0 ∧ (waiting rest).theatre.queue = cueOf 0 (some 7) :: rest ∧
      (cueOf 0 (some 7)).tracks = [] ∧ (cueOf 0 (some 7)).fade = 0 ∧ (waiting rest).port.grant ≠ none) := by
  refine ⟨?_, ?_, ?_, ?_, ?_⟩ <;> decide +kernel

/-- RUNNING with a grant in progress and nothing due: timers and counts with one step left in every block. Programs 1
GATHERING, 2 PLAYING, 3 HELD; party 0 of call 15 RINGING; the ring on voice 7 in its last period, a chime of program 2 given
on voice 6; channel 14 waiting for a fragment, 15 DRAINING with 49 samples. -/
def calmSite (t : Theatre) : State :=
  { running with
    port := { grant := some ⟨.rootRead 64, false⟩ }
    theatre := t
    beat := { counter := 1, sub := 1 }
    trunks := running.trunks.set 3 { link := .up, sync := some 1 }
    stations := running.stations.set 63 { binding := some (7, 4), state := .idle, holdTimer := some 1 }
    programs := ((running.programs.set 1 { state := .gathering, gatherTimer := some 1 }).set 2
      { state := .playing, durationTimer := some 1 }).set 3 { state := .held, durationTimer := some 1 }
    calls := running.calls.set 15 { state := .ringing, parties :=
      [{ station := 63, ring := true, talk := 0, listen := 0, state := .ringing, outletLost := false, ringTimer := some 1
         arrival := 0, claim := none }] }
    channels := (running.channels.set 15 { state := .draining, owner := some (.program 2), fifo := List.replicate 49 1 }).set
      14 { state := .playing, owner := some (.source 3), cur := .waiting 64 }
    tones := { (tuned 11 running).tones with
      voices := (running.tones.voices.set 7
        { user := .ring, mode := .sounding, pattern := 11, copy := { segments := [⟨1, 1000, 4096⟩] }, left := 1, inc := 1365 }).set
          6 { user := .chime 2, mode := .starting true, pattern := 11, cycles := 1 } } }

theorem calmSite_calm (t : Theatre) : (calmSite t).Calm ∧ ∀ p, ((calmSite t).programs.get p).state ≠ .ending := by
  have h : (calmSite {}).Calm ∧ ∀ p, ((calmSite {}).programs.get p).state ≠ .ending :=
    ⟨⟨by decide +kernel, by decide +kernel, by decide +kernel, by decide +kernel, by decide +kernel, by decide +kernel,
      by decide +kernel, by decide +kernel, by decide +kernel⟩, by decide +kernel⟩
  exact ⟨⟨h.1.segments, h.1.links, h.1.holds, h.1.rings, h.1.gathers, h.1.durations, h.1.beat, h.1.clearing, h.1.streams⟩,
    h.2⟩

theorem witness_WalkRequests_period :
    let s (n : Nat) : State := { walking fun w => { w with scan := some n } with beat := { counter := 1, sub := 1 } }
    let windowless : State := { s 0 with lists := { (s 0).lists with root := { (s 0).lists.root with beatWindow := 0 } } }
    State.reset.part ≠ .running ∧ windowless.part = .running ∧ windowless.lists.root.beatWindow = 0 ∧
    (∀ n ∈ [0, 1, 10], (s n).part = .running ∧ (s n).beat.counter ≠ 0 ∧ ((s n).walker .alarm).state ≠ .error ∧
      ((s n).walker .alarm).scan = some n) ∧
    (let e := walking fun w => { w with state := .error, scan := none }
     (e.walker .alarm).state = .error ∧ (e.walker .alarm).scan = none) := by decide +kernel

/-- R9: the scan timer of the ALARM list starts again at 10 where it stood at 0, and steps to 9 in that period. -/
theorem test_scanTimers :
    ((after (.mixPeriodStart []) (walking fun w => { w with scan := some 0 })).walker .program).scan = none ∧
    ((after (.mixPeriodStart []) { walking fun w => { w with scan := some 0 } with beat := { counter := 1, sub := 1 } }).walker
      .alarm).scan = some 9 := by decide +kernel

theorem witness_Changeovers_period :
    let s (x : SlotState) (timer sync : Option Nat) : State := (changing x timer).modTrunk 3 fun t =>
      { t with link := .up, sync }
    (∀ x ∈ [SlotState.pending, .releasing], ((s x (some 0) none).changeovers.get 7).state = x ∧
      ((s x (some 0) none).changeovers.get 7).timer = some 0 ∧
      ((s x (some 100) (some 0)).changeovers.get 7).state = x ∧ ((s x (some 100) (some 0)).trunks.get 3).link = .up ∧
      ((s x (some 100) (some 0)).trunks.get 3).sync = some 0 ∧ (7 : Fin 8).val / 2 = 3 ∧
      ((s x (some 100) (some 1)).changeovers.get 7).timer = some 100) ∧
    ((s .active none (some 0)).changeovers.get 7).state = .active := by decide +kernel

theorem witness_StationTimers_period :
    let s (x : StationState) (hold sync : Option Nat) : State :=
      ((stationed x).modStation 63 fun y => { y with holdTimer := hold }).modTrunk 0 fun t => { t with link := .up, sync }
    (∀ x ∈ [StationState.idle, .ringing, .inCall], ((s x (some 1) (some 0)).stations.get 63).binding = some (7, 4) ∧
      ((s x (some 1) (some 0)).trunks.get (trunkOf 7)).link = .up ∧
      ((s x (some 1) (some 0)).trunks.get (trunkOf 7)).sync = some 0 ∧
      ((s x (some 0) (some 1)).stations.get 63).holdTimer = some 0 ∧
      ((s x (some 1) (some 1)).trunks.get (trunkOf 7)).sync ≠ some 0 ∧
      ((s x (some 1) (some 1)).stations.get 63).holdTimer ≠ some 0 ∧
      ((s x (some 1) (some 1)).stations.get 63).state ≠ .undefined ∧
      ((s x (some 1) (some 1)).stations.get 63).state ≠ .lost) ∧
    ((calmSite {}).calls.get 15).state ≠ .clearing ∧ ((calmSite {}).calls.get 15).parties ≠ [] := by decide +kernel

theorem witness_CallRecords_clearing :
    let g : Page := { slot := 58, targets := [3], policy := 0, gain := 4096, state := .ended }
    let s : State := withProgram 58 { reservation := some 15 } (granted (.rootRead 64) (running.modCall 15 fun _ =>
      { state := .clearing, page := some g, record := some ⟨128, 0x20, 9, true⟩, final := [2, 0x84] }))
    (s.calls.get 15).state = .clearing ∧ (s.calls.get 15).page = some g ∧
    (s.calls.get 15).record = some ⟨128, 0x20, 9, true⟩ ∧ s.port.grant ≠ none ∧
    (s.programs.get g.slot).reservation ≠ none := by decide +kernel

/-- R128: the call is FREE at the period start, and its return waits with 0x88 and the two final states. -/
theorem test_callFree :
    let t := after (.mixPeriodStart []) (granted (.rootRead 64) (running.modCall 15 fun _ =>
      { state := .clearing, record := some ⟨128, 0x20, 9, true⟩, final := [2, 0x84] }))
    (t.calls.get 15).state = .free ∧
    t.lists.returns.get ListId.call.idx = [⟨⟨128, 0x20, 9, true⟩, 0x88, [(28, [2, 0x84, 0, 0, 0, 0, 0, 0])]⟩] := by
  decide +kernel

theorem witness_AmbientWindow_period :
    let s (position : Nat) (kind : InletKind) (link : LinkState) : State :=
      { windowOver true true true with
        ambient := { (windowOver true true true).ambient with position }
        inlets := site.inlets.set 6 kind
        trunks := site.trunks.set 0 { link, present := 7 } }
    (s 100 .senseMic .up).ambient.position = (s 100 .senseMic .up).ambient.length ∧
    (∀ n ∈ [0, 1, 99], (s n .senseMic .up).ambient.position = n ∧ n ≠ (s n .senseMic .up).ambient.length) ∧
    ((s 1 .senseMic .up).outlets.get 254).senseInlet = none ∧ ((s 1 .senseMic .up).outlets.get 255).senseInlet = some 6 ∧
    (s 1 .senseMic .up).inlets.get 6 ≠ .undefined ∧ (s 1 .undefined .up).inlets.get 6 = .undefined ∧
    (let t := after (.mixPeriodStart []) (s 1 .senseMic .up)
     (t.trunks.get (trunkOf 6)).link = .up ∧ (slotOf 6).val < (t.trunks.get (trunkOf 6)).present) ∧
    ((after (.mixPeriodStart []) (s 1 .senseMic .training)).trunks.get (trunkOf 6)).link ≠ .up := by
  refine ⟨?_, ?_, ?_, ?_, ?_, ?_, ?_, ?_⟩ <;> decide +kernel

/-- R84 to R86: 48 samples of -2 and a holder at gain add 96 to the sum of outlet 255 and gate its window. -/
theorem test_windowSum :
    let s : State := { windowOver false false false with
      ambient := { (windowOver false false false).ambient with position := 1 }
      inlets := site.inlets
      programs := site.programs.set 1 { state := .playing, gain := 4096 }
      claims := { site.claims with stack := site.claims.stack.set 255 (nameStack 0 [claimOf 1 4 0 false true]) }
      trunks := site.trunks.set 0 { link := .up, present := 7 } }
    let t := after (.mixPeriodStart (List.replicate 7 (List.replicate 48 (BitVec.ofInt 24 (-2))))) s
    (t.ambient.outlets.get 255).sum = 4896 ∧ (t.ambient.outlets.get 255).gated = true ∧
    (t.ambient.outlets.get 255).unheard = false := by decide +kernel

/-- Program 58 is ENDING with a record; its claim holds outlet 3 at a gain, or nowhere. -/
def fading (gain : Nat) : State :=
  let s := withProgram 58 { state := .ending, gain := 4096, record := some ⟨128, 0x10, 9, true⟩ } (calmSite {})
  { s with
    claims := { s.claims with
      stack := s.claims.stack.set 3 (if gain = 0 then [] else nameStack 0 [claimOf 58 4 0 false true]) }
    mixer := s.mixer.set 3 (if gain = 0 then {} else { fg := some (.program 58, 0), gc := gain }) }

theorem fading_calm (gain : Nat) : (fading gain).Calm :=
  have h : (fading 0).Calm := ⟨by decide +kernel, by decide +kernel, by decide +kernel, by decide +kernel, by decide +kernel,
    by decide +kernel, by decide +kernel, by decide +kernel, by decide +kernel⟩
  ⟨h.segments, h.links, h.holds, h.rings, h.gathers, h.durations, h.beat, h.clearing, h.streams⟩

theorem witness_StopAndGain_faded :
    (58 : Fin 64).val < 59 ∧ (∀ n, (fading n).Calm) ∧
    (∀ n ∈ [0, 1000], ((fading n).programs.get 58).state = .ending ∧
      (∀ c, ((fading n).calls.get c).page = none) ∧ (∀ v, ((fading n).tones.voices.get v).user ≠ .chime 58) ∧
      (∀ q, q ≠ 58 → ((fading n).programs.get q).state ≠ .ending) ∧ (fading n).port.grant ≠ none ∧
      ((fading n).programs.get 58).record = some ⟨128, 0x10, 9, true⟩) ∧
    (∀ o, ((after (.mixPeriodStart []) (fading 0)).mixer.get o).fg = none ∧
      ((after (.mixPeriodStart []) (fading 0)).mixer.get o).ug = none) ∧
    (let m := (after (.mixPeriodStart []) (fading 1000)).mixer.get 3
     m.fg = some (.program 58, ((fading 1000).programs.get 58).arrival) ∧ m.gc = 936 ∧ 0 < m.gc) := by
  refine ⟨?_, fading_calm, ?_, ?_, ?_⟩ <;> decide +kernel

/-- R73: the program without a claim ends STOPPED with its clamp mark, the one at gain 936 goes on. -/
theorem test_faded :
    ((after (.mixPeriodStart []) (fading 0)).programs.get 58).state = .free ∧
    ((after (.mixPeriodStart []) (fading 0)).lists.returns.get ListId.program.idx).map (·.status) = [0x84] ∧
    ((after (.mixPeriodStart []) (fading 1000)).programs.get 58).state = .ending := by decide +kernel

theorem witness_ProgramTimers_period : (calmSite {}).Calm ∧ (∀ p, ((calmSite {}).programs.get p).state ≠ .ending) ∧
    ((calmSite {}).programs.get 1).gatherTimer = some 1 ∧ ((calmSite {}).programs.get 2).durationTimer = some 1 ∧
    ((calmSite {}).programs.get 3).state ≠ .playing :=
  ⟨(calmSite_calm {}).1, (calmSite_calm {}).2, by decide +kernel⟩

/-- R40 and R47: the gather timer and the PLAYING program's duration timer step to 0, the HELD program's stands. -/
theorem test_programTimers :
    let t := after (.mixPeriodStart []) (calmSite {})
    (t.programs.get 1).gatherTimer = some 0 ∧ (t.programs.get 2).durationTimer = some 0 ∧
    (t.programs.get 3).durationTimer = some 1 ∧ (t.stations.get 63).holdTimer = some 0 ∧
    (t.calls.get 15).parties.map (·.ringTimer) = [some 0] ∧ t.beat = { counter := 0, sub := 100 } := by decide +kernel

theorem witness_ToneSegmentEnd_period :
    let s := calmSite {}
    s.Calm ∧ (∀ p, (s.programs.get p).state ≠ .ending) ∧ (s.tones.voices.get 7).user = .ring ∧
    (s.tones.voices.get 7).mode = .sounding ∧
    (s.tones.voices.get 7).copy.segments[(s.tones.voices.get 7).segment]? = some ⟨1, 1000, 4096⟩ ∧
    (s.tones.voices.get 6).mode = .starting true ∧ (s.tones.voices.get 6).pattern = 11 ∧
    ∃ d g, (s.tones.patterns.get 11).stored = some d ∧ d.segments.head? = some g :=
  ⟨(calmSite_calm {}).1, (calmSite_calm {}).2, by decide +kernel, by decide +kernel, by decide +kernel, by decide +kernel,
    by decide +kernel, _, _, rfl, rfl⟩

theorem witness_ChannelSignals_period :
    let s := calmSite {}
    s.Calm ∧ (∀ p, (s.programs.get p).state ≠ .ending) ∧ s.theatre.state ≠ .fading ∧ s.theatre.state ≠ .waiting ∧
    s.port.grant ≠ none ∧ (∀ c ∈ [(14 : Fin 16), 15], ∀ k ∈ AlarmKind.all, (s.channels.get c).owner ≠ some (.program k.slot)) ∧
    (let u (x : ChanState) : State :=
       withProgram 59 { state := .playing } (s.modChannel 15 fun c => { c with state := x, owner := some (.program 59) })
     ∀ x ∈ [ChanState.starved, .draining], ((u x).channels.get 15).owner = some (.program 59) ∧
       ((u x).channels.get 15).state = x ∧ ((u x).programs.get 59).state ≠ .free ∧ (59 : Fin 64).val < 60) :=
  ⟨(calmSite_calm {}).1, (calmSite_calm {}).2, by decide +kernel⟩

theorem witness_FadeAndFollow_period :
    let fades (fresh stepped : Bool) (pos : Nat) : Theatre :=
      { state := .fading, queue := [aCue], next := some (Tab.replicate 136 4096), len := 100, pos, fresh, stepped }
    let waits (stepped : Bool) (d : Nat) : Theatre :=
      { state := .waiting, queue := [cueOf 1 (some 7)], follow := some d, stepped }
    (∀ t, (calmSite t).Calm ∧ (∀ p, ((calmSite t).programs.get p).state ≠ .ending) ∧ (calmSite t).theatre = t ∧
      (calmSite t).port.grant ≠ none) ∧
    (∀ x ∈ [ShowState.idle, .ready, .held], x ≠ .fading ∧ x ≠ .waiting) ∧
    (fades true false 0).fresh = true ∧ (fades false true 50).stepped = true ∧ (waits true 2).stepped = true ∧
    (fades false false 98).pos + 1 < (fades false false 98).len ∧ (waits false 2).follow = some 2 ∧ 1 < 2 ∧
    (fades false false 99).len ≤ (fades false false 99).pos + 1 ∧ (fades false false 99).queue = aCue :: [] ∧
    (fades false false 99).next = some (Tab.replicate 136 4096) ∧
    (∀ d ∈ [0, 1], (waits false d).follow = some d ∧ d ≤ 1 ∧ (waits false d).queue = cueOf 1 (some 7) :: [] ∧
      (cueOf 1 (some 7)).tracks = [] ∧ (cueOf 1 (some 7)).fade ≠ 0) :=
  ⟨fun t => ⟨(calmSite_calm t).1, (calmSite_calm t).2, rfl, by simp [calmSite]⟩, by decide +kernel⟩

/-- A cue that starts a stream on source 15, bound for playback, and one on source 2, which is not, and stops source 3. -/
def clip (fade : Nat) (auto : Option Nat) : Machine.Cue :=
  { cueOf fade auto with tracks := [.start 15 { first := 4064 }, .start 2 { first := 4064 }, .stop 3] }

/-- The show in a state, with these cues and a fade or a follow timer at its last step. -/
def lastStep (x : ShowState) (queue : List Machine.Cue) : Theatre :=
  { state := x, queue, next := some (Tab.replicate 136 9), pos := 99, len := 100, follow := some 1
    bindings := (Tab.replicate 16 .unbound).set 15 .playback }

theorem witness_FadeAndFollow_tracks :
    (∀ fade ∈ [0, 1], ∀ auto ∈ [some 0, some 7], ∀ a ∈ (clip fade auto).tracks,
      ∀ x d, a = .start x d → (calmSite {}).inWindow d.first 32 32 = true) ∧
    (∀ fade ∈ [0, 1], ∀ after ∈ [[], [aCue], [cueOf 0 (some 1)]],
      let t := lastStep .fading (aCue :: clip fade (some 0) :: after)
      t.state = .fading ∧ t.fresh = false ∧ t.stepped = false ∧ t.len ≤ t.pos + 1 ∧ t.next = some (Tab.replicate 136 9) ∧
        (clip fade (some 0)).auto = true ∧ (clip fade (some 0)).delay = 0 ∧ (clip fade (some 0)).fade = fade ∧
        ∀ cue ∈ after.head?, ¬ (cue.auto = true ∧ cue.delay = 0)) ∧
    (∀ fade ∈ [0, 1], ∀ rest ∈ [[], [aCue]],
      let t := lastStep .waiting (clip fade (some 7) :: rest)
      t.state = .waiting ∧ t.stepped = false ∧ t.follow = some 1 ∧ t.queue = clip fade (some 7) :: rest) ∧
    ((calmSite {}).port.grant ≠ none ∧ ∀ c : Fin 16, ∀ k ∈ AlarmKind.all,
      ((calmSite {}).channels.get c).owner ≠ some (.program k.slot)) := by
  refine ⟨?_, ?_, ?_, ?_⟩
  · rintro fade - auto - a h x d rfl
    simp only [clip, List.mem_cons, List.not_mem_nil, TrackAction.start.injEq, or_false, reduceCtorEq] at h
    rcases h with ⟨-, rfl⟩ | ⟨-, rfl⟩ <;> decide +kernel
  all_goals decide +kernel

/-- Channel 0 is bound to source 15, source 3 has given up channel 14, and the note of code 4 for source 2 is made; the show
is in a state, with this LIVE gain. -/
def clipStarted (x : ShowState) (gain : Nat) (t : State) : Bool :=
  (t.channels.get 0).owner = some (.source 15) && (t.channels.get 0).cur = .toRead 4064 && (t.channels.get 14).owner = none &&
    (t.notes.queue.map fun n => (n.kind, n.code, n.subject, n.detail)) = [(.showState, 4, 2, 2)] &&
    t.theatre.state = x && t.theatre.live.get 0 = gain

/-- R157 to R159: a fade's end and the follow timer's each start their clip, by their own commands and at a period start. -/
theorem test_clipStarts :
    let fade (n : Nat) := calmSite (lastStep .fading [aCue, clip n (some 0)])
    let follow (n : Nat) := calmSite (lastStep .waiting [clip n (some 7)])
    (∀ c ∈ [Instr.fadeComplete, .mixPeriodStart []],
      clipStarted .fading 9 (after c (fade 1)) = true ∧ clipStarted .idle 9 (after c (fade 0)) = true) ∧
    ∀ c ∈ [Instr.followTimerExpiry, .mixPeriodStart []],
      clipStarted .fading 0 (after c (follow 1)) = true ∧ clipStarted .idle 0 (after c (follow 0)) = true := by
  decide +kernel

/-- R158 and R159: a fade steps from 98 to 99 and completes at 100; a follow timer at 1 starts its cue at t = 0. -/
theorem test_showPeriod :
    let f (pos : Nat) : Theatre :=
      { state := .fading, queue := [aCue], next := some (Tab.replicate 136 9), len := 100, pos }
    let t (v : Theatre) := (after (.mixPeriodStart []) (calmSite v)).theatre
    (t (f 98)).pos = 99 ∧ (t (f 98)).state = .fading ∧ (t (f 99)).state = .idle ∧ (t (f 99)).live.get 135 = 9 ∧
    (t { state := .waiting, queue := [cueOf 1 (some 7)], follow := some 1 }).state = .fading := by decide +kernel

/-- Outlet 3 given the sense inlet `x` while its window is measured, a calibration in progress where `capture` says so. -/
def sensing (x : Option (Fin 256)) (capture : Bool) : State :=
  granted (.rootRead 64) { site with
    inlets := site.inlets.set 5 .senseMic
    outlets := site.outlets.modify 3 fun o => { o with senseInlet := x }
    ambient := { site.ambient with
      position := 1
      outlets := site.ambient.outlets.modify 3 fun a =>
        { a with level := 500, capture := if capture then some { record := ⟨128, 0x06, 9, false⟩, begun := false } else none } } }

theorem witness_DefineOutlet_units :
    let f (low high : Nat) := [(0, 0x81), (8, 3), (10, 1), (26, low), (27, high), (32, 0), (34, 1)]
    let reads (h : Hand) (sense : Nat) := (outletRec h.bytes).outlet = 3 ∧ (outletRec h.bytes).kind = 1 ∧
      outletKindOf 1 = some .cabinLoop ∧ (outletRec h.bytes).area = 0 ∧ (outletRec h.bytes).sense = sense
    (∀ c ∈ [true, false], Met .setup 1 (f 255 255) [] (sensing (some 6) c) (fun h s => reads h 0xFFFF ∧
      (s.outlets.get 3).senseInlet = some 6 ∧ OutletKind.cabinLoop = (s.outlets.get 3).kind ∧
      (s.ambient.outlets.get 3).capture.isSome = c ∧ s.port.grant ≠ none)) ∧
    Met .setup 1 (f 255 255) [] (sensing none false) (fun h s => reads h 0xFFFF ∧ (s.outlets.get 3).senseInlet = none) ∧
    (∀ x ∈ [some (6 : Fin 256), none], Met .setup 1 (f 5 0) [] (sensing x true) (fun h s => reads h 5 ∧
      s.inlets.get 5 = .senseMic ∧ (s.outlets.get 3).senseInlet = x ∧ s.ambient.position ≠ 0)) := by
  refine ⟨?_, ?_, ?_⟩ <;> decide +kernel

theorem witness_LoopReadings_notes :
    let s (st : LoopState) (fault : Bool) (kind : OutletKind) (slot : SlotState) (queue : Nat) : State :=
      let u := granted (.snapPiece 0 0 0) ((linked .up none (some 1)).modTrunk 3 fun t => { t with served := 57, present := 56 })
      { u with
        outlets := u.outlets.modify 248 fun o => { o with kind }
        loops := u.loops.modify 248 fun x => { x with state := st, ampFault := fault }
        changeovers := u.changeovers.set 7 { state := slot, faulted := 248, spare := 249 }
        notes := { queue := List.replicate queue aNote } }
    (∀ st ∈ [LoopState.normal, .faultOpen, .faultShort], ∀ fault ∈ [true, false], ∀ queue ∈ [0, 30],
      let u := s st fault .crewArea .free queue
      u.port.grant ≠ none ∧ u.notes.queue.length ≤ 30 ∧ (u.loops.get 248).capture = none ∧
      (u.loops.get 248).ampFault = fault ∧ (u.outlets.get 248).kind ≠ .undefined ∧
      (∀ z, (u.changeovers.get z).state = .free) ∧ (u.trunks.get 3).supervision = true) ∧
    ((s .normal true .undefined .free 0).outlets.get 248).kind = .undefined ∧
    (let u := s .normal true .crewArea .active 0
     (u.changeovers.get 7).state ≠ .free ∧ (u.changeovers.get 7).faulted = 248 ∧
       ∀ z, (u.changeovers.get z).state ≠ .free → z = 7) ∧
    (let u := (s .normal false .crewArea .free 0).modLoop 248 fun x =>
       { x with capture := some { record := ⟨64, 0x06, 0, false⟩, count := 7, sum := 0 } }
     (u.outlets.get 248).kind ≠ .undefined ∧ (u.outlets.get 248).kind ≠ .spare) := by
  refine ⟨?_, ?_, ?_, ?_⟩ <;> decide +kernel

/-- R173 and R174: a high reading of an outlet with N = 1 and a flag that falls make two notes, the slot in the second. -/
theorem test_loopNotes :
    let u := granted (.snapPiece 0 0 0) ((linked .up none (some 1)).modTrunk 3 fun t => { t with served := 57, present := 56 })
    let s : State := { u with
      outlets := u.outlets.modify 248 fun o => { o with kind := .crewArea, confirm := 1 }
      loops := u.loops.modify 248 fun x => { x with state := .normal, ampFault := true }
      changeovers := u.changeovers.set 7 { state := .active, faulted := 248, spare := 249 } }
    let b : ControlBlock :=
      { group := 7, loops := ⟨1023, false⟩ :: List.replicate 7 ⟨0, false⟩, stations := [], echoes := [none, none] }
    (after (.inboundControlBlock 3 b) s).notes.queue.map (fun n => (n.kind, n.code, n.subject, n.detail)) =
      [(.loopFault, 1, 248, 1023), (.ampFault, 0, 248, 7)] := by decide +kernel

theorem witness_BeatExpiry_period :
    let s (counter sub : Nat) : State := { running with beat := { counter, sub } }
    State.reset.part ≠ .running ∧
    (∀ counter ∈ [0, 1, 5], ∀ sub ∈ [1, 2, 100], (s counter sub).part = .running ∧ (s counter sub).lists.root.beatWindow ≠ 0 ∧
      (s counter sub).beat = { counter, sub }) ∧
    (let t : State := { granted (.rootRead 64) (withProgram 1 { state := .ending, kind := .background, record := some ⟨128, 0x10, 9, true⟩ }
       (showing .fading [aCue])) with
         part := .running, lists := running.lists, notes := { queue := List.replicate 31 aNote } }
     t.part = .running ∧ t.lists.root.beatWindow ≠ 0 ∧ t.beat.counter = 0 ∧ t.port.grant ≠ none ∧ aCue ∈ t.theatre.queue ∧
       (t.programs.get 1).state ≠ .free ∧ (t.programs.get 1).record = some ⟨128, 0x10, 9, true⟩ ∧
       (t.programs.get 1).kind = .background ∧ t.notes.queue.length < 32) := by
  refine ⟨?_, ?_, ?_⟩ <;> decide +kernel

/-- MUSTER, which has a voice phase, in a state in area 15; outlet 3 of its audience there; the next arrival number is `n`. -/
def raisable (x : AreaState) (n : Nat) : State :=
  let s := mustered x false
  { s with
    part := .running
    outlets := s.outlets.modify 3 fun o => { o with area := 15 }
    claims := { s.claims with arrivals := n }
    alarms := { s.alarms with
      defs := s.alarms.defs.set 0 (some { pattern := 0, toneCycles := 2, stream := some { first := 64 } }) } }

theorem witness_AlarmRecords_raise :
    let f := [(0, 0xB0), (8, 0), (11, 0x80)]
    let areas (h : Hand) := (allFin 16).filter fun a => bitOf (halfAt h.bytes 10) a.val
    let s := raisable .quiet 0
    (∀ n ∈ [0, 4294967294, 4294967295], Met .alarm 0x30 f [] (raisable .quiet n) (fun h s => areas h = [15] ∧
      s.areaState .muster 15 = .quiet ∧ s.claims.arrivals = n)) ∧
    Met .alarm 0x30 f [] (raisable .silenced 7) (fun h s => areas h = [15] ∧ s.areaState .muster 15 = .silenced) ∧
    AlarmKind.muster.audience (s.outlets.get 3).kind = true ∧ (s.outlets.get 3).area = 15 ∧
    hasOwner (.program 60) (s.stack 3) = false ∧ AlarmKind.muster.audience (s.outlets.get 5).kind = false ∧
    (s.outlets.get 255).area ≠ 15 ∧ (s.programs.get 60).state = .free ∧
    (s.alarmDef .muster).map (fun d => (d.toneCycles, d.stream)) = some (2, some { first := 64 }) ∧ s.part ≠ .fallback ∧
    (s.channels.get 0).state = .free ∧ (s.tones.voices.get 0).user = .nobody ∧ s.alarmDef .fire = none := by
  refine ⟨?_, ⟨?_, ?_, ?_⟩, ?_, ?_, ?_, ?_, ?_, ?_, ?_, ?_, ?_, ?_, ?_⟩ <;> decide +kernel

/-- R35 and R141: the last number is issued and stands in MUSTER's claim; a raise of a SILENCED area keeps the kind's. -/
theorem test_raiseNumbers :
    let raised (x : AreaState) := after .raiseAlarm (given .alarm [(0, 0xB0), (8, 0), (11, 0x80)] [] (raisable x 4294967294))
    let numbers (t : State) := (t.claims.arrivals, (t.alarms.kinds.get 0).lastArrival, (t.stack 3).map (·.arrival))
    numbers (raised .quiet) = (4294967295, 4294967294, [4294967294]) ∧
    numbers (raised .silenced) = (4294967294, 0, [0]) := by
  refine ⟨?_, ?_⟩ <;> decide +kernel

theorem witness_AlarmRecords_standing :
    let s := (alarming .sounding).setAreas .muster .sounding [14]
    let u : State := { s with outlets := s.outlets.modify 200 fun o => { o with kind := .cabinLoop, area := 14 } }
    (u.programs.get 60).state ≠ .free ∧ (u.outlets.get 200).area ∉ [(15 : Fin 16)] ∧
    200 ∈ (u.silence .muster [15] .record).alarmTargets .muster := by
  intro s u
  have h := (State.silence_spec u .muster [15] .record).2 (by decide +kernel)
  refine ⟨by decide +kernel, by decide +kernel, ?_⟩
  unfold State.alarmTargets
  rw [Tab.mem_indices, h.outlets, h.entries, if_neg (by decide +kernel)]
  decide +kernel

theorem witness_Contacts_alarms :
    let all (k : AlarmKind) (line : Fin 4) : State := (contact line false 19).setAreas k .sounding (allFin 16)
    let sounding : State := (((contact 2 false 19).setAreas .muster .sounding [15]).setAreas .fire .sounding [15]).setAreas
      .crewAlert .sounding [15]
    (∃ a, (contact 0 false 19).areaState .muster a ≠ .sounding) ∧ (∀ a, (all .muster 0).areaState .muster a = .sounding) ∧
    (∃ a, (contact 1 false 19).areaState .fire a ≠ .sounding) ∧ (∀ a, (all .fire 1).areaState .fire a = .sounding) ∧
    (∀ k ∈ [AlarmKind.muster, .fire, .crewAlert], sounding.areaState k 15 = .sounding) ∧
    (∀ a, sounding.areaState .security a ≠ .sounding) ∧
    (contact 3 false 19).contactMic = some 9 ∧ ({ contact 3 false 19 with inlets := site.inlets } : State).contactMic = none ∧
    ({ contact 3 false 19 with lists := running.lists } : State).micEnabled = false ∧
    ((withProgram 59 { state := .playing } (contact 3 false 19)).programs.get 59).state ≠ .free := by
  refine ⟨⟨15, ?_⟩, ?_, ⟨15, ?_⟩, ?_, ?_, ?_, ?_, ?_, ?_, ?_⟩ <;> decide +kernel

/-- R144 and R150: MUSTER_CONTACT raises MUSTER in all areas, and its note, with cause contact, follows the CONTACT note. -/
theorem test_contactAlarmNote :
    let t := after (.acceptedClosure 0) (granted (.snapPiece 0 0 0) (contact 0 false 19))
    (t.notes.queue.map fun n => (n.kind, n.code, n.subject, n.detail)) =
      [(.contact, 1, 0, 0), (.alarmState, 1, 0, 0x1FFFF)] := by decide +kernel

/-- CREW_ALERT in a state in area 15, its program PLAYING, with voice 7 at the end of its pattern. -/
def crewEnding (x : AreaState) : State :=
  withProgram 63 { state := .playing } ((sounding (.alarm .crewAlert) 1 (tuned 11 (granted (.snapPiece 0 0 0) running))).setAreas
    .crewAlert x [15])

theorem witness_ToneSegmentEnd_crew :
    ∀ x ∈ [AreaState.quiet, .sounding, .silenced], let s := crewEnding x
      let y := s.tones.voices.get 7
      y.mode = .sounding ∧ y.left = 0 ∧ y.copy.segments.length ≤ y.segment + 1 ∧ y.user = .alarm .crewAlert ∧
      ¬ (y.copy.cycles = 0 ∨ y.cycles + 1 < y.copy.cycles) ∧ y.copy.next = none ∧
      ((allFin 16).filter fun a => s.areaState .crewAlert a != .quiet) = if x = .quiet then [] else [15] := by
  decide +kernel

/-- R144 and R148: CREW_ALERT's pattern ends: QUIET in area 15, its note with cause pattern end. -/
theorem test_crewAlertEnd :
    let t := after (.toneSegmentEnd 7) (crewEnding .sounding)
    (t.notes.queue.map fun n => (n.kind, n.code, n.subject, n.detail)) = [(.alarmState, 0, 3, 0x28000)] := by
  decide +kernel

/-- Programs that have sources: 1 GATHERING, 2 CHIMING on voice 7, 3 on inlet 5, 4 on channel 15, the contact microphone on
inlet 9, MUSTER in TONE on voice 6, FIRE in VOICE on channel 14, and SECURITY without a phase. -/
def sourced : State :=
  let sound : Program := { state := .playing, kind := .alarm, source := .alarmSound }
  let s := ((withProgram 1 { state := .gathering, source := .inlet 5 } (withProgram 2 { state := .chiming, source := .inlet 5 }
    (withProgram 3 { state := .playing, source := .inlet 5 } (withProgram 4 { state := .ending, source := .stream }
    (withProgram 59 { state := .playing, kind := .contactMic, source := .inlet 9 } (withProgram 60 sound
    (withProgram 61 sound (withProgram 62 sound site)))))))).modAlarm .muster fun a => { a with phase := .tone }).modAlarm
      .fire fun a => { a with phase := .voice }
  (((s.modVoice 7 fun v => { v with user := .chime 2 }).modVoice 6 fun v => { v with user := .alarm .muster }).modChannel 15
    fun c => { c with owner := some (.program 4) }).modChannel 14 fun c => { c with owner := some (.program 61) }

theorem witness_MixPeriod_programs :
    (∀ p, (claimOf p 4 0 false true).owner = .program p) ∧ (sourced.programs.get 1).state = .gathering ∧
    (sourced.programs.get 2).state = .chiming ∧ sourced.voiceOf (.chime 2) = some 7 ∧
    ((sourced.programs.get 3).state = .playing ∧ (sourced.programs.get 3).source = .inlet 5) ∧
    ((sourced.programs.get 4).state = .ending ∧ (sourced.programs.get 4).source = .stream) ∧
    sourced.channelOf (.program 4) = some 15 ∧
    ((sourced.programs.get 59).state = .playing ∧ (sourced.programs.get 59).source = .inlet 9) ∧
    (∀ q ∈ [AlarmKind.muster, .fire, .security], (sourced.programs.get q.slot).state = .playing ∧
      (sourced.programs.get q.slot).source = .alarmSound ∧ (sourced.alarms.kinds.get q.idx).phase =
        match q with | .muster => .tone | .fire => .voice | _ => .unset) ∧
    sourced.voiceOf (.alarm .muster) = some 6 ∧ sourced.channelOf (.program 61) = some 14 := by
  refine ⟨?_, ?_, ?_, ?_, ?_, ?_, ?_, ?_, ?_, ?_, ?_⟩ <;> decide +kernel

/-- Section 4.2 and R64: the block of each of those programs, with voice 7, inlet 5, channel 15 and the rest told apart. -/
theorem test_programBlocks :
    let x : Sounds :=
      { inlets := Tab.ofFn fun i => [(i.val : Int)], channels := Tab.ofFn fun c => [1000 + (c.val : Int)]
        voices := Tab.ofFn fun v => [2000 + (v.val : Int)], buses := Tab.ofFn fun _ => [] }
    [1, 2, 3, 4, 59, 60, 61, 62].map (fun p => (sourced.claimBlock x (some (claimOf p 4 0 false true))).headD 0) =
      [0, 2007, 5, 1015, 9, 2006, 1014, 0] := by decide +kernel

end Sys2Proof.Tests
end

section
/-! PROOF. The structural checks of DEFINE_OUTLET (R22): when each field reader of the record answers nothing, and the
refusal that follows from any one of them. -/

open Sys2Proof Sys2Proof.Machine

namespace Sys2Proof.Machine

/-! ### The field readers of DEFINE_OUTLET -/

/-- The kinds of outlet are numbered 0 to 6 (R22 check 2). -/
theorem outletKindOf_eq_none_iff (n : Nat) : outletKindOf n = none ↔ 6 < n := by
  match n with
  | 0 | 1 | 2 | 3 | 4 | 5 | 6 => simp [outletKindOf]
  | m + 7 => exact iff_of_true rfl (by omega)

/-- A sense inlet field other than 0xFFFF fails where it names no inlet, or one that is not a SENSE_MIC
(R22 checks 4 and 5). -/
theorem State.senseOf_eq_none_iff (s : State) (n : Nat) :
    s.senseOf n = none ↔
      (n ≠ 0xFFFF ∧ 256 ≤ n) ∨ ∃ i : Fin 256, n = i.val ∧ s.inlets.get i ≠ .senseMic := by
  unfold State.senseOf
  by_cases unnamed : n = 0xFFFF
  · have noInlet (i : Fin 256) : 0xFFFF ≠ i.val := by omega
    simp [unnamed, noInlet]
  · rcases Nat.lt_or_ge n 256 with named | beyond
    · obtain ⟨i, rfl⟩ : ∃ i : Fin 256, n = i.val := ⟨⟨n, named⟩, rfl⟩
      simp [unnamed, Fin.val_inj]
    · simp [unnamed, beyond, toFin?_none beyond]

/-! ### The refusal -/

/-- One reader without an answer is enough: the record is refused BAD_FIELD, whatever the others read. -/
theorem State.defineOutletRecord_badField (s : State) (h : Hand)
    (bad : toFin? 256 (outletRec h.bytes).outlet = none ∨ outletKindOf (outletRec h.bytes).kind = none ∨
      toFin? 16 (outletRec h.bytes).area = none ∨ s.senseOf (outletRec h.bytes).sense = none) :
    s.defineOutletRecord h = s.reply .setup h stBadField false [] := by
  unfold State.defineOutletRecord
  dsimp only
  split
  · next outlet kind area sense => simp [outlet, kind, area, sense] at bad
  · rfl

/-- DEFINE_OUTLET with its record in hand: the Outlet Table's act, then the arbiter's. -/
theorem exec_defineOutlet_of {s : State} {h : Hand} {b : List (List Byte)}
    (inHand : (s.walker .setup).stage = .handOver h b) (kind : h.kind = 0x01) :
    exec .defineOutlet s = .next (s.defineOutletRecord h).arbitrate :=
  congrArg Host.Outcome.next (State.handOver_of _ inHand kind)

end Sys2Proof.Machine

/-- Settles O17: each failing check leaves its field reader without an answer. -/
theorem defineOutletStructure : Obligations.DefineOutletStructure := by
  unfold Obligations.DefineOutletStructure
  intro s h b r inHand kind fails
  rw [exec_defineOutlet_of inHand kind, s.defineOutletRecord_badField h]
  · rfl
  · rcases fails with outlet | kind | area | sense
    · exact .inl (toFin?_none outlet)
    · exact .inr (.inl ((outletKindOf_eq_none_iff _).mpr kind))
    · exact .inr (.inr (.inl (toFin?_none area)))
    · exact .inr (.inr (.inr ((s.senseOf_eq_none_iff _).mpr sense)))

end

section
/-! PROOF. The Claim Unit after power-on and after a soft reset (R60): what its cleared value says of every outlet and
area, and that the grant which follows a soft reset brings no report back. -/

open Sys2Proof Sys2Proof.Machine

namespace Sys2Proof.Machine

/-! ### The Claim Unit's cleared value -/

@[simp] theorem State.reset_stack (o : Fin 256) : State.reset.stack o = [] := Tab.get_replicate [] o

@[simp] theorem State.reset_floors (a : Fin 16) : State.reset.claims.floors.get a = 0 := Tab.get_replicate 0 a

@[simp] theorem State.reset_lines (o : Fin 256) : State.reset.claims.lines.get o = false := Tab.get_replicate false o

/-- The stacks are the Claim Unit's alone. -/
theorem State.stack_congr {s t : State} (claims : s.claims = t.claims) (o : Fin 256) : s.stack o = t.stack o :=
  congrArg (·.stack.get o) claims

/-- No claim holds, and none is the undertone, in an empty stack. -/
theorem State.holder_undertone_of_stack_nil {s : State} {o : Fin 256} (empty : s.stack o = []) :
    s.holder o = none ∧ s.undertone o = none := by
  simp [State.holder, State.undertone, holderIn, undertoneIn, empty]

/-! ### Arbitration and the note queue -/

/-- A grant takes at most the head note (R182). -/
theorem State.onGrant_queue_suffix (s : State) (t : Transfer) : (s.onGrant t).notes.queue <:+ s.notes.queue := by
  cases t with
  | noteWrite w => exact List.tail_suffix _
  | _ => exact List.suffix_rfl

/-- Arbitration adds no note. -/
theorem State.arbitrate_queue_suffix (s : State) : s.arbitrate.notes.queue <:+ s.notes.queue := by
  rcases s.arbitrate_cases with same | ⟨t, -, -, granted⟩
  · rw [same]
  · rw [granted]
    exact s.onGrant_queue_suffix t

/-! ### Soft reset -/

@[simp] theorem State.softReset_claims (s : State) : s.softReset.claims = State.reset.claims := rfl

@[simp] theorem State.softReset_queue (s : State) : s.softReset.notes.queue = [] := rfl

/-- SOFT_RESET: the block resets, then the arbiter's act. -/
theorem exec_softReset (s : State) : exec .softReset s = .next s.softReset.arbitrate := rfl

end Sys2Proof.Machine

/-- Settles O7: a soft reset clears the Claim Unit and the note queue, arbitration keeps the one and adds nothing to the
other, and no outlet with an empty stack has a holder. -/
theorem claimUnitReset : Obligations.ClaimUnitReset := by
  unfold Obligations.ClaimUnitReset
  refine ⟨State.reset_stack, State.reset_floors, State.reset_lines, rfl, fun s => ⟨_, exec_softReset s, ?_⟩⟩
  have claims : s.softReset.arbitrate.claims = State.reset.claims := by
    rw [State.arbitrate_claims, State.softReset_claims]
  have unreported : s.softReset.arbitrate.notes.queue = [] :=
    List.suffix_nil.mp s.softReset.arbitrate_queue_suffix
  exact ⟨claims, unreported, fun o =>
    State.holder_undertone_of_stack_nil ((State.stack_congr claims o).trans (State.reset_stack o))⟩

end

section
/-! PROOF. The undertone's target and current gain (R67, R70): the equations of the target, and its bound by the
foreground target that the same claim would have without an alarm floor and without compensation. -/

open Sys2Proof Sys2Proof.Machine

namespace Sys2Proof.Machine

/-! ### The current gain -/

@[simp] theorem mixStep_uc_none (out : Outlet) (factor : Nat) (holder : Option Latch) (m : MixEntry) :
    (mixStep out factor holder none m).uc = 0 := rfl

@[simp] theorem mixStep_uc_some (out : Outlet) (factor : Nat) (holder : Option Latch) (u : Latch) (m : MixEntry) :
    (mixStep out factor holder (some u) m).uc = stepGain out.rampStep
      (if m.ug = some u.id then m.uc else if m.fg = some u.id then m.gc else 0) (undertoneTarget out u) := rfl

/-! ### The ducked target -/

theorem duckedTarget_eq_zero {out : Outlet} (silent : out.duckDepth = 0) (g : Nat) : duckedTarget out g = 0 := by
  simp [duckedTarget, silent]

/-- A duck depth of 4096 is a factor of 1. -/
theorem duckedTarget_eq_base {out : Outlet} (unity : out.duckDepth = 4096) (g : Nat) :
    duckedTarget out g = min 65535 (baseGain out g) := by
  simp [duckedTarget, unity]

/-- A duck depth in its range does not raise a gain. -/
theorem duckedTarget_le_base {out : Outlet} (depth : out.duckDepth ≤ 4096) (g : Nat) :
    duckedTarget out g ≤ min 65535 (baseGain out g) := by
  have scaled : baseGain out g * out.duckDepth / 4096 ≤ baseGain out g :=
    Nat.div_le_of_le_mul (by rw [Nat.mul_comm 4096]; exact Nat.mul_le_mul_left _ depth)
  exact min_le_min_left _ scaled

/-! ### The targets -/

theorem undertoneTarget_of_ending (out : Outlet) {u : Latch} (ending : u.ending = true) : undertoneTarget out u = 0 :=
  if_pos ending

theorem undertoneTarget_of_not_ending (out : Outlet) {u : Latch} (lasts : u.ending = false) :
    undertoneTarget out u = duckedTarget out u.gain := by
  simp [undertoneTarget, lasts]

/-- An undertone is at most ducked: ENDING or not, it does not exceed the ducked target. -/
theorem undertoneTarget_le_ducked (out : Outlet) (u : Latch) : undertoneTarget out u ≤ duckedTarget out u.gain := by
  cases ending : u.ending with
  | true => rw [undertoneTarget_of_ending out ending]; exact Nat.zero_le _
  | false => rw [undertoneTarget_of_not_ending out ending]

/-- The foreground target without duck hold, compensation and alarm floor (R66). -/
theorem foregroundTarget_plain {out : Outlet} {h : Latch} (factor : Nat) (lasts : h.ending = false)
    (uncompensated : out.compEnable = false) (noAlarm : h.alarm = false) :
    foregroundTarget out factor false h = min 65535 (baseGain out h.gain) := by
  simp [foregroundTarget, lasts, uncompensated, noAlarm]

end Sys2Proof.Machine

/-- Settles O35: the bounds are those of the ducked target, which an ENDING undertone stays below with 0. -/
theorem undertoneTarget : Obligations.UndertoneTarget := by
  unfold Obligations.UndertoneTarget
  refine ⟨fun out factor holder m =>
      ⟨mixStep_uc_none out factor holder m, fun u => mixStep_uc_some out factor holder u m⟩,
    fun out u => ⟨undertoneTarget_of_ending out, undertoneTarget_of_not_ending out, ?_, ?_, ?_, ?_⟩⟩
  · intro factor depth uncompensated noAlarm
    cases ending : u.ending with
    | true => rw [undertoneTarget_of_ending out ending]; exact Nat.zero_le _
    | false =>
      rw [undertoneTarget_of_not_ending out ending, foregroundTarget_plain factor ending uncompensated noAlarm]
      exact duckedTarget_le_base depth u.gain
  · exact fun depth => (undertoneTarget_le_ducked out u).trans (duckedTarget_le_base depth u.gain)
  · exact fun silent => Nat.le_zero.mp <|
      (undertoneTarget_le_ducked out u).trans_eq (duckedTarget_eq_zero silent u.gain)
  · exact fun unity lasts => (undertoneTarget_of_not_ending out lasts).trans (duckedTarget_eq_base unity u.gain)

end

section
/-! PROOF. The clip counts (R75). What an outlet's mixer entry holds besides the numbers of its claims, its two current
gains and its clip count, is written by the mix itself, by a snapshot piece and by a soft reset; every act around the
mix of a period start keeps it. -/

open Sys2Proof Sys2Proof.Machine

namespace Sys2Proof.Machine

/-! ### The levels of the outlets -/

/-- The current gains and the clip count: what a renumbering of the claims leaves of a mixer entry. -/
def MixEntry.levels (m : MixEntry) : Nat × Nat × Nat := (m.gc, m.uc, m.clips)

/-- The levels of every outlet. -/
def State.levels (s : State) (o : Fin 256) : Nat × Nat × Nat := (s.mixer.get o).levels

theorem State.levels_apply (s : State) (o : Fin 256) : s.levels o = (s.mixer.get o).levels := rfl

/-- The levels are the Mixer's alone. -/
theorem State.levels_congr {s t : State} (same : t.mixer = s.mixer) : t.levels = s.levels := by
  unfold State.levels
  rw [same]

theorem MixEntry.clips_of_levels {m n : MixEntry} (same : m.levels = n.levels) : m.clips = n.clips :=
  congrArg (·.2.2) same

theorem State.clips_of_levels {s t : State} (same : t.levels = s.levels) (o : Fin 256) :
    (t.mixer.get o).clips = (s.mixer.get o).clips :=
  MixEntry.clips_of_levels (congrFun same o)

/-- An internal act keeps the levels. -/
theorem Acts.levels {s t : State} (act : Acts s t) : t.levels = s.levels := by
  funext o
  obtain ⟨gc, uc, clips⟩ := act.gains o
  simp only [State.levels, MixEntry.levels, gc, uc, clips]

theorem State.forAll_levels {α : Type} {f : α → State → State} (each : ∀ x s, (f x s).levels = s.levels)
    (xs : List α) (s : State) : (s.forAll xs f).levels = s.levels := by
  unfold State.forAll
  induction xs generalizing s with
  | nil => rfl
  | cons x xs ih => exact (ih (f x s)).trans (each x s)

@[simp] theorem State.setCause_levels (s : State) (b : CauseBit) : (s.setCause b).levels = s.levels := rfl

@[simp] theorem State.emitNote_levels (s : State) (k : NoteKind) (c n d : Nat) :
    (s.emitNote k c n d).levels = s.levels :=
  State.levels_congr (State.emitNote_mixer s k c n d)

@[simp] theorem State.requestReturn_levels (s : State) (l : ListId) (r : Return) :
    (s.requestReturn l r).levels = s.levels :=
  (State.requestReturn_quiet (Quiet.refl s) l r).levels

@[simp] theorem State.endProgram_levels (s : State) (p : Fin 64) (code : Nat) :
    (s.endProgram p code).levels = s.levels :=
  (State.endProgram_quiet (Quiet.refl s) p code).levels

/-! ### Windows of the Ambient Unit -/

@[simp] theorem State.setAmbient_levels (s : State) (a : Ambient) :
    ({ s with ambient := a } : State).levels = s.levels := rfl

@[simp] theorem State.modAmbient_levels (s : State) (o : Fin 256) (f : AmbientEntry → AmbientEntry) :
    (s.modAmbient o f).levels = s.levels :=
  State.levels_congr (State.modAmbient_mixer s o f)

@[simp] theorem State.recomputeC_levels (s : State) (o : Fin 256) : (s.recomputeC o).levels = s.levels :=
  s.modAmbient_levels o _

@[simp] theorem State.completeCapture_levels (s : State) (o : Fin 256) : (s.completeCapture o).levels = s.levels := by
  unfold State.completeCapture
  dsimp only
  split
  · rfl
  · exact State.requestReturn_levels _ _ _

theorem State.windowAt_levels (o : Fin 256) (s : State) : (s.windowAt o).levels = s.levels := by
  unfold State.windowAt
  dsimp only
  rw [State.modAmbient_levels]
  split
  · rfl
  · split
    · exact s.modAmbient_levels o _
    · split
      · rfl
      · split
        · rw [State.completeCapture_levels, State.recomputeC_levels, State.modAmbient_levels]
        · rw [State.recomputeC_levels, State.modAmbient_levels]

@[simp] theorem State.windowComplete_levels (s : State) : s.windowComplete.levels = s.levels := by
  unfold State.windowComplete
  split
  · dsimp only
    rw [State.setAmbient_levels, State.forAll_levels State.windowAt_levels]
  · rfl

/-! ### Trunks and changeovers -/

@[simp] theorem State.failChangeover_levels (s : State) (x : Fin 8) (reason : Nat) :
    (s.failChangeover x reason).levels = s.levels :=
  State.emitNote_levels _ _ _ _ _

theorem State.changeoverTrunkDown_levels (x : Fin 8) (s : State) : (s.changeoverTrunkDown x).levels = s.levels := by
  unfold State.changeoverTrunkDown
  split
  · exact s.failChangeover_levels x 2
  · rfl
  · rfl
  · rfl

theorem State.stationLost_levels (n : Fin 64) (s : State) : (s.stationLost n).levels = s.levels :=
  (State.stationLost_acts (Acts.refl s) n).levels

@[simp] theorem State.leaveUp_levels (s : State) (k : Fin 4) : (s.leaveUp k).levels = s.levels := by
  have loops (o : Fin 256) (t : State) : (State.setLoopState o (t.modLoop o fun x =>
      { x with capture := x.capture.map fun c => { c with count := 0, sum := 0 } })).levels = t.levels := rfl
  unfold State.leaveUp
  dsimp only
  rw [State.setCause_levels, State.emitNote_levels, State.forAll_levels State.changeoverTrunkDown_levels,
    State.forAll_levels loops, State.forAll_levels State.stationLost_levels]
  rfl

theorem State.syncExpired_levels (k : Fin 4) (s : State) : (s.syncExpired k).levels = s.levels := by
  unfold State.syncExpired
  dsimp only
  split
  · exact s.leaveUp_levels k
  · rfl

theorem State.answerExpired_levels (k : Fin 4) (s : State) : (s.answerExpired k).levels = s.levels := by
  unfold State.answerExpired
  dsimp only
  split <;> rfl

theorem State.pendingExpired_levels (x : Fin 8) (s : State) : (s.pendingExpired x).levels = s.levels := by
  unfold State.pendingExpired
  dsimp only
  split
  · exact s.failChangeover_levels x 1
  · rfl

theorem State.releaseExpired_levels (x : Fin 8) (s : State) : (s.releaseExpired x).levels = s.levels := by
  unfold State.releaseExpired
  dsimp only
  split
  · exact State.emitNote_levels _ _ _ _ _
  · rfl

theorem State.trainTrunk_levels (k : Fin 4) (s : State) : (s.trainTrunk k).levels = s.levels := by
  unfold State.trainTrunk
  split <;> rfl

/-! ### FALLBACK and the work lists -/

/-- The programs that FALLBACK ends, one after another. -/
@[simp] theorem State.shed_levels (s : State) : s.shed.2.levels = s.levels := by
  unfold State.shed
  refine List.foldlRecOn (allFin 64) _ (motive := fun acc : Nat × State => acc.2.levels = s.levels) rfl
    fun acc kept p _ => ?_
  split
  · exact (State.endProgram_levels acc.2 p stAbandoned).trans kept
  · exact kept

@[simp] theorem State.enterFallback_levels (s : State) : s.enterFallback.levels = s.levels := by
  unfold State.enterFallback
  dsimp only
  rw [State.emitNote_levels, State.setCause_levels, (State.startMic_quiet (Quiet.refl _)).levels, State.shed_levels,
    (State.clearShow_quiet (Quiet.refl _) 1).levels]
  rfl

@[simp] theorem State.beatExpired_levels (s : State) : s.beatExpired.levels = s.levels := by
  unfold State.beatExpired
  split
  · exact s.enterFallback_levels
  · rfl

@[simp] theorem State.requestWalk_mixer (s : State) (l : ListId) : (s.requestWalk l).mixer = s.mixer := by
  unfold State.requestWalk State.startWalk
  dsimp only
  split
  · rfl
  · split
    · split <;> rfl
    · rfl

theorem State.scanExpired_levels (l : ListId) (s : State) : (s.scanExpired l).levels = s.levels := by
  unfold State.scanExpired
  split
  · exact State.levels_congr (State.requestWalk_mixer _ l)
  · rfl

/-! ### Up to the latch -/

theorem State.segmentEnd_levels (v : Fin 8) (s : State) : (s.segmentEnd v).levels = s.levels :=
  (State.segmentEnd_acts (Acts.refl s) v).levels

theorem State.holdExpired_levels (n : Fin 64) (s : State) : (s.holdExpired n).levels = s.levels :=
  (State.holdExpired_acts (Acts.refl s) n).levels

theorem State.ringsExpired_levels (c : Fin 16) (s : State) : (s.ringsExpired c).levels = s.levels :=
  State.forAll_levels (fun i t => (State.ringExpired_acts (Acts.refl t) c i).levels) (allFin 8) s

theorem State.gatherDue_levels (p : Fin 64) (s : State) : (s.gatherDue p).levels = s.levels :=
  (State.gatherDue_acts (Acts.refl s) p).levels

theorem State.durationExpired_levels (p : Fin 64) (s : State) : (s.durationExpired p).levels = s.levels :=
  (State.durationExpired_acts (Acts.refl s) p).levels

@[simp] theorem State.settleDue_levels (s : State) : s.settleDue.levels = s.levels := by
  unfold State.settleDue
  dsimp only
  rw [State.forAll_levels State.scanExpired_levels, State.beatExpired_levels,
    State.forAll_levels State.durationExpired_levels, State.forAll_levels State.gatherDue_levels,
    State.forAll_levels State.ringsExpired_levels, State.forAll_levels State.holdExpired_levels,
    State.forAll_levels State.releaseExpired_levels, State.forAll_levels State.pendingExpired_levels,
    State.forAll_levels State.answerExpired_levels, State.forAll_levels State.syncExpired_levels,
    State.windowComplete_levels, State.forAll_levels State.segmentEnd_levels]

@[simp] theorem State.stepTimers_levels (s : State) : s.stepTimers.levels = s.levels := rfl

theorem State.freeCleared_levels (c : Fin 16) (s : State) : (s.freeCleared c).levels = s.levels := by
  unfold State.freeCleared
  split
  · exact (State.freeCall_acts (Acts.refl s) c).levels
  · rfl

@[simp] theorem State.showStep_levels (s : State) : s.showStep.levels = s.levels :=
  (State.showStep_quiet (Quiet.refl s)).levels

theorem State.startVoice_levels (v : Fin 8) (s : State) : (s.startVoice v).levels = s.levels :=
  (State.startVoice_quiet (Quiet.refl s) v).levels

/-- Nothing that a period start does ahead of the latch touches a gain or a clip count. -/
@[simp] theorem State.beforeLatch_levels (s : State) : s.beforeLatch.levels = s.levels := by
  unfold State.beforeLatch
  dsimp only
  rw [State.forAll_levels State.startVoice_levels, State.showStep_levels, State.forAll_levels State.freeCleared_levels,
    State.forAll_levels State.trainTrunk_levels, State.stepTimers_levels, State.settleDue_levels]

/-! ### Behind the mix -/

theorem State.channelStarves_levels (s : State) (c : Fin 16) : (s.channelStarves c).levels = s.levels := by
  unfold State.channelStarves
  dsimp only
  split
  · rw [(State.endVoicePhase_quiet (State.releaseChannel_quiet (Quiet.refl _) _) _).levels, State.emitNote_levels]
  · exact State.emitNote_levels _ _ _ _ _

theorem State.channelCompletes_levels (s : State) (c : Fin 16) : (s.channelCompletes c).levels = s.levels := by
  unfold State.channelCompletes
  dsimp only
  split
  · exact (State.endVoicePhase_quiet (State.reloadAlarm_quiet (Quiet.refl s) c) _).levels
  · split
    · exact (State.streamComplete_acts (State.enterEnded_quiet (Quiet.refl s) c).toActs _).levels
    · exact (State.enterEnded_quiet (Quiet.refl s) c).levels
    · rfl

theorem State.channelEvent_levels (gave : Tab 16 ChanEvent) (c : Fin 16) (s : State) :
    (s.channelEvent gave c).levels = s.levels := by
  unfold State.channelEvent
  split
  · rfl
  · split
    · exact s.channelStarves_levels c
    · rfl
  · split
    · exact s.channelCompletes_levels c
    · rfl

/-- Nothing that follows from the computed period touches a gain or a clip count. -/
@[simp] theorem State.afterMix_levels (s : State) (gave : Tab 16 ChanEvent) (faded : List (Fin 64)) :
    (s.afterMix gave faded).levels = s.levels := by
  unfold State.afterMix
  dsimp only
  rw [State.forAll_levels]
  · exact State.forAll_levels (State.channelEvent_levels gave) (allFin 16) s
  · intro p t
    split
    · exact t.endProgram_levels p stStopped
    · rfl

@[simp] theorem State.beginWindow_mixer (s : State) : s.beginWindow.mixer = s.mixer := by
  unfold State.beginWindow
  split <;> rfl

@[simp] theorem State.ambientStep_mixer (s : State) (x : Sounds) : (s.ambientStep x).mixer = s.mixer := rfl

/-! ### The mix -/

/-- What every source gives in the period that a state, as latched, mixes. -/
def State.periodSounds (s : State) (audio : List (List Sample)) : Sounds :=
  s.sounds audio ((s.channels.map Channel.give).map Prod.fst) ((s.tones.voices.map Voice.give).map Prod.fst)

/-- The levels after a period are those that the mix of each outlet computed. -/
theorem State.mixPeriod_levels (s : State) (audio : List (List Sample)) (o : Fin 256) :
    ((s.mixPeriod audio).mixer.get o).levels = (s.mixOutlet (s.periodSounds audio) o).1.levels := by
  unfold State.mixPeriod
  dsimp only
  rw [← State.levels_apply, State.afterMix_levels, State.levels_apply, State.ambientStep_mixer,
    State.beginWindow_mixer, Tab.get_map, Tab.get_ofFn]
  rfl

theorem exec_mixPeriodStart (s : State) (audio : List (List Sample)) :
    exec (.mixPeriodStart audio) s = .next (s.beforeLatch.mixPeriod audio).arbitrate := rfl

/-- A sample moved by the saturation is one outside the sample range. -/
theorem sat24_bne_self (q : Int) : (sat24 q != q) = decide (q < -8388608 ∨ 8388607 < q) := by
  rw [Bool.eq_iff_iff, bne_iff_ne, decide_eq_true_iff, sat24]
  omega

theorem clipped_eq (xs : List Int) :
    clipped xs = (xs.filter fun q => decide (q < -8388608 ∨ 8388607 < q)).length := by
  simp only [clipped, sat24_bne_self]

/-- The quotients of an outlet depend on its entry's current gains alone. -/
theorem State.outletQuotients_congr (s : State) (x : Sounds) {m n : MixEntry} (same : m.levels = n.levels)
    (o : Fin 256) : s.outletQuotients x m o = s.outletQuotients x n o := by
  obtain ⟨gc, uc, -⟩ : m.gc = n.gc ∧ m.uc = n.uc ∧ m.clips = n.clips := by simpa [MixEntry.levels] using same
  unfold State.outletQuotients
  rw [gc, uc]

/-- The mix of an outlet counts the quotients formed with the gains that it leaves. -/
theorem State.mixOutlet_clips (s : State) (x : Sounds) (o : Fin 256) :
    (s.mixOutlet x o).1.clips =
      min 65535 ((s.mixer.get o).clips + clipped (s.outletQuotients x (s.mixOutlet x o).1 o)) := rfl

/-- After a period the clip count has grown by the quotients, formed with the period's gains, that saturation moves. -/
theorem State.mixPeriod_clips (s : State) (audio : List (List Sample)) (o : Fin 256) :
    ((s.beforeLatch.mixPeriod audio).mixer.get o).clips = min 65535 ((s.mixer.get o).clips +
      clipped (s.beforeLatch.outletQuotients (s.beforeLatch.periodSounds audio)
        ((s.beforeLatch.mixPeriod audio).mixer.get o) o)) := by
  have mixed := s.beforeLatch.mixPeriod_levels audio o
  rw [s.beforeLatch.outletQuotients_congr _ mixed o, MixEntry.clips_of_levels mixed, State.mixOutlet_clips,
    State.clips_of_levels s.beforeLatch_levels]

/-! ### A snapshot piece -/

theorem State.snapNext_levels (s : State) : s.snapNext.levels = s.levels := by
  unfold State.snapNext
  split
  · rfl
  · dsimp only
    split
    · exact State.requestReturn_levels _ _ _
    · rfl

theorem State.pieceOf_outlet (s : State) (o : Fin 256) :
    s.pieceOf 0 o.val = (s.outletEntry o, { s with mixer := s.mixer.modify o fun m => { m with clips := 0 } }) := by
  simp only [State.pieceOf, toFin?_val]

/-- The piece of an outlet, written and not discarded. -/
theorem State.snapPiece_of {s : State} {table entry addr : Nat}
    (granted : s.port.grant = some ⟨.snapPiece table entry addr, false⟩) :
    s.snapPiece = (State.snapNext { (s.pieceOf table entry).2 with
      port := { grant := none, written := some { addr, pieces := [(0, (s.pieceOf table entry).1)] } } }).arbitrate := by
  unfold State.snapPiece
  rw [granted]
  rfl

theorem exec_snapshotPiece (s : State) : exec .snapshotPiece s = .next s.snapPiece := rfl

theorem State.snapPiece_clips {s : State} {o : Fin 256} {addr : Nat}
    (granted : s.port.grant = some ⟨.snapPiece 0 o.val addr, false⟩) : (s.snapPiece.mixer.get o).clips = 0 := by
  rw [State.snapPiece_of granted, State.arbitrate_mixer, State.clips_of_levels (State.snapNext_levels _),
    State.pieceOf_outlet]
  dsimp only
  rw [Tab.get_modify_self]

/-! ### Power-on and soft reset -/

theorem State.reset_clips (o : Fin 256) : (State.reset.mixer.get o).clips = 0 :=
  congrArg MixEntry.clips (Tab.get_replicate ({} : MixEntry) o)

theorem State.softReset_clips (s : State) (o : Fin 256) :
    (s.softReset.mixer.get o).clips = (s.mixer.get o).clips := by
  have kept : s.softReset.mixer.get o = (s.mixer.get o).reset := Tab.get_map s.mixer MixEntry.reset o
  rw [kept]
  rfl

end Sys2Proof.Machine

/-- Settles O37: around the mix of a period start every act keeps the levels, so the count grows by what the mix
counts. -/
theorem clipCount : Obligations.ClipCount := by
  unfold Obligations.ClipCount
  refine ⟨fun s audio => ⟨_, exec_mixPeriodStart s audio, fun o => ?_⟩,
    fun s o addr granted => ⟨_, exec_snapshotPiece s, State.snapPiece_clips granted⟩, State.reset_clips,
    fun s => ⟨_, exec_softReset s, fun o => ?_⟩⟩
  · rw [State.arbitrate_mixer, ← clipped_eq]
    exact s.mixPeriod_clips audio o
  · rw [State.arbitrate_mixer, State.softReset_clips]

end

section
/-! PROOF. The queue of commands, and what every command keeps (R181, R3, R51, R75, R85): one lemma for `exec`, from the
lemma of each command's meaning in Laws/Keeps.lean. -/

open Sys2Proof Sys2Proof.Machine

namespace Sys2Proof.Machine

/-! ### Every command answers a next state and keeps the bounds and the queue -/

/-- A command's outcome is a next state that keeps what every step keeps. -/
def Answers (s : State) (x : Host.Outcome State Fault Refusal) : Prop := ∃ t, x = .next t ∧ Keeps s t

/-- A meaning that keeps the bounds answers with its state. -/
theorem Answers.next {s t : State} (kept : Keeps s t) : Answers s (.next t) := ⟨t, rfl, kept⟩

/-- The grant that follows an act keeps what the act keeps. -/
theorem Answers.granted {s t : State} (kept : Keeps s t) : Answers s (.next t.arbitrate) :=
  .next (State.arbitrate_keeps kept)

/-- A hand-over keeps what the meaning of its record keeps. -/
theorem Answers.handed {s : State} {l : ListId} {kind : Nat} {f : Hand → List (List Byte) → State → State}
    (kept : ∀ h b t, Keeps s t → Keeps s (f h b t)) : Answers s (.next (s.handOver l kind f)) :=
  .next (State.handOver_keeps (Keeps.refl s) l kind f kept)

/-- A completion keeps what its effect keeps. -/
theorem Answers.completed {s : State} {mine : Transfer → Bool} {f : Transfer → State → State}
    (kept : ∀ x t, Keeps s t → Keeps s (f x t)) : Answers s (.next (s.complete mine f)) :=
  .next (State.complete_keeps (Keeps.refl s) mine f kept)

theorem exec_answers (c : Instr) (s : State) : Answers s (exec c s) := by
  have same : Keeps s s := Keeps.refl s
  cases c with
  | powerOn => exact .next (State.powerOn_keeps same)
  | softReset => exact .granted (State.softReset_keeps same)
  | runStart => exact .granted (State.runStart_keeps same)
  | runStop => exact .granted (State.runStop_keeps same)
  | registerWrite offset value => exact .next (State.registerWrite_keeps same offset value)
  | nudge value => exact .granted (State.nudge_keeps same value)
  | beat value => exact .granted (State.beatWrite_keeps same)
  | cmaskWrite value => exact .next (State.setMask_keeps same value)
  | causeRead => exact .next (State.readCause_keeps same)
  | rootBlockRead data => exact .completed fun _ _ kept => State.rootArrives_keeps kept data
  | scanTimerExpiry l => exact .granted (State.scanExpired_keeps same l)
  | recordRead l data => exact .completed fun _ _ kept => State.recordArrives_keeps kept l data
  | linkRead l link => exact .completed fun _ _ kept => State.linkArrives_keeps kept l link.toNat
  | blockRead l data => exact .completed fun _ _ kept => State.blockArrives_keeps kept l data
  | takenWrite l => exact .completed fun _ _ kept => State.takenDone_keeps kept l
  | returnWrite l => exact .completed fun x _ kept => State.returnCompletes_keeps kept l x
  | defineOutlet => exact .handed fun h _ _ kept => State.defineOutletRecord_keeps kept h
  | defineInlet => exact .handed fun h _ _ kept => State.defineInletRecord_keeps kept h
  | defineStation => exact .handed fun h _ _ kept => State.defineStationRecord_keeps kept h
  | definePattern => exact .handed fun h b _ kept => State.definePatternRecord_keeps kept h b
  | defineAlarm => exact .handed fun h _ _ kept => State.defineAlarmRecord_keeps kept h
  | calibrate => exact .handed fun h _ _ kept => State.calibrateRecord_keeps kept h
  | releaseChangeover => exact .handed fun h _ _ kept => State.releaseRecord_keeps kept h
  | snapshot => exact .handed fun h _ _ kept => State.snapshotRecord_keeps kept h
  | snapshotPiece => exact .next (State.snapPiece_keeps same)
  | startProgram => exact .handed fun h b _ kept => State.startRecord_keeps kept h b
  | stopProgram => exact .handed fun h _ _ kept => State.stopRecord_keeps kept h
  | setProgramGain => exact .handed fun h _ _ kept => State.gainRecord_keeps kept h
  | openCall => exact .handed fun h b _ kept => State.openRecord_keeps kept h b
  | addParty => exact .handed fun h _ _ kept => State.addRecord_keeps kept h
  | dropParty => exact .handed fun h _ _ kept => State.dropRecord_keeps kept h
  | closeCall => exact .handed fun h _ _ kept => State.closeRecord_keeps kept h
  | raiseAlarm => exact .handed fun h _ _ kept => State.raiseRecord_keeps kept h
  | silenceAlarm => exact .handed fun h _ _ kept => State.silenceRecord_keeps kept h
  | resetAlarm => exact .handed fun h _ _ kept => State.resetRecord_keeps kept h
  | cue => exact .handed fun h b _ kept => State.cueRecord_keeps kept h b
  | go => exact .handed fun h _ _ kept => State.goRecord_keeps kept h
  | holdShow => exact .handed fun h _ _ kept => State.reply_keeps (State.holdShow_keeps kept) _ h _ _ _
  | resumeShow => exact .handed fun h _ _ kept => State.resumeRecord_keeps kept h
  | clearShow => exact .handed fun h _ _ kept => State.reply_keeps (State.clearShow_keeps kept 0) _ h _ _ _
  | bindSource => exact .handed fun h _ _ kept => State.bindRecord_keeps kept h
  | noteSpace => exact .handed fun h _ _ kept => State.noteSpace_keeps kept h
  | noteWrite => exact .completed fun _ _ kept => State.noteDone_keeps kept
  | mixPeriodStart audio => exact .granted (State.mixPeriod_keeps (State.beforeLatch_keeps same) audio)
  | answerTimerExpiry k => exact .next (State.answerExpired_keeps same k)
  | abilityBlock k b => exact .granted (State.abilityArrives_keeps same k b)
  | syncHoldExpiry k => exact .granted (State.syncExpired_keeps same k)
  | inboundControlBlock k b => exact .granted (State.inbound_keeps same k b)
  | changeoverPendingExpiry x => exact .granted (State.pendingExpired_keeps same x)
  | changeoverReleaseExpiry x => exact .granted (State.releaseExpired_keeps same x)
  | holdTimerExpiry n => exact .granted (State.holdExpired_keeps same n)
  | ringTimerExpiry c p => exact .granted (State.ringExpired_keeps same c p)
  | gatherTimerExpiry p => exact .granted (State.gatherDue_keeps same p)
  | durationTimerExpiry p => exact .granted (State.durationExpired_keeps same p)
  | duckHoldExpiry o => exact .next (State.duckExpired_keeps same o)
  | ambientWindowComplete => exact .granted (State.windowComplete_keeps same)
  | fragmentRead c data => exact .next (State.channelCompletion_keeps same c _ data)
  | fetchBurst c data => exact .next (State.channelCompletion_keeps same c _ data)
  | fragmentWriteBack c => exact .next (State.channelCompletion_keeps same c _ [])
  | returnWalkRead c data => exact .next (State.channelCompletion_keeps same c _ data)
  | toneSegmentEnd v => exact .granted (State.segmentEnd_keeps same v)
  | acceptedClosure line =>
    refine .next ?_
    split
    · exact State.arbitrate_keeps (State.acceptClosure_keeps same line)
    · exact same
  | acceptedOpening line =>
    refine .next ?_
    split
    · exact State.arbitrate_keeps (State.acceptOpening_keeps same line)
    · exact same
  | fadeComplete => exact .granted (State.fadeTaken_keeps same)
  | followTimerExpiry => exact .granted (State.followTaken_keeps same)
  | beatCounterExpiry => exact .granted (State.beatExpired_keeps same)
  | contactLineSample line closed => exact .granted (State.sampleContact_keeps same line closed)

/-! ### The step -/

/-- The front command acts on the state with the queue's rest. -/
theorem step_of_cons {s : State} {c : Instr} {cs : List Instr} (front : s.pending = c :: cs) :
    step s = exec c { s with pending := cs } := by
  simp [step, front]

/-- With an empty queue the part idles. -/
theorem step_of_nil {s : State} (empty : s.pending = []) : step s = .next s := by
  simp [step, empty]

/-- The bounds do not speak of the queue. -/
theorem State.Bounded.withPending {s : State} (bounded : s.Bounded) (cs : List Instr) :
    State.Bounded { s with pending := cs } :=
  ⟨bounded.notes, bounded.root, bounded.depths, bounded.clips, bounded.gated, bounded.shows⟩

theorem step_bounded {s t : State} (bounded : s.Bounded) (stepped : step s = .next t) : t.Bounded := by
  cases queue : s.pending with
  | nil =>
    rw [step_of_nil queue] at stepped
    exact Host.Outcome.next.inj stepped ▸ bounded
  | cons c cs =>
    rw [step_of_cons queue] at stepped
    obtain ⟨u, answered, kept⟩ := exec_answers c { s with pending := cs }
    rw [answered] at stepped
    exact Host.Outcome.next.inj stepped ▸ kept.bounded (bounded.withPending cs)

/-! ### Power-on -/

theorem State.reset_bounded : State.reset.Bounded where
  notes := ⟨Nat.zero_le _, Nat.zero_le _⟩
  root := by unfold Regs.aligned; rfl
  depths := fun o => by rw [State.reset_stack]; exact Nat.zero_le _
  clips := fun o => by rw [State.reset_clips]; exact Nat.zero_le _
  gated := fun o => by
    have fresh : State.reset.ambient.outlets.get o = {} := Tab.get_replicate _ o
    rw [fresh]
    exact Nat.zero_le _
  shows := Yielding.empty

end Sys2Proof.Machine

/-- Settles O4: the lemma of each command's meaning, met at the front of the queue. -/
theorem stepKeepsBounded : Obligations.StepKeepsBounded := by
  unfold Obligations.StepKeepsBounded
  exact fun _ _ => step_bounded

/-- Settles O1. -/
theorem stepRunsFrontCommand : Obligations.StepRunsFrontCommand := by
  unfold Obligations.StepRunsFrontCommand
  exact ⟨fun _ _ _ => step_of_cons, fun _ => step_of_nil⟩

/-- Settles O2. -/
theorem everyCommandAnswers : Obligations.EveryCommandAnswers := by
  unfold Obligations.EveryCommandAnswers
  intro c s
  obtain ⟨t, answered, kept⟩ := exec_answers c s
  exact ⟨t, answered, kept.pending⟩

/-- Settles O3. -/
theorem resetBounded : Obligations.ResetBounded := by
  unfold Obligations.ResetBounded
  exact State.reset_bounded

end

section
/-! PROOF. The state after power-on and after a soft reset, block by block. -/

open Sys2Proof Sys2Proof.Machine

namespace Sys2Proof.Machine

theorem State.reset_stat : State.reset.stat = 0 := by decide

/-- Every register reads 0 after power-on: those that hold 0, STAT with nothing to show, and what names no register. -/
theorem State.reset_readRegister (offset : Nat) : State.reset.readRegister offset = 0 := by
  have regs : State.reset.regs = {} := rfl
  have stopped : State.reset.beatRunning = false := rfl
  simp [State.readRegister, State.reset_stat, regs, stopped]

theorem State.reset_walker (l : ListId) : State.reset.walker l = {} := Tab.get_replicate _ l.idx

theorem State.reset_areaState (k : AlarmKind) (a : Fin 16) : State.reset.areaState k a = .quiet := by
  have row : State.reset.alarms.table.get k.idx = Tab.replicate 16 .quiet := Tab.get_replicate _ k.idx
  unfold State.areaState
  rw [row, Tab.get_replicate]

theorem State.reset_patternDefined (p : Fin 12) : State.reset.patternDefined p = false := by
  have fresh : State.reset.tones.patterns.get p = {} := Tab.get_replicate _ p
  unfold State.patternDefined
  rw [fresh]
  rfl

end Sys2Proof.Machine

/-- Settles O5: each table stands at its power-on value throughout. -/
theorem powerOnValues : Obligations.PowerOnValues := by
  unfold Obligations.PowerOnValues
  refine ⟨State.reset_readRegister, rfl, rfl, fun l => ?_, rfl, rfl, Tab.get_replicate _, Tab.get_replicate _,
    fun n => ?_, fun p => ?_, Tab.get_replicate _, rfl, fun o => ?_, fun c => ?_, fun c => ?_, fun v => ?_,
    State.reset_patternDefined, State.reset_areaState, fun k => Tab.get_replicate _ k.idx, fun line => ?_, rfl,
    Tab.get_replicate _, Tab.get_replicate _, fun k => ?_, fun o => ?_, fun x => ?_, rfl, fun s => rfl⟩
  · rw [State.reset_walker]
    exact ⟨rfl, rfl, rfl, rfl⟩
  all_goals simp [State.reset]

end

section
/-! PROOF. SOFT_RESET block by block (R187): the block resets, and the arbiter's act after them, which finds no request
waiting in any of them. -/

open Sys2Proof Sys2Proof.Machine

namespace Sys2Proof.Machine

/-! ### Nothing waits after a soft reset -/

@[simp] theorem State.softReset_walker (s : State) (l : ListId) : s.softReset.walker l = {} := Tab.get_replicate _ l.idx

@[simp] theorem State.softReset_channel (s : State) (c : Fin 16) : s.softReset.channels.get c = {} :=
  Tab.get_replicate _ c

@[simp] theorem State.softReset_returns (s : State) (l : ListId) : s.softReset.lists.returns.get l.idx = [] :=
  Tab.get_replicate _ l.idx

theorem State.softReset_request (s : State) : s.softReset.firstRequest = none := by
  have walker (l : ListId) : s.softReset.walkerRequest l = none := by simp [State.walkerRequest]
  have returned (l : ListId) : s.softReset.returnRequest l = none := by simp [State.returnRequest]
  have channel (c : Fin 16) : s.softReset.channelRequest c = none := by simp [State.channelRequest, Channel.due]
  have plain : s.softReset.plainFetch = none := by simp [State.plainFetch, channel]
  have root : s.softReset.rootRequest = none := rfl
  have note : s.softReset.noteRequest = none := rfl
  have snap : s.softReset.snapRequest = none := rfl
  simp [State.firstRequest, State.alarmFetches, walker, returned, plain, root, note, snap]

/-- The arbiter finds nothing to grant after a soft reset. -/
theorem State.softReset_arbitrate (s : State) : s.softReset.arbitrate = s.softReset :=
  State.arbitrate_idle s.softReset_request

/-! ### The blocks -/

/-- A pending copy, where there is one, replaces the stored definition. -/
theorem Pattern.settle_unowed (q : Pattern) :
    ({ q with owing := [] } : Pattern).settle = { stored := q.pendingCopy.or q.stored } := by
  obtain ⟨stored, pendingCopy, owing⟩ := q
  cases pendingCopy <;> rfl

theorem State.softReset_areaState (s : State) (k : AlarmKind) (a : Fin 16) : s.softReset.areaState k a = .quiet :=
  State.reset_areaState k a

theorem State.softReset_station (s : State) (n : Fin 64) : s.softReset.stations.get n =
    if (s.stations.get n).state = .ringing ∨ (s.stations.get n).state = .inCall then
      { s.stations.get n with state := .idle, call := none } else s.stations.get n := by
  have kept : s.softReset.stations.get n = (s.stations.get n).reset := Tab.get_map s.stations Station.reset n
  simp [kept, Station.reset, Station.inUse]

end Sys2Proof.Machine

/-- Settles O6: nothing waits after the block resets, so the state they leave is the next state. -/
theorem softReset : Obligations.SoftReset := by
  unfold Obligations.SoftReset
  intro s
  refine ⟨s.softReset, by rw [exec_softReset, State.softReset_arbitrate], rfl, rfl, s.softReset_walker, fun l => ?_,
    s.softReset_returns, rfl, rfl, rfl, rfl, fun p => ?_, fun c => ?_, fun c => ?_, fun v => ?_, fun p => ?_,
    s.softReset_areaState, rfl, fun k => ?_, rfl, rfl, rfl, fun o => ?_, fun line => ?_, rfl, rfl, rfl,
    s.softReset_station, fun o => ?_, fun o => ?_, rfl, rfl, rfl, rfl, rfl, rfl⟩
  all_goals
    simp [State.softReset, TonePool.reset, AlarmUnit.reset, Ambient.reset, MixEntry.reset, Loop.reset,
      Pattern.settle_unowed]

end

section
/-! PROOF. The duck-hold timer's own command (R71). -/

open Sys2Proof Sys2Proof.Machine

/-- Settles O39: the timer's remaining steps decide, and without a timer there is no step left to make. -/
theorem duckHoldExpiry : Obligations.DuckHoldExpiry := by
  unfold Obligations.DuckHoldExpiry
  intro s o
  refine ⟨fun left id timer due => congrArg Host.Outcome.next ?_, fun running => congrArg Host.Outcome.next ?_⟩
  · simp [State.duckExpired, timer, due]
  · cases timer : (s.mixer.get o).duck with
    | none => simp [State.duckExpired, timer]
    | some d =>
      have more : 1 < d.1 := running d.1 d.2 timer
      simp [State.duckExpired, timer, Nat.not_le.mpr more]

end

section
/-! PROOF. The Memory Port Arbiter (R18, R94, R96, R182): what a grant takes with it, and which request stands first. -/

open Sys2Proof Sys2Proof.Machine

namespace Sys2Proof

/-! ### Scans of a list in rising order, and the members of a table -/

/-- A scan of a rising list answers at the lowest member that answers at all. -/
theorem findSome?_lowest {α β : Type} [LinearOrder α] {f : α → Option β} {xs : List α} {a : α} {b : β}
    (rising : xs.Pairwise (· < ·)) (mem : a ∈ xs) (answers : f a = some b)
    (lowest : ∀ a' ∈ xs, f a' ≠ none → a ≤ a') : xs.findSome? f = some b := by
  obtain ⟨pre, post, rfl⟩ := List.append_of_mem mem
  have silent : ∀ x ∈ pre, f x = none := fun x earlier => by
    by_contra made
    have below : x < a := (List.pairwise_append.mp rising).2.2 x earlier a List.mem_cons_self
    exact absurd (lowest x (List.mem_append_left _ earlier) made) (not_le.mpr below)
  rw [List.findSome?_append, List.findSome?_eq_none_iff.mpr silent, Option.none_or, List.findSome?_cons, answers]

/-- A scan that keeps the better of two ends at the member that replaces every earlier one and that no later one
replaces. -/
theorem foldl_best {α : Type} {f : Option α → α → Option α} {m : α} {pre post : List α}
    (first : ∀ c, f none c = some c) (chosen : ∀ b c, f (some b) c = some b ∨ f (some b) c = some c)
    (replaces : ∀ b ∈ pre, f (some b) m = some m) (stands : ∀ c ∈ post, f (some m) c = some m) :
    (pre ++ m :: post).foldl f none = some m := by
  have earlier : ∀ (ys : List α) (best : Option α), (∀ b ∈ ys, b ∈ pre) → (best = none ∨ ∃ b ∈ pre, best = some b) →
      ys.foldl f best = none ∨ ∃ b ∈ pre, ys.foldl f best = some b := by
    intro ys
    induction ys with
    | nil => exact fun _ _ h => h
    | cons y ys ih =>
      intro best sub kept
      refine ih _ (fun b h => sub b (List.mem_cons_of_mem _ h)) (.inr ?_)
      have here := sub y List.mem_cons_self
      rcases kept with rfl | ⟨b, mem, rfl⟩
      · exact ⟨y, here, first y⟩
      · rcases chosen b y with same | new
        · exact ⟨b, mem, same⟩
        · exact ⟨y, here, new⟩
  have later : ∀ ys : List α, (∀ c ∈ ys, c ∈ post) → ys.foldl f (some m) = some m := by
    intro ys
    induction ys with
    | nil => exact fun _ => rfl
    | cons y ys ih =>
      intro sub
      rw [List.foldl_cons, stands y (sub y List.mem_cons_self)]
      exact ih fun c h => sub c (List.mem_cons_of_mem _ h)
  rw [List.foldl_append, List.foldl_cons]
  have met : f (pre.foldl f none) m = some m := by
    rcases earlier pre none (fun _ => id) (.inl rfl) with none | ⟨b, mem, best⟩
    · rw [none, first]
    · rw [best, replaces b mem]
  rw [met]
  exact later post fun _ => id

theorem Tab.mem_list_iff {n : Nat} {α : Type} {t : Tab n α} {a : α} : a ∈ t.list ↔ ∃ i, t.get i = a := by
  constructor
  · intro mem
    obtain ⟨i, bound, rfl⟩ := List.getElem_of_mem mem
    exact ⟨⟨i, t.len ▸ bound⟩, rfl⟩
  · rintro ⟨i, rfl⟩
    exact t.get_mem i

theorem findSome?_cons_eq_or {α β : Type} (f : α → Option β) (x : α) (xs : List α) :
    (x :: xs).findSome? f = (f x).or (xs.findSome? f) := by
  rw [List.findSome?_cons]
  cases f x <;> rfl

theorem allFin_rising (n : Nat) : (allFin n).Pairwise (· < ·) := List.pairwise_lt_finRange n

@[simp] theorem mem_allFin {n : Nat} (i : Fin n) : i ∈ allFin n := List.mem_finRange i

end Sys2Proof

namespace Sys2Proof.Machine

/-! ### What a grant takes -/

theorem State.arbitrate_untouched (s : State) : Untouched s s.arbitrate := by
  rcases s.arbitrate_cases with same | ⟨t, -, -, granted⟩
  · rw [same]; exact Untouched.refl s
  · rw [granted]
    cases t <;> constructor <;> rfl

/-- A grant to a channel clears its re-read flag, and no other grant changes a channel (R96). -/
theorem State.onGrant_channel (s : State) (t : Transfer) (c : Fin 16) :
    { (s.onGrant t).channels.get c with reread := false } = { s.channels.get c with reread := false } := by
  cases t with
  | channel c' x =>
    by_cases same : c = c'
    · simp [State.onGrant, State.modChannel, same]
    · simp [State.onGrant, State.modChannel, Tab.get_modify_ne _ same]
  | _ => rfl

theorem State.arbitrate_channel (s : State) (c : Fin 16) :
    { s.arbitrate.channels.get c with reread := false } = { s.channels.get c with reread := false } := by
  rcases s.arbitrate_cases with same | ⟨t, -, -, granted⟩
  · rw [same]
  · rw [granted]; exact s.onGrant_channel t c

/-! ### The request that stands first -/

/-- Slots 60 to 63, which are the alarm programs (R33). -/
theorem alarmSlots_mem {p : Fin 64} (alarm : 60 ≤ p.val) : p ∈ ([60, 61, 62, 63] : List (Fin 64)) := by
  have range := p.isLt
  simp only [List.mem_cons, List.not_mem_nil, or_false, Fin.ext_iff]
  omega

theorem alarmSlots_ge {p : Fin 64} (mem : p ∈ ([60, 61, 62, 63] : List (Fin 64))) : 60 ≤ p.val := by
  simp only [List.mem_cons, List.not_mem_nil, or_false] at mem
  rcases mem with rfl | rfl | rfl | rfl <;> decide

/-- What class 1 finds of one alarm program: the lowest of its channels that waits. -/
def State.alarmFetch (s : State) (p : Fin 64) : Option Transfer :=
  (allFin 16).findSome? fun c => if (s.channels.get c).owner == some (.program p) then s.channelRequest c else none

theorem State.alarmFetches_findSome? (s : State) :
    s.alarmFetches.findSome? id = [60, 61, 62, 63].findSome? s.alarmFetch := by
  simp only [State.alarmFetches, List.flatMap_cons, List.flatMap_nil, List.findSome?_append, List.findSome?_map,
    findSome?_cons_eq_or, List.findSome?_nil]
  rfl

/-- An alarm program's request that is made comes from one of its channels. -/
theorem State.alarmFetch_ne_none {s : State} {p : Fin 64} (made : s.alarmFetch p ≠ none) :
    ∃ c, (s.channels.get c).owner = some (.program p) ∧ s.channelRequest c ≠ none := by
  by_contra silent
  push Not at silent
  refine made (List.findSome?_eq_none_iff.mpr fun c _ => ?_)
  by_cases owned : (s.channels.get c).owner = some (.program p)
  · simp [owned, silent c owned]
  · simp [owned]

/-- Class 1 grants the lowest waiting channel of the lowest alarm program that has one (R18). -/
theorem State.alarmFetches_first {s : State} {c : Fin 16} {p : Fin 64} {x : Transfer} (alarm : 60 ≤ p.val)
    (owner : (s.channels.get c).owner = some (.program p)) (waits : s.channelRequest c = some x)
    (first : ∀ c' p', 60 ≤ p'.val → (s.channels.get c').owner = some (.program p') → s.channelRequest c' ≠ none →
      p < p' ∨ (p = p' ∧ c ≤ c')) : s.alarmFetches.findSome? id = some x := by
  rw [s.alarmFetches_findSome?]
  refine findSome?_lowest (a := p) (by decide) (alarmSlots_mem alarm) ?_ ?_
  · refine findSome?_lowest (a := c) (allFin_rising 16) (mem_allFin c) (by simp [owner, waits]) fun c' _ made => ?_
    by_cases owned : (s.channels.get c').owner = some (.program p)
    · rcases first c' p alarm owned (by simpa [owned] using made) with below | ⟨-, below⟩
      · exact absurd below (lt_irrefl p)
      · exact below
    · simp [owned] at made
  · intro p' mem made
    obtain ⟨c', owned, waiting⟩ := State.alarmFetch_ne_none made
    rcases first c' p' (alarmSlots_ge mem) owned waiting with below | ⟨same, -⟩
    · exact below.le
    · exact same.le

/-- With no alarm channel waiting, class 1 is empty. -/
theorem State.alarmFetches_none {s : State} (silent : ∀ c p, 60 ≤ p.val ∧
    (s.channels.get c).owner = some (.program p) → s.channelRequest c = none) : s.alarmFetches.findSome? id = none := by
  rw [s.alarmFetches_findSome?, List.findSome?_eq_none_iff]
  intro p mem
  by_contra made
  obtain ⟨c, owned, waiting⟩ := State.alarmFetch_ne_none made
  exact waiting (silent c p ⟨alarmSlots_ge mem, owned⟩)

theorem State.firstRequest_eq (s : State) : s.firstRequest = (s.alarmFetches.findSome? id).or
    ((s.walkerRequest .alarm).or <| (s.returnRequest .alarm).or <| s.rootRequest.or <| s.plainFetch.or <|
      (s.walkerRequest .call).or <| (s.returnRequest .call).or <| (s.walkerRequest .program).or <|
      (s.returnRequest .program).or <| (s.walkerRequest .cue).or <| (s.returnRequest .cue).or <|
      (s.walkerRequest .setup).or <| (s.returnRequest .setup).or <| (s.walkerRequest .note).or <|
      (s.returnRequest .note).or <| s.noteRequest.or s.snapRequest) := by
  simp only [State.firstRequest, List.findSome?_append, findSome?_cons_eq_or, id, List.findSome?_nil,
    Option.or_none, Option.or_assoc]

/-- Class 3 grants the channel of the highest owner priority, and of equals the lowest (R18). -/
theorem State.plainFetch_first {s : State} {c : Fin 16} (plain : (s.channels.get c).ownedByAlarm = false)
    (waits : s.channelRequest c ≠ none)
    (first : ∀ c', (s.channels.get c').ownedByAlarm = false ∧ s.channelRequest c' ≠ none →
      s.ownerPriority (s.channels.get c') < s.ownerPriority (s.channels.get c) ∨
      (s.ownerPriority (s.channels.get c') = s.ownerPriority (s.channels.get c) ∧ c ≤ c')) :
    s.plainFetch = s.channelRequest c := by
  have waiting (c') : c' ∈ ((allFin 16).filter fun c => !(s.channels.get c).ownedByAlarm && (s.channelRequest c).isSome) ↔
      (s.channels.get c').ownedByAlarm = false ∧ s.channelRequest c' ≠ none := by
    simp [Option.isSome_iff_ne_none]
  obtain ⟨pre, post, split⟩ := List.append_of_mem ((waiting c).mpr ⟨plain, waits⟩)
  have rising := (allFin_rising 16).filter fun c => !(s.channels.get c).ownedByAlarm && (s.channelRequest c).isSome
  rw [split] at waiting rising
  have order := List.pairwise_append.mp rising
  unfold State.plainFetch
  rw [split]
  dsimp only
  rw [foldl_best (fun _ => rfl) (fun b d => ?_) (fun b mem => ?_) fun d mem => ?_]
  · dsimp only
    split
    · exact .inr rfl
    · exact .inl rfl
  · have below : b < c := order.2.2 b mem c List.mem_cons_self
    rcases first b ((waiting b).mp (List.mem_append_left _ mem)) with lower | ⟨-, above⟩
    · simp [lower]
    · exact absurd below (not_lt.mpr above)
  · have notAbove : ¬ s.ownerPriority (s.channels.get c) < s.ownerPriority (s.channels.get d) := by
      rcases first d ((waiting d).mp (List.mem_append_right _ (List.mem_cons_of_mem _ mem))) with lower | ⟨same, -⟩
      · exact lower.le.not_gt
      · exact same.le.not_gt
    simp [notAbove]

theorem State.plainFetch_none {s : State}
    (silent : ∀ c, ¬((s.channels.get c).ownedByAlarm = false ∧ s.channelRequest c ≠ none)) : s.plainFetch = none := by
  have nobody : ((allFin 16).filter fun c => !(s.channels.get c).ownedByAlarm && (s.channelRequest c).isSome) = [] := by
    refine List.filter_eq_nil_iff.mpr fun c _ waiting => silent c ?_
    simpa [Option.isSome_iff_ne_none] using waiting
  simp [State.plainFetch, nobody]

/-! ### The priority of an owner (R94) -/

theorem State.ownerPriority_idle (s : State) {ch : Channel} (idle : ch.state = .ended ∨ ch.owner = none) :
    s.ownerPriority ch = 0 := by
  rcases idle with ended | nobody
  · simp [State.ownerPriority, ended]
  · simp [State.ownerPriority, nobody]

theorem State.ownerPriority_program (s : State) {ch : Channel} (runs : ch.state ≠ .ended) {p : Fin 64}
    (owner : ch.owner = some (.program p)) : s.ownerPriority ch = (s.programs.get p).priority := by
  simp [State.ownerPriority, runs, owner]

/-- The greatest of some numbers, where one of them bounds the others. -/
theorem foldl_max_eq {α : Type} {f : α → Nat} {xs : List α} {a : α} (mem : a ∈ xs) (greatest : ∀ b ∈ xs, f b ≤ f a) :
    xs.foldl (fun m b => max m (f b)) 0 = f a := by
  have bounded : ∀ (ys : List α) (n : Nat), (∀ b ∈ ys, b ∈ xs) → n ≤ f a →
      ys.foldl (fun m b => max m (f b)) n ≤ f a ∧ n ≤ ys.foldl (fun m b => max m (f b)) n ∧
        ∀ b ∈ ys, f b ≤ ys.foldl (fun m b => max m (f b)) n := by
    intro ys
    induction ys with
    | nil => exact fun n _ below => ⟨below, le_rfl, by simp⟩
    | cons y ys ih =>
      intro n sub below
      obtain ⟨upper, lower, each⟩ := ih (max n (f y)) (fun b h => sub b (List.mem_cons_of_mem _ h))
        (max_le below (greatest y (sub y List.mem_cons_self)))
      refine ⟨upper, (le_max_left _ _).trans lower, fun b memb => ?_⟩
      rcases List.mem_cons.mp memb with rfl | later
      · exact (le_max_right _ _).trans lower
      · exact each b later
  obtain ⟨upper, -, each⟩ := bounded xs 0 (fun _ => id) (Nat.zero_le _)
  exact le_antisymm upper (each a mem)

/-- A SHOW program that is not FREE. -/
abbrev Program.isShow (pr : Program) : Prop := pr.kind = .theatre ∧ pr.state ≠ .free

theorem State.ownerPriority_source_none (s : State) {ch : Channel} (runs : ch.state ≠ .ended) {x : Fin 16}
    (owner : ch.owner = some (.source x)) (noShow : ∀ p, ¬ (s.programs.get p).isShow) : s.ownerPriority ch = 2 := by
  have nobody : (s.programs.list.filter fun p => p.kind == .theatre && p.state != .free) = [] := by
    refine List.filter_eq_nil_iff.mpr fun pr mem show_ => ?_
    obtain ⟨p, rfl⟩ := Tab.mem_list_iff.mp mem
    exact noShow p (by simpa using show_)
  simp [State.ownerPriority, runs, owner, nobody]

theorem State.ownerPriority_source (s : State) {ch : Channel} (runs : ch.state ≠ .ended) {x : Fin 16}
    (owner : ch.owner = some (.source x)) {p : Fin 64} (shows : (s.programs.get p).isShow)
    (highest : ∀ q, (s.programs.get q).isShow → (s.programs.get q).priority ≤ (s.programs.get p).priority) :
    s.ownerPriority ch = (s.programs.get p).priority := by
  have mem : s.programs.get p ∈ s.programs.list.filter fun p => p.kind == .theatre && p.state != .free :=
    List.mem_filter.mpr ⟨s.programs.get_mem p, by simpa using shows⟩
  have greatest : ∀ pr ∈ s.programs.list.filter fun p => p.kind == .theatre && p.state != .free,
      pr.priority ≤ (s.programs.get p).priority := fun pr found => by
    obtain ⟨listed, show_⟩ := List.mem_filter.mp found
    obtain ⟨q, rfl⟩ := Tab.mem_list_iff.mp listed
    exact highest q (by simpa using show_)
  have somebody : (s.programs.list.filter fun p => p.kind == .theatre && p.state != .free).isEmpty = false :=
    List.isEmpty_eq_false_iff.mpr (List.ne_nil_of_mem mem)
  simp only [State.ownerPriority, runs, owner, somebody, if_false, Bool.false_eq_true]
  exact foldl_max_eq (f := Program.priority) mem greatest

end Sys2Proof.Machine

/-- Settles O8. -/
theorem arbitrationFrame : Obligations.ArbitrationFrame := by
  unfold Obligations.ArbitrationFrame
  refine ⟨fun s => ⟨s.arbitrate_untouched, s.arbitrate_regs, s.arbitrate_stations, s.arbitrate_programs,
    s.arbitrate_claims, s.arbitrate_mixer, s.arbitrate_calls, s.arbitrate_tones, s.arbitrate_alarms,
    s.arbitrate_theatre, s.arbitrate_walkers, s.arbitrate_channel, fun g => State.arbitrate_busy,
    fun _ => State.arbitrate_idle, fun x idle first => ?_⟩, fun s => ⟨?_, ?_, ?_, State.plainFetch_none, fun ch =>
    ⟨s.ownerPriority_idle, fun runs => ⟨fun p => s.ownerPriority_program runs, fun x owner =>
      ⟨s.ownerPriority_source_none runs owner, fun p => s.ownerPriority_source runs owner⟩⟩⟩⟩⟩
  · rw [State.arbitrate_grant idle first]
    refine ⟨rfl, ?_, ?_, ?_, ?_⟩
    · rintro w rfl
      exact ⟨rfl, rfl⟩
    · intro notNote
      cases x with
      | noteWrite w => exact absurd rfl (notNote w)
      | _ => rfl
    · rintro l w rfl
      exact Tab.get_modify_self _ _ _
    · intro notReturn
      cases x with
      | pendingReturn l w => exact absurd rfl (notReturn l w)
      | _ => rfl
  · intro c p x ⟨alarm, owner⟩ waits first
    rw [s.firstRequest_eq, State.alarmFetches_first alarm owner waits fun c' p' a o => first c' p' ⟨a, o⟩]
    rfl
  · intro silent
    rw [s.firstRequest_eq, State.alarmFetches_none silent, Option.none_or]
  · exact fun c ⟨plain, waits⟩ first => State.plainFetch_first plain waits first

end

section
/-! PROOF. The register window (R1, R6, R183): the bits of STAT, what each read shows, and what each write reaches. -/

open Sys2Proof Sys2Proof.Machine

namespace Sys2Proof.Machine

/-! ### Bits of a number -/

/-- Bit `i` of the number that some bits spell. -/
theorem bitsValue_testBit (bs : List Bool) (i : Nat) : (bitsValue bs).testBit i = bs.getD i false := by
  induction bs generalizing i with
  | nil => simp [bitsValue]
  | cons b bs ih =>
    cases i with
    | zero => cases b <;> simp [bitsValue, Nat.testBit_zero]
    | succ i =>
      have rest : bitsValue (b :: bs) / 2 = bitsValue bs := by
        cases b <;> simp [bitsValue]
        omega
      rw [Nat.testBit_succ, rest, ih]
      rfl

theorem bitsValue_lt (bs : List Bool) : bitsValue bs < 2 ^ bs.length := by
  induction bs with
  | nil => simp [bitsValue]
  | cons b bs ih =>
    rw [List.length_cons, Nat.pow_succ]
    cases b <;> simp [bitsValue] <;> omega

theorem Tab.getD_list {n : Nat} {α : Type} (t : Tab n α) (i : Fin n) (d : α) : t.list.getD i.val d = t.get i :=
  List.getD_eq_getElem _ _ (by rw [t.len]; exact i.isLt)

/-! ### STAT (R6) -/

theorem PartState.code_lt (p : PartState) : p.code < 4 := by cases p <;> decide

/-- STAT as its fields stand, each above the bits of those before it. -/
theorem State.stat_fields (s : State) (few : s.notes.queue.length ≤ 32) : s.stat.toNat =
    2 ^ 2 * (2 ^ 6 * (2 ^ 4 * (2 ^ 4 * s.notes.queue.length + if s.alarmFlag then 1 else 0) +
      bitsValue (s.trunks.list.map fun k => k.link == .up)) + bitsValue s.lists.errors.list) + s.part.code := by
  have part := s.part.code_lt
  have errors := bitsValue_lt s.lists.errors.list
  have trunks := bitsValue_lt (s.trunks.list.map fun k => k.link == .up)
  rw [s.lists.errors.len] at errors
  rw [List.length_map, s.trunks.len] at trunks
  have alarm : (if s.alarmFlag then 1 else 0 : Nat) ≤ 1 := by split <;> omega
  rw [State.stat, BitVec.toNat_ofNat]
  omega

/-- What each part of STAT shows. -/
theorem State.stat_shows (s : State) (few : s.notes.queue.length ≤ 32) :
    s.stat.toNat % 4 = s.part.code ∧
    (∀ l : ListId, s.stat.getLsbD (2 + l.idx.val) = s.lists.errors.get l.idx) ∧
    (∀ k : Fin 4, s.stat.getLsbD (8 + k.val) = ((s.trunks.get k).link == .up)) ∧
    s.stat.getLsbD 12 = s.alarmFlag ∧ s.stat.toNat / 8192 % 8 = 0 ∧ s.stat.toNat / 65536 = s.notes.queue.length := by
  have fields := s.stat_fields few
  have part : s.part.code < 2 ^ 2 := s.part.code_lt
  have errors : bitsValue s.lists.errors.list < 2 ^ 6 := by
    have below := bitsValue_lt s.lists.errors.list
    rwa [s.lists.errors.len] at below
  have trunks : bitsValue (s.trunks.list.map fun k => k.link == .up) < 2 ^ 4 := by
    have below := bitsValue_lt (s.trunks.list.map fun k => k.link == .up)
    rwa [List.length_map, s.trunks.len] at below
  have alarm : (if s.alarmFlag then 1 else 0 : Nat) < 2 ^ 4 := by split <;> omega
  have alarmBit : (if s.alarmFlag then 1 else 0 : Nat).testBit 0 = s.alarmFlag := by cases s.alarmFlag <;> rfl
  have alarmSmall : (if s.alarmFlag then 1 else 0 : Nat) ≤ 1 := by split <;> omega
  have bit (i : Nat) : s.stat.getLsbD i = s.stat.toNat.testBit i := rfl
  refine ⟨by omega, fun l => ?_, fun k => ?_, ?_, by omega, by omega⟩
  · have i := l.idx.isLt
    rw [bit, fields, Nat.testBit_two_pow_mul_add _ part, if_neg (by omega), Nat.add_sub_cancel_left,
      Nat.testBit_two_pow_mul_add _ errors, if_pos i, bitsValue_testBit, Tab.getD_list]
  · have i := k.isLt
    have shift : 8 + k.val - 2 - 6 = k.val := by omega
    rw [bit, fields, Nat.testBit_two_pow_mul_add _ part, if_neg (by omega), Nat.testBit_two_pow_mul_add _ errors,
      if_neg (by omega), shift, Nat.testBit_two_pow_mul_add _ trunks, if_pos i, bitsValue_testBit]
    exact Tab.getD_list (s.trunks.map fun k => k.link == .up) k false |>.trans (Tab.get_map _ _ _)
  · rw [bit, fields, Nat.testBit_two_pow_mul_add _ part, if_neg (by omega), Nat.testBit_two_pow_mul_add _ errors,
      if_neg (by omega), Nat.testBit_two_pow_mul_add _ trunks, if_neg (by omega),
      Nat.testBit_two_pow_mul_add _ alarm, if_pos (by omega)]
    exact alarmBit

theorem AlarmKind.idx_surjective (i : Fin 4) : ∃ k : AlarmKind, k.idx = i := by
  match i with
  | 0 => exact ⟨.muster, rfl⟩
  | 1 => exact ⟨.fire, rfl⟩
  | 2 => exact ⟨.security, rfl⟩
  | 3 => exact ⟨.crewAlert, rfl⟩

/-- The alarm flag (R6, R140). -/
theorem State.alarmFlag_iff (s : State) : s.alarmFlag = true ↔ ∃ k a, s.areaState k a = .sounding := by
  simp only [State.alarmFlag, List.any_eq_true, beq_iff_eq]
  constructor
  · rintro ⟨row, mem, _, entry, rfl⟩
    obtain ⟨i, rfl⟩ := Tab.mem_list_iff.mp mem
    obtain ⟨a, sounding⟩ := Tab.mem_list_iff.mp entry
    obtain ⟨k, rfl⟩ := AlarmKind.idx_surjective i
    exact ⟨k, a, sounding⟩
  · rintro ⟨k, a, sounding⟩
    exact ⟨_, s.alarms.table.get_mem k.idx, _, Tab.get_mem _ a, sounding⟩

/-! ### CAUSE and INT (R183) -/

theorem CauseBit.pos_lt (b : CauseBit) : b.pos < 8 := by cases b <;> decide

theorem CauseBit.pos_inj {b c : CauseBit} : b.pos = c.pos ↔ b = c := by cases b <;> cases c <;> decide

theorem State.causeHas_setCause (s : State) (b c : CauseBit) :
    (s.setCause b).causeHas c = true ↔ c = b ∨ s.causeHas c = true := by
  simp only [State.causeHas, State.setCause, BitVec.getLsbD_or, BitVec.getLsbD_twoPow, Bool.or_eq_true,
    Bool.and_eq_true, decide_eq_true_eq, CauseBit.pos_inj, b.pos_lt, true_and]
  rw [or_comm, eq_comm (a := b)]

theorem State.intLine_iff (s : State) :
    s.intLine = true ↔ ∃ i < 8, s.regs.cause.getLsbD i = true ∧ s.regs.cmask.getLsbD i = true := by
  have zero : s.regs.cause &&& s.regs.cmask = 0#8 ↔ ∀ i < 8, (s.regs.cause &&& s.regs.cmask).getLsbD i = false :=
    ⟨fun h i _ => by rw [h]; exact BitVec.getLsbD_zero, fun h => BitVec.eq_of_getLsbD_eq fun i bound => by
      rw [h i bound]; exact BitVec.getLsbD_zero.symm⟩
  simp [State.intLine, zero]

/-! ### Writes (R1) -/

/-- A write at any other offset is ignored. -/
theorem State.registerWrite_ignored (s : State) {offset : Nat} (value : Word)
    (other : offset ∉ [0x00, 0x08, 0x0C, 0x10, 0x18]) : s.registerWrite offset value = s := by
  simp only [List.mem_cons, List.not_mem_nil, or_false, not_or] at other
  simp [State.registerWrite, other]

theorem State.readRegister_unnamed (s : State) {offset : Nat}
    (other : offset ∉ [0x00, 0x04, 0x08, 0x10, 0x14, 0x18]) : s.readRegister offset = 0 := by
  simp only [List.mem_cons, List.not_mem_nil, or_false, not_or] at other
  simp [State.readRegister, other]

/-- A write to CTRL is the row of its RESET or RUN bit. -/
theorem exec_ctrlWrite (s : State) (value : Word) : exec (.registerWrite 0x00 value) s =
    if value.getLsbD 1 then exec .softReset s else if value.getLsbD 0 then exec .runStart s else exec .runStop s := by
  change Host.Outcome.next (s.ctrlWrite value) = _
  unfold State.ctrlWrite
  split
  · rfl
  · split <;> rfl

end Sys2Proof.Machine

/-- Settles O9. -/
theorem registerWindow : Obligations.RegisterWindow := by
  unfold Obligations.RegisterWindow
  refine ⟨fun s few => ?_, fun s => ⟨rfl, rfl, fun on => ?_, fun off => ?_, rfl, rfl⟩,
    fun s offset => s.readRegister_unnamed, fun s value => ⟨rfl, rfl, fun offset ignored => ?_,
    fun offset below unnamed => ?_, exec_ctrlWrite s value, rfl, rfl, rfl⟩,
    fun s => ⟨rfl, s.causeHas_setCause, s.intLine_iff⟩⟩
  · obtain ⟨part, errors, trunks, alarm, gap, notes⟩ := s.stat_shows few
    exact ⟨rfl, part, errors, trunks, alarm, s.alarmFlag_iff, gap, notes⟩
  · simp [State.readRegister, State.beatRunning, on]
  · have stopped : s.beatRunning = false := by
      rw [Bool.eq_false_iff]
      exact fun running => off (by simpa [State.beatRunning] using running)
    simp [State.readRegister, stopped]
  · refine congrArg Host.Outcome.next (s.registerWrite_ignored value ?_)
    simp only [List.mem_cons, List.not_mem_nil, or_false]
    omega
  · refine congrArg Host.Outcome.next (s.registerWrite_ignored value ?_)
    simp only [List.mem_cons, List.not_mem_nil, or_false] at unnamed ⊢
    omega

end

section
/-! PROOF. Walk requests (R9), the writes of RUN (R2 to R4) and of BEAT (R184, R186): what each leaves of every walker. -/

open Sys2Proof Sys2Proof.Machine

namespace Sys2Proof.Machine

/-! ### A walk request, as a change of one walker -/

/-- A walker that a walk is requested of (R9). -/
def Walker.asked (part : PartState) (w : Walker) : Walker :=
  if part ≠ .running ∨ w.state = .error ∨ w.state = .stopped then w
  else if w.stage ≠ .quiet then { w with again := true }
  else if w.state = .tail then { w with stage := .linkRead }
  else { w with stage := .recordRead }

theorem Tab.modify_id {n : Nat} {α : Type} (t : Tab n α) (i : Fin n) : t.modify i id = t := by
  refine Tab.ext_get fun j => ?_
  rw [Tab.get_modify]
  split <;> rfl

theorem State.modWalker_id (s : State) (l : ListId) : s.modWalker l id = s := by
  have same : s.lists.walkers.modify l.idx id = s.lists.walkers := Tab.modify_id _ _
  unfold State.modWalker
  rw [same]

/-- A change that leaves the walker as it is changes nothing. -/
theorem State.modWalker_self {s : State} {l : ListId} {f : Walker → Walker} (same : f (s.walker l) = s.walker l) :
    s.modWalker l f = s :=
  (State.modWalker_congr s l (g := id) same).trans (s.modWalker_id l)

theorem State.requestWalk_eq (s : State) (l : ListId) : s.requestWalk l = s.modWalker l (Walker.asked s.part) := by
  have stage (g : Stage) : s.setStage l g = s.modWalker l fun w => { w with stage := g } := rfl
  unfold State.requestWalk State.startWalk
  dsimp only
  by_cases ignored : s.part ≠ .running ∨ (s.walker l).state = .error ∨ (s.walker l).state = .stopped
  · have kept : (s.walker l).asked s.part = s.walker l := if_pos ignored
    rw [if_pos (by simpa [or_assoc] using ignored), State.modWalker_self kept]
  · rw [if_neg (by simpa [or_assoc] using ignored)]
    have running : s.part = .running := by_contra fun other => ignored (.inl other)
    by_cases quiet : (s.walker l).stage = .quiet
    · rw [if_pos (by simpa using quiet), stage, stage]
      cases state : (s.walker l).state with
      | error => exact absurd (.inr (.inl state)) ignored
      | stopped => exact absurd (.inr (.inr state)) ignored
      | _ => exact s.modWalker_congr l (by simp [Walker.asked, running, quiet, state])
    · rw [if_neg (by simpa using quiet)]
      exact s.modWalker_congr l (by simp only [Walker.asked, ignored, if_false, quiet, ne_eq, not_false_eq_true, if_true])

/-! ### One change of every walker -/

/-- An act that changes one walker of each list changes the table of walkers and nothing else. -/
theorem State.forAll_walkers {s : State} {g : ListId → State → State} {f : Fin 6 → Walker → Walker}
    (each : ∀ l t, t.part = s.part → t.lists.root = s.lists.root → g l t = t.modWalker l (f l.idx)) :
    s.forAll ListId.all g =
      { s with lists := { s.lists with walkers := Tab.ofFn fun i => f i (s.lists.walkers.get i) } } := by
  have folded : s.forAll ListId.all g = ((((((s.modWalker .setup (f 0)).modWalker .program (f 1)).modWalker .call
      (f 2)).modWalker .alarm (f 3)).modWalker .cue (f 4)).modWalker .note (f 5)) := by
    simp only [State.forAll, ListId.all, List.foldl_cons, List.foldl_nil]
    rw [each .setup s rfl rfl, each .program _ (by rfl) (by rfl), each .call _ (by rfl) (by rfl),
      each .alarm _ (by rfl) (by rfl), each .cue _ (by rfl) (by rfl), each .note _ (by rfl) (by rfl)]
    rfl
  have walkers : ((((((s.lists.walkers.modify 0 (f 0)).modify 1 (f 1)).modify 2 (f 2)).modify 3 (f 3)).modify 4
      (f 4)).modify 5 (f 5)) = Tab.ofFn fun i => f i (s.lists.walkers.get i) := by
    refine Tab.ext_get fun i => ?_
    rw [Tab.get_ofFn]
    match i with
    | 0 | 1 | 2 | 3 | 4 | 5 => simp [Tab.get_modify]
  rw [folded, ← walkers]
  rfl

theorem Tab.map_eq_ofFn {n : Nat} {α β : Type} (f : α → β) (t : Tab n α) : t.map f = Tab.ofFn fun i => f (t.get i) :=
  Tab.ext_get fun i => by rw [Tab.get_map, Tab.get_ofFn]

/-! ### NUDGE and the scan timer (R9) -/

theorem State.nudge_eq (s : State) (value : Word) : s.nudge value =
    { s with lists := { s.lists with
      walkers := Tab.ofFn fun i =>
        if value.getLsbD i.val then (s.lists.walkers.get i).asked s.part else s.lists.walkers.get i } } := by
  refine (State.forAll_walkers
    (f := fun i w => if value.getLsbD i.val then w.asked s.part else w) fun l t part _ => ?_).trans rfl
  split
  · rw [t.requestWalk_eq, part]
  · exact (t.modWalker_id l).symm

theorem State.scanExpired_due {s : State} {l : ListId} (running : s.part = .running)
    (due : (s.walker l).scan = some 0) : s.scanExpired l =
      s.modWalker l fun w => Walker.asked s.part { w with scan := some s.lists.root.scan } := by
  unfold State.scanExpired
  rw [if_pos (by simp [running, due]), State.requestWalk_eq, State.modWalker_modWalker]
  rfl

theorem State.scanExpired_not_due {s : State} {l : ListId} (idle : s.part ≠ .running ∨ (s.walker l).scan ≠ some 0) :
    s.scanExpired l = s := by
  unfold State.scanExpired
  rw [if_neg]
  simpa [← not_and_or] using idle

/-! ### RUN (R2 to R4) -/

/-- With no alarm channel and no ALARM list request waiting, the root block read stands first (R18). -/
theorem State.firstRequest_root {s : State} {r : RootRead} (root : s.lists.rootRead = some r)
    (noAlarm : ∀ c, (s.channels.get c).ownedByAlarm = false) (walker : s.walkerRequest .alarm = none)
    (returned : s.returnRequest .alarm = none) : s.firstRequest = some (.rootRead r.addr) := by
  have class1 : s.alarmFetches.findSome? id = none := State.alarmFetches_none fun c p ⟨alarm, owner⟩ => by
    have owned : (s.channels.get c).ownedByAlarm = true := by simp [Channel.ownedByAlarm, owner, alarm]
    rw [noAlarm c] at owned
    exact absurd owned (by decide)
  rw [s.firstRequest_eq, class1, walker, returned, State.rootRequest, root]
  rfl

/-! ### BEAT (R184, R186) -/

/-- A walker of a list that the return to RUNNING resumes (R5). -/
def Walker.resumed (scan : Nat) (w : Walker) : Walker :=
  if w.state = .error then w
  else if w.state = .stopped then { w with scan := some scan }
  else if w.stage ≠ .quiet then { w with scan := some scan, again := true }
  else { w with scan := some scan, stage := if w.state = .tail then .linkRead else .recordRead }

theorem State.resumeList_eq {s : State} (running : s.part = .running) (l : ListId) :
    s.resumeList l = s.modWalker l (Walker.resumed s.lists.root.scan) := by
  unfold State.resumeList
  by_cases error : (s.walker l).state = .error
  · rw [if_pos (by simp [error]), State.modWalker_self (f := Walker.resumed s.lists.root.scan) (if_pos error)]
  · rw [if_neg (by simpa using error), State.requestWalk_eq, State.modWalker_modWalker]
    refine s.modWalker_congr l ?_
    simp only [Function.comp, Walker.asked, Walker.resumed, State.modWalker_part, running, error, ne_eq,
      not_true_eq_false, false_or, if_false]
    split
    · rfl
    · split
      · rfl
      · split <;> rfl

theorem State.beatWrite_fallback {s : State} (fallback : s.part = .fallback) : s.beatWrite = State.emitNote .fallback 0 0 0
    { s with part := .running
             beat := if s.lists.root.beatWindow = 0 then {} else { counter := s.lists.root.beatWindow, sub := 100 }
             lists := { s.lists with walkers := s.lists.walkers.map (Walker.resumed s.lists.root.scan) } } := by
  unfold State.beatWrite
  rw [fallback]
  dsimp only
  rw [State.forAll_walkers (f := fun _ => Walker.resumed s.lists.root.scan) fun l t part root => ?_, Tab.map_eq_ofFn]
  · rfl
  · rw [State.resumeList_eq part, root]
    rfl

end Sys2Proof.Machine

/-- Settles O10. -/
theorem runWrites : Obligations.RunWrites := by
  unfold Obligations.RunWrites
  refine ⟨fun s => ⟨fun halted none => ?_, fun r halted some => ?_, fun on => ?_, fun halted => ?_, fun running => ?_,
    fun fallback => ?_⟩, fun s r idle root noAlarm walker returned => ?_⟩
  · simp [exec, execRunStart, State.runStart, halted, State.wantedRoot, none]
  · simp [exec, execRunStart, State.runStart, halted, State.wantedRoot, some]
  · cases part : s.part with
    | halted => exact absurd part on
    | _ => simp [exec, execRunStart, State.runStart, part]
  · simp [exec, execRunStop, State.runStop, halted]
  · simp [exec, execRunStop, State.runStop, running, State.halt, State.windAll, Walker.wind]
  · simp [exec, execRunStop, State.runStop, fallback, State.halt, State.windAll, Walker.wind]
  · rw [State.arbitrate_grant idle (State.firstRequest_root root noAlarm walker returned)]

/-- Settles O12. -/
theorem beatWrite : Obligations.BeatWrite := by
  unfold Obligations.BeatWrite
  intro s value
  refine ⟨fun halted => ?_, fun running stopped => ?_, fun running runs => ?_, fun fallback => ?_⟩
  · simp [exec, execBeat, State.beatWrite, halted]
  · simp [exec, execBeat, State.beatWrite, running, stopped]
  · simp [exec, execBeat, State.beatWrite, running, runs, State.loadBeat]
  · exact congrArg (Host.Outcome.next ∘ State.arbitrate) (State.beatWrite_fallback fallback)

end

section
/-! PROOF. A period start around one projection of the state: what the acts of a period start leave alone, said once for
every projection that no internal act, no window, trunk, loop or changeover touches. -/

open Sys2Proof Sys2Proof.Machine

namespace Sys2Proof.Machine

/-! ### Projections that the acts of a period start leave alone -/

/-- A projection that no internal act changes, and that does not look at the Ambient Unit. -/
structure Still {α : Type} (view : State → α) : Prop where
  acts : ∀ {s t : State}, Acts s t → view t = view s
  ambient : ∀ (s : State) (a : Ambient), view { s with ambient := a } = view s

/-- A projection that no internal act changes, and that does not look at the Ambient Unit, the trunks or the loops. -/
structure Framed {α : Type} (view : State → α) : Prop extends Still view where
  trunk : ∀ (k : Fin 4) (f : Trunk → Trunk) (s : State), view (s.modTrunk k f) = view s
  loop : ∀ (o : Fin 256) (f : Loop → Loop) (s : State), view (s.modLoop o f) = view s

/-- A projection that does not look at what the mix writes, nor at what a grant takes. -/
structure Unmixed {α : Type} (view : State → α) : Prop where
  mix : ∀ (s : State) (c : Tab 16 Channel) (t : TonePool) (m : Tab 256 MixEntry) (b : Tab 4 (Option Outbound)),
    view { s with channels := c, tones := t, mixer := m, outbound := b } = view s
  granted : ∀ s : State, view s.arbitrate = view s

/-- A projection that does not look at the changeover slots. -/
abbrev Slotless {α : Type} (view : State → α) : Prop :=
  ∀ (x : Fin 8) (f : Changeover → Changeover) (s : State), view (s.modChangeover x f) = view s

theorem State.forAll_view {α β : Type} {view : State → α} {f : β → State → State}
    (each : ∀ x s, view (f x s) = view s) (xs : List β) (s : State) : view (s.forAll xs f) = view s := by
  unfold State.forAll
  induction xs generalizing s with
  | nil => rfl
  | cons x xs ih => exact (ih (f x s)).trans (each x s)

/-! ### The stretches of a period start, by name -/

/-- The expiries up to the trunks' (log entry 15). -/
def State.linksDue (s : State) : State :=
  ((s.forAll (allFin 8) State.segmentEnd).windowComplete.forAll (allFin 4) State.syncExpired).forAll (allFin 4)
    State.answerExpired

/-- The changeover slots' expiries. -/
def State.slotsDue (s : State) : State :=
  (s.forAll (allFin 8) State.pendingExpired).forAll (allFin 8) State.releaseExpired

/-- The expiries of the stations, of the call parties and of the programs. -/
def State.partiesDue (s : State) : State :=
  (((s.forAll (allFin 64) State.holdExpired).forAll (allFin 16) State.ringsExpired).forAll (allFin 64)
    State.gatherDue).forAll (allFin 64) State.durationExpired

/-- From the timers' steps to the latch. -/
def State.readied (s : State) : State :=
  (((s.forAll (allFin 4) State.trainTrunk).forAll (allFin 16) State.freeCleared).showStep).forAll (allFin 8)
    State.startVoice

theorem State.settleDue_eq (s : State) :
    s.settleDue = s.linksDue.slotsDue.partiesDue.beatExpired.forAll ListId.all State.scanExpired := rfl

theorem State.beforeLatch_eq (s : State) : s.beforeLatch = s.settleDue.stepTimers.readied := rfl

/-! ### A channel's event, as an internal act -/

theorem State.channelStarves_acts (s : State) (c : Fin 16) : Acts s (s.channelStarves c) := by
  have noted := State.emitNote_quiet (Quiet.refl s) .streamStarved 1 c.val (s.channels.get c).ownerCode
  unfold State.channelStarves
  dsimp only
  split
  · exact (State.endVoicePhase_quiet (State.releaseChannel_quiet noted _) _).toActs
  · exact noted.toActs

theorem State.channelCompletes_acts (s : State) (c : Fin 16) : Acts s (s.channelCompletes c) := by
  have ended := State.enterEnded_quiet (Quiet.refl s) c
  unfold State.channelCompletes
  dsimp only
  split
  · exact (State.endVoicePhase_quiet (State.reloadAlarm_quiet (Quiet.refl s) c) _).toActs
  · split
    · exact State.streamComplete_acts ended.toActs _
    · exact ended.toActs
    · exact Acts.refl s

section
variable {α : Type} {view : State → α}

theorem Framed.note (v : Framed view) (s : State) (k : NoteKind) (c n d : Nat) :
    view (s.emitNote k c n d) = view s :=
  v.acts (State.emitNote_acts (Acts.refl s) k c n d)

theorem Framed.cause (v : Framed view) (s : State) (b : CauseBit) : view (s.setCause b) = view s :=
  v.acts (State.setCause_acts (Acts.refl s) b)

theorem Still.modAmbient (v : Still view) (o : Fin 256) (f : AmbientEntry → AmbientEntry) (s : State) :
    view (s.modAmbient o f) = view s :=
  v.ambient s _

theorem Still.completeCapture (v : Still view) (o : Fin 256) (s : State) : view (s.completeCapture o) = view s := by
  unfold State.completeCapture
  dsimp only
  split
  · rfl
  · rw [v.acts (State.requestReturn_acts (Acts.refl _) _ _), State.setBaseline, State.recomputeC, v.modAmbient,
      v.modAmbient, v.modAmbient]

theorem Still.windowAt (v : Still view) (o : Fin 256) (s : State) : view (s.windowAt o) = view s := by
  unfold State.windowAt State.recomputeC
  dsimp only
  rw [v.modAmbient]
  split
  · rfl
  · split
    · exact v.modAmbient o _ s
    · split
      · rfl
      · split
        · rw [v.completeCapture, v.modAmbient, v.modAmbient]
        · rw [v.modAmbient, v.modAmbient]

theorem Still.windowComplete (v : Still view) (s : State) : view s.windowComplete = view s := by
  unfold State.windowComplete
  split
  · dsimp only
    rw [v.ambient, State.forAll_view v.windowAt]
  · rfl

theorem Framed.failChangeover (v : Framed view) (w : Slotless view) (x : Fin 8) (reason : Nat) (s : State) :
    view (s.failChangeover x reason) = view s := by
  unfold State.failChangeover State.freeSlot
  rw [v.note, v.cause, w]

theorem Framed.changeoverTrunkDown (v : Framed view) (w : Slotless view) (x : Fin 8) (s : State) :
    view (s.changeoverTrunkDown x) = view s := by
  unfold State.changeoverTrunkDown
  split
  · exact v.failChangeover w x 2 s
  · exact w x _ s
  · rfl
  · rfl

/-- The trunk leaves UP: only the changeover slots of the trunk are left to look at. -/
theorem Framed.leaveUp (v : Framed view) (w : ∀ x s, view (State.changeoverTrunkDown x s) = view s) (k : Fin 4)
    (s : State) : view (s.leaveUp k) = view s := by
  have loops (o : Fin 256) (t : State) : view (State.setLoopState o (t.modLoop o fun x =>
      { x with capture := x.capture.map fun c => { c with count := 0, sum := 0 } })) = view t :=
    (v.loop o _ _).trans (v.loop o _ t)
  unfold State.leaveUp
  dsimp only
  rw [v.cause, v.note, State.forAll_view w, State.forAll_view loops, State.forAll_view fun n t => v.acts (State.stationLost_acts (Acts.refl t) n), v.trunk]

theorem Framed.syncExpired (v : Framed view) (w : Slotless view) (k : Fin 4) (s : State) :
    view (s.syncExpired k) = view s := by
  unfold State.syncExpired
  dsimp only
  split
  · exact v.leaveUp (v.changeoverTrunkDown w) k s
  · rfl

theorem Framed.answerExpired (v : Framed view) (k : Fin 4) (s : State) : view (s.answerExpired k) = view s := by
  unfold State.answerExpired
  dsimp only
  split
  · exact v.trunk k _ s
  · rfl

theorem Framed.pendingExpired (v : Framed view) (w : Slotless view) (x : Fin 8) (s : State) :
    view (s.pendingExpired x) = view s := by
  unfold State.pendingExpired
  dsimp only
  split
  · exact v.failChangeover w x 1 s
  · rfl

theorem Framed.releaseExpired (v : Framed view) (w : Slotless view) (x : Fin 8) (s : State) :
    view (s.releaseExpired x) = view s := by
  unfold State.releaseExpired State.freeSlot
  dsimp only
  split
  · rw [v.note, v.cause, w]
  · rfl

theorem Framed.segmentEnd (v : Framed view) (x : Fin 8) (s : State) : view (s.segmentEnd x) = view s :=
  v.acts (State.segmentEnd_acts (Acts.refl s) x)

theorem Framed.holdExpired (v : Framed view) (n : Fin 64) (s : State) : view (s.holdExpired n) = view s :=
  v.acts (State.holdExpired_acts (Acts.refl s) n)

theorem Framed.ringsExpired (v : Framed view) (c : Fin 16) (s : State) : view (s.ringsExpired c) = view s :=
  State.forAll_view (fun i t => v.acts (State.ringExpired_acts (Acts.refl t) c i)) (allFin 8) s

theorem Framed.gatherDue (v : Framed view) (p : Fin 64) (s : State) : view (s.gatherDue p) = view s :=
  v.acts (State.gatherDue_acts (Acts.refl s) p)

theorem Framed.durationExpired (v : Framed view) (p : Fin 64) (s : State) : view (s.durationExpired p) = view s :=
  v.acts (State.durationExpired_acts (Acts.refl s) p)

theorem Framed.trainTrunk (v : Framed view) (k : Fin 4) (s : State) : view (s.trainTrunk k) = view s := by
  unfold State.trainTrunk
  split
  · exact v.trunk k _ s
  · rfl

theorem Framed.freeCleared (v : Framed view) (c : Fin 16) (s : State) : view (s.freeCleared c) = view s := by
  unfold State.freeCleared
  split
  · exact v.acts (State.freeCall_acts (Acts.refl s) c)
  · rfl

/-! ### The stretches of a period start -/

theorem Framed.linksDue (v : Framed view) (w : Slotless view) (s : State) : view s.linksDue = view s := by
  unfold State.linksDue
  rw [State.forAll_view v.answerExpired, State.forAll_view (v.syncExpired w), v.windowComplete,
    State.forAll_view v.segmentEnd]

theorem Framed.slotsDue (v : Framed view) (w : Slotless view) (s : State) : view s.slotsDue = view s := by
  unfold State.slotsDue
  rw [State.forAll_view (v.releaseExpired w), State.forAll_view (v.pendingExpired w)]

theorem Framed.partiesDue (v : Framed view) (s : State) : view s.partiesDue = view s := by
  unfold State.partiesDue
  rw [State.forAll_view v.durationExpired, State.forAll_view v.gatherDue, State.forAll_view v.ringsExpired,
    State.forAll_view v.holdExpired]

theorem Framed.readied (v : Framed view) (s : State) : view s.readied = view s := by
  unfold State.readied
  rw [State.forAll_view fun x t => v.acts (State.startVoice_quiet (Quiet.refl t) x).toActs,
    v.acts (State.showStep_quiet (Quiet.refl _)).toActs, State.forAll_view v.freeCleared, State.forAll_view v.trainTrunk]

theorem Framed.channelEvent (v : Framed view) (gave : Tab 16 ChanEvent) (c : Fin 16) (s : State) :
    view (s.channelEvent gave c) = view s := by
  unfold State.channelEvent
  split
  · rfl
  · split
    · exact v.acts (State.channelStarves_acts s c)
    · rfl
  · split
    · exact v.acts (State.channelCompletes_acts s c)
    · rfl

theorem Framed.afterMix (v : Framed view) (u : Unmixed view) (gave : Tab 16 ChanEvent) (faded : List (Fin 64))
    (s : State) : view (s.afterMix gave faded) = view s := by
  unfold State.afterMix
  dsimp only
  rw [State.forAll_view (view := view)]
  · exact (u.mix _ _ _ _ _).trans (State.forAll_view (v.channelEvent gave) (allFin 16) s)
  · intro p t
    split
    · exact v.acts (State.endProgram_acts (Acts.refl t) p stStopped)
    · rfl

theorem Framed.mixPeriod (v : Framed view) (u : Unmixed view) (audio : List (List Sample)) (s : State) :
    view (s.mixPeriod audio) = view s := by
  have begun (t : State) : view t.beginWindow = view t := by
    unfold State.beginWindow
    split
    · exact v.ambient t _
    · rfl
  unfold State.mixPeriod
  dsimp only
  rw [v.afterMix u, State.ambientStep, v.ambient, begun, u.mix]

/-- What a period start leaves of a projection, from the timers' steps on. -/
theorem Framed.period (v : Framed view) (u : Unmixed view) (audio : List (List Sample)) (s : State) :
    ∃ t, exec (.mixPeriodStart audio) s = .next t ∧ view t = view s.settleDue.stepTimers := by
  refine ⟨_, exec_mixPeriodStart s audio, ?_⟩
  rw [u.granted, v.mixPeriod u, State.beforeLatch_eq, v.readied]

end

end Sys2Proof.Machine

end

section
/-! PROOF. The scan timers through a period start (R9): what counts them, and what starts them again. -/

open Sys2Proof Sys2Proof.Machine

namespace Sys2Proof.Machine

/-- What the scan timers depend on: the part state, the settings, the beat and the timers themselves. -/
def State.scans (s : State) : (PartState × RootCopy × Beat) × (ListId → Option Nat) :=
  ((s.part, s.lists.root, s.beat), fun l => (s.walker l).scan)

theorem Acts.scan {s t : State} (act : Acts s t) (l : ListId) : (t.walker l).scan = (s.walker l).scan := by
  have same := congrArg Walker.scan (act.walkers l)
  exact same

theorem State.scan_of_scans {s t : State} (same : t.scans = s.scans) (l : ListId) :
    (t.walker l).scan = (s.walker l).scan :=
  congrFun (congrArg Prod.snd same) l

theorem State.scans_framed : Framed State.scans where
  acts act := by
    unfold State.scans
    rw [act.part, act.root, act.beat]
    exact congrArg (Prod.mk _) (funext act.scan)
  ambient _ _ := rfl
  trunk _ _ _ := rfl
  loop _ _ _ := rfl

theorem State.scans_slotless : Slotless State.scans := fun _ _ _ => rfl

theorem State.scans_unmixed : Unmixed State.scans where
  mix _ _ _ _ _ := rfl
  granted s := by
    unfold State.scans State.walker
    rw [State.arbitrate_walkers, s.arbitrate_untouched.part, s.arbitrate_untouched.root, s.arbitrate_untouched.beat]

@[simp] theorem Walker.asked_scan (part : PartState) (w : Walker) : (w.asked part).scan = w.scan := by
  unfold Walker.asked
  repeat' split
  all_goals rfl

/-- Every scan timer whose expiry stands is started again, in RUNNING (R9). -/
theorem State.forAll_scanExpired (s : State) (l : ListId) :
    ((s.forAll ListId.all State.scanExpired).walker l).scan =
      if s.part = .running ∧ (s.walker l).scan = some 0 then some s.lists.root.scan else (s.walker l).scan := by
  rw [State.forAll_walkers (f := fun _ w => if s.part = .running ∧ w.scan = some 0 then
      Walker.asked s.part { w with scan := some s.lists.root.scan } else w) fun l t part root => ?_]
  · rw [State.walker, Tab.get_ofFn]
    change (if s.part = .running ∧ (s.walker l).scan = some 0 then _ else s.walker l).scan = _
    split
    · exact Walker.asked_scan _ _
    · rfl
  · by_cases due : t.part = .running ∧ (t.walker l).scan = some 0
    · rw [State.scanExpired_due due.1 due.2]
      refine t.modWalker_congr l ?_
      rw [part, root] at *
      rw [if_pos due]
    · rw [State.scanExpired_not_due (by simpa only [← not_and_or] using due), State.modWalker_self]
      rw [part] at due
      exact if_neg due

theorem State.forAll_scanExpired_part (s : State) : (s.forAll ListId.all State.scanExpired).part = s.part :=
  State.forAll_view (view := State.part) (fun l t => by
    by_cases due : t.part = .running ∧ (t.walker l).scan = some 0
    · rw [State.scanExpired_due due.1 due.2]; rfl
    · rw [State.scanExpired_not_due (by simpa only [← not_and_or] using due)]) _ s

theorem State.beatExpired_not_due {s : State}
    (running : s.part ≠ .running ∨ s.lists.root.beatWindow = 0 ∨ s.beat.counter ≠ 0) : s.beatExpired = s := by
  unfold State.beatExpired State.beatRunning
  rw [if_neg]
  intro due
  simp only [Bool.and_eq_true, beq_iff_eq, bne_iff_ne] at due
  obtain ⟨⟨on, window⟩, zero⟩ := due
  rcases running with off | none | more
  · exact off on
  · exact window none
  · exact more zero

theorem State.stepTimers_scan (s : State) (l : ListId) : (s.stepTimers.walker l).scan =
    if s.part = .running then (s.walker l).scan.map (· - 1) else (s.walker l).scan := by
  unfold State.stepTimers State.walker
  dsimp only
  split
  · exact congrArg Walker.scan (Tab.get_map s.lists.walkers _ l.idx)
  · rfl

/-- A period start's steps of a scan timer. -/
theorem State.settled_scan {s : State} (noFallback : s.part ≠ .running ∨ s.lists.root.beatWindow = 0 ∨ s.beat.counter ≠ 0)
    (l : ListId) : (s.settleDue.stepTimers.walker l).scan =
      if s.part = .running then
        if (s.walker l).scan = some 0 then some (s.lists.root.scan - 1) else (s.walker l).scan.map (· - 1)
      else (s.walker l).scan := by
  have before : s.linksDue.slotsDue.partiesDue.scans = s.scans := by
    rw [State.scans_framed.partiesDue, State.scans_framed.slotsDue State.scans_slotless,
      State.scans_framed.linksDue State.scans_slotless]
  generalize due : s.linksDue.slotsDue.partiesDue = u at before
  simp only [State.scans, Prod.mk.injEq] at before
  obtain ⟨⟨part, root, beat⟩, timers⟩ := before
  have here : (u.walker l).scan = (s.walker l).scan := congrFun timers l
  have noBeat : u.beatExpired = u := State.beatExpired_not_due (by rw [part, root, beat]; exact noFallback)
  rw [State.settleDue_eq, due, noBeat, State.stepTimers_scan, State.forAll_scanExpired, State.forAll_scanExpired_part,
    part, root, here]
  by_cases running : s.part = .running
  · by_cases expired : (s.walker l).scan = some 0
    · simp [running, expired]
    · simp [running, expired]
  · simp [running]

end Sys2Proof.Machine

/-- Settles O11: a request changes one walker, and a period start's acts other than the timers' leave the scan timers. -/
theorem walkRequests : Obligations.WalkRequests := by
  unfold Obligations.WalkRequests
  intro s
  refine ⟨fun value => ?_, fun l => ⟨fun running due =>
    congrArg (Host.Outcome.next ∘ State.arbitrate) (State.scanExpired_due running due), fun idle =>
    congrArg (Host.Outcome.next ∘ State.arbitrate) (State.scanExpired_not_due idle), fun audio => ?_⟩⟩
  · change Host.Outcome.next (s.nudge value).arbitrate = _
    rw [s.nudge_eq]
    rfl
  · obtain ⟨t, answered, kept⟩ := State.scans_framed.period State.scans_unmixed audio s
    have timer := State.scan_of_scans kept l
    refine ⟨t, answered, fun off => ?_, fun running monitored _ => ?_⟩
    · rw [timer, State.settled_scan (.inl off), if_neg off]
    · rw [timer, State.settled_scan (.inr monitored), if_pos running]

end

section
/-! PROOF. The completions of a walk: RECORD_READ, LINK_READ, BLOCK_READ, TAKEN_WRITE and RETURN_WRITE (R8 to R14). Each
walk operation is one update of its walker (Laws/Walks.lean); here the tests of a record and of a link choose which. -/

open Sys2Proof Sys2Proof.Machine

namespace Sys2Proof.Machine

/-! ### The room of a record (R14) -/

theorem State.noRoom_cue (s : State) {h : Hand} (kind : h.kind = 0x40) :
    s.noRoom h = true ↔ 16 ≤ s.theatre.queue.length := by
  simp [State.noRoom, kind]

theorem State.noRoom_noteSpace (s : State) {h : Hand} (kind : h.kind = 0x50) :
    s.noRoom h = true ↔ s.notes.held ≠ none := by
  simp [State.noRoom, kind, Option.isSome_iff_ne_none]

theorem State.noRoom_snapshot (s : State) {h : Hand} (kind : h.kind = 0x08) :
    s.noRoom h = true ↔ s.lists.snap ≠ none := by
  simp [State.noRoom, kind, Option.isSome_iff_ne_none]

theorem State.noRoom_capture (s : State) {h : Hand} {o : Fin 256} (kind : h.kind = 0x06)
    (method : (calibrateRec h.bytes).method = 1) (outlet : (calibrateRec h.bytes).outlet = o.val) :
    ((calibrateRec h.bytes).target = 0 → (s.noRoom h = true ↔ (s.ambient.outlets.get o).capture ≠ none)) ∧
    ((calibrateRec h.bytes).target = 1 → (s.noRoom h = true ↔ (s.loops.get o).capture ≠ none)) := by
  constructor <;> intro target <;> simp [State.noRoom, kind, method, outlet, target, Option.isSome_iff_ne_none]

/-- A CALIBRATE that is no capture of an outlet's target has room (log entry 32). -/
theorem State.noRoom_calibrate (s : State) {h : Hand} (kind : h.kind = 0x06)
    (other : (calibrateRec h.bytes).method ≠ 1 ∨ 256 ≤ (calibrateRec h.bytes).outlet ∨ 1 < (calibrateRec h.bytes).target) :
    s.noRoom h = false := by
  rcases other with method | outlet | target
  · simp [State.noRoom, kind, method]
  · simp [State.noRoom, kind, toFin?_none outlet]
  · have ambient : (calibrateRec h.bytes).target ≠ 0 := by omega
    have loop : (calibrateRec h.bytes).target ≠ 1 := by omega
    simp only [State.noRoom, kind, ambient, loop]
    cases toFin? 256 (calibrateRec h.bytes).outlet <;> simp

theorem State.noRoom_other (s : State) {h : Hand} (kind : h.kind ∉ [0x40, 0x50, 0x08, 0x06]) : s.noRoom h = false := by
  simp only [List.mem_cons, List.not_mem_nil, or_false, not_or] at kind
  simp [State.noRoom, kind]

/-! ### A record read (R10, R11) -/

theorem State.recordArrives_over {s : State} {l : ListId} (d : List Byte)
    (past : (s.walker l).ending = true ∨ (s.walker l).stale = true) :
    s.recordArrives l d = s.modWalker l (Walker.ended s.part (s.walker l).state) := by
  unfold State.recordArrives
  rw [if_pos (by simpa using past), State.endWalk_eq]

theorem State.recordArrives_notMine {s : State} {l : ListId} {d : List Byte} (ending : (s.walker l).ending = false)
    (stale : (s.walker l).stale = false) (test : bitOf (byteAt d 0) 7 = false ∨ byteAt d 1 % 128 = 0x01) :
    s.recordArrives l d = s.modWalker l (Walker.ended s.part .idle) := by
  rw [← State.endWalkIn_eq]
  rcases test with host | taken
  · simp [State.recordArrives, ending, stale, host]
  · simp [State.recordArrives, ending, stale, stTaken, taken]

theorem State.recordArrives_take {s : State} {l : ListId} {d : List Byte} (ending : (s.walker l).ending = false)
    (stale : (s.walker l).stale = false) (part : bitOf (byteAt d 0) 7 = true) (fresh : byteAt d 1 % 128 ≠ 0x01) :
    s.recordArrives l d = s.takeRecord l { addr := (s.walker l).cursor, bytes := d } := by
  simp [State.recordArrives, ending, stale, stTaken, part, fresh]

section
variable {s : State} {l : ListId} {h : Hand}

theorem State.takeRecord_badKind (stale : (s.walker l).stale = false) (kind : h.kind ∉ kindsOf l) :
    s.takeRecord l h = s.modWalker l (Walker.goesOn
      (.returnWrite h { record := h.ref false, status := stBadKind, results := [] } false)) := by
  unfold State.takeRecord
  rw [if_pos (by simpa using kind)]
  exact s.settle_setStage_eq l _ stale

theorem State.takeRecord_noRoom (kind : h.kind ∈ kindsOf l) (full : s.noRoom h = true) :
    s.takeRecord l h = s.modWalker l (Walker.ended s.part .stalled) := by
  unfold State.takeRecord
  rw [if_neg (by simpa using kind), if_pos full, State.endWalkIn_eq]

theorem State.takeRecord_badPointer (stale : (s.walker l).stale = false) (kind : h.kind ∈ kindsOf l)
    (room : s.noRoom h = false) (bad : ∃ p ∈ h.pointers, s.inWindow p.addr p.size 32 = false) :
    s.takeRecord l h = s.modWalker l (Walker.goesOn
      (.returnWrite h { record := h.ref false, status := stBadField, results := [] } true)) := by
  unfold State.takeRecord
  rw [if_neg (by simpa using kind), if_neg (by simp [room]), if_pos (by simpa using bad)]
  exact s.settle_setStage_eq l _ stale

theorem State.takeRecord_good (stale : (s.walker l).stale = false) (kind : h.kind ∈ kindsOf l)
    (room : s.noRoom h = false) (good : ∀ p ∈ h.pointers, s.inWindow p.addr p.size 32 = true) :
    s.takeRecord l h = s.modWalker l (Walker.goesOn
      (if (h.pointers.filter (·.read)).isEmpty then .handOver h []
       else .blockRead h [] ((h.pointers.filter (·.read)).map fun p => (p.addr, p.size)))) := by
  unfold State.takeRecord
  rw [if_neg (by simpa using kind), if_neg (by simp [room]), if_neg (by simpa using good)]
  cases h.pointers.filter (·.read) with
  | nil => exact s.settle_setStage_eq l _ stale
  | cons p ps => exact s.settle_setStage_eq l _ stale

end

/-! ### The link (R12, R13) -/

/-- Link handling, as one update. -/
theorem State.handleLink_eq (s : State) (l : ListId) (addr link : Nat) : s.handleLink l addr link =
    if (s.walker l).stale then s.modWalker l (Walker.ended s.part (s.walker l).state)
    else if link = 0 then s.modWalker l (Walker.ended s.part .tail)
    else if link = addr ∨ s.inWindow link 64 64 = false then s.walkFaulted l
    else if (s.walker l).ending then
      (s.modWalker l fun x => { x with cursor := link }).modWalker l (Walker.ended s.part .idle)
    else s.modWalker l fun x => Walker.goesOn .recordRead { x with cursor := link } := by
  unfold State.handleLink
  by_cases stale : (s.walker l).stale = true
  · rw [if_pos stale, if_pos stale, State.endWalk_eq]
  · have live : (s.walker l).stale = false := by simpa using stale
    rw [if_neg stale, if_neg stale, State.endWalkIn_eq, s.walkFault_eq l live, s.followLink_eq l link live]
    simp

theorem State.linkArrives_over {s : State} {l : ListId} (link : Nat)
    (past : (s.walker l).ending = true ∨ (s.walker l).stale = true) :
    s.linkArrives l link = s.modWalker l (Walker.ended s.part (s.walker l).state) := by
  unfold State.linkArrives
  rw [if_pos (by simpa using past), State.endWalk_eq]

theorem State.linkArrives_live {s : State} {l : ListId} (link : Nat) (ending : (s.walker l).ending = false)
    (stale : (s.walker l).stale = false) : s.linkArrives l link =
    if link = 0 then s.modWalker l (Walker.ended s.part .tail)
    else if link = (s.walker l).cursor ∨ s.inWindow link 64 64 = false then s.walkFaulted l
    else s.modWalker l fun x => Walker.goesOn .recordRead { x with cursor := link } := by
  unfold State.linkArrives
  rw [if_neg (by simp [ending, stale]), State.handleLink_eq, if_neg (by simp [stale]), if_neg (c := _ = true) (by simp [ending])]

/-! ### The completions -/

theorem exec_recordRead_of {s : State} {l : ListId} (granted : s.port.grant = some ⟨.recordRead l, false⟩) (d : List Byte) :
    exec (.recordRead l d) s = .next ((s.endGrant (.recordRead l)).recordArrives l d).arbitrate :=
  congrArg Host.Outcome.next (State.complete_of _ granted (by simp [Transfer.isRecordRead]))

theorem exec_linkRead_of {s : State} {l : ListId} (granted : s.port.grant = some ⟨.linkRead l, false⟩) (link : Word) :
    exec (.linkRead l link) s = .next ((s.endGrant (.linkRead l)).linkArrives l link.toNat).arbitrate :=
  congrArg Host.Outcome.next (State.complete_of _ granted (by simp [Transfer.isLinkRead]))

theorem exec_blockRead_of {s : State} {l : ListId} (granted : s.port.grant = some ⟨.blockRead l, false⟩) (d : List Byte) :
    exec (.blockRead l d) s = .next ((s.endGrant (.blockRead l)).blockArrives l d).arbitrate :=
  congrArg Host.Outcome.next (State.complete_of _ granted (by simp [Transfer.isBlockRead]))

theorem exec_takenWrite_of {s : State} {l : ListId} {w : PortWrite}
    (granted : s.port.grant = some ⟨.takenWrite l w, false⟩) :
    exec (.takenWrite l) s = .next ((s.endGrant (.takenWrite l w)).takenDone l).arbitrate :=
  congrArg Host.Outcome.next (State.complete_of _ granted (by simp [Transfer.isTakenWrite]))

theorem exec_returnWrite_of {s : State} {l : ListId} {w : PortWrite}
    (granted : s.port.grant = some ⟨.returnWrite l w, false⟩) :
    exec (.returnWrite l) s = .next ((s.endGrant (.returnWrite l w)).returnDone l).arbitrate :=
  congrArg Host.Outcome.next (State.complete_of _ granted (by simp [Transfer.isReturnWrite]))

theorem exec_pendingReturn_of {s : State} {l : ListId} {w : PortWrite}
    (granted : s.port.grant = some ⟨.pendingReturn l w, false⟩) :
    exec (.returnWrite l) s = .next ((s.endGrant (.pendingReturn l w)).setCause (returnCause l)).arbitrate :=
  congrArg Host.Outcome.next (State.complete_of _ granted (by simp [Transfer.isReturnWrite]))

/-! ### The bytes of a completed write -/

theorem returnCause_eq (l : ListId) : returnCause l = if l = .note then .note else .returned := by
  cases l <;> rfl

/-- A list fault, of a stale walk too. -/
theorem State.walkFault_cases (s : State) (l : ListId) : s.walkFault l =
    if (s.walker l).stale then s.modWalker l (Walker.ended s.part (s.walker l).state) else s.walkFaulted l := by
  by_cases stale : (s.walker l).stale = true
  · rw [if_pos stale, State.walkFault, if_pos stale, State.endWalk_eq]
  · rw [if_neg stale, s.walkFault_eq l (by simpa using stale)]

theorem State.handleLink_port (s : State) (l : ListId) (addr link : Nat) : (s.handleLink l addr link).port = s.port := by
  rw [State.handleLink_eq]
  split_ifs <;> rfl

theorem State.walkFault_port (s : State) (l : ListId) : (s.walkFault l).port = s.port := by
  rw [State.walkFault_cases]
  split_ifs <;> rfl

theorem State.takenDone_of {s : State} {l : ListId} {h : Hand} {m : Bool} (stage : (s.walker l).stage = .takenWrite h m) :
    s.takenDone l = (s.takenReady l h).handleLink l h.addr h.link := by
  rw [State.takenDone, stage]

theorem State.returnDone_of {s : State} {l : ListId} {h : Hand} {r : Return} {bad : Bool}
    (stage : (s.walker l).stage = .returnWrite h r bad) : s.returnDone l =
      if bad then (s.setCause (returnCause l)).walkFault l else (s.setCause (returnCause l)).handleLink l h.addr h.link := by
  have here : ((s.setCause (returnCause l)).walker l).stage = .returnWrite h r bad := stage
  rw [State.returnDone, here]

theorem State.takenDone_port (s : State) (l : ListId) : (s.takenDone l).port = s.port := by
  unfold State.takenDone
  split
  · rw [State.handleLink_port]
    cases l <;> rfl
  · rfl

theorem State.returnDone_port (s : State) (l : ListId) : (s.returnDone l).port = s.port := by
  simp only [State.returnDone]
  split
  · split_ifs
    · exact State.walkFault_port _ l
    · exact State.handleLink_port _ l _ _
  · rfl

/-- A completed write's bytes stand in `port.written`, whether its effect is discarded or not (log entry 5). -/
theorem State.complete_written (s : State) {mine : Transfer → Bool} {f : Transfer → State → State} {t : Transfer}
    {discard : Bool} {w : PortWrite} (granted : s.port.grant = some ⟨t, discard⟩) (accepted : mine t = true)
    (bytes : t.write? = some w) (keeps : (f t (s.endGrant t)).port = (s.endGrant t).port) :
    (s.complete mine f).port.written = some w := by
  have ended : (s.endGrant t).port.written = some w := by simp [State.endGrant, bytes]
  rw [State.complete, granted]
  cases discard <;> simp [accepted, keeps, ended]

end Sys2Proof.Machine

/-- Settles O14: the tests of a record read, in their order. -/
theorem recordRead : Obligations.RecordRead := by
  unfold Obligations.RecordRead
  refine ⟨fun s h => ⟨s.noRoom_cue, s.noRoom_noteSpace, s.noRoom_snapshot, fun o => s.noRoom_capture,
    s.noRoom_calibrate, s.noRoom_other⟩, ?_⟩
  intro s l d w h base granted
  rw [exec_recordRead_of granted]
  refine ⟨fun past => ?_, fun ending stale test => ?_, fun ending stale part fresh => ?_⟩
  · rw [State.recordArrives_over (s := s.endGrant _) d past]
    rfl
  · rw [State.recordArrives_notMine (s := s.endGrant _) ending stale test]
    rfl
  · rw [State.recordArrives_take (s := s.endGrant _) ending stale part fresh]
    exact ⟨fun kind => congrArg (Host.Outcome.next ∘ State.arbitrate) (State.takeRecord_badKind (s := s.endGrant _) stale kind),
      fun kind full => congrArg (Host.Outcome.next ∘ State.arbitrate) (State.takeRecord_noRoom (s := s.endGrant _) kind full),
      fun kind room bad => congrArg (Host.Outcome.next ∘ State.arbitrate) (State.takeRecord_badPointer (s := s.endGrant _) stale kind room bad),
      fun kind room good => congrArg (Host.Outcome.next ∘ State.arbitrate) (State.takeRecord_good (s := s.endGrant _) stale kind room good)⟩

/-- Settles O15. -/
theorem linkAndBlockReads : Obligations.LinkAndBlockReads := by
  unfold Obligations.LinkAndBlockReads
  refine ⟨?_, fun s l d h got x left granted stage => ?_⟩
  · intro s l link w base granted
    rw [exec_linkRead_of granted]
    have zero : link.toNat = 0 ↔ link = 0 := BitVec.toNat_eq (y := 0#32) |>.symm
    refine ⟨fun past => ?_, fun ending stale => ?_⟩
    · rw [State.linkArrives_over (s := s.endGrant _) _ past]
      rfl
    · rw [State.linkArrives_live (s := s.endGrant _) link.toNat ending stale]
      refine ⟨fun none => ?_, fun some bad => ?_, fun some other good => ?_⟩
      · rw [if_pos (zero.mpr none)]
        rfl
      · exact congrArg (Host.Outcome.next ∘ State.arbitrate) ((if_neg (zero.not.mpr some)).trans (if_pos bad))
      · have accepted : ¬(link.toNat = w.cursor ∨ s.inWindow link.toNat 64 64 = false) := by simp [other, good]
        exact congrArg (Host.Outcome.next ∘ State.arbitrate) ((if_neg (zero.not.mpr some)).trans (if_neg accepted))
  · have here : ((s.endGrant (.blockRead l)).walker l).stage = .blockRead h got (x :: left) := stage
    rw [exec_blockRead_of granted, State.blockArrives, here]
    cases left <;> rfl

/-- Settles O16. -/
theorem takenAndReturnWrites : Obligations.TakenAndReturnWrites := by
  unfold Obligations.TakenAndReturnWrites
  constructor
  · intro s l h header returned
    refine ⟨fun _ => rfl, fun m stage => ?_, fun r bad stage => ?_, fun r rest queue => ?_,
      fun w discard => ⟨fun granted => ?_, fun granted => ?_⟩⟩
    · rw [State.walkerRequest, stage]
      cases m <;> simp [Hand.takenWrite, headerWord, Hand.kind, Hand.tag, bytes1, bytes2, marked, stTaken, header]
    · rw [State.walkerRequest, stage]
      simp [Return.write, headerWord, bytes1, bytes2, returned, header]
    · rw [State.returnRequest, queue]
      simp [Return.write, headerWord, bytes1, bytes2, returned, header]
    · exact ⟨_, rfl, s.complete_written granted (by simp [Transfer.isTakenWrite]) rfl (State.takenDone_port _ l)⟩
    · rcases granted with own | pending
      · exact ⟨_, rfl, s.complete_written own (by simp [Transfer.isReturnWrite]) rfl (State.returnDone_port _ l)⟩
      · exact ⟨_, rfl, s.complete_written pending (by simp [Transfer.isReturnWrite]) rfl rfl⟩
  · intro s l w h cause ended fault linked
    refine ⟨fun granted => ?_, fun r granted stage => ?_, fun r granted stage => ?_, ?_⟩
    · rw [exec_pendingReturn_of granted, returnCause_eq]
    · rw [exec_returnWrite_of granted, State.returnDone_of (s := s.endGrant _) stage, returnCause_eq]
      exact congrArg (Host.Outcome.next ∘ State.arbitrate) (State.handleLink_eq _ l _ _)
    · rw [exec_returnWrite_of granted, State.returnDone_of (s := s.endGrant _) stage, returnCause_eq]
      exact congrArg (Host.Outcome.next ∘ State.arbitrate) (State.walkFault_cases _ l)
    · intro m granted stage base
      rw [exec_takenWrite_of granted, State.takenDone_of (s := s.endGrant _) stage, State.handleLink_eq]
      refine ⟨fun _ _ => ?_, fun note => ?_, fun setup => ?_⟩
      · cases l <;> first | contradiction | rfl
      · subst note
        rfl
      · subst setup
        rfl

end

section
/-! PROOF. The targets and the steps of the current gains (R66 to R72), the compensation factor (R88), and the wave of a
tone voice (R79, R80). -/

open Sys2Proof Sys2Proof.Machine

namespace Sys2Proof.Machine

/-! ### What is latched of a claim, and the foreground target -/

theorem ProgKind.compensated_iff (k : ProgKind) : k.compensated = true ↔ k = .announce ∨ k = .page ∨ k = .alarm := by
  cases k <;> simp [ProgKind.compensated]

theorem State.latch_program (s : State) {c : Claim} {p : Fin 64} (owner : c.owner = .program p) : s.latch c =
    { id := (.program p, c.arrival), gain := if p.val < 59 then (s.programs.get p).gain else 4096
      ending := (s.programs.get p).state == .ending, alarm := 60 ≤ p.val
      speech := (s.programs.get p).kind.compensated } := by
  have swap : (if 59 ≤ p.val then 4096 else (s.programs.get p).gain) =
      if p.val < 59 then (s.programs.get p).gain else 4096 := by split_ifs <;> first | rfl | omega
  rw [State.latch, owner]
  simp only [swap]

theorem State.latch_party (s : State) {c : Claim} {k : Fin 16} {i : Fin 8} {q : Party} (owner : c.owner = .party k i)
    (party : (s.calls.get k).parties[i.val]? = some q) : s.latch c =
      { id := (.party k i, c.arrival), gain := q.listen, ending := false, alarm := false, speech := false } := by
  rw [State.latch, owner]
  simp [party]

/-! ### The step of a current gain -/

theorem stepGain_zero (cur target : Nat) : stepGain 0 cur target = target := rfl

theorem stepGain_near {step cur target : Nat} (down : target ≤ cur + step) (up : cur ≤ target + step) :
    stepGain step cur target = target := by
  unfold stepGain
  split_ifs <;> omega

theorem stepGain_up {step cur target : Nat} (moves : step ≠ 0) (far : cur + step < target) :
    stepGain step cur target = cur + step := by
  unfold stepGain
  split_ifs <;> omega

theorem stepGain_down {step cur target : Nat} (moves : step ≠ 0) (far : target + step < cur) :
    stepGain step cur target = cur - step := by
  unfold stepGain
  split_ifs <;> omega

/-- A gain never passes its target. -/
theorem stepGain_between (step cur target : Nat) :
    min cur target ≤ stepGain step cur target ∧ stepGain step cur target ≤ max cur target := by
  unfold stepGain
  split_ifs <;> omega

/-! ### The foreground's step: where it starts, and its duck-hold timer -/

section
variable {out : Outlet} {h : Latch} {m : MixEntry} (factor : Nat)

/-- A foreground that goes on keeps what its timer's step leaves of its own duck hold. -/
theorem foregroundStep_kept (same : m.fg = some h.id) : foregroundStep out factor (some h) m =
    (some h.id, stepGain out.rampStep m.gc
      (foregroundTarget out factor ((stepDuck m.duck).filter fun d => d.2 == h.id).isSome h),
      (stepDuck m.duck).filter fun d => d.2 == h.id) := by
  simp [foregroundStep, same]

theorem foregroundStep_risen (other : m.fg ≠ some h.id) (was : m.ug = some h.id) :
    foregroundStep out factor (some h) m =
      (some h.id, stepGain out.rampStep m.uc (foregroundTarget out factor (startDuck out h).isSome h),
        startDuck out h) := by
  simp [foregroundStep, other, was]

theorem foregroundStep_new (other : m.fg ≠ some h.id) (under : m.ug ≠ some h.id) :
    foregroundStep out factor (some h) m =
      (some h.id, stepGain out.rampStep (if h.alarm then foregroundTarget out factor false h else 0)
        (foregroundTarget out factor false h), none) := by
  cases alarm : h.alarm <;> simp [foregroundStep, other, under, alarm]

theorem foregroundStep_id (m : MixEntry) (h : Latch) : (foregroundStep out factor (some h) m).1 = some h.id := by
  by_cases same : m.fg = some h.id
  · rw [foregroundStep_kept factor same]
  · by_cases was : m.ug = some h.id
    · rw [foregroundStep_risen factor same was]
    · rw [foregroundStep_new factor same was]

theorem foregroundTarget_ending (out : Outlet) (held : Bool) (ending : h.ending = true) :
    foregroundTarget out factor held h = 0 := if_pos ending

theorem foregroundTarget_held (out : Outlet) (lasts : h.ending = false) :
    foregroundTarget out factor true h = duckedTarget out h.gain := by
  simp [foregroundTarget, lasts]

/-- Compensation or none, then the alarm floor or none (R66). -/
theorem foregroundTarget_open (out : Outlet) (lasts : h.ending = false) : foregroundTarget out factor false h =
    if h.alarm then
      max (min 65535 (if out.compEnable ∧ h.speech then baseGain out h.gain * factor / 4096 else baseGain out h.gain))
        out.alarmFloor
    else min 65535 (if out.compEnable ∧ h.speech then baseGain out h.gain * factor / 4096 else baseGain out h.gain) := by
  cases comp : out.compEnable <;> cases speech : h.speech <;> simp [foregroundTarget, lasts, comp, speech]

theorem foregroundTarget_le (out : Outlet) (held : Bool) (h : Latch) (floor : out.alarmFloor ≤ 65535) :
    foregroundTarget out factor held h ≤ 65535 := by
  cases ending : h.ending with
  | true => rw [foregroundTarget_ending factor out held ending]; omega
  | false =>
    cases held with
    | true => rw [foregroundTarget_held factor out ending]; exact min_le_left _ _
    | false => rw [foregroundTarget_open factor out ending]; split_ifs <;> omega

end

/-! ### The compensation factor -/

theorem compensation_unity {out : Outlet} (off : out.compEnable = false ∨ out.senseInlet = none) (level baseline : Nat) :
    compensation out level baseline = 4096 := by
  rcases off with disabled | senseless
  · simp [compensation, disabled]
  · simp [compensation, senseless]

theorem compensation_open {out : Outlet} (enabled : out.compEnable = true) (senses : out.senseInlet ≠ none)
    (level baseline : Nat) : compensation out level baseline = 4096 +
      (max 0 (min (out.cap : Int)
        (Int.tdiv (((level : Int) - baseline - out.margin) * out.slope) 256))).toNat := by
  simp [compensation, enabled, senses, trunc]

theorem compensation_range (out : Outlet) (level baseline : Nat) :
    4096 ≤ compensation out level baseline ∧ compensation out level baseline ≤ 4096 + out.cap := by
  unfold compensation
  split_ifs
  · omega
  · dsimp only
    omega

/-! ### The wave -/

theorem rawTone_rising {p : Nat} (first : p < 32768) : rawTone p = ((p : Int) - 16384) * 512 := by
  simp [rawTone, first]

theorem rawTone_falling {p : Nat} (second : 32768 ≤ p) : rawTone p = (49151 - (p : Int)) * 512 := by
  unfold rawTone
  rw [if_neg (by omega)]
  omega

theorem rawTone_range {p : Nat} (phase : p < 65536) : -8388608 ≤ rawTone p ∧ rawTone p ≤ 8388096 := by
  unfold rawTone
  split_ifs <;> omega

/-- The samples of a block: sample `k` at phase p + k·inc modulo 65,536. -/
theorem toneBlock_get (level inc n p k : Nat) (within : k < n) (phase : p < 65536) :
    (toneBlock level inc n p).1[k]? = some (toneSample ((p + k * inc) % 65536) level) := by
  induction n generalizing p k with
  | zero => omega
  | succ n ih =>
    cases k with
    | zero => simp [toneBlock, Nat.mod_eq_of_lt phase]
    | succ k =>
      have step := ih ((p + inc) % 65536) k (by omega) (Nat.mod_lt _ (by omega))
      have shift : ((p + inc) % 65536 + k * inc) % 65536 = (p + (k + 1) * inc) % 65536 := by
        rw [Nat.mod_add_mod, Nat.succ_mul]
        congr 1
        omega
      rw [shift] at step
      simpa [toneBlock] using step

theorem toneBlock_length (level inc n p : Nat) : (toneBlock level inc n p).1.length = n := by
  induction n generalizing p with
  | zero => rfl
  | succ n ih => simp [toneBlock, ih]

/-- The phase after a block. -/
theorem toneBlock_phase (level inc n p : Nat) (phase : p < 65536) :
    (toneBlock level inc n p).2 = (p + n * inc) % 65536 := by
  induction n generalizing p with
  | zero => simp [toneBlock, Nat.mod_eq_of_lt phase]
  | succ n ih =>
    have step := ih ((p + inc) % 65536) (Nat.mod_lt _ (by omega))
    rw [Nat.mod_add_mod, Nat.add_assoc, Nat.add_comm inc, ← Nat.succ_mul] at step
    exact step

end Sys2Proof.Machine

/-- Settles O34. -/
theorem foregroundTarget : Obligations.ForegroundTarget := by
  unfold Obligations.ForegroundTarget
  refine ⟨fun s c => ⟨fun p owner => ?_, fun k i q owner party => s.latch_party owner party⟩, ?_⟩
  · rw [s.latch_program owner]
    exact ⟨rfl, rfl, by simp, by simp, ProgKind.compensated_iff _⟩
  · intro out factor h base
    have plain : out.compEnable = false ∨ h.speech = false → ¬(out.compEnable = true ∧ h.speech = true) := by
      rintro (off | mute) ⟨on, speech⟩ <;> simp_all
    refine ⟨fun held ending => foregroundTarget_ending factor out held ending, fun lasts => foregroundTarget_held factor out lasts,
      fun lasts alarm off => ?_, fun lasts alarm comp speech => ?_, fun lasts alarm off => ?_,
      fun lasts alarm comp speech => ?_, fun held => foregroundTarget_le factor out held h⟩
    · simp [foregroundTarget_open factor out lasts, alarm, plain off, base, baseGain]
    · simp [foregroundTarget_open factor out lasts, alarm, comp, speech, base, baseGain]
    · simp [foregroundTarget_open factor out lasts, alarm, plain off, base, baseGain]
    · simp [foregroundTarget_open factor out lasts, alarm, comp, speech, base, baseGain]

/-- Settles O36: the steps of one gain, and by `foregroundStep`'s three cases and `undertoneStep`'s where each starts. -/
theorem gainSteps : Obligations.GainSteps := by
  unfold Obligations.GainSteps
  refine ⟨fun step cur target => ⟨fun zero => zero ▸ stepGain_zero cur target, stepGain_near, stepGain_up, stepGain_down,
    stepGain_between step cur target⟩, ?_⟩
  intro out factor h under m t n
  have held (lasts : h.ending = false) : foregroundTarget out factor true h =
      min 65535 (h.gain * out.trim / 4096 * out.duckDepth / 4096) := foregroundTarget_held factor out lasts
  refine ⟨?_, rfl, fun holder u => ⟨rfl, fun same => ?_, fun other was => ?_, fun other new => ?_, rfl, rfl⟩, rfl, rfl, rfl,
    fun same idle => ?_, fun left same runs lasts more => ?_, fun left same runs ending more => ?_,
    fun left same runs ends => ?_, fun other was lasts holds => ?_, fun other was off => ?_,
    fun other new alarm => ?_, fun other new voice => ?_⟩
  · exact foregroundStep_id factor m h
  · simp [same]
  · simp [other, was]
  · simp [other, new]
  · simp [n, t, mixStep, foregroundStep_kept factor same, idle, stepDuck]
  · have timer : stepDuck m.duck = some (left - 1, h.id) := by simp [runs, stepDuck, more]
    simp [n, mixStep, foregroundStep_kept factor same, timer, held lasts]
  · have timer : stepDuck m.duck = some (left - 1, h.id) := by simp [runs, stepDuck, more]
    simp [n, mixStep, foregroundStep_kept factor same, timer, foregroundTarget_ending factor out _ ending]
  · have timer : stepDuck m.duck = none := by simp [runs, stepDuck, ends]
    simp [n, t, mixStep, foregroundStep_kept factor same, timer]
  · simp [n, mixStep, foregroundStep_risen factor other was, startDuck, holds, lasts, held lasts]
  · have timer : startDuck out h = none := by
      rcases off with ending | zero <;> simp [startDuck, *]
    simp [n, t, mixStep, foregroundStep_risen factor other was, timer]
  · simp only [n, t, mixStep, foregroundStep_new factor other new, alarm, if_true, and_true]
    exact stepGain_near (by omega) (by omega)
  · simp [n, t, mixStep, foregroundStep_new factor other new, voice]

/-- Settles O40. -/
theorem compensation : Obligations.Compensation := by
  unfold Obligations.Compensation
  intro out level baseline e c
  refine ⟨fun off => compensation_unity off level baseline, fun enabled senses => ⟨fun low => ?_, fun high => ?_⟩,
    compensation_range out level baseline⟩
  · have falls : Int.tdiv (e * out.slope) 256 ≤ 0 := by
      have product : e * out.slope ≤ 0 := Int.mul_nonpos_of_nonpos_of_nonneg low (Int.natCast_nonneg _)
      rw [← Int.neg_nonneg, ← Int.neg_tdiv]
      exact Int.tdiv_nonneg (by omega) (by omega)
    have none : c = 4096 + (max 0 (min (out.cap : Int) (Int.tdiv (e * out.slope) 256))).toNat :=
      compensation_open enabled senses level baseline
    omega
  · have rises : Int.tdiv (e * out.slope) 256 = e * out.slope / 256 :=
      Int.tdiv_eq_ediv_of_nonneg (Int.mul_nonneg high (Int.natCast_nonneg _))
    have raised : 0 ≤ e * out.slope / 256 := Int.ediv_nonneg (Int.mul_nonneg high (Int.natCast_nonneg _)) (by omega)
    have some : c = 4096 + (max 0 (min (out.cap : Int) (Int.tdiv (e * out.slope) 256))).toNat :=
      compensation_open enabled senses level baseline
    omega

/-- Settles O45. -/
theorem toneWave : Obligations.ToneWave := by
  unfold Obligations.ToneWave
  refine ⟨by decide, fun freq => ?_, fun p phase => ?_, fun p level => ?_, fun x g sounding segment => ?_⟩
  · unfold phaseInc
    omega
  · obtain ⟨low, high⟩ := rawTone_range phase
    exact ⟨low, high, rawTone_rising, rawTone_falling⟩
  · refine ⟨rfl, le_max_left _ _, max_le (by omega) (min_le_left _ _), by simp [toneSample, trunc, sat24], fun phase => ?_⟩
    obtain ⟨low, high⟩ := rawTone_range phase
    have whole : Int.tdiv (rawTone p * (4096 : Nat)) 4096 = rawTone p := Int.mul_tdiv_cancel _ (by omega)
    rw [toneSample, trunc, whole, sat24]
    omega
  · refine ⟨fun rest => ?_, fun sounds phase => ?_⟩
    · simp [Voice.give, sounding, segment, rest]
    · have block : x.give = ((toneBlock g.level x.inc 48 x.phase).1,
          { x with left := x.left - 1, phase := (toneBlock g.level x.inc 48 x.phase).2 }) := by
        simp [Voice.give, sounding, segment, sounds]
      rw [block]
      exact ⟨toneBlock_length _ _ _ _, fun k within => toneBlock_get _ _ _ _ _ within phase,
        by rw [toneBlock_phase _ _ _ _ phase]⟩

end

section
/-! PROOF. The records of the SETUP list that only answer and set tables: DEFINE_INLET (R27), DEFINE_STATION (R29, R30),
SNAPSHOT (R16), DEFINE_PATTERN (R133, R134), DEFINE_ALARM (R139) and CALIBRATE (R89 to R91, R175). -/

open Sys2Proof Sys2Proof.Machine

namespace Sys2Proof.Machine

/-! ### Readers of codes and clamps -/

theorem toFin?_eq_none_iff {n i : Nat} : toFin? n i = none ↔ n ≤ i := by
  unfold toFin?
  split_ifs with below <;> simp_all

theorem inletKindOf_eq_none_iff (n : Nat) : inletKindOf n = none ↔ 5 < n := by
  match n with
  | 0 | 1 | 2 | 3 | 4 | 5 => simp [inletKindOf]
  | m + 6 => exact iff_of_true rfl (by omega)

theorem alarmKindOf_eq_none_iff (n : Nat) : alarmKindOf n = none ↔ 4 ≤ n := by
  match n with
  | 0 | 1 | 2 | 3 => simp [alarmKindOf]
  | m + 4 => exact iff_of_true rfl (by omega)

@[simp] theorem alarmKindOf_idx (k : AlarmKind) : alarmKindOf k.idx.val = some k := by
  cases k <;> rfl

/-- A clamp with the clamp mark, whose mark says on which side the value lay. -/
theorem clampMark_eq {x lo hi : Nat} (range : lo ≤ hi) :
    clampMark x lo hi = (max lo (min hi x), decide (x < lo ∨ hi < x)) := by
  have mark := (clampMark_spec (x := x) range).2.2.1
  ext
  · rfl
  · exact Bool.eq_iff_iff.mpr (by simpa using mark)

theorem clampMark_zero (x hi : Nat) : clampMark x 0 hi = (min hi x, decide (hi < x)) := by
  rw [clampMark_eq (Nat.zero_le hi)]
  simp

/-! ### Two changes of one entry -/

theorem State.modStation_congr (s : State) (n : Fin 64) {f g : Station → Station}
    (same : f (s.stations.get n) = g (s.stations.get n)) : s.modStation n f = s.modStation n g := by
  unfold State.modStation
  rw [Tab.modify_congr _ _ same]

theorem State.modStation_id (s : State) (n : Fin 64) : s.modStation n id = s := by
  unfold State.modStation
  rw [Tab.modify_id]

theorem State.modPattern_congr (s : State) (p : Fin 12) {f g : Pattern → Pattern}
    (same : f (s.tones.patterns.get p) = g (s.tones.patterns.get p)) : s.modPattern p f = s.modPattern p g := by
  unfold State.modPattern
  rw [Tab.modify_congr _ _ same]

theorem State.modAmbient_congr (s : State) (o : Fin 256) {f g : AmbientEntry → AmbientEntry}
    (same : f (s.ambient.outlets.get o) = g (s.ambient.outlets.get o)) : s.modAmbient o f = s.modAmbient o g := by
  unfold State.modAmbient
  rw [Tab.modify_congr _ _ same]

theorem State.modAmbient_modAmbient (s : State) (o : Fin 256) (f g : AmbientEntry → AmbientEntry) :
    (s.modAmbient o f).modAmbient o g = s.modAmbient o (g ∘ f) := by
  unfold State.modAmbient
  simp only [Tab.modify_modify]

theorem State.modLoop_congr (s : State) (o : Fin 256) {f g : Loop → Loop}
    (same : f (s.loops.get o) = g (s.loops.get o)) : s.modLoop o f = s.modLoop o g := by
  unfold State.modLoop
  rw [Tab.modify_congr _ _ same]

theorem State.modLoop_modLoop (s : State) (o : Fin 256) (f g : Loop → Loop) :
    (s.modLoop o f).modLoop o g = s.modLoop o (g ∘ f) := by
  unfold State.modLoop
  simp only [Tab.modify_modify]

/-! ### DEFINE_INLET -/

/-- What refuses a change of an inlet's kind (R27). -/
theorem State.inletInUse_iff (s : State) (i : Fin 256) (kind : InletKind) : s.inletInUse i kind = true ↔
    (∃ p, (s.programs.get p).state ≠ .free ∧ (s.programs.get p).source = .inlet i) ∨
      (∃ x, s.theatre.bindings.get x = .line i) ∨ (∃ o, (s.outlets.get o).senseInlet = some i) ∨
      (∃ n o, (s.stations.get n).binding = some (i, o)) ∨
      (kind = .contactMic ∧ ∃ j, j ≠ i ∧ s.inlets.get j = .contactMic) := by
  simp [State.inletInUse, List.any_eq_true, Tab.mem_list_iff, or_assoc, Option.any_eq_true]

/-! ### DEFINE_STATION -/

theorem State.boundElsewhere_iff (s : State) (n : Fin 64) (i o : Fin 256) : s.boundElsewhere n i o = true ↔
    ∃ m j q, m ≠ n ∧ (s.stations.get m).binding = some (j, q) ∧ (j = i ∨ q = o) := by
  simp only [State.boundElsewhere, List.any_eq_true, mem_allFin, true_and, Bool.and_eq_true, bne_iff_ne]
  refine exists_congr fun m => ?_
  cases binding : (s.stations.get m).binding with
  | none => simp
  | some b => simp [Prod.ext_iff]

theorem Station.inUse_iff (x : Station) : x.inUse = true ↔ x.state = .ringing ∨ x.state = .inCall := by
  simp [Station.inUse]

/-! ### CALIBRATE of a loop -/

/-- The loop that a new loop baseline leaves (R172, R175): the state set again, with an empty streak. -/
def State.rebased (s : State) (o : Fin 256) (b : Nat) (x : Loop) : Loop :=
  let y : Loop := { x with baseline := b, baselineSet := true, streak := none }
  if s.unserved o then y.leaveService .unserved
  else if !(s.outlets.get o).kind.takesClaims || !(s.trunks.get (trunkOf o)).supervision then y.leaveService .unsupervised
  else if Loop.judgedState x.state then y
  else { y with state := .normal }

theorem State.setLoopBaseline_eq (s : State) (o : Fin 256) (b : Nat) :
    s.setLoopBaseline o b = s.modLoop o (s.rebased o b) := by
  have watched (t : State) (set : (t.loops.get o).baselineSet = true) :
      t.watched o = (t.outlets.get o).kind.takesClaims := by simp [State.watched, set]
  unfold State.setLoopBaseline State.setLoopState
  rw [State.modLoop_modLoop, watched _ (by simp [State.modLoop])]
  rfl

theorem OutletKind.takesClaims_iff (k : OutletKind) : k.takesClaims = true ↔ k ≠ .undefined ∧ k ≠ .spare := by
  cases k <;> simp [OutletKind.takesClaims]

theorem Loop.judgedState_iff (st : LoopState) :
    Loop.judgedState st = true ↔ st = .normal ∨ st = .suspect ∨ st = .faultOpen ∨ st = .faultShort := by
  cases st <;> simp [Loop.judgedState]

theorem Loop.leaveService_state (x : Loop) (st : LoopState) : (x.leaveService st).state = st := by
  unfold Loop.leaveService
  split_ifs with there
  · exact there
  · rfl

/-- Leaving service keeps all but the state, the streak and the amplifier-fault flag. -/
theorem Loop.leaveService_rest (x : Loop) (st : LoopState) (empty : x.streak = none) :
    (x.leaveService st).baseline = x.baseline ∧ (x.leaveService st).baselineSet = x.baselineSet ∧
      (x.leaveService st).streak = none ∧ (x.leaveService st).last = x.last ∧ (x.leaveService st).capture = x.capture := by
  unfold Loop.leaveService
  split_ifs <;> simp [empty]

theorem State.rebased_kept (s : State) (o : Fin 256) (b : Nat) (x : Loop) :
    (s.rebased o b x).baseline = b ∧ (s.rebased o b x).baselineSet = true ∧ (s.rebased o b x).streak = none ∧
      (s.rebased o b x).last = x.last ∧ (s.rebased o b x).capture = x.capture := by
  unfold State.rebased
  dsimp only
  split_ifs
  · exact Loop.leaveService_rest _ _ rfl
  · exact Loop.leaveService_rest _ _ rfl
  · exact ⟨rfl, rfl, rfl, rfl, rfl⟩
  · exact ⟨rfl, rfl, rfl, rfl, rfl⟩

theorem State.rebased_unserved (s : State) {o : Fin 256} (b : Nat) (x : Loop) (out : s.unserved o = true) :
    (s.rebased o b x).state = .unserved := by
  rw [State.rebased, if_pos out, Loop.leaveService_state]

theorem State.rebased_unsupervised (s : State) {o : Fin 256} (b : Nat) (x : Loop) (served : s.unserved o = false)
    (unwatched : (s.outlets.get o).kind = .undefined ∨ (s.outlets.get o).kind = .spare ∨
      (s.trunks.get (trunkOf o)).supervision = false) : (s.rebased o b x).state = .unsupervised := by
  have test : (!(s.outlets.get o).kind.takesClaims || !(s.trunks.get (trunkOf o)).supervision) = true := by
    rcases unwatched with kind | kind | able <;> simp [OutletKind.takesClaims, *]
  rw [State.rebased, if_neg (by simp [served]), if_pos test, Loop.leaveService_state]

/-- A watched loop that was judged goes on as it was; one that was not becomes NORMAL. -/
theorem State.rebased_watched (s : State) {o : Fin 256} (b : Nat) (x : Loop) (served : s.unserved o = false)
    (defined : (s.outlets.get o).kind ≠ .undefined) (spare : (s.outlets.get o).kind ≠ .spare)
    (able : (s.trunks.get (trunkOf o)).supervision = true) :
    let judged := x.state = .normal ∨ x.state = .suspect ∨ x.state = .faultOpen ∨ x.state = .faultShort
    (judged → (s.rebased o b x).state = x.state ∧ (s.rebased o b x).ampFault = x.ampFault) ∧
      (¬judged → (s.rebased o b x).state = .normal) := by
  have takes : (s.outlets.get o).kind.takesClaims = true := (OutletKind.takesClaims_iff _).mpr ⟨defined, spare⟩
  rw [State.rebased, if_neg (by simp [served]), if_neg (by simp [takes, able])]
  refine ⟨fun judged => ?_, fun fresh => ?_⟩
  · rw [if_pos ((Loop.judgedState_iff _).mpr judged)]
    exact ⟨rfl, rfl⟩
  · rw [if_neg ((Loop.judgedState_iff _).not.mpr fresh)]

/-! ### The prime level (R95) -/

theorem settlePrime_range (n : Nat) :
    256 ≤ (settlePrime n).1 ∧ (settlePrime n).1 ≤ 4096 ∧ (settlePrime n).1 % 256 = 0 := by
  unfold settlePrime
  split_ifs <;> dsimp only <;> omega

theorem settlePrime_mark {n : Nat} (given : n ≠ 0) : (settlePrime n).2 = true ↔ (settlePrime n).1 ≠ n := by
  unfold settlePrime
  split_ifs <;> simp <;> omega

end Sys2Proof.Machine

/-- Settles O19. -/
theorem defineInlet : Obligations.DefineInlet := by
  unfold Obligations.DefineInlet
  intro s h b n k inHand code
  have ran : exec .defineInlet s = .next (s.defineInletRecord h).arbitrate :=
    congrArg Host.Outcome.next (State.handOver_of _ inHand code)
  rw [ran]
  refine ⟨fun bad => ?_, fun i kind number reads => ?_⟩
  · rw [State.defineInletRecord]
    split
    · next i kind number reads =>
      rcases bad with wide | unknown
      · rw [toFin?_none wide] at number
        contradiction
      · rw [(inletKindOf_eq_none_iff _).mpr unknown] at reads
        contradiction
    · rfl
  · have accepted : s.defineInletRecord h =
        if s.inlets.get i = kind then s.reply .setup h stDone false []
        else if s.inletInUse i kind then s.reply .setup h stInUse false []
        else State.reply .setup h stDone false [] { s with inlets := s.inlets.set i kind } := by
      have index : toFin? 256 (halfAt h.bytes 8) = some i := by rw [← toFin?_val i, ← number]
      rw [State.defineInletRecord, index, reads]
    rw [accepted]
    refine ⟨fun same => ?_, fun other inUse => ?_, fun other unused => ?_⟩
    · rw [if_pos same]
      rfl
    · rw [if_neg other, if_pos ((s.inletInUse_iff i kind).mpr inUse)]
      rfl
    · rw [if_neg other, if_neg ((s.inletInUse_iff i kind).not.mpr unused)]
      rfl

/-- Settles O21. -/
theorem snapshot : Obligations.Snapshot := by
  unfold Obligations.Snapshot
  intro s h b r size fits inHand code
  have ran : exec .snapshot s = .next (s.snapshotRecord h).arbitrate :=
    congrArg Host.Outcome.next (State.handOver_of _ inHand code)
  have entries (table : r.table ≤ 3) : snapSize r.table = size := by
    have cases4 : r.table = 0 ∨ r.table = 1 ∨ r.table = 2 ∨ r.table = 3 := by omega
    rcases cases4 with e | e | e | e <;> simp [size, e, snapSize]
  have test : (3 < r.table || r.count < 1 || snapSize r.table < r.first + r.count || r.length < 32 * r.count) = true ↔
      ¬fits := by
    by_cases table : r.table ≤ 3
    · simp only [entries table, fits, Bool.or_eq_true, decide_eq_true_eq]
      omega
    · simp [fits, table, Nat.lt_of_not_le table]
  rw [ran]
  refine ⟨fun bad => ?_, fun good => ?_⟩
  · rw [State.snapshotRecord, if_pos (test.mpr bad)]
    rfl
  · rw [State.snapshotRecord, if_neg (mt test.mp (not_not_intro good))]

/-- Settles O20: the checks in their order, then the "binds" and "undefines" columns of R30 by the station's state. -/
theorem defineStation : Obligations.DefineStation := by
  unfold Obligations.DefineStation
  have ran {s : State} {h : Hand} {b : List (List Byte)} (inHand : (s.walker .setup).stage = .handOver h b)
      (code : h.kind = 0x03) : exec .defineStation s = .next (s.defineStationRecord h).arbitrate :=
    congrArg Host.Outcome.next (State.handOver_of _ inHand code)
  refine ⟨fun s h b inHand code wide => ?_, ?_⟩
  · rw [ran inHand code, State.defineStationRecord, toFin?_none wide]
    rfl
  · intro s h b n r x hold mark inHand code number
    have clamp : clampMark r.hold 50 2000 = (hold, mark) := clampMark_eq (by decide)
    have index : toFin? 64 (stationRec h.bytes).station = some n := by rw [← toFin?_val n, ← number]
    rw [ran inHand code]
    refine ⟨fun undefines => ?_, fun binds bad => ?_, fun i o inlet outlet => ?_⟩
    · have record : s.defineStationRecord h = if x.inUse then s.reply .setup h stInUse false []
          else (s.modStation n Station.undefine).reply .setup h stDone mark [] := by
        rw [State.defineStationRecord, index]
        simp only [show (stationRec h.bytes).inlet = 0xFFFF from undefines, if_true]
        rw [show clampMark (stationRec h.bytes).hold 50 2000 = (hold, mark) from clamp]
      rw [record]
      refine ⟨fun busy => ?_, fun undefined => ?_, fun bound => ?_⟩
      · rw [if_pos (x.inUse_iff.mpr busy)]
        rfl
      · have free : ¬x.inUse = true := by simp [Station.inUse_iff, undefined]
        rw [if_neg free, s.modStation_congr n (g := id) (by simp [Station.undefine, show x.state = _ from undefined, x]),
          s.modStation_id]
        rfl
      · have free : ¬x.inUse = true := by rcases bound with e | e <;> simp [Station.inUse_iff, e]
        rw [if_neg free, s.modStation_congr n (g := fun x => { x with
          binding := none, state := .undefined, offHook := false, holdTimer := none }) ?_]
        · rfl
        · rcases bound with e | e <;> simp [Station.undefine, show (s.stations.get n).state = _ from e]
    · have record : s.defineStationRecord h = s.reply .setup h stBadField false [] := by
        rw [State.defineStationRecord, index]
        simp only [show ¬(stationRec h.bytes).inlet = 0xFFFF from binds, if_false]
        split
        · next i o inlet outlet =>
          rcases bad with wide | wide
          · rw [toFin?_none wide] at inlet
            contradiction
          · rw [toFin?_none wide] at outlet
            contradiction
        · rfl
      rw [record]
      rfl
    · have binds : ¬(stationRec h.bytes).inlet = 0xFFFF := by
        have small := i.isLt
        intro none
        have : i.val = 0xFFFF := by rw [← inlet, ← none]
        omega
      have record : s.defineStationRecord h =
          if s.inlets.get i != .stationMic || (s.outlets.get o).kind != .station || trunkOf i != trunkOf o then
            s.reply .setup h stBadField false []
          else if s.boundElsewhere n i o || (x.inUse && x.binding != some (i, o)) then s.reply .setup h stInUse false []
          else (s.modStation n fun x => x.bind (i, o) hold).reply .setup h stDone mark [] := by
        rw [State.defineStationRecord, index]
        simp only [binds, if_false]
        rw [show toFin? 256 (stationRec h.bytes).inlet = some i by rw [← toFin?_val i, ← inlet],
          show toFin? 256 (stationRec h.bytes).outlet = some o by rw [← toFin?_val o, ← outlet],
          show clampMark (stationRec h.bytes).hold 50 2000 = (hold, mark) from clamp]
      rw [record]
      refine ⟨fun bad => ?_, fun mic station same => ?_⟩
      · rw [if_pos (by simpa [or_assoc] using bad)]
        rfl
      · rw [if_neg (by simp [mic, station, same])]
        refine ⟨fun refused => ?_, ?_⟩
        · rw [if_pos (by simpa [State.boundElsewhere_iff, Station.inUse_iff] using refused)]
          rfl
        · have bound (here : ¬∃ m j q, m ≠ n ∧ (s.stations.get m).binding = some (j, q) ∧ (j = i ∨ q = o))
              (kept : (x.state = .ringing ∨ x.state = .inCall) → x.binding = some (i, o)) {f : Station → Station}
              (becomes : x.bind (i, o) hold = f x) :
              (if s.boundElsewhere n i o || (x.inUse && x.binding != some (i, o)) then s.reply .setup h stInUse false []
                else (s.modStation n fun x => x.bind (i, o) hold).reply .setup h stDone mark []) =
              (s.modStation n f).reply .setup h 0x02 mark [] := by
            have pass : ¬(s.boundElsewhere n i o || (x.inUse && x.binding != some (i, o))) = true := by
              rw [Bool.or_eq_true, Bool.and_eq_true, State.boundElsewhere_iff, Station.inUse_iff, bne_iff_ne]
              exact not_or.mpr ⟨here, fun both => both.2 (kept both.1)⟩
            rw [if_neg pass, s.modStation_congr n becomes]
            rfl
          refine ⟨fun here undefined => ?_, fun here idle => ?_, fun here lost => ?_, fun here busy kept => ?_⟩
          · rw [bound here (by simp [undefined]) (f := fun _ => _) (by simp [Station.bind, undefined]; rfl)]
          · rw [bound here (by simp [idle]) (f := fun x => { x with
              binding := some (i, o), holdValue := hold, holdTimer := some hold }) (by simp [Station.bind, idle])]
          · rw [bound here (by simp [lost]) (f := fun x => { x with
              binding := some (i, o), holdValue := hold, offHook := false, holdTimer := none })
              (by simp [Station.bind, lost])]
          · rw [bound here (fun _ => kept) (f := fun x => { x with holdValue := hold })
              (by rcases busy with e | e <;> simp [Station.bind, e])]

/-- Settles O23. -/
theorem definePattern : Obligations.DefinePattern := by
  unfold Obligations.DefinePattern
  intro s h block r raw clamp mark d inHand code
  have ran : exec .definePattern s = .next (s.definePatternRecord h [block]).arbitrate :=
    congrArg Host.Outcome.next (State.handOver_of _ inHand code)
  rw [ran]
  refine ⟨fun bad => ?_, fun p number low high action next => ?_⟩
  · have refused : s.definePatternRecord h [block] = s.reply .setup h stBadField false [] := by
      unfold State.definePatternRecord
      dsimp only
      split
      · rfl
      · next p index =>
        rw [if_pos]
        have named : ¬12 ≤ r.pattern := by
          rw [← toFin?_eq_none_iff]
          simp [r, index]
        simpa [r, or_assoc] using bad.resolve_left named
    rw [refused]
    rfl
  · intro q after
    have index : toFin? 12 (patternRec h.bytes).pattern = some p := by rw [← toFin?_val p, ← number]
    have segments (g : RawSegment) : clampSegment g = (clamp g,
        g.duration == 0 || decide (1000 < g.duration) || decide (0 < g.freq ∧ g.freq < 200) || decide (4000 < g.freq)) := by
      have duration : clampMark g.duration 1 1000 = (clampNat g.duration 1 1000, g.duration == 0 || decide (1000 < g.duration)) := by
        rw [clampMark_eq (by decide)]
        simp [clampNat, Bool.beq_eq_decide_eq]
      by_cases rest : g.freq = 0
      · simp [clampSegment, duration, rest, clamp]
      · have tone : clampMark g.freq 200 4000 =
            (clampNat g.freq 200 4000, decide (0 < g.freq ∧ g.freq < 200) || decide (4000 < g.freq)) := by
          rw [clampMark_eq (by decide)]
          simp [clampNat, Nat.pos_of_ne_zero rest]
        simp [clampSegment, duration, tone, rest, clamp, Bool.or_assoc]
    have record : s.definePatternRecord h [block] = (s.definePattern p d).reply .setup h stDone mark [] := by
      unfold State.definePatternRecord
      dsimp only
      rw [index]
      have pass : ¬(r.segments < 1 || 16 < r.segments || 1 < r.action || (r.action = 1 && 12 ≤ r.next)) = true := by
        simp only [Bool.or_eq_true, Bool.and_eq_true, decide_eq_true_eq]
        omega
      dsimp only
      rw [if_neg pass]
      have clamped : (rawSegments block r.segments).map clampSegment = raw.map fun g => (clamp g,
          g.duration == 0 || decide (1000 < g.duration) || decide (0 < g.freq ∧ g.freq < 200) || decide (4000 < g.freq)) :=
        List.map_congr_left fun g _ => segments g
      rw [List.headD_cons, clamped, List.map_map, List.any_map]
      rfl
    have defined : s.definePattern p d = s.modPattern p fun _ => after := by
      refine s.modPattern_congr p ?_
      dsimp only [after, q]
      split_ifs with copy none
      · rfl
      · rw [none]
      · cases voices : s.voicesInCycle p with
        | nil => exact absurd voices none
        | cons v vs => rfl
    rw [record, defined]
    rfl

/-- Settles O24. -/
theorem defineAlarm : Obligations.DefineAlarm := by
  unfold Obligations.DefineAlarm
  refine ⟨?_, fun n => ?_⟩
  · intro s h b r inHand code
    have ran : exec .defineAlarm s = .next (s.defineAlarmRecord h).arbitrate :=
      congrArg Host.Outcome.next (State.handOver_of _ inHand code)
    have stored (p : Fin 12) : s.patternDefined p = false ↔ (s.tones.patterns.get p).stored = none := by
      simp [State.patternDefined]
    have desc : s.descOk r.desc = false ↔
        1 < r.desc.format ∨ 1 < r.desc.order ∨ 1 < r.desc.mode ∨ s.inWindow r.desc.first 32 32 = false := by
      simp [State.descOk, Decidable.imp_iff_not_or, or_assoc]
    rw [ran]
    refine ⟨fun bad => ?_, fun k p kind number defined stream => ?_⟩
    · have refused : s.defineAlarmRecord h = s.reply .setup h stBadField false [] := by
        unfold State.defineAlarmRecord
        dsimp only
        split
        · next k p kind number =>
          rw [if_pos]
          have coded : ¬4 ≤ r.kind := by simp [← alarmKindOf_eq_none_iff, r, kind]
          have named : ¬12 ≤ r.pattern := by simp [← toFin?_eq_none_iff, r, number]
          rcases (bad.resolve_left coded).resolve_left named with ⟨q, pattern, undefined⟩ | ⟨voice, fails⟩
          · have same : p = q := by
              have index : toFin? 12 r.pattern = some p := number
              rw [pattern, toFin?_val] at index
              exact (Option.some.inj index).symm
            simp [same, (stored q).mpr undefined]
          · simp [show (alarmRec h.bytes).voice = true from voice,
              show s.descOk (alarmRec h.bytes).desc = false from desc.mpr fails]
        · rfl
      rw [refused]
      rfl
    · have record : s.defineAlarmRecord h =
          if (s.programs.get k.slot).state != .free then s.reply .setup h stInUse false []
          else State.reply .setup h stDone (r.voice && r.desc.settle.2) [] { s with alarms := { s.alarms with
            defs := s.alarms.defs.set k.idx
              (some { pattern := p, toneCycles := r.toneCycles
                      stream := if r.voice then some r.desc.settle.1 else none }) } } := by
        unfold State.defineAlarmRecord
        dsimp only
        rw [show alarmKindOf (alarmRec h.bytes).kind = some k by rw [← alarmKindOf_idx k, ← kind],
          show toFin? 12 (alarmRec h.bytes).pattern = some p by rw [← toFin?_val p, ← number]]
        have pass : ¬(!s.patternDefined p || (r.voice && !s.descOk r.desc)) = true := by
          have known : s.patternDefined p = true := by simpa using (stored p).not.mpr defined
          cases voice : r.voice with
          | false => simp [known]
          | true =>
            have good : s.descOk r.desc = true := by
              obtain ⟨format, order, mode, window⟩ := stream voice
              simp [State.descOk, format, order, mode, window]
            simp [known, good]
        dsimp only
        rw [if_neg pass]
      rw [record]
      refine ⟨fun busy => ?_, fun free => ?_⟩
      · rw [if_pos (by simpa using busy)]
        rfl
      · rw [if_neg (by simpa using free)]
        rfl
  · obtain ⟨low, high, whole⟩ := settlePrime_range n
    exact ⟨low, high, whole, fun zero => by rw [zero]; rfl, settlePrime_mark⟩

/-- Settles O25. -/
theorem calibrate : Obligations.Calibrate := by
  unfold Obligations.Calibrate
  intro s h b r inHand code
  have ran : exec .calibrate s = .next (s.calibrateRecord h).arbitrate :=
    congrArg Host.Outcome.next (State.handOver_of _ inHand code)
  rw [ran]
  refine ⟨fun bad => ?_, fun o outlet => ?_⟩
  · have refused : s.calibrateRecord h = s.reply .setup h stBadField false [] := by
      unfold State.calibrateRecord
      dsimp only
      split
      · rfl
      · next o index =>
        have named : ¬256 ≤ r.outlet := by simp [← toFin?_eq_none_iff, r, index]
        rw [if_pos (by simpa [r] using bad.resolve_left named)]
    rw [refused]
    rfl
  · have record (target : r.target ≤ 1) (method : r.method ≤ 1) : s.calibrateRecord h =
        if r.target = 0 then s.calibrateAmbient o h else s.calibrateLoop o h := by
      unfold State.calibrateRecord
      dsimp only
      rw [show toFin? 256 (calibrateRec h.bytes).outlet = some o by rw [← toFin?_val o, ← outlet]]
      have pass : ¬(1 < r.target || 1 < r.method) = true := by simp; omega
      dsimp only
      rw [if_neg pass]
    refine ⟨fun target method => ?_, fun target method senseless => ?_, fun target method senses => ?_,
      fun target method => ?_, ?_⟩
    · rw [record (by omega) (by omega), if_pos target, State.calibrateAmbient]
      simp only [show (calibrateRec h.bytes).method = 0 from method, if_true, clampMark_zero]
      rw [State.setBaseline, State.recomputeC, State.modAmbient_modAmbient]
      rfl
    · rw [record (by omega) (by omega), if_pos target, State.calibrateAmbient]
      simp [show (calibrateRec h.bytes).method = 1 from method, senseless, stBadField]
    · rw [record (by omega) (by omega), if_pos target, State.calibrateAmbient]
      simp [show (calibrateRec h.bytes).method = 1 from method, senses]
    · rw [record (by omega) (by omega), if_neg (by omega), State.calibrateLoop]
      simp [show (calibrateRec h.bytes).method = 1 from method]
    · intro target method v x judged
      obtain ⟨baseline, set, streak, last, capture⟩ := s.rebased_kept o v x
      refine ⟨s.rebased o v x, ?_, baseline, set, streak, last, capture, s.rebased_unserved v x, fun served => ⟨?_, ?_⟩⟩
      · rw [record (by omega) (by omega), if_neg (by omega), State.calibrateLoop]
        simp only [show (calibrateRec h.bytes).method = 0 from method, if_true, clampMark_zero]
        rw [State.setLoopBaseline_eq, s.modLoop_congr o (g := fun _ => s.rebased o v x) rfl]
        rfl
      · exact s.rebased_unsupervised v x served
      · exact s.rebased_watched v x served

end

section
/-! PROOF. The refusals of START_PROGRAM (R36): when each reader of the record answers nothing. -/

open Sys2Proof Sys2Proof.Machine

namespace Sys2Proof.Machine

theorem toFin?_eq_some_iff {n i : Nat} {x : Fin n} : toFin? n i = some x ↔ i = x.val := by
  unfold toFin?
  split_ifs with below
  · simp [Fin.ext_iff]
  · simp only [false_iff]
    omega

theorem hostKindOf_eq_none_iff (n : Nat) : hostKindOf n = none ↔ 2 < n := by
  match n with
  | 0 | 1 | 2 => simp [hostKindOf]
  | m + 3 => exact iff_of_true rfl (by omega)

theorem hostKindOf_theatre_iff (n : Nat) : hostKindOf n = some .theatre ↔ n = 2 := by
  match n with
  | 0 | 1 | 2 => simp [hostKindOf]
  | m + 3 => simp [hostKindOf]

theorem policyOf_eq_none_iff (n : Nat) : policyOf n = none ↔ 2 < n := by
  match n with
  | 0 | 1 | 2 => simp [policyOf]
  | m + 3 => exact iff_of_true rfl (by omega)

theorem State.descOk_eq_false_iff (s : State) (r : RawDesc) : s.descOk r = false ↔
    1 < r.format ∨ 1 < r.order ∨ 1 < r.mode ∨ s.inWindow r.first 32 32 = false := by
  simp [State.descOk, Decidable.imp_iff_not_or, or_assoc]

/-- A reader of an object's number, with a test of the object, answers nothing where the number or the test fails. -/
theorem toFin?_bind_eq_none_iff {n i : Nat} {α : Type} {test : Fin n → Bool} {f : Fin n → α} :
    ((toFin? n i).bind fun x => if test x then some (f x) else none) = none ↔
      n ≤ i ∨ ∃ x : Fin n, i = x.val ∧ test x = false := by
  rcases Nat.lt_or_ge i n with below | beyond
  · obtain ⟨x, rfl⟩ : ∃ x : Fin n, i = x.val := ⟨⟨i, below⟩, rfl⟩
    have unnamed : ¬n ≤ x.val := by omega
    simp [unnamed, Fin.val_inj]
  · simp [beyond, toFin?_none beyond]

/-- Check 7 of R36. -/
theorem State.chimeOf_eq_none_iff (s : State) (n : Nat) : s.chimeOf n = none ↔
    n ≠ 0xFF ∧ (12 ≤ n ∨ ∃ q : Fin 12, n = q.val ∧ (s.tones.patterns.get q).stored = none) := by
  unfold State.chimeOf
  by_cases unset : n = 0xFF
  · simp [unset]
  · rw [if_neg unset, toFin?_bind_eq_none_iff]
    simp [unset, State.patternDefined]

/-- Checks 5 and 6 of R36. -/
theorem State.sourceOf_eq_none_iff (s : State) (r : StartRec) (kind : ProgKind) : s.sourceOf r kind = none ↔
    2 < r.sourceKind ∨
    (r.sourceKind = 0 ∧ (kind = .theatre ∨ 256 ≤ r.source ∨
      ∃ i : Fin 256, r.source = i.val ∧ s.inlets.get i ≠ .consoleMic ∧ s.inlets.get i ≠ .line)) ∨
    (r.sourceKind = 1 ∧ (kind = .theatre ∨ s.descOk r.desc = false)) ∨
    (r.sourceKind = 2 ∧ (kind ≠ .theatre ∨ 8 ≤ r.source)) := by
  unfold State.sourceOf
  split
  · next code =>
    by_cases theatre : kind = .theatre
    · simp [code, theatre]
    · rw [if_neg (by simpa using theatre), toFin?_bind_eq_none_iff]
      simp [code, theatre]
  · next code => by_cases theatre : kind = .theatre <;> simp [code, theatre]
  · next code => by_cases theatre : kind = .theatre <;> simp [code, theatre, toFin?_eq_none_iff]
  · next zero one two =>
    have unknown : 2 < r.sourceKind := by
      have differs : r.sourceKind ≠ 0 ∧ r.sourceKind ≠ 1 ∧ r.sourceKind ≠ 2 := ⟨zero, one, two⟩
      omega
    simp [unknown]

theorem State.freeChannel_eq_none_iff (s : State) : s.freeChannel = none ↔ ∀ c, (s.channels.get c).state ≠ .free := by
  simp [State.freeChannel]

/-- Only a record with source kind 1 starts a stream. -/
theorem State.sourceOf_stream {s : State} {r : StartRec} {kind : ProgKind} (reads : s.sourceOf r kind = some .stream) :
    r.sourceKind = 1 := by
  unfold State.sourceOf at reads
  split at reads
  · split at reads
    · contradiction
    · obtain ⟨i, -, test⟩ := Option.bind_eq_some_iff.mp reads
      split at test <;> simp at test
  · assumption
  · split at reads <;> simp at reads
  · contradiction

/-- A source of source kind 1 that passes its checks is a stream. -/
theorem State.sourceOf_one {s : State} {r : StartRec} {kind : ProgKind} {src : Source} (code : r.sourceKind = 1)
    (reads : s.sourceOf r kind = some src) : src = .stream := by
  simp only [State.sourceOf, code] at reads
  split at reads
  · contradiction
  · exact (Option.some.inj reads).symm

/-- START_PROGRAM for a host slot, once its readers have answered. -/
theorem State.startRecord_of {s : State} {h : Hand} {blocks : List (List Byte)} {p : Fin 64} {kind : ProgKind}
    {policy : Policy} {src : Source} {chime : Option (Fin 12)} (slot : (startRec h.bytes).slot = p.val) (host : p.val < 59)
    (kindIs : hostKindOf (startRec h.bytes).kind = some kind) (policyIs : policyOf (startRec h.bytes).policy = some policy)
    (source : s.sourceOf (startRec h.bytes) kind = some src) (chimeIs : s.chimeOf (startRec h.bytes).chime = some chime) :
    s.startRecord h blocks =
      if (s.programs.get p).state != .free || (s.programs.get p).reservation.isSome then
        s.reply .program h stSlotBusy false []
      else if src == .stream && s.freeChannel.isNone then s.reply .program h stSlotBusy false []
      else s.startHost p h (outletSet (blocks.headD [])) kind policy src chime := by
  simp only [State.startRecord, slot, toFin?_val, kindIs, policyIs, source, chimeIs]
  rw [if_neg (by omega)]

theorem exec_startProgram_of {s : State} {h : Hand} {b : List (List Byte)}
    (inHand : (s.walker .program).stage = .handOver h b) (kind : h.kind = 0x10) :
    exec .startProgram s = .next (s.startRecord h b).arbitrate :=
  congrArg Host.Outcome.next (State.handOver_of _ inHand kind)

end Sys2Proof.Machine

/-- Settles O29. -/
theorem startProgramRefusals : Obligations.StartProgramRefusals := by
  unfold Obligations.StartProgramRefusals
  intro s h b r badInlet badStream badBus badChime bad inHand code
  have source_of (kind : ProgKind) (kindIs : hostKindOf r.kind = some kind) :
      s.sourceOf r kind = none ↔ 2 < r.sourceKind ∨ badInlet ∨ badStream ∨ badBus := by
    have theatre : kind = .theatre ↔ r.kind = 2 := by
      rw [← hostKindOf_theatre_iff, kindIs, Option.some_inj]
    rw [State.sourceOf_eq_none_iff, State.descOk_eq_false_iff, Ne, theatre]
  have answers (good : ¬bad) : ∃ kind policy src chime, hostKindOf r.kind = some kind ∧ policyOf r.policy = some policy ∧
      s.sourceOf r kind = some src ∧ s.chimeOf r.chime = some chime := by
    obtain ⟨kindOk, policyOk, sourceOk, inletOk, streamOk, busOk, chimeOk⟩ :
        ¬2 < r.kind ∧ ¬2 < r.policy ∧ ¬2 < r.sourceKind ∧ ¬badInlet ∧ ¬badStream ∧ ¬badBus ∧ ¬badChime := by
      simpa only [bad, not_or] using good
    obtain ⟨kind, kindIs⟩ := Option.ne_none_iff_exists'.mp ((hostKindOf_eq_none_iff r.kind).not.mpr kindOk)
    obtain ⟨policy, policyIs⟩ := Option.ne_none_iff_exists'.mp ((policyOf_eq_none_iff r.policy).not.mpr policyOk)
    obtain ⟨src, source⟩ := Option.ne_none_iff_exists'.mp
      ((source_of kind kindIs).not.mpr (not_or.mpr ⟨sourceOk, not_or.mpr ⟨inletOk, not_or.mpr ⟨streamOk, busOk⟩⟩⟩))
    obtain ⟨chime, chimeIs⟩ := Option.ne_none_iff_exists'.mp ((s.chimeOf_eq_none_iff r.chime).not.mpr chimeOk)
    exact ⟨kind, policy, src, chime, kindIs, policyIs, source, chimeIs⟩
  rw [exec_startProgram_of inHand code]
  refine ⟨fun slot => ?_, fun slot wrong => ?_, fun p slot host good busy => ?_⟩
  · have refused : s.startRecord h b = s.reply .program h stBadSlot false [] := by
      simp only [State.startRecord]
      split
      · rfl
      · next p index =>
        have named : r.slot = p.val := toFin?_eq_some_iff.mp index
        rw [if_pos (by omega)]
    rw [refused]
    rfl
  · obtain ⟨p, named⟩ : ∃ p : Fin 64, r.slot = p.val := ⟨⟨r.slot, by omega⟩, rfl⟩
    have refused : s.startRecord h b = s.reply .program h stBadField false [] := by
      simp only [State.startRecord, show (startRec h.bytes).slot = p.val from named, toFin?_val]
      rw [if_neg (by omega)]
      split
      · next kind policy kindIs policyIs =>
        split
        · next src chime source chimeIs =>
          have kindOk := (hostKindOf_eq_none_iff r.kind).not.mp (by simp [r, kindIs])
          have policyOk := (policyOf_eq_none_iff r.policy).not.mp (by simp [r, policyIs])
          have sourceOk := (source_of kind kindIs).not.mp (by simp [r, source])
          have chimeOk := (s.chimeOf_eq_none_iff r.chime).not.mp (by simp [r, chimeIs])
          exact absurd wrong (not_or.mpr ⟨kindOk, not_or.mpr ⟨policyOk, fun rest =>
            rest.elim (fun code => sourceOk (.inl code)) fun rest =>
              rest.elim (fun inlet => sourceOk (.inr (.inl inlet))) fun rest =>
                rest.elim (fun stream => sourceOk (.inr (.inr (.inl stream)))) fun rest =>
                  rest.elim (fun bus => sourceOk (.inr (.inr (.inr bus)))) chimeOk⟩⟩)
        · rfl
      · rfl
    rw [refused]
    rfl
  · obtain ⟨kind, policy, src, chime, kindIs, policyIs, source, chimeIs⟩ := answers good
    rw [State.startRecord_of slot host kindIs policyIs source chimeIs]
    rcases busy with live | reserved | ⟨stream, none⟩
    · simp [live, stSlotBusy]
    · simp [Option.isSome_iff_ne_none.mpr reserved, stSlotBusy]
    · simp [State.sourceOf_one stream source, s.freeChannel_eq_none_iff.mpr none, stSlotBusy]

end

section
/-! PROOF. The Note Unit (R181 to R183) and the pieces of a snapshot (R16, R31 to R33, R167), with their bytes. -/

open Sys2Proof Sys2Proof.Machine

namespace Sys2Proof.Machine

/-! ### Notes -/

theorem State.emitNote_room {s : State} (room : s.notes.queue.length < 32) (k : NoteKind) (code subject detail : Nat) :
    (s.emitNote k code subject detail).notes =
      { s.notes with queue := s.notes.queue ++ [{ kind := k, code, subject, detail, time := s.time }] } := by
  unfold State.emitNote
  rw [if_pos room]
  dsimp only
  split <;> rfl

theorem State.emitNote_lost {s : State} (full : 32 ≤ s.notes.queue.length) (k : NoteKind) (code subject detail : Nat) :
    s.emitNote k code subject detail = { s with notes := { s.notes with lost := min 65535 (s.notes.lost + 1) } } := by
  unfold State.emitNote
  rw [if_neg (by omega)]

/-- A note that joins the queue while no record waits for it sets NOTE_WAIT. -/
theorem State.emitNote_waits {s : State} (room : s.notes.queue.length < 32) (unheld : s.notes.held = none) (k : NoteKind)
    (code subject detail : Nat) : (s.emitNote k code subject detail).causeHas .noteWait = true := by
  unfold State.emitNote
  rw [if_pos room]
  simp [unheld, State.causeHas_setCause]

theorem State.noteRequest_of {s : State} {r : RecRef} {n : Note} {rest : List Note} (held : s.notes.held = some (r, .ready))
    (queue : s.notes.queue = n :: rest) : s.noteRequest = some (.noteWrite (noteWriteOf r n s.notes.lost)) := by
  rw [State.noteRequest, held, queue]

/-- The bytes of a number, least significant first. -/
theorem bytes4_eq (n : Nat) : bytes4 n =
    [BitVec.ofNat 8 n, BitVec.ofNat 8 (n / 256), BitVec.ofNat 8 (n / 65536), BitVec.ofNat 8 (n / 16777216)] := by
  simp [bytes4, bytes2, Nat.div_div_eq_div_mul]

/-! ### Where a snapshot goes on -/

/-- The snapshot's next piece, or its return after the last (R16). -/
theorem State.snapNext_eq {s : State} (u : State) (lists : u.lists.snap = s.lists.snap) : u.snapNext =
    match s.lists.snap with
    | none => u
    | some x =>
      if x.left ≤ 1 then
        State.requestReturn .setup
          { record := x.record, status := marked 0x02 x.record.mark, results := [(24, bytes4 (x.written + 32))] }
          { u with lists := { u.lists with snap := none } }
      else
        { u with lists := { u.lists with
          snap := some { x with next := x.next + 1, left := x.left - 1, written := x.written + 32 } } } := by
  rw [State.snapNext, lists]
  cases s.lists.snap with
  | none => rfl
  | some x =>
    have last : x.left - 1 = 0 ↔ x.left ≤ 1 := by omega
    simp only [last]
    rfl

/-- A program's entry changes nothing but the count of free values (log entry 16). -/
theorem State.programEntry_state (s : State) (p : Fin 64) :
    (s.programEntry p).2 = { s with freeCount := (s.programEntry p).2.freeCount } := by
  simp only [State.programEntry]
  split
  · rfl
  · cases (s.programs.get p).source <;> rfl

/-! ### Fields read back from bytes -/

theorem toNat_byte (n : Nat) : (BitVec.ofNat 8 n).toNat = n % 256 := BitVec.toNat_ofNat n 8

theorem half_bytes (n : Nat) : n % 256 + 256 * (n / 256 % 256) = n % 65536 := by omega

theorem word_bytes (n : Nat) : n % 65536 + 65536 * (n / 65536 % 256 + 256 * (n / 16777216 % 256)) = n % 4294967296 := by
  omega

theorem Trunk.abilities_eq (t : Trunk) : t.abilities =
    (if t.overrideLines then 1 else 0) + (if t.supervision then 2 else 0) + if t.changeover then 4 else 0 := by
  cases a : t.overrideLines <;> cases b : t.supervision <;> cases c : t.changeover <;> simp [Trunk.abilities, bitsValue, a, b, c]

theorem OutletKind.code_lt (k : OutletKind) : k.code < 256 := by cases k <;> decide

theorem LoopState.code_lt (k : LoopState) : k.code < 256 := by cases k <;> decide

theorem StationState.code_lt (k : StationState) : k.code < 256 := by cases k <;> decide

theorem ProgKind.code_lt (k : ProgKind) : k.code < 256 := by cases k <;> decide

theorem ProgState.code_lt (k : ProgState) : k.code < 256 := by cases k <;> decide

theorem LinkState.code_lt (k : LinkState) : k.code < 256 := by cases k <;> decide

end Sys2Proof.Machine

/-- Settles O59. -/
theorem noteRecords : Obligations.NoteRecords := by
  unfold Obligations.NoteRecords
  refine ⟨fun s k code subject detail => ⟨fun room => ⟨s.emitNote_room room k code subject detail,
      fun unheld => s.emitNote_waits room unheld k code subject detail⟩, fun full => s.emitNote_lost full k code subject detail⟩,
    fun s h b inHand code => congrArg Host.Outcome.next (State.handOver_of _ inHand code),
    fun s r n rest idle held queue first => ?_, ?_, fun s w granted => ?_⟩
  · have wins : s.firstRequest = some (.noteWrite (noteWriteOf r n s.notes.lost)) :=
      first.trans (s.noteRequest_of held queue)
    rw [State.arbitrate_grant idle wins]
    exact ⟨by simp [State.onGrant, queue, held], rfl, rfl, rfl⟩
  · intro r n lost kind byte time
    have named : n.kind.code = kind := by cases n; rename_i k _ _ _ _; cases k <;> rfl
    simp [noteWriteOf, headerWord, bytes1, bytes2, bytes4_eq, named, byte, time, stDone]
  · have done : exec .noteWrite s = .next (State.noteDone (s.endGrant (.noteWrite w))).arbitrate :=
      congrArg Host.Outcome.next (State.complete_of _ granted rfl)
    rw [done]
    have note : BitVec.twoPow 8 CauseBit.note.pos = 0x02#8 := by decide
    have wait : BitVec.twoPow 8 CauseBit.noteWait.pos = 0x04#8 := by decide
    cases queue : s.notes.queue with
    | nil => simp [State.noteDone, queue, State.setCause, State.endGrant, Transfer.write?, note]
    | cons n rest => simp [State.noteDone, queue, State.setCause, State.endGrant, Transfer.write?, note, wait]

/-- Settles O22. -/
theorem snapshotPiece : Obligations.SnapshotPiece := by
  unfold Obligations.SnapshotPiece
  refine ⟨?_, fun s o => ?_, fun s n => ?_, fun s p => ?_, fun s k => ?_, by decide, by decide, by decide, by decide, by decide,
    by decide⟩
  · intro s table entry addr granted wrote goOn
    have pieces {e : List Byte} {u : State} (piece : s.pieceOf table entry = (e, u)) (lists : u.lists = s.lists) :
        exec .snapshotPiece s = .next (goOn (wrote e u)).arbitrate := by
      rw [exec_snapshotPiece, State.snapPiece_of granted, piece]
      refine congrArg (Host.Outcome.next ∘ State.arbitrate) ?_
      exact State.snapNext_eq (s := s) (wrote e u) (congrArg ListEngine.snap lists)
    refine ⟨fun o outlets number => ?_, fun n stations number => ?_, fun p programs number => ?_, fun k trunks number => ?_⟩
    · subst outlets number
      exact pieces (s.pieceOf_outlet o) rfl
    · subst stations number
      exact pieces (by simp [State.pieceOf]) rfl
    · subst programs number
      exact pieces (by rw [State.pieceOf, toFin?_val]; exact Prod.ext rfl (s.programEntry_state p)) rfl
    · subst trunks number
      exact pieces (by simp [State.pieceOf]) rfl
  · intro e m a x
    have kind := (s.outlets.get o).kind.code_lt
    have state := (s.loops.get o).state.code_lt
    have area := (s.outlets.get o).area.isLt
    have number := o.isLt
    simp only [e, m, a, x, State.outletEntry, bytes1, bytes2, bytes4_eq, byteAt, halfAt, wordAt]
    simp only [List.cons_append, List.nil_append, List.getD_cons_succ, List.getD_cons_zero, toNat_byte, half_bytes, word_bytes]
    refine ⟨rfl, by omega, by omega, by omega, fun c holder => ?_, fun holder => ?_, trivial, trivial, trivial, trivial, by omega,
      ?_, trivial, trivial, trivial, trivial, trivial, trivial⟩
    · simp only [holder, Option.map_some, Option.getD_some, true_and]
      exact ⟨fun p owner => by rw [owner, Owner.code]; omega, fun k i owner => by rw [owner, Owner.code]; omega⟩
    · simp [holder]
    · cases s.changeoverOf o with
      | none => rfl
      | some y => exact Nat.mod_eq_of_lt (by rw [changeoverCode]; omega)
  · intro e x
    have state := (s.stations.get n).state.code_lt
    have number := n.isLt
    simp only [e, x, State.stationEntry, bytes1, bytes2, byteAt, halfAt]
    simp only [List.cons_append, List.nil_append, List.getD_cons_succ, List.getD_cons_zero, toNat_byte, half_bytes]
    refine ⟨by omega, by omega, by split <;> rfl, ?_, fun i o binding => ?_, fun binding => ?_, trivial⟩
    · cases (s.stations.get n).call with
      | none => rfl
      | some c => exact Nat.mod_eq_of_lt (by rw [callCode]; omega)
    · simp only [binding, Option.map_some, Option.getD_some]
      omega
    · simp [binding]
  · intro e pr
    refine ⟨fun free => ?_, fun live => ?_⟩
    · simp [e, State.programEntry, show (s.programs.get p).state = .free from free, bytes1]
    · have kind := pr.kind.code_lt
      have state := pr.state.code_lt
      have number := p.isLt
      have entry : s.programEntry p = (bytes1 p.val ++ bytes1 pr.kind.code ++ bytes1 pr.state.code ++ bytes1 pr.priority
          ++ bytes4 pr.arrival ++ bytes2 pr.held ++ bytes2 pr.gain
          ++ bytes1 (((s.channelOf (.program p)).map (·.val)).getD 0xFF) ++ bytes1 (s.sourceCodes pr.source).1
          ++ bytes2 (s.sourceCodes pr.source).2.1 ++ bytes4 ((pr.record.map (·.addr)).getD 0),
          (s.sourceCodes pr.source).2.2) := by
        rw [State.programEntry, if_neg (by simpa using live)]
      simp only [e, entry, bytes1, bytes2, bytes4_eq, byteAt, halfAt, wordAt]
      simp only [List.cons_append, List.nil_append, List.getD_cons_succ, List.getD_cons_zero, toNat_byte, half_bytes,
        word_bytes]
      refine ⟨by omega, by omega, by omega, trivial, trivial, trivial, trivial, ?_, ?_, fun i source => ?_,
        fun k source => ?_, fun source => ?_⟩
      · cases s.channelOf (.program p) with
        | none => rfl
        | some c => exact Nat.mod_eq_of_lt (by simp only [Option.map_some, Option.getD_some]; omega)
      · cases pr.record <;> rfl
      · simp only [source, State.sourceCodes]
        exact ⟨trivial, Nat.mod_eq_of_lt (by omega), trivial⟩
      · simp only [source, State.sourceCodes]
        exact ⟨trivial, Nat.mod_eq_of_lt (by omega), trivial⟩
      · simp [source, State.sourceCodes]
  · intro e t
    have link := (s.trunks.get k).link.code_lt
    have number := k.isLt
    simp only [e, t, State.trunkEntry, bytes1, byteAt]
    simp only [List.cons_append, List.nil_append, List.getD_cons_succ, List.getD_cons_zero, toNat_byte]
    refine ⟨by omega, by omega, trivial, trivial, ?_⟩
    rw [Trunk.abilities_eq]
    split_ifs <;> omega

end

section
/-! PROOF. The changeover slots (R177 to R179): RELEASE_CHANGEOVER, the echoes, the two timers, and what a period start
does to a slot. -/

open Sys2Proof Sys2Proof.Machine

namespace Sys2Proof.Machine

/-! ### One act for each of a list of objects -/

theorem State.forAll_cons {β : Type} (f : β → State → State) (x : β) (xs : List β) (s : State) :
    s.forAll (x :: xs) f = (f x s).forAll xs f := rfl

theorem State.forAll_append {β : Type} (f : β → State → State) (xs ys : List β) (s : State) :
    s.forAll (xs ++ ys) f = (s.forAll xs f).forAll ys f := List.foldl_append

theorem State.forAll_fixed {β : Type} {f : β → State → State} {xs : List β} {s : State} (same : ∀ x ∈ xs, f x s = s) :
    s.forAll xs f = s := by
  induction xs with
  | nil => rfl
  | cons x xs ih =>
    rw [State.forAll_cons, same x List.mem_cons_self]
    exact ih fun y mem => same y (List.mem_cons_of_mem x mem)

theorem allFin_nodup (n : Nat) : (allFin n).Nodup := List.nodup_finRange n

/-- A projection that no act of the list touches. -/
theorem State.forAll_view_of {α β : Type} {view : State → α} {f : β → State → State} {xs : List β}
    (each : ∀ x ∈ xs, ∀ s, view (f x s) = view s) (s : State) : view (s.forAll xs f) = view s := by
  induction xs generalizing s with
  | nil => rfl
  | cons x xs ih =>
    rw [State.forAll_cons, ih fun y mem => each y (List.mem_cons_of_mem x mem)]
    exact each x List.mem_cons_self s

/-- A projection that only one object's act touches: the act is made on it once. -/
theorem State.forAll_once {α β : Type} {view : State → α} {f : β → State → State} {a : β} {g : α → α}
    (own : ∀ s, view (f a s) = g (view s)) {xs : List β} (others : ∀ x ∈ xs, x ≠ a → ∀ s, view (f x s) = view s)
    (once : xs.Nodup) (mem : a ∈ xs) (s : State) : view (s.forAll xs f) = g (view s) := by
  obtain ⟨before, after, rfl⟩ := List.append_of_mem mem
  have apart : ∀ x ∈ before ++ after, x ≠ a := by
    rw [List.nodup_middle, List.nodup_cons] at once
    exact fun x here same => once.1 (same ▸ here)
  rw [State.forAll_append, State.forAll_cons,
    State.forAll_view_of (view := view) fun x here => others x (by simp [here]) (apart x (by simp [here])), own,
    State.forAll_view_of (view := view) fun x here => others x (by simp [here]) (apart x (by simp [here]))]

/-! ### Slots -/

theorem mem_slotsOf (k : Fin 4) (x : Fin 8) : x ∈ slotsOf k ↔ x.val / 2 = k.val := by
  simp only [slotsOf, List.mem_cons, List.not_mem_nil, or_false, Fin.ext_iff]
  omega

theorem slotsOf_nodup (k : Fin 4) : (slotsOf k).Nodup := by
  simp [slotsOf, Fin.ext_iff]

/-- A slot whose trunk leaves UP: a PENDING or a RELEASING one becomes free (R178, R179). -/
def Changeover.trunkDown (c : Changeover) : Changeover := if c.state = .pending ∨ c.state = .releasing then {} else c

theorem State.changeoverTrunkDown_slot (s : State) (x y : Fin 8) : (s.changeoverTrunkDown x).changeovers.get y =
    if y = x then (s.changeovers.get x).trunkDown else s.changeovers.get y := by
  unfold State.changeoverTrunkDown State.failChangeover State.freeSlot Changeover.trunkDown
  split
  · next pending => simp [Tab.get_modify, pending]
  · next releasing => simp [Tab.get_modify, releasing]
  · next free => by_cases same : y = x <;> simp [free, same]
  · next active => by_cases same : y = x <;> simp [active, same]

/-! ### A trunk that leaves UP -/

/-- The loop of an outlet whose trunk leaves UP: its capture begins anew, and its state is set again (R169, R175). -/
def State.loopDown (o : Fin 256) (s : State) : State :=
  (s.modLoop o fun x => { x with capture := x.capture.map fun c => { c with count := 0, sum := 0 } }).setLoopState o

/-- A trunk that leaves UP, up to its changeover slots: its stations are lost and its loops UNSERVED (R169). -/
def State.unlinked (k : Fin 4) (s : State) : State :=
  let s := s.modTrunk k fun t => { link := .down, training := t.training }
  let s := s.forAll (s.stationsOn k) State.stationLost
  s.forAll (outletsOf k) State.loopDown

theorem State.leaveUp_eq (s : State) (k : Fin 4) : s.leaveUp k =
    ((((s.unlinked k).forAll (slotsOf k) State.changeoverTrunkDown).emitNote .trunk 0 k.val 0).setCause .fault) := rfl

theorem Framed.unlinked {α : Type} {view : State → α} (v : Framed view) (k : Fin 4) (s : State) :
    view (s.unlinked k) = view s := by
  unfold State.unlinked
  dsimp only
  rw [State.forAll_view fun o t => show view (t.loopDown o) = view t from (v.loop o _ _).trans (v.loop o _ t),
    State.forAll_view fun n t => v.acts (State.stationLost_acts (Acts.refl t) n), v.trunk]

theorem Framed.slot (x : Fin 8) : Framed fun s : State => s.changeovers.get x where
  acts act := congrArg (·.get x) act.changeovers
  ambient _ _ := rfl
  trunk _ _ _ := rfl
  loop _ _ _ := rfl

theorem State.unlinked_trunks (s : State) (k : Fin 4) :
    (s.unlinked k).trunks = s.trunks.modify k fun t => { link := .down, training := t.training } := by
  unfold State.unlinked
  dsimp only
  rw [State.forAll_view (view := State.trunks) (f := State.loopDown) fun _ _ => rfl]
  exact (State.forAll_acts (Acts.refl _) _ _ fun n t act => State.stationLost_acts act n).trunks

theorem State.changeoverTrunkDown_trunks (s : State) (x : Fin 8) : (s.changeoverTrunkDown x).trunks = s.trunks := by
  unfold State.changeoverTrunkDown State.failChangeover State.freeSlot
  split <;> simp

theorem State.leaveUp_trunks (s : State) (k : Fin 4) :
    (s.leaveUp k).trunks = s.trunks.modify k fun t => { link := .down, training := t.training } := by
  rw [State.leaveUp_eq]
  simp only [State.setCause_trunks, State.emitNote_trunks]
  rw [State.forAll_view (view := State.trunks) (fun x t => t.changeoverTrunkDown_trunks x), State.unlinked_trunks]

/-- The slots of a trunk that leaves UP, and of the others. -/
theorem State.leaveUp_slot (s : State) (k : Fin 4) (x : Fin 8) : (s.leaveUp k).changeovers.get x =
    if x.val / 2 = k.val then (s.changeovers.get x).trunkDown else s.changeovers.get x := by
  rw [State.leaveUp_eq]
  simp only [State.setCause_changeovers, State.emitNote_changeovers]
  have before : (s.unlinked k).changeovers.get x = s.changeovers.get x := (Framed.slot x).unlinked k s
  have others (y : Fin 8) (other : y ≠ x) (t : State) : (t.changeoverTrunkDown y).changeovers.get x = t.changeovers.get x := by
    rw [State.changeoverTrunkDown_slot, if_neg other.symm]
  split_ifs with here
  · rw [State.forAll_once (view := fun s => s.changeovers.get x) (g := Changeover.trunkDown)
      (fun t => by rw [State.changeoverTrunkDown_slot, if_pos rfl]) (fun y _ => others y) (slotsOf_nodup k)
      ((mem_slotsOf k x).mpr here), before]
  · rw [State.forAll_view_of (view := fun s => s.changeovers.get x) (fun y mem => others y fun same =>
      here ((mem_slotsOf k x).mp (same ▸ mem))), before]

/-! ### The two timers -/

/-- A PENDING slot whose timer stands at 0 becomes free. -/
def Changeover.pendingDue (c : Changeover) : Changeover := if c.state = .pending ∧ c.timer = some 0 then {} else c

/-- A RELEASING slot whose timer stands at 0 becomes free. -/
def Changeover.releaseDue (c : Changeover) : Changeover := if c.state = .releasing ∧ c.timer = some 0 then {} else c

theorem State.pendingExpired_of {s : State} {x : Fin 8} (pending : (s.changeovers.get x).state = .pending)
    (due : (s.changeovers.get x).timer = some 0) : s.pendingExpired x = s.failChangeover x 1 := by
  simp [State.pendingExpired, pending, due]

theorem State.pendingExpired_not {s : State} {x : Fin 8}
    (other : (s.changeovers.get x).state ≠ .pending ∨ (s.changeovers.get x).timer ≠ some 0) : s.pendingExpired x = s := by
  unfold State.pendingExpired
  rw [if_neg]
  rcases other with state | timer
  · simp [state]
  · simp [timer]

theorem State.releaseExpired_of {s : State} {x : Fin 8} (releasing : (s.changeovers.get x).state = .releasing)
    (due : (s.changeovers.get x).timer = some 0) : s.releaseExpired x = ((s.freeSlot x).setCause .fault).emitNote .changeover 5
      (s.changeovers.get x).faulted.val ((s.changeovers.get x).detail x 0) := by
  simp [State.releaseExpired, releasing, due]

theorem State.releaseExpired_not {s : State} {x : Fin 8}
    (other : (s.changeovers.get x).state ≠ .releasing ∨ (s.changeovers.get x).timer ≠ some 0) : s.releaseExpired x = s := by
  unfold State.releaseExpired
  rw [if_neg]
  rcases other with state | timer
  · simp [state]
  · simp [timer]

theorem State.pendingExpired_slot (s : State) (x y : Fin 8) : (s.pendingExpired x).changeovers.get y =
    if y = x then (s.changeovers.get x).pendingDue else s.changeovers.get y := by
  unfold Changeover.pendingDue
  by_cases due : (s.changeovers.get x).state = .pending ∧ (s.changeovers.get x).timer = some 0
  · rw [State.pendingExpired_of due.1 due.2, if_pos due]
    simp [State.failChangeover, State.freeSlot, Tab.get_modify]
  · rw [State.pendingExpired_not (not_and_or.mp due), if_neg due]
    split_ifs with same <;> simp [*]

theorem State.releaseExpired_slot (s : State) (x y : Fin 8) : (s.releaseExpired x).changeovers.get y =
    if y = x then (s.changeovers.get x).releaseDue else s.changeovers.get y := by
  unfold Changeover.releaseDue
  by_cases due : (s.changeovers.get x).state = .releasing ∧ (s.changeovers.get x).timer = some 0
  · rw [State.releaseExpired_of due.1 due.2, if_pos due]
    simp [State.freeSlot, Tab.get_modify]
  · rw [State.releaseExpired_not (not_and_or.mp due), if_neg due]
    split_ifs with same <;> simp [*]

theorem State.slotsDue_slot (s : State) (x : Fin 8) :
    s.slotsDue.changeovers.get x = (s.changeovers.get x).pendingDue.releaseDue := by
  unfold State.slotsDue
  rw [State.forAll_once (view := fun s => s.changeovers.get x) (g := Changeover.releaseDue)
      (fun t => by rw [State.releaseExpired_slot, if_pos rfl])
      (fun y _ other t => by rw [State.releaseExpired_slot, if_neg other.symm]) (allFin_nodup 8) (mem_allFin x),
    State.forAll_once (view := fun s => s.changeovers.get x) (g := Changeover.pendingDue)
      (fun t => by rw [State.pendingExpired_slot, if_pos rfl])
      (fun y _ other t => by rw [State.pendingExpired_slot, if_neg other.symm]) (allFin_nodup 8) (mem_allFin x)]

/-! ### A slot at a period start -/

/-- The trunk's sync hold has run out. -/
def Trunk.failing (t : Trunk) : Prop := t.link = .up ∧ t.sync = some 0

theorem State.syncExpired_of {s : State} {k : Fin 4} (failing : (s.trunks.get k).failing) : s.syncExpired k = s.leaveUp k := by
  simp [State.syncExpired, failing.1, failing.2]

theorem State.syncExpired_not {s : State} {k : Fin 4} (stands : ¬(s.trunks.get k).failing) : s.syncExpired k = s := by
  unfold State.syncExpired
  rw [if_neg (by simpa [Trunk.failing] using stands)]

theorem State.syncExpired_trunks_ne (s : State) {k j : Fin 4} (other : j ≠ k) :
    (s.syncExpired k).trunks.get j = s.trunks.get j := by
  by_cases failing : (s.trunks.get k).failing
  · rw [State.syncExpired_of failing, State.leaveUp_trunks, Tab.get_modify_ne _ other]
  · rw [State.syncExpired_not failing]

/-- What a failing trunk makes of a slot, and leaves of itself. -/
def unlinkedSlot (v : Trunk × Changeover) : Trunk × Changeover :=
  if v.1.link = .up ∧ v.1.sync = some 0 then ({ link := .down, training := v.1.training }, v.2.trunkDown) else v

theorem State.syncExpired_slot (s : State) (k : Fin 4) (x : Fin 8) (here : x.val / 2 = k.val) :
    ((s.syncExpired k).trunks.get k, (s.syncExpired k).changeovers.get x) =
      unlinkedSlot (s.trunks.get k, s.changeovers.get x) := by
  unfold unlinkedSlot
  by_cases failing : (s.trunks.get k).failing
  · rw [State.syncExpired_of failing, State.leaveUp_trunks, State.leaveUp_slot, if_pos here, Tab.get_modify_self]
    exact (if_pos failing).symm
  · rw [State.syncExpired_not failing]
    exact (if_neg failing).symm

theorem State.syncExpired_slot_ne (s : State) {k : Fin 4} {x : Fin 8} (elsewhere : x.val / 2 ≠ k.val) :
    (s.syncExpired k).changeovers.get x = s.changeovers.get x := by
  by_cases failing : (s.trunks.get k).failing
  · rw [State.syncExpired_of failing, State.leaveUp_slot, if_neg elsewhere]
  · rw [State.syncExpired_not failing]

theorem State.windowComplete_trunks (s : State) : s.windowComplete.trunks = s.trunks :=
  Still.windowComplete (view := State.trunks) ⟨fun act => act.trunks, fun _ _ => rfl⟩ s

theorem State.linksDue_slot (s : State) (x : Fin 8) : s.linksDue.changeovers.get x =
    (unlinkedSlot (s.trunks.get (trunkOfSlot x), s.changeovers.get x)).2 := by
  have v := Framed.slot x
  unfold State.linksDue
  rw [State.forAll_view (view := fun s => s.changeovers.get x) v.answerExpired]
  have both := State.forAll_once (f := State.syncExpired) (a := trunkOfSlot x) (g := unlinkedSlot)
    (view := fun s : State => (s.trunks.get (trunkOfSlot x), s.changeovers.get x))
    (fun t => t.syncExpired_slot (trunkOfSlot x) x rfl)
    (fun k _ other t => Prod.ext (t.syncExpired_trunks_ne other.symm)
      (t.syncExpired_slot_ne fun same => other (Fin.ext same.symm))) (allFin_nodup 4) (mem_allFin _)
    (s.forAll (allFin 8) State.segmentEnd).windowComplete
  have ended := State.forAll_acts (Acts.refl s) (allFin 8) State.segmentEnd fun x t act => State.segmentEnd_acts act x
  refine (congrArg Prod.snd both).trans ?_
  rw [State.windowComplete_trunks, ended.trunks, v.windowComplete, ended.changeovers]

/-! ### Entry to FALLBACK, after its own change of the part state -/

theorem State.shed_acts {s0 s : State} (h : Acts s0 s) : Acts s0 s.shed.2 := by
  have go (ps : List (Fin 64)) : ∀ acc : Nat × State, Acts s0 acc.2 →
      Acts s0 (ps.foldl (fun acc p =>
        if (acc.2.programs.get p).sheds then (acc.1 + 1, acc.2.endProgram p stAbandoned) else acc) acc).2 := by
    induction ps with
    | nil => exact fun _ act => act
    | cons p ps ih =>
      intro acc act
      refine ih _ ?_
      dsimp only
      split
      · exact State.endProgram_acts act p stAbandoned
      · exact act
  exact go (allFin 64) (0, s) h

/-- What the entry to FALLBACK does before any of its acts: the part state, the Beat Monitor and the walkers change. -/
def State.fallen (s : State) : State := ({ s with part := .fallback, beat := {} } : State).windAll id

theorem State.enterFallback_eq (s : State) : s.enterFallback =
    (((s.fallen.clearShow 1).shed.2.startMic.setCause .fallback).emitNote .fallback 1 0 (s.fallen.clearShow 1).shed.1) := by
  rw [State.enterFallback]
  rfl

theorem State.enterFallback_acts (s : State) : Acts s.fallen s.enterFallback := by
  have cleared := (State.clearShow_quiet (Quiet.refl s.fallen) 1).toActs
  have started := State.startMic_acts (State.shed_acts cleared)
  rw [State.enterFallback_eq]
  exact State.emitNote_acts (State.setCause_acts started _) _ _ _ _

theorem Still.beatExpired {α : Type} {view : State → α} (v : Still view) (fallen : ∀ s : State, view s.fallen = view s)
    (s : State) : view s.beatExpired = view s := by
  unfold State.beatExpired
  split
  · rw [v.acts s.enterFallback_acts, fallen]
  · rfl

/-! ### A slot at a period start -/

/-- A slot after a period start, by its trunk as it was. -/
def Changeover.period (t : Trunk) (c : Changeover) : Changeover :=
  if (c.state = .pending ∨ c.state = .releasing) ∧ (c.timer = some 0 ∨ (t.link = .up ∧ t.sync = some 0)) then {}
  else { c with timer := c.timer.map (· - 1) }

theorem Changeover.period_eq (t : Trunk) (c : Changeover) :
    (fun c : Changeover => { c with timer := Machine.tick c.timer }) (unlinkedSlot (t, c)).2.pendingDue.releaseDue =
      c.period t := by
  obtain ⟨state, faulted, spare, timer⟩ := c
  by_cases failing : t.link = .up ∧ t.sync = some 0 <;> by_cases due : timer = some 0 <;> cases state <;>
    simp [unlinkedSlot, Changeover.trunkDown, Changeover.pendingDue, Changeover.releaseDue, Changeover.period, Machine.tick,
      failing, due]

theorem State.scanExpired_changeovers (s : State) (l : ListId) : (s.scanExpired l).changeovers = s.changeovers := by
  unfold State.scanExpired
  split
  · rw [State.requestWalk_eq]
    rfl
  · rfl

theorem State.slot_period (s : State) (audio : List (List Sample)) (x : Fin 8) : ∃ t, exec (.mixPeriodStart audio) s = .next t ∧
    t.changeovers.get x = (s.changeovers.get x).period (s.trunks.get (trunkOfSlot x)) := by
  have v := Framed.slot x
  have u : Unmixed fun s : State => s.changeovers.get x := ⟨fun _ _ _ _ _ => rfl, fun s => by simp⟩
  obtain ⟨t, ran, slot⟩ := v.period u audio s
  refine ⟨t, ran, slot.trans ?_⟩
  have stepped : s.settleDue.stepTimers.changeovers.get x =
      (fun c : Changeover => { c with timer := Machine.tick c.timer }) (s.settleDue.changeovers.get x) :=
    Tab.get_map _ _ x
  have settled : s.settleDue.changeovers.get x = s.linksDue.slotsDue.changeovers.get x := by
    rw [State.settleDue_eq, State.forAll_view (view := State.changeovers) fun l t => t.scanExpired_changeovers l]
    exact (v.beatExpired (fun _ => rfl) _).trans (v.partiesDue _)
  rw [stepped, settled, State.slotsDue_slot, State.linksDue_slot, Changeover.period_eq]

/-! ### Echoes -/

theorem State.changeoverEcho_eq (s : State) (x : Fin 8) (e : Option (Fin 64 × Fin 64)) : s.changeoverEcho x e =
    let c := s.changeovers.get x
    if c.state = .pending ∧ e = some (slotOf c.faulted, slotOf c.spare) then
      (s.modChangeover x fun c => { c with state := .active, timer := none }).emitNote .changeover 1 c.faulted.val
        (x.val + 256 * c.spare.val)
    else if c.state = .releasing ∧ e = none then
      (s.modChangeover x fun _ => {}).emitNote .changeover 4 c.faulted.val (x.val + 256 * c.spare.val)
    else s := by
  unfold State.changeoverEcho
  dsimp only
  split
  · next pending => simp [pending, Changeover.detail]
  · next releasing => simp [releasing, Changeover.detail, State.freeSlot]
  · next free => simp [free]
  · next active => simp [active]

theorem State.changeoverEcho_slot_ne (s : State) {x y : Fin 8} (other : y ≠ x) (e : Option (Fin 64 × Fin 64)) :
    (s.changeoverEcho x e).changeovers.get y = s.changeovers.get y := by
  rw [State.changeoverEcho_eq]
  dsimp only
  split_ifs <;> simp [Tab.get_modify, other]

/-- The loop reports of a block whose slots are not served go to nobody. -/
theorem State.loopReports_unserved {s : State} {k : Fin 4} {b : ControlBlock}
    (unserved : (s.trunks.get k).served ≤ 8 * b.group.val) : s.loopReports k b = s := by
  refine State.forAll_fixed fun i _ => ?_
  cases b.loops[i.val]? with
  | none => rfl
  | some r =>
    refine if_neg ?_
    have beyond : ¬(slotIn b.group i).val < (s.trunks.get k).served := by simp only [slotIn]; omega
    simp [beyond]

/-- The station reports of a block whose slots are not present go to nobody. -/
theorem State.stationReports_absent {s : State} {k : Fin 4} {b : ControlBlock}
    (absent : (s.trunks.get k).present ≤ 8 * b.group.val) : s.stationReports k b = s := by
  refine State.forAll_fixed fun i _ => ?_
  cases b.stations[i.val]? with
  | none => rfl
  | some r =>
    refine if_neg ?_
    simp only [slotIn]
    omega

theorem State.inbound_of {s : State} {k : Fin 4} (up : (s.trunks.get k).link = .up) (b : ControlBlock) : s.inbound k b =
    ((((s.modTrunk k fun t => { t with sync := some 4 }).loopReports k b).stationReports k b).echoes k b) := by
  simp [State.inbound, up]

end Sys2Proof.Machine

/-- Settles O26. -/
theorem changeovers : Obligations.Changeovers := by
  unfold Obligations.Changeovers
  refine ⟨?_, ?_, ?_, ?_⟩
  · intro s h b n inHand code
    have ran : exec .releaseChangeover s = .next (s.releaseRecord h).arbitrate :=
      congrArg Host.Outcome.next (State.handOver_of _ inHand code)
    rw [ran]
    have record (x : Fin 8) (number : n = x.val) : s.releaseRecord h = if (s.changeovers.get x).state == .active then
        (s.modChangeover x fun c => { c with state := .releasing, timer := some 100 }).reply .setup h stDone false []
        else s.reply .setup h stBadField false [] := by
      rw [State.releaseRecord, show toFin? 8 (byteAt h.bytes 8) = some x by rw [← toFin?_val x, ← number]]
    refine ⟨?_, fun x number active => ?_⟩
    · rintro (beyond | ⟨x, number, state⟩)
      · rw [State.releaseRecord, toFin?_none beyond]
        rfl
      · rw [record x number, if_neg (by simpa using state)]
        rfl
    · rw [record x number, if_pos (by simpa using active)]
      rfl
  · intro s k b e f echoed up served present echoes
    have trunk : ((s.modTrunk k fun t => { t with sync := some 4 }).trunks.get k) =
        { s.trunks.get k with sync := some 4 } := by simp
    have ran : exec (.inboundControlBlock k b) s = .next (s.inbound k b).arbitrate := rfl
    rw [ran, State.inbound_of up, State.loopReports_unserved (by rw [trunk]; exact served),
      State.stationReports_absent (by rw [trunk]; exact present), State.echoes, echoes]
    have apart : (⟨2 * k.val + 1, by omega⟩ : Fin 8) ≠ ⟨2 * k.val, by omega⟩ := by simp
    have first (x : Fin 8) (y : Option (Fin 64 × Fin 64)) (u : State)
        (same : u.changeovers.get x = s.changeovers.get x) : u.changeoverEcho x y = echoed x y u := by
      rw [State.changeoverEcho_eq, same]
    have both (u : State) (same : u.changeovers = s.changeovers) :
        u.forAll ((slotsOf k).zip [e, f]) (fun x s => s.changeoverEcho x.1 x.2) =
          echoed ⟨2 * k.val + 1, by omega⟩ f (echoed ⟨2 * k.val, by omega⟩ e u) := by
      rw [← first _ e u (by rw [same]), ← first _ f _ (by rw [State.changeoverEcho_slot_ne _ apart, same])]
      rfl
    rw [both (s.modTrunk k _) rfl]
  · intro s audio
    exact ⟨_, exec_mixPeriodStart s audio, fun x => by
      obtain ⟨t, ran, slot⟩ := s.slot_period audio x
      rw [exec_mixPeriodStart] at ran
      rw [Host.Outcome.next.inj ran, slot]
      rfl⟩
  · intro s x c freed
    refine ⟨fun pending due => ?_, fun releasing due => ?_, fun other => ?_, fun other => ?_⟩
    · have ran : exec (.changeoverPendingExpiry x) s = .next (s.pendingExpired x).arbitrate := rfl
      rw [ran, State.pendingExpired_of pending due]
      rfl
    · have ran : exec (.changeoverReleaseExpiry x) s = .next (s.releaseExpired x).arbitrate := rfl
      rw [ran, State.releaseExpired_of releasing due]
      rfl
    · have ran : exec (.changeoverPendingExpiry x) s = .next (s.pendingExpired x).arbitrate := rfl
      rw [ran, State.pendingExpired_not other]
    · have ran : exec (.changeoverReleaseExpiry x) s = .next (s.releaseExpired x).arbitrate := rfl
      rw [ran, State.releaseExpired_not other]

end

section
/-! PROOF. Inbound control blocks of which one slot is served (R170): the loop reading with its capture and its judgement
(R173, R175), the amplifier-fault flag (R174), and the changeover that a rise attempts (R177). -/

open Sys2Proof Sys2Proof.Machine

namespace Sys2Proof.Machine

/-! ### The loop-state table -/

theorem Loop.judge_settled {x : Loop} (state : x.state = .normal ∨ x.state = .suspect) (side : Side) (n : Nat) :
    x.judge side n = if side = .within then (.normal, none)
      else if n ≤ x.streakWith side then (if side = .high then .faultOpen else .faultShort, none)
      else (.suspect, some (side, x.streakWith side)) := by
  rcases state with state | state <;> cases side <;> simp [Loop.judge, state]

theorem Loop.judge_faulted {x : Loop} (state : x.state = .faultOpen ∨ x.state = .faultShort) (side : Side) (n : Nat) :
    x.judge side n = if side ≠ .within ∧ x.state = (if side = .high then .faultOpen else .faultShort) then (x.state, none)
      else if n ≤ x.streakWith side then
        (if side = .within then .normal else if side = .high then .faultOpen else .faultShort, none)
      else (x.state, some (side, x.streakWith side)) := by
  rcases state with state | state <;> cases side <;> simp [Loop.judge, state]

theorem Loop.judge_unjudged {x : Loop} (state : x.state = .unsupervised ∨ x.state = .unserved) (side : Side) (n : Nat) :
    x.judge side n = (x.state, x.streak) := by
  rcases state with state | state <;> cases side <;> simp [Loop.judge, state]

/-! ### A return asked for changes the List Engine alone -/

theorem State.requestReturn_only (s : State) (l : ListId) (r : Return) :
    ∃ lists, s.requestReturn l r = { s with lists } := by
  unfold State.requestReturn
  dsimp only
  split
  · split_ifs
    · exact ⟨_, rfl⟩
    · exact ⟨_, rfl⟩
  · exact ⟨_, rfl⟩

section
variable (s : State) (l : ListId) (r : Return)

@[simp] theorem State.requestReturn_port : (s.requestReturn l r).port = s.port := by
  obtain ⟨_, e⟩ := s.requestReturn_only l r
  rw [e]

@[simp] theorem State.requestReturn_notes : (s.requestReturn l r).notes = s.notes := by
  obtain ⟨_, e⟩ := s.requestReturn_only l r
  rw [e]

@[simp] theorem State.requestReturn_loops : (s.requestReturn l r).loops = s.loops := by
  obtain ⟨_, e⟩ := s.requestReturn_only l r
  rw [e]

end

/-! ### Projections that a loop report leaves alone -/

/-- A projection that looks neither at notes and CAUSE, nor at the loops. -/
structure Apart {α : Type} (view : State → α) : Prop where
  noted : ∀ (s : State) (k : NoteKind) (c n d : Nat), view (s.emitNote k c n d) = view s
  caused : ∀ (s : State) (b : CauseBit), view (s.setCause b) = view s
  loop : ∀ (s : State) (o : Fin 256) (f : Loop → Loop), view (s.modLoop o f) = view s

/-- One that does not look at the changeover slots either. -/
structure Sparing {α : Type} (view : State → α) : Prop extends Apart view where
  slot : ∀ (s : State) (x : Fin 8) (f : Changeover → Changeover), view (s.modChangeover x f) = view s

/-- A projection that does not look at the List Engine. -/
abbrev Listless {α : Type} (view : State → α) : Prop := ∀ (s : State) (l : ListEngine), view { s with lists := l } = view s

theorem Listless.returned {α : Type} {view : State → α} (w : Listless view) (s : State) (l : ListId) (r : Return) :
    view (s.requestReturn l r) = view s := by
  obtain ⟨lists, e⟩ := s.requestReturn_only l r
  rw [e, w]

theorem Apart.changeovers : Apart State.changeovers := ⟨fun s k c n d => by simp, fun _ _ => rfl, fun _ _ _ => rfl⟩

theorem Sparing.outlets : Sparing State.outlets :=
  ⟨⟨fun s k c n d => by simp, fun _ _ => rfl, fun _ _ _ => rfl⟩, fun _ _ _ => rfl⟩

theorem Sparing.trunks : Sparing State.trunks :=
  ⟨⟨fun s k c n d => by simp, fun _ _ => rfl, fun _ _ _ => rfl⟩, fun _ _ _ => rfl⟩

theorem Sparing.stations : Sparing State.stations :=
  ⟨⟨fun s k c n d => by simp, fun _ _ => rfl, fun _ _ _ => rfl⟩, fun _ _ _ => rfl⟩

theorem Sparing.claims : Sparing State.claims :=
  ⟨⟨fun s k c n d => by simp, fun _ _ => rfl, fun _ _ _ => rfl⟩, fun _ _ _ => rfl⟩

theorem Sparing.time : Sparing State.time :=
  ⟨⟨fun s k c n d => by simp, fun _ _ => rfl, fun _ _ _ => rfl⟩, fun _ _ _ => rfl⟩

theorem Sparing.lists : Sparing State.lists :=
  ⟨⟨fun s k c n d => by simp, fun _ _ => rfl, fun _ _ _ => rfl⟩, fun _ _ _ => rfl⟩

theorem Sparing.port : Sparing State.port :=
  ⟨⟨fun s k c n d => by simp, fun _ _ => rfl, fun _ _ _ => rfl⟩, fun _ _ _ => rfl⟩

/-! ### A loop reading -/

/-- A loop after a reading is stored and has added to a capture (R173, R175). -/
def State.stored (s : State) (o : Fin 256) (reading : Nat) (x : Loop) : Loop :=
  match x.capture with
  | none => { x with last := reading }
  | some cap =>
    if cap.count < 7 then
      { x with last := reading, capture := some { cap with count := cap.count + 1, sum := cap.sum + reading } }
    else s.rebased o ((cap.sum + reading) / 8) { x with last := reading, capture := none }

/-- A loop after a reading is judged too. -/
def State.judged (s : State) (o : Fin 256) (reading : Nat) (x : Loop) : Loop :=
  let y := s.stored o reading x
  let j := y.judge (sideOf (s.outlets.get o) y.baseline reading) (s.outlets.get o).confirm
  { y with state := j.1, streak := j.2 }

/-- The return of a capture that a reading completes. -/
def LoopCapture.done (cap : LoopCapture) (reading : Nat) : Return :=
  { record := cap.record, status := marked 0x02 cap.record.mark
    results := [(16, bytes4 ((cap.sum + reading) / 8))] }

theorem State.rebased_congr {s t : State} (outlets : t.outlets = s.outlets) (trunks : t.trunks = s.trunks) (o : Fin 256) :
    t.rebased o = s.rebased o := by
  funext b x
  simp only [State.rebased, State.unserved, outlets, trunks]

/-- What a reading makes of a loop and its capture: the loop as stored, and the return of a complete capture. -/
def State.readingStored (s : State) (o : Fin 256) (reading : Nat) : State :=
  let t := s.modLoop o fun x => s.stored o reading x
  match (s.loops.get o).capture with
  | some cap => if cap.count < 7 then t else t.requestReturn .setup (cap.done reading)
  | none => t

theorem State.captureReading_eq (s : State) (o : Fin 256) (reading : Nat) :
    (s.modLoop o fun x => { x with last := reading }).captureReading o reading = s.readingStored o reading := by
  have capture : ((s.modLoop o fun x => { x with last := reading }).loops.get o).capture = (s.loops.get o).capture := by simp
  unfold State.captureReading State.readingStored
  rw [capture]
  cases held : (s.loops.get o).capture with
  | none => exact s.modLoop_congr o (by simp [State.stored, held])
  | some cap =>
    by_cases last : cap.count < 7
    · have more : cap.count + 1 < 8 := by omega
      simp only [more, last, if_true]
      rw [State.modLoop_modLoop]
      exact s.modLoop_congr o (by simp [State.stored, held, last])
    · have full : ¬cap.count + 1 < 8 := by omega
      simp only [full, last, if_false]
      rw [State.modLoop_modLoop, State.setLoopBaseline_eq, State.modLoop_modLoop,
        State.rebased_congr (s := s) (t := s.modLoop o _) rfl rfl]
      refine congrArg (State.requestReturn .setup (cap.done reading)) (s.modLoop_congr o ?_)
      simp [State.stored, held, last]

theorem State.readingStored_loops (s : State) (o : Fin 256) (reading : Nat) :
    (s.readingStored o reading).loops = s.loops.modify o (s.stored o reading) := by
  unfold State.readingStored
  dsimp only
  split
  · split_ifs <;> simp
  · rfl

theorem Apart.readingStored {α : Type} {view : State → α} (v : Apart view) (w : Listless view) (s : State) (o : Fin 256) (reading : Nat) :
    view (s.readingStored o reading) = view s := by
  unfold State.readingStored
  dsimp only
  split
  · split_ifs
    · exact v.loop s o _
    · rw [w.returned, v.loop]
  · exact v.loop s o _

theorem State.readingStored_notes (s : State) (o : Fin 256) (reading : Nat) :
    (s.readingStored o reading).notes = s.notes := by
  unfold State.readingStored
  dsimp only
  split
  · split_ifs <;> simp
  · rfl

/-- A loop reading: stored, judged, and noted where the state changes. -/
theorem State.loopReading_eq (s : State) (o : Fin 256) (reading : Nat) : s.loopReading o reading =
    ((s.readingStored o reading).modLoop o fun _ => s.judged o reading (s.loops.get o)).loopNote o
      (s.stored o reading (s.loops.get o)).state (s.judged o reading (s.loops.get o)).state reading := by
  have loop : (s.readingStored o reading).loops.get o = s.stored o reading (s.loops.get o) := by
    rw [State.readingStored_loops, Tab.get_modify_self]
  have outlets : (s.readingStored o reading).outlets = s.outlets :=
    Sparing.outlets.readingStored (fun _ _ => rfl) s o reading
  unfold State.loopReading
  dsimp only
  rw [State.captureReading_eq, loop, outlets]
  refine congrArg (State.loopNote o _ _ reading) (State.modLoop_congr _ o ?_)
  rw [loop]
  rfl

/-- The notes of a change of loop state by a reading (R173, R180). -/
def loopNotes (o : Fin 256) (time : Word) (reading : Nat) (old new : LoopState) : List Note :=
  let note (code : Nat) : Note := { kind := .loopFault, code, subject := o.val, detail := reading, time }
  if new = old then []
  else if new = .faultOpen then [note 1]
  else if new = .faultShort then [note 2]
  else if new = .normal ∧ (old = .faultOpen ∨ old = .faultShort) then [note 0]
  else []

theorem State.loopNote_acts (s : State) (o : Fin 256) (old new : LoopState) (reading : Nat) :
    Acts s (s.loopNote o old new reading) := by
  have note (k : NoteKind) (c n d : Nat) : Acts s (s.emitNote k c n d) := State.emitNote_acts (Acts.refl s) k c n d
  have fault (k : NoteKind) (c n d : Nat) : Acts s ((s.setCause .fault).emitNote k c n d) :=
    State.emitNote_acts (State.setCause_acts (Acts.refl s) _) k c n d
  unfold State.loopNote
  split
  · exact Acts.refl s
  · split
    · exact fault _ _ _ _
    · exact fault _ _ _ _
    · split
      · exact note _ _ _ _
      · exact note _ _ _ _
      all_goals exact Acts.refl s
    all_goals exact Acts.refl s

theorem Apart.loopNote {α : Type} {view : State → α} (v : Apart view) (s : State) (o : Fin 256) (old new : LoopState)
    (reading : Nat) : view (s.loopNote o old new reading) = view s := by
  unfold State.loopNote
  split
  · rfl
  · split
    · rw [v.noted, v.caused]
    · rw [v.noted, v.caused]
    · split
      · exact v.noted _ _ _ _ _
      · exact v.noted _ _ _ _ _
      all_goals rfl
    all_goals rfl

theorem State.emitNote_queue {s : State} (room : s.notes.queue.length < 32) (k : NoteKind) (code subject detail : Nat) :
    (s.emitNote k code subject detail).notes.queue =
      s.notes.queue ++ [{ kind := k, code, subject, detail, time := s.time }] := by
  rw [State.emitNote_room room]

theorem State.emitNote_queue_caused {s : State} (room : s.notes.queue.length < 32) (b : CauseBit) (k : NoteKind)
    (code subject detail : Nat) : ((s.setCause b).emitNote k code subject detail).notes.queue =
      s.notes.queue ++ [{ kind := k, code, subject, detail, time := s.time }] :=
  State.emitNote_queue (s := s.setCause b) room k code subject detail

theorem State.loopNote_queue {s : State} (room : s.notes.queue.length < 32) (o : Fin 256) (old new : LoopState)
    (reading : Nat) : (s.loopNote o old new reading).notes.queue = s.notes.queue ++ loopNotes o s.time reading old new := by
  unfold State.loopNote loopNotes
  by_cases same : old = new
  · simp [same]
  · cases new <;> cases old <;> 
      simp [State.emitNote_queue, State.emitNote_queue_caused, room] at same ⊢

/-! ### A reading's outcome, by parts -/

theorem State.loopReading_loops (s : State) (o : Fin 256) (reading : Nat) :
    (s.loopReading o reading).loops = s.loops.modify o (s.judged o reading) := by
  rw [State.loopReading_eq, (State.loopNote_acts _ _ _ _ _).loops, State.modLoop_loops,
    State.readingStored_loops, Tab.modify_modify]
  exact Tab.modify_congr _ _ rfl

theorem Apart.loopReading {α : Type} {view : State → α} (v : Apart view) (w : Listless view) (s : State) (o : Fin 256) (reading : Nat) :
    view (s.loopReading o reading) = view s := by
  rw [State.loopReading_eq, v.loopNote, v.loop, v.readingStored w]

theorem State.loopReading_queue {s : State} (room : s.notes.queue.length < 32) (o : Fin 256) (reading : Nat) :
    (s.loopReading o reading).notes.queue = s.notes.queue ++ loopNotes o s.time reading
      (s.stored o reading (s.loops.get o)).state (s.judged o reading (s.loops.get o)).state := by
  have notes : ((s.readingStored o reading).modLoop o fun _ => s.judged o reading (s.loops.get o)).notes = s.notes :=
    s.readingStored_notes o reading
  have time : ((s.readingStored o reading).modLoop o fun _ => s.judged o reading (s.loops.get o)).time = s.time :=
    Sparing.time.readingStored (fun _ _ => rfl) s o reading
  rw [State.loopReading_eq, State.loopNote_queue (by rw [notes]; exact room), notes, time]

/-- A confirmed fault sets FAULT. -/
theorem State.loopNote_fault (s : State) (o : Fin 256) {old new : LoopState} (reading : Nat) (changed : old ≠ new)
    (fault : new = .faultOpen ∨ new = .faultShort) : (s.loopNote o old new reading).causeHas .fault = true := by
  have set (k : NoteKind) (c n d : Nat) : ((s.setCause .fault).emitNote k c n d).causeHas .fault = true :=
    (State.emitNote_acts (Acts.refl (s.setCause .fault)) k c n d).causes .fault (by simp [State.causeHas_setCause])
  rcases fault with rfl | rfl
  · rw [State.loopNote, if_neg changed]
    exact set _ _ _ _
  · rw [State.loopNote, if_neg changed]
    exact set _ _ _ _

/-! ### An amplifier-fault flag -/

theorem State.attemptChangeover_cases (s : State) (o : Fin 256) :
    s.attemptChangeover o = s ∨ (∃ reason, s.attemptChangeover o = s.changeoverRefused o reason) ∨
      ∃ y, ∃ c : Changeover, c.state = .pending ∧ s.attemptChangeover o = s.modChangeover y fun _ => c := by
  unfold State.attemptChangeover
  dsimp only
  split_ifs
  · exact .inl rfl
  · exact .inr (.inl ⟨_, rfl⟩)
  · split
    · exact .inr (.inl ⟨_, rfl⟩)
    · split
      · exact .inr (.inl ⟨_, rfl⟩)
      · exact .inr (.inr ⟨_, _, rfl, rfl⟩)

theorem Sparing.attemptChangeover {α : Type} {view : State → α} (v : Sparing view) (s : State) (o : Fin 256) :
    view (s.attemptChangeover o) = view s := by
  rcases s.attemptChangeover_cases o with e | ⟨reason, e⟩ | ⟨y, c, -, e⟩
  · rw [e]
  · rw [e, State.changeoverRefused, v.noted, v.caused]
  · rw [e, v.slot]

/-- A flag that changes at a defined outlet. -/
theorem State.ampFlag_of {s : State} {o : Fin 256} {flag : Bool} (defined : (s.outlets.get o).kind ≠ .undefined)
    (changed : (s.loops.get o).ampFault ≠ flag) : s.ampFlag o flag =
      let t := s.modLoop o fun x => { x with ampFault := flag }
      let detail := changeoverCode (s.changeoverOf o)
      if flag then ((t.setCause .fault).emitNote .ampFault 1 o.val detail).attemptChangeover o
      else t.emitNote .ampFault 0 o.val detail := by
  unfold State.ampFlag
  rw [if_neg (by simp [defined, changed])]
  rfl

theorem State.ampFlag_not {s : State} {o : Fin 256} {flag : Bool}
    (idle : (s.outlets.get o).kind = .undefined ∨ (s.loops.get o).ampFault = flag) : s.ampFlag o flag = s := by
  unfold State.ampFlag
  rw [if_pos (by simpa using idle)]

theorem Sparing.ampFlag {α : Type} {view : State → α} (v : Sparing view) (s : State) (o : Fin 256) (flag : Bool) :
    view (s.ampFlag o flag) = view s := by
  unfold State.ampFlag
  dsimp only
  split_ifs
  · rfl
  · rw [v.attemptChangeover, v.noted, v.caused, v.loop]
  · rw [v.noted, v.loop]

theorem Sparing.changeoverEcho {α : Type} {view : State → α} (v : Sparing view) (s : State) (x : Fin 8)
    (e : Option (Fin 64 × Fin 64)) : view (s.changeoverEcho x e) = view s := by
  rw [State.changeoverEcho_eq]
  dsimp only
  split_ifs
  · rw [v.noted, v.slot]
  · rw [v.noted, v.slot]
  · rfl

theorem Sparing.echoes {α : Type} {view : State → α} (v : Sparing view) (s : State) (k : Fin 4) (b : ControlBlock) :
    view (s.echoes k b) = view s :=
  State.forAll_view (f := fun (x : Fin 8 × Option (Fin 64 × Fin 64)) t => t.changeoverEcho x.1 x.2)
    (fun x t => v.changeoverEcho t x.1 x.2) _ s

/-! ### A block of which one slot is served -/

theorem State.forAll_first {f : Fin 8 → State → State} {s t : State} (first : f 0 s = t)
    (rest : ∀ i, i ≠ 0 → f i t = t) : s.forAll (allFin 8) f = t := by
  have split : allFin 8 = 0 :: (allFin 8).tail := by decide
  rw [split, State.forAll_cons, first]
  refine State.forAll_fixed fun i mem => rest i ?_
  rintro rfl
  exact absurd mem (by decide)

/-- The loop report of one slot of a block. -/
def State.loopReportAt (k : Fin 4) (b : ControlBlock) (i : Fin 8) (s : State) : State :=
  match b.loops[i.val]? with
  | some r =>
    if (s.trunks.get k).supervision && ((slotIn b.group i).val < (s.trunks.get k).served : Bool) then
      (s.loopReading (outletAt k (slotIn b.group i)) r.reading.toNat).ampFlag (outletAt k (slotIn b.group i)) r.fault
    else s
  | none => s

theorem State.loopReports_eq (s : State) (k : Fin 4) (b : ControlBlock) :
    s.loopReports k b = s.forAll (allFin 8) (State.loopReportAt k b) := rfl

/-- The loop report of the first slot, in a block that serves no more than this one: it goes to its loop, or to nobody. -/
def State.reported (s : State) (k : Fin 4) (g : Fin 8) (r : LoopReport) : State :=
  let o := outletAt k ⟨8 * g.val, by omega⟩
  if (s.trunks.get k).supervision = true ∧ 8 * g.val < (s.trunks.get k).served then
    (s.loopReading o r.reading.toNat).ampFlag o r.fault
  else s

theorem State.attemptChangeover_loops (s : State) (o : Fin 256) : (s.attemptChangeover o).loops = s.loops := by
  rcases s.attemptChangeover_cases o with e | ⟨reason, e⟩ | ⟨y, c, -, e⟩ <;> rw [e]
  · simp [State.changeoverRefused]
  · rfl

theorem State.ampFlag_loops (s : State) (o : Fin 256) (flag : Bool) : (s.ampFlag o flag).loops =
    if (s.outlets.get o).kind = .undefined then s.loops else s.loops.modify o fun x => { x with ampFault := flag } := by
  by_cases undefined : (s.outlets.get o).kind = .undefined
  · rw [State.ampFlag_not (.inl undefined), if_pos undefined]
  · rw [if_neg undefined]
    by_cases same : (s.loops.get o).ampFault = flag
    · rw [State.ampFlag_not (.inr same), Tab.modify_congr s.loops o (g := id) (by simp [← same]), Tab.modify_id]
    · rw [State.ampFlag_of undefined same]
      cases flag <;> simp [State.attemptChangeover_loops]

theorem State.loopReports_first {s : State} {k : Fin 4} {b : ControlBlock} {r : LoopReport} (here : b.loops[0]? = some r)
    (served : (s.trunks.get k).served ≤ 8 * b.group.val + 1) : s.loopReports k b = s.reported k b.group r := by
  have trunks : (s.reported k b.group r).trunks = s.trunks := by
    unfold State.reported
    dsimp only
    split_ifs
    · rw [Sparing.trunks.ampFlag, Sparing.trunks.loopReading fun _ _ => rfl]
    · rfl
  have first : s.loopReportAt k b 0 = s.reported k b.group r := by
    rw [State.loopReportAt, show b.loops[(0 : Fin 8).val]? = some r from here]
    simp [State.reported, slotIn]
  rw [State.loopReports_eq]
  refine State.forAll_first first fun i other => ?_
  rw [State.loopReportAt]
  cases b.loops[i.val]? with
  | none => rfl
  | some r' =>
    refine if_neg ?_
    rw [trunks]
    have later : ¬(slotIn b.group i).val < (s.trunks.get k).served := by
      have positive : 0 < i.val := Nat.pos_of_ne_zero fun zero => other (Fin.ext zero)
      simp only [slotIn]
      omega
    simp [later]

/-- An inbound control block of which only the first slot may be served, and none is present. -/
theorem State.inbound_first {s : State} {k : Fin 4} {b : ControlBlock} {r : LoopReport}
    (up : (s.trunks.get k).link = .up) (here : b.loops[0]? = some r)
    (served : (s.trunks.get k).served ≤ 8 * b.group.val + 1) (present : (s.trunks.get k).present ≤ 8 * b.group.val) :
    s.inbound k b = (((s.modTrunk k fun t => { t with sync := some 4 }).reported k b.group r).echoes k b) := by
  rw [State.inbound_of up, State.loopReports_first here (by simpa using served)]
  have trunks : ((s.modTrunk k fun t => { t with sync := some 4 }).reported k b.group r).trunks =
      (s.modTrunk k fun t => { t with sync := some 4 }).trunks := by
    unfold State.reported
    dsimp only
    split_ifs
    · rw [Sparing.trunks.ampFlag, Sparing.trunks.loopReading fun _ _ => rfl]
    · rfl
  rw [State.stationReports_absent (by rw [trunks]; simpa using present)]

theorem trunkOf_outletAt (k : Fin 4) (x : Fin 64) : trunkOf (outletAt k x) = k := by
  apply Fin.ext
  simp only [trunkOf, outletAt]
  omega

theorem slotOf_outletAt (k : Fin 4) (x : Fin 64) : slotOf (outletAt k x) = x := by
  apply Fin.ext
  simp only [slotOf, outletAt]
  omega

theorem Sparing.reported {α : Type} {view : State → α} (v : Sparing view) (w : Listless view) (s : State) (k : Fin 4)
    (g : Fin 8) (r : LoopReport) : view (s.reported k g r) = view s := by
  unfold State.reported
  dsimp only
  split_ifs
  · rw [v.ampFlag, v.loopReading w]
  · rfl

/-- With no slot of the trunk PENDING or RELEASING the echoes change nothing. -/
theorem State.echoes_settled {s : State} {k : Fin 4}
    (settled : ∀ y : Fin 8, y.val / 2 = k.val → (s.changeovers.get y).state = .free ∨ (s.changeovers.get y).state = .active)
    (b : ControlBlock) : s.echoes k b = s := by
  refine State.forAll_fixed fun x mem => ?_
  have here : x.1 ∈ slotsOf k := (List.of_mem_zip mem).1
  rw [State.changeoverEcho_eq]
  rcases settled x.1 ((mem_slotsOf k x.1).mp here) with free | active
  · simp [free]
  · simp [active]

theorem State.echoes_loops (s : State) (k : Fin 4) (b : ControlBlock) : (s.echoes k b).loops = s.loops := by
  refine State.forAll_view (view := State.loops) (f := fun (x : Fin 8 × Option (Fin 64 × Fin 64)) t =>
    t.changeoverEcho x.1 x.2) (fun x t => ?_) _ s
  rw [State.changeoverEcho_eq]
  dsimp only
  split_ifs <;> simp

/-! ### Notes and CAUSE bits stand -/

/-- Notes queued before stand at the front, and CAUSE bits are only set. -/
def Told (s t : State) : Prop := s.notes.queue <+: t.notes.queue ∧ ∀ b, s.causeHas b = true → t.causeHas b = true

theorem Told.refl (s : State) : Told s s := ⟨List.prefix_refl _, fun _ h => h⟩

theorem Told.trans {a b c : State} (h : Told a b) (k : Told b c) : Told a c :=
  ⟨h.1.trans k.1, fun x y => k.2 x (h.2 x y)⟩

theorem Acts.told {s t : State} (act : Acts s t) : Told s t := by
  obtain ⟨more, queue⟩ := act.noted.queue
  exact ⟨⟨more, queue.symm⟩, act.causes⟩

theorem State.forAll_told {β : Type} {f : β → State → State} (each : ∀ x s, Told s (f x s)) (xs : List β) (s : State) :
    Told s (s.forAll xs f) := by
  induction xs generalizing s with
  | nil => exact Told.refl s
  | cons x xs ih => exact (each x s).trans (ih (f x s))

theorem State.echoes_told (s : State) (k : Fin 4) (b : ControlBlock) : Told s (s.echoes k b) := by
  refine State.forAll_told (f := fun (x : Fin 8 × Option (Fin 64 × Fin 64)) t => t.changeoverEcho x.1 x.2) (fun x t => ?_) _ s
  rw [State.changeoverEcho_eq]
  dsimp only
  have noted (f : Changeover → Changeover) (c n d : Nat) : Told t ((t.modChangeover x.1 f).emitNote .changeover c n d) :=
    (State.emitNote_acts (Acts.refl (t.modChangeover x.1 f)) .changeover c n d).told
  split_ifs
  · exact noted _ _ _ _
  · exact noted _ _ _ _
  · exact Told.refl t

theorem State.attemptChangeover_told (s : State) (o : Fin 256) : Told s (s.attemptChangeover o) := by
  rcases s.attemptChangeover_cases o with e | ⟨reason, e⟩ | ⟨y, c, -, e⟩ <;> rw [e]
  · exact Told.refl s
  · exact (State.emitNote_acts (State.setCause_acts (Acts.refl s) _) _ _ _ _).told
  · exact Told.refl s

/-- A rise sets FAULT and makes its note, whatever changeover follows. -/
theorem State.ampFlag_rise {s : State} {o : Fin 256} (defined : (s.outlets.get o).kind ≠ .undefined)
    (down : (s.loops.get o).ampFault = false) : s.ampFlag o true =
      ((((s.modLoop o fun x => { x with ampFault := true }).setCause .fault).emitNote .ampFault 1 o.val
        (changeoverCode (s.changeoverOf o))).attemptChangeover o) := by
  rw [State.ampFlag_of defined (by simp [down])]
  rfl

theorem State.ampFlag_told (s : State) (o : Fin 256) (flag : Bool) : Told s (s.ampFlag o flag) := by
  by_cases idle : (s.outlets.get o).kind = .undefined ∨ (s.loops.get o).ampFault = flag
  · rw [State.ampFlag_not idle]
    exact Told.refl s
  · obtain ⟨defined, changed⟩ := not_or.mp idle
    rw [State.ampFlag_of defined changed]
    have told (t : State) (h : Told s t) (k : NoteKind) (c n d : Nat) : Told s (t.emitNote k c n d) :=
      h.trans (State.emitNote_acts (Acts.refl t) k c n d).told
    have start : Told s (s.modLoop o fun x => { x with ampFault := flag }) := Told.refl s
    cases flag with
    | true =>
      have caused := start.trans (State.setCause_acts (Acts.refl (s.modLoop o fun x => { x with ampFault := true })) .fault).told
      exact (told _ caused _ _ _ _).trans (State.attemptChangeover_told _ o)
    | false => exact told _ start _ _ _ _

/-! ### A stored reading -/

section
variable {s : State} {o : Fin 256} {reading : Nat} {x : Loop}

theorem State.stored_idle (none : x.capture = none) : s.stored o reading x = { x with last := reading } := by
  simp [State.stored, none]

theorem State.stored_counted {cap : LoopCapture} (pending : x.capture = some cap) (more : cap.count < 7) :
    s.stored o reading x =
      { x with last := reading, capture := some { cap with count := cap.count + 1, sum := cap.sum + reading } } := by
  simp [State.stored, pending, more]

theorem State.stored_complete {cap : LoopCapture} (pending : x.capture = some cap) (last : 7 ≤ cap.count) :
    s.stored o reading x = s.rebased o ((cap.sum + reading) / 8) { x with last := reading, capture := none } := by
  simp [State.stored, pending, Nat.not_lt.mpr last]

/-- A watched loop keeps its amplifier-fault flag through a new baseline. -/
theorem State.rebased_ampFault (served : s.unserved o = false) (takes : (s.outlets.get o).kind.takesClaims = true)
    (able : (s.trunks.get (trunkOf o)).supervision = true) (b : Nat) : (s.rebased o b x).ampFault = x.ampFault := by
  rw [State.rebased, if_neg (by simp [served]), if_neg (by simp [takes, able])]
  split_ifs <;> rfl

/-- What a stored reading keeps of a served loop of an outlet that takes claims, or of any that completes no capture: the
amplifier-fault flag, and the state but for one not judged, which a complete capture makes NORMAL. -/
theorem State.stored_kept (served : s.unserved o = false) (able : (s.trunks.get (trunkOf o)).supervision = true)
    (watched : ∀ cap, x.capture = some cap →
      cap.count < 7 ∨ ((s.outlets.get o).kind ≠ .undefined ∧ (s.outlets.get o).kind ≠ .spare)) :
    (s.stored o reading x).ampFault = x.ampFault ∧ ((s.stored o reading x).state = x.state ∨
      (Loop.judgedState x.state = false ∧ (s.stored o reading x).state = .normal)) := by
  cases pending : x.capture with
  | none => simp [State.stored_idle pending]
  | some cap =>
    by_cases more : cap.count < 7
    · simp [State.stored_counted pending more]
    · obtain ⟨defined, spare⟩ := (watched cap pending).resolve_left more
      have last : 7 ≤ cap.count := by omega
      obtain ⟨judged, fresh⟩ := s.rebased_watched ((cap.sum + reading) / 8) { x with last := reading, capture := none } served
        defined spare able
      rw [State.stored_complete pending last]
      refine ⟨State.rebased_ampFault served ((OutletKind.takesClaims_iff _).mpr ⟨defined, spare⟩) able _, ?_⟩
      by_cases state : Loop.judgedState x.state = true
      · exact .inl (judged ((Loop.judgedState_iff _).mp state)).1
      · exact .inr ⟨by simpa using state, fresh ((Loop.judgedState_iff _).not.mp state)⟩

end

/-- A judgement of a judged state is a judged state. -/
theorem Loop.judge_judged {x : Loop} (judged : Loop.judgedState x.state = true) (side : Side) (n : Nat) :
    Loop.judgedState (x.judge side n).1 = true := by
  rcases (Loop.judgedState_iff _).mp judged with state | state | state | state
  · rw [Loop.judge_settled (.inl state)]
    split_ifs <;> rfl
  · rw [Loop.judge_settled (.inr state)]
    split_ifs <;> rfl
  · rw [Loop.judge_faulted (.inl state)]
    split_ifs <;> simp [state, Loop.judgedState]
  · rw [Loop.judge_faulted (.inr state)]
    split_ifs <;> simp [state, Loop.judgedState]

/-- The notes of a reading speak of the state before it: a capture that makes a loop NORMAL first adds none. -/
theorem loopNotes_stored (o : Fin 256) (time : Word) (reading : Nat) {old mid new : LoopState}
    (kept : mid = old ∨ (Loop.judgedState old = false ∧ mid = .normal))
    (judged : Loop.judgedState mid = true → Loop.judgedState new = true) :
    loopNotes o time reading mid new = loopNotes o time reading old new := by
  rcases kept with rfl | ⟨unjudged, rfl⟩
  · rfl
  · have now : Loop.judgedState new = true := judged rfl
    cases old <;> simp [Loop.judgedState] at unjudged <;> cases new <;> simp [Loop.judgedState, loopNotes] at now ⊢

end Sys2Proof.Machine

end

section
/-! PROOF. The loop reports of an inbound control block (O57) and the changeover that a rise attempts (O58): the first
slot's report followed by the echoes, put together from its parts. -/

open Sys2Proof Sys2Proof.Machine

namespace Sys2Proof.Machine

section
variable {s : State} {k : Fin 4} {g : Fin 8} {r : LoopReport}

/-- A loop after its report: read and judged, and with the flag of the report where its outlet is defined. -/
def State.reportedLoop (s : State) (o : Fin 256) (r : LoopReport) (x : Loop) : Loop :=
  if (s.outlets.get o).kind = .undefined then s.judged o r.reading.toNat x
  else { s.judged o r.reading.toNat x with ampFault := r.fault }

theorem State.reported_served (able : (s.trunks.get k).supervision = true) (served : 8 * g.val < (s.trunks.get k).served) :
    s.reported k g r = (s.loopReading (outletAt k ⟨8 * g.val, by omega⟩) r.reading.toNat).ampFlag
      (outletAt k ⟨8 * g.val, by omega⟩) r.fault := by
  unfold State.reported
  exact if_pos ⟨able, served⟩

theorem State.reported_unserved (out : (s.trunks.get k).supervision = false ∨ (s.trunks.get k).served ≤ 8 * g.val) :
    s.reported k g r = s := by
  unfold State.reported
  refine if_neg ?_
  rcases out with unable | unserved
  · simp [unable]
  · exact fun both => absurd both.2 (by omega)

theorem State.reported_loops (able : (s.trunks.get k).supervision = true) (served : 8 * g.val < (s.trunks.get k).served) :
    (s.reported k g r).loops = s.loops.modify (outletAt k ⟨8 * g.val, by omega⟩)
      (s.reportedLoop (outletAt k ⟨8 * g.val, by omega⟩) r) := by
  rw [State.reported_served able served, State.ampFlag_loops, State.loopReading_loops,
    Sparing.outlets.loopReading fun _ _ => rfl, Tab.modify_modify]
  unfold State.reportedLoop
  split_ifs
  · rfl
  · exact Tab.modify_congr _ _ rfl

end

theorem Sparing.inbound {α : Type} {view : State → α} (v : Sparing view) (w : Listless view) {s : State} {k : Fin 4}
    {b : ControlBlock} {r : LoopReport} (up : (s.trunks.get k).link = .up) (here : b.loops[0]? = some r)
    (served : (s.trunks.get k).served ≤ 8 * b.group.val + 1) (present : (s.trunks.get k).present ≤ 8 * b.group.val) :
    view (s.inbound k b) = view (s.modTrunk k fun t => { t with sync := some 4 }) := by
  rw [State.inbound_first up here served present, v.echoes, v.reported w]

/-- The slot of an outlet in at most one changeover, as its notes give it. -/
theorem State.changeoverCode_none {s : State} {o : Fin 256}
    (absent : ∀ z, ¬((s.changeovers.get z).state ≠ .free ∧
      ((s.changeovers.get z).faulted = o ∨ (s.changeovers.get z).spare = o))) :
    s.changeoverOf o = none := by
  refine List.find?_eq_none.mpr fun z _ => ?_
  simpa [not_and, not_or] using absent z

theorem State.changeoverOf_only {s : State} {o : Fin 256} {z : Fin 8}
    (standing : (s.changeovers.get z).state ≠ .free ∧
      ((s.changeovers.get z).faulted = o ∨ (s.changeovers.get z).spare = o))
    (only : ∀ w, (s.changeovers.get w).state ≠ .free ∧
      ((s.changeovers.get w).faulted = o ∨ (s.changeovers.get w).spare = o) → w = z) :
    s.changeoverOf o = some z := by
  cases found : s.changeoverOf o with
  | none =>
    have test := List.find?_eq_none.mp found z (mem_allFin z)
    exact absurd (by simpa using standing) test
  | some w =>
    have test := List.find?_some found
    rw [only w (by simpa using test)]

section
variable {s : State} {o : Fin 256}

/-- The AMP_FAULT note of an outlet (R180). -/
def State.ampNote (s : State) (o : Fin 256) (code : Nat) : Note :=
  { kind := .ampFault, code, subject := o.val, detail := changeoverCode (s.changeoverOf o), time := s.time }

theorem State.ampFlag_fall (defined : (s.outlets.get o).kind ≠ .undefined) (was : (s.loops.get o).ampFault = true)
    (room : s.notes.queue.length < 32) :
    (s.ampFlag o false).notes.queue = s.notes.queue ++ [s.ampNote o 0] ∧
      (s.ampFlag o false).changeovers = s.changeovers := by
  rw [State.ampFlag_of defined (by simp [was])]
  simp only [Bool.false_eq_true, if_false]
  refine ⟨?_, by simp⟩
  exact State.emitNote_queue (s := s.modLoop o _) room .ampFault 0 o.val _

theorem State.ampFlag_rise_notes (defined : (s.outlets.get o).kind ≠ .undefined) (was : (s.loops.get o).ampFault = false)
    (room : s.notes.queue.length < 32) :
    s.notes.queue ++ [s.ampNote o 1] <+: (s.ampFlag o true).notes.queue ∧ (s.ampFlag o true).causeHas .fault = true := by
  rw [State.ampFlag_rise defined was]
  have told := State.attemptChangeover_told (((s.modLoop o fun x => { x with ampFault := true }).setCause .fault).emitNote
    .ampFault 1 o.val (changeoverCode (s.changeoverOf o))) o
  have queue : (((s.modLoop o fun x => { x with ampFault := true }).setCause .fault).emitNote .ampFault 1 o.val
      (changeoverCode (s.changeoverOf o))).notes.queue = s.notes.queue ++ [s.ampNote o 1] :=
    State.emitNote_queue_caused (s := s.modLoop o _) room .fault .ampFault 1 o.val _
  have fault := (State.emitNote_acts (Acts.refl ((s.modLoop o fun x => { x with ampFault := true }).setCause .fault))
    .ampFault 1 o.val (changeoverCode (s.changeoverOf o))).causes .fault (by simp [State.causeHas_setCause])
  exact ⟨queue ▸ told.1, told.2 _ fault⟩

end

theorem loopNotes_length (o : Fin 256) (time : Word) (reading : Nat) (old new : LoopState) :
    (loopNotes o time reading old new).length ≤ 1 := by
  unfold loopNotes
  dsimp only
  split_ifs <;> simp

/-- What a loop reading leaves to the amplifier-fault flag after it. -/
theorem State.loopReading_rest (s : State) (o : Fin 256) (reading : Nat) :
    (s.loopReading o reading).outlets = s.outlets ∧ (s.loopReading o reading).time = s.time ∧
      (s.loopReading o reading).changeovers = s.changeovers ∧
      ∀ code, (s.loopReading o reading).ampNote o code = s.ampNote o code := by
  have slots : (s.loopReading o reading).changeovers = s.changeovers := Apart.changeovers.loopReading (fun _ _ => rfl) s _ _
  have time : (s.loopReading o reading).time = s.time := Sparing.time.loopReading (fun _ _ => rfl) s _ _
  refine ⟨Sparing.outlets.loopReading (fun _ _ => rfl) s _ _, time, slots, fun code => ?_⟩
  simp only [State.ampNote, State.changeoverOf, slots, time]

/-- What a report does to the notes, where no full queue loses one. -/
theorem State.report_notes {s : State} {o : Fin 256} {reading : Nat} (flag : Bool)
    (room : s.notes.queue.length ≤ 30) (here : s.unserved o = false)
    (able : (s.trunks.get (trunkOf o)).supervision = true)
    (kept : ∀ cap, (s.loops.get o).capture = some cap → cap.count < 7 ∨
      ((s.outlets.get o).kind ≠ .undefined ∧ (s.outlets.get o).kind ≠ .spare)) :
    let x := s.loops.get o
    let read := s.notes.queue ++ loopNotes o s.time reading x.state (s.judged o reading x).state
    let u := (s.loopReading o reading).ampFlag o flag
    (s.judged o reading x).ampFault = x.ampFault ∧
    ((s.outlets.get o).kind = .undefined ∨ flag = x.ampFault →
      u.notes.queue = read ∧ u.changeovers = s.changeovers) ∧
    ((s.outlets.get o).kind ≠ .undefined → flag = false → x.ampFault = true →
      u.notes.queue = read ++ [s.ampNote o 0] ∧ u.changeovers = s.changeovers) ∧
    ((s.outlets.get o).kind ≠ .undefined → flag = true → x.ampFault = false →
      read ++ [s.ampNote o 1] <+: u.notes.queue ∧ u.causeHas .fault = true) := by
  intro x read u
  obtain ⟨amp, state⟩ := s.stored_kept (reading := reading) (x := x) here able kept
  have judged : (s.judged o reading x).ampFault = x.ampFault := amp
  obtain ⟨outlets, -, slots, note⟩ := s.loopReading_rest o reading
  have loop : ((s.loopReading o reading).loops.get o).ampFault = x.ampFault := by
    rw [State.loopReading_loops, Tab.get_modify_self, judged]
  have queue : (s.loopReading o reading).notes.queue = read := by
    rw [State.loopReading_queue (by omega)]
    exact congrArg (s.notes.queue ++ ·) (loopNotes_stored o s.time reading state fun mid => Loop.judge_judged mid _ _)
  have few : (s.loopReading o reading).notes.queue.length < 32 := by
    have one := loopNotes_length o s.time reading x.state (s.judged o reading x).state
    rw [queue]
    simp only [read, List.length_append]
    omega
  refine ⟨judged, fun idle => ?_, fun defined down was => ?_, fun defined rise was => ?_⟩
  · have same : u = s.loopReading o reading := State.ampFlag_not (by rw [outlets, loop]; exact idle.imp_right Eq.symm)
    rw [same]
    exact ⟨queue, slots⟩
  · subst down
    obtain ⟨fall, rest⟩ := State.ampFlag_fall (s := s.loopReading o reading) (o := o) (by rw [outlets]; exact defined)
      (by rw [loop, was]) few
    exact ⟨by rw [fall, queue, note], rest.trans slots⟩
  · subst rise
    obtain ⟨front, fault⟩ := State.ampFlag_rise_notes (s := s.loopReading o reading) (o := o) (by rw [outlets]; exact defined)
      (by rw [loop, was]) few
    exact ⟨by rw [queue, note] at front; exact front, fault⟩

/-- The state in which an inbound block's reports are taken: the trunk's sync hold reloaded. -/
def State.synced (s : State) (k : Fin 4) : State := s.modTrunk k fun t => { t with sync := some 4 }

/-- A block of an UP trunk that serves its first slot alone, where no changeover of the trunk waits for an echo. -/
structure FirstSlot (s : State) (k : Fin 4) (b : ControlBlock) (r : LoopReport) : Prop where
  up : (s.trunks.get k).link = .up
  here : b.loops[0]? = some r
  served : (s.trunks.get k).served ≤ 8 * b.group.val + 1
  present : (s.trunks.get k).present ≤ 8 * b.group.val
  settled : ∀ y : Fin 8, y.val / 2 = k.val → (s.changeovers.get y).state = .free ∨ (s.changeovers.get y).state = .active

namespace FirstSlot

variable {s : State} {k : Fin 4} {b : ControlBlock} {r : LoopReport}

theorem ran (first : FirstSlot s k b r) : exec (.inboundControlBlock k b) s =
    .next (((s.synced k).reported k b.group r).echoes k b).arbitrate :=
  congrArg (fun t : State => Host.Outcome.next t.arbitrate)
    (State.inbound_first first.up first.here first.served first.present)

theorem synced_trunk (s : State) (k : Fin 4) : (s.synced k).trunks.get k = { s.trunks.get k with sync := some 4 } :=
  Tab.get_modify_self _ _ _

/-- Where nothing changes a slot before the echoes, they change nothing. -/
theorem echoes (first : FirstSlot s k b r)
    (slots : ((s.synced k).reported k b.group r).changeovers = s.changeovers) :
    ((s.synced k).reported k b.group r).echoes k b = (s.synced k).reported k b.group r :=
  State.echoes_settled (by rw [slots]; exact first.settled) b

theorem unheard (first : FirstSlot s k b r)
    (out : (s.trunks.get k).supervision = false ∨ (s.trunks.get k).served ≤ 8 * b.group.val) :
    ((s.synced k).reported k b.group r).echoes k b = s.synced k := by
  have same : (s.synced k).reported k b.group r = s.synced k :=
    State.reported_unserved (by rw [synced_trunk]; exact out)
  rw [first.echoes (by rw [same]; rfl), same]

theorem loops (able : (s.trunks.get k).supervision = true) (served : 8 * b.group.val < (s.trunks.get k).served) :
    (((s.synced k).reported k b.group r).echoes k b).loops = s.loops.modify (outletAt k ⟨8 * b.group.val, by omega⟩)
      ((s.synced k).reportedLoop (outletAt k ⟨8 * b.group.val, by omega⟩) r) := by
  rw [State.echoes_loops]
  exact State.reported_loops (by rw [synced_trunk]; exact able) (by rw [synced_trunk]; exact served)

theorem arrived (able : (s.trunks.get k).supervision = true) (served : 8 * b.group.val < (s.trunks.get k).served) :
    (s.synced k).reported k b.group r =
      ((s.synced k).loopReading (outletAt k ⟨8 * b.group.val, by omega⟩) r.reading.toNat).ampFlag
        (outletAt k ⟨8 * b.group.val, by omega⟩) r.fault :=
  State.reported_served (by rw [synced_trunk]; exact able) (by rw [synced_trunk]; exact served)

theorem told (able : (s.trunks.get k).supervision = true) (served : 8 * b.group.val < (s.trunks.get k).served) :
    Told ((s.synced k).loopReading (outletAt k ⟨8 * b.group.val, by omega⟩) r.reading.toNat)
      (((s.synced k).reported k b.group r).echoes k b) := by
  rw [arrived able served]
  exact (State.ampFlag_told _ _ _).trans (State.echoes_told _ k b)

theorem watched (up : (s.trunks.get k).link = .up) (served : 8 * b.group.val < (s.trunks.get k).served) :
    (s.synced k).unserved (outletAt k ⟨8 * b.group.val, by omega⟩) = false := by
  simp only [State.unserved, trunkOf_outletAt, slotOf_outletAt, synced_trunk, up]
  simp [served]

end FirstSlot

/-- The notes of a served report (R174, R180), in an idle, a falling and a rising flag. -/
theorem FirstSlot.notes {s : State} {k : Fin 4} {b : ControlBlock} {r : LoopReport} (first : FirstSlot s k b r)
    (able : (s.trunks.get k).supervision = true) (served : 8 * b.group.val < (s.trunks.get k).served)
    (room : s.notes.queue.length ≤ 30)
    (kept : ∀ cap, (s.loops.get (outletAt k ⟨8 * b.group.val, by omega⟩)).capture = some cap → cap.count < 7 ∨
      ((s.outlets.get (outletAt k ⟨8 * b.group.val, by omega⟩)).kind ≠ .undefined ∧
        (s.outlets.get (outletAt k ⟨8 * b.group.val, by omega⟩)).kind ≠ .spare)) :
    let o := outletAt k ⟨8 * b.group.val, by omega⟩
    let x := s.loops.get o
    let read := s.notes.queue ++ loopNotes o s.time r.reading.toNat x.state ((s.synced k).judged o r.reading.toNat x).state
    let u := ((s.synced k).reported k b.group r).echoes k b
    ((s.synced k).judged o r.reading.toNat x).ampFault = x.ampFault ∧
    ((s.outlets.get o).kind = .undefined ∨ r.fault = x.ampFault →
      u.notes.queue = read ∧ u.changeovers = s.changeovers) ∧
    ((s.outlets.get o).kind ≠ .undefined → r.fault = false → x.ampFault = true →
      u.notes.queue = read ++ [s.ampNote o 0] ∧ u.changeovers = s.changeovers) ∧
    ((s.outlets.get o).kind ≠ .undefined → r.fault = true → x.ampFault = false →
      read ++ [s.ampNote o 1] <+: u.notes.queue ∧ u.causeHas .fault = true) := by
  intro o x read u
  obtain ⟨judged, idle, fall, rise⟩ := State.report_notes (s := s.synced k) (o := o) (reading := r.reading.toNat) r.fault room
    (watched first.up served) (by rw [trunkOf_outletAt, synced_trunk]; exact able) kept
  have arrived := arrived (r := r) able served
  refine ⟨judged, fun same => ?_, fun defined down was => ?_, fun defined up was => ?_⟩
  · obtain ⟨queue, slots⟩ := idle same
    rw [← arrived] at queue slots
    have u_eq : u = (s.synced k).reported k b.group r := first.echoes slots
    rw [u_eq]
    exact ⟨queue, slots⟩
  · obtain ⟨queue, slots⟩ := fall defined down was
    rw [← arrived] at queue slots
    have u_eq : u = (s.synced k).reported k b.group r := first.echoes slots
    rw [u_eq]
    exact ⟨queue, slots⟩
  · obtain ⟨front, fault⟩ := rise defined up was
    rw [← arrived] at front fault
    have told := State.echoes_told ((s.synced k).reported k b.group r) k b
    exact ⟨front.trans told.1, told.2 _ fault⟩

/-- A loop that completes no capture, after its report. -/
theorem State.reportedLoop_eq {s : State} {o : Fin 256} (defined : (s.outlets.get o).kind ≠ .undefined) (r : LoopReport)
    {x y : Loop} (stored : s.stored o r.reading.toNat x = y) : s.reportedLoop o r x =
      { y with
        state := (y.judge (sideOf (s.outlets.get o) y.baseline r.reading.toNat) (s.outlets.get o).confirm).1
        streak := (y.judge (sideOf (s.outlets.get o) y.baseline r.reading.toNat) (s.outlets.get o).confirm).2
        ampFault := r.fault } := by
  rw [State.reportedLoop, if_neg defined, State.judged, stored]

/-- The return of a capture that its eighth reading completes is asked for. -/
theorem State.loopReading_return {s : State} {o : Fin 256} {reading : Nat} {cap : LoopCapture}
    (pending : (s.loops.get o).capture = some cap) (last : 7 ≤ cap.count) :
    cap.done reading ∈ (s.loopReading o reading).lists.returns.get ListId.setup.idx ∨
      ∃ h, ((s.loopReading o reading).walker .setup).stage = .returnWrite h (cap.done reading) false := by
  have stored : s.readingStored o reading =
      (s.modLoop o fun x => s.stored o reading x).requestReturn .setup (cap.done reading) := by
    simp [State.readingStored, pending, Nat.not_lt.mpr last]
  have lists : (s.loopReading o reading).lists =
      ((s.modLoop o fun x => s.stored o reading x).requestReturn .setup (cap.done reading)).lists := by
    rw [State.loopReading_eq, Sparing.lists.loopNote, State.modLoop_lists, stored]
  have asked := (s.modLoop o fun x => s.stored o reading x).requestReturn_waits .setup (cap.done reading)
  unfold State.walker at asked ⊢
  rw [lists]
  exact asked

theorem State.loopReading_fault {s : State} {o : Fin 256} {reading : Nat}
    (changed : (s.stored o reading (s.loops.get o)).state ≠ (s.judged o reading (s.loops.get o)).state)
    (fault : (s.judged o reading (s.loops.get o)).state = .faultOpen ∨
      (s.judged o reading (s.loops.get o)).state = .faultShort) :
    (s.loopReading o reading).causeHas .fault = true := by
  rw [State.loopReading_eq]
  exact State.loopNote_fault _ o reading changed fault

@[simp] theorem State.arbitrate_causeHas (s : State) (b : CauseBit) : s.arbitrate.causeHas b = s.causeHas b := by
  unfold State.causeHas
  rw [State.arbitrate_regs]

theorem State.arbitrate_waiting {s : State} (busy : s.port.grant ≠ none) : s.arbitrate = s := by
  obtain ⟨grant, held⟩ := Option.ne_none_iff_exists'.mp busy
  exact State.arbitrate_busy held

/-- The third part of O57: the loop-state table. -/
theorem loopTable (x : Loop) (n : Nat) (side : Side) :
    let faulted := if side = .high then LoopState.faultOpen else LoopState.faultShort
    (x.state = .normal ∨ x.state = .suspect →
      (side = .within → x.judge side n = (.normal, none)) ∧
      (side ≠ .within → n ≤ x.streakWith side → x.judge side n = (faulted, none)) ∧
      (side ≠ .within → x.streakWith side < n → x.judge side n = (.suspect, some (side, x.streakWith side)))) ∧
    (x.state = .faultOpen ∨ x.state = .faultShort →
      (side = .within → n ≤ x.streakWith side → x.judge side n = (.normal, none)) ∧
      (side ≠ .within → x.state = faulted → x.judge side n = (faulted, none)) ∧
      (side ≠ .within → x.state ≠ faulted → n ≤ x.streakWith side → x.judge side n = (faulted, none)) ∧
      (side = .within ∨ x.state ≠ faulted → x.streakWith side < n →
        x.judge side n = (x.state, some (side, x.streakWith side)))) := by
  refine ⟨fun state => ?_, fun state => ?_⟩
  · rw [Loop.judge_settled state]
    refine ⟨fun within => if_pos within, fun out confirmed => ?_, fun out short => ?_⟩
    · rw [if_neg out, if_pos confirmed]
    · rw [if_neg out, if_neg (by omega)]
  · rw [Loop.judge_faulted state]
    refine ⟨fun within confirmed => ?_, fun out same => ?_, fun out other confirmed => ?_, fun other short => ?_⟩
    · rw [if_neg (by simp [within]), if_pos confirmed, if_pos within]
    · rw [if_pos ⟨out, same⟩, same]
    · rw [if_neg (fun both => other both.2), if_pos confirmed, if_neg out]
    · rw [if_neg (fun both => other.elim both.1 fun ne => ne both.2), if_neg (by omega)]

end Sys2Proof.Machine

/-- Settles O57: the block's first report is a reading, a judgement and a flag; the echoes find no slot that waits. -/
theorem loopReadings : Obligations.LoopReadings := by
  refine ⟨fun s k b down => ?_, fun s k b r => ?_, fun x n side _ => ?_⟩
  · exact congrArg (fun t : State => Host.Outcome.next t.arbitrate) (if_neg (by simpa using down))
  · intro t g o x out side j up here served present settled
    have first : FirstSlot s k b r := ⟨up, here, served, present, settled⟩
    have frame {α : Type} {view : State → α} (v : Sparing view) (w : Listless view) :
        view (((s.synced k).reported k b.group r).echoes k b) = view (s.synced k) := by rw [v.echoes, v.reported w]
    refine ⟨_, first.ran, ?_, ?_, ?_, ?_, ?_, fun o' other => ?_, fun out => ?_, fun able late none defined => ?_,
      fun able late busy room kept => ?_, fun cap able late pending defined => ?_⟩
    · rw [State.arbitrate_trunks, frame Sparing.trunks fun _ _ => rfl]
      rfl
    · rw [State.arbitrate_stations, frame Sparing.stations fun _ _ => rfl]
      rfl
    · rw [State.arbitrate_outlets, frame Sparing.outlets fun _ _ => rfl]
      rfl
    · rw [State.arbitrate_claims, frame Sparing.claims fun _ _ => rfl]
      rfl
    · rw [State.arbitrate_time, frame Sparing.time fun _ _ => rfl]
      rfl
    · rw [State.arbitrate_loops]
      by_cases heard : (s.trunks.get k).supervision = true ∧ 8 * b.group.val < (s.trunks.get k).served
      · rw [FirstSlot.loops heard.1 heard.2, Tab.get_modify_ne _ other _]
      · rw [first.unheard (by grind)]
        rfl
    · rw [State.arbitrate_loops, State.arbitrate_changeovers, first.unheard out]
      exact ⟨rfl, rfl⟩
    · refine ⟨?_, fun changed fault => ?_⟩
      · rw [State.arbitrate_loops, FirstSlot.loops able late, Tab.get_modify_self]
        exact (s.synced k).reportedLoop_eq defined r (State.stored_idle none)
      · have state : ((s.synced k).stored o r.reading.toNat x).state = x.state := by rw [State.stored_idle none]
        have new : ((s.synced k).judged o r.reading.toNat x).state = j.1 := by
          rw [State.judged, State.stored_idle none]
          rfl
        have confirmed : ((s.synced k).loopReading o r.reading.toNat).causeHas .fault = true :=
          State.loopReading_fault (state.trans_ne (new ▸ changed.symm)) (by rw [show (s.synced k).loops.get o = x from rfl, new]; exact fault)
        rw [State.arbitrate_causeHas]
        exact (FirstSlot.told able late).2 _ confirmed
    · rw [State.arbitrate_waiting (by rw [frame Sparing.port fun _ _ => rfl]; exact busy)]
      intro note y wasFault loopNotes standing queued
      obtain ⟨amp, idle, fall, rise⟩ := first.notes able late room kept
      have loop : y = (s.synced k).reportedLoop o r x := by
        simp only [y]
        rw [FirstSlot.loops able late]
        exact Tab.get_modify_self _ _ _
      have state : y.state = ((s.synced k).judged o r.reading.toNat x).state := by
        rw [loop, State.reportedLoop]
        split_ifs <;> rfl
      have read : Sys2Proof.Machine.loopNotes o s.time r.reading.toNat x.state
          ((s.synced k).judged o r.reading.toNat x).state = loopNotes := by
        rw [← state]
        rfl
      have flagged (defined : out.kind ≠ .undefined) : y.ampFault = r.fault := by
        simp [loop, State.reportedLoop, show ((s.synced k).outlets.get o).kind ≠ .undefined from defined]
      refine ⟨fun same => ⟨?_, ?_⟩, fun slot at_slot defined => ?_⟩
      · exact (idle same).1.trans (by rw [read, List.append_nil])
      · by_cases undefined : out.kind = .undefined
        · simp only [loop, State.reportedLoop, show ((s.synced k).outlets.get o).kind = .undefined from undefined, if_true]
          exact amp
        · rw [flagged undefined, same.resolve_left undefined]
      · have code : changeoverCode (s.changeoverOf o) = slot := by
          rcases at_slot with ⟨absent, rfl⟩ | ⟨z, here, only, rfl⟩
          · rw [State.changeoverCode_none absent]
            rfl
          · rw [State.changeoverOf_only here only]
            rfl
        have made (c : Nat) : s.ampNote o c = note .ampFault c slot := by rw [State.ampNote, code]
        refine ⟨fun down was => ?_, fun up was => ?_⟩
        · obtain ⟨queue, slots⟩ := fall defined down was
          exact ⟨(flagged defined).trans down, queue.trans (by rw [read, made]), slots⟩
        · obtain ⟨⟨rest, queue⟩, fault⟩ := rise defined up was
          refine ⟨(flagged defined).trans up, fault, rest, queue.symm.trans ?_⟩
          rw [read, made, List.append_assoc, List.singleton_append]
    · intro mean
      have loop : (((s.synced k).reported k b.group r).echoes k b).arbitrate.loops.get o = (s.synced k).reportedLoop o r x := by
        rw [State.arbitrate_loops, FirstSlot.loops able late]
        exact Tab.get_modify_self _ _ _
      refine ⟨fun more => ?_, fun last => ?_⟩
      · rw [loop]
        exact (s.synced k).reportedLoop_eq defined r (State.stored_counted pending more)
      · obtain ⟨baseline, set, -, read, capture⟩ :=
          (s.synced k).rebased_kept o mean { x with last := r.reading.toNat, capture := none }
        rw [loop, State.reportedLoop_eq (s := s.synced k) defined r (State.stored_complete pending last)]
        refine ⟨read, baseline, set, capture, fun busy => ?_⟩
        intro ret
        rw [State.arbitrate_waiting (by rw [frame Sparing.port fun _ _ => rfl]; exact busy)]
        have lists : (((s.synced k).reported k b.group r).echoes k b).lists =
            ((s.synced k).loopReading o r.reading.toNat).lists := by
          rw [Sparing.lists.echoes, FirstSlot.arrived able late, Sparing.lists.ampFlag]
        unfold State.walker
        rw [lists]
        exact State.loopReading_return (s := s.synced k) pending last
  · intro count faulted
    obtain ⟨settled, faulty⟩ := loopTable x n side
    exact ⟨settled, faulty, fun state => Loop.judge_unjudged state side n⟩

end

section
/-! PROOF. The changeover that a rise of an amplifier-fault flag attempts (O58): no slot and no spare but the lowest free
ones, and a reason where there is none. -/

open Sys2Proof Sys2Proof.Machine

namespace Sys2Proof

/-- A search in rising order finds the lowest of what passes. -/
theorem find?_lowest {α : Type} [LinearOrder α] {p : α → Bool} {xs : List α} {a : α} (rising : xs.Pairwise (· < ·))
    (mem : a ∈ xs) (passes : p a = true) (lowest : ∀ z ∈ xs, z < a → p z = false) : xs.find? p = some a := by
  obtain ⟨pre, post, rfl⟩ := List.append_of_mem mem
  have silent : ∀ z ∈ pre, p z = false := fun z earlier =>
    lowest z (List.mem_append_left _ earlier)
      ((List.pairwise_append.mp rising).2.2 z earlier a List.mem_cons_self)
  rw [List.find?_append, List.find?_eq_none.mpr (by simpa using silent), Option.none_or, List.find?_cons, passes]

end Sys2Proof

namespace Sys2Proof.Machine

theorem slotsOf_rising (k : Fin 4) : (slotsOf k).Pairwise (· < ·) := by
  simp [slotsOf]

/-- An outlet of a changeover slot that is not free (R177). -/
def State.stands (s : State) (o : Fin 256) : Prop :=
  ∃ y, (s.changeovers.get y).state ≠ .free ∧ ((s.changeovers.get y).faulted = o ∨ (s.changeovers.get y).spare = o)

theorem State.changeoverOf_isSome (s : State) (o : Fin 256) : (s.changeoverOf o).isSome = true ↔ s.stands o := by
  simp [State.changeoverOf, State.stands]

/-- A spare that a changeover may take (R177). -/
def State.available (s : State) (k : Fin 4) (q : Fin 256) : Prop :=
  trunkOf q = k ∧ (s.outlets.get q).kind = .spare ∧ s.unserved q = false ∧ ¬s.stands q ∧ (s.loops.get q).ampFault = false

/-- A free slot of a trunk. -/
def State.freeOn (s : State) (k : Fin 4) (y : Fin 8) : Prop := y.val / 2 = k.val ∧ (s.changeovers.get y).state = .free

section
variable {s : State} {k : Fin 4}

theorem State.availableSpare_test (q : Fin 256) :
    (trunkOf q == k && (s.outlets.get q).kind == .spare && !s.unserved q && (s.changeoverOf q).isNone &&
      !(s.loops.get q).ampFault) = true ↔ s.available k q := by
  have stands : (s.changeoverOf q).isNone = true ↔ ¬s.stands q := by
    rw [← State.changeoverOf_isSome]
    cases s.changeoverOf q <;> simp
  simp only [Bool.and_eq_true, stands, State.available, beq_iff_eq, Bool.not_eq_true', and_assoc]

theorem State.availableSpare_none (taken : ∀ q, ¬s.available k q) : s.availableSpare k = none :=
  List.find?_eq_none.mpr fun q _ pass => taken q ((State.availableSpare_test q).mp pass)

theorem State.availableSpare_some {q : Fin 256} (here : s.available k q) (lowest : ∀ z < q, ¬s.available k z) :
    s.availableSpare k = some q :=
  find?_lowest (allFin_rising 256) (mem_allFin q) ((State.availableSpare_test q).mpr here) fun z _ below =>
    Bool.eq_false_iff.mpr fun pass => lowest z below ((State.availableSpare_test z).mp pass)

theorem State.freeSlot_none (taken : ∀ y, ¬s.freeOn k y) :
    (slotsOf k).find? (fun x => (s.changeovers.get x).state == .free) = none :=
  List.find?_eq_none.mpr fun y mem pass => taken y ⟨(mem_slotsOf k y).mp mem, by simpa using pass⟩

theorem State.freeSlot_some {y : Fin 8} (here : s.freeOn k y) (lowest : ∀ z < y, ¬s.freeOn k z) :
    (slotsOf k).find? (fun x => (s.changeovers.get x).state == .free) = some y :=
  find?_lowest (slotsOf_rising k) ((mem_slotsOf k y).mpr here.1) (by simpa using here.2) fun z mem below =>
    Bool.eq_false_iff.mpr fun pass => lowest z below ⟨(mem_slotsOf k z).mp mem, by simpa using pass⟩

end

section
variable {s : State} {o : Fin 256} {k : Fin 4}

theorem State.attemptChangeover_not
    (not : (s.outlets.get o).kind = .spare ∨ (s.outlets.get o).autoChangeover = false ∨ s.stands o) :
    s.attemptChangeover o = s := by
  unfold State.attemptChangeover
  refine if_pos ?_
  simpa [State.changeoverOf_isSome, or_assoc] using not

/-- A changeover that may be attempted: the ability, the slot and the spare decide in this order. -/
theorem State.attemptChangeover_of (host : (s.outlets.get o).kind ≠ .spare) (auto : (s.outlets.get o).autoChangeover = true)
    (apart : ¬s.stands o) (trunk : trunkOf o = k) : s.attemptChangeover o =
      if (s.trunks.get k).changeover = false then s.changeoverRefused o 1
      else
        match (slotsOf k).find? fun x => (s.changeovers.get x).state == .free with
        | none => s.changeoverRefused o 2
        | some x =>
          match s.availableSpare k with
          | none => s.changeoverRefused o 3
          | some spare => s.modChangeover x fun _ => { state := .pending, faulted := o, spare, timer := some 100 } := by
  have fresh : (s.changeoverOf o).isSome = false := by
    rw [Bool.eq_false_iff]
    exact (s.changeoverOf_isSome o).not.mpr apart
  unfold State.attemptChangeover
  dsimp only
  rw [trunk, if_neg (by simp [host, auto, fresh])]
  simp only [Bool.not_eq_true'] <;> rfl

end

/-- Echoes of no pair leave a trunk without RELEASING slots alone. -/
theorem State.echoes_silent {s : State} {k : Fin 4} {b : ControlBlock} (silent : ∀ e ∈ b.echoes, e = none)
    (going : ∀ y : Fin 8, y.val / 2 = k.val → (s.changeovers.get y).state ≠ .releasing) : s.echoes k b = s := by
  refine State.forAll_fixed fun x mem => ?_
  have slot : x.1 ∈ slotsOf k := (List.of_mem_zip mem).1
  rw [State.changeoverEcho_eq, silent x.2 (List.of_mem_zip mem).2]
  simp [going x.1 ((mem_slotsOf k x.1).mp slot)]

/-- A refused changeover's note stands last, or is lost at a full queue. -/
theorem State.changeoverRefused_note (s : State) (o : Fin 256) (reason : Nat) :
    (s.changeoverRefused o reason).notes.queue.getLast? = some { kind := .changeover, code := 3, subject := o.val, time := s.time
                                                                 detail := 0xFF + 256 * 0xFFFF + 16777216 * reason } ∨
      (32 ≤ (s.changeoverRefused o reason).notes.queue.length ∧ 0 < (s.changeoverRefused o reason).notes.lost) := by
  unfold State.changeoverRefused
  by_cases room : s.notes.queue.length < 32
  · rw [State.emitNote_queue_caused room]
    exact .inl (by simp)
  · rw [State.emitNote_lost (s := s.setCause .fault) (not_lt.mp room)]
    exact .inr ⟨not_lt.mp room, by simp⟩

theorem State.changeoverRefused_changeovers (s : State) (o : Fin 256) (reason : Nat) :
    (s.changeoverRefused o reason).changeovers = s.changeovers := by
  simp [State.changeoverRefused]

/-- The state in which a rise attempts its changeover: the reading taken, the flag stored, FAULT and the note made. -/
def State.risen (s : State) (o : Fin 256) (reading : Nat) : State :=
  (((s.loopReading o reading).modLoop o fun x => { x with ampFault := true }).setCause .fault).emitNote .ampFault 1 o.val
    (changeoverCode ((s.loopReading o reading).changeoverOf o))

section
variable (s : State) (o : Fin 256) (reading : Nat)

theorem State.risen_outlets : (s.risen o reading).outlets = s.outlets := by
  simpa [State.risen] using (s.loopReading_rest o reading).1

theorem State.risen_changeovers : (s.risen o reading).changeovers = s.changeovers := by
  simpa [State.risen] using (s.loopReading_rest o reading).2.2.1

theorem State.risen_trunks : (s.risen o reading).trunks = s.trunks := by
  simpa [State.risen] using Sparing.trunks.loopReading (fun _ _ => rfl) s o reading

theorem State.risen_time : (s.risen o reading).time = s.time := by
  simpa [State.risen] using (s.loopReading_rest o reading).2.1

theorem State.risen_loop : ((s.risen o reading).loops.get o).ampFault = true := by
  simp [State.risen]

theorem State.risen_loop_ne {q : Fin 256} (other : q ≠ o) : (s.risen o reading).loops.get q = s.loops.get q := by
  simp [State.risen, State.loopReading_loops, Tab.get_modify_ne _ other]

theorem State.risen_fault : (s.risen o reading).causeHas .fault = true :=
  (State.emitNote_acts (Acts.refl (((s.loopReading o reading).modLoop o fun x => { x with ampFault := true }).setCause .fault))
    .ampFault 1 o.val _).causes .fault (by simp [State.causeHas_setCause])

theorem State.risen_stands (q : Fin 256) : (s.risen o reading).stands q ↔ s.stands q := by
  simp only [State.stands, State.risen_changeovers]

theorem State.risen_freeOn (k : Fin 4) (y : Fin 8) : (s.risen o reading).freeOn k y ↔ s.freeOn k y := by
  simp only [State.freeOn, State.risen_changeovers]

/-- The rise at an outlet that is no SPARE takes away no available spare. -/
theorem State.risen_available (host : (s.outlets.get o).kind ≠ .spare) (k : Fin 4) (q : Fin 256) :
    (s.risen o reading).available k q ↔ s.available k q := by
  by_cases same : q = o
  · subst same
    simp [State.available, State.risen_outlets, host]
  · simp only [State.available, State.risen_outlets, State.risen_stands, State.risen_loop_ne s o reading same, State.unserved,
      State.risen_trunks]

end

/-- Storing a reading raises no amplifier-fault flag. -/
theorem State.stored_down {s : State} {o : Fin 256} {reading : Nat} {x : Loop} (down : x.ampFault = false) :
    (s.stored o reading x).ampFault = false := by
  have rebased (b : Nat) (y : Loop) (was : y.ampFault = false) : (s.rebased o b y).ampFault = false := by
    simp only [State.rebased, Loop.leaveService]
    split_ifs <;> simp [was]
  cases pending : x.capture with
  | none => rw [State.stored_idle pending]; exact down
  | some cap =>
    by_cases more : cap.count < 7
    · rw [State.stored_counted pending more]; exact down
    · rw [State.stored_complete pending (by omega)]; exact rebased _ _ down

/-- An attempted changeover releases no slot. -/
theorem State.attemptChangeover_going {s : State} {o : Fin 256} {y : Fin 8}
    (going : (s.changeovers.get y).state ≠ .releasing) : ((s.attemptChangeover o).changeovers.get y).state ≠ .releasing := by
  rcases s.attemptChangeover_cases o with e | ⟨reason, e⟩ | ⟨z, c, pending, e⟩ <;> rw [e]
  · exact going
  · rw [State.changeoverRefused_changeovers]
    exact going
  · rw [State.modChangeover_changeovers, Tab.get_modify]
    split_ifs
    · simp [pending]
    · exact going

/-- An outlet's changeover as the block's trunk sees it. -/
theorem State.synced_available {s : State} {k : Fin 4} (up : (s.trunks.get k).link = .up) (q : Fin 256) :
    (s.synced k).available k q ↔ trunkOf q = k ∧ (s.outlets.get q).kind = .spare ∧
      (slotOf q).val < (s.trunks.get k).served ∧ ¬s.stands q ∧ (s.loops.get q).ampFault = false := by
  have unserved (on : trunkOf q = k) : (s.synced k).unserved q = false ↔ (slotOf q).val < (s.trunks.get k).served := by
    simp only [State.unserved, on, FirstSlot.synced_trunk, up]
    simp
  unfold State.available
  exact and_congr_right fun on => and_congr_right fun _ => and_congr_left fun _ => unserved on

end Sys2Proof.Machine

/-- Settles O58: the block's first report is a rise, its changeover is attempted in the state after the AMP_FAULT note, and
the echoes of no pair change nothing after it. -/
theorem changeoverStart : Obligations.ChangeoverStart := by
  intro s k b r t g o out standing available free up able late served present here rise defined was settled silent
  have first : FirstSlot s k b r := ⟨up, here, served, present, settled⟩
  let v := (s.synced k).risen o r.reading.toNat
  have loop : (((s.synced k).loopReading o r.reading.toNat).loops.get o).ampFault = false := by
    rw [State.loopReading_loops, Tab.get_modify_self]
    exact State.stored_down (s := s.synced k) was
  have reported : (s.synced k).reported k b.group r = v.attemptChangeover o := by
    rw [FirstSlot.arrived able late, rise]
    exact State.ampFlag_rise (by rw [((s.synced k).loopReading_rest _ _).1]; exact defined) loop
  have attempted : (v.attemptChangeover o).echoes k b = v.attemptChangeover o :=
    State.echoes_silent silent fun y on => State.attemptChangeover_going (by
      rw [State.risen_changeovers]
      rcases settled y on with state | state <;> exact state ▸ nofun)
  have outlets : v.outlets.get o = out := congrArg (Tab.get · o) (State.risen_outlets _ _ _)
  have trunks : (v.trunks.get k).changeover = t.changeover := by
    rw [State.risen_trunks, FirstSlot.synced_trunk]
  have stand : v.stands o ↔ standing o := State.risen_stands _ _ _ _
  have slots : v.changeovers = s.changeovers := State.risen_changeovers _ _ _
  refine ⟨(v.attemptChangeover o).arbitrate, ?_, ?_, ?_, ?_⟩
  · rw [first.ran, reported, attempted]
  · rw [State.arbitrate_loops, State.attemptChangeover_loops]
    exact State.risen_loop _ _ _
  · rw [State.arbitrate_causeHas]
    exact (State.attemptChangeover_told v o).2 _ (State.risen_fault _ _ _)
  intro refused
  have refuses (reason : Nat) (e : v.attemptChangeover o = v.changeoverRefused o reason) : refused reason := by
    refine ⟨by rw [State.arbitrate_changeovers, e, State.changeoverRefused_changeovers, slots], fun busy => ?_⟩
    have port : (v.attemptChangeover o).port = s.port := by
      rw [Sparing.port.attemptChangeover]
      have read : ((s.synced k).loopReading o r.reading.toNat).port = s.port :=
        Sparing.port.loopReading (fun _ _ => rfl) (s.synced k) o r.reading.toNat
      simpa [v, State.risen] using read
    have time : v.time = s.time := State.risen_time _ _ _
    rw [State.arbitrate_waiting (by rw [port]; exact busy), e, ← time]
    exact v.changeoverRefused_note o reason
  refine ⟨fun not => ?_, fun host auto apart => ?_⟩
  · rw [State.arbitrate_changeovers, State.attemptChangeover_not (by rw [outlets, stand]; exact not), slots]
  · have tried := State.attemptChangeover_of (s := v) (k := k) (by rw [outlets]; exact host) (by rw [outlets]; exact auto)
      (by rw [stand]; exact apart) (trunkOf_outletAt k _)
    rw [trunks] at tried
    have frees (y : Fin 8) : v.freeOn k y ↔ free y := State.risen_freeOn _ _ _ _ _
    have spares (q : Fin 256) : v.available k q ↔ available q :=
      (State.risen_available (s.synced k) o _ host k q).trans (State.synced_available up q)
    refine ⟨fun unable => ?_, fun able' taken => ?_, fun y able' here taken => ?_, fun y q able' here low spare lowest => ?_⟩
    · exact refuses 1 (by rw [tried, if_pos unable])
    all_goals rw [if_neg (by simp [able'])] at tried
    · rw [State.freeSlot_none fun y => (frees y).not.mpr (taken y)] at tried
      exact refuses 2 tried
    · have slot : ∃ x, (slotsOf k).find? (fun x => (v.changeovers.get x).state == .free) = some x := by
        rw [← Option.isSome_iff_exists, List.find?_isSome]
        exact ⟨y, (mem_slotsOf k y).mpr here.1, by rw [slots]; simpa using here.2⟩
      obtain ⟨x, found⟩ := slot
      rw [found, State.availableSpare_none fun q => (spares q).not.mpr (taken q)] at tried
      exact refuses 3 tried
    · rw [State.freeSlot_some ((frees y).mpr here) fun z below => (frees z).not.mpr (low z below),
        State.availableSpare_some ((spares q).mpr spare) fun z below => (spares z).not.mpr (lowest z below)] at tried
      rw [State.arbitrate_changeovers, tried, State.modChangeover_changeovers, slots]
      rfl

end

section
/-! PROOF. What the naming of a stack does beyond the stack (R54): the counts of its holders, GATHERING programs that go on,
the show's displacement hold and its resume test. -/

open Sys2Proof Sys2Proof.Machine

namespace Sys2Proof.Machine

/-! ### Signals to the show's channels -/

theorem State.signalOwner_only (s : State) (w : ChanOwner) (f : Channel → Channel) :
    ∃ channels, s.signalOwner w f = { s with channels } := by
  unfold State.signalOwner
  split
  · exact ⟨_, rfl⟩
  · exact ⟨_, rfl⟩

/-- A signal reaches the channel of its owner and no other. -/
theorem State.signalOwner_channel (s : State) (w : ChanOwner) (f : Channel → Channel) (c : Fin 16) :
    (s.signalOwner w f).channels.get c =
      if s.channelOf w = some c then f (s.channels.get c) else s.channels.get c := by
  unfold State.signalOwner
  cases found : s.channelOf w with
  | none => simp
  | some d =>
    rw [State.modChannel_channels, Tab.get_modify]
    simp [eq_comm]

/-- A signal that keeps owners, given to the channel of every show source. -/
def State.signalSources (f : Channel → Channel) (s : State) : State :=
  s.forAll (allFin 16) fun x s => s.signalOwner (.source x) f

theorem State.signalSources_only (s : State) (f : Channel → Channel) : ∃ channels, s.signalSources f = { s with channels } := by
  unfold State.signalSources
  generalize allFin 16 = xs
  induction xs generalizing s with
  | nil => exact ⟨_, rfl⟩
  | cons x xs ih =>
    obtain ⟨channels, e⟩ := s.signalOwner_only (.source x) f
    rw [State.forAll_cons]
    simp only [e]
    exact ih { s with channels }

theorem State.signalOwner_owner {f : Channel → Channel} (keeps : ∀ ch, (f ch).owner = ch.owner) (s : State) (w : ChanOwner)
    (c : Fin 16) : ((s.signalOwner w f).channels.get c).owner = (s.channels.get c).owner := by
  rw [State.signalOwner_channel]
  split_ifs
  · exact keeps _
  · rfl

theorem State.forAll_sources {f : Channel → Channel} (keeps : ∀ ch, (f ch).owner = ch.owner) {xs : List (Fin 16)}
    (once : xs.Nodup) (s : State) (c : Fin 16) : (s.forAll xs fun x s => s.signalOwner (.source x) f).channels.get c =
      if ∃ x ∈ xs, s.channelOf (.source x) = some c then f (s.channels.get c) else s.channels.get c := by
  induction xs generalizing s with
  | nil => simp [State.forAll]
  | cons x xs ih =>
    obtain ⟨out, once⟩ := List.nodup_cons.mp once
    have same (w : ChanOwner) : (s.signalOwner (.source x) f).channelOf w = s.channelOf w :=
      State.channelOf_congr (State.signalOwner_owner keeps s _) w
    rw [State.forAll_cons, ih once]
    simp only [same, State.signalOwner_channel, List.exists_mem_cons_iff]
    by_cases here : s.channelOf (.source x) = some c
    · have others : ¬∃ y ∈ xs, s.channelOf (.source y) = some c := by
        rintro ⟨y, mem, there⟩
        have owner := (State.channelOf_owner here).symm.trans (State.channelOf_owner there)
        simp only [Option.some.injEq, ChanOwner.source.injEq] at owner
        exact out (owner ▸ mem)
      simp [here, others]
    · simp [here]

theorem State.signalSources_channel {f : Channel → Channel} (keeps : ∀ ch, (f ch).owner = ch.owner) (s : State) (c : Fin 16) :
    (s.signalSources f).channels.get c =
      if ∃ x, s.channelOf (.source x) = some c then f (s.channels.get c) else s.channels.get c := by
  unfold State.signalSources
  rw [State.forAll_sources keeps (allFin_nodup 16)]
  simp

/-! ### Acts on the SHOW programs -/

theorem Program.isShow_iff (x : Program) : (x.kind == .theatre && x.state != .free) = true ↔ x.kind = .theatre ∧ x.state ≠ .free := by
  simp

theorem State.mem_showPrograms (s : State) (p : Fin 64) :
    p ∈ s.showPrograms ↔ (s.programs.get p).kind = .theatre ∧ (s.programs.get p).state ≠ .free := by
  unfold State.showPrograms
  rw [Tab.mem_indices, Program.isShow_iff]

/-- An act on one program each, on a list of slots without repetition. -/
theorem State.forAll_programs {f : Program → Program} {ps : List (Fin 64)} (once : ps.Nodup) (s : State) :
    ∃ programs, (s.forAll ps fun p s => s.modProgram p f) = { s with programs } ∧
      ∀ p, programs.get p = if p ∈ ps then f (s.programs.get p) else s.programs.get p := by
  induction ps generalizing s with
  | nil => exact ⟨s.programs, rfl, by simp⟩
  | cons q ps ih =>
    obtain ⟨out, once⟩ := List.nodup_cons.mp once
    obtain ⟨programs, e, each⟩ := ih once (s.modProgram q f)
    refine ⟨programs, by rw [State.forAll_cons, e]; rfl, fun p => ?_⟩
    rw [each, State.modProgram_programs, Tab.get_modify]
    by_cases same : p = q
    · subst same
      simp [out]
    · simp [same]

theorem Tab.indices_nodup {n : Nat} {α : Type} (t : Tab n α) (p : α → Bool) : (t.indices p).Nodup :=
  (allFin_nodup n).filter _

/-- An act on every SHOW program that is not FREE. -/
theorem State.forShow_eq (s : State) (f : Program → Program) :
    (s.forAll s.showPrograms fun p s => s.modProgram p f) = { s with
      programs := s.programs.map fun x => if x.kind = .theatre ∧ x.state ≠ .free then f x else x } := by
  obtain ⟨programs, e, each⟩ := State.forAll_programs (f := f) (Tab.indices_nodup s.programs _) s
  rw [State.showPrograms, e]
  congr 1
  refine Tab.ext_get fun p => ?_
  rw [each, Tab.get_map]
  exact if_congr (s.mem_showPrograms p) rfl rfl

/-- A SHOW program in PLAYING is held (R161). -/
def Program.onHold (x : Program) : Program := if x.state = .playing then { x with state := .held } else x

/-- A HELD SHOW program plays again (R163). -/
def Program.offHold (x : Program) : Program :=
  if x.state = .held then ({ x with state := .playing } : Program).startDuration else x

/-- Every SHOW program that is not FREE, changed. -/
def State.showsTo (f : Program → Program) (s : State) : State :=
  { s with programs := s.programs.map fun x => if x.kind = .theatre ∧ x.state ≠ .free then f x else x }

theorem State.enterHeld_eq (s : State) (r : HoldRecord) : s.enterHeld r =
    ((s.modTheatre fun t => { t with state := .held, hold := some r }).signalSources Channel.signalPause).showsTo
      Program.onHold := by
  unfold State.enterHeld
  dsimp only
  rw [State.forShow_eq]
  simp only [beq_iff_eq]
  rfl

theorem State.unholdPrograms_eq (s : State) : s.unholdPrograms = s.showsTo Program.offHold := by
  unfold State.unholdPrograms
  rw [State.forShow_eq]
  simp only [beq_iff_eq]
  rfl

theorem State.resumeShow_eq (s : State) (subject : Nat) {r : HoldRecord} (held : s.theatre.hold = some r) :
    s.resumeShow subject = (((s.modTheatre fun t => { t with state := r.heldFrom, hold := none }).signalSources
      Channel.signalResume).showsTo Program.offHold).emitNote .showState 2 subject r.heldFrom.code := by
  unfold State.resumeShow
  rw [held]
  dsimp only
  rw [State.unholdPrograms_eq]
  rfl

/-- What the resume test asks (R162). -/
def State.resumes (s : State) (r : HoldRecord) : Prop :=
  s.theatre.state = .held ∧ r.byHost = false ∧ r.autoResume = true ∧ ∀ x ∈ r.outlets, ∀ o ∈ x.2, s.holdsAt x.1 o = true

theorem State.resumeTest_of {s : State} {r : HoldRecord} (held : s.theatre.hold = some r) (met : s.resumes r) :
    s.resumeTest = s.resumeShow 0 := by
  obtain ⟨state, host, auto, all⟩ := met
  unfold State.resumeTest
  rw [held]
  exact if_pos (by simpa [state, host, auto] using all)

theorem State.resumeTest_not {s : State} (unmet : ∀ r, s.theatre.hold = some r → ¬s.resumes r) : s.resumeTest = s := by
  unfold State.resumeTest
  split
  · next r held =>
    refine if_neg fun test => unmet r held ?_
    simp only [Bool.and_eq_true, beq_iff_eq, Bool.not_eq_true', List.all_eq_true] at test
    obtain ⟨⟨⟨state, host⟩, auto⟩, all⟩ := test
    exact ⟨state, host, auto, all⟩
  · rfl

/-! ### GATHERING programs that go on -/

/-- A program that stands as it was, but for one GATHERING that may have gone on (R40). -/
structure Program.Gathers (x y : Program) : Prop where
  kind : y.kind = x.kind
  threshold : y.holdThreshold = x.holdThreshold
  held : y.held = x.held
  admitted : y.admitted = x.admitted
  rest : x.state ≠ .gathering → y = x
  state : x.state = .gathering → y.state = .gathering ∨ y.state = .chiming ∨ y.state = .playing ∨ y.state = .held

theorem Program.Gathers.refl (x : Program) : x.Gathers x := ⟨rfl, rfl, rfl, rfl, fun _ => rfl, .inl⟩

theorem Program.Gathers.trans {x y z : Program} (h : x.Gathers y) (k : y.Gathers z) : x.Gathers z where
  kind := k.kind.trans h.kind
  threshold := k.threshold.trans h.threshold
  held := k.held.trans h.held
  admitted := k.admitted.trans h.admitted
  rest := fun settled => (k.rest (h.rest settled ▸ settled)).trans (h.rest settled)
  state := fun waits => by
    by_cases still : y.state = .gathering
    · exact k.state still
    · rw [k.rest still]
      exact h.state waits

/-- An act that lets GATHERING programs go on, with their voices and channels, and changes no claim and no show. -/
structure Gathers (s t : State) : Prop where
  programs : ∀ p, (s.programs.get p).Gathers (t.programs.get p)
  playing : s.theatre.state ≠ .held → ∀ p, (t.programs.get p).state = .held → (s.programs.get p).state = .held
  owners : ∀ c, (t.channels.get c).owner = (s.channels.get c).owner
  sources : ∀ c x, (s.channels.get c).owner = some (.source x) → t.channels.get c = s.channels.get c
  claims : t.claims = s.claims
  theatre : t.theatre = s.theatre
  lists : t.lists = s.lists
  notes : t.notes = s.notes
  time : t.time = s.time
  calls : t.calls = s.calls
  outlets : t.outlets = s.outlets

theorem Gathers.refl (s : State) : Gathers s s :=
  ⟨fun _ => Program.Gathers.refl _, fun _ _ => id, fun _ => rfl, fun _ _ _ => rfl, rfl, rfl, rfl, rfl, rfl, rfl, rfl⟩

theorem Gathers.trans {a b c : State} (h : Gathers a b) (k : Gathers b c) : Gathers a c where
  programs := fun p => (h.programs p).trans (k.programs p)
  playing := fun free p held => h.playing free p (k.playing (h.theatre ▸ free) p held)
  owners := fun x => (k.owners x).trans (h.owners x)
  sources := fun x y own => (k.sources x y ((h.owners x).trans own)).trans (h.sources x y own)
  claims := k.claims.trans h.claims
  theatre := k.theatre.trans h.theatre
  lists := k.lists.trans h.lists
  notes := k.notes.trans h.notes
  time := k.time.trans h.time
  calls := k.calls.trans h.calls
  outlets := k.outlets.trans h.outlets

theorem State.modProgram_gathers {s : State} {p : Fin 64} {f : Program → Program}
    (goes : (s.programs.get p).Gathers (f (s.programs.get p)))
    (playing : (f (s.programs.get p)).state = .held → s.theatre.state = .held) : Gathers s (s.modProgram p f) := by
  refine { Gathers.refl s with programs := fun q => ?_, playing := fun free q => ?_ } <;>
    rw [State.modProgram_programs, Tab.get_modify]
  · split
    · next same => rw [same]; exact goes
    · exact Program.Gathers.refl _
  · split
    · next same => exact fun held => absurd (playing (same ▸ held)) free
    · exact id

theorem State.signalProgram_gathers (s : State) (p : Fin 64) {f : Channel → Channel} (keeps : ∀ ch, (f ch).owner = ch.owner) :
    Gathers s (s.signalOwner (.program p) f) := by
  have sources (c : Fin 16) (x : Fin 16) (own : (s.channels.get c).owner = some (.source x)) :
      (s.signalOwner (.program p) f).channels.get c = s.channels.get c := by
    rw [State.signalOwner_channel]
    refine if_neg fun here => ?_
    have owner := State.channelOf_owner here
    simp [own] at owner
  have owners := State.signalOwner_owner keeps s (.program p)
  obtain ⟨channels, e⟩ := s.signalOwner_only (.program p) f
  rw [e] at owners sources ⊢
  exact ⟨fun _ => Program.Gathers.refl _, fun _ _ => id, owners, sources, rfl, rfl, rfl, rfl, rfl, rfl, rfl⟩

theorem Program.startDuration_gathers {x : Program} (waits : x.state = .gathering) :
    x.Gathers ({ x with state := .playing, gatherTimer := none } : Program).startDuration := by
  unfold Program.startDuration
  split <;> exact ⟨rfl, rfl, rfl, rfl, fun settled => absurd waits settled, fun _ => .inr (.inr (.inl rfl))⟩

theorem State.enterPlaying_gathers {s : State} {p : Fin 64} (waits : (s.programs.get p).state = .gathering) :
    Gathers s (s.enterPlaying p) := by
  unfold State.enterPlaying
  dsimp only
  split_ifs with show_
  · refine State.modProgram_gathers ⟨rfl, rfl, rfl, rfl, fun settled => absurd waits settled, fun _ => by simp⟩ fun _ => ?_
    simp only [Bool.and_eq_true, beq_iff_eq] at show_
    exact show_.2
  · refine (State.modProgram_gathers (Program.startDuration_gathers waits) ?_).trans
      (State.signalProgram_gathers _ p Channel.signalRun_owner)
    unfold Program.startDuration
    split <;> nofun
  · refine State.modProgram_gathers (Program.startDuration_gathers waits) ?_
    unfold Program.startDuration
    split <;> nofun

theorem State.giveVoice_only (s : State) (v : Fin 8) (u : VoiceUser) (q : Fin 12) :
    ∃ tones, s.giveVoice v u q = { s with tones } := by
  have leave (p : State) : ∃ tones, p.leaveOwing v = { p with tones } := by
    unfold State.leaveOwing
    dsimp only
    split_ifs <;> exact ⟨_, rfl⟩
  unfold State.giveVoice
  obtain ⟨tones, e⟩ := leave s
  rw [e]
  exact ⟨_, rfl⟩

theorem State.chimeStep_gathers {s : State} {p : Fin 64} (waits : (s.programs.get p).state = .gathering) :
    Gathers s (s.chimeStep p) := by
  unfold State.chimeStep
  split
  · exact State.enterPlaying_gathers waits
  · split
    · next v _ =>
      obtain ⟨tones, e⟩ := s.giveVoice_only v (.chime p) _
      have given : Gathers s { s with tones } := { Gathers.refl s with }
      rw [e]
      exact given.trans (State.modProgram_gathers
        ⟨rfl, rfl, rfl, rfl, fun settled => absurd waits settled, fun _ => by simp⟩ nofun)
    · refine (State.modProgram_gathers (f := fun pr => { pr with chimeSkipped := true })
        ⟨rfl, rfl, rfl, rfl, fun settled => absurd waits settled, fun _ => .inl waits⟩ fun held => ?_).trans
        (State.enterPlaying_gathers ?_)
      · simp [waits] at held
      · simp [waits]

theorem State.gatherTest_gathers (s : State) (p : Fin 64) : Gathers s (s.gatherTest p) := by
  unfold State.gatherTest
  dsimp only
  split_ifs with test
  · simp only [Bool.and_eq_true, beq_iff_eq] at test
    exact State.chimeStep_gathers test.1.1
  · exact Gathers.refl s

theorem State.gatherTestOf_gathers (s : State) (c : Option Claim) : Gathers s (s.gatherTestOf c) := by
  unfold State.gatherTestOf
  split
  · exact State.gatherTest_gathers s _
  · exact Gathers.refl s

/-! ### A naming, step by step -/

/-- The new holder of an outlet that is named with these claims. -/
abbrev State.newHolder (s : State) (o : Fin 256) (cs : List Claim) : Option Claim := holderIn (nameStack (s.lockFloor o) cs)

/-- A naming with the counts of the old and the new holder. -/
def State.counted (s : State) (o : Fin 256) (cs : List Claim) : State :=
  ((s.setStack o (nameStack (s.lockFloor o) cs)).countHeld (s.holder o) (· - 1)).countHeld (s.newHolder o cs) (· + 1)

/-- A naming up to its gather tests and the override line. -/
def State.renamed (s : State) (o : Fin 256) (cs : List Claim) : State :=
  (((s.counted o cs).gatherTestOf (s.holder o)).gatherTestOf (s.newHolder o cs)).evalLine o

theorem State.restack_same {s : State} {o : Fin 256} {cs : List Claim}
    (same : (s.holder o).map (·.owner) = (s.newHolder o cs).map (·.owner)) :
    s.restack o cs = (s.setStack o (nameStack (s.lockFloor o) cs)).evalLine o := by
  unfold State.restack
  exact if_pos same

theorem State.restack_moved {s : State} {o : Fin 256} {cs : List Claim}
    (moved : (s.holder o).map (·.owner) ≠ (s.newHolder o cs).map (·.owner)) :
    s.restack o cs =
      let t := (s.renamed o cs).reportDisplaced o (s.holder o) (s.newHolder o cs)
      if t.isShow (s.holder o) || t.isShow (s.newHolder o cs) then t.resumeTest else t := by
  unfold State.restack
  exact if_neg moved

/-- What a claim's program counts. -/
theorem State.countHeld_eq (s : State) (c : Option Claim) (f : Nat → Nat) : ∃ programs, s.countHeld c f = { s with programs } ∧
    ∀ p, programs.get p = if c.map (·.owner) = some (.program p) then
      { s.programs.get p with held := f (s.programs.get p).held } else s.programs.get p := by
  unfold State.countHeld
  split
  · next q _ _ _ _ _ =>
    refine ⟨_, rfl, fun p => ?_⟩
    rw [Tab.get_modify]
    simp only [Option.map_some, Option.some.injEq, Owner.program.injEq, eq_comm (a := p)]
  · next other =>
    refine ⟨_, rfl, fun p => (if_neg fun owned => ?_).symm⟩
    obtain ⟨d, rfl, own⟩ := Option.map_eq_some_iff.mp owned
    obtain ⟨_, _, _, _, _, _⟩ := d
    subst own
    exact other _ _ _ _ _ _ rfl

section
variable (s : State) (o : Fin 256) (cs : List Claim)

/-- The count of outlets where a program holds, after a naming that changes the holder's owner. -/
def State.heldAfter (p : Fin 64) : Nat :=
  let n := if (s.holder o).map (·.owner) = some (.program p) then (s.programs.get p).held - 1 else (s.programs.get p).held
  if (s.newHolder o cs).map (·.owner) = some (.program p) then n + 1 else n

theorem State.counted_eq : ∃ programs, s.counted o cs =
    { s.setStack o (nameStack (s.lockFloor o) cs) with programs } ∧
      ∀ p, programs.get p = { s.programs.get p with held := s.heldAfter o cs p } := by
  unfold State.counted
  obtain ⟨first, e, old⟩ := (s.setStack o (nameStack (s.lockFloor o) cs)).countHeld_eq (s.holder o) (· - 1)
  obtain ⟨second, e', new⟩ := State.countHeld_eq { s.setStack o (nameStack (s.lockFloor o) cs) with programs := first }
    (s.newHolder o cs) (· + 1)
  refine ⟨second, by rw [e, e'], fun p => ?_⟩
  rw [new]
  dsimp only
  rw [old, State.setStack_programs]
  unfold State.heldAfter
  dsimp only
  split_ifs <;> rfl

end

/-- Before its reports a naming has done this: the stack, the counts, the gather tests and the line. -/
structure Renamed (s t : State) (o : Fin 256) (cs : List Claim) : Prop where
  programs : ∀ p, ({ s.programs.get p with held := s.heldAfter o cs p } : Program).Gathers (t.programs.get p)
  playing : s.theatre.state ≠ .held → ∀ p, (t.programs.get p).state = .held → (s.programs.get p).state = .held
  owners : ∀ c, (t.channels.get c).owner = (s.channels.get c).owner
  sources : ∀ c x, (s.channels.get c).owner = some (.source x) → t.channels.get c = s.channels.get c
  stack : ∀ x, t.stack x = if x = o then nameStack (s.lockFloor o) cs else s.stack x
  theatre : t.theatre = s.theatre
  lists : t.lists = s.lists
  notes : t.notes = s.notes
  time : t.time = s.time
  calls : t.calls = s.calls

theorem State.renamed_of (s : State) (o : Fin 256) (cs : List Claim) : Renamed s (s.renamed o cs) o cs := by
  obtain ⟨programs, e, held⟩ := s.counted_eq o cs
  have goes : Gathers { s.setStack o (nameStack (s.lockFloor o) cs) with programs }
      (((s.counted o cs).gatherTestOf (s.holder o)).gatherTestOf (s.newHolder o cs)) := by
    rw [e]
    exact (State.gatherTestOf_gathers _ _).trans (State.gatherTestOf_gathers _ _)
  unfold State.renamed State.evalLine
  refine ⟨fun p => ?_, fun free p => ?_, goes.owners, goes.sources, fun x => ?_, goes.theatre, goes.lists, goes.notes,
    goes.time, goes.calls⟩
  · rw [← held p]
    exact goes.programs p
  · have before := goes.playing free p
    dsimp only at before
    rw [held p] at before
    exact before
  · have claims := goes.claims
    unfold State.stack
    rw [State.setLine_claims]
    dsimp only
    rw [claims]
    exact s.setStack_stack o _ x

/-! ### The reports of a naming -/

/-- The old holder is a SHOW program that a new one at or above its hold threshold displaces (R59). -/
def State.displacing (s : State) (old new : Option Claim) (p : Fin 64) (d : Claim) : Prop :=
  old.map (·.owner) = some (.program p) ∧ new = some d ∧ (s.programs.get p).kind = .theatre ∧
    (s.programs.get p).holdThreshold ≤ d.priority ∧
    ((s.programs.get p).state = .gathering ∨ (s.programs.get p).state = .chiming ∨ (s.programs.get p).state = .playing)

theorem State.reportDisplaced_of {s : State} {o : Fin 256} {old new : Option Claim} {p : Fin 64} {d : Claim}
    (displaces : s.displacing old new p d) : s.reportDisplaced o old new = s.displaced p o := by
  obtain ⟨owned, rfl, kind, threshold, state⟩ := displaces
  obtain ⟨c, rfl, owner⟩ := Option.map_eq_some_iff.mp owned
  obtain ⟨_, _, _, _, _, _⟩ := c
  subst owner
  unfold State.reportDisplaced
  exact if_pos (by simpa [kind, threshold, or_assoc] using state)

theorem State.reportDisplaced_not {s : State} {o : Fin 256} {old new : Option Claim}
    (none : ∀ p d, ¬s.displacing old new p d) : s.reportDisplaced o old new = s := by
  unfold State.reportDisplaced
  split
  · next p _ _ _ _ _ d =>
    refine if_neg fun test => none p d ⟨rfl, rfl, ?_⟩
    simp only [Bool.and_eq_true, Bool.or_eq_true, beq_iff_eq, decide_eq_true_eq, or_assoc] at test
    exact ⟨test.1.1, test.1.2, test.2⟩
  · rfl

theorem State.isShow_iff (s : State) (c : Option Claim) : s.isShow c = true ↔ ∃ p, c.map (·.owner) = some (.program p) ∧
    (s.programs.get p).kind = .theatre ∧ (s.programs.get p).state ≠ .free := by
  unfold State.isShow
  split
  · next p _ _ _ _ _ => simp
  · next other =>
    refine iff_of_false nofun ?_
    rintro ⟨p, owned, -⟩
    obtain ⟨⟨_, _, _, _, _, _⟩, rfl, owner⟩ := Option.map_eq_some_iff.mp owned
    subst owner
    exact other p _ _ _ _ _ rfl

/-- What a naming keeps of a program, its count of outlets held apart. -/
structure Program.Named (x y : Program) : Prop where
  kind : y.kind = x.kind
  held : y.held = x.held
  admitted : y.admitted = x.admitted
  ending : y.state = .ending ↔ x.state = .ending
  free : y.state = .free ↔ x.state = .free
  settled : x.state ≠ .gathering → x.kind ≠ .theatre → y = x

theorem Program.Named.refl (x : Program) : x.Named x := ⟨rfl, rfl, rfl, Iff.rfl, Iff.rfl, fun _ _ => rfl⟩

theorem Program.Named.trans {x y z : Program} (h : x.Named y) (k : y.Named z) : x.Named z where
  kind := k.kind.trans h.kind
  held := k.held.trans h.held
  admitted := k.admitted.trans h.admitted
  ending := k.ending.trans h.ending
  free := k.free.trans h.free
  settled := fun state kind => by
    have same := h.settled state kind
    exact (k.settled (same ▸ state) (same ▸ kind)).trans same

theorem Program.Gathers.named {x y : Program} (h : x.Gathers y) : x.Named y where
  kind := h.kind
  held := h.held
  admitted := h.admitted
  ending := by
    by_cases waits : x.state = .gathering
    · rcases h.state waits with e | e | e | e <;> simp [e, waits]
    · rw [h.rest waits]
  free := by
    by_cases waits : x.state = .gathering
    · rcases h.state waits with e | e | e | e <;> simp [e, waits]
    · rw [h.rest waits]
  settled := fun state _ => h.rest state

theorem Program.onHold_named {x : Program} (kind : x.kind = .theatre) : x.Named x.onHold := by
  unfold Program.onHold
  split_ifs with plays
  · exact ⟨rfl, rfl, rfl, by simp [plays], by simp [plays], fun _ other => absurd kind other⟩
  · exact Program.Named.refl x

theorem Program.offHold_named {x : Program} (kind : x.kind = .theatre) : x.Named x.offHold := by
  unfold Program.offHold
  split_ifs with held
  · unfold Program.startDuration
    split <;> exact ⟨rfl, rfl, rfl, by simp [held], by simp [held], fun _ other => absurd kind other⟩
  · exact Program.Named.refl x

theorem State.showsTo_named (s : State) {f : Program → Program} (each : ∀ x : Program, x.kind = .theatre → x.Named (f x))
    (p : Fin 64) : (s.programs.get p).Named ((s.showsTo f).programs.get p) := by
  unfold State.showsTo
  rw [Tab.get_map]
  split_ifs with show_
  · exact each _ show_.1
  · exact Program.Named.refl _

theorem State.enterHeld_programs (s : State) (r : HoldRecord) : (s.enterHeld r).programs = (s.showsTo Program.onHold).programs := by
  rw [State.enterHeld_eq]
  obtain ⟨channels, e⟩ := (s.modTheatre fun t => { t with state := .held, hold := some r }).signalSources_only
    Channel.signalPause
  rw [e]
  rfl

theorem State.resumeShow_programs (s : State) (subject : Nat) {r : HoldRecord} (held : s.theatre.hold = some r) :
    (s.resumeShow subject).programs = (s.showsTo Program.offHold).programs := by
  rw [State.resumeShow_eq s subject held, State.emitNote_programs]
  obtain ⟨channels, e⟩ := (s.modTheatre fun t => { t with state := r.heldFrom, hold := none }).signalSources_only
    Channel.signalResume
  rw [e]
  rfl

theorem State.displaced_named (s : State) (q : Fin 64) (o : Fin 256) (p : Fin 64) :
    (s.programs.get p).Named ((s.displaced q o).programs.get p) := by
  unfold State.displaced
  split_ifs
  · exact Program.Named.refl _
  · rw [State.emitNote_programs, State.enterHeld_programs]
    exact s.showsTo_named (fun x => Program.onHold_named) p

theorem State.resumeTest_named (s : State) (p : Fin 64) : (s.programs.get p).Named (s.resumeTest.programs.get p) := by
  by_cases met : ∃ r, s.theatre.hold = some r ∧ s.resumes r
  · obtain ⟨r, held, met⟩ := met
    rw [State.resumeTest_of held met, State.resumeShow_programs s 0 held]
    exact s.showsTo_named (fun x => Program.offHold_named) p
  · rw [State.resumeTest_not fun r held met' => met ⟨r, held, met'⟩]
    exact Program.Named.refl _

theorem State.reportDisplaced_named (s : State) (o : Fin 256) (old new : Option Claim) (p : Fin 64) :
    (s.programs.get p).Named ((s.reportDisplaced o old new).programs.get p) := by
  by_cases displaces : ∃ q d, s.displacing old new q d
  · obtain ⟨q, d, displaces⟩ := displaces
    rw [State.reportDisplaced_of displaces]
    exact s.displaced_named q o p
  · push Not at displaces
    rw [State.reportDisplaced_not displaces]
    exact Program.Named.refl _

/-- What a naming makes of a program. -/
theorem State.restack_program (s : State) (o : Fin 256) (cs : List Claim) (p : Fin 64) :
    let moved : Prop := (s.holder o).map (·.owner) ≠ (s.newHolder o cs).map (·.owner)
    (¬moved → (s.restack o cs).programs = s.programs) ∧
    (moved → ({ s.programs.get p with held := s.heldAfter o cs p } : Program).Named ((s.restack o cs).programs.get p)) := by
  intro moved
  refine ⟨fun same => ?_, fun moved => ?_⟩
  · rw [State.restack_same (not_ne_iff.mp same)]
    rfl
  · rw [State.restack_moved moved]
    have base := ((s.renamed_of o cs).programs p).named.trans
      (State.reportDisplaced_named (s.renamed o cs) o (s.holder o) (s.newHolder o cs) p)
    dsimp only
    split_ifs
    · exact base.trans (State.resumeTest_named _ p)
    · exact base

end Sys2Proof.Machine
end

section
/-! PROOF. The placement of claims (O33): arrival numbers and their renumbering, admission, eviction and what its owner is
told, the counts of outlets held, and removal. -/

open Sys2Proof Sys2Proof.Machine

namespace Sys2Proof.Machine

/-! ### Ranks -/

section
variable {ns : List Nat}

theorem rankIn_mono {a b : Nat} (le : a ≤ b) : rankIn ns a ≤ rankIn ns b := by
  unfold rankIn
  refine (List.monotone_filter_right ns fun n below => ?_).length_le
  simp only [decide_eq_true_eq] at below ⊢
  omega

theorem rankIn_lt {a b : Nat} (mem : a ∈ ns) (lt : a < b) : rankIn ns a < rankIn ns b := by
  unfold rankIn
  rw [← List.countP_eq_length_filter, ← List.countP_eq_length_filter]
  obtain ⟨pre, post, rfl⟩ := List.append_of_mem mem
  have le (xs : List Nat) : xs.countP (· < a) ≤ xs.countP (· < b) :=
    List.countP_mono_left fun n _ below => by
      simp only [decide_eq_true_eq] at below ⊢
      omega
  have first := le pre
  have last := le post
  simp only [List.countP_append, List.countP_cons, decide_eq_true_eq, lt_irrefl, lt]
  simp only [if_false, if_true]
  omega

theorem rankIn_lt_iff {a b : Nat} (ma : a ∈ ns) : a < b ↔ rankIn ns a < rankIn ns b := by
  refine ⟨rankIn_lt ma, fun rank => ?_⟩
  by_contra le
  exact absurd (rankIn_mono (ns := ns) (not_lt.mp le)) (by omega)

theorem rankIn_bound {a : Nat} (mem : a ∈ ns) : rankIn ns a < ns.length := by
  have all : rankIn ns a < rankIn ns (a + ns.sum + 1) := rankIn_lt mem (by omega)
  exact lt_of_lt_of_le all (List.length_filter_le _ _)

/-- The ranks of distinct numbers are the numbers below their count. -/
theorem rankIn_onto (once : ns.Nodup) (n : Nat) : n < ns.length ↔ ∃ a ∈ ns, rankIn ns a = n := by
  refine ⟨fun below => ?_, fun ⟨a, mem, e⟩ => e ▸ rankIn_bound mem⟩
  have injective : Set.InjOn (rankIn ns) ns.toFinset := fun a ma b mb same => by
    simp only [Finset.mem_coe, List.mem_toFinset] at ma mb
    rcases lt_trichotomy a b with lt | e | lt
    · exact absurd (rankIn_lt ma lt) (by omega)
    · exact e
    · exact absurd (rankIn_lt mb lt) (by omega)
  have into : ns.toFinset.image (rankIn ns) ⊆ Finset.range ns.length := fun m mem => by
    obtain ⟨a, ma, rfl⟩ := Finset.mem_image.mp mem
    exact Finset.mem_range.mpr (rankIn_bound (List.mem_toFinset.mp ma))
  have card : (Finset.range ns.length).card ≤ (ns.toFinset.image (rankIn ns)).card := by
    rw [Finset.card_image_of_injOn injective, Finset.card_range, List.toFinset_card_of_nodup once]
  have mem : n ∈ ns.toFinset.image (rankIn ns) := by
    rw [Finset.eq_of_subset_of_card_le into card]
    exact Finset.mem_range.mpr below
  obtain ⟨a, ma, e⟩ := Finset.mem_image.mp mem
  exact ⟨a, List.mem_toFinset.mp ma, e⟩

end

theorem eraseDups_nodup : (ns : List Nat) → ns.eraseDups.Nodup
  | [] => by simp
  | n :: ns => by
    rw [List.eraseDups_cons, List.nodup_cons]
    exact ⟨by simp, eraseDups_nodup _⟩
  termination_by ns => ns.length
  decreasing_by exact Nat.lt_succ_of_le (List.length_filter_le _ _)

/-- Every kind's number, by kind and by index. -/
theorem exists_kind_iff {p : Fin 4 → Prop} : (∃ i, p i) ↔ ∃ k : AlarmKind, p k.idx := by
  refine ⟨fun ⟨i, h⟩ => ?_, fun ⟨k, h⟩ => ⟨k.idx, h⟩⟩
  match i, h with
  | 0, h => exact ⟨.muster, h⟩
  | 1, h => exact ⟨.fire, h⟩
  | 2, h => exact ⟨.security, h⟩
  | 3, h => exact ⟨.crewAlert, h⟩

/-- Where an arrival number is kept (R35). -/
theorem State.mem_arrivalsInUse (s : State) (a : Nat) : a ∈ s.arrivalsInUse ↔
    (∃ o, ∃ c ∈ s.stack o, c.arrival = a) ∨
      (∃ p, (s.programs.get p).state ≠ .free ∧ (s.programs.get p).arrival = a) ∨
      (∃ c, (s.calls.get c).state ≠ .free ∧
        ((s.calls.get c).arrival = a ∨ ∃ q ∈ (s.calls.get c).parties, q.arrival = a)) ∨
      (∃ o, a ∈ (((s.mixer.get o).fg.toList ++ (s.mixer.get o).ug.toList ++
        ((s.mixer.get o).duck.map (·.2)).toList).map (·.2))) ∨
      ∃ k : AlarmKind, (s.alarms.kinds.get k.idx).lastArrival = a := by
  have claimed : a ∈ s.claims.stack.list.flatMap (fun cs => cs.map (·.arrival)) ↔ ∃ o, ∃ c ∈ s.stack o, c.arrival = a := by
    simp only [List.mem_flatMap, List.mem_map, Tab.mem_list_iff]
    exact ⟨fun ⟨_, ⟨o, rfl⟩, here⟩ => ⟨o, here⟩, fun ⟨o, here⟩ => ⟨_, ⟨o, rfl⟩, here⟩⟩
  have programs : a ∈ (s.programs.list.filter fun p => p.state != .free).map (·.arrival) ↔
      ∃ p, (s.programs.get p).state ≠ .free ∧ (s.programs.get p).arrival = a := by
    simp only [List.mem_map, List.mem_filter, Tab.mem_list_iff, bne_iff_ne]
    exact ⟨fun ⟨_, ⟨⟨p, rfl⟩, busy⟩, e⟩ => ⟨p, busy, e⟩, fun ⟨p, busy, e⟩ => ⟨_, ⟨⟨p, rfl⟩, busy⟩, e⟩⟩
  have calls : a ∈ (s.calls.list.filter fun c => c.state != .free).flatMap (fun c => c.arrival :: c.parties.map (·.arrival)) ↔
      ∃ c, (s.calls.get c).state ≠ .free ∧
        ((s.calls.get c).arrival = a ∨ ∃ q ∈ (s.calls.get c).parties, q.arrival = a) := by
    simp only [List.mem_flatMap, List.mem_filter, Tab.mem_list_iff, bne_iff_ne, List.mem_cons, List.mem_map, eq_comm (a := a)]
    exact ⟨fun ⟨_, ⟨⟨c, rfl⟩, busy⟩, here⟩ => ⟨c, busy, here⟩, fun ⟨c, busy, here⟩ => ⟨_, ⟨⟨c, rfl⟩, busy⟩, here⟩⟩
  have mixer : a ∈ s.mixer.list.flatMap (fun m =>
      (m.fg.toList ++ m.ug.toList ++ (m.duck.map (·.2)).toList).map (·.2)) ↔
      ∃ o, a ∈ (((s.mixer.get o).fg.toList ++ (s.mixer.get o).ug.toList ++
        ((s.mixer.get o).duck.map (·.2)).toList).map (·.2)) := by
    rw [List.mem_flatMap]
    exact ⟨fun ⟨_, here, mem⟩ => (Tab.mem_list_iff.mp here).elim fun o e => ⟨o, e ▸ mem⟩,
      fun ⟨o, mem⟩ => ⟨_, Tab.mem_list_iff.mpr ⟨o, rfl⟩, mem⟩⟩
  have kinds : a ∈ s.alarms.kinds.list.map (·.lastArrival) ↔
      ∃ k : AlarmKind, (s.alarms.kinds.get k.idx).lastArrival = a := by
    rw [← exists_kind_iff (p := fun i => (s.alarms.kinds.get i).lastArrival = a)]
    simp only [List.mem_map, Tab.mem_list_iff]
    exact ⟨fun ⟨_, ⟨i, rfl⟩, e⟩ => ⟨i, e⟩, fun ⟨i, e⟩ => ⟨_, ⟨i, rfl⟩, e⟩⟩
  unfold State.arrivalsInUse
  rw [List.mem_append, List.mem_append, List.mem_append, List.mem_append, claimed, programs, calls, mixer, kinds]
  simp only [or_assoc]

/-! ### Removal and eviction -/

theorem State.removeClaim_not {s : State} {w : Owner} {o : Fin 256} (absent : hasOwner w (s.stack o) = false) :
    s.removeClaim w o = s := by
  unfold State.removeClaim
  rw [absent]
  rfl

theorem State.removeClaim_of {s : State} {w : Owner} {o : Fin 256} (here : hasOwner w (s.stack o) = true) :
    s.removeClaim w o = s.restack o ((s.stack o).filter fun c => c.owner != w) := by
  unfold State.removeClaim
  rw [here]
  rfl

/-- Removing an owner's claims everywhere leaves a stack without one alone. -/
theorem State.removeAll_stack {s : State} {w : Owner} {o : Fin 256} (absent : hasOwner w (s.stack o) = false) :
    (s.removeAll w).stack o = s.stack o := by
  unfold State.removeAll
  generalize allFin 256 = os
  induction os generalizing s with
  | nil => rfl
  | cons x os ih =>
    have kept : (s.removeClaim w x).stack o = s.stack o := by
      by_cases same : o = x
      · subst same
        rw [State.removeClaim_not absent]
      · exact s.removeClaim_stack_ne w same
    rw [State.forAll_cons, ih (kept ▸ absent), kept]

theorem Seats.stack_eq {s t : State} (seats : Seats s t) (o : Fin 256) : t.stack o = s.stack o := by
  unfold State.stack
  rw [seats.stack]

/-- The end of a program leaves a stack where it has no claim alone. -/
theorem State.endProgram_stack {s : State} {p : Fin 64} {o : Fin 256} (code : Nat)
    (absent : hasOwner (.program p) (s.stack o) = false) : (s.endProgram p code).stack o = s.stack o := by
  by_cases busy : (s.programs.get p).state = .free
  · unfold State.endProgram
    rw [if_pos (by simp [busy])]
  · obtain ⟨a, b, ha, hb, e⟩ := State.endProgram_eq busy code
    have claims : (s.endProgram p code).claims = b.claims := by
      rw [e]
      split
      · exact (State.requestReturn_rest _ _ _).2
      · exact (State.reportPageEnd_rest _ _ _).2
    have seats : Seats (s.removeAll (.program p)) b := by
      rw [hb, ha]
      exact State.leaveHoldSet_seats (State.modProgram_seats (State.releaseChannel_seats
        (State.releaseVoice_seats (Seats.refl _) _) _) _ _) p
    calc (s.endProgram p code).stack o = b.stack o := by unfold State.stack; rw [claims]
      _ = (s.removeAll (.program p)).stack o := seats.stack_eq o
      _ = s.stack o := State.removeAll_stack absent

/-- What the owner of an evicted claim is told leaves the stack alone that its claim has left. -/
theorem State.evicted_stack {s : State} {w : Owner} {o : Fin 256} (absent : hasOwner w (s.stack o) = false) :
    (s.evicted w).stack o = s.stack o := by
  unfold State.evicted
  split
  · dsimp only
    split_ifs
    · exact State.endProgram_stack _ absent
    · exact State.endProgram_stack _ absent
    · exact (State.gatherTest_seats (Seats.refl _) _).stack_eq o
    · rfl
  · rfl

/-! ### Placement -/

section
variable {s : State} {c : Claim} {o : Fin 256}

theorem State.place_not (not : (s.outlets.get o).kind.takesClaims = false ∨ hasOwner c.owner (s.stack o) = true) :
    s.place c o = (false, s) := by
  unfold State.place
  exact if_pos (by simpa using not)

theorem State.place_room (takes : (s.outlets.get o).kind.takesClaims = true) (absent : hasOwner c.owner (s.stack o) = false)
    (room : (s.stack o).length < 8) : s.place c o = (true, s.restack o (insertClaim c (s.stack o))) := by
  unfold State.place
  dsimp only
  rw [if_neg (by simp [takes, absent]), if_pos room]

theorem State.place_full (takes : (s.outlets.get o).kind.takesClaims = true) (absent : hasOwner c.owner (s.stack o) = false)
    {front : List Claim} {last : Claim} (split : s.stack o = front ++ [last]) (full : 8 ≤ (s.stack o).length) :
    s.place c o = if last.priority < c.priority then (true, (s.restack o (insertClaim c front)).evicted last.owner)
      else (false, s) := by
  unfold State.place
  dsimp only
  rw [if_neg (by simp [takes, absent]), if_neg (by omega), split]
  simp

end

theorem OutletKind.takesClaims_eq_false_iff (k : OutletKind) : k.takesClaims = false ↔ k = .undefined ∨ k = .spare := by
  cases k <;> simp [OutletKind.takesClaims]

theorem insertClaim_place {c : Claim} {pre post : List Claim} (passes : ∀ d ∈ pre, c.before d = false)
    (stops : ∀ d ∈ post.head?, c.before d = true) : insertClaim c (pre ++ post) = pre ++ c :: post := by
  induction pre with
  | nil =>
    cases post with
    | nil => rfl
    | cons d ds =>
      rw [List.nil_append, insertClaim, if_pos (stops d rfl)]
      rfl
  | cons d pre ih =>
    rw [List.cons_append, insertClaim, if_neg (by simp [passes d List.mem_cons_self]),
      ih fun e mem => passes e (List.mem_cons_of_mem d mem)]
    rfl

theorem Claim.before_iff (c d : Claim) : c.before d = true ↔ d.priority < c.priority ∨ (c.priority = d.priority ∧
    (c.arrival < d.arrival ∨ (c.arrival = d.arrival ∧ c.owner.code < d.owner.code))) := by
  unfold Claim.before
  split_ifs <;> simp <;> omega

theorem hasOwner_insertClaim {w : Owner} {c : Claim} {cs : List Claim} (other : c.owner ≠ w) :
    hasOwner w (insertClaim c cs) = hasOwner w cs := by
  have perm := insertClaim_perm c cs
  rw [Bool.eq_iff_iff]
  simp [hasOwner, perm.mem_iff, other]

/-- An eviction leaves the stack it was made for as it was named. -/
theorem State.restack_evicted_stack {s : State} {c : Claim} {o : Fin 256} {front : List Claim} {w : Owner}
    (other : c.owner ≠ w) (only : hasOwner w front = false) :
    ((s.restack o (insertClaim c front)).evicted w).stack o = nameStack (s.lockFloor o) (insertClaim c front) := by
  have named : (s.restack o (insertClaim c front)).stack o = nameStack (s.lockFloor o) (insertClaim c front) := by
    rw [State.restack_stack, if_pos rfl]
  rw [State.evicted_stack, named]
  rw [named, hasOwner_nameStack, hasOwner_insertClaim other, only]

/-! ### The counts of outlets held -/

theorem State.heldAfter_eq (s : State) (o : Fin 256) (cs : List Claim) (p : Fin 64)
    (moved : (s.holder o).map (·.owner) ≠ (s.newHolder o cs).map (·.owner)) :
    let before : Prop := (s.holder o).map (·.owner) = some (.program p)
    let after : Prop := (s.newHolder o cs).map (·.owner) = some (.program p)
    (before → s.heldAfter o cs p = (s.programs.get p).held - 1) ∧ (after → s.heldAfter o cs p = (s.programs.get p).held + 1) ∧
      (¬before → ¬after → s.heldAfter o cs p = (s.programs.get p).held) := by
  intro before after
  refine ⟨fun was => ?_, fun now => ?_, fun not_was not_now => ?_⟩
  · have not_now : ¬after := fun now => moved (was.trans now.symm)
    unfold State.heldAfter
    rw [if_pos was, if_neg not_now]
  · have not_was : ¬before := fun was => moved (was.trans now.symm)
    unfold State.heldAfter
    rw [if_neg not_was, if_pos now]
  · unfold State.heldAfter
    rw [if_neg not_was, if_neg not_now]

/-- A naming counts an outlet more for the program that newly holds, and one fewer for the one that held. -/
theorem State.restack_held (s : State) (o : Fin 256) (cs : List Claim) (p : Fin 64) :
    let held : Nat := (s.programs.get p).held
    let before : Prop := (s.holder o).map (·.owner) = some (.program p)
    let after : Prop := (s.newHolder o cs).map (·.owner) = some (.program p)
    (before → ¬after → ((s.restack o cs).programs.get p).held = held - 1) ∧
    (¬before → after → ((s.restack o cs).programs.get p).held = held + 1) ∧
    ((before ↔ after) → ((s.restack o cs).programs.get p).held = held) := by
  intro held before after
  obtain ⟨same, changed⟩ := s.restack_program o cs p
  by_cases moved : (s.holder o).map (·.owner) ≠ (s.newHolder o cs).map (·.owner)
  · obtain ⟨was, now, neither⟩ := s.heldAfter_eq o cs p moved
    rw [(changed moved).held]
    refine ⟨fun b _ => was b, fun _ a => now a, fun both => ?_⟩
    by_cases b : before
    · exact absurd (b.trans (both.mp b).symm) moved
    · exact neither b (both.not.mp b)
  · rw [same moved]
    have equal := not_ne_iff.mp moved
    exact ⟨fun b a => absurd (equal.symm.trans b) a, fun b a => absurd (equal.trans a) b, fun _ => rfl⟩

/-- What a naming keeps of every program. -/
theorem State.restack_kept (s : State) (o : Fin 256) (cs : List Claim) (p : Fin 64) :
    ((s.restack o cs).programs.get p).admitted = (s.programs.get p).admitted ∧
      (((s.restack o cs).programs.get p).state = .ending ↔ (s.programs.get p).state = .ending) ∧
      (((s.restack o cs).programs.get p).state = .free ↔ (s.programs.get p).state = .free) ∧
      ((s.programs.get p).state ≠ .gathering → (s.programs.get p).kind ≠ .theatre →
        ∃ n, (s.restack o cs).programs.get p = { s.programs.get p with held := n }) := by
  obtain ⟨same, changed⟩ := s.restack_program o cs p
  by_cases moved : (s.holder o).map (·.owner) ≠ (s.newHolder o cs).map (·.owner)
  · have named := changed moved
    exact ⟨named.admitted, named.ending, named.free, fun state kind => ⟨_, named.settled state kind⟩⟩
  · rw [same moved]
    exact ⟨rfl, Iff.rfl, Iff.rfl, fun _ _ => ⟨_, rfl⟩⟩

/-! ### What the owner of an evicted claim is told -/

/-- What a naming does beyond its stack. -/
theorem State.restack_after (s : State) (o : Fin 256) (cs : List Claim) :
    Quiet (s.setStack o (nameStack (s.lockFloor o) cs)) (s.restack o cs) := by
  have base := Quiet.refl (s.setStack o (nameStack (s.lockFloor o) cs))
  by_cases moved : (s.holder o).map (·.owner) ≠ (s.newHolder o cs).map (·.owner)
  · rw [State.restack_moved moved]
    have more : Quiet (s.setStack o (nameStack (s.lockFloor o) cs))
        ((s.renamed o cs).reportDisplaced o (s.holder o) (s.newHolder o cs)) :=
      State.reportDisplaced_quiet (State.evalLine_quiet (State.gatherTestOf_quiet (State.gatherTestOf_quiet
        (State.countHeld_quiet (State.countHeld_quiet base _ _) _ _) _) _) _) _ _ _
    dsimp only
    split_ifs
    · exact State.resumeTest_quiet more
    · exact more
  · rw [State.restack_same (not_ne_iff.mp moved)]
    exact State.evalLine_quiet base o

theorem State.setStack_untouched (s : State) (o : Fin 256) (cs : List Claim) : Untouched s (s.setStack o cs) := by
  constructor <;> rfl

section
variable {s : State} {o : Fin 256} {cs : List Claim} {p : Fin 64}

theorem State.evicted_party (k : Fin 16) (i : Fin 8) : ((s.restack o cs).evicted (.party k i)).calls =
    s.calls.modify k fun call =>
      { call with parties := call.parties.modify i.val fun q => { q with outletLost := true, claim := none } } := by
  unfold State.evicted
  rw [State.modCall_calls, (State.restack_steady (Steady.refl s) o cs).calls]

/-- A host or PAGE program that keeps another outlet counts one fewer. -/
theorem State.evicted_counts (host : p.val < 59) (more : 2 ≤ (s.programs.get p).admitted) :
    ((((s.restack o cs).evicted (.program p)).programs.get p).admitted = (s.programs.get p).admitted - 1) ∧
      ((s.restack o cs).evicted (.program p)).calls = s.calls := by
  obtain ⟨admitted, -, -, -⟩ := s.restack_kept o cs p
  unfold State.evicted
  dsimp only
  rw [if_pos host, if_neg (by simp [admitted]; omega)]
  have goes := State.gatherTest_gathers ((s.restack o cs).modProgram p fun pr => { pr with admitted := pr.admitted - 1 }) p
  refine ⟨?_, goes.calls.trans (State.restack_steady (Steady.refl s) o cs).calls⟩
  rw [(goes.programs p).admitted, State.modProgram_programs, Tab.get_modify_self, admitted]

/-- One that has no outlet left ends. -/
theorem State.evicted_ends (host : p.val < 59) (last : (s.programs.get p).admitted ≤ 1) (busy : (s.programs.get p).state ≠ .free) :
    ProgramEnded s ((s.restack o cs).evicted (.program p)) p (if (s.programs.get p).state = .ending then 0x04 else 0x15) := by
  obtain ⟨admitted, ending, free, -⟩ := s.restack_kept o cs p
  let b := (s.restack o cs).modProgram p fun pr => { pr with admitted := pr.admitted - 1 }
  have slot : b.programs.get p =
      { (s.restack o cs).programs.get p with admitted := ((s.restack o cs).programs.get p).admitted - 1 } := by
    simp only [b]
    rw [State.modProgram_programs, Tab.get_modify_self]
  have told : (s.restack o cs).evicted (.program p) =
      b.endProgram p (if (s.programs.get p).state = .ending then 0x04 else 0x15) := by
    unfold State.evicted
    dsimp only
    rw [if_pos host, if_pos (by simp [admitted]; omega)]
    refine congrArg (State.endProgram p · b) ?_
    have state : (b.programs.get p).state = .ending ↔ (s.programs.get p).state = .ending := by
      rw [slot]
      exact ending
    by_cases e : (s.programs.get p).state = .ending
    · rw [if_pos e, if_pos (beq_iff_eq.mpr (state.mpr e))]
      rfl
    · rw [if_neg e, if_neg (beq_iff_eq.not.mpr (state.not.mpr e))]
      rfl
  have steady := State.restack_steady (Steady.refl s) o cs
  have quiet : Quiet (s.setStack o (nameStack (s.lockFloor o) cs)) b :=
    State.modProgram_stands (s.restack_after o cs) p _ fun _ => ⟨rfl, rfl, rfl, id⟩
  have ended := State.endProgram_ended (s := b) (p := p) (by rw [slot]; exact free.not.mpr busy)
    (if (s.programs.get p).state = .ending then 0x04 else 0x15)
  obtain ⟨record, reservation⟩ := steady.records p
  rw [told]
  refine ⟨(s.setStack_untouched o _).trans (quiet.toUntouched.trans ended.toUntouched), ended.free, ?_, ended.unclaimed,
    fun r held busy => ended.returned r ?_ ?_⟩
  · rw [ended.reservation, slot]
    exact reservation
  · rw [slot]
    exact record.trans held
  · have granted : b.port.grant.map (·.transfer) = s.port.grant.map (·.transfer) := quiet.granted
    intro idle
    rw [idle] at granted
    exact busy (Option.map_eq_none_iff.mp granted.symm)

/-- The contact microphone's program and the alarms' go on without the outlet. -/
theorem State.evicted_high (high : 59 ≤ p.val) : (s.evicted (.program p)) = s := by
  unfold State.evicted
  exact if_neg (by omega)

end

end Sys2Proof.Machine

/-- Settles O33: arrival numbers, placement, eviction, counts and removal, each by its own rule. -/
theorem claimPlacement : Obligations.ClaimPlacement := by
  refine ⟨fun s short => ?_, fun s full => ?_, fun s c o => ?_, fun s c o front last => ?_,
    fun s o cs p => s.restack_held o cs p, fun c pre post => insertClaim_place, Claim.before_iff, fun _ => rfl, fun _ _ => rfl,
    fun s w o => ⟨State.removeClaim_not, fun here o' => ?_⟩⟩
  · unfold State.issueArrival
    rw [if_neg short]
  · intro kept used t
    have in_use (a : Nat) : used a ↔ a ∈ s.arrivalsInUse.eraseDups :=
      (s.mem_arrivalsInUse a).symm.trans List.mem_eraseDups.symm
    have issued : s.issueArrival = (s.arrivalsInUse.eraseDups.length,
        { s.renumber with claims := { s.renumber.claims with arrivals := s.arrivalsInUse.eraseDups.length + 1 } }) := by
      unfold State.issueArrival
      rw [if_pos full]
      rfl
    simp only [t, issued]
    refine ⟨rankIn s.arrivalsInUse.eraseDups, fun a b ua _ => rankIn_lt_iff ((in_use a).mp ua), fun n => ?_, trivial,
      fun o => Tab.get_map _ _ o, fun p _ => Tab.get_map _ _ p, fun c _ => Tab.get_map _ _ c, fun o => Tab.get_map _ _ o,
      fun k => Tab.get_map _ _ k.idx, fun o => ?_, rfl, rfl, rfl⟩
    · rw [rankIn_onto (eraseDups_nodup _)]
      exact exists_congr fun a => and_congr_left fun _ => (in_use a).symm
    · have stack : State.stack { s.renumber with claims := { s.renumber.claims with
          arrivals := s.arrivalsInUse.eraseDups.length + 1 } } o =
          (s.stack o).map fun c => { c with arrival := rankIn s.arrivalsInUse.eraseDups c.arrival } := Tab.get_map _ _ o
      unfold State.holder holderIn
      rw [stack, List.find?_map]
      rfl
  · intro cs
    refine ⟨fun not => State.place_not ?_, fun defined spare absent => ⟨fun room => ?_, fun front last split full => ?_⟩⟩
    · rw [OutletKind.takesClaims_eq_false_iff]
      tauto
    · have takes := (OutletKind.takesClaims_iff _).mpr ⟨defined, spare⟩
      rw [State.place_room takes absent room]
      exact ⟨rfl, s.restack_stack o _⟩
    · have takes := (OutletKind.takesClaims_iff _).mpr ⟨defined, spare⟩
      rw [State.place_full takes absent split full]
      refine ⟨fun high => if_neg (by omega), fun low only => ?_⟩
      rw [if_pos low]
      refine ⟨rfl, State.restack_evicted_stack (fun same => ?_) only⟩
      have present : hasOwner c.owner cs = true := by
        rw [split]
        simp [hasOwner, same]
      rw [absent] at present
      exact absurd present nofun
  · intro t split full defined spare absent low
    have placed : t = (s.restack o (insertClaim c front)).evicted last.owner := by
      have takes := (OutletKind.takesClaims_iff _).mpr ⟨defined, spare⟩
      simp only [t]
      rw [State.place_full takes absent split full, if_pos low]
    rw [placed]
    refine ⟨fun k i owner => ?_, fun p owner => ?_⟩
    · rw [owner]
      exact State.evicted_party k i
    · rw [owner]
      refine ⟨State.evicted_counts, State.evicted_ends, fun high state kind => ?_⟩
      obtain ⟨-, -, -, settled⟩ := s.restack_kept o (insertClaim c front) p
      obtain ⟨n, e⟩ := settled (by simp [state]) kind
      rw [State.evicted_high high, e]
      exact ⟨state, rfl⟩
  · rw [State.removeClaim_of here]
    exact s.restack_stack o _ o'

end

section
/-! PROOF. The naming of a stack (O32): holder, undertone and LOCKED claims, and the show's displacement hold and its
resume test at a naming and at the end of a program of the hold set. -/

open Sys2Proof Sys2Proof.Machine

namespace Sys2Proof.Machine

/-! ### The claims of a named stack -/

section
variable {floor : Nat}

theorem nameRest_locked {seek : Bool} {cs : List Claim} : ∀ c ∈ nameRest floor seek cs,
    c.state = .locked ↔ c.eligible floor = false := by
  induction cs generalizing seek with
  | nil => nofun
  | cons d ds ih =>
    unfold nameRest
    split_ifs with out under
    · exact List.forall_mem_cons.mpr ⟨by simpa [Claim.eligible] using out, ih⟩
    · exact List.forall_mem_cons.mpr ⟨by simpa [Claim.eligible] using out, ih⟩
    · exact List.forall_mem_cons.mpr ⟨by simpa [Claim.eligible] using out, ih⟩

theorem nameStack_locked {cs : List Claim} : ∀ c ∈ nameStack floor cs, c.state = .locked ↔ c.eligible floor = false := by
  induction cs with
  | nil => nofun
  | cons d ds ih =>
    unfold nameStack
    split_ifs with fits
    · exact List.forall_mem_cons.mpr ⟨⟨nofun, fun out => absurd (fits.symm.trans out) nofun⟩, nameRest_locked⟩
    · exact List.forall_mem_cons.mpr ⟨by simpa [Claim.eligible] using fits, ih⟩

theorem nameRest_holder {seek : Bool} {cs : List Claim} : holderIn (nameRest floor seek cs) = none :=
  List.find?_eq_none.mpr fun c mem => by simpa using nameRest_state mem

theorem holderIn_nameStack (cs : List Claim) :
    holderIn (nameStack floor cs) = (cs.find? (·.eligible floor)).map fun c => { c with state := .holding } := by
  induction cs with
  | nil => rfl
  | cons d ds ih =>
    unfold nameStack
    rw [List.find?_cons]
    split_ifs with fits
    · simp [holderIn, fits]
    · simpa [holderIn, fits] using ih

theorem nameStack_holding_le (cs : List Claim) : ((nameStack floor cs).filter fun c => c.state == .holding).length ≤ 1 := by
  induction cs with
  | nil => exact Nat.zero_le _
  | cons d ds ih =>
    unfold nameStack
    split_ifs with fits
    · have rest : (nameRest floor d.allowsUndertone ds).filter (fun c => c.state == .holding) = [] :=
        List.filter_eq_nil_iff.mpr fun c mem => by simpa using nameRest_state mem
      rw [List.filter_cons_of_pos rfl, rest]
      exact le_rfl
    · rw [List.filter_cons_of_neg (by simp)]
      exact ih

theorem nameRest_unsought {cs : List Claim} : undertoneIn (nameRest floor false cs) = none := by
  induction cs with
  | nil => rfl
  | cons d ds ih =>
    unfold nameRest
    simp only [Bool.false_and, Bool.false_eq_true, if_false]
    split_ifs <;> simpa [undertoneIn] using ih

theorem nameRest_sought (cs : List Claim) : undertoneIn (nameRest floor true cs) =
    (cs.find? fun d => d.eligible floor && d.duckable).map fun d => { d with state := .undertone } := by
  induction cs with
  | nil => rfl
  | cons d ds ih =>
    unfold nameRest
    rw [List.find?_cons]
    by_cases fits : d.eligible floor = true
    · by_cases duck : d.duckable = true
      · simp [fits, duck, undertoneIn]
      · simp only [Bool.not_eq_true] at duck
        simpa [fits, duck, undertoneIn] using ih
    · simp only [Bool.not_eq_true] at fits
      simpa [fits, undertoneIn] using ih

/-- A named stack under its first eligible claim. -/
theorem nameStack_split {pre rest : List Claim} {c : Claim} (above : ∀ d ∈ pre, d.eligible floor = false)
    (fits : c.eligible floor = true) : nameStack floor (pre ++ c :: rest) =
      (pre.map fun d => { d with state := .locked }) ++ { c with state := .holding } :: nameRest floor c.allowsUndertone rest := by
  induction pre with
  | nil => rw [List.nil_append, nameStack, if_pos fits]; rfl
  | cons d pre ih =>
    rw [List.cons_append, nameStack, if_neg (by simp [above d List.mem_cons_self]),
      ih fun e mem => above e (List.mem_cons_of_mem d mem)]
    rfl

theorem undertoneIn_nameStack {pre rest : List Claim} {c : Claim} (above : ∀ d ∈ pre, d.eligible floor = false)
    (fits : c.eligible floor = true) : undertoneIn (nameStack floor (pre ++ c :: rest)) =
      if c.allowsUndertone then
        (rest.find? fun d => d.eligible floor && d.duckable).map fun d => { d with state := .undertone }
      else none := by
  have locked : (pre.map fun d => ({ d with state := .locked } : Claim)).find? (fun c => c.state == .undertone) = none :=
    List.find?_eq_none.mpr fun e mem => by
      obtain ⟨d, -, rfl⟩ := List.mem_map.mp mem
      simp
  rw [nameStack_split above fits, undertoneIn, List.find?_append, locked, Option.none_or, List.find?_cons]
  cases allows : c.allowsUndertone
  · exact nameRest_unsought
  · exact nameRest_sought rest

end

/-! ### A note is made -/

theorem State.emitNote_noted (s : State) (k : NoteKind) (code subject detail : Nat) :
    (s.emitNote k code subject detail).noted { kind := k, code, subject, detail, time := s.time } := by
  by_cases room : s.notes.queue.length < 32
  · rw [State.noted, State.emitNote_queue room]
    exact .inl (by simp)
  · rw [State.emitNote_lost (not_lt.mp room)]
    exact .inr ⟨not_lt.mp room, by simp⟩

/-! ### Entry to HELD and the resumption -/

theorem State.channelOf_source {s t : State} (owners : ∀ c, (t.channels.get c).owner = (s.channels.get c).owner)
    (same : ∀ c x, (s.channels.get c).owner = some (.source x) → t.channels.get c = s.channels.get c)
    {x c : Fin 16} (own : s.channelOf (.source x) = some c) :
    t.channelOf (.source x) = some c ∧ t.channels.get c = s.channels.get c :=
  ⟨(State.channelOf_congr owners _).trans own, same c x (State.channelOf_owner own)⟩

theorem State.signalSources_own {f : Channel → Channel} (keeps : ∀ ch, (f ch).owner = ch.owner) {s : State} {x c : Fin 16}
    (own : s.channelOf (.source x) = some c) : (s.signalSources f).channels.get c = f (s.channels.get c) := by
  rw [State.signalSources_channel keeps, if_pos ⟨x, own⟩]

@[simp] theorem State.showsTo_channels (s : State) (f : Program → Program) : (s.showsTo f).channels = s.channels := rfl

section
variable (s : State) (r : HoldRecord)

theorem State.enterHeld_rest : (s.enterHeld r).theatre = { s.theatre with state := .held, hold := some r } ∧
    (s.enterHeld r).claims = s.claims ∧ (s.enterHeld r).notes = s.notes ∧ (s.enterHeld r).time = s.time := by
  rw [State.enterHeld_eq]
  obtain ⟨channels, e⟩ := (s.modTheatre fun t => { t with state := .held, hold := some r }).signalSources_only
    Channel.signalPause
  rw [e]
  exact ⟨rfl, rfl, rfl, rfl⟩

theorem State.enterHeld_channel {x c : Fin 16} (own : s.channelOf (.source x) = some c) :
    (s.enterHeld r).channels.get c = (s.channels.get c).signalPause := by
  have owned : (s.modTheatre fun t => { t with state := .held, hold := some r }).channelOf (.source x) = some c :=
    (State.channelOf_congr (fun _ => rfl) _).trans own
  rw [State.enterHeld_eq, State.showsTo_channels, State.signalSources_own Channel.signalPause_owner owned,
    State.modTheatre_channels]

theorem State.enterHeld_plays {q : Fin 64} (kind : (s.programs.get q).kind = .theatre)
    (plays : (s.programs.get q).state = .playing) : ((s.enterHeld r).programs.get q).state = .held := by
  rw [State.enterHeld_programs, State.showsTo, Tab.get_map, if_pos ⟨kind, by simp [plays]⟩, Program.onHold, if_pos plays]

theorem State.resumeShow_rest {r : HoldRecord} (held : s.theatre.hold = some r) (subject : Nat) :
    (s.resumeShow subject).theatre = { s.theatre with state := r.heldFrom, hold := none } ∧
      (s.resumeShow subject).noted { kind := .showState, code := 2, subject, detail := r.heldFrom.code, time := s.time } := by
  rw [State.resumeShow_eq s subject held]
  obtain ⟨channels, e⟩ := (s.modTheatre fun t => { t with state := r.heldFrom, hold := none }).signalSources_only
    Channel.signalResume
  rw [State.emitNote_theatre, e]
  exact ⟨rfl, State.emitNote_noted _ _ _ _ _⟩

theorem State.resumeShow_channel {r : HoldRecord} (held : s.theatre.hold = some r) (subject : Nat) {x c : Fin 16}
    (own : s.channelOf (.source x) = some c) : (s.resumeShow subject).channels.get c = (s.channels.get c).signalResume := by
  have owned : (s.modTheatre fun t => { t with state := r.heldFrom, hold := none }).channelOf (.source x) = some c :=
    (State.channelOf_congr (fun _ => rfl) _).trans own
  rw [State.resumeShow_eq s subject held, State.emitNote_channels, State.showsTo_channels,
    State.signalSources_own Channel.signalResume_owner owned, State.modTheatre_channels]

theorem State.resumeShow_plays {r : HoldRecord} (hold : s.theatre.hold = some r) (subject : Nat) {q : Fin 64}
    (kind : (s.programs.get q).kind = .theatre) (held : (s.programs.get q).state = .held) :
    ((s.resumeShow subject).programs.get q).state = .playing := by
  rw [State.resumeShow_programs s subject hold, State.showsTo, Tab.get_map, if_pos ⟨kind, by simp [held]⟩,
    Program.offHold, if_pos held]
  unfold Program.startDuration
  split <;> rfl

end

theorem State.holdsAt_congr {s t : State} {o : Fin 256} (same : t.stack o = s.stack o) (p : Fin 64) :
    t.holdsAt p o = s.holdsAt p o := by
  simp only [State.holdsAt, State.holder, same]

theorem State.holdsAt_iff (s : State) (p : Fin 64) (o : Fin 256) :
    s.holdsAt p o = true ↔ (s.holder o).map (·.owner) = some (.program p) := by
  unfold State.holdsAt
  cases s.holder o <;> simp

/-! ### The displacement hold -/

section
variable {s m : State} {o : Fin 256} {cs : List Claim}

theorem Renamed.show_iff (named : Renamed s m o cs) (p : Fin 64) :
    ((m.programs.get p).kind = .theatre ↔ (s.programs.get p).kind = .theatre) ∧
      ((m.programs.get p).state = .free ↔ (s.programs.get p).state = .free) := by
  have goes := (named.programs p).named
  exact ⟨by rw [goes.kind], goes.free⟩

theorem Renamed.isShow_iff (named : Renamed s m o cs) (c : Option Claim) : m.isShow c = true ↔
    ∃ p, c.map (·.owner) = some (.program p) ∧ (s.programs.get p).kind = .theatre ∧ (s.programs.get p).state ≠ .free := by
  rw [State.isShow_iff]
  exact exists_congr fun p => and_congr_right fun _ => and_congr (named.show_iff p).1 (named.show_iff p).2.not

/-- A show that is not held is displaced after a naming's gather tests as it was before them. -/
theorem Renamed.displacing_iff (named : Renamed s m o cs) (free : s.theatre.state ≠ .held) (old new : Option Claim) (p : Fin 64)
    (d : Claim) : m.displacing old new p d ↔ s.displacing old new p d := by
  have goes := named.programs p
  have state : ((m.programs.get p).state = .gathering ∨ (m.programs.get p).state = .chiming ∨
      (m.programs.get p).state = .playing) ↔ ((s.programs.get p).state = .gathering ∨
        (s.programs.get p).state = .chiming ∨ (s.programs.get p).state = .playing) := by
    by_cases waits : (s.programs.get p).state = .gathering
    · refine iff_of_true ?_ (.inl waits)
      rcases goes.state waits with e | e | e | e
      · exact .inl e
      · exact .inr (.inl e)
      · exact .inr (.inr e)
      · exact absurd (waits.symm.trans (named.playing free p e)) nofun
    · rw [goes.rest waits]
  unfold State.displacing
  rw [goes.kind, goes.threshold, state]

theorem Renamed.holdsAt (named : Renamed s m o cs) (p : Fin 64) (x : Fin 256) : m.holdsAt p x = true ↔
    if x = o then (s.newHolder o cs).map (·.owner) = some (.program p) else s.holdsAt p x = true := by
  split_ifs with here
  · rw [State.holdsAt_iff, State.holder, named.stack, if_pos here]
  · rw [State.holdsAt_congr (s := s) (by rw [named.stack, if_neg here])]

end

/-- The hold record that a displacement at an outlet makes (R161). -/
def State.displacement (s : State) (p : Fin 64) (o : Fin 256) : HoldRecord :=
  { byHost := false, heldFrom := s.theatre.state, autoResume := s.lists.root.autoResume
    outlets := s.showPrograms.map fun q => (q, (allFin 256).filter fun x => s.holdsAt q x || (q == p && x == o)) }

theorem State.displaced_of {s : State} (free : s.theatre.state ≠ .held) (p : Fin 64) (o : Fin 256) :
    s.displaced p o = (s.enterHeld (s.displacement p o)).emitNote .showState 1 p.val
      (o.val + 65536 * s.theatre.state.code) := by
  unfold State.displaced
  exact if_neg (by simpa using free)

/-- A naming that displaces a show that is not held. -/
theorem State.restack_displaces {s : State} {o : Fin 256} {cs : List Claim} {p : Fin 64} {d : Claim}
    (free : s.theatre.state ≠ .held) (displaces : s.displacing (s.holder o) (s.newHolder o cs) p d)
    (other : d.owner ≠ .program p) : s.restack o cs =
      ((s.renamed o cs).enterHeld ((s.renamed o cs).displacement p o)).emitNote .showState 1 p.val
        (o.val + 65536 * s.theatre.state.code) := by
  have named := s.renamed_of o cs
  have shown := displaces
  obtain ⟨owned, new, kind, -, state⟩ := displaces
  have moved : (s.holder o).map (·.owner) ≠ (s.newHolder o cs).map (·.owner) := by
    rw [owned, new]
    simpa using other.symm
  have reported : (s.renamed o cs).reportDisplaced o (s.holder o) (s.newHolder o cs) =
      ((s.renamed o cs).enterHeld ((s.renamed o cs).displacement p o)).emitNote .showState 1 p.val
        (o.val + 65536 * s.theatre.state.code) := by
    rw [State.reportDisplaced_of ((named.displacing_iff free _ _ p d).mpr shown),
      State.displaced_of (by rw [named.theatre]; exact free), named.theatre]
  rw [State.restack_moved moved, reported]
  obtain ⟨theatre, claims, -, -⟩ := (s.renamed o cs).enterHeld_rest ((s.renamed o cs).displacement p o)
  -- The displaced program does not hold at the outlet any more, so the resume test is not met.
  have unmet (r : HoldRecord) (held : (((s.renamed o cs).enterHeld ((s.renamed o cs).displacement p o)).emitNote .showState 1
      p.val (o.val + 65536 * s.theatre.state.code)).theatre.hold = some r) : ¬State.resumes (((s.renamed o cs).enterHeld
        ((s.renamed o cs).displacement p o)).emitNote .showState 1 p.val (o.val + 65536 * s.theatre.state.code)) r := by
    rintro ⟨-, -, -, all⟩
    rw [State.emitNote_theatre, theatre] at held
    obtain rfl := Option.some.inj held
    have show_ : p ∈ (s.renamed o cs).showPrograms := by
      rw [State.mem_showPrograms]
      refine ⟨(named.show_iff p).1.mpr kind, (named.show_iff p).2.not.mpr ?_⟩
      rcases state with e | e | e <;> simp [e]
    have holds := all _ (List.mem_map_of_mem show_) o (by simp)
    rw [State.holdsAt_congr (s := s.renamed o cs) (by simp [State.stack, claims]), named.holdsAt, if_pos rfl, new] at holds
    exact other (by simpa using holds)
  dsimp only
  split_ifs
  · exact State.resumeTest_not unmet
  · rfl

/-- A naming that displaces no show that is not held leaves the show alone. -/
theorem State.restack_theatre_free {s : State} {o : Fin 256} {cs : List Claim} (free : s.theatre.state ≠ .held)
    (none : ∀ p d, ¬(s.displacing (s.holder o) (s.newHolder o cs) p d ∧ d.owner ≠ .program p)) :
    (s.restack o cs).theatre = s.theatre := by
  have named := s.renamed_of o cs
  by_cases moved : (s.holder o).map (·.owner) ≠ (s.newHolder o cs).map (·.owner)
  · have silent (p : Fin 64) (d : Claim) : ¬(s.renamed o cs).displacing (s.holder o) (s.newHolder o cs) p d := fun displaces => by
      rw [named.displacing_iff free] at displaces
      refine none p d ⟨displaces, fun same => moved ?_⟩
      rw [displaces.1, displaces.2.1, Option.map_some, same]
    have unmet : (s.renamed o cs).resumeTest = s.renamed o cs := State.resumeTest_not fun r _ met =>
      free (named.theatre ▸ met.1)
    rw [State.restack_moved moved, State.reportDisplaced_not silent]
    dsimp only
    rw [unmet, ite_self, named.theatre]
  · rw [State.restack_same (not_ne_iff.mp moved)]
    rfl

/-- A naming while the show is held: the resume test where a SHOW program's hold changes, and nothing else of the show. -/
theorem State.restack_held_show {s : State} {o : Fin 256} {cs : List Claim} {r : HoldRecord} (held : s.theatre.state = .held)
    (hold : s.theatre.hold = some r) :
    let shows (c : Option Claim) : Prop := ∃ p, c.map (·.owner) = some (.program p) ∧
      (s.programs.get p).kind = .theatre ∧ (s.programs.get p).state ≠ .free
    let moved : Prop := (s.holder o).map (·.owner) ≠ (s.newHolder o cs).map (·.owner)
    let met : Prop := moved ∧ (shows (s.holder o) ∨ shows (s.newHolder o cs)) ∧ (s.renamed o cs).resumes r
    (¬met → (s.restack o cs).theatre = s.theatre) ∧ (met → s.restack o cs = (s.renamed o cs).resumeShow 0) := by
  intro shows moved met
  have named := s.renamed_of o cs
  have reported : (s.renamed o cs).reportDisplaced o (s.holder o) (s.newHolder o cs) = s.renamed o cs := by
    by_cases displaces : ∃ p d, (s.renamed o cs).displacing (s.holder o) (s.newHolder o cs) p d
    · obtain ⟨p, d, displaces⟩ := displaces
      rw [State.reportDisplaced_of displaces, State.displaced, named.theatre, held]
      rfl
    · push Not at displaces
      exact State.reportDisplaced_not displaces
  have tests : ((s.renamed o cs).isShow (s.holder o) || (s.renamed o cs).isShow (s.newHolder o cs)) = true ↔
      (shows (s.holder o) ∨ shows (s.newHolder o cs)) := by
    rw [Bool.or_eq_true, named.isShow_iff, named.isShow_iff]
  have hold' : (s.renamed o cs).theatre.hold = some r := named.theatre ▸ hold
  refine ⟨fun unmet => ?_, fun ⟨changed, show_, met⟩ => ?_⟩
  · by_cases changed : moved
    · rw [State.restack_moved changed, reported]
      dsimp only
      split_ifs with show_
      · rw [State.resumeTest_not fun r' other met => unmet ⟨changed, tests.mp show_, ?_⟩, named.theatre]
        rw [hold'] at other
        exact Option.some.inj other ▸ met
      · exact named.theatre
    · rw [State.restack_same (not_ne_iff.mp changed)]
      rfl
  · rw [State.restack_moved changed, reported]
    dsimp only
    rw [if_pos (tests.mpr show_), State.resumeTest_of hold' met]

/-! ### The end of a program of the hold set -/

@[simp] theorem State.requestReturn_theatre (s : State) (l : ListId) (r : Return) :
    (s.requestReturn l r).theatre = s.theatre := by
  obtain ⟨lists, e⟩ := s.requestReturn_only l r
  rw [e]

@[simp] theorem State.reportPageEnd_theatre (s : State) (p : Fin 64) (src : Source) :
    (s.reportPageEnd p src).theatre = s.theatre := by
  unfold State.reportPageEnd
  split
  · dsimp only
    split_ifs <;> rfl
  · rfl

theorem State.releaseVoice_theatre (s : State) (u : VoiceUser) : (s.releaseVoice u).theatre = s.theatre := by
  unfold State.releaseVoice
  split
  · unfold State.leaveOwing
    dsimp only
    split_ifs <;> rfl
  · rfl

theorem State.releaseChannel_theatre (s : State) (w : ChanOwner) : (s.releaseChannel w).theatre = s.theatre := by
  unfold State.releaseChannel State.enterEnded State.freeIfDone State.discardTransfer
  dsimp only
  repeat' split
  all_goals rfl

theorem State.removeAll_not {s : State} {w : Owner} (absent : ∀ o, hasOwner w (s.stack o) = false) : s.removeAll w = s :=
  State.forAll_fixed fun o _ => State.removeClaim_not (absent o)

/-- A program without claims lets go of its voice and its channel, then of its slot and its place in the hold set. -/
theorem State.endProgram_show {s : State} {p : Fin 64} (code : Nat) (busy : (s.programs.get p).state ≠ .free)
    (unclaimed : ∀ o, hasOwner (.program p) (s.stack o) = false) :
    ∃ a : State, (s.endProgram p code).theatre = (a.leaveHoldSet p).theatre ∧ a.theatre = s.theatre ∧
      ∀ q o, a.holdsAt q o = s.holdsAt q o := by
  obtain ⟨a, b, ha, hb, e⟩ := State.endProgram_eq busy code
  rw [State.removeAll_not unclaimed] at ha
  refine ⟨a.modProgram p fun pr => { reservation := pr.reservation }, ?_, ?_, fun q o => State.holdsAt_congr ?_ q⟩
  · rw [e, ← hb]
    split <;> simp
  · rw [State.modProgram_theatre, ha, State.releaseChannel_theatre, State.releaseVoice_theatre]
  · rw [ha]
    exact (State.modProgram_seats (State.releaseChannel_seats (State.releaseVoice_seats (Seats.refl _) _) _) _ _).stack_eq o

theorem State.leaveHoldSet_theatre {s : State} {p : Fin 64} {r : HoldRecord} {os : List (Fin 256)}
    (held : s.theatre.state = .held) (hold : s.theatre.hold = some r) (mem : (p, os) ∈ r.outlets) :
    let left := r.outlets.filter fun x => x.1 != p
    let met : Prop := r.byHost = false ∧ r.autoResume = true ∧ ∀ x ∈ left, ∀ y ∈ x.2, s.holdsAt x.1 y = true
    (met → (s.leaveHoldSet p).theatre = { s.theatre with state := r.heldFrom, hold := none }) ∧
      (¬met → (s.leaveHoldSet p).theatre = { s.theatre with hold := some { r with outlets := left } }) := by
  intro left met
  let t := s.modTheatre fun t => { t with hold := some { r with outlets := left } }
  have leaves : s.leaveHoldSet p = t.resumeTest := by
    unfold State.leaveHoldSet
    rw [hold]
    exact if_pos (List.any_eq_true.mpr ⟨_, mem, by simp⟩)
  have hold' : t.theatre.hold = some { r with outlets := left } := rfl
  have resumes : t.resumes { r with outlets := left } ↔ met :=
    and_iff_right_of_imp fun _ => held
  rw [leaves]
  refine ⟨fun test => ?_, fun test => ?_⟩
  · rw [State.resumeTest_of hold' (resumes.mpr test), (t.resumeShow_rest hold' 0).1]
    rfl
  · rw [State.resumeTest_not fun r' other test' => test (resumes.mp (Option.some.inj (hold'.symm.trans other) ▸ test'))]
    rfl

end Sys2Proof.Machine

namespace Sys2Proof.Machine

/-- The hold set of a displacement: where each SHOW program held before it. -/
theorem Renamed.displacement {s m : State} {o : Fin 256} {cs : List Claim} (named : Renamed s m o cs) {d : Claim}
    (new : s.newHolder o cs = some d) (p : Fin 64) :
    (∀ q os, (q, os) ∈ (m.displacement p o).outlets → (s.programs.get q).kind = .theatre ∧ (s.programs.get q).state ≠ .free ∧
      ∀ x, x ∈ os ↔ (if x = o then q = p ∨ d.owner = .program q else s.holdsAt q x = true)) ∧
    ∀ q, (s.programs.get q).kind = .theatre → (s.programs.get q).state ≠ .free → ∃ os, (q, os) ∈ (m.displacement p o).outlets := by
  have show_ (q : Fin 64) : q ∈ m.showPrograms ↔ (s.programs.get q).kind = .theatre ∧ (s.programs.get q).state ≠ .free := by
    rw [State.mem_showPrograms]
    exact and_congr (named.show_iff q).1 (named.show_iff q).2.not
  refine ⟨fun q os mem => ?_, fun q kind busy => ⟨_, List.mem_map_of_mem ((show_ q).mpr ⟨kind, busy⟩)⟩⟩
  obtain ⟨q', here, e⟩ := List.mem_map.mp mem
  obtain ⟨rfl, rfl⟩ := Prod.mk.inj e
  obtain ⟨kind, busy⟩ := (show_ q').mp here
  refine ⟨kind, busy, fun x => ?_⟩
  simp only [List.mem_filter, mem_allFin, true_and, Bool.or_eq_true, Bool.and_eq_true, beq_iff_eq, named.holdsAt]
  by_cases same : x = o
  · simp only [same, if_true, and_true, new, Option.map_some, Option.some.injEq]
    exact or_comm
  · simp [same]

end Sys2Proof.Machine

/-- Settles O32: the named stack claim by claim; then the show at a naming, displaced, left alone or resumed; then the end
of a program of the hold set. -/
theorem stackNaming : Obligations.StackNaming := by
  refine ⟨fun floor cs => ?_, fun s o cs => ?_, fun s p code r os => ?_⟩
  · refine ⟨nameStack_plain floor cs, holderIn_nameStack cs, nameStack_locked, nameStack_holding_le cs, ?_⟩
    rintro pre rest c rfl above fits
    exact undertoneIn_nameStack above fits
  · intro t new displaces show_
    have named := s.renamed_of o cs
    have displaces_iff (p : Fin 64) (d : Claim) :
        displaces p d ↔ s.displacing (s.holder o) (s.newHolder o cs) p d ∧ d.owner ≠ .program p := by
      simp only [displaces, State.displacing, new]
      tauto
    have plain (q : Fin 64) (other : (s.programs.get q).state ≠ .gathering) :
        ((s.renamed o cs).programs.get q).kind = (s.programs.get q).kind ∧
          ((s.renamed o cs).programs.get q).state = (s.programs.get q).state := by
      rw [(named.programs q).rest other]
      exact ⟨rfl, rfl⟩
    refine ⟨fun p d free displaced => ?_, fun free none => ?_, fun r held hold => ?_⟩
    · obtain ⟨displacing, other⟩ := (displaces_iff p d).mp displaced
      have ran : t = _ := State.restack_displaces free displacing other
      obtain ⟨theatre, -, -, time⟩ := (s.renamed o cs).enterHeld_rest ((s.renamed o cs).displacement p o)
      rw [ran]
      refine ⟨⟨(s.renamed o cs).displacement p o, ?_, rfl, ?_, ?_, named.displacement displacing.2.1 p⟩, fun q kind plays => ?_,
        fun x c own => ?_, ?_⟩
      · rw [State.emitNote_theatre, theatre, named.theatre]
      · exact congrArg Theatre.state named.theatre
      · exact congrArg (fun l : ListEngine => l.root.autoResume) named.lists
      · rw [State.emitNote_programs]
        obtain ⟨kind', state'⟩ := plain q (by simp [plays])
        exact State.enterHeld_plays _ _ (kind'.trans kind) (state'.trans plays)
      · obtain ⟨own', same⟩ := State.channelOf_source named.owners named.sources own
        rw [State.emitNote_channels, State.enterHeld_channel _ _ own', same]
      · have made := State.emitNote_noted ((s.renamed o cs).enterHeld ((s.renamed o cs).displacement p o)) .showState 1 p.val
          (o.val + 65536 * s.theatre.state.code)
        rw [time, named.time] at made
        exact made
    · exact State.restack_theatre_free free fun p d both => none p d ((displaces_iff p d).mpr both)
    · intro met
      obtain ⟨unmet, resumed⟩ := State.restack_held_show (o := o) (cs := cs) held hold
      have stack (x : Fin 256) : t.stack x = (s.renamed o cs).stack x := (s.restack_stack o cs x).trans (named.stack x).symm
      have test : met ↔ _ := and_congr_right fun _ => and_congr_right fun _ => show
          (r.byHost = false ∧ r.autoResume = true ∧ ∀ x ∈ r.outlets, ∀ y ∈ x.2, t.holdsAt x.1 y = true) ↔
            (s.renamed o cs).resumes r by
        simp only [State.resumes, named.theatre, held, true_and, fun x y => State.holdsAt_congr (stack y) x]
      refine ⟨fun not => unmet (test.not.mp not), fun yes => ?_⟩
      have hold' : (s.renamed o cs).theatre.hold = some r := named.theatre ▸ hold
      obtain ⟨theatre, noted⟩ := (s.renamed o cs).resumeShow_rest hold' 0
      have ran : t = _ := resumed (test.mp yes)
      rw [ran]
      refine ⟨theatre.trans (by rw [named.theatre]), fun q kind held => ?_, fun x c own => ?_, named.time ▸ noted⟩
      · obtain ⟨kind', state'⟩ := plain q (by simp [held])
        exact State.resumeShow_plays _ hold' 0 (kind'.trans kind) (state'.trans held)
      · obtain ⟨own', same⟩ := State.channelOf_source named.owners named.sources own
        rw [State.resumeShow_channel _ hold' 0 own', same]
  · intro left met busy unclaimed held hold mem
    obtain ⟨a, ends, theatre, holds⟩ := State.endProgram_show code busy unclaimed
    have set := State.leaveHoldSet_theatre (s := a) (theatre ▸ held) (theatre ▸ hold) mem
    simp only [holds] at set
    rw [theatre] at set
    rw [ends]
    exact set
end

section
/-! PROOF. Program 59, the contact microphone's (R151): where it starts it plays, and has a claim at every outlet that hears
it and whose stack has room. -/

open Sys2Proof Sys2Proof.Machine

namespace Sys2Proof.Machine

/-! ### A program beside others' namings -/

/-- A program that neither gathers nor belongs to the show stands, but for its count of outlets held. -/
def Program.Counted (x y : Program) : Prop :=
  x.state ≠ .gathering → x.kind ≠ .theatre → ∃ n, y = { x with held := n }

theorem Program.Counted.refl (x : Program) : x.Counted x := fun _ _ => ⟨x.held, rfl⟩

theorem Program.Counted.trans {x y z : Program} (h : x.Counted y) (k : y.Counted z) : x.Counted z := fun state kind => by
  obtain ⟨n, rfl⟩ := h state kind
  exact k state kind

theorem Program.Named.counted {x y : Program} (h : x.Named y) : x.Counted y := fun state kind =>
  ⟨x.held, h.settled state kind⟩

theorem State.restack_counted (s : State) (o : Fin 256) (cs : List Claim) (p : Fin 64) :
    (s.programs.get p).Counted ((s.restack o cs).programs.get p) := (s.restack_kept o cs p).2.2.2

theorem State.removeAll_counted (s : State) (w : Owner) (p : Fin 64) :
    (s.programs.get p).Counted ((s.removeAll w).programs.get p) := by
  unfold State.removeAll
  generalize allFin 256 = os
  induction os generalizing s with
  | nil => exact Program.Counted.refl _
  | cons o os ih =>
    rw [State.forAll_cons]
    refine Program.Counted.trans ?_ (ih _)
    by_cases here : hasOwner w (s.stack o) = true
    · rw [State.removeClaim_of here]
      exact s.restack_counted o _ p
    · rw [State.removeClaim_not (by simpa using here)]
      exact Program.Counted.refl _

theorem State.releaseVoice_programs (s : State) (u : VoiceUser) : (s.releaseVoice u).programs = s.programs := by
  unfold State.releaseVoice
  split
  · unfold State.leaveOwing
    dsimp only
    split_ifs <;> rfl
  · rfl

theorem State.releaseChannel_programs (s : State) (w : ChanOwner) : (s.releaseChannel w).programs = s.programs := by
  unfold State.releaseChannel State.enterEnded State.freeIfDone State.discardTransfer
  dsimp only
  repeat' split
  all_goals rfl

theorem State.leaveHoldSet_named (s : State) (q p : Fin 64) : (s.programs.get p).Named ((s.leaveHoldSet q).programs.get p) := by
  unfold State.leaveHoldSet
  split
  · split_ifs
    · exact State.resumeTest_named (s.modTheatre _) p
    · exact Program.Named.refl _
  · exact Program.Named.refl _

theorem State.endProgram_counted (s : State) {p q : Fin 64} (code : Nat) (other : p ≠ q) :
    (s.programs.get p).Counted ((s.endProgram q code).programs.get p) := by
  by_cases busy : (s.programs.get q).state = .free
  · unfold State.endProgram
    rw [if_pos (by simp [busy])]
    exact Program.Counted.refl _
  · obtain ⟨a, b, ha, hb, e⟩ := State.endProgram_eq busy code
    have programs : (s.endProgram q code).programs = b.programs := by
      rw [e]
      split
      · exact (State.requestReturn_rest _ _ _).1
      · exact (State.reportPageEnd_rest _ _ _).1
    have before : (s.programs.get p).Counted (a.programs.get p) := by
      rw [ha, State.releaseChannel_programs, State.releaseVoice_programs]
      exact s.removeAll_counted _ p
    have left := (State.leaveHoldSet_named (a.modProgram q fun pr => { reservation := pr.reservation }) q p).counted
    rw [State.modProgram_programs, Tab.get_modify_ne _ other] at left
    rw [programs, hb]
    exact before.trans left

theorem State.evicted_counted (s : State) {w : Owner} {p : Fin 64} (other : w ≠ .program p) :
    (s.programs.get p).Counted ((s.evicted w).programs.get p) := by
  unfold State.evicted
  split
  · next q =>
    have ne : p ≠ q := fun same => other (same ▸ rfl)
    have told : (s.modProgram q fun pr => { pr with admitted := pr.admitted - 1 }).programs.get p = s.programs.get p := by
      rw [State.modProgram_programs, Tab.get_modify_ne _ ne]
    dsimp only
    split_ifs
    · exact told ▸ State.endProgram_counted _ _ ne
    · exact told ▸ State.endProgram_counted _ _ ne
    · exact told ▸ ((State.gatherTest_gathers _ q).programs p).named.counted
    · exact Program.Counted.refl _
  · exact Program.Counted.refl _

/-! ### Placement of a high program's claim -/

/-- Room for a claim of a priority: a place, or a last claim below it (R51, R55). -/
def Room (priority : Nat) (cs : List Claim) : Prop :=
  cs.length < 8 ∨ (cs.length = 8 ∧ ∃ last, cs.getLast? = some last ∧ last.priority < priority)

/-- A stack from which claims may have gone has room where it had. -/
theorem Room.fewer {n : Nat} {cs ds : List Claim} (fewer : (cs.map Claim.plain).Sublist (ds.map Claim.plain))
    (room : Room n ds) : Room n cs := by
  have length := fewer.length_le
  simp only [List.length_map] at length
  rcases room with short | ⟨full, last, mem, low⟩
  · exact .inl (by omega)
  · by_cases short : cs.length < 8
    · exact .inl short
    · have same : cs.map Claim.plain = ds.map Claim.plain := fewer.eq_of_length (by simp; omega)
      have ends : (cs.map Claim.plain).getLast? = some last.plain := by
        rw [same, List.getLast?_map, mem]
        rfl
      rw [List.getLast?_map] at ends
      obtain ⟨x, mem', plain⟩ := Option.map_eq_some_iff.mp ends
      have priority : x.plain.priority = last.plain.priority := by rw [plain]
      change x.priority = last.priority at priority
      exact .inr ⟨by omega, x, mem', by omega⟩

theorem State.restack_high (s : State) (o : Fin 256) {c : Claim} {cs : List Claim} {g : Fin 64} (own : c.owner = .program g)
    (absent : hasOwner (.program g) cs = false) : ∃ ds, ownClaims (.program g) ds = [c.plain] ∧
      Aside g (s.setStack o ds) (s.restack o (insertClaim c cs)) :=
  ⟨_, by rw [ownClaims_nameStack]; exact ownClaims_insert own absent, State.restack_reports o _⟩

/-- The placement of a claim of program 59 or above: put into its stack, beside which nothing of that program changes, or
refused for want of room or of need. -/
theorem State.place_high (s : State) {c : Claim} (o : Fin 256) {g : Fin 64} (own : c.owner = .program g) (high : 59 ≤ g.val)
    (takes : (s.outlets.get o).kind.takesClaims = true) :
    (s.place c o = (false, s) ∧ (Room c.priority (s.stack o) → hasOwner (.program g) (s.stack o) = true)) ∨
      ∃ cs, ownClaims (.program g) cs = [c.plain] ∧ Aside g (s.setStack o cs) (s.place c o).2 := by
  by_cases absent : hasOwner (.program g) (s.stack o) = false
  · have absent' : hasOwner c.owner (s.stack o) = false := own ▸ absent
    by_cases short : (s.stack o).length < 8
    · right
      rw [State.place_room takes absent' short]
      exact s.restack_high o own absent
    · obtain ⟨front, last, split⟩ : ∃ front last, s.stack o = front ++ [last] :=
        ⟨_, _, (List.dropLast_append_getLast (List.ne_nil_of_length_pos (by omega))).symm⟩
      rw [State.place_full takes absent' split (by omega)]
      split_ifs with low
      · right
        have front_absent : hasOwner (.program g) front = false :=
          hasOwner_sublist (List.sublist_append_left front [last]) (split ▸ absent)
        obtain ⟨ds, claims, act⟩ := s.restack_high o own front_absent
        exact ⟨ds, claims, act.trans (State.evicted_aside (Aside.refl g _) high last.owner)⟩
      · left
        refine ⟨rfl, fun room => ?_⟩
        rcases room with room | ⟨-, last', mem, below⟩
        · exact absurd room short
        · rw [split, List.getLast?_append] at mem
          obtain rfl : last = last' := by simpa using mem
          exact absurd below low
  · left
    rw [State.place_not (.inr (by rw [own]; simpa using absent))]
    exact ⟨rfl, fun _ => by simpa using absent⟩

theorem State.place_counted (s : State) {c : Claim} (o : Fin 256) {g : Fin 64} (own : c.owner = .program g) :
    (s.programs.get g).Counted ((s.place c o).2.programs.get g) := by
  unfold State.place
  dsimp only
  split_ifs with not short
  · exact Program.Counted.refl _
  · exact s.restack_counted o _ g
  · split
    · next last mem =>
      split_ifs
      · refine (s.restack_counted o _ g).trans (State.evicted_counted _ fun same => not ?_)
        simp only [Bool.or_eq_true, hasOwner, List.any_eq_true]
        exact .inr ⟨last, List.mem_of_getLast? mem, by simp [same, own]⟩
      · exact Program.Counted.refl _
    · exact Program.Counted.refl _

/-- What the placements of a high program's claim have done after some outlets. -/
structure Seated (g : Fin 64) (c : Claim) (b s : State) (done : List (Fin 256)) : Prop where
  outlets : s.outlets = b.outlets
  program : (b.programs.get g).Counted (s.programs.get g)
  fewer : ∀ o ∉ done, ((s.stack o).map Claim.plain).Sublist ((b.stack o).map Claim.plain)
  placed : ∀ o ∈ done, (b.outlets.get o).kind.takesClaims = true → Room c.priority (b.stack o) →
    hasOwner (.program g) (s.stack o) = true

theorem Seated.step {g : Fin 64} {c : Claim} {b s : State} {done : List (Fin 256)} (h : Seated g c b s done)
    (own : c.owner = .program g) (high : 59 ≤ g.val) {o : Fin 256} (new : o ∉ done) :
    Seated g c b (s.place c o).2 (o :: done) := by
  have outlets : (s.place c o).2.outlets = s.outlets := by
    have fits : s.ShowsYield → s.ShowsYield → c.fits s.programs := fun _ y => Claim.fits_high y own high
    exact (State.place_quiet (Quiet.refl s) c o fits).outlets
  have program := h.program.trans (s.place_counted o own)
  by_cases takes : (s.outlets.get o).kind.takesClaims = true
  · rcases s.place_high o own high takes with ⟨e, room⟩ | ⟨cs, claims, act⟩
    · rw [e] at outlets program ⊢
      refine ⟨h.outlets, program, fun x out => h.fewer x fun mem => out (List.mem_cons_of_mem o mem), fun x mem t r => ?_⟩
      rcases List.mem_cons.mp mem with rfl | mem
      · exact room (r.fewer (h.fewer x new))
      · exact h.placed x mem t r
    · refine ⟨outlets.trans h.outlets, program, fun x out => ?_, fun x mem t r => ?_⟩
      · have apart : x ≠ o := fun same => out (same ▸ List.mem_cons_self)
        have sub := act.fewer x
        rw [State.setStack_stack, if_neg apart] at sub
        exact sub.trans (h.fewer x fun mem => out (List.mem_cons_of_mem o mem))
      · rw [hasOwner_ownClaims, act.own x, State.setStack_stack]
        split_ifs with same
        · rw [claims]
          rfl
        · rw [← hasOwner_ownClaims]
          exact h.placed x ((List.mem_cons.mp mem).resolve_left same) t r
  · rw [State.place_not (.inl (by simpa using takes))] at outlets program ⊢
    refine ⟨h.outlets, program, fun x out => h.fewer x fun mem => out (List.mem_cons_of_mem o mem), fun x mem t r => ?_⟩
    rcases List.mem_cons.mp mem with rfl | mem
    · rw [h.outlets] at takes
      exact absurd t takes
    · exact h.placed x mem t r

/-- The placements of a claim where it is always tried. -/
theorem State.placeAll_always (c : Claim) (os : List (Fin 256)) (s : State) :
    (s.placeAll c (fun _ _ => true) os).2 = s.forAll os fun o s => (s.place c o).2 := by
  suffices all : ∀ n, (os.foldl (fun acc o =>
      if true then (acc.1 + (if (acc.2.place c o).1 then 1 else 0), (acc.2.place c o).2) else acc) (n, s)).2 =
        s.forAll os fun o s => (s.place c o).2 from all 0
  induction os generalizing s with
  | nil => exact fun _ => rfl
  | cons o os ih => exact fun n => ih _ _

theorem Seated.loop {g : Fin 64} {c : Claim} {b s : State} {done : List (Fin 256)} (h : Seated g c b s done)
    (own : c.owner = .program g) (high : 59 ≤ g.val) {os : List (Fin 256)} (once : os.Nodup) (new : ∀ o ∈ os, o ∉ done) :
    ∃ all, (∀ o ∈ os, o ∈ all) ∧ (∀ o ∈ done, o ∈ all) ∧ Seated g c b (s.forAll os fun o s => (s.place c o).2) all := by
  induction os generalizing s done with
  | nil => exact ⟨done, nofun, fun _ => id, h⟩
  | cons o os ih =>
    obtain ⟨apart, once⟩ := List.nodup_cons.mp once
    obtain ⟨all, here, before, seated⟩ := ih (h.step own high (new o List.mem_cons_self)) once fun x mem => by
      rw [List.mem_cons, not_or]
      exact ⟨fun same => apart (same ▸ mem), new x (List.mem_cons_of_mem o mem)⟩
    refine ⟨all, fun x mem => ?_, fun x mem => before x (List.mem_cons_of_mem o mem), seated⟩
    rcases List.mem_cons.mp mem with rfl | mem
    · exact before x List.mem_cons_self
    · exact here x mem

/-! ### The start of program 59 -/

/-- Program 59 may start (R151). -/
def State.micOpens (s : State) : Prop :=
  s.micEnabled = true ∧ (s.contacts.get 3).closed = true ∧ (s.programs.get 59).state = .free ∧
    ∃ i, s.inlets.get i = .contactMic

theorem State.contactMic_none_iff (s : State) : s.contactMic = none ↔ ∀ i, s.inlets.get i ≠ .contactMic := by
  simp [State.contactMic]

theorem State.startMic_not {s : State} (shut : ¬s.micOpens) : s.startMic = s := by
  unfold State.startMic
  split
  · next i found =>
    refine if_neg fun test => shut ?_
    simp only [Bool.and_eq_true, beq_iff_eq] at test
    exact ⟨test.2, test.1.2, test.1.1, i, by simpa using List.find?_some found⟩
  · rfl

/-- The program that starts in slot 59. -/
structure MicStarted (s t : State) (i : Fin 256) : Prop where
  state : (t.programs.get 59).state = .playing
  kind : (t.programs.get 59).kind = .contactMic
  priority : (t.programs.get 59).priority = 11
  source : (t.programs.get 59).source = .inlet i
  claims : ∀ o, (s.outlets.get o).kind ∈ [.cabinLoop, .publicSpace, .crewArea, .theatre] → Room 11 (s.stack o) →
    hasOwner (.program 59) (t.stack o) = true

theorem OutletKind.hearsMic_iff (k : OutletKind) : k.hearsMic = true ↔ k ∈ [.cabinLoop, .publicSpace, .crewArea, .theatre] := by
  cases k <;> simp [OutletKind.hearsMic]

theorem OutletKind.hearsMic_takes {k : OutletKind} (hears : k.hearsMic = true) : k.takesClaims = true := by
  cases k <;> simp_all [OutletKind.hearsMic, OutletKind.takesClaims]

theorem Room.issued {s t : State} (issued : Issued s t) {n : Nat} {o : Fin 256} (room : Room n (s.stack o)) :
    Room n (t.stack o) := by
  obtain ⟨f, e⟩ := issued.stack o
  rw [e]
  rcases room with short | ⟨full, last, mem, low⟩
  · exact .inl (by simpa using short)
  · exact .inr ⟨by simpa using full, { last with arrival := f last.arrival }, by simp [mem], low⟩

/-- Slot 59 as its program starts on an inlet, before its placements. -/
def State.micBegun (i : Fin 256) (s : State) : State :=
  s.issueArrival.2.modProgram micSlot fun pr =>
    { pr with state := .playing, kind := .contactMic, source := .inlet i, priority := 11, gain := 4096
              arrival := s.issueArrival.1, targets := s.issueArrival.2.outlets.indices fun o => o.kind.hearsMic }

/-- Slot 59 with its placements made. -/
def State.micPlaced (i : Fin 256) (s : State) : State :=
  (s.micBegun i).forAll (s.issueArrival.2.outlets.indices fun o => o.kind.hearsMic) fun o t =>
    (t.place (micClaim s.issueArrival.1) o).2

theorem State.startMic_of {s : State} {i : Fin 256} (opens : s.micOpens) (found : s.contactMic = some i) :
    ∃ n, s.startMic = (s.micPlaced i).modProgram micSlot fun pr => { pr with admitted := n } := by
  obtain ⟨enabled, closed, free, -⟩ := opens
  have free' : (s.programs.get micSlot).state = .free := free
  unfold State.startMic
  rw [found]
  dsimp only
  rw [if_pos (by simp [free', closed, enabled]), State.placeAll_always]
  exact ⟨_, rfl⟩

theorem State.startMic_cases (s : State) : s.startMic = s ∨ ∃ i n, s.startMic =
    (s.micPlaced i).modProgram micSlot fun pr => { pr with admitted := n } := by
  by_cases opens : s.micOpens
  · cases found : s.contactMic with
    | none =>
      obtain ⟨-, -, -, i, mic⟩ := opens
      exact absurd mic (s.contactMic_none_iff.mp found i)
    | some i =>
      obtain ⟨n, e⟩ := State.startMic_of opens found
      exact .inr ⟨i, n, e⟩
  · exact .inl (State.startMic_not opens)

theorem State.startMic_started {s : State} {i : Fin 256} (opens : s.micOpens) (found : s.contactMic = some i) :
    MicStarted s s.startMic i := by
  have issued := s.issueArrival_issued.1
  obtain ⟨n, ran⟩ := State.startMic_of opens found
  have outlets : s.issueArrival.2.outlets = s.outlets := (State.issueArrival_quiet (Quiet.refl s)).outlets
  have start : Seated micSlot (micClaim s.issueArrival.1) (s.micBegun i) (s.micBegun i) [] :=
    ⟨rfl, Program.Counted.refl _, fun _ _ => List.Sublist.refl _, nofun⟩
  obtain ⟨all, mem, -, seated⟩ := start.loop (os := s.issueArrival.2.outlets.indices fun o => o.kind.hearsMic) rfl
    (by decide) (Tab.indices_nodup _ _) (fun _ _ => List.not_mem_nil)
  have slot : (s.micBegun i).programs.get micSlot = { s.issueArrival.2.programs.get micSlot with
      state := .playing, kind := .contactMic, source := .inlet i, priority := 11, gain := 4096, arrival := s.issueArrival.1
      targets := s.issueArrival.2.outlets.indices fun o => o.kind.hearsMic } := by
    unfold State.micBegun
    rw [State.modProgram_programs, Tab.get_modify_self]
  obtain ⟨m, program⟩ := seated.program (by rw [slot]; nofun) (by rw [slot]; nofun)
  have now : s.startMic.programs.get 59 = { (s.micBegun i).programs.get micSlot with held := m, admitted := n } := by
    rw [ran, show (59 : Fin 64) = micSlot from rfl, State.modProgram_programs, Tab.get_modify_self]
    unfold State.micPlaced
    rw [program]
  refine ⟨by rw [now, slot], by rw [now, slot], by rw [now, slot], by rw [now, slot], fun o hears room => ?_⟩
  rw [← OutletKind.hearsMic_iff, ← outlets] at hears
  have heard : o ∈ s.issueArrival.2.outlets.indices fun o => o.kind.hearsMic := (Tab.mem_indices _ _ o).mpr hears
  rw [ran]
  exact seated.placed o (mem o heard) (OutletKind.hearsMic_takes hears) (Room.issued issued room)

end Sys2Proof.Machine
end

section
/-! PROOF. ROOT_BLOCK_READ (O13) fails in one clause: a walk that the entry to RUNNING meets at its TAKEN write need not keep
that stage. Program 59, which the entry starts, can evict the last claim of the program whose START record waits for the
TAKEN write; the program ends NO_TARGET, and its return takes the TAKEN write's place (R17). -/

open Sys2Proof Sys2Proof.Machine

namespace Sys2Proof.Machine

/-- A START_PROGRAM record whose TAKEN write waits at the PROGRAM list's walker. -/
def startedHand : Hand := { addr := 64, bytes := [0x10, 1, 0, 0] }

/-- A full stack: seven claims above the contact microphone's priority, and program 0's below it. -/
def crowdedStack : List Claim :=
  let above : Claim := { owner := .party 0 0, priority := 12, arrival := 0, duckable := false, allowsUndertone := false, state := .waiting }
  List.replicate 7 above ++ [{ above with owner := .program 0, priority := 1 }]

/-- Entry to RUNNING is due, with MIC_CONTACT closed, while program 0 has its only claim in a full stack of outlet 0 and its
START record waits for the TAKEN write. -/
def crowdedEntry : State :=
  { State.reset with
    port := { State.reset.port with grant := some ⟨.rootRead 0, false⟩ }
    lists := { State.reset.lists with
      rootRead := some ⟨0, false⟩
      walkers := State.reset.lists.walkers.modify ListId.program.idx fun w =>
        { w with state := .idle, stage := .takenWrite startedHand false } }
    outlets := State.reset.outlets.modify 0 fun o => { o with kind := .publicSpace }
    inlets := State.reset.inlets.set 0 .contactMic
    contacts := State.reset.contacts.modify 3 fun x => { x with closed := true }
    programs := State.reset.programs.set 0
      { state := .playing, priority := 1, admitted := 1, record := some (startedHand.ref false) }
    claims := { State.reset.claims with stack := State.reset.claims.stack.set 0 crowdedStack } }

/-- A root block whose contact microphone flag is set, and nothing else. -/
def micRoot : List Byte := List.replicate 36 0 ++ [1]

/-- Whether an outcome keeps the stage of the PROGRAM list's walker. -/
def keepsStage (s : State) : Host.Outcome State Fault Refusal → Bool
  | .next t => (t.walker .program).stage = (s.walker .program).stage
  | _ => true

theorem crowdedEntry_stage : keepsStage crowdedEntry (exec (.rootBlockRead micRoot) crowdedEntry) = false := by
  decide +kernel

end Sys2Proof.Machine

/-- Refutes O13: in `crowdedEntry` the PROGRAM list's walk stands at its TAKEN write before the entry, and at the return
write of the same record after it. -/
theorem not_rootBlockRead : ¬Obligations.RootBlockRead := by
  intro claim
  obtain ⟨-, entry⟩ := claim crowdedEntry micRoot 0 ⟨0, false⟩ rfl rfl
  obtain ⟨t, ran, -, -, -, -, -, walkers, -⟩ := entry rfl
  obtain ⟨-, -, -, -, -, -, walking, -⟩ := walkers .program
  have kept : (t.walker .program).stage = (crowdedEntry.walker .program).stage := (walking nofun).1
  have changed := crowdedEntry_stage
  rw [ran] at changed
  simp [keepsStage, kept] at changed

end

section
/-! PROOF. Entry to FALLBACK (O60): the show stays as it was cleared while programs end, their returns wait, and program 59
starts after them. -/

open Sys2Proof Sys2Proof.Machine

namespace Sys2Proof.Machine

/-! ### A cleared show stays cleared -/

/-- The show is idle and nothing is held. -/
def State.cleared (s : State) : Prop := s.theatre.state = .idle ∧ s.theatre.hold = none

/-- In an idle show with `ShowsYield`, taking claims from a stack displaces nothing. -/
theorem State.ShowsYield.no_displacing {s : State} (yields : s.ShowsYield) {o : Fin 256} {cs : List Claim}
    (fewer : cs.Sublist (s.stack o)) (p : Fin 64) (d : Claim) : ¬s.displacing (s.holder o) (s.newHolder o cs) p d := by
  rintro ⟨owned, new, kind, threshold, -⟩
  obtain ⟨c, held, owner⟩ := Option.map_eq_some_iff.mp owned
  obtain ⟨host, -, high⟩ := yields.settings p kind
  have mem : c ∈ s.stack o := List.mem_of_find?_eq_some held
  have holding : c.state = .holding := by simpa using List.find?_some held
  have low : c.priority ≤ 5 := (yields.owners o c mem p owner).1 kind
  obtain ⟨e, mem', -, priority⟩ := nameStack_mem (List.mem_of_find?_eq_some new)
  have order := yields.order o
  have heads := yields.heads o
  have under : e ∈ s.claims.stack.get o := fewer.subset mem'
  change c ∈ s.claims.stack.get o at mem
  cases stack : s.claims.stack.get o with
  | nil => rw [stack] at mem; exact absurd mem List.not_mem_nil
  | cons top rest =>
    rw [stack] at mem under order heads
    rcases List.mem_cons.mp mem with rfl | tail
    · have le : e.priority ≤ c.priority := by
        rcases List.mem_cons.mp under with rfl | below
        · exact le_rfl
        · exact List.rel_of_pairwise_cons order below
      omega
    · have alarm := heads c tail holding
      rw [owner] at alarm
      simp only [Owner.isAlarm, decide_eq_true_eq] at alarm
      omega

theorem State.restack_fewer_theatre {s : State} (yields : s.ShowsYield) (clear : s.cleared) {o : Fin 256} {cs : List Claim}
    (fewer : cs.Sublist (s.stack o)) : (s.restack o cs).theatre = s.theatre :=
  State.restack_theatre_free (by simp [clear.1]) fun p d both => yields.no_displacing fewer p d both.1

theorem State.removeAll_theatre {s : State} (yields : s.ShowsYield) (clear : s.cleared) (w : Owner) :
    (s.removeAll w).theatre = s.theatre := by
  unfold State.removeAll
  generalize allFin 256 = os
  induction os generalizing s with
  | nil => rfl
  | cons o os ih =>
    have kept : (s.removeClaim w o).theatre = s.theatre := by
      by_cases here : hasOwner w (s.stack o) = true
      · rw [State.removeClaim_of here]
        exact State.restack_fewer_theatre yields clear List.filter_sublist
      · rw [State.removeClaim_not (by simpa using here)]
    have after : (s.removeClaim w o).cleared := by
      unfold State.cleared
      rw [kept]
      exact clear
    rw [State.forAll_cons, ih ((State.removeClaim_quiet (Quiet.refl s) w o).yields yields) after, kept]

theorem State.leaveHoldSet_cleared {s : State} (clear : s.cleared) (p : Fin 64) : s.leaveHoldSet p = s := by
  unfold State.leaveHoldSet
  rw [clear.2]

/-- The end of a program leaves a cleared show alone, where the removal of its claims does. -/
theorem State.endProgram_theatre_of {s : State} {p : Fin 64} (code : Nat) (clear : s.cleared)
    (removed : (s.removeAll (.program p)).theatre = s.theatre) : (s.endProgram p code).theatre = s.theatre := by
  by_cases busy : (s.programs.get p).state = .free
  · unfold State.endProgram
    rw [if_pos (by simp [busy])]
  · obtain ⟨a, b, ha, hb, e⟩ := State.endProgram_eq busy code
    have before : a.theatre = s.theatre := by
      rw [ha, State.releaseChannel_theatre, State.releaseVoice_theatre, removed]
    have clear' : (a.modProgram p fun pr => { reservation := pr.reservation }).cleared := by
      unfold State.cleared
      rw [State.modProgram_theatre, before]
      exact clear
    rw [State.leaveHoldSet_cleared clear'] at hb
    rw [e]
    split <;> simp [hb, before]

theorem State.endProgram_theatre {s : State} (yields : s.ShowsYield) (clear : s.cleared) (p : Fin 64) (code : Nat) :
    (s.endProgram p code).theatre = s.theatre :=
  State.endProgram_theatre_of code clear (State.removeAll_theatre yields clear _)

/-! ### With no SHOW program left, namings leave a cleared show alone -/

/-- The kinds of the programs that FALLBACK ends (R186). -/
def ProgKind.shed (k : ProgKind) : Prop := k = .background ∨ k = .theatre

/-- No program of those kinds plays. -/
def State.quelled (s : State) : Prop := ∀ p, (s.programs.get p).kind.shed → (s.programs.get p).state = .free

theorem State.quelled.of {s t : State} (none : s.quelled)
    (kind : ∀ p, (t.programs.get p).kind = (s.programs.get p).kind)
    (free : ∀ p, (s.programs.get p).state = .free → (t.programs.get p).state = .free) : t.quelled :=
  fun p show_ => free p (none p (kind p ▸ show_))

/-- What an act that may name stacks leaves of a cleared show without programs. -/
structure Unshown (s t : State) : Prop where
  quelled : s.quelled → t.quelled
  theatre : s.quelled → s.cleared → t.theatre = s.theatre

theorem Unshown.refl (s : State) : Unshown s s := ⟨id, fun _ _ => rfl⟩

theorem Unshown.trans {a b c : State} (h : Unshown a b) (k : Unshown b c) : Unshown a c where
  quelled := fun none => k.quelled (h.quelled none)
  theatre := fun none clear => by
    have same := h.theatre none clear
    have clear' : b.cleared := by
      unfold State.cleared
      rw [same]
      exact clear
    exact (k.theatre (h.quelled none) clear').trans same

theorem Unshown.same {s t : State} (programs : t.programs = s.programs) (theatre : t.theatre = s.theatre) : Unshown s t :=
  ⟨fun none => by unfold State.quelled; rw [programs]; exact none, fun _ _ => theatre⟩

theorem State.modProgram_unshown (s : State) (p : Fin 64) (f : Program → Program)
    (kind : (f (s.programs.get p)).kind.shed → (s.programs.get p).kind.shed)
    (free : (f (s.programs.get p)).kind.shed → (s.programs.get p).state = .free → (f (s.programs.get p)).state = .free) :
    Unshown s (s.modProgram p f) := by
  refine ⟨fun none q => ?_, fun _ _ => rfl⟩
  rw [State.modProgram_programs, Tab.get_modify]
  split_ifs with same
  · subst same
    exact fun show_ => free show_ (none q (kind show_))
  · exact none q

theorem State.restack_unshown (s : State) (o : Fin 256) (cs : List Claim) : Unshown s (s.restack o cs) := by
  refine ⟨fun none => none.of (fun p => ?_) fun p => (s.restack_kept o cs p).2.2.1.mpr, fun none clear => ?_⟩
  · exact ((State.restack_steady (Steady.refl s) o cs).stands p).kind
  · refine State.restack_theatre_free (by simp [clear.1]) fun p d both => ?_
    obtain ⟨⟨-, -, kind, -, state⟩, -⟩ := both
    rw [none p (.inr kind)] at state
    simp at state

theorem State.removeAll_unshown (s : State) (w : Owner) : Unshown s (s.removeAll w) := by
  unfold State.removeAll
  generalize allFin 256 = os
  induction os generalizing s with
  | nil => exact Unshown.refl s
  | cons o os ih =>
    rw [State.forAll_cons]
    refine Unshown.trans ?_ (ih _)
    by_cases here : hasOwner w (s.stack o) = true
    · rw [State.removeClaim_of here]
      exact s.restack_unshown o _
    · rw [State.removeClaim_not (by simpa using here)]
      exact Unshown.refl s

/-- The slots after the end of a program: its claims go, then its own slot is emptied, then it leaves the hold set. -/
theorem State.endProgram_programs {s : State} {q : Fin 64} (busy : (s.programs.get q).state ≠ .free) (code : Nat) :
    ∃ b : State, (s.endProgram q code).programs = (b.leaveHoldSet q).programs ∧
      b.programs = (s.removeAll (.program q)).programs.modify q fun pr => { reservation := pr.reservation } := by
  obtain ⟨a, b, ha, hb, e⟩ := State.endProgram_eq busy code
  refine ⟨a.modProgram q fun pr => { reservation := pr.reservation }, ?_, ?_⟩
  · rw [← hb, e]
    split
    · exact (State.requestReturn_rest _ _ _).1
    · exact (State.reportPageEnd_rest _ _ _).1
  · rw [State.modProgram_programs, ha, State.releaseChannel_programs, State.releaseVoice_programs]

theorem State.removeAll_free (s : State) (w : Owner) (p : Fin 64) :
    ((s.removeAll w).programs.get p).state = .free ↔ (s.programs.get p).state = .free := by
  unfold State.removeAll
  generalize allFin 256 = os
  induction os generalizing s with
  | nil => exact Iff.rfl
  | cons o os ih =>
    rw [State.forAll_cons, ih]
    by_cases here : hasOwner w (s.stack o) = true
    · rw [State.removeClaim_of here]
      exact (s.restack_kept o _ p).2.2.1
    · rw [State.removeClaim_not (by simpa using here)]

/-- What the end of a program leaves of another one. -/
theorem State.endProgram_other (s : State) {p q : Fin 64} (code : Nat) (other : p ≠ q) :
    let x := s.programs.get p
    let y := (s.endProgram q code).programs.get p
    y.kind = x.kind ∧ y.record = x.record ∧ (y.state = .free ↔ x.state = .free) := by
  intro x y
  by_cases busy : (s.programs.get q).state = .free
  · have same : s.endProgram q code = s := by
      unfold State.endProgram
      rw [if_pos (by simp [busy])]
    simp only [y, same]
    exact ⟨rfl, rfl, Iff.rfl⟩
  · obtain ⟨b, e, slots⟩ := State.endProgram_programs busy code
    have before : b.programs.get p = (s.removeAll (.program q)).programs.get p := by
      rw [slots, Tab.get_modify_ne _ other]
    have removed := State.removeAll_steady (Steady.refl s) (.program q)
    have left := State.leaveHoldSet_steady (Steady.refl b) q
    have named := b.leaveHoldSet_named q p
    simp only [y, e]
    refine ⟨?_, ?_, ?_⟩
    · rw [named.kind, before, (removed.stands p).kind]
    · rw [(left.records p).1, before, (removed.records p).1]
    · rw [named.free, before, State.removeAll_free]

/-- The slot of a program that has ended is no SHOW program's. -/
theorem State.endProgram_own {s : State} {q : Fin 64} (busy : (s.programs.get q).state ≠ .free) (code : Nat) :
    ((s.endProgram q code).programs.get q).kind = .announce := by
  obtain ⟨b, e, slots⟩ := State.endProgram_programs busy code
  rw [e, (b.leaveHoldSet_named q q).kind, slots, Tab.get_modify_self]

theorem State.endProgram_unshown (s : State) (q : Fin 64) (code : Nat) : Unshown s (s.endProgram q code) := by
  by_cases busy : (s.programs.get q).state = .free
  · unfold State.endProgram
    rw [if_pos (by simp [busy])]
    exact Unshown.refl s
  · refine ⟨fun none p show_ => ?_, fun none clear =>
      State.endProgram_theatre_of code clear ((s.removeAll_unshown _).theatre none clear)⟩
    by_cases same : p = q
    · subst same
      rw [State.endProgram_own busy] at show_
      exact absurd show_ (by simp [ProgKind.shed])
    · obtain ⟨kind, -, free⟩ := s.endProgram_other code same
      exact free.mpr (none p (kind ▸ show_))

theorem State.gatherTest_unshown (s : State) (p : Fin 64) : Unshown s (s.gatherTest p) := by
  have goes := s.gatherTest_gathers p
  exact ⟨fun none => none.of (fun q => (goes.programs q).kind) fun q => (goes.programs q).named.free.mpr,
    fun _ _ => goes.theatre⟩

theorem State.evicted_unshown (s : State) (w : Owner) : Unshown s (s.evicted w) := by
  unfold State.evicted
  split
  · next p =>
    have told := s.modProgram_unshown p (fun pr => { pr with admitted := pr.admitted - 1 }) id fun _ => id
    dsimp only
    split_ifs
    · exact told.trans (State.endProgram_unshown _ p _)
    · exact told.trans (State.endProgram_unshown _ p _)
    · exact told.trans (State.gatherTest_unshown _ p)
    · exact Unshown.refl s
  · exact Unshown.same rfl rfl

theorem State.place_unshown (s : State) (c : Claim) (o : Fin 256) : Unshown s (s.place c o).2 := by
  unfold State.place
  dsimp only
  split_ifs
  · exact Unshown.refl s
  · exact s.restack_unshown o _
  · split
    · split_ifs
      · exact (s.restack_unshown o _).trans (State.evicted_unshown _ _)
      · exact Unshown.refl s
    · exact Unshown.refl s

theorem State.forAll_unshown {β : Type} {f : β → State → State} (each : ∀ x s, Unshown s (f x s)) (xs : List β) (s : State) :
    Unshown s (s.forAll xs f) := by
  induction xs generalizing s with
  | nil => exact Unshown.refl s
  | cons x xs ih => exact (each x s).trans (ih (f x s))

theorem State.issueArrival_unshown (s : State) : Unshown s s.issueArrival.2 := by
  unfold State.issueArrival
  dsimp only
  split_ifs
  · refine ⟨fun none => none.of (fun p => ?_) fun p => ?_, fun _ _ => rfl⟩
    · simp [State.renumber]
    · simp [State.renumber]
  · exact Unshown.same rfl rfl

theorem State.startMic_unshown (s : State) : Unshown s s.startMic := by
  rcases s.startMic_cases with e | ⟨i, n, e⟩ <;> rw [e]
  · exact Unshown.refl s
  · have begun : Unshown s (s.micBegun i) :=
      s.issueArrival_unshown.trans (State.modProgram_unshown _ micSlot _ (fun show_ => absurd show_ (by simp [ProgKind.shed]))
        fun show_ => absurd show_ (by simp [ProgKind.shed]))
    exact (begun.trans (State.forAll_unshown (fun o t => t.place_unshown _ o) _ _)).trans
      (State.modProgram_unshown _ micSlot _ id fun _ => id)

/-! ### Returns that wait go on waiting -/

/-- Every return that waits still does. -/
def Returns (s t : State) : Prop := ∀ l r, s.returns l r → t.returns l r

theorem Returns.refl (s : State) : Returns s s := fun _ _ => id

theorem Returns.trans {a b c : State} (h : Returns a b) (k : Returns b c) : Returns a c := fun l r x => k l r (h l r x)

theorem Returns.same {s t : State} (lists : t.lists = s.lists) : Returns s t := fun l r waits => by
  unfold State.returns State.walker at waits ⊢
  rw [lists]
  exact waits

theorem Steady.returns {s t : State} (steady : Steady s t) : Returns s t := Returns.same steady.lists

theorem State.requestReturn_returns (s : State) (l : ListId) (r : Return) : Returns s (s.requestReturn l r) := by
  have queued : Returns s { s with lists := { s.lists with returns := s.lists.returns.modify l.idx fun q => q ++ [r] } } := by
    intro l' r' waits
    refine waits.imp_left fun mem => ?_
    change r' ∈ (s.lists.returns.modify l.idx fun q => q ++ [r]).get l'.idx
    rw [Tab.get_modify]
    split_ifs with same
    · exact List.mem_append_left _ (same ▸ mem)
    · exact mem
  unfold State.requestReturn
  dsimp only
  split
  · next h mark taken =>
    split_ifs
    · intro l' r' waits
      refine waits.imp_right fun ⟨h', stage⟩ => ⟨h', ?_⟩
      unfold State.setStage
      rw [State.walker_modWalker]
      split_ifs with same
      · subst same
        rw [taken] at stage
        exact absurd stage nofun
      · exact stage
    · exact queued
  · exact queued

theorem State.endProgram_returns (s : State) (p : Fin 64) (code : Nat) : Returns s (s.endProgram p code) := by
  by_cases busy : (s.programs.get p).state = .free
  · unfold State.endProgram
    rw [if_pos (by simp [busy])]
    exact Returns.refl s
  · obtain ⟨a, b, ha, hb, e⟩ := State.endProgram_eq busy code
    have before : Returns s a := by
      rw [ha]
      exact (State.releaseChannel_steady (State.releaseVoice_steady (State.removeAll_steady (Steady.refl s) _) _) _).returns
    have left : Returns a b := by
      rw [hb]
      exact Returns.trans (b := a.modProgram p fun pr => { reservation := pr.reservation }) (Returns.same rfl)
        (State.leaveHoldSet_steady (Steady.refl _) p).returns
    rw [e]
    split
    · exact (before.trans left).trans (State.requestReturn_returns _ _ _)
    · refine (before.trans left).trans (Returns.same ?_)
      unfold State.reportPageEnd
      split
      · dsimp only
        split_ifs <;> rfl
      · rfl

theorem State.evicted_returns (s : State) (w : Owner) : Returns s (s.evicted w) := by
  unfold State.evicted
  split
  · next p =>
    have told : Returns s (s.modProgram p fun pr => { pr with admitted := pr.admitted - 1 }) := Returns.same rfl
    dsimp only
    split_ifs
    · exact told.trans (State.endProgram_returns _ p _)
    · exact told.trans (State.endProgram_returns _ p _)
    · exact told.trans (State.gatherTest_steady (Steady.refl _) p).returns
    · exact Returns.refl s
  · exact Returns.same rfl

theorem State.place_returns (s : State) (c : Claim) (o : Fin 256) : Returns s (s.place c o).2 := by
  have named (cs : List Claim) : Returns s (s.restack o cs) := (State.restack_steady (Steady.refl s) o cs).returns
  unfold State.place
  dsimp only
  split_ifs
  · exact Returns.refl s
  · exact named _
  · split
    · split_ifs
      · exact (named _).trans (State.evicted_returns _ _)
      · exact Returns.refl s
    · exact Returns.refl s

theorem State.forAll_returns {β : Type} {f : β → State → State} (each : ∀ x s, Returns s (f x s)) (xs : List β) (s : State) :
    Returns s (s.forAll xs f) := by
  induction xs generalizing s with
  | nil => exact Returns.refl s
  | cons x xs ih => exact (each x s).trans (ih (f x s))

theorem State.startMic_returns (s : State) : Returns s s.startMic := by
  rcases s.startMic_cases with e | ⟨i, n, e⟩ <;> rw [e]
  · exact Returns.refl s
  · have begun : Returns s (s.micBegun i) := by
      unfold State.micBegun State.issueArrival
      dsimp only
      split_ifs <;> exact Returns.same rfl
    exact begun.trans (Returns.trans (State.forAll_returns (fun o t => t.place_returns _ o) _ _) (Returns.same rfl))

end Sys2Proof.Machine
end

section
/-! PROOF. The entry to FALLBACK (O60), act by act: the show cleared, the programs shed, program 59 started. -/

open Sys2Proof Sys2Proof.Machine

namespace Sys2Proof.Machine

/-! ### The show but for its state and hold record -/

/-- The show apart from whether it is held. -/
def Theatre.stage (t : Theatre) : Theatre := { t with state := .idle, hold := none }

/-- An act that at most holds or resumes the show. -/
def Staged (s t : State) : Prop := t.theatre.stage = s.theatre.stage

theorem Staged.refl (s : State) : Staged s s := rfl

theorem Staged.trans {a b c : State} (h : Staged a b) (k : Staged b c) : Staged a c := Eq.trans k h

theorem Staged.same {s t : State} (theatre : t.theatre = s.theatre) : Staged s t := congrArg Theatre.stage theatre

theorem Staged.fields {s t : State} (h : Staged s t) : t.theatre.queue = s.theatre.queue ∧ t.theatre.live = s.theatre.live ∧
    t.theatre.next = s.theatre.next :=
  have same : t.theatre.stage = s.theatre.stage := h
  ⟨show t.theatre.stage.queue = s.theatre.stage.queue by rw [same], show t.theatre.stage.live = s.theatre.stage.live by rw [same],
    show t.theatre.stage.next = s.theatre.stage.next by rw [same]⟩

theorem State.forAll_staged {β : Type} {f : β → State → State} (each : ∀ x s, Staged s (f x s)) (xs : List β) (s : State) :
    Staged s (s.forAll xs f) := by
  induction xs generalizing s with
  | nil => exact Staged.refl s
  | cons x xs ih => exact (each x s).trans (ih (f x s))

theorem State.resumeTest_staged (s : State) : Staged s s.resumeTest := by
  by_cases met : ∃ r, s.theatre.hold = some r ∧ s.resumes r
  · obtain ⟨r, hold, met⟩ := met
    unfold Staged
    rw [State.resumeTest_of hold met, (s.resumeShow_rest hold 0).1]
    rfl
  · rw [State.resumeTest_not fun r hold met' => met ⟨r, hold, met'⟩]
    exact Staged.refl s

theorem State.restack_staged (s : State) (o : Fin 256) (cs : List Claim) : Staged s (s.restack o cs) := by
  by_cases moved : (s.holder o).map (·.owner) ≠ (s.newHolder o cs).map (·.owner)
  · have named : Staged s (s.renamed o cs) := Staged.same (s.renamed_of o cs).theatre
    have reported (t : State) (old new : Option Claim) : Staged t (t.reportDisplaced o old new) := by
      by_cases displaces : ∃ p d, t.displacing old new p d
      · obtain ⟨p, d, displaces⟩ := displaces
        rw [State.reportDisplaced_of displaces, State.displaced]
        split_ifs
        · exact Staged.refl t
        · unfold Staged
          rw [State.emitNote_theatre, (t.enterHeld_rest _).1]
          rfl
      · push Not at displaces
        rw [State.reportDisplaced_not displaces]
        exact Staged.refl t
    rw [State.restack_moved moved]
    dsimp only
    split_ifs
    · exact (named.trans (reported _ _ _)).trans (State.resumeTest_staged _)
    · exact named.trans (reported _ _ _)
  · rw [State.restack_same (not_ne_iff.mp moved)]
    exact Staged.same rfl

theorem State.removeAll_staged (s : State) (w : Owner) : Staged s (s.removeAll w) := by
  refine State.forAll_staged (fun o t => ?_) _ s
  unfold State.removeClaim
  split_ifs
  · exact t.restack_staged o _
  · exact Staged.refl t

theorem State.leaveHoldSet_staged (s : State) (p : Fin 64) : Staged s (s.leaveHoldSet p) := by
  unfold State.leaveHoldSet
  split
  · split_ifs
    · exact Staged.trans (Staged.refl s) (State.resumeTest_staged (s.modTheatre _))
    · exact Staged.refl s
  · exact Staged.refl s

theorem State.endProgram_staged (s : State) (p : Fin 64) (code : Nat) : Staged s (s.endProgram p code) := by
  by_cases busy : (s.programs.get p).state = .free
  · unfold State.endProgram
    rw [if_pos (by simp [busy])]
    exact Staged.refl s
  · obtain ⟨a, b, ha, hb, e⟩ := State.endProgram_eq busy code
    have before : Staged s a := by
      rw [ha]
      exact (s.removeAll_staged _).trans (Staged.same (by rw [State.releaseChannel_theatre, State.releaseVoice_theatre]))
    have left : Staged a b := by
      rw [hb]
      exact Staged.trans (b := a.modProgram p fun pr => { reservation := pr.reservation }) (Staged.same rfl)
        (State.leaveHoldSet_staged _ p)
    rw [e]
    split
    · exact (before.trans left).trans (Staged.same (by simp))
    · exact (before.trans left).trans (Staged.same (by simp))

theorem State.evicted_staged (s : State) (w : Owner) : Staged s (s.evicted w) := by
  unfold State.evicted
  split
  · next p =>
    have told : Staged s (s.modProgram p fun pr => { pr with admitted := pr.admitted - 1 }) := Staged.same rfl
    dsimp only
    split_ifs
    · exact told.trans (State.endProgram_staged _ p _)
    · exact told.trans (State.endProgram_staged _ p _)
    · exact told.trans (Staged.same (State.gatherTest_gathers _ p).theatre)
    · exact Staged.refl s
  · exact Staged.same rfl

theorem State.place_staged (s : State) (c : Claim) (o : Fin 256) : Staged s (s.place c o).2 := by
  unfold State.place
  dsimp only
  split_ifs
  · exact Staged.refl s
  · exact s.restack_staged o _
  · split
    · split_ifs
      · exact (s.restack_staged o _).trans (State.evicted_staged _ _)
      · exact Staged.refl s
    · exact Staged.refl s

theorem State.startMic_staged (s : State) : Staged s s.startMic := by
  rcases s.startMic_cases with e | ⟨i, n, e⟩ <;> rw [e]
  · exact Staged.refl s
  · have begun : Staged s (s.micBegun i) := by
      unfold State.micBegun State.issueArrival
      dsimp only
      split_ifs <;> exact Staged.same rfl
    exact begun.trans (Staged.trans (State.forAll_staged (fun o t => t.place_staged _ o) _ _) (Staged.same rfl))

/-! ### Programs that stay what they are -/

/-- A program keeps its kind, its record and whether it is FREE. -/
def Program.Stays (x y : Program) : Prop := y.kind = x.kind ∧ y.record = x.record ∧ (y.state = .free ↔ x.state = .free)

theorem Program.Stays.refl (x : Program) : x.Stays x := ⟨rfl, rfl, Iff.rfl⟩

theorem Program.Stays.trans {x y z : Program} (h : x.Stays y) (k : y.Stays z) : x.Stays z :=
  ⟨k.1.trans h.1, k.2.1.trans h.2.1, k.2.2.trans h.2.2⟩

theorem Program.Stays.sheds {x y : Program} (h : x.Stays y) : y.sheds = x.sheds := by
  obtain ⟨kind, -, free⟩ := h
  have state : (y.state != .free) = (x.state != .free) := by
    rw [Bool.eq_iff_iff]
    simpa using free.not
  unfold Program.sheds
  rw [state, kind]

theorem Program.sheds_iff (x : Program) :
    x.sheds = true ↔ x.state ≠ .free ∧ (x.kind = .background ∨ x.kind = .theatre) := by
  simp [Program.sheds]

/-! ### The programs that FALLBACK ends -/

/-- One program in the order of slots. -/
def shedStep (acc : Nat × State) (p : Fin 64) : Nat × State :=
  if (acc.2.programs.get p).sheds then (acc.1 + 1, acc.2.endProgram p stAbandoned) else acc

/-- What the ends of the programs of some slots leave. -/
structure Shed (ps : List (Fin 64)) (s : State) (n : Nat) (t : State) : Prop where
  count : n = (ps.filter fun p => (s.programs.get p).sheds).length
  others : ∀ p, p ∉ ps ∨ (s.programs.get p).sheds = false → (s.programs.get p).Stays (t.programs.get p)
  gone : ∀ p ∈ ps, (t.programs.get p).sheds = false
  returns : Returns s t
  returned : ∀ p ∈ ps, (s.programs.get p).sheds = true → ∀ r, (s.programs.get p).record = some r → s.port.grant ≠ none →
    ∃ x : Return, x.record = r ∧ x.status = marked stAbandoned r.mark ∧ t.returns .program x
  quiet : Quiet s t
  staged : Staged s t
  theatre : s.ShowsYield → s.cleared → t.theatre = s.theatre
  mic : (s.programs.get 59).state = .free → Aside 59 s t

theorem Shed.nil (s : State) : Shed [] s 0 s :=
  ⟨rfl, fun _ _ => Program.Stays.refl _, nofun, Returns.refl s, nofun, Quiet.refl s, Staged.refl s, fun _ _ => rfl,
    fun _ => Aside.refl 59 s⟩

theorem Acts.granted_ne {s t : State} (act : Acts s t) (busy : s.port.grant ≠ none) : t.port.grant ≠ none := fun idle => by
  have granted := act.granted
  rw [idle] at granted
  exact busy (Option.map_eq_none_iff.mp granted.symm)

theorem Shed.snoc {ps : List (Fin 64)} {s t : State} {n : Nat} (h : Shed ps s n t) {p : Fin 64} (new : p ∉ ps) :
    Shed (ps ++ [p]) s (shedStep (n, t) p).1 (shedStep (n, t) p).2 := by
  have same : (t.programs.get p).sheds = (s.programs.get p).sheds := (h.others p (.inl new)).sheds
  unfold shedStep
  dsimp only
  by_cases sheds : (s.programs.get p).sheds = true
  · rw [if_pos (same.trans sheds)]
    obtain ⟨busy, kind⟩ := (Program.sheds_iff _).mp (same.trans sheds)
    have ended := State.endProgram_ended busy stAbandoned
    refine ⟨by simp [h.count, List.filter_append, sheds], fun q out => ?_, fun q mem => ?_,
      h.returns.trans (State.endProgram_returns t p stAbandoned), fun q mem show_ r record granted => ?_,
      State.endProgram_quiet h.quiet p stAbandoned, h.staged.trans (State.endProgram_staged t p stAbandoned), fun yields clear => ?_,
      fun free => ?_⟩
    · have apart : q ≠ p := by
        rintro rfl
        rcases out with out | kept
        · simp at out
        · rw [sheds] at kept
          exact absurd kept nofun
      have stays : (t.programs.get q).Stays ((t.endProgram p stAbandoned).programs.get q) := t.endProgram_other stAbandoned apart
      exact (h.others q (out.imp_left fun out mem => out (List.mem_append_left _ mem))).trans stays
    · by_cases apart : q = p
      · subst apart
        rw [← Bool.not_eq_true, Program.sheds_iff]
        exact fun both => both.1 ended.free
      · have stays : (t.programs.get q).Stays ((t.endProgram p stAbandoned).programs.get q) := t.endProgram_other stAbandoned apart
        rw [stays.sheds]
        exact h.gone q ((List.mem_append.mp mem).resolve_right (by simpa using apart))
    · by_cases apart : q = p
      · subst apart
        have record' : (t.programs.get q).record = some r := (h.others q (.inl new)).2.1.trans record
        exact ended.returned r record' (h.quiet.toActs.granted_ne granted)
      · obtain ⟨x, rec, status, waits⟩ := h.returned q ((List.mem_append.mp mem).resolve_right (by simpa using apart)) show_ r
          record granted
        exact ⟨x, rec, status, State.endProgram_returns t p stAbandoned _ _ waits⟩
    · have before := h.theatre yields clear
      have clear' : t.cleared := by
        unfold State.cleared
        rw [before]
        exact clear
      exact (State.endProgram_theatre (h.quiet.toActs.yields yields) clear' p stAbandoned).trans before
    · have before := h.mic free
      have apart : p ≠ 59 := by
        rintro rfl
        exact busy (before.slot.free free)
      exact State.endProgram_aside before apart stAbandoned
  · have kept : (s.programs.get p).sheds = false := by simpa using sheds
    rw [if_neg (by rw [same]; exact sheds)]
    refine { h with
      count := by simp [h.count, List.filter_append, kept]
      others := fun q out => h.others q (out.imp_left fun out mem => out (List.mem_append_left _ mem))
      gone := fun q mem => ?_
      returned := fun q mem show_ => ?_ }
    · rcases List.mem_append.mp mem with mem | mem
      · exact h.gone q mem
      · rw [List.mem_singleton.mp mem, same, kept]
    · rcases List.mem_append.mp mem with mem | mem
      · exact h.returned q mem show_
      · rw [List.mem_singleton.mp mem, kept] at show_
        exact absurd show_ nofun

theorem State.shed_of (s : State) : Shed (allFin 64) s s.shed.1 s.shed.2 := by
  have go (ps qs : List (Fin 64)) (once : (qs ++ ps).Nodup) : ∀ acc : Nat × State, Shed qs s acc.1 acc.2 →
      Shed (qs ++ ps) s (ps.foldl shedStep acc).1 (ps.foldl shedStep acc).2 := by
    induction ps generalizing qs with
    | nil => simp
    | cons p ps ih =>
      intro acc done
      have apart : p ∉ qs := fun mem => by
        rw [List.nodup_append] at once
        exact once.2.2 p mem p List.mem_cons_self rfl
      rw [List.append_cons] at once ⊢
      exact ih (qs ++ [p]) once (shedStep acc p) (done.snoc apart)
  exact go (allFin 64) [] (allFin_nodup 64) (0, s) (Shed.nil s)

end Sys2Proof.Machine
end

section
/-! PROOF. The show cleared (R165), and with it the entry to FALLBACK (O60). -/

open Sys2Proof Sys2Proof.Machine

namespace Sys2Proof.Machine

/-! ### The steps of a clear -/

theorem State.releaseChannel_only (s : State) (w : ChanOwner) :
    ∃ channels port, s.releaseChannel w = { s with channels, port } := by
  have freed (t : State) (c : Fin 16) : ∃ channels, t.freeIfDone c = { t with channels } := by
    unfold State.freeIfDone
    dsimp only
    split_ifs <;> exact ⟨_, rfl⟩
  have discarded (c : Fin 16) : ∃ port, s.discardTransfer c true = { s with port } := by
    unfold State.discardTransfer
    split
    · split_ifs <;> exact ⟨_, rfl⟩
    · exact ⟨_, rfl⟩
  unfold State.releaseChannel
  split
  · next c _ =>
    dsimp only
    split_ifs
    · exact ⟨_, _, rfl⟩
    · obtain ⟨port, e⟩ := discarded c
      rw [e]
      unfold State.enterEnded
      obtain ⟨channels, e'⟩ := freed (({ s with port } : State).modChannel c _) c
      rw [e']
      exact ⟨_, _, rfl⟩
  · exact ⟨_, _, rfl⟩

/-- The queued cues are returned STOPPED. -/
def State.queueReturned (s : State) : State :=
  s.forAll s.theatre.queue fun cue s => s.requestReturn .cue (cue.done stStopped)

/-- The channels of every show source are released. -/
def State.sourcesReleased (s : State) : State := s.forAll (allFin 16) fun x s => s.releaseChannel (.source x)

theorem State.queueReturned_only (s : State) : ∃ lists, s.queueReturned = { s with lists } := by
  unfold State.queueReturned
  generalize s.theatre.queue = cues
  induction cues generalizing s with
  | nil => exact ⟨_, rfl⟩
  | cons cue cues ih =>
    obtain ⟨lists, e⟩ := s.requestReturn_only .cue (cue.done stStopped)
    rw [State.forAll_cons]
    simp only [e]
    exact ih { s with lists }

theorem State.sourcesReleased_only (s : State) : ∃ channels port, s.sourcesReleased = { s with channels, port } := by
  unfold State.sourcesReleased
  generalize allFin 16 = xs
  induction xs generalizing s with
  | nil => exact ⟨_, _, rfl⟩
  | cons x xs ih =>
    obtain ⟨channels, port, e⟩ := s.releaseChannel_only (.source x)
    rw [State.forAll_cons]
    simp only [e]
    exact ih { s with channels, port }

/-- Every queued cue's return waits. -/
theorem State.queueReturned_returns (s : State) : ∀ cue ∈ s.theatre.queue, s.queueReturned.returns .cue (cue.done stStopped) := by
  unfold State.queueReturned
  generalize s.theatre.queue = cues
  induction cues generalizing s with
  | nil => nofun
  | cons c cues ih =>
    intro cue mem
    rw [State.forAll_cons]
    rcases List.mem_cons.mp mem with rfl | mem
    · exact State.forAll_returns (fun x t => t.requestReturn_returns .cue _) _ _ _ _ (s.requestReturn_waits .cue _)
    · exact ih _ cue mem

/-- The show with nothing queued and no fade. -/
def Theatre.emptied (t : Theatre) : Theatre :=
  { t with queue := [], next := none, pos := 0, len := 0, fresh := false, follow := none }

theorem State.clearShow_eq (s : State) (subject : Nat) : s.clearShow subject =
    (let t := (s.queueReturned.modTheatre Theatre.emptied).sourcesReleased.modTheatre fun t => { t with state := .idle, hold := none }
    if s.theatre.state = .held then t.showsTo Program.offHold else t).emitNote .showState 3 subject s.theatre.queue.length := by
  unfold State.clearShow
  dsimp only
  simp only [beq_iff_eq, State.unholdPrograms_eq]
  rfl

/-- What a clear leaves. -/
structure ShowCleared (s t : State) (subject : Nat) : Prop where
  theatre : t.theatre = { s.theatre.emptied with state := .idle, hold := none }
  programs : t.programs = (if s.theatre.state = .held then s.showsTo Program.offHold else s).programs
  claims : t.claims = s.claims
  note : s.notes.queue.length < 32 → t.notes.queue = s.notes.queue ++
    [{ kind := .showState, code := 3, subject, detail := s.theatre.queue.length, time := s.time }]
  noted : t.noted { kind := .showState, code := 3, subject, detail := s.theatre.queue.length, time := s.time }
  returned : ∀ cue ∈ s.theatre.queue, t.returns .cue (cue.done stStopped)

theorem State.clearShow_cleared (s : State) (subject : Nat) : ShowCleared s (s.clearShow subject) subject := by
  have waits := s.queueReturned_returns
  obtain ⟨lists, e⟩ := s.queueReturned_only
  rw [e] at waits
  obtain ⟨channels, port, e'⟩ := (({ s with lists } : State).modTheatre Theatre.emptied).sourcesReleased_only
  let t := ({ ({ s with lists } : State).modTheatre Theatre.emptied with channels, port } : State).modTheatre
    fun t => { t with state := .idle, hold := none }
  have ran : s.clearShow subject = State.emitNote .showState 3 subject s.theatre.queue.length
      (if s.theatre.state = .held then t.showsTo Program.offHold else t) := by
    rw [State.clearShow_eq, e, e']
  have notes : (if s.theatre.state = .held then t.showsTo Program.offHold else t).notes = s.notes := by split_ifs <;> rfl
  have time : (if s.theatre.state = .held then t.showsTo Program.offHold else t).time = s.time := by split_ifs <;> rfl
  have kept : (if s.theatre.state = .held then t.showsTo Program.offHold else t).lists = lists := by split_ifs <;> rfl
  rw [ran]
  refine ⟨?_, ?_, ?_, fun room => ?_, ?_, fun cue mem => ?_⟩
  · rw [State.emitNote_theatre]
    split_ifs <;> rfl
  · rw [State.emitNote_programs]
    split_ifs <;> rfl
  · rw [State.emitNote_claims]
    split_ifs <;> rfl
  · rw [State.emitNote_queue (by rw [notes]; exact room), notes, time]
  · have made := State.emitNote_noted (if s.theatre.state = .held then t.showsTo Program.offHold else t) .showState 3 subject
      s.theatre.queue.length
    rw [time] at made
    exact made
  · refine Returns.same (s := { s with lists }) ?_ _ _ (waits cue mem)
    rw [State.emitNote_lists, kept]

theorem Program.startDuration_stays (x : Program) : x.Stays x.startDuration := by
  unfold Program.startDuration
  split <;> exact ⟨rfl, rfl, Iff.rfl⟩

theorem Program.offHold_stays (x : Program) : x.Stays (if x.kind = .theatre ∧ x.state ≠ .free then x.offHold else x) := by
  split
  · unfold Program.offHold
    split
    next held =>
      obtain ⟨kind, record, free⟩ := Program.startDuration_stays { x with state := .playing }
      exact ⟨kind, record, free.trans (by simp [held])⟩
    next => exact Program.Stays.refl _
  · exact Program.Stays.refl _

theorem ShowCleared.stays {s t : State} {subject : Nat} (clear : ShowCleared s t subject) (p : Fin 64) :
    (s.programs.get p).Stays (t.programs.get p) := by
  rw [clear.programs]
  split_ifs
  · unfold State.showsTo
    rw [Tab.get_map]
    exact Program.offHold_stays _
  · exact Program.Stays.refl _

end Sys2Proof.Machine
end

section
/-! PROOF. The entry to FALLBACK and the beat counter (O60). -/

open Sys2Proof Sys2Proof.Machine

namespace Sys2Proof.Machine

theorem State.beatExpired_due {s : State} (running : s.part = .running) (window : s.lists.root.beatWindow ≠ 0)
    (zero : s.beat.counter = 0) : s.beatExpired = s.enterFallback := by
  unfold State.beatExpired State.beatRunning
  exact if_pos (by simp [running, window, zero])

theorem State.enterFallback_beats (s : State) : s.enterFallback.part = .fallback ∧
    s.enterFallback.lists.root = s.lists.root ∧ s.enterFallback.beat = {} :=
  have fell := s.enterFallback_acts
  ⟨fell.part, fell.root, fell.beat⟩

/-! ### The beat counter through a period start -/

/-- What the Beat Monitor depends on. -/
def State.beats (s : State) : PartState × RootCopy × Beat := (s.part, s.lists.root, s.beat)

theorem State.beats_framed : Framed State.beats where
  acts act := by
    unfold State.beats
    rw [act.part, act.root, act.beat]
  ambient _ _ := rfl
  trunk _ _ _ := rfl
  loop _ _ _ := rfl

theorem State.beats_slotless : Slotless State.beats := fun _ _ _ => rfl

theorem State.beats_unmixed : Unmixed State.beats where
  mix _ _ _ _ _ := rfl
  granted s := by
    unfold State.beats
    rw [s.arbitrate_untouched.part, s.arbitrate_untouched.root, s.arbitrate_untouched.beat]

theorem State.scanExpired_beats (l : ListId) (s : State) : (s.scanExpired l).beats = s.beats := by
  by_cases due : s.part = .running ∧ (s.walker l).scan = some 0
  · rw [State.scanExpired_due due.1 due.2]; rfl
  · rw [State.scanExpired_not_due (by simpa only [← not_and_or] using due)]

theorem State.stepTimers_beats (s : State) :
    s.stepTimers.beats = (s.part, s.lists.root, if s.beatRunning then s.beat.tick else s.beat) := by
  have root : s.stepTimers.lists.root = s.lists.root := by
    unfold State.stepTimers
    dsimp only
    split <;> rfl
  unfold State.beats
  rw [root]
  rfl

/-- The Beat Monitor after its expiry, where it stands, and its step. -/
theorem State.settled_beats (s : State) : s.settleDue.stepTimers.beats =
    if s.part = .running ∧ s.lists.root.beatWindow ≠ 0 then
      if s.beat.counter = 0 then (.fallback, s.lists.root, {}) else (s.part, s.lists.root, s.beat.tick)
    else s.beats := by
  have before : s.linksDue.slotsDue.partiesDue.beats = s.beats := by
    rw [State.beats_framed.partiesDue, State.beats_framed.slotsDue State.beats_slotless,
      State.beats_framed.linksDue State.beats_slotless]
  generalize due : s.linksDue.slotsDue.partiesDue = u at before
  obtain ⟨part, root, beat⟩ : u.part = s.part ∧ u.lists.root = s.lists.root ∧ u.beat = s.beat := by
    simpa only [State.beats, Prod.mk.injEq] using before
  have scanned : s.settleDue.beats = u.beatExpired.beats := by
    rw [State.settleDue_eq, due]
    exact State.forAll_view (view := State.beats) State.scanExpired_beats _ _
  obtain ⟨part', root', beat'⟩ : s.settleDue.part = u.beatExpired.part ∧ s.settleDue.lists.root = u.beatExpired.lists.root ∧
      s.settleDue.beat = u.beatExpired.beat := by
    simpa only [State.beats, Prod.mk.injEq] using scanned
  rw [State.stepTimers_beats, State.beatRunning, part', root', beat']
  by_cases runs : s.part = .running ∧ s.lists.root.beatWindow ≠ 0
  · rw [if_pos runs]
    by_cases zero : s.beat.counter = 0
    · obtain ⟨fallen, copy, stopped⟩ := u.enterFallback_beats
      rw [if_pos zero, State.beatExpired_due (part.trans runs.1) (by rw [root]; exact runs.2) (by rw [beat]; exact zero)]
      generalize u.enterFallback = f at fallen copy stopped
      rw [fallen, copy, stopped, root]
      rfl
    · rw [if_neg zero, State.beatExpired_not_due (.inr (.inr (by rw [beat]; exact zero))), part, root, beat]
      simp [runs.1, runs.2]
  · have still : u.part ≠ .running ∨ u.lists.root.beatWindow = 0 ∨ u.beat.counter ≠ 0 := by
      rw [part, root]
      exact (not_and_or.mp runs).imp_right fun none => .inl (not_not.mp none)
    rw [if_neg runs, State.beatExpired_not_due still, part, root, beat]
    have stopped : (s.part == .running && s.lists.root.beatWindow != 0) = false := by
      rw [← Bool.not_eq_true]
      simpa using runs
    rw [stopped]
    rfl

/-! ### What the entry to FALLBACK leaves -/

@[simp] theorem State.fallen_programs (s : State) : s.fallen.programs = s.programs := rfl

@[simp] theorem State.fallen_theatre (s : State) : s.fallen.theatre = s.theatre := rfl

@[simp] theorem State.fallen_time (s : State) : s.fallen.time = s.time := rfl

@[simp] theorem State.fallen_notes (s : State) : s.fallen.notes = s.notes := rfl

@[simp] theorem State.fallen_stack (s : State) (o : Fin 256) : s.fallen.stack o = s.stack o := rfl

/-- The entry's last acts: its CAUSE bit and its note. -/
def State.fallNoted (n : Nat) (s : State) : State := (s.setCause .fallback).emitNote .fallback 1 0 n

theorem State.fallNoted_quiet (n : Nat) (s : State) : Quiet s (s.fallNoted n) :=
  State.emitNote_quiet (State.setCause_quiet (Quiet.refl s) _) _ _ _ _

@[simp] theorem State.fallNoted_theatre (n : Nat) (s : State) : (s.fallNoted n).theatre = s.theatre := State.emitNote_theatre ..

@[simp] theorem State.fallNoted_programs (n : Nat) (s : State) : (s.fallNoted n).programs = s.programs := State.emitNote_programs ..

@[simp] theorem State.fallNoted_lists (n : Nat) (s : State) : (s.fallNoted n).lists = s.lists := State.emitNote_lists ..

@[simp] theorem State.fallNoted_claims (n : Nat) (s : State) : (s.fallNoted n).claims = s.claims := State.emitNote_claims ..

theorem State.fallNoted_noted (n : Nat) (s : State) :
    (s.fallNoted n).noted { kind := .fallback, code := 1, subject := 0, detail := n, time := s.time } :=
  (s.setCause .fallback).emitNote_noted .fallback 1 0 n

theorem State.fallNoted_causeHas (n : Nat) (s : State) : (s.fallNoted n).causeHas .fallback = true :=
  (State.emitNote_acts (Acts.refl (s.setCause .fallback)) .fallback 1 0 n).causes _ (by simp [State.causeHas_setCause])

/-- The show cleared by the entry, before the programs' ends. -/
def State.curtained (s : State) : State := s.fallen.clearShow 1

/-- The part after the programs' ends, before program 59's start. -/
def State.offAir (s : State) : State := s.curtained.shed.2

theorem State.curtained_cleared (s : State) : ShowCleared s.fallen s.curtained 1 := s.fallen.clearShow_cleared 1

theorem State.curtained_quiet (s : State) : Quiet s.fallen s.curtained := State.clearShow_quiet (Quiet.refl s.fallen) 1

theorem State.offAir_shed (s : State) : Shed (allFin 64) s.curtained s.curtained.shed.1 s.offAir := s.curtained.shed_of

theorem State.offAir_quiet (s : State) : Quiet s.fallen s.offAir := s.curtained_quiet.trans s.offAir_shed.quiet

theorem State.enterFallback_emits (s : State) :
    s.enterFallback = s.offAir.startMic.fallNoted s.curtained.shed.1 := s.enterFallback_eq

theorem State.enterFallback_quiet (s : State) : Quiet s.fallen s.enterFallback := by
  rw [State.enterFallback_emits]
  exact (State.startMic_quiet s.offAir_quiet).trans (State.fallNoted_quiet _ _)

theorem State.curtained_stays (s : State) (p : Fin 64) : (s.programs.get p).Stays (s.curtained.programs.get p) := by
  have stays := s.curtained_cleared.stays p
  rwa [State.fallen_programs] at stays

theorem State.offAir_quelled (s : State) : s.offAir.quelled := fun p kind => by
  have gone := s.offAir_shed.gone p (mem_allFin p)
  rw [← Bool.not_eq_true, Program.sheds_iff] at gone
  exact not_not.mp fun busy => gone ⟨busy, kind⟩

theorem State.enterFallback_quelled (s : State) : s.enterFallback.quelled := by
  rw [State.enterFallback_emits]
  unfold State.quelled
  rw [State.fallNoted_programs]
  exact s.offAir.startMic_unshown.quelled s.offAir_quelled

/-- The show after the entry: nothing queued, no fade (R186). -/
theorem State.enterFallback_staged (s : State) : s.enterFallback.theatre.queue = [] ∧
    s.enterFallback.theatre.live = s.theatre.live ∧ s.enterFallback.theatre.next = none := by
  have staged : Staged s.curtained s.enterFallback := by
    rw [State.enterFallback_emits]
    exact (s.offAir_shed.staged.trans s.offAir.startMic_staged).trans (Staged.same (State.fallNoted_theatre _ _))
  have bare : s.curtained.theatre = { s.theatre.emptied with state := .idle, hold := none } := s.curtained_cleared.theatre
  generalize s.enterFallback = t at staged
  generalize s.curtained = b at staged bare
  obtain ⟨queue, live, next⟩ := staged.fields
  rw [queue, live, next, bare]
  exact ⟨rfl, rfl, rfl⟩

/-- Where the show yields to high claims alone it stays IDLE while the programs end. -/
theorem State.enterFallback_idle {s : State} (yields : s.ShowsYield) :
    s.enterFallback.theatre.state = .idle ∧ s.enterFallback.theatre.hold = none := by
  have clear : s.curtained.cleared := by
    unfold State.cleared
    rw [s.curtained_cleared.theatre]
    exact ⟨rfl, rfl⟩
  have ended : s.offAir.theatre = s.curtained.theatre := s.offAir_shed.theatre (s.curtained_quiet.yields yields) clear
  have clear' : s.offAir.cleared := by
    unfold State.cleared
    rw [ended]
    exact clear
  have kept : s.enterFallback.theatre = s.offAir.theatre := by
    rw [State.enterFallback_emits, State.fallNoted_theatre]
    exact s.offAir.startMic_unshown.theatre s.offAir_quelled clear'
  rw [kept]
  exact clear'

theorem State.enterFallback_returns (s : State) : Returns s.curtained s.enterFallback := by
  rw [State.enterFallback_emits]
  exact (s.offAir_shed.returns.trans s.offAir.startMic_returns).trans (Returns.same (State.fallNoted_lists _ _))

/-- The FALLBACK note counts the programs of the two kinds that were not FREE (R186). -/
theorem State.curtained_count (s : State) : s.curtained.shed.1 = ((allFin 64).filter fun p =>
    (s.programs.get p).state != .free && ((s.programs.get p).kind == .background || (s.programs.get p).kind == .theatre)).length := by
  rw [s.offAir_shed.count]
  congr 1
  refine List.filter_congr fun p _ => ?_
  rw [(s.curtained_stays p).sheds]
  rfl

theorem State.enterFallback_noted (s : State) : s.enterFallback.noted
    { kind := .fallback, code := 1, subject := 0, time := s.time
      detail := ((allFin 64).filter fun p => (s.programs.get p).state != .free &&
        ((s.programs.get p).kind == .background || (s.programs.get p).kind == .theatre)).length } := by
  have time : s.offAir.startMic.time = s.time := (State.startMic_quiet s.offAir_quiet).time
  have made := s.offAir.startMic.fallNoted_noted s.curtained.shed.1
  rw [← State.enterFallback_emits, time, s.curtained_count] at made
  exact made

/-- The SHOW_STATE note is the first that the entry makes. -/
theorem State.enterFallback_first {s : State} (room : s.notes.queue.length < 32) :
    s.enterFallback.notes.queue[s.notes.queue.length]? = some
      { kind := .showState, code := 3, subject := 1, detail := s.theatre.queue.length, time := s.time } := by
  have later : Quiet s.curtained s.enterFallback := by
    rw [State.enterFallback_emits]
    exact (State.startMic_quiet s.offAir_shed.quiet).trans (State.fallNoted_quiet _ _)
  obtain ⟨more, queue⟩ := later.noted.queue
  have first : s.curtained.notes.queue = s.notes.queue ++
      [{ kind := .showState, code := 3, subject := 1, detail := s.theatre.queue.length, time := s.time }] :=
    s.curtained_cleared.note room
  rw [queue, first]
  simp

/-- Each program ended has its return (R48). -/
theorem State.enterFallback_returned {s : State} (granted : s.port.grant ≠ none) {p : Fin 64} {r : RecRef}
    (busy : (s.programs.get p).state ≠ .free) (record : (s.programs.get p).record = some r)
    (kind : (s.programs.get p).kind = .background ∨ (s.programs.get p).kind = .theatre) :
    ∃ x : Return, x.record = r ∧ x.status = marked stAbandoned r.mark ∧ s.enterFallback.returns .program x := by
  have stays := s.curtained_stays p
  have sheds : (s.curtained.programs.get p).sheds = true := by
    rw [stays.sheds]
    exact (Program.sheds_iff _).mpr ⟨busy, kind⟩
  obtain ⟨x, rec, status, waits⟩ := s.offAir_shed.returned p (mem_allFin p) sheds r (stays.2.1.trans record)
    (s.curtained_quiet.toActs.granted_ne granted)
  refine ⟨x, rec, status, ?_⟩
  rw [State.enterFallback_emits]
  exact Returns.same (State.fallNoted_lists _ _) _ _ (s.offAir.startMic_returns _ _ waits)

theorem State.enterFallback_cues (s : State) : ∀ cue ∈ s.theatre.queue, s.enterFallback.returns .cue (cue.done stStopped) :=
  fun cue mem => s.enterFallback_returns _ _ (s.curtained_cleared.returned cue mem)

/-! ### Program 59 at the entry -/

theorem State.offAir_mic_iff {s : State} (free : (s.programs.get 59).state = .free) :
    s.offAir.micOpens ↔ (s.contacts.get 3).closed = true ∧ ∃ i, s.inlets.get i = .contactMic := by
  have free' : (s.offAir.programs.get 59).state = .free :=
    (s.offAir_shed.mic ((s.curtained_stays 59).2.2.mpr free)).slot.free ((s.curtained_stays 59).2.2.mpr free)
  have part : s.offAir.part = .fallback := s.offAir_quiet.part
  have contacts : s.offAir.contacts = s.contacts := s.offAir_quiet.contacts
  have inlets : s.offAir.inlets = s.inlets := s.offAir_quiet.inlets
  unfold State.micOpens State.micEnabled
  rw [part, contacts, inlets]
  simp [free']

theorem State.offAir_room {s : State} (free : (s.programs.get 59).state = .free) {n : Nat} {o : Fin 256}
    (room : Room n (s.stack o)) : Room n (s.offAir.stack o) := by
  have aside := s.offAir_shed.mic ((s.curtained_stays 59).2.2.mpr free)
  have same : s.curtained.stack o = s.stack o := by
    unfold State.stack
    rw [s.curtained_cleared.claims]
    rfl
  exact Room.fewer (aside.fewer o) (by rw [same]; exact room)

/-- Program 59 after the entry, where slot 59 was FREE. -/
theorem State.enterFallback_mic {s : State} (free : (s.programs.get 59).state = .free) :
    let opens : Prop := (s.contacts.get 3).closed = true ∧ ∃ i, s.inlets.get i = .contactMic
    (¬opens → (s.enterFallback.programs.get 59).state = .free) ∧
    (opens → ∃ i, s.inlets.get i = .contactMic ∧ MicStarted s.offAir s.enterFallback i) := by
  intro opens
  have when_ : s.offAir.micOpens ↔ opens := State.offAir_mic_iff free
  have programs : s.enterFallback.programs = s.offAir.startMic.programs := by
    rw [State.enterFallback_emits, State.fallNoted_programs]
  have claims : s.enterFallback.claims = s.offAir.startMic.claims := by
    rw [State.enterFallback_emits, State.fallNoted_claims]
  refine ⟨fun shut => ?_, fun open_ => ?_⟩
  · rw [programs, State.startMic_not (when_.not.mpr shut)]
    have free' := (s.curtained_stays 59).2.2.mpr free
    exact (s.offAir_shed.mic free').slot.free free'
  · have mic := when_.mpr open_
    cases found : s.offAir.contactMic with
    | none =>
      obtain ⟨-, -, -, i, named⟩ := mic
      exact absurd named (s.offAir.contactMic_none_iff.mp found i)
    | some i =>
      obtain ⟨state, kind, priority, source, placed⟩ := State.startMic_started mic found
      have named : s.offAir.inlets.get i = .contactMic := by
        unfold State.contactMic at found
        simpa using List.find?_some found
      rw [s.offAir_quiet.inlets] at named
      refine ⟨i, named, ?_⟩
      constructor
      · rw [programs, state]
      · rw [programs, kind]
      · rw [programs, priority]
      · rw [programs, source]
      · unfold State.stack
        rw [claims]
        exact placed

/-- A walker after the entry: wound down, with its state and cursor (R186). -/
theorem State.enterFallback_walker (s : State) (l : ListId) :
    (s.enterFallback.walker l).scan = none ∧ (s.enterFallback.walker l).again = false ∧
      (s.enterFallback.walker l).state = (s.walker l).state ∧ (s.enterFallback.walker l).cursor = (s.walker l).cursor := by
  have fallen : s.fallen.walker l = (s.walker l).wind := by
    unfold State.fallen State.windAll State.walker
    dsimp only
    rw [Tab.get_map]
    rfl
  have kept := s.enterFallback_quiet.walkers l
  rw [fallen] at kept
  generalize s.enterFallback.walker l = w at kept
  obtain ⟨state, cursor, scan, again, -⟩ := Walker.mk.inj kept
  exact ⟨scan, again, state, cursor⟩

theorem State.enterFallback_causeHas (s : State) : s.enterFallback.causeHas .fallback = true := by
  rw [State.enterFallback_emits]
  exact State.fallNoted_causeHas _ _

end Sys2Proof.Machine

/-- Settles O60: the beat counter is seen through a period start as a view that no other act changes; the entry to FALLBACK is
followed from the cleared show through the programs' ends to program 59's start. -/
theorem beatExpiry : Obligations.BeatExpiry := by
  unfold Obligations.BeatExpiry
  intro s
  refine ⟨fun idle => congrArg (Host.Outcome.next ∘ State.arbitrate) (State.beatExpired_not_due idle), fun audio => ?_,
    fun running window zero => ?_⟩
  · obtain ⟨t, answered, kept⟩ := State.beats_framed.period State.beats_unmixed audio s
    rw [State.settled_beats] at kept
    refine ⟨t, answered, ?_⟩
    intro runs
    have fields {x : PartState × RootCopy × Beat} (same : t.beats = x) : t.part = x.1 ∧ t.beat = x.2.2 :=
      ⟨congrArg Prod.fst same, congrArg (fun y => y.2.2) same⟩
    refine ⟨fun off => ?_, fun on zero => ?_, fun on more => ?_⟩
    · rw [if_neg off] at kept
      exact fields kept
    · rw [if_pos on, if_pos zero] at kept
      exact fields kept
    · rw [if_pos on, if_neg more] at kept
      obtain ⟨part, beat⟩ := fields kept
      refine ⟨part.trans on.1, fun counting => ?_, fun last => ?_⟩
      · rw [beat]
        exact if_pos counting
      · rw [beat]
        exact if_neg (not_lt.mpr last)
  · have quiet := s.enterFallback_quiet
    obtain ⟨queue, live, next⟩ := s.enterFallback_staged
    have port (busy : s.port.grant ≠ none) : s.enterFallback.arbitrate = s.enterFallback :=
      State.arbitrate_waiting (quiet.toActs.granted_ne busy)
    refine ⟨s.enterFallback.arbitrate, congrArg (Host.Outcome.next ∘ State.arbitrate) (State.beatExpired_due running window zero),
      ?_⟩
    refine ⟨?_, ?_, ?_, fun l => ?_, ?_, ?_, ?_, fun yields => ?_, fun busy => ?_, fun busy => ⟨?_, ?_, ?_⟩, fun p => ?_,
      fun free => ?_, ?_, ?_, ?_, ?_, ?_, ?_, ?_, ?_, ?_⟩
    · rw [State.arbitrate_part]
      exact quiet.part
    · rw [State.arbitrate_beat]
      exact quiet.beat
    · rw [State.arbitrate_causeHas]
      exact s.enterFallback_causeHas
    · unfold State.walker
      rw [State.arbitrate_walkers]
      exact s.enterFallback_walker l
    · rw [State.arbitrate_theatre, queue]
    · rw [State.arbitrate_theatre, live]
    · rw [State.arbitrate_theatre, next]
    · rw [State.arbitrate_theatre]
      exact State.enterFallback_idle yields
    · rw [port busy]
      exact s.enterFallback_noted
    · rw [port busy]
      exact s.enterFallback_cues
    · rw [port busy]
      exact fun p r => State.enterFallback_returned busy
    · rw [port busy]
      exact State.enterFallback_first
    · rw [State.arbitrate_programs]
      exact fun busy => not_or.mp fun kind => busy (s.enterFallback_quelled p kind)
    · rw [State.arbitrate_programs]
      intro opens
      obtain ⟨shut, starts⟩ := State.enterFallback_mic free
      refine ⟨shut, fun open_ => ?_⟩
      obtain ⟨i, mic, state, -, priority, source, placed⟩ := starts open_
      refine ⟨state, priority, ⟨i, mic, source⟩, fun o hears room => ?_⟩
      unfold State.stack
      rw [State.arbitrate_claims]
      exact placed o (by rw [s.offAir_quiet.outlets]; exact hears) (State.offAir_room free room)
    · rw [State.arbitrate_outlets]
      exact quiet.outlets
    · rw [State.arbitrate_inlets]
      exact quiet.inlets
    · rw [State.arbitrate_stations]
      exact quiet.stations
    · rw [State.arbitrate_alarms]
      exact quiet.table
    · rw [State.arbitrate_trunks]
      exact quiet.trunks
    · rw [State.arbitrate_loops]
      exact quiet.loops
    · rw [State.arbitrate_changeovers]
      exact quiet.changeovers
    · rw [State.arbitrate_regs]
      exact quiet.run
    · rw [State.arbitrate_time]
      exact quiet.time

end

section
/-! PROOF. HOLD_SHOW, RESUME_SHOW and CLEAR_SHOW (O54), with what a release leaves of the channels. -/

open Sys2Proof Sys2Proof.Machine

namespace Sys2Proof.Machine

/-! ### A channel released -/

/-- A channel that its owner has left. -/
structure Channel.Left (ch : Channel) : Prop where
  owner : ch.owner = none
  fifo : ch.fifo = []
  state : ch.state = .ended ∨ ch.state = .free

theorem Channel.Left.same {x y : Channel} (left : y.Left) (kept : { x with reread := false } = { y with reread := false }) :
    x.Left := by
  obtain ⟨owner, fifo, state⟩ := left
  cases x
  cases y
  simp only [Channel.mk.injEq] at kept
  obtain ⟨rfl, rfl, -, -, -, -, -, -, -, -, -, -, rfl, -⟩ := kept
  exact ⟨owner, fifo, state⟩

theorem State.freeIfDone_cases (s : State) (c : Fin 16) : s.freeIfDone c = s ∨ s.freeIfDone c = s.modChannel c fun _ => {} := by
  unfold State.freeIfDone
  dsimp only
  split
  · exact .inr rfl
  · exact .inl rfl

theorem State.freeIfDone_other (s : State) {c d : Fin 16} (other : d ≠ c) :
    (s.freeIfDone c).channels.get d = s.channels.get d := by
  rcases s.freeIfDone_cases c with e | e <;> rw [e]
  rw [State.modChannel_channels, Tab.get_modify_ne _ other]

theorem State.enterEnded_other (s : State) {c d : Fin 16} (other : d ≠ c) :
    (s.enterEnded c).channels.get d = s.channels.get d := by
  unfold State.enterEnded
  rw [State.freeIfDone_other _ other, State.modChannel_channels, Tab.get_modify_ne _ other]

theorem State.enterEnded_left (s : State) (c : Fin 16) : ((s.enterEnded c).channels.get c).Left := by
  unfold State.enterEnded
  rcases State.freeIfDone_cases (s.modChannel c _) c with e | e <;> rw [e]
  · rw [State.modChannel_channels, Tab.get_modify_self]
    exact ⟨rfl, rfl, .inl rfl⟩
  · rw [State.modChannel_channels, Tab.get_modify_self]
    exact ⟨rfl, rfl, .inr rfl⟩

@[simp] theorem State.discardTransfer_channels (s : State) (c : Fin 16) (keep : Bool) :
    (s.discardTransfer c keep).channels = s.channels := by
  unfold State.discardTransfer
  split
  · split <;> rfl
  · rfl

/-- A release of the channel found, which is neither ENDED nor FREE. -/
theorem State.releaseChannel_of {s : State} {w : ChanOwner} {c : Fin 16} (found : s.channelOf w = some c)
    (ended : (s.channels.get c).state ≠ .ended) (free : (s.channels.get c).state ≠ .free) :
    s.releaseChannel w = (s.discardTransfer c true).enterEnded c := by
  unfold State.releaseChannel
  rw [found]
  exact if_neg (by simp [ended, free])

theorem State.releaseChannel_other (s : State) {w : ChanOwner} {c : Fin 16} (other : s.channelOf w ≠ some c) :
    (s.releaseChannel w).channels.get c = s.channels.get c := by
  unfold State.releaseChannel
  split
  · next d found =>
    have apart : c ≠ d := fun same => other (same ▸ found)
    dsimp only
    split
    · rfl
    · rw [State.enterEnded_other _ apart, State.discardTransfer_channels]
  · rfl

theorem State.releaseChannel_left {s : State} {w : ChanOwner} {c : Fin 16} (found : s.channelOf w = some c)
    (ended : (s.channels.get c).state ≠ .ended) (free : (s.channels.get c).state ≠ .free) :
    ((s.releaseChannel w).channels.get c).Left := by
  rw [State.releaseChannel_of found ended free]
  exact State.enterEnded_left _ c

/-- Another owner's channel is where it was. -/
theorem State.releaseChannel_channelOf (s : State) {v w : ChanOwner} (other : v ≠ w) :
    (s.releaseChannel w).channelOf v = s.channelOf v := by
  unfold State.channelOf
  refine List.find?_congr fun c _ => ?_
  by_cases here : s.channelOf w = some c
  · have owner := State.channelOf_owner here
    have before : ((s.channels.get c).owner == some v) = false := by
      rw [owner]
      simpa using fun same => other same.symm
    rw [before]
    by_cases over_ : (s.channels.get c).state = .ended ∨ (s.channels.get c).state = .free
    · have kept : s.releaseChannel w = s := by
        unfold State.releaseChannel
        rw [here]
        exact if_pos (by simpa using over_)
      rw [kept, before]
    · obtain ⟨ended, free⟩ := not_or.mp over_
      rw [(State.releaseChannel_left here ended free).owner]
      rfl
  · rw [s.releaseChannel_other here]

/-- The channels of the show's sources, each released. -/
theorem State.forAll_released {xs : List (Fin 16)} (once : xs.Nodup) (s : State) (c : Fin 16) :
    ((∀ x ∈ xs, s.channelOf (.source x) ≠ some c) →
      (s.forAll xs fun x s => s.releaseChannel (.source x)).channels.get c = s.channels.get c) ∧
    ((∃ x ∈ xs, s.channelOf (.source x) = some c) → (s.channels.get c).state ≠ .ended → (s.channels.get c).state ≠ .free →
      ((s.forAll xs fun x s => s.releaseChannel (.source x)).channels.get c).Left) := by
  induction xs generalizing s with
  | nil => exact ⟨fun _ => rfl, by simp⟩
  | cons x xs ih =>
    obtain ⟨out, once⟩ := List.nodup_cons.mp once
    obtain ⟨others, own⟩ := ih once (s.releaseChannel (.source x))
    have kept {y : Fin 16} (mem : y ∈ xs) : (s.releaseChannel (.source x)).channelOf (.source y) = s.channelOf (.source y) :=
      s.releaseChannel_channelOf fun same => out (ChanOwner.source.inj same ▸ mem)
    rw [State.forAll_cons]
    refine ⟨fun none => ?_, fun ⟨y, mem, found⟩ ended free => ?_⟩
    · rw [others fun y mem => kept mem ▸ none y (List.mem_cons_of_mem _ mem),
        s.releaseChannel_other (none x List.mem_cons_self)]
    · by_cases here : s.channelOf (.source x) = some c
      · have left := State.releaseChannel_left here ended free
        rw [others fun y mem found => ?_]
        · exact left
        · have owner := State.channelOf_owner found
          rw [left.owner] at owner
          exact nomatch owner
      · have same := s.releaseChannel_other here
        have mem' : y ∈ xs := (List.mem_cons.mp mem).resolve_left fun e => here (e ▸ found)
        exact own ⟨y, mem', (kept mem').trans found⟩ (same ▸ ended) (same ▸ free)

/-! ### Notes depend on the queue and the ms count alone -/

theorem State.emitNote_notes_congr {s t : State} (notes : t.notes = s.notes) (time : t.time = s.time) (k : NoteKind)
    (code subject detail : Nat) : (t.emitNote k code subject detail).notes = (s.emitNote k code subject detail).notes := by
  unfold State.emitNote
  rw [notes, time]
  split
  · split_ifs <;> simp [State.setCause]
  · rfl

/-! ### A record of the CUE list answered -/

/-- What the take of a record leaves of the state that its effect made: the walker's own return, and a grant. -/
structure Replied (u t : State) (h : Hand) (code : Nat) : Prop where
  untouched : Untouched u t
  stage : (t.walker .cue).stage = .returnWrite h { record := h.ref false, status := code, results := [] } false
  theatre : t.theatre = u.theatre
  claims : t.claims = u.claims
  programs : t.programs = u.programs
  mixer : t.mixer = u.mixer
  stations : t.stations = u.stations
  calls : t.calls = u.calls
  channel : ∀ c, { t.channels.get c with reread := false } = { u.channels.get c with reread := false }
  waiting : u.port.grant ≠ none → t.notes = u.notes ∧ t.channels = u.channels ∧ t.lists.returns = u.lists.returns

theorem State.reply_replied (u : State) (h : Hand) (code : Nat) :
    Replied u (u.reply .cue h code false []).arbitrate h code where
  untouched := (State.reply_quiet (Quiet.refl u) .cue h code false []).toUntouched.trans (State.arbitrate_untouched _)
  stage := by
    unfold State.walker
    rw [State.arbitrate_walkers]
    exact State.reply_stage u .cue h code false []
  theatre := by rw [State.arbitrate_theatre]; rfl
  claims := by rw [State.arbitrate_claims]; rfl
  programs := by rw [State.arbitrate_programs]; rfl
  mixer := by rw [State.arbitrate_mixer]; rfl
  stations := by rw [State.arbitrate_stations]; rfl
  calls := by rw [State.arbitrate_calls]; rfl
  channel c := State.arbitrate_channel (u.reply .cue h code false []) c
  waiting busy := by
    rw [State.arbitrate_waiting (s := u.reply .cue h code false []) busy]
    exact ⟨rfl, rfl, rfl⟩

/-! ### The three acts -/

theorem Program.onHold_eq (x : Program) : (if x.kind = .theatre ∧ x.state ≠ .free then x.onHold else x) =
    if x.kind = .theatre ∧ x.state = .playing then { x with state := .held } else x := by
  unfold Program.onHold
  by_cases kind : x.kind = .theatre <;> by_cases plays : x.state = .playing <;> simp [kind, plays]

theorem Program.offHold_eq (x : Program) : (if x.kind = .theatre ∧ x.state ≠ .free then x.offHold else x) =
    if x.kind = .theatre ∧ x.state = .held then ({ x with state := .playing } : Program).startDuration else x := by
  unfold Program.offHold
  by_cases kind : x.kind = .theatre <;> by_cases held : x.state = .held <;> simp [kind, held]

theorem State.enterHeld_signals (s : State) (r : HoldRecord) (c : Fin 16) : (s.enterHeld r).channels.get c =
    if ∃ x, s.channelOf (.source x) = some c then (s.channels.get c).signalPause else s.channels.get c := by
  rw [State.enterHeld_eq, State.showsTo_channels, State.signalSources_channel Channel.signalPause_owner]
  rfl

theorem State.enterHeld_others (s : State) (r : HoldRecord) : (s.enterHeld r).mixer = s.mixer ∧
    (s.enterHeld r).stations = s.stations ∧ (s.enterHeld r).calls = s.calls ∧ (s.enterHeld r).port = s.port := by
  rw [State.enterHeld_eq]
  obtain ⟨channels, e⟩ := (s.modTheatre fun t => { t with state := .held, hold := some r }).signalSources_only
    Channel.signalPause
  rw [e]
  exact ⟨rfl, rfl, rfl, rfl⟩

/-- The signals of a resumption, and what it leaves alone. -/
theorem State.resumeShow_signals (s : State) {r : HoldRecord} (held : s.theatre.hold = some r) (subject : Nat) :
    (∀ c, (s.resumeShow subject).channels.get c =
      if ∃ x, s.channelOf (.source x) = some c then (s.channels.get c).signalResume else s.channels.get c) ∧
    (s.resumeShow subject).claims = s.claims ∧ (s.resumeShow subject).port = s.port ∧
    (s.resumeShow subject).notes = (s.emitNote .showState 2 subject r.heldFrom.code).notes := by
  obtain ⟨channels, e⟩ := (s.modTheatre fun t => { t with state := r.heldFrom, hold := none }).signalSources_only
    Channel.signalResume
  rw [State.resumeShow_eq s subject held]
  refine ⟨fun c => ?_, ?_, ?_, ?_⟩
  · rw [State.emitNote_channels, State.showsTo_channels, State.signalSources_channel Channel.signalResume_owner]
    rfl
  all_goals rw [e]
  · rw [State.emitNote_claims]
    rfl
  · rw [State.emitNote_port]
    rfl
  · exact State.emitNote_notes_congr (by rfl) (by rfl) _ _ _ _

/-- A return joins the list's queue where the walker has no record at its TAKEN write. -/
theorem State.requestReturn_queued {s : State} {l : ListId} (free : ∀ h m, (s.walker l).stage ≠ .takenWrite h m) (r : Return) :
    s.requestReturn l r =
      { s with lists := { s.lists with returns := s.lists.returns.modify l.idx fun q => q ++ [r] } } := by
  unfold State.requestReturn
  dsimp only
  split
  · next h m stage => exact absurd stage (free h m)
  · rfl

/-- The queued cues' returns, where the walker has no record at its TAKEN write. -/
theorem State.queueReturned_queue {s : State} (free : ∀ h m, (s.walker .cue).stage ≠ .takenWrite h m) :
    s.queueReturned.lists.returns.get ListId.cue.idx =
      s.lists.returns.get ListId.cue.idx ++ s.theatre.queue.map fun cue => cue.done stStopped := by
  unfold State.queueReturned
  generalize s.theatre.queue = cues
  induction cues generalizing s with
  | nil => simp [State.forAll]
  | cons cue cues ih =>
    have queued := State.requestReturn_queued free (cue.done stStopped)
    rw [State.forAll_cons, ih (by rw [queued]; exact free), queued, Tab.get_modify_self]
    simp

theorem State.clearShow_port (s : State) (subject : Nat) : (s.clearShow subject).port.grant.map (·.transfer) =
    s.port.grant.map (·.transfer) := (State.clearShow_quiet (Quiet.refl s) subject).granted

/-- The channels after a clear: each source's is left, and no other changes. -/
theorem State.clearShow_channels (s : State) (subject : Nat) : ∃ b : State, b.channels = s.channels ∧
    (s.clearShow subject).channels = b.sourcesReleased.channels := by
  obtain ⟨lists, e⟩ := s.queueReturned_only
  refine ⟨s.queueReturned.modTheatre Theatre.emptied, by rw [e]; rfl, ?_⟩
  rw [State.clearShow_eq]
  dsimp only
  rw [State.emitNote_channels]
  split_ifs <;> simp only [State.showsTo_channels, State.modTheatre_channels]

theorem State.clearShow_returns (s : State) (subject : Nat) :
    (s.clearShow subject).lists.returns = s.queueReturned.lists.returns := by
  rw [State.clearShow_eq]
  obtain ⟨channels, port, e⟩ := (s.queueReturned.modTheatre Theatre.emptied).sourcesReleased_only
  rw [e]
  dsimp only
  rw [State.emitNote_lists]
  split_ifs <;> rfl

theorem State.clearShow_notes (s : State) (subject : Nat) :
    (s.clearShow subject).notes = (s.emitNote .showState 3 subject s.theatre.queue.length).notes := by
  obtain ⟨lists, e⟩ := s.queueReturned_only
  obtain ⟨channels, port, e'⟩ := (({ s with lists } : State).modTheatre Theatre.emptied).sourcesReleased_only
  rw [State.clearShow_eq, e, e']
  refine State.emitNote_notes_congr ?_ ?_ _ _ _ _ <;> split_ifs <;> rfl

end Sys2Proof.Machine

/-- Settles O54: a hold and a resumption by their equations (signals to the sources' channels, the SHOW programs), a clear by
its steps; the take of the record adds the walker's return. -/
theorem showHold : Obligations.ShowHold := by
  unfold Obligations.ShowHold
  intro s h b st done signalled noted inHand
  refine ⟨fun code free => ?_, fun r code held hold => ⟨fun host => ?_, fun displaced => ?_⟩, fun code free => ?_,
    fun r code held hold => ?_, fun code => ?_⟩
  · let r : HoldRecord := { byHost := true, heldFrom := st, autoResume := false, outlets := [] }
    have held : s.holdShow = (s.enterHeld r).hostHoldNote st := by
      unfold State.holdShow
      cases e : s.theatre.state with
      | held => exact absurd e free
      | _ => simp only [r, st, e]
    have ran : exec .holdShow s = .next (s.holdShow.reply .cue h 0x02 false []).arbitrate :=
      congrArg Host.Outcome.next (State.handOver_of _ inHand code)
    have after := s.holdShow.reply_replied h 0x02
    have quiet := State.holdShow_quiet (Quiet.refl s)
    obtain ⟨theatre, claims, notes, time⟩ := s.enterHeld_rest r
    obtain ⟨mixer, stations, calls, port⟩ := s.enterHeld_others r
    rw [held] at after quiet ran
    refine ⟨_, ran, quiet.toUntouched.trans after.untouched, after.stage, ?_, fun c => ?_, fun busy => ?_, ?_, ?_, ?_, ?_,
      fun p => ?_⟩
    · rw [after.theatre, State.hostHoldNote, State.emitNote_theatre, theatre]
    · rw [after.channel, State.hostHoldNote, State.emitNote_channels, State.enterHeld_signals]
    · rw [(after.waiting (by rw [State.hostHoldNote, State.emitNote_port, port]; exact busy)).1]
      exact State.emitNote_notes_congr notes time _ _ _ _
    · rw [after.claims, State.hostHoldNote, State.emitNote_claims, claims]
    · rw [after.mixer, State.hostHoldNote, State.emitNote_mixer, mixer]
    · rw [after.stations, State.hostHoldNote, State.emitNote_stations, stations]
    · rw [after.calls, State.hostHoldNote, State.emitNote_calls, calls]
    · rw [after.programs, State.hostHoldNote, State.emitNote_programs, State.enterHeld_programs, State.showsTo, Tab.get_map,
        Program.onHold_eq]
  · have kept : s.holdShow = s := by
      unfold State.holdShow
      rw [show s.theatre.state = .held from held, hold]
      exact if_pos host
    have ran : exec .holdShow s = .next (s.holdShow.reply .cue h 0x02 false []).arbitrate :=
      congrArg Host.Outcome.next (State.handOver_of _ inHand code)
    rw [ran, kept]
  · have ran : exec .holdShow s = .next (s.holdShow.reply .cue h 0x02 false []).arbitrate :=
      congrArg Host.Outcome.next (State.handOver_of _ inHand code)
    have host : s.holdShow = (s.modTheatre fun t => { t with hold := some { r with byHost := true } }).hostHoldNote r.heldFrom := by
      unfold State.holdShow
      rw [show s.theatre.state = .held from held, hold]
      exact if_neg (by simp [displaced])
    rw [ran, host]
    rfl
  · have ran : exec .resumeShow s = .next (s.resumeRecord h).arbitrate :=
      congrArg Host.Outcome.next (State.handOver_of _ inHand code)
    rw [ran, State.resumeRecord, if_neg (by simpa using free)]
    rfl
  · have ran : exec .resumeShow s = .next (s.resumeRecord h).arbitrate :=
      congrArg Host.Outcome.next (State.handOver_of _ inHand code)
    have resumed : s.resumeRecord h = (s.resumeShow 1).reply .cue h 0x02 false [] := if_pos (by simpa using held)
    have after := (s.resumeShow 1).reply_replied h 0x02
    have quiet := State.resumeShow_quiet (Quiet.refl s) 1
    obtain ⟨theatre, -⟩ := s.resumeShow_rest hold 1
    obtain ⟨channels, claims, port, notes⟩ := s.resumeShow_signals hold 1
    rw [resumed] at ran
    refine ⟨_, ran, quiet.toUntouched.trans after.untouched, after.stage, ?_, ?_, fun c => ?_, fun busy => ?_, fun p => ?_⟩
    · rw [after.theatre, theatre]
    · rw [after.claims, claims]
    · rw [after.channel, channels]
    · rw [(after.waiting (by rw [port]; exact busy)).1, notes]
    · rw [after.programs, State.resumeShow_programs s 1 hold, State.showsTo, Tab.get_map, Program.offHold_eq]
  · have ran : exec .clearShow s = .next ((s.clearShow 0).reply .cue h 0x02 false []).arbitrate :=
      congrArg Host.Outcome.next (State.handOver_of _ inHand code)
    have after := (s.clearShow 0).reply_replied h 0x02
    have quiet := State.clearShow_quiet (Quiet.refl s) 0
    have clear := s.clearShow_cleared 0
    have granted (busy : s.port.grant ≠ none) : (s.clearShow 0).port.grant ≠ none := quiet.toActs.granted_ne busy
    obtain ⟨b, same, released⟩ := s.clearShow_channels 0
    have found (x : Fin 16) : b.channelOf (.source x) = s.channelOf (.source x) := State.channelOf_congr (fun _ => by rw [same]) _
    refine ⟨_, ran, quiet.toUntouched.trans after.untouched, after.stage, ?_, fun busy => ?_, fun c none => ?_,
      fun x c own free ended => ?_, ?_, fun p => ?_, fun busy => ?_⟩
    · rw [after.theatre, clear.theatre]
      rfl
    · rw [(after.waiting (granted busy)).1, s.clearShow_notes]
    · rw [after.channel, released, State.sourcesReleased,
        (State.forAll_released (allFin_nodup 16) b c).1 (fun x _ => by rw [found]; exact none x), same]
    · have left := (State.forAll_released (allFin_nodup 16) b c).2 ⟨x, mem_allFin x, by rw [found]; exact own⟩
        (by rw [same]; exact ended) (by rw [same]; exact free)
      have kept := after.channel c
      rw [released] at kept
      obtain ⟨owner, fifo, state⟩ := left.same kept
      exact ⟨owner, fifo, state⟩
    · rw [after.claims, clear.claims]
    · rw [after.programs, clear.programs]
      by_cases held : s.theatre.state = .held
      · rw [if_pos held, State.showsTo, Tab.get_map, Program.offHold_eq]
        simp only [st, held, true_and]
      · rw [if_neg held]
        simp only [st, held, false_and, if_false]
    · rw [(after.waiting (granted busy)).2.2, s.clearShow_returns, State.queueReturned_queue fun h' m stage => by
        rw [inHand] at stage
        exact nomatch stage]
      rfl

end

section
/-! PROOF. The show's cues: their start and completion, and CUE, GO and BIND_SOURCE (O53). -/

open Sys2Proof Sys2Proof.Machine

namespace Sys2Proof.Machine

/-! ### The channels' acts look at the bindings and the window alone, of the show and of the lists -/

/-- The state with another show and other lists. -/
def State.restaged (u : Theatre) (l : ListEngine) (s : State) : State := { s with theatre := u, lists := l }

section
variable (s : State) (u : Theatre) (l : ListEngine)

theorem State.freeIfDone_restaged (c : Fin 16) : (s.restaged u l).freeIfDone c = (s.freeIfDone c).restaged u l := by
  unfold State.freeIfDone
  rw [apply_ite (State.restaged u l)]
  rfl

theorem State.discardTransfer_restaged (c : Fin 16) (keep : Bool) :
    (s.restaged u l).discardTransfer c keep = (s.discardTransfer c keep).restaged u l := by
  unfold State.discardTransfer
  rw [show (s.restaged u l).port = s.port from rfl]
  split
  · rw [apply_ite (State.restaged u l)]
    rfl
  · rfl

theorem State.enterEnded_restaged (root : l.root = s.lists.root) (c : Fin 16) :
    (s.restaged u l).enterEnded c = (s.enterEnded c).restaged u l := by
  have plan : (s.restaged u l).returnPlan = s.returnPlan := by
    unfold State.returnPlan State.inWindow
    rw [show (s.restaged u l).lists.root = s.lists.root from root]
  unfold State.enterEnded
  rw [plan]
  exact State.freeIfDone_restaged (s.modChannel c _) u l c

theorem State.releaseChannel_restaged (root : l.root = s.lists.root) (w : ChanOwner) :
    (s.restaged u l).releaseChannel w = (s.releaseChannel w).restaged u l := by
  unfold State.releaseChannel
  rw [show (s.restaged u l).channelOf w = s.channelOf w from rfl]
  cases s.channelOf w with
  | none => rfl
  | some c =>
    have kept : (s.discardTransfer c true).lists = s.lists := by
      unfold State.discardTransfer
      split
      · split <;> rfl
      · rfl
    dsimp only
    rw [State.discardTransfer_restaged, State.enterEnded_restaged _ _ _ (root.trans (congrArg _ kept.symm)),
      apply_ite (State.restaged u l)]
    rfl

theorem State.emitNote_restaged (k : NoteKind) (code subject detail : Nat) :
    (s.restaged u l).emitNote k code subject detail = (s.emitNote k code subject detail).restaged u l := by
  unfold State.emitNote
  rw [apply_ite (State.restaged u l)]
  dsimp only
  rw [apply_ite (State.restaged u l)]
  rfl

theorem State.performed_restaged (bound : u.bindings = s.theatre.bindings) (root : l.root = s.lists.root) (a : TrackAction) :
    (s.restaged u l).performed a = (s.performed a).restaged u l := by
  cases a with
  | stop x => exact s.releaseChannel_restaged u l root _
  | start x d =>
    have bound' : (s.restaged u l).theatre.bindings.get x = s.theatre.bindings.get x := congrArg (fun b => b.get x) bound
    unfold State.performed
    dsimp only
    rw [bound', State.releaseChannel_restaged _ _ _ root,
      show ((s.releaseChannel (.source x)).restaged u l).freeChannel = (s.releaseChannel (.source x)).freeChannel from rfl,
      State.emitNote_restaged, State.emitNote_restaged, apply_ite (State.restaged u l)]
    cases (s.releaseChannel (.source x)).freeChannel <;> rfl

end

theorem State.performed_theatre (s : State) (a : TrackAction) : (s.performed a).theatre = s.theatre := by
  cases a with
  | stop x => exact s.releaseChannel_theatre _
  | start x d =>
    unfold State.performed
    dsimp only
    split
    · split
      · exact s.releaseChannel_theatre _
      · rw [State.emitNote_theatre, State.releaseChannel_theatre]
    · exact State.emitNote_theatre ..

theorem State.releaseChannel_lists (s : State) (w : ChanOwner) : (s.releaseChannel w).lists = s.lists := by
  obtain ⟨_, _, e⟩ := s.releaseChannel_only w
  rw [e]

theorem State.performed_lists (s : State) (a : TrackAction) : (s.performed a).lists = s.lists := by
  cases a with
  | stop x => exact s.releaseChannel_lists _
  | start x d =>
    unfold State.performed
    dsimp only
    split
    · split
      · exact s.releaseChannel_lists _
      · rw [State.emitNote_lists, State.releaseChannel_lists]
    · exact State.emitNote_lists ..

@[simp] theorem State.tracked_theatre (s : State) (cue : Cue) : (s.tracked cue).theatre = s.theatre := by
  unfold State.tracked
  generalize cue.tracks = acts
  induction acts generalizing s with
  | nil => rfl
  | cons a acts ih => rw [List.foldl_cons, ih, State.performed_theatre]

@[simp] theorem State.tracked_lists (s : State) (cue : Cue) : (s.tracked cue).lists = s.lists := by
  unfold State.tracked
  generalize cue.tracks = acts
  induction acts generalizing s with
  | nil => rfl
  | cons a acts ih => rw [List.foldl_cons, ih, State.performed_lists]

theorem State.tracked_restaged (s : State) {u : Theatre} {l : ListEngine} (bound : u.bindings = s.theatre.bindings)
    (root : l.root = s.lists.root) (cue : Cue) : (s.restaged u l).tracked cue = (s.tracked cue).restaged u l := by
  unfold State.tracked
  generalize cue.tracks = acts
  induction acts generalizing s with
  | nil => rfl
  | cons a acts ih =>
    rw [List.foldl_cons, s.performed_restaged u l bound root, ih _ (by rw [State.performed_theatre]; exact bound)
      (by rw [State.performed_lists]; exact root), List.foldl_cons]

theorem State.tracked_modTheatre (s : State) (f : Theatre → Theatre) (kept : (f s.theatre).bindings = s.theatre.bindings)
    (cue : Cue) : (s.modTheatre f).tracked cue = (s.tracked cue).modTheatre f := by
  have moved := s.tracked_restaged (u := f s.theatre) (l := s.lists) kept rfl cue
  have same : (s.tracked cue).restaged (f s.theatre) s.lists = (s.tracked cue).modTheatre f := by
    unfold State.modTheatre
    rw [State.tracked_theatre, ← State.tracked_lists s cue]
    rfl
  rw [← same]
  exact moved

/-! ### Track actions (R157) -/

/-- A track action whose stream's first address lies in the shared window. -/
theorem State.trackAction_performed {s : State} {a : TrackAction}
    (opens : ∀ x d, a = .start x d → s.inWindow d.first 32 32 = true) : s.trackAction a = s.performed a := by
  cases a with
  | stop x => rfl
  | start x d =>
    have window : (s.releaseChannel (.source x)).inWindow d.first 32 32 = true := by
      unfold State.inWindow
      rw [(State.releaseChannel_quiet (Quiet.refl s) (.source x)).root]
      exact opens x d rfl
    unfold State.trackAction State.performed
    refine if_congr beq_iff_eq ?_ rfl
    unfold State.bind
    dsimp only
    cases free : (s.releaseChannel (.source x)).freeChannel with
    | none => rfl
    | some c =>
      dsimp only
      have read (f : Channel → Channel) : ((s.releaseChannel (.source x)).modChannel c f).inWindow d.first 32 32 = true := window
      rw [State.bindTo, State.toRead, if_pos (read _)]
      unfold State.modChannel
      simp only [Tab.modify_modify]
      rfl

theorem State.trackAction_inWindow (s : State) (a : TrackAction) (addr size align : Nat) :
    (s.trackAction a).inWindow addr size align = s.inWindow addr size align := by
  unfold State.inWindow
  rw [(State.trackAction_quiet (Quiet.refl s) a).root]

theorem State.forAll_trackAction {s : State} {cue : Cue} (opens : s.opens cue) :
    s.forAll cue.tracks State.trackAction = s.tracked cue := by
  unfold State.opens at opens
  unfold State.tracked
  generalize cue.tracks = acts at opens ⊢
  induction acts generalizing s with
  | nil => rfl
  | cons a acts ih =>
    have first : s.trackAction a = s.performed a :=
      State.trackAction_performed fun x d start => opens x d (start ▸ List.mem_cons_self)
    rw [State.forAll_cons, ih, first, List.foldl_cons]
    intro x d mem
    rw [State.trackAction_inWindow]
    exact opens x d (List.mem_cons_of_mem _ mem)

theorem State.opens_modTheatre {s : State} {cue : Cue} (f : Theatre → Theatre) (opens : s.opens cue) :
    (s.modTheatre f).opens cue := opens

theorem State.tracked_quiet {s : State} {cue : Cue} (opens : s.opens cue) : Quiet s (s.tracked cue) := by
  rw [← State.forAll_trackAction opens]
  exact State.forAll_quiet (Quiet.refl s) _ _ fun a t quiet => State.trackAction_quiet quiet a

/-! ### The start of a cue (R157) -/

theorem State.modTheatre_congr (s : State) {f g : Theatre → Theatre} (same : f s.theatre = g s.theatre) :
    s.modTheatre f = s.modTheatre g := by
  unfold State.modTheatre
  rw [same]

theorem State.modTheatre_modTheatre (s : State) (f g : Theatre → Theatre) :
    (s.modTheatre f).modTheatre g = s.modTheatre fun t => g (f t) := rfl

theorem State.beginCue_eq {s : State} {cue : Cue} (opens : s.opens cue) :
    s.beginCue cue = (s.tracked cue).modTheatre fun t => t.begun cue := by
  unfold State.beginCue
  dsimp only
  rw [State.forAll_trackAction (State.opens_modTheatre _ opens), State.tracked_modTheatre]
  · rfl
  · rfl

theorem State.tracked_bare {s : State} {cue : Cue} (bare : cue.tracks = []) : s.tracked cue = s := by
  unfold State.tracked
  rw [bare]
  rfl

theorem State.beginCue_bare {s : State} {cue : Cue} (bare : cue.tracks = []) :
    s.beginCue cue = s.modTheatre fun t => t.begun cue := by
  rw [State.beginCue_eq fun x d mem => by simp [bare] at mem, State.tracked_bare bare]

/-! ### The completion of a fade (R158) -/

theorem Theatre.headAtOnce_iff (t : Theatre) : t.headAtOnce = true ↔ atOnce t.queue := by
  unfold Theatre.headAtOnce atOnce
  cases t.queue <;> simp

theorem Theatre.settleHead_eq (t : Theatre) : t.settleHead =
    { t with
      state := match t.queue with
        | [] => .idle
        | cue :: _ => if cue.auto then .waiting else .ready
      follow := match t.queue with
        | [] => none
        | cue :: _ => if cue.auto then some cue.delay else none } := by
  unfold Theatre.settleHead
  cases t.queue with
  | nil => rfl
  | cons cue rest => cases auto : cue.auto <;> simp [auto]

theorem State.finishFade_eq {s : State} {cue : Cue} {rest : List Cue} (queue : s.theatre.queue = cue :: rest) :
    s.finishFade =
      (s.modTheatre fun t => t.completed (t.next.getD t.live) rest).requestReturn .cue (cue.done stDone) := by
  unfold State.finishFade
  rw [queue]
  dsimp only [List.head?_cons]
  refine congrArg (State.requestReturn .cue (cue.done stDone)) ?_
  refine s.modTheatre_congr ?_
  rw [Theatre.settleHead_eq]
  simp only [queue, List.tail_cons]
  rfl

/-! ### The head cue starts -/

theorem State.startHead_none {s : State} (queue : s.theatre.queue = []) : s.startHead = s := by
  unfold State.startHead
  rw [queue]
  rfl

section
variable {s : State} {cue : Cue} {rest : List Cue}

theorem State.startHead_fades (queue : s.theatre.queue = cue :: rest) (fade : cue.fade ≠ 0) :
    s.startHead = s.beginCue cue := by
  unfold State.startHead
  rw [queue, List.length_cons, State.startChain, queue]
  exact if_neg fade

/-- With a fade of 0 and no head after it that starts at once, the cue completes at once. -/
theorem State.startHead_ends (queue : s.theatre.queue = cue :: rest) (fade : cue.fade = 0) (later : ¬atOnce rest)
    (opens : s.opens cue) : s.startHead =
      ((s.tracked cue).modTheatre fun t => t.completed (cue.over t.live) rest).requestReturn .cue (cue.done stDone) := by
  have queue' : (s.beginCue cue).theatre.queue = cue :: rest := by
    rw [State.beginCue_eq opens]
    exact (congrArg Theatre.queue (s.tracked_theatre cue)).trans queue
  have ends : (s.beginCue cue).finishFade =
      ((s.tracked cue).modTheatre fun t => t.completed (cue.over t.live) rest).requestReturn .cue (cue.done stDone) := by
    rw [State.finishFade_eq queue', State.beginCue_eq opens]
    rfl
  unfold State.startHead
  rw [queue, List.length_cons, State.startChain, queue]
  dsimp only
  rw [if_pos fade, ends, if_neg]
  rw [Theatre.headAtOnce_iff, State.requestReturn_theatre]
  exact later

end

/-! ### The checks of a CUE record (R156) -/

theorem mapM_eq_some_map {α β : Type} {f : α → Option β} {g : α → β} {xs : List α} (all : ∀ x ∈ xs, f x = some (g x)) :
    xs.mapM f = some (xs.map g) := by
  induction xs with
  | nil => rfl
  | cons x xs ih =>
    rw [List.mapM_cons, all x List.mem_cons_self, ih fun y mem => all y (List.mem_cons_of_mem _ mem)]
    rfl

theorem mapM_eq_none {α β : Type} {f : α → Option β} {xs : List α} (bad : ∃ x ∈ xs, f x = none) : xs.mapM f = none := by
  induction xs with
  | nil => simp at bad
  | cons x xs ih =>
    rw [List.mapM_cons]
    cases first : f x with
    | none => rfl
    | some y =>
      rw [ih]
      · rfl
      · obtain ⟨z, mem, none⟩ := bad
        rcases List.mem_cons.mp mem with rfl | mem
        · simp [first] at none
        · exact ⟨z, mem, none⟩

/-- The prime level that a record's prime field gives (R95). -/
def primeLevel (n : Nat) : Nat := if n = 0 then 1024 else max 256 (min 4096 (n / 256 * 256))

theorem settlePrime_eq (n : Nat) : settlePrime n = (primeLevel n, n != 0 && primeLevel n != n) := by
  unfold settlePrime primeLevel
  by_cases none : n = 0
  · simp [none]
  · rw [if_neg none, if_neg none]
    split_ifs with low high
    · have level : max 256 (min 4096 (n / 256 * 256)) = 256 := by omega
      simp [level, none, Nat.ne_of_gt low]
    · have level : max 256 (min 4096 (n / 256 * 256)) = 4096 := by omega
      simp [level, none, Nat.ne_of_lt high]
    · have level : max 256 (min 4096 (n / 256 * 256)) = n / 256 * 256 := by omega
      rw [level]
      refine Prod.ext rfl ?_
      rw [Bool.eq_iff_iff]
      simp only [bne_iff_ne, ne_eq, Bool.and_eq_true]
      omega

/-- A track action that passes the checks. -/
def State.trackGood (s : State) (x : RawTrack) : Prop := ∃ y : Fin 16, x.source = y.val ∧ (x.action = 1 ∨ (x.action = 0 ∧
  x.desc.format ≤ 1 ∧ x.desc.order ≤ 1 ∧ x.desc.mode ≤ 1 ∧ s.inWindow x.desc.first 32 32 = true ∧
  s.theatre.bindings.get y = .playback))

/-- The track action that a raw one becomes. -/
def RawTrack.settled (x : RawTrack) : TrackAction :=
  let y : Fin 16 := ⟨x.source % 16, by omega⟩
  if x.action = 0 then .start y
    { first := x.desc.first, pcm24 := x.desc.format == 1, swapped := x.desc.order == 1, repeats := x.desc.mode == 1
      count := x.desc.count, prime := primeLevel x.desc.prime }
  else .stop y

/-- A track action whose prime level the part changes (R95). -/
def RawTrack.clamped (x : RawTrack) : Bool := x.action == 0 && x.desc.prime != 0 && primeLevel x.desc.prime != x.desc.prime

theorem State.descOk_iff (s : State) (r : RawDesc) : s.descOk r = true ↔
    r.format ≤ 1 ∧ r.order ≤ 1 ∧ r.mode ≤ 1 ∧ s.inWindow r.first 32 32 = true := by
  simp [State.descOk, and_assoc]

theorem State.trackOf_good {s : State} {x : RawTrack} (good : s.trackGood x) :
    s.trackOf x = some (x.settled, x.clamped) := by
  obtain ⟨y, source, rest⟩ := good
  have index : (⟨x.source % 16, by omega⟩ : Fin 16) = y := Fin.ext (by
    change x.source % 16 = y.val
    have := y.isLt
    omega)
  unfold State.trackOf RawTrack.settled RawTrack.clamped
  rw [index, source, toFin?_val]
  dsimp only
  rcases rest with stop | ⟨start, format, order, mode, window, playback⟩
  · rw [stop]
    rfl
  · have ok : s.descOk x.desc = true := (s.descOk_iff _).mpr ⟨format, order, mode, window⟩
    rw [start]
    simp [ok, playback, RawDesc.settle, settlePrime_eq]

theorem State.trackOf_bad {s : State} {x : RawTrack} (bad : ¬s.trackGood x) : s.trackOf x = none := by
  unfold State.trackOf
  split
  · rfl
  · next y found =>
    have source := toFin?_eq_some_iff.mp found
    split
    · next start =>
      refine if_neg fun ok => bad ⟨y, source, .inr ?_⟩
      rw [Bool.and_eq_true, State.descOk_iff, beq_iff_eq] at ok
      obtain ⟨⟨format, order, mode, window⟩, playback⟩ := ok
      exact ⟨start, format, order, mode, window, playback⟩
    · next stop => exact absurd ⟨y, source, .inl stop⟩ bad
    · rfl

/-- The clamp mark of a CUE record. -/
def cueMark (h : Hand) (blocks : List (List Byte)) : Bool :=
  decide (60000 < (cueRec h.bytes).fade ∨ 600000 < (cueRec h.bytes).delay) ||
    (rawTracks (blocks.getD 1 []) (cueRec h.bytes).tracks).any RawTrack.clamped

/-- The cue that a CUE record gives. -/
def cueTaken (h : Hand) (blocks : List (List Byte)) : Cue :=
  let r := cueRec h.bytes
  { record := h.ref (cueMark h blocks), scene := (List.range 136).map fun i => halfAt (blocks.headD []) (2 * i)
    fade := min 60000 r.fade, auto := r.follow == 1, delay := min 600000 r.delay
    tracks := (rawTracks (blocks.getD 1 []) r.tracks).map RawTrack.settled }

theorem State.cueRecord_refused {s : State} {h : Hand} {blocks : List (List Byte)}
    (bad : 4 < (cueRec h.bytes).tracks ∨ 1 < (cueRec h.bytes).follow ∨
      ∃ x ∈ rawTracks (blocks.getD 1 []) (cueRec h.bytes).tracks, ¬s.trackGood x) :
    s.cueRecord h blocks = s.reply .cue h stBadField false [] := by
  unfold State.cueRecord
  dsimp only
  split_ifs with sizes
  · rfl
  · rw [Bool.or_eq_true, decide_eq_true_iff, decide_eq_true_iff] at sizes
    obtain ⟨x, mem, track⟩ := (bad.resolve_left fun more => sizes (.inl more)).resolve_left fun more => sizes (.inr more)
    rw [mapM_eq_none ⟨x, mem, State.trackOf_bad track⟩]

theorem State.cueRecord_queued {s : State} {h : Hand} {blocks : List (List Byte)}
    (tracks : (cueRec h.bytes).tracks ≤ 4) (follow : (cueRec h.bytes).follow ≤ 1)
    (good : ∀ x ∈ rawTracks (blocks.getD 1 []) (cueRec h.bytes).tracks, s.trackGood x) :
    s.cueRecord h blocks = (s.take .cue h (cueMark h blocks)).cueQueued (cueTaken h blocks) := by
  have mark : ((decide (60000 < (cueRec h.bytes).fade) || decide (600000 < (cueRec h.bytes).delay)) ||
      (((rawTracks (blocks.getD 1 []) (cueRec h.bytes).tracks).map fun x => (x.settled, x.clamped)).any fun y => y.2)) =
        cueMark h blocks := by
    rw [cueMark, List.any_map, Bool.decide_or]
    rfl
  unfold State.cueRecord
  dsimp only
  rw [if_neg (by simp [tracks, follow]), mapM_eq_some_map fun x mem => State.trackOf_good (good x mem)]
  simp only [clampMark_zero, mark, List.map_map]
  rfl

/-- A return of the record at its TAKEN write, not yet granted, takes that write's place (R17). -/
theorem State.requestReturn_withdraws {s : State} {l : ListId} {h : Hand} {mark : Bool} {r : Return}
    (stage : (s.walker l).stage = .takenWrite h mark) (own : h.addr = r.record.addr)
    (waits : s.takenGranted l h.addr = false) : s.requestReturn l r = s.setStage l (.returnWrite h r false) := by
  unfold State.requestReturn
  rw [stage]
  exact if_pos (by simp [own, own ▸ waits])

/-! ### A cue joins the queue (R156) -/

section
variable {s : State} {cue : Cue}

theorem State.cueQueued_waits (busy : s.theatre.state = .ready ∨ s.theatre.state = .waiting ∨ s.theatre.state = .fading) :
    s.cueQueued cue = s.modTheatre fun t => { t with queue := t.queue ++ [cue] } := by
  unfold State.cueQueued
  rcases busy with e | e | e <;> simp only [e]

theorem State.cueQueued_held {x : HoldRecord} (held : s.theatre.state = .held) (hold : s.theatre.hold = some x) :
    s.cueQueued cue = if x.heldFrom = .idle then
        s.modTheatre fun t =>
          if cue.auto then
            { t with queue := t.queue ++ [cue], hold := some { x with heldFrom := .waiting }, follow := some cue.delay }
          else { t with queue := t.queue ++ [cue], hold := some { x with heldFrom := .ready } }
      else s.modTheatre fun t => { t with queue := t.queue ++ [cue] } := by
  unfold State.cueQueued
  simp only [held, hold, beq_iff_eq]
  rfl

/-- The first cue of an IDLE show, before a start at once. -/
theorem State.cueQueued_first (idle : s.theatre.state = .idle) (queue : s.theatre.queue = []) :
    s.cueQueued cue =
      (let v := s.modTheatre fun t => { t with
        queue := t.queue ++ [cue], state := if cue.auto then .waiting else .ready
        follow := if cue.auto then some cue.delay else none }
      if cue.auto = true ∧ cue.delay = 0 then v.startHead else v) := by
  have settled : (s.modTheatre fun t => { t with queue := t.queue ++ [cue] }).modTheatre Theatre.settleHead =
      s.modTheatre fun t => { t with
        queue := t.queue ++ [cue], state := if cue.auto then .waiting else .ready
        follow := if cue.auto then some cue.delay else none } := by
    rw [State.modTheatre_modTheatre]
    refine s.modTheatre_congr ?_
    rw [Theatre.settleHead_eq]
    simp only [queue, List.nil_append]
  unfold State.cueQueued
  simp only [idle]
  rw [settled]
  refine if_congr ?_ rfl rfl
  rw [Theatre.headAtOnce_iff]
  simp [atOnce, queue]

theorem State.cueQueued_manual (idle : s.theatre.state = .idle) (queue : s.theatre.queue = []) (manual : cue.auto = false) :
    s.cueQueued cue = s.modTheatre fun t => { t with queue := t.queue ++ [cue], state := .ready, follow := none } := by
  rw [State.cueQueued_first idle queue]
  dsimp only
  rw [if_neg (by simp [manual]), manual]
  rfl

theorem State.cueQueued_delayed (idle : s.theatre.state = .idle) (queue : s.theatre.queue = []) (auto : cue.auto = true)
    (delay : cue.delay ≠ 0) : s.cueQueued cue =
      s.modTheatre fun t => { t with queue := t.queue ++ [cue], state := .waiting, follow := some cue.delay } := by
  rw [State.cueQueued_first idle queue]
  dsimp only
  rw [if_neg fun both => delay both.2, auto]
  rfl

theorem State.cueQueued_fades (idle : s.theatre.state = .idle) (queue : s.theatre.queue = []) (auto : cue.auto = true)
    (delay : cue.delay = 0) (bare : cue.tracks = []) (fade : cue.fade ≠ 0) :
    s.cueQueued cue = s.modTheatre fun t => ({ t with queue := t.queue ++ [cue] } : Theatre).begun cue := by
  rw [State.cueQueued_first idle queue]
  dsimp only
  rw [if_pos ⟨auto, delay⟩, State.startHead_fades (cue := cue) (rest := []) (by simp [queue]) fade, State.beginCue_bare bare]
  rfl

theorem State.cueQueued_ends {h : Hand} {mark : Bool} (idle : s.theatre.state = .idle) (queue : s.theatre.queue = [])
    (auto : cue.auto = true) (delay : cue.delay = 0) (bare : cue.tracks = []) (fade : cue.fade = 0)
    (stage : (s.walker .cue).stage = .takenWrite h mark) (own : h.addr = cue.record.addr)
    (waits : s.takenGranted .cue h.addr = false) : s.cueQueued cue =
      (s.modTheatre fun t => t.completed (cue.over t.live) []).setStage .cue (.returnWrite h (cue.done stDone) false) := by
  rw [State.cueQueued_first idle queue]
  dsimp only
  rw [if_pos ⟨auto, delay⟩, State.startHead_ends (cue := cue) (rest := []) (by simp [queue]) fade (by simp [atOnce])
    (fun x d mem => by simp [bare] at mem), State.tracked_bare bare]
  exact State.requestReturn_withdraws stage own waits

end

theorem State.enterEnded_channels (s : State) (c : Fin 16) : { s.enterEnded c with channels := s.channels } = s := by
  unfold State.enterEnded
  rcases State.freeIfDone_cases (s.modChannel c _) c with e | e <;> rw [e] <;> rfl

theorem State.enterEnded_port (s : State) (c : Fin 16) : (s.enterEnded c).port = s.port := by
  unfold State.enterEnded
  rcases State.freeIfDone_cases (s.modChannel c _) c with e | e <;> rw [e] <;> rfl

theorem State.discardTransfer_own {s : State} {c : Fin 16} {x : Xfer} (grant : s.port.grant = some ⟨.channel c x, false⟩)
    (write : ∀ y, x ≠ .writeBack y) : (s.discardTransfer c true).port.grant = some ⟨.channel c x, true⟩ := by
  have reads : x.isWriteBack = false := by
    cases x with
    | writeBack y => exact absurd rfl (write y)
    | _ => rfl
  unfold State.discardTransfer
  rw [grant]
  dsimp only
  rw [if_pos (by simp [reads])]

theorem State.discardTransfer_idle {s : State} {c : Fin 16} (idle : ∀ x g, s.port.grant ≠ some ⟨.channel c x, g⟩)
    (keep : Bool) : s.discardTransfer c keep = s := by
  unfold State.discardTransfer
  split
  · next d x g grant =>
    refine if_neg fun own => ?_
    rw [Bool.and_eq_true, beq_iff_eq] at own
    exact idle x g (own.1 ▸ grant)
  · rfl

theorem State.setStage_modTheatre (s : State) (l : ListId) (g : Stage) (f : Theatre → Theatre) :
    (s.setStage l g).modTheatre f = (s.modTheatre f).setStage l g := rfl

theorem State.setStage_take (s : State) (l : ListId) (h : Hand) (mark : Bool) (g : Stage) :
    (s.take l h mark).setStage l g = s.setStage l g := by
  unfold State.take
  exact State.modWalker_modWalker s l _ _

end Sys2Proof.Machine

/-- Settles O53: a cue is taken by its checks and joins the queue by the show's state; the head starts and completes by the
equations of `startHead` and `finishFade`; a track action's channel is released, and a source takes its binding. -/
theorem cueRecords : Obligations.CueRecords := by
  unfold Obligations.CueRecords
  refine ⟨?_, ?_, ?_, ?_⟩
  · intro s h blocks r raw good prime action scene mark cue queued inHand code
    have ran : exec .cue s = .next (s.cueRecord h blocks).arbitrate :=
      congrArg Host.Outcome.next (State.handOver_of _ inHand code)
    refine ⟨fun bad => by rw [ran, State.cueRecord_refused bad]; rfl, fun tracks allGood => ?_⟩
    have taken {u : State} (follow : r.follow ≤ 1) (queued : (s.take .cue h mark).cueQueued cue = u) :
        exec .cue s = .next u.arbitrate := by
      rw [ran, State.cueRecord_queued tracks follow allGood, ← queued]
      rfl
    have manual (zero : r.follow = 0) : cue.auto = false := by simp [cue, zero]
    have auto (one : r.follow = 1) : cue.auto = true := by simp [cue, one]
    have bare (none : r.tracks = 0) : cue.tracks = [] := by simp [cue, raw, none, rawTracks]
    refine ⟨fun zero idle queue => taken (by omega) (State.cueQueued_manual idle queue (manual zero)),
      fun one late idle queue => taken (by omega) (State.cueQueued_delayed idle queue (auto one) ?_),
      fun one now none fade idle queue => taken (by omega) (State.cueQueued_fades idle queue (auto one) ?_ (bare none) ?_),
      fun one now none fade idle queue waits => taken (by omega) ((State.cueQueued_ends (s := s.take .cue h mark) (h := h)
        (mark := mark) idle queue (auto one) ?_ (bare none) ?_ (State.take_stage ..) rfl waits).trans ?_),
      fun follow busy => taken follow (State.cueQueued_waits busy), fun x held hold => ⟨fun zero from_ => ?_,
      fun one from_ => ?_, fun follow from_ => ?_⟩⟩
    · change min 600000 r.delay ≠ 0
      omega
    · change min 600000 r.delay = 0
      omega
    · change min 60000 r.fade ≠ 0
      omega
    · change min 600000 r.delay = 0
      omega
    · change min 60000 r.fade = 0
      omega
    · rw [← State.setStage_modTheatre, State.setStage_take]
      rfl
    · refine taken (by omega) ((State.cueQueued_held (s := s.take .cue h mark) held hold).trans ?_)
      rw [if_pos from_, manual zero]
      rfl
    · refine taken (by omega) ((State.cueQueued_held (s := s.take .cue h mark) held hold).trans ?_)
      rw [if_pos from_, auto one]
      rfl
    · exact taken follow ((State.cueQueued_held (s := s.take .cue h mark) held hold).trans (if_neg from_))
  · intro s h b returned answers inHand code
    have ran : exec .go s = .next (s.goRecord h).arbitrate := congrArg Host.Outcome.next (State.handOver_of _ inHand code)
    have free : ∀ h' m, (s.walker .cue).stage ≠ .takenWrite h' m := fun h' m stage => by
      rw [inHand] at stage
      exact nomatch stage
    have answered {u v : State} (does : s.goRecord h = u.reply .cue h 0x02 false []) (same : u = v) : answers v := by
      rw [← same]
      exact ran.trans (by rw [does])
    have starts (ready : s.theatre.state = .ready ∨ s.theatre.state = .waiting) :
        s.goRecord h = s.startHead.reply .cue h 0x02 false [] := by
      unfold State.goRecord
      rcases ready with e | e <;> rw [e] <;> rfl
    refine ⟨fun idle => ?_, fun held => ?_, fun cue rest queue ready => ⟨fun fade opens => ?_, fun fade bare later => ?_⟩,
      fun cue rest bank queue fading next => ?_⟩
    · rw [ran, State.goRecord, idle]
      rfl
    · rw [ran, State.goRecord, held]
      rfl
    · exact answered (starts ready) ((State.startHead_fades queue fade).trans (State.beginCue_eq opens))
    · refine answered (starts ready) ((State.startHead_ends queue fade later fun x d mem => by simp [bare] at mem).trans ?_)
      rw [State.tracked_bare bare]
      exact State.requestReturn_queued (s := s.modTheatre _) free _
    · have goes : s.goRecord h = s.finishFade.startHead.reply .cue h 0x02 false [] := by
        unfold State.goRecord
        rw [fading]
        rfl
      have over_ : s.finishFade = returned cue (s.modTheatre fun t => t.completed bank rest) := by
        have same : s.modTheatre (fun t => t.completed (t.next.getD t.live) rest) = s.modTheatre fun t => t.completed bank rest :=
          s.modTheatre_congr (by rw [next]; rfl)
        rw [State.finishFade_eq queue, same]
        exact State.requestReturn_queued (s := s.modTheatre _) free _
      have queue' : s.finishFade.theatre.queue = rest := by rw [over_]; rfl
      refine ⟨fun last => ?_, fun head after more bare => ⟨fun fade => ?_, fun fade later => ?_⟩⟩
      · subst last
        exact answered goes ((State.startHead_none queue').trans over_)
      · refine answered goes ((State.startHead_fades (queue'.trans more) fade).trans ?_)
        rw [State.beginCue_bare bare, over_]
        rfl
      · refine answered goes ((State.startHead_ends (queue'.trans more) fade later fun x d mem => by simp [bare] at mem).trans ?_)
        rw [State.tracked_bare bare, over_]
        exact State.requestReturn_queued (s := (returned cue (s.modTheatre fun t => t.completed bank rest)).modTheatre
          fun t => t.completed (head.over t.live) after) free _
  · intro s w t
    refine ⟨fun none => ?_, fun c found free ended => ?_⟩
    · unfold t State.releaseChannel
      rw [none]
    · obtain ⟨owner, fifo, state⟩ := State.releaseChannel_left found ended free
      refine ⟨owner, fifo, state, fun e other => s.releaseChannel_other fun same => other (Option.some.inj (found.symm.trans same)).symm,
        fun x grant write => ?_, fun idle => ?_⟩
      · unfold t
        rw [State.releaseChannel_of found ended free, State.enterEnded_port, State.discardTransfer_own grant write]
      · unfold t
        rw [State.releaseChannel_of found ended free, State.discardTransfer_idle idle]
        exact s.enterEnded_channels c
  · intro s h b r refused takes inHand code
    have ran : exec .bindSource s = .next (s.bindRecord h).arbitrate :=
      congrArg Host.Outcome.next (State.handOver_of _ inHand code)
    have took {x : Fin 16} {y : Binding} (source : r.source = x.val) (binding : s.bindingOf r = some y) : takes x y := by
      have index : toFin? 16 (bindRec h.bytes).source = some x := toFin?_eq_some_iff.mpr source
      have record : s.bindRecord h = if s.theatre.bindings.get x = y then s.reply .cue h stDone false [] else
          ((s.releaseChannel (.source x)).modTheatre fun t => { t with bindings := t.bindings.set x y }).reply .cue h stDone
            false [] := by
        unfold State.bindRecord
        dsimp only
        rw [index, binding]
      refine ⟨fun same => ?_, fun other none => ?_⟩
      · rw [ran, record, if_pos same]
        rfl
      · have kept : s.releaseChannel (.source x) = s := by
          unfold State.releaseChannel
          rw [none]
        rw [ran, record, if_neg other, kept]
        rfl
    refine ⟨fun bad => ?_, fun x source => ⟨fun unbound => took source ?_, fun playback => took source ?_,
      fun i line inlet kind => took source ?_⟩⟩
    · have none : toFin? 16 (bindRec h.bytes).source = none ∨ s.bindingOf (bindRec h.bytes) = none := by
        rcases bad with far | code | ⟨line, inlet⟩
        · exact .inl (toFin?_eq_none_iff.mpr far)
        · refine .inr ?_
          unfold State.bindingOf
          split
          · next e => exact absurd (e ▸ code) (by decide)
          · next e => exact absurd (e ▸ code) (by decide)
          · next e => exact absurd (e ▸ code) (by decide)
          · rfl
        · refine .inr ?_
          unfold State.bindingOf
          rw [show (bindRec h.bytes).binding = 1 from line]
          rcases inlet with far | ⟨i, named, kind⟩
          · rw [toFin?_eq_none_iff.mpr far]
            rfl
          · rw [show (bindRec h.bytes).inlet = i.val from named, toFin?_val]
            simp [kind]
      have record : s.bindRecord h = s.reply .cue h stBadField false [] := by
        unfold State.bindRecord
        dsimp only
        split
        · next x y found named => simp [found, named] at none
        · rfl
      exact ran.trans (by rw [record]; rfl)
    · simp only [State.bindingOf, unbound]
    · simp only [State.bindingOf, playback]
    · unfold State.bindingOf
      rw [line, inlet, toFin?_val]
      simp [kind]

end

section
/-! PROOF. A period start with nothing due (`State.Calm`): what is left of it but the show's step, the mix and the channels
that starve. -/

open Sys2Proof Sys2Proof.Machine

namespace Sys2Proof.Machine

/-! ### What expires all the same: windows, scan and answer timers, changeover slots -/

/-- Nothing changes but CAUSE, the lists, the Ambient Unit, the trunks, the changeovers and the notes; the root block's copy
stays. -/
def Drifts (s t : State) : Prop := ∃ regs lists ambient trunks changeovers notes,
  t = { s with regs, lists, ambient, trunks, changeovers, notes } ∧ lists.root = s.lists.root

theorem Drifts.refl (s : State) : Drifts s s := ⟨_, _, _, _, _, _, rfl, rfl⟩

theorem Drifts.trans {a b c : State} (h : Drifts a b) (k : Drifts b c) : Drifts a c := by
  obtain ⟨_, _, _, _, _, _, rfl, root⟩ := h
  obtain ⟨_, _, _, _, _, _, rfl, root'⟩ := k
  exact ⟨_, _, _, _, _, _, rfl, root'.trans root⟩

theorem State.forAll_drifts {β : Type} {f : β → State → State} (each : ∀ x s, Drifts s (f x s)) (xs : List β) (s : State) :
    Drifts s (s.forAll xs f) := by
  induction xs generalizing s with
  | nil => exact Drifts.refl s
  | cons x xs ih =>
    rw [State.forAll_cons]
    exact (each x s).trans (ih _)

theorem State.emitNote_only (s : State) (k : NoteKind) (code subject detail : Nat) :
    ∃ regs notes, s.emitNote k code subject detail = { s with regs, notes } := by
  unfold State.emitNote
  dsimp only
  split_ifs <;> exact ⟨_, _, rfl⟩

theorem State.emitNote_drifts (s : State) (k : NoteKind) (code subject detail : Nat) :
    Drifts s (s.emitNote k code subject detail) := by
  obtain ⟨_, _, e⟩ := s.emitNote_only k code subject detail
  exact ⟨_, _, _, _, _, _, e, rfl⟩

theorem State.setCause_drifts (s : State) (b : CauseBit) : Drifts s (s.setCause b) := ⟨_, _, _, _, _, _, rfl, rfl⟩

theorem State.modTrunk_drifts (s : State) (k : Fin 4) (f : Trunk → Trunk) : Drifts s (s.modTrunk k f) :=
  ⟨_, _, _, _, _, _, rfl, rfl⟩

theorem State.modChangeover_drifts (s : State) (x : Fin 8) (f : Changeover → Changeover) : Drifts s (s.modChangeover x f) :=
  ⟨_, _, _, _, _, _, rfl, rfl⟩

theorem State.modWalker_drifts (s : State) (l : ListId) (f : Walker → Walker) : Drifts s (s.modWalker l f) :=
  ⟨_, _, _, _, _, _, rfl, rfl⟩

theorem State.modAmbient_drifts (s : State) (o : Fin 256) (f : AmbientEntry → AmbientEntry) : Drifts s (s.modAmbient o f) :=
  ⟨_, _, _, _, _, _, rfl, rfl⟩

theorem State.requestReturn_drifts (s : State) (l : ListId) (r : Return) : Drifts s (s.requestReturn l r) := by
  unfold State.requestReturn
  dsimp only
  split
  · split <;> exact ⟨_, _, _, _, _, _, rfl, rfl⟩
  · exact ⟨_, _, _, _, _, _, rfl, rfl⟩

theorem State.completeCapture_drifts (s : State) (o : Fin 256) : Drifts s (s.completeCapture o) := by
  unfold State.completeCapture
  dsimp only
  split
  · exact Drifts.refl s
  · exact ((s.modAmbient_drifts o _).trans ((State.modAmbient_drifts _ o _).trans (State.modAmbient_drifts _ o _))).trans
      (State.requestReturn_drifts _ _ _)

theorem State.windowAt_drifts (o : Fin 256) (s : State) : Drifts s (s.windowAt o) := by
  unfold State.windowAt
  dsimp only
  refine Drifts.trans ?_ (State.modAmbient_drifts _ o _)
  split_ifs
  · exact Drifts.refl s
  · exact s.modAmbient_drifts o _
  · exact Drifts.refl s
  · exact ((s.modAmbient_drifts o _).trans (State.modAmbient_drifts _ o _)).trans (State.completeCapture_drifts _ o)
  · exact (s.modAmbient_drifts o _).trans (State.modAmbient_drifts _ o _)

theorem State.windowComplete_drifts (s : State) : Drifts s s.windowComplete := by
  unfold State.windowComplete
  split
  · exact (State.forAll_drifts State.windowAt_drifts _ s).trans ⟨_, _, _, _, _, _, rfl, rfl⟩
  · exact Drifts.refl s

theorem State.answerExpired_drifts (k : Fin 4) (s : State) : Drifts s (s.answerExpired k) := by
  unfold State.answerExpired
  dsimp only
  split
  · exact s.modTrunk_drifts k _
  · exact Drifts.refl s

theorem State.pendingExpired_drifts (x : Fin 8) (s : State) : Drifts s (s.pendingExpired x) := by
  unfold State.pendingExpired
  dsimp only
  split
  · exact ((s.modChangeover_drifts x _).trans (State.setCause_drifts _ _)).trans (State.emitNote_drifts _ _ _ _ _)
  · exact Drifts.refl s

theorem State.releaseExpired_drifts (x : Fin 8) (s : State) : Drifts s (s.releaseExpired x) := by
  unfold State.releaseExpired
  dsimp only
  split
  · exact ((s.modChangeover_drifts x _).trans (State.setCause_drifts _ _)).trans (State.emitNote_drifts _ _ _ _ _)
  · exact Drifts.refl s

theorem State.scanExpired_drifts (l : ListId) (s : State) : Drifts s (s.scanExpired l) := by
  by_cases due : s.part = .running ∧ (s.walker l).scan = some 0
  · rw [State.scanExpired_due due.1 due.2]
    exact s.modWalker_drifts l _
  · rw [State.scanExpired_not_due (by simpa only [← not_and_or] using due)]
    exact Drifts.refl s

theorem State.trainTrunk_drifts (k : Fin 4) (s : State) : Drifts s (s.trainTrunk k) := by
  unfold State.trainTrunk
  split
  · exact s.modTrunk_drifts k _
  · exact Drifts.refl s

/-! ### The expiries and the timers' steps of a calm period -/

/-- The timers of the stations, calls and programs, the beat counter and the ms count, each stepped. -/
def State.ticked (s : State) : State :=
  { s with
    time := s.time + 1
    stations := s.stations.map fun x => { x with holdTimer := Machine.tick x.holdTimer }
    calls := s.calls.map fun c => { c with parties := c.parties.map fun p => { p with ringTimer := Machine.tick p.ringTimer } }
    programs := s.programs.map Program.tick
    beat := if s.beatRunning then s.beat.tick else s.beat }

/-- The state that the show's step of a period start meets. -/
def State.beforeShow (s : State) : State :=
  (s.settleDue.stepTimers.forAll (allFin 4) State.trainTrunk).forAll (allFin 16) State.freeCleared

theorem State.readied_eq (s : State) :
    s.beforeLatch = s.beforeShow.showStep.forAll (allFin 8) State.startVoice := rfl

theorem State.settleDue_drifts {s : State} (calm : s.Calm) : Drifts s s.settleDue := by
  have segments : s.forAll (allFin 8) State.segmentEnd = s := State.forAll_fixed fun v _ => by
    unfold State.segmentEnd
    refine if_neg fun due => ?_
    simp only [Bool.and_eq_true, beq_iff_eq] at due
    exact calm.segments v due.1 due.2
  have links {t : State} (same : t.trunks = s.trunks) : t.forAll (allFin 4) State.syncExpired = t :=
    State.forAll_fixed fun k _ => by
      unfold State.syncExpired
      refine if_neg fun due => ?_
      simp only [Bool.and_eq_true, beq_iff_eq, same] at due
      exact calm.links k due.1 due.2
  have holds {t : State} (drift : Drifts s t) : t.forAll (allFin 64) State.holdExpired = t := State.forAll_fixed fun n _ => by
    obtain ⟨_, _, _, _, _, _, rfl, -⟩ := drift
    unfold State.holdExpired
    refine if_neg fun due => ?_
    rw [beq_iff_eq] at due
    exact calm.holds n due
  have rings {t : State} (drift : Drifts s t) : t.forAll (allFin 16) State.ringsExpired = t := State.forAll_fixed fun c _ => by
    obtain ⟨_, _, _, _, _, _, rfl, -⟩ := drift
    unfold State.ringsExpired
    refine State.forAll_fixed fun i _ => ?_
    unfold State.ringExpired
    split
    · next q found =>
      refine if_neg fun due => ?_
      rw [Bool.and_eq_true, beq_iff_eq, beq_iff_eq] at due
      exact calm.rings c q (List.mem_of_getElem? found) due.2
    · rfl
  have gathers {t : State} (drift : Drifts s t) : t.forAll (allFin 64) State.gatherDue = t := State.forAll_fixed fun p _ => by
    obtain ⟨_, _, _, _, _, _, rfl, -⟩ := drift
    unfold State.gatherDue
    refine if_neg fun due => ?_
    rw [beq_iff_eq] at due
    exact calm.gathers p due
  have durations {t : State} (drift : Drifts s t) : t.forAll (allFin 64) State.durationExpired = t :=
    State.forAll_fixed fun p _ => by
      obtain ⟨_, _, _, _, _, _, rfl, -⟩ := drift
      unfold State.durationExpired
      refine if_neg fun due => ?_
      rw [Bool.and_eq_true, beq_iff_eq, beq_iff_eq] at due
      exact calm.durations p due.2
  have beat {t : State} (drift : Drifts s t) : t.beatExpired = t := by
    obtain ⟨_, _, _, _, _, _, rfl, root⟩ := drift
    unfold State.beatExpired State.beatRunning
    refine if_neg fun due => ?_
    dsimp only at due
    rw [root, Bool.and_eq_true, beq_iff_eq] at due
    exact calm.beat due.1 due.2
  have window := s.windowComplete_drifts
  have upTo := (window.trans (State.forAll_drifts State.answerExpired_drifts (allFin 4) _)).trans
    ((State.forAll_drifts State.pendingExpired_drifts (allFin 8) _).trans
      (State.forAll_drifts State.releaseExpired_drifts (allFin 8) _))
  have linksDue : s.linksDue = s.windowComplete.forAll (allFin 4) State.answerExpired := by
    unfold State.linksDue
    rw [segments, links s.windowComplete_trunks]
  rw [State.settleDue_eq, linksDue, State.slotsDue, State.partiesDue, holds upTo, rings upTo, gathers upTo, durations upTo,
    beat upTo]
  exact upTo.trans (State.forAll_drifts State.scanExpired_drifts _ _)

theorem State.stepTimers_drifts {s t : State} (drift : Drifts s t) : Drifts s.ticked t.stepTimers := by
  obtain ⟨regs, lists, ambient, trunks, changeovers, notes, rfl, root⟩ := drift
  have beat : State.beatRunning { s with regs, lists, ambient, trunks, changeovers, notes } = s.beatRunning := by
    unfold State.beatRunning
    dsimp only
    rw [root]
  unfold State.stepTimers
  rw [beat]
  refine ⟨_, _, _, _, _, _, rfl, ?_⟩
  dsimp only
  split
  · exact root
  · exact root

theorem State.beforeShow_drifts {s : State} (calm : s.Calm) : Drifts s.ticked s.beforeShow := by
  have trained := (State.stepTimers_drifts (State.settleDue_drifts calm)).trans
    (State.forAll_drifts State.trainTrunk_drifts (allFin 4) _)
  have freed {t : State} (drift : Drifts s.ticked t) : t.forAll (allFin 16) State.freeCleared = t :=
    State.forAll_fixed fun c _ => by
      obtain ⟨_, _, _, _, _, _, rfl, -⟩ := drift
      unfold State.freeCleared
      refine if_neg fun clearing => ?_
      rw [beq_iff_eq] at clearing
      refine calm.clearing c (Eq.trans ?_ clearing)
      unfold State.ticked
      dsimp only
      rw [Tab.get_map]
  unfold State.beforeShow
  rw [freed trained]
  exact trained

/-! ### The mix, and the channels that starve -/

/-- The state that the period computes, before its events. -/
def State.mixed (audio : List (List Sample)) (s : State) : State :=
  let chans := s.channels.map Channel.give
  let voices := s.tones.voices.map Voice.give
  let x := s.sounds audio (chans.map Prod.fst) (voices.map Prod.fst)
  let mix := Tab.ofFn (s.mixOutlet x)
  ({ s with
    channels := chans.map fun g : List Int × Channel × ChanEvent => g.2.1
    tones := { s.tones with voices := voices.map Prod.snd }
    mixer := mix.map Prod.fst
    outbound := Tab.ofFn (s.outboundOf (mix.map Prod.snd)) } : State).beginWindow.ambientStep x

/-- The channels' events of the period. -/
def State.gives (s : State) : Tab 16 ChanEvent :=
  (s.channels.map Channel.give).map fun g : List Int × Channel × ChanEvent => g.2.2

/-- The period's state with the channels' events taken and the reads asked for again. -/
def State.sounded (audio : List (List Sample)) (s : State) : State :=
  let t := (s.mixed audio).forAll (allFin 16) (State.channelEvent s.gives)
  { t with channels := t.channels.map Channel.askAgain }

theorem State.mixPeriod_eq (audio : List (List Sample)) (s : State) : s.mixPeriod audio =
    (s.sounded audio).forAll ((allFin 64).filter (s.mixed audio).faded) fun p s =>
      if (s.programs.get p).state == .ending then s.endProgram p stStopped else s := rfl

/-- No alarm owns a channel. -/
def Channel.unalarmed (ch : Channel) : Prop := ∀ k : AlarmKind, ch.owner ≠ some (.program k.slot)

theorem alarmOwner_some {w : Option ChanOwner} {k : AlarmKind} (found : alarmOwner w = some k) : w = some (.program k.slot) := by
  unfold alarmOwner at found
  simpa using List.find?_some found

theorem alarmOwner_slot (k : AlarmKind) : alarmOwner (some (.program k.slot)) = some k := by cases k <;> decide

theorem alarmOwner_none {w : Option ChanOwner} (other : ∀ k : AlarmKind, w ≠ some (.program k.slot)) : alarmOwner w = none := by
  cases found : alarmOwner w with
  | none => rfl
  | some k => exact absurd (alarmOwner_some found) (other k)

/-- What the channels that starve change, alarm channels and the VOICE phases they end, and what the show sources' channels
change whose stream is complete (`gave`). -/
structure Hushed (gave : Tab 16 ChanEvent) (s t : State) : Prop where
  only : ∃ regs port channels tones alarms notes, t = { s with regs, port, channels, tones, alarms, notes }
  granted : t.port.grant.map (·.transfer) = s.port.grant.map (·.transfer)
  channel : ∀ c, (s.channels.get c).unalarmed → gave.get c ≠ .completes → t.channels.get c = s.channels.get c
  owner : ∀ c, (t.channels.get c).owner = (s.channels.get c).owner ∨ (t.channels.get c).owner = none
  voice : ∀ v, (∀ k, (s.tones.voices.get v).user = .alarm k → (s.alarms.kinds.get k.idx).phase ≠ .voice) →
    t.tones.voices.get v = s.tones.voices.get v
  phase : ∀ k : AlarmKind, (s.alarms.kinds.get k.idx).phase ≠ .voice → (t.alarms.kinds.get k.idx).phase ≠ .voice

section
variable {gave : Tab 16 ChanEvent}

theorem Hushed.refl (s : State) : Hushed gave s s :=
  ⟨⟨_, _, _, _, _, _, rfl⟩, rfl, fun _ _ _ => rfl, fun _ => .inl rfl, fun _ _ => rfl, fun _ => id⟩

theorem Hushed.trans {a b c : State} (h : Hushed gave a b) (k : Hushed gave b c) : Hushed gave a c where
  only := by
    obtain ⟨_, _, _, _, _, _, e⟩ := h.only
    obtain ⟨_, _, _, _, _, _, e'⟩ := k.only
    rw [e', e]
    exact ⟨_, _, _, _, _, _, rfl⟩
  granted := k.granted.trans h.granted
  channel c own goes := by
    have same := h.channel c own goes
    rw [k.channel c (by rw [same]; exact own) goes, same]
  owner c := by
    rcases k.owner c with same | none
    · rw [same]
      exact h.owner c
    · exact .inr none
  voice v quiet := by
    have same := h.voice v quiet
    rw [k.voice v fun j user => h.phase j (quiet j (by rw [← same]; exact user)), same]
  phase j quiet := k.phase j (h.phase j quiet)

theorem State.emitNote_hushed (s : State) (k : NoteKind) (code subject detail : Nat) :
    Hushed gave s (s.emitNote k code subject detail) := by
  obtain ⟨_, _, e⟩ := s.emitNote_only k code subject detail
  rw [e]
  exact ⟨⟨_, _, _, _, _, _, rfl⟩, rfl, fun _ _ _ => rfl, fun _ => .inl rfl, fun _ _ => rfl, fun _ => id⟩

theorem State.releaseChannel_owner (s : State) (w : ChanOwner) (c : Fin 16) :
    ((s.releaseChannel w).channels.get c).owner = (s.channels.get c).owner ∨ ((s.releaseChannel w).channels.get c).owner = none := by
  by_cases found : s.channelOf w = some c
  · by_cases over_ : (s.channels.get c).state = .ended ∨ (s.channels.get c).state = .free
    · have kept : s.releaseChannel w = s := by
        unfold State.releaseChannel
        rw [found]
        exact if_pos (by simpa using over_)
      rw [kept]
      exact .inl rfl
    · obtain ⟨ended, free⟩ := not_or.mp over_
      exact .inr (State.releaseChannel_left found ended free).owner
  · rw [s.releaseChannel_other found]
    exact .inl rfl

theorem State.releaseChannel_hushed (s : State) (k : AlarmKind) : Hushed gave s (s.releaseChannel (.program k.slot)) := by
  have granted := (State.releaseChannel_quiet (Quiet.refl s) (.program k.slot)).granted
  have owner := s.releaseChannel_owner (.program k.slot)
  have kept (c : Fin 16) (own : (s.channels.get c).unalarmed) :
      (s.releaseChannel (.program k.slot)).channels.get c = s.channels.get c :=
    s.releaseChannel_other fun found => own k (State.channelOf_owner found)
  obtain ⟨_, _, e⟩ := s.releaseChannel_only (.program k.slot)
  rw [e] at granted kept owner ⊢
  exact ⟨⟨_, _, _, _, _, _, rfl⟩, granted, fun c own _ => kept c own, owner, fun _ _ => rfl, fun _ => id⟩

theorem State.endVoicePhase_hushed (s : State) (k : AlarmKind) : Hushed gave s (s.endVoicePhase k) := by
  unfold State.endVoicePhase
  dsimp only
  split
  · next voice =>
    have phase (j : AlarmKind) (quiet : (s.alarms.kinds.get j.idx).phase ≠ .voice) :
        ((s.modAlarm k fun a => { a with phase := .tone }).alarms.kinds.get j.idx).phase ≠ .voice := by
      rw [State.modAlarm_alarms]
      dsimp only
      rw [Tab.get_modify]
      split
      · nofun
      · exact quiet
    split
    · next v found =>
      refine ⟨⟨_, _, _, _, _, _, rfl⟩, rfl, fun _ _ _ => rfl, fun _ => .inl rfl, fun w quiet => ?_, phase⟩
      rw [State.modVoice_tones]
      dsimp only
      rw [Tab.get_modify]
      refine if_neg fun same => ?_
      have user : (s.tones.voices.get v).user = .alarm k := by
        unfold State.voiceOf at found
        simpa using List.find?_some found
      exact quiet k (same ▸ user) (by simpa using voice)
    · exact ⟨⟨_, _, _, _, _, _, rfl⟩, rfl, fun _ _ _ => rfl, fun _ => .inl rfl, fun _ _ => rfl, phase⟩
  · exact Hushed.refl s

theorem State.channelStarves_hushed (s : State) (c : Fin 16) : Hushed gave s (s.channelStarves c) := by
  unfold State.channelStarves
  dsimp only
  split
  · exact ((State.emitNote_hushed s _ _ _ _).trans (State.releaseChannel_hushed _ _)).trans (State.endVoicePhase_hushed _ _)
  · exact State.emitNote_hushed s _ _ _ _

theorem State.enterEnded_only (s : State) (c : Fin 16) : ∃ channels, s.enterEnded c = { s with channels } := by
  unfold State.enterEnded
  rcases State.freeIfDone_cases (s.modChannel c _) c with e | e <;> rw [e] <;> exact ⟨_, rfl⟩

/-- The stream of a show source, or of nobody, is complete. -/
theorem State.channelCompletes_hushed {s : State} {c : Fin 16} (over_ : gave.get c = .completes)
    (own : ∀ p, (s.channels.get c).owner ≠ some (.program p)) : Hushed gave s (s.channelCompletes c) := by
  have ended : Hushed gave s (s.enterEnded c) := by
    have kept (d : Fin 16) (other : d ≠ c) := s.enterEnded_other other
    have left := s.enterEnded_left c
    obtain ⟨channels, only⟩ := s.enterEnded_only c
    rw [only] at kept left ⊢
    refine ⟨⟨_, _, _, _, _, _, rfl⟩, rfl, fun d _ goes => kept d fun same => goes (same ▸ over_), fun d => ?_, fun _ _ => rfl,
      fun _ => id⟩
    by_cases same : d = c
    · subst same
      exact .inr left.owner
    · exact .inl (congrArg Channel.owner (kept d same))
  unfold State.channelCompletes
  dsimp only
  rw [alarmOwner_none fun k => own k.slot]
  dsimp only
  split
  · next p owner => exact absurd owner (own p)
  · exact ended
  · exact Hushed.refl s

/-- The events of a period in which no program's stream is complete. -/
theorem State.channelEvents_hushed (s : State)
    (own : ∀ c, gave.get c = .completes → ∀ p, (s.channels.get c).owner ≠ some (.program p)) :
    Hushed gave s (s.forAll (allFin 16) (State.channelEvent gave)) := by
  generalize allFin 16 = cs
  induction cs generalizing s with
  | nil => exact Hushed.refl s
  | cons c cs ih =>
    have first : Hushed gave s (s.channelEvent gave c) := by
      unfold State.channelEvent
      split
      · exact Hushed.refl s
      · split
        · exact s.channelStarves_hushed c
        · exact Hushed.refl s
      · next over_ =>
        split
        · exact State.channelCompletes_hushed over_ (own c over_)
        · exact Hushed.refl s
    rw [State.forAll_cons]
    refine first.trans (ih _ fun d over_ p => ?_)
    rcases first.owner d with same | none
    · rw [same]
      exact own d over_ p
    · rw [none]
      nofun

end

/-- No program's stream is in its last period. -/
def State.flowing (s : State) : Prop := ∀ c, (s.channels.get c).state = .draining → 48 < (s.channels.get c).fifo.length ∨
  ∀ p, (s.channels.get c).owner ≠ some (.program p)

theorem Channel.give_completes {ch : Channel} (over_ : ch.give.2.2 = .completes) : ch.state = .draining ∧ ch.fifo.length ≤ 48 := by
  unfold Channel.give at over_
  dsimp only at over_
  split at over_
  · split at over_ <;> exact nomatch over_
  · next draining =>
    refine ⟨draining, ?_⟩
    split at over_
    · next left =>
      rw [List.isEmpty_iff_length_eq_zero, List.length_drop] at left
      omega
    · exact nomatch over_
  · exact nomatch over_

theorem State.gives_get (s : State) (c : Fin 16) : s.gives.get c = (s.channels.get c).give.2.2 := by
  unfold State.gives
  rw [Tab.get_map, Tab.get_map]

theorem Channel.give_owner (ch : Channel) : ch.give.2.1.owner = ch.owner := by
  unfold Channel.give
  dsimp only
  split
  · split <;> rfl
  · rfl
  · rfl

theorem Channel.give_cur (ch : Channel) : ch.give.2.1.cur = ch.cur ∧ ch.give.2.1.reread = ch.reread := by
  unfold Channel.give
  dsimp only
  split
  · split <;> exact ⟨rfl, rfl⟩
  · exact ⟨rfl, rfl⟩
  · exact ⟨rfl, rfl⟩

theorem Channel.askAgain_eq (ch : Channel) :
    ch.askAgain = { ch with reread := match ch.cur with | .waiting _ => true | _ => ch.reread } := by
  obtain ⟨_, _, _, _, _, _, cur, _⟩ := ch
  cases cur <;> rfl

theorem Channel.give_askAgain (ch : Channel) : ch.give.2.1.askAgain =
    { ch.give.2.1 with reread := match ch.cur with | .waiting _ => true | _ => ch.reread } := by
  obtain ⟨cur, reread⟩ := ch.give_cur
  rw [Channel.askAgain_eq, ← cur, ← reread]

/-- What a period's mix and its channels' events leave, where no stream is in its last period. -/
structure Sounded (audio : List (List Sample)) (s t : State) : Prop where
  only : ∃ regs port channels tones alarms notes mixer outbound ambient,
    t = { s with regs, port, channels, tones, alarms, notes, mixer, outbound, ambient }
  granted : t.port.grant.map (·.transfer) = s.port.grant.map (·.transfer)
  channel : ∀ c, (s.channels.get c).unalarmed → (s.channels.get c).give.2.2 ≠ .completes → t.channels.get c =
    { (s.channels.get c).give.2.1 with
      reread := match (s.channels.get c).cur with | .waiting _ => true | _ => (s.channels.get c).reread }
  voice : ∀ v, (∀ k, (s.tones.voices.get v).user = .alarm k → (s.alarms.kinds.get k.idx).phase ≠ .voice) →
    t.tones.voices.get v = (s.tones.voices.get v).give.2
  mixer : t.mixer = (s.mixed audio).mixer

theorem Voice.give_user (x : Voice) : x.give.2.user = x.user := by
  unfold Voice.give
  dsimp only
  split
  · split
    · split <;> rfl
    · rfl
  · rfl

theorem State.beginWindow_only (s : State) : ∃ ambient, s.beginWindow = { s with ambient } := by
  unfold State.beginWindow
  split <;> exact ⟨_, rfl⟩

theorem Tab.map_map {n : Nat} {α β γ : Type} (t : Tab n α) (f : α → β) (g : β → γ) : (t.map f).map g = t.map (g ∘ f) :=
  Tab.ext_get fun i => by rw [Tab.get_map, Tab.get_map, Tab.get_map]; rfl

theorem State.mixed_only (audio : List (List Sample)) (s : State) : ∃ mixer outbound ambient, s.mixed audio =
    { s with
      channels := s.channels.map fun ch => ch.give.2.1
      tones := { s.tones with voices := s.tones.voices.map fun x => x.give.2 }, mixer, outbound, ambient } := by
  have chans : (s.channels.map Channel.give).map (fun g => g.2.1) = s.channels.map fun ch => ch.give.2.1 := Tab.map_map ..
  have voices : (s.tones.voices.map Voice.give).map Prod.snd = s.tones.voices.map fun x => x.give.2 := Tab.map_map ..
  have step (x : Sounds) (u : State) : ∃ ambient, u.beginWindow.ambientStep x = { u with ambient } := by
    obtain ⟨_, e⟩ := u.beginWindow_only
    rw [e]
    exact ⟨_, rfl⟩
  unfold State.mixed
  dsimp only
  generalize Tab.ofFn (s.mixOutlet _) = mix
  generalize s.sounds audio _ _ = x
  rw [chans, voices]
  exact (step x _).elim fun ambient e => ⟨_, _, ambient, e⟩

theorem State.sounded_of (audio : List (List Sample)) {s : State} (flowing : s.flowing) : Sounded audio s (s.sounded audio) := by
  obtain ⟨mixer, outbound, ambient, mixed⟩ := s.mixed_only audio
  have hushed := State.channelEvents_hushed (gave := s.gives) (s.mixed audio) fun c over_ p => by
    rw [State.gives_get] at over_
    obtain ⟨draining, few⟩ := Channel.give_completes over_
    rw [mixed]
    dsimp only
    rw [Tab.get_map, Channel.give_owner]
    exact (flowing c draining).resolve_left (by omega) p
  have asked : s.sounded audio = { (s.mixed audio).forAll (allFin 16) (State.channelEvent s.gives) with
    channels := ((s.mixed audio).forAll (allFin 16) (State.channelEvent s.gives)).channels.map Channel.askAgain } := rfl
  have mixer' : (s.mixed audio).mixer = mixer := by rw [mixed]
  rw [asked]
  generalize (s.mixed audio).forAll (allFin 16) (State.channelEvent s.gives) = t at hushed
  rw [mixed] at hushed
  obtain ⟨only, granted, channel, -, voice, -⟩ := hushed
  refine ⟨?_, granted, fun c own goes => ?_, fun v quiet => ?_, ?_⟩
  · obtain ⟨_, _, _, _, _, _, e⟩ := only
    rw [e]
    exact ⟨_, _, _, _, _, _, _, _, _, rfl⟩
  · have own' : ((s.channels.map fun ch : Channel => ch.give.2.1).get c).unalarmed := by
      rw [Tab.get_map]
      intro k
      rw [Channel.give_owner]
      exact own k
    have kept : (t.channels.map Channel.askAgain).get c = (s.channels.get c).give.2.1.askAgain := by
      rw [Tab.get_map, channel c own' (by rw [State.gives_get]; exact goes), Tab.get_map]
    exact kept.trans (Channel.give_askAgain _)
  · have given : (s.tones.voices.map fun x : Voice => x.give.2).get v = (s.tones.voices.get v).give.2 := Tab.get_map ..
    have same := voice v fun k user => quiet k (by
      rw [← Voice.give_user, ← given]
      exact user)
    exact same.trans given
  · obtain ⟨_, _, _, _, _, _, e⟩ := only
    rw [e, mixer']

/-- The ends of faded programs, where none is ENDING. -/
theorem State.mixPeriod_sounded {audio : List (List Sample)} {s : State}
    (none : ∀ p, ((s.sounded audio).programs.get p).state ≠ .ending) : s.mixPeriod audio = s.sounded audio := by
  rw [State.mixPeriod_eq]
  exact State.forAll_fixed fun p _ => if_neg (by simpa using none p)

end Sys2Proof.Machine
end

section
/-! PROOF. The show's step in a calm period, and the timers of the programs (O31). -/

open Sys2Proof Sys2Proof.Machine

namespace Sys2Proof.Machine

/-- What the show's acts change: no channel of a program among it, nor any program. -/
structure Shown (s t : State) : Prop where
  only : ∃ regs lists port channels theatre notes, t = { s with regs, lists, port, channels, theatre, notes }
  root : t.lists.root = s.lists.root
  granted : t.port.grant.map (·.transfer) = s.port.grant.map (·.transfer)
  channel : ∀ c, t.channels.get c = s.channels.get c ∨ ∀ p, (t.channels.get c).owner ≠ some (.program p)
  returns : Returns s t

theorem Shown.refl (s : State) : Shown s s := ⟨⟨_, _, _, _, _, _, rfl⟩, rfl, rfl, fun _ => .inl rfl, Returns.same rfl⟩

theorem Shown.trans {a b c : State} (h : Shown a b) (k : Shown b c) : Shown a c where
  only := by
    obtain ⟨_, _, _, _, _, _, e⟩ := h.only
    obtain ⟨_, _, _, _, _, _, e'⟩ := k.only
    rw [e', e]
    exact ⟨_, _, _, _, _, _, rfl⟩
  root := k.root.trans h.root
  granted := k.granted.trans h.granted
  channel x := by
    rcases k.channel x with same | other
    · rw [same]
      exact h.channel x
    · exact .inr other
  returns := h.returns.trans k.returns

theorem State.modTheatre_shown (s : State) (f : Theatre → Theatre) : Shown s (s.modTheatre f) :=
  ⟨⟨_, _, _, _, _, _, rfl⟩, rfl, rfl, fun _ => .inl rfl, Returns.same rfl⟩

theorem State.emitNote_shown (s : State) (k : NoteKind) (code subject detail : Nat) :
    Shown s (s.emitNote k code subject detail) := by
  obtain ⟨_, _, e⟩ := s.emitNote_only k code subject detail
  rw [e]
  exact ⟨⟨_, _, _, _, _, _, rfl⟩, rfl, rfl, fun _ => .inl rfl, Returns.same rfl⟩

theorem State.requestReturn_shown (s : State) (l : ListId) (r : Return) : Shown s (s.requestReturn l r) := by
  have root := (State.requestReturn_quiet (Quiet.refl s) l r).root
  have returns := s.requestReturn_returns l r
  obtain ⟨lists, e⟩ := s.requestReturn_only l r
  rw [e] at root returns ⊢
  exact ⟨⟨_, _, _, _, _, _, rfl⟩, root, rfl, fun _ => .inl rfl, returns⟩

theorem State.releaseChannel_shown (s : State) (x : Fin 16) : Shown s (s.releaseChannel (.source x)) := by
  have quiet := State.releaseChannel_quiet (Quiet.refl s) (.source x)
  have channel (c : Fin 16) : (s.releaseChannel (.source x)).channels.get c = s.channels.get c ∨
      ∀ p, ((s.releaseChannel (.source x)).channels.get c).owner ≠ some (.program p) := by
    by_cases found : s.channelOf (.source x) = some c
    · refine .inr fun p owned => ?_
      rcases s.releaseChannel_owner (.source x) c with same | none
      · rw [same, State.channelOf_owner found] at owned
        exact nomatch owned
      · rw [none] at owned
        exact nomatch owned
    · exact .inl (s.releaseChannel_other found)
  obtain ⟨_, _, e⟩ := s.releaseChannel_only (.source x)
  have root := quiet.root
  have granted := quiet.granted
  rw [e] at channel root granted ⊢
  exact ⟨⟨_, _, _, _, _, _, rfl⟩, root, granted, channel, Returns.same rfl⟩

/-- A channel that a show source owns afterwards changes. -/
theorem State.modChannel_shown (s : State) (c : Fin 16) {f : Channel → Channel} {x : Fin 16}
    (own : (f (s.channels.get c)).owner = some (.source x)) : Shown s (s.modChannel c f) := by
  refine ⟨⟨_, _, _, _, _, _, rfl⟩, rfl, rfl, fun d => ?_, Returns.same rfl⟩
  rw [State.modChannel_channels, Tab.get_modify]
  split
  · next same =>
    subst same
    exact .inr fun p owned => nomatch own.symm.trans owned
  · exact .inl rfl

theorem State.bindTo_shown (s : State) (c : Fin 16) (x : Fin 16) (d : StreamDesc) :
    Shown s (s.bindTo c (.source x) d) ∧ ((s.bindTo c (.source x) d).channels.get c).owner = some (.source x) := by
  let f : Channel → Channel := fun _ => { state := .priming, owner := some (.source x), desc := d, passes := passesFor (.source x) d }
  have bound : Shown s (s.modChannel c f) := s.modChannel_shown c (x := x) rfl
  have owner : ((s.modChannel c f).channels.get c).owner = some (.source x) := by
    rw [State.modChannel_channels, Tab.get_modify_self]
  unfold State.bindTo State.toRead
  split
  · refine ⟨bound.trans (State.modChannel_shown _ c (x := x) owner), ?_⟩
    rw [State.modChannel_channels, Tab.get_modify_self]
    exact owner
  · have own (ch : Channel) : ({ ch with fetchEnded := true } : Channel).primeTest.owner = ch.owner := Channel.primeTest_owner _
    unfold State.chainFault
    refine ⟨(bound.trans (State.modChannel_shown _ c (x := x) ((own _).trans owner))).trans (State.emitNote_shown _ _ _ _ _), ?_⟩
    rw [State.emitNote_channels, State.modChannel_channels, Tab.get_modify_self]
    exact (own _).trans owner

theorem State.trackAction_shown (a : TrackAction) (s : State) : Shown s (s.trackAction a) := by
  cases a with
  | stop x => exact s.releaseChannel_shown x
  | start x d =>
    unfold State.trackAction
    dsimp only
    split
    · have released := s.releaseChannel_shown x
      generalize s.releaseChannel (.source x) = t at released
      unfold State.bind
      cases t.freeChannel with
      | none => exact released.trans (State.emitNote_shown _ _ _ _ _)
      | some c =>
        obtain ⟨bound, owner⟩ := t.bindTo_shown c x d
        exact (released.trans bound).trans
          (State.modChannel_shown _ c (x := x) ((Channel.signalRun_owner _).trans owner))
    · exact State.emitNote_shown _ _ _ _ _

theorem State.forAll_shown {β : Type} {f : β → State → State} (each : ∀ x s, Shown s (f x s)) (xs : List β) (s : State) :
    Shown s (s.forAll xs f) := by
  induction xs generalizing s with
  | nil => exact Shown.refl s
  | cons x xs ih =>
    rw [State.forAll_cons]
    exact (each x s).trans (ih _)

theorem State.beginCue_shown (s : State) (cue : Cue) : Shown s (s.beginCue cue) := by
  unfold State.beginCue
  exact ((s.modTheatre_shown _).trans (State.forAll_shown State.trackAction_shown _ _)).trans (State.modTheatre_shown _ _)

theorem State.finishFade_shown (s : State) : Shown s s.finishFade := by
  unfold State.finishFade
  dsimp only
  split
  · exact (s.modTheatre_shown _).trans (State.requestReturn_shown _ _ _)
  · exact s.modTheatre_shown _

theorem State.startChain_shown (n : Nat) (s : State) : Shown s (State.startChain n s) := by
  induction n generalizing s with
  | zero => exact Shown.refl s
  | succ n ih =>
    unfold State.startChain
    split
    · exact Shown.refl s
    · next cue rest _ =>
      dsimp only
      split
      · split
        · exact ((s.beginCue_shown cue).trans (State.finishFade_shown _)).trans (ih _)
        · exact (s.beginCue_shown cue).trans (State.finishFade_shown _)
      · exact s.beginCue_shown cue

theorem State.completeFade_shown (s : State) : Shown s s.completeFade := by
  unfold State.completeFade
  dsimp only
  split
  · exact s.finishFade_shown.trans (State.startChain_shown _ _)
  · exact s.finishFade_shown

theorem State.showStep_shown (s : State) : Shown s s.showStep := by
  unfold State.showStep
  dsimp only
  refine Shown.trans ?_ (State.modTheatre_shown _ _)
  split_ifs
  · exact Shown.refl s
  · exact s.completeFade_shown
  · exact State.startChain_shown _ s
  · exact s.modTheatre_shown _
  · exact s.modTheatre_shown _
  · exact Shown.refl s

theorem State.startVoices_only (s : State) : ∃ tones, s.forAll (allFin 8) State.startVoice = { s with tones } := by
  generalize allFin 8 = vs
  induction vs generalizing s with
  | nil => exact ⟨_, rfl⟩
  | cons v vs ih =>
    have first : ∃ tones, s.startVoice v = { s with tones } := by
      unfold State.startVoice
      dsimp only
      split
      · exact ⟨_, rfl⟩
      · exact ⟨_, rfl⟩
    obtain ⟨_, e⟩ := first
    rw [State.forAll_cons, e]
    exact ih _

/-- The state that a calm period latches. -/
structure Latched (s u : State) : Prop where
  only : ∃ regs lists port ambient channels tones theatre trunks changeovers notes,
    u = { s.ticked with regs, lists, port, ambient, channels, tones, theatre, trunks, changeovers, notes }
  granted : u.port.grant.map (·.transfer) = s.port.grant.map (·.transfer)
  flowing : u.flowing

theorem State.latched_of {s : State} (calm : s.Calm) : Latched s s.beforeLatch := by
  have drift := State.beforeShow_drifts calm
  have shown := s.beforeShow.showStep_shown
  have flow : s.beforeShow.flowing := by
    obtain ⟨_, _, _, _, _, _, e, -⟩ := drift
    rw [e]
    exact fun c draining => .inl (calm.streams c draining)
  have flowing : s.beforeShow.showStep.flowing := fun c draining => by
    rcases shown.channel c with same | other
    · rw [same] at draining ⊢
      exact flow c draining
    · exact .inr other
  obtain ⟨_, voiced⟩ := s.beforeShow.showStep.startVoices_only
  rw [State.readied_eq, voiced]
  generalize s.beforeShow.showStep = v at shown flowing
  generalize s.beforeShow = b at drift shown
  obtain ⟨_, _, _, _, _, _, rfl, -⟩ := drift
  obtain ⟨⟨_, _, _, _, _, _, rfl⟩, -, granted, -⟩ := shown
  exact ⟨⟨_, _, _, _, _, _, _, _, _, _, rfl⟩, granted, flowing⟩

/-- The programs at the end of a calm period's mix: their timers stepped. -/
theorem State.calm_programs {s : State} (calm : s.Calm) (audio : List (List Sample)) :
    (s.beforeLatch.sounded audio).programs = s.programs.map Program.tick := by
  have latched := State.latched_of calm
  have sounded := State.sounded_of audio latched.flowing
  generalize s.beforeLatch.sounded audio = t at sounded
  generalize s.beforeLatch = u at latched sounded
  obtain ⟨_, _, _, _, _, _, _, _, _, _, rfl⟩ := latched.only
  obtain ⟨_, _, _, _, _, _, _, _, _, rfl⟩ := sounded.only
  rfl

theorem Program.tick_state (x : Program) : x.tick.state = x.state := rfl

/-- A calm period with no program ENDING ends with its events. -/
theorem State.calm_period {s : State} (calm : s.Calm) (none : ∀ p, (s.programs.get p).state ≠ .ending)
    (audio : List (List Sample)) : exec (.mixPeriodStart audio) s = .next (s.beforeLatch.sounded audio).arbitrate := by
  refine (exec_mixPeriodStart s audio).trans ?_
  rw [State.mixPeriod_sounded fun p => ?_]
  rw [State.calm_programs calm, Tab.get_map]
  exact none p

/-! ### The expiries (R40, R47) -/

theorem ProgramEnded.arbitrate {s t : State} {p : Fin 64} {code : Nat} (ended : ProgramEnded s t p code)
    (granted : s.port.grant ≠ none → t.port.grant ≠ none) : ProgramEnded s t.arbitrate p code where
  toUntouched := ended.toUntouched.trans t.arbitrate_untouched
  free := by
    rw [State.arbitrate_programs]
    exact ended.free
  reservation := by
    rw [State.arbitrate_programs]
    exact ended.reservation
  unclaimed o := by
    unfold State.stack
    rw [State.arbitrate_claims]
    exact ended.unclaimed o
  returned r record busy := by
    rw [State.arbitrate_waiting (granted busy)]
    exact ended.returned r record busy

theorem State.endProgram_arbitrate {s : State} {p : Fin 64} (busy : (s.programs.get p).state ≠ .free) (code : Nat) :
    ProgramEnded s (s.endProgram p code).arbitrate p code :=
  (State.endProgram_ended busy code).arbitrate
    (State.endProgram_quiet (Quiet.refl s) p code).toActs.granted_ne

theorem State.durationExpired_of {s : State} {p : Fin 64} (playing : (s.programs.get p).state = .playing)
    (due : (s.programs.get p).durationTimer = some 0) : s.durationExpired p = s.endProgram p stTimedOut := by
  unfold State.durationExpired
  exact if_pos (by simp [playing, due])

theorem State.durationExpired_not {s : State} {p : Fin 64}
    (idle : (s.programs.get p).state ≠ .playing ∨ (s.programs.get p).durationTimer ≠ some 0) : s.durationExpired p = s := by
  unfold State.durationExpired
  refine if_neg fun due => ?_
  simp only [Bool.and_eq_true, beq_iff_eq] at due
  rcases idle with off | timer
  · exact off due.1
  · exact timer due.2

theorem State.gatherDue_not {s : State} {p : Fin 64}
    (idle : (s.programs.get p).gatherTimer ≠ some 0 ∨ (s.programs.get p).state ≠ .gathering) : s.gatherDue p = s := by
  unfold State.gatherDue State.gatherExpired
  split
  · next due =>
    rw [beq_iff_eq] at due
    exact if_neg (by simpa using idle.resolve_left (not_not.mpr due))
  · rfl

theorem State.gatherDue_of {s : State} {p : Fin 64} (gathering : (s.programs.get p).state = .gathering)
    (due : (s.programs.get p).gatherTimer = some 0) : s.gatherDue p =
      (let u := s.modProgram p fun pr => { pr with gatherTimer := none }
      if (s.programs.get p).held = 0 then u.endProgram p stNoTarget else u.chimeStep p) := by
  unfold State.gatherDue State.gatherExpired
  rw [if_pos (by simp [due])]
  exact if_pos (by simp [gathering])

theorem State.modProgram_congr (s : State) (p : Fin 64) {f g : Program → Program}
    (same : f (s.programs.get p) = g (s.programs.get p)) : s.modProgram p f = s.modProgram p g := by
  unfold State.modProgram
  rw [Tab.modify_congr _ _ same]

theorem State.modProgram_modProgram (s : State) (p : Fin 64) (f g : Program → Program) :
    (s.modProgram p f).modProgram p g = s.modProgram p (g ∘ f) := by
  unfold State.modProgram
  rw [Tab.modify_modify]

/-- The end of a program that a change of its slot leaves where it was, as an end of the program before the change. -/
theorem ProgramEnded.of_modProgram {s t : State} {p : Fin 64} {f : Program → Program} {code : Nat}
    (ended : ProgramEnded (s.modProgram p f) t p code)
    (record : (f (s.programs.get p)).record = (s.programs.get p).record)
    (reservation : (f (s.programs.get p)).reservation = (s.programs.get p).reservation) : ProgramEnded s t p code where
  toUntouched := Untouched.trans (by constructor <;> rfl) ended.toUntouched
  free := ended.free
  reservation := by
    rw [ended.reservation, State.modProgram_programs, Tab.get_modify_self, reservation]
  unclaimed := ended.unclaimed
  returned r given busy := ended.returned r (by rw [State.modProgram_programs, Tab.get_modify_self, record, given]) busy

/-- The entry to PLAYING of a program without a chime and without a stream. -/
theorem State.chimeStep_plays {s : State} {p : Fin 64} (chime : (s.programs.get p).chime = none)
    (kind : (s.programs.get p).kind ≠ .theatre) (stream : (s.programs.get p).source ≠ .stream)
    (fresh : (s.programs.get p).durationStarted = false) : s.chimeStep p = s.modProgram p fun pr =>
      { pr with state := .playing, gatherTimer := none, durationStarted := true
                durationTimer := if pr.maxDuration = 0 then none else some pr.maxDuration } := by
  unfold State.chimeStep State.enterPlaying
  rw [chime]
  dsimp only
  rw [if_neg (by simp [kind]), if_neg (by simp [stream])]
  refine s.modProgram_congr p ?_
  unfold Program.startDuration
  rw [if_neg (by simp [fresh])]

end Sys2Proof.Machine

/-- Settles O31: in a calm period nothing changes a program but the timers' steps; the expiries by their equations. -/
theorem programTimers : Obligations.ProgramTimers := by
  unfold Obligations.ProgramTimers
  refine ⟨fun s audio calm none => ⟨_, State.calm_period calm none audio, fun p => ?_⟩, fun s p => ?_⟩
  · rw [State.arbitrate_programs, State.calm_programs calm, Tab.get_map]
    rfl
  · intro pr
    have ran {u : State} (same : s.gatherDue p = u) : exec (.gatherTimerExpiry p) s = .next u.arbitrate :=
      congrArg (Host.Outcome.next ∘ State.arbitrate) same
    have ran' {u : State} (same : s.durationExpired p = u) : exec (.durationTimerExpiry p) s = .next u.arbitrate :=
      congrArg (Host.Outcome.next ∘ State.arbitrate) same
    refine ⟨fun idle => ran (State.gatherDue_not idle), fun gathering due zero => ?_,
      fun gathering due more chime kind stream fresh => ran ?_,
      fun playing due => ⟨_, ran' (State.durationExpired_of playing due), State.endProgram_arbitrate ?_ _⟩,
      fun idle => ran' (State.durationExpired_not idle)⟩
    · have expired := State.gatherDue_of gathering due
      dsimp only at expired
      rw [if_pos zero] at expired
      refine ⟨_, ran expired, ProgramEnded.of_modProgram (State.endProgram_arbitrate ?_ _) rfl rfl⟩
      rw [State.modProgram_programs, Tab.get_modify_self]
      exact fun free => nomatch gathering.symm.trans free
    · have expired := State.gatherDue_of gathering due
      dsimp only at expired
      rw [if_neg more] at expired
      refine expired.trans ?_
      rw [State.chimeStep_plays, State.modProgram_modProgram]
      · rfl
      all_goals rw [State.modProgram_programs, Tab.get_modify_self]
      · exact chime
      · exact kind
      · exact stream
      · exact fresh
    · rw [show (s.programs.get p).state = .playing from playing]
      nofun

end

section
/-! PROOF. Fades and follow timers: FADE_COMPLETE, FOLLOW_TIMER_EXPIRY and the show's step at a period start (O55). -/

open Sys2Proof Sys2Proof.Machine

namespace Sys2Proof.Machine

/-! ### The lists after returns of the CUE list -/

/-- The lists after returns have joined the CUE list's: no other list changes. -/
structure CueReturns (l m : ListEngine) (rs : List Return) : Prop where
  root : m.root = l.root
  others : ∀ i : ListId, i ≠ .cue → m.walkers.get i.idx = l.walkers.get i.idx ∧ m.returns.get i.idx = l.returns.get i.idx
  waits : ∀ s : State, s.lists = m → ∀ r ∈ rs, s.returns .cue r
  keeps : ∀ s t : State, s.lists = l → t.lists = m → Returns s t

theorem CueReturns.trans {l m n : ListEngine} {rs ss : List Return} (h : CueReturns l m rs) (k : CueReturns m n ss) :
    CueReturns l n (rs ++ ss) where
  root := k.root.trans h.root
  others i other := ⟨(k.others i other).1.trans (h.others i other).1, (k.others i other).2.trans (h.others i other).2⟩
  waits s lists r mem := by
    rcases List.mem_append.mp mem with mem | mem
    · exact k.keeps { s with lists := m } s rfl lists _ _ (h.waits { s with lists := m } rfl r mem)
    · exact k.waits s lists r mem
  keeps s t start stop := (h.keeps s { s with lists := m } start rfl).trans (k.keeps { s with lists := m } t rfl stop)

theorem ListId.idx_ne {i j : ListId} (other : i ≠ j) : i.idx ≠ j.idx := fun same => other (by
  cases i <;> cases j <;> first | rfl | exact absurd same (by decide))

theorem State.requestReturn_cue (s : State) (r : Return) :
    ∃ m, s.requestReturn .cue r = { s with lists := m } ∧ CueReturns s.lists m [r] := by
  have waits := s.requestReturn_waits .cue r
  have keeps := s.requestReturn_returns .cue r
  have root := (State.requestReturn_quiet (Quiet.refl s) .cue r).root
  have others (i : ListId) (other : i ≠ .cue) :
      (s.requestReturn .cue r).lists.walkers.get i.idx = s.lists.walkers.get i.idx ∧
        (s.requestReturn .cue r).lists.returns.get i.idx = s.lists.returns.get i.idx := by
    have apart := ListId.idx_ne other
    unfold State.requestReturn
    dsimp only
    split
    · split
      · exact ⟨Tab.get_modify_ne _ apart _, rfl⟩
      · exact ⟨rfl, Tab.get_modify_ne _ apart _⟩
    · exact ⟨rfl, Tab.get_modify_ne _ apart _⟩
  obtain ⟨m, e⟩ := s.requestReturn_only .cue r
  rw [e] at waits keeps root others
  refine ⟨m, e, root, others, fun t lists x mem => ?_, fun t u start stop => ?_⟩
  · rw [List.mem_singleton.mp mem]
    exact Returns.same lists _ _ waits
  · exact (Returns.same start.symm).trans (keeps.trans (Returns.same stop))

/-! ### The end of a fade and the start of a head, each as one change of the show and the lists -/

section
variable {s : State} {cue head : Cue} {rest after : List Cue} {bank : Bank}

theorem State.finishFade_restaged (queue : s.theatre.queue = cue :: rest) (next : s.theatre.next = some bank) :
    ∃ m, s.finishFade = s.restaged (s.theatre.completed bank rest) m ∧ CueReturns s.lists m [cue.done stDone] := by
  have same : s.modTheatre (fun t => t.completed (t.next.getD t.live) rest) = s.modTheatre fun t => t.completed bank rest :=
    s.modTheatre_congr (by rw [next]; rfl)
  obtain ⟨m, e, returns⟩ := (s.modTheatre fun t => t.completed bank rest).requestReturn_cue (cue.done stDone)
  exact ⟨m, (State.finishFade_eq queue).trans (same ▸ e), returns⟩

theorem State.completeFade_still (queue : s.theatre.queue = cue :: rest) (next : s.theatre.next = some bank)
    (later : ¬atOnce rest) :
    ∃ m, s.completeFade = s.restaged (s.theatre.completed bank rest) m ∧ CueReturns s.lists m [cue.done stDone] := by
  obtain ⟨m, e, returns⟩ := State.finishFade_restaged queue next
  refine ⟨m, ?_, returns⟩
  unfold State.completeFade
  dsimp only
  rw [e]
  refine if_neg ?_
  rw [Theatre.headAtOnce_iff]
  exact later

/-- The head begun on a state of other lists. -/
theorem State.restaged_begins {u : Theatre} {m : ListEngine} (bound : u.bindings = s.theatre.bindings)
    (root : m.root = s.lists.root) (opens : s.opens head) :
    (s.restaged u m).beginCue head = (s.tracked head).restaged (u.begun head) m := by
  have opens' : (s.restaged u m).opens head := fun x d mem => by
    have window := opens x d mem
    unfold State.inWindow at window ⊢
    rw [show (s.restaged u m).lists.root = s.lists.root from root]
    exact window
  rw [State.beginCue_eq opens', s.tracked_restaged bound root]
  rfl

theorem State.completeFade_fades (queue : s.theatre.queue = cue :: head :: after) (next : s.theatre.next = some bank)
    (now : atOnce (head :: after)) (opens : s.opens head) (fade : head.fade ≠ 0) :
    ∃ m, s.completeFade = (s.tracked head).restaged ((s.theatre.completed bank (head :: after)).begun head) m ∧
      CueReturns s.lists m [cue.done stDone] := by
  obtain ⟨m, e, returns⟩ := State.finishFade_restaged queue next
  refine ⟨m, ?_, returns⟩
  unfold State.completeFade
  dsimp only
  rw [e, if_pos ((Theatre.headAtOnce_iff _).mpr now), State.startHead_fades rfl fade]
  exact State.restaged_begins rfl returns.root opens

theorem State.startHead_restaged {u : Theatre} {m : ListEngine} (bound : u.bindings = s.theatre.bindings)
    (root : m.root = s.lists.root) (queue : u.queue = head :: after) (opens : s.opens head) (fade : head.fade = 0)
    (later : ¬atOnce after) : ∃ n, (s.restaged u m).startHead =
      (s.tracked head).restaged (u.completed (head.over u.live) after) n ∧ CueReturns m n [head.done stDone] := by
  have opens' : (s.restaged u m).opens head := fun x d mem => by
    have window := opens x d mem
    unfold State.inWindow at window ⊢
    rw [show (s.restaged u m).lists.root = s.lists.root from root]
    exact window
  have ends := State.startHead_ends (s := s.restaged u m) queue fade later opens'
  rw [s.tracked_restaged bound root] at ends
  obtain ⟨n, e, returns⟩ := (((s.tracked head).restaged u m).modTheatre
    fun t => t.completed (head.over t.live) after).requestReturn_cue (head.done stDone)
  exact ⟨n, ends.trans e, returns⟩

theorem State.completeFade_ends (queue : s.theatre.queue = cue :: head :: after) (next : s.theatre.next = some bank)
    (now : atOnce (head :: after)) (opens : s.opens head) (fade : head.fade = 0) (later : ¬atOnce after) :
    ∃ m, s.completeFade = (s.tracked head).restaged (s.theatre.completed (head.over bank) after) m ∧
      CueReturns s.lists m [cue.done stDone, head.done stDone] := by
  obtain ⟨m, e, returns⟩ := State.finishFade_restaged queue next
  obtain ⟨n, e', returns'⟩ := State.startHead_restaged (s := s) (u := s.theatre.completed bank (head :: after)) rfl returns.root rfl
    opens fade later
  refine ⟨n, ?_, returns.trans returns'⟩
  unfold State.completeFade
  dsimp only
  rw [e, if_pos ((Theatre.headAtOnce_iff _).mpr now), e']
  rfl

theorem State.startHead_begins (queue : s.theatre.queue = cue :: rest) (opens : s.opens cue) (fade : cue.fade ≠ 0) :
    s.startHead = (s.tracked cue).restaged (s.theatre.begun cue) s.lists := by
  rw [State.startHead_fades queue fade]
  exact State.restaged_begins (u := s.theatre) (m := s.lists) rfl rfl opens

theorem State.startHead_completes (queue : s.theatre.queue = cue :: rest) (opens : s.opens cue) (fade : cue.fade = 0)
    (later : ¬atOnce rest) : ∃ m, s.startHead = (s.tracked cue).restaged (s.theatre.completed (cue.over s.theatre.live) rest) m ∧
      CueReturns s.lists m [cue.done stDone] :=
  State.startHead_restaged (u := s.theatre) (m := s.lists) rfl rfl queue opens fade later

end

/-! ### The channels after track actions, from the channels, the port, the window and the bindings alone -/

/-- Two states agree on what track actions look at. -/
structure Alike (s t : State) : Prop where
  channels : t.channels = s.channels
  port : t.port = s.port
  root : t.lists.root = s.lists.root
  bindings : t.theatre.bindings = s.theatre.bindings

section
variable {s t : State}

theorem Alike.modChannel (h : Alike s t) (c : Fin 16) (f : Channel → Channel) : Alike (s.modChannel c f) (t.modChannel c f) :=
  { h with channels := congrArg (fun x => x.modify c f) h.channels }

theorem Alike.freeIfDone (h : Alike s t) (c : Fin 16) : Alike (s.freeIfDone c) (t.freeIfDone c) := by
  have busy : t.channelBusy c = s.channelBusy c := by
    unfold State.channelBusy
    rw [h.port]
  unfold State.freeIfDone
  rw [h.channels, busy]
  dsimp only
  split
  · exact h.modChannel c _
  · exact h

theorem Alike.discardTransfer (h : Alike s t) (c : Fin 16) (keep : Bool) :
    Alike (s.discardTransfer c keep) (t.discardTransfer c keep) := by
  unfold State.discardTransfer
  rw [h.port]
  split
  · split
    · exact { h with port := rfl }
    · exact h
  · exact h

theorem Alike.enterEnded (h : Alike s t) (c : Fin 16) : Alike (s.enterEnded c) (t.enterEnded c) := by
  have plan : t.returnPlan = s.returnPlan := by
    unfold State.returnPlan State.inWindow
    rw [h.root]
  unfold State.enterEnded
  rw [plan]
  exact (h.modChannel c _).freeIfDone c

theorem Alike.releaseChannel (h : Alike s t) (w : ChanOwner) : Alike (s.releaseChannel w) (t.releaseChannel w) := by
  unfold State.releaseChannel
  rw [State.channelOf_congr (s := s) (t := t) (fun c => by rw [h.channels]), h.channels]
  split
  · dsimp only
    split
    · exact h
    · exact (h.discardTransfer _ _).enterEnded _
  · exact h

theorem Alike.emitNote (h : Alike s t) (k : NoteKind) (code subject detail : Nat) :
    Alike (s.emitNote k code subject detail) (t.emitNote k code subject detail) := by
  obtain ⟨_, _, e⟩ := s.emitNote_only k code subject detail
  obtain ⟨_, _, e'⟩ := t.emitNote_only k code subject detail
  rw [e, e']
  exact { h with }

theorem Alike.performed (h : Alike s t) (a : TrackAction) : Alike (s.performed a) (t.performed a) := by
  cases a with
  | stop x => exact h.releaseChannel _
  | start x d =>
    have released := h.releaseChannel (.source x)
    unfold State.performed
    dsimp only
    rw [h.bindings]
    split
    · have free : (t.releaseChannel (.source x)).freeChannel = (s.releaseChannel (.source x)).freeChannel := by
        unfold State.freeChannel
        rw [released.channels]
      rw [free]
      split
      · exact released.modChannel _ _
      · exact released.emitNote _ _ _ _
    · exact h.emitNote _ _ _ _

theorem Alike.tracked (h : Alike s t) (cue : Cue) : Alike (s.tracked cue) (t.tracked cue) := by
  unfold State.tracked
  generalize cue.tracks = acts
  induction acts generalizing s t with
  | nil => exact h
  | cons a acts ih => exact ih (h.performed a)

end

/-- A channel that a track action changes is not DRAINING after it. -/
theorem State.tracked_draining (s : State) (cue : Cue) (c : Fin 16) :
    (s.tracked cue).channels.get c = s.channels.get c ∨ ((s.tracked cue).channels.get c).state ≠ .draining := by
  have released (t : State) (x : Fin 16) : (t.releaseChannel (.source x)).channels.get c = t.channels.get c ∨
      ((t.releaseChannel (.source x)).channels.get c).state ≠ .draining := by
    by_cases found : t.channelOf (.source x) = some c
    · by_cases over_ : (t.channels.get c).state = .ended ∨ (t.channels.get c).state = .free
      · have kept : t.releaseChannel (.source x) = t := by
          unfold State.releaseChannel
          rw [found]
          exact if_pos (by simpa using over_)
        exact .inl (by rw [kept])
      · obtain ⟨ended, free⟩ := not_or.mp over_
        rcases (State.releaseChannel_left found ended free).state with e | e <;> exact .inr (by rw [e]; nofun)
    · exact .inl (t.releaseChannel_other found)
  have performed (t : State) (a : TrackAction) : (t.performed a).channels.get c = t.channels.get c ∨
      ((t.performed a).channels.get c).state ≠ .draining := by
    cases a with
    | stop x => exact released t x
    | start x d =>
      unfold State.performed
      dsimp only
      split
      · split
        · next e _ =>
          rw [State.modChannel_channels, Tab.get_modify]
          split
          · exact .inr nofun
          · exact released t x
        · rw [State.emitNote_channels]
          exact released t x
      · rw [State.emitNote_channels]
        exact .inl rfl
  unfold State.tracked
  generalize cue.tracks = acts
  induction acts generalizing s with
  | nil => exact .inl rfl
  | cons a acts ih =>
    rcases ih (s.performed a) with same | other
    · rw [List.foldl_cons, same]
      exact performed s a
    · exact .inr other

/-! ### The show through a calm period -/

/-- A calm period: the show is what its step leaves, and so are the lists; the channels give their samples. -/
theorem State.calm_show {s : State} (calm : s.Calm) (none : ∀ p, (s.programs.get p).state ≠ .ending)
    (audio : List (List Sample)) : ∃ t, exec (.mixPeriodStart audio) s = .next t ∧
      t.theatre = s.beforeShow.showStep.theatre ∧ (s.port.grant ≠ .none → t.lists = s.beforeShow.showStep.lists ∧
        ∀ c, (s.beforeShow.showStep.channels.get c).unalarmed →
          (s.beforeShow.showStep.channels.get c).give.2.2 ≠ .completes → t.channels.get c =
            { (s.beforeShow.showStep.channels.get c).give.2.1 with
              reread := match (s.beforeShow.showStep.channels.get c).cur with
                | .waiting _ => true
                | _ => (s.beforeShow.showStep.channels.get c).reread }) := by
  have latched := State.latched_of calm
  have sounded := State.sounded_of audio latched.flowing
  have ran := State.calm_period calm none audio
  obtain ⟨_, voiced⟩ := s.beforeShow.showStep.startVoices_only
  rw [← State.readied_eq] at voiced
  generalize s.beforeShow.showStep = v at voiced ⊢
  generalize s.beforeLatch.sounded audio = t at sounded ran
  generalize s.beforeLatch = u at voiced latched sounded
  have granted (busy : s.port.grant ≠ .none) : t.port.grant ≠ .none := fun idle => by
    have same := sounded.granted.trans latched.granted
    rw [idle] at same
    exact busy (Option.map_eq_none_iff.mp same.symm)
  have each := sounded.channel
  obtain ⟨_, _, _, _, _, _, _, _, _, e⟩ := sounded.only
  have theatre : t.theatre = v.theatre := by rw [e, voiced]
  have lists : t.lists = v.lists := by rw [e, voiced]
  rw [show u.channels = v.channels by rw [voiced]] at each
  refine ⟨_, ran, ?_, fun busy => ?_⟩
  · rw [State.arbitrate_theatre, theatre]
  · rw [State.arbitrate_waiting (granted busy)]
    exact ⟨lists, each⟩

/-! ### The show's step -/

/-- The show after its step: an event taken by its command, and a fade's first period, are over. -/
def Theatre.settled (t : Theatre) : Theatre := { t with fresh := false, stepped := false }

theorem Theatre.fadeDue_iff (t : Theatre) :
    t.fadeDue = true ↔ t.state = .fading ∧ t.fresh = false ∧ t.stepped = false ∧ t.len ≤ t.pos + 1 := by
  simp [Theatre.fadeDue, and_assoc]

theorem Theatre.followDue_iff (t : Theatre) :
    t.followDue = true ↔ t.state = .waiting ∧ t.stepped = false ∧ ∃ d, t.follow = some d ∧ d ≤ 1 := by
  simp [Theatre.followDue, and_assoc, Option.any_eq_true]

section
variable {s : State}

theorem State.showStep_rests (rests : (s.theatre.state ≠ .fading ∧ s.theatre.state ≠ .waiting) ∨ s.theatre.stepped = true ∨
    (s.theatre.state = .fading ∧ s.theatre.fresh = true)) : s.showStep = s.modTheatre Theatre.settled := by
  unfold State.showStep
  dsimp only
  by_cases taken : s.theatre.stepped = true
  · rw [if_pos taken]
    rfl
  · have fade : ¬s.theatre.fadeDue = true := by
      rw [Theatre.fadeDue_iff]
      rintro ⟨fading, fresh, -⟩
      rcases rests with ⟨off, -⟩ | stepped | ⟨-, first⟩
      · exact off fading
      · exact taken stepped
      · exact absurd (first.symm.trans fresh) nofun
    have follow : ¬s.theatre.followDue = true := by
      rw [Theatre.followDue_iff]
      rintro ⟨waiting, -⟩
      rcases rests with ⟨-, off⟩ | stepped | ⟨fading, -⟩
      · exact off waiting
      · exact taken stepped
      · exact nomatch waiting.symm.trans fading
    rw [if_neg taken, if_neg fade, if_neg follow]
    rcases rests with ⟨off, still⟩ | stepped | ⟨fading, first⟩
    · rw [if_neg (by simp [off]), if_neg (by simp [still])]
      rfl
    · exact absurd stepped taken
    · rw [if_neg (by simp [first]), if_neg (by simp [fading])]
      rfl

theorem State.showStep_fades (fading : s.theatre.state = .fading) (fresh : s.theatre.fresh = false)
    (stepped : s.theatre.stepped = false) (more : s.theatre.pos + 1 < s.theatre.len) :
    s.showStep = s.modTheatre fun t => Theatre.settled { t with pos := t.pos + 1 } := by
  have fade : ¬s.theatre.fadeDue = true := by
    rw [Theatre.fadeDue_iff]
    exact fun due => absurd due.2.2.2 (not_le.mpr more)
  have follow : ¬s.theatre.followDue = true := by
    rw [Theatre.followDue_iff]
    exact fun due => nomatch due.1.symm.trans fading
  unfold State.showStep
  dsimp only
  rw [if_neg (by simp [stepped]), if_neg fade, if_neg follow, if_pos (by simp [fading, fresh])]
  rfl

theorem State.showStep_waits {d : Nat} (waiting : s.theatre.state = .waiting) (stepped : s.theatre.stepped = false)
    (timer : s.theatre.follow = some d) (more : 1 < d) :
    s.showStep = s.modTheatre fun t => Theatre.settled { t with follow := some (d - 1) } := by
  have fade : ¬s.theatre.fadeDue = true := by
    rw [Theatre.fadeDue_iff]
    exact fun due => nomatch due.1.symm.trans waiting
  have follow : ¬s.theatre.followDue = true := by
    rw [Theatre.followDue_iff]
    rintro ⟨-, -, e, other, few⟩
    rw [timer, Option.some.injEq] at other
    omega
  unfold State.showStep
  dsimp only
  rw [if_neg (by simp [stepped]), if_neg fade, if_neg follow, if_neg (by simp [waiting]), if_pos (by simp [waiting]),
    State.modTheatre_modTheatre]
  refine s.modTheatre_congr ?_
  rw [timer]
  rfl

theorem State.showStep_completes (due : s.theatre.fadeDue = true) :
    s.showStep = s.completeFade.modTheatre Theatre.settled := by
  unfold State.showStep
  dsimp only
  rw [if_neg (by simp [((Theatre.fadeDue_iff _).mp due).2.2.1]), if_pos due]
  rfl

theorem State.showStep_starts (due : s.theatre.followDue = true) : s.showStep = s.startHead.modTheatre Theatre.settled := by
  obtain ⟨waiting, stepped, -⟩ := (Theatre.followDue_iff _).mp due
  have fade : ¬s.theatre.fadeDue = true := by
    rw [Theatre.fadeDue_iff]
    exact fun fades => nomatch fades.1.symm.trans waiting
  unfold State.showStep
  dsimp only
  rw [if_neg (by simp [stepped]), if_neg fade, if_pos due]
  rfl

/-- What the show's step of a calm period meets: the show, the channels, the port and the window as they were. -/
theorem State.beforeShow_alike (calm : s.Calm) : Alike s s.beforeShow ∧ s.beforeShow.theatre = s.theatre := by
  have drift := State.beforeShow_drifts calm
  generalize s.beforeShow = b at drift
  obtain ⟨_, _, _, _, _, _, rfl, root⟩ := drift
  exact ⟨⟨rfl, rfl, root, rfl⟩, rfl⟩

theorem Alike.opens {t : State} (h : Alike s t) {cue : Cue} (opens : s.opens cue) : t.opens cue := fun x d mem => by
  have window := opens x d mem
  unfold State.inWindow at window ⊢
  rw [h.root]
  exact window

/-- A channel of a calm period that the show's step leaves as `base` has it. -/
def State.Plays (base u : State) : Prop := ∀ c : Fin 16, (base.channels.get c).unalarmed →
  u.channels.get c = { (base.channels.get c).give.2.1 with
    reread := match (base.channels.get c).cur with | .waiting _ => true | _ => (base.channels.get c).reread }

/-- The end of a calm period, from the show's step: the show, and with a grant in progress the returns and the channels. -/
theorem State.calm_ends (calm : s.Calm) (none : ∀ p, (s.programs.get p).state ≠ .ending) (audio : List (List Sample)) :
    ∃ u, exec (.mixPeriodStart audio) s = .next u ∧ ∀ (v : State) (w : Theatre),
      s.beforeShow.showStep = v.modTheatre Theatre.settled → v.theatre = w →
        u.theatre = w.settled ∧ (s.port.grant ≠ .none → u.lists = v.lists ∧
          ∀ base : State, v.channels = base.channels →
            (∀ c, base.channels.get c = s.channels.get c ∨ (base.channels.get c).state ≠ .draining) → State.Plays base u) := by
  obtain ⟨u, ran, theatre, rest⟩ := State.calm_show calm none audio
  refine ⟨u, ran, fun v w step show_ => ?_⟩
  rw [step] at theatre rest
  refine ⟨by rw [theatre, State.modTheatre_theatre, show_], fun busy => ?_⟩
  obtain ⟨lists, channels⟩ := rest busy
  refine ⟨lists, fun base same draining c own => ?_⟩
  rw [State.modTheatre_channels, same] at channels
  refine channels c own fun over_ => ?_
  obtain ⟨drains, few⟩ := Channel.give_completes over_
  have stands := (draining c).resolve_right (not_not.mpr drains)
  rw [stands] at drains few
  exact absurd (calm.streams c drains) (not_lt.mpr few)

end

/-! ### The events taken by their own commands -/

/-- The state after an event taken: the show `v` on the channels of `base`, the lists' other returns as they were. -/
structure Leads (s base : State) (v : Theatre) (u : State) : Prop where
  untouched : Untouched s u
  rest : { u with lists := s.lists } = { base with theatre := { v with stepped := true } }
  others : ∀ l, l ≠ .cue → u.walker l = s.walker l ∧ u.lists.returns.get l.idx = s.lists.returns.get l.idx

theorem Leads.of {s base : State} {v : Theatre} {m : ListEngine} {rs : List Return} (returns : CueReturns s.lists m rs)
    (lists : base.lists = s.lists)
    (untouched : Untouched s ((base.restaged v m).modTheatre fun t => { t with stepped := true })) :
    Leads s base v ((base.restaged v m).modTheatre fun t => { t with stepped := true }) where
  untouched := untouched
  rest := by
    rw [← lists]
    rfl
  others := returns.others

theorem State.fadeTaken_of {s : State} (due : s.theatre.fadeDue = true) :
    s.fadeTaken = s.completeFade.modTheatre fun t => { t with stepped := true } := if_pos due

theorem State.followTaken_of {s : State} (due : s.theatre.followDue = true) :
    s.followTaken = s.startHead.modTheatre fun t => { t with stepped := true } := if_pos due

/-- A fade's end taken by its command, with a grant in progress. -/
theorem State.fadeTaken_leads {s base : State} {v : Theatre} {m : ListEngine} {rs : List Return}
    (due : s.theatre.fadeDue = true) (ends : s.completeFade = base.restaged v m) (returns : CueReturns s.lists m rs)
    (lists : base.lists = s.lists) (busy : s.port.grant ≠ none) :
    ∃ u, exec .fadeComplete s = .next u ∧ Leads s base v u ∧ ∀ r ∈ rs, u.returns .cue r := by
  have quiet := State.fadeTaken_quiet (Quiet.refl s)
  have taken : s.fadeTaken = (base.restaged v m).modTheatre fun t => { t with stepped := true } := by
    rw [State.fadeTaken_of due, ends]
  have waits := State.arbitrate_waiting (quiet.toActs.granted_ne busy)
  rw [taken] at waits quiet
  refine ⟨_, (congrArg (Host.Outcome.next ∘ State.arbitrate) taken).trans (congrArg Host.Outcome.next waits), ?_, ?_⟩
  · exact Leads.of returns lists quiet.toUntouched
  · exact returns.waits _ rfl

/-- A follow timer's end taken by its command, with a grant in progress. -/
theorem State.followTaken_leads {s base : State} {v : Theatre} {m : ListEngine} {rs : List Return}
    (due : s.theatre.followDue = true) (ends : s.startHead = base.restaged v m) (returns : CueReturns s.lists m rs)
    (lists : base.lists = s.lists) (busy : s.port.grant ≠ none) :
    ∃ u, exec .followTimerExpiry s = .next u ∧ Leads s base v u ∧ ∀ r ∈ rs, u.returns .cue r := by
  have quiet := State.followTaken_quiet (Quiet.refl s)
  have taken : s.followTaken = (base.restaged v m).modTheatre fun t => { t with stepped := true } := by
    rw [State.followTaken_of due, ends]
  have waits := State.arbitrate_waiting (quiet.toActs.granted_ne busy)
  rw [taken] at waits quiet
  refine ⟨_, (congrArg (Host.Outcome.next ∘ State.arbitrate) taken).trans (congrArg Host.Outcome.next waits), ?_, ?_⟩
  · exact Leads.of returns lists quiet.toUntouched
  · exact returns.waits _ rfl

end Sys2Proof.Machine

/-- Settles O55: a fade's end and a head's start are each one change of the show and of the CUE list's returns, on the channels
that the track actions leave; the event's command and the period start take it alike. -/
theorem fadeAndFollow : Obligations.FadeAndFollow := by
  unfold Obligations.FadeAndFollow
  intro s t fadeEnds followEnds leads done
  have fadeDue : t.fadeDue = true ↔ fadeEnds := t.fadeDue_iff
  have followDue : t.followDue = true ↔ followEnds := t.followDue_iff
  refine ⟨fun audio calm none => ?_, fun idle => ?_, fun idle => ?_, fun cue rest bank due queue next busy => ⟨fun later => ?_,
    fun head after more now opens => ⟨fun fade => ?_, fun fade later => ?_⟩⟩, fun cue rest due queue opens => ⟨fun fade => ?_,
      fun fade later busy => ?_⟩⟩
  · obtain ⟨u, ran, ends⟩ := State.calm_ends calm none audio
    obtain ⟨alike, show_⟩ := State.beforeShow_alike calm
    have kept : ∀ c, s.channels.get c = s.channels.get c ∨ (s.channels.get c).state ≠ .draining := fun _ => .inl rfl
    have channels (cue : Cue) : (s.beforeShow.tracked cue).channels = (s.tracked cue).channels := (alike.tracked cue).channels
    have fadeDue' : s.beforeShow.theatre.fadeDue = true ↔ fadeEnds := by rw [show_]; exact fadeDue
    have followDue' : s.beforeShow.theatre.followDue = true ↔ followEnds := by rw [show_]; exact followDue
    refine ⟨u, ran, ?_⟩
    generalize s.beforeShow = b at ends alike show_ channels fadeDue' followDue'
    intro becomes plays
    refine ⟨fun rests => ?_, fun fading fresh stepped more => ?_, fun d waiting stepped timer more => ?_,
      fun cue rest bank due queue next => ⟨fun later => ?_, fun head after more now opens => ⟨fun fade => ?_,
        fun fade later => ?_⟩⟩, fun cue rest due queue opens => ⟨fun fade => ?_, fun fade later => ?_⟩⟩
    · obtain ⟨show', -⟩ := ends b b.theatre (State.showStep_rests (by rw [show_]; exact rests)) rfl
      exact show'.trans (congrArg Theatre.settled show_)
    · have step := State.showStep_fades (s := b) (by rw [show_]; exact fading) (by rw [show_]; exact fresh)
        (by rw [show_]; exact stepped) (by rw [show_]; exact more)
      obtain ⟨show', -⟩ := ends (b.modTheatre fun t => { t with pos := t.pos + 1 }) _ (step.trans (b.modTheatre_modTheatre _ _).symm) rfl
      exact show'.trans (by rw [State.modTheatre_theatre, show_]; rfl)
    · have step := State.showStep_waits (s := b) (by rw [show_]; exact waiting) (by rw [show_]; exact stepped)
        (by rw [show_]; exact timer) more
      obtain ⟨show', -⟩ := ends (b.modTheatre fun t => { t with follow := some (d - 1) }) _ (step.trans (b.modTheatre_modTheatre _ _).symm) rfl
      exact show'.trans (by rw [State.modTheatre_theatre, show_]; rfl)
    · obtain ⟨m, fades, returns⟩ := State.completeFade_still (s := b) (by rw [show_]; exact queue) (by rw [show_]; exact next) later
      obtain ⟨show', rest'⟩ := ends _ _ (by rw [State.showStep_completes (fadeDue'.mpr due), fades]) rfl
      refine ⟨show'.trans (by rw [show_]; rfl), fun busy => ?_⟩
      obtain ⟨lists, channels'⟩ := rest' busy
      exact ⟨returns.waits u lists _ (List.mem_singleton.mpr rfl), channels' s alike.channels kept⟩
    · subst more
      obtain ⟨m, fades, returns⟩ := State.completeFade_fades (s := b) (by rw [show_]; exact queue) (by rw [show_]; exact next) now
        (alike.opens opens) fade
      obtain ⟨show', rest'⟩ := ends _ _ (by rw [State.showStep_completes (fadeDue'.mpr due), fades]) rfl
      refine ⟨show'.trans (by rw [show_]; rfl), fun busy => ?_⟩
      obtain ⟨lists, channels'⟩ := rest' busy
      exact ⟨returns.waits u lists _ (List.mem_singleton.mpr rfl), channels' (s.tracked head) (channels head) (s.tracked_draining head)⟩
    · subst more
      obtain ⟨m, fades, returns⟩ := State.completeFade_ends (s := b) (by rw [show_]; exact queue) (by rw [show_]; exact next) now
        (alike.opens opens) fade later
      obtain ⟨show', rest'⟩ := ends _ _ (by rw [State.showStep_completes (fadeDue'.mpr due), fades]) rfl
      refine ⟨show'.trans (by rw [show_]; rfl), fun busy => ?_⟩
      obtain ⟨lists, channels'⟩ := rest' busy
      exact ⟨returns.waits u lists _ (List.mem_cons_self ..), returns.waits u lists _ (List.mem_cons_of_mem _ (List.mem_singleton.mpr rfl)),
        channels' (s.tracked head) (channels head) (s.tracked_draining head)⟩
    · have starts := State.startHead_begins (s := b) (by rw [show_]; exact queue) (alike.opens opens) fade
      obtain ⟨show', rest'⟩ := ends _ _ (by rw [State.showStep_starts (followDue'.mpr due), starts]) rfl
      refine ⟨show'.trans (by rw [show_]; rfl), fun busy => ?_⟩
      obtain ⟨-, channels'⟩ := rest' busy
      exact channels' (s.tracked cue) (channels cue) (s.tracked_draining cue)
    · obtain ⟨m, starts, returns⟩ := State.startHead_completes (s := b) (by rw [show_]; exact queue) (alike.opens opens) fade later
      obtain ⟨show', rest'⟩ := ends _ _ (by rw [State.showStep_starts (followDue'.mpr due), starts]) rfl
      refine ⟨show'.trans (by rw [show_]; rfl), fun busy => ?_⟩
      obtain ⟨lists, channels'⟩ := rest' busy
      exact ⟨returns.waits u lists _ (List.mem_singleton.mpr rfl), channels' (s.tracked cue) (channels cue) (s.tracked_draining cue)⟩
  · exact congrArg (Host.Outcome.next ∘ State.arbitrate) (if_neg fun due => idle (fadeDue.mp due))
  · exact congrArg (Host.Outcome.next ∘ State.arbitrate) (if_neg fun due => idle (followDue.mp due))
  · obtain ⟨m, fades, returns⟩ := State.completeFade_still (s := s) queue next later
    obtain ⟨u, ran, ⟨untouched, rest, others⟩, waits⟩ := State.fadeTaken_leads (base := s) (fadeDue.mpr due) fades returns rfl busy
    exact ⟨u, ran, ⟨untouched, rest, others⟩, waits _ (List.mem_singleton.mpr rfl)⟩
  · subst more
    obtain ⟨m, fades, returns⟩ := State.completeFade_fades (s := s) queue next now opens fade
    obtain ⟨u, ran, ⟨untouched, rest, others⟩, waits⟩ :=
      State.fadeTaken_leads (fadeDue.mpr due) fades returns (s.tracked_lists head) busy
    exact ⟨u, ran, ⟨untouched, rest, others⟩, waits _ (List.mem_singleton.mpr rfl)⟩
  · subst more
    obtain ⟨m, fades, returns⟩ := State.completeFade_ends (s := s) queue next now opens fade later
    obtain ⟨u, ran, ⟨untouched, rest, others⟩, waits⟩ :=
      State.fadeTaken_leads (fadeDue.mpr due) fades returns (s.tracked_lists head) busy
    exact ⟨u, ran, ⟨untouched, rest, others⟩, waits _ (List.mem_cons_self ..),
      waits _ (List.mem_cons_of_mem _ (List.mem_singleton.mpr rfl))⟩
  · have taken : s.followTaken = (s.tracked cue).modTheatre fun t => { t.begun cue with stepped := true } := by
      rw [State.followTaken_of (followDue.mpr due), State.startHead_fades queue fade, State.beginCue_eq opens,
        State.modTheatre_modTheatre]
    exact congrArg (Host.Outcome.next ∘ State.arbitrate) taken
  · obtain ⟨m, starts, returns⟩ := State.startHead_completes (s := s) queue opens fade later
    obtain ⟨u, ran, ⟨untouched, rest, others⟩, waits⟩ :=
      State.followTaken_leads (followDue.mpr due) starts returns (s.tracked_lists cue) busy
    exact ⟨u, ran, ⟨untouched, rest, others⟩, waits _ (List.mem_singleton.mpr rfl)⟩

end

section
/-! PROOF. The transfers of the playback channels: requests, completions, moves along the chain and return walks (O42). -/

open Sys2Proof Sys2Proof.Machine

namespace Sys2Proof.Machine

/-! ### A channel changed -/

section
variable (s : State) (c : Fin 16)

theorem State.modChannel_congr {f g : Channel → Channel} (same : f (s.channels.get c) = g (s.channels.get c)) :
    s.modChannel c f = s.modChannel c g := by
  unfold State.modChannel
  rw [Tab.modify_congr _ _ same]

theorem State.modChannel_modChannel (f g : Channel → Channel) :
    (s.modChannel c f).modChannel c g = s.modChannel c fun x => g (f x) := by
  unfold State.modChannel
  rw [Tab.modify_modify]
  rfl

theorem State.emitNote_modChannel (f : Channel → Channel) (k : NoteKind) (code subject detail : Nat) :
    (s.emitNote k code subject detail).modChannel c f = (s.modChannel c f).emitNote k code subject detail := by
  by_cases room : s.notes.queue.length < 32
  · unfold State.emitNote
    rw [if_pos room, if_pos (show (s.modChannel c f).notes.queue.length < 32 from room)]
    dsimp only
    by_cases unheld : s.notes.held.isNone = true
    · rw [if_pos unheld, if_pos (show (s.modChannel c f).notes.held.isNone = true from unheld)]
      rfl
    · rw [if_neg unheld, if_neg (show ¬(s.modChannel c f).notes.held.isNone = true from unheld)]
      rfl
  · rw [State.emitNote_lost (not_lt.mp room), State.emitNote_lost (s := s.modChannel c f) (not_lt.mp room)]
    rfl

end

/-- The prime test tests once: a channel that has passed it stays where it is. -/
theorem Channel.primeTest_twice (ch : Channel) : ch.primeTest.primeTest = ch.primeTest := by
  obtain ⟨state, owner, run, resumeTo, desc, passes, cur, returned, place, reached, chainComplete, fetchEnded, fifo, reread, walk⟩ := ch
  cases state <;> cases fetchEnded <;> cases run <;> cases resumeTo <;>
    simp [Channel.primeTest, Channel.primed, Channel.onward] <;> grind

/-! ### The transfer that is due -/

section
variable {ch : Channel}

theorem Channel.due_free (free : ch.state = .free) : ch.due = none := by
  unfold Channel.due
  rw [free]

theorem Channel.due_walking {w : ReturnWalk} (ended : ch.state = .ended) (walk : ch.walk = some w) :
    ch.due = match w.back with
      | some f => some (.writeBack f.writeBack)
      | none => w.next.map .walkRead := by
  unfold Channel.due
  rw [ended]
  dsimp only
  rw [walk] <;> rfl

theorem Channel.due_ended (ended : ch.state = .ended) (walk : ch.walk = none) :
    ch.due = match ch.cur with
      | .taken f => if ch.returned then none else some (.writeBack f.writeBack)
      | _ => none := by
  unfold Channel.due
  rw [ended]
  dsimp only
  rw [walk] <;> rfl

theorem Channel.due_fetching (free : ch.state ≠ .free) (ended : ch.state ≠ .ended) :
    ch.due = match ch.cur with
      | .empty => none
      | .toRead a => if ch.fetchEnded then none else some (.fragmentRead a)
      | .waiting a => if ch.fetchEnded || !ch.reread then none else some (.fragmentRead a)
      | .taken f =>
        if f.fetched < f.count then
          if ch.fetchEnded || fifoSize < ch.fifo.length + 256 then none
          else some (.burst (f.buffer + f.fetched * ch.desc.sampleBytes) (min 256 (f.count - f.fetched)))
        else if ch.returnsEach && !ch.returned then some (.writeBack f.writeBack)
        else none := by
  unfold Channel.due
  split
  · exact absurd ‹_› free
  · exact absurd ‹_› ended
  · rfl

theorem Channel.returnsEach_iff : ch.returnsEach = true ↔ ch.desc.repeats = false ∧ ch.ownedByAlarm = false := by
  simp [Channel.returnsEach]

end

theorem State.channelRequest_some {s : State} {c : Fin 16} {x : Xfer} (due : (s.channels.get c).due = some x) :
    s.channelRequest c = some (.channel c x) := congrArg (Option.map (Transfer.channel c)) due

theorem State.channelRequest_none {s : State} {c : Fin 16} (due : (s.channels.get c).due = none) :
    s.channelRequest c = none := congrArg (Option.map (Transfer.channel c)) due

/-! ### Moves along the chain -/

/-- The channel after `g` moves to an address, or meets a chain fault there. -/
def State.toward (s : State) (c : Fin 16) (a : Nat) (g : Channel → Channel) : State :=
  if s.inWindow a 32 32 then s.modChannel c fun x => ({ g x with cur := .toRead a } : Channel).primeTest
  else (s.modChannel c fun x => ({ g x with fetchEnded := true } : Channel).primeTest).emitNote .streamStarved 2 c.val a

/-- The channel after `pre` moves on from a fully fetched fragment. -/
def State.movesOn (s : State) (c : Fin 16) (f : Fragment) (pre : Channel → Channel) : State :=
  if f.more then s.toward c f.link pre
  else if (s.channels.get c).passes = 1 then
    s.modChannel c fun x => ({ pre x with chainComplete := true, fetchEnded := true } : Channel).primeTest
  else s.toward c (s.channels.get c).desc.first fun x =>
    { pre x with chainComplete := true, passes := (pre x).passes - 1, place := 0 }

section
variable {s : State} {c : Fin 16} {g pre : Channel → Channel}

theorem State.toRead_toward (a : Nat) :
    ((s.modChannel c g).toRead c a).modChannel c Channel.primeTest = s.toward c a g := by
  unfold State.toRead State.toward
  rw [show (s.modChannel c g).inWindow a 32 32 = s.inWindow a 32 32 from rfl]
  split
  · rw [State.modChannel_modChannel, State.modChannel_modChannel]
  · unfold State.chainFault
    rw [State.emitNote_modChannel, State.modChannel_modChannel, State.modChannel_modChannel]
    simp only [Channel.primeTest_twice]

theorem State.fragmentDone_movesOn (f : Fragment) (passes : (pre (s.channels.get c)).passes = (s.channels.get c).passes)
    (desc : (pre (s.channels.get c)).desc = (s.channels.get c).desc) :
    ((s.modChannel c pre).fragmentDone c f).modChannel c Channel.primeTest = s.movesOn c f pre := by
  unfold State.fragmentDone State.movesOn State.passEnd
  split
  · exact State.toRead_toward _
  · dsimp only
    rw [State.modChannel_modChannel, State.modChannel_channels, Tab.get_modify_self, passes, desc]
    split
    · rw [State.modChannel_modChannel, State.modChannel_modChannel]
      simp only [Channel.primeTest_twice]
    · rw [State.modChannel_modChannel]
      exact State.toRead_toward _

theorem State.burstArrives_more {f : Fragment} (n : Nat) (d : List Byte) (cur : (s.channels.get c).cur = .taken f)
    (more : f.fetched + n < f.count) :
    s.burstArrives c n d = s.modChannel c fun ch => ({ ch with
      fifo := ch.fifo ++ (List.range n).map (sampleOf ch.desc d)
      cur := .taken { f with fetched := f.fetched + n } } : Channel).primeTest := by
  unfold State.burstArrives
  dsimp only
  rw [cur]
  dsimp only
  rw [if_neg (by simp [more.ne]), State.modChannel_modChannel]

/-- The last burst of a fragment. -/
theorem State.burstArrives_last {f : Fragment} {n : Nat} (d : List Byte) (cur : (s.channels.get c).cur = .taken f)
    (last : f.fetched + n = f.count) :
    let filled (x : Channel) : Channel :=
      { x with
        fifo := (s.channels.get c).fifo ++ (List.range n).map (sampleOf (s.channels.get c).desc d)
        cur := .taken { f with fetched := f.count } }
    s.burstArrives c n d = if (s.channels.get c).returnsEach then s.modChannel c fun x => (filled x).primeTest
      else s.movesOn c { f with fetched := f.count } filled := by
  intro filled
  have fills : (s.modChannel c fun ch => { ch with
      fifo := ch.fifo ++ (List.range n).map (sampleOf ch.desc d), cur := .taken { f with fetched := f.fetched + n } }) =
      s.modChannel c filled := s.modChannel_congr c (by rw [last])
  unfold State.burstArrives
  dsimp only
  rw [cur]
  dsimp only
  rw [fills]
  by_cases each : (s.channels.get c).returnsEach = true
  · rw [if_pos each, if_neg (by simp [each]), State.modChannel_modChannel]
  · rw [if_neg each, if_pos (by simp [each, last]), last]
    exact State.fragmentDone_movesOn (pre := filled) _ rfl rfl

theorem State.fragmentReturned_movesOn {f : Fragment} (cur : (s.channels.get c).cur = .taken f) :
    s.fragmentReturned c = s.movesOn c f fun x => { x with returned := true } := by
  unfold State.fragmentReturned
  rw [cur]
  exact State.fragmentDone_movesOn (pre := fun x => { x with returned := true }) _ rfl rfl

/-! ### Arrivals -/

theorem bitOf_toNat {n : Nat} (b : BitVec n) (i : Nat) : bitOf b.toNat i = b.getLsbD i := by
  rw [BitVec.getLsbD, Nat.testBit_eq_decide_div_mod_eq]
  rfl

theorem Fragment.ownedByPart_of (a : Nat) (d : List Byte) : (fragmentOf a d).ownedByPart = bitOf (byteAt d 0) 7 :=
  (bitOf_toNat _ _).symm

theorem State.fragmentArrives_host {d : List Byte} (a : Nat) (host : bitOf (byteAt d 0) 7 = false) :
    s.fragmentArrives c a d = s.modChannel c fun ch => { ch with cur := .waiting a, reread := false } := by
  unfold State.fragmentArrives
  exact if_pos (by rw [Fragment.ownedByPart_of, host]; rfl)

theorem State.fragmentArrives_valid {a : Nat} {d : List Byte} (part : bitOf (byteAt d 0) 7 = true)
    (valid : s.fragmentValid (s.channels.get c).desc.sampleBytes (fragmentOf a d) = true) :
    s.fragmentArrives c a d = s.modChannel c fun ch => ({ ch with
      cur := .taken (fragmentOf a d), returned := false, place := ch.place + 1
      reached := if ch.chainComplete then ch.reached else max ch.reached (ch.place + 1) } : Channel).primeTest := by
  unfold State.fragmentArrives
  dsimp only
  rw [if_neg (by rw [Fragment.ownedByPart_of, part]; nofun), if_pos valid]

theorem State.fragmentArrives_invalid {a : Nat} {d : List Byte} (part : bitOf (byteAt d 0) 7 = true)
    (invalid : ¬s.fragmentValid (s.channels.get c).desc.sampleBytes (fragmentOf a d) = true) :
    s.fragmentArrives c a d = s.chainFault c a := by
  unfold State.fragmentArrives
  dsimp only
  rw [if_neg (by rw [Fragment.ownedByPart_of, part]; nofun), if_neg invalid]

theorem State.fragmentValid_iff {size : Nat} {f : Fragment} : s.fragmentValid size f = true ↔
    f.count ≠ 0 ∧ s.inWindow f.buffer (f.count * size) 4 = true ∧ (f.more = true → f.link ≠ 0) := by
  unfold State.fragmentValid
  cases f.more <;> simp [and_assoc]

/-! ### Return walks -/

theorem State.freeIfDone_done (idle : s.channelBusy c = false) (ended : (s.channels.get c).state = .ended)
    (done : (s.channels.get c).returnDue = false) : s.freeIfDone c = s.modChannel c fun _ => {} := by
  unfold State.freeIfDone
  exact if_pos (by simp [idle, ended, done])

theorem State.freeIfDone_due (due : (s.channels.get c).returnDue = true) : s.freeIfDone c = s := by
  unfold State.freeIfDone
  exact if_neg (by simp [due])

/-- After a fragment of the return walk `w` has been met. -/
theorem State.walkOn_of {w : ReturnWalk} (f : Fragment) (idle : s.port.grant = none)
    (ended : (s.channels.get c).state = .ended) (walk : (s.channels.get c).walk = some w) :
    s.walkOn c f =
      if f.more = false ∨ s.inWindow f.link 32 32 = false ∨
          ((s.channels.get c).chainComplete = false ∧ w.count + 1 = (s.channels.get c).reached) then
        s.modChannel c fun _ => {}
      else s.modChannel c fun x => { x with walk := some { next := some f.link, back := none, count := w.count + 1 } } := by
  have quiet (g : Channel → Channel) : (s.modChannel c g).channelBusy c = false := by
    unfold State.channelBusy
    rw [State.modChannel_port, idle]
  unfold State.walkOn
  dsimp only
  rw [walk]
  dsimp only
  by_cases stop : f.more = false ∨ s.inWindow f.link 32 32 = false ∨
      ((s.channels.get c).chainComplete = false ∧ w.count + 1 = (s.channels.get c).reached)
  · have stops : (!f.more || !s.inWindow f.link 32 32 ||
        !(s.channels.get c).chainComplete && w.count + 1 == (s.channels.get c).reached) = true := by
      simpa [or_assoc] using stop
    rw [if_pos stop, if_pos stops, State.freeIfDone_done (quiet _) (by simpa using ended) (by simp [Channel.returnDue]),
      State.modChannel_modChannel]
  · have goes : ¬(!f.more || !s.inWindow f.link 32 32 ||
        !(s.channels.get c).chainComplete && w.count + 1 == (s.channels.get c).reached) = true := by
      simpa [or_assoc] using stop
    rw [if_neg stop, if_neg goes, State.freeIfDone_due (by simp [Channel.returnDue])]

theorem State.writeBackDone_walk {w : ReturnWalk} {f : Fragment} (ended : (s.channels.get c).state = .ended)
    (walk : (s.channels.get c).walk = some w) (back : w.back = some f) : s.writeBackDone c = s.walkOn c f := by
  unfold State.writeBackDone
  dsimp only
  rw [if_pos (by simp [ended]), walk]
  dsimp only
  rw [back]

/-- The write-back of an ENDED channel that makes no return walk leaves it nothing to do. -/
theorem State.writeBackDone_once (idle : s.port.grant = none) (ended : (s.channels.get c).state = .ended)
    (walk : (s.channels.get c).walk = none) : s.writeBackDone c = s.modChannel c fun _ => {} := by
  have quiet (g : Channel → Channel) : (s.modChannel c g).channelBusy c = false := by
    unfold State.channelBusy
    rw [State.modChannel_port, idle]
  unfold State.writeBackDone
  dsimp only
  rw [if_pos (by simp [ended]), walk]
  dsimp only
  rw [State.freeIfDone_done (quiet _) (by simpa using ended) ?_, State.modChannel_modChannel]
  unfold Channel.returnDue
  rw [State.modChannel_channels, Tab.get_modify_self, walk]
  dsimp only
  split <;> rfl

end

/-! ### Completions -/

/-- A channel's transfer in progress whose result counts completes. -/
theorem State.channelCompletion_of {s : State} {c : Fin 16} {t : Transfer} {mine : Transfer → Bool} (d : List Byte)
    (granted : s.port.grant = some ⟨t, false⟩) (own : mine t = true) :
    s.channelCompletion c mine d = ((s.endGrant t).channelData c d t).arbitrate := by
  unfold State.channelCompletion
  rw [granted]
  exact if_pos own

theorem State.channelData_written (s : State) (c : Fin 16) (d : List Byte) (t : Transfer) :
    (s.channelData c d t).port.written = s.port.written := by
  unfold State.channelData
  split
  · exact (State.fragmentArrives_quiet (Quiet.refl s) _ _ _).written
  · exact (State.burstArrives_quiet (Quiet.refl s) _ _ _).written
  · exact (State.walkArrives_quiet (Quiet.refl s) _ _ _).written
  · exact (State.writeBackDone_quiet (Quiet.refl s) _).written
  · rfl

/-- What stands as written after a completion, discarded or not. -/
theorem State.channelCompletion_written {s : State} {c : Fin 16} {t : Transfer} {discard : Bool} {mine : Transfer → Bool}
    (d : List Byte) (granted : s.port.grant = some ⟨t, discard⟩) (own : mine t = true) :
    (s.channelCompletion c mine d).port.written = t.write?.orElse fun _ => s.port.written := by
  unfold State.channelCompletion
  rw [granted]
  dsimp only
  rw [if_pos own, State.arbitrate_written]
  split
  · exact (State.freeIfDone_quiet (Quiet.refl (s.endGrant t)) c).written
  · exact State.channelData_written _ _ _ _

theorem signed_eq (n : Nat) {bits : Nat} (pos : 0 < bits) (small : n < 2 ^ bits) :
    signed bits n = (BitVec.ofNat bits n).toInt := by
  obtain ⟨half, rfl⟩ : ∃ half, bits = half + 1 := ⟨bits - 1, by omega⟩
  have double : 2 ^ (half + 1) = 2 * 2 ^ half := by rw [pow_succ]; omega
  unfold signed
  rw [BitVec.toInt_eq_toNat_cond, BitVec.toNat_ofNat, Nat.mod_eq_of_lt small, Nat.add_sub_cancel, double]
  push_cast
  split_ifs <;> omega

theorem byteAt_lt (d : List Byte) (i : Nat) : byteAt d i < 256 := (d.getD i 0).isLt

end Sys2Proof.Machine

/-- Settles O42: each completion is its effect on the channel, and the moves along a chain or a return walk are one function
of the fragment met. -/
theorem streamTransfers : Obligations.StreamTransfers := by
  unfold Obligations.StreamTransfers
  intro s c d ch size movesOn walks asks silent back single writes
  refine ⟨fun free => ?_, fun ended => ⟨fun walk => ⟨fun f cur open_ => ?_, fun nothing => ?_⟩, fun w walk =>
      ⟨fun f reads => ?_, fun a reads next => ?_, fun reads next => ?_⟩⟩, fun free ended => ?_, fun x discard granted => ?_,
    fun a granted => ?_, fun a n f granted cur more => ?_, fun a n f granted cur last => ?_, fun w f granted on cur => ?_,
    fun w granted ended => ?_, fun a w granted ended walk host => ?_, fun a w granted walk part => ?_, fun k desc => ?_⟩
  · exact State.channelRequest_none (Channel.due_free free)
  · refine State.channelRequest_some ((Channel.due_ended ended walk).trans ?_)
    rw [cur]
    exact if_neg (by simp [open_])
  · refine State.channelRequest_none ((Channel.due_ended ended walk).trans ?_)
    split
    · next f cur => exact if_pos (nothing.resolve_left fun other => other f cur)
    · rfl
  · refine State.channelRequest_some ((Channel.due_walking ended walk).trans ?_)
    rw [reads] <;> rfl
  · refine State.channelRequest_some ((Channel.due_walking ended walk).trans ?_)
    rw [reads, next]
    rfl
  · refine State.channelRequest_none ((Channel.due_walking ended walk).trans ?_)
    rw [reads, next]
    rfl
  · have due := Channel.due_fetching free ended
    refine ⟨fun cur => ?_, fun a cur => ⟨fun fetching => ?_, fun over_ => ?_⟩, fun a cur => ⟨fun fetching again => ?_,
      fun idle => ?_⟩, fun f cur => ⟨fun part => ⟨fun fetching room => ?_, fun idle => ?_⟩, fun whole =>
        ⟨fun each open_ => ?_, fun kept => ?_⟩⟩⟩ <;> rw [cur] at due <;> dsimp only at due
    · exact State.channelRequest_none due
    · exact State.channelRequest_some (due.trans (if_neg (by simp [fetching])))
    · exact State.channelRequest_none (due.trans (if_pos over_))
    · exact State.channelRequest_some (due.trans (if_neg (by simp [fetching, again])))
    · exact State.channelRequest_none (due.trans (if_pos (by simpa using idle)))
    · rw [if_pos part, if_neg (by simp [fetching, not_lt.mpr (show ch.fifo.length + 256 ≤ fifoSize from room)])] at due
      exact State.channelRequest_some due
    · rw [if_pos part, if_pos (by simpa using (show _ ∨ fifoSize < ch.fifo.length + 256 from idle))] at due
      exact State.channelRequest_none due
    · rw [if_neg (by omega), if_pos (by simp [Channel.returnsEach_iff.mpr each, open_])] at due
      exact State.channelRequest_some due
    · rw [if_neg (by omega), if_neg ?_] at due
      · exact State.channelRequest_none due
      · rw [Bool.and_eq_true, Channel.returnsEach_iff]
        rintro ⟨each, open_⟩
        exact kept.elim (fun not => not each) fun returned => by simp [returned] at open_
  · cases x with
    | writeBack w => exact ⟨_, rfl, State.channelCompletion_written _ granted (beq_self_eq_true c)⟩
    | fragmentRead _ => exact ⟨_, rfl, State.channelCompletion_written _ granted (beq_self_eq_true c)⟩
    | burst _ _ => exact ⟨_, rfl, State.channelCompletion_written _ granted (beq_self_eq_true c)⟩
    | walkRead _ => exact ⟨_, rfl, State.channelCompletion_written _ granted (beq_self_eq_true c)⟩
  · have ran : exec (.fragmentRead c d) s =
        .next ((s.endGrant (.channel c (.fragmentRead a))).fragmentArrives c a d).arbitrate :=
      congrArg Host.Outcome.next (State.channelCompletion_of d granted (beq_self_eq_true c))
    intro f valid ended
    have valid_iff : (s.endGrant (.channel c (.fragmentRead a))).fragmentValid ch.desc.sampleBytes (fragmentOf a d) = true ↔
        valid := State.fragmentValid_iff
    exact ⟨fun host => ran.trans (by rw [State.fragmentArrives_host a host]),
      fun part good => ran.trans (by rw [State.fragmentArrives_valid part (valid_iff.mpr good)]; rfl),
      fun part bad => ran.trans (by rw [State.fragmentArrives_invalid part fun good => bad (valid_iff.mp good)]; rfl)⟩
  · refine (congrArg Host.Outcome.next (State.channelCompletion_of d granted (beq_self_eq_true c))).trans ?_
    exact congrArg (Host.Outcome.next ∘ State.arbitrate) (State.burstArrives_more n d cur more)
  · intro base filled
    have ran : exec (.fetchBurst c d) s = .next (base.burstArrives c n d).arbitrate :=
      congrArg Host.Outcome.next (State.channelCompletion_of d granted (beq_self_eq_true c))
    have arrives := State.burstArrives_last (s := base) d cur last
    refine ⟨fun once plain => ran.trans (congrArg (Host.Outcome.next ∘ State.arbitrate) (arrives.trans ?_)),
      fun kept => ran.trans (congrArg (Host.Outcome.next ∘ State.arbitrate) (arrives.trans ?_))⟩
    · exact if_pos (Channel.returnsEach_iff.mpr ⟨once, plain⟩)
    · refine if_neg fun each => ?_
      obtain ⟨once, plain⟩ := Channel.returnsEach_iff.mp each
      exact kept.elim (fun h => nomatch once.symm.trans h) fun h => nomatch plain.symm.trans h
  · have ran : exec (.fragmentWriteBack c) s =
        .next ((s.endGrant (.channel c (.writeBack w))).writeBackDone c).arbitrate :=
      congrArg Host.Outcome.next (State.channelCompletion_of [] granted (beq_self_eq_true c))
    refine ran.trans (congrArg (Host.Outcome.next ∘ State.arbitrate) ?_)
    unfold State.writeBackDone
    exact (if_neg fun ended => on (beq_iff_eq.mp ended)).trans (State.fragmentReturned_movesOn cur)
  · have ran : exec (.fragmentWriteBack c) s =
        .next ((s.endGrant (.channel c (.writeBack w))).writeBackDone c).arbitrate :=
      congrArg Host.Outcome.next (State.channelCompletion_of [] granted (beq_self_eq_true c))
    intro base
    refine ⟨fun walk => ran.trans (congrArg (Host.Outcome.next ∘ State.arbitrate) ?_),
      fun x f walk back => ran.trans (congrArg (Host.Outcome.next ∘ State.arbitrate) ?_)⟩
    · exact State.writeBackDone_once rfl ended walk
    · exact (State.writeBackDone_walk (s := base) ended walk back).trans (State.walkOn_of (s := base) f rfl ended walk)
  · have ran : exec (.returnWalkRead c d) s =
        .next ((s.endGrant (.channel c (.walkRead a))).walkArrives c a d).arbitrate :=
      congrArg Host.Outcome.next (State.channelCompletion_of d granted (beq_self_eq_true c))
    refine ran.trans (congrArg (Host.Outcome.next ∘ State.arbitrate) ?_)
    unfold State.walkArrives
    exact (if_neg (by rw [Fragment.ownedByPart_of, host]; nofun)).trans (State.walkOn_of _ rfl ended walk)
  · have ran : exec (.returnWalkRead c d) s =
        .next ((s.endGrant (.channel c (.walkRead a))).walkArrives c a d).arbitrate :=
      congrArg Host.Outcome.next (State.channelCompletion_of d granted (beq_self_eq_true c))
    refine ran.trans (congrArg (Host.Outcome.next ∘ State.arbitrate) ?_)
    unfold State.walkArrives
    refine (if_pos (by rw [Fragment.ownedByPart_of, part])).trans (State.modChannel_congr _ _ ?_)
    rw [show ((s.endGrant (.channel c (.walkRead a))).channels.get c).walk = some w from walk]
    rfl
  · have b (i : Nat) := byteAt_lt d i
    refine ⟨fun narrow plain => ?_, fun narrow swapped => ?_, fun wide plain => ?_, fun wide swapped => ?_⟩ <;>
      unfold sampleOf
    · rw [if_neg (by simp [narrow])]
      dsimp only
      rw [if_neg (by simp [plain]), signed_eq _ (by omega) (by have := b (2 * k); have := b (2 * k + 1); omega)]
    · rw [if_neg (by simp [narrow])]
      dsimp only
      rw [if_pos swapped, signed_eq _ (by omega) (by have := b (2 * k); have := b (2 * k + 1); omega)]
    · rw [if_pos wide]
      dsimp only
      rw [if_neg (by simp [plain]), signed_eq _ (by omega)
        (by have := b (4 * k); have := b (4 * k + 1); have := b (4 * k + 2); omega)]
    · rw [if_pos wide]
      dsimp only
      rw [if_pos swapped, signed_eq _ (by omega)
        (by have := b (4 * k); have := b (4 * k + 1); have := b (4 * k + 3); omega)]

end

section
/-! PROOF. A channel's prime test, owner signals and period, and what its event does (O43). -/

open Sys2Proof Sys2Proof.Machine

namespace Sys2Proof.Machine

/-! ### The end of a VOICE phase -/

/-- The VOICE phase of kind `k` over in `u`, as `s` shows its phase and its voice. -/
def State.phaseOver (s u : State) (k : AlarmKind) : State :=
  if (s.alarms.kinds.get k.idx).phase = .voice then
    let u := u.modAlarm k fun a => { a with phase := .tone }
    match s.voiceOf (.alarm k) with
    | some v => u.modVoice v fun x => { x with mode := .starting true }
    | none => u
  else u

theorem State.endVoicePhase_eq {s u : State} (k : AlarmKind) (alarms : u.alarms = s.alarms) (tones : u.tones = s.tones) :
    u.endVoicePhase k = s.phaseOver u k := by
  have voice (f : AlarmStatus → AlarmStatus) : (u.modAlarm k f).voiceOf (.alarm k) = s.voiceOf (.alarm k) := by
    unfold State.voiceOf
    rw [State.modAlarm_tones, tones]
  unfold State.endVoicePhase State.phaseOver
  rw [alarms]
  by_cases phase : (s.alarms.kinds.get k.idx).phase = .voice
  · rw [if_pos phase, if_pos (beq_iff_eq.mpr phase)]
    dsimp only
    rw [voice] <;> rfl
  · rw [if_neg phase, if_neg (by simpa using phase)]

/-! ### The events of a channel -/

section
variable {s : State} {c : Fin 16} {gave : Tab 16 ChanEvent}

theorem State.channelEvent_starves (event : gave.get c = .starves) (starved : (s.channels.get c).state = .starved) :
    s.channelEvent gave c = s.channelStarves c := by
  unfold State.channelEvent
  rw [event]
  exact if_pos (beq_iff_eq.mpr starved)

theorem State.channelEvent_completes (event : gave.get c = .completes) (draining : (s.channels.get c).state = .draining) :
    s.channelEvent gave c = s.channelCompletes c := by
  unfold State.channelEvent
  rw [event]
  exact if_pos (beq_iff_eq.mpr draining)

theorem alarmOwner_host {p : Fin 64} (host : p.val < 60) : alarmOwner (some (.program p)) = none :=
  alarmOwner_none fun k same => by
    have high : 60 ≤ k.slot.val := by cases k <;> decide
    rw [← ChanOwner.program.inj (Option.some.inj same)] at high
    omega

theorem Channel.ownerCode_of {ch : Channel} {w : ChanOwner} (own : ch.owner = some w) : ch.ownerCode = w.code := by
  unfold Channel.ownerCode
  rw [own]

theorem State.channelStarves_host {p : Fin 64} (host : p.val < 60) (own : (s.channels.get c).owner = some (.program p)) :
    s.channelStarves c = s.emitNote .streamStarved 1 c.val p.val := by
  unfold State.channelStarves
  dsimp only
  rw [Channel.ownerCode_of own, own, alarmOwner_host host] <;> rfl

theorem State.channelCompletes_host {p : Fin 64} (host : p.val < 60) (own : (s.channels.get c).owner = some (.program p)) :
    s.channelCompletes c = (s.enterEnded c).streamComplete p := by
  unfold State.channelCompletes
  dsimp only
  rw [own, alarmOwner_host host] <;> rfl

theorem State.channelStarves_alarm {k : AlarmKind} (own : (s.channels.get c).owner = some (.program k.slot)) :
    s.channelStarves c =
      s.phaseOver ((s.emitNote .streamStarved 1 c.val k.slot.val).releaseChannel (.program k.slot)) k := by
  have only : ∃ regs port channels notes, (s.emitNote .streamStarved 1 c.val k.slot.val).releaseChannel (.program k.slot) =
      { s with regs, port, channels, notes } := by
    obtain ⟨_, _, e⟩ := s.emitNote_only .streamStarved 1 c.val k.slot.val
    rw [e]
    obtain ⟨_, _, e'⟩ := State.releaseChannel_only _ (.program k.slot)
    exact ⟨_, _, _, _, e'⟩
  unfold State.channelStarves
  dsimp only
  rw [Channel.ownerCode_of own, own, alarmOwner_slot]
  obtain ⟨_, _, _, _, e⟩ := only
  exact State.endVoicePhase_eq k (by rw [show ChanOwner.code (.program k.slot) = k.slot.val from rfl, e])
    (by rw [show ChanOwner.code (.program k.slot) = k.slot.val from rfl, e])

theorem State.reloadAlarm_of (window : s.inWindow (s.channels.get c).desc.first 32 32 = true) :
    s.reloadAlarm c = s.modChannel c fun x =>
      { x with
        run := false, fetchEnded := false, passes := 1, state := .priming, place := 0, cur := .toRead x.desc.first } := by
  have reads (u : State) (root : u.lists.root = s.lists.root) :
      u.toRead c (s.channels.get c).desc.first =
        u.modChannel c fun ch => { ch with cur := .toRead (s.channels.get c).desc.first } := by
    unfold State.inWindow at window
    unfold State.toRead State.inWindow
    rw [root]
    exact if_pos window
  unfold State.reloadAlarm
  refine (reads (s.modChannel c _) rfl).trans ?_
  rw [State.modChannel_modChannel]
  exact s.modChannel_congr c rfl

theorem State.channelCompletes_alarm {k : AlarmKind} (own : (s.channels.get c).owner = some (.program k.slot))
    (window : s.inWindow (s.channels.get c).desc.first 32 32 = true) :
    s.channelCompletes c = s.phaseOver (s.modChannel c fun x =>
      { x with
        run := false, fetchEnded := false, passes := 1, state := .priming, place := 0, cur := .toRead x.desc.first }) k := by
  unfold State.channelCompletes
  dsimp only
  rw [own, alarmOwner_slot]
  dsimp only
  rw [State.reloadAlarm_of window]
  exact State.endVoicePhase_eq k rfl rfl

/-- A host program whose stream is complete ends. -/
theorem State.channelCompletes_ends {p : Fin 64} (host : p.val < 60) (own : (s.channels.get c).owner = some (.program p))
    (busy : (s.programs.get p).state ≠ .free) :
    ProgramEnded s (s.channelCompletes c) p (if (s.programs.get p).stopMode = .unset then 0x03 else 0x04) := by
  have code : (if (s.programs.get p).stopMode == .unset then stComplete else stStopped) =
      if (s.programs.get p).stopMode = .unset then 0x03 else 0x04 := by simp [stComplete, stStopped]
  obtain ⟨channels, ended⟩ := s.enterEnded_only c
  have ends := State.endProgram_ended (s := { s with channels }) busy
    (if (s.programs.get p).stopMode = .unset then 0x03 else 0x04)
  rw [State.channelCompletes_host host own, ended, ← code]
  rw [← code] at ends
  exact { ends with toUntouched := Untouched.trans (by constructor <;> rfl) ends.toUntouched }

end

/-! ### The prime test and the owner signals, state by state -/

section
variable {ch : Channel}

theorem Channel.onward_eq (ch : Channel) : ch.onward = if ch.fetchEnded then .draining else .playing := rfl

theorem Channel.primed_iff : ch.primed = true ↔ ch.desc.prime ≤ ch.fifo.length ∨ 3840 < ch.fifo.length ∨ ch.fetchEnded = true := by
  have room : fifoSize < ch.fifo.length + 256 ↔ 3840 < ch.fifo.length := by unfold fifoSize; omega
  simp [Channel.primed, room, or_assoc]

theorem Channel.primeTest_priming (state : ch.state = .priming) :
    ch.primeTest = if ch.primed then { ch with state := if ch.run then ch.onward else .ready } else ch := by
  unfold Channel.primeTest
  rw [state]

theorem Channel.primeTest_starved (state : ch.state = .starved) :
    ch.primeTest = if ch.primed then { ch with state := ch.onward } else ch := by
  unfold Channel.primeTest
  rw [state]

theorem Channel.primeTest_playing (state : ch.state = .playing) : ch.primeTest = { ch with state := ch.onward } := by
  unfold Channel.primeTest Channel.onward
  rw [state]
  dsimp only
  split
  · rfl
  · exact state ▸ rfl

theorem Channel.primeTest_rests (state : ch.state = .ready ∨ ch.state = .draining ∨ ch.state = .free ∨ ch.state = .ended) :
    ch.primeTest = ch := by
  unfold Channel.primeTest
  rcases state with e | e | e | e <;> rw [e]

theorem Channel.primeTest_paused (state : ch.state = .paused) :
    ch.primeTest = if ch.fetchEnded = true ∧ (ch.resumeTo = .playing ∨ ch.resumeTo = .starved) then
      { ch with resumeTo := .draining } else ch := by
  unfold Channel.primeTest
  rw [state]
  simp only [Bool.and_eq_true, Bool.or_eq_true, beq_iff_eq]

/-! ### What a channel gives -/

theorem padTo48_few {xs : List Int} (few : xs.length ≤ 48) : padTo48 xs = xs ++ List.replicate (48 - xs.length) 0 := by
  unfold padTo48
  rw [List.take_append, List.take_of_length_le few, List.take_replicate, Nat.min_eq_left (Nat.sub_le _ _)]

theorem padTo48_many {xs : List Int} (many : 48 ≤ xs.length) : padTo48 xs = xs.take 48 := by
  unfold padTo48
  rw [List.take_append, Nat.sub_eq_zero_of_le many, List.take_zero, List.append_nil]

theorem Channel.give_playing (playing : ch.state = .playing) (many : 48 ≤ ch.fifo.length) :
    ch.give = (ch.fifo.take 48, { ch with fifo := ch.fifo.drop 48 }, .none) := by
  unfold Channel.give
  rw [playing]
  exact if_pos many

theorem Channel.give_starves (playing : ch.state = .playing) (few : ch.fifo.length < 48) : ch.give =
    (ch.fifo ++ List.replicate (48 - ch.fifo.length) 0, { ch with fifo := [], state := .starved }, .starves) := by
  unfold Channel.give
  rw [playing, ← padTo48_few few.le, ← List.drop_of_length_le few.le]
  exact if_neg (not_le.mpr few)

theorem Channel.give_last (draining : ch.state = .draining) (few : ch.fifo.length ≤ 48) : ch.give =
    (ch.fifo ++ List.replicate (48 - ch.fifo.length) 0, { ch with fifo := [] }, .completes) := by
  unfold Channel.give
  rw [draining]
  dsimp only
  rw [List.drop_of_length_le few, padTo48_few few]
  rfl

theorem Channel.give_draining (draining : ch.state = .draining) (many : 48 < ch.fifo.length) :
    ch.give = (ch.fifo.take 48, { ch with fifo := ch.fifo.drop 48 }, .none) := by
  have more : (ch.fifo.drop 48).isEmpty = false := by
    rw [List.isEmpty_eq_false_iff_exists_mem]
    exact List.exists_mem_of_length_pos (by rw [List.length_drop]; omega)
  unfold Channel.give
  rw [draining]
  dsimp only
  rw [more, padTo48_many many.le]
  rfl

theorem Channel.give_silent (playing : ch.state ≠ .playing) (draining : ch.state ≠ .draining) :
    ch.give = (List.replicate 48 0, ch, .none) := by
  unfold Channel.give
  dsimp only
  split
  · exact absurd ‹_› playing
  · exact absurd ‹_› draining
  · rfl

end

end Sys2Proof.Machine

/-- Settles O43: the show rests through the period; a channel's event is the end of its program, or of its kind's VOICE phase,
by its owner; and the prime test and the signals are read off state by state. -/
theorem channelSignals : Obligations.ChannelSignals := by
  unfold Obligations.ChannelSignals
  refine ⟨fun s audio calm none fading waiting busy => ?_, fun s gave c p => ?_, fun s gave c k => ?_, fun ch => ?_⟩
  · obtain ⟨u, ran, ends⟩ := State.calm_ends calm none audio
    obtain ⟨alike, show_⟩ := State.beforeShow_alike calm
    generalize s.beforeShow = b at ends alike show_
    obtain ⟨-, rest⟩ := ends b b.theatre (State.showStep_rests (by rw [show_]; exact .inl ⟨fading, waiting⟩)) rfl
    exact ⟨u, ran, (rest busy).2 s alike.channels fun _ => .inl rfl⟩
  · intro ch t host own
    exact ⟨fun event starved => (State.channelEvent_starves event starved).trans (State.channelStarves_host host own),
      fun event draining active => by
        rw [show t = _ from State.channelEvent_completes event draining]
        exact State.channelCompletes_ends host own active⟩
  · intro ch phaseOver own
    exact ⟨fun event draining window => (State.channelEvent_completes event draining).trans
        (State.channelCompletes_alarm own window),
      fun event starved => (State.channelEvent_starves event starved).trans (State.channelStarves_alarm own)⟩
  · intro onward
    refine ⟨Channel.primed_iff, fun state => ?_, fun state => ?_, fun state => ?_, fun state => ?_, fun state kept => ?_,
      fun state => ?_, fun state => ?_, fun state => ?_, fun state => ?_, fun state many => ?_, fun state few => ?_,
      fun state few => ?_, fun state many => ?_, fun playing draining => ?_⟩
    · refine ⟨by unfold Channel.signalRun; rw [state], by unfold Channel.signalPause; rw [state],
        by unfold Channel.signalResume; rw [state], fun primed => ?_, fun unprimed => ?_⟩ <;> rw [Channel.primeTest_priming state]
      · exact if_pos primed
      · exact if_neg (by simp [unprimed])
    · refine ⟨fun primed => ?_, fun unprimed => ?_⟩ <;> rw [Channel.primeTest_starved state]
      · exact if_pos primed
      · exact if_neg (by simp [unprimed])
    · exact Channel.primeTest_playing state
    · exact Channel.primeTest_rests state
    · exact (Channel.primeTest_paused state).trans (if_neg fun ⟨ended, either⟩ => kept.elim (fun going => by simp [going] at ended)
        fun ⟨playing, starved⟩ => either.elim playing starved)
    · exact ⟨by unfold Channel.signalRun; rw [state]; rfl, by unfold Channel.signalPause; rw [state],
        by unfold Channel.signalResume; rw [state]; rfl⟩
    · unfold Channel.signalRun Channel.signalPause Channel.signalResume
      rcases state with e | e | e <;> rw [e] <;> exact ⟨rfl, rfl, rfl⟩
    · have resumes : ch.signalResume = ({ ch with run := true, state := ch.resumeTo } : Channel).primeTest := by
        unfold Channel.signalResume
        rw [state]
      rw [resumes]
      refine ⟨by unfold Channel.signalRun; rw [state], by unfold Channel.signalPause; rw [state], fun playing going => ?_,
        fun starved primed => ?_, fun starved unprimed => ?_, fun either => ?_, fun ended either => ?_⟩
      · rw [Channel.primeTest_playing playing, Channel.onward_eq, playing, if_neg (by simp [going])]
      · exact (Channel.primeTest_starved starved).trans (if_pos primed)
      · rw [Channel.primeTest_starved starved, starved]
        exact if_neg fun primed => Bool.false_ne_true (unprimed.symm.trans primed)
      · rcases either with draining | ⟨playing, ended⟩
        · rw [Channel.primeTest_rests (.inr (.inl draining)), draining]
        · rw [Channel.primeTest_playing playing, Channel.onward_eq, if_pos ended]
      · exact (Channel.primeTest_paused state).trans (if_pos ⟨ended, either⟩)
    · unfold Channel.signalRun Channel.signalPause Channel.signalResume
      rcases state with e | e <;> rw [e] <;> exact ⟨rfl, rfl, rfl⟩
    · exact Channel.give_playing state many
    · exact Channel.give_starves state few
    · exact Channel.give_last state few
    · exact Channel.give_draining state many
    · exact Channel.give_silent playing draining

end

section
/-! PROOF. The ambient windows: a period's sums and marks, and the window's end (O41). -/

open Sys2Proof Sys2Proof.Machine

namespace Sys2Proof.Machine

/-! ### A window's end at one outlet -/

/-- The entry after the window has been judged at its outlet. -/
def AmbientEntry.judged (a : AmbientEntry) (out : Outlet) (length : Nat) : AmbientEntry :=
  if out.senseInlet = none then a
  else if a.gated then { a with gatedCount := min 65535 (a.gatedCount + 1) }
  else if a.unheard || a.void then a
  else
    let level := smooth a.level (windowLevel a.sum length) out.smoothing
    if a.capture.any (·.begun) then
      { a with level, baseline := level, factor := compensation out level level, capture := none }
    else { a with level, factor := compensation out level a.baseline }

/-- Its sum and marks begin anew. -/
def AmbientEntry.cleared (a : AmbientEntry) : AmbientEntry := { a with sum := 0, gated := false, unheard := false, void := false }

/-- The entry after a measured window whose capture waits. -/
def captureTaken (out : Outlet) (length : Nat) (a : AmbientEntry) : AmbientEntry :=
  let level := smooth a.level (windowLevel a.sum length) out.smoothing
  { a with level, baseline := level, factor := compensation out level level, capture := none }

/-- The entry after a measured window. -/
def measuredBy (out : Outlet) (length : Nat) (a : AmbientEntry) : AmbientEntry :=
  let level := smooth a.level (windowLevel a.sum length) out.smoothing
  { a with level, factor := compensation out level a.baseline }

section
variable (s : State) (o : Fin 256)

theorem State.modAmbient_id : s.modAmbient o id = s := by
  unfold State.modAmbient
  rw [Tab.modify_id]

/-- A capture that waits completes. -/
theorem State.completeCapture_of {s : State} {o : Fin 256} {cap : AmbientCapture}
    (capture : (s.ambient.outlets.get o).capture = some cap) :
    ∃ lists, s.completeCapture o = ({ s with lists } : State).modAmbient o (fun a =>
        { a with capture := none, baseline := a.level, factor := compensation (s.outlets.get o) a.level a.level }) ∧
      Returns s { s with lists } ∧ ({ s with lists } : State).returns .setup
        { record := cap.record, status := marked 0x02 cap.record.mark
          results := [(16, bytes4 (s.ambient.outlets.get o).level)] } := by
  let r : Return :=
    { record := cap.record, status := marked 0x02 cap.record.mark, results := [(16, bytes4 (s.ambient.outlets.get o).level)] }
  let v := (s.modAmbient o fun a => { a with capture := none }).setBaseline o (s.ambient.outlets.get o).level
  have set : v = s.modAmbient o fun a =>
      { a with capture := none, baseline := a.level, factor := compensation (s.outlets.get o) a.level a.level } := by
    unfold v State.setBaseline State.recomputeC
    rw [State.modAmbient_modAmbient, State.modAmbient_modAmbient]
    exact s.modAmbient_congr o rfl
  have completes : s.completeCapture o = v.requestReturn .setup r := by
    unfold State.completeCapture
    dsimp only
    rw [capture] <;> rfl
  have returns := v.requestReturn_returns .setup r
  have waits := v.requestReturn_waits .setup r
  obtain ⟨lists, e⟩ := v.requestReturn_only .setup r
  rw [e] at returns waits
  refine ⟨lists, ?_, (Returns.same (s := s) (t := v) (by rw [set]; rfl)).trans (returns.trans (Returns.same rfl)), waits⟩
  rw [completes, e, set]
  rfl

/-- The window's end at an outlet is one change of its entry, with the return of the capture that it completes. -/
theorem State.windowAt_eq : ∃ lists, s.windowAt o =
      ({ s with lists } : State).modAmbient o (fun a => (a.judged (s.outlets.get o) s.ambient.length).cleared) ∧
    Returns s { s with lists } ∧
    ∀ cap, (s.ambient.outlets.get o).capture = some cap → cap.begun = true → (s.outlets.get o).senseInlet ≠ none →
      (s.ambient.outlets.get o).gated = false → (s.ambient.outlets.get o).unheard = false →
      (s.ambient.outlets.get o).void = false → ({ s with lists } : State).returns .setup
        { record := cap.record, status := marked 0x02 cap.record.mark
          results := [(16, bytes4 ((s.ambient.outlets.get o).judged (s.outlets.get o) s.ambient.length).level)] } := by
  have plain {f : AmbientEntry → AmbientEntry} (judged : f (s.ambient.outlets.get o) =
      ((s.ambient.outlets.get o).judged (s.outlets.get o) s.ambient.length).cleared) :
      s.modAmbient o f = ({ s with lists := s.lists } : State).modAmbient o
        (fun a => (a.judged (s.outlets.get o) s.ambient.length).cleared) := s.modAmbient_congr o judged
  unfold State.windowAt
  dsimp only
  by_cases unsensed : (s.outlets.get o).senseInlet = none
  · rw [if_pos (by simp [unsensed])]
    refine ⟨s.lists, plain ?_, Returns.refl s, fun _ _ _ sensed => absurd unsensed sensed⟩
    rw [AmbientEntry.judged, if_pos unsensed]
    rfl
  rw [if_neg (by simpa using unsensed)]
  by_cases gated : (s.ambient.outlets.get o).gated = true
  · rw [if_pos gated, State.modAmbient_modAmbient]
    refine ⟨s.lists, plain ?_, Returns.refl s, fun _ _ _ _ open_ => nomatch gated.symm.trans open_⟩
    rw [AmbientEntry.judged, if_neg unsensed, if_pos gated]
    rfl
  rw [if_neg gated]
  by_cases lost : ((s.ambient.outlets.get o).unheard || (s.ambient.outlets.get o).void) = true
  · rw [if_pos lost]
    refine ⟨s.lists, plain ?_, Returns.refl s, fun _ _ _ _ _ heard whole => by simp [heard, whole] at lost⟩
    rw [AmbientEntry.judged, if_neg unsensed, if_neg gated, if_pos lost]
    rfl
  rw [if_neg lost]
  by_cases waits : (s.ambient.outlets.get o).capture.any (·.begun) = true
  · rw [if_pos waits]
    obtain ⟨cap, capture, begun⟩ := (Option.any_eq_true _ _).mp waits
    have judged : (s.ambient.outlets.get o).judged (s.outlets.get o) s.ambient.length =
        captureTaken (s.outlets.get o) s.ambient.length (s.ambient.outlets.get o) := by
      rw [AmbientEntry.judged, if_neg unsensed, if_neg gated, if_neg lost]
      exact if_pos waits
    have measured : (s.modAmbient o fun a =>
        { a with level := smooth a.level (windowLevel a.sum s.ambient.length) (s.outlets.get o).smoothing }).recomputeC o =
          s.modAmbient o (measuredBy (s.outlets.get o) s.ambient.length) := by
      unfold State.recomputeC
      rw [State.modAmbient_modAmbient]
      exact s.modAmbient_congr o rfl
    have own : (s.modAmbient o (measuredBy (s.outlets.get o) s.ambient.length)).ambient.outlets.get o =
        measuredBy (s.outlets.get o) s.ambient.length (s.ambient.outlets.get o) := Tab.get_modify_self ..
    obtain ⟨lists, taken, returns, returned⟩ := State.completeCapture_of (o := o) (cap := cap)
      (s := s.modAmbient o (measuredBy (s.outlets.get o) s.ambient.length)) (by rw [own]; exact capture)
    rw [measured, taken]
    refine ⟨lists, ?_, (Returns.same rfl).trans (returns.trans (Returns.same rfl)), fun other same _ _ _ _ _ => ?_⟩
    · rw [State.modAmbient_modAmbient]
      refine (State.modAmbient_modAmbient ({ s with lists } : State) o _ _).trans (State.modAmbient_congr _ o ?_)
      dsimp only
      rw [judged]
      rfl
    · obtain rfl : cap = other := Option.some.inj (capture.symm.trans same)
      rw [judged]
      rw [own] at returned
      exact returned
  · rw [if_neg waits]
    refine ⟨s.lists, ?_, Returns.refl s, fun cap capture begun => absurd ?_ waits⟩
    · unfold State.recomputeC
      rw [State.modAmbient_modAmbient, State.modAmbient_modAmbient]
      refine plain ?_
      rw [AmbientEntry.judged, if_neg unsensed, if_neg gated, if_neg lost]
      dsimp only
      rw [if_neg waits]
      rfl
    · simp [capture, begun]

end

/-! ### A window's end -/

/-- The window's end at some of the outlets. -/
theorem State.forAll_windowAt (xs : List (Fin 256)) (once : xs.Nodup) (s : State) : ∃ lists outlets,
    s.forAll xs State.windowAt = { s with lists, ambient := { s.ambient with outlets } } ∧
    (∀ o, outlets.get o = if o ∈ xs then
      ((s.ambient.outlets.get o).judged (s.outlets.get o) s.ambient.length).cleared else s.ambient.outlets.get o) ∧
    Returns s { s with lists } ∧
    ∀ o ∈ xs, ∀ cap, (s.ambient.outlets.get o).capture = some cap → cap.begun = true → (s.outlets.get o).senseInlet ≠ none →
      (s.ambient.outlets.get o).gated = false → (s.ambient.outlets.get o).unheard = false →
      (s.ambient.outlets.get o).void = false → ({ s with lists } : State).returns .setup
        { record := cap.record, status := marked 0x02 cap.record.mark
          results := [(16, bytes4 ((s.ambient.outlets.get o).judged (s.outlets.get o) s.ambient.length).level)] } := by
  induction xs generalizing s with
  | nil => exact ⟨s.lists, s.ambient.outlets, rfl, fun o => rfl, Returns.refl s, fun o mem => nomatch mem⟩
  | cons x xs ih =>
    obtain ⟨fresh, once⟩ := List.nodup_cons.mp once
    obtain ⟨lists, first, returns, returned⟩ := s.windowAt_eq x
    obtain ⟨lists', outlets, rest, entry, returns', returned'⟩ := ih once (s.windowAt x)
    rw [first] at rest entry returns' returned'
    have other {o : Fin 256} (apart : o ≠ x) (f : AmbientEntry → AmbientEntry) :
        (({ s with lists } : State).modAmbient x f).ambient.outlets.get o = s.ambient.outlets.get o :=
      Tab.get_modify_ne _ apart _
    refine ⟨lists', outlets, ?_, fun o => ?_, ?_, fun o mem => ?_⟩
    · rw [State.forAll_cons, first, rest]
      rfl
    · rw [entry o]
      by_cases same : o = x
      · subst same
        rw [if_neg fresh, if_pos List.mem_cons_self]
        exact Tab.get_modify_self ..
      · rw [other same]
        by_cases mem : o ∈ xs
        · rw [if_pos mem, if_pos (List.mem_cons_of_mem x mem)]
          rfl
        · rw [if_neg mem, if_neg fun mem' => (List.mem_cons.mp mem').elim same mem]
    · exact returns.trans ((Returns.same rfl).trans (returns'.trans (Returns.same rfl)))
    · by_cases same : o = x
      · subst same
        intro cap capture begun sensed open_ heard whole
        exact (Returns.trans (Returns.same rfl) (returns'.trans (Returns.same rfl))) _ _
          (returned cap capture begun sensed open_ heard whole)
      · have later := returned' o ((List.mem_cons.mp mem).resolve_left same)
        rw [other same] at later
        exact later

/-- The window in progress completes. -/
theorem State.windowComplete_ends {s : State} (ended : s.ambient.position = s.ambient.length) : ∃ lists outlets,
    s.windowComplete = { s with lists, ambient := { s.ambient with outlets, position := 0 } } ∧
    (∀ o, outlets.get o = ((s.ambient.outlets.get o).judged (s.outlets.get o) s.ambient.length).cleared) ∧
    ∀ o cap, (s.ambient.outlets.get o).capture = some cap → cap.begun = true → (s.outlets.get o).senseInlet ≠ none →
      (s.ambient.outlets.get o).gated = false → (s.ambient.outlets.get o).unheard = false →
      (s.ambient.outlets.get o).void = false → ({ s with lists } : State).returns .setup
        { record := cap.record, status := marked 0x02 cap.record.mark
          results := [(16, bytes4 ((s.ambient.outlets.get o).judged (s.outlets.get o) s.ambient.length).level)] } := by
  obtain ⟨lists, outlets, all, entry, -, returned⟩ := State.forAll_windowAt (allFin 256) (allFin_nodup 256) s
  refine ⟨lists, outlets, ?_, fun o => (entry o).trans (if_pos (mem_allFin o)), fun o => returned o (mem_allFin o)⟩
  unfold State.windowComplete
  rw [if_pos ended, all]

theorem State.windowComplete_not {s : State} (going : s.ambient.position ≠ s.ambient.length) : s.windowComplete = s := if_neg going

/-! ### The Ambient Unit up to the latch -/

theorem State.windowComplete_ambient {s t : State} (ambient : t.ambient = s.ambient) (outlets : t.outlets = s.outlets) :
    t.windowComplete.ambient = s.windowComplete.ambient := by
  by_cases ended : s.ambient.position = s.ambient.length
  · obtain ⟨_, x, e, entry, -⟩ := State.windowComplete_ends ended
    obtain ⟨_, y, e', entry', -⟩ := State.windowComplete_ends (s := t) (by rw [ambient]; exact ended)
    have same : y = x := Tab.ext_get fun o => by rw [entry, entry', ambient, outlets]
    rw [e, e', same, ambient]
  · rw [State.windowComplete_not ended, State.windowComplete_not (s := t) (by rw [ambient]; exact ended), ambient]

theorem State.forAll_ambient {β : Type} {f : β → State → State} (each : ∀ x s, (f x s).ambient = s.ambient) (xs : List β)
    (s : State) : (s.forAll xs f).ambient = s.ambient := State.forAll_view (view := State.ambient) each xs s

theorem State.changeoverTrunkDown_ambient (x : Fin 8) (s : State) : (s.changeoverTrunkDown x).ambient = s.ambient := by
  unfold State.changeoverTrunkDown
  split
  · exact State.emitNote_ambient ..
  · rfl
  · rfl
  · rfl

theorem State.leaveUp_ambient (s : State) (k : Fin 4) : (s.leaveUp k).ambient = s.ambient := by
  have loops (o : Fin 256) (t : State) : (State.setLoopState o (t.modLoop o fun x =>
      { x with capture := x.capture.map fun c => { c with count := 0, sum := 0 } })).ambient = t.ambient := rfl
  unfold State.leaveUp
  dsimp only
  rw [State.setCause_ambient, State.emitNote_ambient, State.forAll_ambient State.changeoverTrunkDown_ambient,
    State.forAll_ambient loops, State.forAll_ambient fun n t => (State.stationLost_acts (Acts.refl t) n).ambient]
  rfl

theorem State.syncExpired_ambient (k : Fin 4) (s : State) : (s.syncExpired k).ambient = s.ambient := by
  unfold State.syncExpired
  dsimp only
  split
  · exact s.leaveUp_ambient k
  · rfl

theorem State.answerExpired_ambient (k : Fin 4) (s : State) : (s.answerExpired k).ambient = s.ambient := by
  unfold State.answerExpired
  dsimp only
  split <;> rfl

theorem State.pendingExpired_ambient (x : Fin 8) (s : State) : (s.pendingExpired x).ambient = s.ambient := by
  unfold State.pendingExpired
  dsimp only
  split
  · exact State.emitNote_ambient ..
  · rfl

theorem State.releaseExpired_ambient (x : Fin 8) (s : State) : (s.releaseExpired x).ambient = s.ambient := by
  unfold State.releaseExpired
  dsimp only
  split
  · exact State.emitNote_ambient ..
  · rfl

theorem State.beatExpired_ambient (s : State) : s.beatExpired.ambient = s.ambient := by
  unfold State.beatExpired
  split
  · exact s.enterFallback_acts.ambient
  · rfl

theorem State.scanExpired_ambient (l : ListId) (s : State) : (s.scanExpired l).ambient = s.ambient := by
  unfold State.scanExpired
  split
  · rw [State.requestWalk_eq]
    rfl
  · rfl

theorem State.ringsExpired_ambient (c : Fin 16) (s : State) : (s.ringsExpired c).ambient = s.ambient :=
  State.forAll_ambient (fun i t => (State.ringExpired_acts (Acts.refl t) c i).ambient) (allFin 8) s

theorem State.trainTrunk_ambient (k : Fin 4) (s : State) : (s.trainTrunk k).ambient = s.ambient := by
  unfold State.trainTrunk
  split <;> rfl

theorem State.freeCleared_ambient (c : Fin 16) (s : State) : (s.freeCleared c).ambient = s.ambient := by
  unfold State.freeCleared
  split
  · exact (State.freeCall_acts (Acts.refl s) c).ambient
  · rfl

theorem State.beforeLatch_ambient (s : State) : s.beforeLatch.ambient = s.windowComplete.ambient := by
  have segments (t : State) : (t.forAll (allFin 8) State.segmentEnd).ambient = t.ambient ∧
      (t.forAll (allFin 8) State.segmentEnd).outlets = t.outlets :=
    ⟨State.forAll_ambient (fun x u => (State.segmentEnd_acts (Acts.refl u) x).ambient) _ _,
      State.forAll_view (view := State.outlets) (fun x u => (State.segmentEnd_acts (Acts.refl u) x).outlets) _ _⟩
  have stepped (t : State) : t.stepTimers.ambient = t.ambient := rfl
  rw [State.beforeLatch_eq, State.settleDue_eq]
  unfold State.readied State.partiesDue State.slotsDue State.linksDue
  rw [State.forAll_ambient fun x t => (State.startVoice_quiet (Quiet.refl t) x).ambient,
    (State.showStep_quiet (Quiet.refl _)).ambient, State.forAll_ambient State.freeCleared_ambient,
    State.forAll_ambient State.trainTrunk_ambient, stepped, State.forAll_ambient State.scanExpired_ambient,
    State.beatExpired_ambient, State.forAll_ambient fun p t => (State.durationExpired_acts (Acts.refl t) p).ambient,
    State.forAll_ambient fun p t => (State.gatherDue_acts (Acts.refl t) p).ambient,
    State.forAll_ambient State.ringsExpired_ambient,
    State.forAll_ambient fun n t => (State.holdExpired_acts (Acts.refl t) n).ambient,
    State.forAll_ambient State.releaseExpired_ambient, State.forAll_ambient State.pendingExpired_ambient,
    State.forAll_ambient State.answerExpired_ambient, State.forAll_ambient State.syncExpired_ambient]
  exact State.windowComplete_ambient (segments s).1 (segments s).2

end Sys2Proof.Machine

end

section
/-! PROOF. What the claims' renaming, the ends of programs and the channels' events leave alone: the Mixer among it. -/

open Sys2Proof Sys2Proof.Machine

namespace Sys2Proof.Machine

/-- What the Claim Unit, the programs, their voices and channels and the show change of the state: all else is as it was. -/
def Moved (s t : State) : Prop := ∃ regs lists port programs claims channels calls tones alarms theatre notes,
  t = { s with regs, lists, port, programs, claims, channels, calls, tones, alarms, theatre, notes }

theorem Moved.refl (s : State) : Moved s s := ⟨_, _, _, _, _, _, _, _, _, _, _, rfl⟩

theorem Moved.trans {a b c : State} (h : Moved a b) (k : Moved b c) : Moved a c := by
  obtain ⟨_, _, _, _, _, _, _, _, _, _, _, rfl⟩ := h
  obtain ⟨_, _, _, _, _, _, _, _, _, _, _, rfl⟩ := k
  exact ⟨_, _, _, _, _, _, _, _, _, _, _, rfl⟩

theorem Moved.mixer {s t : State} (h : Moved s t) : t.mixer = s.mixer := by
  obtain ⟨_, _, _, _, _, _, _, _, _, _, _, rfl⟩ := h
  rfl

theorem Moved.trunks {s t : State} (h : Moved s t) : t.trunks = s.trunks := by
  obtain ⟨_, _, _, _, _, _, _, _, _, _, _, rfl⟩ := h
  rfl

theorem Moved.ambient {s t : State} (h : Moved s t) : t.ambient = s.ambient := by
  obtain ⟨_, _, _, _, _, _, _, _, _, _, _, rfl⟩ := h
  rfl

theorem State.forAll_moved {β : Type} {f : β → State → State} (each : ∀ x s, Moved s (f x s)) (xs : List β) (s : State) :
    Moved s (s.forAll xs f) := by
  induction xs generalizing s with
  | nil => exact Moved.refl s
  | cons x xs ih =>
    rw [State.forAll_cons]
    exact (each x s).trans (ih _)

section
variable (s : State)

theorem State.modProgram_moved (p : Fin 64) (f : Program → Program) : Moved s (s.modProgram p f) :=
  ⟨_, _, _, _, _, _, _, _, _, _, _, rfl⟩

theorem State.modChannel_moved (c : Fin 16) (f : Channel → Channel) : Moved s (s.modChannel c f) :=
  ⟨_, _, _, _, _, _, _, _, _, _, _, rfl⟩

theorem State.modVoice_moved (v : Fin 8) (f : Voice → Voice) : Moved s (s.modVoice v f) :=
  ⟨_, _, _, _, _, _, _, _, _, _, _, rfl⟩

theorem State.modTheatre_moved (f : Theatre → Theatre) : Moved s (s.modTheatre f) :=
  ⟨_, _, _, _, _, _, _, _, _, _, _, rfl⟩

theorem State.emitNote_moved (k : NoteKind) (code subject detail : Nat) : Moved s (s.emitNote k code subject detail) := by
  obtain ⟨_, _, e⟩ := s.emitNote_only k code subject detail
  exact ⟨_, _, _, _, _, _, _, _, _, _, _, e⟩

theorem State.requestReturn_moved (l : ListId) (r : Return) : Moved s (s.requestReturn l r) := by
  obtain ⟨_, e⟩ := s.requestReturn_only l r
  exact ⟨_, _, _, _, _, _, _, _, _, _, _, e⟩

theorem State.signalOwner_moved (w : ChanOwner) (f : Channel → Channel) : Moved s (s.signalOwner w f) := by
  obtain ⟨_, e⟩ := s.signalOwner_only w f
  exact ⟨_, _, _, _, _, _, _, _, _, _, _, e⟩

theorem State.releaseChannel_moved (w : ChanOwner) : Moved s (s.releaseChannel w) := by
  obtain ⟨_, _, e⟩ := s.releaseChannel_only w
  exact ⟨_, _, _, _, _, _, _, _, _, _, _, e⟩

theorem State.enterEnded_moved (c : Fin 16) : Moved s (s.enterEnded c) := by
  obtain ⟨_, e⟩ := s.enterEnded_only c
  exact ⟨_, _, _, _, _, _, _, _, _, _, _, e⟩

theorem State.giveVoice_moved (v : Fin 8) (u : VoiceUser) (q : Fin 12) : Moved s (s.giveVoice v u q) := by
  obtain ⟨_, e⟩ := s.giveVoice_only v u q
  exact ⟨_, _, _, _, _, _, _, _, _, _, _, e⟩

theorem State.releaseVoice_moved (u : VoiceUser) : Moved s (s.releaseVoice u) := by
  unfold State.releaseVoice State.leaveOwing
  split
  · dsimp only
    split <;> exact ⟨_, _, _, _, _, _, _, _, _, _, _, rfl⟩
  · exact Moved.refl s

theorem State.enterPlaying_moved (p : Fin 64) : Moved s (s.enterPlaying p) := by
  unfold State.enterPlaying
  dsimp only
  split
  · exact s.modProgram_moved p _
  · split
    · exact (s.modProgram_moved p _).trans (State.signalOwner_moved _ _ _)
    · exact s.modProgram_moved p _

theorem State.chimeStep_moved (p : Fin 64) : Moved s (s.chimeStep p) := by
  unfold State.chimeStep
  split
  · exact s.enterPlaying_moved p
  · split
    · exact (s.giveVoice_moved _ _ _).trans (State.modProgram_moved _ p _)
    · exact (s.modProgram_moved p _).trans (State.enterPlaying_moved _ p)

theorem State.gatherTest_moved (p : Fin 64) : Moved s (s.gatherTest p) := by
  unfold State.gatherTest
  dsimp only
  split
  · exact s.chimeStep_moved p
  · exact Moved.refl s

theorem State.gatherTestOf_moved (c : Option Claim) : Moved s (s.gatherTestOf c) := by
  unfold State.gatherTestOf
  split
  · exact s.gatherTest_moved _
  · exact Moved.refl s

theorem State.countHeld_moved (c : Option Claim) (f : Nat → Nat) : Moved s (s.countHeld c f) := by
  unfold State.countHeld
  split
  · exact s.modProgram_moved _ _
  · exact Moved.refl s

theorem State.displaced_moved (p : Fin 64) (o : Fin 256) : Moved s (s.displaced p o) := by
  unfold State.displaced
  dsimp only
  split
  · exact Moved.refl s
  · unfold State.enterHeld
    exact (((s.modTheatre_moved _).trans (State.forAll_moved (fun _ _ => State.signalOwner_moved _ _ _) _ _)).trans
      (State.forAll_moved (fun _ _ => State.modProgram_moved _ _ _) _ _)).trans (State.emitNote_moved _ _ _ _ _)

theorem State.resumeTest_moved : Moved s s.resumeTest := by
  unfold State.resumeTest
  split
  · split
    · unfold State.resumeShow
      split
      · unfold State.unholdPrograms
        exact (((s.modTheatre_moved _).trans (State.forAll_moved (fun _ _ => State.signalOwner_moved _ _ _) _ _)).trans
          (State.forAll_moved (fun _ _ => State.modProgram_moved _ _ _) _ _)).trans (State.emitNote_moved _ _ _ _ _)
      · exact Moved.refl s
    · exact Moved.refl s
  · exact Moved.refl s

theorem State.reportDisplaced_moved (o : Fin 256) (old new : Option Claim) : Moved s (s.reportDisplaced o old new) := by
  unfold State.reportDisplaced
  split
  · dsimp only
    split
    · exact s.displaced_moved _ o
    · exact Moved.refl s
  · exact Moved.refl s

theorem State.evalLine_moved (o : Fin 256) : Moved s (s.evalLine o) := ⟨_, _, _, _, _, _, _, _, _, _, _, rfl⟩

theorem State.restack_moves (o : Fin 256) (cs : List Claim) : Moved s (s.restack o cs) := by
  have set : Moved s (s.setStack o (nameStack (s.lockFloor o) cs)) := ⟨_, _, _, _, _, _, _, _, _, _, _, rfl⟩
  have shown (c d : Option Claim) (t : State) : Moved t (if t.isShow c || t.isShow d then t.resumeTest else t) := by
    split
    · exact t.resumeTest_moved
    · exact Moved.refl t
  unfold State.restack
  dsimp only
  split
  · exact set.trans (State.evalLine_moved _ o)
  · exact ((((((set.trans (State.countHeld_moved _ _ _)).trans (State.countHeld_moved _ _ _)).trans
      (State.gatherTestOf_moved _ _)).trans (State.gatherTestOf_moved _ _)).trans (State.evalLine_moved _ o)).trans
      (State.reportDisplaced_moved _ o _ _)).trans (shown _ _ _)

theorem State.removeAll_moved (w : Owner) : Moved s (s.removeAll w) := by
  refine State.forAll_moved (fun o t => ?_) (allFin 256) s
  unfold State.removeClaim
  split
  · exact t.restack_moves o _
  · exact Moved.refl t

theorem State.leaveHoldSet_moved (p : Fin 64) : Moved s (s.leaveHoldSet p) := by
  unfold State.leaveHoldSet
  split
  · split
    · exact (s.modTheatre_moved _).trans (State.resumeTest_moved _)
    · exact Moved.refl s
  · exact Moved.refl s

theorem State.reportPageEnd_moved (p : Fin 64) (src : Source) : Moved s (s.reportPageEnd p src) := by
  unfold State.reportPageEnd
  split
  · dsimp only
    split
    · exact ⟨_, _, _, _, _, _, _, _, _, _, _, rfl⟩
    · exact Moved.refl s
  · exact Moved.refl s

theorem State.endProgram_moved (p : Fin 64) (code : Nat) : Moved s (s.endProgram p code) := by
  by_cases free : (s.programs.get p).state = .free
  · unfold State.endProgram
    rw [if_pos (beq_iff_eq.mpr free)]
    exact Moved.refl s
  · obtain ⟨a, b, ha, hb, e⟩ := State.endProgram_eq free code
    have released : Moved s a := by
      rw [ha]
      exact ((s.removeAll_moved (.program p)).trans (State.releaseVoice_moved _ (.chime p))).trans
        (State.releaseChannel_moved _ (.program p))
    have left : Moved s b := by
      rw [hb]
      exact (released.trans (State.modProgram_moved _ p fun pr => { reservation := pr.reservation })).trans
        (State.leaveHoldSet_moved _ p)
    rw [e]
    split
    · exact left.trans (State.requestReturn_moved _ _ _)
    · exact left.trans (State.reportPageEnd_moved _ _ _)

theorem State.endVoicePhase_moved (k : AlarmKind) : Moved s (s.endVoicePhase k) := by
  unfold State.endVoicePhase
  split
  · dsimp only
    split <;> exact ⟨_, _, _, _, _, _, _, _, _, _, _, rfl⟩
  · exact Moved.refl s

theorem State.toRead_moved (c : Fin 16) (a : Nat) : Moved s (s.toRead c a) := by
  unfold State.toRead State.chainFault
  split
  · exact s.modChannel_moved c _
  · exact (s.modChannel_moved c _).trans (State.emitNote_moved _ _ _ _ _)

theorem State.channelEvent_moved (gave : Tab 16 ChanEvent) (c : Fin 16) : Moved s (s.channelEvent gave c) := by
  unfold State.channelEvent
  split
  · exact Moved.refl s
  · split
    · unfold State.channelStarves
      dsimp only
      split
      · exact ((s.emitNote_moved _ _ _ _).trans (State.releaseChannel_moved _ _)).trans (State.endVoicePhase_moved _ _)
      · exact s.emitNote_moved _ _ _ _
    · exact Moved.refl s
  · split
    · unfold State.channelCompletes
      dsimp only
      split
      · exact ((s.modChannel_moved c _).trans (State.toRead_moved _ _ _)).trans (State.endVoicePhase_moved _ _)
      · split
        · exact (s.enterEnded_moved c).trans (State.endProgram_moved _ _ _)
        · exact s.enterEnded_moved c
        · exact Moved.refl s
    · exact Moved.refl s

/-- What follows from the computed period. -/
theorem State.mixPeriod_moved (audio : List (List Sample)) : Moved (s.mixed audio) (s.mixPeriod audio) := by
  have sounded : Moved (s.mixed audio) (s.sounded audio) :=
    (State.forAll_moved (fun c t => t.channelEvent_moved s.gives c) (allFin 16) (s.mixed audio)).trans
      ⟨_, _, _, _, _, _, _, _, _, _, _, rfl⟩
  rw [State.mixPeriod_eq]
  refine sounded.trans (State.forAll_moved (fun p t => ?_) _ _)
  split
  · exact t.endProgram_moved p stStopped
  · exact Moved.refl t

end

end Sys2Proof.Machine

end

section
/-! PROOF. The ambient windows over a period (O41). -/

open Sys2Proof Sys2Proof.Machine

namespace Sys2Proof.Machine

/-! ### A period of a window -/

/-- The captures that wait take the window that begins. -/
def AmbientEntry.begun (a : AmbientEntry) : AmbientEntry :=
  { a with capture := a.capture.map fun c => { c with begun := true } }

/-- A window's first period takes its length and lets the captures that wait take it. -/
def Ambient.opened (a : Ambient) : Ambient :=
  if a.position = 0 then { a with length := a.window, outlets := a.outlets.map AmbientEntry.begun } else a

theorem Ambient.opened_fields (a : Ambient) : a.opened.window = a.window ∧ a.opened.position = a.position ∧
    a.opened.length = (if a.position = 0 then a.window else a.length) ∧
    ∀ o, a.opened.outlets.get o = if a.position = 0 then (a.outlets.get o).begun else a.outlets.get o := by
  unfold Ambient.opened
  split
  · exact ⟨rfl, rfl, rfl, fun o => Tab.get_map ..⟩
  · exact ⟨rfl, rfl, rfl, fun o => rfl⟩

theorem State.beginWindow_eq (s : State) : s.beginWindow = { s with ambient := s.ambient.opened } := by
  unfold State.beginWindow Ambient.opened
  split <;> rfl

/-- The entry after a period, where the outlet senses inlet `i`. -/
def AmbientEntry.sensed (a : AmbientEntry) (m : MixEntry) (block : List Int) (heard : Bool) : AmbientEntry :=
  { a with
    sum := a.sum + (block.map Int.natAbs).sum, unheard := a.unheard || !heard
    gated := a.gated || (m.fg.isSome && m.gc != 0) }

theorem State.mixed_ambient (audio : List (List Sample)) (s : State) :
    (s.mixed audio).ambient.window = s.ambient.opened.window ∧ (s.mixed audio).ambient.length = s.ambient.opened.length ∧
    (s.mixed audio).ambient.position = s.ambient.opened.position + 1 ∧
    ∀ o, (s.mixed audio).ambient.outlets.get o = match (s.outlets.get o).senseInlet with
      | none => s.ambient.opened.outlets.get o
      | some i => (s.ambient.opened.outlets.get o).sensed ((s.mixed audio).mixer.get o) (s.inletBlock audio i) (s.heard i) := by
  have blocks (i : Fin 256) (c : Tab 16 (List Int)) (v : Tab 8 (List Int)) :
      (s.sounds audio c v).inlets.get i = s.inletBlock audio i := Tab.get_ofFn ..
  unfold State.mixed
  dsimp only
  generalize Tab.ofFn (s.mixOutlet _) = mix
  rw [State.beginWindow_eq]
  refine ⟨rfl, rfl, rfl, fun o => ?_⟩
  unfold State.ambientStep
  dsimp only
  rw [Tab.get_ofFn]
  unfold State.ambientPeriod
  dsimp only
  generalize (s.outlets.get o).senseInlet = sense
  cases sense with
  | none => rfl
  | some i =>
    dsimp only
    rw [blocks]
    rfl

/-- What all that comes ahead of the latch leaves of a projection. -/
theorem Framed.beforeLatch {α : Type} {view : State → α} (v : Framed view) (w : Slotless view)
    (fallen : ∀ s : State, view s.fallen = view s) (stepped : ∀ s : State, view s.stepTimers = view s)
    (scan : ∀ l s, view (State.scanExpired l s) = view s) (s : State) : view s.beforeLatch = view s := by
  rw [State.beforeLatch_eq, v.readied, stepped, State.settleDue_eq, State.forAll_view scan, v.toStill.beatExpired fallen,
    v.partiesDue, v.slotsDue w, v.linksDue w]

theorem State.scanExpired_lists (l : ListId) (s : State) : ∃ lists, s.scanExpired l = { s with lists } := by
  unfold State.scanExpired
  split
  · rw [State.requestWalk_eq]
    exact ⟨_, rfl⟩
  · exact ⟨_, rfl⟩

theorem State.beforeLatch_tables (s : State) : s.beforeLatch.outlets = s.outlets ∧ s.beforeLatch.inlets = s.inlets := by
  have framed : Framed fun s : State => (s.outlets, s.inlets) :=
    { acts := fun a => Prod.ext a.outlets a.inlets, ambient := fun _ _ => rfl, trunk := fun _ _ _ => rfl, loop := fun _ _ _ => rfl }
  refine Prod.mk.inj (framed.beforeLatch (fun _ _ _ => rfl) (fun _ => rfl) (fun _ => rfl) (fun l t => ?_) s)
  obtain ⟨_, e⟩ := t.scanExpired_lists l
  rw [e]

theorem State.heard_iff (s : State) (i : Fin 256) : s.heard i = true ↔
    (s.trunks.get (trunkOf i)).link = .up ∧ (slotOf i).val < (s.trunks.get (trunkOf i)).present := by
  simp [State.heard]

theorem AmbientEntry.judged_marks (a : AmbientEntry) (out : Outlet) (n : Nat) : (a.judged out n).cleared.void = false ∧
    (a.judged out n).cleared.sum = 0 ∧ (a.judged out n).cleared.gated = false ∧ (a.judged out n).cleared.unheard = false :=
  ⟨rfl, rfl, rfl, rfl⟩

theorem State.returns_arbitrate {t : State} {l : ListId} {r : Return} (busy : t.port.grant ≠ none) (waits : t.returns l r) :
    t.arbitrate.returns l r := by
  rw [State.arbitrate_waiting busy]
  exact waits

theorem State.windowComplete_fields (s : State) :
    s.windowComplete.ambient.window = s.ambient.window ∧ s.windowComplete.ambient.length = s.ambient.length ∧
    s.windowComplete.ambient.position = (if s.ambient.position = s.ambient.length then 0 else s.ambient.position) ∧
    ∀ o, s.windowComplete.ambient.outlets.get o = if s.ambient.position = s.ambient.length then
      ((s.ambient.outlets.get o).judged (s.outlets.get o) s.ambient.length).cleared else s.ambient.outlets.get o := by
  by_cases ended : s.ambient.position = s.ambient.length
  · obtain ⟨_, outlets, e, entry, -⟩ := State.windowComplete_ends ended
    rw [e]
    exact ⟨rfl, rfl, (if_pos ended).symm, fun o => (entry o).trans (if_pos ended).symm⟩
  · rw [State.windowComplete_not ended]
    exact ⟨rfl, rfl, (if_neg ended).symm, fun o => (if_neg ended).symm⟩

/-- The window in which a period falls, and the sum and marks that it adds to: ahead of it, a window at its end completes. -/
theorem State.windowComplete_opened (s : State) :
    let ended := s.ambient.position = s.ambient.length
    let first := ended ∨ s.ambient.position = 0
    let w := s.windowComplete.ambient.opened
    w.window = s.ambient.window ∧ w.length = (if first then s.ambient.window else s.ambient.length) ∧
    w.position + 1 = (if ended then 1 else s.ambient.position + 1) ∧ ∀ o,
      let a := s.ambient.outlets.get o
      let b := w.outlets.get o
      (¬ended → b = { a with capture := a.capture.map fun y => { y with begun := if first then true else y.begun } }) ∧
      (ended → b.void = false) ∧ b.sum = (if ended then 0 else a.sum) ∧ b.gated = (if ended then false else a.gated) ∧
      b.unheard = (if ended then false else a.unheard) := by
  intro ended first
  obtain ⟨window, length, position, entry⟩ := s.windowComplete_fields
  generalize s.windowComplete.ambient = A at window length position entry
  intro w
  obtain ⟨window', position', length', entry'⟩ := A.opened_fields
  by_cases over_ : ended
  · have first_ : first := .inl over_
    have start : A.position = 0 := position.trans (if_pos over_)
    refine ⟨window'.trans window, ?_, ?_, fun o => ?_⟩
    · exact (length'.trans (if_pos start)).trans (window.trans (if_pos first_).symm)
    · exact (congrArg (· + 1) (position'.trans start)).trans (if_pos over_).symm
    · have here : w.outlets.get o =
          ((s.ambient.outlets.get o).judged (s.outlets.get o) s.ambient.length).cleared.begun :=
        (entry' o).trans ((if_pos start).trans (congrArg AmbientEntry.begun ((entry o).trans (if_pos over_))))
      dsimp only
      rw [here]
      exact ⟨fun going => absurd over_ going, fun _ => rfl, (if_pos over_).symm, (if_pos over_).symm, (if_pos over_).symm⟩
  · have position_ : A.position = s.ambient.position := position.trans (if_neg over_)
    have first_iff : first ↔ A.position = 0 := (or_iff_right over_).trans (by rw [position_])
    have kept (o : Fin 256) : A.outlets.get o = s.ambient.outlets.get o := (entry o).trans (if_neg over_)
    refine ⟨window'.trans window, length'.trans ?_, ?_, fun o => ?_⟩
    · by_cases start : A.position = 0
      · exact (if_pos start).trans (window.trans (if_pos (first_iff.mpr start)).symm)
      · exact (if_neg start).trans (length.trans (if_neg (start ∘ first_iff.mp)).symm)
    · exact (congrArg (· + 1) (position'.trans position_)).trans (if_neg over_).symm
    · have same : w.outlets.get o = { s.ambient.outlets.get o with
          capture := (s.ambient.outlets.get o).capture.map fun y => { y with begun := if first then true else y.begun } } := by
        by_cases start : A.position = 0
        · refine ((entry' o).trans (if_pos start)).trans ?_
          have taken : first := first_iff.mpr start
          rw [kept]
          simp only [if_pos taken]
          rfl
        · refine ((entry' o).trans (if_neg start)).trans ?_
          have taken : ¬first := start ∘ first_iff.mp
          rw [kept]
          simp only [if_neg taken]
          exact congrArg (fun capture => { s.ambient.outlets.get o with capture }) (Option.map_id' (x := _)).symm
      dsimp only
      rw [same]
      exact ⟨fun _ => rfl, fun ended => absurd ended over_, (if_neg over_).symm, (if_neg over_).symm, (if_neg over_).symm⟩

end Sys2Proof.Machine

/-- Settles O41: the window's end is one change of each entry, ahead of the latch nothing else touches the Ambient Unit, and
behind the mix nothing does. -/
theorem ambientWindow : Obligations.AmbientWindow := by
  unfold Obligations.AmbientWindow
  refine ⟨fun s audio => ⟨_, exec_mixPeriodStart s audio, ?_⟩, fun s => ⟨fun going => ?_, fun ended => ?_⟩⟩
  · obtain ⟨window, length, position, entry⟩ := s.windowComplete_opened
    obtain ⟨outlets, inlets⟩ := s.beforeLatch_tables
    obtain ⟨window', length', position', entry'⟩ := State.mixed_ambient audio s.beforeLatch
    have moved := State.mixPeriod_moved s.beforeLatch audio
    have trunks : (s.beforeLatch.mixed audio).trunks = s.beforeLatch.trunks := by
      obtain ⟨_, _, _, e⟩ := s.beforeLatch.mixed_only audio
      rw [e]
    have heard_iff := s.beforeLatch.heard_iff
    rw [State.arbitrate_ambient, State.arbitrate_mixer, State.arbitrate_trunks, moved.ambient, moved.mixer, moved.trunks, trunks]
    rw [outlets] at entry'
    rw [State.beforeLatch_ambient] at entry' window' length' position'
    have blocks (i : Fin 256) : s.beforeLatch.inletBlock audio i = if s.inlets.get i ≠ .undefined ∧ s.beforeLatch.heard i = true then
        padTo48 ((audio.getD i.val []).map (·.toInt)) else silence48 := by
      unfold State.inletBlock
      rw [inlets]
      simp
    generalize s.beforeLatch.mixed audio = m at entry' window' length' position'
    generalize s.beforeLatch = w at heard_iff blocks entry'
    intro ended first
    refine ⟨window'.trans window, length'.trans length, position'.trans position, fun o => ?_⟩
    obtain ⟨going, void, sum, gated, unheard⟩ := entry o
    have here := entry' o
    generalize s.windowComplete.ambient.opened.outlets.get o = b at going void sum gated unheard here
    intro a b' mix
    cases sense : (s.outlets.get o).senseInlet with
    | none =>
      have same : b' = b := here.trans (by rw [sense])
      rw [same]
      refine ⟨fun on => ?_, void, fun _ => ⟨sum, gated, unheard⟩, nofun⟩
      rw [going on]
      exact ⟨rfl, rfl, rfl, rfl, rfl, rfl⟩
    | some i =>
      have same : b' = b.sensed mix (w.inletBlock audio i) (w.heard i) := here.trans (by rw [sense])
      rw [same]
      refine ⟨fun on => ?_, void, nofun, fun j own => ?_⟩
      · rw [going on]
        exact ⟨rfl, rfl, rfl, rfl, rfl, rfl⟩
      · obtain rfl : i = j := Option.some.inj own
        intro heard samples delivered
        have heard_iff' : w.heard i = true ↔ heard := heard_iff i
        have block : w.inletBlock audio i = delivered := by
          rw [blocks]
          by_cases gives : s.inlets.get i ≠ .undefined ∧ heard
          · exact (if_pos (and_congr_right' heard_iff' |>.mpr gives)).trans (if_pos gives).symm
          · exact (if_neg (gives ∘ (and_congr_right' heard_iff').mp)).trans (if_neg gives).symm
        rw [block]
        have marked (was : Bool) (P : Prop) (y : Bool) (e : y = true ↔ P) (now : Bool) (marks : now = if ended then false else was) :
            (now || y) = true ↔ (¬ended ∧ was = true) ∨ P := by
          by_cases over_ : ended
          · rw [marks, if_pos over_, Bool.false_or, e]
            exact ⟨.inr, fun either => either.resolve_left fun ⟨going, _⟩ => going over_⟩
          · rw [marks, if_neg over_, Bool.or_eq_true, e]
            exact or_congr_left ⟨fun was => ⟨over_, was⟩, And.right⟩
        refine ⟨congrArg (· + (delivered.map Int.natAbs).sum) sum, marked a.unheard _ _ ?_ _ unheard, marked a.gated _ _ ?_ _ gated⟩
        · rw [← heard_iff']
          simp
        · rw [Bool.and_eq_true, bne_iff_ne, Option.isSome_iff_ne_none, Nat.pos_iff_ne_zero]
  · exact congrArg (Host.Outcome.next ∘ State.arbitrate) (State.windowComplete_not going)
  · obtain ⟨lists, outlets, completes, entry, returned⟩ := State.windowComplete_ends ended
    refine ⟨_, congrArg (Host.Outcome.next ∘ State.arbitrate) completes, ?_⟩
    rw [State.arbitrate_ambient, State.arbitrate_outlets, State.arbitrate_mixer, State.arbitrate_claims,
      State.arbitrate_programs, State.arbitrate_time]
    refine ⟨rfl, rfl, rfl, rfl, rfl, rfl, rfl, rfl, fun o => ?_⟩
    dsimp only
    rw [entry o]
    refine ⟨rfl, rfl, rfl, rfl, fun unsensed => ?_, fun sensed gated => ?_, fun sensed open_ lost => ?_,
      fun sensed open_ heard whole => ?_⟩
    · rw [AmbientEntry.judged, if_pos unsensed]
      exact ⟨rfl, rfl, rfl, rfl, rfl⟩
    · rw [AmbientEntry.judged, if_neg sensed, if_pos gated]
      exact ⟨rfl, rfl, rfl, rfl, rfl⟩
    · rw [AmbientEntry.judged, if_neg sensed, if_neg (by simp [open_]), if_pos (by simpa using lost)]
      exact ⟨rfl, rfl, rfl, rfl, rfl⟩
    · have returned_ := returned o
      have judged : (s.ambient.outlets.get o).judged (s.outlets.get o) s.ambient.length =
          if (s.ambient.outlets.get o).capture.any (·.begun) then
            captureTaken (s.outlets.get o) s.ambient.length (s.ambient.outlets.get o)
          else measuredBy (s.outlets.get o) s.ambient.length (s.ambient.outlets.get o) := by
        rw [AmbientEntry.judged, if_neg sensed, if_neg (by simp [open_]), if_neg (by simp [heard, whole])]
        rfl
      rw [judged] at returned_ ⊢
      by_cases captured : (s.ambient.outlets.get o).capture.any (·.begun) = true
      · rw [if_pos captured] at returned_ ⊢
        refine ⟨rfl, rfl, rfl, (if_pos captured).symm, (if_pos captured).symm, fun cap capture begun busy => ?_⟩
        exact State.returns_arbitrate busy (returned_ cap capture begun sensed open_ heard whole)
      · rw [if_neg captured] at returned_ ⊢
        exact ⟨rfl, rfl, rfl, (if_neg captured).symm, (if_neg captured).symm,
          fun cap capture begun => absurd (by simp [capture, begun]) captured⟩

end

section
/-! PROOF. A program that fades or has faded: no internal act starts it again or gives it a claim. -/

open Sys2Proof Sys2Proof.Machine

namespace Sys2Proof.Machine

/-- Program `p` is ENDING, where it may be (`fades`), or FREE without a claim; no call keeps its slot for a page that could
start, no voice sounds its chime. -/
structure State.Parked (fades : Prop) (p : Fin 64) (s : State) : Prop where
  rests : (fades ∧ (s.programs.get p).state = .ending) ∨
    ((s.programs.get p).state = .free ∧ ∀ o, hasOwner (.program p) (s.stack o) = false)
  page : ∀ c g, (s.calls.get c).page = some g → g.slot = p → g.state ≠ .reserved
  chime : ∀ v, (s.tones.voices.get v).user ≠ .chime p

section
variable {fades : Prop} {p : Fin 64} {s : State}

/-- An act that touches neither programs, nor stacks, nor calls, nor the voices' users. -/
theorem State.Parked.same {t : State} (parked : s.Parked fades p) (programs : t.programs = s.programs)
    (stack : t.claims.stack = s.claims.stack) (calls : t.calls = s.calls)
    (users : ∀ v, (t.tones.voices.get v).user = (s.tones.voices.get v).user) : t.Parked fades p := by
  obtain ⟨rests, page, chime⟩ := parked
  refine ⟨?_, ?_, fun v => ?_⟩
  · unfold State.stack
    rw [programs, stack]
    exact rests
  · rw [calls]
    exact page
  · rw [users]
    exact chime v

/-- The calls alone change, and no page starts to wait. -/
theorem State.Parked.calls {t : State} (parked : s.Parked fades p) (programs : t.programs = s.programs)
    (stack : t.claims.stack = s.claims.stack) (tones : t.tones = s.tones)
    (page : ∀ c g, (t.calls.get c).page = some g → g.slot = p → g.state = .reserved →
      ∃ g', (s.calls.get c).page = some g' ∧ g'.slot = p ∧ g'.state = .reserved) : t.Parked fades p := by
  refine ⟨?_, fun c g own slot waits => ?_, fun v => ?_⟩
  · unfold State.stack
    rw [programs, stack]
    exact parked.rests
  · obtain ⟨g', own', slot', waits'⟩ := page c g own slot waits
    exact parked.page c g' own' slot' waits'
  · rw [tones]
    exact parked.chime v

theorem State.Parked.state_ne (parked : s.Parked fades p) {st : ProgState} (other : st ≠ .ending) (busy : st ≠ .free) :
    (s.programs.get p).state ≠ st := fun same => by
  rcases parked.rests with ⟨-, e⟩ | ⟨e, -⟩
  · exact other (same.symm.trans e)
  · exact busy (same.symm.trans e)

theorem State.Parked.forAll {β : Type} {f : β → State → State} (each : ∀ x (s : State), s.Parked fades p → (f x s).Parked fades p)
    (xs : List β) (parked : s.Parked fades p) : (s.forAll xs f).Parked fades p := by
  induction xs generalizing s with
  | nil => exact parked
  | cons x xs ih =>
    rw [State.forAll_cons]
    exact ih (each x s parked)

theorem State.emitNote_parked (parked : s.Parked fades p) (k : NoteKind) (code subject detail : Nat) :
    (s.emitNote k code subject detail).Parked fades p := by
  obtain ⟨_, _, e⟩ := s.emitNote_only k code subject detail
  rw [e]
  exact parked.same rfl rfl rfl fun _ => rfl

theorem State.requestReturn_parked (parked : s.Parked fades p) (l : ListId) (r : Return) : (s.requestReturn l r).Parked fades p := by
  obtain ⟨_, e⟩ := s.requestReturn_only l r
  rw [e]
  exact parked.same rfl rfl rfl fun _ => rfl

theorem State.signalOwner_parked (parked : s.Parked fades p) (w : ChanOwner) (f : Channel → Channel) : (s.signalOwner w f).Parked fades p := by
  obtain ⟨_, e⟩ := s.signalOwner_only w f
  rw [e]
  exact parked.same rfl rfl rfl fun _ => rfl

theorem State.releaseChannel_parked (parked : s.Parked fades p) (w : ChanOwner) : (s.releaseChannel w).Parked fades p := by
  obtain ⟨_, _, e⟩ := s.releaseChannel_only w
  rw [e]
  exact parked.same rfl rfl rfl fun _ => rfl

theorem State.enterEnded_parked (parked : s.Parked fades p) (c : Fin 16) : (s.enterEnded c).Parked fades p := by
  obtain ⟨_, e⟩ := s.enterEnded_only c
  rw [e]
  exact parked.same rfl rfl rfl fun _ => rfl

theorem State.modChannel_parked (parked : s.Parked fades p) (c : Fin 16) (f : Channel → Channel) : (s.modChannel c f).Parked fades p :=
  parked.same rfl rfl rfl fun _ => rfl

theorem State.setCause_parked (parked : s.Parked fades p) (b : CauseBit) : (s.setCause b).Parked fades p :=
  parked.same rfl rfl rfl fun _ => rfl

theorem State.modTheatre_parked (parked : s.Parked fades p) (f : Theatre → Theatre) : (s.modTheatre f).Parked fades p :=
  parked.same rfl rfl rfl fun _ => rfl

theorem Shown.parked {t : State} (h : Shown s t) (parked : s.Parked fades p) : t.Parked fades p := by
  obtain ⟨_, _, _, _, _, _, e⟩ := h.only
  rw [e]
  exact parked.same rfl rfl rfl fun _ => rfl

/-- A program changes: another one, or this one in nothing that rests. -/
theorem State.modProgram_parked (parked : s.Parked fades p) (q : Fin 64) {f : Program → Program}
    (rests : q = p → (f (s.programs.get p)).state = (s.programs.get p).state) : (s.modProgram q f).Parked fades p := by
  refine ⟨?_, parked.page, parked.chime⟩
  have state : ((s.modProgram q f).programs.get p).state = (s.programs.get p).state := by
    rw [State.modProgram_programs, Tab.get_modify]
    split
    · next same => exact rests same.symm
    · rfl
  rw [state]
  exact parked.rests

theorem State.modVoice_parked (parked : s.Parked fades p) (v : Fin 8) {f : Voice → Voice}
    (user : (f (s.tones.voices.get v)).user ≠ .chime p) : (s.modVoice v f).Parked fades p := by
  refine ⟨parked.rests, parked.page, fun w => ?_⟩
  rw [State.modVoice_tones]
  dsimp only
  rw [Tab.get_modify]
  split
  · next same =>
    subst same
    exact user
  · exact parked.chime w

theorem State.leaveOwing_parked (parked : s.Parked fades p) (v : Fin 8) : (s.leaveOwing v).Parked fades p := by
  unfold State.leaveOwing
  dsimp only
  split
  · exact parked.same rfl rfl rfl fun _ => rfl
  · exact parked

theorem State.giveVoice_parked (parked : s.Parked fades p) (v : Fin 8) {u : VoiceUser} (q : Fin 12) (other : u ≠ .chime p) :
    (s.giveVoice v u q).Parked fades p :=
  State.modVoice_parked (State.leaveOwing_parked parked v) v other

theorem State.releaseVoice_parked (parked : s.Parked fades p) (u : VoiceUser) : (s.releaseVoice u).Parked fades p := by
  unfold State.releaseVoice
  split
  · exact State.modVoice_parked (State.leaveOwing_parked parked _) _ nofun
  · exact parked

/-! ### Other programs go on -/

theorem State.enterPlaying_parked (parked : s.Parked fades p) {q : Fin 64} (other : q ≠ p) : (s.enterPlaying q).Parked fades p := by
  unfold State.enterPlaying
  dsimp only
  split
  · exact State.modProgram_parked parked q fun same => absurd same other
  · have started : (s.modProgram q fun pr => ({ pr with state := .playing, gatherTimer := none } : Program).startDuration).Parked fades p :=
      State.modProgram_parked parked q fun same => absurd same other
    split
    · exact State.signalOwner_parked started _ _
    · exact started

theorem State.chimeStep_parked (parked : s.Parked fades p) {q : Fin 64} (other : q ≠ p) : (s.chimeStep q).Parked fades p := by
  unfold State.chimeStep
  split
  · exact State.enterPlaying_parked parked other
  · split
    · exact State.modProgram_parked (State.giveVoice_parked parked _ _ fun same => other (VoiceUser.chime.inj same)) q
        fun same => absurd same other
    · exact State.enterPlaying_parked (State.modProgram_parked parked q fun same => absurd same other) other

theorem State.gatherTest_parked (parked : s.Parked fades p) (q : Fin 64) : (s.gatherTest q).Parked fades p := by
  unfold State.gatherTest
  dsimp only
  split
  · next gathers =>
    refine State.chimeStep_parked parked fun same => ?_
    subst same
    simp only [Bool.and_eq_true, beq_iff_eq] at gathers
    exact parked.state_ne (st := .gathering) nofun nofun gathers.1.1
  · exact parked

theorem State.gatherTestOf_parked (parked : s.Parked fades p) (c : Option Claim) : (s.gatherTestOf c).Parked fades p := by
  unfold State.gatherTestOf
  split
  · exact State.gatherTest_parked parked _
  · exact parked

theorem State.countHeld_parked (parked : s.Parked fades p) (c : Option Claim) (f : Nat → Nat) : (s.countHeld c f).Parked fades p := by
  unfold State.countHeld
  split
  · exact State.modProgram_parked parked _ fun _ => rfl
  · exact parked

/-! ### The show's programs are held and go on -/

theorem Program.onHold_rests {x : Program} (parked : x.state ≠ .playing) :
    (if x.state == .playing then { x with state := .held } else x).state = x.state := by
  rw [if_neg (by simpa using parked)]

theorem State.enterHeld_parked (parked : s.Parked fades p) (r : HoldRecord) : (s.enterHeld r).Parked fades p := by
  have paused : ((s.modTheatre fun t => { t with state := .held, hold := some r }).forAll (allFin 16) fun x s =>
      s.signalOwner (.source x) Channel.signalPause).Parked fades p :=
    State.Parked.forAll (fun _ _ parked => State.signalOwner_parked parked _ _) _ (parked.same rfl rfl rfl fun _ => rfl)
  refine State.Parked.forAll (fun q t parked => State.modProgram_parked parked q fun _ => ?_) _ paused
  exact Program.onHold_rests (parked.state_ne nofun nofun)

theorem State.unholdPrograms_parked (parked : s.Parked fades p) : s.unholdPrograms.Parked fades p := by
  refine State.Parked.forAll (fun q t parked => State.modProgram_parked parked q fun _ => ?_) _ parked
  rw [if_neg (by simpa using parked.state_ne (st := .held) nofun nofun)]

theorem State.resumeTest_parked (parked : s.Parked fades p) : s.resumeTest.Parked fades p := by
  unfold State.resumeTest
  split
  · split
    · unfold State.resumeShow
      split
      · exact State.emitNote_parked (State.unholdPrograms_parked (State.Parked.forAll
          (fun _ _ parked => State.signalOwner_parked parked _ _) _ (State.modTheatre_parked parked _))) _ _ _ _
      · exact parked
    · exact parked
  · exact parked

theorem State.reportDisplaced_parked (parked : s.Parked fades p) (o : Fin 256) (old new : Option Claim) :
    (s.reportDisplaced o old new).Parked fades p := by
  unfold State.reportDisplaced
  split
  · dsimp only
    split
    · unfold State.displaced
      dsimp only
      split
      · exact parked
      · exact State.emitNote_parked (State.enterHeld_parked parked _) _ _ _ _
    · exact parked
  · exact parked

theorem State.leaveHoldSet_parked (parked : s.Parked fades p) (q : Fin 64) : (s.leaveHoldSet q).Parked fades p := by
  unfold State.leaveHoldSet
  split
  · split
    · exact State.resumeTest_parked (parked.same rfl rfl rfl fun _ => rfl)
    · exact parked
  · exact parked

/-! ### Renaming and removal -/

/-- A stack with no claim of the program where it is FREE. -/
theorem State.restack_parked (parked : s.Parked fades p) (o : Fin 256) {cs : List Claim}
    (own : hasOwner (.program p) (s.stack o) = false → hasOwner (.program p) cs = false) : (s.restack o cs).Parked fades p := by
  have set : (s.setStack o (nameStack (s.lockFloor o) cs)).Parked fades p := by
    refine ⟨parked.rests.imp id fun ⟨free, bare⟩ => ⟨free, fun x => ?_⟩, parked.page, parked.chime⟩
    rw [State.setStack_stack]
    split
    · rw [hasOwner_nameStack]
      exact own (bare o)
    · exact bare x
  have line (t : State) (parked : t.Parked fades p) : (t.evalLine o).Parked fades p := parked.same rfl rfl rfl fun _ => rfl
  have shown (t : State) (b : Bool) (parked : t.Parked fades p) : (if b then t.resumeTest else t).Parked fades p := by
    split
    · exact State.resumeTest_parked parked
    · exact parked
  unfold State.restack
  dsimp only
  split
  · exact line _ set
  · exact shown _ _ (State.reportDisplaced_parked (line _ (State.gatherTestOf_parked (State.gatherTestOf_parked
      (State.countHeld_parked (State.countHeld_parked set _ _) _ _) _) _)) _ _ _)

theorem hasOwner_filter {w : Owner} {cs : List Claim} (f : Claim → Bool) (none : hasOwner w cs = false) :
    hasOwner w (cs.filter f) = false := hasOwner_sublist List.filter_sublist none

theorem State.removeClaim_parked (parked : s.Parked fades p) (w : Owner) (o : Fin 256) : (s.removeClaim w o).Parked fades p := by
  unfold State.removeClaim
  split
  · exact State.restack_parked parked o (hasOwner_filter _)
  · exact parked

theorem State.removeAll_parked (parked : s.Parked fades p) (w : Owner) : (s.removeAll w).Parked fades p :=
  State.Parked.forAll (fun o _ parked => State.removeClaim_parked parked w o) _ parked

theorem State.reportPageEnd_parked (parked : s.Parked fades p) (q : Fin 64) (src : Source) : (s.reportPageEnd q src).Parked fades p := by
  unfold State.reportPageEnd
  split
  · next c =>
    dsimp only
    split
    · refine parked.calls rfl rfl rfl fun d g own slot waits => ?_
      rw [State.modCall_calls, Tab.get_modify] at own
      split at own
      · next same =>
        subst same
        obtain ⟨g', own', e⟩ := Option.map_eq_some_iff.mp own
        refine ⟨g', own', ?_⟩
        split at e
        · rw [← e] at waits
          exact nomatch waits
        · exact e ▸ ⟨slot, waits⟩
      · exact ⟨g, own, slot, waits⟩
    · exact parked
  · exact parked

theorem State.endProgram_parked (parked : s.Parked fades p) (q : Fin 64) (code : Nat) : (s.endProgram q code).Parked fades p := by
  by_cases free : (s.programs.get q).state = .free
  · unfold State.endProgram
    rw [if_pos (beq_iff_eq.mpr free)]
    exact parked
  · obtain ⟨a, b, ha, hb, e⟩ := State.endProgram_eq free code
    have released : a.Parked fades p := by
      rw [ha]
      exact State.releaseChannel_parked (State.releaseVoice_parked (State.removeAll_parked parked _) _) _
    have gone : q = p → ∀ o, hasOwner (.program p) (a.stack o) = false := fun same o => by
      have seats : Seats (s.removeAll (.program q)) a := by
        rw [ha]
        exact State.releaseChannel_seats (State.releaseVoice_seats (Seats.refl _) _) _
      rw [seats.stack_eq, ← same]
      exact s.removeAll_gone _ o
    have left : b.Parked fades p := by
      rw [hb]
      refine State.leaveHoldSet_parked ?_ q
      by_cases same : q = p
      · refine ⟨.inr ⟨?_, gone same⟩, released.page, released.chime⟩
        rw [State.modProgram_programs, same, Tab.get_modify_self]
      · exact State.modProgram_parked released q fun e => absurd e same
    rw [e]
    split
    · exact State.requestReturn_parked left _ _
    · exact State.reportPageEnd_parked left _ _

/-! ### Placement -/

theorem State.evicted_parked (parked : s.Parked fades p) (w : Owner) : (s.evicted w).Parked fades p := by
  unfold State.evicted
  split
  · dsimp only
    split
    · have fewer {q : Fin 64} : (s.modProgram q fun pr => { pr with admitted := pr.admitted - 1 }).Parked fades p :=
        State.modProgram_parked parked q fun _ => rfl
      split
      · exact State.endProgram_parked fewer _ _
      · exact State.gatherTest_parked fewer _
    · exact parked
  · refine parked.calls rfl rfl rfl fun d g own slot waits => ⟨g, ?_, slot, waits⟩
    rw [State.modCall_calls, Tab.get_modify] at own
    split at own
    · exact ‹d = _› ▸ own
    · exact own

theorem State.place_parked (parked : s.Parked fades p) {c : Claim} (other : c.owner ≠ .program p) (o : Fin 256) :
    (s.place c o).2.Parked fades p := by
  unfold State.place
  dsimp only
  split
  · exact parked
  · split
    · exact State.restack_parked parked o fun bare => (hasOwner_insertClaim other).trans bare
    · split
      · split
        · exact State.evicted_parked (State.restack_parked parked o fun bare =>
            (hasOwner_insertClaim other).trans (hasOwner_sublist (List.dropLast_sublist _) bare)) _
        · exact parked
      · exact parked

theorem State.placeAll_parked (parked : s.Parked fades p) {c : Claim} (other : c.owner ≠ .program p) (test : State → Fin 256 → Bool)
    (os : List (Fin 256)) : (s.placeAll c test os).2.Parked fades p := by
  unfold State.placeAll
  refine List.foldlRecOn os _ (motive := fun acc : Nat × State => acc.2.Parked fades p) parked fun acc kept o _ => ?_
  split
  · exact State.place_parked kept other o
  · exact kept

theorem State.gatherExpired_parked (parked : s.Parked fades p) (q : Fin 64) : (s.gatherExpired q).Parked fades p := by
  unfold State.gatherExpired
  dsimp only
  split
  · next gathers =>
    have other : q ≠ p := fun same => by
      subst same
      exact parked.state_ne (st := .gathering) nofun nofun (beq_iff_eq.mp gathers)
    have stopped : (s.modProgram q fun pr => { pr with gatherTimer := none }).Parked fades p :=
      State.modProgram_parked parked q fun _ => rfl
    split
    · exact State.endProgram_parked stopped _ _
    · exact State.chimeStep_parked stopped other
  · exact parked

theorem State.afterPlacing_parked (parked : s.Parked fades p) {q : Fin 64} (other : q ≠ p) : (s.afterPlacing q).Parked fades p := by
  unfold State.afterPlacing
  dsimp only
  split
  · have tested := State.gatherTest_parked (State.modProgram_parked parked q
      (f := fun pr => { pr with gatherTimer := some pr.gatherTimeout }) fun _ => rfl) q
    split
    · exact State.gatherExpired_parked tested q
    · exact tested
  · exact State.chimeStep_parked parked other
  · exact State.chimeStep_parked parked other

/-- Another program is launched without a stream. -/
theorem State.launch_parked (parked : s.Parked fades p) {q : Fin 64} (other : q ≠ p) : (s.launch q none).Parked fades p := by
  have own : ((s.programs.get q).claim q).owner ≠ .program p := fun same => other (Owner.program.inj same)
  unfold State.launch
  dsimp only
  split
  · exact State.endProgram_parked (State.modProgram_parked (State.placeAll_parked parked own _ _) _ fun _ => rfl) _ _
  · exact State.afterPlacing_parked (State.modProgram_parked (State.placeAll_parked parked own _ _) _ fun _ => rfl) other

/-! ### Arrival numbers -/

theorem State.renumber_parked (parked : s.Parked fades p) : s.renumber.Parked fades p := by
  refine ⟨?_, fun c g own => ?_, parked.chime⟩
  · unfold State.renumber State.stack
    dsimp only
    rw [Tab.get_map]
    refine parked.rests.imp id fun ⟨free, bare⟩ => ⟨free, fun o => ?_⟩
    rw [Tab.get_map]
    rw [hasOwner_map]
    · exact bare o
    · exact fun _ => rfl
  · unfold State.renumber at own
    dsimp only at own
    rw [Tab.get_map] at own
    exact parked.page c g own

theorem State.issueArrival_parked (parked : s.Parked fades p) : s.issueArrival.2.Parked fades p := by
  have counted (t : State) (parked : t.Parked fades p) :
      ({ t with claims := { t.claims with arrivals := t.claims.arrivals + 1 } } : State).Parked fades p :=
    parked.same rfl rfl rfl fun _ => rfl
  unfold State.issueArrival
  dsimp only
  split
  · exact counted _ (State.renumber_parked parked)
  · exact counted _ parked

/-! ### Calls and stations -/

theorem State.startPage_parked (parked : s.Parked fades p) (c : Fin 16) : (s.startPage c).Parked fades p := by
  unfold State.startPage
  dsimp only
  split
  · next g own =>
    split
    · exact parked
    · next waits =>
      have other : g.slot ≠ p := fun same => parked.page c g own same (by simpa using waits)
      have issued := State.issueArrival_parked parked
      refine State.launch_parked (State.modProgram_parked ?_ _ fun same => absurd same other) other
      refine issued.calls rfl rfl rfl fun d g' own' slot waits' => ?_
      rw [State.modCall_calls, Tab.get_modify] at own'
      split at own'
      · obtain rfl := Option.some.inj own'
        exact nomatch waits'
      · exact ⟨g', own', slot, waits'⟩
  · exact parked

/-- A call changes, its page at most freed of its wait. -/
theorem State.modCall_parked (parked : s.Parked fades p) (c : Fin 16) {f : Call → Call}
    (page : (f (s.calls.get c)).page = (s.calls.get c).page ∨ (f (s.calls.get c)).page = none) : (s.modCall c f).Parked fades p := by
  refine parked.calls rfl rfl rfl fun d g own slot waits => ⟨g, ?_, slot, waits⟩
  rw [State.modCall_calls, Tab.get_modify] at own
  split at own
  · next same =>
    subst same
    rcases page with e | e
    · exact e.symm.trans own
    · exact nomatch e.symm.trans own
  · exact own

theorem State.modParty_parked (parked : s.Parked fades p) (c : Fin 16) (i : Fin 8) (f : Party → Party) : (s.modParty c i f).Parked fades p :=
  State.modCall_parked parked c (.inl rfl)

theorem State.modStation_parked (parked : s.Parked fades p) (n : Fin 64) (f : Station → Station) : (s.modStation n f).Parked fades p :=
  parked.same rfl rfl rfl fun _ => rfl

theorem State.releaseRing_parked (parked : s.Parked fades p) : s.releaseRing.Parked fades p := by
  unfold State.releaseRing
  split
  · exact parked
  · exact State.releaseVoice_parked parked _

theorem State.clearParty_parked (parked : s.Parked fades p) (c : Fin 16) (i : Fin 8) : (s.clearParty c i).Parked fades p := by
  unfold State.clearParty
  split
  · split
    · exact State.modStation_parked (State.modParty_parked parked c i _) _ _
    · exact parked
  · exact parked

theorem State.unclaimParty_parked (parked : s.Parked fades p) (c : Fin 16) (i : Fin 8) : (s.unclaimParty c i).Parked fades p := by
  unfold State.unclaimParty
  split
  · exact State.removeClaim_parked (State.modParty_parked parked c i _) _ _
  · exact parked

theorem State.enterClearing_parked (parked : s.Parked fades p) (c : Fin 16) : (s.enterClearing c).Parked fades p := by
  unfold State.enterClearing
  dsimp only
  refine State.releaseRing_parked ?_
  have left : (((s.modCall c fun call => { call with state := .clearing, final := call.parties.map Party.finalByte }).forAll
      (allFin 8) (State.clearParty c)).forAll (allFin 8) (State.unclaimParty c)).Parked fades p :=
    State.Parked.forAll (fun i _ parked => State.unclaimParty_parked parked c i) _
      (State.Parked.forAll (fun i _ parked => State.clearParty_parked parked c i) _ (State.modCall_parked parked c (.inl rfl)))
  split
  · split
    · exact State.endProgram_parked left _ _
    · exact left
  · exact left

theorem State.examine_parked (parked : s.Parked fades p) (c : Fin 16) : (s.examine c).Parked fades p := by
  have goes (b : Bool) (t : State) (parked : t.Parked fades p) : (if b then t else t.startPage c).Parked fades p := by
    split
    · exact parked
    · exact State.startPage_parked parked c
  unfold State.examine
  dsimp only
  split
  · exact parked
  · exact parked
  all_goals
    split
    · exact State.enterClearing_parked parked c
    · split
      · exact goes _ _ (State.modCall_parked parked c (.inl rfl))
      · exact State.modCall_parked parked c (.inl rfl)

theorem State.endParty_parked (parked : s.Parked fades p) (c : Fin 16) (i : Fin 8) (st : PartyState) : (s.endParty c i st).Parked fades p := by
  unfold State.endParty
  split
  · exact parked
  · dsimp only
    split
    · exact State.removeClaim_parked (State.modParty_parked parked c i _) _ _
    · exact State.modParty_parked parked c i _

theorem State.stationLost_parked (parked : s.Parked fades p) (n : Fin 64) : (s.stationLost n).Parked fades p := by
  have lost := State.modStation_parked parked n fun x => { x with state := .lost, holdTimer := none, call := none }
  unfold State.stationLost
  dsimp only
  split
  · exact parked
  · exact parked
  all_goals
    split
    · split
      · exact State.examine_parked (State.releaseRing_parked (State.endParty_parked lost _ _ _)) _
      · exact lost
    · exact lost

theorem State.holdExpired_parked (parked : s.Parked fades p) (n : Fin 64) : (s.holdExpired n).Parked fades p := by
  unfold State.holdExpired
  dsimp only
  split
  · exact State.emitNote_parked (State.stationLost_parked parked n) _ _ _ _
  · exact parked

theorem State.ringExpired_parked (parked : s.Parked fades p) (c : Fin 16) (i : Fin 8) : (s.ringExpired c i).Parked fades p := by
  unfold State.ringExpired
  split
  · split
    · exact State.examine_parked (State.releaseRing_parked (State.modStation_parked (State.endParty_parked parked c i _) _ _)) c
    · exact parked
  · exact parked

theorem State.freeCleared_parked (parked : s.Parked fades p) (c : Fin 16) : (s.freeCleared c).Parked fades p := by
  have asked (t : State) (parked : t.Parked fades p) (call : Call) : (match call.record with
      | some r => t.requestReturn .call
          { record := r, status := marked stCleared r.mark, results := [(28, (call.final ++ List.replicate 8 0).take 8)] }
      | none => t).Parked fades p := by
    split
    · exact State.requestReturn_parked parked _ _
    · exact parked
  unfold State.freeCleared
  split
  · unfold State.freeCall
    dsimp only
    refine asked _ (State.modCall_parked ?_ c (.inr rfl)) _
    split
    · exact State.modProgram_parked parked _ fun _ => rfl
    · exact parked
  · exact parked

theorem State.gatherDue_parked (parked : s.Parked fades p) (q : Fin 64) : (s.gatherDue q).Parked fades p := by
  unfold State.gatherDue
  split
  · exact State.gatherExpired_parked parked q
  · exact parked

theorem State.durationExpired_parked (parked : s.Parked fades p) (q : Fin 64) : (s.durationExpired q).Parked fades p := by
  unfold State.durationExpired
  dsimp only
  split
  · exact State.endProgram_parked parked q _
  · exact parked

/-! ### Alarms and voices -/

theorem State.chainFault_parked (parked : s.Parked fades p) (c : Fin 16) (a : Nat) : (s.chainFault c a).Parked fades p :=
  State.emitNote_parked (State.modChannel_parked parked c _) _ _ _ _

theorem State.bindTo_parked (parked : s.Parked fades p) (c : Fin 16) (w : ChanOwner) (d : StreamDesc) : (s.bindTo c w d).Parked fades p := by
  unfold State.bindTo State.toRead
  split
  · exact State.modChannel_parked (State.modChannel_parked parked c _) c _
  · exact State.chainFault_parked (State.modChannel_parked parked c _) c _

theorem State.discardTransfer_parked (parked : s.Parked fades p) (c : Fin 16) (keep : Bool) : (s.discardTransfer c keep).Parked fades p := by
  unfold State.discardTransfer
  split
  · split
    · exact parked.same rfl rfl rfl fun _ => rfl
    · exact parked
  · exact parked

theorem State.alarmBind_parked (parked : s.Parked fades p) (k : AlarmKind) (d : StreamDesc) : (s.alarmBind k d).Parked fades p := by
  unfold State.alarmBind
  dsimp only
  split
  · exact State.bindTo_parked parked _ _ _
  · split
    · exact parked
    · have taken := State.bindTo_parked (State.discardTransfer_parked parked ‹_› false) ‹_› (.program k.slot) d
      split
      · exact State.endProgram_parked taken _ _
      · exact State.emitNote_parked taken _ _ _ _
      · exact taken

theorem State.modAlarm_parked (parked : s.Parked fades p) (k : AlarmKind) (f : AlarmStatus → AlarmStatus) : (s.modAlarm k f).Parked fades p :=
  parked.same rfl rfl rfl fun _ => rfl

theorem AlarmKind.slot_ne (host : p.val < 59) (k : AlarmKind) : k.slot ≠ p := fun same => by
  have high := k.slot_high
  rw [same] at high
  omega

theorem State.alarmStop_parked (host : p.val < 59) (parked : s.Parked fades p) (k : AlarmKind) : (s.alarmStop k).Parked fades p := by
  unfold State.alarmStop
  split
  · exact parked
  · exact State.modProgram_parked (State.modAlarm_parked
      (State.releaseChannel_parked (State.releaseVoice_parked parked _) _) k _) _ fun same => absurd same (k.slot_ne host)

theorem State.quieten_parked (host : p.val < 59) (parked : s.Parked fades p) (k : AlarmKind) (areas : List (Fin 16)) (cause : AlarmCause) :
    (s.quieten k areas cause).Parked fades p := by
  have floors (t : State) (parked : t.Parked fades p) (as : List (Fin 16)) : (t.settleFloors as).Parked fades p :=
    State.Parked.forAll (f := fun a s => s.setFloor a (s.floorFor a)) (fun _ _ parked => parked.same rfl rfl rfl fun _ => rfl) as parked
  have withdrawn (t : State) (parked : t.Parked fades p) (as : List (Fin 16)) : (t.withdraw k as).Parked fades p :=
    State.Parked.forAll (fun o _ parked => State.restack_parked parked o (hasOwner_filter _)) _ parked
  have set (as : List (Fin 16)) : (s.setAreas k .quiet as).Parked fades p := parked.same rfl rfl rfl fun _ => rfl
  unfold State.quieten
  dsimp only
  split
  · exact parked
  · exact State.setCause_parked (State.emitNote_parked (State.alarmStop_parked host (withdrawn _ (floors _ (set _) _) _) k)
      _ _ _ _) _

theorem Voice.beginSegment_user (x : Voice) (i : Nat) : (x.beginSegment i).user = x.user := by
  unfold Voice.beginSegment
  split <;> rfl

theorem State.beginCycle_parked (parked : s.Parked fades p) (v : Fin 8) (q : Fin 12) (n : Nat) : (s.beginCycle v q n).Parked fades p := by
  unfold State.beginCycle
  refine State.modVoice_parked parked v ?_
  rw [Voice.beginSegment_user]
  exact parked.chime v

theorem State.voicePoint_parked (parked : s.Parked fades p) (k : AlarmKind) (v : Fin 8) : (s.voicePoint k v).Parked fades p := by
  unfold State.voicePoint
  split
  · exact parked
  · dsimp only
    split
    · exact parked
    · have counted := State.modAlarm_parked parked k fun a => { a with count := 0 }
      split
      · split
        · unfold State.beginVoicePhase
          refine State.signalOwner_parked (State.modAlarm_parked (State.modVoice_parked
            (State.leaveOwing_parked counted v) v ?_) k _) _ _
          exact (State.leaveOwing_parked counted v).chime v
        · exact counted
      · split
        · exact counted
        · exact State.alarmBind_parked counted k _

theorem State.alarmCycle_parked (host : p.val < 59) (parked : s.Parked fades p) (k : AlarmKind) (v : Fin 8) (copy : PatternDef)
    (q : Fin 12) (n : Nat) : (s.alarmCycle k v copy q n).Parked fades p := by
  have counted := State.modAlarm_parked parked k fun a => { a with count := a.count + 1 }
  unfold State.alarmCycle
  dsimp only
  split
  · exact State.voicePoint_parked (State.beginCycle_parked counted v _ _) k v
  · split
    · exact State.voicePoint_parked (State.beginCycle_parked counted v _ _) k v
    · split
      · exact State.quieten_parked host parked _ _ _
      · exact State.voicePoint_parked (State.beginCycle_parked counted v _ _) k v

theorem State.segmentEnd_parked (host : p.val < 59) (parked : s.Parked fades p) (v : Fin 8) : (s.segmentEnd v).Parked fades p := by
  unfold State.segmentEnd
  dsimp only
  split
  · split
    · refine State.modVoice_parked parked v ?_
      rw [Voice.beginSegment_user]
      exact parked.chime v
    · have left := State.leaveOwing_parked parked v
      unfold State.cycleEnd
      dsimp only
      split
      · exact left
      · exact State.beginCycle_parked left v _ _
      · next q sounds =>
        split
        · exact State.beginCycle_parked left v _ _
        · refine State.enterPlaying_parked (State.modVoice_parked left v (f := fun _ => {}) nofun) fun same => left.chime v ?_
          exact same ▸ sounds
      · exact State.alarmCycle_parked host left _ v _ _ _
  · exact parked

theorem State.startVoice_parked (parked : s.Parked fades p) (v : Fin 8) : (s.startVoice v).Parked fades p := by
  unfold State.startVoice
  dsimp only
  split
  · exact State.beginCycle_parked parked v _ _
  · exact parked

theorem State.endVoicePhase_parked (parked : s.Parked fades p) (k : AlarmKind) : (s.endVoicePhase k).Parked fades p := by
  have toned := State.modAlarm_parked parked k fun a => { a with phase := .tone }
  unfold State.endVoicePhase
  split
  · dsimp only
    split
    · exact State.modVoice_parked toned _ (toned.chime _)
    · exact toned
  · exact parked

theorem State.channelEvent_parked (parked : s.Parked fades p) (gave : Tab 16 ChanEvent) (c : Fin 16) : (s.channelEvent gave c).Parked fades p := by
  unfold State.channelEvent
  split
  · exact parked
  · split
    · have noted := State.emitNote_parked parked .streamStarved 1 c.val (s.channels.get c).ownerCode
      unfold State.channelStarves
      dsimp only
      split
      · exact State.endVoicePhase_parked (State.releaseChannel_parked noted _) _
      · exact noted
    · exact parked
  · split
    · unfold State.channelCompletes
      dsimp only
      split
      · refine State.endVoicePhase_parked ?_ _
        unfold State.reloadAlarm State.toRead
        split
        · exact State.modChannel_parked (State.modChannel_parked parked c _) c _
        · exact State.chainFault_parked (State.modChannel_parked parked c _) c _
      · split
        · exact State.endProgram_parked (State.enterEnded_parked parked c) _ _
        · exact State.enterEnded_parked parked c
        · exact parked
    · exact parked

/-! ### FALLBACK -/

theorem State.startMic_parked (host : p.val < 59) (parked : s.Parked fades p) : s.startMic.Parked fades p := by
  have other : micSlot ≠ p := fun same => by
    rw [← same] at host
    exact absurd host (by decide)
  rcases s.startMic_cases with e | ⟨i, n, e⟩
  · rw [e]
    exact parked
  · have begun : (s.micBegun i).Parked fades p :=
      State.modProgram_parked (State.issueArrival_parked parked) micSlot fun same => absurd same other
    have placed : (s.micPlaced i).Parked fades p := State.Parked.forAll
      (fun o _ parked => State.place_parked parked (fun same => other (Owner.program.inj same)) o) _ begun
    rw [e]
    exact State.modProgram_parked placed micSlot fun same => absurd same other

theorem shedStep_parked (acc : Nat × State) (kept : acc.2.Parked fades p) (q : Fin 64) : (shedStep acc q).2.Parked fades p := by
  unfold shedStep
  split
  · dsimp only
    exact State.endProgram_parked kept q stAbandoned
  · exact kept

theorem State.shed_parked (parked : s.Parked fades p) : s.shed.2.Parked fades p :=
  List.foldlRecOn (allFin 64) shedStep (motive := fun acc : Nat × State => acc.2.Parked fades p) parked
    fun acc kept q _ => shedStep_parked acc kept q

theorem State.clearShow_parked (parked : s.Parked fades p) (subject : Nat) : (s.clearShow subject).Parked fades p := by
  have returned : s.queueReturned.Parked fades p :=
    State.Parked.forAll (fun _ _ parked => State.requestReturn_parked parked _ _) _ parked
  have released : ((s.queueReturned.modTheatre Theatre.emptied).sourcesReleased.modTheatre fun t =>
      { t with state := .idle, hold := none }).Parked fades p :=
    State.modTheatre_parked (State.Parked.forAll (fun _ _ parked => State.releaseChannel_parked parked _) _
      (State.modTheatre_parked returned _)) _
  rw [State.clearShow_eq]
  dsimp only
  generalize State.modTheatre _ _ = t at released
  refine State.emitNote_parked ?_ _ _ _ _
  split
  · rw [← State.unholdPrograms_eq]
    exact State.unholdPrograms_parked released
  · exact released

theorem State.beatExpired_parked (host : p.val < 59) (parked : s.Parked fades p) : s.beatExpired.Parked fades p := by
  unfold State.beatExpired
  split
  · have fallen : s.fallen.Parked fades p := parked.same rfl rfl rfl fun _ => rfl
    rw [State.enterFallback_eq]
    exact State.emitNote_parked (State.setCause_parked (State.startMic_parked host (State.shed_parked
      (State.clearShow_parked fallen 1))) _) _ _ _ _
  · exact parked

/-! ### Windows, trunks, changeovers and walks -/

theorem State.windowComplete_lists (s : State) : ∃ lists ambient, s.windowComplete = { s with lists, ambient } := by
  by_cases ended : s.ambient.position = s.ambient.length
  · obtain ⟨_, _, e, -⟩ := State.windowComplete_ends ended
    exact ⟨_, _, e⟩
  · exact ⟨_, _, State.windowComplete_not ended⟩

theorem State.modChangeover_parked (parked : s.Parked fades p) (x : Fin 8) (f : Changeover → Changeover) :
    (s.modChangeover x f).Parked fades p := parked.same rfl rfl rfl fun _ => rfl

theorem State.failChangeover_parked (parked : s.Parked fades p) (x : Fin 8) (reason : Nat) : (s.failChangeover x reason).Parked fades p :=
  State.emitNote_parked (State.setCause_parked (State.modChangeover_parked parked x _) _) _ _ _ _

theorem State.changeoverTrunkDown_parked (parked : s.Parked fades p) (x : Fin 8) : (s.changeoverTrunkDown x).Parked fades p := by
  unfold State.changeoverTrunkDown
  split
  · exact State.failChangeover_parked parked x 2
  · exact parked.same rfl rfl rfl fun _ => rfl
  · exact parked
  · exact parked

theorem State.leaveUp_parked (parked : s.Parked fades p) (k : Fin 4) : (s.leaveUp k).Parked fades p := by
  have loops (o : Fin 256) (t : State) (parked : t.Parked fades p) : (State.setLoopState o (t.modLoop o fun x =>
      { x with capture := x.capture.map fun c => { c with count := 0, sum := 0 } })).Parked fades p :=
    parked.same rfl rfl rfl fun _ => rfl
  have down {f : Trunk → Trunk} : (s.modTrunk k f).Parked fades p := parked.same rfl rfl rfl fun _ => rfl
  unfold State.leaveUp
  dsimp only
  exact State.setCause_parked (State.emitNote_parked (State.Parked.forAll (fun x _ parked =>
    State.changeoverTrunkDown_parked parked x) _ (State.Parked.forAll (fun o t parked => loops o t parked) _
      (State.Parked.forAll (fun n _ parked => State.stationLost_parked parked n) _ down))) _ _ _ _) _

theorem State.linksDue_parked (host : p.val < 59) (parked : s.Parked fades p) : s.linksDue.Parked fades p := by
  have window (t : State) (parked : t.Parked fades p) : t.windowComplete.Parked fades p := by
    obtain ⟨_, _, e⟩ := t.windowComplete_lists
    rw [e]
    exact parked.same rfl rfl rfl fun _ => rfl
  have sync (k : Fin 4) (t : State) (parked : t.Parked fades p) : (t.syncExpired k).Parked fades p := by
    unfold State.syncExpired
    dsimp only
    split
    · exact State.leaveUp_parked parked k
    · exact parked
  have answer (k : Fin 4) (t : State) (parked : t.Parked fades p) : (t.answerExpired k).Parked fades p := by
    unfold State.answerExpired
    dsimp only
    split
    · exact parked.same rfl rfl rfl fun _ => rfl
    · exact parked
  exact State.Parked.forAll answer _ (State.Parked.forAll sync _ (window _
    (State.Parked.forAll (fun v _ parked => State.segmentEnd_parked host parked v) _ parked)))

theorem State.slotsDue_parked (parked : s.Parked fades p) : s.slotsDue.Parked fades p := by
  have pending (x : Fin 8) (t : State) (parked : t.Parked fades p) : (t.pendingExpired x).Parked fades p := by
    unfold State.pendingExpired
    dsimp only
    split
    · exact State.failChangeover_parked parked x 1
    · exact parked
  have release (x : Fin 8) (t : State) (parked : t.Parked fades p) : (t.releaseExpired x).Parked fades p := by
    unfold State.releaseExpired
    dsimp only
    split
    · exact State.emitNote_parked (State.setCause_parked (State.modChangeover_parked parked x _) _) _ _ _ _
    · exact parked
  exact State.Parked.forAll release _ (State.Parked.forAll pending _ parked)

theorem State.partiesDue_parked (parked : s.Parked fades p) : s.partiesDue.Parked fades p :=
  State.Parked.forAll (fun q _ parked => State.durationExpired_parked parked q) _ (State.Parked.forAll
    (fun q _ parked => State.gatherDue_parked parked q) _ (State.Parked.forAll
      (fun c _ parked => State.Parked.forAll (fun i _ parked => State.ringExpired_parked parked c i) (allFin 8) parked) _
        (State.Parked.forAll (fun n _ parked => State.holdExpired_parked parked n) _ parked)))

theorem State.settleDue_parked (host : p.val < 59) (parked : s.Parked fades p) : s.settleDue.Parked fades p := by
  rw [State.settleDue_eq]
  refine State.Parked.forAll (fun l t parked => ?_) _ (State.beatExpired_parked host
    (State.partiesDue_parked (State.slotsDue_parked (State.linksDue_parked host parked))))
  obtain ⟨_, e⟩ := t.scanExpired_lists l
  rw [e]
  exact parked.same rfl rfl rfl fun _ => rfl

/-! ### The period -/

theorem State.stepTimers_parked (parked : s.Parked fades p) : s.stepTimers.Parked fades p := by
  refine ⟨?_, fun c g own => ?_, parked.chime⟩
  · unfold State.stepTimers State.stack
    dsimp only
    rw [Tab.get_map]
    exact parked.rests
  · unfold State.stepTimers at own
    dsimp only at own
    rw [Tab.get_map] at own
    exact parked.page c g own

theorem State.beforeLatch_parked (host : p.val < 59) (parked : s.Parked fades p) : s.beforeLatch.Parked fades p := by
  have trained (k : Fin 4) (t : State) (parked : t.Parked fades p) : (t.trainTrunk k).Parked fades p := by
    unfold State.trainTrunk
    split
    · exact parked.same rfl rfl rfl fun _ => rfl
    · exact parked
  rw [State.beforeLatch_eq]
  exact State.Parked.forAll (fun v _ parked => State.startVoice_parked parked v) _ ((State.showStep_shown _).parked
    (State.Parked.forAll (fun c _ parked => State.freeCleared_parked parked c) _ (State.Parked.forAll trained _
      (State.stepTimers_parked (State.settleDue_parked host parked)))))

theorem State.mixed_parked (parked : s.Parked fades p) (audio : List (List Sample)) : (s.mixed audio).Parked fades p := by
  obtain ⟨_, _, _, e⟩ := s.mixed_only audio
  rw [e]
  refine parked.same rfl rfl rfl fun v => ?_
  dsimp only
  rw [Tab.get_map]
  exact Voice.give_user _

theorem State.sounded_parked {audio : List (List Sample)} (parked : (s.mixed audio).Parked fades p) :
    (s.sounded audio).Parked fades p := by
  have events : ((s.mixed audio).forAll (allFin 16) (State.channelEvent s.gives)).Parked fades p :=
    State.Parked.forAll (fun c _ parked => State.channelEvent_parked parked s.gives c) _ parked
  exact events.same rfl rfl rfl fun _ => rfl

end

end Sys2Proof.Machine

end

section
/-! PROOF. STOP_PROGRAM, SET_PROGRAM_GAIN and the end of a faded program (O30). -/

open Sys2Proof Sys2Proof.Machine

namespace Sys2Proof.Machine

/-! ### The faded programs of a period (R73) -/

/-- One step of the period's last act. -/
def State.fadeOut (p : Fin 64) (s : State) : State :=
  if (s.programs.get p).state == .ending then s.endProgram p stStopped else s

theorem State.fadeOut_of {s : State} {p : Fin 64} (ending : (s.programs.get p).state = .ending) :
    s.fadeOut p = s.endProgram p stStopped := if_pos (beq_iff_eq.mpr ending)

theorem State.fadeOut_not {s : State} {p : Fin 64} (other : (s.programs.get p).state ≠ .ending) : s.fadeOut p = s :=
  if_neg (fun same => other (beq_iff_eq.mp same))

theorem State.mixPeriod_fades (audio : List (List Sample)) (s : State) : s.mixPeriod audio =
    (s.sounded audio).forAll ((allFin 64).filter (s.mixed audio).faded) State.fadeOut := s.mixPeriod_eq audio

theorem State.fadeOut_parked {fades : Prop} {p : Fin 64} {s : State} (parked : s.Parked fades p) (q : Fin 64) :
    (s.fadeOut q).Parked fades p := by
  unfold State.fadeOut
  split
  · exact State.endProgram_parked parked _ _
  · exact parked

theorem State.Parked.gone {p : Fin 64} {s : State} (parked : s.Parked False p) :
    (s.programs.get p).state = .free ∧ ∀ o, hasOwner (.program p) (s.stack o) = false :=
  parked.rests.resolve_left fun faded => faded.1

/-- A parked program whose own step is taken is FREE. -/
theorem State.fadeOut_gone {p : Fin 64} {s : State} (parked : s.Parked True p) : (s.fadeOut p).Parked False p := by
  rcases parked.rests with ⟨-, ending⟩ | rests
  · have after := State.endProgram_parked parked p stStopped
    have ended := State.endProgram_ended (s := s) (p := p) (by rw [ending]; nofun) stStopped
    rw [State.fadeOut_of ending]
    exact ⟨.inr ⟨ended.free, ended.unclaimed⟩, after.page, after.chime⟩
  · rw [State.fadeOut_not (by rw [rests.1]; nofun)]
    exact ⟨.inr rests, parked.page, parked.chime⟩

theorem State.forAll_fadeOut_gone {p : Fin 64} {ps : List (Fin 64)} (mem : p ∈ ps) {s : State} (parked : s.Parked True p) :
    (s.forAll ps State.fadeOut).Parked False p := by
  induction ps generalizing s with
  | nil => nomatch mem
  | cons q ps ih =>
    rw [State.forAll_cons]
    rcases List.mem_cons.mp mem with rfl | mem
    · exact State.Parked.forAll (fun _ _ parked => State.fadeOut_parked parked _) _ (State.fadeOut_gone parked)
    · exact ih mem (State.fadeOut_parked parked q)

/-- The steps of one program alone: its end, once. -/
theorem State.forAll_fadeOut_once {p : Fin 64} {ps : List (Fin 64)} (mem : p ∈ ps) (alone : ∀ q ∈ ps, q = p) {s : State}
    (ending : (s.programs.get p).state = .ending) : s.forAll ps State.fadeOut = s.endProgram p stStopped := by
  have done : ∀ (ps : List (Fin 64)) (t : State), (∀ q ∈ ps, q = p) → (t.programs.get p).state = .free →
      t.forAll ps State.fadeOut = t := fun ps t alone free => State.forAll_fixed (fun q mem => by
    rw [alone q mem]
    exact State.fadeOut_not (by rw [free]; nofun))
  cases ps with
  | nil => nomatch mem
  | cons q ps =>
    have first : q = p := alone q (List.mem_cons_self ..)
    have rest : ∀ r ∈ ps, r = p := fun r mem => alone r (List.mem_cons_of_mem _ mem)
    rw [State.forAll_cons, first, State.fadeOut_of ending]
    exact done ps _ rest (State.endProgram_ended (by rw [ending]; nofun) stStopped).free

theorem State.faded_iff (s : State) (p : Fin 64) : s.faded p = true ↔ (s.programs.get p).state = .ending ∧
    ∀ o, ((s.mixer.get o).fg = some (.program p, (s.programs.get p).arrival) → (s.mixer.get o).gc = 0) ∧
      ((s.mixer.get o).ug = some (.program p, (s.programs.get p).arrival) → (s.mixer.get o).uc = 0) := by
  unfold State.faded
  simp only [Bool.and_eq_true, Bool.or_eq_true, beq_iff_eq, bne_iff_ne, List.all_eq_true, Tab.mem_list_iff,
    forall_exists_index, forall_apply_eq_imp_iff, ne_eq]
  exact and_congr Iff.rfl (forall_congr' fun o => and_congr imp_iff_not_or.symm imp_iff_not_or.symm)

/-- The gains at a period's end are those of its mix. -/
theorem State.period_mixer (s : State) (audio : List (List Sample)) :
    (s.mixPeriod audio).arbitrate.mixer = (s.mixed audio).mixer := by
  rw [State.arbitrate_mixer, (s.mixPeriod_moved audio).mixer]

/-- In a calm period only the program that was ENDING before may fade out. -/
theorem State.calm_mixed {s : State} (calm : s.Calm) (audio : List (List Sample)) :
    (s.beforeLatch.mixed audio).programs = s.programs.map Program.tick := by
  have latched := State.latched_of calm
  obtain ⟨_, _, _, mixed⟩ := s.beforeLatch.mixed_only audio
  rw [mixed]
  generalize s.beforeLatch = u at latched
  obtain ⟨_, _, _, _, _, _, _, _, _, _, rfl⟩ := latched.only
  rfl

theorem Program.tick_record (x : Program) : x.tick.record = x.record := rfl

theorem Program.tick_arrival (x : Program) : x.tick.arrival = x.arrival := rfl

theorem State.calm_granted {s : State} (calm : s.Calm) (audio : List (List Sample)) (busy : s.port.grant ≠ none) :
    (s.beforeLatch.sounded audio).port.grant ≠ none := by
  have latched := State.latched_of calm
  have same := (State.sounded_of audio latched.flowing).granted.trans latched.granted
  exact fun none => busy (Option.map_eq_none_iff.mp (same.symm.trans (Option.map_eq_none_iff.mpr none)))

/-! ### The records (R45, R48) -/

theorem Hand.hostSlot_none {h : Hand} (high : 59 ≤ byteAt h.bytes 8) : h.hostSlot = none := by
  unfold Hand.hostSlot
  rw [Option.filter_eq_none_iff]
  intro p found
  rw [toFin?_eq_some_iff] at found
  simp only [decide_eq_true_eq]
  omega

theorem Hand.hostSlot_some {h : Hand} {p : Fin 64} (slot : byteAt h.bytes 8 = p.val) (host : p.val < 59) :
    h.hostSlot = some p := by
  unfold Hand.hostSlot
  rw [Option.filter_eq_some_iff, toFin?_eq_some_iff]
  exact ⟨slot, decide_eq_true host⟩

theorem State.stopProgram_early {s : State} {p : Fin 64} {mode : Nat}
    (early : (s.programs.get p).state = .gathering ∨ (s.programs.get p).state = .chiming) :
    s.stopProgram p mode = s.endProgram p stStopped := by
  unfold State.stopProgram
  dsimp only
  rcases early with e | e <;> (rw [e] <;> rfl)

theorem State.stopProgram_playing {s : State} {p : Fin 64} {mode : Nat} (playing : (s.programs.get p).state = .playing) :
    s.stopProgram p mode = if mode = 0 then s.endProgram p stStopped
      else if mode = 2 ∧ (s.programs.get p).source = .stream then
        (s.modProgram p fun pr => { pr with stopMode := .finish }).signalOwner (.program p) Channel.signalFinish
      else s.enterEnding p := by
  unfold State.stopProgram
  dsimp only
  rw [playing]
  simp only [Bool.and_eq_true, decide_eq_true_eq, beq_iff_eq]

theorem State.stopProgram_held {s : State} {p : Fin 64} {mode : Nat} (held : (s.programs.get p).state = .held) :
    s.stopProgram p mode = if mode = 0 then s.endProgram p stStopped else s.enterEnding p := by
  unfold State.stopProgram
  dsimp only
  rw [held] <;> rfl

theorem State.stopProgram_ending {s : State} {p : Fin 64} {mode : Nat} (ending : (s.programs.get p).state = .ending) :
    s.stopProgram p mode = if mode = 0 then s.endProgram p stStopped else s := by
  unfold State.stopProgram
  dsimp only
  rw [ending] <;> rfl

theorem State.stopProgram_cut {s : State} {p : Fin 64} {mode : Nat} (busy : (s.programs.get p).state ≠ .free) (zero : mode = 0) :
    s.stopProgram p mode = s.endProgram p stStopped := by
  match state : (s.programs.get p).state with
  | .free => exact absurd state busy
  | .gathering => exact State.stopProgram_early (.inl state)
  | .chiming => exact State.stopProgram_early (.inr state)
  | .playing => rw [State.stopProgram_playing state, if_pos zero]
  | .held => rw [State.stopProgram_held state, if_pos zero]
  | .ending => rw [State.stopProgram_ending state, if_pos zero]

theorem Channel.signalFinish_eq (ch : Channel) : ch.signalFinish =
    if ch.desc.repeats = true ∧ ch.fetchEnded = false then { ch with passes := 1 } else ch := by
  unfold Channel.signalFinish
  simp only [Bool.and_eq_true, Bool.not_eq_true']

/-- A return asked for while the walker has a record to hand over waits in the queue. -/
theorem State.requestReturn_handOver {s : State} {l : ListId} {h : Hand} {b : List (List Byte)}
    (inHand : (s.walker l).stage = .handOver h b) (r : Return) : s.requestReturn l r =
      { s with lists := { s.lists with returns := s.lists.returns.modify l.idx fun q => q ++ [r] } } := by
  unfold State.requestReturn
  rw [inHand] <;> rfl

/-- The return of a program that a record in hand ends. -/
theorem State.endProgram_queued {s : State} {p : Fin 64} {h : Hand} {b : List (List Byte)} {r : RecRef} {code : Nat}
    (busy : (s.programs.get p).state ≠ .free) (inHand : (s.walker .program).stage = .handOver h b)
    (record : (s.programs.get p).record = some r) : ∃ x : Return, x.record = r ∧ x.status = marked code r.mark ∧
      x ∈ (s.endProgram p code).lists.returns.get ListId.program.idx := by
  obtain ⟨a, t, ha, ht, e⟩ := State.endProgram_eq busy code
  have before : Steady s a := ha ▸
    State.releaseChannel_steady (State.releaseVoice_steady (State.removeAll_steady (Steady.refl s) _) _) _
  have left : t.lists = a.lists := ht ▸ (State.leaveHoldSet_steady (Steady.refl (a.modProgram p _)) p).lists
  clear ha ht
  have inHand' : (t.walker .program).stage = .handOver h b := by
    unfold State.walker at inHand ⊢
    rw [left, before.lists]
    exact inHand
  rw [(before.records p).1, record] at e
  refine ⟨(a.programs.get p).ended r code t.time, rfl, rfl, ?_⟩
  rw [e]
  dsimp only
  rw [State.requestReturn_handOver inHand']
  dsimp only
  rw [Tab.get_modify_self]
  exact List.mem_append_right _ (List.mem_singleton_self _)

/-- The end of a program by a record in hand, with the record's own return. -/
theorem ProgramEnded.reply {s : State} {p : Fin 64} {h : Hand} {b : List (List Byte)} {code : Nat}
    (busy : (s.programs.get p).state ≠ .free) (inHand : (s.walker .program).stage = .handOver h b) (status : Nat) :
    ProgramEnded s ((s.endProgram p code).reply .program h status false []).arbitrate p code where
  toUntouched := ((State.endProgram_quiet (Quiet.refl s) p code).toUntouched.trans
    (State.reply_quiet (Quiet.refl _) .program h status false []).toUntouched).trans (State.arbitrate_untouched _)
  free := by
    rw [State.arbitrate_programs]
    exact (State.endProgram_ended busy code).free
  reservation := by
    rw [State.arbitrate_programs]
    exact (State.endProgram_ended busy code).reservation
  unclaimed o := by
    unfold State.stack
    rw [State.arbitrate_claims]
    exact (State.endProgram_ended busy code).unclaimed o
  returned r record granted := by
    obtain ⟨x, own, status', mem⟩ := State.endProgram_queued (code := code) busy inHand record
    have still : ((s.endProgram p code).reply .program h status false []).port.grant ≠ none :=
      ((State.endProgram_quiet (Quiet.refl s) p code).toActs.trans
        (State.reply_quiet (Quiet.refl _) .program h status false []).toActs).granted_ne granted
    refine ⟨x, own, status', .inl ?_⟩
    rw [State.arbitrate_waiting still]
    exact mem

end Sys2Proof.Machine

/-- The first part of O30: what the period start does of a program in ENDING. -/
theorem faded_period (s : State) (audio : List (List Sample)) (p : Fin 64) :
    let pr := s.programs.get p
    p.val < 59 → pr.state = .ending →
    (∀ c g, (s.calls.get c).page = some g → g.slot = p → g.state ≠ .reserved) →
    (∀ v, (s.tones.voices.get v).user ≠ .chime p) →
      ∃ t, exec (.mixPeriodStart audio) s = .next t ∧
        let gainOf (o : Fin 256) (a g : Nat) : Prop :=
          ((t.mixer.get o).fg = some (.program p, a) ∧ (t.mixer.get o).gc = g) ∨
            ((t.mixer.get o).ug = some (.program p, a) ∧ (t.mixer.get o).uc = g)
        let faded : Prop := ∀ o a g, gainOf o a g → g = 0
        let quiet : Prop := s.Calm ∧ ∀ q, q ≠ p → (s.programs.get q).state ≠ .ending
        (faded → (t.programs.get p).state = .free ∧ ∀ o, hasOwner (.program p) (t.stack o) = false) ∧
        (∀ r, faded → quiet → pr.record = some r → s.port.grant ≠ none →
          ∃ x : Return, x.record = r ∧ x.status = marked 0x04 r.mark ∧ t.returns .program x) ∧
        (∀ o g, quiet → gainOf o pr.arrival g → 0 < g →
          (t.programs.get p).state = .ending ∧ (t.programs.get p).record = pr.record) := by
  intro pr host ending page chime
  refine ⟨_, exec_mixPeriodStart s audio, ?_⟩
  intro gainOf faded quiet
  have mixer := s.beforeLatch.period_mixer audio
  have parked : (s.beforeLatch.mixed audio).Parked True p :=
    State.mixed_parked (State.beforeLatch_parked host ⟨.inl ⟨trivial, ending⟩, page, chime⟩) audio
  have fades (down : faded) (still : ((s.beforeLatch.mixed audio).programs.get p).state = .ending) :
      p ∈ (allFin 64).filter (s.beforeLatch.mixed audio).faded := by
    refine List.mem_filter.mpr ⟨mem_allFin p, (State.faded_iff _ p).mpr ⟨still, fun o => ⟨fun own => ?_, fun own => ?_⟩⟩⟩
    · exact down o _ _ (.inl ⟨by rw [mixer]; exact own, by rw [mixer]⟩)
    · exact down o _ _ (.inr ⟨by rw [mixer]; exact own, by rw [mixer]⟩)
  have alone (q : quiet) : ∀ x ∈ (allFin 64).filter (s.beforeLatch.mixed audio).faded, x = p := fun x mem => by
    have still := ((State.faded_iff _ x).mp (List.mem_filter.mp mem).2).1
    rw [State.calm_mixed q.1, Tab.get_map, Program.tick_state] at still
    exact by_contra fun other => q.2 x other still
  have sounds (q : quiet) : (s.beforeLatch.sounded audio).programs.get p = pr.tick := by
    rw [State.calm_programs q.1, Tab.get_map]
  have mixes (q : quiet) : (s.beforeLatch.mixed audio).programs.get p = pr.tick := by
    rw [State.calm_mixed q.1, Tab.get_map]
  refine ⟨fun down => ?_, fun r down q record granted => ?_, fun o g q gain more => ?_⟩
  · have gone : ((s.beforeLatch.mixPeriod audio)).Parked False p := by
      rw [State.mixPeriod_fades]
      rcases parked.rests with ⟨-, still⟩ | rests
      · exact State.forAll_fadeOut_gone (fades down still) (State.sounded_parked parked)
      · exact State.Parked.forAll (fun _ _ parked => State.fadeOut_parked parked _) _
          (State.sounded_parked ⟨.inr rests, parked.page, parked.chime⟩)
    unfold State.stack
    rw [State.arbitrate_programs, State.arbitrate_claims]
    exact gone.gone
  · have still : ((s.beforeLatch.sounded audio).programs.get p).state = .ending := by
      rw [sounds q]
      exact ending
    have busy : ((s.beforeLatch.sounded audio).programs.get p).state ≠ .free := by
      rw [still]
      nofun
    have ended := State.endProgram_arbitrate busy stStopped
    rw [State.mixPeriod_fades, State.forAll_fadeOut_once (fades down (by rw [mixes q]; exact ending)) (alone q) still]
    exact ended.returned r (by rw [sounds q]; exact record) (State.calm_granted q.1 audio granted)
  · have nobody : (allFin 64).filter (s.beforeLatch.mixed audio).faded = [] := by
      refine List.filter_eq_nil_iff.mpr fun x mem down => ?_
      have same := alone q x (List.mem_filter.mpr ⟨mem, down⟩)
      rw [same, State.faded_iff, mixes q] at down
      rcases gain with ⟨own, gain⟩ | ⟨own, gain⟩ <;> rw [mixer] at own gain
      · have zero := (down.2 o).1 own
        omega
      · have zero := (down.2 o).2 own
        omega
    rw [State.mixPeriod_fades, nobody, State.arbitrate_programs]
    have slot : ((s.beforeLatch.sounded audio).forAll [] State.fadeOut).programs.get p = pr.tick := sounds q
    rw [slot]
    exact ⟨ending, rfl⟩

/-- Settles O30: a parked program stays parked through a period and goes with the faded ones; the records by their cases. -/
theorem stopAndGain : Obligations.StopAndGain := by
  unfold Obligations.StopAndGain
  refine ⟨faded_period, fun s h b => ?_, fun s h b => ?_⟩
  · intro slot mode inHand kind
    have ran : exec .stopProgram s = .next (s.stopRecord h).arbitrate :=
      congrArg Host.Outcome.next (State.handOver_of _ inHand kind)
    have next {u : State} (same : s.stopRecord h = u) : exec .stopProgram s = .next u.arbitrate := by rw [ran, same]
    unfold State.stopRecord at next
    dsimp only at next
    refine ⟨fun high => next ?_, fun host bad => next ?_, fun p own host good => ?_⟩
    · rw [Hand.hostSlot_none high] <;> rfl
    · rw [Hand.hostSlot_some (p := ⟨slot, by omega⟩) rfl host]
      exact if_pos bad
    · rw [Hand.hostSlot_some own (own ▸ host)] at next
      dsimp only at next
      rw [if_neg (Nat.not_lt.mpr good)] at next
      intro pr
      have acts {u : State} (busy : pr.state ≠ .free) (same : s.stopProgram p mode = u) :
          exec .stopProgram s = .next (u.reply .program h 0x02 false []).arbitrate := by
        refine next ?_
        rw [if_neg (by simpa using busy), ← same]
        rfl
      have cut (busy : pr.state ≠ .free) (same : s.stopProgram p mode = s.endProgram p stStopped) :
          ∃ t, exec .stopProgram s = .next t ∧ ProgramEnded s t p 0x04 ∧ t.stations = s.stations ∧
            (t.walker .program).stage =
              .returnWrite h { record := h.ref false, status := 0x02, results := [] } false := by
        refine ⟨_, acts busy same, ProgramEnded.reply busy inHand 0x02, ?_, ?_⟩
        · rw [State.arbitrate_stations]
          exact (State.endProgram_quiet (Quiet.refl s) p stStopped).stations
        · unfold State.walker
          rw [State.arbitrate_walkers]
          exact State.reply_stage _ .program h 0x02 false []
      refine ⟨fun free => next (if_pos (beq_iff_eq.mpr free)), fun goes => ?_, fun playing finish stream c own => ?_,
        fun ending more => acts (by rw [ending]; nofun) ?_, fun goes => ?_⟩
      · rcases goes with ⟨playing, how⟩ | ⟨held, more⟩
        · refine acts (by rw [playing]; nofun) ?_
          rw [State.stopProgram_playing playing]
          rcases how with one | ⟨two, source⟩
          · rw [if_neg (by omega), if_neg (by omega)]
            rfl
          · rw [if_neg (by omega), if_neg fun both => source both.2]
            rfl
        · refine acts (by rw [held]; nofun) ?_
          rw [State.stopProgram_held held, if_neg more]
          rfl
      · refine acts (by rw [playing]; nofun) ?_
        rw [State.stopProgram_playing playing, if_neg (by omega), if_pos ⟨finish, stream⟩]
        unfold State.signalOwner
        rw [show (s.modProgram p fun pr => { pr with stopMode := .finish }).channelOf (.program p) = some c from own]
        exact State.modChannel_congr _ c (Channel.signalFinish_eq _)
      · rw [State.stopProgram_ending ending, if_neg more]
      · rcases goes with gathering | chiming | ⟨busy, zero⟩
        · exact cut (by rw [gathering]; nofun) (State.stopProgram_early (.inl gathering))
        · exact cut (by rw [chiming]; nofun) (State.stopProgram_early (.inr chiming))
        · exact cut busy (State.stopProgram_cut busy zero)
  · intro slot inHand kind
    have ran : exec .setProgramGain s = .next (s.gainRecord h).arbitrate :=
      congrArg Host.Outcome.next (State.handOver_of _ inHand kind)
    have next {u : State} (same : s.gainRecord h = u) : exec .setProgramGain s = .next u.arbitrate := by rw [ran, same]
    unfold State.gainRecord at next
    refine ⟨fun high => next ?_, fun p own host => ?_⟩
    · rw [Hand.hostSlot_none high] <;> rfl
    · rw [Hand.hostSlot_some own (own ▸ host)] at next
      dsimp only at next
      refine ⟨fun free => next (if_pos (beq_iff_eq.mpr free)), fun busy => next (if_neg ?_)⟩
      simpa using busy

end

section
/-! PROOF. What the acts of programs, streams, tones and the show leave of calls and stations. -/

open Sys2Proof Sys2Proof.Machine

namespace Sys2Proof.Machine

/-- A call after acts that at most end its page: all of it but the page, and all of it where it neither rings nor is
active. -/
structure Call.Kept (x y : Call) : Prop where
  bare : { y with page := none } = { x with page := none }
  still : x.state ≠ .ringing → x.state ≠ .active → y = x

theorem Call.Kept.refl (x : Call) : x.Kept x := ⟨rfl, fun _ _ => rfl⟩

theorem Call.Kept.state {x y : Call} (h : x.Kept y) : y.state = x.state := (Call.mk.inj h.bare).1

theorem Call.Kept.parties {x y : Call} (h : x.Kept y) : y.parties = x.parties := (Call.mk.inj h.bare).2.2.2.2.1

theorem Call.Kept.trans {x y z : Call} (h : x.Kept y) (k : y.Kept z) : x.Kept z where
  bare := k.bare.trans h.bare
  still ringing active := (k.still (h.state ▸ ringing) (h.state ▸ active)).trans (h.still ringing active)

/-- What the acts of the programs, the streams, the tones and the show leave: every slot without a reservation, the calls
but for their pages, the stations, and the returns that wait. -/
structure Undialled (s t : State) : Prop where
  slots : ∀ q, (s.programs.get q).reservation = none → (t.programs.get q).reservation = none
  calls : ∀ c, (s.calls.get c).Kept (t.calls.get c)
  stations : t.stations = s.stations
  returns : Returns s t

theorem Undialled.refl (s : State) : Undialled s s := ⟨fun _ => id, fun _ => Call.Kept.refl _, rfl, Returns.refl s⟩

theorem Undialled.trans {a b c : State} (h : Undialled a b) (k : Undialled b c) : Undialled a c :=
  ⟨fun q x => k.slots q (h.slots q x), fun d => (h.calls d).trans (k.calls d), k.stations.trans h.stations,
    h.returns.trans k.returns⟩

theorem Undialled.same {s t : State} (programs : t.programs = s.programs) (calls : t.calls = s.calls)
    (stations : t.stations = s.stations) (returns : Returns s t) : Undialled s t :=
  ⟨fun _ none => programs ▸ none, fun _ => calls ▸ Call.Kept.refl _, stations, returns⟩

/-- An act that lets every program stand. -/
theorem Undialled.of {s t : State} (steady : Steady s t) (quiet : Quiet s t) : Undialled s t where
  slots q none := (steady.records q).2.trans none
  calls c := by
    rw [steady.calls]
    exact Call.Kept.refl _
  stations := quiet.stations
  returns := steady.returns

section
variable (s : State)

theorem State.forAll_undialled {β : Type} {f : β → State → State} (each : ∀ x s, Undialled s (f x s)) (xs : List β) :
    Undialled s (s.forAll xs f) := by
  induction xs generalizing s with
  | nil => exact Undialled.refl s
  | cons x xs ih =>
    rw [State.forAll_cons]
    exact (each x s).trans (ih _)

theorem State.modProgram_undialled (p : Fin 64) {f : Program → Program}
    (reservation : (s.programs.get p).reservation = none → (f (s.programs.get p)).reservation = none) :
    Undialled s (s.modProgram p f) := by
  refine ⟨fun q none => ?_, fun _ => Call.Kept.refl _, rfl, Returns.same rfl⟩
  rw [State.modProgram_programs, Tab.get_modify]
  split
  · next same =>
    subst same
    exact reservation none
  · exact none

theorem State.modChannel_undialled (c : Fin 16) (f : Channel → Channel) : Undialled s (s.modChannel c f) :=
  Undialled.same rfl rfl rfl (Returns.same rfl)

theorem State.modVoice_undialled (v : Fin 8) (f : Voice → Voice) : Undialled s (s.modVoice v f) :=
  Undialled.same rfl rfl rfl (Returns.same rfl)

theorem State.modAlarm_undialled (k : AlarmKind) (f : AlarmStatus → AlarmStatus) : Undialled s (s.modAlarm k f) :=
  Undialled.same rfl rfl rfl (Returns.same rfl)

theorem State.modTheatre_undialled (f : Theatre → Theatre) : Undialled s (s.modTheatre f) :=
  Undialled.same rfl rfl rfl (Returns.same rfl)

theorem State.setCause_undialled (b : CauseBit) : Undialled s (s.setCause b) :=
  Undialled.same rfl rfl rfl (Returns.same rfl)

theorem State.emitNote_undialled (k : NoteKind) (code subject detail : Nat) : Undialled s (s.emitNote k code subject detail) := by
  obtain ⟨_, _, e⟩ := s.emitNote_only k code subject detail
  rw [e]
  exact Undialled.same rfl rfl rfl (Returns.same rfl)

theorem State.requestReturn_undialled (l : ListId) (r : Return) : Undialled s (s.requestReturn l r) := by
  have returns := s.requestReturn_returns l r
  obtain ⟨_, e⟩ := s.requestReturn_only l r
  rw [e] at returns ⊢
  exact Undialled.same rfl rfl rfl returns

theorem State.signalOwner_undialled (w : ChanOwner) (f : Channel → Channel) : Undialled s (s.signalOwner w f) := by
  obtain ⟨_, e⟩ := s.signalOwner_only w f
  rw [e]
  exact Undialled.same rfl rfl rfl (Returns.same rfl)

theorem State.releaseChannel_undialled (w : ChanOwner) : Undialled s (s.releaseChannel w) := by
  obtain ⟨_, _, e⟩ := s.releaseChannel_only w
  rw [e]
  exact Undialled.same rfl rfl rfl (Returns.same rfl)

theorem State.enterEnded_undialled (c : Fin 16) : Undialled s (s.enterEnded c) := by
  obtain ⟨_, e⟩ := s.enterEnded_only c
  rw [e]
  exact Undialled.same rfl rfl rfl (Returns.same rfl)

theorem Shown.undialled {t : State} (h : Shown s t) : Undialled s t := by
  have returns := h.returns
  obtain ⟨_, _, _, _, _, _, e⟩ := h.only
  rw [e] at returns ⊢
  exact Undialled.same rfl rfl rfl returns

theorem State.leaveOwing_undialled (v : Fin 8) : Undialled s (s.leaveOwing v) := by
  unfold State.leaveOwing
  dsimp only
  split
  · exact Undialled.same rfl rfl rfl (Returns.same rfl)
  · exact Undialled.refl s

theorem State.releaseVoice_undialled (u : VoiceUser) : Undialled s (s.releaseVoice u) :=
  Undialled.of (State.releaseVoice_steady (Steady.refl s) u) (State.releaseVoice_quiet (Quiet.refl s) u)

/-! ### Programs -/

theorem State.enterPlaying_undialled (p : Fin 64) : Undialled s (s.enterPlaying p) :=
  Undialled.of (State.enterPlaying_steady (Steady.refl s) p) (State.enterPlaying_quiet (Quiet.refl s) p)

theorem State.chimeStep_undialled (p : Fin 64) : Undialled s (s.chimeStep p) :=
  Undialled.of (State.chimeStep_steady (Steady.refl s) p) (State.chimeStep_quiet (Quiet.refl s) p)

theorem State.restack_stations (o : Fin 256) (cs : List Claim) : (s.restack o cs).stations = s.stations := by
  have counted (t : State) (old new : Option Claim) : ((((t.countHeld old (· - 1)).countHeld new (· + 1)).gatherTestOf
      old).gatherTestOf new).stations = t.stations :=
    (State.gatherTestOf_quiet (State.gatherTestOf_quiet (State.countHeld_quiet (State.countHeld_quiet (Quiet.refl t) _ _)
      _ _) _) _).stations
  have line (t : State) : (t.evalLine o).stations = t.stations := rfl
  have told (t : State) (old new : Option Claim) : (t.reportDisplaced o old new).stations = t.stations :=
    (State.reportDisplaced_quiet (Quiet.refl t) o old new).stations
  have shown (t : State) (b : Bool) : (if b then t.resumeTest else t).stations = t.stations := by
    split
    · exact (State.resumeTest_quiet (Quiet.refl t)).stations
    · rfl
  unfold State.restack
  dsimp only
  split
  · exact line _
  · rw [shown, told, line, counted]
    rfl

theorem State.restack_undialled (o : Fin 256) (cs : List Claim) : Undialled s (s.restack o cs) := by
  refine ⟨fun q none => ?_, fun c => ?_, ?_, (State.restack_steady (Steady.refl s) o cs).returns⟩
  · exact ((State.restack_steady (Steady.refl s) o cs).records q).2.trans none
  · rw [(State.restack_steady (Steady.refl s) o cs).calls]
    exact Call.Kept.refl _
  · exact s.restack_stations o cs

theorem State.removeClaim_undialled (w : Owner) (o : Fin 256) : Undialled s (s.removeClaim w o) :=
  Undialled.of (State.removeClaim_steady (Steady.refl s) w o) (State.removeClaim_quiet (Quiet.refl s) w o)

theorem State.reportPageEnd_undialled (p : Fin 64) (src : Source) : Undialled s (s.reportPageEnd p src) := by
  unfold State.reportPageEnd
  split
  · next c =>
    dsimp only
    split
    · next live =>
      refine ⟨fun _ => id, fun d => ?_, rfl, Returns.same rfl⟩
      rw [State.modCall_calls, Tab.get_modify]
      split
      · next same =>
        subst same
        refine ⟨rfl, fun ringing active => ?_⟩
        simp only [Bool.or_eq_true, beq_iff_eq] at live
        exact absurd live (not_or.mpr ⟨ringing, active⟩)
      · exact Call.Kept.refl _
    · exact Undialled.refl s
  · exact Undialled.refl s

theorem State.endProgram_undialled (p : Fin 64) (code : Nat) : Undialled s (s.endProgram p code) := by
  by_cases free : (s.programs.get p).state = .free
  · unfold State.endProgram
    rw [if_pos (beq_iff_eq.mpr free)]
    exact Undialled.refl s
  · obtain ⟨a, b, ha, hb, e⟩ := State.endProgram_eq free code
    have removed : Undialled s (s.removeAll (.program p)) :=
      Undialled.of (State.removeAll_steady (Steady.refl s) _) (State.removeAll_quiet (Quiet.refl s) _)
    have released : Undialled s a := by
      rw [ha]
      exact (removed.trans (State.releaseVoice_undialled _ _)).trans (State.releaseChannel_undialled _ _)
    have left : Undialled a b := by
      rw [hb]
      exact (a.modProgram_undialled p fun none => none).trans
        (Undialled.of (State.leaveHoldSet_steady (Steady.refl _) p) (State.leaveHoldSet_quiet (Quiet.refl _) p))
    rw [e]
    split
    · exact (released.trans left).trans (State.requestReturn_undialled _ _ _)
    · exact (released.trans left).trans (State.reportPageEnd_undialled _ _ _)

theorem State.gatherDue_undialled (p : Fin 64) : Undialled s (s.gatherDue p) := by
  unfold State.gatherDue State.gatherExpired
  split
  · dsimp only
    split
    · have stopped : Undialled s (s.modProgram p fun pr => { pr with gatherTimer := none }) :=
        s.modProgram_undialled p fun none => none
      split
      · exact stopped.trans (State.endProgram_undialled _ _ _)
      · exact stopped.trans (State.chimeStep_undialled _ _)
    · exact Undialled.refl s
  · exact Undialled.refl s

theorem State.durationExpired_undialled (p : Fin 64) : Undialled s (s.durationExpired p) := by
  unfold State.durationExpired
  dsimp only
  split
  · exact s.endProgram_undialled p _
  · exact Undialled.refl s

theorem State.fadeOut_undialled (p : Fin 64) : Undialled s (s.fadeOut p) := by
  unfold State.fadeOut
  split
  · exact s.endProgram_undialled p _
  · exact Undialled.refl s

/-! ### Alarms and voices -/

theorem State.chainFault_undialled (c : Fin 16) (a : Nat) : Undialled s (s.chainFault c a) :=
  (s.modChannel_undialled c _).trans (State.emitNote_undialled _ _ _ _ _)

theorem State.bindTo_undialled (c : Fin 16) (w : ChanOwner) (d : StreamDesc) : Undialled s (s.bindTo c w d) := by
  unfold State.bindTo State.toRead
  split
  · exact (s.modChannel_undialled c _).trans (State.modChannel_undialled _ c _)
  · exact (s.modChannel_undialled c _).trans (State.chainFault_undialled _ c _)

theorem State.discardTransfer_undialled (c : Fin 16) (keep : Bool) : Undialled s (s.discardTransfer c keep) :=
  Undialled.of (State.discardTransfer_steady (Steady.refl s) c keep) (State.discardTransfer_quiet (Quiet.refl s) c keep)

theorem State.alarmBind_undialled (k : AlarmKind) (d : StreamDesc) : Undialled s (s.alarmBind k d) := by
  unfold State.alarmBind
  dsimp only
  split
  · exact s.bindTo_undialled _ _ _
  · split
    · exact Undialled.refl s
    · next c _ =>
      have taken : Undialled s ((s.discardTransfer c false).bindTo c (.program k.slot) d) :=
        (s.discardTransfer_undialled c false).trans (State.bindTo_undialled _ c _ d)
      split
      · exact taken.trans (State.endProgram_undialled _ _ _)
      · exact taken.trans (State.emitNote_undialled _ _ _ _ _)
      · exact taken

theorem State.alarmStop_undialled (k : AlarmKind) : Undialled s (s.alarmStop k) := by
  unfold State.alarmStop
  split
  · exact Undialled.refl s
  · exact (((s.releaseVoice_undialled _).trans (State.releaseChannel_undialled _ _)).trans
      (State.modAlarm_undialled _ k _)).trans (State.modProgram_undialled _ _ fun _ => rfl)

theorem State.quieten_undialled (k : AlarmKind) (areas : List (Fin 16)) (cause : AlarmCause) :
    Undialled s (s.quieten k areas cause) := by
  have floors (t : State) (as : List (Fin 16)) : Undialled t (t.settleFloors as) :=
    t.forAll_undialled (f := fun a s => s.setFloor a (s.floorFor a)) (fun _ _ => Undialled.same rfl rfl rfl (Returns.same rfl)) as
  have withdrawn (t : State) (as : List (Fin 16)) : Undialled t (t.withdraw k as) :=
    t.forAll_undialled (fun o t => t.restack_undialled o _) _
  have set (as : List (Fin 16)) : Undialled s (s.setAreas k .quiet as) := Undialled.same rfl rfl rfl (Returns.same rfl)
  unfold State.quieten
  dsimp only
  split
  · exact Undialled.refl s
  · exact (((((set _).trans (floors _ _)).trans (withdrawn _ _)).trans (State.alarmStop_undialled _ k)).trans
      (State.emitNote_undialled _ _ _ _ _)).trans (State.setCause_undialled _ _)

theorem State.beginCycle_undialled (v : Fin 8) (q : Fin 12) (n : Nat) : Undialled s (s.beginCycle v q n) :=
  s.modVoice_undialled v _

theorem State.voicePoint_undialled (k : AlarmKind) (v : Fin 8) : Undialled s (s.voicePoint k v) := by
  unfold State.voicePoint
  split
  · exact Undialled.refl s
  · dsimp only
    split
    · exact Undialled.refl s
    · have counted := s.modAlarm_undialled k fun a => { a with count := 0 }
      split
      · split
        · unfold State.beginVoicePhase
          exact (((counted.trans (State.leaveOwing_undialled _ v)).trans (State.modVoice_undialled _ v _)).trans
            (State.modAlarm_undialled _ k _)).trans (State.signalOwner_undialled _ _ _)
        · exact counted
      · split
        · exact counted
        · exact counted.trans (State.alarmBind_undialled _ k _)

theorem State.alarmCycle_undialled (k : AlarmKind) (v : Fin 8) (copy : PatternDef) (q : Fin 12) (n : Nat) :
    Undialled s (s.alarmCycle k v copy q n) := by
  have counted := s.modAlarm_undialled k fun a => { a with count := a.count + 1 }
  unfold State.alarmCycle
  dsimp only
  split
  · exact (counted.trans (State.beginCycle_undialled _ v _ _)).trans (State.voicePoint_undialled _ k v)
  · split
    · exact (counted.trans (State.beginCycle_undialled _ v _ _)).trans (State.voicePoint_undialled _ k v)
    · split
      · exact s.quieten_undialled _ _ _
      · exact (counted.trans (State.beginCycle_undialled _ v _ _)).trans (State.voicePoint_undialled _ k v)

theorem State.segmentEnd_undialled (v : Fin 8) : Undialled s (s.segmentEnd v) := by
  unfold State.segmentEnd
  dsimp only
  split
  · split
    · exact s.modVoice_undialled v _
    · have left := s.leaveOwing_undialled v
      unfold State.cycleEnd
      dsimp only
      split
      · exact left
      · exact left.trans (State.beginCycle_undialled _ v _ _)
      · split
        · exact left.trans (State.beginCycle_undialled _ v _ _)
        · exact (left.trans (State.modVoice_undialled _ v _)).trans (State.enterPlaying_undialled _ _)
      · exact left.trans (State.alarmCycle_undialled _ _ v _ _ _)
  · exact Undialled.refl s

theorem State.startVoice_undialled (v : Fin 8) : Undialled s (s.startVoice v) := by
  unfold State.startVoice
  dsimp only
  split
  · exact s.beginCycle_undialled v _ _
  · exact Undialled.refl s

theorem State.endVoicePhase_undialled (k : AlarmKind) : Undialled s (s.endVoicePhase k) := by
  have toned := s.modAlarm_undialled k fun a => { a with phase := .tone }
  unfold State.endVoicePhase
  split
  · dsimp only
    split
    · exact toned.trans (State.modVoice_undialled _ _ _)
    · exact toned
  · exact Undialled.refl s

theorem State.channelEvent_undialled (gave : Tab 16 ChanEvent) (c : Fin 16) : Undialled s (s.channelEvent gave c) := by
  unfold State.channelEvent
  split
  · exact Undialled.refl s
  · split
    · have noted := s.emitNote_undialled .streamStarved 1 c.val (s.channels.get c).ownerCode
      unfold State.channelStarves
      dsimp only
      split
      · exact (noted.trans (State.releaseChannel_undialled _ _)).trans (State.endVoicePhase_undialled _ _)
      · exact noted
    · exact Undialled.refl s
  · split
    · unfold State.channelCompletes
      dsimp only
      split
      · refine Undialled.trans ?_ (State.endVoicePhase_undialled _ _)
        unfold State.reloadAlarm State.toRead
        split
        · exact (s.modChannel_undialled c _).trans (State.modChannel_undialled _ c _)
        · exact (s.modChannel_undialled c _).trans (State.chainFault_undialled _ c _)
      · split
        · exact (s.enterEnded_undialled c).trans (State.endProgram_undialled _ _ _)
        · exact s.enterEnded_undialled c
        · exact Undialled.refl s
    · exact Undialled.refl s

/-! ### FALLBACK -/

theorem shedStep_undialled (acc : Nat × State) (q : Fin 64) : Undialled acc.2 (shedStep acc q).2 := by
  unfold shedStep
  split
  · dsimp only
    exact State.endProgram_undialled acc.2 q stAbandoned
  · exact Undialled.refl _

theorem State.shed_undialled : Undialled s s.shed.2 :=
  List.foldlRecOn (allFin 64) shedStep (motive := fun acc : Nat × State => Undialled s acc.2) (Undialled.refl s)
    fun acc kept q _ => kept.trans (shedStep_undialled acc q)

theorem State.showsTo_undialled {f : Program → Program} (reservation : ∀ x, (f x).reservation = x.reservation) :
    Undialled s (s.showsTo f) := by
  refine ⟨fun q none => ?_, fun _ => Call.Kept.refl _, rfl, Returns.same rfl⟩
  unfold State.showsTo
  dsimp only
  rw [Tab.get_map]
  split
  · rw [reservation]
    exact none
  · exact none

theorem Program.offHold_reservation (x : Program) : x.offHold.reservation = x.reservation := by
  unfold Program.offHold
  split
  · exact (Program.startDuration_record _).2
  · rfl

theorem State.clearShow_undialled (subject : Nat) : Undialled s (s.clearShow subject) := by
  have returned : Undialled s s.queueReturned := s.forAll_undialled (fun _ t => t.requestReturn_undialled _ _) _
  have released : Undialled s ((s.queueReturned.modTheatre Theatre.emptied).sourcesReleased.modTheatre fun t =>
      { t with state := .idle, hold := none }) :=
    ((returned.trans (State.modTheatre_undialled _ _)).trans (State.forAll_undialled _
      (fun _ t => t.releaseChannel_undialled _) _)).trans (State.modTheatre_undialled _ _)
  rw [State.clearShow_eq]
  dsimp only
  generalize State.modTheatre _ _ = t at released
  refine Undialled.trans ?_ (State.emitNote_undialled _ _ _ _ _)
  split
  · exact released.trans (t.showsTo_undialled Program.offHold_reservation)
  · exact released

/-! ### Windows, trunks, changeovers and walks -/

theorem State.windowAt_undialled (o : Fin 256) : Undialled s (s.windowAt o) := by
  have entry (t : State) (f : AmbientEntry → AmbientEntry) : Undialled t (t.modAmbient o f) :=
    Undialled.same rfl rfl rfl (Returns.same rfl)
  have capture (t : State) : Undialled t (t.completeCapture o) := by
    unfold State.completeCapture
    dsimp only
    split
    · exact Undialled.refl t
    · next cap _ =>
      have taken : Undialled t ((t.modAmbient o fun a => { a with capture := none }).setBaseline o
          (t.ambient.outlets.get o).level) := Undialled.same rfl rfl rfl (Returns.same rfl)
      exact taken.trans (State.requestReturn_undialled _ _ _)
  unfold State.windowAt
  dsimp only
  refine Undialled.trans ?_ (entry _ _)
  split
  · exact Undialled.refl s
  · split
    · exact entry s _
    · split
      · exact Undialled.refl s
      · have smoothed : Undialled s ((s.modAmbient o fun a =>
            { a with level := smooth a.level (windowLevel a.sum s.ambient.length) (s.outlets.get o).smoothing }).recomputeC o) :=
          Undialled.same rfl rfl rfl (Returns.same rfl)
        split
        · exact smoothed.trans (capture _)
        · exact smoothed

theorem State.windowComplete_undialled : Undialled s s.windowComplete := by
  have cleared (t : State) : Undialled t { t with ambient := { t.ambient with position := 0 } } :=
    Undialled.same rfl rfl rfl (Returns.same rfl)
  unfold State.windowComplete
  split
  · dsimp only
    exact (s.forAll_undialled (fun o t => t.windowAt_undialled o) _).trans (cleared _)
  · exact Undialled.refl s

theorem State.modChangeover_undialled (x : Fin 8) (f : Changeover → Changeover) : Undialled s (s.modChangeover x f) :=
  Undialled.same rfl rfl rfl (Returns.same rfl)

theorem State.failChangeover_undialled (x : Fin 8) (reason : Nat) : Undialled s (s.failChangeover x reason) :=
  ((s.modChangeover_undialled x _).trans (State.setCause_undialled _ _)).trans (State.emitNote_undialled _ _ _ _ _)

theorem State.changeoverTrunkDown_undialled (x : Fin 8) : Undialled s (s.changeoverTrunkDown x) := by
  unfold State.changeoverTrunkDown
  split
  · exact s.failChangeover_undialled x 2
  · exact Undialled.same rfl rfl rfl (Returns.same rfl)
  · exact Undialled.refl s
  · exact Undialled.refl s

theorem State.answerExpired_undialled (k : Fin 4) : Undialled s (s.answerExpired k) := by
  unfold State.answerExpired
  dsimp only
  split
  · exact Undialled.same rfl rfl rfl (Returns.same rfl)
  · exact Undialled.refl s

theorem State.pendingExpired_undialled (x : Fin 8) : Undialled s (s.pendingExpired x) := by
  unfold State.pendingExpired
  dsimp only
  split
  · exact s.failChangeover_undialled x 1
  · exact Undialled.refl s

theorem State.releaseExpired_undialled (x : Fin 8) : Undialled s (s.releaseExpired x) := by
  unfold State.releaseExpired
  dsimp only
  split
  · exact ((s.modChangeover_undialled x _).trans (State.setCause_undialled _ _)).trans (State.emitNote_undialled _ _ _ _ _)
  · exact Undialled.refl s

theorem State.slotsDue_undialled : Undialled s s.slotsDue :=
  (s.forAll_undialled (fun x t => t.pendingExpired_undialled x) _).trans
    (State.forAll_undialled _ (fun x t => t.releaseExpired_undialled x) _)

theorem State.trainTrunk_undialled (k : Fin 4) : Undialled s (s.trainTrunk k) := by
  unfold State.trainTrunk
  split
  · exact Undialled.same rfl rfl rfl (Returns.same rfl)
  · exact Undialled.refl s

/-! ### The period -/

theorem State.mixed_undialled (audio : List (List Sample)) : Undialled s (s.mixed audio) := by
  obtain ⟨_, _, _, e⟩ := s.mixed_only audio
  rw [e]
  exact Undialled.same rfl rfl rfl (Returns.same rfl)

theorem State.sounded_undialled (audio : List (List Sample)) : Undialled s (s.sounded audio) := by
  have events := (s.mixed_undialled audio).trans
    (State.forAll_undialled (s.mixed audio) (fun c t => t.channelEvent_undialled s.gives c) (allFin 16))
  have asked (t : State) (f : Channel → Channel) : Undialled t { t with channels := t.channels.map f } :=
    Undialled.same rfl rfl rfl (Returns.same rfl)
  exact events.trans (asked _ _)

theorem State.mixPeriod_undialled (audio : List (List Sample)) : Undialled s (s.mixPeriod audio) := by
  rw [State.mixPeriod_fades]
  exact (s.sounded_undialled audio).trans (State.forAll_undialled _ (fun p t => t.fadeOut_undialled p) _)

end

end Sys2Proof.Machine

end

section
/-! PROOF. What a period leaves of the calls, the reservations and the hold timers (O48, O49). -/

open Sys2Proof Sys2Proof.Machine

namespace Sys2Proof.Machine

/-- A call that neither rings nor is active, after other acts: its state, page, record and final states, and all of it
where it is empty. -/
def Call.Files (x y : Call) : Prop := x.state ≠ .ringing → x.state ≠ .active →
  (y.state = x.state ∧ y.page = x.page ∧ y.record = x.record ∧ y.final = x.final) ∧ (x = {} → y = {})

theorem Call.Files.refl (x : Call) : x.Files x := fun _ _ => ⟨⟨rfl, rfl, rfl, rfl⟩, id⟩

theorem Call.Files.trans {x y z : Call} (h : x.Files y) (k : y.Files z) : x.Files z := fun ringing active => by
  obtain ⟨⟨state, page, record, final⟩, bare⟩ := h ringing active
  obtain ⟨⟨state', page', record', final'⟩, bare'⟩ := k (state ▸ ringing) (state ▸ active)
  exact ⟨⟨state'.trans state, page'.trans page, record'.trans record, final'.trans final⟩, fun none => bare' (bare none)⟩

/-- A station after other acts: its hold timer and its binding; one that is present stays so. -/
structure Station.Rests (x y : Station) : Prop where
  holdTimer : y.holdTimer = x.holdTimer
  binding : y.binding = x.binding
  present : x.state ≠ .undefined → x.state ≠ .lost → y.state ≠ .undefined ∧ y.state ≠ .lost

theorem Station.Rests.refl (x : Station) : x.Rests x := ⟨rfl, rfl, fun h k => ⟨h, k⟩⟩

theorem Station.Rests.trans {x y z : Station} (h : x.Rests y) (k : y.Rests z) : x.Rests z :=
  ⟨k.holdTimer.trans h.holdTimer, k.binding.trans h.binding, fun a b => k.present (h.present a b).1 (h.present a b).2⟩

/-- What the acts of a period leave of reservations and of the calls that are closed. -/
structure Filed (s t : State) : Prop where
  slots : ∀ q, (s.programs.get q).reservation = none → (t.programs.get q).reservation = none
  calls : ∀ c, (s.calls.get c).Files (t.calls.get c)

theorem Filed.refl (s : State) : Filed s s := ⟨fun _ => id, fun _ => Call.Files.refl _⟩

theorem Filed.trans {a b c : State} (h : Filed a b) (k : Filed b c) : Filed a c :=
  ⟨fun q x => k.slots q (h.slots q x), fun d => (h.calls d).trans (k.calls d)⟩

/-- The same, and of the stations, that none is lost. -/
structure Rested (s t : State) : Prop extends Filed s t where
  stations : ∀ n, (s.stations.get n).Rests (t.stations.get n)

theorem Rested.refl (s : State) : Rested s s := ⟨Filed.refl s, fun _ => Station.Rests.refl _⟩

theorem Rested.trans {a b c : State} (h : Rested a b) (k : Rested b c) : Rested a c :=
  ⟨h.toFiled.trans k.toFiled, fun n => (h.stations n).trans (k.stations n)⟩

theorem Undialled.rested {s t : State} (h : Undialled s t) : Rested s t where
  slots := h.slots
  calls c ringing active := by
    have same := (h.calls c).still ringing active
    exact same ▸ ⟨⟨rfl, rfl, rfl, rfl⟩, id⟩
  stations n := by
    rw [h.stations]
    exact Station.Rests.refl _

section
variable (s : State)

theorem State.forAll_rested {β : Type} {f : β → State → State} (each : ∀ x s, Rested s (f x s)) (xs : List β) :
    Rested s (s.forAll xs f) := by
  induction xs generalizing s with
  | nil => exact Rested.refl s
  | cons x xs ih =>
    rw [State.forAll_cons]
    exact (each x s).trans (ih _)

theorem State.modCall_rested (c : Fin 16) {f : Call → Call} (files : (s.calls.get c).Files (f (s.calls.get c))) :
    Rested s (s.modCall c f) := by
  refine ⟨⟨fun _ => id, fun d => ?_⟩, fun _ => Station.Rests.refl _⟩
  rw [State.modCall_calls, Tab.get_modify]
  split
  · next same =>
    subst same
    exact files
  · exact Call.Files.refl _

/-- The call of a live page or party may change. -/
theorem Call.Files.of_live {x y : Call} (live : x.state = .ringing ∨ x.state = .active) : x.Files y :=
  fun ringing active => absurd live (not_or.mpr ⟨ringing, active⟩)

/-- The parties of a call may change, but not appear. -/
theorem State.modParties_rested (c : Fin 16) (f : List Party → List Party) (none : f [] = []) :
    Rested s (s.modCall c fun call => { call with parties := f call.parties }) :=
  s.modCall_rested c fun _ _ => ⟨⟨rfl, rfl, rfl, rfl⟩, fun bare => by rw [bare]; simp [none]⟩

theorem State.modParty_rested (c : Fin 16) (i : Fin 8) (f : Party → Party) : Rested s (s.modParty c i f) :=
  s.modParties_rested c (fun ps => ps.modify i.val f) (by simp)

theorem State.modStation_rested (n : Fin 64) {f : Station → Station} (rests : (s.stations.get n).Rests (f (s.stations.get n))) :
    Rested s (s.modStation n f) := by
  refine ⟨⟨fun _ => id, fun _ => Call.Files.refl _⟩, fun m => ?_⟩
  rw [State.modStation_stations, Tab.get_modify]
  split
  · next same =>
    subst same
    exact rests
  · exact Station.Rests.refl _

theorem State.idleStation_rested (n : Fin 64) : Rested s (s.idleStation n) :=
  s.modStation_rested n ⟨rfl, rfl, fun _ _ => ⟨nofun, nofun⟩⟩

theorem State.releaseRing_rested : Rested s s.releaseRing := by
  unfold State.releaseRing
  split
  · exact Rested.refl s
  · exact (s.releaseVoice_undialled _).rested

/-! ### Placement -/

theorem State.evicted_rested (w : Owner) : Rested s (s.evicted w) := by
  unfold State.evicted
  split
  · next p =>
    dsimp only
    split
    · have fewer : Rested s (s.modProgram p fun pr => { pr with admitted := pr.admitted - 1 }) :=
        (s.modProgram_undialled p fun none => none).rested
      split
      · exact fewer.trans (State.endProgram_undialled _ _ _).rested
      · exact fewer.trans (Undialled.of (State.gatherTest_steady (Steady.refl _) _)
          (State.gatherTest_quiet (Quiet.refl _) _)).rested
    · exact Rested.refl s
  · next c i => exact s.modParties_rested c (fun ps => ps.modify i.val _) (by simp)

theorem State.place_rested (c : Claim) (o : Fin 256) : Rested s (s.place c o).2 := by
  unfold State.place
  dsimp only
  split
  · exact Rested.refl s
  · split
    · exact (s.restack_undialled o _).rested
    · split
      · split
        · exact (s.restack_undialled o _).rested.trans (State.evicted_rested _ _)
        · exact Rested.refl s
      · exact Rested.refl s

theorem State.placeAll_rested (c : Claim) (test : State → Fin 256 → Bool) (os : List (Fin 256)) :
    Rested s (s.placeAll c test os).2 := by
  unfold State.placeAll
  refine List.foldlRecOn os _ (motive := fun acc : Nat × State => Rested s acc.2) (Rested.refl s) fun acc kept o _ => ?_
  split
  · exact kept.trans (State.place_rested _ _ _)
  · exact kept

theorem State.gatherExpired_undialled (p : Fin 64) : Undialled s (s.gatherExpired p) := by
  unfold State.gatherExpired
  dsimp only
  split
  · have stopped : Undialled s (s.modProgram p fun pr => { pr with gatherTimer := none }) :=
      s.modProgram_undialled p fun none => none
    split
    · exact stopped.trans (State.endProgram_undialled _ _ _)
    · exact stopped.trans (State.chimeStep_undialled _ _)
  · exact Undialled.refl s

theorem State.afterPlacing_undialled (p : Fin 64) : Undialled s (s.afterPlacing p) := by
  unfold State.afterPlacing
  dsimp only
  split
  · have tested : Undialled s ((s.modProgram p fun pr => { pr with gatherTimer := some pr.gatherTimeout }).gatherTest p) :=
      (s.modProgram_undialled p fun none => none).trans (Undialled.of (State.gatherTest_steady (Steady.refl _) _)
        (State.gatherTest_quiet (Quiet.refl _) _))
    split
    · exact tested.trans (State.gatherExpired_undialled _ p)
    · exact tested
  · exact s.chimeStep_undialled p
  · exact s.chimeStep_undialled p

theorem State.launch_rested (p : Fin 64) : Rested s (s.launch p none) := by
  have counted (n : Nat) (t : State) : Rested t (t.modProgram p fun pr => { pr with admitted := n }) :=
    (t.modProgram_undialled p fun none => none).rested
  unfold State.launch
  dsimp only
  split
  · exact ((s.placeAll_rested _ _ _).trans (counted _ _)).trans (State.endProgram_undialled _ _ _).rested
  · exact ((s.placeAll_rested _ _ _).trans (counted _ _)).trans (State.afterPlacing_undialled _ _).rested

/-! ### Arrival numbers -/

theorem rankIn_zero (ns : List Nat) : rankIn ns 0 = 0 := by simp [rankIn]

theorem State.renumber_rested : Rested s s.renumber := by
  refine ⟨⟨fun q none => ?_, fun c => ?_⟩, fun _ => Station.Rests.refl _⟩
  · unfold State.renumber
    dsimp only
    rw [Tab.get_map]
    exact none
  · unfold State.renumber
    dsimp only
    rw [Tab.get_map]
    refine fun _ _ => ⟨⟨rfl, rfl, rfl, rfl⟩, fun bare => ?_⟩
    rw [bare]
    simp [rankIn_zero]

theorem State.issueArrival_rested : Rested s s.issueArrival.2 := by
  have counted (t : State) : Rested t { t with claims := { t.claims with arrivals := t.claims.arrivals + 1 } } :=
    ⟨⟨fun _ => id, fun _ => Call.Files.refl _⟩, fun _ => Station.Rests.refl _⟩
  unfold State.issueArrival
  dsimp only
  split
  · exact s.renumber_rested.trans (counted _)
  · exact counted s

theorem State.issueArrival_callState (c : Fin 16) : (s.issueArrival.2.calls.get c).state = (s.calls.get c).state := by
  unfold State.issueArrival State.renumber
  dsimp only
  split
  · dsimp only
    rw [Tab.get_map]
  · rfl

/-! ### The acts on a call -/

theorem State.startPage_rested {c : Fin 16} (active : (s.calls.get c).state = .active) : Rested s (s.startPage c) := by
  unfold State.startPage
  dsimp only
  split
  · next g own =>
    split
    · exact Rested.refl s
    · have issued := s.issueArrival_rested
      have still := (s.issueArrival_callState c).trans active
      generalize s.issueArrival = u at issued still
      have live {f : Call → Call} : Rested u.2 (u.2.modCall c f) := u.2.modCall_rested c (Call.Files.of_live (.inr still))
      exact ((issued.trans live).trans (State.modProgram_undialled _ _ fun none => none).rested).trans (State.launch_rested _ _)
  · exact Rested.refl s

theorem State.clearParty_rested (c : Fin 16) (i : Fin 8) : Rested s (s.clearParty c i) := by
  unfold State.clearParty
  split
  · split
    · exact (s.modParty_rested c i _).trans (State.idleStation_rested _ _)
    · exact Rested.refl s
  · exact Rested.refl s

theorem State.unclaimParty_rested (c : Fin 16) (i : Fin 8) : Rested s (s.unclaimParty c i) := by
  unfold State.unclaimParty
  split
  · exact (s.modParty_rested c i _).trans (State.removeClaim_undialled _ _ _).rested
  · exact Rested.refl s

theorem State.enterClearing_rested {c : Fin 16} (live : (s.calls.get c).state = .ringing ∨ (s.calls.get c).state = .active) :
    Rested s (s.enterClearing c) := by
  have left : Rested s (((s.modCall c fun call => { call with state := .clearing, final := call.parties.map Party.finalByte }).forAll
      (allFin 8) (State.clearParty c)).forAll (allFin 8) (State.unclaimParty c)) :=
    ((s.modCall_rested c (Call.Files.of_live live)).trans (State.forAll_rested _ (fun i t => t.clearParty_rested c i) _)).trans
      (State.forAll_rested _ (fun i t => t.unclaimParty_rested c i) _)
  unfold State.enterClearing
  dsimp only
  refine Rested.trans ?_ (State.releaseRing_rested _)
  split
  · split
    · exact left.trans (State.endProgram_undialled _ _ _).rested
    · exact left
  · exact left

theorem State.examine_rested (c : Fin 16) : Rested s (s.examine c) := by
  have goes (live : (s.calls.get c).state = .ringing ∨ (s.calls.get c).state = .active) : Rested s
      (if (s.calls.get c).anchorGone || ((s.calls.get c).parties.filter Party.live).length < 2 then s.enterClearing c
      else if 2 ≤ ((s.calls.get c).parties.filter fun p => p.state == .connected).length then
        if (s.calls.get c).everActive then s.modCall c fun call => { call with state := .active, everActive := true }
        else (s.modCall c fun call => { call with state := .active, everActive := true }).startPage c
      else s.modCall c fun call => { call with state := .ringing }) := by
    have mod {f : Call → Call} : Rested s (s.modCall c f) := s.modCall_rested c (Call.Files.of_live live)
    split_ifs
    · exact s.enterClearing_rested live
    · exact mod
    · refine mod.trans (State.startPage_rested _ ?_)
      rw [State.modCall_calls, Tab.get_modify_self]
    · exact mod
  unfold State.examine
  dsimp only
  split
  · exact Rested.refl s
  · exact Rested.refl s
  · next ringing => exact goes (.inl ringing)
  · next active => exact goes (.inr active)

theorem State.endParty_rested (c : Fin 16) (i : Fin 8) (st : PartyState) : Rested s (s.endParty c i st) := by
  unfold State.endParty
  split
  · exact Rested.refl s
  · dsimp only
    split
    · exact (s.modParty_rested c i _).trans (State.removeClaim_undialled _ _ _).rested
    · exact s.modParty_rested c i _

theorem State.ringExpired_rested (c : Fin 16) (i : Fin 8) : Rested s (s.ringExpired c i) := by
  unfold State.ringExpired
  split
  · split
    · exact (((s.endParty_rested c i _).trans (State.idleStation_rested _ _)).trans (State.releaseRing_rested _)).trans
        (State.examine_rested _ c)
    · exact Rested.refl s
  · exact Rested.refl s

/-- A station that is not LOST or UNDEFINED becomes LOST. -/
def Station.loses (x : Station) : Station := { x with state := .lost, holdTimer := none, call := none }

/-- A loss changes the station it is of, and then no other's hold timer. -/
theorem State.stationLost_rested (n : Fin 64) : (((s.stations.get n).state = .undefined ∨ (s.stations.get n).state = .lost) ∧
    s.stationLost n = s) ∨ Rested (s.modStation n Station.loses) (s.stationLost n) := by
  have lost (t : State) (x : Option (Fin 16)) : Rested t (match x with
      | some c => match t.partyOf c n with
        | some i => ((t.endParty c i .lost).releaseRing).examine c
        | none => t
      | none => t) := by
    split
    · split
      · exact ((t.endParty_rested _ _ _).trans (State.releaseRing_rested _)).trans (State.examine_rested _ _)
      · exact Rested.refl t
    · exact Rested.refl t
  unfold State.stationLost
  dsimp only
  split
  · next state => exact .inl ⟨.inl state, rfl⟩
  · next state => exact .inl ⟨.inr state, rfl⟩
  all_goals exact .inr (lost (s.modStation n Station.loses) _)

theorem State.stationLost_filed (n : Fin 64) : Filed s (s.stationLost n) := by
  rcases s.stationLost_rested n with ⟨-, e⟩ | rested
  · rw [e]
    exact Filed.refl s
  · exact Filed.trans (b := s.modStation n Station.loses) ⟨fun _ => id, fun _ => Call.Files.refl _⟩ rested.toFiled

/-- A call becomes FREE. -/
theorem State.freeCall_eq (c : Fin 16) : s.freeCall c =
    (let u := match (s.calls.get c).page with
      | some g => s.modProgram g.slot fun pr => { pr with reservation := none }
      | none => s
    match (s.calls.get c).record with
    | some r => (u.modCall c fun _ => {}).requestReturn .call
        { record := r, status := marked 0x08 r.mark
          results := [(28, ((s.calls.get c).final ++ List.replicate 8 0).take 8)] }
    | none => u.modCall c fun _ => {}) := by
  unfold State.freeCall
  rfl

/-- What a call's becoming FREE does to the rest. -/
theorem State.freeCall_freed (c : Fin 16) : ∃ programs lists, s.freeCall c = { s with
      programs, lists, calls := s.calls.modify c fun _ => {} } ∧
    (∀ q, (s.programs.get q).reservation = none → (programs.get q).reservation = none) ∧
    (∀ g, (s.calls.get c).page = some g → (programs.get g.slot).reservation = none) ∧ Returns s { s with lists } ∧
    ∀ r, (s.calls.get c).record = some r → ({ s with lists } : State).returns .call
      { record := r, status := marked 0x08 r.mark
        results := [(28, ((s.calls.get c).final ++ List.replicate 8 0).take 8)] } := by
  have cleared : ∃ programs, (match (s.calls.get c).page with
      | some g => s.modProgram g.slot fun pr => { pr with reservation := none }
      | none => s) = { s with programs } ∧
      (∀ q, (s.programs.get q).reservation = none → (programs.get q).reservation = none) ∧
      ∀ g, (s.calls.get c).page = some g → (programs.get g.slot).reservation = none := by
    cases (s.calls.get c).page with
    | none => exact ⟨_, rfl, fun _ => id, nofun⟩
    | some g =>
      refine ⟨_, rfl, fun q none => ?_, fun g' own => ?_⟩
      · rw [Tab.get_modify]
        split
        · rfl
        · exact none
      · rw [← Option.some.inj own, Tab.get_modify_self]
  obtain ⟨programs, e, kept, clear⟩ := cleared
  rw [State.freeCall_eq]
  dsimp only
  rw [e]
  cases (s.calls.get c).record with
  | none => exact ⟨programs, s.lists, rfl, kept, clear, Returns.refl s, nofun⟩
  | some r =>
    dsimp only
    have waits := State.requestReturn_waits (({ s with programs } : State).modCall c fun _ => {}) .call
      { record := r, status := marked 0x08 r.mark
        results := [(28, ((s.calls.get c).final ++ List.replicate 8 0).take 8)] }
    have returns := State.requestReturn_returns (({ s with programs } : State).modCall c fun _ => {}) .call
      { record := r, status := marked 0x08 r.mark
        results := [(28, ((s.calls.get c).final ++ List.replicate 8 0).take 8)] }
    obtain ⟨lists, e'⟩ := State.requestReturn_only (({ s with programs } : State).modCall c fun _ => {}) .call
      { record := r, status := marked 0x08 r.mark
        results := [(28, ((s.calls.get c).final ++ List.replicate 8 0).take 8)] }
    rw [e'] at waits returns ⊢
    refine ⟨programs, lists, rfl, kept, clear, ?_, fun r' own => ?_⟩
    · exact (Returns.same rfl).trans (returns.trans (Returns.same rfl))
    · rw [← Option.some.inj own]
      exact Returns.same (s := { (({ s with programs } : State).modCall c fun _ => {}) with lists }) rfl _ _ waits

/-! ### FALLBACK -/

theorem State.startMic_rested : Rested s s.startMic := by
  rcases s.startMic_cases with e | ⟨i, n, e⟩
  · rw [e]
    exact Rested.refl s
  · have begun : Rested s (s.micBegun i) :=
      s.issueArrival_rested.trans (State.modProgram_undialled _ micSlot fun none => none).rested
    have placed : Rested s (s.micPlaced i) := begun.trans (State.forAll_rested _ (fun o t => t.place_rested _ o) _)
    rw [e]
    exact placed.trans (State.modProgram_undialled _ micSlot fun none => none).rested

theorem State.beatExpired_rested : Rested s s.beatExpired := by
  unfold State.beatExpired
  split
  · have fallen : Rested s s.fallen := ⟨⟨fun _ => id, fun _ => Call.Files.refl _⟩, fun _ => Station.Rests.refl _⟩
    rw [State.enterFallback_eq]
    exact ((((fallen.trans (State.clearShow_undialled _ 1).rested).trans (State.shed_undialled _).rested).trans
      (State.startMic_rested _)).trans (State.setCause_undialled _ _).rested).trans (State.emitNote_undialled _ _ _ _ _).rested
  · exact Rested.refl s

end

end Sys2Proof.Machine

end

section
/-! PROOF. A call that is CLEARING becomes FREE at the period start (O48), and what of hold timers expires there (O49). -/

open Sys2Proof Sys2Proof.Machine

namespace Sys2Proof.Machine

section
variable {s : State}

/-! ### The calls up to the latch -/

theorem State.forAll_filed {β : Type} {f : β → State → State} (each : ∀ x s, Filed s (f x s)) (xs : List β) (s : State) :
    Filed s (s.forAll xs f) := by
  induction xs generalizing s with
  | nil => exact Filed.refl s
  | cons x xs ih =>
    rw [State.forAll_cons]
    exact (each x s).trans (ih _)

theorem State.leaveUp_filed (k : Fin 4) (s : State) : Filed s (s.leaveUp k) := by
  have loops (o : Fin 256) (t : State) : Filed t (State.setLoopState o (t.modLoop o fun x =>
      { x with capture := x.capture.map fun c => { c with count := 0, sum := 0 } })) :=
    ⟨fun _ => id, fun _ => Call.Files.refl _⟩
  have down {f : Trunk → Trunk} : Filed s (s.modTrunk k f) := ⟨fun _ => id, fun _ => Call.Files.refl _⟩
  unfold State.leaveUp
  dsimp only
  exact (((((down.trans (State.forAll_filed (fun n t => t.stationLost_filed n) _ _)).trans
    (State.forAll_filed loops _ _)).trans (State.forAll_filed (fun x t => (t.changeoverTrunkDown_undialled x).rested.toFiled) _ _)).trans
      (State.emitNote_undialled _ _ _ _ _).rested.toFiled).trans (State.setCause_undialled _ _).rested.toFiled)

theorem State.linksDue_filed (s : State) : Filed s s.linksDue := by
  have sync (k : Fin 4) (t : State) : Filed t (t.syncExpired k) := by
    unfold State.syncExpired
    dsimp only
    split
    · exact t.leaveUp_filed k
    · exact Filed.refl t
  exact (((State.forAll_undialled s (fun v t => t.segmentEnd_undialled v) _).rested.toFiled.trans
    (State.windowComplete_undialled _).rested.toFiled).trans (State.forAll_filed sync _ _)).trans
      (State.forAll_undialled _ (fun k t => t.answerExpired_undialled k) _).rested.toFiled

theorem State.ringsExpired_rested (c : Fin 16) (s : State) : Rested s (s.ringsExpired c) :=
  State.forAll_rested s (fun i t => t.ringExpired_rested c i) _

theorem State.partiesDue_filed (s : State) : Filed s s.partiesDue := by
  have hold (n : Fin 64) (t : State) : Filed t (t.holdExpired n) := by
    unfold State.holdExpired
    dsimp only
    split
    · exact (t.stationLost_filed n).trans (State.emitNote_undialled _ _ _ _ _).rested.toFiled
    · exact Filed.refl t
  exact (((State.forAll_filed hold _ s).trans (State.forAll_rested _ (fun c t => t.ringsExpired_rested c) _).toFiled).trans
    (State.forAll_undialled _ (fun p t => t.gatherDue_undialled p) _).rested.toFiled).trans
      (State.forAll_undialled _ (fun p t => t.durationExpired_undialled p) _).rested.toFiled

theorem State.scanExpired_rested (l : ListId) (s : State) : Rested s (s.scanExpired l) := by
  obtain ⟨_, e⟩ := s.scanExpired_lists l
  rw [e]
  exact ⟨⟨fun _ => id, fun _ => Call.Files.refl _⟩, fun _ => Station.Rests.refl _⟩

theorem State.settleDue_filed (s : State) : Filed s s.settleDue := by
  rw [State.settleDue_eq]
  exact (((s.linksDue_filed.trans (State.slotsDue_undialled _).rested.toFiled).trans (State.partiesDue_filed _)).trans
    (State.beatExpired_rested _).toFiled).trans (State.forAll_rested _ State.scanExpired_rested _).toFiled

theorem State.stepTimers_filed (s : State) : Filed s s.stepTimers := by
  refine ⟨fun q none => ?_, fun c => ?_⟩
  · unfold State.stepTimers
    dsimp only
    rw [Tab.get_map]
    exact none
  · unfold State.stepTimers
    dsimp only
    rw [Tab.get_map]
    refine fun _ _ => ⟨⟨rfl, rfl, rfl, rfl⟩, fun bare => ?_⟩
    rw [bare]
    rfl

/-! ### The calls that become FREE -/

/-- The return of a call that clears. -/
def Call.cleared (x : Call) (r : RecRef) : Return :=
  { record := r, status := marked 0x08 r.mark, results := [(28, (x.final ++ List.replicate 8 0).take 8)] }

/-- Call `c`, which was `x`, is FREE. -/
structure Freed (c : Fin 16) (x : Call) (t : State) : Prop where
  empty : t.calls.get c = {}
  slot : ∀ g, x.page = some g → (t.programs.get g.slot).reservation = none
  returned : ∀ r, x.record = some r → t.returns .call (x.cleared r)

theorem Freed.kept {c : Fin 16} {x : Call} {t : State} (freed : Freed c x s) (kept : Undialled s t) : Freed c x t where
  empty := by
    have same := (kept.calls c).still (by rw [freed.empty]; nofun) (by rw [freed.empty]; nofun)
    rw [same]
    exact freed.empty
  slot g own := kept.slots _ (freed.slot g own)
  returned r own := kept.returns _ _ (freed.returned r own)

theorem State.freeCleared_not {c : Fin 16} (other : (s.calls.get c).state ≠ .clearing) : s.freeCleared c = s :=
  if_neg fun same => other (beq_iff_eq.mp same)

/-- Another call's becoming FREE. -/
theorem State.freeCleared_other (s : State) {c d : Fin 16} (other : d ≠ c) :
    (s.freeCleared d).calls.get c = s.calls.get c ∧
    (∀ q, (s.programs.get q).reservation = none → ((s.freeCleared d).programs.get q).reservation = none) ∧
    Returns s (s.freeCleared d) ∧ (s.freeCleared d).stations = s.stations := by
  unfold State.freeCleared
  split
  · obtain ⟨programs, lists, e, kept, -, returns, -⟩ := s.freeCall_freed d
    rw [e]
    refine ⟨Tab.get_modify_ne _ other.symm _, kept, returns.trans (Returns.same rfl), rfl⟩
  · exact ⟨rfl, fun _ => id, Returns.refl s, rfl⟩

theorem Freed.freeCleared {c : Fin 16} {x : Call} (freed : Freed c x s) (d : Fin 16) : Freed c x (s.freeCleared d) := by
  by_cases same : d = c
  · rw [State.freeCleared_not (by rw [same, freed.empty]; nofun)]
    exact freed
  · obtain ⟨empty, slots, returns, -⟩ := s.freeCleared_other same
    exact ⟨empty.trans freed.empty, fun g own => slots _ (freed.slot g own), fun r own => returns _ _ (freed.returned r own)⟩

theorem State.freeCleared_own {c : Fin 16} (clearing : (s.calls.get c).state = .clearing) :
    Freed c (s.calls.get c) (s.freeCleared c) := by
  obtain ⟨programs, lists, e, -, clear, -, waits⟩ := s.freeCall_freed c
  have ran : s.freeCleared c = s.freeCall c := if_pos (beq_iff_eq.mpr clearing)
  rw [ran, e]
  exact ⟨Tab.get_modify_self .., clear, fun r own => Returns.same (s := { s with lists }) rfl _ _ (waits r own)⟩

theorem State.forAll_freeCleared {c : Fin 16} {cs : List (Fin 16)} (mem : c ∈ cs) (once : cs.Nodup) (s : State)
    (clearing : (s.calls.get c).state = .clearing) : Freed c (s.calls.get c) (s.forAll cs State.freeCleared) := by
  induction cs generalizing s with
  | nil => nomatch mem
  | cons d cs ih =>
    rw [State.forAll_cons]
    rcases List.mem_cons.mp mem with rfl | mem
    · have freed := s.freeCleared_own clearing
      have rest : ∀ (ds : List (Fin 16)) (t : State), Freed c (s.calls.get c) t →
          Freed c (s.calls.get c) (t.forAll ds State.freeCleared) := fun ds => by
        induction ds with
        | nil => exact fun t freed => freed
        | cons d ds ih =>
          intro t freed
          rw [State.forAll_cons]
          exact ih _ (freed.freeCleared d)
      exact rest cs _ freed
    · have other : d ≠ c := fun same => (List.nodup_cons.mp once).1 (same ▸ mem)
      obtain ⟨same, -⟩ := s.freeCleared_other other
      have freed := ih mem (List.nodup_cons.mp once).2 (s.freeCleared d) (by rw [same]; exact clearing)
      rw [same] at freed
      exact freed

/-! ### Grants through a period -/

theorem State.granted_framed : Framed fun s : State => s.port.grant.map (·.transfer) where
  acts act := act.granted
  ambient _ _ := rfl
  trunk _ _ _ := rfl
  loop _ _ _ := rfl

theorem State.beforeLatch_granted (s : State) :
    s.beforeLatch.port.grant.map (·.transfer) = s.port.grant.map (·.transfer) :=
  State.granted_framed.beforeLatch (fun _ _ _ => rfl) (fun _ => rfl) (fun _ => rfl)
    (fun l s => by
      obtain ⟨_, e⟩ := s.scanExpired_lists l
      rw [e]) s

theorem State.channelEvent_acts (gave : Tab 16 ChanEvent) (c : Fin 16) (s : State) : Acts s (s.channelEvent gave c) := by
  unfold State.channelEvent
  split
  · exact Acts.refl s
  · split
    · exact s.channelStarves_acts c
    · exact Acts.refl s
  · split
    · exact s.channelCompletes_acts c
    · exact Acts.refl s

theorem State.mixPeriod_granted (audio : List (List Sample)) (s : State) :
    (s.mixPeriod audio).port.grant.map (·.transfer) = s.port.grant.map (·.transfer) := by
  have mixed : (s.mixed audio).port = s.port := by
    obtain ⟨_, _, _, e⟩ := s.mixed_only audio
    rw [e]
  have fades (p : Fin 64) (t : State) : (t.fadeOut p).port.grant.map (·.transfer) = t.port.grant.map (·.transfer) := by
    unfold State.fadeOut
    split
    · exact (State.endProgram_quiet (Quiet.refl t) p stStopped).granted
    · rfl
  have events := State.forAll_view (view := fun s : State => s.port.grant.map (·.transfer))
    (fun c t => (t.channelEvent_acts s.gives c).granted) (allFin 16) (s.mixed audio)
  rw [State.mixPeriod_fades]
  refine (State.forAll_view (view := fun s : State => s.port.grant.map (·.transfer)) fades _ _).trans ?_
  exact events.trans (by rw [mixed])

theorem State.period_granted {s : State} (audio : List (List Sample)) (busy : s.port.grant ≠ none) :
    (s.beforeLatch.mixPeriod audio).port.grant ≠ none := fun none =>
  busy (Option.map_eq_none_iff.mp (((s.beforeLatch.mixPeriod_granted audio).trans s.beforeLatch_granted).symm.trans
    (Option.map_eq_none_iff.mpr none)))

/-- What a period does from the acts on the calls in CLEARING on. -/
theorem State.afterClearing_undialled (s : State) (audio : List (List Sample)) :
    Undialled s ((s.showStep.forAll (allFin 8) State.startVoice).mixPeriod audio) :=
  ((s.showStep_shown.undialled).trans (State.forAll_undialled _ (fun v t => t.startVoice_undialled v) _)).trans
    (State.mixPeriod_undialled _ audio)

end

end Sys2Proof.Machine

/-- The first part of O48. -/
theorem cleared_call (s : State) (audio : List (List Sample)) (c : Fin 16) :
    let call := s.calls.get c
    call.state = .clearing → ∃ t, exec (.mixPeriodStart audio) s = .next t ∧ t.calls.get c = {} ∧
      (∀ g, call.page = some g → (t.programs.get g.slot).reservation = none) ∧
      ∀ r, call.record = some r → s.port.grant ≠ none → t.returns .call
        { record := r, status := marked 0x08 r.mark
          results := [(28, (call.final ++ List.replicate 8 0).take 8)] } := by
  intro call clearing
  refine ⟨_, exec_mixPeriodStart s audio, ?_⟩
  have filed : Filed s (s.settleDue.stepTimers.forAll (allFin 4) State.trainTrunk) :=
    (s.settleDue_filed.trans (State.stepTimers_filed _)).trans
      (State.forAll_undialled _ (fun k t => t.trainTrunk_undialled k) _).rested.toFiled
  have ran : s.beforeLatch = ((s.settleDue.stepTimers.forAll (allFin 4) State.trainTrunk).forAll (allFin 16)
      State.freeCleared).showStep.forAll (allFin 8) State.startVoice := by
    rw [State.beforeLatch_eq]
    rfl
  have still := s.period_granted audio
  rw [ran] at still ⊢
  generalize s.settleDue.stepTimers.forAll (allFin 4) State.trainTrunk = u at filed still
  obtain ⟨⟨state, page, record, final⟩, -⟩ := filed.calls c (by rw [clearing]; nofun) (by rw [clearing]; nofun)
  have freed := (u.forAll_freeCleared (mem_allFin c) (allFin_nodup 16) (state.trans clearing)).kept
    (State.afterClearing_undialled _ audio)
  generalize State.mixPeriod audio _ = t at freed still
  refine ⟨?_, fun g own => ?_, fun r own busy => ?_⟩
  · rw [State.arbitrate_calls]
    exact freed.empty
  · rw [State.arbitrate_programs]
    exact freed.slot g (page.trans own)
  · have waits := freed.returned r (record.trans own)
    unfold Call.cleared at waits
    rw [final] at waits
    exact State.returns_arbitrate (still busy) waits

end

section
/-! PROOF. ADD_PARTY, DROP_PARTY and CLOSE_CALL (O48), on the rules of the Intercom Unit's acts. -/

open Sys2Proof Sys2Proof.Machine

namespace Sys2Proof.Machine

theorem Tab.modify_eq_set {n : Nat} {α : Type} (t : Tab n α) (i : Fin n) (f : α → α) : t.modify i f = t.set i (f (t.get i)) := by
  refine Tab.ext_get fun j => ?_
  rw [Tab.get_modify, Tab.get_set]
  split
  · next same => rw [same]
  · rfl

theorem Tab.modify_set {n : Nat} {α : Type} (t : Tab n α) (i : Fin n) (x : α) (f : α → α) : (t.set i x).modify i f = t.set i (f x) := by
  refine Tab.ext_get fun j => ?_
  rw [Tab.get_modify, Tab.get_set, Tab.get_set]
  split <;> rfl

section
variable {s : State}

/-! ### The examination of a call (R125) -/

/-- An ACTIVE call that goes on. -/
structure Call.goesOn (x : Call) : Prop where
  active : x.state = .active
  ever : x.everActive = true
  anchored : x.anchorGone = false
  connected : 2 ≤ (x.parties.filter fun p => p.state == .connected).length

theorem Call.connected_live (x : Call) :
    (x.parties.filter fun p => p.state == .connected).length ≤ (x.parties.filter Party.live).length := by
  refine List.Sublist.length_le ?_
  have both : (x.parties.filter fun p => p.state == .connected) =
      (x.parties.filter Party.live).filter fun p => p.state == .connected := by
    rw [List.filter_filter]
    refine List.filter_congr fun p _ => ?_
    unfold Party.live
    cases p.state <;> rfl
  rw [both]
  exact List.filter_sublist

theorem State.examine_goesOn {c : Fin 16} (goes : (s.calls.get c).goesOn) : s.examine c = s := by
  obtain ⟨active, ever, anchored, connected⟩ := goes
  have live := (s.calls.get c).connected_live
  unfold State.examine
  dsimp only
  rw [active]
  dsimp only
  rw [anchored, if_neg (by simp; omega), if_pos connected, ever, if_pos rfl]
  unfold State.modCall
  have same : s.calls.modify c (fun call => { call with state := .active, everActive := true }) = s.calls := by
    refine (Tab.modify_congr _ _ (h := ?_)).trans (Tab.modify_id s.calls c)
    generalize s.calls.get c = x at active ever
    cases x
    subst active
    subst ever
    rfl
  rw [same]

/-! ### The ring voice -/

theorem State.giveVoice_tones (s : State) (v : Fin 8) (u : VoiceUser) (p : Fin 12) :
    ∃ tones, s.giveVoice v u p = { s with tones } := by
  unfold State.giveVoice State.leaveOwing
  dsimp only
  split <;> exact ⟨_, rfl⟩

theorem State.releaseVoice_tones (s : State) (u : VoiceUser) : ∃ tones, s.releaseVoice u = { s with tones } := by
  unfold State.releaseVoice State.leaveOwing
  split
  · dsimp only
    split <;> exact ⟨_, rfl⟩
  · exact ⟨_, rfl⟩

theorem State.askRing_tones (s : State) : ∃ tones, s.askRing = { s with tones } := by
  unfold State.askRing
  split
  · exact ⟨_, rfl⟩
  · split
    · exact s.giveVoice_tones _ _ _
    · exact ⟨_, rfl⟩

theorem State.releaseRing_tones (s : State) : ∃ tones, s.releaseRing = { s with tones } := by
  unfold State.releaseRing
  split
  · exact ⟨_, rfl⟩
  · exact s.releaseVoice_tones _

/-! ### A party leaves its call (R121, R123, R126) -/

/-- A party that has left its call in a state. -/
def Party.leaves (p : Party) (st : PartyState) : Party := { p with state := st, ringTimer := none, claim := none }

theorem State.removeClaim_calls (s : State) (w : Owner) (o : Fin 256) : (s.removeClaim w o).calls = s.calls :=
  (State.removeClaim_steady (Steady.refl s) w o).calls

theorem State.removeClaim_stations (s : State) (w : Owner) (o : Fin 256) : (s.removeClaim w o).stations = s.stations :=
  (s.removeClaim_undialled w o).stations

theorem List.modify_of_getElem? {α : Type} {xs : List α} {i : Nat} {x : α} (found : xs[i]? = some x) (f : α → α) :
    xs.modify i f = xs.set i (f x) := by
  refine List.ext_getElem? fun j => ?_
  rw [List.getElem?_modify, List.getElem?_set]
  by_cases same : i = j
  · subst same
    obtain ⟨short, e⟩ := List.getElem?_eq_some_iff.mp found
    simp [short, e]
  · simp [same]

theorem State.modParty_of {c : Fin 16} {i : Fin 8} {p : Party} (found : (s.calls.get c).parties[i.val]? = some p)
    (f : Party → Party) : s.modParty c i f = { s with
      calls := s.calls.set c { s.calls.get c with parties := (s.calls.get c).parties.set i.val (f p) } } := by
  unfold State.modParty State.modCall
  rw [Tab.modify_eq_set, List.modify_of_getElem? found]

theorem State.modStation_eq (s : State) (n : Fin 64) (f : Station → Station) :
    s.modStation n f = { s with stations := s.stations.set n (f (s.stations.get n)) } := by
  unfold State.modStation
  rw [Tab.modify_eq_set]

/-- What the end of a party in a call leaves of the rest. -/
structure PartyEnded (s t : State) (c : Fin 16) (i : Fin 8) (p : Party) (st : PartyState) : Prop where
  untouched : Quiet s t
  calls : t.calls = s.calls.set c { s.calls.get c with parties := (s.calls.get c).parties.set i.val (p.leaves st) }
  gone : ∀ o, p.claim = some o → hasOwner (.party c i) (t.stack o) = false
  stack : ∀ o, p.claim ≠ some o → t.stack o = s.stack o

theorem State.endParty_ended {c : Fin 16} {i : Fin 8} {p : Party} (found : (s.calls.get c).parties[i.val]? = some p)
    (st : PartyState) : PartyEnded s (s.endParty c i st) c i p st := by
  have left := State.modParty_of found fun p => { p with state := st, ringTimer := none, claim := none }
  have quiet : Quiet s (s.modParty c i fun p => { p with state := st, ringTimer := none, claim := none }) :=
    State.modCall_quiet (Quiet.refl s) c _
  unfold State.endParty
  rw [found]
  dsimp only
  cases claim : p.claim with
  | none => exact ⟨quiet, by dsimp only; rw [left]; rfl, by rw [claim]; nofun, fun o _ => by dsimp only; rw [left]; rfl⟩
  | some o =>
    refine ⟨State.removeClaim_quiet quiet _ o, ?_, fun x own => ?_, fun x other => ?_⟩
    · dsimp only
      rw [State.removeClaim_calls, left]
      rfl
    · rw [← Option.some.inj (claim.symm.trans own)]
      exact State.removeClaim_gone _ _ _
    · dsimp only
      rw [State.removeClaim_stack_ne _ _ (fun same => other (claim.trans (congrArg some same.symm))), left]
      rfl

/-- A party leaves an ACTIVE call that goes on. -/
structure PartyLeft (s t : State) (c : Fin 16) (i : Fin 8) (p : Party) (st : PartyState) : Prop where
  untouched : Untouched s t
  calls : t.calls = s.calls.set c { s.calls.get c with parties := (s.calls.get c).parties.set i.val (p.leaves st) }
  stations : t.stations = s.stations.set p.station { s.stations.get p.station with state := .idle, call := none }
  gone : ∀ o, p.claim = some o → hasOwner (.party c i) (t.stack o) = false
  stack : ∀ o, p.claim ≠ some o → t.stack o = s.stack o

theorem State.leaves_of {c : Fin 16} {i : Fin 8} {p : Party} (found : (s.calls.get c).parties[i.val]? = some p) {st : PartyState}
    (goes : ({ s.calls.get c with parties := (s.calls.get c).parties.set i.val (p.leaves st) } : Call).goesOn) :
    PartyLeft s (((((s.endParty c i st).idleStation p.station).releaseRing).examine c)) c i p st := by
  obtain ⟨untouched, calls, gone, stack⟩ := State.endParty_ended found st
  generalize s.endParty c i st = t at untouched calls gone stack
  obtain ⟨tones, e⟩ := (t.idleStation p.station).releaseRing_tones
  have kept : (((t.idleStation p.station).releaseRing).calls.get c).goesOn := by
    rw [e]
    change (t.calls.get c).goesOn
    rw [calls, Tab.get_set, if_pos rfl]
    exact goes
  rw [State.examine_goesOn kept, e]
  have rung : Untouched t { (t.idleStation p.station) with tones } := by constructor <;> rfl
  refine ⟨untouched.toUntouched.trans rung, calls, ?_, gone, stack⟩
  unfold State.idleStation
  rw [State.modStation_eq, untouched.stations]

/-! ### A record's own return -/

/-- A reply after an act. -/
structure Answered (u t : State) (l : ListId) (h : Hand) (code : Nat) (results : List (Nat × List Byte)) : Prop where
  untouched : Untouched u t
  stage : (t.walker l).stage = .returnWrite h { record := h.ref false, status := code, results } false
  calls : t.calls = u.calls
  claims : t.claims = u.claims
  programs : t.programs = u.programs
  stations : t.stations = u.stations

theorem State.reply_answered (u : State) (l : ListId) (h : Hand) (code : Nat) (results : List (Nat × List Byte)) :
    Answered u (u.reply l h code false results).arbitrate l h code results where
  untouched := (State.reply_quiet (Quiet.refl u) l h code false results).toUntouched.trans (State.arbitrate_untouched _)
  stage := by
    unfold State.walker
    rw [State.arbitrate_walkers]
    exact State.reply_stage u l h code false results
  calls := by rw [State.arbitrate_calls]; rfl
  claims := by rw [State.arbitrate_claims]; rfl
  programs := by rw [State.arbitrate_programs]; rfl
  stations := by rw [State.arbitrate_stations]; rfl

theorem Answered.stack {u t : State} {l : ListId} {h : Hand} {code : Nat} {results : List (Nat × List Byte)}
    (answered : Answered u t l h code results) (o : Fin 256) : t.stack o = u.stack o := by
  unfold State.stack
  rw [answered.claims]

/-! ### A party joins (R119, R120) -/

theorem State.issueArrival_below (below : s.claims.arrivals < 4294967295) :
    s.issueArrival = (s.claims.arrivals, { s with claims := { s.claims with arrivals := s.claims.arrivals + 1 } }) := by
  unfold State.issueArrival
  rw [if_neg (by omega)]

theorem Station.joinsAs_idle {x : Station} {ring : Bool} (idle : x.state = .idle) (quiet : ring = false ∨ x.offHook = true) :
    x.joinsAs ring = .connected := by
  unfold Station.joinsAs
  rw [idle]
  rcases quiet with e | e <;> simp [e]

theorem Station.joinsAs_busy {x : Station} (ring : Bool) (other : x.state ≠ .idle) : x.joinsAs ring = .busy := by
  unfold Station.joinsAs
  match state : x.state with
  | .idle => exact absurd state other
  | .undefined | .ringing | .inCall | .lost => rfl

/-- A party as it joins. -/
def newParty (n : Fin 64) (ring : Bool) (talk listen arrival : Nat) (state : PartyState) (ringTimer : Option Nat) : Party :=
  { station := n, ring, talk, listen, state, outletLost := false, ringTimer, arrival, claim := none }

theorem State.joinParty_busy {c : Fin 16} {n : Fin 64} {ring : Bool} {talk listen arrival : Nat}
    (room : (s.calls.get c).parties.length < 8) (other : (s.stations.get n).state ≠ .idle) :
    s.joinParty c n ring talk listen arrival = s.modCall c fun call =>
      { call with parties := call.parties ++ [newParty n ring talk listen arrival .busy none] } := by
  unfold State.joinParty
  dsimp only
  rw [show toFin? 8 (s.calls.get c).parties.length = some ⟨_, room⟩ from toFin?_eq_some_iff.mpr rfl]
  dsimp only
  rw [Station.joinsAs_busy ring other]
  rfl

/-- A party that joins CONNECTED, before its claim. -/
def State.seated (c : Fin 16) (n : Fin 64) (ring : Bool) (talk listen arrival : Nat) (s : State) : State :=
  (s.modCall c fun call =>
    { call with parties := call.parties ++ [newParty n ring talk listen arrival .connected none] }).modStation n fun x =>
      { x with state := .inCall, call := some c }

theorem State.joinParty_connected {c : Fin 16} {n : Fin 64} {ring : Bool} {talk listen arrival : Nat} {i : Fin 8}
    (room : (s.calls.get c).parties.length = i.val) (idle : (s.stations.get n).state = .idle)
    (quiet : ring = false ∨ (s.stations.get n).offHook = true) :
    s.joinParty c n ring talk listen arrival = (s.seated c n ring talk listen arrival).placeParty c i n arrival := by
  unfold State.joinParty State.seated
  dsimp only
  rw [show toFin? 8 (s.calls.get c).parties.length = some i from toFin?_eq_some_iff.mpr room]
  dsimp only
  rw [Station.joinsAs_idle idle quiet, if_neg (by decide)]
  rfl

theorem State.placeParty_room {c : Fin 16} {i : Fin 8} {n : Fin 64} {arrival : Nat} {b : Fin 256 × Fin 256}
    (bound : (s.stations.get n).binding = some b) (takes : (s.outlets.get b.2).kind.takesClaims = true)
    (absent : hasOwner (.party c i) (s.stack b.2) = false) (room : (s.stack b.2).length < 8) :
    s.placeParty c i n arrival = (s.restack b.2 (insertClaim (partyClaim c i (s.calls.get c).priority arrival)
      (s.stack b.2))).modParty c i fun p => { p with claim := some b.2 } := by
  unfold State.placeParty
  rw [bound]
  dsimp only
  rw [State.place_room takes absent room]
  rfl

/-! ### A call enters CLEARING (R128) -/

/-- A party cleared with its call: LEFT where it was live. -/
def Party.drop (p : Party) : Party := if p.live then { p with state := .left, ringTimer := none } else p

/-- The parties at some indices change alike. -/
def modifyAll (f : Party → Party) (is : List (Fin 8)) (ps : List Party) : List Party := is.foldl (fun ps i => ps.modify i.val f) ps

theorem modifyAll_get (f : Party → Party) {is : List (Fin 8)} (once : is.Nodup) (ps : List Party) (i : Fin 8) :
    (modifyAll f is ps)[i.val]? = if i ∈ is then ps[i.val]?.map f else ps[i.val]? := by
  induction is generalizing ps with
  | nil => rfl
  | cons j is ih =>
    obtain ⟨new, once⟩ := List.nodup_cons.mp once
    have step : modifyAll f (j :: is) ps = modifyAll f is (ps.modify j.val f) := rfl
    rw [step, ih once, List.getElem?_modify]
    by_cases same : j = i
    · subst same
      rw [if_neg new, if_pos (List.mem_cons_self ..)]
      simp
    · have apart : j.val ≠ i.val := fun e => same (Fin.ext e)
      simp [apart, Ne.symm same]

theorem modifyAll_length (f : Party → Party) (is : List (Fin 8)) (ps : List Party) : (modifyAll f is ps).length = ps.length := by
  induction is generalizing ps with
  | nil => rfl
  | cons j is ih => exact (ih _).trans (List.length_modify ..)

/-- All of up to eight parties. -/
theorem modifyAll_eq (f : Party → Party) {ps : List Party} (short : ps.length ≤ 8) : modifyAll f (allFin 8) ps = ps.map f := by
  refine List.ext_getElem? fun j => ?_
  rw [List.getElem?_map]
  by_cases inside : j < 8
  · exact (modifyAll_get f (allFin_nodup 8) ps ⟨j, inside⟩).trans (if_pos (mem_allFin _))
  · rw [List.getElem?_eq_none (by rw [modifyAll_length]; omega), List.getElem?_eq_none (by omega)]
    rfl

/-- A station in no call. -/
def Station.idled (x : Station) : Station := { x with state := .idle, call := none }

/-- Calls and stations once parties of call `c` have been cleared: the parties dropped, each live one's station IDLE, the
others' as they were. -/
structure Dropped (s t : State) (c : Fin 16) (is : List (Fin 8)) : Prop where
  only : ∃ calls stations, t = { s with calls, stations }
  calls : t.calls = s.calls.modify c fun x => { x with parties := modifyAll Party.drop is x.parties }
  idle : ∀ i ∈ is, ∀ p, (s.calls.get c).parties[i.val]? = some p → p.live = true →
    t.stations.get p.station = (s.stations.get p.station).idled
  kept : ∀ n, (∀ i ∈ is, ∀ p, (s.calls.get c).parties[i.val]? = some p → p.live = true → p.station ≠ n) →
    t.stations.get n = s.stations.get n

theorem State.clearParty_eq (s : State) (c : Fin 16) (i : Fin 8) : s.clearParty c i = { s with
    calls := s.calls.modify c fun x => { x with parties := x.parties.modify i.val Party.drop }
    stations := match (s.calls.get c).parties[i.val]? with
      | some p => if p.live then s.stations.modify p.station Station.idled else s.stations
      | none => s.stations } := by
  have same (f : Party → Party) (e : (s.calls.get c).parties.modify i.val f = (s.calls.get c).parties) :
      s.calls.modify c (fun x => { x with parties := x.parties.modify i.val f }) = s.calls := by
    refine (Tab.modify_congr _ _ (h := ?_)).trans (Tab.modify_id s.calls c)
    rw [e]
    rfl
  unfold State.clearParty
  cases found : (s.calls.get c).parties[i.val]? with
  | none =>
    dsimp only
    rw [same Party.drop]
    rw [List.modify_eq_self (by simpa using found)]
  | some p =>
    have drops : (s.calls.get c).parties.modify i.val Party.drop = (s.calls.get c).parties.set i.val p.drop :=
      List.modify_of_getElem? found _
    dsimp only
    split
    · next live =>
      have dropped : s.calls.modify c (fun x => { x with parties := x.parties.modify i.val Party.drop }) =
          s.calls.modify c fun x => { x with parties := x.parties.modify i.val fun p => { p with state := .left, ringTimer := none } } := by
        refine Tab.modify_congr _ _ (h := ?_)
        rw [drops, List.modify_of_getElem? found]
        unfold Party.drop
        rw [if_pos live]
      rw [dropped]
      rfl
    · next dead =>
      rw [same Party.drop]
      rw [drops]
      unfold Party.drop
      rw [if_neg dead]
      obtain ⟨inside, e⟩ := List.getElem?_eq_some_iff.mp found
      rw [← e, List.set_getElem_self]

theorem State.forAll_clearParty (c : Fin 16) {is : List (Fin 8)} (once : is.Nodup) (s : State) :
    Dropped s (s.forAll is (State.clearParty c)) c is := by
  induction is generalizing s with
  | nil =>
    refine ⟨⟨_, _, rfl⟩, ?_, nofun, fun _ _ => rfl⟩
    exact (Tab.modify_id s.calls c).symm
  | cons i is ih =>
    obtain ⟨new, once⟩ := List.nodup_cons.mp once
    have first := s.clearParty_eq c i
    obtain ⟨only, calls, idle, kept⟩ := ih once (s.clearParty c i)
    have others (j : Fin 8) (mem : j ∈ is) :
        ((s.clearParty c i).calls.get c).parties[j.val]? = (s.calls.get c).parties[j.val]? := by
      have apart : i.val ≠ j.val := fun e => new (Fin.ext e ▸ mem)
      rw [first]
      dsimp only
      rw [Tab.get_modify_self, List.getElem?_modify]
      simp [apart]
    have station (n : Fin 64) : (s.clearParty c i).stations.get n =
        if ∃ p, (s.calls.get c).parties[i.val]? = some p ∧ p.live = true ∧ p.station = n then (s.stations.get n).idled
        else s.stations.get n := by
      rw [first]
      dsimp only
      cases found : (s.calls.get c).parties[i.val]? with
      | none => simp
      | some p =>
        dsimp only
        split
        · next live =>
          rw [Tab.get_modify]
          refine if_congr ⟨fun same => ⟨p, rfl, live, same.symm⟩, fun ⟨q, same, _, at_⟩ => ?_⟩ rfl rfl
          rw [Option.some.inj same]
          exact at_.symm
        · next dead =>
          refine (if_neg ?_).symm
          rintro ⟨q, same, live, -⟩
          rw [← Option.some.inj same] at live
          exact dead live
    rw [State.forAll_cons]
    refine ⟨?_, ?_, fun j mem p found live => ?_, fun n none => ?_⟩
    · obtain ⟨_, _, e⟩ := only
      rw [e, first]
      exact ⟨_, _, rfl⟩
    · rw [calls, first]
      dsimp only
      rw [Tab.modify_modify]
      rfl
    · by_cases again : ∃ k ∈ is, ∃ q, (s.calls.get c).parties[k.val]? = some q ∧ q.live = true ∧ q.station = p.station
      · obtain ⟨k, mem', q, found', live', same⟩ := again
        have rests := idle k mem' q ((others k mem').trans found') live'
        rw [same, station] at rests
        rw [rests]
        split <;> rfl
      · have rests := kept p.station fun k mem' q found' live' same =>
          again ⟨k, mem', q, (others k mem').symm.trans found', live', same⟩
        rcases List.mem_cons.mp mem with rfl | mem
        · rw [rests, station, if_pos ⟨p, found, live, rfl⟩]
        · exact absurd ⟨j, mem, p, found, live, rfl⟩ again
    · rw [kept n fun k mem q found live => none k (List.mem_cons_of_mem _ mem) q ((others k mem).symm.trans found) live, station,
        if_neg fun ⟨p, found, live, same⟩ => none i (List.mem_cons_self ..) p found live same]

/-- A party without its claim. -/
def Party.unclaimed (p : Party) : Party := { p with claim := none }

theorem State.unclaimParty_calls (s : State) (c : Fin 16) (i : Fin 8) : (s.unclaimParty c i).calls =
    s.calls.modify c fun x => { x with parties := x.parties.modify i.val Party.unclaimed } := by
  have same (e : (s.calls.get c).parties.modify i.val Party.unclaimed = (s.calls.get c).parties) :
      s.calls.modify c (fun x => { x with parties := x.parties.modify i.val Party.unclaimed }) = s.calls := by
    refine (Tab.modify_congr _ _ (h := ?_)).trans (Tab.modify_id s.calls c)
    rw [e]
    rfl
  unfold State.unclaimParty
  cases found : (s.calls.get c).parties[i.val]? with
  | none =>
    rw [same (List.modify_eq_self (by simpa using found))]
    rfl
  | some p =>
    cases claim : p.claim with
    | none =>
      rw [same ?_]
      · rw [Option.bind_some, claim]
      · obtain ⟨inside, e⟩ := List.getElem?_eq_some_iff.mp found
        have bare : p.unclaimed = p := by
          unfold Party.unclaimed
          rw [← claim]
        rw [List.modify_of_getElem? found, bare, ← e, List.set_getElem_self]
    | some o =>
      rw [Option.bind_some, claim]
      exact State.removeClaim_calls _ _ _

theorem State.unclaimParty_stations (s : State) (c : Fin 16) (i : Fin 8) : (s.unclaimParty c i).stations = s.stations := by
  unfold State.unclaimParty
  split
  · exact State.removeClaim_stations _ _ _
  · rfl

theorem State.forAll_unclaimParty (c : Fin 16) (is : List (Fin 8)) (s : State) :
    (s.forAll is (State.unclaimParty c)).calls =
      (s.calls.modify c fun x => { x with parties := modifyAll Party.unclaimed is x.parties }) ∧
    (s.forAll is (State.unclaimParty c)).stations = s.stations := by
  induction is generalizing s with
  | nil => exact ⟨(Tab.modify_id s.calls c).symm, rfl⟩
  | cons i is ih =>
    obtain ⟨calls, stations⟩ := ih (s.unclaimParty c i)
    rw [State.forAll_cons]
    refine ⟨?_, stations.trans (s.unclaimParty_stations c i)⟩
    rw [calls, State.unclaimParty_calls, Tab.modify_modify]
    rfl

/-- A call as it is CLEARING. -/
def Call.clears (x : Call) : Call :=
  { x with
    state := .clearing, final := x.parties.map Party.finalByte
    parties := modifyAll Party.unclaimed (allFin 8) (modifyAll Party.drop (allFin 8) x.parties) }

/-- What a call's entry to CLEARING leaves. -/
structure Clears (s t : State) (c : Fin 16) : Prop where
  acts : Acts s t
  call : t.calls.get c = (s.calls.get c).clears
  others : ∀ d, d ≠ c → (s.calls.get d).Kept (t.calls.get d)
  alone : (∀ g, (s.calls.get c).page = some g → g.state ≠ .running) → ∀ d, d ≠ c → t.calls.get d = s.calls.get d
  idle : ∀ p ∈ (s.calls.get c).parties, (s.calls.get c).parties.length ≤ 8 → p.live = true →
    t.stations.get p.station = (s.stations.get p.station).idled
  kept : ∀ n, (∀ (i : Fin 8) p, (s.calls.get c).parties[i.val]? = some p → p.live = true → p.station ≠ n) →
    t.stations.get n = s.stations.get n

/-- A call marked CLEARING, its parties dropped and their claims removed. -/
def State.disbanded (c : Fin 16) (s : State) : State :=
  ((s.modCall c fun call => { call with state := .clearing, final := call.parties.map Party.finalByte }).forAll (allFin 8)
    (State.clearParty c)).forAll (allFin 8) (State.unclaimParty c)

/-- The end of a clearing call's page. -/
def State.pageStopped (c : Fin 16) (s : State) : State :=
  match (s.calls.get c).page with
  | some g => if g.state == PageState.running then s.endProgram g.slot stStopped else s
  | none => s

theorem State.enterClearing_eq (s : State) (c : Fin 16) : s.enterClearing c = ((s.disbanded c).pageStopped c).releaseRing := by
  unfold State.enterClearing State.disbanded State.pageStopped
  dsimp only
  -- In one text with the model the two sides are the same already; as a module of its own they are not.
  all_goals
    generalize State.forAll (allFin 8) (State.unclaimParty c) _ = t
    rfl

theorem State.pageStopped_undialled (s : State) (c : Fin 16) : Undialled s (s.pageStopped c) := by
  unfold State.pageStopped
  split
  · split
    · exact s.endProgram_undialled _ _
    · exact Undialled.refl s
  · exact Undialled.refl s

theorem State.pageStopped_not {c : Fin 16} (quiet : ∀ g, (s.calls.get c).page = some g → g.state ≠ .running) :
    s.pageStopped c = s := by
  unfold State.pageStopped
  split
  · next g page => exact if_neg fun running => quiet g page (beq_iff_eq.mp running)
  · rfl

theorem State.disbanded_calls (s : State) (c : Fin 16) :
    (s.disbanded c).calls = s.calls.set c (s.calls.get c).clears := by
  obtain ⟨-, calls, -, -⟩ := State.forAll_clearParty c (allFin_nodup 8)
    (s.modCall c fun call => { call with state := .clearing, final := call.parties.map Party.finalByte })
  unfold State.disbanded
  rw [(State.forAll_unclaimParty c (allFin 8) _).1, calls, State.modCall_calls, Tab.modify_modify, Tab.modify_modify,
    Tab.modify_eq_set]
  rfl

theorem State.disbanded_stations (s : State) (c : Fin 16) :
    (∀ p ∈ (s.calls.get c).parties, (s.calls.get c).parties.length ≤ 8 → p.live = true →
      (s.disbanded c).stations.get p.station = (s.stations.get p.station).idled) ∧
    ∀ n, (∀ (i : Fin 8) p, (s.calls.get c).parties[i.val]? = some p → p.live = true → p.station ≠ n) →
      (s.disbanded c).stations.get n = s.stations.get n := by
  obtain ⟨-, -, idle, kept⟩ := State.forAll_clearParty c (allFin_nodup 8)
    (s.modCall c fun call => { call with state := .clearing, final := call.parties.map Party.finalByte })
  have own : ((s.modCall c fun call =>
      { call with state := .clearing, final := call.parties.map Party.finalByte }).calls.get c).parties =
      (s.calls.get c).parties := by
    rw [State.modCall_calls, Tab.get_modify_self]
  rw [own] at idle kept
  unfold State.disbanded
  rw [(State.forAll_unclaimParty c (allFin 8) _).2]
  refine ⟨fun p mem short live => ?_, fun n none => kept n fun i _ p found live => none i p found live⟩
  obtain ⟨j, inside, found⟩ := List.mem_iff_getElem.mp mem
  exact idle ⟨j, by omega⟩ (mem_allFin _) p (List.getElem?_eq_some_iff.mpr ⟨inside, found⟩) live

theorem State.enterClearing_clears (s : State) (c : Fin 16) : Clears s (s.enterClearing c) c := by
  have acts := State.enterClearing_acts (Acts.refl s) c
  have calls := s.disbanded_calls c
  have stations := s.disbanded_stations c
  rw [State.enterClearing_eq] at acts ⊢
  generalize s.disbanded c = t at acts calls stations
  have now : t.calls.get c = (s.calls.get c).clears := by rw [calls, Tab.get_set, if_pos rfl]
  have rest (d : Fin 16) (other : d ≠ c) : t.calls.get d = s.calls.get d := by rw [calls, Tab.get_set, if_neg other]
  have ended := t.pageStopped_undialled c
  have quiet (none : ∀ g, (s.calls.get c).page = some g → g.state ≠ .running) : t.pageStopped c = t :=
    State.pageStopped_not (by rw [now]; exact none)
  generalize t.pageStopped c = e at acts ended quiet
  obtain ⟨tones, rung⟩ := e.releaseRing_tones
  rw [rung] at acts ⊢
  refine ⟨acts, ?_, fun d other => ?_, fun none d other => ?_, fun p mem short live => ?_, fun n none => ?_⟩
  · exact ((ended.calls c).still (by rw [now]; nofun) (by rw [now]; nofun)).trans now
  · exact rest d other ▸ ended.calls d
  · dsimp only
    rw [quiet none]
    exact rest d other
  · dsimp only
    rw [ended.stations]
    exact stations.1 p mem short live
  · dsimp only
    rw [ended.stations]
    exact stations.2 n none

end

end Sys2Proof.Machine

end

section
/-! PROOF. ADD_PARTY, DROP_PARTY and CLOSE_CALL (O48). -/

open Sys2Proof Sys2Proof.Machine

namespace Sys2Proof.Machine

theorem List.filter_append_length {α : Type} (f : α → Bool) (xs ys : List α) :
    (xs.filter f).length ≤ ((xs ++ ys).filter f).length := by
  rw [List.filter_append, List.length_append]
  omega

/-- A call goes on with one more party. -/
theorem Call.goesOn.joined {x : Call} (goes : x.goesOn) (p : Party) (inside : x.anchor < x.parties.length) :
    ({ x with parties := x.parties ++ [p] } : Call).goesOn where
  active := goes.active
  ever := goes.ever
  anchored := by
    have same := goes.anchored
    unfold Call.anchorGone at same ⊢
    dsimp only
    rw [List.getElem?_append_left inside]
    exact same
  connected := le_trans goes.connected (List.filter_append_length _ _ _)

/-- One connected party leaves. -/
theorem filter_set_length {ps : List Party} {i : Nat} {p : Party} (found : ps[i]? = some p) (q : Party) (f : Party → Bool) :
    (ps.filter f).length ≤ ((ps.set i q).filter f).length + 1 := by
  obtain ⟨inside, e⟩ := List.getElem?_eq_some_iff.mp found
  have whole : ps = ps.take i ++ p :: ps.drop (i + 1) := by
    rw [← e, List.getElem_cons_drop inside, List.take_append_drop]
  have changed : ps.set i q = ps.take i ++ q :: ps.drop (i + 1) := by
    rw [List.set_eq_take_append_cons_drop, if_pos inside]
  have count : (ps.filter f).length ≤ ((ps.take i).filter f).length + ((ps.drop (i + 1)).filter f).length + 1 := by
    conv_lhs => rw [whole]
    rw [List.filter_append, List.length_append, List.filter_cons]
    split
    · rw [List.length_cons]
      omega
    · omega
  have count' : ((ps.take i).filter f).length + ((ps.drop (i + 1)).filter f).length ≤ ((ps.set i q).filter f).length := by
    rw [changed, List.filter_append, List.length_append, List.filter_cons]
    split
    · rw [List.length_cons]
      omega
    · omega
  omega

/-- An ACTIVE call goes on without one of its parties. -/
theorem Call.goesOn.left {x : Call} {i : Nat} {p q : Party} (active : x.state = .active) (ever : x.everActive = true)
    (found : x.parties[i]? = some p) (other : x.anchor ≠ i) (anchored : x.anchorGone = false)
    (connected : 2 ≤ ((x.parties.set i q).filter fun p => p.state == .connected).length) :
    ({ x with parties := x.parties.set i q } : Call).goesOn where
  active := active
  ever := ever
  anchored := by
    unfold Call.anchorGone at anchored ⊢
    dsimp only
    rw [List.getElem?_set_ne other.symm]
    exact anchored
  connected := connected

theorem Tab.set_get_eq {n : Nat} {α : Type} (t : Tab n α) (i : Fin n) {x : α} (same : t.get i = x) : t.set i x = t := by
  refine Tab.ext_get fun j => ?_
  rw [Tab.get_set]
  split
  · next here => rw [here, same]
  · rfl

section
variable {s : State} {h : Hand}

/-- The party of a record joins, and the ring is asked for where it rings. -/
def State.admitted (c : Fin 16) (n : Fin 64) (r : AddRec) (s : State) : State :=
  let index := (s.calls.get c).parties.length
  let t := s.issueArrival.2.joinParty c n r.ring r.talk r.listen s.issueArrival.1
  if ((t.calls.get c).parties[index]?).any fun p => p.state == .ringing then t.askRing else t

theorem State.addRecord_bad (bad : 16 ≤ (addRec h.bytes).call ∨ 64 ≤ (addRec h.bytes).station) :
    s.addRecord h = s.reply .call h stBadField false [(16, bytes1 255)] := by
  unfold State.addRecord
  dsimp only
  rcases bad with high | high
  · rw [(toFin?_eq_none_iff ..).mpr high]
  · rw [(toFin?_eq_none_iff ..).mpr high]
    split
    · next found => nomatch found
    · rfl

theorem State.addRecord_of {c : Fin 16} {n : Fin 64} (slot : (addRec h.bytes).call = c.val) (own : (addRec h.bytes).station = n.val) :
    s.addRecord h =
      if (s.stations.get n).binding = none then s.reply .call h stBadField false [(16, bytes1 255)]
      else if (s.calls.get c).state = .free ∨ (s.calls.get c).state = .clearing then
        s.reply .call h stNotActive false [(16, bytes1 255)]
      else if 8 ≤ (s.calls.get c).parties.length then s.reply .call h stBadField false [(16, bytes1 255)]
      else ((s.admitted c n (addRec h.bytes)).examine c).reply .call h stDone false
        [(16, bytes1 (s.calls.get c).parties.length)] := by
  unfold State.addRecord State.admitted
  dsimp only
  rw [toFin?_eq_some_iff.mpr slot, toFin?_eq_some_iff.mpr own]
  simp only [Option.isNone_iff_eq_none, Bool.or_eq_true, beq_iff_eq]

/-- A party that does not ring joins without a ring. -/
theorem State.admitted_quiet {c : Fin 16} {n : Fin 64} {r : AddRec}
    (quiet : ∀ p, ((s.issueArrival.2.joinParty c n r.ring r.talk r.listen s.issueArrival.1).calls.get c).parties[(s.calls.get
      c).parties.length]? = some p → p.state ≠ .ringing) :
    s.admitted c n r = s.issueArrival.2.joinParty c n r.ring r.talk r.listen s.issueArrival.1 := by
  unfold State.admitted
  refine if_neg fun rings => ?_
  obtain ⟨p, found, state⟩ := (Option.any_eq_true _ _).mp rings
  exact quiet p found (beq_iff_eq.mp state)

/-- A party joins CONNECTED, with its claim in a stack that has room. -/
structure Joined (s t : State) (c : Fin 16) (i : Fin 8) (n : Fin 64) (o : Fin 256) (p : Party) : Prop where
  acts : Acts s t
  calls : t.calls = s.calls.set c { s.calls.get c with parties := (s.calls.get c).parties ++ [{ p with claim := some o }] }
  stations : t.stations = s.stations.set n { s.stations.get n with state := .inCall, call := some c }
  others : ∀ y, y ≠ o → t.stack y = s.stack y
  seat : t.stack o = nameStack (s.lockFloor o) (insertClaim (partyClaim c i (s.calls.get c).priority p.arrival) (s.stack o))

theorem State.joinParty_joined {c : Fin 16} {i : Fin 8} {n : Fin 64} {ring : Bool} {talk listen arrival : Nat}
    {j o : Fin 256} (room : (s.calls.get c).parties.length = i.val) (idle : (s.stations.get n).state = .idle)
    (quiet : ring = false ∨ (s.stations.get n).offHook = true) (bound : (s.stations.get n).binding = some (j, o))
    (takes : (s.outlets.get o).kind.takesClaims = true) (absent : hasOwner (.party c i) (s.stack o) = false)
    (short : (s.stack o).length < 8) :
    Joined s (s.joinParty c n ring talk listen arrival) c i n o (newParty n ring talk listen arrival .connected none) := by
  have acts := State.joinParty_acts (Acts.refl s) c n ring talk listen arrival
  have binding : ((s.seated c n ring talk listen arrival).stations.get n).binding = some (j, o) := by
    unfold State.seated
    rw [State.modStation_stations, Tab.get_modify_self]
    exact bound
  have priority : ((s.seated c n ring talk listen arrival).calls.get c).priority = (s.calls.get c).priority := by
    unfold State.seated
    rw [State.modStation_calls, State.modCall_calls, Tab.get_modify_self]
  have parties : ((s.seated c n ring talk listen arrival).calls.get c).parties = (s.calls.get c).parties ++
      [newParty n ring talk listen arrival .connected none] := by
    unfold State.seated
    rw [State.modStation_calls, State.modCall_calls, Tab.get_modify_self]
  have calls : (s.seated c n ring talk listen arrival).calls = s.calls.modify c fun call =>
      { call with parties := call.parties ++ [newParty n ring talk listen arrival .connected none] } := rfl
  have stations : (s.seated c n ring talk listen arrival).stations =
      s.stations.modify n fun x => { x with state := .inCall, call := some c } := rfl
  have joined := (State.joinParty_connected (talk := talk) (listen := listen) (arrival := arrival) room idle quiet).trans
    (State.placeParty_room binding takes absent short)
  have still := (State.restack_steady (Steady.refl (s.seated c n ring talk listen arrival)) o (insertClaim (partyClaim c i
    ((s.seated c n ring talk listen arrival).calls.get c).priority arrival) (s.stack o))).calls
  have stays := (s.seated c n ring talk listen arrival).restack_stations o (insertClaim (partyClaim c i
    ((s.seated c n ring talk listen arrival).calls.get c).priority arrival) (s.stack o))
  have stack := (s.seated c n ring talk listen arrival).restack_stack o (insertClaim (partyClaim c i
    ((s.seated c n ring talk listen arrival).calls.get c).priority arrival) (s.stack o))
  have same : (s.seated c n ring talk listen arrival).stack o = s.stack o := rfl
  have others (y : Fin 256) : (s.seated c n ring talk listen arrival).stack y = s.stack y := rfl
  have floor : (s.seated c n ring talk listen arrival).lockFloor o = s.lockFloor o := rfl
  rw [joined] at acts ⊢
  rw [same, priority] at acts ⊢
  rw [priority] at still stays stack
  generalize State.restack o _ (s.seated c n ring talk listen arrival) = t at acts still stays stack ⊢
  refine ⟨acts, ?_, ?_, fun y other => ?_, ?_⟩
  · have last : (t.calls.get c).parties[i.val]? = some (newParty n ring talk listen arrival .connected none) := by
      rw [still, parties, ← room, List.getElem?_append_right (le_refl _)]
      simp
    rw [State.modParty_of last, still]
    dsimp only
    rw [calls, Tab.get_modify_self, Tab.modify_eq_set, ← room]
    refine Tab.ext_get fun d => ?_
    simp only [Tab.get_set]
    split
    · simp
    · rfl
  · change t.stations = _
    rw [stays, stations, Tab.modify_eq_set]
  · change t.stack y = _
    rw [stack, if_neg other, others]
  · change t.stack o = _
    rw [stack, if_pos rfl, floor]
    rfl

end

end Sys2Proof.Machine

/-- The second part of O48: ADD_PARTY. -/
theorem party_added (s : State) (h : Hand) (b : List (List Byte)) :
    let r := addRec h.bytes
    let refused (code : Nat) :=
      exec .addParty s = .next (s.reply .call h code false [(16, [0xFF])]).arbitrate
    (s.walker .call).stage = .handOver h b → h.kind = 0x21 →
      (16 ≤ r.call ∨ 64 ≤ r.station → refused 0x11) ∧
      ∀ (c : Fin 16) (n : Fin 64), r.call = c.val → r.station = n.val →
        let call := s.calls.get c
        let x := s.stations.get n
        let index := call.parties.length
        let party : Party :=
          { station := n, ring := r.ring, talk := r.talk, listen := r.listen, state := .busy, outletLost := false
            ringTimer := none, arrival := s.claims.arrivals, claim := none }
        (x.binding = none → refused 0x11) ∧
        (x.binding ≠ none → (call.state = .free ∨ call.state = .clearing) → refused 0x17) ∧
        (x.binding ≠ none → call.state ≠ .free → call.state ≠ .clearing → 8 ≤ index → refused 0x11) ∧
        (∀ i o, x.binding = some (i, o) → call.state = .active → call.everActive = true → index < 8 →
          call.anchor < index → call.anchorGone = false → 2 ≤ (call.parties.filter (·.state == .connected)).length →
          s.claims.arrivals < 4294967295 →
            (x.state ≠ .idle → ∃ t, exec .addParty s = .next t ∧ Untouched s t ∧
              (t.walker .call).stage = .returnWrite h
                { record := h.ref false, status := 0x02, results := [(16, [BitVec.ofNat 8 index])] } false ∧
              t.calls = s.calls.set c { call with parties := call.parties ++ [party] } ∧
              t.claims = { s.claims with arrivals := s.claims.arrivals + 1 } ∧ t.stations = s.stations ∧
              t.programs = s.programs) ∧
            (x.state = .idle → (r.ring = false ∨ x.offHook = true) → (s.outlets.get o).kind = .station →
              hasOwner (.party c ⟨index % 8, Nat.mod_lt _ (by decide)⟩) (s.stack o) = false → (s.stack o).length < 8 →
                ∃ t, exec .addParty s = .next t ∧ Untouched s t ∧
                  (t.walker .call).stage = .returnWrite h
                    { record := h.ref false, status := 0x02, results := [(16, [BitVec.ofNat 8 index])] } false ∧
                  t.calls = s.calls.set c { call with
                    parties := call.parties ++ [{ party with state := .connected, claim := some o }] } ∧
                  t.stations = s.stations.set n { x with state := .inCall, call := some c } ∧
                  (∀ y, y ≠ o → t.stack y = s.stack y) ∧
                  t.stack o = nameStack (s.lockFloor o) (insertClaim
                    { owner := .party c ⟨index % 8, Nat.mod_lt _ (by decide)⟩, priority := call.priority
                      arrival := s.claims.arrivals, duckable := false, allowsUndertone := true, state := .waiting }
                    (s.stack o)))) := by
  intro r refused inHand kind
  have ran : exec .addParty s = .next (s.addRecord h).arbitrate :=
    congrArg Host.Outcome.next (State.handOver_of _ inHand kind)
  have next {u : State} (same : s.addRecord h = u) : exec .addParty s = .next u.arbitrate := by rw [ran, same]
  refine ⟨fun high => next (State.addRecord_bad high), fun c n own own' => ?_⟩
  rw [State.addRecord_of own own'] at next
  intro call x index party
  refine ⟨fun bare => next (if_pos bare), fun bound closed => next ?_, fun bound busy open_ full => next ?_,
    fun i o bound active ever room anchored gone connected below => ?_⟩
  · rw [if_neg bound, if_pos closed]
    rfl
  · rw [if_neg bound, if_neg (not_or.mpr ⟨busy, open_⟩), if_pos full]
    rfl
  · rw [if_neg (by rw [show (s.stations.get n).binding = some (i, o) from bound]; nofun),
      if_neg (by rw [show (s.calls.get c).state = .active from active]; nofun), if_neg (Nat.not_le.mpr room)] at next
    have issued := State.issueArrival_below below
    have goes : (s.calls.get c).goesOn := ⟨active, ever, gone, connected⟩
    have answered (u : State) : Answered u (u.reply .call h stDone false [(16, bytes1 (s.calls.get c).parties.length)]).arbitrate
        .call h stDone [(16, bytes1 (s.calls.get c).parties.length)] := u.reply_answered _ _ _ _
    let v : State := { s with claims := { s.claims with arrivals := s.claims.arrivals + 1 } }
    have admitted (quiet : ∀ p, ((v.joinParty c n r.ring r.talk r.listen s.claims.arrivals).calls.get c).parties[(s.calls.get
        c).parties.length]? = some p → p.state ≠ .ringing) :
        s.admitted c n r = v.joinParty c n r.ring r.talk r.listen s.claims.arrivals := by
      have join := s.admitted_quiet (c := c) (n := n) (r := r)
      rw [issued] at join
      exact join quiet
    refine ⟨fun other => ?_, fun idle quiet takes absent short => ?_⟩
    · have joined := State.joinParty_busy (s := v) (c := c) (n := n) (ring := r.ring) (talk := r.talk) (listen := r.listen)
        (arrival := s.claims.arrivals) room other
      have calls : (v.joinParty c n r.ring r.talk r.listen s.claims.arrivals).calls =
          s.calls.set c { call with parties := call.parties ++ [party] } := by
        rw [joined, State.modCall_calls, Tab.modify_eq_set]
        rfl
      have ran' := admitted fun p found => by
        rw [calls, Tab.get_set, if_pos rfl, List.getElem?_append_right (le_refl _)] at found
        simp only [Nat.sub_self, List.getElem?_cons_zero, Option.some.injEq] at found
        rw [← found]
        nofun
      rw [ran', State.examine_goesOn (by
        rw [calls, Tab.get_set, if_pos rfl]
        exact goes.joined party anchored)] at next
      have replied := answered (v.joinParty c n r.ring r.talk r.listen s.claims.arrivals)
      refine ⟨_, next rfl, ?_, replied.stage, replied.calls.trans calls, ?_, ?_, ?_⟩
      · refine Untouched.trans (b := v.joinParty c n r.ring r.talk r.listen s.claims.arrivals) ?_ replied.untouched
        rw [joined]
        constructor <;> rfl
      · rw [replied.claims, joined]
        rfl
      · rw [replied.stations, joined]
        rfl
      · rw [replied.programs, joined]
        rfl
    · have ix : (s.calls.get c).parties.length = (⟨index % 8, Nat.mod_lt _ (by decide)⟩ : Fin 8).val :=
        (Nat.mod_eq_of_lt room).symm
      have joined := State.joinParty_joined (s := v) (c := c) (n := n) (ring := r.ring) (talk := r.talk) (listen := r.listen)
        (arrival := s.claims.arrivals) ix idle quiet bound (by
          rw [show (v.outlets.get o).kind = .station from takes]
          rfl) absent short
      have ran' := admitted fun p found => by
        rw [joined.calls, Tab.get_set, if_pos rfl, List.getElem?_append_right (le_refl _)] at found
        simp only [← ix, Nat.sub_self, List.getElem?_cons_zero, Option.some.injEq] at found
        rw [← found]
        nofun
      rw [ran', State.examine_goesOn (by
        rw [joined.calls, Tab.get_set, if_pos rfl]
        exact goes.joined _ anchored)] at next
      have replied := answered (v.joinParty c n r.ring r.talk r.listen s.claims.arrivals)
      refine ⟨_, next rfl, ?_, replied.stage, replied.calls.trans joined.calls, replied.stations.trans joined.stations,
        fun y other => (replied.stack y).trans (joined.others y other), (replied.stack o).trans joined.seat⟩
      refine Untouched.trans (b := v) ?_ (joined.acts.toUntouched.trans replied.untouched)
      constructor <;> rfl


namespace Sys2Proof.Machine

section
variable {s : State} {h : Hand}

theorem State.dropRecord_bad (bad : 16 ≤ byteAt h.bytes 8) : s.dropRecord h = s.reply .call h stBadField false [] := by
  unfold State.dropRecord
  dsimp only
  rw [(toFin?_eq_none_iff ..).mpr bad]

theorem State.dropRecord_free {c : Fin 16} (slot : byteAt h.bytes 8 = c.val) (free : (s.calls.get c).state = .free) :
    s.dropRecord h = s.reply .call h stNotActive false [] := by
  unfold State.dropRecord
  dsimp only
  rw [toFin?_eq_some_iff.mpr slot]
  exact if_pos (beq_iff_eq.mpr free)

theorem State.dropRecord_none {c : Fin 16} (slot : byteAt h.bytes 8 = c.val) (busy : (s.calls.get c).state ≠ .free)
    (beyond : (s.calls.get c).parties.length ≤ byteAt h.bytes 9) : s.dropRecord h = s.reply .call h stBadField false [] := by
  unfold State.dropRecord
  dsimp only
  rw [toFin?_eq_some_iff.mpr slot]
  dsimp only
  rw [if_neg (by simpa using busy), List.getElem?_eq_none beyond]

theorem State.dropRecord_of {c : Fin 16} {i : Fin 8} {p : Party} (slot : byteAt h.bytes 8 = c.val)
    (busy : (s.calls.get c).state ≠ .free) (index : byteAt h.bytes 9 = i.val)
    (found : (s.calls.get c).parties[i.val]? = some p) : s.dropRecord h =
      if (s.calls.get c).state = .clearing ∨ p.live = false then s.reply .call h stNotActive false []
      else ((((s.endParty c i .left).idleStation p.station).releaseRing).examine c).reply .call h stDone false [] := by
  unfold State.dropRecord
  dsimp only
  rw [toFin?_eq_some_iff.mpr slot]
  dsimp only
  rw [if_neg (by simpa using busy), index, found, toFin?_eq_some_iff.mpr rfl]
  simp only [Bool.or_eq_true, beq_iff_eq, Bool.not_eq_true']

theorem State.closeRecord_bad (bad : 16 ≤ byteAt h.bytes 8) : s.closeRecord h = s.reply .call h stBadField false [] := by
  unfold State.closeRecord
  dsimp only
  rw [(toFin?_eq_none_iff ..).mpr bad]

theorem State.closeRecord_of {c : Fin 16} (slot : byteAt h.bytes 8 = c.val) : s.closeRecord h =
    if (s.calls.get c).state = .free ∨ (s.calls.get c).state = .clearing then s.reply .call h stNotActive false []
    else (s.enterClearing c).reply .call h stDone false [] := by
  unfold State.closeRecord
  dsimp only
  rw [toFin?_eq_some_iff.mpr slot]
  simp only [Bool.or_eq_true, beq_iff_eq]

theorem Party.live_eq_false (p : Party) : p.live = false ↔ p.state ≠ .ringing ∧ p.state ≠ .connected := by
  unfold Party.live
  simp

theorem Party.live_eq_true (p : Party) : p.live = true ↔ p.state = .ringing ∨ p.state = .connected := by
  unfold Party.live
  simp

/-- The parties of a call that clears. -/
theorem Call.clears_parties {x : Call} (short : x.parties.length ≤ 8) :
    x.clears.parties = x.parties.map fun p => p.drop.unclaimed := by
  unfold Call.clears
  dsimp only
  rw [modifyAll_eq _ short, modifyAll_eq _ (by rw [List.length_map]; exact short), List.map_map]
  rfl

theorem Party.drop_state (p : Party) : p.drop.state ≠ .ringing ∧ p.drop.state ≠ .connected := by
  unfold Party.drop
  split
  · exact ⟨nofun, nofun⟩
  · next dead => exact (Party.live_eq_false p).mp (by simpa using dead)

end

end Sys2Proof.Machine

/-- The third part of O48: DROP_PARTY. -/
theorem party_dropped (s : State) (h : Hand) (b : List (List Byte)) :
    let slot := byteAt h.bytes 8
    let index := byteAt h.bytes 9
    let refused (code : Nat) := exec .dropParty s = .next (s.reply .call h code false []).arbitrate
    (s.walker .call).stage = .handOver h b → h.kind = 0x22 → (16 ≤ slot → refused 0x11) ∧ ∀ c : Fin 16, slot = c.val →
      let call := s.calls.get c
      (call.state = .free → refused 0x17) ∧
      (call.state ≠ .free → call.parties.length ≤ index → refused 0x11) ∧
      ∀ (i : Fin 8) (p : Party), index = i.val → call.parties[i.val]? = some p →
        (call.state = .clearing ∨ (call.state ≠ .free ∧ p.state ≠ .ringing ∧ p.state ≠ .connected) → refused 0x17) ∧
        (call.state = .active → call.everActive = true → p.state = .connected → call.anchor ≠ index →
          call.anchorGone = false → 3 ≤ (call.parties.filter (·.state == .connected)).length →
            ∃ t, exec .dropParty s = .next t ∧ Untouched s t ∧
              (t.walker .call).stage =
                .returnWrite h { record := h.ref false, status := 0x02, results := [] } false ∧
              t.calls = s.calls.set c { call with
                parties := call.parties.set i.val { p with state := .left, ringTimer := none, claim := none } } ∧
              t.stations = s.stations.set p.station { s.stations.get p.station with state := .idle, call := none } ∧
              (∀ o, p.claim = some o → hasOwner (.party c i) (t.stack o) = false) ∧
              ∀ o, p.claim ≠ some o → t.stack o = s.stack o) := by
  intro slot index refused inHand kind
  have ran : exec .dropParty s = .next (s.dropRecord h).arbitrate :=
    congrArg Host.Outcome.next (State.handOver_of _ inHand kind)
  have next {u : State} (same : s.dropRecord h = u) : exec .dropParty s = .next u.arbitrate := by rw [ran, same]
  refine ⟨fun high => next (State.dropRecord_bad high), fun c own => ?_⟩
  intro call
  refine ⟨fun free => next (State.dropRecord_free own free), fun busy beyond => next (State.dropRecord_none own busy beyond),
    fun i p at_ found => ⟨fun gone => ?_, fun active ever state other anchored connected => ?_⟩⟩
  · have busy : (s.calls.get c).state ≠ .free := by
      rcases gone with clearing | ⟨busy, -⟩
      · rw [show (s.calls.get c).state = .clearing from clearing]
        nofun
      · exact busy
    exact next ((State.dropRecord_of own busy at_ found).trans (if_pos (gone.imp_right fun dead => p.live_eq_false.mpr dead.2)))
  · have live : p.live = true := p.live_eq_true.mpr (.inr state)
    have isActive : (s.calls.get c).state = .active := active
    have runs := (State.dropRecord_of own (by rw [isActive]; nofun) at_ found).trans
      (if_neg (not_or.mpr ⟨by rw [isActive]; nofun, by rw [live]; nofun⟩))
    have fewer := filter_set_length found (p.leaves .left) (fun p => p.state == .connected)
    have many : 3 ≤ ((s.calls.get c).parties.filter fun p => p.state == .connected).length := connected
    have left := State.leaves_of (s := s) found (st := .left) (Call.goesOn.left active ever found (at_ ▸ other) anchored
      (Nat.le_of_succ_le_succ (le_trans many fewer)))
    have replied := State.reply_answered (((((s.endParty c i .left).idleStation p.station).releaseRing).examine c)) .call h stDone []
    exact ⟨_, next runs, left.untouched.trans replied.untouched, replied.stage, replied.calls.trans left.calls,
      replied.stations.trans left.stations, fun o claim => (replied.stack o) ▸ left.gone o claim,
      fun o claim => (replied.stack o).trans (left.stack o claim)⟩

/-- The fourth part of O48: CLOSE_CALL. -/
theorem call_closed (s : State) (h : Hand) (b : List (List Byte)) :
    let slot := byteAt h.bytes 8
    let refused (code : Nat) := exec .closeCall s = .next (s.reply .call h code false []).arbitrate
    (s.walker .call).stage = .handOver h b → h.kind = 0x23 →
      (16 ≤ slot → refused 0x11) ∧
      ∀ c : Fin 16, slot = c.val →
        let call := s.calls.get c
        (call.state = .free ∨ call.state = .clearing → refused 0x17) ∧
        (call.state ≠ .free → call.state ≠ .clearing → call.parties.length ≤ 8 → ∃ t, exec .closeCall s = .next t ∧
          Untouched s t ∧
          (t.walker .call).stage = .returnWrite h { record := h.ref false, status := 0x02, results := [] } false ∧
          (t.calls.get c).state = .clearing ∧ (t.calls.get c).final = call.parties.map Party.finalByte ∧
          (t.calls.get c).record = call.record ∧
          (call.page = none → ∀ d, d ≠ c → t.calls.get d = s.calls.get d) ∧
          (∀ p ∈ (t.calls.get c).parties, p.state ≠ .ringing ∧ p.state ≠ .connected ∧ p.claim = none) ∧
          ∀ p ∈ call.parties, p.live = true →
            (t.stations.get p.station).state = .idle ∧ (t.stations.get p.station).call = none) := by
  intro slot refused inHand kind
  have ran : exec .closeCall s = .next (s.closeRecord h).arbitrate :=
    congrArg Host.Outcome.next (State.handOver_of _ inHand kind)
  have next {u : State} (same : s.closeRecord h = u) : exec .closeCall s = .next u.arbitrate := by rw [ran, same]
  refine ⟨fun high => next (State.closeRecord_bad high), fun c own => ?_⟩
  intro call
  refine ⟨fun closed => next ((State.closeRecord_of own).trans (if_pos closed)), fun busy open_ short => ?_⟩
  have runs := (State.closeRecord_of (s := s) own).trans (if_neg (not_or.mpr ⟨busy, open_⟩))
  have clears := s.enterClearing_clears c
  have replied := State.reply_answered (s.enterClearing c) .call h stDone []
  refine ⟨_, next runs, clears.acts.toUntouched.trans replied.untouched, replied.stage, ?_, ?_, ?_, fun none d other => ?_,
    fun p mem => ?_, fun p mem live => ?_⟩
  · rw [replied.calls, clears.call]
    rfl
  · rw [replied.calls, clears.call]
    rfl
  · rw [replied.calls, clears.call]
    rfl
  · rw [replied.calls]
    exact clears.alone (fun g page => nomatch none.symm.trans page) d other
  · rw [replied.calls, clears.call, Call.clears_parties short] at mem
    obtain ⟨q, -, e⟩ := List.mem_map.mp mem
    rw [← e]
    exact ⟨q.drop_state.1, q.drop_state.2, rfl⟩
  · rw [replied.stations, clears.idle p mem short live]
    exact ⟨rfl, rfl⟩

/-- Settles O48, by the period's acts on a CLEARING call and the three records' cases. -/
theorem callRecords : Obligations.CallRecords := by
  unfold Obligations.CallRecords
  exact ⟨cleared_call, party_added, party_dropped, call_closed⟩

end

section
/-! PROOF. The hold and ring timers at a period start (O49). -/

open Sys2Proof Sys2Proof.Machine

namespace Sys2Proof.Machine

/-- The station is bound to an inlet of trunk `k`. -/
def Station.onTrunk (x : Station) (k : Fin 4) : Prop := ∃ b, x.binding = some b ∧ trunkOf b.1 = k

theorem State.mem_stationsOn (s : State) (k : Fin 4) (n : Fin 64) : n ∈ s.stationsOn k ↔ (s.stations.get n).onTrunk k := by
  unfold State.stationsOn Station.onTrunk
  rw [Tab.mem_indices]
  cases (s.stations.get n).binding <;> simp

section
variable {s : State}

/-! ### One station through the losses of others -/

theorem State.stationLost_other (s : State) {n m : Fin 64} (other : n ≠ m) :
    (s.stations.get n).Rests ((s.stationLost m).stations.get n) := by
  rcases s.stationLost_rested m with ⟨-, e⟩ | rested
  · rw [e]
    exact Station.Rests.refl _
  · have rests := rested.stations n
    rw [State.modStation_stations, Tab.get_modify_ne _ other] at rests
    exact rests

/-- A station without a running hold timer gets none by a loss. -/
theorem State.stationLost_stopped (s : State) (m : Fin 64) {n : Fin 64} (stopped : (s.stations.get n).holdTimer = none) :
    ((s.stationLost m).stations.get n).holdTimer = none := by
  rcases s.stationLost_rested m with ⟨-, e⟩ | rested
  · rw [e]
    exact stopped
  · rw [(rested.stations n).holdTimer, State.modStation_stations, Tab.get_modify]
    split
    · rfl
    · exact stopped

theorem State.stationLost_own (s : State) {n : Fin 64} (defined : (s.stations.get n).state ≠ .undefined)
    (present : (s.stations.get n).state ≠ .lost) : ((s.stationLost n).stations.get n).holdTimer = none := by
  rcases s.stationLost_rested n with ⟨absent, -⟩ | rested
  · exact absurd absent (not_or.mpr ⟨defined, present⟩)
  · rw [(rested.stations n).holdTimer, State.modStation_stations, Tab.get_modify_self]
    rfl

theorem State.forAll_lost_other {ms : List (Fin 64)} {n : Fin 64} (other : n ∉ ms) (s : State) :
    (s.stations.get n).Rests ((s.forAll ms State.stationLost).stations.get n) := by
  induction ms generalizing s with
  | nil => exact Station.Rests.refl _
  | cons m ms ih =>
    rw [State.forAll_cons]
    have apart : n ≠ m := fun same => other (by rw [same]; exact List.mem_cons_self ..)
    exact (s.stationLost_other apart).trans
      (ih (fun mem => other (List.mem_cons_of_mem _ mem)) _)

theorem State.forAll_stopped {β : Type} {f : β → State → State} {n : Fin 64}
    (each : ∀ x (s : State), (s.stations.get n).holdTimer = none → ((f x s).stations.get n).holdTimer = none)
    (xs : List β) (s : State) (stopped : (s.stations.get n).holdTimer = none) :
    ((s.forAll xs f).stations.get n).holdTimer = none := by
  induction xs generalizing s with
  | nil => exact stopped
  | cons x xs ih =>
    rw [State.forAll_cons]
    exact ih _ (each x s stopped)

theorem State.forAll_lost_own {ms : List (Fin 64)} {n : Fin 64} (mem : n ∈ ms) (s : State)
    (defined : (s.stations.get n).state ≠ .undefined) (present : (s.stations.get n).state ≠ .lost) :
    ((s.forAll ms State.stationLost).stations.get n).holdTimer = none := by
  induction ms generalizing s with
  | nil => nomatch mem
  | cons m ms ih =>
    rw [State.forAll_cons]
    by_cases same : n = m
    · subst same
      exact State.forAll_stopped (fun x t => t.stationLost_stopped x) _ _ (s.stationLost_own defined present)
    · have rests := (s.stationLost_other same).present defined present
      exact ih ((List.mem_cons.mp mem).resolve_left same) _ rests.1 rests.2

/-! ### Trunks that leave UP -/

theorem State.leaveUp_stations (s : State) (k : Fin 4) : (s.leaveUp k).stations =
    ((s.modTrunk k fun t => { link := .down, training := t.training }).forAll (s.stationsOn k) State.stationLost).stations := by
  have loops (t : State) : (t.forAll (outletsOf k) State.loopDown).stations = t.stations :=
    State.forAll_view (view := State.stations) (f := State.loopDown) (fun _ _ => rfl) _ t
  have slots (t : State) : (t.forAll (slotsOf k) State.changeoverTrunkDown).stations = t.stations :=
    State.forAll_view (view := State.stations) (fun x t => (t.changeoverTrunkDown_undialled x).stations) _ t
  rw [State.leaveUp_eq, State.setCause_stations, State.emitNote_stations, slots]
  have found : (s.modTrunk k fun t => { link := .down, training := t.training }).stationsOn k = s.stationsOn k := rfl
  unfold State.unlinked
  dsimp only
  rw [loops, found]

theorem State.leaveUp_elsewhere {k : Fin 4} {n : Fin 64} (elsewhere : ¬(s.stations.get n).onTrunk k) :
    (s.stations.get n).Rests ((s.leaveUp k).stations.get n) := by
  rw [State.leaveUp_stations]
  exact State.forAll_lost_other (fun mem => elsewhere ((s.mem_stationsOn k n).mp mem)) (s.modTrunk k _)

theorem State.leaveUp_own {k : Fin 4} {n : Fin 64} (here : (s.stations.get n).onTrunk k)
    (defined : (s.stations.get n).state ≠ .undefined) (present : (s.stations.get n).state ≠ .lost) :
    ((s.leaveUp k).stations.get n).holdTimer = none := by
  rw [State.leaveUp_stations]
  exact State.forAll_lost_own ((s.mem_stationsOn k n).mpr here) (s.modTrunk k _) defined present

theorem State.syncExpired_stopped {n : Fin 64} (k : Fin 4) (s : State) (stopped : (s.stations.get n).holdTimer = none) :
    ((s.syncExpired k).stations.get n).holdTimer = none := by
  by_cases failing : (s.trunks.get k).failing
  · rw [State.syncExpired_of failing, State.leaveUp_stations]
    exact State.forAll_stopped (fun x t => t.stationLost_stopped x) _ (s.modTrunk k _) stopped
  · rw [State.syncExpired_not failing]
    exact stopped

/-- A station whose trunk does not fail. -/
theorem State.forAll_sync_rests {n : Fin 64} (ks : List (Fin 4)) (s : State)
    (stands : ∀ k, (s.stations.get n).onTrunk k → ¬(s.trunks.get k).failing) :
    (s.stations.get n).Rests ((s.forAll ks State.syncExpired).stations.get n) := by
  induction ks generalizing s with
  | nil => exact Station.Rests.refl _
  | cons k ks ih =>
    rw [State.forAll_cons]
    have first : (s.stations.get n).Rests ((s.syncExpired k).stations.get n) := by
      by_cases failing : (s.trunks.get k).failing
      · rw [State.syncExpired_of failing]
        exact State.leaveUp_elsewhere fun here => stands k here failing
      · rw [State.syncExpired_not failing]
        exact Station.Rests.refl _
    refine first.trans (ih _ fun j here failing => ?_)
    have here' : (s.stations.get n).onTrunk j := by
      obtain ⟨b, own, at_⟩ := here
      exact ⟨b, first.binding ▸ own, at_⟩
    by_cases same : j = k
    · subst same
      rw [State.syncExpired_not (stands j here')] at failing
      exact stands j here' failing
    · rw [State.syncExpired_trunks_ne _ same] at failing
      exact stands j here' failing

/-- A present station whose trunk fails. -/
theorem State.forAll_sync_drops {n : Fin 64} {j : Fin 4} {ks : List (Fin 4)} (mem : j ∈ ks) (once : ks.Nodup) (s : State)
    (here : (s.stations.get n).onTrunk j) (failing : (s.trunks.get j).failing)
    (defined : (s.stations.get n).state ≠ .undefined) (present : (s.stations.get n).state ≠ .lost) :
    ((s.forAll ks State.syncExpired).stations.get n).holdTimer = none := by
  induction ks generalizing s with
  | nil => nomatch mem
  | cons k ks ih =>
    rw [State.forAll_cons]
    by_cases same : j = k
    · subst same
      rw [State.syncExpired_of failing]
      exact State.forAll_stopped State.syncExpired_stopped _ _ (State.leaveUp_own here defined present)
    · obtain ⟨b, own, at_⟩ := here
      have first : (s.stations.get n).Rests ((s.syncExpired k).stations.get n) := by
        by_cases down : (s.trunks.get k).failing
        · rw [State.syncExpired_of down]
          refine State.leaveUp_elsewhere fun ⟨b', own', at'⟩ => same ?_
          rw [← at_, ← at', Option.some.inj (own.symm.trans own')]
        · rw [State.syncExpired_not down]
          exact Station.Rests.refl _
      have stays := first.present defined present
      exact ih ((List.mem_cons.mp mem).resolve_left same) (List.nodup_cons.mp once).2 _ ⟨b, first.binding.trans own, at_⟩
        (by rw [State.syncExpired_trunks_ne _ same]; exact failing) stays.1 stays.2

/-! ### The hold timers' own expiries -/

theorem State.holdExpired_not {n : Fin 64} (waits : (s.stations.get n).holdTimer ≠ some 0) : s.holdExpired n = s :=
  if_neg fun due => waits (beq_iff_eq.mp due)

theorem State.holdExpired_of {n : Fin 64} (due : (s.stations.get n).holdTimer = some 0) :
    s.holdExpired n = (s.stationLost n).emitNote .station 3 n.val (callCode (s.stations.get n).call) :=
  if_pos (beq_iff_eq.mpr due)

theorem State.holdExpired_other (s : State) {n m : Fin 64} (other : n ≠ m) :
    (s.stations.get n).Rests ((s.holdExpired m).stations.get n) := by
  by_cases due : (s.stations.get m).holdTimer = some 0
  · rw [State.holdExpired_of due, State.emitNote_stations]
    exact s.stationLost_other other
  · rw [State.holdExpired_not due]
    exact Station.Rests.refl _

theorem State.holdExpired_stopped {n : Fin 64} (m : Fin 64) (s : State) (stopped : (s.stations.get n).holdTimer = none) :
    ((s.holdExpired m).stations.get n).holdTimer = none := by
  by_cases due : (s.stations.get m).holdTimer = some 0
  · rw [State.holdExpired_of due, State.emitNote_stations]
    exact s.stationLost_stopped m stopped
  · rw [State.holdExpired_not due]
    exact stopped

theorem State.forAll_hold_rests {n : Fin 64} (ms : List (Fin 64)) (s : State) (waits : (s.stations.get n).holdTimer ≠ some 0) :
    (s.stations.get n).Rests ((s.forAll ms State.holdExpired).stations.get n) := by
  induction ms generalizing s with
  | nil => exact Station.Rests.refl _
  | cons m ms ih =>
    rw [State.forAll_cons]
    have first : (s.stations.get n).Rests ((s.holdExpired m).stations.get n) := by
      by_cases same : n = m
      · subst same
        rw [State.holdExpired_not waits]
        exact Station.Rests.refl _
      · exact s.holdExpired_other same
    exact first.trans (ih _ (by rw [first.holdTimer]; exact waits))

theorem State.forAll_hold_drops {n : Fin 64} {ms : List (Fin 64)} (mem : n ∈ ms) (s : State)
    (due : (s.stations.get n).holdTimer = some 0) (defined : (s.stations.get n).state ≠ .undefined)
    (present : (s.stations.get n).state ≠ .lost) : ((s.forAll ms State.holdExpired).stations.get n).holdTimer = none := by
  induction ms generalizing s with
  | nil => nomatch mem
  | cons m ms ih =>
    rw [State.forAll_cons]
    by_cases same : n = m
    · subst same
      refine State.forAll_stopped State.holdExpired_stopped _ _ ?_
      rw [State.holdExpired_of due, State.emitNote_stations]
      exact s.stationLost_own defined present
    · have first := s.holdExpired_other same
      have stays := first.present defined present
      exact ih ((List.mem_cons.mp mem).resolve_left same) _ (first.holdTimer.trans due) stays.1 stays.2

/-! ### A period's acts on the hold timers -/

/-- What comes before the trunks' sync holds. -/
theorem State.beforeSync_undialled (s : State) : Undialled s (s.forAll (allFin 8) State.segmentEnd).windowComplete :=
  (s.forAll_undialled (fun v t => t.segmentEnd_undialled v) _).trans (State.windowComplete_undialled _)

theorem State.beforeSync_trunks (s : State) : (s.forAll (allFin 8) State.segmentEnd).windowComplete.trunks = s.trunks := by
  rw [State.windowComplete_trunks]
  exact (State.forAll_acts (Acts.refl s) (allFin 8) State.segmentEnd fun x t act => State.segmentEnd_acts act x).trunks

/-- What comes after the stations' expiries, to the timers' steps. -/
def State.settledRest (s : State) : State :=
  ((((s.forAll (allFin 16) State.ringsExpired).forAll (allFin 64) State.gatherDue).forAll (allFin 64)
    State.durationExpired).beatExpired).forAll ListId.all State.scanExpired

theorem State.settledRest_rested (s : State) : Rested s s.settledRest :=
  ((((s.forAll_rested (fun c t => t.ringsExpired_rested c) _).trans
    (State.forAll_undialled _ (fun p t => t.gatherDue_undialled p) _).rested).trans
    (State.forAll_undialled _ (fun p t => t.durationExpired_undialled p) _).rested).trans (State.beatExpired_rested _)).trans
    (State.forAll_rested _ State.scanExpired_rested _)

/-- Between the trunks' sync holds and the stations' hold timers. -/
theorem State.betweenHolds_undialled (s : State) : Undialled s (s.forAll (allFin 4) State.answerExpired).slotsDue :=
  (s.forAll_undialled (fun k t => t.answerExpired_undialled k) _).trans (State.slotsDue_undialled _)

theorem State.settleDue_holds (s : State) : s.settleDue =
    (((((s.forAll (allFin 8) State.segmentEnd).windowComplete.forAll (allFin 4) State.syncExpired).forAll (allFin 4)
      State.answerExpired).slotsDue).forAll (allFin 64) State.holdExpired).settledRest := by
  rw [State.settleDue_eq]
  rfl

/-- The stations after the timers' steps are those at the period's end. -/
theorem State.period_stations (s : State) (audio : List (List Sample)) :
    (s.beforeLatch.mixPeriod audio).arbitrate.stations = s.settleDue.stepTimers.stations := by
  have trained := State.forAll_undialled s.settleDue.stepTimers (fun k t => t.trainTrunk_undialled k) (allFin 4)
  have freed (c : Fin 16) (t : State) : (t.freeCleared c).stations = t.stations := by
    unfold State.freeCleared
    split
    · obtain ⟨_, _, e, -⟩ := t.freeCall_freed c
      rw [e]
    · rfl
  have ran : s.beforeLatch = ((s.settleDue.stepTimers.forAll (allFin 4) State.trainTrunk).forAll (allFin 16)
      State.freeCleared).showStep.forAll (allFin 8) State.startVoice := by
    rw [State.beforeLatch_eq]
    rfl
  rw [State.arbitrate_stations, ran, (State.afterClearing_undialled _ audio).stations,
    State.forAll_view (view := State.stations) freed, trained.stations]

/-- A station's hold timer at a period's end, where its trunk stands and it is not due. -/
theorem State.period_holds {n : Fin 64} (stands : ∀ k, (s.stations.get n).onTrunk k → ¬(s.trunks.get k).failing)
    (waits : (s.stations.get n).holdTimer ≠ some 0) :
    (s.settleDue.stations.get n).holdTimer = (s.stations.get n).holdTimer := by
  have before := s.beforeSync_undialled
  have trunks := s.beforeSync_trunks
  rw [State.settleDue_holds]
  generalize (s.forAll (allFin 8) State.segmentEnd).windowComplete = a at before trunks
  have stands' : ∀ k, (a.stations.get n).onTrunk k → ¬(a.trunks.get k).failing := by
    rw [before.stations, trunks]
    exact stands
  have synced := State.forAll_sync_rests (allFin 4) a stands'
  have between := (a.forAll (allFin 4) State.syncExpired).betweenHolds_undialled
  rw [before.stations] at synced
  generalize ((a.forAll (allFin 4) State.syncExpired).forAll (allFin 4) State.answerExpired).slotsDue = b at between ⊢
  have holds := State.forAll_hold_rests (n := n) (allFin 64) b (by
    rw [between.stations, synced.holdTimer]
    exact waits)
  have rest := (State.settledRest_rested (b.forAll (allFin 64) State.holdExpired)).stations n
  rw [between.stations] at holds
  exact rest.holdTimer.trans (holds.holdTimer.trans synced.holdTimer)

/-- A present station's hold timer at a period's end, where its trunk fails or it is due. -/
theorem State.period_stops {n : Fin 64} (gone : (∃ k, (s.stations.get n).onTrunk k ∧ (s.trunks.get k).failing) ∨
    (s.stations.get n).holdTimer = some 0) (defined : (s.stations.get n).state ≠ .undefined)
    (present : (s.stations.get n).state ≠ .lost) : (s.settleDue.stations.get n).holdTimer = none := by
  have before := s.beforeSync_undialled
  have trunks := s.beforeSync_trunks
  rw [State.settleDue_holds]
  generalize (s.forAll (allFin 8) State.segmentEnd).windowComplete = a at before trunks
  have between := (a.forAll (allFin 4) State.syncExpired).betweenHolds_undialled
  by_cases drops : ∃ k, (s.stations.get n).onTrunk k ∧ (s.trunks.get k).failing
  · obtain ⟨k, here, failing⟩ := drops
    have synced := State.forAll_sync_drops (n := n) (mem_allFin k) (allFin_nodup 4) a (by rw [before.stations]; exact here)
      (by rw [trunks]; exact failing) (by rw [before.stations]; exact defined) (by rw [before.stations]; exact present)
    rw [← between.stations] at synced
    generalize ((a.forAll (allFin 4) State.syncExpired).forAll (allFin 4) State.answerExpired).slotsDue = b at synced ⊢
    have holds := State.forAll_stopped State.holdExpired_stopped (allFin 64) b synced
    rw [((State.settledRest_rested (b.forAll (allFin 64) State.holdExpired)).stations n).holdTimer]
    exact holds
  · have due := gone.resolve_left drops
    have synced := State.forAll_sync_rests (n := n) (allFin 4) a (by
      rw [before.stations, trunks]
      exact fun k here failing => drops ⟨k, here, failing⟩)
    rw [before.stations, ← between.stations] at synced
    generalize ((a.forAll (allFin 4) State.syncExpired).forAll (allFin 4) State.answerExpired).slotsDue = b at synced ⊢
    have stays := synced.present defined present
    have holds := State.forAll_hold_drops (n := n) (mem_allFin n) b (synced.holdTimer.trans due) stays.1 stays.2
    rw [((State.settledRest_rested (b.forAll (allFin 64) State.holdExpired)).stations n).holdTimer]
    exact holds

theorem State.stepTimers_holds (s : State) (n : Fin 64) :
    (s.stepTimers.stations.get n).holdTimer = (s.stations.get n).holdTimer.map (· - 1) := by
  unfold State.stepTimers
  dsimp only
  rw [Tab.get_map]
  rfl

end

end Sys2Proof.Machine

end

section
/-! PROOF. The expiries of hold and ring timers (O49), and the calls of a period in which none is due. -/

open Sys2Proof Sys2Proof.Machine

namespace Sys2Proof.Machine

/-- One party replaced by another, neither of which is counted. -/
theorem filter_set_same {ps : List Party} {i : Nat} {p q : Party} {f : Party → Bool} (found : ps[i]? = some p) (out : f p = false)
    (out' : f q = false) : (ps.set i q).filter f = ps.filter f := by
  obtain ⟨inside, e⟩ := List.getElem?_eq_some_iff.mp found
  have whole : ps = ps.take i ++ p :: ps.drop (i + 1) := by
    rw [← e, List.getElem_cons_drop inside, List.take_append_drop]
  rw [List.set_eq_take_append_cons_drop, if_pos inside]
  conv_rhs => rw [whole]
  rw [List.filter_append, List.filter_append, List.filter_cons_of_neg (by rw [out']; nofun),
    List.filter_cons_of_neg (by rw [out]; nofun)]

/-! ### A station and its party that have left a call -/

/-- Party `i` of call `c` has left it for good, station `n` is no live party's of it, and stands as `x`. -/
structure State.Away (c : Fin 16) (i : Fin 8) (n : Fin 64) (x : Station) (s : State) : Prop where
  party : ∀ p, (s.calls.get c).parties[i.val]? = some p → p.state = .lost ∧ p.ringTimer = none ∧ p.claim = none
  clear : ∀ (j : Fin 8) q, (s.calls.get c).parties[j.val]? = some q → q.live = true → q.station ≠ n
  station : s.stations.get n = x

section
variable {c : Fin 16} {i : Fin 8} {n : Fin 64} {x : Station} {s : State}

/-- The parties change in nothing that is looked at. -/
theorem State.Away.parties {t : State} (away : s.Away c i n x) (stations : t.stations = s.stations)
    (parties : ∀ (j : Fin 8) q, (t.calls.get c).parties[j.val]? = some q → ∃ p, (s.calls.get c).parties[j.val]? = some p ∧
      q.state = p.state ∧ q.station = p.station ∧ q.ringTimer = p.ringTimer ∧ (p.claim = none → q.claim = none)) :
    t.Away c i n x := by
  refine ⟨fun q found => ?_, fun j q found live => ?_, stations ▸ away.station⟩
  · obtain ⟨p, found', state, -, timer, claim⟩ := parties i q found
    obtain ⟨lost, stopped, bare⟩ := away.party p found'
    exact ⟨state.trans lost, timer.trans stopped, claim bare⟩
  · obtain ⟨p, found', state, station, -, -⟩ := parties j q found
    rw [station]
    refine away.clear j p found' ?_
    unfold Party.live at live ⊢
    rw [← state]
    exact live

theorem Undialled.away {t : State} (h : Undialled s t) (away : s.Away c i n x) : t.Away c i n x :=
  away.parties h.stations fun j q found => ⟨q, by rw [← (h.calls c).parties]; exact found, rfl, rfl, rfl, id⟩

theorem State.modCall_away (away : s.Away c i n x) (d : Fin 16) {f : Call → Call}
    (parties : d = c → (f (s.calls.get c)).parties = (s.calls.get c).parties) : (s.modCall d f).Away c i n x := by
  have same : ((s.modCall d f).calls.get c).parties = (s.calls.get c).parties := by
    rw [State.modCall_calls, Tab.get_modify]
    split
    · next here => exact here ▸ parties here.symm
    · rfl
  exact away.parties rfl fun j q found => ⟨q, same ▸ found, rfl, rfl, rfl, id⟩

theorem State.evicted_away (away : s.Away c i n x) (w : Owner) : (s.evicted w).Away c i n x := by
  unfold State.evicted
  split
  · next p =>
    have fewer : Undialled s (s.modProgram p fun pr => { pr with admitted := pr.admitted - 1 }) :=
      s.modProgram_undialled p fun none => none
    dsimp only
    split
    · split
      · exact (fewer.trans (State.endProgram_undialled _ _ _)).away away
      · exact (fewer.trans (Undialled.of (State.gatherTest_steady (Steady.refl _) _)
          (State.gatherTest_quiet (Quiet.refl _) _))).away away
    · exact away
  · next d k =>
    refine away.parties rfl fun j q found => ?_
    rw [State.modCall_calls, Tab.get_modify] at found
    split at found
    · next same =>
      subst same
      rw [List.getElem?_modify] at found
      obtain ⟨p, found', e⟩ := Option.map_eq_some_iff.mp found
      refine ⟨p, found', ?_⟩
      rw [← e]
      split
      · exact ⟨rfl, rfl, rfl, fun _ => rfl⟩
      · exact ⟨rfl, rfl, rfl, id⟩
    · exact ⟨q, found, rfl, rfl, rfl, id⟩

theorem State.place_away (away : s.Away c i n x) (w : Claim) (o : Fin 256) : (s.place w o).2.Away c i n x := by
  unfold State.place
  dsimp only
  split
  · exact away
  · split
    · exact (s.restack_undialled o _).away away
    · split
      · split
        · exact State.evicted_away ((s.restack_undialled o _).away away) _
        · exact away
      · exact away

theorem State.placeAll_away (away : s.Away c i n x) (w : Claim) (test : State → Fin 256 → Bool) (os : List (Fin 256)) :
    (s.placeAll w test os).2.Away c i n x := by
  unfold State.placeAll
  refine List.foldlRecOn os _ (motive := fun acc : Nat × State => acc.2.Away c i n x) away fun acc kept o _ => ?_
  split
  · exact State.place_away kept w o
  · exact kept

theorem State.launch_away (away : s.Away c i n x) (p : Fin 64) : (s.launch p none).Away c i n x := by
  have counted (m : Nat) (t : State) (away : t.Away c i n x) : (t.modProgram p fun pr => { pr with admitted := m }).Away c i n x :=
    (t.modProgram_undialled p fun none => none).away away
  unfold State.launch
  dsimp only
  split
  · exact (State.endProgram_undialled _ _ _).away (counted _ _ (State.placeAll_away away _ _ _))
  · exact (State.afterPlacing_undialled _ _).away (counted _ _ (State.placeAll_away away _ _ _))

theorem State.issueArrival_away (away : s.Away c i n x) : s.issueArrival.2.Away c i n x := by
  have counted (t : State) (away : t.Away c i n x) :
      ({ t with claims := { t.claims with arrivals := t.claims.arrivals + 1 } } : State).Away c i n x :=
    ⟨away.party, away.clear, away.station⟩
  unfold State.issueArrival
  dsimp only
  split
  · refine counted _ (away.parties rfl fun j q found => ?_)
    unfold State.renumber at found
    dsimp only at found
    rw [Tab.get_map] at found
    dsimp only at found
    rw [List.getElem?_map] at found
    obtain ⟨p, found', e⟩ := Option.map_eq_some_iff.mp found
    exact ⟨p, found', e ▸ ⟨rfl, rfl, rfl, id⟩⟩
  · exact counted s away

theorem State.startPage_away (away : s.Away c i n x) (d : Fin 16) : (s.startPage d).Away c i n x := by
  unfold State.startPage
  dsimp only
  split
  · split
    · exact away
    · have issued := State.issueArrival_away away
      generalize s.issueArrival = u at issued
      exact State.launch_away ((State.modProgram_undialled _ _ fun none => none).away (State.modCall_away issued d fun _ => rfl)) _
  · exact away

theorem State.enterClearing_away (away : s.Away c i n x) : (s.enterClearing c).Away c i n x := by
  have clears := s.enterClearing_clears c
  have party (j : Fin 8) : ((s.enterClearing c).calls.get c).parties[j.val]? =
      ((s.calls.get c).parties[j.val]?).map fun p => p.drop.unclaimed := by
    rw [clears.call]
    unfold Call.clears
    dsimp only
    rw [modifyAll_get _ (allFin_nodup 8), if_pos (mem_allFin j), modifyAll_get _ (allFin_nodup 8), if_pos (mem_allFin j),
      Option.map_map]
    rfl
  refine ⟨fun q found => ?_, fun j q found live => ?_, (clears.kept n away.clear).trans away.station⟩
  · obtain ⟨p, found', e⟩ := Option.map_eq_some_iff.mp ((party i).symm.trans found)
    obtain ⟨lost, stopped, bare⟩ := away.party p found'
    have dead : p.drop = p := if_neg (by rw [p.live_eq_true, lost]; simp)
    rw [← e, dead]
    exact ⟨lost, stopped, rfl⟩
  · obtain ⟨p, -, e⟩ := Option.map_eq_some_iff.mp ((party j).symm.trans found)
    rw [← e, Party.live_eq_true] at live
    exact absurd live (not_or.mpr p.drop_state)

theorem State.releaseRing_undialled (s : State) : Undialled s s.releaseRing := by
  obtain ⟨_, e⟩ := s.releaseRing_tones
  rw [e]
  exact Undialled.same rfl rfl rfl (Returns.same rfl)

theorem State.examine_away (away : s.Away c i n x) : (s.examine c).Away c i n x := by
  have goes (b : Bool) (t : State) (away : t.Away c i n x) : (if b then t else t.startPage c).Away c i n x := by
    split
    · exact away
    · exact State.startPage_away away c
  unfold State.examine
  dsimp only
  split
  · exact away
  · exact away
  all_goals
    split
    · exact State.enterClearing_away away
    · split
      · exact goes _ _ (State.modCall_away away c fun _ => rfl)
      · exact State.modCall_away away c fun _ => rfl

/-! ### The loss of a station (R114) -/

theorem State.partyOf_found {c : Fin 16} {n : Fin 64} {i : Fin 8} (found : s.partyOf c n = some i) :
    ∃ p, (s.calls.get c).parties[i.val]? = some p ∧ p.live = true ∧ p.station = n := by
  unfold State.partyOf at found
  have here := List.find?_some found
  cases at_ : (s.calls.get c).parties[i.val]? with
  | none =>
    rw [at_] at here
    exact absurd here (by simp)
  | some p =>
    rw [at_] at here
    exact ⟨p, rfl, by simpa using here⟩

/-- A station in a call that is lost. -/
theorem State.stationLost_in {n : Fin 64} {c : Fin 16} (within : (s.stations.get n).state = .ringing ∨ (s.stations.get n).state = .inCall)
    (call : (s.stations.get n).call = some c) : s.stationLost n =
      match s.partyOf c n with
      | some i => ((((s.modStation n Station.loses).endParty c i .lost).releaseRing).examine c)
      | none => s.modStation n Station.loses := by
  have same : (s.modStation n Station.loses).partyOf c n = s.partyOf c n := rfl
  rw [← same]
  unfold State.stationLost
  dsimp only
  rcases within with state | state <;> (rw [state, call] <;> rfl)

theorem State.stationLost_idle {n : Fin 64} (idle : (s.stations.get n).state = .idle) (alone : (s.stations.get n).call = none) :
    s.stationLost n = s.modStation n fun x => { x with state := .lost, holdTimer := none } := by
  have same : s.stationLost n = s.modStation n Station.loses := by
    unfold State.stationLost
    dsimp only
    rw [idle, alone] <;> rfl
  rw [same]
  unfold State.modStation
  refine congrArg (fun stations => { s with stations }) (Tab.modify_congr _ _ (h := ?_))
  unfold Station.loses
  generalize s.stations.get n = x at alone
  cases x
  subst alone
  rfl

/-- What the loss of a station in a call leaves of it and its party. -/
theorem State.stationLost_away {n : Fin 64} {c : Fin 16} {i : Fin 8} (within : (s.stations.get n).state = .ringing ∨ (s.stations.get n).state = .inCall)
    (call : (s.stations.get n).call = some c) (party : s.partyOf c n = some i)
    (only : ∀ (j : Fin 8) q, (s.calls.get c).parties[j.val]? = some q → q.live = true → q.station = n →
      s.partyOf c n = some j) : (s.stationLost n).Away c i n (s.stations.get n).loses := by
  obtain ⟨p, found, -, station⟩ := State.partyOf_found party
  have ended := State.endParty_ended (s := s.modStation n Station.loses) (c := c) found .lost
  have left : ((s.modStation n Station.loses).endParty c i .lost).Away c i n (s.stations.get n).loses := by
    have parties : (((s.modStation n Station.loses).endParty c i .lost).calls.get c).parties =
        (s.calls.get c).parties.set i.val (p.leaves .lost) := by
      rw [ended.calls, Tab.get_set, if_pos rfl]
      rfl
    obtain ⟨inside, -⟩ := List.getElem?_eq_some_iff.mp found
    refine ⟨fun q at_ => ?_, fun j q at_ live same => ?_, ?_⟩
    · rw [parties, List.getElem?_set_self inside] at at_
      rw [← Option.some.inj at_]
      exact ⟨rfl, rfl, rfl⟩
    · rw [parties] at at_
      by_cases here : i.val = j.val
      · rw [← here, List.getElem?_set_self inside] at at_
        rw [← Option.some.inj at_, Party.live_eq_true] at live
        exact absurd live (by simp [Party.leaves])
      · rw [List.getElem?_set_ne here] at at_
        have again := only j q at_ live same
        exact here (congrArg Fin.val (Option.some.inj (party.symm.trans again)))
    · rw [ended.untouched.stations, State.modStation_stations, Tab.get_modify_self]
  rw [State.stationLost_in within call, party]
  exact State.examine_away ((State.releaseRing_undialled _).away left)

/-- A lost station without a party in its call. -/
theorem State.stationLost_bare {n : Fin 64} {c : Fin 16} (within : (s.stations.get n).state = .ringing ∨ (s.stations.get n).state = .inCall)
    (call : (s.stations.get n).call = some c) (none : s.partyOf c n = none) :
    s.stationLost n = s.modStation n Station.loses := by
  rw [State.stationLost_in within call, none]

/-! ### The calls of a period without an expiry of theirs -/

theorem State.ringExpired_not {c : Fin 16} {i : Fin 8}
    (waits : ∀ p, (s.calls.get c).parties[i.val]? = some p → ¬(p.state = .ringing ∧ p.ringTimer = some 0)) : s.ringExpired c i = s := by
  unfold State.ringExpired
  split
  · next p found => exact if_neg fun due => waits p found (by simpa using due)
  · rfl

theorem State.ringExpired_of {c : Fin 16} {i : Fin 8} {p : Party} (found : (s.calls.get c).parties[i.val]? = some p)
    (ringing : p.state = .ringing) (due : p.ringTimer = some 0) : s.ringExpired c i =
      (((s.endParty c i .noAnswer).idleStation p.station).releaseRing).examine c := by
  unfold State.ringExpired
  rw [found]
  exact if_pos (by simp [ringing, due])

/-- The expiries of a period in which no trunk, station, party or beat counter is due. -/
theorem State.settleDue_calls (stands : ∀ k, ¬(s.trunks.get k).failing) (holds : ∀ n, (s.stations.get n).holdTimer ≠ some 0)
    (rings : ∀ c, ∀ q ∈ (s.calls.get c).parties, q.ringTimer ≠ some 0)
    (beats : s.beatRunning = true → s.beat.counter ≠ 0) (c : Fin 16) : (s.calls.get c).Kept (s.settleDue.calls.get c) := by
  have counted : s.linksDue.slotsDue.partiesDue.beats = s.beats := by
    rw [State.beats_framed.partiesDue, State.beats_framed.slotsDue State.beats_slotless,
      State.beats_framed.linksDue State.beats_slotless]
  have before := s.beforeSync_undialled
  have trunks := s.beforeSync_trunks
  have links : Undialled s s.linksDue := by
    unfold State.linksDue
    generalize (s.forAll (allFin 8) State.segmentEnd).windowComplete = a at before trunks
    rw [State.forAll_fixed (f := State.syncExpired) (s := a) fun k _ => State.syncExpired_not (by rw [trunks]; exact stands k)]
    exact before.trans (a.forAll_undialled (fun k t => t.answerExpired_undialled k) _)
  have slots := links.trans s.linksDue.slotsDue_undialled
  have parties : Undialled s s.linksDue.slotsDue.partiesDue := by
    unfold State.partiesDue
    generalize s.linksDue.slotsDue = u at slots
    rw [State.forAll_fixed (f := State.holdExpired) (s := u) fun n _ => State.holdExpired_not (by
        rw [slots.stations]
        exact holds n),
      State.forAll_fixed (f := State.ringsExpired) (s := u) fun c _ => State.forAll_fixed fun i _ =>
        State.ringExpired_not fun p found due => rings c p (by
          rw [← (slots.calls c).parties]
          exact List.mem_of_getElem? found) due.2]
    exact (slots.trans (u.forAll_undialled (fun p t => t.gatherDue_undialled p) _)).trans
      (State.forAll_undialled _ (fun p t => t.durationExpired_undialled p) _)
  rw [State.settleDue_eq]
  generalize s.linksDue.slotsDue.partiesDue = u at counted parties
  obtain ⟨part, root, beat⟩ : u.part = s.part ∧ u.lists.root = s.lists.root ∧ u.beat = s.beat := by
    simpa only [State.beats, Prod.mk.injEq] using counted
  have calm : u.beatExpired = u := by
    refine State.beatExpired_not_due ?_
    rw [part, root, beat]
    by_cases runs : s.beatRunning = true
    · exact .inr (.inr (beats runs))
    · unfold State.beatRunning at runs
      simp only [Bool.and_eq_true, beq_iff_eq, bne_iff_ne, not_and_or, not_not] at runs
      exact runs.imp_right .inl
  have walks (l : ListId) (t : State) : (t.scanExpired l).calls = t.calls := by
    obtain ⟨_, e⟩ := t.scanExpired_lists l
    rw [e]
  rw [calm, State.forAll_view (view := State.calls) walks]
  exact parties.calls c

theorem State.freeCleared_open (s : State) (d : Fin 16) {c : Fin 16} (open_ : (s.calls.get c).state ≠ .clearing) :
    (s.freeCleared d).calls.get c = s.calls.get c := by
  by_cases same : d = c
  · rw [same, State.freeCleared_not open_]
  · exact (s.freeCleared_other same).1

theorem State.forAll_freeCleared_open {c : Fin 16} (ds : List (Fin 16)) (s : State) (open_ : (s.calls.get c).state ≠ .clearing) :
    (s.forAll ds State.freeCleared).calls.get c = s.calls.get c := by
  induction ds generalizing s with
  | nil => rfl
  | cons d ds ih =>
    have first := s.freeCleared_open d open_
    rw [State.forAll_cons, ih _ (by rw [first]; exact open_), first]

/-- A call from the timers' steps to a period's end. -/
theorem State.period_call {c : Fin 16} (audio : List (List Sample)) (open_ : (s.settleDue.calls.get c).state ≠ .clearing) :
    (s.settleDue.stepTimers.calls.get c).Kept ((s.beforeLatch.mixPeriod audio).arbitrate.calls.get c) := by
  have state : (s.settleDue.stepTimers.calls.get c).state = (s.settleDue.calls.get c).state := by
    unfold State.stepTimers
    dsimp only
    rw [Tab.get_map]
  have trained := State.forAll_undialled s.settleDue.stepTimers (fun k t => t.trainTrunk_undialled k) (allFin 4)
  have ran : s.beforeLatch = ((s.settleDue.stepTimers.forAll (allFin 4) State.trainTrunk).forAll (allFin 16)
      State.freeCleared).showStep.forAll (allFin 8) State.startVoice := by
    rw [State.beforeLatch_eq]
    rfl
  rw [State.arbitrate_calls, ran]
  generalize s.settleDue.stepTimers = a at state trained
  generalize a.forAll (allFin 4) State.trainTrunk = u at trained
  have freed := u.forAll_freeCleared_open (c := c) (allFin 16) (by
    rw [(trained.calls c).state, state]
    exact open_)
  have after := ((u.forAll (allFin 16) State.freeCleared).afterClearing_undialled audio).calls c
  rw [freed] at after
  exact (trained.calls c).trans after

end

end Sys2Proof.Machine

/-- The first part of O49. -/
theorem timers_step (s : State) (audio : List (List Sample)) : ∃ t, exec (.mixPeriodStart audio) s = .next t ∧
    (∀ n : Fin 64,
      let x := s.stations.get n
      let drops : Prop := ∃ i o, x.binding = some (i, o) ∧ (s.trunks.get (trunkOf i)).link = .up ∧
        (s.trunks.get (trunkOf i)).sync = some 0
      (¬ drops → x.holdTimer ≠ some 0 → (t.stations.get n).holdTimer = x.holdTimer.map (· - 1)) ∧
      (drops ∨ x.holdTimer = some 0 → x.state ≠ .undefined → x.state ≠ .lost → (t.stations.get n).holdTimer = none)) ∧
    ((∀ k, (s.trunks.get k).link = .up → (s.trunks.get k).sync ≠ some 0) →
      (∀ n, (s.stations.get n).holdTimer ≠ some 0) → (∀ c, ∀ q ∈ (s.calls.get c).parties, q.ringTimer ≠ some 0) →
      (s.beatRunning = true → s.beat.counter ≠ 0) → ∀ c, (s.calls.get c).state ≠ .clearing →
        (t.calls.get c).state = (s.calls.get c).state ∧
        (t.calls.get c).parties =
          (s.calls.get c).parties.map fun q => { q with ringTimer := q.ringTimer.map (· - 1) }) := by
  refine ⟨_, exec_mixPeriodStart s audio, fun n => ?_, fun stands holds rings beats c open_ => ?_⟩
  · intro x drops
    have failing : (∃ k, (s.stations.get n).onTrunk k ∧ (s.trunks.get k).failing) ↔ drops :=
      ⟨fun ⟨k, ⟨b, own, at_⟩, up, due⟩ => ⟨b.1, b.2, own, by rw [at_]; exact up, by rw [at_]; exact due⟩,
        fun ⟨i, o, own, up, due⟩ => ⟨trunkOf i, ⟨(i, o), own, rfl⟩, up, due⟩⟩
    rw [State.period_stations, State.stepTimers_holds]
    refine ⟨fun stands waits => ?_, fun gone defined present => ?_⟩
    · rw [State.period_holds (fun k here down => stands (failing.mp ⟨k, here, down⟩)) waits]
    · rw [State.period_stops (gone.imp_left failing.mpr) defined present]
      rfl
  · have kept := State.settleDue_calls (fun k down => stands k down.1 down.2) holds rings beats c
    have after := State.period_call (s := s) (c := c) audio (by rw [kept.state]; exact open_)
    have stepped : s.settleDue.stepTimers.calls.get c = { s.settleDue.calls.get c with
        parties := (s.settleDue.calls.get c).parties.map fun p => { p with ringTimer := tick p.ringTimer } } := by
      unfold State.stepTimers
      dsimp only
      rw [Tab.get_map]
    rw [after.state, after.parties, stepped]
    dsimp only
    rw [kept.state, kept.parties]
    exact ⟨rfl, rfl⟩

/-- The second part of O49. -/
theorem hold_expires (s : State) (n : Fin 64) :
    let x := s.stations.get n
    (x.holdTimer ≠ some 0 → exec (.holdTimerExpiry n) s = .next s.arbitrate) ∧
    (x.holdTimer = some 0 → x.state = .idle → x.call = none → exec (.holdTimerExpiry n) s =
      .next ((s.modStation n fun x => { x with state := .lost, holdTimer := none }).emitNote .station 3 n.val
        255).arbitrate) ∧
    (∀ c, x.holdTimer = some 0 → (x.state = .ringing ∨ x.state = .inCall) → x.call = some c →
      (∀ (j : Fin 8) (q : Party), (s.calls.get c).parties[j.val]? = some q → q.live = true → q.station = n →
        s.partyOf c n = some j) →
      ∃ t, exec (.holdTimerExpiry n) s = .next t ∧ Untouched s t ∧ (t.stations.get n).state = .lost ∧
        (t.stations.get n).call = none ∧ (t.stations.get n).holdTimer = none ∧
        (t.stations.get n).offHook = x.offHook ∧ (t.stations.get n).binding = x.binding ∧
        (s.port.grant ≠ none →
          t.noted { kind := .station, code := 3, subject := n.val, detail := c.val, time := s.time }) ∧
        ∀ i, s.partyOf c n = some i → ∀ p, (t.calls.get c).parties[i.val]? = some p →
          p.state = .lost ∧ p.ringTimer = none ∧ p.claim = none) := by
  intro x
  have ran {u : State} (same : s.holdExpired n = u) : exec (.holdTimerExpiry n) s = .next u.arbitrate :=
    congrArg (Host.Outcome.next ∘ State.arbitrate) same
  refine ⟨fun waits => ran (State.holdExpired_not waits), fun due idle alone => ran ?_, fun c due within call only => ?_⟩
  · rw [State.holdExpired_of due, State.stationLost_idle idle alone, show (s.stations.get n).call = none from alone]
    rfl
  · have lost : (s.stationLost n).stations.get n = (s.stations.get n).loses ∧
        ∀ i, s.partyOf c n = some i → ∀ p, ((s.stationLost n).calls.get c).parties[i.val]? = some p →
          p.state = .lost ∧ p.ringTimer = none ∧ p.claim = none := by
      cases party : s.partyOf c n with
      | none =>
        refine ⟨?_, nofun⟩
        rw [State.stationLost_bare within call party, State.modStation_stations, Tab.get_modify_self]
      | some i =>
        have away := State.stationLost_away within call party only
        exact ⟨away.station, fun j same => Option.some.inj same ▸ away.party⟩
    have acts := State.stationLost_acts (Acts.refl s) n
    have expired := State.holdExpired_of due
    rw [show (s.stations.get n).call = some c from call, show callCode (some c) = c.val from rfl] at expired
    have noted := (s.stationLost n).emitNote_noted .station 3 n.val c.val
    rw [acts.time] at noted
    have told := acts.trans (State.emitNote_acts (Acts.refl (s.stationLost n)) .station 3 n.val c.val)
    refine ⟨_, ran expired, told.toUntouched.trans (State.arbitrate_untouched _), ?_, ?_, ?_, ?_, ?_, fun busy => ?_,
      fun i party => ?_⟩
    iterate 5
      · rw [State.arbitrate_stations, State.emitNote_stations, lost.1]
        rfl
    · rw [State.arbitrate_waiting (told.granted_ne busy)]
      exact noted
    · rw [State.arbitrate_calls, State.emitNote_calls]
      exact lost.2 i party

/-- Settles O49: the stations and calls through a period's acts, and the expiries by their equations. -/
theorem stationTimers : Obligations.StationTimers := by
  unfold Obligations.StationTimers
  refine ⟨timers_step, hold_expires, fun s c i p => ?_⟩
  intro call found
  have ran {u : State} (same : s.ringExpired c i = u) : exec (.ringTimerExpiry c i) s = .next u.arbitrate :=
    congrArg (Host.Outcome.next ∘ State.arbitrate) same
  refine ⟨fun waits => ran (State.ringExpired_not fun q at_ due => ?_), fun ringing due active ever other anchored connected => ?_⟩
  · rw [← Option.some.inj (found.symm.trans at_)] at due
    exact waits.elim (fun h => h due.1) (fun h => h due.2)
  · have dead : (p.leaves .noAnswer).state ≠ .connected := nofun
    have same : ((s.calls.get c).parties.set i.val (p.leaves .noAnswer)).filter (fun p => p.state == .connected) =
        (s.calls.get c).parties.filter fun p => p.state == .connected := by
      exact filter_set_same found (by rw [ringing]; rfl) rfl
    have left := State.leaves_of (s := s) found (st := .noAnswer) (Call.goesOn.left active ever found other anchored
      (by rw [same]; exact connected))
    refine ⟨_, ran (State.ringExpired_of found ringing due), left.untouched.trans (State.arbitrate_untouched _), ?_, ?_,
      fun o claim => ?_, fun o claim => ?_⟩
    · rw [State.arbitrate_calls, left.calls]
      rfl
    · rw [State.arbitrate_stations, left.stations]
    · unfold State.stack
      rw [State.arbitrate_claims]
      exact left.gone o claim
    · unfold State.stack
      rw [State.arbitrate_claims]
      exact left.stack o claim

end

section
/-! PROOF. Station reports (O50). -/

open Sys2Proof Sys2Proof.Machine

namespace Sys2Proof.Machine

section
variable {s : State}

/-- A note more. -/
theorem State.notedAll_emitNote {ns : List Note} (noted : s.notedAll ns) (k : NoteKind) (code subject detail : Nat) :
    (s.emitNote k code subject detail).notedAll (ns ++ [{ kind := k, code, subject, detail, time := s.time }]) := by
  by_cases room : s.notes.queue.length < 32
  · refine .inl ?_
    rw [State.emitNote_queue room]
    rcases noted with ⟨older, e⟩ | ⟨full, -⟩
    · exact ⟨older, by rw [e, List.append_assoc]⟩
    · exact absurd room (not_lt.mpr full)
  · rw [State.notedAll, State.emitNote_lost (not_lt.mp room)]
    exact .inr ⟨not_lt.mp room, by simp⟩

theorem State.notedAll_nil (s : State) : s.notedAll [] := .inl ⟨s.notes.queue, by simp⟩

/-! ### The station a report goes to -/

theorem State.stationAt_first {i o : Fin 256} {n : Fin 64} (bound : (s.stations.get n).binding = some (i, o))
    (first : ∀ m q, m < n → (s.stations.get m).binding ≠ some (i, q)) : s.stationAt i = some n := by
  unfold State.stationAt
  refine find?_lowest (allFin_rising 64) (mem_allFin n) ?_ fun m _ below => ?_
  · rw [bound]
    exact beq_self_eq_true i
  · cases other : (s.stations.get m).binding with
    | none => rfl
    | some b =>
      refine beq_eq_false_iff_ne.mpr fun same => first m b.2 below ?_
      rw [other, ← same]

theorem State.stationAt_none {i : Fin 256} (nobody : ∀ n o, (s.stations.get n).binding ≠ some (i, o)) : s.stationAt i = none := by
  unfold State.stationAt
  refine List.find?_eq_none.mpr fun n _ here => ?_
  cases bound : (s.stations.get n).binding with
  | none =>
    rw [bound] at here
    exact absurd here (by simp)
  | some b =>
    rw [bound] at here
    refine nobody n b.2 ?_
    rw [bound, ← beq_iff_eq.mp here]

/-- A control block whose only present slot is its first, on a trunk without a changeover in progress. -/
theorem State.inbound_reports {k : Fin 4} {b : ControlBlock} {r : StationReport} (up : (s.trunks.get k).link = .up)
    (unserved : (s.trunks.get k).served ≤ 8 * b.group.val) (present : 8 * b.group.val < (s.trunks.get k).present)
    (alone : (s.trunks.get k).present ≤ 8 * b.group.val + 1) (report : b.stations[0]? = some r)
    (settled : ∀ y : Fin 8, y.val / 2 = k.val → (s.changeovers.get y).state = .free ∨ (s.changeovers.get y).state = .active)
    {u : State} (ran : (match s.stationAt (outletAt k ⟨8 * b.group.val, by omega⟩) with
      | some n => (s.modTrunk k fun t => { t with sync := some 4 }).stationReport n r
      | none => s.modTrunk k fun t => { t with sync := some 4 }) = u)
    (trunks : u.trunks = (s.modTrunk k fun t => { t with sync := some 4 }).trunks) (slots : u.changeovers = s.changeovers) :
    exec (.inboundControlBlock k b) s = .next u.arbitrate := by
  have same : ((s.modTrunk k fun t => { t with sync := some 4 }).trunks.get k).served = (s.trunks.get k).served ∧
      ((s.modTrunk k fun t => { t with sync := some 4 }).trunks.get k).present = (s.trunks.get k).present := by
    rw [State.modTrunk_trunks, Tab.get_modify_self]
    exact ⟨rfl, rfl⟩
  have handed : s.inbound k b = u := by
    rw [State.inbound_of up, State.loopReports_unserved (by rw [same.1]; exact unserved)]
    have stations : (s.modTrunk k fun t => { t with sync := some 4 }).stationReports k b = u := by
      refine State.forAll_first ?_ fun i other => ?_
      · dsimp only
        rw [show b.stations[(0 : Fin 8).val]? = some r from report]
        dsimp only
        rw [if_pos (by simp only [slotIn]; rw [same.2]; exact present)]
        refine Eq.trans ?_ ran
        rfl
      · dsimp only
        split
        · refine if_neg ?_
          have more : 0 < i.val := Nat.pos_of_ne_zero fun zero => other (Fin.ext zero)
          simp only [slotIn]
          rw [trunks, same.2]
          omega
        · rfl
    rw [stations, State.echoes_settled (by rw [slots]; exact settled)]
  exact congrArg (Host.Outcome.next ∘ State.arbitrate) handed

/-! ### The report's three parts (R113, R115, R116) -/

/-- What the key of a report makes. -/
def State.keyNoted (n : Fin 64) (key : Option (Fin 16)) (s : State) : State :=
  match key with
  | some y => s.emitNote .stationKey y.val n.val (callCode (s.stations.get n).call)
  | none => s

/-- What the hook of a report makes. -/
def State.hookNoted (n : Fin 64) (off : Bool) (s : State) : State :=
  if off ≠ (s.stations.get n).offHook then s.hookChange n off else s

theorem State.stationReport_absent {n : Fin 64} {r : StationReport} (absent : r.present = false) : s.stationReport n r = s := by
  unfold State.stationReport
  rw [absent]
  rfl

theorem State.stationReport_of {n : Fin 64} {r : StationReport} (present : r.present = true) :
    s.stationReport n r = ((s.presence n).hookNoted n r.offHook).keyNoted n r.key := by
  unfold State.stationReport State.hookNoted State.keyNoted
  rw [present]
  dsimp only
  rw [if_neg (by decide)]
  simp only [bne_iff_ne, ne_eq]
  all_goals rfl

/-- The report's note of a hook change. -/
def hookCode (off : Bool) : Nat := if off then 1 else 2

theorem State.presence_defined {n : Fin 64} (defined : (s.stations.get n).state = .idle ∨ (s.stations.get n).state = .ringing ∨
    (s.stations.get n).state = .inCall) :
    s.presence n = s.modStation n fun y => { y with holdTimer := some (s.stations.get n).holdValue } := by
  have same : s.modStation n (fun y => { y with holdTimer := some y.holdValue }) =
      s.modStation n fun y => { y with holdTimer := some (s.stations.get n).holdValue } := by
    unfold State.modStation
    exact congrArg (fun stations => { s with stations }) (Tab.modify_congr _ _ (h := rfl))
  unfold State.presence
  dsimp only
  rw [← same]
  rcases defined with state | state | state <;> (rw [state] <;> rfl)

theorem State.presence_lost {n : Fin 64} (lost : (s.stations.get n).state = .lost) : s.presence n =
    (s.modStation n fun y =>
      { y with state := .idle, holdTimer := some (s.stations.get n).holdValue }).emitNote .station 4 n.val 255 := by
  have same : s.modStation n (fun y => { y with state := .idle, holdTimer := some y.holdValue }) =
      s.modStation n fun y => { y with state := .idle, holdTimer := some (s.stations.get n).holdValue } := by
    unfold State.modStation
    exact congrArg (fun stations => { s with stations }) (Tab.modify_congr _ _ (h := rfl))
  unfold State.presence
  dsimp only
  rw [← same, lost] <;> rfl

/-- A hook change that no party follows. -/
theorem State.hookChange_noted {n : Fin 64} {off : Bool} (alone : (s.stations.get n).state = .idle ∨
    ((s.stations.get n).state = .ringing ∧ off = false) ∨ ((s.stations.get n).state = .inCall ∧ off = true)) :
    s.hookChange n off = (s.modStation n fun y => { y with offHook := off }).emitNote .station (hookCode off) n.val
      (callCode (s.stations.get n).call) := by
  unfold State.hookChange
  dsimp only
  rcases alone with state | ⟨state, e⟩ | ⟨state, e⟩
  · rw [state] <;> rfl
  · rw [state, e] <;> rfl
  · rw [state, e] <;> rfl

/-- The hook and the key of a report that no party follows. -/
theorem State.hookNoted_alone {n : Fin 64} {off : Bool} (alone : (s.stations.get n).state = .idle ∨
    ((s.stations.get n).state = .ringing ∧ (off = false ∨ (s.stations.get n).offHook = true)) ∨
    ((s.stations.get n).state = .inCall ∧ (off = true ∨ (s.stations.get n).offHook = false))) :
    s.hookNoted n off = if off = (s.stations.get n).offHook then s
      else (s.modStation n fun y => { y with offHook := off }).emitNote .station (hookCode off) n.val
        (callCode (s.stations.get n).call) := by
  unfold State.hookNoted
  by_cases same : off = (s.stations.get n).offHook
  · rw [if_neg (not_not.mpr same), if_pos same]
  · rw [if_pos same, if_neg same]
    refine State.hookChange_noted ?_
    rcases alone with idle | ⟨ringing, off_ | on⟩ | ⟨inCall, off_ | on⟩
    · exact .inl idle
    · exact .inr (.inl ⟨ringing, off_⟩)
    · refine .inr (.inl ⟨ringing, ?_⟩)
      rw [on] at same
      exact Bool.eq_false_iff.mpr same
    · exact .inr (.inr ⟨inCall, off_⟩)
    · refine .inr (.inr ⟨inCall, ?_⟩)
      rw [on] at same
      exact Bool.eq_true_of_not_eq_false same

theorem State.keyNoted_of {n : Fin 64} {call : Option (Fin 16)} (own : (s.stations.get n).call = call) (key : Option (Fin 16)) :
    s.keyNoted n key = match key with
      | some y => s.emitNote .stationKey y.val n.val (callCode call)
      | none => s := by
  unfold State.keyNoted
  rw [own] <;> rfl

/-! ### A party that answers or hangs up (R123, R124) -/

/-- A party that has answered. -/
def Party.answers (p : Party) : Party := { p with state := .connected, ringTimer := none }

/-- A call goes on with one of its parties connected. -/
theorem Call.goesOn.answered {x : Call} {i : Nat} {p q : Party} (active : x.state = .active) (ever : x.everActive = true)
    (found : x.parties[i]? = some p) (anchored : x.anchorGone = false) (connects : q.state = .connected)
    (connected : 2 ≤ ((x.parties.set i q).filter fun p => p.state == .connected).length) :
    ({ x with parties := x.parties.set i q } : Call).goesOn where
  active := active
  ever := ever
  anchored := by
    obtain ⟨inside, -⟩ := List.getElem?_eq_some_iff.mp found
    unfold Call.anchorGone at anchored ⊢
    dsimp only
    by_cases same : i = x.anchor
    · rw [← same, List.getElem?_set_self inside]
      dsimp only
      rw [connects]
      rfl
    · rw [List.getElem?_set_ne same]
      exact anchored
  connected := connected

theorem filter_set_more {ps : List Party} {i : Nat} {p q : Party} {f : Party → Bool} (found : ps[i]? = some p) (more : f q = true) :
    (ps.filter f).length ≤ ((ps.set i q).filter f).length := by
  obtain ⟨inside, e⟩ := List.getElem?_eq_some_iff.mp found
  have whole : ps = ps.take i ++ p :: ps.drop (i + 1) := by
    rw [← e, List.getElem_cons_drop inside, List.take_append_drop]
  rw [List.set_eq_take_append_cons_drop, if_pos inside]
  conv_lhs => rw [whole]
  rw [List.filter_append, List.filter_append, List.filter_cons_of_pos more, List.length_append, List.length_append,
    List.length_cons, List.filter_cons]
  split
  · rw [List.length_cons]
  · omega

/-- What an answer leaves. -/
theorem State.answer_of {n : Fin 64} {c : Fin 16} {j : Fin 8} {p : Party} (call : (s.stations.get n).call = some c)
    (party : s.partyOf c n = some j) (found : (s.calls.get c).parties[j.val]? = some p)
    (goes : ({ s.calls.get c with parties := (s.calls.get c).parties.set j.val p.answers } : Call).goesOn) :
    ∃ tones, s.answer n = { s with
      calls := s.calls.set c { s.calls.get c with parties := (s.calls.get c).parties.set j.val p.answers }
      stations := s.stations.modify n fun x => { x with state := .inCall }, tones } := by
  have modded := State.modParty_of found fun p => { p with state := .connected, ringTimer := none }
  obtain ⟨tones, rung⟩ := (({ s with
      calls := s.calls.set c { s.calls.get c with parties := (s.calls.get c).parties.set j.val p.answers } } : State).modStation n
        fun x => { x with state := .inCall }).releaseRing_tones
  refine ⟨tones, ?_⟩
  unfold State.answer
  rw [call]
  dsimp only
  rw [party]
  dsimp only
  rw [modded]
  refine (congrArg (State.examine c) rung).trans (State.examine_goesOn ?_)
  change (((s.calls.set c _).get c) : Call).goesOn
  rw [Tab.get_set, if_pos rfl]
  exact goes

theorem State.hookChange_answers {n : Fin 64} (ringing : (s.stations.get n).state = .ringing) : s.hookChange n true =
    ((s.modStation n fun y => { y with offHook := true }).answer n).emitNote .station 1 n.val (callCode (s.stations.get n).call) := by
  unfold State.hookChange
  dsimp only
  rw [ringing] <;> rfl

theorem State.hookChange_hangsUp {n : Fin 64} (within : (s.stations.get n).state = .inCall) : s.hookChange n false =
    ((s.modStation n fun y => { y with offHook := false }).hangUp n).emitNote .station 2 n.val (callCode (s.stations.get n).call) := by
  unfold State.hookChange
  dsimp only
  rw [within] <;> rfl

theorem State.keyNoted_frame (s : State) (n : Fin 64) (key : Option (Fin 16)) : (s.keyNoted n key).trunks = s.trunks ∧
    (s.keyNoted n key).changeovers = s.changeovers ∧ (s.keyNoted n key).calls = s.calls ∧
    (s.keyNoted n key).stations = s.stations ∧ (s.keyNoted n key).claims = s.claims ∧
    (s.keyNoted n key).programs = s.programs ∧ (s.port.grant ≠ none → (s.keyNoted n key).port.grant ≠ none) := by
  unfold State.keyNoted
  split
  · refine ⟨State.emitNote_trunks .., State.emitNote_changeovers .., State.emitNote_calls .., State.emitNote_stations ..,
      State.emitNote_claims .., State.emitNote_programs .., (State.emitNote_acts (Acts.refl s) _ _ _ _).granted_ne⟩
  · exact ⟨rfl, rfl, rfl, rfl, rfl, rfl, id⟩

/-- A hang-up in a call that goes on. -/
theorem State.hangUp_of {n : Fin 64} {c : Fin 16} {j : Fin 8} {p : Party} (call : (s.stations.get n).call = some c)
    (party : s.partyOf c n = some j) (found : (s.calls.get c).parties[j.val]? = some p)
    (goes : ({ s.calls.get c with parties := (s.calls.get c).parties.set j.val (p.leaves .left) } : Call).goesOn) :
    s.hangUp n = ((s.endParty c j .left).idleStation n) := by
  have ended := State.endParty_ended found .left
  unfold State.hangUp
  rw [call]
  dsimp only
  rw [party]
  dsimp only
  refine State.examine_goesOn ?_
  change ((s.endParty c j .left).calls.get c).goesOn
  rw [ended.calls, Tab.get_set, if_pos rfl]
  exact goes

end

end Sys2Proof.Machine


/-- Settles O50, part by part of a report. -/
theorem stationReports : Obligations.StationReports := by
  unfold Obligations.StationReports
  intro s k b r
  intro t g i base code up unserved present alone report settled
  have codes (c : Option (Fin 16)) : code c = callCode c := by cases c <;> rfl
  have reports {u : State} (same : (match s.stationAt i with
      | some n => base.stationReport n r
      | none => base) = u) (trunks : u.trunks = base.trunks) (slots : u.changeovers = s.changeovers) :
      exec (.inboundControlBlock k b) s = .next u.arbitrate :=
    State.inbound_reports up unserved present alone report settled (same ▸ rfl) trunks slots
  refine ⟨fun nobody => reports ?_ rfl rfl, fun n o given bound first => ?_⟩
  · rcases nobody with absent | unbound
    · cases s.stationAt i with
      | none => rfl
      | some n => exact State.stationReport_absent absent
    · rw [State.stationAt_none unbound]
  · intro x hooked keyed
    have found := State.stationAt_first bound first
    have goes {u : State} (same : ((base.presence n).hookNoted n r.offHook).keyNoted n r.key = u)
        (trunks : u.trunks = base.trunks) (slots : u.changeovers = s.changeovers) :
        exec (.inboundControlBlock k b) s = .next u.arbitrate := by
      refine reports ?_ trunks slots
      rw [found]
      exact (State.stationReport_of given).trans same
    have keyNoted (u : State) (call : (u.stations.get n).call = x.call) : u.keyNoted n r.key = keyed u := by
      rw [State.keyNoted_of call]
      cases key : r.key with
      | none => simp only [keyed, key]
      | some y => simp only [keyed, key, codes]
    have hookNoted (u : State) (call : (u.stations.get n).call = x.call) (off : (u.stations.get n).offHook = x.offHook)
        (lone : (u.stations.get n).state = .idle ∨
          ((u.stations.get n).state = .ringing ∧ (r.offHook = false ∨ (u.stations.get n).offHook = true)) ∨
          ((u.stations.get n).state = .inCall ∧ (r.offHook = true ∨ (u.stations.get n).offHook = false))) :
        u.hookNoted n r.offHook = hooked u := by
      rw [State.hookNoted_alone lone, off, call]
      simp only [hooked, codes]
      rfl
    have hookedCall (u : State) (call : (u.stations.get n).call = x.call) : ((hooked u).stations.get n).call = x.call := by
      simp only [hooked]
      split
      · exact call
      · rw [State.emitNote_stations, State.modStation_stations, Tab.get_modify_self]
        exact call
    have frames (u : State) : (keyed (hooked u)).trunks = u.trunks ∧ (keyed (hooked u)).changeovers = u.changeovers := by
      have hook : (hooked u).trunks = u.trunks ∧ (hooked u).changeovers = u.changeovers := by
        simp only [hooked]
        split
        · exact ⟨rfl, rfl⟩
        · exact ⟨State.emitNote_trunks .., State.emitNote_changeovers ..⟩
      have key (v : State) : (keyed v).trunks = v.trunks ∧ (keyed v).changeovers = v.changeovers := by
        simp only [keyed]
        split
        · exact ⟨State.emitNote_trunks .., State.emitNote_changeovers ..⟩
        · exact ⟨rfl, rfl⟩
      exact ⟨(key _).1.trans hook.1, (key _).2.trans hook.2⟩
    have noted (u : State) (call : (u.stations.get n).call = x.call) (off : (u.stations.get n).offHook = x.offHook)
        (lone : (u.stations.get n).state = .idle ∨
          ((u.stations.get n).state = .ringing ∧ (r.offHook = false ∨ (u.stations.get n).offHook = true)) ∨
          ((u.stations.get n).state = .inCall ∧ (r.offHook = true ∨ (u.stations.get n).offHook = false))) :
        (u.hookNoted n r.offHook).keyNoted n r.key = keyed (hooked u) := by
      rw [hookNoted u call off lone, keyNoted _ (hookedCall u call)]
    have own : ((base.modStation n fun y => { y with holdTimer := some (base.stations.get n).holdValue }).stations.get n) =
        { x with holdTimer := some x.holdValue } := by
      rw [State.modStation_stations, Tab.get_modify_self]
      rfl
    refine ⟨fun lone => goes ?_ (frames _).1 (frames _).2, fun lost => goes ?_ ?_ ?_, fun c j p call party at_ active ever anchored => ?_⟩
    · rw [State.presence_defined (s := base) (lone.imp_right (Or.imp And.left And.left))]
      exact noted _ (by rw [own]) (by rw [own]) (by rw [own]; exact lone)
    · have lone : ((base.modStation n fun y => { y with state := .idle, holdTimer := some (base.stations.get n).holdValue }).stations.get
          n) = { x with state := .idle, holdTimer := some x.holdValue } := by
        rw [State.modStation_stations, Tab.get_modify_self]
        rfl
      rw [State.presence_lost (s := base) lost]
      refine noted _ ?_ ?_ (.inl ?_) <;> rw [State.emitNote_stations, lone]
    · exact (frames _).1.trans (State.emitNote_trunks ..)
    · exact (frames _).2.trans (State.emitNote_changeovers ..)
    · have isActive : (s.calls.get c).state = .active := active
      have steps (f g : Station → Station) (u : State)
          (hu : base.modStation n (fun y => { y with holdTimer := some (base.stations.get n).holdValue }) = u) :
          (u.stations.modify n f).modify n g = s.stations.set n (g (f { x with holdTimer := some x.holdValue })) := by
        rw [← hu, State.modStation_stations, Tab.modify_modify, Tab.modify_modify, Tab.modify_eq_set]
        rfl
      refine ⟨fun ringing on off rings connected => ?_, fun within off on connects other connected => ?_⟩
      · have here := State.presence_defined (s := base) (.inr (.inl ringing))
        generalize hu : (base.modStation n fun y => { y with holdTimer := some (base.stations.get n).holdValue }) = u at here own
        have changed : u.hookNoted n r.offHook =
            ((u.modStation n fun y => { y with offHook := true }).answer n).emitNote .station 1 n.val c.val := by
          unfold State.hookNoted
          rw [off, own, if_pos (by rw [on]; decide), State.hookChange_answers (by rw [own]; exact ringing), own, call]
          rfl
        have parts : u.partyOf c n = some j ∧ (u.calls.get c).parties[j.val]? = some p ∧ u.calls = s.calls := by
          rw [← hu]
          exact ⟨party, at_, rfl⟩
        obtain ⟨tones, answered⟩ := State.answer_of (s := u.modStation n fun y => { y with offHook := true }) (n := n) (c := c)
          (by rw [State.modStation_stations, Tab.get_modify_self, own]; exact call) parts.1 parts.2.1 (by
            rw [show ((u.modStation n fun y => { y with offHook := true }).calls.get c) = s.calls.get c by
              rw [State.modStation_calls, parts.2.2]]
            exact Call.goesOn.answered active ever at_ anchored rfl (le_trans connected (filter_set_more at_ rfl)))
        have kept : u.trunks = base.trunks ∧ u.changeovers = s.changeovers ∧ u.claims = s.claims ∧ u.programs = s.programs ∧
            u.notes = s.notes ∧ u.time = s.time ∧ u.port = s.port := by
          rw [← hu]
          exact ⟨rfl, rfl, rfl, rfl, rfl, rfl, rfl⟩
        obtain ⟨trunks, slots, claims, programs, notes, time, port⟩ := kept
        have stations := steps (fun y => { y with offHook := true }) (fun y => { y with state := .inCall }) u hu
        have calls : (u.modStation n fun y => { y with offHook := true }).calls = s.calls := parts.2.2
        rw [answered] at changed
        rw [calls] at changed
        generalize hw : ({ (u.modStation n fun y => { y with offHook := true }) with
          calls := s.calls.set c { s.calls.get c with parties := (s.calls.get c).parties.set j.val p.answers }
          stations := (u.modStation n fun y => { y with offHook := true }).stations.modify n fun x => { x with state := .inCall }
          tones } : State) = w at changed
        have told := (w.emitNote .station 1 n.val c.val).keyNoted_frame n r.key
        obtain ⟨trunks', slots', calls', stations', claims', programs', granted⟩ := told
        have wParts : w.trunks = u.trunks ∧ w.changeovers = u.changeovers ∧ w.claims = u.claims ∧ w.programs = u.programs ∧
            w.notes = u.notes ∧ w.time = u.time ∧ w.port = u.port := by
          rw [← hw]
          exact ⟨rfl, rfl, rfl, rfl, rfl, rfl, rfl⟩
        obtain ⟨wTrunks, wSlots, wClaims, wPrograms, wNotes, wTime, wPort⟩ := wParts
        have wStations : w.stations = s.stations.set n { x with
            state := .inCall, offHook := true, holdTimer := some x.holdValue } := by
          rw [← hw]
          exact stations
        have wCalls : w.calls = s.calls.set c { s.calls.get c with parties := (s.calls.get c).parties.set j.val p.answers } := by
          rw [← hw]
        refine ⟨_, goes (by rw [here, changed]) ?_ ?_, ?_, ?_, fun busy => ?_, ?_, ?_⟩
        · rw [trunks', State.emitNote_trunks, wTrunks, trunks]
        · rw [slots', State.emitNote_changeovers, wSlots, slots]
        · rw [State.arbitrate_calls, calls', State.emitNote_calls, wCalls]
          rfl
        · rw [State.arbitrate_stations, stations', State.emitNote_stations, wStations]
        · have noteSame := State.emitNote_notes_congr (s := s) (t := w) (wNotes.trans notes) (wTime.trans time) .station 1 n.val c.val
          have timeSame : (w.emitNote .station 1 n.val c.val).time = (s.emitNote .station 1 n.val c.val).time := by
            rw [State.emitNote_time, State.emitNote_time, wTime, time]
          rw [State.arbitrate_waiting (granted ((State.emitNote_acts (Acts.refl w) _ _ _ _).granted_ne (by
            rw [wPort, port]; exact busy)))]
          rw [State.keyNoted_of (call := some c) (by
            rw [State.emitNote_stations, wStations, Tab.get_set, if_pos rfl]
            exact call)]
          cases key : r.key with
          | none =>
            simp only [keyed, key]
            exact noteSame
          | some y =>
            simp only [keyed, key, codes, call]
            exact State.emitNote_notes_congr noteSame timeSame _ _ _ _
        · rw [State.arbitrate_claims, claims', State.emitNote_claims, wClaims, claims]
        · rw [State.arbitrate_programs, programs', State.emitNote_programs, wPrograms, programs]
      · have here := State.presence_defined (s := base) (.inr (.inr within))
        generalize hu : (base.modStation n fun y => { y with holdTimer := some (base.stations.get n).holdValue }) = u at here own
        have changed : u.hookNoted n r.offHook =
            ((u.modStation n fun y => { y with offHook := false }).hangUp n).emitNote .station 2 n.val c.val := by
          unfold State.hookNoted
          rw [on, own, if_pos (by rw [off]; decide), State.hookChange_hangsUp (by rw [own]; exact within), own, call]
          rfl
        have parts : u.partyOf c n = some j ∧ (u.calls.get c).parties[j.val]? = some p ∧ u.calls = s.calls := by
          rw [← hu]
          exact ⟨party, at_, rfl⟩
        have stations := steps (fun y => { y with offHook := false }) (fun y => { y with state := .idle, call := none }) u hu
        have kept : u.trunks = base.trunks ∧ u.changeovers = s.changeovers ∧ u.time = s.time ∧ u.port = s.port ∧
            ∀ o, u.stack o = s.stack o := by
          rw [← hu]
          exact ⟨rfl, rfl, rfl, rfl, fun _ => rfl⟩
        obtain ⟨trunks, slots, time, port, stack⟩ := kept
        generalize hv : (u.modStation n fun y => { y with offHook := false }) = v at changed
        have vParts : v.calls = s.calls ∧ v.stations = u.stations.modify n (fun y => { y with offHook := false }) ∧
            v.trunks = u.trunks ∧ v.changeovers = u.changeovers ∧ v.time = u.time ∧ v.port = u.port ∧
            v.partyOf c n = some j ∧ ∀ o, v.stack o = u.stack o := by
          rw [← hv]
          exact ⟨parts.2.2, rfl, rfl, rfl, rfl, rfl, parts.1, fun _ => rfl⟩
        obtain ⟨vCalls, vStations, vTrunks, vSlots, vTime, vPort, vParty, vStack⟩ := vParts
        have fewer := filter_set_length at_ (p.leaves .left) (fun p => p.state == .connected)
        have many : 3 ≤ ((s.calls.get c).parties.filter fun p => p.state == .connected).length := connected
        have vFound : (v.calls.get c).parties[j.val]? = some p := by rw [vCalls]; exact at_
        have hung := State.hangUp_of (s := v) (n := n) (c := c)
          (by rw [vStations, Tab.get_modify_self, own]; exact call) vParty vFound (by
            rw [vCalls]
            exact Call.goesOn.left active ever at_ other anchored (Nat.le_of_succ_le_succ (le_trans many fewer)))
        have ended := State.endParty_ended vFound .left
        rw [hung] at changed
        generalize v.endParty c j .left = e at ended changed
        have eActs := ended.untouched.toActs
        have told := ((e.idleStation n).emitNote .station 2 n.val c.val).keyNoted_frame n r.key
        obtain ⟨trunks', slots', calls', stations', claims', -, granted⟩ := told
        have eStations : (e.idleStation n).stations = s.stations.set n { x with
            state := .idle, call := none, offHook := false, holdTimer := some x.holdValue } := by
          unfold State.idleStation
          rw [State.modStation_stations, ended.untouched.stations, vStations]
          exact stations
        refine ⟨_, goes (by rw [here, changed]) ?_ ?_, ?_, ?_, fun busy => ?_, fun o claim => ?_, fun o claim => ?_⟩
        · rw [trunks', State.emitNote_trunks]
          exact eActs.trunks.trans (vTrunks.trans trunks)
        · rw [slots', State.emitNote_changeovers]
          exact eActs.changeovers.trans (vSlots.trans slots)
        · rw [State.arbitrate_calls, calls', State.emitNote_calls]
          refine ended.calls.trans ?_
          rw [vCalls]
          rfl
        · rw [State.arbitrate_stations, stations', State.emitNote_stations, eStations]
        · have eGrant : (e.idleStation n).port.grant ≠ none := eActs.granted_ne (by rw [vPort, port]; exact busy)
          have eTime : (e.idleStation n).time = s.time := eActs.time.trans (vTime.trans time)
          rw [State.arbitrate_waiting (granted ((State.emitNote_acts (Acts.refl (e.idleStation n)) _ _ _ _).granted_ne eGrant))]
          rw [State.keyNoted_of (call := none) (by rw [State.emitNote_stations, eStations, Tab.get_set, if_pos rfl])]
          have first := State.notedAll_emitNote (e.idleStation n).notedAll_nil .station 2 n.val c.val
          rw [eTime] at first
          cases r.key with
          | none => exact first
          | some y =>
            have second := State.notedAll_emitNote first .stationKey y.val n.val 255
            rw [State.emitNote_time, eTime] at second
            exact second
        · unfold State.stack
          rw [State.arbitrate_claims, claims', State.emitNote_claims]
          exact ended.gone o claim
        · unfold State.stack
          rw [State.arbitrate_claims, claims', State.emitNote_claims]
          exact (ended.stack o claim).trans ((vStack o).trans (stack o))

end

section
/-! PROOF. What the placing of a claim leaves of calls, of the claims of their parties and of the programs' slots. -/

open Sys2Proof Sys2Proof.Machine

namespace Sys2Proof.Machine

/-! ### The port's grant -/

/-- A grant that is not a channel's stands. -/
def State.Grants (s t : State) : Prop :=
  ∀ g, s.port.grant = some g → (∀ c x, g.transfer ≠ .channel c x) → t.port.grant = some g

theorem State.Grants.of {s t : State} (port : t.port = s.port) : s.Grants t := fun g granted _ => by
  rw [port]
  exact granted

theorem State.Grants.trans {a b c : State} (h : a.Grants b) (k : b.Grants c) : a.Grants c :=
  fun g granted other => k g (h g granted other) other

/-- A TAKEN write that is not in progress is still not. -/
theorem State.Grants.takenGranted {s t : State} (grants : s.Grants t)
    (same : t.port.grant.map (·.transfer) = s.port.grant.map (·.transfer)) (l : ListId) (addr : Nat) :
    t.takenGranted l addr = s.takenGranted l addr := by
  unfold State.takenGranted
  cases granted : s.port.grant with
  | none =>
    rw [granted] at same
    rw [Option.map_eq_none_iff.mp same]
  | some g =>
    by_cases channel : ∃ c x, g.transfer = .channel c x
    · obtain ⟨c, x, own⟩ := channel
      rw [granted] at same
      obtain ⟨g', granted', own'⟩ := Option.map_eq_some_iff.mp same
      rw [granted']
      obtain ⟨transfer, discard⟩ := g
      obtain ⟨transfer', discard'⟩ := g'
      dsimp only at own own'
      rw [own] at own'
      subst own own'
      rfl
    · rw [grants g granted fun c x own => channel ⟨c, x, own⟩]

section
variable (s : State)

theorem State.signalOwner_port (w : ChanOwner) (f : Channel → Channel) : (s.signalOwner w f).port = s.port := by
  obtain ⟨channels, e⟩ := s.signalOwner_only w f
  rw [e]

theorem State.signalSources_port (f : Channel → Channel) : (s.signalSources f).port = s.port := by
  obtain ⟨channels, e⟩ := s.signalSources_only f
  rw [e]

theorem State.showsTo_port (f : Program → Program) : (s.showsTo f).port = s.port := rfl

theorem State.enterHeld_port (r : HoldRecord) : (s.enterHeld r).port = s.port := by
  rw [State.enterHeld_eq, State.showsTo_port, State.signalSources_port, State.modTheatre_port]

theorem State.resumeTest_port : s.resumeTest.port = s.port := by
  by_cases met : ∃ r, s.theatre.hold = some r ∧ s.resumes r
  · obtain ⟨r, held, met⟩ := met
    rw [State.resumeTest_of held met, State.resumeShow_eq s 0 held, State.emitNote_port, State.showsTo_port,
      State.signalSources_port, State.modTheatre_port]
  · rw [State.resumeTest_not fun r held met' => met ⟨r, held, met'⟩]

theorem State.leaveHoldSet_port (p : Fin 64) : (s.leaveHoldSet p).port = s.port := by
  unfold State.leaveHoldSet
  split
  · split
    · exact State.resumeTest_port _
    · rfl
  · rfl

theorem State.reportDisplaced_port (o : Fin 256) (old new : Option Claim) : (s.reportDisplaced o old new).port = s.port := by
  have shown (p : Fin 64) : (s.displaced p o).port = s.port := by
    unfold State.displaced
    split
    · rfl
    · rw [State.emitNote_port, State.enterHeld_port]
  unfold State.reportDisplaced
  split
  · dsimp only
    split
    · exact shown _
    · rfl
  · rfl

theorem State.enterPlaying_port (p : Fin 64) : (s.enterPlaying p).port = s.port := by
  unfold State.enterPlaying
  dsimp only
  split
  · rfl
  · split
    · rw [State.signalOwner_port]
      rfl
    · rfl

theorem State.chimeStep_port (p : Fin 64) : (s.chimeStep p).port = s.port := by
  unfold State.chimeStep
  split
  · exact s.enterPlaying_port p
  · split
    · next v _ =>
      obtain ⟨tones, e⟩ := s.giveVoice_only v (.chime p) _
      rw [e]
      rfl
    · exact State.enterPlaying_port _ p

theorem State.gatherTestOf_port (c : Option Claim) : (s.gatherTestOf c).port = s.port := by
  unfold State.gatherTestOf
  split
  · unfold State.gatherTest
    dsimp only
    split
    · exact s.chimeStep_port _
    · rfl
  · rfl

theorem State.countHeld_port (c : Option Claim) (f : Nat → Nat) : (s.countHeld c f).port = s.port := by
  unfold State.countHeld
  split <;> rfl

theorem State.restack_port (o : Fin 256) (cs : List Claim) : (s.restack o cs).port = s.port := by
  have line (t : State) : (t.evalLine o).port = t.port := rfl
  by_cases same : (s.holder o).map (·.owner) = (s.newHolder o cs).map (·.owner)
  · rw [State.restack_same same]
    rfl
  · have named : ((s.renamed o cs).reportDisplaced o (s.holder o) (s.newHolder o cs)).port = s.port := by
      rw [State.reportDisplaced_port]
      unfold State.renamed State.counted
      rw [line, State.gatherTestOf_port, State.gatherTestOf_port, State.countHeld_port, State.countHeld_port]
      rfl
    rw [State.restack_moved same]
    dsimp only
    split
    · rw [State.resumeTest_port, named]
    · exact named

theorem State.removeClaim_port (w : Owner) (o : Fin 256) : (s.removeClaim w o).port = s.port := by
  unfold State.removeClaim
  split
  · exact s.restack_port o _
  · rfl

theorem State.removeAll_port (w : Owner) : (s.removeAll w).port = s.port := by
  unfold State.removeAll
  generalize allFin 256 = xs
  induction xs generalizing s with
  | nil => rfl
  | cons x xs ih =>
    rw [State.forAll_cons]
    exact (ih _).trans (s.removeClaim_port w x)

theorem State.releaseChannel_grants (w : ChanOwner) : s.Grants (s.releaseChannel w) := by
  unfold State.releaseChannel
  split
  · next c _ =>
    dsimp only
    split
    · exact State.Grants.of rfl
    · refine State.Grants.trans (b := s.discardTransfer c true) (fun g granted other => ?_)
        (State.Grants.of (State.enterEnded_port _ c))
      rw [State.discardTransfer_idle (fun x d own => other c x ?_)]
      · exact granted
      · rw [Option.some.inj (granted.symm.trans own)]
  · exact State.Grants.of rfl

theorem State.endProgram_grants (p : Fin 64) (code : Nat) : s.Grants (s.endProgram p code) := by
  by_cases free : (s.programs.get p).state = .free
  · rw [State.endProgram, if_pos (beq_iff_eq.mpr free)]
    exact State.Grants.of rfl
  · obtain ⟨a, b, ha, hb, e⟩ := State.endProgram_eq free code
    have first : s.Grants a := by
      have removed := s.removeAll_port (.program p)
      rw [ha]
      generalize s.removeAll (.program p) = r at removed
      obtain ⟨tones, voices⟩ := r.releaseVoice_tones (.chime p)
      rw [voices]
      exact (State.Grants.of (t := { r with tones }) removed).trans (State.releaseChannel_grants _ _)
    refine first.trans (State.Grants.of ?_)
    have same : b.port = a.port := by
      rw [hb, State.leaveHoldSet_port]
      rfl
    rw [e]
    split
    · rw [State.requestReturn_port, same]
    · rw [← same]
      unfold State.reportPageEnd
      split
      · dsimp only
        split <;> rfl
      · rfl

theorem State.evicted_grants (w : Owner) : s.Grants (s.evicted w) := by
  unfold State.evicted
  split
  · next p =>
    dsimp only
    split
    · split
      · exact State.Grants.trans (b := s.modProgram p fun pr => { pr with admitted := pr.admitted - 1 })
          (State.Grants.of rfl) (State.endProgram_grants _ p _)
      · refine State.Grants.of ?_
        unfold State.gatherTest
        dsimp only
        split
        · rw [State.chimeStep_port]
          rfl
        · rfl
    · exact State.Grants.of rfl
  · exact State.Grants.of rfl

theorem State.place_grants (c : Claim) (o : Fin 256) : s.Grants (s.place c o).2 := by
  have named (cs : List Claim) : s.Grants (s.restack o cs) := State.Grants.of (s.restack_port o cs)
  unfold State.place
  dsimp only
  split
  · exact State.Grants.of rfl
  · split
    · exact named _
    · split
      · split
        · exact (named _).trans (State.evicted_grants _ _)
        · exact State.Grants.of rfl
      · exact State.Grants.of rfl

end

/-- A party after placements: as it was, or without its claim and with its outlet-lost flag. -/
def Party.Loses (p q : Party) : Prop := q = p ∨ q = { p with outletLost := true, claim := none }

theorem Party.Loses.trans {p q r : Party} (h : p.Loses q) (k : q.Loses r) : p.Loses r := by
  rcases h with rfl | rfl
  · exact k
  · exact .inr (k.elim id id)

/-- A call after placements: its parties may have lost their outlets, and its page may have ended. -/
structure Call.Lodges (x y : Call) : Prop where
  bare : { y with parties := [], page := none } = { x with parties := [], page := none }
  length : y.parties.length = x.parties.length
  party : ∀ (j : Nat) p, x.parties[j]? = some p → ∃ q, y.parties[j]? = some q ∧ p.Loses q
  paged : x.page = none → y.page = none

theorem Call.Lodges.refl (x : Call) : x.Lodges x := ⟨rfl, rfl, fun _ p found => ⟨p, found, .inl rfl⟩, id⟩

theorem Call.Lodges.trans {x y z : Call} (h : x.Lodges y) (k : y.Lodges z) : x.Lodges z where
  bare := k.bare.trans h.bare
  length := k.length.trans h.length
  party j p found := by
    obtain ⟨q, found', loses⟩ := h.party j p found
    obtain ⟨r, found'', loses'⟩ := k.party j q found'
    exact ⟨r, found'', loses.trans loses'⟩
  paged none := k.paged (h.paged none)

theorem Call.Lodges.state {x y : Call} (h : x.Lodges y) : y.state = x.state := (Call.mk.inj h.bare).1

theorem Call.Kept.lodges {x y : Call} (kept : x.Kept y) (paged : x.page = none → y.page = none) : x.Lodges y where
  bare := by
    have bare := kept.bare
    obtain ⟨a, b, c, d, -, f, -, h, i, j⟩ := Call.mk.inj bare
    cases x
    cases y
    dsimp only at a b c d f h i j
    subst a b c d f h i j
    rfl
  length := by rw [kept.parties]
  party j p found := ⟨p, by rw [kept.parties]; exact found, .inl rfl⟩
  paged := paged

/-- Party `j` of call `d` has lost its outlet. -/
def State.unseated (d : Fin 16) (j : Fin 8) (s : State) : Prop :=
  ∀ q, (s.calls.get d).parties[j.val]? = some q → q.claim = none ∧ q.outletLost = true

/-- What placements leave: the stations, the reservations, the FREE slots, the stage of the CALL walk, the calls but for
lost outlets and ended pages, the parties' claims and the count of arrival numbers. -/
structure Lodged (s t : State) : Prop where
  stations : t.stations = s.stations
  slots : ∀ q, (t.programs.get q).reservation = (s.programs.get q).reservation
  free : ∀ q, (s.programs.get q).state = .free → (t.programs.get q).state = .free
  stage : (t.walker .call).stage = (s.walker .call).stage
  calls : ∀ d, (s.calls.get d).Lodges (t.calls.get d)
  pages : ∀ d g, (s.calls.get d).page = some g → (s.programs.get g.slot).state = .free → (t.calls.get d).page = some g
  paged : ∀ d g, (s.calls.get d).page = some g → ∃ st, (t.calls.get d).page = some { g with state := st } ∧
    (st = g.state ∨ (st = .ended ∧ (t.programs.get g.slot).state = .free))
  owners : ∀ d j o, hasOwner (.party d j) (s.stack o) = true → hasOwner (.party d j) (t.stack o) = true ∨ t.unseated d j
  arrivals : t.claims.arrivals = s.claims.arrivals

theorem Lodged.refl (s : State) : Lodged s s :=
  ⟨rfl, fun _ => rfl, fun _ => id, rfl, fun _ => Call.Lodges.refl _, fun _ _ own _ => own, fun _ g own => ⟨g.state, own, .inl rfl⟩,
    fun _ _ _ => .inl, rfl⟩

theorem Lodged.unseated {s t : State} (h : Lodged s t) {d : Fin 16} {j : Fin 8} (out : s.unseated d j) : t.unseated d j := by
  intro q found
  cases at_ : (s.calls.get d).parties[j.val]? with
  | none =>
    have inside := (List.getElem?_eq_some_iff.mp found).1
    have beyond := List.getElem?_eq_none_iff.mp at_
    rw [(h.calls d).length] at inside
    omega
  | some p =>
    obtain ⟨q', found', loses⟩ := (h.calls d).party j.val p at_
    rw [Option.some.inj (found.symm.trans found')]
    obtain ⟨bare, lost⟩ := out p at_
    rcases loses with rfl | rfl
    · exact ⟨bare, lost⟩
    · exact ⟨rfl, rfl⟩

theorem Lodged.trans {a b c : State} (h : Lodged a b) (k : Lodged b c) : Lodged a c where
  stations := k.stations.trans h.stations
  slots q := (k.slots q).trans (h.slots q)
  free q e := k.free q (h.free q e)
  stage := k.stage.trans h.stage
  calls d := (h.calls d).trans (k.calls d)
  pages d g own e := k.pages d g (h.pages d g own e) (h.free _ e)
  owners d j o own := by
    rcases h.owners d j o own with own | out
    · exact k.owners d j o own
    · exact .inr (k.unseated out)
  paged d g own := by
    obtain ⟨st, own, stays⟩ := h.paged d g own
    obtain ⟨st', own', stays'⟩ := k.paged d _ own
    refine ⟨st', own', ?_⟩
    rcases stays' with rfl | ended
    · exact stays.imp id fun ⟨ended, free⟩ => ⟨ended, k.free _ free⟩
    · exact .inr ended
  arrivals := k.arrivals.trans h.arrivals

/-- An act that touches neither calls nor stacks, and starts no program. -/
theorem Lodged.same {s t : State} (stations : t.stations = s.stations)
    (slots : ∀ q, (t.programs.get q).reservation = (s.programs.get q).reservation)
    (free : ∀ q, (s.programs.get q).state = .free → (t.programs.get q).state = .free)
    (stage : (t.walker .call).stage = (s.walker .call).stage) (calls : t.calls = s.calls)
    (claims : t.claims = s.claims) : Lodged s t where
  stations := stations
  slots := slots
  free := free
  stage := stage
  calls d := calls ▸ Call.Lodges.refl _
  pages d g own _ := calls ▸ own
  paged d g own := ⟨g.state, calls ▸ own, .inl rfl⟩
  owners d j o own := by
    unfold State.stack at own ⊢
    rw [claims]
    exact .inl own
  arrivals := by rw [claims]

section
variable {s : State}

theorem State.restack_free (s : State) (o : Fin 256) (cs : List Claim) (q : Fin 64) :
    ((s.restack o cs).programs.get q).state = .free ↔ (s.programs.get q).state = .free := by
  obtain ⟨same, named⟩ := s.restack_program o cs q
  by_cases moved : (s.holder o).map (·.owner) ≠ (s.newHolder o cs).map (·.owner)
  · exact (named moved).free
  · rw [same moved]

theorem State.restack_arrivals (s : State) (o : Fin 256) (cs : List Claim) :
    (s.restack o cs).claims.arrivals = s.claims.arrivals :=
  (State.restack_reports (g := 0) o cs).toBeside.arrivals

/-- A renaming that keeps the parties' claims. -/
theorem State.restack_lodged (s : State) (o : Fin 256) {cs : List Claim}
    (keeps : ∀ d j, hasOwner (.party d j) (s.stack o) = true → hasOwner (.party d j) cs = true) : Lodged s (s.restack o cs) := by
  have steady := State.restack_steady (Steady.refl s) o cs
  refine ⟨s.restack_stations o cs, fun q => (steady.records q).2, fun q => (s.restack_free o cs q).mpr, ?_, fun d => ?_,
    fun d g own _ => ?_, fun d g own => ⟨g.state, ?_, .inl rfl⟩, fun d j x own => .inl ?_, s.restack_arrivals o cs⟩
  · unfold State.walker
    rw [steady.lists]
  · rw [steady.calls]
    exact Call.Lodges.refl _
  · rw [steady.calls]
    exact own
  · rw [steady.calls]
    exact own
  · rw [State.restack_stack]
    split
    · next same =>
      rw [hasOwner_nameStack]
      exact keeps d j (same ▸ own)
    · exact own

theorem State.forAll_lodged {β : Type} {f : β → State → State} (each : ∀ x s, Lodged s (f x s)) (xs : List β) (s : State) :
    Lodged s (s.forAll xs f) := by
  induction xs generalizing s with
  | nil => exact Lodged.refl s
  | cons x xs ih =>
    rw [State.forAll_cons]
    exact (each x s).trans (ih _)

/-- What the end of a program leaves of the calls: the page it was is over. -/
theorem State.endProgram_calls (s : State) (p : Fin 64) (code : Nat) : (s.endProgram p code).calls = s.calls ∨
    ((s.programs.get p).state ≠ .free ∧ ∃ c, (s.endProgram p code).calls = s.calls.modify c fun call =>
      { call with page := call.page.map fun g => if g.slot == p then { g with state := .ended } else g }) := by
  by_cases free : (s.programs.get p).state = .free
  · unfold State.endProgram
    rw [if_pos (beq_iff_eq.mpr free)]
    exact .inl rfl
  · obtain ⟨a, b, ha, hb, e⟩ := State.endProgram_eq free code
    have before : b.calls = s.calls := by
      rw [hb, (State.leaveHoldSet_steady (Steady.refl (a.modProgram p fun pr => { reservation := pr.reservation })) p).calls,
        State.modProgram_calls, ha]
      exact (State.releaseChannel_steady (State.releaseVoice_steady (State.removeAll_steady (Steady.refl s) _) _) _).calls
    rw [e]
    split
    · obtain ⟨_, only⟩ := b.requestReturn_only .program _
      rw [only]
      exact .inl before
    · unfold State.reportPageEnd
      split
      · next c _ =>
        dsimp only
        split
        · refine .inr ⟨free, c, ?_⟩
          rw [State.modCall_calls, before]
        · exact .inl before
      · exact .inl before

theorem State.requestReturn_stage (s : State) {l m : ListId} (other : l ≠ m) (r : Return) :
    ((s.requestReturn l r).walker m).stage = (s.walker m).stage := by
  unfold State.requestReturn
  dsimp only
  split
  · split
    · unfold State.setStage
      rw [State.walker_modWalker, if_neg other.symm]
    · rfl
  · rfl

theorem State.endProgram_stage (s : State) (p : Fin 64) (code : Nat) :
    ((s.endProgram p code).walker .call).stage = (s.walker .call).stage := by
  by_cases free : (s.programs.get p).state = .free
  · unfold State.endProgram
    rw [if_pos (beq_iff_eq.mpr free)]
  · obtain ⟨a, b, ha, hb, e⟩ := State.endProgram_eq free code
    have before : b.lists = s.lists := by
      rw [hb, (State.leaveHoldSet_steady (Steady.refl (a.modProgram p fun pr => { reservation := pr.reservation })) p).lists,
        State.modProgram_lists, ha]
      exact (State.releaseChannel_steady (State.releaseVoice_steady (State.removeAll_steady (Steady.refl s) _) _) _).lists
    have same : (b.walker .call).stage = (s.walker .call).stage := by
      unfold State.walker
      rw [before]
    rw [e]
    split
    · exact (b.requestReturn_stage (by decide) _).trans same
    · refine Eq.trans ?_ same
      unfold State.reportPageEnd
      split
      · dsimp only
        split <;> rfl
      · rfl

theorem State.endProgram_reservation (s : State) (p : Fin 64) (code : Nat) (q : Fin 64) :
    ((s.endProgram p code).programs.get q).reservation = (s.programs.get q).reservation := by
  by_cases free : (s.programs.get p).state = .free
  · unfold State.endProgram
    rw [if_pos (beq_iff_eq.mpr free)]
  · by_cases same : q = p
    · rw [same]
      exact (State.endProgram_ended free code).reservation
    · obtain ⟨b, e, slots⟩ := State.endProgram_programs free code
      rw [e, ((State.leaveHoldSet_steady (Steady.refl b) p).records q).2, slots, Tab.get_modify_ne _ same]
      exact ((State.removeAll_steady (Steady.refl s) _).records q).2

theorem State.endProgram_stacks {s : State} {p : Fin 64} (busy : (s.programs.get p).state ≠ .free) (code : Nat) (o : Fin 256) :
    (s.endProgram p code).stack o = (s.removeAll (.program p)).stack o := by
  obtain ⟨a, b, ha, hb, e⟩ := State.endProgram_eq busy code
  have claims : (s.endProgram p code).claims = b.claims := by
    rw [e]
    split
    · exact (State.requestReturn_rest _ _ _).2
    · exact (State.reportPageEnd_rest _ _ _).2
  have seats : Seats (s.removeAll (.program p)) b := by
    rw [hb, ha]
    exact State.leaveHoldSet_seats (State.modProgram_seats (State.releaseChannel_seats
      (State.releaseVoice_seats (Seats.refl _) _) _) _ _) p
  calc (s.endProgram p code).stack o = b.stack o := by unfold State.stack; rw [claims]
    _ = (s.removeAll (.program p)).stack o := seats.stack_eq o

/-- The claims of others stand when one owner's go. -/
theorem State.removeClaim_kept (s : State) {w v : Owner} (other : v ≠ w) (x : Fin 256) {o : Fin 256}
    (own : hasOwner v (s.stack o) = true) : hasOwner v ((s.removeClaim w x).stack o) = true := by
  unfold State.removeClaim
  split
  · rw [State.restack_stack]
    split
    · next same =>
      rw [hasOwner_nameStack, ← same]
      unfold hasOwner at own ⊢
      rw [List.any_filter]
      obtain ⟨c, mem, same⟩ := List.any_eq_true.mp own
      refine List.any_eq_true.mpr ⟨c, mem, ?_⟩
      rw [beq_iff_eq.mp same]
      simpa using other
    · exact own
  · exact own

theorem State.removeAll_kept (s : State) {w v : Owner} (other : v ≠ w) {o : Fin 256} (own : hasOwner v (s.stack o) = true) :
    hasOwner v ((s.removeAll w).stack o) = true := by
  unfold State.removeAll
  generalize allFin 256 = xs
  induction xs generalizing s with
  | nil => exact own
  | cons x xs ih =>
    rw [State.forAll_cons]
    exact ih _ (s.removeClaim_kept other x own)

/-- The end of a program leaves the claims of others. -/
theorem State.endProgram_kept (s : State) (p : Fin 64) (code : Nat) {v : Owner} (other : v ≠ .program p) {o : Fin 256}
    (own : hasOwner v (s.stack o) = true) : hasOwner v ((s.endProgram p code).stack o) = true := by
  by_cases free : (s.programs.get p).state = .free
  · rw [State.endProgram, if_pos (beq_iff_eq.mpr free)]
    exact own
  · rw [State.endProgram_stacks free]
    exact s.removeAll_kept other own

theorem State.endProgram_arrivals (s : State) (p : Fin 64) (code : Nat) :
    (s.endProgram p code).claims.arrivals = s.claims.arrivals := by
  by_cases first : p = 0
  · exact (State.endProgram_aside (g := 1) (Aside.refl 1 s) (by rw [first]; decide) code).toBeside.arrivals
  · exact (State.endProgram_aside (g := 0) (Aside.refl 0 s) first code).toBeside.arrivals

theorem State.endProgram_lodged (s : State) (p : Fin 64) (code : Nat) : Lodged s (s.endProgram p code) := by
  have undialled := s.endProgram_undialled p code
  refine ⟨undialled.stations, s.endProgram_reservation p code, fun q free => ?_, s.endProgram_stage p code, fun d => ?_,
    fun d g own free => ?_, fun d g own => ?_, fun d j o own => .inl ?_, s.endProgram_arrivals p code⟩
  · by_cases same : q = p
    · rw [← same, State.endProgram, if_pos (beq_iff_eq.mpr free)]
      exact free
    · exact (s.endProgram_other code same).2.2.mpr free
  · refine (undialled.calls d).lodges fun none => ?_
    rcases s.endProgram_calls p code with e | ⟨-, c, e⟩
    · rw [e]
      exact none
    · rw [e, Tab.get_modify]
      split
      · dsimp only
        rw [none]
        rfl
      · exact none
  · rcases s.endProgram_calls p code with e | ⟨busy, c, e⟩
    · rw [e]
      exact own
    · have other : g.slot ≠ p := fun same => busy (same ▸ free)
      rw [e, Tab.get_modify]
      split
      · dsimp only
        rw [own, Option.map_some, if_neg (by simpa using other)]
      · exact own
  · rcases s.endProgram_calls p code with e | ⟨busy, c, e⟩
    · rw [e]
      exact ⟨g.state, own, .inl rfl⟩
    · rw [e, Tab.get_modify]
      split
      · dsimp only
        rw [own, Option.map_some]
        split
        · next same =>
          rw [beq_iff_eq.mp same]
          exact ⟨.ended, rfl, .inr ⟨rfl, (State.endProgram_ended busy code).free⟩⟩
        · exact ⟨g.state, rfl, .inl rfl⟩
      · exact ⟨g.state, own, .inl rfl⟩
  · exact s.endProgram_kept p code (v := .party d j) (fun same => nomatch same) own

/-! ### Placement -/

theorem State.gatherTest_lodged (s : State) (p : Fin 64) : Lodged s (s.gatherTest p) := by
  have steady := State.gatherTest_steady (Steady.refl s) p
  have quiet := State.gatherTest_quiet (Quiet.refl s) p
  refine Lodged.same quiet.stations (fun q => (steady.records q).2) (fun q free => ?_) ?_ steady.calls
    (s.gatherTest_gathers p).claims
  · rw [((s.gatherTest_gathers p).programs q).rest (by rw [free]; nofun)]
    exact free
  · unfold State.walker
    rw [steady.lists]

theorem State.evicted_lodged (s : State) (w : Owner) : Lodged s (s.evicted w) := by
  unfold State.evicted
  split
  · next p =>
    dsimp only
    split
    · have fewer : Lodged s (s.modProgram p fun pr => { pr with admitted := pr.admitted - 1 }) := by
        refine Lodged.same rfl (fun q => ?_) (fun q free => ?_) rfl rfl rfl <;>
          rw [State.modProgram_programs, Tab.get_modify] <;> split
        · rfl
        · rfl
        · exact free
        · exact free
      split
      · exact fewer.trans (State.endProgram_lodged _ _ _)
      · exact fewer.trans (State.gatherTest_lodged _ _)
    · exact Lodged.refl s
  · next c i =>
    refine ⟨rfl, fun _ => rfl, fun _ => id, rfl, fun d => ?_, fun d g own _ => ?_, fun d g own => ⟨g.state, ?_, .inl rfl⟩,
      fun d j o own => .inl own, rfl⟩
    · rw [State.modCall_calls, Tab.get_modify]
      split
      · refine ⟨rfl, List.length_modify .., fun j p found => ?_, id⟩
        dsimp only
        rw [List.getElem?_modify, found]
        refine ⟨_, rfl, ?_⟩
        split
        · exact .inr rfl
        · exact .inl rfl
      · exact Call.Lodges.refl _
    all_goals
      rw [State.modCall_calls, Tab.get_modify]
      split <;> exact own

theorem State.evicted_unseated (s : State) (d : Fin 16) (j : Fin 8) : (s.evicted (.party d j)).unseated d j := by
  intro q found
  unfold State.evicted at found
  dsimp only at found
  rw [State.modCall_calls, Tab.get_modify_self] at found
  dsimp only at found
  rw [List.getElem?_modify] at found
  obtain ⟨p, -, e⟩ := Option.map_eq_some_iff.mp found
  rw [← e, if_pos rfl]
  exact ⟨rfl, rfl⟩

theorem hasOwner_insertClaim_kept {w : Owner} {c : Claim} {cs : List Claim} (own : hasOwner w cs = true) :
    hasOwner w (insertClaim c cs) = true := by
  unfold hasOwner at own ⊢
  obtain ⟨d, mem, same⟩ := List.any_eq_true.mp own
  exact List.any_eq_true.mpr ⟨d, (insertClaim_perm c cs).mem_iff.mpr (List.mem_cons_of_mem _ mem), same⟩

theorem hasOwner_insertClaim_own (c : Claim) (cs : List Claim) : hasOwner c.owner (insertClaim c cs) = true := by
  unfold hasOwner
  exact List.any_eq_true.mpr ⟨c, (insertClaim_perm c cs).mem_iff.mpr (List.mem_cons_self ..), beq_self_eq_true _⟩

/-- A full stack's renaming with the eviction of its last claim. -/
theorem State.displace_lodged (s : State) (o : Fin 256) (c : Claim) {front : List Claim} {last : Claim}
    (whole : s.stack o = front ++ [last]) : Lodged s ((s.restack o (insertClaim c front)).evicted last.owner) := by
  have told := (s.restack o (insertClaim c front)).evicted_lodged last.owner
  have steady := State.restack_steady (Steady.refl s) o (insertClaim c front)
  refine ⟨told.stations.trans (s.restack_stations o _), fun q => (told.slots q).trans (steady.records q).2,
    fun q free => told.free q ((s.restack_free o _ q).mpr free), told.stage.trans ?_, fun d => ?_, fun d g own free => ?_,
    fun d g own => told.paged d g (by rw [steady.calls]; exact own), fun d j x own => ?_,
    told.arrivals.trans (s.restack_arrivals o _)⟩
  · unfold State.walker
    rw [steady.lists]
  · have kept := told.calls d
    rw [steady.calls] at kept
    exact kept
  · exact told.pages d g (by rw [steady.calls]; exact own) ((s.restack_free o _ _).mpr free)
  · by_cases evicts : last.owner = .party d j
    · rw [evicts]
      exact .inr (State.evicted_unseated _ d j)
    · refine told.owners d j x ?_
      rw [State.restack_stack]
      split
      · next same =>
        rw [hasOwner_nameStack]
        refine hasOwner_insertClaim_kept ?_
        rw [same, whole] at own
        unfold hasOwner at own ⊢
        rw [List.any_append, Bool.or_eq_true] at own
        refine own.resolve_right fun here => evicts ?_
        simpa using here
      · exact own

/-- A placed claim: what it leaves, and where it is admitted it stands in the stack or has been lost again. -/
theorem State.place_lodged (s : State) (c : Claim) (o : Fin 256) : Lodged s (s.place c o).2 := by
  unfold State.place
  dsimp only
  split
  · exact Lodged.refl s
  · split
    · exact s.restack_lodged o fun d j own => hasOwner_insertClaim_kept own
    · split
      · next last at_ =>
        split
        · refine s.displace_lodged o c (front := (s.stack o).dropLast) (last := last) ?_
          exact (List.dropLast_append_getLast? last at_).symm
        · exact Lodged.refl s
      · exact Lodged.refl s

/-- The eviction of one owner's claim leaves the claims of others. -/
theorem State.evicted_kept (s : State) {w v : Owner} {o : Fin 256} (other : v ≠ w) (own : hasOwner v (s.stack o) = true) :
    hasOwner v ((s.evicted w).stack o) = true := by
  unfold State.evicted
  split
  · next p =>
    dsimp only
    split
    · split
      · exact State.endProgram_kept _ p _ other own
      · rw [(State.gatherTest_seats (Seats.refl _) p).stack_eq]
        exact own
    · exact own
  · exact own

/-- An admitted claim stands in its stack. -/
theorem State.place_seated (s : State) (c : Claim) (o : Fin 256) (admitted : (s.place c o).1 = true) :
    hasOwner c.owner ((s.place c o).2.stack o) = true := by
  have named (cs : List Claim) : hasOwner c.owner ((s.restack o (insertClaim c cs)).stack o) = true := by
    rw [State.restack_stack, if_pos rfl, hasOwner_nameStack]
    exact hasOwner_insertClaim_own c cs
  unfold State.place at admitted ⊢
  dsimp only at admitted ⊢
  split
  · next refused =>
    rw [if_pos refused] at admitted
    exact nomatch admitted
  · next absent =>
    rw [if_neg absent] at admitted
    split
    · exact named _
    · next full =>
      rw [if_neg full] at admitted
      split
      · next last at_ =>
        rw [at_] at admitted
        dsimp only at admitted
        split
        · refine State.evicted_kept _ (fun same => ?_) (named _)
          simp only [Bool.or_eq_true, not_or] at absent
          refine absent.2 ?_
          unfold hasOwner
          exact List.any_eq_true.mpr ⟨last, List.mem_of_getLast? at_, by rw [same]; exact beq_self_eq_true _⟩
        · next low =>
          rw [if_neg low] at admitted
          exact nomatch admitted
      · next at_ =>
        rw [at_] at admitted
        exact nomatch admitted

/-! ### A launch (R38) -/

/-- An act on program `p` alone, with its voice and its channel. -/
def State.Onward (p : Fin 64) (s t : State) : Prop := ∃ programs tones channels, t = { s with programs, tones, channels } ∧
  (∀ q, q ≠ p → programs.get q = s.programs.get q) ∧ ∀ q, (programs.get q).reservation = (s.programs.get q).reservation

theorem State.Onward.refl (p : Fin 64) (s : State) : s.Onward p s := ⟨_, _, _, rfl, fun _ _ => rfl, fun _ => rfl⟩

theorem State.Onward.trans {p : Fin 64} {a b c : State} (h : a.Onward p b) (k : b.Onward p c) : a.Onward p c := by
  obtain ⟨_, _, _, rfl, others, slots⟩ := h
  obtain ⟨_, _, _, rfl, others', slots'⟩ := k
  exact ⟨_, _, _, rfl, fun q ne => (others' q ne).trans (others q ne), fun q => (slots' q).trans (slots q)⟩

theorem State.modProgram_onward (s : State) (p : Fin 64) {f : Program → Program} (keeps : ∀ x, (f x).reservation = x.reservation) :
    s.Onward p (s.modProgram p f) := by
  refine ⟨_, _, _, rfl, fun q ne => Tab.get_modify_ne _ ne _, fun q => ?_⟩
  rw [Tab.get_modify]
  split
  · exact keeps _
  · rfl

theorem State.enterPlaying_onward (s : State) (p : Fin 64) : s.Onward p (s.enterPlaying p) := by
  have duration (x : Program) : (({ x with state := .playing, gatherTimer := none } : Program).startDuration).reservation =
      x.reservation := by
    unfold Program.startDuration
    split <;> rfl
  unfold State.enterPlaying
  dsimp only
  split
  · exact s.modProgram_onward p fun _ => rfl
  · split
    · refine (s.modProgram_onward p duration).trans ?_
      obtain ⟨channels, e⟩ := State.signalOwner_only (s.modProgram p fun pr =>
        ({ pr with state := .playing, gatherTimer := none } : Program).startDuration) (.program p) Channel.signalRun
      exact ⟨_, _, _, e, fun _ _ => rfl, fun _ => rfl⟩
    · exact s.modProgram_onward p duration

theorem State.chimeStep_onward (s : State) (p : Fin 64) : s.Onward p (s.chimeStep p) := by
  unfold State.chimeStep
  split
  · exact s.enterPlaying_onward p
  · split
    · next v _ =>
      obtain ⟨tones, e⟩ := s.giveVoice_only v (.chime p) _
      rw [e]
      exact State.Onward.trans (b := { s with tones }) ⟨_, _, _, rfl, fun _ _ => rfl, fun _ => rfl⟩
        (State.modProgram_onward _ p fun _ => rfl)
    · exact (s.modProgram_onward p (f := fun pr => { pr with chimeSkipped := true }) fun _ => rfl).trans
        (State.enterPlaying_onward _ p)

theorem State.gatherTest_onward (s : State) (p : Fin 64) : s.Onward p (s.gatherTest p) := by
  unfold State.gatherTest
  dsimp only
  split
  · exact s.chimeStep_onward p
  · exact State.Onward.refl p s

theorem State.Onward.lodged {p : Fin 64} {s t : State} (onward : s.Onward p t) (busy : (s.programs.get p).state ≠ .free) :
    Lodged s t := by
  obtain ⟨_, _, _, rfl, others, slots⟩ := onward
  refine Lodged.same rfl slots (fun q free => ?_) rfl rfl rfl
  dsimp only
  rw [others q fun same => busy (same ▸ free)]
  exact free

theorem State.gatherExpired_lodged (s : State) (p : Fin 64) : Lodged s (s.gatherExpired p) := by
  unfold State.gatherExpired
  dsimp only
  split
  · next waits =>
    have busy : (s.programs.get p).state ≠ .free := by rw [beq_iff_eq.mp waits]; nofun
    have timed : s.Onward p (s.modProgram p fun pr => { pr with gatherTimer := none }) := s.modProgram_onward p fun _ => rfl
    split
    · exact (timed.lodged busy).trans (State.endProgram_lodged _ _ _)
    · exact (timed.trans (State.chimeStep_onward _ p)).lodged busy
  · exact Lodged.refl s

theorem State.afterPlacing_lodged {p : Fin 64} (busy : (s.programs.get p).state ≠ .free) : Lodged s (s.afterPlacing p) := by
  unfold State.afterPlacing
  dsimp only
  split
  · have tested := ((s.modProgram_onward p (f := fun pr => { pr with gatherTimer := some pr.gatherTimeout }) fun _ => rfl).trans
      (State.gatherTest_onward _ p)).lodged busy
    split
    · exact tested.trans (State.gatherExpired_lodged _ p)
    · exact tested
  · exact (s.chimeStep_onward p).lodged busy
  · exact (s.chimeStep_onward p).lodged busy

/-- A program is not ended by another's eviction. -/
theorem State.evicted_busy {w : Owner} {p : Fin 64} (other : w ≠ .program p) (busy : (s.programs.get p).state ≠ .free) :
    ((s.evicted w).programs.get p).state ≠ .free := by
  unfold State.evicted
  split
  · next q =>
    have apart : p ≠ q := fun same => other (congrArg _ same.symm)
    dsimp only
    have fewer : ((s.modProgram q fun pr => { pr with admitted := pr.admitted - 1 }).programs.get p).state ≠ .free := by
      rw [State.modProgram_programs, Tab.get_modify_ne _ apart]
      exact busy
    split
    · split
      · exact fun free => fewer ((State.endProgram_other _ _ apart).2.2.mp free)
      · obtain ⟨_, _, _, e, others, -⟩ :=
          (s.modProgram q fun pr => { pr with admitted := pr.admitted - 1 }).gatherTest_onward q
        rw [e]
        dsimp only
        rw [others p apart]
        exact fewer
    · exact busy
  · exact busy

/-- The placements of a program's claim do not end it. -/
theorem State.place_busy {c : Claim} {p : Fin 64} (own : c.owner = .program p) (o : Fin 256)
    (busy : (s.programs.get p).state ≠ .free) : ((s.place c o).2.programs.get p).state ≠ .free := by
  have named (cs : List Claim) : ((s.restack o cs).programs.get p).state ≠ .free := fun free =>
    busy ((s.restack_free o cs p).mp free)
  unfold State.place
  dsimp only
  split
  · exact busy
  · next absent =>
    split
    · exact named _
    · split
      · next last at_ =>
        split
        · refine State.evicted_busy (fun same => ?_) (named _)
          simp only [Bool.or_eq_true, not_or] at absent
          refine absent.2 ?_
          unfold hasOwner
          exact List.any_eq_true.mpr ⟨last, List.mem_of_getLast? at_, by rw [same, own]; exact beq_self_eq_true _⟩
        · exact busy
      · exact busy

theorem State.placeAll_lodged {c : Claim} {p : Fin 64} (own : c.owner = .program p) (test : State → Fin 256 → Bool)
    (os : List (Fin 256)) (busy : (s.programs.get p).state ≠ .free) :
    Lodged s (s.placeAll c test os).2 ∧ ((s.placeAll c test os).2.programs.get p).state ≠ .free := by
  have loop (acc : Nat × State) (now : Lodged s acc.2 ∧ (acc.2.programs.get p).state ≠ .free) :
      Lodged s (os.foldl (fun acc o => if test acc.2 o then
        (acc.1 + (if (acc.2.place c o).1 then 1 else 0), (acc.2.place c o).2) else acc) acc).2 ∧
      ((os.foldl (fun acc o => if test acc.2 o then
        (acc.1 + (if (acc.2.place c o).1 then 1 else 0), (acc.2.place c o).2) else acc) acc).2.programs.get p).state ≠ .free := by
    induction os generalizing acc with
    | nil => exact now
    | cons o os ih =>
      rw [List.foldl_cons]
      refine ih _ ?_
      split
      · exact ⟨now.1.trans (State.place_lodged _ _ _), State.place_busy own o now.2⟩
      · exact now
  exact loop (0, s) ⟨Lodged.refl s, busy⟩

theorem State.launch_lodged {p : Fin 64} (busy : (s.programs.get p).state ≠ .free) : Lodged s (s.launch p none) := by
  obtain ⟨lodged, busy'⟩ := State.placeAll_lodged (c := (s.programs.get p).claim p) rfl
    (fun t o => (s.programs.get p).policy != .ifFree || t.wouldHold ((s.programs.get p).claim p) o)
    (s.programs.get p).targets busy
  have counted (n : Nat) (t : State) : t.Onward p (t.modProgram p fun pr => { pr with admitted := n }) :=
    t.modProgram_onward p fun _ => rfl
  unfold State.launch
  dsimp only
  split
  · exact (lodged.trans ((counted _ _).lodged busy')).trans (State.endProgram_lodged _ _ _)
  · refine (lodged.trans ((counted _ _).lodged busy')).trans (State.afterPlacing_lodged ?_)
    rw [State.modProgram_programs, Tab.get_modify_self]
    exact busy'

end

end Sys2Proof.Machine

end

section
/-! PROOF. The parties of a call that is opened: how they join one after another (R119). -/

open Sys2Proof Sys2Proof.Machine

namespace Sys2Proof.Machine

/-- What a station becomes when it joins a call as a party of this state. -/
def Station.enters (x : Station) (c : Fin 16) (st : PartyState) : Station :=
  if st = .busy then x else { x with state := if st = .ringing then .ringing else .inCall, call := some c }

/-- The party that a station joins as. -/
def State.joiner (s : State) (c : Fin 16) (n : Fin 64) (ring : Bool) (talk listen arrival : Nat) : Party :=
  newParty n ring talk listen arrival ((s.stations.get n).joinsAs ring)
    (if (s.stations.get n).joinsAs ring = .ringing then some (1000 * (s.calls.get c).ringTimeout) else none)

/-- A call with one party more, and that party's station. -/
def State.enrolled (c : Fin 16) (p : Party) (s : State) : State :=
  (s.modCall c fun call => { call with parties := call.parties ++ [p] }).modStation p.station fun x => x.enters c p.state

theorem Station.joinsAs_idle_iff (x : Station) (ring : Bool) : x.joinsAs ring = .busy ↔ x.state ≠ .idle := by
  refine ⟨fun busy idle => ?_, x.joinsAs_busy ring⟩
  unfold Station.joinsAs at busy
  rw [idle] at busy
  dsimp only at busy
  split at busy <;> exact nomatch busy

section
variable {s t u : State} {c : Fin 16} {n : Fin 64} {ring : Bool} {talk listen arrival : Nat} {i : Fin 8}

theorem State.modCall_congr (s : State) (c : Fin 16) {f g : Call → Call} (same : f (s.calls.get c) = g (s.calls.get c)) :
    s.modCall c f = s.modCall c g := by
  unfold State.modCall
  rw [Tab.modify_congr _ _ same]

theorem State.joinParty_of (room : (s.calls.get c).parties.length = i.val) :
    s.joinParty c n ring talk listen arrival =
      let t := s.enrolled c (s.joiner c n ring talk listen arrival)
      if (s.stations.get n).state = .idle then t.placeParty c i n arrival else t := by
  have busy := (s.stations.get n).joinsAs_idle_iff ring
  have call : (s.modCall c fun call => { call with parties := call.parties ++ [newParty n ring talk listen arrival
      ((s.stations.get n).joinsAs ring)
      (if (s.stations.get n).joinsAs ring = .ringing then some (1000 * call.ringTimeout) else none)] }) =
      s.modCall c fun call => { call with parties := call.parties ++ [s.joiner c n ring talk listen arrival] } :=
    s.modCall_congr c rfl
  unfold State.enrolled
  dsimp only
  rw [← call]
  unfold State.joinParty State.joiner newParty Station.enters
  dsimp only
  rw [show toFin? 8 (s.calls.get c).parties.length = some i from toFin?_eq_some_iff.mpr room]
  dsimp only
  simp only [beq_iff_eq, busy]
  generalize s.modCall c _ = t
  have none : t.modStation n (fun x => x) = t := by
    unfold State.modStation
    exact congrArg (fun stations => { t with stations }) (Tab.modify_id t.stations n)
  by_cases idle : (s.stations.get n).state = .idle
  · simp only [idle, ne_eq, not_true_eq_false, if_true, if_false]
  · simp only [idle, ne_eq, not_false_eq_true, if_true, if_false]
    exact none.symm

/-! ### The parties so far -/

/-- How the `j`-th station of a list joins: a station that is in the call already is BUSY. -/
def State.joining (s : State) (xs : List (Fin 64 × RawParty)) (j : Nat) (x : Fin 64 × RawParty) : PartyState :=
  if x.1 ∈ (xs.take j).map (·.1) then .busy else (s.stations.get x.1).joinsAs x.2.ring

/-- A party as the `j`-th of a list, its claim apart. -/
structure Party.Joins (q : Party) (s : State) (c : Fin 16) (xs : List (Fin 64 × RawParty)) (j : Nat) (x : Fin 64 × RawParty) :
    Prop where
  station : q.station = x.1
  talk : q.talk = x.2.talk
  listen : q.listen = x.2.listen
  state : q.state = s.joining xs j x
  timer : q.ringTimer = if q.state = .ringing then some (1000 * (s.calls.get c).ringTimeout) else none

/-- The stations of a list have joined call `c`, which had no party. -/
structure Enrolled (s t : State) (c : Fin 16) (xs : List (Fin 64 × RawParty)) : Prop where
  acts : Acts s t
  slots : ∀ q, (t.programs.get q).reservation = (s.programs.get q).reservation
  free : ∀ q, (s.programs.get q).state = .free → (t.programs.get q).state = .free
  stage : (t.walker .call).stage = (s.walker .call).stage
  arrivals : t.claims.arrivals = s.claims.arrivals
  grants : s.Grants t
  others : ∀ d, d ≠ c → (s.calls.get d).Lodges (t.calls.get d)
  bare : { t.calls.get c with parties := [], page := none } = { s.calls.get c with parties := [], page := none }
  paged : (s.calls.get c).page = none → (t.calls.get c).page = none
  page : ∀ g, (s.calls.get c).page = some g → (s.programs.get g.slot).state = .free → (t.calls.get c).page = some g
  length : (t.calls.get c).parties.length = xs.length
  party : ∀ (j : Nat) x, xs[j]? = some x → ∃ q, (t.calls.get c).parties[j]? = some q ∧ q.Joins s c xs j x
  fresh : ∀ n, n ∉ xs.map (·.1) → t.stations.get n = s.stations.get n
  enters : ∀ (j : Nat) x, xs[j]? = some x → x.1 ∉ (xs.take j).map (·.1) →
    t.stations.get x.1 = (s.stations.get x.1).enters c ((s.stations.get x.1).joinsAs x.2.ring)

/-- Each of the first `k` parties that is not BUSY has its claim, or has lost its outlet. -/
def State.Seated (s : State) (c : Fin 16) (k : Nat) (t : State) : Prop :=
  ∀ (i : Fin 8) q (b : Fin 256 × Fin 256), i.val < k → (t.calls.get c).parties[i.val]? = some q →
    (s.stations.get q.station).binding = some b → q.state ≠ .busy →
      (q.claim = some b.2 ∧ hasOwner (.party c i) (t.stack b.2) = true) ∨ (q.claim = none ∧ q.outletLost = true)

theorem Enrolled.nil (bare : (s.calls.get c).parties = []) : Enrolled s s c [] where
  acts := Acts.refl s
  slots _ := rfl
  free _ := id
  stage := rfl
  arrivals := rfl
  grants := State.Grants.of rfl
  others _ _ := Call.Lodges.refl _
  bare := rfl
  paged := id
  page _ own _ := own
  length := congrArg List.length bare
  party _ _ := nofun
  fresh _ _ := rfl
  enters _ _ := nofun

theorem Party.Loses.rest {p q : Party} (h : p.Loses q) : q.station = p.station ∧ q.talk = p.talk ∧ q.listen = p.listen ∧
    q.state = p.state ∧ q.ringTimer = p.ringTimer := by
  rcases h with rfl | rfl <;> exact ⟨rfl, rfl, rfl, rfl, rfl⟩

theorem Party.Joins.same {p q : Party} {xs : List (Fin 64 × RawParty)} {j : Nat} {x : Fin 64 × RawParty}
    (joins : p.Joins s c xs j x) (same : q.station = p.station ∧ q.talk = p.talk ∧ q.listen = p.listen ∧
      q.state = p.state ∧ q.ringTimer = p.ringTimer) : q.Joins s c xs j x := by
  obtain ⟨station, talk, listen, state, timer⟩ := same
  refine ⟨station.trans joins.station, talk.trans joins.talk, listen.trans joins.listen, state.trans joins.state, ?_⟩
  rw [timer, state]
  exact joins.timer

section
variable {xs : List (Fin 64 × RawParty)}

theorem Enrolled.lodged (h : Enrolled s t c xs) (acts : Acts t u) (lodged : Lodged t u) (grants : t.Grants u) :
    Enrolled s u c xs where
  acts := h.acts.trans acts
  slots q := (lodged.slots q).trans (h.slots q)
  free q e := lodged.free q (h.free q e)
  stage := lodged.stage.trans h.stage
  arrivals := lodged.arrivals.trans h.arrivals
  grants := h.grants.trans grants
  others d other := (h.others d other).trans (lodged.calls d)
  bare := (lodged.calls c).bare.trans h.bare
  paged none := (lodged.calls c).paged (h.paged none)
  page g own free := lodged.pages c g (h.page g own free) (h.free _ free)
  length := (lodged.calls c).length.trans h.length
  party j x at_ := by
    obtain ⟨p, found, joins⟩ := h.party j x at_
    obtain ⟨q, found', loses⟩ := (lodged.calls c).party j p found
    exact ⟨q, found', joins.same loses.rest⟩
  fresh n out := by rw [lodged.stations]; exact h.fresh n out
  enters j x at_ first := by rw [lodged.stations]; exact h.enters j x at_ first

theorem State.Seated.lodged {k : Nat} (h : s.Seated c k t) (lodged : Lodged t u) : s.Seated c k u := by
  intro i q b below found bound live
  have inside := (List.getElem?_eq_some_iff.mp found).1
  rw [(lodged.calls c).length] at inside
  obtain ⟨p, found'⟩ : ∃ p, (t.calls.get c).parties[i.val]? = some p := ⟨_, List.getElem?_eq_getElem inside⟩
  obtain ⟨q', again, loses⟩ := (lodged.calls c).party i.val p found'
  rw [Option.some.inj (found.symm.trans again)] at bound live ⊢
  obtain ⟨station, -, -, state, -⟩ := loses.rest
  rw [station] at bound
  rw [state] at live
  rcases h i p b below found' bound live with ⟨claim, own⟩ | ⟨bare, lost⟩
  · rcases lodged.owners c i b.2 own with own | out
    · rcases loses with rfl | rfl
      · exact .inl ⟨claim, own⟩
      · exact .inr ⟨rfl, rfl⟩
    · exact .inr (out q' again)
  · rcases loses with rfl | rfl
    · exact .inr ⟨bare, lost⟩
    · exact .inr ⟨rfl, rfl⟩

/-- The first place of a station in a list. -/
theorem first_place {n : Fin 64} (mem : n ∈ xs.map (·.1)) :
    ∃ (j : Nat) (x : Fin 64 × RawParty), xs[j]? = some x ∧ x.1 = n ∧ n ∉ (xs.take j).map (·.1) := by
  induction xs with
  | nil => exact nomatch mem
  | cons y ys ih =>
    by_cases here : y.1 = n
    · exact ⟨0, y, rfl, here, nofun⟩
    · obtain ⟨j, x, at_, own, first⟩ := ih ((List.mem_cons.mp mem).resolve_left (Ne.symm here))
      refine ⟨j + 1, x, at_, own, fun again => ?_⟩
      rcases List.mem_cons.mp again with same | again
      · exact here same.symm
      · exact first again

theorem take_append_one {α : Type} {ys : List α} {y : α} {j : Nat} {x : α} (at_ : ys[j]? = some x) :
    (ys ++ [y]).take j = ys.take j :=
  List.take_append_of_le_length (List.getElem?_eq_some_iff.mp at_).1.le

/-- A place of a list with one more. -/
theorem getElem?_append_one {α : Type} {ys : List α} {y x : α} {j : Nat} (at_ : (ys ++ [y])[j]? = some x) :
    ys[j]? = some x ∨ (j = ys.length ∧ x = y) := by
  rcases lt_trichotomy j ys.length with low | same | high
  · rw [List.getElem?_append_left low] at at_
    exact .inl at_
  · rw [List.getElem?_append_right same.ge, same, Nat.sub_self] at at_
    exact .inr ⟨same, (Option.some.inj at_).symm⟩
  · rw [List.getElem?_eq_none (by rw [List.length_append]; exact high)] at at_
    exact nomatch at_

/-- A station that has joined is not IDLE, and the others are as they were. -/
theorem Enrolled.idle_iff (h : Enrolled s t c xs) (n : Fin 64) :
    (t.stations.get n).state = .idle ↔ (s.stations.get n).state = .idle ∧ n ∉ xs.map (·.1) := by
  by_cases mem : n ∈ xs.map (·.1)
  · obtain ⟨j, x, at_, rfl, first⟩ := first_place mem
    rw [h.enters j x at_ first]
    refine iff_of_false (fun idle => ?_) fun both => both.2 mem
    unfold Station.enters at idle
    split at idle
    · next busy => exact (Station.joinsAs_idle_iff _ _).mp busy idle
    · dsimp only at idle
      split at idle <;> exact nomatch idle
  · rw [h.fresh n mem]
    exact ⟨fun idle => ⟨idle, mem⟩, And.left⟩

/-- A station joins as the list says. -/
theorem Enrolled.joins (h : Enrolled s t c xs) (x : Fin 64 × RawParty) :
    (t.stations.get x.1).joinsAs x.2.ring = s.joining (xs ++ [x]) xs.length x := by
  unfold State.joining
  rw [List.take_left]
  split
  · next mem => exact Station.joinsAs_busy _ fun idle => ((h.idle_iff x.1).mp idle).2 mem
  · next new => rw [h.fresh x.1 new]

theorem Enrolled.ringTimeout (h : Enrolled s t c xs) : (t.calls.get c).ringTimeout = (s.calls.get c).ringTimeout :=
  (Call.mk.inj h.bare).2.2.1

/-- One station more, its claim not yet placed. -/
theorem Enrolled.step (h : Enrolled s t c xs) (x : Fin 64 × RawParty) (arrival : Nat) :
    Enrolled s (t.enrolled c (t.joiner c x.1 x.2.ring x.2.talk x.2.listen arrival)) c (xs ++ [x]) := by
  have joins := h.joins x
  have still (j : Nat) (y : Fin 64 × RawParty) (at_ : xs[j]? = some y) : s.joining (xs ++ [x]) j y = s.joining xs j y := by
    unfold State.joining
    rw [take_append_one at_]
  have call : ((t.enrolled c (t.joiner c x.1 x.2.ring x.2.talk x.2.listen arrival)).calls.get c) =
      { t.calls.get c with parties := (t.calls.get c).parties ++ [t.joiner c x.1 x.2.ring x.2.talk x.2.listen arrival] } := by
    unfold State.enrolled
    rw [State.modStation_calls, State.modCall_calls, Tab.get_modify_self]
  have station (n : Fin 64) : (t.enrolled c (t.joiner c x.1 x.2.ring x.2.talk x.2.listen arrival)).stations.get n =
      if n = x.1 then (t.stations.get n).enters c ((t.stations.get x.1).joinsAs x.2.ring) else t.stations.get n := by
    unfold State.enrolled
    rw [State.modStation_stations, Tab.get_modify]
    rfl
  have acts : Acts t (t.enrolled c (t.joiner c x.1 x.2.ring x.2.talk x.2.listen arrival)) :=
    State.modStation_acts (State.modCall_acts (Acts.refl t) _ _) _ _
  refine ⟨h.acts.trans acts, h.slots, h.free, h.stage, h.arrivals, h.grants, fun d other => ?_, ?_, ?_, ?_, ?_, fun j y at_ => ?_,
    fun n out => ?_, fun j y at_ first => ?_⟩
  · have same : (t.enrolled c (t.joiner c x.1 x.2.ring x.2.talk x.2.listen arrival)).calls.get d = t.calls.get d := by
      unfold State.enrolled
      rw [State.modStation_calls, State.modCall_calls, Tab.get_modify_ne _ other]
    rw [same]
    exact h.others d other
  · rw [call]
    exact h.bare
  · rw [call]
    exact h.paged
  · rw [call]
    exact h.page
  · rw [call]
    simp [h.length]
  · rw [call]
    rcases getElem?_append_one at_ with old | ⟨rfl, rfl⟩
    · obtain ⟨q, found, own⟩ := h.party j y old
      refine ⟨q, ?_, own.station, own.talk, own.listen, own.state.trans (still j y old).symm, own.timer⟩
      dsimp only
      rw [List.getElem?_append_left (List.getElem?_eq_some_iff.mp found).1]
      exact found
    · refine ⟨t.joiner c y.1 y.2.ring y.2.talk y.2.listen arrival, ?_, rfl, rfl, rfl, joins, ?_⟩
      · dsimp only
        rw [← h.length, List.getElem?_append_right le_rfl, Nat.sub_self]
        rfl
      · rw [← h.ringTimeout]
        rfl
  · rw [station, if_neg fun same => out (by rw [same]; simp)]
    exact h.fresh n fun mem => out (by rw [List.map_append]; exact List.mem_append_left _ mem)
  · rcases getElem?_append_one at_ with old | ⟨rfl, rfl⟩
    · rw [take_append_one old] at first
      have before := h.enters j y old first
      rw [station]
      split
      · next same =>
        have taken : (t.stations.get x.1).joinsAs x.2.ring = .busy := by
          refine Station.joinsAs_busy _ fun idle => ((h.idle_iff x.1).mp idle).2 ?_
          rw [← same]
          exact List.mem_map_of_mem (List.mem_of_getElem? old)
        rw [taken]
        exact before
      · exact before
    · rw [List.take_left] at first
      rw [station, if_pos rfl, h.fresh _ first]

/-- Nothing below the new party changes. -/
theorem State.Seated.enrolled {k : Nat} {p : Party} (h : s.Seated c k t) (below : k ≤ (t.calls.get c).parties.length) :
    s.Seated c k (t.enrolled c p) := by
  intro i q b low found bound live
  refine h i q b low ?_ bound live
  unfold State.enrolled at found
  rw [State.modStation_calls, State.modCall_calls, Tab.get_modify_self] at found
  dsimp only at found
  rw [List.getElem?_append_left (by omega)] at found
  exact found

/-- What a placement tells the party: its claim, or that its outlet is lost. -/
def Party.told (p : Party) (admitted : Bool) (o : Fin 256) : Party :=
  if admitted then { p with claim := some o } else { p with outletLost := true }

theorem State.placeParty_of {b : Fin 256 × Fin 256} (bound : (s.stations.get n).binding = some b) : s.placeParty c i n arrival =
    (s.place (partyClaim c i (s.calls.get c).priority arrival) b.2).2.modParty c i fun p =>
      p.told (s.place (partyClaim c i (s.calls.get c).priority arrival) b.2).1 b.2 := by
  unfold State.placeParty
  rw [bound]
  rfl

theorem Enrolled.told (h : Enrolled s t c xs) (admitted : Bool) (o : Fin 256) :
    Enrolled s (t.modParty c i fun p => p.told admitted o) c xs := by
  have call : ((t.modParty c i fun p => p.told admitted o).calls.get c) = { t.calls.get c with
      parties := (t.calls.get c).parties.modify i.val fun p => p.told admitted o } := by
    unfold State.modParty
    rw [State.modCall_calls, Tab.get_modify_self]
  refine ⟨h.acts.trans (State.modCall_acts (Acts.refl t) _ _), h.slots, h.free, h.stage, h.arrivals, h.grants, fun d other => ?_, ?_,
    ?_, ?_, ?_, fun j x at_ => ?_, h.fresh, h.enters⟩
  · have same : (t.modParty c i fun p => p.told admitted o).calls.get d = t.calls.get d := by
      unfold State.modParty
      rw [State.modCall_calls, Tab.get_modify_ne _ other]
    rw [same]
    exact h.others d other
  · rw [call]
    exact h.bare
  · rw [call]
    exact h.paged
  · rw [call]
    exact h.page
  · rw [call]
    exact (List.length_modify ..).trans h.length
  · obtain ⟨q, found, joins⟩ := h.party j x at_
    rw [call]
    dsimp only
    rw [List.getElem?_modify, found]
    refine ⟨_, rfl, joins.same ?_⟩
    split
    · unfold Party.told
      split <;> exact ⟨rfl, rfl, rfl, rfl, rfl⟩
    · exact ⟨rfl, rfl, rfl, rfl, rfl⟩

/-- A party's claim is placed. -/
theorem State.Seated.place (h : s.Seated c i.val t) {x : Fin 64 × RawParty} {b : Fin 256 × Fin 256}
    (bound : (t.stations.get x.1).binding = some b) (same : (s.stations.get x.1).binding = some b) {p : Party}
    (last : (t.calls.get c).parties[i.val]? = some p) (own : p.station = x.1) (bare : p.claim = none) :
    s.Seated c (i.val + 1) (t.placeParty c i x.1 arrival) := by
  have lodged := t.place_lodged (partyClaim c i (t.calls.get c).priority arrival) b.2
  have seated : (t.place (partyClaim c i (t.calls.get c).priority arrival) b.2).1 = true →
    hasOwner (.party c i) ((t.place (partyClaim c i (t.calls.get c).priority arrival) b.2).2.stack b.2) = true :=
    t.place_seated _ _
  rw [State.placeParty_of bound]
  generalize t.place (partyClaim c i (t.calls.get c).priority arrival) b.2 = r at lodged seated
  have earlier := h.lodged lodged
  intro j q b' below found bound' live
  unfold State.modParty at found ⊢
  rw [State.modCall_calls, Tab.get_modify_self] at found
  dsimp only at found
  rw [List.getElem?_modify] at found
  by_cases here : i.val = j.val
  · obtain rfl := Fin.ext here
    obtain ⟨v, found', loses⟩ := (lodged.calls c).party i.val p last
    rw [found', Option.map_eq_map, Option.map_some, if_pos rfl] at found
    obtain ⟨station, -⟩ := loses.rest
    have none : v.claim = none := by
      rcases loses with rfl | rfl
      · exact bare
      · rfl
    rw [← Option.some.inj found] at bound' ⊢
    have home : (v.told r.1 b.2).station = x.1 := by
      rw [← own, ← station]
      unfold Party.told
      split <;> rfl
    rw [home] at bound'
    rw [← Option.some.inj (same.symm.trans bound')]
    unfold Party.told
    split
    · next admitted => exact .inl ⟨rfl, seated admitted⟩
    · exact .inr ⟨none, rfl⟩
  · simp only [if_neg here, Option.map_eq_map, Option.map_id_fun', id] at found
    exact earlier j q b' (by omega) found bound' live

/-- One station joins. -/
theorem Enrolled.joined (h : Enrolled s t c xs) (seated : s.Seated c xs.length t) (short : xs.length < 8)
    (x : Fin 64 × RawParty) (arrival : Nat) (bound : (s.stations.get x.1).binding ≠ none) :
    Enrolled s (t.joinParty c x.1 x.2.ring x.2.talk x.2.listen arrival) c (xs ++ [x]) ∧
      s.Seated c (xs ++ [x]).length (t.joinParty c x.1 x.2.ring x.2.talk x.2.listen arrival) := by
  have room : (t.calls.get c).parties.length = (⟨xs.length, short⟩ : Fin 8).val := h.length
  have step := h.step x arrival
  have below := seated.enrolled (p := t.joiner c x.1 x.2.ring x.2.talk x.2.listen arrival) h.length.ge
  have stands : ∀ p, (t.calls.get c).parties ++ [t.joiner c x.1 x.2.ring x.2.talk x.2.listen arrival] = p →
      p[xs.length]? = some (t.joiner c x.1 x.2.ring x.2.talk x.2.listen arrival) := by
    rintro _ rfl
    rw [← h.length, List.getElem?_append_right le_rfl, Nat.sub_self]
    rfl
  have last : ((t.enrolled c (t.joiner c x.1 x.2.ring x.2.talk x.2.listen arrival)).calls.get c).parties[xs.length]? =
      some (t.joiner c x.1 x.2.ring x.2.talk x.2.listen arrival) := by
    refine stands _ ?_
    unfold State.enrolled
    rw [State.modStation_calls, State.modCall_calls, Tab.get_modify_self]
  rw [State.joinParty_of room, List.length_append, List.length_singleton]
  dsimp only
  split
  · next idle =>
    obtain ⟨b, same⟩ := Option.ne_none_iff_exists'.mp bound
    have new := ((h.idle_iff x.1).mp idle).2
    have here : ((t.enrolled c (t.joiner c x.1 x.2.ring x.2.talk x.2.listen arrival)).stations.get x.1).binding = some b := by
      unfold State.enrolled
      rw [State.modStation_stations, State.modCall_stations, show (t.joiner c x.1 x.2.ring x.2.talk x.2.listen
        arrival).station = x.1 from rfl, Tab.get_modify_self, h.fresh x.1 new]
      unfold Station.enters
      split <;> exact same
    have placed := below.place (i := ⟨xs.length, short⟩) (arrival := arrival) here same last rfl rfl
    refine ⟨?_, placed⟩
    rw [State.placeParty_of here]
    exact (step.lodged (State.place_quiet (Quiet.refl _) _ _ fun _ _ => Claim.fits_party rfl).toActs (State.place_lodged _ _ _)
      (State.place_grants _ _ _)).told _ _
  · next other =>
    refine ⟨step, fun i q b low found bound' live => ?_⟩
    by_cases here : i.val = xs.length
    · rw [here] at found
      rw [← Option.some.inj (last.symm.trans found)] at live
      exact absurd ((Station.joinsAs_idle_iff _ _).mpr other) live
    · exact below i q b (by omega) found bound' live

/-- The stations of a list join one after another. -/
theorem Enrolled.all (bare : (s.calls.get c).parties = []) (short : xs.length ≤ 8)
    (bound : ∀ x ∈ xs, (s.stations.get x.1).binding ≠ none) (arrival : Nat) :
    Enrolled s (s.forAll xs fun x s => s.joinParty c x.1 x.2.ring x.2.talk x.2.listen arrival) c xs ∧
      s.Seated c xs.length (s.forAll xs fun x s => s.joinParty c x.1 x.2.ring x.2.talk x.2.listen arrival) := by
  have loop (ys : List (Fin 64 × RawParty)) (done : List (Fin 64 × RawParty)) (t : State) (whole : xs = done ++ ys)
      (now : Enrolled s t c done) (seated : s.Seated c done.length t) :
      Enrolled s (t.forAll ys fun x s => s.joinParty c x.1 x.2.ring x.2.talk x.2.listen arrival) c xs ∧
        s.Seated c xs.length (t.forAll ys fun x s => s.joinParty c x.1 x.2.ring x.2.talk x.2.listen arrival) := by
    induction ys generalizing done t with
    | nil =>
      rw [List.append_nil] at whole
      subst whole
      exact ⟨now, seated⟩
    | cons y ys ih =>
      have room : done.length < 8 := by
        rw [whole, List.length_append, List.length_cons] at short
        omega
      obtain ⟨next, sits⟩ := now.joined seated room y arrival (bound y (by rw [whole]; simp))
      rw [State.forAll_cons]
      exact ih (done ++ [y]) _ (by rw [whole]; simp) next sits
  exact loop xs [] s rfl (Enrolled.nil bare) fun _ _ _ low => absurd low (Nat.not_lt_zero _)

end

end

end Sys2Proof.Machine

end

section
/-! PROOF. OPEN_CALL: its checks (R118), what it opens, and how the call is examined (R119, R125). -/

open Sys2Proof Sys2Proof.Machine

namespace Sys2Proof.Machine

section
variable {s : State} {h : Hand} {blocks : List (List Byte)} {c : Fin 16}

/-! ### The checks (R118) -/

/-- A party of the record whose station is out of range or UNDEFINED. -/
def State.badParty (s : State) (x : RawParty) : Prop :=
  64 ≤ x.station ∨ ∃ n : Fin 64, x.station = n.val ∧ (s.stations.get n).binding = none

theorem State.partiesOf_bad {rs : List RawParty} (bad : ∃ x ∈ rs, s.badParty x) : s.partiesOf rs = none := by
  obtain ⟨x, mem, bad⟩ := bad
  refine mapM_eq_none ⟨x, mem, ?_⟩
  rcases bad with beyond | ⟨n, own, unbound⟩
  · rw [toFin?_none beyond]
    rfl
  · rw [toFin?_eq_some_iff.mpr own]
    dsimp only [Option.bind_some]
    rw [unbound]
    rfl

theorem State.partiesOf_of {rs : List RawParty} {ns : List (Fin 64)} (stations : rs.map (·.station) = ns.map (·.val))
    (bound : ∀ n ∈ ns, (s.stations.get n).binding ≠ none) : s.partiesOf rs = some (ns.zip rs) := by
  unfold State.partiesOf
  induction rs generalizing ns with
  | nil =>
    obtain rfl := List.map_eq_nil_iff.mp stations.symm
    rfl
  | cons x rs ih =>
    obtain ⟨n, ns, rfl, own, rest⟩ := List.map_eq_cons_iff.mp stations.symm
    rw [List.mapM_cons, ih rest.symm fun m mem => bound m (List.mem_cons_of_mem _ mem), toFin?_eq_some_iff.mpr own.symm]
    dsimp only [Option.bind_some]
    rw [if_pos (Option.isSome_iff_ne_none.mpr (bound n (List.mem_cons_self ..)))]
    rfl

/-- Good parties are a list of defined stations. -/
theorem State.partiesOf_good {rs : List RawParty} (good : ∀ x ∈ rs, ¬s.badParty x) :
    ∃ ns : List (Fin 64), rs.map (·.station) = ns.map (·.val) ∧ ∀ n ∈ ns, (s.stations.get n).binding ≠ none := by
  induction rs with
  | nil => exact ⟨[], rfl, nofun⟩
  | cons x rs ih =>
    obtain ⟨ns, same, bound⟩ := ih fun y mem => good y (List.mem_cons_of_mem _ mem)
    have ok := good x (List.mem_cons_self ..)
    have small : x.station < 64 := by
      by_contra big
      exact ok (.inl (by omega))
    refine ⟨⟨x.station, small⟩ :: ns, by rw [List.map_cons, List.map_cons, same], fun n mem => ?_⟩
    rcases List.mem_cons.mp mem with rfl | mem
    · exact fun unbound => ok (.inr ⟨_, rfl, unbound⟩)
    · exact bound n mem

/-- The block of parties of the record. -/
abbrev openParties (h : Hand) (blocks : List (List Byte)) : List RawParty :=
  rawParties (blocks.getLastD []) (openRec h.bytes).count

/-- What refuses an OPEN_CALL record with BAD_FIELD (R118). -/
def State.openBad (s : State) (h : Hand) (blocks : List (List Byte)) : Prop :=
  16 ≤ (openRec h.bytes).call ∨ (openRec h.bytes).count < 2 ∨ 8 < (openRec h.bytes).count ∨
    (openRec h.bytes).count ≤ (openRec h.bytes).anchor ∨ (∃ x ∈ openParties h blocks, s.badParty x) ∨
      ∃ x, (openParties h blocks)[(openRec h.bytes).anchor]? = some x ∧ x.ring = true

theorem openParties_length : (openParties h blocks).length = (openRec h.bytes).count := by
  unfold openParties rawParties
  rw [List.length_map, List.length_range]

theorem State.openRecord_bad (bad : s.openBad h blocks) : s.openRecord h blocks = s.reply .call h stBadField false [] := by
  unfold State.openRecord
  dsimp only
  cases slot : toFin? 16 (openRec h.bytes).call with
  | none => rfl
  | some c =>
    dsimp only
    split
    · rfl
    · next counts =>
      simp only [Bool.or_eq_true, decide_eq_true_eq, not_or, Nat.not_lt, Nat.not_le] at counts
      cases parties : s.partiesOf (rawParties (blocks.getLastD []) (openRec h.bytes).count) with
      | none => rfl
      | some ps =>
        dsimp only
        refine if_pos ?_
        have inside := c.isLt
        rw [← toFin?_eq_some_iff.mp slot] at inside
        rcases bad with beyond | few | many | anchor | party | ⟨x, at_, ring⟩
        · omega
        · omega
        · omega
        · omega
        · rw [State.partiesOf_bad party] at parties
          exact nomatch parties
        · rw [Option.any_eq_true]
          exact ⟨x, at_, ring⟩

/-- A record without a bad field. -/
theorem State.openRecord_of (slot : (openRec h.bytes).call = c.val) (good : ¬s.openBad h blocks) {ns : List (Fin 64)}
    (stations : (openParties h blocks).map (·.station) = ns.map (·.val))
    (bound : ∀ n ∈ ns, (s.stations.get n).binding ≠ none) : s.openRecord h blocks =
      match toFin? 64 (if (openRec h.bytes).page then (openRec h.bytes).pageSlot else 0) with
      | none => s.reply .call h stBadSlot false []
      | some p =>
        if (openRec h.bytes).page = true ∧ 59 ≤ p.val then s.reply .call h stBadSlot false []
        else if (s.calls.get c).state ≠ .free then s.reply .call h stSlotBusy false []
        else if (openRec h.bytes).page = true ∧ ((s.programs.get p).state ≠ .free ∨ (s.programs.get p).reservation ≠ none) then
          s.reply .call h stSlotBusy false []
        else s.openCall c h ((openRec h.bytes).pageOf blocks p) (ns.zip (openParties h blocks)) := by
  simp only [State.openBad, not_or, Nat.not_le, Nat.not_lt] at good
  obtain ⟨-, few, many, anchor, -, silent⟩ := good
  unfold State.openRecord
  dsimp only
  rw [toFin?_eq_some_iff.mpr slot]
  dsimp only
  rw [if_neg (by simp only [Bool.or_eq_true, decide_eq_true_eq, not_or]; omega), State.partiesOf_of stations bound]
  dsimp only
  rw [if_neg (fun ring => silent ((Option.any_eq_true _ _).mp ring))]
  cases toFin? 64 (if (openRec h.bytes).page = true then (openRec h.bytes).pageSlot else 0) with
  | none => rfl
  | some p =>
    dsimp only
    simp only [Bool.and_eq_true, Bool.or_eq_true, decide_eq_true_eq, bne_iff_ne, Option.isSome_iff_ne_none]

/-- A record that is opened. -/
theorem State.openRecord_opens (slot : (openRec h.bytes).call = c.val) (good : ¬s.openBad h blocks) {ns : List (Fin 64)}
    (stations : (openParties h blocks).map (·.station) = ns.map (·.val))
    (bound : ∀ n ∈ ns, (s.stations.get n).binding ≠ none) (free : (s.calls.get c).state = .free) {p : Fin 64}
    (paged : (openRec h.bytes).page = true → (openRec h.bytes).pageSlot = p.val ∧ p.val < 59 ∧
      (s.programs.get p).state = .free ∧ (s.programs.get p).reservation = none) :
    s.openRecord h blocks = s.openCall c h ((openRec h.bytes).pageOf blocks p) (ns.zip (openParties h blocks)) := by
  rw [State.openRecord_of slot good stations bound]
  by_cases page : (openRec h.bytes).page = true
  · obtain ⟨own, low, idle, unreserved⟩ := paged page
    rw [if_pos page, toFin?_eq_some_iff.mpr own]
    dsimp only
    rw [if_neg (by omega), if_neg (not_not_intro free), if_neg (by simp [idle, unreserved])]
  · rw [if_neg page, show toFin? 64 0 = some 0 from rfl]
    dsimp only
    rw [if_neg (fun both => page both.1), if_neg (not_not_intro free), if_neg (fun both => page both.1)]
    unfold OpenRec.pageOf
    rw [if_neg page, if_neg page]

/-! ### What is opened (R119) -/

/-- An OPEN_CALL record's clamp mark. -/
def openMark (h : Hand) : Bool :=
  decide ((openRec h.bytes).priority < 6 ∨ 9 < (openRec h.bytes).priority ∨ (openRec h.bytes).ringTimeout < 1 ∨
    120 < (openRec h.bytes).ringTimeout)

/-- The call of the record, without its parties. -/
def newCall (h : Hand) (page : Option Page) (arrival : Nat) : Call :=
  { state := .ringing, priority := max 6 (min 9 (openRec h.bytes).priority)
    ringTimeout := max 1 (min 120 (openRec h.bytes).ringTimeout), anchor := (openRec h.bytes).anchor, arrival, page
    record := some (h.ref (openMark h)) }

/-- The slot of a call's page is reserved. -/
def State.reserved (c : Fin 16) (page : Option Page) (s : State) : State :=
  match page with
  | some g => s.modProgram g.slot fun pr => { pr with reservation := some c }
  | none => s

/-- A call that is opened, before its parties join. -/
def State.opening (c : Fin 16) (h : Hand) (page : Option Page) (s : State) : State :=
  (({ s.take .call h (openMark h) with claims := { s.claims with arrivals := s.claims.arrivals + 1 } } : State).modCall c
    fun _ => newCall h page s.claims.arrivals).reserved c page

/-- The ring is asked for where a party is RINGING. -/
def State.rung (c : Fin 16) (s : State) : State :=
  if (s.calls.get c).parties.any fun p => p.state == .ringing then s.askRing else s

/-- The opened call is examined, and is FREE again where it clears. -/
def State.dialled (c : Fin 16) (s : State) : State :=
  if (((s.rung c).examine c).calls.get c).state == .clearing then ((s.rung c).examine c).freeCall c else (s.rung c).examine c

theorem State.openCall_eq (below : s.claims.arrivals < 4294967295) (page : Option Page) (ps : List (Fin 64 × RawParty)) :
    s.openCall c h page ps = ((s.opening c h page).forAll ps fun x t =>
      t.joinParty c x.1 x.2.ring x.2.talk x.2.listen s.claims.arrivals).dialled c := by
  have mark : ((clampMark (openRec h.bytes).priority 6 9).2 || (clampMark (openRec h.bytes).ringTimeout 1 120).2) = openMark h := by
    rw [clampMark_eq (by decide), clampMark_eq (by decide), ← Bool.decide_or, openMark]
    exact decide_eq_decide.mpr (by tauto)
  unfold State.openCall State.dialled State.rung
  dsimp only
  rw [State.issueArrival_below (s := s.take .call h _) below, mark, clampMark_eq (by decide), clampMark_eq (by decide)]
  rfl

/-- What the opening of a call changes. -/
structure Opening (s t : State) (c : Fin 16) (h : Hand) (page : Option Page) : Prop where
  acts : Acts s t
  stations : t.stations = s.stations
  stage : (t.walker .call).stage = .takenWrite h (openMark h)
  calls : t.calls = s.calls.set c (newCall h page s.claims.arrivals)
  stack : t.claims.stack = s.claims.stack
  floors : t.claims.floors = s.claims.floors
  arrivals : t.claims.arrivals = s.claims.arrivals + 1
  state : ∀ q, (t.programs.get q).state = (s.programs.get q).state
  reserved : ∀ g, page = some g → (t.programs.get g.slot).reservation = some c
  port : t.port = s.port
  tones : t.tones = s.tones

theorem State.opening_of (s : State) (c : Fin 16) (h : Hand) (page : Option Page) : Opening s (s.opening c h page) c h page := by
  have count (t : State) : Acts t { t with claims := { t.claims with arrivals := t.claims.arrivals + 1 } } :=
    { Acts.refl t with }
  have opened : Acts s (({ s.take .call h (openMark h) with
      claims := { s.claims with arrivals := s.claims.arrivals + 1 } } : State).modCall c
        fun _ => newCall h page s.claims.arrivals) :=
    State.modCall_acts ((State.take_acts (Acts.refl s) .call h (openMark h)).trans (count _)) c _
  have stage : ((({ s.take .call h (openMark h) with
      claims := { s.claims with arrivals := s.claims.arrivals + 1 } } : State).modCall c
        fun _ => newCall h page s.claims.arrivals).walker .call).stage = .takenWrite h (openMark h) :=
    s.take_stage .call h (openMark h)
  have calls : s.calls.modify c (fun _ => newCall h page s.claims.arrivals) =
      s.calls.set c (newCall h page s.claims.arrivals) := Tab.modify_eq_set ..
  unfold State.opening State.reserved
  cases page with
  | none => exact ⟨opened, rfl, stage, calls, rfl, rfl, rfl, fun _ => rfl, nofun, rfl, rfl⟩
  | some g =>
    refine ⟨State.modProgram_acts opened _ _ fun _ => ⟨rfl, rfl, rfl, id⟩, rfl, stage, calls, rfl, rfl, rfl, fun q => ?_,
      fun g' own => ?_, rfl, rfl⟩
    · dsimp only
      rw [State.modProgram_programs, Tab.get_modify]
      split <;> rfl
    · obtain rfl := Option.some.inj own
      dsimp only
      rw [State.modProgram_programs, Tab.get_modify_self]

theorem State.rung_tones (s : State) (c : Fin 16) : ∃ tones, s.rung c = { s with tones } := by
  unfold State.rung
  split
  · exact s.askRing_tones
  · exact ⟨_, rfl⟩

end

end Sys2Proof.Machine

end

section
/-! PROOF. OPEN_CALL refused, and cleared within its take (O47). -/

open Sys2Proof Sys2Proof.Machine

namespace Sys2Proof.Machine

section
variable {s t : State} {c : Fin 16}

theorem State.unclaimParty_lists (s : State) (c : Fin 16) (i : Fin 8) :
    (s.unclaimParty c i).lists = s.lists ∧ (s.unclaimParty c i).port = s.port := by
  unfold State.unclaimParty
  split
  · exact ⟨(State.removeClaim_steady (Steady.refl _) _ _).lists, State.removeClaim_port _ _ _⟩
  · exact ⟨rfl, rfl⟩

theorem State.disbanded_lists (s : State) (c : Fin 16) :
    (s.disbanded c).lists = s.lists ∧ (s.disbanded c).port = s.port := by
  have unclaimed (is : List (Fin 8)) (t : State) : (t.forAll is (State.unclaimParty c)).lists = t.lists ∧
      (t.forAll is (State.unclaimParty c)).port = t.port := by
    induction is generalizing t with
    | nil => exact ⟨rfl, rfl⟩
    | cons i is ih =>
      obtain ⟨lists, port⟩ := t.unclaimParty_lists c i
      rw [State.forAll_cons]
      exact ⟨(ih _).1.trans lists, (ih _).2.trans port⟩
  obtain ⟨⟨calls, stations, e⟩, -⟩ := State.forAll_clearParty c (allFin_nodup 8)
    (s.modCall c fun call => { call with state := .clearing, final := call.parties.map Party.finalByte })
  obtain ⟨lists, port⟩ := unclaimed (allFin 8) ((s.modCall c fun call =>
    { call with state := .clearing, final := call.parties.map Party.finalByte }).forAll (allFin 8) (State.clearParty c))
  unfold State.disbanded
  exact ⟨lists.trans (by rw [e]; rfl), port.trans (by rw [e]; rfl)⟩

/-- The clearing of a call whose page does not run. -/
theorem State.enterClearing_quiets (quiet : ∀ g, (s.calls.get c).page = some g → g.state ≠ .running) :
    (s.enterClearing c).lists = s.lists ∧ (s.enterClearing c).port = s.port := by
  have calls := s.disbanded_calls c
  obtain ⟨lists, port⟩ := s.disbanded_lists c
  rw [State.enterClearing_eq]
  generalize s.disbanded c = t at calls lists port
  have page : (t.calls.get c).page = (s.calls.get c).page := by rw [calls, Tab.get_set, if_pos rfl]; rfl
  rw [State.pageStopped_not (fun g own => quiet g (page ▸ own))]
  obtain ⟨tones, e⟩ := t.releaseRing_tones
  rw [e]
  exact ⟨lists, port⟩

/-- A call whose anchor is gone clears. -/
theorem State.examine_clears (rings : (s.calls.get c).state = .ringing) (gone : (s.calls.get c).anchorGone = true) :
    s.examine c = s.enterClearing c := by
  unfold State.examine
  dsimp only
  rw [rings]
  dsimp only
  rw [gone, Bool.true_or, if_pos rfl]

/-- The slot of a freed call's page. -/
def State.unreserved (page : Option Page) (s : State) : State :=
  match page with
  | some g => s.modProgram g.slot fun pr => { pr with reservation := none }
  | none => s

/-- A call that becomes FREE while its TAKEN write waits takes its place with the return (R119, R128). -/
theorem State.freeCall_withdraws {h : Hand} {mark : Bool} (stage : (s.walker .call).stage = .takenWrite h mark)
    (record : (s.calls.get c).record = some (h.ref mark)) (waits : s.takenGranted .call h.addr = false) :
    s.freeCall c = ((s.unreserved (s.calls.get c).page).modCall c fun _ => {}).setStage .call (.returnWrite h
      { record := h.ref mark, status := marked 0x08 mark
        results := [(28, ((s.calls.get c).final ++ List.replicate 8 0).take 8)] } false) := by
  have same : (s.unreserved (s.calls.get c).page).walker .call = s.walker .call ∧
      (s.unreserved (s.calls.get c).page).port = s.port := by
    unfold State.unreserved
    split <;> exact ⟨rfl, rfl⟩
  rw [State.freeCall_eq]
  dsimp only
  rw [record]
  refine State.requestReturn_withdraws (mark := mark) (s := (s.unreserved (s.calls.get c).page).modCall c fun _ => {}) ?_ rfl ?_
  · exact (congrArg Walker.stage same.1).trans stage
  · rw [← waits]
    unfold State.takenGranted
    rw [State.modCall_port, same.2]

/-! ### The clearing within the take -/

/-- What a call cleared within its take leaves. -/
structure CutShort (s t : State) (c : Fin 16) (h : Hand) (final : List Byte) : Prop where
  empty : t.calls.get c = {}
  stage : (t.walker .call).stage = .returnWrite h { record := h.ref (openMark h), status := marked 0x08 (openMark h)
                                                    results := [(28, final)] } false
  length : final.length = 8
  anchor : byteAt final (openRec h.bytes).anchor % 128 = 3
  idle : ∀ m, (s.stations.get m).state = .idle → (t.stations.get m).state = .idle
  others : ∀ m, (s.stations.get m).state ≠ .idle → t.stations.get m = s.stations.get m

theorem finalByte_busy {p : Party} (busy : p.state = .busy) : p.finalByte.toNat % 128 = 3 := by
  unfold Party.finalByte
  rw [busy]
  dsimp only
  cases p.outletLost <;> rfl

theorem byteAt_final {finals : List Byte} {i : Nat} {x : Byte} (at_ : finals[i]? = some x) (low : i < 8) :
    byteAt ((finals ++ List.replicate 8 0).take 8) i = x.toNat := by
  unfold byteAt
  rw [List.getD_eq_getElem?_getD, List.getElem?_take_of_lt low,
    List.getElem?_append_left (List.getElem?_eq_some_iff.mp at_).1, at_]
  rfl

/-- A live party's station was IDLE, and is among those that joined. -/
theorem Enrolled.live_idle {xs : List (Fin 64 × RawParty)} {u : State} (h : Enrolled s u c xs) {j : Nat} {p : Party}
    (found : (u.calls.get c).parties[j]? = some p) (live : p.live = true) : (s.stations.get p.station).state = .idle := by
  have inside := (List.getElem?_eq_some_iff.mp found).1
  rw [h.length] at inside
  obtain ⟨q, found', joins⟩ := h.party j _ (List.getElem?_eq_getElem inside)
  obtain rfl := Option.some.inj (found.symm.trans found')
  by_contra other
  have busy : p.state = .busy := by
    rw [joins.state]
    unfold State.joining
    split
    · rfl
    · exact Station.joinsAs_busy _ (joins.station ▸ other)
  rw [Party.live_eq_true, busy] at live
  rcases live with e | e <;> exact nomatch e

theorem Enrolled.first_live {xs : List (Fin 64 × RawParty)} {u : State} (h : Enrolled s u c xs) {n : Fin 64}
    (mem : n ∈ xs.map (·.1)) (idle : (s.stations.get n).state = .idle) :
    ∃ p ∈ (u.calls.get c).parties, p.station = n ∧ p.live = true := by
  obtain ⟨j, x, at_, rfl, first⟩ := first_place mem
  obtain ⟨q, found, joins⟩ := h.party j x at_
  refine ⟨q, List.mem_of_getElem? found, joins.station, ?_⟩
  rw [Party.live_eq_true, joins.state]
  unfold State.joining
  rw [if_neg first]
  unfold Station.joinsAs
  rw [idle]
  dsimp only
  split
  · exact .inr rfl
  · exact .inl rfl

/-- The anchor of a call that is opened is not IDLE: the call clears at once. -/
theorem Enrolled.cutShort {h : Hand} {page : Option Page} {xs : List (Fin 64 × RawParty)} {u : State}
    (opening : Opening s t c h page) (enrolled : Enrolled t u c xs) (short : xs.length ≤ 8)
    {x : Fin 64 × RawParty} (anchor : xs[(openRec h.bytes).anchor]? = some x) (gone : (s.stations.get x.1).state ≠ .idle)
    (paged : ∀ g, page = some g → g.state = .reserved ∧ (s.programs.get g.slot).state = .free)
    (waits : s.takenGranted .call h.addr = false) :
    ∃ final, CutShort s (u.dialled c) c h final ∧ ∀ g, page = some g → ((u.dialled c).programs.get g.slot).reservation = none := by
  obtain ⟨tones, rung⟩ := u.rung_tones c
  have call : t.calls.get c = newCall h page s.claims.arrivals := by rw [opening.calls, Tab.get_set, if_pos rfl]
  have bare := enrolled.bare
  rw [call] at bare
  obtain ⟨state, -, -, anchored, -, -, -, -, record, -⟩ := Call.mk.inj bare
  obtain ⟨p, found, joins⟩ := enrolled.party _ x anchor
  have busy : p.state = .busy := by
    rw [joins.state]
    unfold State.joining
    split
    · rfl
    · refine Station.joinsAs_busy _ ?_
      rw [opening.stations]
      exact gone
  have page_ : (u.calls.get c).page = page := by
    have own : (t.calls.get c).page = page := by rw [call]; rfl
    cases page with
    | none => exact enrolled.paged own
    | some g => exact enrolled.page g own ((opening.state _).trans (paged g rfl).2)
  have lost : (u.calls.get c).anchorGone = true := by
    unfold Call.anchorGone
    rw [anchored, show (newCall h page s.claims.arrivals).anchor = (openRec h.bytes).anchor from rfl, found]
    dsimp only
    rw [busy]
    rfl
  have clears := ({ u with tones } : State).enterClearing_clears c
  have quiet : ∀ g, (({ u with tones } : State).calls.get c).page = some g → g.state ≠ .running := fun g own => by
    rw [(paged g (page_.symm.trans own)).1]
    nofun
  obtain ⟨lists, port⟩ := State.enterClearing_quiets quiet
  have examined : (u.rung c).examine c = ({ u with tones } : State).enterClearing c := by
    rw [rung]
    exact State.examine_clears state lost
  have dialled : u.dialled c = (({ u with tones } : State).enterClearing c).freeCall c := by
    unfold State.dialled
    rw [examined, clears.call]
    exact if_pos rfl
  rw [dialled]
  generalize ({ u with tones } : State).enterClearing c = v at clears lists port
  obtain ⟨acts, vcall, -, -, idle, kept⟩ := clears
  have vpage : (v.calls.get c).page = page := by rw [vcall]; exact page_
  have stage : (v.walker .call).stage = .takenWrite h (openMark h) := by
    unfold State.walker
    rw [lists]
    exact enrolled.stage.trans opening.stage
  have record' : (v.calls.get c).record = some (h.ref (openMark h)) := by rw [vcall]; exact record
  have waits' : v.takenGranted .call h.addr = false := by
    have before : u.takenGranted .call h.addr = t.takenGranted .call h.addr :=
      enrolled.grants.takenGranted enrolled.acts.granted _ _
    rw [← waits]
    unfold State.takenGranted at before ⊢
    rw [port, show ({ u with tones } : State).port = u.port from rfl, before, opening.port]
  have final : (v.calls.get c).final[(openRec h.bytes).anchor]? = some p.finalByte := by
    rw [vcall]
    change ((u.calls.get c).parties.map Party.finalByte)[_]? = _
    rw [List.getElem?_map, found]
    rfl
  have low : (openRec h.bytes).anchor < 8 := by
    have := (List.getElem?_eq_some_iff.mp anchor).1
    omega
  rw [State.freeCall_withdraws stage record' waits']
  have stations : (v.unreserved (v.calls.get c).page).stations = v.stations := by
    unfold State.unreserved
    split <;> rfl
  refine ⟨((v.calls.get c).final ++ List.replicate 8 0).take 8, ⟨?_, ?_, ?_, ?_, fun m rests => ?_,
    fun m away => ?_⟩, fun g own => ?_⟩
  · rw [State.setStage_calls, State.modCall_calls, Tab.get_modify_self]
  · unfold State.setStage
    rw [State.walker_modWalker, if_pos rfl]
  · rw [List.length_take, List.length_append, List.length_replicate]
    omega
  · rw [byteAt_final final low]
    exact finalByte_busy busy
  · rw [State.setStage_stations, State.modCall_stations, stations]
    rw [← opening.stations] at rests
    by_cases mem : m ∈ xs.map (·.1)
    · obtain ⟨q, mem', rfl, live⟩ := enrolled.first_live mem rests
      rw [idle q mem' (enrolled.length ▸ short) live]
      rfl
    · refine Eq.trans (congrArg Station.state (kept m fun i q found' live same => mem ?_))
        ((congrArg Station.state (enrolled.fresh m mem)).trans rests)
      have inside := (List.getElem?_eq_some_iff.mp found').1
      change i.val < (u.calls.get c).parties.length at inside
      rw [enrolled.length] at inside
      obtain ⟨q', again, joins'⟩ := enrolled.party i.val _ (List.getElem?_eq_getElem inside)
      obtain rfl := Option.some.inj (found'.symm.trans again)
      rw [← same, joins'.station]
      exact List.mem_map_of_mem (List.getElem_mem inside)
  · rw [State.setStage_stations, State.modCall_stations, stations]
    have still := kept m fun i q found' live same => away (by
      rw [← opening.stations, ← same]
      exact enrolled.live_idle found' live)
    refine still.trans ?_
    change u.stations.get m = _
    rw [← opening.stations] at away ⊢
    by_cases mem : m ∈ xs.map (·.1)
    · obtain ⟨j, y, at_, rfl, first⟩ := first_place mem
      rw [enrolled.enters j y at_ first, Station.joinsAs_busy _ away]
      exact if_pos rfl
    · exact enrolled.fresh m mem
  · rw [State.setStage_programs, State.modCall_programs, vpage, own]
    unfold State.unreserved
    dsimp only
    rw [State.modProgram_programs, Tab.get_modify_self]

end

end Sys2Proof.Machine

/-- Settles O47: the checks in their order, and the clearing of a call whose anchor is BUSY. -/
theorem openCallChecks : Obligations.OpenCallChecks := by
  unfold Obligations.OpenCallChecks
  intro s h blocks r raw refused mark bad inHand kind
  have ran : exec .openCall s = .next (s.openRecord h blocks).arbitrate :=
    congrArg Host.Outcome.next (State.handOver_of (fun h bs s => s.openRecord h bs) inHand kind)
  refine ⟨fun wrong => ?_, fun good page high => ?_, fun c slot good low => ?_⟩
  · refine ran.trans (congrArg (Host.Outcome.next ∘ State.arbitrate) ?_)
    exact State.openRecord_bad wrong
  · have inside : r.call < 16 := by
      by_contra beyond
      exact good (.inl (by omega))
    obtain ⟨ns, stations, bound⟩ := s.partiesOf_good fun x mem wrong =>
      good (.inr (.inr (.inr (.inr (.inl ⟨x, mem, wrong⟩)))))
    refine ran.trans (congrArg (Host.Outcome.next ∘ State.arbitrate) ?_)
    rw [State.openRecord_of (c := ⟨r.call, inside⟩) rfl good stations bound, if_pos page]
    cases number : toFin? 64 (openRec h.bytes).pageSlot with
    | none => rfl
    | some p =>
      refine if_pos ⟨page, ?_⟩
      rw [← toFin?_eq_some_iff.mp number]
      exact high
  · intro pageBusy
    refine ⟨fun busy => ?_, ?_⟩
    · obtain ⟨ns, stations, bound⟩ := s.partiesOf_good fun x mem wrong =>
        good (.inr (.inr (.inr (.inr (.inl ⟨x, mem, wrong⟩)))))
      refine ran.trans (congrArg (Host.Outcome.next ∘ State.arbitrate) ?_)
      rw [State.openRecord_of slot good stations bound]
      by_cases page : r.page = true
      · have small := low page
        rw [if_pos page, show toFin? 64 (openRec h.bytes).pageSlot = some ⟨r.pageSlot, by omega⟩ from
          toFin?_eq_some_iff.mpr rfl]
        dsimp only
        rw [if_neg (by omega)]
        by_cases free : (s.calls.get c).state = .free
        · rw [if_neg (not_not_intro free)]
          obtain ⟨-, p, own, taken⟩ := busy.resolve_left (not_not_intro free)
          have same : p = ⟨r.pageSlot, by omega⟩ := Fin.ext own.symm
          rw [same] at taken
          exact if_pos ⟨page, taken⟩
        · exact if_pos free
      · rw [if_neg page, show toFin? 64 0 = some 0 from rfl]
        dsimp only
        rw [if_neg (fun both => page both.1)]
        exact if_pos (busy.resolve_right fun taken => page taken.1)
    · intro x n free idlePage at_ own away waits below
      obtain ⟨ns, stations, bound⟩ := s.partiesOf_good fun x mem wrong =>
        good (.inr (.inr (.inr (.inr (.inl ⟨x, mem, wrong⟩)))))
      obtain ⟨p, paged⟩ : ∃ p : Fin 64, r.page = true → r.pageSlot = p.val ∧ p.val < 59 ∧
          (s.programs.get p).state = .free ∧ (s.programs.get p).reservation = none := by
        by_cases page : r.page = true
        · have small := low page
          refine ⟨⟨r.pageSlot, by omega⟩, fun _ => ⟨rfl, small, ?_, ?_⟩⟩ <;> by_contra taken
          · exact idlePage ⟨page, _, rfl, .inl taken⟩
          · exact idlePage ⟨page, _, rfl, .inr taken⟩
        · exact ⟨0, fun yes => absurd yes page⟩
      have opens := State.openRecord_opens slot good stations bound free paged
      have page (g : Page) (is : r.pageOf blocks p = some g) : g.state = .reserved ∧ g.slot = p ∧ r.page = true := by
        unfold OpenRec.pageOf at is
        split at is
        · next yes =>
          obtain rfl := Option.some.inj is
          exact ⟨rfl, rfl, yes⟩
        · exact nomatch is
      have same : ns.length = raw.length := by
        have lengths := congrArg List.length stations
        rw [List.length_map, List.length_map] at lengths
        exact lengths.symm
      have count : raw.length = r.count := openParties_length
      have few : r.count ≤ 8 := by
        by_contra many
        exact good (.inr (.inr (.inl (by omega))))
      have anchor : (ns.zip raw)[r.anchor]? = some (n, x) := by
        have named := congrArg (·[r.anchor]?) stations
        rw [List.getElem?_map, List.getElem?_map, show (openParties h blocks)[r.anchor]? = some x from at_, Option.map_some] at named
        obtain ⟨m, found, number⟩ := Option.map_eq_some_iff.mp named.symm
        rw [List.getElem?_zip_eq_some]
        exact ⟨found.trans (congrArg some (Fin.ext (number.trans own))), at_⟩
      have short : (ns.zip raw).length ≤ 8 := by
        rw [List.length_zip]
        omega
      have opening := s.opening_of c h (r.pageOf blocks p)
      have empty : ((s.opening c h (r.pageOf blocks p)).calls.get c).parties = [] := by
        rw [opening.calls, Tab.get_set, if_pos rfl]
        rfl
      obtain ⟨enrolled, -⟩ := Enrolled.all (xs := ns.zip raw) empty short
        (fun y mem => by rw [opening.stations]; exact bound _ (List.of_mem_zip mem).1) s.claims.arrivals
      obtain ⟨final, cut, slots⟩ := enrolled.cutShort opening short anchor away
        (fun g is => ⟨(page g is).1, by rw [(page g is).2.1]; exact (paged (page g is).2.2).2.2.1⟩) waits
      rw [State.openCall_eq below] at opens
      have untouched := (State.openRecord_acts (Acts.refl s) h blocks).toUntouched.trans (State.arbitrate_untouched _)
      rw [opens] at ran untouched
      refine ⟨_, final, ran, untouched, ?_, ?_, cut.length, cut.anchor, fun m rests => ?_, fun m other => ?_, fun q yes is => ?_⟩
      · rw [State.arbitrate_calls]
        exact cut.empty
      · unfold State.walker
        rw [State.arbitrate_walkers]
        exact cut.stage
      · rw [State.arbitrate_stations]
        exact cut.idle m rests
      · rw [State.arbitrate_stations]
        exact cut.others m other
      · rw [State.arbitrate_programs]
        have is_ : r.pageOf blocks p = some { slot := p, targets := outletSet (blocks.headD []), policy := r.pagePolicy
                                              gain := r.pageGain, state := .reserved } := if_pos yes
        have gone := slots _ is_
        obtain rfl : p = q := Fin.ext ((paged yes).1.symm.trans is)
        exact gone

end

section
/-! PROOF. OPEN_CALL of two to eight stations, with or without a page (the second part of O46). -/

open Sys2Proof Sys2Proof.Machine

namespace Sys2Proof.Machine

section
variable {s t u v : State} {c : Fin 16}

/-- The call has two CONNECTED parties. -/
def Call.answered (x : Call) : Prop := 2 ≤ (x.parties.filter fun p => p.state == .connected).length

/-- How an examined call that goes on turns, before a page's launch. -/
structure Turns (s t : State) (c : Fin 16) : Prop where
  parties : (t.calls.get c).parties = (s.calls.get c).parties
  priority : (t.calls.get c).priority = (s.calls.get c).priority
  record : (t.calls.get c).record = (s.calls.get c).record
  state : ((s.calls.get c).answered → (t.calls.get c).state = .active) ∧
    (¬(s.calls.get c).answered → (t.calls.get c).state = .ringing)
  pageless : (s.calls.get c).page = none → (t.calls.get c).page = none
  reserved : ¬(s.calls.get c).answered → (t.calls.get c).page = (s.calls.get c).page ∧ t.programs = s.programs
  runs : (s.calls.get c).answered → ∀ g, (s.calls.get c).page = some g → (t.calls.get c).page = some { g with state := .running }
  others : ∀ d, d ≠ c → t.calls.get d = s.calls.get d
  stations : t.stations = s.stations
  stack : ∀ o, t.stack o = s.stack o
  lists : t.lists = s.lists
  slots : ∀ q, (t.programs.get q).reservation = (s.programs.get q).reservation

/-- A ringing call whose anchor stays and that has two live parties goes on. -/
theorem State.examine_stays (rings : (s.calls.get c).state = .ringing) (fresh : (s.calls.get c).everActive = false)
    (anchored : (s.calls.get c).anchorGone = false) (live : 2 ≤ ((s.calls.get c).parties.filter Party.live).length) :
    s.examine c = if 2 ≤ ((s.calls.get c).parties.filter fun p => p.state == .connected).length then
      (s.modCall c fun call => { call with state := .active, everActive := true }).startPage c
      else s.modCall c fun call => { call with state := .ringing } := by
  unfold State.examine
  dsimp only
  rw [rings]
  dsimp only
  rw [anchored, if_neg (by simp only [Bool.false_or, decide_eq_true_eq]; omega), fresh, if_neg Bool.false_ne_true]

theorem State.startPage_pageless (none : (s.calls.get c).page = none) : s.startPage c = s := by
  unfold State.startPage
  dsimp only
  rw [none]
  <;> rfl

theorem State.examine_turns (rings : (s.calls.get c).state = .ringing) (fresh : (s.calls.get c).everActive = false)
    (anchored : (s.calls.get c).anchorGone = false) (live : 2 ≤ ((s.calls.get c).parties.filter Party.live).length)
    (below : s.claims.arrivals < 4294967295) (paged : ∀ g, (s.calls.get c).page = some g → g.state = .reserved) :
    ∃ v, Turns s v c ∧ Lodged v (s.examine c) := by
  rw [State.examine_stays rings fresh anchored live]
  split
  · next answered =>
    generalize turn : (s.modCall c fun call => { call with state := .active, everActive := true }) = w
    have call : w.calls.get c = { s.calls.get c with state := .active, everActive := true } := by
      rw [← turn, State.modCall_calls, Tab.get_modify_self]
    have others (d : Fin 16) (other : d ≠ c) : w.calls.get d = s.calls.get d := by
      rw [← turn, State.modCall_calls, Tab.get_modify_ne _ other]
    have page : (w.calls.get c).page = (s.calls.get c).page := by rw [call]
    unfold State.startPage
    dsimp only
    cases own : (s.calls.get c).page with
    | none =>
      rw [page, own]
      refine ⟨w, ⟨by rw [call], by rw [call], by rw [call], ⟨fun _ => by rw [call], fun no => absurd answered no⟩,
        fun _ => page.trans own, fun no => absurd answered no, ?_, others, ?_, ?_, ?_, ?_⟩, Lodged.refl w⟩
      · rw [own]; nofun
      all_goals
        rw [← turn]
        try intro _
        rfl
    | some g =>
      rw [page, own]
      dsimp only
      rw [if_neg (by simp [paged g own])]
      have below' : w.claims.arrivals < 4294967295 := by rw [← turn]; exact below
      rw [State.issueArrival_below below']
      dsimp only
      refine ⟨_, ?_, State.launch_lodged ?_⟩
      · refine ⟨?_, ?_, ?_, ⟨fun _ => ?_, fun no => absurd answered no⟩, fun none => ?_, fun no => absurd answered no,
          fun _ g' same => ?_, fun d other => ?_, ?_, ?_, ?_, fun q => ?_⟩
        · rw [State.modProgram_calls, State.modCall_calls, Tab.get_modify_self, call]
        · rw [State.modProgram_calls, State.modCall_calls, Tab.get_modify_self, call]
        · rw [State.modProgram_calls, State.modCall_calls, Tab.get_modify_self, call]
        · rw [State.modProgram_calls, State.modCall_calls, Tab.get_modify_self, call]
        · rw [own] at none
          exact nomatch none
        · rw [own] at same
          rw [State.modProgram_calls, State.modCall_calls, Tab.get_modify_self, Option.some.inj same]
        · rw [State.modProgram_calls, State.modCall_calls, Tab.get_modify_ne _ other]
          exact others d other
        · rw [← turn]
          rfl
        · intro o
          rw [← turn]
          rfl
        · rw [← turn]
          rfl
        · rw [State.modProgram_programs, Tab.get_modify, ← turn]
          split <;> rfl
      · rw [State.modProgram_programs, Tab.get_modify_self]
        nofun
  · next silent =>
    have call : (s.modCall c fun call => { call with state := .ringing }).calls.get c =
        { s.calls.get c with state := .ringing } := by
      rw [State.modCall_calls, Tab.get_modify_self]
    refine ⟨s.modCall c fun call => { call with state := .ringing }, ⟨?_, ?_, ?_, ⟨fun yes => absurd yes silent, fun _ => ?_⟩, fun none => ?_, fun _ => ⟨?_, rfl⟩,
      fun yes => absurd yes silent, fun d other => ?_, rfl, fun _ => rfl, rfl, fun _ => rfl⟩, Lodged.refl _⟩
    · rw [call]
    · rw [call]
    · rw [call]
    · rw [call]
    · rw [call]
      exact none
    · rw [call]
    · rw [State.modCall_calls, Tab.get_modify_ne _ other]

/-! ### Lists of parties -/

theorem Station.joinsAs_eq (x : Station) (ring : Bool) : x.joinsAs ring =
    if x.state ≠ .idle then .busy else if ring = true ∧ x.offHook = false then .ringing else .connected := by
  by_cases idle : x.state = .idle
  · rw [if_neg (not_not_intro idle)]
    unfold Station.joinsAs
    rw [idle]
    dsimp only
    cases ring <;> cases x.offHook <;> rfl
  · rw [if_pos idle]
    exact Station.joinsAs_busy _ idle

theorem filter_length_eq {α β : Type} {xs : List α} {ys : List β} {f : α → Bool} {g : β → Bool} (same : xs.map f = ys.map g) :
    (xs.filter f).length = (ys.filter g).length := by
  have counts {γ : Type} (zs : List γ) (k : γ → Bool) : (zs.filter k).length = ((zs.map k).filter id).length := by
    rw [List.filter_map, List.length_map]
    rfl
  rw [counts xs, counts ys, same]

section
variable {xs : List (Fin 64 × RawParty)}

/-- A list of parties that joined, seen through one of their items. -/
theorem parties_map {α : Type} {ps : List Party} {f : Party → α} {g : Fin 64 × RawParty → α} (length : ps.length = xs.length)
    (party : ∀ (j : Nat) x, xs[j]? = some x → ∃ q, ps[j]? = some q ∧ q.Joins s c xs j x)
    (agree : ∀ (j : Nat) x q, xs[j]? = some x → q.Joins s c xs j x → f q = g x) : ps.map f = xs.map g := by
  refine List.ext_getElem? fun j => ?_
  rw [List.getElem?_map, List.getElem?_map]
  cases at_ : xs[j]? with
  | none =>
    rw [List.getElem?_eq_none (by rw [length]; exact List.getElem?_eq_none_iff.mp at_)]
    rfl
  | some x =>
    obtain ⟨q, found, joins⟩ := party j x at_
    rw [found, Option.map_some, Option.map_some, agree j x q at_ joins]

/-- A station named once joins by its own state. -/
theorem joining_once (once : (xs.map (·.1)).Nodup) {j : Nat} {x : Fin 64 × RawParty} (at_ : xs[j]? = some x) :
    x.1 ∉ (xs.take j).map (·.1) ∧ s.joining xs j x = (s.stations.get x.1).joinsAs x.2.ring := by
  have first : x.1 ∉ (xs.take j).map (·.1) := fun again => by
    rw [List.map_take] at again
    obtain ⟨inside, own⟩ := List.getElem?_eq_some_iff.mp at_
    refine List.disjoint_take_drop once (m := j) (n := j) le_rfl again ?_
    rw [← List.map_drop, List.drop_eq_getElem_cons inside, own]
    exact List.mem_cons_self ..
  exact ⟨first, if_neg first⟩

end

/-! ### The call once its parties have joined -/

/-- What an OPEN_CALL that does not clear leaves. -/
structure Dialled (s t : State) (c : Fin 16) (h : Hand) (page : Option Page) (xs : List (Fin 64 × RawParty)) (active : Prop) :
    Prop where
  stage : (t.walker .call).stage = .takenWrite h (openMark h)
  others : ∀ d, d ≠ c → (t.calls.get d).state = (s.calls.get d).state
  state : (active → (t.calls.get c).state = .active) ∧ (¬active → (t.calls.get c).state = .ringing)
  priority : (t.calls.get c).priority = max 6 (min 9 (openRec h.bytes).priority)
  record : (t.calls.get c).record = some (h.ref (openMark h))
  length : (t.calls.get c).parties.length = xs.length
  party : ∀ (j : Nat) x, xs[j]? = some x → ∃ q, (t.calls.get c).parties[j]? = some q ∧ q.Joins (s.opening c h page) c xs j x
  seated : s.Seated c xs.length t
  fresh : ∀ n, n ∉ xs.map (·.1) → t.stations.get n = s.stations.get n
  enters : ∀ x ∈ xs, t.stations.get x.1 = (s.stations.get x.1).enters c ((s.stations.get x.1).joinsAs x.2.ring)
  pageless : page = none → (t.calls.get c).page = none
  slot : ∀ g, page = some g → (t.programs.get g.slot).reservation = some c
  waits : ¬active → ∀ g, page = some g → (t.calls.get c).page = some g
  runs : active → ∀ g, page = some g → ∃ st, (t.calls.get c).page = some { g with state := st } ∧
    (st = .running ∨ (st = .ended ∧ (t.programs.get g.slot).state = .free))

theorem Enrolled.dialled {h : Hand} {page : Option Page} {xs : List (Fin 64 × RawParty)}
    (enrolled : Enrolled (s.opening c h page) u c xs) (seated : (s.opening c h page).Seated c xs.length u)
    (once : (xs.map (·.1)).Nodup) {x : Fin 64 × RawParty} (anchor : xs[(openRec h.bytes).anchor]? = some x)
    (present : (s.stations.get x.1).state = .idle)
    (live : 2 ≤ (xs.filter fun x => (s.stations.get x.1).state == .idle).length)
    (paged : ∀ g, page = some g → g.state = .reserved ∧ (s.programs.get g.slot).state = .free)
    (below : s.claims.arrivals < 4294967294) :
    Dialled s (u.dialled c) c h page xs
      (2 ≤ (xs.filter fun x => (s.stations.get x.1).joinsAs x.2.ring == .connected).length) := by
  have opening := s.opening_of c h page
  obtain ⟨b, is⟩ : ∃ b, s.opening c h page = b := ⟨_, rfl⟩
  rw [is] at opening enrolled seated
  have call : b.calls.get c = newCall h page s.claims.arrivals := by rw [opening.calls, Tab.get_set, if_pos rfl]
  have bare := enrolled.bare
  rw [call] at bare
  obtain ⟨state, priority, -, anchored, -, -, -, ever, record, -⟩ := Call.mk.inj bare
  have joins {j : Nat} {x : Fin 64 × RawParty} {q : Party} (at_ : xs[j]? = some x) (joins : q.Joins b c xs j x) :
      q.state = (s.stations.get x.1).joinsAs x.2.ring := by
    rw [joins.state, (joining_once once at_).2, opening.stations]
  have page_ : (u.calls.get c).page = page := by
    have own : (b.calls.get c).page = page := by rw [call]; rfl
    cases page with
    | none => exact enrolled.paged own
    | some g => exact enrolled.page g own ((opening.state _).trans (paged g rfl).2)
  have answered : (u.calls.get c).answered ↔
      2 ≤ (xs.filter fun x => (s.stations.get x.1).joinsAs x.2.ring == .connected).length := by
    unfold Call.answered
    rw [filter_length_eq (parties_map (g := fun x => (s.stations.get x.1).joinsAs x.2.ring == .connected) enrolled.length
      enrolled.party fun j x q at_ own => by rw [joins at_ own])]
  have alive : 2 ≤ ((u.calls.get c).parties.filter Party.live).length := by
    rw [filter_length_eq (parties_map (g := fun x => (s.stations.get x.1).state == .idle) enrolled.length enrolled.party
      fun j x q at_ own => ?_)]
    · exact live
    · have as_ := joins at_ own
      rw [Station.joinsAs_eq] at as_
      rw [Bool.eq_iff_iff, Party.live_eq_true, as_, beq_iff_eq]
      split
      · next other => simp [other]
      · next idle => split <;> simp [not_not.mp idle]
  have stays : (u.calls.get c).anchorGone = false := by
    obtain ⟨q, found, own⟩ := enrolled.party _ x anchor
    have as_ := joins anchor own
    rw [Station.joinsAs_eq, if_neg (not_not_intro present)] at as_
    unfold Call.anchorGone
    rw [anchored, show (newCall h page s.claims.arrivals).anchor = (openRec h.bytes).anchor from rfl, found]
    dsimp only
    rw [as_]
    split <;> rfl
  obtain ⟨tones, rung⟩ := u.rung_tones c
  obtain ⟨v, turns, lodged⟩ := State.examine_turns (s := { u with tones }) state ever stays alive
    (by rw [show ({ u with tones } : State).claims = u.claims from rfl, enrolled.arrivals, opening.arrivals]; omega)
    (fun g own => (paged g (page_.symm.trans own)).1)
  have turned : u.dialled c = ({ u with tones } : State).examine c := by
    unfold State.dialled
    rw [rung]
    refine if_neg ?_
    rw [(lodged.calls c).state]
    by_cases yes : (u.calls.get c).answered
    · rw [turns.state.1 yes]
      decide
    · rw [turns.state.2 yes]
      decide
  rw [turned]
  generalize ({ u with tones } : State).examine c = t at lodged
  obtain ⟨parties, vpriority, vrecord, ⟨vactive, vringing⟩, pageless, reserved, runs, others, stations, stack, lists, slots⟩ := turns
  obtain ⟨-, tpriority, -, -, -, -, -, -, trecord, -⟩ := Call.mk.inj (lodged.calls c).bare
  rw [← answered]
  refine ⟨?_, fun d other => ?_, ⟨fun yes => ?_, fun no => ?_⟩, ?_, ?_, ?_, fun j x at_ => ?_, ?_, fun n out => ?_,
    fun x mem => ?_, fun none => ?_, fun g own => ?_, fun no g own => ?_, fun yes g own => ?_⟩
  · have same : (v.walker .call).stage = (u.walker .call).stage := by
      unfold State.walker
      rw [lists]
    exact (lodged.stage.trans same).trans (enrolled.stage.trans opening.stage)
  · have before := (enrolled.others d other).state
    rw [opening.calls, Tab.get_set, if_neg other] at before
    rw [(lodged.calls d).state, others d other]
    exact before
  · rw [(lodged.calls c).state]
    exact vactive yes
  · rw [(lodged.calls c).state]
    exact vringing no
  · exact (tpriority.trans vpriority).trans priority
  · exact (trecord.trans vrecord).trans record
  · rw [(lodged.calls c).length, parties]
    exact enrolled.length
  · obtain ⟨q, found, own⟩ := enrolled.party j x at_
    obtain ⟨q', found', loses⟩ := (lodged.calls c).party j q (by rw [parties]; exact found)
    rw [is]
    exact ⟨q', found', own.same loses.rest⟩
  · have before : b.Seated c xs.length v := by
      intro i q o low found bound live
      rw [parties] at found
      unfold State.Seated at seated
      rw [stack]
      exact seated i q o low found bound live
    have after := before.lodged lodged
    intro i q o low found bound live
    exact after i q o low found (by rw [opening.stations]; exact bound) live
  · rw [lodged.stations, stations, ← opening.stations]
    exact enrolled.fresh n out
  · obtain ⟨j, inside, own⟩ := List.mem_iff_getElem.mp mem
    have at_ : xs[j]? = some x := List.getElem?_eq_some_iff.mpr ⟨inside, own⟩
    rw [lodged.stations, stations, ← opening.stations]
    exact enrolled.enters j x at_ (joining_once (s := s) once at_).1
  · refine (lodged.calls c).paged (pageless ?_)
    rw [page_, none]
  · rw [lodged.slots, slots, enrolled.slots]
    exact opening.reserved g own
  · obtain ⟨same, programs⟩ := reserved no
    refine lodged.pages c g (by rw [same, page_, own]) ?_
    rw [programs]
    exact enrolled.free _ ((opening.state _).trans (paged g own).2)
  · obtain ⟨st, now, ends⟩ := lodged.paged c _ (runs yes g (by rw [page_, own]))
    exact ⟨st, now, ends⟩

end

end Sys2Proof.Machine

/-- The second part of O46. -/
theorem call_opened (s : State) (h : Hand) (blocks : List (List Byte)) (c : Fin 16) (ns : List (Fin 64)) (slot : Fin 64) :
    let r := openRec h.bytes
    let raw := rawParties (blocks.getLastD []) r.count
    let timeout := max 1 (min 120 r.ringTimeout)
    let mark : Bool := decide (r.priority < 6 ∨ 9 < r.priority ∨ r.ringTimeout < 1 ∨ 120 < r.ringTimeout)
    let joins (x : RawParty × Fin 64) : PartyState :=
      if (s.stations.get x.2).state ≠ .idle then .busy
      else if x.1.ring = true ∧ (s.stations.get x.2).offHook = false then .ringing
      else .connected
    let parties := raw.zip ns
    let page : Page :=
      { slot, targets := outletSet (blocks.headD []), policy := r.pagePolicy, gain := r.pageGain, state := .reserved }
    let active : Prop := 2 ≤ (parties.filter fun x => joins x == .connected).length
    (s.walker .call).stage = .handOver h blocks → h.kind = 0x20 → r.call = c.val → 2 ≤ r.count → r.count ≤ 8 →
    r.anchor < r.count → raw.map (·.station) = ns.map (·.val) → ns.Nodup → (∀ n ∈ ns, (s.stations.get n).binding ≠ none) →
    (∀ x, raw[r.anchor]? = some x → x.ring = false) → (∀ n, ns[r.anchor]? = some n → (s.stations.get n).state = .idle) →
    2 ≤ (ns.filter fun n => (s.stations.get n).state == .idle).length → (s.calls.get c).state = .free →
    (r.page = true → r.pageSlot = slot.val ∧ slot.val < 59 ∧ (s.programs.get slot).state = .free ∧
      (s.programs.get slot).reservation = none) → s.claims.arrivals < 4294967294 →
      ∃ t, exec .openCall s = .next t ∧ Untouched s t ∧ (t.walker .call).stage = .takenWrite h mark ∧
        (∀ d, d ≠ c → (t.calls.get d).state = (s.calls.get d).state) ∧
        (t.calls.get c).state = (if active then .active else .ringing) ∧
        (t.calls.get c).priority = max 6 (min 9 r.priority) ∧ (t.calls.get c).record = some (h.ref mark) ∧
        (t.calls.get c).parties.map (·.station) = ns ∧ (t.calls.get c).parties.map (·.state) = parties.map joins ∧
        (t.calls.get c).parties.map (·.talk) = raw.map (·.talk) ∧
        (t.calls.get c).parties.map (·.listen) = raw.map (·.listen) ∧
        (t.calls.get c).parties.map (·.ringTimer) =
          parties.map (fun x => if joins x = .ringing then some (1000 * timeout) else none) ∧
        (∀ (i : Fin 8) (q : Party) (b : Fin 256 × Fin 256), (t.calls.get c).parties[i.val]? = some q →
          (s.stations.get q.station).binding = some b → q.state ≠ .busy →
            (q.claim = some b.2 ∧ hasOwner (.party c i) (t.stack b.2) = true) ∨ (q.claim = none ∧ q.outletLost = true)) ∧
        (∀ x ∈ parties, t.stations.get x.2 =
          if joins x = .busy then s.stations.get x.2
          else { s.stations.get x.2 with state := if joins x = .ringing then .ringing else .inCall, call := some c }) ∧
        (∀ n ∉ ns, t.stations.get n = s.stations.get n) ∧
        (r.page = false → (t.calls.get c).page = none) ∧
        (r.page = true → (t.programs.get slot).reservation = some c ∧
          (¬ active → (t.calls.get c).page = some page) ∧
          (active → ∃ g, (t.calls.get c).page = some g ∧ g.slot = slot ∧ g.targets = page.targets ∧
            (g.state = .running ∨ (g.state = .ended ∧ (t.programs.get slot).state = .free)))) := by
  intro r raw timeout mark joins parties page active inHand kind number few many inside stations once bound silent present
    live free paged below
  have ran : exec .openCall s = .next (s.openRecord h blocks).arbitrate :=
    congrArg Host.Outcome.next (State.handOver_of (fun h bs s => s.openRecord h bs) inHand kind)
  have count : raw.length = r.count := openParties_length
  have same : ns.length = raw.length := by
    have lengths := congrArg List.length stations
    rw [List.length_map, List.length_map] at lengths
    exact lengths.symm
  have good : ¬s.openBad h blocks := by
    have small : (openRec h.bytes).call < 16 := number.trans_lt c.isLt
    have low : 2 ≤ (openRec h.bytes).count := few
    have high : (openRec h.bytes).count ≤ 8 := many
    have anchored : (openRec h.bytes).anchor < (openRec h.bytes).count := inside
    rintro (beyond | short | long | anchor | ⟨x, mem, wrong⟩ | ⟨x, at_, ring⟩)
    · omega
    · omega
    · omega
    · omega
    · obtain ⟨n, mem', own⟩ := List.mem_map.mp (stations ▸ List.mem_map_of_mem (f := RawParty.station) mem)
      rcases wrong with beyond | ⟨m, own', unbound⟩
      · exact absurd (own.symm ▸ n.isLt) (Nat.not_lt.mpr beyond)
      · obtain rfl : n = m := Fin.ext (own.trans own')
        exact bound n mem' unbound
    · rw [silent x at_] at ring
      exact nomatch ring
  have opens := State.openRecord_opens number good stations bound free paged
  have asks (g : Page) : r.pageOf blocks slot = some g ↔ r.page = true ∧ g = page := by
    unfold OpenRec.pageOf
    split
    · next yes => exact ⟨fun e => ⟨yes, (Option.some.inj e).symm⟩, fun ⟨_, e⟩ => congrArg some e.symm⟩
    · next no => exact ⟨nofun, fun ⟨yes, _⟩ => absurd yes no⟩
  have firsts : (ns.zip raw).map (·.1) = ns := List.map_fst_zip same.le
  have seconds : (ns.zip raw).map (·.2) = raw := List.map_snd_zip same.ge
  have swaps {α : Type} (f : Fin 64 × RawParty → α) : (ns.zip raw).map f = parties.map fun x => f (x.2, x.1) := by
    rw [← List.zip_swap raw ns, List.map_map]
    rfl
  have joinsAs (x : RawParty × Fin 64) : (s.stations.get x.2).joinsAs x.1.ring = joins x := Station.joinsAs_eq _ _
  obtain ⟨enrolled, seated⟩ := Enrolled.all (s := s.opening c h (r.pageOf blocks slot)) (c := c) (xs := ns.zip raw)
    (by rw [(s.opening_of c h _).calls, Tab.get_set, if_pos rfl]; rfl) (by rw [List.length_zip]; omega)
    (fun y mem => by rw [(s.opening_of c h _).stations]; exact bound _ (List.of_mem_zip mem).1) s.claims.arrivals
  obtain ⟨n, at_⟩ : ∃ n, ns[r.anchor]? = some n := ⟨_, List.getElem?_eq_getElem (by omega)⟩
  obtain ⟨x, at'⟩ : ∃ x, raw[r.anchor]? = some x := ⟨_, List.getElem?_eq_getElem (by omega)⟩
  have dialled := enrolled.dialled seated (by rw [firsts]; exact once) (x := (n, x)) (List.getElem?_zip_eq_some.mpr ⟨at_, at'⟩)
    (present n at_) (by
      rw [filter_length_eq (ys := ns) (g := fun n => (s.stations.get n).state == .idle) ?_]
      · exact live
      · have one := congrArg (List.map fun n => (s.stations.get n).state == .idle) firsts
        rw [List.map_map] at one
        exact one)
    (fun g is => ⟨by rw [((asks g).mp is).2], by
      obtain ⟨yes, rfl⟩ := (asks g).mp is
      exact (paged yes).2.2.1⟩) below
  have calls : (2 ≤ ((ns.zip raw).filter fun x => (s.stations.get x.1).joinsAs x.2.ring == .connected).length) ↔ active := by
    rw [filter_length_eq (ys := parties) (g := fun x => joins x == .connected) ?_]
    rw [swaps]
    exact List.map_congr_left fun x _ => by dsimp only; rw [joinsAs]
  rw [State.openCall_eq (by omega)] at opens
  have untouched := (State.openRecord_acts (Acts.refl s) h blocks).toUntouched.trans (State.arbitrate_untouched _)
  rw [opens] at ran untouched
  have state {j : Nat} {x : Fin 64 × RawParty} {q : Party} (at_ : (ns.zip raw)[j]? = some x)
      (own : q.Joins (s.opening c h (r.pageOf blocks slot)) c (ns.zip raw) j x) :
      q.state = (s.stations.get x.1).joinsAs x.2.ring := by
    rw [own.state, (joining_once (by rw [firsts]; exact once) at_).2, (s.opening_of c h _).stations]
  have timers : ((s.opening c h (r.pageOf blocks slot)).calls.get c).ringTimeout = timeout := by
    rw [(s.opening_of c h _).calls, Tab.get_set, if_pos rfl]
    rfl
  refine ⟨_, ran, untouched, ?_⟩
  have final := State.arbitrate_calls (((s.opening c h (r.pageOf blocks slot)).forAll (ns.zip raw) fun x t =>
    t.joinParty c x.1 x.2.ring x.2.talk x.2.listen s.claims.arrivals).dialled c)
  rw [show openParties h blocks = raw from rfl]
  generalize (((s.opening c h (r.pageOf blocks slot)).forAll (ns.zip raw) fun x t =>
    t.joinParty c x.1 x.2.ring x.2.talk x.2.listen s.claims.arrivals).dialled c) = t at dialled final
  have stack (o : Fin 256) : t.arbitrate.stack o = t.stack o := by
    unfold State.stack
    rw [State.arbitrate_claims]
  rw [final, State.arbitrate_stations, State.arbitrate_programs]
  refine ⟨?_, dialled.others, ?_, dialled.priority, dialled.record, ?_, ?_, ?_, ?_, ?_, fun i q b found own live => ?_,
    fun x mem => ?_, fun m out => ?_, fun no => dialled.pageless ?_, fun yes => ⟨dialled.slot page ((asks page).mpr ⟨yes, rfl⟩),
    fun idle => dialled.waits (fun on => idle (calls.mp on)) page ((asks page).mpr ⟨yes, rfl⟩), fun on => ?_⟩⟩
  · unfold State.walker
    rw [State.arbitrate_walkers]
    exact dialled.stage
  · split
    · next on => exact dialled.state.1 (calls.mpr on)
    · next off => exact dialled.state.2 fun on => off (calls.mp on)
  · exact (parties_map dialled.length dialled.party fun _ _ _ _ own => own.station).trans firsts
  · rw [parties_map dialled.length dialled.party fun _ _ _ at_ own => state at_ own, swaps]
    exact List.map_congr_left fun x _ => joinsAs x
  · have two := congrArg (List.map RawParty.talk) seconds
    rw [List.map_map] at two
    exact (parties_map dialled.length dialled.party fun _ _ _ _ own => own.talk).trans two
  · have two := congrArg (List.map RawParty.listen) seconds
    rw [List.map_map] at two
    exact (parties_map dialled.length dialled.party fun _ _ _ _ own => own.listen).trans two
  · rw [parties_map (g := fun x => if (s.stations.get x.1).joinsAs x.2.ring = .ringing then some (1000 * timeout) else none)
      dialled.length dialled.party fun _ _ _ at_ own => by rw [own.timer, state at_ own, timers], swaps]
    exact List.map_congr_left fun x _ => by dsimp only; rw [joinsAs]
  · rw [stack]
    refine dialled.seated i q b ?_ found own live
    rw [← dialled.length]
    exact (List.getElem?_eq_some_iff.mp found).1
  · have mem' : (x.2, x.1) ∈ ns.zip raw := by
      rw [← List.zip_swap raw ns]
      exact List.mem_map.mpr ⟨x, mem, rfl⟩
    rw [← joinsAs]
    exact dialled.enters _ mem'
  · exact dialled.fresh m (by rw [firsts]; exact out)
  · unfold OpenRec.pageOf
    exact if_neg (by rw [no]; exact Bool.false_ne_true)
  · obtain ⟨st, now, ends⟩ := dialled.runs (calls.mpr on) page ((asks page).mpr ⟨yes, rfl⟩)
    exact ⟨_, now, rfl, rfl, ends⟩

end

section
/-! PROOF. OPEN_CALL of two stations without a page (the first part of O46), and O46. -/

open Sys2Proof Sys2Proof.Machine

namespace Sys2Proof.Machine

section
variable {s t : State} {c : Fin 16} {i : Fin 8} {n : Fin 64} {j o : Fin 256} {ring : Bool} {talk listen arrival : Nat}

/-- A party's claim alone in a stack. -/
theorem State.restack_party {x : Claim} (empty : s.stack o = []) (own : x.owner = .party c i) :
    s.restack o [x] = (s.setStack o (nameStack (s.lockFloor o) [x])).evalLine o := by
  have old : s.holder o = none := by
    unfold State.holder
    rw [empty]
    rfl
  have holder : s.newHolder o [x] = none ∨ ∃ y, s.newHolder o [x] = some y ∧ y.owner = .party c i := by
    unfold State.newHolder holderIn nameStack
    split
    · exact .inr ⟨_, rfl, own⟩
    · exact .inl rfl
  by_cases same : (s.holder o).map (·.owner) = (s.newHolder o [x]).map (·.owner)
  · exact State.restack_same same
  · rw [old] at same
    rcases holder with none | ⟨⟨_, _, _, _, _, _⟩, new, owner⟩
    · rw [none] at same
      exact absurd rfl same
    · dsimp only at owner
      subst owner
      unfold State.restack
      dsimp only
      rw [old, show holderIn (nameStack (s.lockFloor o) [x]) = _ from new]
      rfl

/-- A party that joins with its claim alone in a stack. -/
structure Sits (s t : State) (c : Fin 16) (i : Fin 8) (o : Fin 256) (p : Party) : Prop where
  calls : t.calls = s.calls.modify c fun x => { x with parties := x.parties ++ [{ p with claim := some o }] }
  stations : t.stations = s.stations.modify p.station fun x => x.enters c p.state
  stack : ∀ y, t.stack y = if y = o then nameStack (s.lockFloor o) [partyClaim c i (s.calls.get c).priority p.arrival]
    else s.stack y
  floors : t.claims.floors = s.claims.floors
  arrivals : t.claims.arrivals = s.claims.arrivals
  outlets : t.outlets = s.outlets
  tones : t.tones = s.tones
  lists : t.lists = s.lists

theorem State.joinParty_sits (room : (s.calls.get c).parties.length = i.val) (idle : (s.stations.get n).state = .idle)
    (bound : (s.stations.get n).binding = some (j, o)) (station : (s.outlets.get o).kind = .station) (empty : s.stack o = []) :
    Sits s (s.joinParty c n ring talk listen arrival) c i o (s.joiner c n ring talk listen arrival) := by
  have joined := s.joinParty_of (n := n) (ring := ring) (talk := talk) (listen := listen) (arrival := arrival) room
  dsimp only at joined
  rw [if_pos idle] at joined
  have own : (s.joiner c n ring talk listen arrival).station = n := rfl
  have number : (s.joiner c n ring talk listen arrival).arrival = arrival := rfl
  generalize s.joiner c n ring talk listen arrival = p at joined own number
  have call : (s.enrolled c p).calls = s.calls.modify c fun x => { x with parties := x.parties ++ [p] } := rfl
  have stations : (s.enrolled c p).stations = s.stations.modify p.station fun x => x.enters c p.state := rfl
  have binding : ((s.enrolled c p).stations.get n).binding = some (j, o) := by
    rw [stations, own, Tab.get_modify_self]
    unfold Station.enters
    split <;> exact bound
  have priority : ((s.enrolled c p).calls.get c).priority = (s.calls.get c).priority := by rw [call, Tab.get_modify_self]
  have placed := State.placeParty_room (s := s.enrolled c p) (c := c) (i := i) (arrival := arrival) binding
    (show (s.outlets.get o).kind.takesClaims = true by rw [station]; rfl)
    (show hasOwner (.party c i) (s.stack o) = false by rw [empty]; rfl) (show (s.stack o).length < 8 by rw [empty]; decide)
  have bare : (s.enrolled c p).stack o = [] := empty
  rw [bare, priority] at placed
  dsimp only at placed
  have alone := State.restack_party (s := s.enrolled c p) (o := o) (x := partyClaim c i (s.calls.get c).priority arrival) bare rfl
  rw [show insertClaim (partyClaim c i (s.calls.get c).priority arrival) [] = [_] from rfl, alone] at placed
  rw [joined, placed]
  refine ⟨?_, ?_, fun y => ?_, rfl, rfl, rfl, rfl, rfl⟩
  · refine Eq.trans (b := (s.enrolled c p).calls.modify c fun call =>
      { call with parties := call.parties.modify i.val fun p => { p with claim := some o } }) rfl ?_
    rw [call, Tab.modify_modify]
    have last : ((s.calls.get c).parties ++ [p])[i.val]? = some p := by
      rw [← room, List.getElem?_append_right le_rfl, Nat.sub_self]
      rfl
    have more : ((s.calls.get c).parties ++ [p]).modify i.val (fun p => { p with claim := some o }) =
        (s.calls.get c).parties ++ [{ p with claim := some o }] := by
      rw [List.modify_of_getElem? last, ← room]
      simp
    refine Tab.modify_congr _ _ ?_
    simp only [Function.comp_apply, more]
  · exact stations
  · rw [number]
    exact State.setStack_stack (s.enrolled c p) o _ y

/-- The ring is asked for where no voice rings. -/
theorem State.askRing_gives {v : Fin 8} (none : s.voiceOf .ring = none) (defined : s.patternDefined 11 = true)
    (free : s.freeVoice = some v) :
    (s.askRing.tones.voices.get v).user = .ring ∧ (s.askRing.tones.voices.get v).pattern = 11 := by
  unfold State.askRing
  rw [none, defined, if_neg (by decide), free]
  dsimp only
  unfold State.giveVoice
  rw [State.modVoice_tones]
  dsimp only
  rw [Tab.get_modify_self]
  exact ⟨rfl, rfl⟩

/-- A call of two live parties without a page is examined: it is ACTIVE where the second is CONNECTED, or RINGING. -/
theorem State.dialled_pair {a b : Party} {x : Call} (call : s.calls.get c = { x with parties := [a, b] })
    (rings : x.state = .ringing) (fresh : x.everActive = false) (pageless : x.page = none) (anchor : x.anchor = 0)
    (first : a.state = .connected) (second : b.state = .connected ∨ b.state = .ringing) :
    ∃ st ever, s.dialled c = (s.rung c).modCall c (fun call => { call with state := st, everActive := ever }) ∧
      (b.state = .connected → st = .active) ∧ (b.state = .ringing → st = .ringing) := by
  obtain ⟨tones, rung⟩ := s.rung_tones c
  have same : (s.rung c).calls.get c = { x with parties := [a, b] } := by
    rw [rung]
    exact call
  have anchored : ((s.rung c).calls.get c).anchorGone = false := by
    rw [same]
    unfold Call.anchorGone
    dsimp only
    rw [anchor, show [a, b][0]? = some a from rfl]
    dsimp only
    rw [first]
    rfl
  have live : 2 ≤ (((s.rung c).calls.get c).parties.filter Party.live).length := by
    rw [same]
    have one : a.live = true := (Party.live_eq_true a).mpr (.inr first)
    have two : b.live = true := (Party.live_eq_true b).mpr second.symm
    simp [one, two]
  have examined := State.examine_stays (s := s.rung c) (c := c) (by rw [same]; exact rings) (by rw [same]; exact fresh) anchored live
  have turned (st : CallState) (ever : Bool) (live : st ≠ .clearing)
      (is : (s.rung c).examine c = (s.rung c).modCall c fun call => { call with state := st, everActive := ever }) :
      s.dialled c = (s.rung c).modCall c fun call => { call with state := st, everActive := ever } := by
    unfold State.dialled
    rw [is, State.modCall_calls, Tab.get_modify_self]
    exact if_neg fun clearing => live (beq_iff_eq.mp clearing)
  rw [same] at examined
  dsimp only at examined
  rcases second with connected | ringing
  · rw [if_pos (by simp [first, connected]), State.startPage_pageless] at examined
    · exact ⟨.active, true, turned _ _ nofun examined, fun _ => rfl, fun e => (nomatch connected.symm.trans e)⟩
    · rw [State.modCall_calls, Tab.get_modify_self, same]
      exact pageless
  · rw [if_neg (by simp [first, ringing])] at examined
    refine ⟨.ringing, false, turned _ _ nofun (examined.trans ((s.rung c).modCall_congr c ?_)),
      fun e => ?_, fun _ => rfl⟩
    · rw [same, fresh]
    · exact nomatch ringing.symm.trans e

end

end Sys2Proof.Machine

/-- The first part of O46. -/
theorem pair_opened (s : State) (h : Hand) (block : List Byte) (c : Fin 16) (n m : Fin 64) (i j o q : Fin 256) :
    let r := openRec h.bytes
    let ps := rawParties block 2
    let priority := max 6 (min 9 r.priority)
    let timeout := max 1 (min 120 r.ringTimeout)
    let mark : Bool := decide (priority ≠ r.priority ∨ timeout ≠ r.ringTimeout)
    let seat (x : Fin 8) (y : Fin 256) : List Claim := nameStack (s.lockFloor y)
      [{ owner := .party c x, priority, arrival := s.claims.arrivals, duckable := false, allowsUndertone := true
         state := .waiting }]
    (s.walker .call).stage = .handOver h [block] → h.kind = 0x20 → r.call = c.val → r.count = 2 → r.anchor = 0 →
    r.page = false → (∀ a b, ps = [a, b] → a.station = n.val ∧ b.station = m.val ∧ a.ring = false) → n ≠ m → o ≠ q →
    (s.stations.get n).binding = some (i, o) → (s.stations.get m).binding = some (j, q) →
    (s.stations.get n).state = .idle → (s.stations.get m).state = .idle → (s.calls.get c).state = .free →
    (s.outlets.get o).kind = .station → (s.outlets.get q).kind = .station → s.stack o = [] → s.stack q = [] →
    s.claims.arrivals < 4294967295 →
      ∃ t a b, ps = [a, b] ∧ exec .openCall s = .next t ∧ Untouched s t ∧
        (t.walker .call).stage = .takenWrite h mark ∧ t.claims.arrivals = s.claims.arrivals + 1 ∧
        t.stack o = seat 0 o ∧ t.stack q = seat 1 q ∧ (∀ x, x ≠ o → x ≠ q → t.stack x = s.stack x) ∧
        (∀ d, d ≠ c → t.calls.get d = s.calls.get d) ∧
        (t.calls.get c).priority = priority ∧ (t.calls.get c).record = some (h.ref mark) ∧
        (t.calls.get c).parties.map (·.station) = [n, m] ∧ (t.calls.get c).parties.map (·.claim) = [some o, some q] ∧
        (t.calls.get c).parties.map (·.talk) = [a.talk, b.talk] ∧
        (t.calls.get c).parties.map (·.listen) = [a.listen, b.listen] ∧
        (t.stations.get n).state = .inCall ∧ (t.stations.get n).call = some c ∧ (t.stations.get m).call = some c ∧
        (∀ x, x ≠ n → x ≠ m → t.stations.get x = s.stations.get x) ∧
        (b.ring = false ∨ (s.stations.get m).offHook = true → (t.calls.get c).state = .active ∧
          (t.calls.get c).parties.map (·.state) = [.connected, .connected] ∧ (t.stations.get m).state = .inCall) ∧
        (b.ring = true → (s.stations.get m).offHook = false → (t.calls.get c).state = .ringing ∧
          (t.calls.get c).parties.map (·.state) = [.connected, .ringing] ∧
          (t.calls.get c).parties.map (·.ringTimer) = [none, some (1000 * timeout)] ∧
          (t.stations.get m).state = .ringing ∧
          ∀ v, s.voiceOf .ring = none → s.patternDefined 11 = true → s.freeVoice = some v →
            (t.tones.voices.get v).user = .ring ∧ (t.tones.voices.get v).pattern = 11) := by
  intro r ps priority timeout mark seat inHand kind number two first pageless pair apart split boundN boundM idleN idleM free
    stationO stationQ emptyO emptyQ below
  obtain ⟨a, b, both⟩ : ∃ a b, ps = [a, b] := ⟨_, _, rfl⟩
  obtain ⟨ownA, ownB, silent⟩ := pair a b both
  have ran : exec .openCall s = .next (s.openRecord h [block]).arbitrate :=
    congrArg Host.Outcome.next (State.handOver_of (fun h bs s => s.openRecord h bs) inHand kind)
  have raw : openParties h [block] = [a, b] := by
    rw [← both]
    exact congrArg (rawParties block) two
  have sameMark : openMark h = mark := decide_eq_decide.mpr (by
    change _ ↔ (max 6 (min 9 (openRec h.bytes).priority) ≠ (openRec h.bytes).priority ∨
      max 1 (min 120 (openRec h.bytes).ringTimeout) ≠ (openRec h.bytes).ringTimeout)
    omega)
  have good : ¬s.openBad h [block] := by
    have small : (openRec h.bytes).call < 16 := number.trans_lt c.isLt
    have count : (openRec h.bytes).count = 2 := two
    have anchored : (openRec h.bytes).anchor = 0 := first
    rintro (beyond | low | high | anchor | ⟨x, mem, wrong⟩ | ⟨x, at_, ring⟩)
    · omega
    · omega
    · omega
    · omega
    · rw [raw] at mem
      have stands (k : Fin 64) (own : x.station = k.val) (bound : (s.stations.get k).binding ≠ none) : False := by
        rcases wrong with beyond | ⟨k', own', unbound⟩
        · exact absurd (own ▸ k.isLt) (Nat.not_lt.mpr beyond)
        · obtain rfl : k = k' := Fin.ext (own.symm.trans own')
          exact bound unbound
      rcases List.mem_cons.mp mem with rfl | mem
      · exact stands n ownA (by rw [boundN]; nofun)
      · obtain rfl := List.mem_singleton.mp mem
        exact stands m ownB (by rw [boundM]; nofun)
    · rw [raw, anchored] at at_
      obtain rfl : a = x := Option.some.inj at_
      rw [silent] at ring
      exact nomatch ring
  have opens := State.openRecord_opens (p := 0) number good (ns := [n, m]) (by rw [raw]; simp [ownA, ownB])
    (fun k mem => by
      rcases List.mem_cons.mp mem with rfl | mem
      · rw [boundN]; nofun
      · obtain rfl := List.mem_singleton.mp mem
        rw [boundM]; nofun) free (fun page => absurd page (by rw [show (openRec h.bytes).page = false from pageless]; decide))
  rw [show (openRec h.bytes).pageOf [block] 0 = none from if_neg (by rw [show (openRec h.bytes).page = false from pageless]; decide),
    raw, State.openCall_eq below] at opens
  have opening := s.opening_of c h none
  have untouched := (State.openRecord_acts (Acts.refl s) h [block]).toUntouched.trans (State.arbitrate_untouched _)
  rw [opens] at ran untouched
  generalize s.opening c h none = B at opening ran untouched
  have callB : B.calls.get c = newCall h none s.claims.arrivals := by rw [opening.calls, Tab.get_set, if_pos rfl]
  have stackB (y : Fin 256) : B.stack y = s.stack y := by
    unfold State.stack
    rw [opening.stack]
  have floorB (y : Fin 256) : B.lockFloor y = s.lockFloor y := by
    unfold State.lockFloor
    rw [opening.floors, opening.acts.outlets]
  have roomA : (B.calls.get c).parties.length = (0 : Fin 8).val := by rw [callB]; rfl
  have sitsA := B.joinParty_sits (ring := a.ring) (talk := a.talk) (listen := a.listen) (arrival := s.claims.arrivals) roomA
    (n := n) (by rw [opening.stations]; exact idleN) (by rw [opening.stations]; exact boundN)
    (by rw [opening.acts.outlets]; exact stationO) ((stackB o).trans emptyO)
  have stateA : (B.stations.get n).joinsAs a.ring = .connected := by
    rw [opening.stations]
    exact Station.joinsAs_idle idleN (.inl silent)
  have partyA : B.joiner c n a.ring a.talk a.listen s.claims.arrivals =
      newParty n a.ring a.talk a.listen s.claims.arrivals .connected none := by
    unfold State.joiner
    rw [stateA]
    rfl
  rw [partyA] at sitsA
  have loop : State.forAll ([n, m].zip [a, b])
      (fun x t => t.joinParty c x.1 x.2.ring x.2.talk x.2.listen s.claims.arrivals) B =
      (B.joinParty c n a.ring a.talk a.listen s.claims.arrivals).joinParty c m b.ring b.talk b.listen s.claims.arrivals := rfl
  rw [loop] at ran untouched
  generalize B.joinParty c n a.ring a.talk a.listen s.claims.arrivals = U at sitsA ran untouched
  have callU : U.calls.get c = { newCall h none s.claims.arrivals with
      parties := [{ newParty n a.ring a.talk a.listen s.claims.arrivals .connected none with claim := some o }] } := by
    rw [sitsA.calls, Tab.get_modify_self, callB]
    rfl
  have stationU : U.stations.get m = s.stations.get m := by
    rw [sitsA.stations]
    exact (Tab.get_modify_ne B.stations (Ne.symm apart) _).trans (by rw [opening.stations])
  have sitsB := U.joinParty_sits (ring := b.ring) (talk := b.talk) (listen := b.listen) (arrival := s.claims.arrivals)
    (c := c) (i := 1) (by rw [callU]; rfl) (n := m) (by rw [stationU]; exact idleM) (by rw [stationU]; exact boundM)
    (by rw [sitsA.outlets, opening.acts.outlets]; exact stationQ)
    (by rw [sitsA.stack, if_neg (Ne.symm split), stackB]; exact emptyQ)
  have partyB : U.joiner c m b.ring b.talk b.listen s.claims.arrivals =
      newParty m b.ring b.talk b.listen s.claims.arrivals ((s.stations.get m).joinsAs b.ring)
        (if (s.stations.get m).joinsAs b.ring = .ringing then some (1000 * timeout) else none) := by
    unfold State.joiner
    rw [stationU, callU]
    rfl
  rw [partyB] at sitsB
  generalize U.joinParty c m b.ring b.talk b.listen s.claims.arrivals = V at sitsB ran untouched
  have joinsB : (s.stations.get m).joinsAs b.ring = if b.ring = true ∧ (s.stations.get m).offHook = false then .ringing
      else .connected := by
    rw [Station.joinsAs_eq, if_neg (not_not_intro idleM)]
  have callV : V.calls.get c = { newCall h none s.claims.arrivals with
      parties := [{ newParty n a.ring a.talk a.listen s.claims.arrivals .connected none with claim := some o },
        { newParty m b.ring b.talk b.listen s.claims.arrivals ((s.stations.get m).joinsAs b.ring)
            (if (s.stations.get m).joinsAs b.ring = .ringing then some (1000 * timeout) else none) with claim := some q }] } := by
    rw [sitsB.calls, Tab.get_modify_self, callU]
    rfl
  obtain ⟨st, ever, dialled, active, ringing⟩ := V.dialled_pair callV rfl rfl rfl first rfl (by
    change (s.stations.get m).joinsAs b.ring = _ ∨ (s.stations.get m).joinsAs b.ring = _
    rw [joinsB]
    split
    · exact .inr rfl
    · exact .inl rfl)
  change (s.stations.get m).joinsAs b.ring = .connected → st = .active at active
  change (s.stations.get m).joinsAs b.ring = .ringing → st = .ringing at ringing
  rw [dialled] at ran untouched
  obtain ⟨tones, rung⟩ := V.rung_tones c
  have rings (now : (s.stations.get m).joinsAs b.ring = .ringing) : (V.rung c).tones = V.askRing.tones := by
    unfold State.rung
    rw [callV, if_pos]
    simp [newParty, now]
  rw [rung] at ran untouched rings
  dsimp only at rings
  have afterA : U.stations = s.stations.modify n fun x => x.enters c .connected := by
    rw [sitsA.stations, opening.stations]
    rfl
  have afterB : V.stations = U.stations.modify m fun x => x.enters c ((s.stations.get m).joinsAs b.ring) := sitsB.stations
  have stationM : V.stations.get m = (s.stations.get m).enters c ((s.stations.get m).joinsAs b.ring) := by
    rw [afterB, Tab.get_modify_self, stationU]
  have stationN : V.stations.get n = (s.stations.get n).enters c .connected := by
    rw [afterB, Tab.get_modify_ne _ apart, afterA, Tab.get_modify_self]
  have stack (y : Fin 256) : V.stack y = if y = q then nameStack (s.lockFloor q) [partyClaim c 1 priority s.claims.arrivals]
      else if y = o then nameStack (s.lockFloor o) [partyClaim c 0 priority s.claims.arrivals] else s.stack y := by
    have floorU : U.lockFloor q = s.lockFloor q := by
      unfold State.lockFloor
      rw [sitsA.floors, sitsA.outlets, opening.floors, opening.acts.outlets]
    rw [sitsB.stack, floorU, callU, sitsA.stack, floorB, callB, stackB]
    rfl
  have connected : (s.stations.get n).enters c .connected = { s.stations.get n with state := .inCall, call := some c } := rfl
  refine ⟨_, a, b, both, ran, untouched, ?_⟩
  rw [State.arbitrate_claims, State.arbitrate_calls, State.arbitrate_stations, State.arbitrate_tones]
  have seats (y : Fin 256) : (({ V with tones } : State).modCall c fun call =>
      { call with state := st, everActive := ever }).arbitrate.stack y = V.stack y := by
    unfold State.stack
    rw [State.arbitrate_claims]
    rfl
  simp only [seats, stack]
  rw [State.modCall_claims, State.modCall_calls, State.modCall_stations, State.modCall_tones]
  dsimp only
  rw [Tab.get_modify_self, callV, stationM, stationN]
  refine ⟨?_, ?_, ?_, ?_, fun y offO offQ => ?_, fun d other => ?_, rfl, ?_, rfl, rfl, rfl, rfl, rfl, rfl, ?_,
    fun k offN offM => ?_, fun quiet => ?_, fun ring onHook => ?_⟩
  · unfold State.walker
    rw [State.arbitrate_walkers, State.modCall_lists, ← sameMark]
    have lists : V.lists = B.lists := sitsB.lists.trans sitsA.lists
    dsimp only
    rw [lists]
    exact opening.stage
  · rw [sitsB.arrivals, sitsA.arrivals, opening.arrivals]
  · rw [if_neg split, if_pos trivial]
    rfl
  · rw [if_pos trivial]
    rfl
  · rw [if_neg offQ, if_neg offO]
  · rw [Tab.get_modify_ne _ other, sitsB.calls, Tab.get_modify_ne _ other, sitsA.calls, Tab.get_modify_ne _ other,
      opening.calls, Tab.get_set, if_neg other]
  · rw [← sameMark]
    rfl
  · unfold Station.enters
    rw [joinsB]
    split <;> rfl
  · rw [afterB, Tab.get_modify_ne _ offM, afterA, Tab.get_modify_ne _ offN]
  · have now : (s.stations.get m).joinsAs b.ring = .connected := Station.joinsAs_idle idleM quiet
    rw [now]
    exact ⟨active now, rfl, rfl⟩
  · have now : (s.stations.get m).joinsAs b.ring = .ringing := joinsB.trans (if_pos ⟨ring, onHook⟩)
    refine ⟨ringing now, ?_, ?_, ?_, fun v none defined idle => ?_⟩
    · rw [now]
      rfl
    · rw [now]
      rfl
    · rw [now]
      rfl
    · have tonesV : V.tones = s.tones := (sitsB.tones.trans sitsA.tones).trans opening.tones
      rw [rings now]
      exact State.askRing_gives (by unfold State.voiceOf; rw [tonesV]; exact none)
        (by unfold State.patternDefined; rw [tonesV]; exact defined)
        (by unfold State.freeVoice State.voiceOf; rw [tonesV]; exact idle)

/-- Settles O46: two stations exactly, and two to eight with what their claims meet. -/
theorem openCall : Obligations.OpenCall := by
  unfold Obligations.OpenCall
  exact ⟨pair_opened, call_opened⟩

end

section
/-! PROOF. What the losses of other stations leave of a station and of its party (R114, R125, R128). -/

open Sys2Proof Sys2Proof.Machine

namespace Sys2Proof.Machine

/-- The parties of every call stand, but that they may have lost claims; and so do the stations. -/
structure Loosens (s t : State) : Prop where
  stations : t.stations = s.stations
  length : ∀ d, (t.calls.get d).parties.length = (s.calls.get d).parties.length
  party : ∀ d (j : Nat) p, (s.calls.get d).parties[j]? = some p → ∃ q, (t.calls.get d).parties[j]? = some q ∧
    q.state = p.state ∧ q.station = p.station ∧ q.ringTimer = p.ringTimer ∧ (p.claim = none → q.claim = none)

theorem Loosens.refl (s : State) : Loosens s s := ⟨rfl, fun _ => rfl, fun _ _ p found => ⟨p, found, rfl, rfl, rfl, id⟩⟩

theorem Loosens.trans {a b c : State} (h : Loosens a b) (k : Loosens b c) : Loosens a c where
  stations := k.stations.trans h.stations
  length d := (k.length d).trans (h.length d)
  party d j p found := by
    obtain ⟨q, found', state, station, timer, claim⟩ := h.party d j p found
    obtain ⟨r, found'', state', station', timer', claim'⟩ := k.party d j q found'
    exact ⟨r, found'', state'.trans state, station'.trans station, timer'.trans timer, fun bare => claim' (claim bare)⟩

section
variable {s t : State} {c : Fin 16} {n : Fin 64} {x : Station} {j : Fin 8}

theorem Loosens.back (h : Loosens s t) {d : Fin 16} {i : Nat} {q : Party} (found : (t.calls.get d).parties[i]? = some q) :
    ∃ p, (s.calls.get d).parties[i]? = some p ∧ q.state = p.state ∧ q.station = p.station ∧ q.ringTimer = p.ringTimer ∧
      (p.claim = none → q.claim = none) := by
  have inside := (List.getElem?_eq_some_iff.mp found).1
  rw [h.length] at inside
  obtain ⟨q', found', same⟩ := h.party d i _ (List.getElem?_eq_getElem inside)
  obtain rfl := Option.some.inj (found.symm.trans found')
  exact ⟨_, List.getElem?_eq_getElem inside, same⟩

theorem Undialled.loosens (h : Undialled s t) : Loosens s t :=
  ⟨h.stations, fun d => by rw [(h.calls d).parties], fun d i p found =>
    ⟨p, by rw [(h.calls d).parties]; exact found, rfl, rfl, rfl, id⟩⟩

theorem Lodged.loosens (h : Lodged s t) : Loosens s t :=
  ⟨h.stations, fun d => (h.calls d).length, fun d i p found => by
    obtain ⟨q, found', loses⟩ := (h.calls d).party i p found
    refine ⟨q, found', ?_⟩
    rcases loses with rfl | rfl
    · exact ⟨rfl, rfl, rfl, id⟩
    · exact ⟨rfl, rfl, rfl, fun _ => rfl⟩⟩

theorem State.modCall_loosens (s : State) (d : Fin 16) {f : Call → Call} (same : ∀ x, (f x).parties = x.parties) :
    Loosens s (s.modCall d f) := by
  have parties (e : Fin 16) : ((s.modCall d f).calls.get e).parties = (s.calls.get e).parties := by
    rw [State.modCall_calls, Tab.get_modify]
    split
    · exact same _
    · rfl
  exact ⟨rfl, fun e => by rw [parties], fun e i p found => ⟨p, by rw [parties]; exact found, rfl, rfl, rfl, id⟩⟩

theorem State.issueArrival_loosens (s : State) : Loosens s s.issueArrival.2 := by
  have counted (t : State) : Loosens t { t with claims := { t.claims with arrivals := t.claims.arrivals + 1 } } :=
    ⟨rfl, fun _ => rfl, fun _ _ p found => ⟨p, found, rfl, rfl, rfl, id⟩⟩
  have renumbered : Loosens s s.renumber := by
    refine ⟨rfl, fun d => ?_, fun d i p found => ?_⟩ <;> unfold State.renumber <;> dsimp only <;> rw [Tab.get_map]
    · exact List.length_map _
    · dsimp only
      rw [List.getElem?_map, found]
      exact ⟨_, rfl, rfl, rfl, rfl, id⟩
  unfold State.issueArrival
  dsimp only
  split
  · exact renumbered.trans (counted _)
  · exact counted s

theorem State.startPage_loosens (s : State) (d : Fin 16) : Loosens s (s.startPage d) := by
  unfold State.startPage
  dsimp only
  split
  · split
    · exact Loosens.refl s
    · have issued := s.issueArrival_loosens
      generalize s.issueArrival = u at issued
      refine Loosens.trans ?_ (Lodged.loosens (State.launch_lodged ?_))
      · refine Loosens.trans (issued.trans ?_) (State.modProgram_undialled _ _ fun none => none).loosens
        exact u.2.modCall_loosens d fun _ => rfl
      · rw [State.modProgram_programs, Tab.get_modify_self]
        nofun
  · exact Loosens.refl s

/-- A call that is examined goes on, or clears. -/
theorem State.examine_loosens (s : State) (d : Fin 16) : Loosens s (s.examine d) ∨ s.examine d = s.enterClearing d := by
  unfold State.examine
  dsimp only
  split
  · exact .inl (Loosens.refl s)
  · exact .inl (Loosens.refl s)
  all_goals
    split
    · exact .inr rfl
    · left
      split
      · split
        · exact s.modCall_loosens d fun _ => rfl
        · refine Loosens.trans ?_ (State.startPage_loosens _ d)
          exact s.modCall_loosens d fun _ => rfl
      · exact s.modCall_loosens d fun _ => rfl

/-! ### A station without a party, and one with a party alone -/

/-- Party `j` of call `c` is a live one of station `n`. -/
def State.livesAs (s : State) (n : Fin 64) (c : Fin 16) (j : Fin 8) : Prop :=
  ∃ p, (s.calls.get c).parties[j.val]? = some p ∧ p.live = true ∧ p.station = n

/-- Party `j` of call `c` has left it. -/
def State.partyOut (c : Fin 16) (j : Fin 8) (s : State) : Prop :=
  ∀ q, (s.calls.get c).parties[j.val]? = some q → (q.state = .lost ∨ q.state = .left) ∧ q.ringTimer = none ∧ q.claim = none

/-- Station `n` stands so, and is no party. -/
def State.aloof (n : Fin 64) (x : Station) (s : State) : Prop := s.stations.get n = x ∧ ∀ d i, ¬s.livesAs n d i

/-- Station `n` stands so, and is party `j` of call `c` alone. -/
def State.sole (n : Fin 64) (x : Station) (c : Fin 16) (j : Fin 8) (s : State) : Prop :=
  s.stations.get n = x ∧ ∀ d i, s.livesAs n d i ↔ d = c ∧ i = j

theorem Party.live_congr {p q : Party} (same : q.state = p.state) : q.live = p.live := by
  unfold Party.live
  rw [same]

theorem Loosens.livesAs (h : Loosens s t) (n : Fin 64) (d : Fin 16) (i : Fin 8) : t.livesAs n d i ↔ s.livesAs n d i := by
  constructor
  · rintro ⟨q, found, live, own⟩
    obtain ⟨p, found', state, station, -, -⟩ := h.back found
    exact ⟨p, found', (Party.live_congr state) ▸ live, station ▸ own⟩
  · rintro ⟨p, found, live, own⟩
    obtain ⟨q, found', state, station, -, -⟩ := h.party d i.val p found
    exact ⟨q, found', (Party.live_congr state).trans live, station.trans own⟩

theorem Loosens.partyOut (h : Loosens s t) (out : s.partyOut c j) : t.partyOut c j := by
  intro q found
  obtain ⟨p, found', state, -, timer, claim⟩ := h.back found
  obtain ⟨left, stopped, bare⟩ := out p found'
  exact ⟨by rw [state]; exact left, timer.trans stopped, claim bare⟩

theorem Loosens.aloof (h : Loosens s t) (aloof : s.aloof n x) : t.aloof n x :=
  ⟨h.stations ▸ aloof.1, fun d i lives => aloof.2 d i ((h.livesAs n d i).mp lives)⟩

theorem Loosens.sole (h : Loosens s t) (sole : s.sole n x c j) : t.sole n x c j :=
  ⟨h.stations ▸ sole.1, fun d i => (h.livesAs n d i).trans (sole.2 d i)⟩

/-! ### A call that clears -/

theorem State.enterClearing_party (s : State) (d : Fin 16) (i : Fin 8) :
    ((s.enterClearing d).calls.get d).parties[i.val]? = ((s.calls.get d).parties[i.val]?).map fun p => p.drop.unclaimed := by
  rw [(s.enterClearing_clears d).call]
  unfold Call.clears
  dsimp only
  rw [modifyAll_get _ (allFin_nodup 8), if_pos (mem_allFin i), modifyAll_get _ (allFin_nodup 8), if_pos (mem_allFin i),
    Option.map_map]
  rfl

theorem State.enterClearing_livesAs (s : State) (n : Fin 64) (d e : Fin 16) (i : Fin 8) :
    (s.enterClearing d).livesAs n e i ↔ e ≠ d ∧ s.livesAs n e i := by
  by_cases same : e = d
  · subst same
    refine iff_of_false ?_ fun both => both.1 rfl
    rintro ⟨q, found, live, -⟩
    rw [State.enterClearing_party] at found
    obtain ⟨p, -, e⟩ := Option.map_eq_some_iff.mp found
    rw [← e, Party.live_eq_true] at live
    exact absurd live (not_or.mpr p.drop_state)
  · unfold State.livesAs
    rw [((s.enterClearing_clears d).others e same).parties]
    exact ⟨fun lives => ⟨same, lives⟩, fun both => both.2⟩

theorem State.enterClearing_idles {d : Fin 16} {i : Fin 8} {p : Party} (found : (s.calls.get d).parties[i.val]? = some p)
    (live : p.live = true) : (s.enterClearing d).stations.get p.station = (s.stations.get p.station).idled := by
  obtain ⟨-, -, idle, -⟩ := State.forAll_clearParty d (allFin_nodup 8)
    (s.modCall d fun call => { call with state := .clearing, final := call.parties.map Party.finalByte })
  have dropped := idle i (mem_allFin i) p (by rw [State.modCall_calls, Tab.get_modify_self]; exact found) live
  rw [← (State.forAll_unclaimParty d (allFin 8) _).2] at dropped
  have disbanded : (s.disbanded d).stations.get p.station = (s.stations.get p.station).idled := dropped
  rw [State.enterClearing_eq]
  generalize s.disbanded d = u at disbanded
  rw [(State.releaseRing_undialled _).stations, (u.pageStopped_undialled d).stations, disbanded]

theorem State.enterClearing_aloof (d : Fin 16) (aloof : s.aloof n x) : (s.enterClearing d).aloof n x := by
  refine ⟨((s.enterClearing_clears d).kept n fun i p found live own => ?_).trans aloof.1, fun e i lives => ?_⟩
  · exact aloof.2 d i ⟨p, found, live, own⟩
  · exact aloof.2 e i ((s.enterClearing_livesAs n d e i).mp lives).2

theorem State.enterClearing_partyOut (d : Fin 16) (out : s.partyOut c j) : (s.enterClearing d).partyOut c j := by
  by_cases same : c = d
  · subst same
    intro q found
    rw [State.enterClearing_party] at found
    obtain ⟨p, found', e⟩ := Option.map_eq_some_iff.mp found
    obtain ⟨left, stopped, bare⟩ := out p found'
    have dead : p.drop = p := if_neg (by rw [p.live_eq_true]; rcases left with e | e <;> simp [e])
    rw [← e, dead]
    exact ⟨left, stopped, rfl⟩
  · intro q found
    rw [((s.enterClearing_clears d).others c same).parties] at found
    exact out q found

/-- The clearing of a call with the station's only party, or of another. -/
theorem State.enterClearing_sole (d : Fin 16) (sole : s.sole n x c j) :
    (s.enterClearing d).sole n x c j ∨ ((s.enterClearing d).aloof n x.idled ∧ (s.enterClearing d).partyOut c j) := by
  by_cases same : c = d
  · subst same
    obtain ⟨p, found, live, own⟩ := (sole.2 c j).mpr ⟨rfl, rfl⟩
    refine .inr ⟨⟨?_, fun e i lives => ?_⟩, fun q found' => ?_⟩
    · rw [← own, State.enterClearing_idles found live, own, sole.1]
    · obtain ⟨other, lives⟩ := (s.enterClearing_livesAs n c e i).mp lives
      exact other ((sole.2 e i).mp lives).1
    · rw [State.enterClearing_party, found] at found'
      have dropped : p.drop = { p with state := .left, ringTimer := none } := if_pos live
      have gone := Option.some.inj found'
      dsimp only at gone
      rw [← gone, dropped]
      exact ⟨.inr rfl, rfl, rfl⟩
  · refine .inl ⟨((s.enterClearing_clears d).kept n fun i p found live own => ?_).trans sole.1, fun e i => ?_⟩
    · exact same ((sole.2 d i).mp ⟨p, found, live, own⟩).1.symm
    · rw [State.enterClearing_livesAs, sole.2]
      exact ⟨And.right, fun both => ⟨fun here => same (both.1.symm.trans here), both⟩⟩

theorem State.examine_aloof (d : Fin 16) (aloof : s.aloof n x) : (s.examine d).aloof n x := by
  rcases s.examine_loosens d with goes | clears
  · exact goes.aloof aloof
  · rw [clears]
    exact State.enterClearing_aloof d aloof

theorem State.examine_partyOut (d : Fin 16) (out : s.partyOut c j) : (s.examine d).partyOut c j := by
  rcases s.examine_loosens d with goes | clears
  · exact goes.partyOut out
  · rw [clears]
    exact State.enterClearing_partyOut d out

theorem State.examine_sole (d : Fin 16) (sole : s.sole n x c j) :
    (s.examine d).sole n x c j ∨ ((s.examine d).aloof n x.idled ∧ (s.examine d).partyOut c j) := by
  rcases s.examine_loosens d with goes | clears
  · exact .inl (goes.sole sole)
  · rw [clears]
    exact State.enterClearing_sole d sole

/-! ### Losses -/

/-- What a present station's loss does: it is lost, its party leaves its call, and the call is examined. -/
theorem State.stationLost_present (defined : (s.stations.get n).state ≠ .undefined) (present : (s.stations.get n).state ≠ .lost) :
    s.stationLost n = match (s.stations.get n).call with
      | some c =>
        match s.partyOf c n with
        | some i => ((((s.modStation n Station.loses).endParty c i .lost).releaseRing).examine c)
        | none => s.modStation n Station.loses
      | none => s.modStation n Station.loses := by
  have same (c : Fin 16) : (s.modStation n Station.loses).partyOf c n = s.partyOf c n := rfl
  simp only [← same]
  unfold State.stationLost
  dsimp only
  cases state : (s.stations.get n).state with
  | undefined => exact absurd state defined
  | lost => exact absurd state present
  | idle => rfl
  | ringing => rfl
  | inCall => rfl

theorem State.partyOf_none_iff {d : Fin 16} : s.partyOf d n = none ↔ ∀ i, ¬s.livesAs n d i := by
  unfold State.partyOf State.livesAs
  rw [List.find?_eq_none]
  refine ⟨fun none i ⟨p, found, live, own⟩ => none i (mem_allFin i) ?_, fun none i _ here => none i ?_⟩
  · rw [found]
    simp [live, own]
  · cases found : (s.calls.get d).parties[i.val]? with
    | none =>
      rw [found] at here
      exact absurd here (by simp)
    | some p =>
      rw [found] at here
      simp only [Bool.and_eq_true, beq_iff_eq] at here
      exact ⟨p, rfl, here⟩

/-- A live party's end. -/
theorem State.endParty_livesAs {d : Fin 16} {i : Fin 8} {p : Party} (found : (s.calls.get d).parties[i.val]? = some p) (n : Fin 64)
    (e : Fin 16) (k : Fin 8) : (s.endParty d i .lost).livesAs n e k ↔ ¬(e = d ∧ k = i) ∧ s.livesAs n e k := by
  have ended := State.endParty_ended found .lost
  have inside := (List.getElem?_eq_some_iff.mp found).1
  unfold State.livesAs
  rw [ended.calls, Tab.get_set]
  split
  · next same =>
    subst same
    dsimp only
    by_cases here : k = i
    · subst here
      rw [List.getElem?_set_self inside]
      refine iff_of_false ?_ fun both => both.1 ⟨rfl, rfl⟩
      rintro ⟨q, same, live, -⟩
      rw [← Option.some.inj same, Party.live_eq_true] at live
      exact absurd live (by simp [Party.leaves])
    · rw [List.getElem?_set_ne fun same => here (Fin.ext same.symm)]
      exact ⟨fun lives => ⟨fun both => here both.2, lives⟩, And.right⟩
  · next other => exact ⟨fun lives => ⟨fun both => other both.1, lives⟩, And.right⟩

theorem State.endParty_partyOut {d : Fin 16} {i : Fin 8} {p : Party} (found : (s.calls.get d).parties[i.val]? = some p)
    (out : s.partyOut c j ∨ (c = d ∧ j = i)) : (s.endParty d i .lost).partyOut c j := by
  have ended := State.endParty_ended found .lost
  have inside := (List.getElem?_eq_some_iff.mp found).1
  intro q found'
  rw [ended.calls, Tab.get_set] at found'
  split at found'
  · next same =>
    dsimp only at found'
    by_cases here : j = i
    · subst here
      rw [List.getElem?_set_self inside] at found'
      rw [← Option.some.inj found']
      exact ⟨.inl rfl, rfl, rfl⟩
    · rw [List.getElem?_set_ne fun same => here (Fin.ext same.symm), ← same] at found'
      exact out.resolve_right (fun both => here both.2) q found'
  · next other => exact out.resolve_right (fun both => other both.1) q found'

/-- The steps of the loss of station `m`, for a property of another station that its parts keep. -/
theorem State.stationLost_steps {m : Fin 64} {P Q : State → Prop} (start : P s) (weaken : ∀ t, P t → Q t)
    (lost : P s → P (s.modStation m Station.loses))
    (ends : ∀ t d i p, P t → (t.calls.get d).parties[i.val]? = some p → p.live = true → p.station = m → P (t.endParty d i .lost))
    (rings : ∀ t, P t → P t.releaseRing) (examines : ∀ t d, P t → Q (t.examine d)) : Q (s.stationLost m) := by
  by_cases here : (s.stations.get m).state ≠ .undefined ∧ (s.stations.get m).state ≠ .lost
  · rw [State.stationLost_present here.1 here.2]
    split
    · next c _ =>
      split
      · next i found =>
        obtain ⟨p, at_, live, own⟩ := State.partyOf_found found
        exact examines _ c (rings _ (ends _ c i p (lost start) at_ live own))
      · exact weaken _ (lost start)
    · exact weaken _ (lost start)
  · have same : s.stationLost m = s := by
      unfold State.stationLost
      dsimp only
      cases state : (s.stations.get m).state with
      | undefined => rfl
      | lost => rfl
      | idle | ringing | inCall => exact absurd ⟨by rw [state]; nofun, by rw [state]; nofun⟩ here
    rw [same]
    exact weaken _ start

theorem State.modStation_other {m : Fin 64} (other : n ≠ m) (f : Station → Station) :
    (s.modStation m f).stations.get n = s.stations.get n := by
  rw [State.modStation_stations, Tab.get_modify_ne _ other]

theorem State.endParty_stations {d : Fin 16} {i : Fin 8} {p : Party} (found : (s.calls.get d).parties[i.val]? = some p) :
    (s.endParty d i .lost).stations = s.stations := (State.endParty_ended found .lost).untouched.stations

theorem State.stationLost_aloof {m : Fin 64} (other : n ≠ m) (aloof : s.aloof n x) : (s.stationLost m).aloof n x :=
  State.stationLost_steps (P := State.aloof n x) aloof (fun _ => id) (fun a => ⟨(State.modStation_other other _).trans a.1, a.2⟩)
    (fun t d i p a found _ _ => ⟨(congrArg (·.get n) (State.endParty_stations found)).trans a.1, fun e k lives =>
      a.2 e k ((State.endParty_livesAs found n e k).mp lives).2⟩)
    (fun t a => (State.releaseRing_undialled t).loosens.aloof a) fun t d a => State.examine_aloof d a

theorem State.stationLost_partyOut (m : Fin 64) (out : s.partyOut c j) : (s.stationLost m).partyOut c j :=
  State.stationLost_steps (P := State.partyOut c j) out (fun _ => id) (fun a => a)
    (fun t d i p a found _ _ => State.endParty_partyOut found (.inl a))
    (fun t a => (State.releaseRing_undialled t).loosens.partyOut a) fun t d a => State.examine_partyOut d a

theorem State.stationLost_sole {m : Fin 64} (other : n ≠ m) (sole : s.sole n x c j) :
    (s.stationLost m).sole n x c j ∨ ((s.stationLost m).aloof n x.idled ∧ (s.stationLost m).partyOut c j) :=
  State.stationLost_steps (P := State.sole n x c j)
    (Q := fun t => t.sole n x c j ∨ (t.aloof n x.idled ∧ t.partyOut c j)) sole (fun _ => .inl)
    (fun a => ⟨(State.modStation_other other _).trans a.1, a.2⟩)
    (fun t d i p a found live own => ⟨(congrArg (·.get n) (State.endParty_stations found)).trans a.1, fun e k => by
      rw [State.endParty_livesAs found, a.2]
      refine ⟨And.right, fun both => ⟨fun here => ?_, both⟩⟩
      obtain ⟨q, found', -, own'⟩ := (a.2 e k).mpr both
      rw [here.1, here.2, found] at found'
      rw [← Option.some.inj found', own] at own'
      exact other own'.symm⟩)
    (fun t a => (State.releaseRing_undialled t).loosens.sole a) fun t d a => State.examine_sole d a

/-- The station's own loss. -/
theorem State.stationLost_aloof_own (aloof : s.aloof n x) (defined : x.state ≠ .undefined) (present : x.state ≠ .lost) :
    (s.stationLost n).aloof n x.loses := by
  have bare : s.stationLost n = s.modStation n Station.loses := by
    rw [State.stationLost_present (by rw [aloof.1]; exact defined) (by rw [aloof.1]; exact present)]
    split
    · next d _ => rw [State.partyOf_none_iff.mpr (aloof.2 d)]
    · rfl
  rw [bare]
  refine ⟨?_, aloof.2⟩
  rw [State.modStation_stations, Tab.get_modify_self, aloof.1]

theorem State.stationLost_sole_own (sole : s.sole n x c j) (defined : x.state ≠ .undefined) (present : x.state ≠ .lost)
    (call : x.call = some c) : (s.stationLost n).aloof n x.loses ∧ (s.stationLost n).partyOut c j := by
  obtain ⟨p, found, live, own⟩ := (sole.2 c j).mpr ⟨rfl, rfl⟩
  have party : s.partyOf c n = some j := by
    cases at_ : s.partyOf c n with
    | none => exact absurd ⟨p, found, live, own⟩ (State.partyOf_none_iff.mp at_ j)
    | some i =>
      obtain ⟨q, found', live', own'⟩ := State.partyOf_found at_
      exact congrArg some ((sole.2 c i).mp ⟨q, found', live', own'⟩).2
  have lost : s.stationLost n = (((s.modStation n Station.loses).endParty c j .lost).releaseRing).examine c := by
    rw [State.stationLost_present (by rw [sole.1]; exact defined) (by rw [sole.1]; exact present), sole.1, call]
    dsimp only
    rw [party]
  have found' : ((s.modStation n Station.loses).calls.get c).parties[j.val]? = some p := found
  have ended : ((s.modStation n Station.loses).endParty c j .lost).aloof n x.loses := by
    refine ⟨?_, fun e k lives => ?_⟩
    · rw [State.endParty_stations found', State.modStation_stations, Tab.get_modify_self, sole.1]
    · obtain ⟨other, lives⟩ := (State.endParty_livesAs found' n e k).mp lives
      exact other ((sole.2 e k).mp lives)
  have out := State.endParty_partyOut (c := c) (j := j) found' (.inr ⟨rfl, rfl⟩)
  have rung := (State.releaseRing_undialled ((s.modStation n Station.loses).endParty c j .lost)).loosens
  rw [lost]
  exact ⟨State.examine_aloof c (rung.aloof ended), State.examine_partyOut c (rung.partyOut out)⟩

/-! ### The losses of a trunk's stations -/

theorem State.forAll_lost_aloof {ms : List (Fin 64)} (other : n ∉ ms) (aloof : s.aloof n x) :
    (s.forAll ms State.stationLost).aloof n x := by
  induction ms generalizing s with
  | nil => exact aloof
  | cons m ms ih =>
    rw [State.forAll_cons]
    exact ih (fun mem => other (List.mem_cons_of_mem _ mem))
      (State.stationLost_aloof (fun same => other (same ▸ List.mem_cons_self ..)) aloof)

theorem State.forAll_lost_partyOut (ms : List (Fin 64)) (out : s.partyOut c j) : (s.forAll ms State.stationLost).partyOut c j := by
  induction ms generalizing s with
  | nil => exact out
  | cons m ms ih =>
    rw [State.forAll_cons]
    exact ih (State.stationLost_partyOut m out)

theorem State.forAll_lost_sole {ms : List (Fin 64)} (other : n ∉ ms) (sole : s.sole n x c j) :
    (s.forAll ms State.stationLost).sole n x c j ∨
      ((s.forAll ms State.stationLost).aloof n x.idled ∧ (s.forAll ms State.stationLost).partyOut c j) := by
  induction ms generalizing s with
  | nil => exact .inl sole
  | cons m ms ih =>
    have rest : n ∉ ms := fun mem => other (List.mem_cons_of_mem _ mem)
    rw [State.forAll_cons]
    rcases State.stationLost_sole (m := m) (fun same => other (same ▸ List.mem_cons_self ..)) sole with still | ⟨aloof, out⟩
    · exact ih rest still
    · exact .inr ⟨State.forAll_lost_aloof rest aloof, State.forAll_lost_partyOut ms out⟩

/-- A present station among those that are lost. -/
theorem State.forAll_lost_drops {ms : List (Fin 64)} (once : ms.Nodup) (mem : n ∈ ms) (defined : x.state ≠ .undefined)
    (present : x.state ≠ .lost) :
    (s.aloof n x → (s.forAll ms State.stationLost).aloof n x.loses) ∧
    (s.sole n x c j → x.call = some c → (s.forAll ms State.stationLost).aloof n x.loses ∧
      (s.forAll ms State.stationLost).partyOut c j) := by
  obtain ⟨before, after, rfl⟩ := List.append_of_mem mem
  obtain ⟨apart, -⟩ := List.nodup_cons.mp (List.nodup_middle.mp once)
  have early : n ∉ before := fun here => apart (List.mem_append_left _ here)
  have late : n ∉ after := fun here => apart (List.mem_append_right _ here)
  rw [State.forAll_append, State.forAll_cons]
  refine ⟨fun aloof => ?_, fun sole call => ?_⟩
  · exact State.forAll_lost_aloof late (State.stationLost_aloof_own (State.forAll_lost_aloof early aloof) defined present)
  · have idled : x.idled.loses = x.loses := rfl
    rcases State.forAll_lost_sole early sole with still | ⟨aloof, out⟩
    · obtain ⟨lost, out⟩ := State.stationLost_sole_own still defined present call
      exact ⟨State.forAll_lost_aloof late lost, State.forAll_lost_partyOut _ out⟩
    · have lost := State.stationLost_aloof_own aloof (by nofun) (by nofun)
      exact ⟨State.forAll_lost_aloof late (idled ▸ lost), State.forAll_lost_partyOut _ (State.stationLost_partyOut n out)⟩

end

end Sys2Proof.Machine

end

section
/-! PROOF. The links of a trunk: training, UP, and DOWN with its stations, loops and changeovers (O56). -/

open Sys2Proof Sys2Proof.Machine

namespace Sys2Proof.Machine

/-! ### Loops of a trunk -/

/-- The state of a loop under its trunk and its outlet (R172). -/
def Loop.placed (t : Trunk) (out : Outlet) (o : Fin 256) (x : Loop) : Loop :=
  if t.link ≠ .up ∨ t.served ≤ (slotOf o).val then x.leaveService .unserved
  else if ¬(out.kind.takesClaims = true ∧ x.baselineSet = true ∧ t.supervision = true) then x.leaveService .unsupervised
  else if x.state = .unserved ∨ x.state = .unsupervised then { x with state := .normal, streak := none }
  else x

theorem Loop.judgedState_not (st : LoopState) : Loop.judgedState st = false ↔ st = .unserved ∨ st = .unsupervised := by
  cases st <;> simp [Loop.judgedState]

section
variable (s : State)

theorem State.setLoopState_eq (o : Fin 256) :
    s.setLoopState o = s.modLoop o (Loop.placed (s.trunks.get (trunkOf o)) (s.outlets.get o) o) := by
  unfold State.setLoopState Loop.placed
  refine s.modLoop_congr o ?_
  have unserved : s.unserved o = true ↔
      (s.trunks.get (trunkOf o)).link ≠ .up ∨ (s.trunks.get (trunkOf o)).served ≤ (slotOf o).val := by
    simp [State.unserved]
  have unwatched : (!s.watched o || !(s.trunks.get (trunkOf o)).supervision) = true ↔
      ¬((s.outlets.get o).kind.takesClaims = true ∧ (s.loops.get o).baselineSet = true ∧
        (s.trunks.get (trunkOf o)).supervision = true) := by
    simp only [State.watched, Bool.or_eq_true, Bool.not_eq_true', Bool.and_eq_false_iff, not_and_or, Bool.not_eq_true]
    tauto
  refine if_congr unserved rfl (if_congr unwatched rfl ?_)
  by_cases judged : Loop.judgedState (s.loops.get o).state = true
  · rw [if_pos judged, if_neg]
    rw [← Loop.judgedState_not, judged]
    nofun
  · rw [if_neg judged, if_pos ((Loop.judgedState_not _).mp (Bool.not_eq_true _ ▸ judged))]

/-- A loop whose trunk has left UP (R169, R175). -/
def Loop.down (x : Loop) : Loop :=
  ({ x with capture := x.capture.map fun c => { c with count := 0, sum := 0 } } : Loop).leaveService .unserved

theorem State.loopDown_eq {o : Fin 256} (down : (s.trunks.get (trunkOf o)).link ≠ .up) : s.loopDown o = s.modLoop o Loop.down := by
  unfold State.loopDown
  rw [State.setLoopState_eq, State.modLoop_modLoop]
  refine s.modLoop_congr o ?_
  exact if_pos (.inl down)

/-- Acts on the loops of a list of outlets. -/
theorem State.forAll_modLoop {f : Fin 256 → State → State} {h : Fin 256 → Loop → Loop} {os : List (Fin 256)} (once : os.Nodup)
    (each : ∀ o ∈ os, ∀ loops, f o { s with loops } = ({ s with loops } : State).modLoop o (h o)) :
    ∃ loops, s.forAll os f = { s with loops } ∧ ∀ o, loops.get o = if o ∈ os then h o (s.loops.get o) else s.loops.get o := by
  have loop (before : Tab 256 Loop) : ∃ loops, ({ s with loops := before } : State).forAll os f = { s with loops } ∧
      ∀ o, loops.get o = if o ∈ os then h o (before.get o) else before.get o := by
    induction os generalizing before with
    | nil => exact ⟨before, rfl, fun _ => rfl⟩
    | cons o os ih =>
      obtain ⟨new, once⟩ := List.nodup_cons.mp once
      rw [State.forAll_cons, each o (List.mem_cons_self ..) before]
      obtain ⟨loops, e, at_⟩ := ih once (fun p mem => each p (List.mem_cons_of_mem _ mem)) (before.modify o (h o))
      refine ⟨loops, e, fun p => ?_⟩
      rw [at_, Tab.get_modify]
      by_cases same : p = o
      · subst same
        rw [if_neg new, if_pos rfl, if_pos (List.mem_cons_self ..)]
      · rw [if_neg same]
        exact if_congr (by simp [same]) rfl rfl
  exact loop s.loops

theorem mem_outletsOf (k : Fin 4) (o : Fin 256) : o ∈ outletsOf k ↔ trunkOf o = k := by
  unfold outletsOf
  rw [List.mem_map]
  constructor
  · rintro ⟨x, -, rfl⟩
    exact trunkOf_outletAt k x
  · intro own
    refine ⟨slotOf o, mem_allFin _, Fin.ext ?_⟩
    have number : o.val / 64 = k.val := congrArg Fin.val own
    simp only [outletAt, slotOf]
    omega

theorem outletsOf_nodup (k : Fin 4) : (outletsOf k).Nodup := by
  refine List.Nodup.map (fun x y same => ?_) (allFin_nodup 64)
  rw [← slotOf_outletAt k x, same, slotOf_outletAt]

/-! ### Entry to UP (R169) -/

/-- A trunk that enters UP with the abilities of a block. -/
def Trunk.raised (t : Trunk) (b : AbilityBlock) : Trunk :=
  { t with
    link := .up, answer := none, sync := some 4, served := min 64 b.served.toNat, present := min 64 b.present.toNat
    overrideLines := b.overrideLines, supervision := b.supervision, changeover := b.changeover }

theorem State.enterUp_eq (k : Fin 4) (b : AbilityBlock) : ∃ loops, s.enterUp k b =
    ({ s.modTrunk k fun t => t.raised b with loops } : State).emitNote .trunk 1 k.val
      (((s.trunks.get k).raised b).served + 256 * ((s.trunks.get k).raised b).present +
        65536 * ((s.trunks.get k).raised b).abilities) ∧
    ∀ o, loops.get o = if trunkOf o = k then Loop.placed ((s.trunks.get k).raised b) (s.outlets.get o) o (s.loops.get o)
      else s.loops.get o := by
  have trunk : (s.modTrunk k fun t => t.raised b).trunks.get k = (s.trunks.get k).raised b := by
    rw [State.modTrunk_trunks, Tab.get_modify_self]
  obtain ⟨loops, e, at_⟩ := (s.modTrunk k fun t => t.raised b).forAll_modLoop (f := State.setLoopState)
    (h := fun o => Loop.placed ((s.trunks.get k).raised b) (s.outlets.get o) o) (outletsOf_nodup k) fun o mem loops => by
      rw [State.setLoopState_eq, (mem_outletsOf k o).mp mem]
      exact congrArg (fun t => State.modLoop o (Loop.placed t (s.outlets.get o) o) _) trunk
  refine ⟨loops, ?_, fun o => (at_ o).trans (if_congr (mem_outletsOf k o) rfl rfl)⟩
  unfold State.enterUp
  dsimp only
  change (State.emitNote .trunk 1 k.val _ ((s.modTrunk k fun t => t.raised b).forAll (outletsOf k) State.setLoopState)) = _
  rw [e]
  exact congrArg (fun t : Trunk => State.emitNote .trunk 1 k.val (t.served + 256 * t.present + 65536 * t.abilities) _) trunk

/-! ### The end of UP (R169) -/

/-- A trunk that leaves UP. -/
def Trunk.dropped (t : Trunk) : Trunk := { link := .down, training := t.training }

/-- The stations of a trunk that leaves UP are lost. -/
def State.deserted (k : Fin 4) (s : State) : State :=
  (s.modTrunk k Trunk.dropped).forAll (s.stationsOn k) State.stationLost

theorem State.deserted_acts (k : Fin 4) : Acts (s.modTrunk k Trunk.dropped) (s.deserted k) :=
  State.forAll_acts (Acts.refl _) _ _ fun n _ act => State.stationLost_acts act n

theorem State.unlinked_eq (k : Fin 4) : ∃ loops, s.unlinked k = { s.deserted k with loops } ∧
    ∀ o, loops.get o = if trunkOf o = k then (s.loops.get o).down else s.loops.get o := by
  have acts := s.deserted_acts k
  have start : s.unlinked k = (s.deserted k).forAll (outletsOf k) State.loopDown := rfl
  rw [start]
  generalize s.deserted k = a at acts
  have trunk : a.trunks.get k = (s.trunks.get k).dropped := by
    rw [acts.trunks, State.modTrunk_trunks, Tab.get_modify_self]
  obtain ⟨loops, e, at_⟩ := a.forAll_modLoop (f := State.loopDown) (h := fun _ => Loop.down) (outletsOf_nodup k)
    fun o mem loops => by
      refine State.loopDown_eq _ ?_
      dsimp only
      rw [(mem_outletsOf k o).mp mem, trunk]
      nofun
  refine ⟨loops, e, fun o => (at_ o).trans ?_⟩
  rw [acts.loops]
  exact if_congr (mem_outletsOf k o) rfl rfl

/-- The note of a PENDING slot whose trunk leaves UP (R178). -/
def Changeover.failed (c : Changeover) (x : Fin 8) (time : Word) : List Note :=
  if c.state = .pending then
    [{ kind := .changeover, code := 2, subject := c.faulted.val, time, detail := x.val + 256 * c.spare.val + 16777216 * 2 }]
  else []

theorem State.changeoverTrunkDown_only (x : Fin 8) : ∃ changeovers regs notes, s.changeoverTrunkDown x =
    { s with changeovers, regs, notes } := by
  unfold State.changeoverTrunkDown State.failChangeover State.freeSlot
  split
  · dsimp only
    obtain ⟨regs, notes, e⟩ := State.emitNote_only ((s.modChangeover x fun _ => {}).setCause .fault) .changeover 2
      (s.changeovers.get x).faulted.val ((s.changeovers.get x).detail x 2)
    rw [e]
    exact ⟨_, _, _, rfl⟩
  · exact ⟨_, _, _, rfl⟩
  · exact ⟨_, _, _, rfl⟩
  · exact ⟨_, _, _, rfl⟩

theorem State.changeoverTrunkDown_noted {ns : List Note} (noted : s.notedAll ns) (x : Fin 8) :
    (s.changeoverTrunkDown x).notedAll (ns ++ (s.changeovers.get x).failed x s.time) := by
  unfold State.changeoverTrunkDown Changeover.failed
  cases state : (s.changeovers.get x).state with
  | pending =>
    have freed : ((s.freeSlot x).setCause .fault).notedAll ns := noted
    exact State.notedAll_emitNote freed .changeover 2 (s.changeovers.get x).faulted.val ((s.changeovers.get x).detail x 2)
  | releasing => exact (List.append_nil ns).symm ▸ noted
  | free => exact (List.append_nil ns).symm ▸ noted
  | active => exact (List.append_nil ns).symm ▸ noted

/-- What the end of UP leaves, but for the stations and calls. -/
structure LeftUp (s t : State) (k : Fin 4) : Prop where
  trunks : t.trunks = s.trunks.modify k Trunk.dropped
  fault : t.causeHas .fault = true
  outlets : t.outlets = s.outlets
  inlets : t.inlets = s.inlets
  time : t.time = s.time
  granted : t.port.grant.map (·.transfer) = s.port.grant.map (·.transfer)
  notes : t.notedAll ((s.changeovers.get ⟨2 * k.val, by omega⟩).failed ⟨2 * k.val, by omega⟩ s.time ++
    (s.changeovers.get ⟨2 * k.val + 1, by omega⟩).failed ⟨2 * k.val + 1, by omega⟩ s.time ++
      [{ kind := .trunk, code := 0, subject := k.val, detail := 0, time := s.time }])
  loops : ∀ o, t.loops.get o = if trunkOf o = k then (s.loops.get o).down else s.loops.get o
  stations : t.stations = (s.deserted k).stations
  calls : t.calls = (s.deserted k).calls

theorem State.leaveUp_left (k : Fin 4) : LeftUp s (s.leaveUp k) k := by
  have trunks := s.leaveUp_trunks k
  obtain ⟨loops, e, at_⟩ := s.unlinked_eq k
  have acts := s.deserted_acts k
  rw [State.leaveUp_eq] at trunks ⊢
  rw [show slotsOf k = [⟨2 * k.val, by omega⟩, ⟨2 * k.val + 1, by omega⟩] from rfl, State.forAll_cons, State.forAll_cons] at trunks ⊢
  have nil (t : State) : t.forAll [] State.changeoverTrunkDown = t := rfl
  rw [nil, e] at trunks ⊢
  have first := State.changeoverTrunkDown_noted { s.deserted k with loops } (ns := []) (State.notedAll_nil _) ⟨2 * k.val, by omega⟩
  have slot := State.changeoverTrunkDown_slot { s.deserted k with loops } ⟨2 * k.val, by omega⟩ ⟨2 * k.val + 1, by omega⟩
  rw [if_neg (by simp [Fin.ext_iff])] at slot
  obtain ⟨_, _, _, only⟩ := State.changeoverTrunkDown_only { s.deserted k with loops } ⟨2 * k.val, by omega⟩
  rw [only] at first slot trunks ⊢
  have second := State.changeoverTrunkDown_noted _ first ⟨2 * k.val + 1, by omega⟩
  rw [slot] at second
  obtain ⟨_, _, _, only'⟩ := State.changeoverTrunkDown_only _ ⟨2 * k.val + 1, by omega⟩
  rw [only'] at second trunks ⊢
  have third := State.notedAll_emitNote second .trunk 0 k.val 0
  obtain ⟨_, _, only''⟩ := State.emitNote_only _ .trunk 0 k.val 0
  rw [only''] at third trunks ⊢
  dsimp only at third
  rw [acts.changeovers, acts.time] at third
  refine ⟨trunks, ?_, acts.outlets, acts.inlets, acts.time, acts.granted, third, at_, rfl, rfl⟩
  rw [State.causeHas_setCause]
  exact .inl rfl

end

end Sys2Proof.Machine

/-- Settles O56: entry to UP by its equation, and the end of UP through the losses of its stations. -/
theorem trunkLinks : Obligations.TrunkLinks := by
  unfold Obligations.TrunkLinks
  intro s k t
  refine ⟨fun training due => ?_, fun waits => ?_, fun b other => ?_, fun b training same => ?_, fun stands => ?_, fun up due => ?_⟩
  · refine congrArg Host.Outcome.next ((if_pos (by simp [training, due, t])).trans ?_)
    unfold State.enterTraining State.modTrunk
    rw [Tab.modify_congr _ _ (h := ?_)]
    change ({ t with link := .training, training := t.training + 1, answer := some 50 } : Trunk) = _
    rw [← training]
  · refine congrArg Host.Outcome.next (if_neg ?_)
    rw [Bool.and_eq_true, beq_iff_eq, beq_iff_eq]
    exact fun both => waits.elim (fun h => h both.1) fun h => h both.2
  · refine congrArg (Host.Outcome.next ∘ State.arbitrate) (if_neg ?_)
    rw [Bool.and_eq_true, beq_iff_eq, beq_iff_eq]
    exact fun both => other.elim (fun h => h both.1) fun h => h both.2
  · have rises : s.abilityArrives k b = s.enterUp k b := if_pos (by simp [training, same, t])
    obtain ⟨loops, e, at_⟩ := s.enterUp_eq k b
    refine ⟨_, congrArg (Host.Outcome.next ∘ State.arbitrate) (rises.trans e), ?_⟩
    have note := State.emitNote_only ({ s.modTrunk k fun t => t.raised b with loops } : State) .trunk 1 k.val
      (((s.trunks.get k).raised b).served + 256 * ((s.trunks.get k).raised b).present +
        65536 * ((s.trunks.get k).raised b).abilities)
    refine ⟨?_, ?_, ?_, ?_, ?_, fun o own => ?_, fun busy => ?_, fun o other => ?_⟩
    · rw [State.arbitrate_trunks, State.emitNote_trunks]
      exact Tab.modify_eq_set s.trunks k fun t => t.raised b
    · rw [State.arbitrate_claims, State.emitNote_claims]
      rfl
    · rw [State.arbitrate_stations, State.emitNote_stations]
      rfl
    · rw [State.arbitrate_outlets, State.emitNote_outlets]
      rfl
    · rw [State.arbitrate_changeovers, State.emitNote_changeovers]
      rfl
    · rw [State.arbitrate_loops, State.emitNote_loops]
      have placed := at_ o
      rw [if_pos own] at placed
      refine ⟨fun beyond => ?_, fun served out => ?_, fun served watched => ?_⟩
      · exact placed.trans (if_pos (.inr beyond))
      · refine placed.trans ((if_neg ?_).trans (if_pos fun all => out ?_))
        · rintro (down | beyond)
          · exact down rfl
          · exact absurd served (not_lt.mpr beyond)
        · obtain ⟨defined, spare⟩ := (OutletKind.takesClaims_iff _).mp all.1
          exact ⟨defined, spare, all.2⟩
      · refine placed.trans ((if_neg ?_).trans (if_neg (not_not_intro ?_)))
        · rintro (down | beyond)
          · exact down rfl
          · exact absurd served (not_lt.mpr beyond)
        · exact ⟨(OutletKind.takesClaims_iff _).mpr ⟨watched.1, watched.2.1⟩, watched.2.2⟩
    · rw [State.arbitrate_waiting (by rw [State.emitNote_port]; exact busy), Trunk.abilities_eq]
      exact State.emitNote_notes_congr (s := s) (t := { s.modTrunk k fun t => t.raised b with loops }) rfl rfl .trunk 1 k.val
        (min 64 b.served.toNat + 256 * min 64 b.present.toNat + 65536 * ((if b.overrideLines then 1 else 0) +
          (if b.supervision then 2 else 0) + (if b.changeover then 4 else 0)))
    · rw [State.arbitrate_loops, State.emitNote_loops]
      exact (at_ o).trans (if_neg other)
  · refine congrArg (Host.Outcome.next ∘ State.arbitrate) (State.syncExpired_not fun failing => ?_)
    exact stands.elim (fun h => h failing.1) fun h => h failing.2
  · obtain ⟨trunks, fault, outlets, inlets, time, granted, notes, loops, stations, calls⟩ := s.leaveUp_left k
    have slots := s.leaveUp_slot k
    have once := Tab.indices_nodup s.stations fun x => x.binding.any fun b => trunkOf b.1 == k
    refine ⟨_, congrArg (Host.Outcome.next ∘ State.arbitrate) (State.syncExpired_of ⟨up, due⟩), ?_⟩
    generalize s.leaveUp k = u at trunks fault outlets inlets time granted notes loops stations calls slots
    refine ⟨?_, ?_, ?_, ?_, ?_, fun busy => ?_, fun n i o bound here defined present => ⟨fun none alone => ?_,
      fun c j call only => ?_⟩, fun n elsewhere none => ?_, fun o own => ⟨?_, ?_⟩, fun o other => ?_, fun x own => ?_, fun x other => ?_⟩
    · rw [State.arbitrate_trunks, trunks]
      exact Tab.modify_eq_set ..
    · rw [State.arbitrate_causeHas]
      exact fault
    · rw [State.arbitrate_outlets, outlets]
    · rw [State.arbitrate_inlets, inlets]
    · rw [State.arbitrate_time, time]
    · rw [State.arbitrate_waiting fun idle => ?_]
      · exact notes
      · rw [idle] at granted
        exact busy (Option.map_eq_none_iff.mp granted.symm)
    · have aloof : (s.modTrunk k Trunk.dropped).aloof n (s.stations.get n) := ⟨rfl, none⟩
      have lost := (State.forAll_lost_drops (c := 0) (j := 0) once ((s.mem_stationsOn k n).mpr ⟨_, bound, here⟩) defined present).1
        aloof
      rw [State.arbitrate_stations, stations]
      exact lost.1.trans (by rw [Station.loses])
    · have sole : (s.modTrunk k Trunk.dropped).sole n (s.stations.get n) c j := ⟨rfl, only⟩
      obtain ⟨lost, out⟩ := (State.forAll_lost_drops once ((s.mem_stationsOn k n).mpr ⟨_, bound, here⟩) defined present).2 sole call
      rw [State.arbitrate_stations, State.arbitrate_calls, stations, calls]
      have now : (s.deserted k).stations.get n = (s.stations.get n).loses := lost.1
      rw [now]
      exact ⟨rfl, rfl, rfl, rfl, out⟩
    · have aloof : (s.modTrunk k Trunk.dropped).aloof n (s.stations.get n) :=
        ⟨rfl, fun d i ⟨p, found, live, own⟩ => none d p (List.mem_of_getElem? found) live own⟩
      have stays := State.forAll_lost_aloof (ms := s.stationsOn k) (fun mem => by
        obtain ⟨b, own, at_⟩ := (s.mem_stationsOn k n).mp mem
        exact elsewhere b.1 b.2 own at_) aloof
      rw [State.arbitrate_stations, stations]
      exact stays.1
    · rw [State.arbitrate_loops, loops, if_pos own]
      exact Loop.leaveService_state _ _
    · rw [State.arbitrate_loops, loops, if_pos own]
      unfold Loop.down Loop.leaveService
      rfl
    · rw [State.arbitrate_loops, loops, if_neg other]
    · rw [State.arbitrate_changeovers, slots, if_pos own]
      rfl
    · rw [State.arbitrate_changeovers, slots, if_neg other]

end

section
/-! PROOF. The placements of a starting host program's claim where no stack is full and no holder is displaced (R38, R55). -/

open Sys2Proof Sys2Proof.Machine

namespace Sys2Proof.Machine

section
variable {s : State} {c : Claim} {o : Fin 256} {p : Fin 64}

/-- Program `p` holds a stack as it is named. -/
def holdsIn (p : Fin 64) (cs : List Claim) : Bool := (holderIn cs).any fun d => d.owner == .program p

theorem holdsIn_iff (cs : List Claim) : holdsIn p cs = true ↔ (holderIn cs).map (·.owner) = some (.program p) := by
  unfold holdsIn
  cases holderIn cs <;> simp

/-- The stack of an outlet with a claim put into its place. -/
def State.with_ (s : State) (c : Claim) (o : Fin 256) : List Claim := nameStack (s.lockFloor o) (insertClaim c (s.stack o))

/-- A stack with one claim more, its program counted and the line evaluated. -/
def State.seat (p : Fin 64) (c : Claim) (o : Fin 256) (s : State) : State :=
  ((s.setStack o (s.with_ c o)).modProgram p fun pr =>
    { pr with held := pr.held + if holdsIn p (s.with_ c o) then 1 else 0 }).evalLine o

/-- A claim of a program may be put into a stack with nobody displaced. -/
structure State.Fits (s : State) (p : Fin 64) (c : Claim) (o : Fin 256) : Prop where
  takes : (s.outlets.get o).kind.takesClaims = true
  absent : hasOwner (.program p) (s.stack o) = false
  room : (s.stack o).length < 8
  moves : (holderIn (s.with_ c o)).map (·.owner) = (s.holder o).map (·.owner) ∨
    (s.holder o = none ∧ holdsIn p (s.with_ c o) = true)

/-- A program that no hold of the show meets. -/
def State.unheld (s : State) (p : Fin 64) : Prop := (s.programs.get p).kind = .theatre → s.theatre.state ≠ .held

theorem State.unheld.modProgram (h : s.unheld p) {f : Program → Program} (keeps : ∀ x, (f x).kind = x.kind) :
    (s.modProgram p f).unheld p := by
  unfold State.unheld
  rw [State.modProgram_programs, Tab.get_modify_self, keeps]
  exact h

/-- A program's slot until step 6 of its start. -/
structure State.Starts (s : State) (p : Fin 64) : Prop where
  state : (s.programs.get p).state = .gathering
  admitted : (s.programs.get p).admitted = 0
  show_ : s.unheld p

theorem State.holder_absent (absent : hasOwner (.program p) (s.stack o) = false) :
    (s.holder o).map (·.owner) ≠ some (.program p) := by
  intro holds
  obtain ⟨d, found, own⟩ := Option.map_eq_some_iff.mp holds
  have present : hasOwner (.program p) (s.stack o) = true := by
    unfold hasOwner
    exact List.any_eq_true.mpr ⟨d, List.mem_of_find?_eq_some found, beq_iff_eq.mpr own⟩
  rw [absent] at present
  contradiction

theorem State.modProgram_self (s : State) (p : Fin 64) {f : Program → Program} (same : ∀ pr, f pr = pr) : s.modProgram p f = s := by
  have programs : s.programs.modify p f = s.programs := Tab.ext_get fun q => by
    rw [Tab.get_modify]
    split_ifs with e
    · rw [same, e]
    · rfl
  unfold State.modProgram
  rw [programs]

theorem State.place_seat (own : c.owner = .program p) (starts : s.Starts p) (fits : s.Fits p c o) :
    s.place c o = (true, s.seat p c o) := by
  obtain ⟨takes, absent, room, moves⟩ := fits
  obtain ⟨state, admitted, show_⟩ := starts
  rw [State.place_room takes (own ▸ absent) room]
  refine congrArg (Prod.mk true) ?_
  rcases moves with same | ⟨nobody, holds⟩
  · have loses : holdsIn p (s.with_ c o) = false := by
      rw [Bool.eq_false_iff, Ne, holdsIn_iff, same]
      exact State.holder_absent absent
    rw [State.restack_same same.symm]
    unfold State.seat
    rw [loses]
    exact congrArg (State.evalLine o) (State.modProgram_self _ p fun pr => rfl).symm
  · have owner := (holdsIn_iff _).mp holds
    obtain ⟨d, found, mine⟩ := Option.map_eq_some_iff.mp owner
    have new : s.newHolder o (insertClaim c (s.stack o)) = some d := found
    have moved : (s.holder o).map (·.owner) ≠ (s.newHolder o (insertClaim c (s.stack o))).map (·.owner) := by
      rw [nobody, new]
      nofun
    have counted : s.counted o (insertClaim c (s.stack o)) = (s.setStack o (s.with_ c o)).modProgram p fun pr =>
        { pr with held := pr.held + if holdsIn p (s.with_ c o) then 1 else 0 } := by
      unfold State.counted
      rw [nobody, new, holds]
      obtain ⟨⟩ := d
      cases mine
      rfl
    have waits : (s.counted o (insertClaim c (s.stack o))).gatherTestOf (s.newHolder o (insertClaim c (s.stack o))) =
        s.counted o (insertClaim c (s.stack o)) := by
      rw [counted, new, holds]
      obtain ⟨⟩ := d
      cases mine
      change State.gatherTest p _ = _
      unfold State.gatherTest
      dsimp only
      rw [State.modProgram_programs, Tab.get_modify_self]
      refine if_neg ?_
      simp [admitted]
    have named : s.renamed o (insertClaim c (s.stack o)) = s.seat p c o := by
      unfold State.renamed
      rw [nobody]
      change State.evalLine o ((s.counted o _).gatherTestOf _) = _
      rw [waits, counted]
      rfl
    rw [State.restack_moved moved, named, nobody]
    change (if (s.seat p c o).isShow none || (s.seat p c o).isShow _ then (s.seat p c o).resumeTest else s.seat p c o) = _
    by_cases theatre : (s.programs.get p).kind = .theatre
    · rw [State.resumeTest_not (s := s.seat p c o) fun r _ resumes => show_ theatre resumes.1, ite_self]
    · refine if_neg ?_
      have kind : ((s.seat p c o).programs.get p).kind = (s.programs.get p).kind := by
        unfold State.seat State.evalLine
        dsimp only
        rw [State.setLine_programs, State.modProgram_programs, Tab.get_modify_self]
        rfl
      rw [new]
      obtain ⟨⟩ := d
      cases mine
      unfold State.isShow
      simp [kind, theatre]

/-! ### All the placements -/

/-- The override line of an outlet under a stack. -/
def State.lineUnder (s : State) (o : Fin 256) (cs : List Claim) : Bool :=
  (s.outlets.get o).kind == .cabinLoop && (holderIn cs).any fun c => (s.outlets.get o).overrideThreshold ≤ c.priority

theorem State.seat_eq (s : State) (p : Fin 64) (c : Claim) (o : Fin 256) : s.seat p c o = { s with
    claims := { s.claims with stack := s.claims.stack.set o (s.with_ c o)
                              lines := s.claims.lines.set o (s.lineUnder o (s.with_ c o)) }
    programs := s.programs.modify p fun pr => { pr with held := pr.held + if holdsIn p (s.with_ c o) then 1 else 0 } } := by
  have line : (match (((s.setStack o (s.with_ c o)).modProgram p fun pr =>
      { pr with held := pr.held + if holdsIn p (s.with_ c o) then 1 else 0 }).holder o) with
      | some c => decide ((s.outlets.get o).overrideThreshold ≤ c.priority)
      | none => false) = (holderIn (s.with_ c o)).any fun c => (s.outlets.get o).overrideThreshold ≤ c.priority := by
    have stack : ((s.setStack o (s.with_ c o)).modProgram p fun pr =>
        { pr with held := pr.held + if holdsIn p (s.with_ c o) then 1 else 0 }).holder o = holderIn (s.with_ c o) := by
      unfold State.holder State.stack
      rw [State.modProgram_claims]
      exact congrArg holderIn (by simp [State.setStack])
    rw [stack]
    cases holderIn (s.with_ c o) <;> rfl
  unfold State.seat State.evalLine
  dsimp only
  unfold State.lineUnder
  rw [← line]
  rfl

/-- What the placements at some outlets have made of a state. -/
structure Placing (p : Fin 64) (c : Claim) (b : State) (done : List (Fin 256)) (s : State) : Prop where
  only : ∃ stack lines, s = { b with
    claims := { b.claims with stack, lines }
    programs := b.programs.modify p fun pr => { pr with held := pr.held + (done.filter fun o => holdsIn p (b.with_ c o)).length } }
  stack : ∀ o, s.stack o = if o ∈ done then b.with_ c o else b.stack o
  line : ∀ o, s.claims.lines.get o = if o ∈ done then b.lineUnder o (b.with_ c o) else b.claims.lines.get o

theorem Placing.refl (p : Fin 64) (c : Claim) (b : State) : Placing p c b [] b := by
  refine ⟨⟨b.claims.stack, b.claims.lines, ?_⟩, fun _ => rfl, fun _ => rfl⟩
  exact (b.modProgram_self p fun _ => rfl).symm

variable {b : State} {done : List (Fin 256)}

theorem Placing.starts (h : Placing p c b done s) (starts : b.Starts p) : s.Starts p := by
  obtain ⟨⟨stack, lines, e⟩, -, -⟩ := h
  have slot : s.programs.get p = { b.programs.get p with
      held := (b.programs.get p).held + (done.filter fun o => holdsIn p (b.with_ c o)).length } := by
    rw [e]
    exact Tab.get_modify_self _ p _
  refine ⟨?_, ?_, ?_⟩
  · rw [slot]
    exact starts.state
  · rw [slot]
    exact starts.admitted
  · unfold State.unheld
    rw [slot, e]
    exact starts.show_

/-- An outlet not reached yet stands as it stood. -/
theorem Placing.untouched (h : Placing p c b done s) (new : o ∉ done) :
    s.stack o = b.stack o ∧ s.outlets = b.outlets ∧ s.lockFloor o = b.lockFloor o ∧ s.with_ c o = b.with_ c o := by
  obtain ⟨⟨stack, lines, e⟩, stacks_, -⟩ := h
  have own : s.stack o = b.stack o := by rw [stacks_, if_neg new]
  have outlets : s.outlets = b.outlets := by rw [e]
  have floor : s.lockFloor o = b.lockFloor o := by rw [e]; rfl
  refine ⟨own, outlets, floor, ?_⟩
  unfold State.with_
  rw [own, floor]

theorem Placing.fits (h : Placing p c b done s) (new : o ∉ done) (fits : b.Fits p c o) : s.Fits p c o := by
  obtain ⟨own, outlets, -, with_⟩ := h.untouched new
  obtain ⟨takes, absent, room, moves⟩ := fits
  refine ⟨outlets ▸ takes, own ▸ absent, own ▸ room, ?_⟩
  unfold State.holder
  rw [with_, own]
  exact moves

theorem Placing.step (h : Placing p c b done s) (new : o ∉ done) : Placing p c b (done ++ [o]) (s.seat p c o) := by
  obtain ⟨own, outlets, floor, with_⟩ := h.untouched new
  obtain ⟨⟨stack, lines, e⟩, stacks_, lined⟩ := h
  have line : s.lineUnder o (b.with_ c o) = b.lineUnder o (b.with_ c o) := by
    unfold State.lineUnder
    rw [outlets]
  rw [State.seat_eq, with_, line]
  refine ⟨⟨s.claims.stack.set o (b.with_ c o), s.claims.lines.set o (b.lineUnder o (b.with_ c o)), ?_⟩, fun x => ?_, fun x => ?_⟩
  · have programs : (s.programs.modify p fun pr => { pr with held := pr.held + if holdsIn p (b.with_ c o) then 1 else 0 }) =
        b.programs.modify p fun pr =>
          { pr with held := pr.held + ((done ++ [o]).filter fun o => holdsIn p (b.with_ c o)).length } := by
      rw [e]
      dsimp only
      rw [Tab.modify_modify]
      refine Tab.modify_congr _ p ?_
      rw [List.filter_append, List.length_append]
      by_cases holds : holdsIn p (b.with_ c o) = true <;> simp [holds, Nat.add_assoc]
    rw [programs, e]
  · have at_ : ∀ x, State.stack { s with
        claims := { s.claims with stack := s.claims.stack.set o (b.with_ c o)
                                  lines := s.claims.lines.set o (b.lineUnder o (b.with_ c o)) }
        programs := s.programs.modify p fun pr => { pr with held := pr.held + if holdsIn p (b.with_ c o) then 1 else 0 } } x =
        if x = o then b.with_ c o else s.stack x := fun x => Tab.get_set _ _ _ _
    rw [at_]
    split_ifs with same mem mem
    · rw [same]
    · exact absurd (List.mem_append.mpr (.inr (List.mem_singleton.mpr same))) mem
    · rw [stacks_, if_pos ((List.mem_append.mp mem).resolve_right (by simpa using same))]
    · rw [stacks_, if_neg fun there => mem (List.mem_append.mpr (.inl there))]
  · change (s.claims.lines.set o _).get x = _
    rw [Tab.get_set]
    split_ifs with same mem mem
    · rw [same]
    · exact absurd (List.mem_append.mpr (.inr (List.mem_singleton.mpr same))) mem
    · rw [lined, if_pos ((List.mem_append.mp mem).resolve_right (by simpa using same))]
    · rw [lined, if_neg fun there => mem (List.mem_append.mpr (.inl there))]

/-- The placements where a test lets them that looks at nothing but the outlet's own stack. -/
theorem Placing.all {test : State → Fin 256 → Bool} (own : c.owner = .program p) (starts : b.Starts p)
    (local_ : ∀ t done o, Placing p c b done t → o ∉ done → test t o = test b o) {os : List (Fin 256)} (once : os.Nodup)
    (apart : ∀ o ∈ os, o ∉ done) (fits : ∀ o ∈ os, test b o = true → b.Fits p c o) (h : Placing p c b done s) (n : Nat) :
    ∃ t, (os.foldl (fun acc o =>
      if test acc.2 o then
        let r := acc.2.place c o
        (acc.1 + (if r.1 then 1 else 0), r.2)
      else acc) (n, s)) = (n + (os.filter (test b)).length, t) ∧ Placing p c b (done ++ os.filter (test b)) t := by
  induction os generalizing s done n with
  | nil => exact ⟨s, rfl, by simpa using h⟩
  | cons o os ih =>
    obtain ⟨out, once⟩ := List.nodup_cons.mp once
    have new := apart o List.mem_cons_self
    have later (x : Fin 256) (mem : x ∈ os) : x ∉ done := apart x (List.mem_cons_of_mem o mem)
    have fitting (x : Fin 256) (mem : x ∈ os) := fits x (List.mem_cons_of_mem o mem)
    rw [List.foldl_cons]
    by_cases tested : test b o = true
    · have now : test s o = true := (local_ s done o h new).trans tested
      have step := h.step new
      obtain ⟨t, ran, placing⟩ := ih once (done := done ++ [o]) (fun x mem there => (List.mem_append.mp there).elim
        (later x mem) fun same => out (List.mem_singleton.mp same ▸ mem)) fitting step (n + 1)
      refine ⟨t, ?_, ?_⟩
      · dsimp only
        rw [if_pos now, State.place_seat own (h.starts starts) (h.fits new (fits o List.mem_cons_self tested))]
        rw [List.filter_cons_of_pos tested, List.length_cons, ← Nat.add_assoc, Nat.add_right_comm]
        exact ran
      · rw [List.filter_cons_of_pos tested]
        simpa using placing
    · have now : ¬test s o = true := (local_ s done o h new).symm ▸ tested
      obtain ⟨t, ran, placing⟩ := ih once later fitting h n
      refine ⟨t, ?_, ?_⟩
      · dsimp only
        rw [if_neg now, List.filter_cons_of_neg tested]
        exact ran
      · rwa [List.filter_cons_of_neg tested]

/-- Where a claim is tried: everywhere, or with IF_FREE where it would hold at once (R39). -/
def State.tried (policy : Policy) (c : Claim) (s : State) (o : Fin 256) : Bool := policy != .ifFree || s.wouldHold c o

theorem Placing.tried (h : Placing p c b done s) (new : o ∉ done) (policy : Policy) : s.tried policy c o = b.tried policy c o := by
  obtain ⟨own, -, floor, -⟩ := h.untouched new
  unfold State.tried State.wouldHold
  rw [own, floor]

theorem State.placeAll_placing {policy : Policy} {os : List (Fin 256)} (own : c.owner = .program p) (starts : b.Starts p)
    (once : os.Nodup) (fits : ∀ o ∈ os.filter (b.tried policy c), b.Fits p c o) :
    ∃ t, b.placeAll c (State.tried policy c) os = ((os.filter (b.tried policy c)).length, t) ∧
      Placing p c b (os.filter (b.tried policy c)) t := by
  obtain ⟨t, ran, placing⟩ := (Placing.refl p c b).all (test := State.tried policy c) own starts
    (fun _ _ _ h new => h.tried new policy) once (fun _ _ => List.not_mem_nil)
    (fun o mem tested => fits o (List.mem_filter.mpr ⟨mem, tested⟩)) 0
  rw [Nat.zero_add] at ran
  exact ⟨t, ran, placing⟩

/-- Placements that are tried nowhere. -/
theorem State.placeAll_nowhere {policy : Policy} {os : List (Fin 256)} (nowhere : os.filter (s.tried policy c) = []) :
    s.placeAll c (State.tried policy c) os = (0, s) := by
  unfold State.placeAll
  induction os with
  | nil => rfl
  | cons o os ih =>
    have not_ : ¬s.tried policy c o = true := List.filter_eq_nil_iff.mp nowhere o List.mem_cons_self
    rw [List.filter_cons_of_neg not_] at nowhere
    rw [List.foldl_cons, if_neg not_]
    exact ih nowhere

end

end Sys2Proof.Machine
end

section
/-! PROOF. The steps of a program's start after its placements: the stream's channel, the gather test and the chime
(R38, R40, R41, R99). -/

open Sys2Proof Sys2Proof.Machine

namespace Sys2Proof.Machine

section
variable {s t : State} {p : Fin 64}

/-! ### The entry to CHIMING or PLAYING -/

/-- A program enters PLAYING. -/
def Program.plays (x : Program) : Program := ({ x with state := .playing, gatherTimer := none } : Program).startDuration

/-- The program passes its chime step, with a voice for its chime or without. -/
def Program.goesOn (sounds : Bool) (x : Program) : Program :=
  if sounds then { x with state := .chiming, gatherTimer := none }
  else ({ x with chimeSkipped := x.chimeSkipped || x.chime.isSome } : Program).plays

/-- The chime of program `p` finds a voice. -/
def State.chimes (s : State) (p : Fin 64) : Bool := (s.programs.get p).chime.isSome && s.freeVoice.isSome

theorem State.chimes_iff : s.chimes p = true ↔ ∃ q v, (s.programs.get p).chime = some q ∧ s.freeVoice = some v := by
  unfold State.chimes
  simp [Option.isSome_iff_exists]

/-- What the chime step of a program does. -/
structure GoesOn (p : Fin 64) (s t : State) : Prop where
  onward : s.Onward p t
  program : t.programs.get p = (s.programs.get p).goesOn (s.chimes p)
  voice : ∀ q v, (s.programs.get p).chime = some q → s.freeVoice = some v →
    t.tones.voices.get v = { user := .chime p, mode := .starting false, pattern := q }
  quiet : (s.programs.get p).chime = none → t.tones = s.tones
  channels : t.channels = if s.chimes p = false ∧ (s.programs.get p).source = .stream then
    (s.signalOwner (.program p) Channel.signalRun).channels else s.channels

/-- The entry to PLAYING while the show is not held. -/
theorem State.enterPlaying_of (show_ : s.unheld p) : s.enterPlaying p =
    { s with programs := s.programs.modify p Program.plays
             channels := if (s.programs.get p).source = .stream then (s.signalOwner (.program p) Channel.signalRun).channels
               else s.channels } := by
  have same : (s.modProgram p Program.plays).channelOf (.program p) = s.channelOf (.program p) :=
    State.channelOf_congr (fun _ => rfl) _
  have plays : s.enterPlaying p = if (s.programs.get p).source == .stream then
      (s.modProgram p Program.plays).signalOwner (.program p) Channel.signalRun else s.modProgram p Program.plays := by
    unfold State.enterPlaying
    dsimp only
    rw [if_neg (by simpa [State.unheld] using show_)]
    rfl
  rw [plays]
  by_cases stream : (s.programs.get p).source = .stream
  · rw [if_pos (beq_iff_eq.mpr stream), if_pos stream]
    unfold State.signalOwner
    rw [same]
    cases s.channelOf (.program p) <;> rfl
  · rw [if_neg (by simpa using stream), if_neg stream]
    rfl

theorem State.chimeStep_sounds {q : Fin 12} {v : Fin 8} (chime : (s.programs.get p).chime = some q) (free : s.freeVoice = some v) :
    s.chimeStep p = (s.giveVoice v (.chime p) q).modProgram p fun pr => { pr with state := .chiming, gatherTimer := none } := by
  unfold State.chimeStep
  rw [chime]
  dsimp only
  rw [free]

theorem State.chimeStep_skips (mute : s.chimes p = false) (show_ : s.unheld p) : s.chimeStep p =
    { s with programs := s.programs.modify p (Program.goesOn false)
             channels := if (s.programs.get p).source = .stream then (s.signalOwner (.program p) Channel.signalRun).channels
               else s.channels } := by
  unfold State.chimeStep
  cases chime : (s.programs.get p).chime with
  | none =>
    dsimp only
    rw [State.enterPlaying_of show_]
    have same : s.programs.modify p Program.plays = s.programs.modify p (Program.goesOn false) := by
      refine Tab.modify_congr _ p ?_
      generalize s.programs.get p = x at chime
      cases x
      cases chime
      unfold Program.goesOn
      simp
    rw [same]
  | some q =>
    have none_ : s.freeVoice = none := by
      unfold State.chimes at mute
      rw [chime] at mute
      simpa using mute
    dsimp only
    rw [none_]
    dsimp only
    rw [State.enterPlaying_of (s := s.modProgram p fun pr => { pr with chimeSkipped := true }) (show_.modProgram fun _ => rfl)]
    have same : (s.modProgram p fun pr => { pr with chimeSkipped := true }).programs.modify p Program.plays =
        s.programs.modify p (Program.goesOn false) := by
      rw [State.modProgram_programs, Tab.modify_modify]
      refine Tab.modify_congr _ p ?_
      generalize s.programs.get p = x at chime
      cases x
      cases chime
      unfold Program.goesOn
      simp
    have source : ((s.modProgram p fun pr => { pr with chimeSkipped := true }).programs.get p).source =
        (s.programs.get p).source := by
      rw [State.modProgram_programs, Tab.get_modify_self]
    have signalled : ((s.modProgram p fun pr => { pr with chimeSkipped := true }).signalOwner (.program p)
        Channel.signalRun).channels = (s.signalOwner (.program p) Channel.signalRun).channels := by
      have same : (s.modProgram p fun pr => { pr with chimeSkipped := true }).channelOf (.program p) =
        s.channelOf (.program p) := State.channelOf_congr (fun _ => rfl) _
      unfold State.signalOwner
      rw [same]
      cases s.channelOf (.program p) <;> rfl
    rw [same, source, signalled]
    rfl

theorem State.chimeStep_goes (show_ : s.unheld p) : GoesOn p s (s.chimeStep p) := by
  have onward := s.chimeStep_onward p
  by_cases sounds : s.chimes p = true
  · obtain ⟨q, v, chime, free⟩ := State.chimes_iff.mp sounds
    rw [State.chimeStep_sounds chime free] at onward ⊢
    obtain ⟨tones, given⟩ := s.giveVoice_tones v (.chime p) q
    refine ⟨onward, ?_, fun q' v' chime' free' => ?_, fun none_ => ?_, ?_⟩
    · rw [given, State.modProgram_programs, Tab.get_modify_self, sounds]
      rfl
    · cases chime.symm.trans chime'
      cases free.symm.trans free'
      rw [State.modProgram_tones]
      unfold State.giveVoice
      exact Tab.get_modify_self _ v _
    · rw [chime] at none_
      contradiction
    · rw [given, if_neg (by simp [sounds])]
      rfl
  · have mute := Bool.eq_false_iff.mpr sounds
    rw [State.chimeStep_skips mute show_] at onward ⊢
    refine ⟨onward, ?_, fun q v chime free => ?_, fun _ => rfl, ?_⟩
    · rw [mute]
      exact Tab.get_modify_self _ p _
    · exact absurd (State.chimes_iff.mpr ⟨q, v, chime, free⟩) sounds
    · simp only [mute, true_and]

theorem Program.goesOn_timer (sounds : Bool) (x : Program) (n : Option Nat) :
    ({ x with gatherTimer := n } : Program).goesOn sounds = x.goesOn sounds := by
  cases sounds <;> rfl

/-- The gather timer is not looked at when a program goes on. -/
theorem GoesOn.timed {n : Option Nat} (goes : GoesOn p (s.modProgram p fun pr => { pr with gatherTimer := n }) t) :
    GoesOn p s t := by
  obtain ⟨onward, program, voice, quiet, channels⟩ := goes
  have slot : (s.modProgram p fun pr => { pr with gatherTimer := n }).programs.get p =
      { s.programs.get p with gatherTimer := n } := by
    rw [State.modProgram_programs, Tab.get_modify_self]
  have chimes : (s.modProgram p fun pr => { pr with gatherTimer := n }).chimes p = s.chimes p := by
    unfold State.chimes
    rw [slot]
    rfl
  have signalled : ((s.modProgram p fun pr => { pr with gatherTimer := n }).signalOwner (.program p)
      Channel.signalRun).channels = (s.signalOwner (.program p) Channel.signalRun).channels := by
    have same : (s.modProgram p fun pr => { pr with gatherTimer := n }).channelOf (.program p) =
        s.channelOf (.program p) := State.channelOf_congr (fun _ => rfl) _
    unfold State.signalOwner
    rw [same]
    cases s.channelOf (.program p) <;> rfl
  rw [slot] at program voice quiet channels
  rw [chimes] at program channels
  rw [signalled] at channels
  exact ⟨(s.modProgram_onward p (f := fun pr => { pr with gatherTimer := n }) fun _ => rfl).trans onward, program.trans (Program.goesOn_timer _ _ _), voice, quiet, channels⟩

/-! ### Step 6 (R38, R40) -/

/-- A program that gathers on. -/
def State.gathersOn (s : State) (p : Fin 64) : Prop := (s.programs.get p).policy = .all ∧
  (s.programs.get p).held ≠ (s.programs.get p).admitted ∧ (s.programs.get p).gatherTimeout ≠ 0

theorem State.afterPlacing_waits (waits : s.gathersOn p) :
    s.afterPlacing p = s.modProgram p fun pr => { pr with gatherTimer := some pr.gatherTimeout } := by
  obtain ⟨all, short, time⟩ := waits
  unfold State.afterPlacing State.gatherTest
  dsimp only
  rw [all]
  dsimp only
  rw [if_neg time, State.modProgram_programs, Tab.get_modify_self]
  refine if_neg ?_
  simp [short]

theorem State.afterPlacing_goes (gathers : (s.programs.get p).state = .gathering) (show_ : s.unheld p)
    (goes : ¬s.gathersOn p) (some_ : (s.programs.get p).policy = .all → (s.programs.get p).held ≠ 0) :
    GoesOn p s (s.afterPlacing p) := by
  unfold State.afterPlacing
  dsimp only
  split
  · next all =>
    have held := some_ all
    have slot : (s.modProgram p fun pr => { pr with gatherTimer := some pr.gatherTimeout }).programs.get p =
        { s.programs.get p with gatherTimer := some (s.programs.get p).gatherTimeout } := by
      rw [State.modProgram_programs, Tab.get_modify_self]
    have timed : s.modProgram p (fun pr => { pr with gatherTimer := some pr.gatherTimeout }) =
        s.modProgram p fun pr => { pr with gatherTimer := some (s.programs.get p).gatherTimeout } :=
      s.modProgram_congr p rfl
    by_cases everywhere : (s.programs.get p).held = (s.programs.get p).admitted
    · have stepped : GoesOn p s ((s.modProgram p fun pr => { pr with gatherTimer := some pr.gatherTimeout }).chimeStep p) := by
        rw [timed]
        exact (State.chimeStep_goes (s := s.modProgram p fun pr => { pr with
          gatherTimer := some (s.programs.get p).gatherTimeout }) (show_.modProgram fun _ => rfl)).timed
      have tested : (s.modProgram p fun pr => { pr with gatherTimer := some pr.gatherTimeout }).gatherTest p =
          (s.modProgram p fun pr => { pr with gatherTimer := some pr.gatherTimeout }).chimeStep p := by
        unfold State.gatherTest
        dsimp only
        rw [slot]
        exact if_pos (by simp [gathers, everywhere, everywhere ▸ held])
      rw [tested]
      generalize (s.modProgram p fun pr => { pr with gatherTimer := some pr.gatherTimeout }).chimeStep p = u at stepped
      have still : u.gatherExpired p = u := by
        unfold State.gatherExpired
        dsimp only
        refine if_neg ?_
        rw [stepped.program]
        unfold Program.goesOn Program.plays Program.startDuration
        split
        · simp
        · split <;> simp
      rw [still, ite_self]
      exact stepped
    · have now : (s.programs.get p).gatherTimeout = 0 := by
        by_contra time
        exact goes ⟨all, everywhere, time⟩
      have tested : (s.modProgram p fun pr => { pr with gatherTimer := some pr.gatherTimeout }).gatherTest p =
          s.modProgram p fun pr => { pr with gatherTimer := some pr.gatherTimeout } := by
        unfold State.gatherTest
        dsimp only
        rw [slot]
        exact if_neg (by simp [everywhere])
      rw [if_pos now, tested, timed]
      unfold State.gatherExpired
      dsimp only
      rw [State.modProgram_programs, Tab.get_modify_self, State.modProgram_modProgram]
      rw [if_pos (by simp [gathers]), if_neg held]
      exact (State.chimeStep_goes (s := s.modProgram p fun pr => { pr with gatherTimer := none })
        (show_.modProgram fun _ => rfl)).timed
  · exact State.chimeStep_goes show_
  · exact State.chimeStep_goes show_

/-! ### The stream's channel (R99) -/

/-- A channel as it is bound to a host program's stream. -/
def boundTo (p : Fin 64) (d : StreamDesc) : Channel :=
  { state := .priming, owner := some (.program p), desc := d, passes := passesFor (.program p) d, cur := .toRead d.first }

theorem State.bind_of {x : Fin 16} {d : StreamDesc} (free : s.freeChannel = some x) (inside : s.inWindow d.first 32 32 = true) :
    (s.bind (.program p) d).2 = s.modChannel x fun _ => boundTo p d := by
  unfold State.bind
  rw [free]
  dsimp only
  unfold State.bindTo State.toRead
  refine (if_pos inside).trans ?_
  rw [State.modChannel_modChannel]
  rfl

/-- The channel bound is the one the program has. -/
theorem State.bound_channelOf {x : Fin 16} {d : StreamDesc} (none_ : ∀ y, (s.channels.get y).owner ≠ some (.program p)) :
    (s.modChannel x fun _ => boundTo p d).channelOf (.program p) = some x := by
  unfold State.channelOf
  have only (y : Fin 16) : (((s.modChannel x fun _ => boundTo p d).channels.get y).owner == some (ChanOwner.program p)) =
      decide (y = x) := by
    rw [State.modChannel_channels, Tab.get_modify]
    split_ifs with same
    · simp [same, boundTo]
    · simp [same, none_ y]
  rw [show (fun c => ((s.modChannel x fun _ => boundTo p d).channels.get c).owner == some (ChanOwner.program p)) =
    fun c => decide (c = x) from funext only]
  cases found : (allFin 16).find? fun c => decide (c = x) with
  | none =>
    have absent := List.find?_eq_none.mp found x (mem_allFin x)
    simp at absent
  | some y => simpa using List.find?_some found

end

end Sys2Proof.Machine
end

section
/-! PROOF. START_PROGRAM accepted (O28, O27): the slot's values, the placements, and what follows them. -/

open Sys2Proof Sys2Proof.Machine

namespace Sys2Proof.Machine

section
variable {s t : State} {p : Fin 64}

/-! ### The end of a program within its take (R17, R44) -/

/-- A program without claims that ends before its TAKEN write is granted: the return takes the write's place. -/
theorem State.endProgram_withdraws {h : Hand} {mark : Bool} (code : Nat) (busy : (s.programs.get p).state ≠ .free)
    (absent : ∀ o, hasOwner (.program p) (s.stack o) = false) (stage : (s.walker .program).stage = .takenWrite h mark)
    (record : (s.programs.get p).record = some (h.ref mark)) (waits : s.takenGranted .program h.addr = false) :
    ((s.endProgram p code).walker .program).stage =
      .returnWrite h ((s.programs.get p).ended (h.ref mark) code s.time) false := by
  obtain ⟨a, b, ha, hb, e⟩ := State.endProgram_eq busy code
  rw [State.removeAll_not absent] at ha
  have steadyA : Steady s a := ha ▸ State.releaseChannel_steady (State.releaseVoice_steady (Steady.refl s) _) _
  have quietA : Quiet s a := ha ▸ State.releaseChannel_quiet (State.releaseVoice_quiet (Quiet.refl s) _) _
  have programs : a.programs = s.programs := by rw [ha, State.releaseChannel_programs, State.releaseVoice_programs]
  have grantsA : s.Grants a := by
    obtain ⟨tones, voices⟩ := s.releaseVoice_tones (.chime p)
    rw [ha, voices]
    exact (State.Grants.of (t := { s with tones }) rfl).trans (State.releaseChannel_grants _ _)
  have lists : b.lists = s.lists := by
    rw [hb, (State.leaveHoldSet_steady (Steady.refl (a.modProgram p fun pr => { reservation := pr.reservation })) p).lists,
      State.modProgram_lists, steadyA.lists]
  have time : b.time = s.time := by
    rw [hb, (State.leaveHoldSet_quiet (Quiet.refl (a.modProgram p fun pr => { reservation := pr.reservation })) p).time,
      State.modProgram_time, quietA.time]
  have grants : s.Grants b := by
    refine grantsA.trans (State.Grants.of ?_)
    rw [hb, State.leaveHoldSet_port, State.modProgram_port]
  have walker : (b.walker .program).stage = .takenWrite h mark := by
    unfold State.walker at stage ⊢
    rw [lists]
    exact stage
  rw [e, programs, record]
  dsimp only
  have transfers : b.port.grant.map (·.transfer) = s.port.grant.map (·.transfer) := by
    have left := (State.leaveHoldSet_quiet (Quiet.refl (a.modProgram p fun pr => { reservation := pr.reservation })) p).granted
    rw [State.modProgram_port, ← hb] at left
    exact left.trans quietA.granted
  rw [State.requestReturn_withdraws (mark := mark) walker rfl ((grants.takenGranted transfers .program h.addr).trans waits),
    time]
  simp [State.setStage, State.modWalker, State.walker]

/-! ### The start of a host program -/

/-- The values a slot takes from its record (R37, R38). -/
def State.newProgram (s : State) (h : Hand) (set : List (Fin 256)) (kind : ProgKind) (policy : Policy) (src : Source)
    (chime : Option (Fin 12)) : Program :=
  let r := startRec h.bytes
  let k := r.clamps kind policy
  { state := .gathering, kind, source := src, priority := k.priority
    targets := set.filter fun o => (s.outlets.get o).kind.takesClaims
    policy, gatherTimeout := k.gatherTimeout, chime, gain := r.gain, duckable := r.duckable
    allowsUndertone := r.allowsUndertone, holdThreshold := k.holdThreshold, maxDuration := k.maxDuration
    arrival := s.claims.arrivals, record := some (h.ref k.mark) }

/-- A slot with its values, its record taken and its arrival number issued. -/
def State.begun (p : Fin 64) (h : Hand) (mark : Bool) (new : Program) (s : State) : State :=
  { s.take .program h mark with
    claims := { s.claims with arrivals := s.claims.arrivals + 1 }
    programs := s.programs.modify p fun _ => new }

theorem State.startHost_eq {h : Hand} {set : List (Fin 256)} {kind : ProgKind} {policy : Policy} {src : Source}
    {chime : Option (Fin 12)} (below : s.claims.arrivals < 4294967295) : s.startHost p h set kind policy src chime =
      (s.begun p h ((startRec h.bytes).clamps kind policy).mark (s.newProgram h set kind policy src chime)).launch p
        (if src == .stream then some ((startRec h.bytes).clamps kind policy).desc else none) := by
  unfold State.startHost
  dsimp only
  rw [State.issueArrival_below (s := s.take .program h ((startRec h.bytes).clamps kind policy).mark) below]
  rfl

section
variable {h : Hand} {mark : Bool} {new : Program}

theorem State.begun_program : (s.begun p h mark new).programs.get p = new := Tab.get_modify_self _ p _

theorem State.begun_stage : ((s.begun p h mark new).walker .program).stage = .takenWrite h mark :=
  State.take_stage s .program h mark

end

/-- The claims of a launched program, and the count of them. -/
def State.placedOf (s : State) (p : Fin 64) : List (Fin 256) :=
  (s.programs.get p).targets.filter (s.tried (s.programs.get p).policy ((s.programs.get p).claim p))

theorem State.launch_nowhere (desc : Option StreamDesc) (nowhere : s.placedOf p = []) : s.launch p desc =
    (s.modProgram p fun pr => { pr with admitted := 0 }).endProgram p stNoTarget := by
  have placed := State.placeAll_nowhere (s := s) nowhere
  unfold State.launch
  dsimp only
  rw [show s.placeAll ((s.programs.get p).claim p) (fun t o => (s.programs.get p).policy != .ifFree ||
    t.wouldHold ((s.programs.get p).claim p) o) (s.programs.get p).targets = (0, s) from placed]
  exact if_pos rfl

/-- The admitted program, with its stream bound. -/
def State.intake (p : Fin 64) (n : Nat) (desc : Option StreamDesc) (s : State) : State :=
  let s := s.modProgram p fun pr => { pr with admitted := n }
  match desc with
  | some d => (s.bind (.program p) d).2
  | none => s

theorem State.launch_goes (desc : Option StreamDesc) (starts : s.Starts p) (once : (s.programs.get p).targets.Nodup)
    (somewhere : s.placedOf p ≠ []) (fits : ∀ o ∈ s.placedOf p, s.Fits p ((s.programs.get p).claim p) o) :
    ∃ t, Placing p ((s.programs.get p).claim p) s (s.placedOf p) t ∧
      s.launch p desc = (t.intake p (s.placedOf p).length desc).afterPlacing p := by
  obtain ⟨t, placed, placing⟩ := State.placeAll_placing (policy := (s.programs.get p).policy) rfl starts once fits
  refine ⟨t, placing, ?_⟩
  unfold State.launch
  dsimp only
  rw [show s.placeAll ((s.programs.get p).claim p) (fun t o => (s.programs.get p).policy != .ifFree ||
    t.wouldHold ((s.programs.get p).claim p) o) (s.programs.get p).targets = ((s.placedOf p).length, t) from placed]
  dsimp only
  rw [if_neg (by simpa using somewhere)]
  rfl

/-! ### What is left after a launch -/

/-- What a launched program has made of the state it was begun in. -/
structure Launched (p : Fin 64) (c : Claim) (placed : List (Fin 256)) (desc : Option StreamDesc) (waits : Prop)
    (b t : State) : Prop where
  stack : ∀ o, t.stack o = if o ∈ placed then b.with_ c o else b.stack o
  line : ∀ o, t.claims.lines.get o = if o ∈ placed then b.lineUnder o (b.with_ c o) else b.claims.lines.get o
  floors : t.claims.floors = b.claims.floors
  arrivals : t.claims.arrivals = b.claims.arrivals
  others : ∀ q, q ≠ p → t.programs.get q = b.programs.get q
  waiting : waits → t.programs.get p = { b.programs.get p with
    admitted := placed.length, held := (b.programs.get p).held + (placed.filter fun o => holdsIn p (b.with_ c o)).length
    gatherTimer := some (b.programs.get p).gatherTimeout }
  going : ¬waits → t.programs.get p = ({ b.programs.get p with
    admitted := placed.length
    held := (b.programs.get p).held + (placed.filter fun o => holdsIn p (b.with_ c o)).length } : Program).goesOn (b.chimes p)
  voice : ¬waits → ∀ q v, (b.programs.get p).chime = some q → b.freeVoice = some v →
    t.tones.voices.get v = { user := .chime p, mode := .starting false, pattern := q }
  quiet : (b.programs.get p).chime = none → t.tones = b.tones
  channel : ∀ d x, desc = some d → (b.programs.get p).source = .stream → b.freeChannel = some x →
    b.inWindow d.first 32 32 = true → (∀ y, (b.channels.get y).owner ≠ some (.program p)) →
      (waits → t.channels.get x = boundTo p d) ∧
      (¬waits → t.channels.get x = if b.chimes p then boundTo p d else (boundTo p d).signalRun)
  lists : t.lists = b.lists
  stations : t.stations = b.stations
  calls : t.calls = b.calls
  alarms : t.alarms = b.alarms
  mixer : t.mixer = b.mixer
  theatre : t.theatre = b.theatre

theorem State.bind_only (s : State) (w : ChanOwner) (d : StreamDesc) (inside : s.inWindow d.first 32 32 = true) :
    ∃ channels, (s.bind w d).2 = { s with channels } := by
  unfold State.bind
  split
  · next x _ =>
    unfold State.bindTo State.toRead
    exact ⟨_, if_pos inside⟩
  · exact ⟨_, rfl⟩

theorem State.launch_launched {b : State} {desc : Option StreamDesc} {c : Claim} {placed : List (Fin 256)} {waits : Prop}
    (inside : ∀ d, desc = some d → b.inWindow d.first 32 32 = true)
    (claim : c = (b.programs.get p).claim p) (is : placed = b.placedOf p) (starts : b.Starts p)
    (once : (b.programs.get p).targets.Nodup) (somewhere : placed ≠ []) (fits : ∀ o ∈ placed, b.Fits p c o)
    (held : (b.programs.get p).held = 0)
    (waits_iff : waits ↔ (b.programs.get p).policy = .all ∧
      (placed.filter fun o => holdsIn p (b.with_ c o)).length ≠ placed.length ∧ (b.programs.get p).gatherTimeout ≠ 0)
    (some_ : (b.programs.get p).policy = .all → (b.programs.get p).gatherTimeout = 0 →
      (placed.filter fun o => holdsIn p (b.with_ c o)) ≠ []) :
    Launched p c placed desc waits b (b.launch p desc) := by
  subst claim
  subst is
  obtain ⟨u, placing, launched⟩ := State.launch_goes desc starts once somewhere fits
  rw [launched]
  obtain ⟨⟨stack, lines, e⟩, stacks_, lined⟩ := placing
  generalize (b.programs.get p).claim p = c at *
  generalize b.placedOf p = placed at *
  have windows (d : StreamDesc) : (u.modProgram p fun pr => { pr with admitted := placed.length }).inWindow d.first 32 32 =
      b.inWindow d.first 32 32 := by rw [e]; rfl
  have slot : (u.modProgram p fun pr => { pr with admitted := placed.length }).programs.get p = { b.programs.get p with
      admitted := placed.length
      held := (b.programs.get p).held + (placed.filter fun o => holdsIn p (b.with_ c o)).length } := by
    rw [e]
    unfold State.modProgram
    dsimp only
    rw [Tab.get_modify_self, Tab.get_modify_self]
  obtain ⟨channels, bound⟩ : ∃ channels, u.intake p placed.length desc =
      { (u.modProgram p fun pr => { pr with admitted := placed.length }) with channels } := by
    unfold State.intake
    cases desc with
    | none => exact ⟨_, rfl⟩
    | some d => exact State.bind_only _ _ d ((windows d).trans (inside d rfl))
  have channel (d : StreamDesc) (x : Fin 16) (stream : desc = some d) (free : b.freeChannel = some x)
      (none_ : ∀ y, (b.channels.get y).owner ≠ some (.program p)) : channels.get x = boundTo p d ∧
      (u.intake p placed.length desc).channelOf (.program p) = some x := by
    have same : (u.modProgram p fun pr => { pr with admitted := placed.length }).channels = b.channels := by rw [e]; rfl
    have free' : (u.modProgram p fun pr => { pr with admitted := placed.length }).freeChannel = some x := by
      unfold State.freeChannel
      rw [same]
      exact free
    have admitted : u.intake p placed.length desc =
        (u.modProgram p fun pr => { pr with admitted := placed.length }).modChannel x fun _ => boundTo p d := by
      unfold State.intake
      rw [stream]
      exact State.bind_of free' ((windows d).trans (inside d stream))
    refine ⟨?_, ?_⟩
    · have := congrArg State.channels (bound.symm.trans admitted)
      rw [show channels = _ from this]
      exact Tab.get_modify_self _ x _
    · rw [admitted]
      exact State.bound_channelOf fun y => same ▸ none_ y
  have progs : (u.intake p placed.length desc).programs.get p = { b.programs.get p with
      admitted := placed.length
      held := (b.programs.get p).held + (placed.filter fun o => holdsIn p (b.with_ c o)).length } := by
    rw [bound]
    exact slot
  have others (q : Fin 64) (ne : q ≠ p) : (u.intake p placed.length desc).programs.get q = b.programs.get q := by
    rw [bound]
    change (u.modProgram p _).programs.get q = _
    rw [State.modProgram_programs, Tab.get_modify_ne _ ne, e]
    exact Tab.get_modify_ne _ ne _
  have gathers : (u.intake p placed.length desc).gathersOn p ↔ waits := by
    unfold State.gathersOn
    rw [progs, waits_iff, held]
    dsimp only
    rw [Nat.zero_add]
  have chimes : (u.intake p placed.length desc).chimes p = b.chimes p := by
    unfold State.chimes
    rw [progs, bound, e]
    rfl
  have voices : (u.intake p placed.length desc).freeVoice = b.freeVoice := by
    rw [bound, e]
    rfl
  have tones : (u.intake p placed.length desc).tones = b.tones := by rw [bound, e]; rfl
  have seats : (u.intake p placed.length desc).claims = u.claims := by rw [bound]; rfl
  have frame : (u.intake p placed.length desc).lists = b.lists ∧ (u.intake p placed.length desc).stations = b.stations ∧
      (u.intake p placed.length desc).calls = b.calls ∧ (u.intake p placed.length desc).alarms = b.alarms ∧
      (u.intake p placed.length desc).mixer = b.mixer ∧ (u.intake p placed.length desc).theatre = b.theatre := by
    rw [bound, e]
    exact ⟨rfl, rfl, rfl, rfl, rfl, rfl⟩
  have claims : u.claims.floors = b.claims.floors ∧ u.claims.arrivals = b.claims.arrivals := by
    rw [e]
    exact ⟨rfl, rfl⟩
  have bounded : (u.intake p placed.length desc).channels = channels := by rw [bound]
  generalize u.intake p placed.length desc = w at *
  obtain ⟨lists, stations, calls, alarms, mixer, theatre⟩ := frame
  by_cases wait : waits
  · rw [State.afterPlacing_waits (gathers.mpr wait)]
    refine ⟨fun o => ?_, fun o => ?_, ?_, ?_, fun q ne => ?_, fun _ => ?_, (absurd wait ·), (absurd wait ·), fun _ => tones,
      fun d x stream _ free _ none_ => ⟨fun _ => ?_, (absurd wait ·)⟩, lists, stations, calls, alarms, mixer, theatre⟩
    · refine Eq.trans ?_ (stacks_ o)
      unfold State.stack
      rw [State.modProgram_claims, seats]
    · rw [State.modProgram_claims, seats, lined]
    · rw [State.modProgram_claims, seats, claims.1]
    · rw [State.modProgram_claims, seats, claims.2]
    · rw [State.modProgram_programs, Tab.get_modify_ne _ ne, others q ne]
    · rw [State.modProgram_programs, Tab.get_modify_self, progs]
    · rw [State.modProgram_channels, bounded]
      exact (channel d x stream free none_).1
  · have goes : GoesOn p w (w.afterPlacing p) := by
      refine State.afterPlacing_goes ?_ ?_ (gathers.not.mpr wait) fun all => ?_
      · rw [progs]
        exact starts.state
      · unfold State.unheld
        rw [theatre, progs]
        exact starts.show_
      · rw [progs, held, Nat.zero_add]
        dsimp only
        intro none_
        have all' : (b.programs.get p).policy = .all := by rwa [progs] at all
        refine wait (waits_iff.mpr ⟨all', ?_, fun zero => ?_⟩)
        · rw [none_]
          exact fun zero => somewhere (List.length_eq_zero_iff.mp zero.symm)
        · exact some_ all' zero (List.length_eq_zero_iff.mp none_)
    obtain ⟨onward, program, voice, quiet, wired⟩ := goes
    generalize w.afterPlacing p = t at *
    rw [progs, chimes] at program
    rw [progs] at voice quiet
    rw [voices] at voice
    rw [progs, chimes] at wired
    obtain ⟨programs, tones', channels', eT, othersT, -⟩ := onward
    refine ⟨fun o => ?_, fun o => ?_, ?_, ?_, fun q ne => ?_, (absurd · wait), fun _ => program, fun _ => voice,
      fun none_ => (quiet none_).trans tones, fun d x stream own free _ none_ => ⟨(absurd · wait), fun _ => ?_⟩, ?_, ?_, ?_, ?_, ?_, ?_⟩
    · refine Eq.trans ?_ (stacks_ o)
      unfold State.stack
      rw [eT, seats]
    · rw [eT, seats, lined]
    · rw [eT, seats, claims.1]
    · rw [eT, seats, claims.2]
    · rw [eT]
      exact (othersT q ne).trans (others q ne)
    · obtain ⟨here, found⟩ := channel d x stream free none_
      rw [wired]
      by_cases sounds : b.chimes p = true
      · rw [if_neg (by simp [sounds]), if_pos sounds, bounded]
        exact here
      · rw [if_pos ⟨Bool.eq_false_iff.mpr sounds, own⟩, if_neg sounds, State.signalOwner_channel, if_pos found, bounded, here]
    · rw [eT, lists]
    · rw [eT, stations]
    · rw [eT, calls]
    · rw [eT, alarms]
    · rw [eT, mixer]
    · rw [eT, theatre]

end

end Sys2Proof.Machine
end

section
/-! PROOF. START_PROGRAM accepted (O27, O28): the record read, and what it makes of the state. -/

open Sys2Proof Sys2Proof.Machine

namespace Sys2Proof.Machine

section
variable {s t : State} {h : Hand} {set : List Byte} {p : Fin 64} {kind : ProgKind} {policy : Policy} {src : Source}
  {chime : Option (Fin 12)}

/-! ### What the readers answer (R36) -/

theorem State.sourceOf_inlet {r : StartRec} {i : Fin 256} (code : r.sourceKind = 0) (show_ : kind ≠ .theatre)
    (number : r.source = i.val) (kinds : s.inlets.get i = .consoleMic ∨ s.inlets.get i = .line) :
    s.sourceOf r kind = some (.inlet i) := by
  unfold State.sourceOf
  rw [code, number]
  refine (if_neg (by simpa using show_)).trans ?_
  rw [toFin?_val]
  refine if_pos ?_
  rcases kinds with e | e <;> simp [e]

theorem State.sourceOf_descriptor {r : StartRec} (code : r.sourceKind = 1) (show_ : kind ≠ .theatre) (good : s.descOk r.desc = true) :
    s.sourceOf r kind = some .stream := by
  unfold State.sourceOf
  rw [code]
  exact if_neg (by simp [show_, good])

theorem State.sourceOf_bus {r : StartRec} {b : Fin 8} (code : r.sourceKind = 2) (show_ : kind = .theatre) (number : r.source = b.val) :
    s.sourceOf r kind = some (.bus b) := by
  unfold State.sourceOf
  rw [code, number, show_]
  refine (if_pos rfl).trans ?_
  rw [toFin?_val]
  rfl

theorem State.chimeOf_unset {n : Nat} (unset : n = 0xFF) : s.chimeOf n = some none := if_pos unset

theorem State.chimeOf_pattern {n : Nat} {q : Fin 12} (number : n = q.val) (defined : (s.tones.patterns.get q).stored ≠ none) :
    s.chimeOf n = some (some q) := by
  unfold State.chimeOf
  rw [if_neg (by omega), number, toFin?_val]
  exact if_pos (Option.isSome_iff_ne_none.mpr defined)

theorem State.descOk_inside {r : RawDesc} (good : s.descOk r = true) : s.inWindow r.first 32 32 = true := by
  by_contra out
  have bad := (s.descOk_eq_false_iff r).mpr (.inr (.inr (.inr (Bool.eq_false_iff.mpr out))))
  rw [good] at bad
  contradiction

/-! ### A record accepted -/

/-- START_PROGRAM in hand, with every check of R36 passed. -/
structure Accepts (s : State) (h : Hand) (set : List Byte) (p : Fin 64) (kind : ProgKind) (policy : Policy) (src : Source)
    (chime : Option (Fin 12)) : Prop where
  inHand : (s.walker .program).stage = .handOver h [set]
  code : h.kind = 0x10
  slot : (startRec h.bytes).slot = p.val
  host : p.val < 59
  kind_ : hostKindOf (startRec h.bytes).kind = some kind
  policy_ : policyOf (startRec h.bytes).policy = some policy
  source : s.sourceOf (startRec h.bytes) kind = some src
  chime_ : s.chimeOf (startRec h.bytes).chime = some chime
  free : (s.programs.get p).state = .free
  unreserved : (s.programs.get p).reservation = none
  below : s.claims.arrivals < 4294967295
  channel : src = .stream → s.freeChannel ≠ none

/-- The clamped fields of an accepted record. -/
abbrev Hand.clamped (h : Hand) (kind : ProgKind) (policy : Policy) : StartClamps := (startRec h.bytes).clamps kind policy

/-- The state in which an accepted program is launched. -/
def State.startsWith (s : State) (h : Hand) (set : List Byte) (p : Fin 64) (kind : ProgKind) (policy : Policy) (src : Source)
    (chime : Option (Fin 12)) : State :=
  s.begun p h (h.clamped kind policy).mark (s.newProgram h (outletSet set) kind policy src chime)

/-- The claim an accepted program places. -/
def State.startClaim (s : State) (h : Hand) (p : Fin 64) (kind : ProgKind) (policy : Policy) : Claim :=
  { owner := .program p, priority := (h.clamped kind policy).priority, arrival := s.claims.arrivals
    duckable := (startRec h.bytes).duckable, allowsUndertone := (startRec h.bytes).allowsUndertone, state := .waiting }

/-- The outlets where it is placed. -/
def State.startPlaced (s : State) (h : Hand) (set : List Byte) (p : Fin 64) (kind : ProgKind) (policy : Policy) : List (Fin 256) :=
  ((outletSet set).filter fun o => (s.outlets.get o).kind.takesClaims).filter (s.tried policy (s.startClaim h p kind policy))

/-- The descriptor an accepted program binds. -/
def Hand.startDesc (h : Hand) (kind : ProgKind) (policy : Policy) (src : Source) : Option StreamDesc :=
  if src == .stream then some (h.clamped kind policy).desc else none

theorem Accepts.runs (ok : Accepts s h set p kind policy src chime) : exec .startProgram s =
    .next (((s.startsWith h set p kind policy src chime).launch p (h.startDesc kind policy src)).arbitrate) := by
  rw [exec_startProgram_of ok.inHand ok.code,
    State.startRecord_of ok.slot ok.host ok.kind_ ok.policy_ ok.source ok.chime_, if_neg (by simp [ok.free, ok.unreserved]),
    if_neg, State.startHost_eq ok.below]
  · rfl
  · by_cases stream : src = .stream
    · simp [ok.channel stream]
    · simp [stream]

theorem Accepts.untouched (ok : Accepts s h set p kind policy src chime) : Untouched s
    ((s.startsWith h set p kind policy src chime).launch p (h.startDesc kind policy src)).arbitrate := by
  have acts := State.startHost_acts (Acts.refl s) p h (outletSet set) kind policy src chime ok.host ok.free
  rw [State.startHost_eq ok.below] at acts
  exact acts.toUntouched.trans (State.arbitrate_untouched _)

theorem Accepts.program (ok : Accepts s h set p kind policy src chime) : (s.startsWith h set p kind policy src chime).programs.get p =
    s.newProgram h (outletSet set) kind policy src chime := have := ok; State.begun_program

theorem Accepts.placed (ok : Accepts s h set p kind policy src chime) :
    (s.startsWith h set p kind policy src chime).placedOf p = s.startPlaced h set p kind policy := by
  unfold State.placedOf
  rw [ok.program]
  rfl

/-- A program with no claim placed: NO_TARGET within its take (R38, R17). -/
theorem Accepts.turned (ok : Accepts s h set p kind policy src chime) (nowhere : s.startPlaced h set p kind policy = [])
    (absent : ∀ o, hasOwner (.program p) (s.stack o) = false) (waits : s.takenGranted .program h.addr = false) :
    ∃ t, exec .startProgram s = .next t ∧ Untouched s t ∧ (t.programs.get p).state = .free ∧
      (t.walker .program).stage = .returnWrite h
        { record := h.ref (h.clamped kind policy).mark, status := marked 0x15 (h.clamped kind policy).mark
          results := [(44, [0]), (46, [0, 0]), (48, bytes4 s.time.toNat)] } false ∧
      ∀ o, t.stack o = s.stack o := by
  refine ⟨_, ok.runs, ok.untouched, ?_⟩
  rw [State.launch_nowhere _ (ok.placed.trans nowhere)]
  have slot : ((s.startsWith h set p kind policy src chime).modProgram p fun pr => { pr with admitted := 0 }).programs.get p =
      s.newProgram h (outletSet set) kind policy src chime := by
    rw [State.modProgram_programs, Tab.get_modify_self, ok.program]
    rfl
  have unclaimed (o : Fin 256) : hasOwner (.program p) (((s.startsWith h set p kind policy src chime).modProgram p fun pr =>
      { pr with admitted := 0 }).stack o) = false := absent o
  have busy : (((s.startsWith h set p kind policy src chime).modProgram p fun pr => { pr with admitted := 0 }).programs.get
      p).state ≠ .free := by
    rw [slot]
    nofun
  refine ⟨?_, ?_, fun o => ?_⟩
  · rw [State.arbitrate_programs]
    exact (State.endProgram_ended busy stNoTarget).free
  · unfold State.walker
    rw [State.arbitrate_walkers]
    refine (State.endProgram_withdraws (mark := (h.clamped kind policy).mark) stNoTarget busy unclaimed ?_ ?_ waits).trans ?_
    · exact State.begun_stage (p := p) (new := s.newProgram h (outletSet set) kind policy src chime)
    · rw [slot]
      rfl
    · have none_ : bytes2 0 = [0, 0] := by decide
      have unskipped : bytes1 0 = [0] := by decide
      rw [slot, ← none_, ← unskipped]
      rfl
  · unfold State.stack
    rw [State.arbitrate_claims]
    exact State.endProgram_stack stNoTarget (unclaimed o)

/-- A program that waits for the rest of its outlets (R40). -/
def State.startWaits (s : State) (h : Hand) (set : List Byte) (p : Fin 64) (kind : ProgKind) (policy : Policy) : Prop :=
  policy = .all ∧ (s.startPlaced h set p kind policy).filter (fun o => holdsIn p (s.with_ (s.startClaim h p kind policy) o)) ≠
    s.startPlaced h set p kind policy ∧ (h.clamped kind policy).gatherTimeout ≠ 0

theorem filter_length_ne {α : Type} (xs : List α) (f : α → Bool) : (xs.filter f).length ≠ xs.length ↔ xs.filter f ≠ xs := by
  refine not_congr ⟨fun same => ?_, fun same => congrArg List.length same⟩
  exact List.filter_sublist.eq_of_length same

/-- What an accepted program with a claim placed has made of the state. -/
theorem Accepts.launched (ok : Accepts s h set p kind policy src chime) (somewhere : s.startPlaced h set p kind policy ≠ [])
    (show_ : kind = .theatre → s.theatre.state ≠ .held)
    (fits : ∀ o ∈ s.startPlaced h set p kind policy, s.Fits p (s.startClaim h p kind policy) o)
    (some_ : ¬(policy = .all ∧ (h.clamped kind policy).gatherTimeout = 0 ∧
      (s.startPlaced h set p kind policy).filter (fun o => holdsIn p (s.with_ (s.startClaim h p kind policy) o)) = [])) :
    Launched p (s.startClaim h p kind policy) (s.startPlaced h set p kind policy) (h.startDesc kind policy src)
      (s.startWaits h set p kind policy) (s.startsWith h set p kind policy src chime)
      ((s.startsWith h set p kind policy src chime).launch p (h.startDesc kind policy src)) := by
  have program := ok.program
  refine State.launch_launched (fun d desc => ?_) ?_ ok.placed.symm ⟨?_, ?_, ?_⟩ ?_ somewhere
    (fun o mem => ⟨(fits o mem).takes, (fits o mem).absent, (fits o mem).room, (fits o mem).moves⟩) ?_ ?_ ?_
  · unfold Hand.startDesc at desc
    split at desc
    · next stream =>
      obtain rfl := Option.some.inj desc
      have reads := ok.source
      rw [beq_iff_eq.mp stream] at reads
      refine State.descOk_inside (s := s) (r := (startRec h.bytes).desc) ?_
      have one := State.sourceOf_stream reads
      by_contra bad
      have refused := (s.sourceOf_eq_none_iff (startRec h.bytes) kind).mpr
        (.inr (.inr (.inl ⟨one, .inr (Bool.eq_false_iff.mpr bad)⟩)))
      rw [reads] at refused
      contradiction
    · contradiction
  · rw [program]
    rfl
  · rw [program]
    rfl
  · rw [program]
    rfl
  · unfold State.unheld
    rw [program]
    exact show_
  · rw [program]
    exact ((allFin_nodup 256).filter _).filter _
  · rw [program]
    rfl
  · rw [program]
    unfold State.startWaits
    rw [← filter_length_ne]
    rfl
  · rw [program]
    exact fun all zero empty => some_ ⟨all, zero, empty⟩

end

end Sys2Proof.Machine
end

section
/-! PROOF. START_PROGRAM accepted: the statements (O27, O28). -/

open Sys2Proof Sys2Proof.Machine

namespace Sys2Proof.Machine

section
variable {s t : State} {h : Hand} {set : List Byte} {p : Fin 64} {kind : ProgKind} {policy : Policy} {src : Source}
  {chime : Option (Fin 12)}

/-- The TAKEN write of an accepted record waits (R17). -/
theorem Accepts.taken {c : Claim} {placed : List (Fin 256)} {desc : Option StreamDesc} {waits : Prop}
    (left : Launched p c placed desc waits (s.startsWith h set p kind policy src chime) t) :
    (t.arbitrate.walker .program).stage = .takenWrite h (h.clamped kind policy).mark := by
  unfold State.walker
  rw [State.arbitrate_walkers, left.lists]
  exact State.begun_stage (p := p) (new := s.newProgram h (outletSet set) kind policy src chime)

/-- The only claim of a stack. -/
theorem nameStack_single (floor : Nat) (c : Claim) :
    nameStack floor [c] = [{ c with state := if c.eligible floor then .holding else .locked }] := by
  unfold nameStack
  split <;> rfl

theorem holderIn_single (c : Claim) : holderIn [c] = if c.state = .holding then some c else none := by
  unfold holderIn
  by_cases holds : c.state = .holding <;> simp [holds]

/-- A host program's claim is eligible at the floor or above. -/
theorem State.startClaim_eligible (host : p.val < 59) (floor : Nat) :
    (s.startClaim h p kind policy).eligible floor = decide (floor ≤ (h.clamped kind policy).priority) := by
  have low : (s.startClaim h p kind policy).owner.isAlarm = false := by
    unfold State.startClaim Owner.isAlarm
    simp
    omega
  unfold Claim.eligible
  rw [low, Bool.or_false]
  rfl

theorem State.arbitrate_stack (s : State) (o : Fin 256) : s.arbitrate.stack o = s.stack o := by
  unfold State.stack
  rw [State.arbitrate_claims]

end

end Sys2Proof.Machine

/-- Settles O28. -/
theorem startPlacement : Obligations.StartPlacement := by
  unfold Obligations.StartPlacement
  intro s h set p kind policy src chime r k c targets placed named holds held inHand code slot host kindIs policyIs source
    chimeIs free unreserved below absent waiting
  have sourced : s.sourceOf r kind = some src := by
    rcases source with ⟨zero, show_, i, number, rfl, kinds⟩ | ⟨one, show_, rfl, good, -⟩ | ⟨two, show_, b, number, rfl⟩
    · exact State.sourceOf_inlet zero show_ number kinds
    · exact State.sourceOf_descriptor one show_ good
    · exact State.sourceOf_bus two show_ number
  have chimed : s.chimeOf r.chime = some chime := by
    rcases chimeIs with ⟨unset, rfl⟩ | ⟨q, number, rfl, defined⟩
    · exact State.chimeOf_unset unset
    · exact State.chimeOf_pattern number defined
  have channel (stream : src = .stream) : s.freeChannel ≠ none := by
    rcases source with ⟨-, -, i, -, rfl, -⟩ | ⟨-, -, -, -, some_⟩ | ⟨-, -, b, -, rfl⟩
    · contradiction
    · exact some_
    · contradiction
  have ok : Accepts s h set p kind policy src chime :=
    ⟨inHand, code, slot, host, kindIs, policyIs, sourced, chimed, free, unreserved, below, channel⟩
  refine ⟨fun nowhere => ok.turned nowhere absent waiting, fun somewhere show_ room moves some_ => ?_⟩
  intro waits sounds
  have left := ok.launched somewhere (fun _ => show_) (fun o mem => ⟨?_, absent o, room o mem, moves o mem⟩) some_
  · have same : waits ↔ s.startWaits h set p kind policy := by
      unfold State.startWaits
      exact ⟨fun ⟨all, short, time⟩ => ⟨all, short, time⟩, fun ⟨all, short, time⟩ => ⟨all, short, time⟩⟩
    have program := ok.program
    have chimes : (s.startsWith h set p kind policy src chime).chimes p = true ↔ ∃ q v, chime = some q ∧ s.freeVoice = some v := by
      rw [State.chimes_iff, program]
      rfl
    have others (q : Fin 64) (ne : q ≠ p) : (s.startsWith h set p kind policy src chime).programs.get q = s.programs.get q :=
      Tab.get_modify_ne _ ne _
    refine ⟨_, ok.runs, ok.untouched, Accepts.taken left, fun o => ?_, ?_, ?_, fun o out => ?_, fun q ne => ?_, ?_,
      fun q v going some_chime voice => ?_, fun x stream bound none_ => ?_, ?_, ?_, ?_, ?_, ?_⟩
    · rw [State.arbitrate_stack]
      exact left.stack o
    · rw [State.arbitrate_claims]
      exact left.floors
    · rw [State.arbitrate_claims]
      exact left.arrivals
    · rw [State.arbitrate_claims]
      exact (left.line o).trans (if_neg out)
    · rw [State.arbitrate_programs]
      exact (left.others q ne).trans (others q ne)
    · rw [State.arbitrate_programs]
      by_cases wait : waits
      · rw [left.waiting (same.mp wait), program]
        simp only [if_pos wait, wait, true_or, not_true, false_and, decide_false, if_true]
        unfold State.newProgram
        dsimp only
        rw [Nat.zero_add]
        rfl
      · rw [left.going (same.not.mp wait), program]
        simp only [if_neg wait, wait, not_false_eq_true, true_and, false_or]
        by_cases sound : ∃ q v, chime = some q ∧ s.freeVoice = some v
        · have sounded : sounds := ⟨wait, sound⟩
          rw [chimes.mpr sound]
          simp only [if_pos sounded, sounded, true_or, if_true, not_true, false_and, decide_false]
          unfold State.newProgram Program.goesOn
          dsimp only
          rw [Nat.zero_add]
          rfl
        · have mute : ¬sounds := fun sounded => sound sounded.2
          rw [Bool.eq_false_iff.mpr (chimes.not.mpr sound)]
          simp only [if_neg mute, mute, false_or, not_false_eq_true, true_and]
          unfold State.newProgram Program.goesOn Program.plays Program.startDuration
          dsimp only
          rw [Nat.zero_add]
          cases chime <;> rfl
    · rw [State.arbitrate_tones]
      refine left.voice (same.not.mp going) q v ?_ voice
      rw [program]
      exact some_chime
    · subst stream
      rw [State.arbitrate_channel]
      have reads := sourced
      obtain ⟨waiting_, going⟩ := left.channel k.desc x rfl (by rw [program]; rfl) bound
        (State.descOk_inside (s := s) (r := r.desc) (by
          rcases source with ⟨-, -, i, -, e, -⟩ | ⟨-, -, -, good, -⟩ | ⟨-, -, b, -, e⟩
          · exact nomatch e
          · exact good
          · exact nomatch e)) none_
      have passes : passesFor (.program p) k.desc = if k.desc.repeats then k.desc.count else 1 := by
        unfold passesFor
        dsimp only
        cases k.desc.repeats <;> simp
        omega
      by_cases wait : waits
      · rw [waiting_ (same.mp wait)]
        simp only [wait, not_true, false_and, decide_false]
        unfold boundTo
        rw [passes]
      · rw [going (same.not.mp wait)]
        by_cases sound : ∃ q v, chime = some q ∧ s.freeVoice = some v
        · have sounded : sounds := ⟨wait, sound⟩
          rw [if_pos (chimes.mpr sound)]
          simp only [sounded, not_true, and_false, decide_false]
          unfold boundTo
          rw [passes]
        · have mute : ¬sounds := fun sounded => sound sounded.2
          rw [if_neg (chimes.not.mpr sound)]
          simp only [wait, mute, not_false_eq_true, and_self, decide_true]
          unfold boundTo Channel.signalRun
          dsimp only
          rw [passes]
    · rw [State.arbitrate_stations]
      exact left.stations
    · rw [State.arbitrate_calls]
      exact left.calls
    · rw [State.arbitrate_alarms]
      exact left.alarms
    · rw [State.arbitrate_mixer]
      exact left.mixer
    · rw [State.arbitrate_theatre]
      exact left.theatre
  · exact (List.mem_filter.mp (List.mem_filter.mp mem).1).2

/-- Settles O27. -/
theorem startProgram : Obligations.StartProgram := by
  unfold Obligations.StartProgram
  intro s h set p i kind r k new inHand code slot host kindIs policyIs sourceKind number kinds unset free unreserved below
  have kindOf : hostKindOf r.kind = some kind ∧ kind ≠ .theatre := by
    rcases kindIs with ⟨e, rfl⟩ | ⟨e, rfl⟩ <;> rw [e] <;> exact ⟨rfl, nofun⟩
  obtain ⟨hosted, unshown⟩ := kindOf
  have ok : Accepts s h set p kind .now (.inlet i) none :=
    ⟨inHand, code, slot, host, hosted, by rw [show (startRec h.bytes).policy = 0 from policyIs]; rfl,
      State.sourceOf_inlet sourceKind unshown number kinds, State.chimeOf_unset unset, free, unreserved, below, nofun⟩
  refine ⟨?_, ?_, fun nowhere absent waiting => ok.turned ?_ absent waiting, fun o only empty => ?_⟩
  · rcases kindIs with ⟨-, rfl⟩ | ⟨-, rfl⟩
    · exact congrArg Prod.fst (clampMark_eq (x := r.priority) (by decide : 4 ≤ 11))
    · exact congrArg Prod.fst (clampMark_zero r.priority 1)
  · change (if r.maxDuration = 0 then (0, false) else clampMark r.maxDuration 100 3600000).1 = _
    rw [clampMark_eq (by decide)]
    split <;> rfl
  · have none_ : ((outletSet set).filter fun o => (s.outlets.get o).kind.takesClaims) = [] :=
      List.filter_eq_nil_iff.mpr fun o mem => by
        rw [(OutletKind.takesClaims_eq_false_iff _).mpr (nowhere o mem)]
        nofun
    unfold State.startPlaced
    rw [none_]
    rfl
  · intro holds c
    have single : s.startPlaced h set p kind .now = [o] := by
      unfold State.startPlaced
      rw [only]
      rfl
    have takes : (s.outlets.get o).kind.takesClaims = true :=
      (List.mem_filter.mp (only ▸ List.mem_singleton_self o : o ∈ (outletSet set).filter fun x =>
        (s.outlets.get x).kind.takesClaims)).2
    have named : s.with_ (s.startClaim h p kind .now) o = [c] := by
      unfold State.with_
      rw [empty]
      change nameStack (s.lockFloor o) [s.startClaim h p kind .now] = _
      rw [nameStack_single, State.startClaim_eligible host]
      rfl
    have first : holderIn [c] = if holds then some c else none := by
      rw [holderIn_single]
      refine if_congr ?_ rfl rfl
      by_cases up : holds = true <;> simp [c, up]
    have wins : holdsIn p (s.with_ (s.startClaim h p kind .now) o) = holds := by
      unfold holdsIn
      rw [named, first]
      by_cases up : holds = true <;> simp [c, up]
    have made := ok.launched (by rw [single]; nofun) (absurd · unshown) (fun x mem => ?_) (fun ⟨now, _⟩ => nomatch now)
    · have still : ¬s.startWaits h set p kind .now := fun ⟨now, _⟩ => nomatch now
      have mute : (s.startsWith h set p kind .now (.inlet i) none).chimes p = false := by
        unfold State.chimes
        rw [ok.program]
        rfl
      have program := made.going still
      rw [ok.program, mute] at program
      have under : (s.startsWith h set p kind .now (.inlet i) none).with_ (s.startClaim h p kind .now) o = [c] := named
      rw [single] at made program
      refine ⟨_, ok.runs, ok.untouched, ?_, ?_, ?_, ?_, ?_, Accepts.taken made, ?_, ?_, ?_, ?_, ?_, ?_⟩
      · rw [State.arbitrate_programs]
        refine Tab.ext_get fun q => ?_
        rw [Tab.get_set]
        by_cases same : q = p
        · rw [if_pos same, same, program]
          have count : ([o].filter fun x => holdsIn p ((s.startsWith h set p kind .now (.inlet i) none).with_
              (s.startClaim h p kind .now) x)).length = if holds then 1 else 0 := by
            rw [List.filter_cons, show holdsIn p ((s.startsWith h set p kind .now (.inlet i) none).with_
              (s.startClaim h p kind .now) o) = holds from wins]
            split <;> rfl
          rw [count]
          unfold Program.goesOn Program.plays Program.startDuration State.newProgram
          rw [only]
          dsimp only
          rw [Nat.zero_add]
          rfl
        · rw [if_neg same]
          exact (made.others q same).trans (Tab.get_modify_ne _ same _)
      · rw [State.arbitrate_claims]
        refine Tab.ext_get fun x => (made.stack x).trans ?_
        rw [Tab.get_set]
        by_cases same : x = o
        · rw [if_pos (List.mem_singleton.mpr same), if_pos same, same, under]
        · rw [if_neg (by simpa using same), if_neg same]
          rfl
      · rw [State.arbitrate_claims, made.arrivals]
        rfl
      · rw [State.arbitrate_claims, made.floors]
        rfl
      · rw [State.arbitrate_claims]
        refine Tab.ext_get fun x => (made.line x).trans ?_
        rw [Tab.get_set]
        by_cases same : x = o
        · rw [if_pos (List.mem_singleton.mpr same), if_pos same, same, under]
          unfold State.lineUnder
          rw [first]
          by_cases up : holds = true
          · rw [if_pos up, up]
            rfl
          · rw [if_neg up, Bool.eq_false_iff.mpr up]
            exact Bool.and_false _
        · rw [if_neg (by simpa using same), if_neg same]
          rfl
      · rw [State.arbitrate_stations]
        exact made.stations
      · rw [State.arbitrate_calls]
        exact made.calls
      · rw [State.arbitrate_tones, made.quiet (by rw [ok.program]; rfl)]
        rfl
      · rw [State.arbitrate_alarms]
        exact made.alarms
      · rw [State.arbitrate_mixer]
        exact made.mixer
      · rw [State.arbitrate_theatre]
        exact made.theatre
    · rw [single, List.mem_singleton] at mem
      cases mem
      refine ⟨takes, by rw [empty]; rfl, by rw [empty]; decide, ?_⟩
      have nobody : s.holder o = none := by
        unfold State.holder
        rw [empty]
        rfl
      by_cases up : holds = true
      · exact .inr ⟨nobody, wins.trans up⟩
      · left
        rw [named, first, nobody, if_neg up]

end

section
/-! PROOF. The voice and the channel that an alarm asks for (R137, R109): whom it takes them from, and what that leaves. -/

open Sys2Proof Sys2Proof.Machine

namespace Sys2Proof.Machine

/-! ### A program's channel, seen from the acts of others -/

section
variable {g : Fin 64} {c : Fin 16} {ch : Channel} {s : State}

/-- Program `g`, past its gathering, has channel `c`. -/
def State.Rests (g : Fin 64) (c : Fin 16) (ch : Channel) (s : State) : Prop :=
  ch.owner = some (.program g) ∧ s.channels.get c = ch ∧ (s.programs.get g).state ≠ .gathering

theorem State.Rests.same {t : State} (rests : s.Rests g c ch) (programs : t.programs = s.programs)
    (channels : t.channels = s.channels) : t.Rests g c ch := by
  obtain ⟨own, here, settled⟩ := rests
  exact ⟨own, channels ▸ here, programs ▸ settled⟩

theorem State.emitNote_rests (rests : s.Rests g c ch) (n : NoteKind) (code subject detail : Nat) :
    (s.emitNote n code subject detail).Rests g c ch :=
  rests.same (State.emitNote_programs ..) (State.emitNote_channels ..)

theorem State.modTheatre_rests (rests : s.Rests g c ch) (f : Theatre → Theatre) : (s.modTheatre f).Rests g c ch :=
  rests.same rfl rfl

theorem State.evalLine_rests (rests : s.Rests g c ch) (o : Fin 256) : (s.evalLine o).Rests g c ch := rests.same rfl rfl

theorem State.setStack_rests (rests : s.Rests g c ch) (o : Fin 256) (cs : List Claim) : (s.setStack o cs).Rests g c ch :=
  rests.same rfl rfl

theorem State.signalOwner_rests (rests : s.Rests g c ch) {w : ChanOwner} (other : w ≠ .program g) (f : Channel → Channel) :
    (s.signalOwner w f).Rests g c ch := by
  obtain ⟨own, here, settled⟩ := rests
  refine ⟨own, ?_, ?_⟩
  · rw [State.signalOwner_channel, if_neg fun found => ?_, here]
    have owner := State.channelOf_owner found
    rw [here, own] at owner
    exact other (Option.some.inj owner).symm
  · obtain ⟨_, e⟩ := s.signalOwner_only w f
    rw [e]
    exact settled

theorem State.signalSources_rests (rests : s.Rests g c ch) (f : Channel → Channel) : (s.signalSources f).Rests g c ch := by
  unfold State.signalSources
  generalize allFin 16 = xs
  induction xs generalizing s with
  | nil => exact rests
  | cons x xs ih =>
    rw [State.forAll_cons]
    exact ih (State.signalOwner_rests rests (w := .source x) nofun f)

theorem State.modProgram_rests (rests : s.Rests g c ch) (p : Fin 64) {f : Program → Program}
    (settles : p = g → (f (s.programs.get g)).state ≠ .gathering) : (s.modProgram p f).Rests g c ch := by
  obtain ⟨own, here, settled⟩ := rests
  refine ⟨own, here, ?_⟩
  rw [State.modProgram_programs, Tab.get_modify]
  split
  · next same =>
    subst same
    exact settles rfl
  · exact settled

theorem State.showsTo_rests (rests : s.Rests g c ch) {f : Program → Program}
    (settles : ∀ x : Program, x.state ≠ .gathering → (f x).state ≠ .gathering) : (s.showsTo f).Rests g c ch := by
  obtain ⟨own, here, settled⟩ := rests
  refine ⟨own, here, ?_⟩
  unfold State.showsTo
  dsimp only
  rw [Tab.get_map]
  split
  · exact settles _ settled
  · exact settled

theorem Program.onHold_settled (x : Program) (settled : x.state ≠ .gathering) : x.onHold.state ≠ .gathering := by
  unfold Program.onHold
  split
  · nofun
  · exact settled

theorem Program.offHold_settled (x : Program) (settled : x.state ≠ .gathering) : x.offHold.state ≠ .gathering := by
  unfold Program.offHold Program.startDuration
  split
  · dsimp only
    split <;> nofun
  · exact settled

theorem State.enterHeld_rests (rests : s.Rests g c ch) (r : HoldRecord) : (s.enterHeld r).Rests g c ch := by
  rw [State.enterHeld_eq]
  exact State.showsTo_rests (State.signalSources_rests (State.modTheatre_rests rests _) _) Program.onHold_settled

theorem State.resumeTest_rests (rests : s.Rests g c ch) : s.resumeTest.Rests g c ch := by
  by_cases met : ∃ r, s.theatre.hold = some r ∧ s.resumes r
  · obtain ⟨r, held, met⟩ := met
    rw [State.resumeTest_of held met, State.resumeShow_eq s 0 held]
    exact State.emitNote_rests (State.showsTo_rests (State.signalSources_rests (State.modTheatre_rests rests _) _)
      Program.offHold_settled) _ _ _ _
  · rwa [State.resumeTest_not fun r held met' => met ⟨r, held, met'⟩]

theorem State.reportDisplaced_rests (rests : s.Rests g c ch) (o : Fin 256) (old new : Option Claim) :
    (s.reportDisplaced o old new).Rests g c ch := by
  have shown (p : Fin 64) : (s.displaced p o).Rests g c ch := by
    unfold State.displaced
    split
    · exact rests
    · dsimp only
      have held (r : HoldRecord) (n : Nat) : ((s.enterHeld r).emitNote .showState 1 p.val n).Rests g c ch :=
        State.emitNote_rests (State.enterHeld_rests rests r) .showState 1 p.val n
      exact held _ _
  unfold State.reportDisplaced
  split
  · dsimp only
    split
    · exact shown _
    · exact rests
  · exact rests

theorem State.enterPlaying_rests (rests : s.Rests g c ch) {q : Fin 64} (other : q ≠ g) : (s.enterPlaying q).Rests g c ch := by
  unfold State.enterPlaying
  dsimp only
  split
  · exact State.modProgram_rests rests q (absurd · other)
  · split
    · exact State.signalOwner_rests (State.modProgram_rests rests q (absurd · other))
        (fun same => other (ChanOwner.program.inj same)) _
    · exact State.modProgram_rests rests q (absurd · other)

theorem State.chimeStep_rests (rests : s.Rests g c ch) {q : Fin 64} (other : q ≠ g) : (s.chimeStep q).Rests g c ch := by
  unfold State.chimeStep
  split
  · exact State.enterPlaying_rests rests other
  · split
    · next v _ =>
      obtain ⟨tones, e⟩ := s.giveVoice_only v (.chime q) _
      rw [e]
      exact State.modProgram_rests (rests.same (t := { s with tones }) rfl rfl) q (absurd · other)
    · exact State.enterPlaying_rests (State.modProgram_rests rests q (absurd · other)) other

theorem State.gatherTest_rests (rests : s.Rests g c ch) (q : Fin 64) : (s.gatherTest q).Rests g c ch := by
  unfold State.gatherTest
  dsimp only
  split
  · next test =>
    refine State.chimeStep_rests rests fun same => ?_
    obtain ⟨-, -, settled⟩ := rests
    simp only [Bool.and_eq_true, beq_iff_eq] at test
    exact settled (same ▸ test.1.1)
  · exact rests

theorem State.gatherTestOf_rests (rests : s.Rests g c ch) (d : Option Claim) : (s.gatherTestOf d).Rests g c ch := by
  unfold State.gatherTestOf
  split
  · exact State.gatherTest_rests rests _
  · exact rests

theorem State.countHeld_rests (rests : s.Rests g c ch) (d : Option Claim) (f : Nat → Nat) : (s.countHeld d f).Rests g c ch := by
  unfold State.countHeld
  split
  · exact State.modProgram_rests rests _ fun _ => rests.2.2
  · exact rests

theorem State.restack_rests (rests : s.Rests g c ch) (o : Fin 256) (cs : List Claim) : (s.restack o cs).Rests g c ch := by
  by_cases same : (s.holder o).map (·.owner) = (s.newHolder o cs).map (·.owner)
  · rw [State.restack_same same]
    exact State.evalLine_rests (State.setStack_rests rests o _) o
  · have counted : (s.counted o cs).Rests g c ch :=
      State.countHeld_rests (State.countHeld_rests (State.setStack_rests rests o _) _ _) _ _
    have named : ((s.renamed o cs).reportDisplaced o (s.holder o) (s.newHolder o cs)).Rests g c ch := by
      exact State.reportDisplaced_rests (State.evalLine_rests (State.gatherTestOf_rests (State.gatherTestOf_rests counted _) _) o) _ _ _
    rw [State.restack_moved same]
    dsimp only
    split
    · exact State.resumeTest_rests named
    · exact named

theorem State.removeAll_rests (rests : s.Rests g c ch) (w : Owner) : (s.removeAll w).Rests g c ch := by
  unfold State.removeAll
  generalize allFin 256 = xs
  induction xs generalizing s with
  | nil => exact rests
  | cons x xs ih =>
    rw [State.forAll_cons]
    refine ih ?_
    unfold State.removeClaim
    split
    · exact State.restack_rests rests x _
    · exact rests

theorem State.leaveHoldSet_rests (rests : s.Rests g c ch) (p : Fin 64) : (s.leaveHoldSet p).Rests g c ch := by
  unfold State.leaveHoldSet
  split
  · split
    · exact State.resumeTest_rests (State.modTheatre_rests rests _)
    · exact rests
  · exact rests

/-- The end of another program leaves the channel as it is. -/
theorem State.endProgram_rests (rests : s.Rests g c ch) {p : Fin 64} (other : p ≠ g) (code : Nat) :
    (s.endProgram p code).Rests g c ch := by
  by_cases free : (s.programs.get p).state = .free
  · rwa [State.endProgram, if_pos (beq_iff_eq.mpr free)]
  · obtain ⟨a, b, ha, hb, e⟩ := State.endProgram_eq free code
    have removed := State.removeAll_rests rests (.program p)
    have first : a.Rests g c ch := by
      rw [ha]
      generalize s.removeAll (.program p) = r at removed
      obtain ⟨tones, voices⟩ := r.releaseVoice_tones (.chime p)
      rw [voices]
      obtain ⟨own, here, settled⟩ := removed
      refine ⟨own, ?_, ?_⟩
      · rw [State.releaseChannel_other _ fun found => ?_]
        · exact here
        · have owner := State.channelOf_owner found
          rw [show ({ r with tones } : State).channels.get c = ch from here, own] at owner
          exact other (ChanOwner.program.inj (Option.some.inj owner)).symm
      · rw [State.releaseChannel_programs]
        exact settled
    have last : b.Rests g c ch :=
      hb ▸ State.leaveHoldSet_rests (State.modProgram_rests first p (absurd · other)) p
    rw [e]
    split
    · obtain ⟨lists, only⟩ := b.requestReturn_only .program _
      rw [only]
      exact last.same rfl rfl
    · unfold State.reportPageEnd
      split
      · dsimp only
        split
        · exact last.same rfl rfl
        · exact last
      · exact last

end

/-! ### A transfer whose result is discarded -/

section
variable {s : State}

/-- A discarded transfer stays discarded. -/
theorem State.discardTransfer_discarded {c : Fin 16} {x : Xfer} (granted : s.port.grant = some ⟨.channel c x, true⟩)
    (d : Fin 16) (keep : Bool) : (s.discardTransfer d keep).port.grant = some ⟨.channel c x, true⟩ := by
  unfold State.discardTransfer
  rw [granted]
  dsimp only
  split
  · rfl
  · exact granted

theorem State.endProgram_discarded {c : Fin 16} {x : Xfer} (granted : s.port.grant = some ⟨.channel c x, true⟩)
    (p : Fin 64) (code : Nat) : (s.endProgram p code).port.grant = some ⟨.channel c x, true⟩ := by
  by_cases free : (s.programs.get p).state = .free
  · rwa [State.endProgram, if_pos (beq_iff_eq.mpr free)]
  · obtain ⟨a, b, ha, hb, e⟩ := State.endProgram_eq free code
    have first : a.port.grant = some ⟨.channel c x, true⟩ := by
      have removed : (s.removeAll (.program p)).port.grant = some ⟨.channel c x, true⟩ := by
        rw [State.removeAll_port]
        exact granted
      rw [ha]
      generalize s.removeAll (.program p) = r at removed
      obtain ⟨tones, voices⟩ := r.releaseVoice_tones (.chime p)
      rw [voices]
      unfold State.releaseChannel
      split
      · dsimp only
        split
        · exact removed
        · rw [State.enterEnded_port]
          exact State.discardTransfer_discarded (s := { r with tones }) removed _ true
      · exact removed
    have last : b.port.grant = some ⟨.channel c x, true⟩ := by
      rw [hb, State.leaveHoldSet_port]
      exact first
    rw [e]
    split
    · rw [State.requestReturn_port]
      exact last
    · unfold State.reportPageEnd
      split
      · dsimp only
        split <;> exact last
      · exact last

/-! ### The voice an alarm asks for (R137) -/

/-- The taken voice. -/
theorem State.giveVoice_voices (s : State) (v : Fin 8) (u : VoiceUser) (q : Fin 12) :
    (s.giveVoice v u q).tones.voices = s.tones.voices.set v { user := u, mode := .starting false, pattern := q } := by
  have still : (s.leaveOwing v).tones.voices = s.tones.voices := by
    unfold State.leaveOwing
    dsimp only
    split <;> rfl
  unfold State.giveVoice
  rw [State.modVoice_tones]
  dsimp only
  rw [still]
  exact Tab.ext_get fun w => by rw [Tab.get_modify, Tab.get_set]

theorem State.giveVoice_programs' (s : State) (v : Fin 8) (u : VoiceUser) (q : Fin 12) :
    (s.giveVoice v u q).programs = s.programs ∧ (s.giveVoice v u q).theatre = s.theatre := by
  obtain ⟨tones, e⟩ := s.giveVoice_tones v u q
  rw [e]
  exact ⟨rfl, rfl⟩

theorem State.voiceOf_some {u : VoiceUser} {v : Fin 8} (here : (s.tones.voices.get v).user = u)
    (first : ∀ w < v, (s.tones.voices.get w).user ≠ u) : s.voiceOf u = some v := by
  unfold State.voiceOf
  exact find?_lowest (allFin_rising 8) (mem_allFin v) (by simpa using here) fun w _ lt => by simpa using first w lt

theorem State.voiceOf_none {u : VoiceUser} (nowhere : ∀ v, (s.tones.voices.get v).user ≠ u) : s.voiceOf u = none := by
  unfold State.voiceOf
  exact List.find?_eq_none.mpr fun v _ => by simpa using nowhere v

/-- The chime that sounds on a voice. -/
def State.chimeOn (s : State) (v : Fin 8) : Option (Fin 8 × Fin 64) :=
  match (s.tones.voices.get v).user with
  | .chime p => some (v, p)
  | _ => none

theorem State.chimeOn_iff (s : State) (v w : Fin 8) (p : Fin 64) :
    s.chimeOn v = some (w, p) ↔ v = w ∧ (s.tones.voices.get v).user = .chime p := by
  unfold State.chimeOn
  cases (s.tones.voices.get v).user <;> simp

/-- Of two chimes, the one that is taken first. -/
def State.worseChime (s : State) (best : Option (Fin 8 × Fin 64)) (x : Fin 8 × Fin 64) : Option (Fin 8 × Fin 64) :=
  match best with
  | none => some x
  | some b => if (s.programs.get x.2).priority ≤ (s.programs.get b.2).priority then some x else best

theorem State.chimeVictim_eq (s : State) : s.chimeVictim = ((allFin 8).filterMap s.chimeOn).foldl s.worseChime none := by
  rw [List.foldl_filterMap]
  unfold State.chimeVictim
  congr 1
  funext best v
  unfold State.chimeOn
  cases (s.tones.voices.get v).user <;> rfl

theorem State.chimeVictim_none (noChime : ∀ w q, (s.tones.voices.get w).user ≠ .chime q) : s.chimeVictim = none := by
  have empty : (allFin 8).filterMap s.chimeOn = [] := by
    refine List.filterMap_eq_nil_iff.mpr fun w _ => ?_
    cases on : s.chimeOn w with
    | none => rfl
    | some x => exact absurd ((s.chimeOn_iff w x.1 x.2).mp on).2 (noChime w x.2)
  rw [State.chimeVictim_eq, empty]
  rfl

theorem State.chimeVictim_of {v : Fin 8} {p : Fin 64} (user : (s.tones.voices.get v).user = .chime p)
    (worst : ∀ w q, (s.tones.voices.get w).user = .chime q → (s.programs.get p).priority < (s.programs.get q).priority ∨
      ((s.programs.get p).priority = (s.programs.get q).priority ∧ w ≤ v)) : s.chimeVictim = some (v, p) := by
  have mem : (v, p) ∈ (allFin 8).filterMap s.chimeOn :=
    List.mem_filterMap.mpr ⟨v, mem_allFin v, (s.chimeOn_iff v v p).mpr ⟨rfl, user⟩⟩
  obtain ⟨pre, post, split⟩ := List.append_of_mem mem
  have chimes (x : Fin 8 × Fin 64) (there : x ∈ (allFin 8).filterMap s.chimeOn) :
      (s.tones.voices.get x.1).user = .chime x.2 := by
    obtain ⟨w, -, on⟩ := List.mem_filterMap.mp there
    obtain ⟨rfl, sounds⟩ := (s.chimeOn_iff w x.1 x.2).mp on
    exact sounds
  have rising : ((allFin 8).filterMap s.chimeOn).Pairwise fun x y => x.1 < y.1 := by
    refine List.pairwise_filterMap.mpr ((allFin_rising 8).imp fun {a b} lt x onA y onB => ?_)
    obtain ⟨rfl, -⟩ := (s.chimeOn_iff a x.1 x.2).mp onA
    obtain ⟨rfl, -⟩ := (s.chimeOn_iff b y.1 y.2).mp onB
    exact lt
  rw [split] at rising chimes
  have order := List.pairwise_append.mp rising
  rw [State.chimeVictim_eq, split]
  refine foldl_best (fun _ => rfl) (fun b x => ?_) (fun b there => ?_) fun x there => ?_
  · unfold State.worseChime
    dsimp only
    split
    · exact .inr rfl
    · exact .inl rfl
  · unfold State.worseChime
    refine if_pos ?_
    rcases worst b.1 b.2 (chimes b (List.mem_append_left _ there)) with less | ⟨same, -⟩
    · exact less.le
    · exact same.le
  · have after : v < x.1 := (List.pairwise_cons.mp order.2.1).1 x there
    unfold State.worseChime
    refine if_neg (not_le.mpr ?_)
    rcases worst x.1 x.2 (chimes x (List.mem_append_right _ (List.mem_cons_of_mem _ there))) with less | ⟨-, before⟩
    · exact less
    · exact absurd after (not_lt.mpr before)

end

end Sys2Proof.Machine
end

section
/-! PROOF. RAISE_ALARM, SILENCE_ALARM and RESET_ALARM, and the channel an alarm asks for (O51). -/

open Sys2Proof Sys2Proof.Machine

namespace Sys2Proof.Machine

section
variable {s : State}

/-! ### The channel an alarm asks for (R99, R109) -/

/-- A channel as it is bound to an alarm's stream. -/
def alarmBound (k : AlarmKind) (d : StreamDesc) : Channel :=
  { state := .priming, owner := some (.program k.slot), desc := d, passes := 1, cur := .toRead d.first }

theorem AlarmKind.slot_above (k : AlarmKind) : 60 ≤ k.slot.val := by cases k <;> decide

theorem State.bindTo_alarm {c : Fin 16} {k : AlarmKind} {d : StreamDesc} (inside : s.inWindow d.first 32 32 = true) :
    s.bindTo c (.program k.slot) d = s.modChannel c fun _ => alarmBound k d := by
  unfold State.bindTo State.toRead
  refine (if_pos inside).trans ?_
  rw [State.modChannel_modChannel]
  have once : passesFor (.program k.slot) d = 1 := by
    unfold passesFor
    dsimp only
    rw [if_pos (by simp [k.slot_above])]
  unfold alarmBound
  rw [once]

theorem Channel.ownedByAlarm_not_iff (ch : Channel) :
    ch.ownedByAlarm = false ↔ ∀ p : Fin 64, ch.owner = some (.program p) → p.val < 60 := by
  obtain ⟨_, owner⟩ := ch
  unfold Channel.ownedByAlarm
  rcases owner with _ | p | x <;> simp

theorem State.seizable_iff (c : Fin 16) : s.seizable c = true ↔ (s.channels.get c).owner ≠ none ∧
    (∀ p : Fin 64, (s.channels.get c).owner = some (.program p) → p.val < 60) ∧
    (s.channels.get c).state ≠ .free ∧ (s.channels.get c).state ≠ .ended ∧ s.ownerPriority (s.channels.get c) < 12 := by
  unfold State.seizable
  simp only [Bool.and_eq_true, Bool.not_eq_true', Channel.ownedByAlarm_not_iff, Option.isSome_iff_ne_none, bne_iff_ne,
    decide_eq_true_eq, and_assoc]

theorem State.seizureVictim_none (nobody : ∀ e, ¬s.seizable e = true) : s.seizureVictim = none := by
  unfold State.seizureVictim
  rw [List.filter_eq_nil_iff.mpr fun e _ => nobody e]
  rfl

theorem State.seizureVictim_of {c : Fin 16} (seizable : s.seizable c = true)
    (worst : ∀ e, s.seizable e = true → s.ownerPriority (s.channels.get c) < s.ownerPriority (s.channels.get e) ∨
      (s.ownerPriority (s.channels.get c) = s.ownerPriority (s.channels.get e) ∧ e ≤ c)) : s.seizureVictim = some c := by
  obtain ⟨pre, post, split⟩ := List.append_of_mem (List.mem_filter.mpr ⟨mem_allFin c, seizable⟩)
  have may (e : Fin 16) (mem : e ∈ (allFin 16).filter s.seizable) : s.seizable e = true := (List.mem_filter.mp mem).2
  have rising := (allFin_rising 16).filter s.seizable
  rw [split] at may rising
  have order := List.pairwise_append.mp rising
  unfold State.seizureVictim
  rw [split]
  refine foldl_best (fun _ => rfl) (fun b d => ?_) (fun b mem => ?_) fun d mem => ?_
  · dsimp only
    split
    · exact .inr rfl
    · exact .inl rfl
  · refine if_pos ?_
    rcases worst b (may b (List.mem_append_left _ mem)) with less | ⟨same, -⟩
    · exact less.le
    · exact same.le
  · have after : c < d := (List.pairwise_cons.mp order.2.1).1 d mem
    refine if_neg (not_le.mpr ?_)
    rcases worst d (may d (List.mem_append_right _ (List.mem_cons_of_mem _ mem))) with less | ⟨-, before⟩
    · exact less
    · exact absurd after (not_lt.mpr before)

theorem State.discardTransfer_only (s : State) (c : Fin 16) (keep : Bool) : ∃ port, s.discardTransfer c keep = { s with port } := by
  unfold State.discardTransfer
  split
  · split <;> exact ⟨_, rfl⟩
  · exact ⟨_, rfl⟩

/-- The seizure of a channel, before its former owner is told. -/
def State.seized (c : Fin 16) (k : AlarmKind) (d : StreamDesc) (s : State) : State :=
  (s.discardTransfer c false).modChannel c fun _ => alarmBound k d

theorem State.alarmBind_seizes {c : Fin 16} {k : AlarmKind} {d : StreamDesc} (inside : s.inWindow d.first 32 32 = true)
    (full : ∀ e, (s.channels.get e).state ≠ .free) (victim : s.seizureVictim = some c) : s.alarmBind k d =
      match (s.channels.get c).owner with
      | some (.program p) => (s.seized c k d).endProgram p stSeized
      | some (.source x) => (s.seized c k d).emitNote .streamStarved 3 c.val (ChanOwner.code (.source x))
      | none => s.seized c k d := by
  have window : (s.discardTransfer c false).inWindow d.first 32 32 = true := by
    obtain ⟨port, e⟩ := s.discardTransfer_only c false
    rw [e]
    exact inside
  unfold State.alarmBind
  rw [s.freeChannel_eq_none_iff.mpr full]
  dsimp only
  rw [victim]
  dsimp only
  rw [State.bindTo_alarm window]
  rfl

/-- A seized channel's transfer in progress is discarded. -/
theorem State.seized_discards {c : Fin 16} {x : Xfer} {done : Bool} (k : AlarmKind) (d : StreamDesc)
    (granted : s.port.grant = some ⟨.channel c x, done⟩) : (s.seized c k d).port.grant = some ⟨.channel c x, true⟩ := by
  unfold State.seized State.discardTransfer
  rw [granted]
  dsimp only
  rw [if_pos (by simp)]
  rfl

/-- What a seizure changes before the former owner is told: the channel and the port. -/
structure Seized (s u : State) (c : Fin 16) (k : AlarmKind) (d : StreamDesc) : Prop where
  untouched : Untouched s u
  programs : u.programs = s.programs
  theatre : u.theatre = s.theatre
  here : u.channels.get c = alarmBound k d
  others : ∀ e, e ≠ c → u.channels.get e = s.channels.get e
  idle : u.port.grant = none → s.port.grant = none
  time : u.time = s.time

theorem State.seized_seized (s : State) (c : Fin 16) (k : AlarmKind) (d : StreamDesc) : Seized s (s.seized c k d) c k d := by
  obtain ⟨port, e⟩ := s.discardTransfer_only c false
  have quiet := State.discardTransfer_quiet (Quiet.refl s) c false
  have granted := quiet.granted
  have untouched := quiet.toUntouched
  unfold State.seized
  rw [e] at granted untouched ⊢
  refine ⟨?_, rfl, rfl, Tab.get_modify_self _ c _, fun x other => Tab.get_modify_ne _ other _, fun none_ => ?_, rfl⟩
  · exact untouched.trans (by constructor <;> rfl)
  · have gone : port.grant = none := none_
    rw [show ({ s with port } : State).port.grant = port.grant from rfl, gone] at granted
    exact Option.map_eq_none_iff.mp granted.symm

/-- A program whose channel is seized ends SEIZED. -/
theorem Seized.ended {u : State} {c : Fin 16} {k : AlarmKind} {d : StreamDesc} (seized : Seized s u c k d) {p : Fin 64}
    (busy : (s.programs.get p).state ≠ .free) (low : p.val < 60) (settled : (s.programs.get k.slot).state ≠ .gathering) :
    ProgramEnded s (u.endProgram p stSeized) p 0x06 ∧ (u.endProgram p stSeized).channels.get c = alarmBound k d := by
  have ended := State.endProgram_ended (seized.programs ▸ busy) stSeized
  have rests : u.Rests k.slot c (alarmBound k d) := ⟨rfl, seized.here, seized.programs ▸ settled⟩
  have other : p ≠ k.slot := fun same => by
    have := k.slot_above
    rw [← same] at this
    omega
  refine ⟨?_, (State.endProgram_rests rests other stSeized).2.1⟩
  refine ⟨seized.untouched.trans ended.toUntouched, ended.free, ended.reservation.trans (by rw [seized.programs]),
    ended.unclaimed, fun r record busy => ended.returned r (by rw [seized.programs]; exact record) fun none_ => ?_⟩
  exact busy (seized.idle none_)

/-! ### The voice an alarm asks for (R137) -/

theorem State.alarmVoice_free {k : AlarmKind} {q : Fin 12} {v : Fin 8} (free : s.freeVoice = some v) :
    s.alarmVoice k q = s.giveVoice v (.alarm k) q := by
  unfold State.alarmVoice
  rw [free]

theorem State.alarmVoice_chime {k : AlarmKind} {q : Fin 12} {v : Fin 8} {p : Fin 64} (full : s.freeVoice = none)
    (victim : s.chimeVictim = some (v, p)) : s.alarmVoice k q = (s.giveVoice v (.alarm k) q).chimeLost p := by
  unfold State.alarmVoice
  rw [full]
  dsimp only
  rw [victim]

theorem State.alarmVoice_ring {k : AlarmKind} {q : Fin 12} (full : s.freeVoice = none) (noChime : s.chimeVictim = none) :
    s.alarmVoice k q = match s.voiceOf .ring with
      | some v => s.giveVoice v (.alarm k) q
      | none => s := by
  unfold State.alarmVoice
  rw [full]
  dsimp only
  rw [noChime] <;> rfl

/-- A program that loses its chime's voice (R41). -/
structure ChimeLost (s t : State) (p : Fin 64) : Prop where
  tones : t.tones = s.tones
  skipped : (t.programs.get p).chimeSkipped = true
  state : (t.programs.get p).state = if (s.programs.get p).kind = .theatre ∧ s.theatre.state = .held then .held else .playing
  others : ∀ q, q ≠ p → t.programs.get q = s.programs.get q

theorem State.chimeLost_lost (s : State) (p : Fin 64) : ChimeLost s (s.chimeLost p) p := by
  unfold State.chimeLost
  by_cases held : (s.programs.get p).kind = .theatre ∧ s.theatre.state = .held
  · have goes : (s.modProgram p fun pr => { pr with chimeSkipped := true }).enterPlaying p =
        s.modProgram p fun pr => { pr with chimeSkipped := true, state := .held, gatherTimer := none } := by
      unfold State.enterPlaying
      dsimp only
      rw [if_pos (by
        rw [State.modProgram_programs, Tab.get_modify_self]
        simpa using held), State.modProgram_modProgram]
      rfl
    rw [goes]
    refine ⟨rfl, ?_, ?_, fun q ne => Tab.get_modify_ne _ ne _⟩
    · rw [State.modProgram_programs, Tab.get_modify_self]
    · rw [if_pos held, State.modProgram_programs, Tab.get_modify_self]
  · have goes := State.enterPlaying_of (s := s.modProgram p fun pr => { pr with chimeSkipped := true }) (p := p)
      (State.unheld.modProgram (fun kind hold => held ⟨kind, hold⟩) fun _ => rfl)
    have slot : (s.modProgram p fun pr => { pr with chimeSkipped := true }).programs.get p =
        { s.programs.get p with chimeSkipped := true } := by
      rw [State.modProgram_programs, Tab.get_modify_self]
    rw [goes]
    have plays (x : Program) : x.plays.chimeSkipped = x.chimeSkipped ∧ x.plays.state = .playing := by
      unfold Program.plays Program.startDuration
      split <;> exact ⟨rfl, rfl⟩
    refine ⟨rfl, ?_, ?_, fun q ne => ?_⟩
    · dsimp only
      rw [Tab.get_modify_self, (plays _).1, slot]
    · dsimp only
      rw [if_neg held, Tab.get_modify_self, (plays _).2]
    · dsimp only
      rw [Tab.get_modify_ne _ ne, State.modProgram_programs, Tab.get_modify_ne _ ne]

/-! ### The records -/

theorem Hand.alarmKind_none {h : Hand} (high : 4 ≤ byteAt h.bytes 8) : h.alarmKind = none := by
  unfold Hand.alarmKind alarmKindOf
  split
  · omega
  · omega
  · omega
  · omega
  · rfl

theorem Hand.alarmKind_of {h : Hand} {k : AlarmKind} (code : byteAt h.bytes 8 = k.idx.val) : h.alarmKind = some k := by
  unfold Hand.alarmKind
  rw [code]
  cases k <;> rfl

theorem State.raiseRecord_of {h : Hand} {k : AlarmKind} (kind : h.alarmKind = some k) : s.raiseRecord h =
    if (s.alarmDef k).isNone then s.reply .alarm h stBadField false []
    else (s.raise k h.areas .record).reply .alarm h stDone false [] := by
  unfold State.raiseRecord
  rw [kind]

theorem State.silenceRecord_of {h : Hand} {k : AlarmKind} (kind : h.alarmKind = some k) :
    s.silenceRecord h = (s.silence k h.areas .record).reply .alarm h stDone false [] := by
  unfold State.silenceRecord
  rw [kind]

theorem State.resetRecord_of {h : Hand} {k : AlarmKind} (kind : h.alarmKind = some k) :
    s.resetRecord h = (s.quieten k h.areas .record).reply .alarm h stDone false [] := by
  unfold State.resetRecord
  rw [kind]

/-- The return asked for in the take of an alarm record. -/
theorem State.reply_done (u : State) (h : Hand) : ((u.reply .alarm h 0x02 false []).arbitrate.walker .alarm).stage =
    .returnWrite h { record := h.ref false, status := 0x02, results := [] } false := by
  unfold State.walker
  rw [State.arbitrate_walkers]
  exact State.reply_stage u .alarm h 0x02 false []

end

end Sys2Proof.Machine

/-- Settles O51. -/
theorem alarmRecords : Obligations.AlarmRecords := by
  unfold Obligations.AlarmRecords
  refine ⟨fun s k pattern v => ?_, fun s k d c => ?_, fun s h b => ?_⟩
  · intro t user taken noChime
    have given : (s.giveVoice v (.alarm k) pattern).tones.voices =
        s.tones.voices.set v { user := .alarm k, mode := .starting false, pattern := pattern } := s.giveVoice_voices v _ _
    obtain ⟨programs, theatre⟩ := s.giveVoice_programs' v (.alarm k) pattern
    refine ⟨fun free first => ?_, fun full => ?_⟩
    · have ran : t = s.giveVoice v (.alarm k) pattern := State.alarmVoice_free (State.voiceOf_some free first)
      simp only [taken]
      rw [ran]
      exact ⟨given, programs⟩
    · have busy : s.freeVoice = none := State.voiceOf_none full
      refine ⟨fun p chime worst => ?_, fun quiet ring first => ?_, fun quiet ringless => ?_⟩
      · have ran : t = (s.giveVoice v (.alarm k) pattern).chimeLost p :=
          State.alarmVoice_chime busy (State.chimeVictim_of chime worst)
        have lost := (s.giveVoice v (.alarm k) pattern).chimeLost_lost p
        simp only [taken]
        rw [← ran] at lost
        refine ⟨by rw [lost.tones, given], lost.skipped, ?_, fun q ne => ?_⟩
        · rw [lost.state, programs, theatre]
        · rw [lost.others q ne, programs]
      · have ran : t = s.giveVoice v (.alarm k) pattern := by
          simp only [t]
          rw [State.alarmVoice_ring busy (State.chimeVictim_none quiet), State.voiceOf_some ring first]
        simp only [taken]
        rw [ran]
        exact ⟨given, programs⟩
      · simp only [t]
        rw [State.alarmVoice_ring busy (State.chimeVictim_none quiet), State.voiceOf_none ringless]
  · intro t ch priority candidate bound inside
    have seizes (e : Fin 16) : candidate e ↔ s.seizable e = true := (State.seizable_iff e).symm
    refine ⟨fun free first => ?_, fun full => ⟨fun nobody => ?_, fun seized worst => ?_⟩⟩
    · have lowest : s.freeChannel = some c := find?_lowest (allFin_rising 16) (mem_allFin c) (by simpa using free)
        fun e _ lt => by simpa using first e lt
      simp only [t]
      unfold State.alarmBind
      rw [lowest]
      exact State.bindTo_alarm inside
    · simp only [t]
      unfold State.alarmBind
      rw [s.freeChannel_eq_none_iff.mpr full]
      dsimp only
      rw [State.seizureVictim_none fun e may => nobody e ((seizes e).mpr may)]
    · have victim : s.seizureVictim = some c :=
        State.seizureVictim_of ((seizes c).mp seized) fun e may => worst e ((seizes e).mpr may)
      have ran : t = _ := State.alarmBind_seizes inside full victim
      have made := s.seized_seized c k d
      have low := seized.2.1
      refine ⟨fun x g granted => ?_, fun p own busy settled => ?_, fun x own => ?_⟩
      · have gone := State.seized_discards k d granted
        rw [ran]
        split
        · exact State.endProgram_discarded gone _ _
        · rw [State.emitNote_port]
          exact gone
        · exact gone
      · rw [ran, own]
        exact made.ended busy (low p own) settled
      · rw [ran, own]
        dsimp only
        rw [State.emitNote_channels, State.emitNote_programs, State.emitNote_theatre]
        refine ⟨made.here, made.others, made.programs, made.theatre, ?_⟩
        have noted := (s.seized c k d).emitNote_noted .streamStarved 3 c.val (ChanOwner.code (.source x))
        rw [made.time] at noted
        exact noted
  · intro code areas done inHand
    have raises (kind : h.kind = 0x30) : exec .raiseAlarm s = .next (s.raiseRecord h).arbitrate :=
      congrArg Host.Outcome.next (State.handOver_of (fun h _ s => s.raiseRecord h) inHand kind)
    have silences (kind : h.kind = 0x31) : exec .silenceAlarm s = .next (s.silenceRecord h).arbitrate :=
      congrArg Host.Outcome.next (State.handOver_of (fun h _ s => s.silenceRecord h) inHand kind)
    have resets (kind : h.kind = 0x32) : exec .resetAlarm s = .next (s.resetRecord h).arbitrate :=
      congrArg Host.Outcome.next (State.handOver_of (fun h _ s => s.resetRecord h) inHand kind)
    refine ⟨fun kind high => ?_, fun kind high => ?_, fun kind high => ?_, fun k is => ?_⟩
    · rw [raises kind]
      unfold State.raiseRecord
      rw [Hand.alarmKind_none high]
      rfl
    · rw [silences kind]
      unfold State.silenceRecord
      rw [Hand.alarmKind_none high]
      rfl
    · rw [resets kind]
      unfold State.resetRecord
      rw [Hand.alarmKind_none high]
      rfl
    · have named := Hand.alarmKind_of (h := h) is
      intro answers
      obtain ⟨raiseNone, raised⟩ := s.raise_spec k areas .record
      obtain ⟨silenceNone, silenced⟩ := s.silence_spec k areas .record
      obtain ⟨resetNone, reset⟩ := s.quieten_spec k areas .record
      refine ⟨fun kind => ⟨fun undefined => ?_, fun defined all => ?_, fun defined some_ => ?_⟩,
        fun kind => ⟨fun all => ?_, fun some_ => ?_⟩, fun kind => ⟨fun all => ?_, fun some_ => ?_⟩⟩
      · rw [raises kind, State.raiseRecord_of named, if_pos (by simp [undefined])]
        rfl
      · refine ⟨?_, s.reply_done h⟩
        rw [raises kind, State.raiseRecord_of named, if_neg (by simpa using defined),
          show s.raise k h.areas .record = s from raiseNone (List.filter_eq_nil_iff.mpr fun a mem => by simp [all a mem])]
        rfl
      · obtain ⟨a, mem, other⟩ := some_
        refine ⟨s.raise k areas .record, ⟨?_, State.reply_done _ h⟩,
          raised (List.ne_nil_of_mem (List.mem_filter.mpr ⟨mem, by simpa using other⟩))⟩
        rw [raises kind, State.raiseRecord_of named, if_neg (by simpa using defined)]
        rfl
      · refine ⟨?_, s.reply_done h⟩
        rw [silences kind, State.silenceRecord_of named,
          show s.silence k h.areas .record = s from silenceNone (List.filter_eq_nil_iff.mpr fun a mem => by simp [all a mem])]
        rfl
      · obtain ⟨a, mem, sounds⟩ := some_
        refine ⟨s.silence k areas .record, ⟨?_, State.reply_done _ h⟩,
          silenced (List.ne_nil_of_mem (List.mem_filter.mpr ⟨mem, by simpa using sounds⟩))⟩
        rw [silences kind, State.silenceRecord_of named]
        rfl
      · refine ⟨?_, s.reply_done h⟩
        rw [resets kind, State.resetRecord_of named,
          show s.quieten k h.areas .record = s from resetNone (List.filter_eq_nil_iff.mpr fun a mem => by simp [all a mem])]
        rfl
      · obtain ⟨a, mem, other⟩ := some_
        refine ⟨s.quieten k areas .record, ⟨?_, State.reply_done _ h⟩,
          reset (List.ne_nil_of_mem (List.mem_filter.mpr ⟨mem, by simpa using other⟩))⟩
        rw [resets kind, State.resetRecord_of named]
        rfl

end

section
/-! PROOF. Contact samples, closures and openings (O52). -/

open Sys2Proof Sys2Proof.Machine

namespace Sys2Proof.Machine

section
variable {s : State} {line : Fin 4}

/-- A closure accepted, before the line acts (R149, R150). -/
def State.closes (line : Fin 4) (s : State) : State :=
  State.emitNote .contact 1 line.val 0
    (State.setCause .contact { s with contacts := s.contacts.set line { closed := true, count := 0 } })

/-- An opening accepted, before the line acts. -/
def State.reopens (line : Fin 4) (s : State) : State :=
  { s with contacts := s.contacts.set line { closed := false, count := 0 } }

theorem State.acceptClosure_eq (s : State) (line : Fin 4) : s.acceptClosure line = (s.closes line).closureEffect line := rfl

theorem State.acceptOpening_eq (s : State) (line : Fin 4) :
    s.acceptOpening line = if line = 3 then (s.reopens line).stopMic else s.reopens line := rfl

/-- What a closure leaves of the state, with its note. -/
structure Closes (s t : State) (line : Fin 4) : Prop where
  contacts : t.contacts = s.contacts.set line { closed := true, count := 0 }
  flagged : t.causeHas .contact = true
  outlets : t.outlets = s.outlets
  inlets : t.inlets = s.inlets
  defs : t.alarms.defs = s.alarms.defs
  stations : t.stations = s.stations
  trunks : t.trunks = s.trunks
  time : t.time = s.time
  part : t.part = s.part
  idle : t.port.grant = none → s.port.grant = none
  room : s.notes.queue.length < 32 → t.notes.queue[s.notes.queue.length]? = some
    { kind := .contact, code := 1, subject := line.val, detail := 0, time := s.time }
  lost : 32 ≤ s.notes.queue.length → t.notes.queue = s.notes.queue ∧ 0 < t.notes.lost

theorem State.closes_closes (s : State) (line : Fin 4) : Closes s (s.closes line) line := by
  unfold State.closes
  refine ⟨?_, ?_, ?_, ?_, ?_, ?_, ?_, ?_, ?_, ?_, fun room => ?_, fun full => ?_⟩
  · rw [State.emitNote_contacts]
    rfl
  · have set : (State.setCause .contact { s with contacts := s.contacts.set line { closed := true, count := 0 } }).causeHas
        .contact = true := (State.causeHas_setCause _ _ _).mpr (.inl rfl)
    exact (State.emitNote_quiet (Quiet.refl _) .contact 1 line.val 0).causes .contact set
  · rw [State.emitNote_outlets]
    rfl
  · rw [State.emitNote_inlets]
    rfl
  · rw [State.emitNote_alarms]
    rfl
  · rw [State.emitNote_stations]
    rfl
  · rw [State.emitNote_trunks]
    rfl
  · rw [State.emitNote_time]
    rfl
  · rw [State.emitNote_part]
    rfl
  · rw [State.emitNote_port]
    exact id
  · have queued := State.emitNote_queue (s := State.setCause .contact { s with
      contacts := s.contacts.set line { closed := true, count := 0 } }) room .contact 1 line.val 0
    rw [queued]
    exact List.getElem?_concat_length
  · have lost := State.emitNote_lost (s := State.setCause .contact { s with
      contacts := s.contacts.set line { closed := true, count := 0 } }) full .contact 1 line.val 0
    rw [lost]
    refine ⟨rfl, ?_⟩
    change 0 < min 65535 (s.notes.lost + 1)
    omega

/-- What an act of other blocks after a closure leaves of it. -/
theorem Closes.then {t u : State} (closes : Closes s t line) (acts : Acts t u) (stations : u.stations = t.stations) :
    Closes s u line where
  contacts := acts.contacts.trans closes.contacts
  flagged := acts.causes _ closes.flagged
  outlets := acts.outlets.trans closes.outlets
  inlets := acts.inlets.trans closes.inlets
  defs := acts.defs.trans closes.defs
  stations := stations.trans closes.stations
  trunks := acts.trunks.trans closes.trunks
  time := acts.time.trans closes.time
  part := acts.part.trans closes.part
  idle := fun none_ => by
    have granted := acts.granted
    rw [none_] at granted
    exact closes.idle (Option.map_eq_none_iff.mp granted.symm)
  room := fun room => by
    obtain ⟨more, queue⟩ := acts.noted.queue
    have here := closes.room room
    rw [queue, List.getElem?_append_left (List.getElem?_eq_some_iff.mp here).1]
    exact here
  lost := fun full => by
    obtain ⟨queue, lost⟩ := closes.lost full
    refine ⟨?_, acts.noted.lost lost⟩
    rw [acts.noted.full (queue ▸ full), queue]

theorem State.closes_areas (s : State) (line : Fin 4) (k : AlarmKind) (a : Fin 16) :
    (s.closes line).areaState k a = s.areaState k a := by
  unfold State.areaState State.closes
  rw [State.emitNote_alarms]
  rfl

theorem State.arbitrate_areas (s : State) (k : AlarmKind) (a : Fin 16) : s.arbitrate.areaState k a = s.areaState k a := by
  unfold State.areaState
  rw [State.arbitrate_alarms]

/-- The closure of MUSTER_CONTACT or FIRE_CONTACT: a raise in every area where the kind does not sound. -/
theorem raise_everywhere {t : State} (k : AlarmKind) (same : ∀ a, t.areaState k a = s.areaState k a) :
    (∀ a, (t.raise k allAreas .contact).areaState k a = .sounding) ∧
      ((∀ a, s.areaState k a = .sounding) → t.raise k allAreas .contact = t) ∧
      ((∃ a, s.areaState k a ≠ .sounding) → AlarmRaised t (t.raise k allAreas .contact) k
        ((allFin 16).filter fun a => s.areaState k a != .sounding) 1) := by
  obtain ⟨none_, raised⟩ := t.raise_spec k allAreas .contact
  rw [List.filter_congr fun a _ => by rw [same a]] at none_ raised
  have quiet : (∀ a, s.areaState k a = .sounding) → t.raise k allAreas .contact = t := fun all =>
    none_ (List.filter_eq_nil_iff.mpr fun a _ => by simp [all a])
  have rung : (∃ a, s.areaState k a ≠ .sounding) → AlarmRaised t (t.raise k allAreas .contact) k
      ((allFin 16).filter fun a => s.areaState k a != .sounding) 1 := fun ⟨a, other⟩ =>
    raised (List.ne_nil_of_mem (List.mem_filter.mpr ⟨mem_allFin a, by simpa using other⟩))
  refine ⟨fun a => ?_, quiet, rung⟩
  by_cases all : ∀ a, s.areaState k a = .sounding
  · rw [quiet all, same, all]
  · rw [(rung (not_forall.mp all)).entries]
    split
    · rfl
    · next out =>
      by_contra other
      exact out ⟨rfl, List.mem_filter.mpr ⟨mem_allFin a, by simpa [same a] using other⟩⟩

/-- A silence of a kind everywhere. -/
theorem silence_everywhere (t : State) (k : AlarmKind) :
    ((∀ a, t.areaState k a ≠ .sounding) → t.silence k allAreas .contact = t) ∧
      ((∃ a, t.areaState k a = .sounding) → AlarmCleared t (t.silence k allAreas .contact) k .silenced
        ((allFin 16).filter fun a => t.areaState k a == .sounding) 1) ∧
      ∀ k' a, (t.silence k allAreas .contact).areaState k' a =
        if k' = k ∧ t.areaState k' a = .sounding then .silenced else t.areaState k' a := by
  obtain ⟨none_, cleared⟩ := t.silence_spec k allAreas .contact
  have quiet : (∀ a, t.areaState k a ≠ .sounding) → t.silence k allAreas .contact = t := fun all =>
    none_ (List.filter_eq_nil_iff.mpr fun a _ => by simp [all a])
  have silenced : (∃ a, t.areaState k a = .sounding) → AlarmCleared t (t.silence k allAreas .contact) k .silenced
      ((allFin 16).filter fun a => t.areaState k a == .sounding) 1 := fun ⟨a, sounds⟩ =>
    cleared (List.ne_nil_of_mem (List.mem_filter.mpr ⟨mem_allFin a, by simpa using sounds⟩))
  refine ⟨quiet, silenced, fun k' a => ?_⟩
  by_cases some_ : ∃ a, t.areaState k a = .sounding
  · rw [(silenced some_).entries]
    refine if_congr (and_congr_right fun same => ?_) rfl rfl
    rw [same, List.mem_filter]
    simp
  · rw [quiet (not_exists.mp some_), if_neg]
    rintro ⟨rfl, sounds⟩
    exact some_ ⟨a, sounds⟩

/-- SILENCE_CONTACT: the four kinds one after the other. -/
theorem State.silenceContact_eq (t : State) : t.closureEffect 2 =
    (((t.silence .muster allAreas .contact).silence .fire allAreas .contact).silence .security allAreas .contact).silence
      .crewAlert allAreas .contact := by
  have each : t.closureEffect 2 = t.forAll AlarmKind.all fun k s => s.silence k allAreas .contact := by
    unfold State.closureEffect
    rfl
  rw [each]
  unfold AlarmKind.all
  have none_ (s : State) (f : AlarmKind → State → State) : s.forAll [] f = s := rfl
  rw [State.forAll_cons, State.forAll_cons, State.forAll_cons, State.forAll_cons, none_]

theorem silenced_all (t : State) (k : AlarmKind) (a : Fin 16) : (t.closureEffect 2).areaState k a =
    if t.areaState k a = .sounding then .silenced else t.areaState k a := by
  have each (u : State) (j : AlarmKind) := (silence_everywhere u j).2.2
  rw [State.silenceContact_eq, each, each, each, each]
  cases k <;> simp

theorem State.closureEffect_stations (t : State) (line : Fin 4) : (t.closureEffect line).stations = t.stations := by
  have raised (k : AlarmKind) : (t.raise k allAreas .contact).stations = t.stations := by
    obtain ⟨none_, raised⟩ := t.raise_spec k allAreas .contact
    by_cases all : allAreas.filter (fun a => t.areaState k a != .sounding) = []
    · rw [none_ all]
    · exact (raised all).stations
  have silenced (u : State) (k : AlarmKind) : (u.silence k allAreas .contact).stations = u.stations := by
    obtain ⟨none_, cleared⟩ := u.silence_spec k allAreas .contact
    by_cases all : allAreas.filter (fun a => u.areaState k a == .sounding) = []
    · rw [none_ all]
    · exact (cleared all).stations
  match line with
  | 0 => exact raised .muster
  | 1 => exact raised .fire
  | 2 =>
    rw [State.silenceContact_eq]
    exact (silenced _ _).trans ((silenced _ _).trans ((silenced _ _).trans (silenced _ _)))
  | 3 => exact (State.startMic_quiet (Quiet.refl t)).stations

/-! ### The contact microphone -/

theorem State.removeAll_alarms (s : State) (w : Owner) : (s.removeAll w).alarms = s.alarms := by
  by_cases own : w = .program 60
  · exact (State.removeAll_aside (Aside.refl 61 s) (w := w) (by rw [own]; decide)).alarms
  · exact (State.removeAll_aside (Aside.refl 60 s) own).alarms

/-- The end of program 59. -/
structure MicStopped (s t : State) : Prop where
  free : (t.programs.get 59).state = .free
  unclaimed : (s.programs.get 59).state ≠ .free → ∀ o, hasOwner (.program 59) (t.stack o) = false
  quiet : Quiet s t
  alarms : t.alarms = s.alarms

theorem State.stopMic_stopped (s : State) : MicStopped s s.stopMic := by
  have quiet := State.stopMic_quiet (Quiet.refl s)
  by_cases free : (s.programs.get micSlot).state = .free
  · have same : s.stopMic = s := by
      unfold State.stopMic
      exact if_pos (beq_iff_eq.mpr free)
    rw [same] at quiet ⊢
    exact ⟨free, fun busy => absurd free busy, quiet, rfl⟩
  · have stopped : s.stopMic = (s.removeAll (.program micSlot)).modProgram micSlot fun _ => {} := by
      unfold State.stopMic
      rw [if_neg (by simpa using free)]
    rw [stopped] at quiet ⊢
    have gone := s.removeAll_gone (.program micSlot)
    have alarms := s.removeAll_alarms (.program micSlot)
    generalize s.removeAll (.program micSlot) = r at gone alarms quiet
    refine ⟨?_, fun _ o => gone o, quiet, alarms⟩
    rw [show (59 : Fin 64) = micSlot from rfl, State.modProgram_programs, Tab.get_modify_self]

end

end Sys2Proof.Machine

/-- Settles O52. -/
theorem contacts : Obligations.Contacts := by
  unfold Obligations.Contacts
  intro s line x taken raises silences
  refine ⟨fun closed same => ?_, fun closed other few => ?_, fun isOpen last => ?_, fun isClosed last => ?_, fun early => ?_⟩
  · refine congrArg (Host.Outcome.next ∘ State.arbitrate) ?_
    unfold State.sampleContact
    exact if_pos same.symm
  · refine congrArg (Host.Outcome.next ∘ State.arbitrate) ?_
    unfold State.sampleContact
    have more : (s.contacts.get line).count + 1 < 20 := Nat.succ_lt_succ few
    exact (if_neg fun same => other same.symm).trans (if_pos more)
  · have full : ¬x.count + 1 < filterLength := by
      unfold filterLength
      omega
    have accepted : exec (.acceptedClosure line) s = .next ((s.closes line).closureEffect line).arbitrate := by
      have due : (!x.closed && x.count + 1 == filterLength) = true := by
        rw [isOpen, last]
        rfl
      exact congrArg Host.Outcome.next (if_pos due)
    refine ⟨?_, _, accepted, ?_⟩
    · rw [accepted]
      refine congrArg (Host.Outcome.next ∘ State.arbitrate) ?_
      unfold State.sampleContact
      refine (if_neg ?_).trans ((if_neg full).trans (if_pos rfl))
      rw [show (s.contacts.get line).closed = false from isOpen]
      nofun
    · have acts := State.closureEffect_acts (Acts.refl (s.closes line)) line
      have closes := (s.closes_closes line).then acts ((s.closes line).closureEffect_stations line)
      have areas := s.closes_areas line
      rw [State.arbitrate_contacts, State.arbitrate_causeHas, State.arbitrate_outlets, State.arbitrate_inlets,
        State.arbitrate_alarms, State.arbitrate_stations, State.arbitrate_trunks, State.arbitrate_time, State.arbitrate_part,
        State.arbitrate_programs]
      simp only [State.arbitrate_areas]
      refine ⟨closes.contacts, closes.flagged, closes.outlets, closes.inlets, closes.defs, closes.stations, closes.trunks,
        closes.time, closes.part, fun busy => ?_, ?_, ?_, ?_, ?_⟩
      · rw [State.arbitrate_waiting (fun none_ => busy (closes.idle none_))]
        exact ⟨closes.room, closes.lost⟩
      · rintro rfl
        obtain ⟨all, same, raised⟩ := raise_everywhere (s := s) .muster (areas .muster)
        exact ⟨all, fun everywhere => congrArg State.arbitrate (same everywhere), fun some_ => ⟨_, rfl, raised some_⟩⟩
      · rintro rfl
        obtain ⟨all, same, raised⟩ := raise_everywhere (s := s) .fire (areas .fire)
        exact ⟨all, fun everywhere => congrArg State.arbitrate (same everywhere), fun some_ => ⟨_, rfl, raised some_⟩⟩
      · rintro rfl
        refine ⟨fun k a => ?_, ?_⟩
        · rw [silenced_all, areas]
        · have each (u : State) (k : AlarmKind) : silences k u (u.silence k allAreas .contact) :=
            ⟨(silence_everywhere u k).1, (silence_everywhere u k).2.1⟩
          exact ⟨_, _, _, _, each taken .muster, each _ .fire, each _ .security, each _ .crewAlert,
            congrArg State.arbitrate (State.silenceContact_eq _)⟩
      · rintro rfl
        have mic : (s.closes 3).contactMic = s.contactMic := by
          unfold State.contactMic
          rw [(s.closes_closes 3).inlets]
        have programs : (s.closes 3).programs = s.programs := by
          unfold State.closes
          rw [State.emitNote_programs]
          rfl
        have enabled : (s.closes 3).micEnabled = s.micEnabled := by
          unfold State.micEnabled
          rw [(s.closes_closes 3).part]
          unfold State.closes
          rw [State.emitNote_lists]
          rfl
        refine ⟨?_, fun shut => ?_, fun i on found free => ?_⟩
        · refine (State.startMic_quiet (Quiet.refl (s.closes 3))).table.trans ?_
          unfold State.closes
          rw [State.emitNote_alarms]
          rfl
        · refine congrArg State.arbitrate (State.startMic_not (s := s.closes 3) fun ⟨on, _, free, i, inlet⟩ => ?_)
          rw [enabled] at on
          rw [programs] at free
          rcases shut with off | none_ | busy
          · rw [off] at on
            contradiction
          · rw [← mic] at none_
            exact (State.contactMic_none_iff _).mp none_ i inlet
          · exact busy free
        · have some_ : (s.closes 3).inlets.get i = .contactMic := by
            rw [(s.closes_closes 3).inlets]
            simpa using List.find?_some found
          have opens : (s.closes 3).micOpens := ⟨enabled.trans on, by
            rw [(s.closes_closes 3).contacts, Tab.get_set, if_pos rfl], programs ▸ free, i, some_⟩
          have started := State.startMic_started opens (mic.trans found)
          exact ⟨started.state, started.priority, started.kind, started.source⟩
  · have full : ¬x.count + 1 < filterLength := by
      unfold filterLength
      omega
    have accepted : exec (.acceptedOpening line) s = .next (s.acceptOpening line).arbitrate := by
      have due : (x.closed && x.count + 1 == filterLength) = true := by
        rw [isClosed, last]
        rfl
      exact congrArg Host.Outcome.next (if_pos due)
    refine ⟨?_, fun other => ?_, fun mic => ⟨_, accepted, ?_⟩⟩
    · rw [accepted]
      refine congrArg (Host.Outcome.next ∘ State.arbitrate) ?_
      unfold State.sampleContact
      refine (if_neg ?_).trans ((if_neg full).trans (if_neg nofun))
      rw [show (s.contacts.get line).closed = true from isClosed]
      nofun
    · rw [accepted, State.acceptOpening_eq, if_neg other]
      rfl
    · rw [State.acceptOpening_eq, if_pos mic]
      have stopped := (s.reopens line).stopMic_stopped
      rw [State.arbitrate_programs, State.arbitrate_contacts, State.arbitrate_alarms, State.arbitrate_outlets,
        State.arbitrate_stations]
      refine ⟨stopped.free, stopped.quiet.contacts, fun busy o => ?_, stopped.alarms, stopped.quiet.outlets,
        stopped.quiet.stations⟩
      rw [State.arbitrate_stack]
      exact stopped.unclaimed busy o
  · have not_due : ((s.contacts.get line).count + 1 == filterLength) = false :=
      beq_eq_false_iff_ne.mpr fun same => early (Nat.succ.inj same)
    refine ⟨congrArg Host.Outcome.next (if_neg ?_), congrArg Host.Outcome.next (if_neg ?_)⟩ <;> simp [not_due]

end

section
/-! PROOF. The segments and cycles of the tone voices (O44): what a period plays, and what follows a cycle's end. -/

open Sys2Proof Sys2Proof.Machine

namespace Sys2Proof.Machine

section
variable {s : State} {v : Fin 8}

/-! ### A period (R79, R135) -/

/-- A voice that was given begins its pattern; any other stands. -/
def Voice.started (patterns : Tab 12 Pattern) (x : Voice) : Voice :=
  match x.mode with
  | .starting keep => ({ x with copy := (patterns.get x.pattern).stored.getD {}, cycles := if keep then x.cycles else 0 } :
      Voice).beginSegment 0
  | _ => x

/-- What the start of a voice looks at and changes. -/
def State.voiceView (v : Fin 8) (s : State) : Tab 12 Pattern × Voice := (s.tones.patterns, s.tones.voices.get v)

theorem State.startVoice_own (s : State) (v : Fin 8) :
    (s.startVoice v).voiceView v = ((s.voiceView v).1, (s.voiceView v).2.started (s.voiceView v).1) := by
  unfold State.startVoice Voice.started State.voiceView
  dsimp only
  cases mode : (s.tones.voices.get v).mode with
  | starting keep =>
    dsimp only
    unfold State.beginCycle
    dsimp only
    rw [State.modVoice_tones]
    dsimp only
    rw [Tab.get_modify_self]
    rfl
  | _ => rfl

theorem State.startVoice_other (s : State) {v w : Fin 8} (other : w ≠ v) : (s.startVoice w).voiceView v = s.voiceView v := by
  unfold State.startVoice State.voiceView
  dsimp only
  split
  · unfold State.beginCycle
    dsimp only
    rw [State.modVoice_tones]
    dsimp only
    rw [Tab.get_modify_ne _ other.symm]
  · rfl

theorem State.startVoices_voice (s : State) (v : Fin 8) :
    (s.forAll (allFin 8) State.startVoice).tones.voices.get v = (s.tones.voices.get v).started s.tones.patterns := by
  have all : (s.forAll (allFin 8) State.startVoice).voiceView v = ((s.voiceView v).1, (s.voiceView v).2.started (s.voiceView v).1) :=
    State.forAll_once (view := State.voiceView v) (a := v) (g := fun y => (y.1, y.2.started y.1))
      (fun s => s.startVoice_own v) (fun _ _ other s => s.startVoice_other other) (allFin_nodup 8) (mem_allFin v) s
  generalize s.forAll (allFin 8) State.startVoice = t at all
  exact congrArg Prod.snd all

/-- A voice at the end of a calm period. -/
theorem State.calm_voice (calm : s.Calm) (none_ : ∀ p, (s.programs.get p).state ≠ .ending) (audio : List (List Sample))
    (quiet : ∀ k : AlarmKind, (s.tones.voices.get v).user = .alarm k → (s.alarms.kinds.get k.idx).phase ≠ .voice) :
    ∃ t, exec (.mixPeriodStart audio) s = .next t ∧
      t.tones.voices.get v = ((s.tones.voices.get v).started s.tones.patterns).give.2 := by
  have latched := State.latched_of calm
  have sounded := State.sounded_of audio latched.flowing
  have drift := State.beforeShow_drifts calm
  have shown := s.beforeShow.showStep_shown
  have tones : s.beforeShow.showStep.tones = s.tones := by
    obtain ⟨_, _, _, _, _, _, e, -⟩ := drift
    obtain ⟨_, _, _, _, _, _, e'⟩ := shown.only
    rw [e', e]
    rfl
  have alarms : s.beforeLatch.alarms = s.alarms := by
    obtain ⟨_, _, _, _, _, _, _, _, _, _, e⟩ := latched.only
    rw [e]
    rfl
  have voice : s.beforeLatch.tones.voices.get v = (s.tones.voices.get v).started s.tones.patterns := by
    rw [State.readied_eq, State.startVoices_voice, tones]
  have user : ((s.tones.voices.get v).started s.tones.patterns).user = (s.tones.voices.get v).user := by
    unfold Voice.started Voice.beginSegment
    split
    · dsimp only
      split <;> rfl
    · rfl
  refine ⟨_, State.calm_period calm none_ audio, ?_⟩
  rw [State.arbitrate_tones, sounded.voice v fun k own => ?_, voice]
  rw [alarms]
  rw [voice, user] at own
  exact quiet k own

theorem toneBlock_after (level inc n p : Nat) : (toneBlock level inc (n + 1) p).2 = (p + (n + 1) * inc) % 65536 := by
  have rest := toneBlock_phase level inc n ((p + inc) % 65536) (Nat.mod_lt _ (by decide))
  rw [show (toneBlock level inc (n + 1) p).2 = (toneBlock level inc n ((p + inc) % 65536)).2 from rfl, rest, Nat.mod_add_mod]
  congr 1
  rw [Nat.add_mul, Nat.one_mul]
  omega

/-- A sounding voice plays a period of its segment. -/
theorem Voice.give_sounding {x : Voice} {g : Segment} (sounds : x.mode = .sounding) (at_ : x.copy.segments[x.segment]? = some g) :
    x.give.2 = { x with left := x.left - 1, phase := if g.freq = 0 then x.phase else (x.phase + 48 * x.inc) % 65536 } := by
  unfold Voice.give
  rw [sounds]
  dsimp only
  rw [at_]
  dsimp only
  by_cases rest : g.freq = 0
  · rw [if_pos rest, if_pos rest]
  · rw [if_neg rest, if_neg rest, toneBlock_after]

theorem Voice.started_of {x : Voice} {keep : Bool} {d : PatternDef} {g : Segment} {patterns : Tab 12 Pattern}
    (mode : x.mode = .starting keep) (stored : (patterns.get x.pattern).stored = some d) (first : d.segments.head? = some g) :
    x.started patterns = { x with
      mode := .sounding, copy := d, cycles := if keep then x.cycles else 0, segment := 0, left := 10 * g.duration, phase := 0
      inc := phaseInc g.freq } := by
  unfold Voice.started
  rw [mode]
  dsimp only
  rw [stored]
  unfold Voice.beginSegment
  dsimp only [Option.getD_some]
  rw [← List.head?_eq_getElem?, first] <;> rfl

/-! ### Segment ends (R134, R135) -/

theorem State.modVoice_congr (s : State) (v : Fin 8) {f g : Voice → Voice}
    (same : f (s.tones.voices.get v) = g (s.tones.voices.get v)) : s.modVoice v f = s.modVoice v g := by
  unfold State.modVoice
  rw [Tab.modify_congr _ _ same]

/-- A voice pays what it owes to a pending copy. -/
theorem State.leaveOwing_pays (s : State) (v : Fin 8) : s.leaveOwing v =
    if v ∈ (s.tones.patterns.get (s.tones.voices.get v).pattern).owing then
      s.modPattern (s.tones.voices.get v).pattern fun q =>
        match q.owing.filter (· != v), q.pendingCopy with
        | [], some d => { stored := some d }
        | left, _ => { q with owing := left }
    else s := by
  have settles (q : Pattern) : ({ q with owing := q.owing.filter (· != v) } : Pattern).settle =
      match q.owing.filter (· != v), q.pendingCopy with
      | [], some d => { stored := some d }
      | left, _ => { q with owing := left } := by
    unfold Pattern.settle
    dsimp only
    cases left : q.owing.filter (· != v) <;> cases q.pendingCopy <;> rfl
  unfold State.leaveOwing
  dsimp only
  simp only [settles, List.contains_iff_mem]

/-- A state with other patterns. -/
structure Paid (s t : State) : Prop where
  only : ∃ tones, t = { s with tones }
  voices : t.tones.voices = s.tones.voices

theorem State.leaveOwing_paid (s : State) (v : Fin 8) : Paid s (s.leaveOwing v) := by
  unfold State.leaveOwing
  dsimp only
  split
  · exact ⟨⟨_, rfl⟩, rfl⟩
  · exact ⟨⟨_, rfl⟩, rfl⟩

/-- A voice that begins a cycle. -/
def State.cycled (v : Fin 8) (p : Fin 12) (d : PatternDef) (g : Segment) (n : Nat) (u : State) : State :=
  u.modVoice v fun x => { x with
    pattern := p, copy := d, cycles := n, segment := 0, left := 10 * g.duration, phase := 0, inc := phaseInc g.freq }

theorem State.beginCycle_of {p : Fin 12} {d : PatternDef} {g : Segment} (n : Nat)
    (sounds : (s.tones.voices.get v).mode = .sounding) (stored : (s.tones.patterns.get p).stored = some d)
    (first : d.segments.head? = some g) : s.beginCycle v p n = s.cycled v p d g n := by
  unfold State.beginCycle State.cycled
  refine s.modVoice_congr v ?_
  have def_ : s.patternDef p = d := by
    unfold State.patternDef
    rw [stored]
    rfl
  have head : d.segments[0]? = some g := by rw [← List.head?_eq_getElem?, first]
  rw [def_]
  unfold Voice.beginSegment
  dsimp only
  rw [head]
  generalize s.tones.voices.get v = x at sounds
  cases x
  cases sounds
  rfl

theorem State.segmentEnd_not (early : ¬((s.tones.voices.get v).mode = .sounding ∧ (s.tones.voices.get v).left = 0)) :
    s.segmentEnd v = s := by
  unfold State.segmentEnd
  refine if_neg fun due => early ?_
  simpa using due

theorem State.segmentEnd_next {g : Segment} (due : (s.tones.voices.get v).mode = .sounding ∧ (s.tones.voices.get v).left = 0)
    (next : (s.tones.voices.get v).copy.segments[(s.tones.voices.get v).segment + 1]? = some g) :
    s.segmentEnd v = s.modVoice v fun x => { x with
      segment := x.segment + 1, left := 10 * g.duration, phase := 0, inc := phaseInc g.freq } := by
  obtain ⟨sounds, over_⟩ := due
  have more := (List.getElem?_eq_some_iff.mp next).1
  unfold State.segmentEnd
  dsimp only
  rw [if_pos (by simp [sounds, over_]), if_pos more]
  refine s.modVoice_congr v ?_
  unfold Voice.beginSegment
  rw [next]
  dsimp only
  rw [sounds]

theorem State.segmentEnd_cycle (due : (s.tones.voices.get v).mode = .sounding ∧ (s.tones.voices.get v).left = 0)
    (last : (s.tones.voices.get v).copy.segments.length ≤ (s.tones.voices.get v).segment + 1) :
    s.segmentEnd v = s.cycleEnd v := by
  obtain ⟨sounds, over_⟩ := due
  unfold State.segmentEnd
  dsimp only
  rw [if_pos (by simp [sounds, over_]), if_neg (by omega)]

/-- The cycle's end, by the voice's user. -/
theorem State.cycleEnd_eq (s : State) (v : Fin 8) : s.cycleEnd v =
    match (s.tones.voices.get v).user with
    | .nobody => s.leaveOwing v
    | .ring => (s.leaveOwing v).beginCycle v 11 ((s.tones.voices.get v).cycles + 1)
    | .chime p =>
      if (s.tones.voices.get v).cycles + 1 < max 1 (s.tones.voices.get v).copy.cycles then
        (s.leaveOwing v).beginCycle v (s.tones.voices.get v).pattern ((s.tones.voices.get v).cycles + 1)
      else ((s.leaveOwing v).modVoice v fun _ => {}).enterPlaying p
    | .alarm k => (s.leaveOwing v).alarmCycle k v (s.tones.voices.get v).copy (s.tones.voices.get v).pattern
        ((s.tones.voices.get v).cycles + 1) := by
  unfold State.cycleEnd
  dsimp only
  rw [(s.leaveOwing_paid v).voices] <;> rfl

/-- A program without a stream goes from its chime to PLAYING. -/
theorem State.enterPlaying_first {p : Fin 64} (kind : (s.programs.get p).kind ≠ .theatre)
    (source : (s.programs.get p).source ≠ .stream) (fresh : (s.programs.get p).durationStarted = false) :
    s.enterPlaying p = s.modProgram p fun pr =>
      { pr with state := .playing, gatherTimer := none, durationStarted := true
                durationTimer := if pr.maxDuration = 0 then none else some pr.maxDuration } := by
  rw [State.enterPlaying_of (absurd · kind), if_neg source]
  refine (s.modProgram_congr p (f := Program.plays) ?_)
  unfold Program.plays Program.startDuration
  exact if_neg (by simp [fresh])

/-! ### The cycles of an alarm's voice (R136, R146, R148) -/

/-- The cycle that an alarm's voice begins next. -/
theorem State.alarmCycle_of {k : AlarmKind} {copy : PatternDef} {p q : Fin 12} {done n : Nat}
    (next : ((copy.cycles = 0 ∨ done < copy.cycles) ∧ q = p ∧ n = done) ∨
      (¬(copy.cycles = 0 ∨ done < copy.cycles) ∧ copy.next = some q ∧ s.patternDefined q = true ∧ n = 0) ∨
      (¬(copy.cycles = 0 ∨ done < copy.cycles) ∧ copy.next.filter s.patternDefined = none ∧ k ≠ .crewAlert ∧
        q = ((s.alarmDef k).map (·.pattern)).getD p ∧ n = 0)) :
    s.alarmCycle k v copy p done =
      ((s.modAlarm k fun a => { a with count := a.count + 1 }).beginCycle v q n).voicePoint k v := by
  unfold State.alarmCycle
  dsimp only
  rcases next with ⟨again, rfl, rfl⟩ | ⟨over_, next, defined, rfl⟩ | ⟨over_, none_, other, rfl, rfl⟩
  · exact if_pos (by simpa using again)
  · rw [if_neg (by simpa using over_), next, Option.filter_some_pos defined] <;> rfl
  · rw [if_neg (by simpa using over_), none_]
    dsimp only
    rw [if_neg other]

/-- CREW_ALERT's pattern ends (R148). -/
theorem State.alarmCycle_ends {copy : PatternDef} {p : Fin 12} {done : Nat} (over_ : ¬(copy.cycles = 0 ∨ done < copy.cycles))
    (stops : copy.next.filter s.patternDefined = none) :
    s.alarmCycle .crewAlert v copy p done = s.quieten .crewAlert allAreas .patternEnd := by
  unfold State.alarmCycle
  dsimp only
  rw [if_neg (by simpa using over_), stops] <;> rfl

theorem State.voicePoint_toneOnly {k : AlarmKind} (tone : ∀ a, s.alarmDef k = some a → a.toneCycles = 0 ∨ a.stream = none) :
    s.voicePoint k v = s := by
  have none_ : (s.alarmDef k).bind AlarmDef.voiceStream = none := by
    cases def_ : s.alarmDef k with
    | none => rfl
    | some a =>
      change a.voiceStream = none
      unfold AlarmDef.voiceStream
      rcases tone a def_ with zero | off
      · exact if_pos zero
      · rw [off, ite_self]
  unfold State.voicePoint
  rw [none_] <;> rfl

/-- The voice point of a kind with a voice phase. -/
theorem State.voicePoint_of {k : AlarmKind} {a : AlarmDef} {st : StreamDesc} (def_ : s.alarmDef k = some a)
    (cycles : a.toneCycles ≠ 0) (stream : a.stream = some st) : s.voicePoint k v =
      if (s.alarms.kinds.get k.idx).count < a.toneCycles then s
      else
        let s := s.modAlarm k fun a => { a with count := 0 }
        match s.channelOf (.program k.slot) with
        | some c => if (s.channels.get c).state == .ready then s.beginVoicePhase k v else s
        | none => if s.part == .fallback then s else s.alarmBind k st := by
  have some_ : (s.alarmDef k).bind AlarmDef.voiceStream = some st := by
    rw [def_]
    change a.voiceStream = some st
    unfold AlarmDef.voiceStream
    rw [if_neg cycles, stream]
  unfold State.voicePoint
  rw [some_, def_] <;> rfl

/-- The VOICE phase begins on a ready channel, where the voice owes nothing. -/
theorem State.beginVoicePhase_of {k : AlarmKind} {c : Fin 16} (own : s.channelOf (.program k.slot) = some c)
    (ready : (s.channels.get c).state = .ready)
    (owes : v ∉ (s.tones.patterns.get (s.tones.voices.get v).pattern).owing) : s.beginVoicePhase k v =
      ((s.modVoice v fun x => { x with mode := .silent }).modAlarm k fun a => { a with phase := .voice }).modChannel c fun ch =>
        { ch with run := true, state := if ch.fetchEnded then .draining else .playing } := by
  have paid : s.leaveOwing v = s := by
    rw [State.leaveOwing_pays]
    exact if_neg owes
  unfold State.beginVoicePhase
  rw [paid]
  have own' : ((s.modVoice v fun x => { x with mode := .silent }).modAlarm k fun a => { a with phase := .voice }).channelOf
      (.program k.slot) = some c := own
  unfold State.signalOwner
  rw [own']
  dsimp only
  refine State.modChannel_congr _ c ?_
  unfold Channel.signalRun
  rw [show (((s.modVoice v fun x => { x with mode := .silent }).modAlarm k fun a => { a with phase := .voice }).channels.get
    c).state = .ready from ready] <;> rfl

end

end Sys2Proof.Machine
end

section
/-! PROOF. TONE_SEGMENT_END (O44). -/

open Sys2Proof Sys2Proof.Machine

namespace Sys2Proof.Machine

section
variable {s t : State} {v : Fin 8}

theorem State.cycleEnd_ring (user : (s.tones.voices.get v).user = .ring) :
    s.cycleEnd v = (s.leaveOwing v).beginCycle v 11 ((s.tones.voices.get v).cycles + 1) := by
  rw [State.cycleEnd_eq, user] <;> rfl

theorem State.cycleEnd_chime {p : Fin 64} (user : (s.tones.voices.get v).user = .chime p) : s.cycleEnd v =
    if (s.tones.voices.get v).cycles + 1 < max 1 (s.tones.voices.get v).copy.cycles then
      (s.leaveOwing v).beginCycle v (s.tones.voices.get v).pattern ((s.tones.voices.get v).cycles + 1)
    else ((s.leaveOwing v).modVoice v fun _ => {}).enterPlaying p := by
  rw [State.cycleEnd_eq, user] <;> rfl

theorem State.cycleEnd_alarm {k : AlarmKind} (user : (s.tones.voices.get v).user = .alarm k) : s.cycleEnd v =
    (s.leaveOwing v).alarmCycle k v (s.tones.voices.get v).copy (s.tones.voices.get v).pattern
      ((s.tones.voices.get v).cycles + 1) := by
  rw [State.cycleEnd_eq, user] <;> rfl

/-- Where a pattern leads on to none that is stored. -/
theorem State.leadsNowhere {copy : PatternDef} (stops : ∀ q, copy.next = some q → (s.tones.patterns.get q).stored = none) :
    copy.next.filter s.patternDefined = none := by
  cases next : copy.next with
  | none => rfl
  | some q =>
    refine Option.filter_some_neg ?_
    unfold State.patternDefined
    rw [stops q next]
    simp

theorem AlarmFreed.paid {u : State} {k : AlarmKind} (paid : Paid s t) (freed : AlarmFreed t u k) : AlarmFreed s u k := by
  obtain ⟨⟨tones, rfl⟩, voices⟩ := paid
  have voices' : tones.voices = s.tones.voices := voices
  obtain ⟨free, phase, count, voice, channel⟩ := freed
  refine ⟨free, phase, count, fun v own only => ?_, channel⟩
  have given := voice v (by dsimp only; rw [voices']; exact own) (by dsimp only; rw [voices']; exact only)
  dsimp only at given
  rw [voices'] at given
  exact given

/-- The end of a CREW_ALERT pattern makes it QUIET everywhere (R148). -/
theorem crewAlert_quiet (t : State) :
    ((allFin 16).filter (fun a => t.areaState .crewAlert a != .quiet) = [] → t.quieten .crewAlert allAreas .patternEnd = t) ∧
    ((allFin 16).filter (fun a => t.areaState .crewAlert a != .quiet) ≠ [] →
      AlarmCleared t (t.quieten .crewAlert allAreas .patternEnd) .crewAlert .quiet
        ((allFin 16).filter fun a => t.areaState .crewAlert a != .quiet) 2 ∧
      (∀ a, (t.quieten .crewAlert allAreas .patternEnd).areaState .crewAlert a = .quiet) ∧
      ((t.quieten .crewAlert allAreas .patternEnd).programs.get 63).state = .free ∧
      ((t.programs.get 63).state ≠ .free → AlarmFreed t (t.quieten .crewAlert allAreas .patternEnd) .crewAlert)) := by
  obtain ⟨none_, some_⟩ := t.quieten_spec .crewAlert allAreas .patternEnd
  refine ⟨none_, fun changed => ?_⟩
  have cleared := some_ changed
  have quiet (a : Fin 16) : (t.quieten .crewAlert allAreas .patternEnd).areaState .crewAlert a = .quiet := by
    rw [cleared.entries]
    split
    · rfl
    · next out =>
      by_contra other
      exact out ⟨rfl, List.mem_filter.mpr ⟨mem_allFin a, by simpa using other⟩⟩
  have targets : (t.quieten .crewAlert allAreas .patternEnd).alarmTargets .crewAlert = [] := by
    refine List.filter_eq_nil_iff.mpr fun o _ => ?_
    dsimp only
    rw [quiet]
    simp
  obtain ⟨free, freed⟩ := cleared.freed targets
  exact ⟨cleared, quiet, free, freed⟩

/-! ### The voice point, by its outcomes (R146) -/

/-- The state of an alarm's voice at its next cycle. -/
def State.alarmCycled (v : Fin 8) (p : Fin 12) (d : PatternDef) (g : Segment) (n : Nat) (k : AlarmKind) (s : State) : State :=
  (s.modAlarm k fun a => { a with count := a.count + 1 }).cycled v p d g n

/-- The count of tone cycles, cleared. -/
def State.zeroed (k : AlarmKind) (s : State) : State := s.modAlarm k fun a => { a with count := 0 }

section
variable {p : Fin 12} {d : PatternDef} {g : Segment} {n : Nat} {k : AlarmKind} {a : AlarmDef} {st : StreamDesc}

theorem State.alarmCycled_count :
    ((s.alarmCycled v p d g n k).alarms.kinds.get k.idx).count = (s.alarms.kinds.get k.idx).count + 1 := by
  unfold State.alarmCycled State.cycled
  rw [State.modVoice_alarms, State.modAlarm_alarms]
  dsimp only
  rw [Tab.get_modify_self]

theorem State.alarmCycled_point (def_ : s.alarmDef k = some a) (cycles : a.toneCycles ≠ 0) (stream : a.stream = some st) :
    (¬a.toneCycles ≤ (s.alarms.kinds.get k.idx).count + 1 →
      (s.alarmCycled v p d g n k).voicePoint k v = s.alarmCycled v p d g n k) ∧
    (a.toneCycles ≤ (s.alarms.kinds.get k.idx).count + 1 → (s.alarmCycled v p d g n k).voicePoint k v =
      match s.channelOf (.program k.slot) with
      | some c =>
        if (s.channels.get c).state == .ready then ((s.alarmCycled v p d g n k).zeroed k).beginVoicePhase k v
        else (s.alarmCycled v p d g n k).zeroed k
      | none =>
        if s.part == .fallback then (s.alarmCycled v p d g n k).zeroed k
        else ((s.alarmCycled v p d g n k).zeroed k).alarmBind k st) := by
  have point := State.voicePoint_of (v := v) (s := s.alarmCycled v p d g n k) def_ cycles stream
  rw [State.alarmCycled_count] at point
  refine ⟨fun early => ?_, fun full => ?_⟩
  · rw [point, if_pos (by omega)]
  · rw [point, if_neg (by omega)] <;> rfl

theorem State.alarmBind_lowest {c : Fin 16} (free : s.freeChannel = some c) (inside : s.inWindow st.first 32 32 = true) :
    s.alarmBind k st = s.modChannel c fun _ => alarmBound k st := by
  unfold State.alarmBind
  rw [free]
  exact State.bindTo_alarm inside

section
variable {c : Fin 16} (def_ : s.alarmDef k = some a) (cycles : a.toneCycles ≠ 0) (stream : a.stream = some st)
  (full : a.toneCycles ≤ (s.alarms.kinds.get k.idx).count + 1)
include def_ cycles stream full

theorem State.alarmCycled_busy (own : s.channelOf (.program k.slot) = some c) (busy : (s.channels.get c).state ≠ .ready) :
    (s.alarmCycled v p d g n k).voicePoint k v = (s.alarmCycled v p d g n k).zeroed k := by
  rw [(State.alarmCycled_point def_ cycles stream).2 full, own]
  exact if_neg (by simpa using busy)

theorem State.alarmCycled_ready (own : s.channelOf (.program k.slot) = some c) (ready : (s.channels.get c).state = .ready) :
    (s.alarmCycled v p d g n k).voicePoint k v = ((s.alarmCycled v p d g n k).zeroed k).beginVoicePhase k v := by
  rw [(State.alarmCycled_point def_ cycles stream).2 full, own]
  exact if_pos (by simpa using ready)

theorem State.alarmCycled_fallback (none_ : s.channelOf (.program k.slot) = none) (fallback : s.part = .fallback) :
    (s.alarmCycled v p d g n k).voicePoint k v = (s.alarmCycled v p d g n k).zeroed k := by
  rw [(State.alarmCycled_point def_ cycles stream).2 full, none_]
  exact if_pos (by simpa using fallback)

theorem State.alarmCycled_binds (none_ : s.channelOf (.program k.slot) = none) (running : s.part ≠ .fallback)
    (free : s.freeChannel = some c) (inside : s.inWindow st.first 32 32 = true) : (s.alarmCycled v p d g n k).voicePoint k v =
      ((s.alarmCycled v p d g n k).zeroed k).modChannel c fun _ => alarmBound k st := by
  rw [(State.alarmCycled_point def_ cycles stream).2 full, none_]
  exact (if_neg (by simpa using running)).trans
    (State.alarmBind_lowest (s := (s.alarmCycled v p d g n k).zeroed k) free inside)

end

theorem State.alarmCycled_pattern (sounds : (s.tones.voices.get v).mode = .sounding) :
    (((s.alarmCycled v p d g n k).zeroed k).tones.voices.get v).pattern = p := by
  unfold State.zeroed State.alarmCycled State.cycled
  rw [State.modAlarm_tones, State.modVoice_tones]
  dsimp only
  rw [Tab.get_modify_self]

end

end

end Sys2Proof.Machine

/-- Settles O44. -/
theorem toneSegmentEnd : Obligations.ToneSegmentEnd := by
  unfold Obligations.ToneSegmentEnd
  intro s v x due paid starts begun
  have pays : s.leaveOwing v = paid := s.leaveOwing_pays v
  have payment : Paid s paid := pays ▸ s.leaveOwing_paid v
  clear_value paid
  have ran {u : State} (same : s.segmentEnd v = u) : exec (.toneSegmentEnd v) s = .next u.arbitrate :=
    congrArg (Host.Outcome.next ∘ State.arbitrate) same
  have begins (u : State) (tones : u.tones = paid.tones) (sounds : x.mode = .sounding) {p : Fin 12} {d : PatternDef} {g : Segment}
      (start : starts p d g) (n : Nat) : u.beginCycle v p n = u.cycled v p d g n := by
    refine State.beginCycle_of n ?_ ?_ start.2
    · rw [tones, payment.voices]
      exact sounds
    · rw [tones]
      exact start.1
  refine ⟨fun audio calm none_ quiet => ?_, fun early => ran (State.segmentEnd_not early),
    fun g isDue next => ran (State.segmentEnd_next isDue next), fun isDue last => ?_⟩
  · obtain ⟨t, period, voice⟩ := State.calm_voice calm none_ audio quiet
    refine ⟨t, period, fun g sounds at_ => ?_, fun keep d g mode stored first => ?_⟩
    · rw [voice]
      have stands : x.started s.tones.patterns = x := by
        unfold Voice.started
        rw [sounds]
      exact (congrArg (fun y : Voice => y.give.2) stands).trans (Voice.give_sounding sounds at_)
    · rw [voice, show (s.tones.voices.get v).started s.tones.patterns = _ from Voice.started_of mode stored first,
        Voice.give_sounding (g := g) rfl (by rw [← List.head?_eq_getElem?]; exact first)]
      dsimp only
      rw [Nat.zero_add]
  · have ends {u : State} (same : s.cycleEnd v = u) : exec (.toneSegmentEnd v) s = .next u.arbitrate :=
      ran ((State.segmentEnd_cycle isDue last).trans same)
    refine ⟨fun d g user start => ?_, fun p user sounded kind source fresh => ?_, fun p d g user more start => ?_, fun k user => ?_⟩
    · refine ends ((State.cycleEnd_ring user).trans ?_)
      rw [pays]
      exact begins paid rfl isDue.1 start _
    · refine ends ((State.cycleEnd_chime user).trans ?_)
      have over_ : ¬(s.tones.voices.get v).cycles + 1 < max 1 (s.tones.voices.get v).copy.cycles := by
        have sounded' : (s.tones.voices.get v).copy.cycles ≤ (s.tones.voices.get v).cycles + 1 := sounded
        omega
      rw [if_neg over_, pays]
      have programs : paid.programs = s.programs := by
        obtain ⟨⟨tones, e⟩, -⟩ := payment
        rw [e]
      exact State.enterPlaying_first (s := paid.modVoice v fun _ => {}) (by rw [State.modVoice_programs, programs]; exact kind)
        (by rw [State.modVoice_programs, programs]; exact source) (by rw [State.modVoice_programs, programs]; exact fresh)
    · refine ends ((State.cycleEnd_chime user).trans ?_)
      have more' : (s.tones.voices.get v).cycles + 1 < (s.tones.voices.get v).copy.cycles := more
      rw [if_pos (by omega), pays]
      exact begins paid rfl isDue.1 start _
    · intro again stops
      have ended := State.cycleEnd_alarm user
      rw [pays] at ended
      obtain ⟨only, voices⟩ := payment
      refine ⟨fun p n d g start which => ?_, fun crew over_ stopped => ?_⟩
      · have cycle : s.cycleEnd v = (paid.alarmCycled v p d g n k).voicePoint k v := by
          rw [ended, State.alarmCycle_of (q := p) (n := n), begins (paid.modAlarm k fun a => { a with count := a.count + 1 }) rfl isDue.1 start]
          · rfl
          · rcases which with ⟨a, e, f⟩ | ⟨a, e, f⟩ | ⟨a, b, e, f, h⟩
            · exact .inl ⟨a, e, f⟩
            · refine .inr (.inl ⟨a, e, ?_, f⟩)
              unfold State.patternDefined
              rw [start.1]
              rfl
            · refine .inr (.inr ⟨a, State.leadsNowhere b, e, ?_, h⟩)
              obtain ⟨tones, e⟩ := only
              rw [e]
              exact f
        intro base zeroed
        refine ⟨fun tone => ends (cycle.trans ?_), fun a st def_ cycles stream => ?_⟩
        · refine State.voicePoint_toneOnly (s := paid.alarmCycled v p d g n k) fun a def_ => tone a ?_
          obtain ⟨tones, e⟩ := only
          rw [e] at def_
          exact def_
        · have def' : paid.alarmDef k = some a := by
            obtain ⟨tones, e⟩ := only
            rw [e]
            exact def_
          have early := (State.alarmCycled_point (v := v) (p := p) (d := d) (g := g) (n := n) def' cycles stream).1
          have same : (paid.alarms.kinds.get k.idx).count = (s.alarms.kinds.get k.idx).count ∧
              paid.channelOf (.program k.slot) = s.channelOf (.program k.slot) ∧ paid.channels = s.channels ∧
              paid.part = s.part ∧ paid.freeChannel = s.freeChannel ∧ paid.lists = s.lists := by
            obtain ⟨tones, e⟩ := only
            rw [e]
            exact ⟨rfl, rfl, rfl, rfl, rfl, rfl⟩
          obtain ⟨count, channelOf, channels, part, freeChannel, lists⟩ := same
          have room (c : Fin 16) : (paid.channels.get c).state = (s.channels.get c).state := by rw [channels]
          rw [← count, ← channelOf, ← part, ← freeChannel]
          intro full
          refine ⟨fun few => ends (cycle.trans (early few)),
            fun c enough own busy => ends (cycle.trans (State.alarmCycled_busy def' cycles stream enough own (room c ▸ busy))),
            fun c enough own ready owes => ends (cycle.trans ?_),
            fun enough none_ fallback => ends (cycle.trans (State.alarmCycled_fallback def' cycles stream enough none_ fallback)),
            fun c enough none_ running free inside => ends (cycle.trans ?_)⟩
          · rw [State.alarmCycled_ready def' cycles stream enough own ((room c).trans ready)]
            refine State.beginVoicePhase_of own ((room c).trans ready) ?_
            rw [State.alarmCycled_pattern (by rw [voices]; exact isDue.1)]
            exact owes
          · refine State.alarmCycled_binds def' cycles stream enough none_ running free ?_
            unfold State.inWindow at inside ⊢
            rw [lists]
            exact inside
      · subst crew
        have areas (a : Fin 16) : paid.areaState .crewAlert a = s.areaState .crewAlert a := by
          obtain ⟨tones, e⟩ := only
          rw [e]
          rfl
        have programs : paid.programs = s.programs := by
          obtain ⟨tones, e⟩ := only
          rw [e]
        have quieted : s.cycleEnd v = paid.quieten .crewAlert allAreas .patternEnd :=
          ended.trans (State.alarmCycle_ends over_ (State.leadsNowhere stopped))
        obtain ⟨still, changes⟩ := crewAlert_quiet paid
        rw [List.filter_congr fun a _ => by rw [areas a]] at still changes
        intro changed
        refine ⟨fun none_ => ends (quieted.trans (still none_)), fun some_ => ⟨_, ends quieted, ?_⟩⟩
        obtain ⟨cleared, quiet, free, freed⟩ := changes some_
        exact ⟨cleared, quiet, free, fun busy => (freed (programs ▸ busy)).paid ⟨only, voices⟩⟩

end

section
/-! PROOF. A trunk over a period start, and what it sends (O38). -/

open Sys2Proof Sys2Proof.Machine

namespace Sys2Proof.Machine

/-! ### A trunk up to the latch -/

/-- An UP trunk whose sync hold stands at 0 is DOWN. -/
def Trunk.unsynced (t : Trunk) : Trunk := if t.link = .up ∧ t.sync = some 0 then { link := .down, training := t.training } else t

/-- A training begins: from DOWN, or again. -/
def Trunk.trains (t : Trunk) : Trunk := { t with link := .training, training := t.training + 1, answer := some 50 }

/-- A TRAINING trunk whose answer timer stands at 0 trains again. -/
def Trunk.unanswered (t : Trunk) : Trunk := if t.link = .training ∧ t.answer = some 0 then t.trains else t

/-- The two timers count down. -/
def Trunk.counted (t : Trunk) : Trunk := { t with answer := t.answer.map (· - 1), sync := t.sync.map (· - 1) }

/-- A DOWN trunk trains. -/
def Trunk.wakes (t : Trunk) : Trunk := if t.link = .down then t.trains else t

theorem State.syncExpired_trunk (s : State) (k : Fin 4) : (s.syncExpired k).trunks.get k = (s.trunks.get k).unsynced := by
  unfold Trunk.unsynced
  by_cases failing : (s.trunks.get k).failing
  · rw [State.syncExpired_of failing, State.leaveUp_trunks, Tab.get_modify_self]
    exact (if_pos failing).symm
  · rw [State.syncExpired_not failing]
    exact (if_neg failing).symm

theorem State.answerExpired_trunk (s : State) (k j : Fin 4) : (s.answerExpired k).trunks.get j =
    if j = k then (s.trunks.get k).unanswered else s.trunks.get j := by
  unfold State.answerExpired State.enterTraining Trunk.unanswered
  by_cases due : (s.trunks.get k).link = .training ∧ (s.trunks.get k).answer = some 0
  · rw [if_pos due]
    simp only [due.1, due.2, BEq.rfl, Bool.and_self, if_true, State.modTrunk_trunks, Tab.get_modify]
    split
    · next same => subst same; rfl
    · rfl
  · rw [if_neg due, if_neg (by simpa using due)]
    split
    · next same => rw [same]
    · rfl

theorem State.trainTrunk_trunk (s : State) (k j : Fin 4) : (s.trainTrunk k).trunks.get j =
    if j = k then (s.trunks.get k).wakes else s.trunks.get j := by
  unfold State.trainTrunk State.enterTraining Trunk.wakes
  by_cases down : (s.trunks.get k).link = .down
  · rw [if_pos down, if_pos (by simp [down]), State.modTrunk_trunks, Tab.get_modify]
    split
    · next same => subst same; rfl
    · rfl
  · rw [if_neg down, if_neg (by simpa using down)]
    split
    · next same => rw [same]
    · rfl

theorem Still.trunks : Still State.trunks := ⟨fun act => act.trunks, fun _ _ => rfl⟩

theorem State.slotsDue_trunks (s : State) : s.slotsDue.trunks = s.trunks := by
  have pending (x : Fin 8) (t : State) : (t.pendingExpired x).trunks = t.trunks := by
    unfold State.pendingExpired State.failChangeover State.freeSlot
    dsimp only
    split <;> simp
  have releasing (x : Fin 8) (t : State) : (t.releaseExpired x).trunks = t.trunks := by
    unfold State.releaseExpired State.freeSlot
    dsimp only
    split <;> simp
  unfold State.slotsDue
  rw [State.forAll_view (view := State.trunks) releasing, State.forAll_view (view := State.trunks) pending]

theorem State.partiesDue_trunks (s : State) : s.partiesDue.trunks = s.trunks := by
  unfold State.partiesDue
  rw [State.forAll_view (view := State.trunks) fun p t => (State.durationExpired_acts (Acts.refl t) p).trunks,
    State.forAll_view (view := State.trunks) fun p t => (State.gatherDue_acts (Acts.refl t) p).trunks,
    State.forAll_view (view := State.trunks) (f := State.ringsExpired) fun c t => State.forAll_view (view := State.trunks)
      (fun i t => (State.ringExpired_acts (Acts.refl t) c i).trunks) (allFin 8) t,
    State.forAll_view (view := State.trunks) fun n t => (State.holdExpired_acts (Acts.refl t) n).trunks]

theorem State.linksDue_trunk (s : State) (k : Fin 4) :
    s.linksDue.trunks.get k = (s.trunks.get k).unsynced.unanswered := by
  unfold State.linksDue
  rw [State.forAll_once (view := fun s => s.trunks.get k) (g := Trunk.unanswered)
      (fun t => by rw [State.answerExpired_trunk, if_pos rfl])
      (fun j _ other t => by rw [State.answerExpired_trunk, if_neg other.symm]) (allFin_nodup 4) (mem_allFin k),
    State.forAll_once (view := fun s => s.trunks.get k) (g := Trunk.unsynced) (fun t => t.syncExpired_trunk k)
      (fun j _ other t => t.syncExpired_trunks_ne other.symm) (allFin_nodup 4) (mem_allFin k),
    State.windowComplete_trunks,
    State.forAll_view (view := State.trunks) fun x t => (State.segmentEnd_acts (Acts.refl t) x).trunks]

theorem State.readied_trunk (s : State) (k : Fin 4) : s.readied.trunks.get k = (s.trunks.get k).wakes := by
  have cleared (c : Fin 16) (t : State) : (t.freeCleared c).trunks = t.trunks := by
    unfold State.freeCleared
    split
    · exact (State.freeCall_acts (Acts.refl t) c).trunks
    · rfl
  unfold State.readied
  rw [State.forAll_view (view := State.trunks) fun x t => (State.startVoice_quiet (Quiet.refl t) x).toActs.trunks,
    (State.showStep_quiet (Quiet.refl _)).toActs.trunks, State.forAll_view (view := State.trunks) cleared,
    State.forAll_once (view := fun s => s.trunks.get k) (g := Trunk.wakes)
      (fun t => by rw [State.trainTrunk_trunk, if_pos rfl])
      (fun j _ other t => by rw [State.trainTrunk_trunk, if_neg other.symm]) (allFin_nodup 4) (mem_allFin k)]

theorem State.beforeLatch_trunk (s : State) (k : Fin 4) :
    s.beforeLatch.trunks.get k = (s.trunks.get k).unsynced.unanswered.counted.wakes := by
  have due : s.settleDue.trunks = s.linksDue.trunks := by
    have scan (l : ListId) (t : State) : (t.scanExpired l).trunks = t.trunks := by
      obtain ⟨_, e⟩ := t.scanExpired_lists l
      rw [e]
    rw [State.settleDue_eq, State.forAll_view (view := State.trunks) scan, Still.trunks.beatExpired fun _ => rfl,
      State.partiesDue_trunks, State.slotsDue_trunks]
  have counts : s.settleDue.stepTimers.trunks.get k = (s.linksDue.trunks.get k).counted := by
    rw [← due]
    exact Tab.get_map ..
  rw [State.beforeLatch_eq, State.readied_trunk, counts, State.linksDue_trunk]

theorem Trunk.period_cases (u : Trunk) : let v := u.unsynced.unanswered.counted.wakes
    (u.link = .down → v = { u.counted with link := .training, training := u.training + 1, answer := some 50 }) ∧
    (u.link = .training → u.answer = some 0 → v = { u.counted with training := u.training + 1, answer := some 49 }) ∧
    (u.link = .training → u.answer ≠ some 0 → v = u.counted) ∧
    (u.link = .up → u.sync = some 0 → v = { link := .training, training := u.training + 1, answer := some 50 }) ∧
    (u.link = .up → u.sync ≠ some 0 → v = u.counted) := by
  obtain ⟨link, training, answer, sync, served, present, a, b, c⟩ := u
  refine ⟨?_, ?_, ?_, ?_, ?_⟩
  · rintro ⟨⟩
    simp [Trunk.unsynced, Trunk.unanswered, Trunk.counted, Trunk.wakes, Trunk.trains]
  · rintro ⟨⟩ ⟨⟩
    simp [Trunk.unsynced, Trunk.unanswered, Trunk.counted, Trunk.wakes, Trunk.trains]
  · rintro ⟨⟩ going
    have going : ¬answer = some 0 := going
    simp [Trunk.unsynced, Trunk.unanswered, Trunk.counted, Trunk.wakes, Trunk.trains, going]
  · rintro ⟨⟩ ⟨⟩
    simp [Trunk.unsynced, Trunk.unanswered, Trunk.counted, Trunk.wakes, Trunk.trains]
  · rintro ⟨⟩ synced
    have synced : ¬sync = some 0 := synced
    simp [Trunk.unsynced, Trunk.unanswered, Trunk.counted, Trunk.wakes, Trunk.trains, synced]

/-! ### What a trunk sends -/

/-- The changeover slot `z` is ACTIVE with outlet `o` in it. -/
def State.standsActive (s : State) (o : Fin 256) (z : Fin 8) : Prop :=
  (s.changeovers.get z).state = .active ∧ ((s.changeovers.get z).faulted = o ∨ (s.changeovers.get z).spare = o)

theorem State.activeChangeover_none {s : State} {o : Fin 256} (alone : ∀ z, ¬s.standsActive o z) :
    s.activeChangeover o = none := by
  refine List.find?_eq_none.mpr fun c mem => ?_
  obtain ⟨z, rfl⟩ := Tab.mem_list_iff.mp mem
  simpa [State.standsActive] using alone z

theorem State.activeChangeover_some {s : State} {o : Fin 256} {z : Fin 8} (stands : s.standsActive o z)
    (only : ∀ z', s.standsActive o z' → z' = z) : s.activeChangeover o = some (s.changeovers.get z) := by
  cases found : s.activeChangeover o with
  | none =>
    have missed := List.find?_eq_none.mp found _ (Tab.mem_list_iff.mpr ⟨z, rfl⟩)
    simp only [State.standsActive] at stands
    simp [stands.1, stands.2] at missed
  | some c =>
    obtain ⟨y, rfl⟩ := Tab.mem_list_iff.mp (List.mem_of_find?_eq_some found)
    have here := List.find?_some found
    rw [only y (by simpa [State.standsActive] using here)]

theorem allFin_get {n : Nat} (i : Fin n) : (allFin n)[i.val]? = some i := by
  simp [allFin]

theorem State.outboundOf_training {s : State} {k : Fin 4} (blocks : Tab 256 (List Int))
    (training : (s.trunks.get k).link = .training) : s.outboundOf blocks k =
      some (.offer k (s.trunks.get k).training 64 64 (List.replicate 64 (List.replicate 48 0))) := by
  unfold State.outboundOf
  dsimp only
  rw [training]
  rfl

theorem Changeover.command_eq (c : Changeover) : c.command =
    if c.state = .pending ∨ c.state = .active then some (c.faulted.val % 64, c.spare.val % 64) else none := by
  unfold Changeover.command slotOf
  cases c.state <;> rfl

theorem State.outboundOf_up {s : State} {k : Fin 4} (blocks : Tab 256 (List Int)) (up : (s.trunks.get k).link = .up) :
    ∃ samples lines commands, s.outboundOf blocks k = some (.transfer samples lines commands) ∧
      samples.length = 64 ∧ lines.length = 64 ∧ commands.length = 2 ∧
      (∀ j : Fin 2, commands[j.val]? = some (s.changeovers.get ⟨2 * k.val + j.val, by omega⟩).command) ∧
      ∀ y : Fin 64,
        samples[y.val]? =
          some (if y.val < (s.trunks.get k).served then s.slotAudio blocks (outletAt k y) else []) ∧
        lines[y.val]? = some ((s.trunks.get k).overrideLines && s.slotLine (outletAt k y)) := by
  refine ⟨_, _, _, by unfold State.outboundOf; dsimp only; rw [up], ?_, ?_, ?_, fun j => ?_, fun y => ⟨?_, ?_⟩⟩
  · simp [allFin]
  · simp [allFin]
  · simp [slotsOf]
  · rw [List.getElem?_map]
    match j with
    | 0 => rfl
    | 1 => rfl
  · rw [List.getElem?_map, allFin_get]
    rfl
  · rw [List.getElem?_map, allFin_get]
    rfl

end Sys2Proof.Machine

end

section
/-! PROOF. What every source gives, sample by sample, and what the Mixer makes of it (O38). -/

open Sys2Proof Sys2Proof.Machine

namespace Sys2Proof.Machine

/-! ### Sums of blocks, sample by sample -/

theorem sat24_range (x : Int) : -8388608 ≤ sat24 x ∧ sat24 x ≤ 8388607 := by
  unfold sat24
  omega

theorem silence48_get (k : Fin 48) : silence48[k.val]? = some 0 := by
  unfold silence48
  rw [List.getElem?_replicate, if_pos k.isLt]

theorem silence48_getD (k : Nat) : silence48.getD k 0 = 0 := by
  unfold silence48
  rw [List.getD_eq_getElem?_getD, List.getElem?_replicate]
  split <;> rfl

theorem mem_silence48 {y : Int} (mem : y ∈ silence48) : y = 0 := (List.mem_replicate.mp mem).2

theorem scaled_length (xs : List (List Int × Nat)) : (scaled xs).length = 48 := by
  simp [scaled, weighted]

theorem scaled_get (xs : List (List Int × Nat)) (k : Fin 48) :
    (scaled xs)[k.val]? = some (Int.tdiv (xs.map fun x => x.1.getD k.val 0 * (x.2 : Int)).sum 4096) := by
  simp [scaled, weighted, trunc]

theorem mixed_get (xs : List (List Int × Nat)) (k : Fin 48) :
    (mixed xs)[k.val]? = some (sat24 (Int.tdiv (xs.map fun x => x.1.getD k.val 0 * (x.2 : Int)).sum 4096)) := by
  unfold mixed
  rw [List.getElem?_map, scaled_get]
  rfl

theorem mixed_getD (xs : List (List Int × Nat)) (k : Fin 48) :
    (mixed xs).getD k.val 0 = sat24 (Int.tdiv (xs.map fun x => x.1.getD k.val 0 * (x.2 : Int)).sum 4096) := by
  rw [List.getD_eq_getElem?_getD, mixed_get]
  rfl

/-! ### An outlet's samples (R74, R75) -/

theorem State.mixOutlet_entry (s : State) (x : Sounds) (o : Fin 256) : (s.mixOutlet x o).1.gc =
    (mixStep (s.outlets.get o) (s.ambient.outlets.get o).factor ((s.holder o).map s.latch)
      ((s.undertone o).map s.latch) (s.mixer.get o)).gc := rfl

theorem State.mixOutlet_silent {s : State} (x : Sounds) {o : Fin 256} (unheld : s.holder o = none)
    (alone : s.undertone o = none) : (s.mixOutlet x o).2 = silence48.map sat24 := by
  simp [State.mixOutlet, State.outletQuotients, unheld, alone]

theorem State.mixOutlet_sounds {s : State} (x : Sounds) {o : Fin 256} {c : Claim} (held : s.holder o = some c) :
    (s.mixOutlet x o).2 = Machine.mixed [(s.claimBlock x (some c), (s.mixOutlet x o).1.gc),
      (s.claimBlock x (s.undertone o), (s.mixOutlet x o).1.uc)] := by
  simp only [State.mixOutlet, State.outletQuotients, held, Machine.mixed]

theorem State.mixOutlet_sounding {s : State} (x : Sounds) {o : Fin 256} {c : Claim} (held : s.undertone o = some c) :
    (s.mixOutlet x o).2 = Machine.mixed [(s.claimBlock x (s.holder o), (s.mixOutlet x o).1.gc),
      (s.claimBlock x (some c), (s.mixOutlet x o).1.uc)] := by
  simp only [State.mixOutlet, State.outletQuotients, held, Machine.mixed]
  cases s.holder o <;> rfl

theorem mixed_length (xs : List (List Int × Nat)) : (mixed xs).length = 48 := by
  simp [mixed, scaled_length]

theorem mixed_range (xs : List (List Int × Nat)) : ∀ y ∈ mixed xs, -8388608 ≤ y ∧ y ≤ 8388607 := by
  intro y mem
  obtain ⟨q, -, rfl⟩ := List.mem_map.mp mem
  exact sat24_range q

/-- An outlet's block is 48 samples in the sample range. -/
theorem State.mixOutlet_block (s : State) (x : Sounds) (o : Fin 256) : (s.mixOutlet x o).2.length = 48 ∧
    ∀ y ∈ (s.mixOutlet x o).2, -8388608 ≤ y ∧ y ≤ 8388607 := by
  cases held : s.holder o with
  | some c =>
    rw [State.mixOutlet_sounds x held]
    exact ⟨mixed_length _, mixed_range _⟩
  | none =>
    cases under : s.undertone o with
    | some u =>
      rw [State.mixOutlet_sounding x under]
      exact ⟨mixed_length _, mixed_range _⟩
    | none =>
      rw [State.mixOutlet_silent x held under]
      refine ⟨rfl, fun y mem => ?_⟩
      obtain ⟨q, -, rfl⟩ := List.mem_map.mp mem
      exact sat24_range q

theorem State.mixOutlet_still {s : State} (x : Sounds) {o : Fin 256} (unheld : s.holder o = none)
    (alone : s.undertone o = none) : ∀ y ∈ (s.mixOutlet x o).2, y = 0 := by
  rw [State.mixOutlet_silent x unheld alone]
  intro y mem
  obtain ⟨q, zero, rfl⟩ := List.mem_map.mp mem
  rw [mem_silence48 zero]
  rfl

theorem State.mixOutlet_alone {s : State} (x : Sounds) {o : Fin 256} {c : Claim} (held : s.holder o = some c)
    (alone : s.undertone o = none) (k : Fin 48) : (s.mixOutlet x o).2[k.val]? =
      some (sat24 (((s.claimBlock x (some c)).getD k.val 0 * ((s.mixOutlet x o).1.gc : Int)).tdiv 4096)) := by
  have silent : (s.claimBlock x none).getD k.val 0 = 0 := silence48_getD k.val
  rw [State.mixOutlet_sounds x held, mixed_get, alone]
  simp only [List.map_cons, List.map_nil, silent, Int.zero_mul, List.sum_cons, List.sum_nil, Int.add_zero]

theorem State.mixOutlet_both {s : State} (x : Sounds) {o : Fin 256} {c u : Claim} (held : s.holder o = some c)
    (under : s.undertone o = some u) (k : Fin 48) : (s.mixOutlet x o).2[k.val]? =
      some (sat24 (((s.claimBlock x (some c)).getD k.val 0 * ((s.mixOutlet x o).1.gc : Int)
        + (s.claimBlock x (some u)).getD k.val 0 * ((s.mixOutlet x o).1.uc : Int)).tdiv 4096)) := by
  rw [State.mixOutlet_sounds x held, mixed_get, under]
  simp

/-! ### Inlets (R26) -/

theorem State.inletBlock_silent {s : State} (audio : List (List Sample)) {i : Fin 256}
    (out : s.inlets.get i = .undefined ∨ (s.trunks.get (trunkOf i)).link ≠ .up ∨
      (s.trunks.get (trunkOf i)).present ≤ (slotOf i).val) : s.inletBlock audio i = silence48 := by
  unfold State.inletBlock
  refine if_neg fun heard => ?_
  obtain ⟨defined, heard⟩ := Bool.and_eq_true_iff.mp heard
  obtain ⟨up, inside⟩ := (s.heard_iff i).mp heard
  rcases out with undefined_ | down | beyond
  · exact (bne_iff_ne.mp defined) undefined_
  · exact down up
  · omega

/-! ### Calls: the talk inputs (R76) -/

/-- What party `j` of a call says in sample `k`. -/
def State.input (s : State) (x : Sounds) (c : Fin 16) (k : Fin 48) (j : Fin 8) : Int :=
  match (s.calls.get c).parties[j.val]? with
  | none => 0
  | some p =>
    if p.state = .connected then
      match (s.stations.get p.station).binding with
      | some b => (x.inlets.get b.1).getD k.val 0 * (p.talk : Int)
      | none => 0
    else 0

theorem State.talk_sample (s : State) (inlets : Tab 256 (List Int)) (p : Party) (k : Fin 48) :
    (s.talk inlets p).1.getD k.val 0 * ((s.talk inlets p).2 : Int) = match (s.stations.get p.station).binding with
      | some b => (inlets.get b.1).getD k.val 0 * (p.talk : Int)
      | none => 0 := by
  unfold State.talk
  cases (s.stations.get p.station).binding with
  | some b => rfl
  | none => simp only [silence48_getD, Int.zero_mul]

/-- A sum over the entries that are there is one over all, with 0 for the others. -/
theorem sum_filterMap {α β : Type} (f : α → Option β) (g : β → Int) (xs : List α) :
    ((xs.filterMap f).map g).sum = (xs.map fun x => ((f x).map g).getD 0).sum := by
  induction xs with
  | nil => rfl
  | cons x xs ih => cases here : f x <;> simp [here, ih]

theorem State.talkers_sum (s : State) (x : Sounds) (c : Fin 16) (skip : Option (Fin 8)) (k : Fin 48) :
    ((s.talkers x.inlets c skip).map fun y => y.1.getD k.val 0 * (y.2 : Int)).sum =
      ((allFin 8).map fun j => if skip = some j then 0 else s.input x c k j).sum := by
  unfold State.talkers
  rw [sum_filterMap]
  refine congrArg List.sum (List.map_congr_left fun j _ => ?_)
  unfold State.input
  cases (s.calls.get c).parties[j.val]? with
  | none => simp
  | some p =>
    by_cases skipped : skip = some j <;> by_cases connected : p.state = .connected <;>
      simp only [skipped, connected, BEq.rfl, bne_self_eq_false, Bool.and_false, Bool.false_eq_true, if_false, if_true,
        Option.map_none, Option.getD_none]
    · have heard : (skip != some j) = true := bne_iff_ne.mpr skipped
      simp only [heard, Bool.and_self, if_true, Option.map_some, Option.getD_some]
      exact s.talk_sample x.inlets p k
    · have deaf : (p.state == PartyState.connected) = false := beq_eq_false_iff_ne.mpr connected
      simp [deaf]

end Sys2Proof.Machine

end

section
/-! PROOF. The sources of claims, the show's buses and its gains (O38). -/

open Sys2Proof Sys2Proof.Machine

namespace Sys2Proof.Machine

/-! ### What a party's claim and a program's present (R64) -/

theorem State.partyBlock_connected {s : State} (x : Sounds) {c : Fin 16} {i : Fin 8} {p : Party}
    (here : (s.calls.get c).parties[i.val]? = some p) (connected : p.state = .connected) (k : Fin 48) :
    (s.partyBlock x c i)[k.val]? =
      some (sat24 (Int.tdiv ((allFin 8).map fun j => if j = i then 0 else s.input x c k j).sum 4096)) := by
  unfold State.partyBlock
  simp only [here, connected]
  rw [mixed_get, s.talkers_sum x]
  simp only [Option.some.injEq, eq_comm]

theorem State.partyBlock_ringing {s : State} (x : Sounds) {c : Fin 16} {i : Fin 8} {p : Party}
    (here : (s.calls.get c).parties[i.val]? = some p) (ringing : p.state = .ringing) :
    s.partyBlock x c i = s.voiceBlock x.voices .ring := by
  unfold State.partyBlock
  simp only [here, ringing]

theorem State.partyBlock_silent {s : State} (x : Sounds) {c : Fin 16} {i : Fin 8} {p : Party}
    (here : (s.calls.get c).parties[i.val]? = some p) (apart : p.state ≠ .connected) (quiet : p.state ≠ .ringing) :
    s.partyBlock x c i = silence48 := by
  unfold State.partyBlock
  simp only [here]
  cases state : p.state <;> simp_all

theorem AlarmKind.find_slot (q : AlarmKind) : AlarmKind.all.find? (fun k => k.slot == q.slot) = some q := by
  cases q <;> decide

/-- What an alarm's program presents by its phase. -/
theorem State.alarmBlock_of (s : State) (x : Sounds) (q : AlarmKind) : s.alarmBlock x q.slot =
    match (s.alarms.kinds.get q.idx).phase with
    | .unset => silence48
    | .tone => s.voiceBlock x.voices (.alarm q)
    | .voice => s.channelBlock x.channels (.program q.slot) := by
  unfold State.alarmBlock
  rw [AlarmKind.find_slot] <;> rfl

/-- What the source of a program gives. -/
def State.presented (s : State) (x : Sounds) (p : Fin 64) (source : Source) : List Int :=
  match source with
  | .silent => silence48
  | .inlet i => x.inlets.get i
  | .stream => s.channelBlock x.channels (.program p)
  | .bus b => x.buses.get b
  | .pageMix c => Machine.mixed (s.talkers x.inlets c none)
  | .alarmSound => s.alarmBlock x p

theorem State.programBlock_plays {s : State} (x : Sounds) {p : Fin 64} (plays : (s.programs.get p).state = .playing ∨
    (s.programs.get p).state = .held ∨ (s.programs.get p).state = .ending) :
    s.programBlock x p = s.presented x p (s.programs.get p).source := by
  unfold State.programBlock State.presented
  rcases plays with state | state | state <;> simp only [state] <;> rfl

theorem State.programBlock_gathers {s : State} (x : Sounds) {p : Fin 64} (state : (s.programs.get p).state = .gathering) :
    s.programBlock x p = silence48 := by
  unfold State.programBlock
  simp only [state]

theorem State.programBlock_chimes {s : State} (x : Sounds) {p : Fin 64} (state : (s.programs.get p).state = .chiming) :
    s.programBlock x p = s.voiceBlock x.voices (.chime p) := by
  unfold State.programBlock
  simp only [state]

theorem State.claimBlock_program (s : State) (x : Sounds) {d : Claim} {p : Fin 64} (own : d.owner = .program p) :
    s.claimBlock x (some d) = s.programBlock x p := by
  simp only [State.claimBlock, own]

theorem State.claimBlock_party (s : State) (x : Sounds) {d : Claim} {c : Fin 16} {i : Fin 8} (own : d.owner = .party c i) :
    s.claimBlock x (some d) = s.partyBlock x c i := by
  simp only [State.claimBlock, own]

/-! ### The show's buses (R77) -/

/-- What a show source gives in sample `k`. -/
def State.sourceSample (s : State) (inlets : Tab 256 (List Int)) (channels : Tab 16 (List Int)) (k : Fin 48) (y : Fin 16) :
    Int :=
  match s.theatre.bindings.get y with
  | .unbound => 0
  | .line i => (inlets.get i).getD k.val 0
  | .playback => match s.channelOf (.source y) with | some c => (channels.get c).getD k.val 0 | none => 0

theorem State.sourceBlock_sample (s : State) (inlets : Tab 256 (List Int)) (channels : Tab 16 (List Int)) (k : Fin 48)
    (y : Fin 16) : (s.sourceBlock inlets channels y).getD k.val 0 = s.sourceSample inlets channels k y := by
  unfold State.sourceBlock State.sourceSample State.channelBlock
  cases s.theatre.bindings.get y with
  | unbound => exact silence48_getD k.val
  | line i => rfl
  | playback =>
    cases s.channelOf (.source y) with
    | some c => rfl
    | none => exact silence48_getD k.val

theorem busBlock_sample (t : Theatre) (sources : Tab 16 (List Int)) (b : Fin 8) (k : Fin 48) :
    (busBlock t sources b)[k.val]? = some (sat24 (Int.tdiv (sat24 (Int.tdiv ((allFin 16).map fun y =>
      (sources.get y).getD k.val 0 * (t.gain (crosspoint y b) : Int)).sum 4096) * (t.gain (masterGain b) : Int)) 4096)) := by
  unfold busBlock
  dsimp only
  rw [mixed_get]
  simp only [List.map_cons, List.map_nil, List.sum_cons, List.sum_nil, Int.add_zero, mixed_getD, List.map_map,
    Function.comp_def]

theorem State.bus_sample (s : State) (audio : List (List Sample)) (channels : Tab 16 (List Int)) (voices : Tab 8 (List Int))
    (b : Fin 8) (k : Fin 48) : ((s.sounds audio channels voices).buses.get b)[k.val]? =
      some (sat24 (Int.tdiv (sat24 (Int.tdiv ((allFin 16).map fun y =>
        s.sourceSample (s.sounds audio channels voices).inlets channels k y * (s.theatre.gain (crosspoint y b) : Int)).sum 4096)
        * (s.theatre.gain (masterGain b) : Int)) 4096)) := by
  have bus : (s.sounds audio channels voices).buses.get b = busBlock s.theatre
      (Tab.ofFn (s.sourceBlock (s.sounds audio channels voices).inlets channels)) b := Tab.get_ofFn ..
  rw [bus, busBlock_sample]
  simp only [Tab.get_ofFn, State.sourceBlock_sample]

/-! ### The show's gains (R78) -/

/-- A part `pos` of `len` of a difference lies between 0 and the difference. -/
theorem tdiv_part (d : Int) {pos len : Nat} (inside : pos ≤ len) :
    min 0 d ≤ Int.tdiv (d * pos) len ∧ Int.tdiv (d * pos) len ≤ max 0 d := by
  have part (n : Nat) : n * pos / len ≤ n := Nat.div_le_of_le_mul (Nat.mul_comm len n ▸ Nat.mul_le_mul_left n inside)
  have natural (n : Nat) : Int.tdiv ((n : Int) * pos) len = ((n * pos / len : Nat) : Int) := by
    rw [← Int.natCast_mul, ← Int.ofNat_tdiv]
  obtain ⟨n, rfl | rfl⟩ := d.eq_nat_or_neg
  · rw [natural]
    have within : ((n * pos / len : Nat) : Int) ≤ n := Int.ofNat_le.mpr (part n)
    generalize n * pos / len = moved at within
    omega
  · rw [Int.neg_mul, Int.neg_tdiv, natural]
    have within : ((n * pos / len : Nat) : Int) ≤ n := Int.ofNat_le.mpr (part n)
    generalize n * pos / len = moved at within
    omega

/-- The show's gains are on their way from LIVE to NEXT. -/
def Theatre.fades (t : Theatre) : Prop :=
  t.state = .fading ∨ (t.state = .held ∧ ∃ r, t.hold = some r ∧ r.heldFrom = .fading)

theorem Theatre.fades_iff (t : Theatre) :
    (t.state == .fading || (t.state == .held && t.hold.any fun r => r.heldFrom == .fading)) = true ↔ t.fades := by
  unfold Theatre.fades
  cases t.hold <;> simp

theorem Theatre.gain_live {t : Theatre} (i : Fin 136) (steady : ¬t.fades ∨ t.next = none) : t.gain i = t.live.get i := by
  unfold Theatre.gain
  dsimp only
  cases next : t.next with
  | none => rfl
  | some bank =>
    refine if_neg ?_
    rw [Theatre.fades_iff]
    rw [next] at steady
    exact steady.resolve_right nofun

theorem Theatre.gain_faded {t : Theatre} (i : Fin 136) {bank : Bank} (fades : t.fades) (next : t.next = some bank)
    (inside : t.pos ≤ t.len) :
    (t.gain i : Int) = t.live.get i + Int.tdiv (((bank.get i : Int) - t.live.get i) * t.pos) t.len ∧
      min (t.live.get i) (bank.get i) ≤ t.gain i ∧ t.gain i ≤ max (t.live.get i) (bank.get i) ∧
      (t.pos = 0 → t.gain i = t.live.get i) ∧ (t.pos = t.len → t.len ≠ 0 → t.gain i = bank.get i) := by
  have gain : t.gain i =
      ((t.live.get i : Int) + Int.tdiv (((bank.get i : Int) - t.live.get i) * t.pos) t.len).toNat := by
    unfold Theatre.gain
    rw [next]
    exact if_pos (t.fades_iff.mpr fades)
  have between := tdiv_part ((bank.get i : Int) - t.live.get i) inside
  have start (zero : t.pos = 0) : Int.tdiv (((bank.get i : Int) - t.live.get i) * t.pos) t.len = 0 := by
    rw [zero]
    simp
  have arrived (whole : t.pos = t.len) (some_ : t.len ≠ 0) :
      Int.tdiv (((bank.get i : Int) - t.live.get i) * t.pos) t.len = (bank.get i : Int) - t.live.get i := by
    rw [whole]
    exact Int.mul_tdiv_cancel _ (by exact_mod_cast some_)
  generalize Int.tdiv (((bank.get i : Int) - t.live.get i) * t.pos) t.len = moved at gain between start arrived ⊢
  refine ⟨by omega, by omega, by omega, fun zero => ?_, fun whole some_ => ?_⟩
  · have := start zero
    omega
  · have := arrived whole some_
    omega

end Sys2Proof.Machine

end

section
/-! PROOF. The mix period (O38). -/

open Sys2Proof Sys2Proof.Machine

namespace Sys2Proof.Machine

/-- What every source gives in the period that starts in `s`. -/
def State.heardIn (s : State) (audio : List (List Sample)) : Sounds :=
  s.sounds audio ((s.channels.map Channel.give).map Prod.fst) ((s.tones.voices.map Voice.give).map Prod.fst)

theorem State.mixed_computed (audio : List (List Sample)) (s : State) :
    (s.mixed audio).mixer = (Tab.ofFn (s.mixOutlet (s.heardIn audio))).map Prod.fst ∧
    (s.mixed audio).outbound =
      Tab.ofFn (s.outboundOf ((Tab.ofFn (s.mixOutlet (s.heardIn audio))).map Prod.snd)) ∧
    (s.mixed audio).trunks = s.trunks ∧ (s.mixed audio).changeovers = s.changeovers := by
  unfold State.mixed
  dsimp only
  rw [State.beginWindow_eq]
  exact ⟨rfl, rfl, rfl, rfl⟩

theorem Moved.outbound {s t : State} (h : Moved s t) : t.outbound = s.outbound := by
  obtain ⟨_, _, _, _, _, _, _, _, _, _, _, rfl⟩ := h
  rfl

theorem Moved.changeovers {s t : State} (h : Moved s t) : t.changeovers = s.changeovers := by
  obtain ⟨_, _, _, _, _, _, _, _, _, _, _, rfl⟩ := h
  rfl

/-- What a period from the latch on leaves of the mixer, of the trunks and their slots, and what the trunks send. -/
theorem State.period_computed (audio : List (List Sample)) {l t : State} (ran : t = (l.mixPeriod audio).arbitrate) :
    (∀ o, t.mixer.get o = (l.mixOutlet (l.heardIn audio) o).1) ∧
    (∀ k, t.outbound.get k = l.outboundOf ((Tab.ofFn (l.mixOutlet (l.heardIn audio))).map Prod.snd) k) ∧
    t.trunks = l.trunks ∧ t.changeovers = l.changeovers := by
  have moved := State.mixPeriod_moved l audio
  obtain ⟨mixer, outbound, trunks, changeovers⟩ := l.mixed_computed audio
  generalize l.mixPeriod audio = m at moved ran
  subst ran
  refine ⟨fun o => ?_, fun k => ?_, ?_, ?_⟩
  · have same : m.arbitrate.mixer = _ := (State.arbitrate_mixer _).trans (moved.mixer.trans mixer)
    rw [same, Tab.get_map, Tab.get_ofFn]
  · have same : m.arbitrate.outbound = _ := (State.arbitrate_outbound _).trans (moved.outbound.trans outbound)
    rw [same, Tab.get_ofFn]
  · exact (State.arbitrate_trunks _).trans (moved.trunks.trans trunks)
  · exact (State.arbitrate_changeovers _).trans (moved.changeovers.trans changeovers)

/-! ### What a period start leaves alone -/

/-- The tables of settings, the root block and the registers of the host. -/
def State.settings (s : State) :=
  (s.outlets, s.inlets, s.contacts, s.theatre.bindings, s.alarms.defs, s.lists.root, s.regs.rootadr, s.regs.cmask, s.regs.run)

theorem Framed.settings : Framed State.settings where
  acts act := by
    unfold State.settings
    rw [act.outlets, act.inlets, act.contacts, act.bindings, act.defs, act.root, act.rootadr, act.cmask, act.run]
  ambient _ _ := rfl
  trunk _ _ _ := rfl
  loop _ _ _ := rfl

theorem Framed.time : Framed State.time where
  acts act := act.time
  ambient _ _ := rfl
  trunk _ _ _ := rfl
  loop _ _ _ := rfl

theorem State.settings_period (s : State) (audio : List (List Sample)) :
    (s.beforeLatch.mixPeriod audio).arbitrate.settings = s.settings := by
  have unmixed : Unmixed State.settings := ⟨fun _ _ _ _ _ => rfl, fun s => by simp [State.settings, s.arbitrate_untouched.root]⟩
  have stepped (t : State) : t.stepTimers.settings = t.settings := by
    unfold State.stepTimers State.settings
    dsimp only
    split <;> rfl
  have scan (l : ListId) (t : State) : (t.scanExpired l).settings = t.settings := by
    unfold State.scanExpired
    split
    · rw [State.requestWalk_eq]
      rfl
    · rfl
  rw [unmixed.granted, Framed.settings.mixPeriod unmixed]
  exact Framed.settings.beforeLatch (fun _ _ _ => rfl) (fun _ => rfl) stepped scan s

theorem State.time_period (s : State) (audio : List (List Sample)) :
    (s.beforeLatch.mixPeriod audio).arbitrate.time = s.time + 1 := by
  have unmixed : Unmixed State.time := ⟨fun _ _ _ _ _ => rfl, fun s => by simp⟩
  have scan (l : ListId) (t : State) : (t.scanExpired l).time = t.time := by
    obtain ⟨_, e⟩ := t.scanExpired_lists l
    rw [e]
  have due : s.settleDue.time = s.time := by
    rw [State.settleDue_eq, State.forAll_view (view := State.time) scan, Framed.time.toStill.beatExpired fun _ => rfl,
      Framed.time.partiesDue, Framed.time.slotsDue fun _ _ _ => rfl, Framed.time.linksDue fun _ _ _ => rfl]
  rw [unmixed.granted, Framed.time.mixPeriod unmixed, State.beforeLatch_eq, Framed.time.readied, ← due]
  rfl

/-! ### The slots of an UP trunk -/

/-- What a slot that stands in no changeover sends, and one that stands in one alone. -/
theorem State.slot_sends (l : State) (blocks : Tab 256 (List Int)) (o : Fin 256) :
    ((∀ z, ¬l.standsActive o z) → l.slotAudio blocks o = blocks.get o ∧ l.slotLine o = l.claims.lines.get o) ∧
    ∀ z, l.standsActive o z → (∀ z', l.standsActive o z' → z' = z) →
      ((l.changeovers.get z).faulted = o → l.slotAudio blocks o = silence48 ∧ l.slotLine o = false) ∧
      ((l.changeovers.get z).faulted ≠ o → l.slotAudio blocks o = blocks.get (l.changeovers.get z).faulted ∧
        l.slotLine o = l.claims.lines.get (l.changeovers.get z).faulted) := by
  unfold State.slotAudio State.slotLine
  refine ⟨fun alone => ?_, fun z stands only => ?_⟩
  · rw [State.activeChangeover_none alone]
    exact ⟨rfl, rfl⟩
  · rw [State.activeChangeover_some stands only]
    exact ⟨fun faulted => ⟨if_pos faulted, if_pos faulted⟩, fun spare => ⟨if_neg spare, if_neg spare⟩⟩

/-- What slot `y` of an UP trunk carries, by the changeover it stands in. -/
theorem State.outbound_slot {l : State} (x : Sounds) (k : Fin 4) (y : Fin 64) {samples : List (List Int)} {lines : List Bool}
    {served : Nat} {able : Bool}
    (slot : samples[y.val]? =
        some (if y.val < served then l.slotAudio ((Tab.ofFn (l.mixOutlet x)).map Prod.snd) (outletAt k y) else []) ∧
      lines[y.val]? = some (able && l.slotLine (outletAt k y))) :
    let o : Fin 256 := ⟨64 * k.val + y.val, by omega⟩
    let sent (block : List Int) (line : Bool) : Prop :=
      samples[y.val]? = some (if y.val < served then block else []) ∧ lines[y.val]? = some (able && line)
    let stands (z : Fin 8) : Prop := (l.changeovers.get z).state = .active ∧
      ((l.changeovers.get z).faulted = o ∨ (l.changeovers.get z).spare = o)
    ((∀ z, ¬stands z) → sent (l.mixOutlet x o).2 (l.claims.lines.get o)) ∧
    ∀ z, stands z → (∀ z', stands z' → z' = z) →
      ((l.changeovers.get z).faulted = o → sent (List.replicate 48 0) false) ∧
      ((l.changeovers.get z).faulted ≠ o →
        sent (l.mixOutlet x (l.changeovers.get z).faulted).2 (l.claims.lines.get (l.changeovers.get z).faulted)) := by
  intro o sent stands
  obtain ⟨audible, lined⟩ := slot
  obtain ⟨alone, switched⟩ := l.slot_sends ((Tab.ofFn (l.mixOutlet x)).map Prod.snd) (outletAt k y)
  have blocks (q : Fin 256) : ((Tab.ofFn (l.mixOutlet x)).map Prod.snd).get q = (l.mixOutlet x q).2 := by
    rw [Tab.get_map, Tab.get_ofFn]
  simp only [blocks] at alone switched
  have carried {block : List Int} {line : Bool}
      (sends : l.slotAudio ((Tab.ofFn (l.mixOutlet x)).map Prod.snd) (outletAt k y) = block ∧
        l.slotLine (outletAt k y) = line) : sent block line := by
    obtain ⟨rfl, rfl⟩ := sends
    exact ⟨audible, lined⟩
  refine ⟨fun free => carried (alone free), fun z here only => ?_⟩
  obtain ⟨faulted, spare⟩ := switched z here only
  exact ⟨fun same => carried (faulted same), fun other => carried (spare other)⟩

end Sys2Proof.Machine

/-- Settles O38. -/
theorem mixPeriod : Obligations.MixPeriod := by
  unfold Obligations.MixPeriod
  refine ⟨?_, ?_, ?_, ?_⟩
  · intro s audio
    refine ⟨_, exec_mixPeriodStart s audio, ?_⟩
    have settings := s.settings_period audio
    have time := s.time_period audio
    obtain ⟨mixer, outbound, trunks, changeovers⟩ := State.period_computed audio (l := s.beforeLatch) rfl
    obtain ⟨outlets, -⟩ := s.beforeLatch_tables
    have inlets := s.beforeLatch_tables.2
    have latched := s.beforeLatch_trunk
    generalize (s.beforeLatch.mixPeriod audio).arbitrate = t at settings time mixer outbound trunks changeovers ⊢
    generalize s.beforeLatch = l at mixer outbound trunks changeovers outlets inlets latched ⊢
    intro l_ chans voices x
    have sounds : x = l.heardIn audio := rfl
    rw [sounds]
    clear_value x
    refine ⟨fun o => ?_, fun o k c u held under => ?_, outbound, fun k => ?_, fun i out => ?_, time, ?_⟩
    · obtain ⟨length, range⟩ := l.mixOutlet_block (l.heardIn audio) o
      refine ⟨mixer o, ?_, length, range, State.mixOutlet_still _, fun k c held alone => ?_⟩
      · rw [mixer, l.mixOutlet_entry, outlets]
      · rw [mixer]
        exact State.mixOutlet_alone _ held alone k
    · rw [mixer]
      exact State.mixOutlet_both _ held under k
    · intro u v counted
      have stepped : v = u.unsynced.unanswered.counted.wakes := (congrArg (·.get k) trunks).trans (latched k)
      have here : v = l.trunks.get k := congrArg (·.get k) trunks
      obtain ⟨fromDown, again, training, failing, up⟩ := u.period_cases
      refine ⟨fun link => stepped.trans (fromDown link), fun link due => stepped.trans (again link due),
        fun link due => stepped.trans (training link due), fun link due => stepped.trans (failing link due),
        fun link due => stepped.trans (up link due), fun link => ?_, fun link => ?_⟩
      · rw [outbound, here]
        exact State.outboundOf_training _ (here ▸ link)
      · obtain ⟨samples, lines, commands, sends, count, lined, two, command, slot⟩ :=
          State.outboundOf_up ((Tab.ofFn (l.mixOutlet (l.heardIn audio))).map Prod.snd) (here ▸ link : (l.trunks.get k).link = .up)
        refine ⟨samples, lines, commands, (outbound k).trans sends, count, lined, two, fun j => ?_, fun z => ?_⟩
        · rw [changeovers]
          exact (command j).trans (congrArg some (Changeover.command_eq _))
        · rw [changeovers, here]
          exact State.outbound_slot (l.heardIn audio) k z (slot z)
    · have block : (l.heardIn audio).inlets.get i = l.inletBlock audio i := Tab.get_ofFn ..
      rw [block, State.inletBlock_silent audio (inlets ▸ out)]
      exact fun y mem => mem_silence48 mem
    · simp only [State.settings, Prod.mk.injEq] at settings
      exact settings
  · intro s x c d k call input
    have inputs : input = s.input x c k := rfl
    refine ⟨fun i p own here => ?_, fun p own => ?_⟩
    · rw [s.claimBlock_party x own]
      refine ⟨fun connected => ?_, s.partyBlock_ringing x here, fun apart quiet => ?_⟩
      · rw [inputs]
        exact State.partyBlock_connected x here connected k
      · rw [State.partyBlock_silent x here apart quiet]
        exact silence48_get k
    · intro pr block silence voice channel
      have block_ : block = s.programBlock x p := s.claimBlock_program x own
      rw [block_]
      refine ⟨s.programBlock_gathers x, s.programBlock_chimes x, fun plays => ?_, fun q here plays alarm => ?_, fun plays => ?_⟩
      · rw [State.programBlock_plays x (plays.imp_right .inr)]
        exact ⟨fun i source => by rw [source]; rfl, fun source => by rw [source]; rfl⟩
      · subst here
        rw [State.programBlock_plays x (.inl plays), alarm]
        have sounds : s.presented x q.slot .alarmSound = _ := s.alarmBlock_of x q
        rw [sounds]
        exact ⟨fun phase => by rw [phase]; rfl, fun phase => by rw [phase]; rfl, fun phase => by rw [phase]; rfl⟩
      · rw [State.programBlock_plays x plays]
        refine ⟨fun source => ?_, fun b source => by rw [source]; rfl⟩
        rw [source, inputs]
        refine (mixed_get _ k).trans ?_
        rw [s.talkers_sum x]
        rfl
  · intro s audio chans voices b k
    exact s.bus_sample audio chans voices b k
  · intro t i
    exact ⟨Theatre.gain_live i, fun bank fades next inside => Theatre.gain_faded i fades next inside⟩
end

section
/-! PROOF. DEFINE_OUTLET (O18) fails in one clause: that an outlet has no claim of program 59 unless program 59 is in use
before the record. The clause's premise keeps every channel from slot 59, and no voice. Where the voices are all taken and
one plays a chime of slot 59, the alarm kind that starts takes that voice (R137); slot 59 is PLAYING then, and the report to
the contact microphone program places its claim (R25). No run from power-on gives slot 59 a chime: the statement is about
every state, and needs the premise for the voices too. -/

open Sys2Proof Sys2Proof.Machine

namespace Sys2Proof.Machine

/-- A DEFINE_OUTLET record: outlet 0 is a CABIN_LOOP in area 0 without a sense inlet. -/
def loopRecord : Hand :=
  { addr := 64, bytes := [1, 1, 0, 0, 0, 0, 0, 0, 0, 0, 1, 0, 0, 0, 0, 0, 0, 0, 0, 0, 0, 0, 0, 0, 0, 0, 255, 255] }

/-- MUSTER is SOUNDING in area 0, where no outlet hears it, its program is FREE, and every voice plays a chime of slot 59,
which is FREE. -/
def chimingMic : State :=
  { State.reset with
    lists := { State.reset.lists with
      walkers := State.reset.lists.walkers.modify ListId.setup.idx fun w => { w with stage := .handOver loopRecord [] } }
    tones := { State.reset.tones with voices := Tab.replicate 8 { user := .chime 59 } }
    alarms := { State.reset.alarms with
      table := State.reset.alarms.table.modify AlarmKind.muster.idx fun row => row.set 0 .sounding
      defs := State.reset.alarms.defs.set AlarmKind.muster.idx (some { pattern := 0, toneCycles := 0, stream := none }) } }

/-- Whether an outcome leaves outlet 0 without a claim of program 59. -/
def lacksMic : Host.Outcome State Fault Refusal → Bool
  | .next t => !hasOwner (.program 59) (t.stack 0)
  | _ => true

theorem chimingMic_claims : lacksMic (exec .defineOutlet chimingMic) = false := by
  decide +kernel

theorem chimingMic_unused : ¬(chimingMic.stack 0 ≠ [] ∨
    (∃ x, ((chimingMic.changeovers.get x).state = .pending ∨ (chimingMic.changeovers.get x).state = .active) ∧
      ((chimingMic.changeovers.get x).faulted = 0 ∨ (chimingMic.changeovers.get x).spare = 0)) ∨
    (OutletKind.cabinLoop ≠ .station ∧ ∃ n i, (chimingMic.stations.get n).binding = some (i, 0))) := by
  have free (x : Fin 8) : (chimingMic.changeovers.get x).state = .free := by
    revert x
    decide
  have unbound (n : Fin 64) : (chimingMic.stations.get n).binding = none := by
    revert n
    decide +kernel
  rintro (stack | ⟨x, state, -⟩ | ⟨-, n, i, bound⟩)
  · exact stack rfl
  · rw [free x] at state
    exact state.elim nofun nofun
  · rw [unbound n] at bound
    exact absurd bound nofun

end Sys2Proof.Machine

/-- Refutes O18: in `chimingMic` program 59 is FREE before the record, and has a claim at outlet 0 after it. -/
theorem not_defineOutlet : ¬Obligations.DefineOutlet := by
  intro claim
  obtain ⟨-, applied⟩ := claim chimingMic loopRecord [] 0 .cabinLoop 0 none rfl rfl rfl rfl rfl (.inl ⟨rfl, rfl⟩)
  obtain ⟨t, ran, -, -, -, alarms, -⟩ := applied (.inr chimingMic_unused)
  obtain ⟨-, -, mic⟩ := alarms (.inl (by decide))
  have apart (c : Fin 16) : (chimingMic.channels.get c).owner ≠ some (.program 59) := by
    revert c
    decide
  have lacks : hasOwner (.program 59) (t.stack 0) = false := (mic apart).2 fun hears => hears.1 rfl
  have claimed := chimingMic_claims
  rw [ran] at claimed
  simp [lacksMic, lacks] at claimed

end
